-- ==== Sys2Proof/Word.lean ====
section
/-! DEFINITION. The words the Kweaz K7 computes with and their plainest arithmetic (R3, R11, R112). -/

namespace Sys2Proof

/-- One byte (R3). -/
abbrev Byte := BitVec 8
/-- One lane word, and one instruction word (R112). -/
abbrev Word32 := BitVec 32
/-- One scalar register or virtual address. -/
abbrev Word64 := BitVec 64
/-- A set of physical lanes of one wave: bit i is lane i. A wave has at most 1,024 lanes (R10); the
hierarchical words of R11 are `Mask.word` and `Mask.summary` of it. -/
abbrev Mask := BitVec 1024

/-- Is lane `i` in the mask? -/
def Mask.has (m : Mask) (i : Nat) : Bool := m.getLsbD i

/-- The mask of the lanes below `n`. -/
def Mask.below (n : Nat) : Mask := BitVec.ofNat 1024 (2 ^ n - 1)

/-- The mask holding lane `i` alone. -/
def Mask.single (i : Nat) : Mask := BitVec.ofNat 1024 (2 ^ i)

/-- The lanes of `m` that are not in `n`. -/
def Mask.diff (m n : Mask) : Mask := m &&& ~~~n

/-- Is every lane of `m` in `n`? -/
def Mask.sub (m n : Mask) : Bool := m.diff n == 0

/-- Mask word `j`: the lanes 32j to 32j + 31 (R11). -/
def Mask.word (m : Mask) (j : Nat) : Word32 := m.extractLsb' (32 * j) 32

/-- The summary word: bit j is set exactly when word j is nonzero (R11). -/
def Mask.summary (m : Mask) : Word32 :=
  BitVec.ofNat 32 ((List.range 32).foldl (fun acc j => if m.word j == 0 then acc else acc + 2 ^ j) 0)

/-- The lanes of `m` below `n`, ascending. -/
def Mask.lanes (m : Mask) (n : Nat) : List Nat := (List.range n).filter fun i => m.has i

/-- The mask of a list of lanes. -/
def Mask.ofLanes (l : List Nat) : Mask := l.foldl (fun m i => m ||| Mask.single i) 0

/-- The lowest lane of `m` below `n`; `n` when there is none. -/
def Mask.lowest (m : Mask) (n : Nat) : Nat := (m.lanes n).headD n

/-- The number of lanes of `m` below `n`. -/
def Mask.count (m : Mask) (n : Nat) : Nat := (m.lanes n).length

/-- trapmask (R127): bits 63:32 the pass summary, bits 31:0 the mask word of the lowest such pass. -/
def Mask.trapWord (m : Mask) : Word64 :=
  m.summary ++ m.word (((List.range 32).filter fun j => m.word j != 0).headD 0)

end Sys2Proof
end

