-- ==== Sys2Proof/Syntax.lean ====
section
/-! DEFINITION. The steps of the Kweaz K7: one constructor for each row of spec/opcode_table.json. The first 180 are the
Dexden 1 instruction words (R112-R125), with their fields as the opcode map numbers them; the rest are the device's events
and host commands, which have no word: their operands name what the event happens to. -/

namespace Sys2Proof

/-- Where a bit error arises or the scrubber reads (R337, R345, R352). -/
inductive ErrSite where
  | vreg (wave reg lane : Nat)
  | sreg (wave reg : Nat) (shadow : Bool)
  | tile (wave tile word : Nat) (twin : Bool)
  | splitTable (wave : Nat)
  | pipeline (wave : Nat)
  | crewStore (crew off : Nat)
  | marver (launch die off : Nat)
  | hbm (die line : Nat)
  | sideLog (core entry : Nat)
  | cullet (wave : Nat)
  deriving DecidableEq, Repr

/-- What a peer chip asks of one of this device's homes (R399). -/
inductive PeerOp where
  | read (len : Nat)
  | write (data : List Byte)
  | atomic (kind size : Nat) (operand compare : Word64)
  | cellAdd (int : Bool) (word : Word32)
  | cellClear
  | cellRead
  | leaseRequest (clocks : Nat)
  deriving DecidableEq, Repr

/-- A placement the host's policy chooses for one section of a loaded object (R109): the virtual address and the frame of
its first page; its pages follow one another in both. -/
structure Placement where
  va    : Nat
  frame : Nat
  deriving DecidableEq, Repr

/-- The steps of the machine. -/
inductive Instr where
  -- class 00, scalar (R122, R132)
  | sadd (d a b : BitVec 8)
  | ssub (d a b : BitVec 8)
  | smul (d a b : BitVec 8)
  | smulh (d a b : BitVec 8)
  | smulhu (d a b : BitVec 8)
  | sdiv (d a b : BitVec 8)
  | sdivu (d a b : BitVec 8)
  | srem (d a b : BitVec 8)
  | sremu (d a b : BitVec 8)
  | sand (d a b : BitVec 8)
  | sor (d a b : BitVec 8)
  | sxor (d a b : BitVec 8)
  | sshl (d a b : BitVec 8)
  | sshr (d a b : BitVec 8)
  | ssra (d a b : BitVec 8)
  | smin (d a b : BitVec 8)
  | smax (d a b : BitVec 8)
  | sminu (d a b : BitVec 8)
  | smaxu (d a b : BitVec 8)
  | scmov (d a b : BitVec 8)
  | spopc (d a : BitVec 8)
  | sclz (d a : BitVec 8)
  | sctz (d a : BitVec 8)
  | sbfx (d a b : BitVec 8)
  | sbfi (d a b : BitVec 8)
  | smov (d a : BitVec 8)
  | sceq (d a b : BitVec 8)
  | scne (d a b : BitVec 8)
  | sclt (d a b : BitVec 8)
  | scle (d a b : BitVec 8)
  | scltu (d a b : BitVec 8)
  | scleu (d a b : BitVec 8)
  | sread (d a : BitVec 8)
  | swrite (a b : BitVec 8)
  | sldl (d a b : BitVec 8)
  | sldw (d a b : BitVec 8)
  | sstl (d a b : BitVec 8)
  | sstw (d a b : BitVec 8)
  | sgetv (d a b : BitVec 8)
  | sli (d : BitVec 8) (i : BitVec 16)
  | slih (d : BitVec 8) (i : BitVec 16)
  | slix (d : BitVec 8) (i : BitVec 16)
  | sliy (d : BitVec 8) (i : BitVec 16)
  | saddi (d : BitVec 8) (i : BitVec 16)
  | sandi (d : BitVec 8) (i : BitVec 16)
  | sori (d : BitVec 8) (i : BitVec 16)
  | sxori (d : BitVec 8) (i : BitVec 16)
  | sshli (d : BitVec 8) (i : BitVec 6)
  | sshri (d : BitVec 8) (i : BitVec 6)
  | ssrai (d : BitVec 8) (i : BitVec 6)
  | smuli (d : BitVec 8) (i : BitVec 16)
  | sldp (d : BitVec 8) (i : BitVec 13)
  | satadd (d a b : BitVec 8)
  | satxchg (d a b : BitVec 8)
  | satcas (d a b : BitVec 8)
  | satmin (d a b : BitVec 8)
  | satmax (d a b : BitVec 8)
  | satand (d a b : BitVec 8)
  | sator (d a b : BitVec 8)
  | satxor (d a b : BitVec 8)
  -- class 01, vector ALU (R123)
  | vadd (d a b : BitVec 8)
  | vsub (d a b : BitVec 8)
  | vmul (d a b : BitVec 8)
  | vfma (d a b : BitVec 8)
  | vfms (d a b : BitVec 8)
  | vfnma (d a b : BitVec 8)
  | vmin (d a b : BitVec 8)
  | vmax (d a b : BitVec 8)
  | vabs (d a : BitVec 8)
  | vneg (d a : BitVec 8)
  | vdiv (d a b : BitVec 8)
  | vrem (d a b : BitVec 8)
  | vsqrt (d a : BitVec 8)
  | vrsqrt (d a : BitVec 8)
  | vrcp (d a : BitVec 8)
  | vexp2 (d a : BitVec 8)
  | vlog2 (d a : BitVec 8)
  | vmulh (d a b : BitVec 8)
  | vand (d a b : BitVec 8)
  | vor (d a b : BitVec 8)
  | vxor (d a b : BitVec 8)
  | vshl (d a b : BitVec 8)
  | vshr (d a b : BitVec 8)
  | vsra (d a b : BitVec 8)
  | vpopc (d a : BitVec 8)
  | vclz (d a : BitVec 8)
  | vceq (d a b : BitVec 8)
  | vcne (d a b : BitVec 8)
  | vclt (d a b : BitVec 8)
  | vcle (d a b : BitVec 8)
  | vcun (d a b : BitVec 8)
  | vsel (d a b : BitVec 8)
  | vcvt (d a : BitVec 8)
  | vrnd (d a : BitVec 8)
  | vmov (d a : BitVec 8)
  | vfromp (d a : BitVec 8)
  | vtop (d a : BitVec 8)
  | vpand (d a b : BitVec 8)
  | vpor (d a b : BitVec 8)
  | vpxor (d a b : BitVec 8)
  | vpnot (d a : BitVec 8)
  | vshfl (d a b : BitVec 8)
  | vshup (d a b : BitVec 8)
  | vshdn (d a b : BitVec 8)
  | vbcast (d a b : BitVec 8)
  | vscan (d a : BitVec 8)
  | vscanmax (d a : BitVec 8)
  | vscanmin (d a : BitVec 8)
  | vredsum (d a : BitVec 8)
  | vredmax (d a : BitVec 8)
  | vredmin (d a : BitVec 8)
  | vballot (d a b : BitVec 8)
  | vcount (d a : BitVec 8)
  | vrank (d a : BitVec 8)
  | vtag (d a : BitVec 8)
  | vgen (d : BitVec 8)
  -- class 10, memory, engines and matrix (R124)
  | vld (d a b : BitVec 8)
  | vst (d a b : BitVec 8)
  | vldraw (d a b : BitVec 8)
  | vstraw (d a b : BitVec 8)
  | vldb (d a b : BitVec 8)
  | vstb (d a b : BitVec 8)
  | vldh (d a b : BitVec 8)
  | vsth (d a b : BitVec 8)
  | vlds (d a : BitVec 8)
  | vsts (d a : BitVec 8)
  | vatadd (d a b : BitVec 8)
  | vatmin (d a b : BitVec 8)
  | vatmax (d a b : BitVec 8)
  | vatand (d a b : BitVec 8)
  | vator (d a b : BitVec 8)
  | vatxchg (d a b : BitVec 8)
  | vatcas (d a b : BitVec 8)
  | cxadd (d a b : BitVec 8)
  | cxget (d a b : BitVec 8)
  | cxclr (a b : BitVec 8)
  | cpin (a : BitVec 8)
  | cpout (a : BitVec 8)
  | cpgat (a : BitVec 8)
  | cpsca (a : BitVec 8)
  | cpfill (a : BitVec 8)
  | cplocal (a : BitVec 8)
  | wait (s n : BitVec 8)
  | fence (s r : BitVec 4)
  | mma (d a b : BitVec 8)
  | mmaz (d a b : BitVec 8)
  | mzero (d : BitVec 8)
  | mdrv (d a : BitVec 8)
  | mdrl (a b : BitVec 8)
  | mdrx (a b : BitVec 8)
  | mldv (d a : BitVec 8)
  -- class 11, control, mode and system (R125, R239)
  | bra (o : BitVec 20)
  | brp (p : BitVec 4) (o : BitVec 20)
  | brn (p : BitVec 4) (o : BitVec 20)
  | split (o : BitVec 20)
  | join
  | brk (n : BitVec 4) (o : BitVec 20)
  | brx (a b : BitVec 8)
  | call (o : BitVec 20)
  | ret
  | land
  | exit (a : BitVec 8)
  | refill (d : BitVec 8)
  | rgn (i : BitVec 24)
  | bar (d a : BitVec 8)
  | mode (i : BitVec 16)
  | modx (i : BitVec 21)
  | seed (a b : BitVec 8)
  | launch (a : BitVec 8)
  | trap (i : BitVec 24)
  | brkpt
  | preoff (i : BitVec 24)
  | preon
  | yield
  | sleep (i : BitVec 24)
  | bindq (d a b : BitVec 8)
  | nsclr
  | tret
  | inject (d a b : BitVec 8)
  | nop
  -- events of the model machine and the engines (R271, R209, R216)
  | portAccess (wave : Nat)
  | enginePartPerform (wave op part : Nat) (pick : Option Nat)
  | sideLog (wave op part : Nat)
  | sideLogReplay (core entry : Nat)
  | counterRetire (wave ctr : Nat)
  | atomicReturn (wave op : Nat)
  | errorResponse (wave op part : Nat)
  | matrixTurn (wave : Nat)
  -- wave life and timers (R17, R22, R24, R257, R260, R261)
  | waveDeal (wave : Nat)
  | waveRetire (wave : Nat)
  | prelimit (wave : Nat)
  | sleepEnd (wave lane : Nat)
  | systemModeTimeout (wave : Nat)
  -- queues, launches and placement (R291-R314)
  | tailWrite (q : Nat) (tail : Word64)
  | descriptorAccept (q : Nat)
  | launchStart (l : Nat)
  | crewPlace (l : Nat)
  | launchComplete (l : Nat)
  | bitmapBitSet (l p : Nat)
  | crewPreempt (crew : Nat)
  | crewReplace (crew : Nat)
  | assayDue (cluster : Nat)
  | assayDelayed (cluster : Nat)
  | assayEnd (cluster : Nat) (faulty : Bool)
  -- homes (R315-R332)
  | homeRequest (wave op part : Nat)
  | walkComplete (home ctx va : Nat)
  | retryAfterResend (wave op part : Nat)
  | leaseGrant (home chip ctx va clocks : Nat)
  | leaseExpire (home lease : Nat)
  | leaseRecallAck (home lease : Nat)
  | migrateCommit (home ctx va : Nat)
  -- host, peers, power and bring-up (R395-R405)
  | hostMemAccess (range off len : Nat) (wr : Option (List Byte))
  | hostGoResponse
  | peerRequest (chip ctx va : Nat) (lease : Option Nat) (op : PeerOp)
  | linkFlitRetry (link : Nat) (ok : Bool)
  | cxlLinkLoss
  | thermalTrip
  | resetRelease (linksGood : Bool) (header body : List Byte)
  | firmwareReady
  | facceptWrite (word : Nat) (value : Word32)
  | registerWrite (off : Nat) (data : List Byte)
  -- integrity, determinism, compatibility (R345-R352, R365, R376, R383)
  | regionRollback (wave : Nat)
  | launchReplay (l : Nat)
  | scrubPass (site : ErrSite)
  | tokenPass (l : Nat)
  | diverge (wave : Nat)
  | nativeCodeReady (handle version region : Nat)
  | softError (site : ErrSite) (bits : Nat)
  | registerWriteback (wave lane : Nat)
  | bandReopen (home : Nat)
  | leaseRecall (chip : Nat) (va : Nat)
  | arithmeticClockStep (up : Bool)
  -- host commands (R310, R320, R355, R397)
  | qstart (q : Nat)
  | qstop (q : Nat)
  | qevict (q : Nat)
  | qresume (q : Nat)
  | qkill (q : Nat)
  | load (ctx q : Nat) (objAddr handle : Word64) (buf : Nat) (place : List Placement)
  | ctxcreate (ctx : Nat) (debug : Bool) (handler : Word64)
  | ctxroot (ctx home : Nat) (root : Nat)
  | xinval (ctx home va len : Nat)
  | resolve (home tag : Nat) (map : Bool)
  | migrate (ctx home va frame : Nat)
  | fringset (home base size : Nat)
  | trapset (ctx : Nat) (addr : Word64)
  | ebset (ctx : Nat) (value : Word64)
  | ctxsave (ctx : Nat) (addr : Word64) (size buf : Nat)
  | ctxrestore (ctx : Nat) (addr : Word64) (buf : Nat)
  | ctxdestroy (ctx : Nat)
  | reclass (home band tier : Nat)
  | lehrset (home : Nat) (bands : List Nat)
  | corrread (ctx buf : Nat)
  | assayset (period : Nat) (returned : Option Nat)
  | tlogset (q : Nat) (base size mode : Nat)
  | logread (buf : Nat)
  | ilogread (buf : Nat)
  | peerset (chip : Nat) (linkmask : BitVec 12)
  | attest (ctx nonceAddr buf size : Nat)
  | attestCert (buf size : Nat)
  | pwrcap (watts : Nat)
  deriving DecidableEq, Repr

end Sys2Proof
end

