-- ==== Sys2Proof/Machine/Fields.lean ====
section
/-! DEFINITION. The kinds of instruction fields and the static part of the check of R126, step 2: field kinds (R114) and the
limits of immediates (R122-R125, R239). -/

namespace Sys2Proof.Machine

/-- Kind vr: v0 to v191 (R114). -/
def isVr (f : Byte) : Bool := decide (f.toNat ≤ 0xBF)
/-- Kind v: an operand of R115. -/
def isV (f : Byte) : Bool := decide (f.toNat ≤ 0xFA)
/-- Kind p: p0 to p15. -/
def isP (f : Byte) : Bool := decide (f.toNat ≤ 0x0F)
/-- Kind n: a special register of R127. -/
def isN (f : Byte) : Bool := decide (f.toNat ≤ 0x1B)
/-- Kind a: a0 to a15. -/
def isTile (f : Byte) : Bool := decide (f.toNat ≤ 0x0F)
/-- `vatcas`: vD and v(D + 1) (R124). -/
def isVrPair (f : Byte) : Bool := decide (f.toNat ≤ 0xBE)
/-- `mdrv`, `mldv`: 32 registers from it (R124). -/
def isVrRow (f : Byte) : Bool := decide (f.toNat ≤ 0xA0)
/-- `vballot`: a mask word or 0x20, the summary (R123). -/
def isSel (f : Byte) : Bool := decide (f.toNat ≤ 0x20)

/-- Are all fields within their kinds and limits? Events and commands have no fields of a word. -/
def fieldsLegal : Instr → Bool
  | .sadd _ _ _ => true
  | .ssub _ _ _ => true
  | .smul _ _ _ => true
  | .smulh _ _ _ => true
  | .smulhu _ _ _ => true
  | .sdiv _ _ _ => true
  | .sdivu _ _ _ => true
  | .srem _ _ _ => true
  | .sremu _ _ _ => true
  | .sand _ _ _ => true
  | .sor _ _ _ => true
  | .sxor _ _ _ => true
  | .sshl _ _ _ => true
  | .sshr _ _ _ => true
  | .ssra _ _ _ => true
  | .smin _ _ _ => true
  | .smax _ _ _ => true
  | .sminu _ _ _ => true
  | .smaxu _ _ _ => true
  | .scmov _ _ _ => true
  | .spopc _ _ => true
  | .sclz _ _ => true
  | .sctz _ _ => true
  | .sbfx _ _ _ => true
  | .sbfi _ _ _ => true
  | .smov _ _ => true
  | .sceq d _ _ => isP d
  | .scne d _ _ => isP d
  | .sclt d _ _ => isP d
  | .scle d _ _ => isP d
  | .scltu d _ _ => isP d
  | .scleu d _ _ => isP d
  | .sread _ a => isN a
  | .swrite a _ => isN a
  | .sldl _ _ _ => true
  | .sldw _ _ _ => true
  | .sstl _ _ _ => true
  | .sstw _ _ _ => true
  | .sgetv _ a _ => isVr a
  | .sli _ _ => true
  | .slih _ _ => true
  | .slix _ _ => true
  | .sliy _ _ => true
  | .saddi _ _ => true
  | .sandi _ _ => true
  | .sori _ _ => true
  | .sxori _ _ => true
  | .sshli _ _ => true
  | .sshri _ _ => true
  | .ssrai _ _ => true
  | .smuli _ _ => true
  | .sldp _ _ => true
  | .satadd _ _ _ => true
  | .satxchg _ _ _ => true
  | .satcas _ _ _ => true
  | .satmin _ _ _ => true
  | .satmax _ _ _ => true
  | .satand _ _ _ => true
  | .sator _ _ _ => true
  | .satxor _ _ _ => true
  | .vadd d a b => isVr d && isV a && isV b
  | .vsub d a b => isVr d && isV a && isV b
  | .vmul d a b => isVr d && isV a && isV b
  | .vfma d a b => isVr d && isV a && isV b
  | .vfms d a b => isVr d && isV a && isV b
  | .vfnma d a b => isVr d && isV a && isV b
  | .vmin d a b => isVr d && isV a && isV b
  | .vmax d a b => isVr d && isV a && isV b
  | .vabs d a => isVr d && isV a
  | .vneg d a => isVr d && isV a
  | .vdiv d a b => isVr d && isV a && isV b
  | .vrem d a b => isVr d && isV a && isV b
  | .vsqrt d a => isVr d && isV a
  | .vrsqrt d a => isVr d && isV a
  | .vrcp d a => isVr d && isV a
  | .vexp2 d a => isVr d && isV a
  | .vlog2 d a => isVr d && isV a
  | .vmulh d a b => isVr d && isV a && isV b
  | .vand d a b => isVr d && isV a && isV b
  | .vor d a b => isVr d && isV a && isV b
  | .vxor d a b => isVr d && isV a && isV b
  | .vshl d a b => isVr d && isV a && isV b
  | .vshr d a b => isVr d && isV a && isV b
  | .vsra d a b => isVr d && isV a && isV b
  | .vpopc d a => isVr d && isV a
  | .vclz d a => isVr d && isV a
  | .vceq d a b => isP d && isV a && isV b
  | .vcne d a b => isP d && isV a && isV b
  | .vclt d a b => isP d && isV a && isV b
  | .vcle d a b => isP d && isV a && isV b
  | .vcun d a b => isP d && isV a && isV b
  | .vsel d a b => isVr d && isV a && isV b
  | .vcvt d a => isVr d && isV a
  | .vrnd d a => isVr d && isV a
  | .vmov d a => isVr d && isV a
  | .vfromp d a => isVr d && isP a
  | .vtop d a => isP d && isV a
  | .vpand d a b => isP d && isP a && isP b
  | .vpor d a b => isP d && isP a && isP b
  | .vpxor d a b => isP d && isP a && isP b
  | .vpnot d a => isP d && isP a
  | .vshfl d a b => isVr d && isV a && isV b
  | .vshup d a b => isVr d && isV a && isV b
  | .vshdn d a b => isVr d && isV a && isV b
  | .vbcast d a b => isVr d && isV a && isV b
  | .vscan d a => isVr d && isV a
  | .vscanmax d a => isVr d && isV a
  | .vscanmin d a => isVr d && isV a
  | .vredsum d a => isVr d && isV a
  | .vredmax d a => isVr d && isV a
  | .vredmin d a => isVr d && isV a
  | .vballot _ a b => isP a && isSel b
  | .vcount _ a => isP a
  | .vrank d a => isVr d && isP a
  | .vtag _ a => isVr a
  | .vgen d => isVr d
  | .vld d a b => isVr d && isV a && isV b
  | .vst d a b => isV d && isV a && isV b
  | .vldraw d a b => isVr d && isV a && isV b
  | .vstraw d a b => isV d && isV a && isV b
  | .vldb d a b => isVr d && isV a && isV b
  | .vstb d a b => isV d && isV a && isV b
  | .vldh d a b => isVr d && isV a && isV b
  | .vsth d a b => isV d && isV a && isV b
  | .vlds d a => isVr d && isV a
  | .vsts d a => isV d && isV a
  | .vatadd d _ b => isVr d && isV b
  | .vatmin d _ b => isVr d && isV b
  | .vatmax d _ b => isVr d && isV b
  | .vatand d _ b => isVr d && isV b
  | .vator d _ b => isVr d && isV b
  | .vatxchg d _ b => isVr d && isV b
  | .vatcas d _ b => isVrPair d && isV b
  | .cxadd d _ b => isV d && isV b
  | .cxget d _ b => isVr d && isV b
  | .cxclr _ b => isV b
  | .cpin _ => true
  | .cpout _ => true
  | .cpgat _ => true
  | .cpsca _ => true
  | .cpfill _ => true
  | .cplocal _ => true
  | .wait s _ => decide (s.toNat ≤ 4)
  | .fence s r => decide (s.toNat ≤ 6) && decide (r.toNat ≤ 3)
  | .mma d _ _ => isTile d
  | .mmaz d _ _ => isTile d
  | .mzero d => isTile d
  | .mdrv d a => isVrRow d && isTile a
  | .mdrl a _ => isTile a
  | .mdrx a _ => isTile a
  | .mldv d a => isTile d && isVrRow a
  | .bra _ => true
  | .brp _ _ => true
  | .brn _ _ => true
  | .split _ => true
  | .join => true
  | .brk n _ => n != 0
  | .brx _ b => isV b
  | .call _ => true
  | .ret => true
  | .land => true
  | .exit a => isV a
  | .refill d => isP d
  | .rgn _ => true
  | .bar d a => isP d && decide (a.toNat ≤ 15)
  | .mode _ => true
  | .modx _ => true
  | .seed _ _ => true
  | .launch _ => true
  | .trap _ => true
  | .brkpt => true
  | .preoff i => decide (1 ≤ i.toNat ∧ i.toNat ≤ 65536)
  | .preon => true
  | .yield => true
  | .sleep _ => true
  | .bindq _ _ b => decide (b.toNat ≤ 1)
  | .nsclr => true
  | .tret => true
  | .inject d _ _ => isVr d
  | .nop => true
  | .portAccess _ => true
  | .enginePartPerform _ _ _ _ => true
  | .sideLog _ _ _ => true
  | .sideLogReplay _ _ => true
  | .counterRetire _ _ => true
  | .atomicReturn _ _ => true
  | .errorResponse _ _ _ => true
  | .matrixTurn _ => true
  | .waveDeal _ => true
  | .waveRetire _ => true
  | .prelimit _ => true
  | .sleepEnd _ _ => true
  | .systemModeTimeout _ => true
  | .tailWrite _ _ => true
  | .descriptorAccept _ => true
  | .launchStart _ => true
  | .crewPlace _ => true
  | .launchComplete _ => true
  | .bitmapBitSet _ _ => true
  | .crewPreempt _ => true
  | .crewReplace _ => true
  | .assayDue _ => true
  | .assayDelayed _ => true
  | .assayEnd _ _ => true
  | .homeRequest _ _ _ => true
  | .walkComplete _ _ _ => true
  | .retryAfterResend _ _ _ => true
  | .leaseGrant _ _ _ _ _ => true
  | .leaseExpire _ _ => true
  | .leaseRecallAck _ _ => true
  | .migrateCommit _ _ _ => true
  | .hostMemAccess _ _ _ _ => true
  | .hostGoResponse => true
  | .peerRequest _ _ _ _ _ => true
  | .linkFlitRetry _ _ => true
  | .cxlLinkLoss => true
  | .thermalTrip => true
  | .resetRelease _ _ _ => true
  | .firmwareReady => true
  | .facceptWrite _ _ => true
  | .registerWrite _ _ => true
  | .qstart _ => true
  | .qstop _ => true
  | .qevict _ => true
  | .qresume _ => true
  | .qkill _ => true
  | .load _ _ _ _ _ _ => true
  | .ctxcreate _ _ _ => true
  | .ctxroot _ _ _ => true
  | .xinval _ _ _ _ => true
  | .resolve _ _ _ => true
  | .migrate _ _ _ _ => true
  | .fringset _ _ _ => true
  | .trapset _ _ => true
  | .ebset _ _ => true
  | .ctxsave _ _ _ _ => true
  | .ctxrestore _ _ _ => true
  | .ctxdestroy _ => true
  | .reclass _ _ _ => true
  | .lehrset _ _ => true
  | .corrread _ _ => true
  | .assayset _ _ => true
  | .tlogset _ _ _ _ => true
  | .logread _ => true
  | .ilogread _ => true
  | .peerset _ _ => true
  | .attest _ _ _ _ => true
  | .attestCert _ _ => true
  | .pwrcap _ => true
  | .regionRollback _ => true
  | .launchReplay _ => true
  | .scrubPass _ => true
  | .tokenPass _ => true
  | .diverge _ => true
  | .nativeCodeReady _ _ _ => true
  | .softError _ _ => true
  | .registerWriteback _ _ => true
  | .bandReopen _ => true
  | .leaseRecall _ _ => true
  | .arithmeticClockStep _ => true

end Sys2Proof.Machine
end

