-- ==== Sys2Proof/WellFormed.lean ====
section
/-! DEFINITION. Well-formed instructions: every field within its kind (R114). -/

namespace Sys2Proof

/-- An instruction is well formed when every field holds a legal value of its kind and every immediate is within the limits of the
opcode map. An ill-formed word decodes, and traps ILLOP when it issues (R126, step 2). -/
def Instr.wellFormed (i : Instr) : Bool := Machine.fieldsLegal i

end Sys2Proof
end

