-- ==== Sys2Proof/Decode.lean ====
section
/-! DEFINITION. The decoder and the encoder (R112-R125). A word whose opcode its class does not list, or with a nonzero bit where
its format has a zero field, decodes to nothing: issued, it traps ILLOP (R126, steps 1 and 2). Field kinds (R114) are
`Machine.fieldsLegal`, judged at issue. -/

namespace Sys2Proof

/-- Class 00, scalar (R122): opcode, and bytes D, A and B. -/
def decodeScalar (op : Nat) (d a b : Byte) : Option Instr :=
  match op with
  | 0x00 => some (.sadd d a b)
  | 0x01 => some (.ssub d a b)
  | 0x02 => some (.smul d a b)
  | 0x03 => some (.smulh d a b)
  | 0x04 => some (.smulhu d a b)
  | 0x05 => some (.sdiv d a b)
  | 0x06 => some (.sdivu d a b)
  | 0x07 => some (.srem d a b)
  | 0x08 => some (.sremu d a b)
  | 0x09 => some (.sand d a b)
  | 0x0A => some (.sor d a b)
  | 0x0B => some (.sxor d a b)
  | 0x0C => some (.sshl d a b)
  | 0x0D => some (.sshr d a b)
  | 0x0E => some (.ssra d a b)
  | 0x0F => some (.smin d a b)
  | 0x10 => some (.smax d a b)
  | 0x11 => some (.sminu d a b)
  | 0x12 => some (.smaxu d a b)
  | 0x13 => some (.scmov d a b)
  | 0x14 => if b == 0 then some (.spopc d a) else none
  | 0x15 => if b == 0 then some (.sclz d a) else none
  | 0x16 => if b == 0 then some (.sctz d a) else none
  | 0x17 => some (.sbfx d a b)
  | 0x18 => some (.sbfi d a b)
  | 0x19 => if b == 0 then some (.smov d a) else none
  | 0x1A => some (.sceq d a b)
  | 0x1B => some (.scne d a b)
  | 0x1C => some (.sclt d a b)
  | 0x1D => some (.scle d a b)
  | 0x1E => some (.scltu d a b)
  | 0x1F => some (.scleu d a b)
  | 0x20 => if b == 0 then some (.sread d a) else none
  | 0x21 => if d == 0 then some (.swrite a b) else none
  | 0x22 => some (.sldl d a b)
  | 0x23 => some (.sldw d a b)
  | 0x24 => some (.sstl d a b)
  | 0x25 => some (.sstw d a b)
  | 0x26 => some (.sgetv d a b)
  | 0x28 => some (.sli d (a ++ b))
  | 0x29 => some (.slih d (a ++ b))
  | 0x2A => some (.slix d (a ++ b))
  | 0x2B => some (.sliy d (a ++ b))
  | 0x2C => some (.saddi d (a ++ b))
  | 0x2D => some (.sandi d (a ++ b))
  | 0x2E => some (.sori d (a ++ b))
  | 0x2F => some (.sxori d (a ++ b))
  | 0x30 => if a == 0 && b.extractLsb' 6 2 == 0 then some (.sshli d (b.extractLsb' 0 6)) else none
  | 0x31 => if a == 0 && b.extractLsb' 6 2 == 0 then some (.sshri d (b.extractLsb' 0 6)) else none
  | 0x32 => if a == 0 && b.extractLsb' 6 2 == 0 then some (.ssrai d (b.extractLsb' 0 6)) else none
  | 0x33 => some (.smuli d (a ++ b))
  | 0x34 => if b.extractLsb' 0 3 == 0 then some (.sldp d ((a ++ b).extractLsb' 3 13)) else none
  | 0x36 => some (.satadd d a b)
  | 0x37 => some (.satxchg d a b)
  | 0x38 => some (.satcas d a b)
  | 0x39 => some (.satmin d a b)
  | 0x3A => some (.satmax d a b)
  | 0x3B => some (.satand d a b)
  | 0x3C => some (.sator d a b)
  | 0x3D => some (.satxor d a b)
  | _ => none

/-- Class 01, vector ALU (R123): opcode, and bytes D, A and B. -/
def decodeVector (op : Nat) (d a b : Byte) : Option Instr :=
  match op with
  | 0x00 => some (.vadd d a b)
  | 0x01 => some (.vsub d a b)
  | 0x02 => some (.vmul d a b)
  | 0x03 => some (.vfma d a b)
  | 0x04 => some (.vfms d a b)
  | 0x05 => some (.vfnma d a b)
  | 0x06 => some (.vmin d a b)
  | 0x07 => some (.vmax d a b)
  | 0x08 => if b == 0 then some (.vabs d a) else none
  | 0x09 => if b == 0 then some (.vneg d a) else none
  | 0x0A => some (.vdiv d a b)
  | 0x0B => some (.vrem d a b)
  | 0x0C => if b == 0 then some (.vsqrt d a) else none
  | 0x0D => if b == 0 then some (.vrsqrt d a) else none
  | 0x0E => if b == 0 then some (.vrcp d a) else none
  | 0x0F => if b == 0 then some (.vexp2 d a) else none
  | 0x10 => if b == 0 then some (.vlog2 d a) else none
  | 0x11 => some (.vmulh d a b)
  | 0x12 => some (.vand d a b)
  | 0x13 => some (.vor d a b)
  | 0x14 => some (.vxor d a b)
  | 0x15 => some (.vshl d a b)
  | 0x16 => some (.vshr d a b)
  | 0x17 => some (.vsra d a b)
  | 0x18 => if b == 0 then some (.vpopc d a) else none
  | 0x19 => if b == 0 then some (.vclz d a) else none
  | 0x1A => some (.vceq d a b)
  | 0x1B => some (.vcne d a b)
  | 0x1C => some (.vclt d a b)
  | 0x1D => some (.vcle d a b)
  | 0x1E => some (.vcun d a b)
  | 0x1F => some (.vsel d a b)
  | 0x20 => if b == 0 then some (.vcvt d a) else none
  | 0x21 => if b == 0 then some (.vrnd d a) else none
  | 0x22 => if b == 0 then some (.vmov d a) else none
  | 0x23 => if b == 0 then some (.vfromp d a) else none
  | 0x24 => if b == 0 then some (.vtop d a) else none
  | 0x25 => some (.vpand d a b)
  | 0x26 => some (.vpor d a b)
  | 0x27 => some (.vpxor d a b)
  | 0x28 => if b == 0 then some (.vpnot d a) else none
  | 0x30 => some (.vshfl d a b)
  | 0x31 => some (.vshup d a b)
  | 0x32 => some (.vshdn d a b)
  | 0x33 => some (.vbcast d a b)
  | 0x34 => if b == 0 then some (.vscan d a) else none
  | 0x35 => if b == 0 then some (.vscanmax d a) else none
  | 0x36 => if b == 0 then some (.vscanmin d a) else none
  | 0x37 => if b == 0 then some (.vredsum d a) else none
  | 0x38 => if b == 0 then some (.vredmax d a) else none
  | 0x39 => if b == 0 then some (.vredmin d a) else none
  | 0x3A => some (.vballot d a b)
  | 0x3B => if b == 0 then some (.vcount d a) else none
  | 0x3C => if b == 0 then some (.vrank d a) else none
  | 0x3D => if b == 0 then some (.vtag d a) else none
  | 0x3E => if a == 0 && b == 0 then some (.vgen d) else none
  | _ => none

/-- Class 10, memory, engines and matrix (R124): opcode, and bytes D, A and B. -/
def decodeMemory (op : Nat) (d a b : Byte) : Option Instr :=
  match op with
  | 0x00 => some (.vld d a b)
  | 0x01 => some (.vst d a b)
  | 0x02 => some (.vldraw d a b)
  | 0x03 => some (.vstraw d a b)
  | 0x04 => some (.vldb d a b)
  | 0x05 => some (.vstb d a b)
  | 0x06 => some (.vldh d a b)
  | 0x07 => some (.vsth d a b)
  | 0x08 => if b == 0 then some (.vlds d a) else none
  | 0x09 => if b == 0 then some (.vsts d a) else none
  | 0x0A => some (.vatadd d a b)
  | 0x0B => some (.vatmin d a b)
  | 0x0C => some (.vatmax d a b)
  | 0x0D => some (.vatand d a b)
  | 0x0E => some (.vator d a b)
  | 0x0F => some (.vatxchg d a b)
  | 0x10 => some (.vatcas d a b)
  | 0x11 => some (.cxadd d a b)
  | 0x12 => some (.cxget d a b)
  | 0x13 => if d == 0 then some (.cxclr a b) else none
  | 0x18 => if d == 0 && b == 0 then some (.cpin a) else none
  | 0x19 => if d == 0 && b == 0 then some (.cpout a) else none
  | 0x1A => if d == 0 && b == 0 then some (.cpgat a) else none
  | 0x1B => if d == 0 && b == 0 then some (.cpsca a) else none
  | 0x1C => if d == 0 && b == 0 then some (.cpfill a) else none
  | 0x1D => if d == 0 && b == 0 then some (.cplocal a) else none
  | 0x20 => if a == 0 then some (.wait d b) else none
  | 0x21 => if a == 0 && b == 0 then some (.fence (d.extractLsb' 4 4) (d.extractLsb' 0 4)) else none
  | 0x28 => some (.mma d a b)
  | 0x29 => some (.mmaz d a b)
  | 0x2A => if a == 0 && b == 0 then some (.mzero d) else none
  | 0x2B => if b == 0 then some (.mdrv d a) else none
  | 0x2C => if d == 0 then some (.mdrl a b) else none
  | 0x2D => if d == 0 then some (.mdrx a b) else none
  | 0x2E => if b == 0 then some (.mldv d a) else none
  | _ => none

/-- Class 11, control, mode and system (R125): opcode, and bytes D, A and B. -/
def decodeControl (op : Nat) (d a b : Byte) : Option Instr :=
  match op with
  | 0x00 => if d.extractLsb' 4 4 == 0 then some (.bra ((d ++ a ++ b).extractLsb' 0 20)) else none
  | 0x01 => some (.brp (d.extractLsb' 4 4) ((d ++ a ++ b).extractLsb' 0 20))
  | 0x02 => some (.brn (d.extractLsb' 4 4) ((d ++ a ++ b).extractLsb' 0 20))
  | 0x03 => if d.extractLsb' 4 4 == 0 then some (.split ((d ++ a ++ b).extractLsb' 0 20)) else none
  | 0x04 => if d == 0 && a == 0 && b == 0 then some .join else none
  | 0x05 => some (.brk (d.extractLsb' 4 4) ((d ++ a ++ b).extractLsb' 0 20))
  | 0x06 => if d == 0 then some (.brx a b) else none
  | 0x07 => if d.extractLsb' 4 4 == 0 then some (.call ((d ++ a ++ b).extractLsb' 0 20)) else none
  | 0x08 => if d == 0 && a == 0 && b == 0 then some .ret else none
  | 0x09 => if d == 0 && a == 0 && b == 0 then some .land else none
  | 0x0A => if d == 0 && b == 0 then some (.exit a) else none
  | 0x0B => if a == 0 && b == 0 then some (.refill d) else none
  | 0x0C => some (.rgn (d ++ a ++ b))
  | 0x0D => if b == 0 then some (.bar d a) else none
  | 0x0E => if b == 0 then some (.mode (d ++ a)) else none
  | 0x0F => if b.extractLsb' 0 3 == 0 then some (.modx ((d ++ a ++ b).extractLsb' 3 21)) else none
  | 0x10 => if d == 0 then some (.seed a b) else none
  | 0x11 => if d == 0 && b == 0 then some (.launch a) else none
  | 0x12 => some (.trap (d ++ a ++ b))
  | 0x13 => if d == 0 && a == 0 && b == 0 then some .brkpt else none
  | 0x14 => some (.preoff (d ++ a ++ b))
  | 0x15 => if d == 0 && a == 0 && b == 0 then some .preon else none
  | 0x16 => if d == 0 && a == 0 && b == 0 then some .yield else none
  | 0x17 => some (.sleep (d ++ a ++ b))
  | 0x18 => some (.bindq d a b)
  | 0x19 => if d == 0 && a == 0 && b == 0 then some .nsclr else none
  | 0x1A => if d == 0 && a == 0 && b == 0 then some .tret else none
  | 0x1B => some (.inject d a b)
  | 0x1C => if d == 0 && a == 0 && b == 0 then some .nop else none
  | _ => none

/-- The instruction of the four bytes of a word, most significant first (R112, R113). -/
def decodeBytes4 (o d a b : Byte) : Option Instr :=
  let op := (o.extractLsb' 0 6).toNat
  match (o.extractLsb' 6 2).toNat with
  | 0 => decodeScalar op d a b
  | 1 => decodeVector op d a b
  | 2 => decodeMemory op d a b
  | _ => decodeControl op d a b

/-- The instruction of a word. -/
def decodeWord (w : Word32) : Option Instr :=
  decodeBytes4 (w.extractLsb' 24 8) (w.extractLsb' 16 8) (w.extractLsb' 8 8) (w.extractLsb' 0 8)

/-- Decodes the word that four bytes of code memory hold, little-endian (R3, R112), and gives the bytes after it. -/
def decode : List Byte → Option (Instr × List Byte)
  | b :: a :: d :: o :: rest => (decodeBytes4 o d a b).map fun i => (i, rest)
  | _ => none

/-- A 16-bit field as bytes A and B. -/
def split16 (i : BitVec 16) : Byte × Byte := (i.extractLsb' 8 8, i.extractLsb' 0 8)

/-- A 24-bit field as bytes D, A and B. -/
def split24 (i : BitVec 24) : Byte × Byte × Byte := (i.extractLsb' 16 8, i.extractLsb' 8 8, i.extractLsb' 0 8)

/-- The class-and-opcode byte and the bytes D, A and B of an instruction word; an event or command has no word. -/
def encodeBytes : Instr → Option (Byte × Byte × Byte × Byte)
  | .sadd d a b => some (0x00, d, a, b)
  | .ssub d a b => some (0x01, d, a, b)
  | .smul d a b => some (0x02, d, a, b)
  | .smulh d a b => some (0x03, d, a, b)
  | .smulhu d a b => some (0x04, d, a, b)
  | .sdiv d a b => some (0x05, d, a, b)
  | .sdivu d a b => some (0x06, d, a, b)
  | .srem d a b => some (0x07, d, a, b)
  | .sremu d a b => some (0x08, d, a, b)
  | .sand d a b => some (0x09, d, a, b)
  | .sor d a b => some (0x0A, d, a, b)
  | .sxor d a b => some (0x0B, d, a, b)
  | .sshl d a b => some (0x0C, d, a, b)
  | .sshr d a b => some (0x0D, d, a, b)
  | .ssra d a b => some (0x0E, d, a, b)
  | .smin d a b => some (0x0F, d, a, b)
  | .smax d a b => some (0x10, d, a, b)
  | .sminu d a b => some (0x11, d, a, b)
  | .smaxu d a b => some (0x12, d, a, b)
  | .scmov d a b => some (0x13, d, a, b)
  | .spopc d a => some (0x14, d, a, 0)
  | .sclz d a => some (0x15, d, a, 0)
  | .sctz d a => some (0x16, d, a, 0)
  | .sbfx d a b => some (0x17, d, a, b)
  | .sbfi d a b => some (0x18, d, a, b)
  | .smov d a => some (0x19, d, a, 0)
  | .sceq d a b => some (0x1A, d, a, b)
  | .scne d a b => some (0x1B, d, a, b)
  | .sclt d a b => some (0x1C, d, a, b)
  | .scle d a b => some (0x1D, d, a, b)
  | .scltu d a b => some (0x1E, d, a, b)
  | .scleu d a b => some (0x1F, d, a, b)
  | .sread d a => some (0x20, d, a, 0)
  | .swrite a b => some (0x21, 0, a, b)
  | .sldl d a b => some (0x22, d, a, b)
  | .sldw d a b => some (0x23, d, a, b)
  | .sstl d a b => some (0x24, d, a, b)
  | .sstw d a b => some (0x25, d, a, b)
  | .sgetv d a b => some (0x26, d, a, b)
  | .sli d i => some (0x28, d, (split16 i).1, (split16 i).2)
  | .slih d i => some (0x29, d, (split16 i).1, (split16 i).2)
  | .slix d i => some (0x2A, d, (split16 i).1, (split16 i).2)
  | .sliy d i => some (0x2B, d, (split16 i).1, (split16 i).2)
  | .saddi d i => some (0x2C, d, (split16 i).1, (split16 i).2)
  | .sandi d i => some (0x2D, d, (split16 i).1, (split16 i).2)
  | .sori d i => some (0x2E, d, (split16 i).1, (split16 i).2)
  | .sxori d i => some (0x2F, d, (split16 i).1, (split16 i).2)
  | .sshli d i => some (0x30, d, 0, 0#2 ++ i)
  | .sshri d i => some (0x31, d, 0, 0#2 ++ i)
  | .ssrai d i => some (0x32, d, 0, 0#2 ++ i)
  | .smuli d i => some (0x33, d, (split16 i).1, (split16 i).2)
  | .sldp d i => some (0x34, d, (split16 (i ++ 0#3)).1, (split16 (i ++ 0#3)).2)
  | .satadd d a b => some (0x36, d, a, b)
  | .satxchg d a b => some (0x37, d, a, b)
  | .satcas d a b => some (0x38, d, a, b)
  | .satmin d a b => some (0x39, d, a, b)
  | .satmax d a b => some (0x3A, d, a, b)
  | .satand d a b => some (0x3B, d, a, b)
  | .sator d a b => some (0x3C, d, a, b)
  | .satxor d a b => some (0x3D, d, a, b)
  | .vadd d a b => some (0x40, d, a, b)
  | .vsub d a b => some (0x41, d, a, b)
  | .vmul d a b => some (0x42, d, a, b)
  | .vfma d a b => some (0x43, d, a, b)
  | .vfms d a b => some (0x44, d, a, b)
  | .vfnma d a b => some (0x45, d, a, b)
  | .vmin d a b => some (0x46, d, a, b)
  | .vmax d a b => some (0x47, d, a, b)
  | .vabs d a => some (0x48, d, a, 0)
  | .vneg d a => some (0x49, d, a, 0)
  | .vdiv d a b => some (0x4A, d, a, b)
  | .vrem d a b => some (0x4B, d, a, b)
  | .vsqrt d a => some (0x4C, d, a, 0)
  | .vrsqrt d a => some (0x4D, d, a, 0)
  | .vrcp d a => some (0x4E, d, a, 0)
  | .vexp2 d a => some (0x4F, d, a, 0)
  | .vlog2 d a => some (0x50, d, a, 0)
  | .vmulh d a b => some (0x51, d, a, b)
  | .vand d a b => some (0x52, d, a, b)
  | .vor d a b => some (0x53, d, a, b)
  | .vxor d a b => some (0x54, d, a, b)
  | .vshl d a b => some (0x55, d, a, b)
  | .vshr d a b => some (0x56, d, a, b)
  | .vsra d a b => some (0x57, d, a, b)
  | .vpopc d a => some (0x58, d, a, 0)
  | .vclz d a => some (0x59, d, a, 0)
  | .vceq d a b => some (0x5A, d, a, b)
  | .vcne d a b => some (0x5B, d, a, b)
  | .vclt d a b => some (0x5C, d, a, b)
  | .vcle d a b => some (0x5D, d, a, b)
  | .vcun d a b => some (0x5E, d, a, b)
  | .vsel d a b => some (0x5F, d, a, b)
  | .vcvt d a => some (0x60, d, a, 0)
  | .vrnd d a => some (0x61, d, a, 0)
  | .vmov d a => some (0x62, d, a, 0)
  | .vfromp d a => some (0x63, d, a, 0)
  | .vtop d a => some (0x64, d, a, 0)
  | .vpand d a b => some (0x65, d, a, b)
  | .vpor d a b => some (0x66, d, a, b)
  | .vpxor d a b => some (0x67, d, a, b)
  | .vpnot d a => some (0x68, d, a, 0)
  | .vshfl d a b => some (0x70, d, a, b)
  | .vshup d a b => some (0x71, d, a, b)
  | .vshdn d a b => some (0x72, d, a, b)
  | .vbcast d a b => some (0x73, d, a, b)
  | .vscan d a => some (0x74, d, a, 0)
  | .vscanmax d a => some (0x75, d, a, 0)
  | .vscanmin d a => some (0x76, d, a, 0)
  | .vredsum d a => some (0x77, d, a, 0)
  | .vredmax d a => some (0x78, d, a, 0)
  | .vredmin d a => some (0x79, d, a, 0)
  | .vballot d a b => some (0x7A, d, a, b)
  | .vcount d a => some (0x7B, d, a, 0)
  | .vrank d a => some (0x7C, d, a, 0)
  | .vtag d a => some (0x7D, d, a, 0)
  | .vgen d => some (0x7E, d, 0, 0)
  | .vld d a b => some (0x80, d, a, b)
  | .vst d a b => some (0x81, d, a, b)
  | .vldraw d a b => some (0x82, d, a, b)
  | .vstraw d a b => some (0x83, d, a, b)
  | .vldb d a b => some (0x84, d, a, b)
  | .vstb d a b => some (0x85, d, a, b)
  | .vldh d a b => some (0x86, d, a, b)
  | .vsth d a b => some (0x87, d, a, b)
  | .vlds d a => some (0x88, d, a, 0)
  | .vsts d a => some (0x89, d, a, 0)
  | .vatadd d a b => some (0x8A, d, a, b)
  | .vatmin d a b => some (0x8B, d, a, b)
  | .vatmax d a b => some (0x8C, d, a, b)
  | .vatand d a b => some (0x8D, d, a, b)
  | .vator d a b => some (0x8E, d, a, b)
  | .vatxchg d a b => some (0x8F, d, a, b)
  | .vatcas d a b => some (0x90, d, a, b)
  | .cxadd d a b => some (0x91, d, a, b)
  | .cxget d a b => some (0x92, d, a, b)
  | .cxclr a b => some (0x93, 0, a, b)
  | .cpin a => some (0x98, 0, a, 0)
  | .cpout a => some (0x99, 0, a, 0)
  | .cpgat a => some (0x9A, 0, a, 0)
  | .cpsca a => some (0x9B, 0, a, 0)
  | .cpfill a => some (0x9C, 0, a, 0)
  | .cplocal a => some (0x9D, 0, a, 0)
  | .wait s n => some (0xA0, s, 0, n)
  | .fence s r => some (0xA1, s ++ r, 0, 0)
  | .mma d a b => some (0xA8, d, a, b)
  | .mmaz d a b => some (0xA9, d, a, b)
  | .mzero d => some (0xAA, d, 0, 0)
  | .mdrv d a => some (0xAB, d, a, 0)
  | .mdrl a b => some (0xAC, 0, a, b)
  | .mdrx a b => some (0xAD, 0, a, b)
  | .mldv d a => some (0xAE, d, a, 0)
  | .bra o => some (0xC0, split24 (0#4 ++ o))
  | .brp p o => some (0xC1, split24 (p ++ o))
  | .brn p o => some (0xC2, split24 (p ++ o))
  | .split o => some (0xC3, split24 (0#4 ++ o))
  | .join => some (0xC4, 0, 0, 0)
  | .brk n o => some (0xC5, split24 (n ++ o))
  | .brx a b => some (0xC6, 0, a, b)
  | .call o => some (0xC7, split24 (0#4 ++ o))
  | .ret => some (0xC8, 0, 0, 0)
  | .land => some (0xC9, 0, 0, 0)
  | .exit a => some (0xCA, 0, a, 0)
  | .refill d => some (0xCB, d, 0, 0)
  | .rgn i => some (0xCC, split24 i)
  | .bar d a => some (0xCD, d, a, 0)
  | .mode i => some (0xCE, (split16 i).1, (split16 i).2, 0)
  | .modx i => some (0xCF, split24 (i ++ 0#3))
  | .seed a b => some (0xD0, 0, a, b)
  | .launch a => some (0xD1, 0, a, 0)
  | .trap i => some (0xD2, split24 i)
  | .brkpt => some (0xD3, 0, 0, 0)
  | .preoff i => some (0xD4, split24 i)
  | .preon => some (0xD5, 0, 0, 0)
  | .yield => some (0xD6, 0, 0, 0)
  | .sleep i => some (0xD7, split24 i)
  | .bindq d a b => some (0xD8, d, a, b)
  | .nsclr => some (0xD9, 0, 0, 0)
  | .tret => some (0xDA, 0, 0, 0)
  | .inject d a b => some (0xDB, d, a, b)
  | .nop => some (0xDC, 0, 0, 0)
  | .portAccess _ => none
  | .enginePartPerform _ _ _ _ => none
  | .sideLog _ _ _ => none
  | .sideLogReplay _ _ => none
  | .counterRetire _ _ => none
  | .atomicReturn _ _ => none
  | .errorResponse _ _ _ => none
  | .matrixTurn _ => none
  | .waveDeal _ => none
  | .waveRetire _ => none
  | .prelimit _ => none
  | .sleepEnd _ _ => none
  | .systemModeTimeout _ => none
  | .tailWrite _ _ => none
  | .descriptorAccept _ => none
  | .launchStart _ => none
  | .crewPlace _ => none
  | .launchComplete _ => none
  | .bitmapBitSet _ _ => none
  | .crewPreempt _ => none
  | .crewReplace _ => none
  | .assayDue _ => none
  | .assayDelayed _ => none
  | .assayEnd _ _ => none
  | .homeRequest _ _ _ => none
  | .walkComplete _ _ _ => none
  | .retryAfterResend _ _ _ => none
  | .leaseGrant _ _ _ _ _ => none
  | .leaseExpire _ _ => none
  | .leaseRecallAck _ _ => none
  | .migrateCommit _ _ _ => none
  | .hostMemAccess _ _ _ _ => none
  | .hostGoResponse => none
  | .peerRequest _ _ _ _ _ => none
  | .linkFlitRetry _ _ => none
  | .cxlLinkLoss => none
  | .thermalTrip => none
  | .resetRelease _ _ _ => none
  | .firmwareReady => none
  | .facceptWrite _ _ => none
  | .registerWrite _ _ => none
  | .qstart _ => none
  | .qstop _ => none
  | .qevict _ => none
  | .qresume _ => none
  | .qkill _ => none
  | .load _ _ _ _ _ _ => none
  | .ctxcreate _ _ _ => none
  | .ctxroot _ _ _ => none
  | .xinval _ _ _ _ => none
  | .resolve _ _ _ => none
  | .migrate _ _ _ _ => none
  | .fringset _ _ _ => none
  | .trapset _ _ => none
  | .ebset _ _ => none
  | .ctxsave _ _ _ _ => none
  | .ctxrestore _ _ _ => none
  | .ctxdestroy _ => none
  | .reclass _ _ _ => none
  | .lehrset _ _ => none
  | .corrread _ _ => none
  | .assayset _ _ => none
  | .tlogset _ _ _ _ => none
  | .logread _ => none
  | .ilogread _ => none
  | .peerset _ _ => none
  | .attest _ _ _ _ => none
  | .attestCert _ _ => none
  | .pwrcap _ => none
  | .regionRollback _ => none
  | .launchReplay _ => none
  | .scrubPass _ => none
  | .tokenPass _ => none
  | .diverge _ => none
  | .nativeCodeReady _ _ _ => none
  | .softError _ _ => none
  | .registerWriteback _ _ => none
  | .bandReopen _ => none
  | .leaseRecall _ _ => none
  | .arithmeticClockStep _ => none

/-- The word of an instruction (R113). -/
def encode (i : Instr) : Option Word32 := (encodeBytes i).map fun (o, d, a, b) => o ++ d ++ a ++ b

/-- The instruction the decoder reads from an instruction whose bits are `w` (of `nbits` bits), its bytes laid out as memory
holds them, the first at the lowest address. -/
def decodeTableWord (nbits w : Nat) : Option Instr :=
  let bytes := (List.range 4).map fun k => BitVec.ofNat 8 ((w % 2 ^ nbits) / 2 ^ (8 * k))
  (decode bytes).map Prod.fst

end Sys2Proof
end

