-- ==== Sys2Proof/Config.lean ====
section
/-! DEFINITION. What the KZ7-P fixes (R2, R291, R332, R379) and the free values: opaque constants, about which nothing can be
proved, standing where the manual leaves a value open. -/

namespace Sys2Proof.Config

/-- Compute dies of the package (R2). -/
def dies : Nat := 4
/-- Clusters of a die (R2). -/
def clustersPerDie : Nat := 5
/-- Cores of a cluster (R2). -/
def coresPerCluster : Nat := 8
/-- Cores of the package, numbered 40·die + 8·cluster + core (R2, R127). -/
def cores : Nat := 160
/-- Partitions of a core (R2). -/
def partitionsPerCore : Nat := 8
/-- Vector rows of a partition (R2, R303). -/
def rowsPerPartition : Nat := 1024
/-- Wave slots of a partition (R2, R303). -/
def slotsPerPartition : Nat := 16
/-- Accumulator tiles of a partition (R2, R303). -/
def tilesPerPartition : Nat := 16
/-- Crew slots of a core (R2, R303). -/
def crewsPerCore : Nat := 16
/-- Crew-store granules of 4 KiB of a core (R303). -/
def granulesPerCore : Nat := 64
/-- Marver granules of 4 KiB of a die: 72 MiB (R2, R306). -/
def marverGranulesPerDie : Nat := 18432
/-- Copy requests a core may have outstanding (R2). -/
def copiesPerCore : Nat := 256
/-- Hardware queues (R291). -/
def queues : Nat := 256
/-- Held decrements of a queue (R295). -/
def heldDecrements : Nat := 1024
/-- Side-log entries of a core (R269). -/
def sideLogEntries : Nat := 128
/-- Translations in flight at a home (R322). -/
def walksPerHome : Nat := 4096
/-- Leases a peer chip may hold (R327). -/
def leasesPerChip : Nat := 1024
/-- Entries of the device error log (R332). -/
def errorLogEntries : Nat := 64
/-- Entries of the integrity log (R354). -/
def integrityLogEntries : Nat := 256
/-- Bands of a die (R334). -/
def bandsPerDie : Nat := 256
/-- Physical addresses of one band (R335). -/
def bandSpan : Nat := 0x24000000
/-- FOFFER0 (R379); FOFFER1 to FOFFER3 are zero. -/
def foffer0 : Word32 := 0xFF
/-- Clocks a wave may stay in system mode (R257). -/
def systemModeClocks : Nat := 65536
/-- Error budget of a new context (R340). -/
def initialEB : Word64 := 0x100000

/-- FREE VALUE (log 7): the clocks that pass during the n-th step, less one. The manual fixes no latency of a step. -/
opaque elapsed : Nat → Nat
/-- FREE VALUE (log 1): which of several steps that may be taken is taken next, at the n-th step. -/
opaque choice : Nat → Nat
/-- FREE VALUE (log 8): does a GR8 tie whose two neighbours do not differ in bit 0 of their codes go up? A function of
the lower neighbour's code (R42). -/
opaque gr8TieUp : Nat → Bool
/-- FREE VALUE (log 11): revision of the temper (R81). -/
opaque tempergen : Word32
/-- FREE VALUE (log 11): does the signature over a firmware header verify under the Norael firmware key (R401)? -/
opaque firmwareSignatureGood : List Byte → Bool
/-- FREE VALUE (log 11): the 512 signature bytes the device identity key makes over a report (R402), at the n-th free value
(an RSASSA-PSS signature is salted). -/
opaque identitySignature : Nat → List Byte → List Byte
/-- FREE VALUE (log 11): the identity key's certificate in DER (R402). -/
opaque identityCertificate : List Byte
/-- FREE VALUE (log 14): the retry-after hint of the n-th refusal (R322); the hint is 1 + (this mod 255). -/
opaque retryHint : Nat → Nat
/-- FREE VALUE (log 49): the 8 check bytes of a sealed line's code word, by its 64 bytes (R336). -/
opaque sealedCheck : List Byte → BitVec 64
/-- FREE VALUE (log 49): the check pattern that is the poison mark of a sealed line (R336). -/
opaque sealedPoison : BitVec 64
/-- FREE VALUE (log 12): the virtual address and the frame the host's policy gives the k-th section of the n-th load (R109). -/
opaque placementVa : Nat → Nat → Nat
/-- FREE VALUE (log 12): the frame of that section. -/
opaque placementFrame : Nat → Nat → Nat
/-- FREE VALUE (log 43): where in band 0 of its die the cullet keeps the checkpoint of the k-th wave (R334). -/
opaque culletAddr : Nat → Nat
/-- FREE VALUE (log 13): which of two allowed outcomes comes about. -/
opaque freeBool : Nat → Bool
/-- FREE VALUE (log 18, 19, 21): a word the manual does not state. -/
opaque freeWord : Nat → Word64

end Sys2Proof.Config
end

