-- ==== Sys2Proof/Machine/Numbers.lean ====
section
/-! DEFINITION. Number formats, exact values, rounding, microscaling blocks, the frit generator and crucible cells:
spec/03_numbers.md (R38-R60). -/

namespace Sys2Proof.Machine

/-- The native formats of R38. -/
inductive Fmt where
  | fp32 | bf16 | fp16 | e4m3 | e5m2 | gr8
  | mxfp8e4 | mxfp8e5 | mxfp6e2 | mxfp6e3 | mxfp4 | mxint8
  | i32 | i16 | i8 | i4 | n32 | n8 | crucible
  deriving DecidableEq, Repr

/-- Kind of a value class (R64, R82). -/
inductive Kind where
  | real | int | index
  deriving DecidableEq, Repr

/-- Format ids (R38). -/
def Fmt.id : Fmt → Nat
  | .fp32 => 0x01 | .bf16 => 0x02 | .fp16 => 0x03 | .e4m3 => 0x04 | .e5m2 => 0x05 | .gr8 => 0x06
  | .mxfp8e4 => 0x07 | .mxfp8e5 => 0x08 | .mxfp6e2 => 0x09 | .mxfp6e3 => 0x0A | .mxfp4 => 0x0B | .mxint8 => 0x0C
  | .i32 => 0x10 | .i16 => 0x11 | .i8 => 0x12 | .i4 => 0x13 | .n32 => 0x14 | .n8 => 0x15 | .crucible => 0x20

/-- Every format, in ascending id. -/
def Fmt.all : List Fmt :=
  [.fp32, .bf16, .fp16, .e4m3, .e5m2, .gr8, .mxfp8e4, .mxfp8e5, .mxfp6e2, .mxfp6e3, .mxfp4, .mxint8,
   .i32, .i16, .i8, .i4, .n32, .n8, .crucible]

/-- The format a byte names; a byte not listed in R38 names none. -/
def Fmt.ofId (n : Nat) : Option Fmt := Fmt.all.find? fun f => f.id == n

/-- Is it an MX format (R44)? -/
def Fmt.isMX : Fmt → Bool
  | .mxfp8e4 | .mxfp8e5 | .mxfp6e2 | .mxfp6e3 | .mxfp4 | .mxint8 => true
  | _ => false

/-- Kind of the classes a format may serve (R65). -/
def Fmt.kind : Fmt → Kind
  | .i32 | .i16 | .i8 | .i4 => .int
  | .n32 | .n8 => .index
  | _ => .real

/-- Bits of one element (R38). -/
def Fmt.bits : Fmt → Nat
  | .fp32 | .i32 | .n32 => 32
  | .bf16 | .fp16 | .i16 => 16
  | .e4m3 | .e5m2 | .gr8 | .mxfp8e4 | .mxfp8e5 | .mxint8 | .i8 | .n8 => 8
  | .mxfp6e2 | .mxfp6e3 => 6
  | .mxfp4 | .i4 => 4
  | .crucible => 512

/-- Element bytes E of one block of 32 (R44, R192); for I4 the 16 bytes of a block group. -/
def Fmt.blockBytes (f : Fmt) : Nat := f.bits * 32 / 8

/-- Are elements packed in blocks of 32 (I4 and the MX formats: R190, R218)? -/
def Fmt.packed (f : Fmt) : Bool := f.isMX || f == .i4

/-! ### Exact values -/

/-- An exact value: a NaN (signalling or not), an infinity, or (−1)^neg · m · 2^e; with `sticky` the magnitude lies strictly
between m · 2^e and (m + 1) · 2^e (a quotient or root that does not end). -/
inductive Val where
  | nan (signalling : Bool)
  | inf (neg : Bool)
  | num (neg : Bool) (m : Nat) (e : Int) (sticky : Bool)
  deriving DecidableEq, Repr

/-- +0. -/
def Val.zero : Val := .num false 0 0 false

/-- The exact value of an integer. -/
def Val.ofInt (z : Int) : Val := .num (decide (z < 0)) z.natAbs 0 false

/-- Is it a NaN? -/
def Val.isNan : Val → Bool
  | .nan _ => true
  | _ => false

/-- Is it a signalling NaN? -/
def Val.isSignalling : Val → Bool
  | .nan s => s
  | _ => false

/-- Is it an infinity? -/
def Val.isInf : Val → Bool
  | .inf _ => true
  | _ => false

/-- Is it a zero of either sign? -/
def Val.isZero : Val → Bool
  | .num _ 0 _ false => true
  | _ => false

/-- The sign bit (false for a NaN). -/
def Val.neg : Val → Bool
  | .nan _ => false
  | .inf n => n
  | .num n _ _ _ => n

/-- The value with its sign set. -/
def Val.withSign (n : Bool) : Val → Val
  | .nan s => .nan s
  | .inf _ => .inf n
  | .num _ m e st => .num n m e st

/-- The value negated. -/
def Val.negate (v : Val) : Val := v.withSign (!v.neg)

/-- z · 2^k as an integer at the scale 2^(e0), for e ≥ e0. -/
def scaleTo (neg : Bool) (m : Nat) (e e0 : Int) : Int :=
  let n : Int := (m <<< (e - e0).toNat : Nat)
  if neg then -n else n

/-- Compares two finite values: −1, 0 or 1 as the first is less than, equal to or greater than the second; −0 equals +0. -/
def cmpNum (na : Bool) (ma : Nat) (ea : Int) (nb : Bool) (mb : Nat) (eb : Int) : Ordering :=
  let e0 := min ea eb
  compare (scaleTo na ma ea e0) (scaleTo nb mb eb e0)

/-- Numeric order of two values that are no NaN (R169). -/
def Val.cmp : Val → Val → Ordering
  | .inf a, .inf b => if a == b then .eq else if a then .lt else .gt
  | .inf a, _ => if a then .lt else .gt
  | _, .inf b => if b then .gt else .lt
  | .num na ma ea _, .num nb mb eb _ => cmpNum na ma ea nb mb eb
  | _, _ => .eq

/-- Exact sum of two finite values, with the zero signs of R164: −0 when both are −0, and, when they cancel, −0 under RDN
(`rdn`) and +0 otherwise. -/
def addNum (rdn : Bool) (na : Bool) (ma : Nat) (ea : Int) (nb : Bool) (mb : Nat) (eb : Int) : Val :=
  let e0 := min ea eb
  let z := scaleTo na ma ea e0 + scaleTo nb mb eb e0
  if z = 0 then .num (if na == nb then na else rdn) 0 0 false
  else .num (decide (z < 0)) z.natAbs e0 false

/-- Exact sum (R163, R164); the Bool is the invalid flag: a signalling NaN or ∞ − ∞. -/
def Val.add (rdn : Bool) : Val → Val → Val × Bool
  | .nan s, .nan t => (.nan false, s || t)
  | .nan s, _ => (.nan false, s)
  | _, .nan t => (.nan false, t)
  | .inf a, .inf b => if a == b then (.inf a, false) else (.nan false, true)
  | .inf a, _ => (.inf a, false)
  | _, .inf b => (.inf b, false)
  | .num na ma ea _, .num nb mb eb _ => (addNum rdn na ma ea nb mb eb, false)

/-- Exact product (R163, R164); invalid: a signalling NaN or 0·∞. -/
def Val.mul : Val → Val → Val × Bool
  | .nan s, .nan t => (.nan false, s || t)
  | .nan s, _ => (.nan false, s)
  | _, .nan t => (.nan false, t)
  | .inf a, .inf b => (.inf (a != b), false)
  | .inf a, .num b m _ _ => if m = 0 then (.nan false, true) else (.inf (a != b), false)
  | .num a m _ _, .inf b => if m = 0 then (.nan false, true) else (.inf (a != b), false)
  | .num a ma ea _, .num b mb eb _ => (.num (a != b) (ma * mb) (ea + eb) false, false)

/-- Fused a·b + d (R163, R164): invalid also for 0·∞ + d with d a quiet NaN. -/
def Val.fma (rdn : Bool) (a b d : Val) : Val × Bool :=
  let p := a.mul b
  if p.1.isNan then (.nan false, p.2 || d.isSignalling) else p.1.add rdn d

/-! ### Binary floating-point encodings (R39) -/

/-- Which codes of a floating format are special (R39). -/
inductive Special where
  | ieee | e4m3 | none
  deriving DecidableEq, Repr

/-- A floating layout: e exponent bits, f fraction bits, the bias, and its special codes. -/
structure Float where
  ebits : Nat
  fbits : Nat
  bias : Nat
  special : Special
  deriving DecidableEq, Repr

def Float.fp32 : Float := ⟨8, 23, 127, .ieee⟩
def Float.bf16 : Float := ⟨8, 7, 127, .ieee⟩
def Float.fp16 : Float := ⟨5, 10, 15, .ieee⟩
def Float.e4m3 : Float := ⟨4, 3, 7, .e4m3⟩
def Float.e5m2 : Float := ⟨5, 2, 15, .ieee⟩
def Float.e3m2 : Float := ⟨3, 2, 3, .none⟩
def Float.e2m3 : Float := ⟨2, 3, 1, .none⟩
def Float.e2m1 : Float := ⟨2, 1, 1, .none⟩

/-- The exponent of the least subnormal, 1 − bias − f. -/
def Float.qmin (s : Float) : Int := 1 - (s.bias : Int) - s.fbits

/-- The largest finite magnitude is kmax · 2^qmax (R39, column Max). -/
def Float.qmax (s : Float) : Int :=
  match s.special with
  | .ieee => (2 ^ s.ebits - 2 : Nat) - (s.bias : Int) - s.fbits
  | _ => (2 ^ s.ebits - 1 : Nat) - (s.bias : Int) - s.fbits

/-- See `Float.qmax`. -/
def Float.kmax (s : Float) : Nat :=
  match s.special with
  | .e4m3 => 2 ^ (s.fbits + 1) - 2
  | _ => 2 ^ (s.fbits + 1) - 1

/-- The canonical NaN (R39). Formats without one never need it. -/
def Float.canonicalNan (s : Float) : Nat :=
  match s.special with
  | .ieee => (2 ^ s.ebits - 1) * 2 ^ s.fbits + 2 ^ (s.fbits - 1)
  | _ => 2 ^ (s.ebits + s.fbits) - 1

/-- The code of +∞ where the format has one. -/
def Float.infCode (s : Float) : Nat := (2 ^ s.ebits - 1) * 2 ^ s.fbits

/-- The weight of the sign bit. -/
def Float.signWeight (s : Float) : Nat := 2 ^ (s.ebits + s.fbits)

/-- The value a code stands for (R39). -/
def Float.decode (s : Float) (code : Nat) : Val :=
  let neg := code / s.signWeight % 2 == 1
  let ex := code / 2 ^ s.fbits % 2 ^ s.ebits
  let fr := code % 2 ^ s.fbits
  let top := 2 ^ s.ebits - 1
  if s.special = .ieee ∧ ex = top then
    if fr = 0 then .inf neg else .nan (decide (fr < 2 ^ (s.fbits - 1)))
  else if s.special = .e4m3 ∧ ex = top ∧ fr = 2 ^ s.fbits - 1 then .nan false
  else if ex = 0 then .num neg fr s.qmin false
  else .num neg (2 ^ s.fbits + fr) ((ex : Int) - s.bias - s.fbits) false

/-- The code of the magnitude k · 2^q, for k below 2^(f+1) on the format's grid (or k = 2^(f+1), the next binade). -/
def Float.encodeMag (s : Float) (k : Nat) (q : Int) : Nat :=
  if k < 2 ^ s.fbits then k
  else
    let (k, q) := if k = 2 ^ (s.fbits + 1) then (k / 2, q + 1) else (k, q)
    (q + s.bias + s.fbits).toNat * 2 ^ s.fbits + (k - 2 ^ s.fbits)

/-! ### Rounding (R51-R53) -/

/-- Rounding code, the random draw r of SRF and SRD, and MR.saturate. -/
structure RoundCtl where
  code : Nat
  r : Nat
  sat : Bool
  deriving DecidableEq, Repr

def RoundCtl.rne : RoundCtl := ⟨0, 0, false⟩

/-- A magnitude laid on a grid of spacing 2^q: the neighbour below it is k · 2^q; `inexact`, and how the rest compares with
half a spacing, and D16, the 16 bits below (R53). -/
structure OnGrid where
  k : Nat
  inexact : Bool
  half : Ordering
  d16 : Nat
  deriving DecidableEq, Repr

/-- Lays m · 2^e (with its sticky tail) on the grid of spacing 2^q. -/
def onGrid (m : Nat) (e : Int) (sticky : Bool) (q : Int) : OnGrid :=
  if e ≥ q then ⟨m <<< (e - q).toNat, sticky, .lt, 0⟩
  else
    let sh := (q - e).toNat
    let k := m >>> sh
    let rest := m - k <<< sh
    let h := compare (2 * rest) (2 ^ sh)
    ⟨k, rest != 0 || sticky, if h == .eq && sticky then .gt else h, (rest * 65536) >>> sh⟩

/-- Does an inexact magnitude go to the neighbour above (R51, R53)? `odd`: the lower neighbour's code is odd. -/
def roundsUp (c : RoundCtl) (neg odd : Bool) (g : OnGrid) : Bool :=
  match c.code with
  | 0 => g.half == .gt || (g.half == .eq && odd)
  | 1 => false
  | 2 => neg
  | 3 => !neg
  | 4 => g.half != .lt
  | 5 | 6 => decide (g.d16 + c.r ≥ 65536)
  | _ => false

/-- Does the rounding direction point toward zero for an overflow (R52)? -/
def towardZero (c : RoundCtl) (neg : Bool) : Bool :=
  c.code == 1 || (c.code == 2 && !neg) || (c.code == 3 && neg)

/-- A rounded result: the code and the flags overflow and underflow. -/
structure Rounded where
  code : Nat
  ovf : Bool
  unf : Bool
  deriving DecidableEq, Repr

/-- floor(log2 (m · 2^e)), for m ≠ 0. -/
def ilog2 (m : Nat) (e : Int) : Int := (m.log2 : Int) + e

/-- Is an overflow into this layout resolved to ±Max even with MR.saturate = 0 (MX elements: R52)? -/
def Float.saturates (s : Float) (asElement : Bool) : Bool := asElement || s.special == .none

/-- The result of an overflow of the given sign (R52). -/
def Float.overflow (s : Float) (asElement : Bool) (c : RoundCtl) (neg useDirection : Bool) : Rounded :=
  let sgn := if neg then s.signWeight else 0
  let maxCode := s.encodeMag s.kmax s.qmax
  if s.saturates asElement || c.sat || (useDirection && towardZero c neg) then ⟨sgn + maxCode, true, false⟩
  else match s.special with
    | .ieee => ⟨sgn + s.infCode, true, false⟩
    | _ => ⟨s.canonicalNan, true, false⟩

/-- Rounds an exact value into a floating layout (R52); `asElement`: as an element of an MX block, whose overflows saturate. A magnitude of exactly
Max + g that rounds toward zero has the result Max and is no overflow, as R52 words it, in the forms of R40 too (DEDUCED, log 48). -/
def Float.round (s : Float) (asElement : Bool) (c : RoundCtl) : Val → Rounded
  | .nan _ => ⟨s.canonicalNan, false, false⟩
  | .inf neg =>
    match s.special with
    | .ieee => if asElement then s.overflow asElement c neg false
               else ⟨(if neg then s.signWeight else 0) + s.infCode, false, false⟩
    | _ => s.overflow asElement c neg false
  | .num neg m e st =>
    let sgn := if neg then s.signWeight else 0
    if m = 0 ∧ st = false then ⟨sgn, false, false⟩
    else
      let top : Int := if m = 0 then s.qmin else ilog2 m e - s.fbits
      let q := min (max top s.qmin) s.qmax
      let g := onGrid m e st q
      let k := if g.inexact && roundsUp c neg (g.k % 2 == 1) g then g.k + 1 else g.k
      let atBound := decide (g.k = s.kmax + 1) && !g.inexact && towardZero c neg
      if q = s.qmax ∧ k > s.kmax then
        if atBound then ⟨sgn + s.encodeMag s.kmax s.qmax, false, false⟩ else s.overflow asElement c neg true
      else
        let small := g.inexact && decide (m = 0 ∨ ilog2 m e < s.qmin + s.fbits)
        ⟨sgn + s.encodeMag k q, false, small⟩

/-! ### GR8 (R41, R42) -/

/-- Fraction bits of the band that holds exponent x (R41). -/
def gr8F (x : Int) : Nat :=
  if -1 ≤ x ∧ x ≤ 0 then 5 else if -3 ≤ x ∧ x ≤ 2 then 3 else if -7 ≤ x ∧ x ≤ 6 then 1 else 0

/-- The GR8 code of the magnitude (2^F + fr) · 2^(x − F) (R41). -/
def gr8Code (x : Int) (fr : Nat) : Nat :=
  if x = -1 then 64 + fr else if x = 0 then 96 + fr
  else if x = -3 then 32 + fr else if x = -2 then 40 + fr else if x = 1 then 48 + fr else if x = 2 then 56 + fr
  else if -7 ≤ x ∧ x ≤ -4 then 16 + 2 * (x + 7).toNat + fr
  else if 3 ≤ x ∧ x ≤ 6 then 24 + 2 * (x - 3).toNat + fr
  else if -11 ≤ x ∧ x ≤ -8 then 8 + (x + 11).toNat
  else if 7 ≤ x ∧ x ≤ 10 then 12 + (x - 7).toNat
  else if x = -13 then 4 else if x = -12 then 5 else if x = 11 then 6 else if x = 12 then 7
  else if x = -14 then 2 else if x = 13 then 3
  else 1

/-- The magnitude of a nonzero GR8 code c6..c0, as m · 2^e (R41). -/
def gr8Mag (c : Nat) : Nat × Int :=
  if c ≥ 64 then (32 + c % 32, (if c / 32 % 2 = 1 then 0 else -1) - 5)
  else if c ≥ 32 then
    let x : Int := match c / 8 % 4 with | 0 => -3 | 1 => -2 | 2 => 1 | _ => 2
    (8 + c % 8, x - 3)
  else if c ≥ 16 then
    let i := c / 2 % 8
    (2 + c % 2, (if i < 4 then (i : Int) - 7 else (i : Int) - 1) - 1)
  else if c ≥ 8 then
    let i := c % 8
    (1, if i < 4 then (i : Int) - 11 else (i : Int) + 3)
  else if c ≥ 4 then (1, match c % 4 with | 0 => -13 | 1 => -12 | 2 => 11 | _ => 12)
  else if c ≥ 2 then (1, if c % 2 = 0 then -14 else 13)
  else (1, -15)

/-- The value of a GR8 code; NaR reads as a NaN that is not signalling (R41, R42). -/
def gr8Decode (code : Nat) : Val :=
  let c := code % 128
  let neg := code / 128 % 2 == 1
  if c = 0 then (if neg then .nan false else .zero)
  else .num neg (gr8Mag c).1 (gr8Mag c).2 false

/-- Rounds an exact value to GR8 (R42, R52). A tie between codes that do not differ in bit 0 is a free value (log 8); a magnitude of exactly Max + g
that rounds toward zero is no overflow. -/
def gr8Round (c : RoundCtl) : Val → Rounded
  | .nan _ => ⟨0x80, false, false⟩
  | .inf neg => ⟨(if neg then 0x80 else 0) + 3, true, false⟩
  | .num neg m e st =>
    if m = 0 ∧ st = false then ⟨0, false, false⟩
    else
      let x : Int := if m = 0 then -16 else ilog2 m e
      let sgn (code : Nat) : Nat := if code = 0 then 0 else (if neg then 0x80 else 0) + code
      -- q: the grid's spacing; below 2^-15 the neighbours are 0 and 2^-15, above 2^13 the spacing is 2^12 (R52)
      let q : Int := if x < -15 then -15 else if x ≥ 13 then 12 else x - gr8F x
      let g := onGrid m e st q
      -- codes of the lower and the upper neighbour
      let lo : Nat := if x < -15 then 0 else if x ≥ 13 then 3 else gr8Code x (g.k - 2 ^ gr8F x)
      let hi : Nat :=
        if x < -15 then 1 else if x ≥ 13 then 0
        else if g.k + 1 = 2 ^ (gr8F x + 1) then gr8Code (x + 1) 0 else gr8Code x (g.k + 1 - 2 ^ gr8F x)
      -- at and above 2^13 the magnitudes are Max = 2 · 2^12 and Max + g = 3 · 2^12
      if x ≥ 13 then
        let ovf := if g.k = 3 ∧ g.inexact = false then !towardZero c neg else decide (g.k ≥ 3) || (g.inexact && roundsUp c neg true g)
        ⟨sgn 3, ovf, false⟩
      else
        let tieUp : Bool :=
          if lo % 2 = 0 ∧ hi % 2 = 1 then false
          else if lo % 2 = 1 ∧ hi % 2 = 0 then true
          else Config.gr8TieUp lo
        let up := g.inexact && (if c.code == 0 && g.half == .eq then tieUp else roundsUp c neg true g)
        ⟨sgn (if up then hi else lo), false, g.inexact && decide (x < -15)⟩

/-! ### Integers (R48, R49) -/

/-- Rounds an exact value to an integer, with the integers as neighbours (R49, R52, R174). Infinities and NaNs are the
caller's. -/
def roundToInt (c : RoundCtl) (neg : Bool) (m : Nat) (e : Int) (st : Bool) : Int :=
  let g := onGrid m e st 0
  let k := if g.inexact && roundsUp c neg (g.k % 2 == 1) g then g.k + 1 else g.k
  if neg then -(k : Int) else k

/-- The range of an integer or index format (R48). -/
def Fmt.range : Fmt → Int × Int
  | .i32 => (-(2 ^ 31), 2 ^ 31 - 1)
  | .i16 => (-(2 ^ 15), 2 ^ 15 - 1)
  | .i8 => (-128, 127)
  | .i4 => (-8, 7)
  | .n32 => (0, 2 ^ 32 - 1)
  | .n8 => (0, 255)
  | _ => (0, 0)

/-- Reduces an exact integer to a format's range by saturation; the Bool: it lay outside (R49). -/
def Fmt.saturate (f : Fmt) (z : Int) : Int × Bool :=
  let (lo, hi) := f.range
  if z < lo then (lo, true) else if z > hi then (hi, true) else (z, false)

/-- The code of an integer in w bits of two's complement. -/
def codeOfInt (w : Nat) (z : Int) : Nat := (z % (2 ^ w : Int)).toNat

/-- The integer of a code of w bits, signed for int formats. -/
def intOfCode (signed : Bool) (w : Nat) (code : Nat) : Int :=
  let c := code % 2 ^ w
  if signed && decide (c ≥ 2 ^ (w - 1)) then (c : Int) - 2 ^ w else c

/-- The integer value of an element of an integer or index format. -/
def Fmt.intOf (f : Fmt) (code : Nat) : Int := intOfCode (f.kind == .int) f.bits code

/-- Wraps or saturates an exact arithmetic result into a compute form (R49); the Bool is the saturation flag. -/
def Fmt.reduce (f : Fmt) (sat : Bool) (z : Int) : Nat × Bool :=
  let (lo, hi) := f.range
  let out := decide (z < lo ∨ z > hi)
  (codeOfInt f.bits (if sat then (f.saturate z).1 else z), out)

/-- The floating layout of a scalar real format. -/
def Fmt.float : Fmt → Float
  | .fp32 => .fp32 | .bf16 => .bf16 | .fp16 => .fp16 | .e4m3 => .e4m3 | .e5m2 => .e5m2
  | .mxfp8e4 => .e4m3 | .mxfp8e5 => .e5m2 | .mxfp6e2 => .e2m3 | .mxfp6e3 => .e3m2 | .mxfp4 => .e2m1
  | _ => .fp32

/-- The exact value of a code of a scalar (non-MX) storage or compute format (R39, R41, R48). -/
def Fmt.valOf (f : Fmt) (code : Nat) : Val :=
  match f with
  | .gr8 => gr8Decode code
  | .i32 | .i16 | .i8 | .i4 | .n32 | .n8 => Val.ofInt (f.intOf code)
  | _ => f.float.decode code

/-- A conversion's result with the flags invalid, overflow, underflow, saturation. -/
structure Converted where
  code : Nat
  invalid : Bool
  ovf : Bool
  unf : Bool
  sat : Bool
  deriving DecidableEq, Repr

/-- Converts an exact value into a scalar format (R42, R49, R50, R52): real formats round; integer and index formats round
to an integer and always saturate. -/
def Fmt.convert (f : Fmt) (c : RoundCtl) (v : Val) : Converted :=
  match f.kind with
  | .real =>
    let r := if f == .gr8 then gr8Round c v else f.float.round false c v
    ⟨r.code, false, r.ovf, r.unf, false⟩
  | _ =>
    match v with
    | .nan _ => ⟨0, true, false, false, false⟩
    | .inf neg => ⟨codeOfInt f.bits (if neg then f.range.1 else f.range.2), false, false, false, true⟩
    | .num neg m e st =>
      let s := f.saturate (roundToInt c neg m e st)
      ⟨codeOfInt f.bits s.1, false, false, false, s.2⟩

/-! ### Microscaling blocks (R43-R47) -/

/-- e_max of an MX format (R44). -/
def Fmt.emax : Fmt → Int
  | .mxfp8e4 => 8 | .mxfp8e5 => 15 | .mxfp6e2 => 2 | .mxfp6e3 => 4 | .mxfp4 => 2
  | _ => 0

/-- The largest element of an MX format as m · 2^e (R44). -/
def Fmt.largest : Fmt → Nat × Int
  | .mxint8 => (127, -6)
  | f => (f.float.kmax, f.float.qmax)

/-- The value k of an MX element code; E4M3 and E5M2 codes of a NaN or infinity read as NaN (R44). -/
def Fmt.elemVal (f : Fmt) (code : Nat) : Val :=
  match f with
  | .mxint8 => let z := intOfCode true 8 code; .num (decide (z < 0)) z.natAbs (-6) false
  | _ =>
    match f.float.decode code with
    | .inf _ => .nan false
    | .nan _ => .nan false
    | v => v

/-- Element i of the E bytes of a block, as one little-endian integer (R45). -/
def blockElem (f : Fmt) (block : Nat) (i : Nat) : Nat := block >>> (f.bits * i) % 2 ^ f.bits

/-- The value of an MX element under scale code S: 2^(S − 127) · k, NaN under 0xFF (R43, R46). -/
def Fmt.scaled (f : Fmt) (scale code : Nat) : Val :=
  if scale = 0xFF then .nan false
  else match f.elemVal code with
    | .num n m e st => .num n m (e + (scale : Int) - 127) st
    | v => v

/-- Is |a| < |b|, for finite magnitudes? -/
def magLt (ma : Nat) (ea : Int) (mb : Nat) (eb : Int) : Bool := cmpNum false ma ea false mb eb == .lt

/-- The largest finite magnitude of a list of values; (0, 0) when all are zero. An infinity or a NaN beside it does not count (DESIGN CHOICE, log
48). -/
def maxMag (vs : List Val) : Nat × Int :=
  vs.foldl (fun acc v => match v with
    | .num _ m e _ => if magLt acc.1 acc.2 m e then (m, e) else acc
    | _ => acc) (0, 0)

/-- ⌈log2 (X / L)⌉ for X = mx · 2^ex, L = ml · 2^el, both nonzero: the least s with X ≤ L · 2^s (R47, ceil rule). -/
def ceilLog2Ratio (mx : Nat) (ex : Int) (ml : Nat) (el : Int) : Int :=
  let s0 := ilog2 mx ex - ilog2 ml el
  if cmpNum false mx ex false ml (el + (s0 - 1)) != .gt then s0 - 1
  else if cmpNum false mx ex false ml (el + s0) != .gt then s0
  else s0 + 1

/-- A converted MX block: element bytes as one little-endian integer, the scale code, and the flags overflow and MX-scale. -/
structure MXBlock where
  elems : Nat
  scale : Nat
  ovf : Bool
  mxclamp : Bool
  deriving DecidableEq, Repr

/-- Rounds one element v/2^s of a block (R47, step 5); a negative zero gets the positive code. -/
def mxElem (f : Fmt) (c : RoundCtl) (s : Int) (v : Val) : Nat :=
  match v with
  | .num n m e st =>
    match f with
    | .mxint8 =>
      let z := roundToInt c n m (e - s + 6) st
      codeOfInt 8 (if z > 127 then 127 else if z < -128 then -128 else z)
    | _ =>
      let code := (f.float.round true c (.num n m (e - s) st)).code
      if code = f.float.signWeight then 0 else code
  | _ => 0

/-- Converts 32 values into one MX block (R47); `ceil` selects the ceil rule and `cs` gives each position's rounding. -/
def mxConvert (f : Fmt) (ceil : Bool) (cs : List RoundCtl) (vs : List Val) : MXBlock :=
  if vs.any Val.isNan then ⟨0, 0xFF, false, false⟩
  else if vs.any Val.isInf then ⟨0, 0xFF, true, false⟩
  else
    let x := maxMag vs
    if x.1 = 0 then ⟨0, 0, false, false⟩
    else
      let s0 := if ceil then ceilLog2Ratio x.1 x.2 f.largest.1 f.largest.2 else ilog2 x.1 x.2 - f.emax
      let s := max (-127) (min 127 s0)
      let codes := List.zipWith (fun c v => mxElem f c s v) cs vs
      let elems := (codes.zipIdx.map fun (c, i) => c <<< (f.bits * i)).foldl (· + ·) 0
      ⟨elems, (s + 127).toNat, false, s != s0⟩

/-! ### The frit generator and the dither rule (R54-R56) -/

/-- r under SRF (R54); n and t are taken modulo 2^32. -/
def frit (seedlo seedhi t n : Word32) : Nat :=
  let x := seedlo ^^^ (n * 0x8F2D4C6B#32)
  let x := x ^^^ (t * 0xC13A97E5#32)
  let x := x ^^^ (x >>> 15)
  let x := x * 0x5B7E2D19#32
  let x := x ^^^ seedhi
  let x := x ^^^ (x >>> 13)
  let x := x * 0xE4A3F0C7#32
  let x := x ^^^ (x >>> 16)
  (x >>> 16).toNat

/-- The order of the five bits of a number reversed (R56). -/
def bitrev5 (n : Nat) : Nat :=
  (n % 2) * 16 + (n / 2 % 2) * 8 + (n / 4 % 2) * 4 + (n / 8 % 2) * 2 + n / 16 % 2

/-- r under SRD at position i with phase φ (R56). -/
def dither (i phase : Nat) : Nat := bitrev5 ((i + phase) % 32) * 2048

/-! ### Roots, quotients, exponent and logarithm (R166), each correctly rounded from an exact or sticky value -/

/-- Integer square root, by the bits of the root from `fuel` − 1 down. -/
def isqrtAux : Nat → Nat → Nat → Nat
  | 0, _, r => r
  | fuel + 1, n, r =>
    let r' := r + 2 ^ fuel
    if r' * r' ≤ n then isqrtAux fuel n r' else isqrtAux fuel n r

/-- ⌊√n⌋. -/
def isqrt (n : Nat) : Nat := isqrtAux (n.log2 / 2 + 1) n 0

/-- The quotient of two finite values, the divisor nonzero, to more than 80 bits with a sticky tail. -/
def quotient (na : Bool) (ma : Nat) (ea : Int) (nb : Bool) (mb : Nat) (eb : Int) : Val :=
  let k := 80 + mb.log2
  let n := ma <<< k
  .num (na != nb) (n / mb) (ea - eb - k) (n % mb != 0)

/-- √(m · 2^e). -/
def rootOf (m : Nat) (e : Int) : Val :=
  let (m, e) := if e % 2 = 0 then (m, e) else (2 * m, e - 1)
  let n := m <<< 160
  let s := isqrt n
  .num false s (e / 2 - 80) (s * s != n)

/-- 1/√(m · 2^e), for m ≠ 0. -/
def rootRecip (m : Nat) (e : Int) : Val :=
  let (m, e) := if e % 2 = 0 then (m, e) else (2 * m, e - 1)
  let k := 80 + m.log2
  let n := 2 ^ (2 * k)
  let s := isqrt (n / m)
  .num false s (-(k : Int) - e / 2) (s * s * m != n)

/-- Bits of the working precision of 2^x and log2 x (log 9). -/
def workBits : Nat := 512

/-- Multiplies an accumulator by 2^(2^−i) for each set bit i = 1, 2, … of a binary fraction (most significant bit first),
where `c` is 2^(2^−i) at the working precision. -/
def exp2Aux : List Bool → Nat → Nat → Nat
  | [], _, acc => acc
  | b :: bs, c, acc =>
    exp2Aux bs (isqrt (c <<< workBits)) (if b then (acc * c) >>> workBits else acc)

/-- 2^x for a finite x = ±m · 2^e that is no integer, at the working precision with a sticky tail; exact for integers. -/
def exp2Of (neg : Bool) (m : Nat) (e : Int) : Val :=
  if e ≥ 0 then
    let n : Int := min (m <<< (min e 64).toNat : Nat) 100000
    .num false 1 (if neg then -n else n) false
  else
    let sh := (-e).toNat
    -- x = ip + fp / 2^sh with 0 ≤ fp < 2^sh
    let z : Int := if neg then -(m : Int) else m
    let ip := z / (2 ^ sh : Int)
    let fp := (z % (2 ^ sh : Int)).toNat
    let ip := max (-100000) (min 100000 ip)
    if fp = 0 then .num false 1 ip false
    else
      let bits := (List.range sh).map fun i => fp.testBit (sh - 1 - i)
      .num false (exp2Aux bits (isqrt (2 <<< (2 * workBits))) (2 ^ workBits)) (ip - workBits) true

/-- The next `fuel` binary digits of log2 y, for y in [1, 2) at the working precision. -/
def log2Aux : Nat → Nat → Nat → Nat
  | 0, _, acc => acc
  | fuel + 1, y, acc =>
    let y2 := (y * y) >>> workBits
    if y2 ≥ 2 ^ (workBits + 1) then log2Aux fuel (y2 / 2) (2 * acc + 1) else log2Aux fuel y2 (2 * acc)

/-- log2 (m · 2^e), for m ≠ 0: exact for powers of two, with a sticky tail otherwise. -/
def log2Of (m : Nat) (e : Int) : Val :=
  let l := m.log2
  let ip := (l : Int) + e
  if m = 2 ^ l then Val.ofInt ip
  else
    let digits := 192
    let fr := log2Aux digits ((m <<< workBits) >>> l) 0
    if ip ≥ 0 then .num false (ip.toNat * 2 ^ digits + fr) (-digits) true
    else
      -- −(ip + fr/2^d + tail): the magnitude lies just below (−ip)·2^d − fr
      .num true ((-ip).toNat * 2 ^ digits - fr - 1) (-digits) true

/-! ### Crucible cells (R58-R60) -/

/-- A cell: the 384-bit value field in two's complement, bit 0 weighing 2^−192, and its five status bits. -/
structure CxCell where
  value : BitVec 384
  nan : Bool
  pinf : Bool
  ninf : Bool
  ovp : Bool
  ovn : Bool
  deriving DecidableEq, Repr

/-- Reads a cell from its 64 bytes as one little-endian integer; bits 511:389 are ignored (R58). -/
def CxCell.ofNat (n : Nat) : CxCell :=
  ⟨BitVec.ofNat 384 n, n.testBit 384, n.testBit 385, n.testBit 386, n.testBit 387, n.testBit 388⟩

/-- The 64 bytes of a cell as one integer, the reserved bits zero (R58). -/
def CxCell.toNat (c : CxCell) : Nat :=
  c.value.toNat + 2 ^ 384 * (c.nan.toNat + 2 * c.pinf.toNat + 4 * c.ninf.toNat + 8 * c.ovp.toNat + 16 * c.ovn.toNat)

/-- A finite value as a multiple of 2^−192 (exact for every format of R38). -/
def toFixed (neg : Bool) (m : Nat) (e : Int) : Int :=
  let n : Int := if e ≥ -192 then (m <<< (e + 192).toNat : Nat) else (m >>> (-192 - e).toNat : Nat)
  if neg then -n else n

/-- Adds a value to a cell (R59). -/
def CxCell.add (c : CxCell) : Val → CxCell
  | .nan _ => { c with nan := true }
  | .inf false => { c with pinf := true }
  | .inf true => { c with ninf := true }
  | .num neg m e _ =>
    let z := c.value.toInt + toFixed neg m e
    { c with
      value := BitVec.ofInt 384 z
      ovp := c.ovp || decide (z ≥ 2 ^ 383)
      ovn := c.ovn || decide (z < -(2 ^ 383)) }

/-- The value field as an exact value; a zero field is +0 (R60). -/
def CxCell.val (c : CxCell) : Val :=
  let z := c.value.toInt
  .num (decide (z < 0)) z.natAbs (-192) false

/-- Reads a cell into a compute form (R60). -/
def CxCell.read (c : CxCell) (f : Fmt) (ctl : RoundCtl) : Converted :=
  match f.kind with
  | .real =>
    if c.nan then ⟨f.float.canonicalNan, false, false, false, false⟩
    else if c.pinf && c.ninf then ⟨f.float.canonicalNan, true, false, false, false⟩
    else if c.pinf then ⟨f.float.infCode, false, false, false, false⟩
    else if c.ninf then ⟨f.float.signWeight + f.float.infCode, false, false, false, false⟩
    else if c.ovp && c.ovn then ⟨f.float.canonicalNan, false, true, false, false⟩
    else if c.ovp then ⟨(f.float.overflow false ctl false true).code, false, true, false, false⟩
    else if c.ovn then ⟨(f.float.overflow false ctl true true).code, false, true, false, false⟩
    else f.convert ctl c.val
  | _ =>
    let hi := codeOfInt f.bits f.range.2
    let lo := codeOfInt f.bits f.range.1
    if c.nan then ⟨0, true, false, false, false⟩
    else if c.pinf && c.ninf then ⟨0, true, false, false, false⟩
    else if c.pinf then ⟨hi, false, false, false, true⟩
    else if c.ninf then ⟨lo, false, false, false, true⟩
    else if c.ovp && c.ovn then ⟨0, false, false, false, true⟩
    else if c.ovp then ⟨hi, false, false, false, true⟩
    else if c.ovn then ⟨lo, false, false, false, true⟩
    else f.convert ctl c.val

end Sys2Proof.Machine
end

