-- ==== Sys2Proof/Machine/State.lean ====
section
/-! DEFINITION. The state of the Kweaz K7: every piece of state spec/ gives the machine, as plain data, and the device right after
reset. INVENTORY.md lists each field with its rule. -/

namespace Sys2Proof.Machine

/-! ### Memory -/

/-- Bytes by address, in one canonical form: addresses strictly rising, no byte equal to the 0 an unlisted address reads as
(crew store, marver: R37, R188; main memory: log 5). -/
abbrev Memory := List Host.Cell

/-- Are the addresses above `lo` strictly rising, and the bytes nonzero? -/
def Memory.wfFrom : Nat → Memory → Bool
  | _, [] => true
  | lo, (a, b) :: rest => decide (lo ≤ a) && b != 0 && Memory.wfFrom (a + 1) rest

/-- The canonical form. -/
def Memory.wf (m : Memory) : Bool := Memory.wfFrom 0 m

/-- The store that holds a local byte, bound when the access issues (R185, R187): a crew's allotment or a launch's marver
allotment on a die; and the offset in it. -/
inductive LocalAt where
  | crew (crew off : Nat)
  | marver (launch die off : Nat)
  deriving DecidableEq, Repr

/-! ### Code objects (R80-R97) -/

/-- One temper-record entry (R82). -/
structure ClassRec where
  id : Nat
  kind : Kind
  storage : Fmt
  compute : Fmt
  acc : Nat
  lo : Int
  hi : Int
  round : Nat
  sr : Bool
  block : Bool
  pinned : Bool
  achq : Nat
  e : Word64
  deriving DecidableEq, Repr

/-- One region-table entry (R93). -/
structure RegionRec where
  number : Nat
  at_ : Nat
  vlive : BitVec 192
  slive : BitVec 256
  plive : BitVec 16
  alive : BitVec 16
  deriving DecidableEq, Repr

/-- A loaded code version (R88, R109, R311): the header fields a wave runs under, its words, classes and regions. -/
structure Object where
  handle : Nat
  version : Nat
  ctx : Nat
  code : List Word32
  codeVa : Nat
  width : Nat
  crewwaves : Nat
  vregs : Nat
  acc : Nat
  tier : Nat
  refill : Bool
  traponinv : Bool
  traponrng : Bool
  detreq : Bool
  replay : Bool
  crewstore : Nat
  marver : Nat
  params : Nat
  stack : Nat
  entry : Nat
  drain : Option Nat
  requires : List Word32
  classes : List ClassRec
  regions : List RegionRec
  temperVa : Nat
  temperGen : Word32
  features : Word32
  measure : List Byte
  native : List Nat
  superseded : Bool
  deriving DecidableEq, Repr

/-! ### Waves -/

/-- Shape tag of a vector register over its live visible lanes (R180-R182). -/
inductive Tag where
  | uniform
  | affine (base stride : Word32)
  | general
  deriving DecidableEq, Repr

/-- A vector register: one word per physical lane, its shape tag and its full bit (R15, R119, R182). -/
structure VReg where
  lanes : List Word32
  tag : Tag
  full : Bool
  deriving DecidableEq, Repr

/-- What a physical lane holds beside registers (R15): item coordinates, sequence number, item index (none in drain state), and the index n of R55. -/
structure Lane where
  x : Word32
  y : Word32
  z : Word32
  c : BitVec 16
  item : Option Nat
  n : Word32
  deriving DecidableEq, Repr

/-- An accumulator tile: 1,024 words row-major and its kind bit, true for I32 (R214). -/
structure Tile where
  words : List Word32
  int : Bool
  deriving DecidableEq, Repr

/-- A control-stack entry (R143). -/
inductive Entry where
  | region (key join : Nat) (pending arrived : Mask)
  | frame (key ret : Nat)
  deriving DecidableEq, Repr

/-- What a split waits in; `ready` issues (R25, R147, R28, R261, R137, R201, R250). A split in `launch` holds the address of the
descriptor and what it read of it, and of the successors, when the word issued. `fencing`: in a `fence` whose waits have begun (R333). `acquiring`: it
received a deal that acts as an acquire fence (R301), whose waits its next word keeps. -/
inductive SplitStatus where
  | ready
  | atJoin (region : Nat)
  | atBar (id pd : Nat)
  | asleep (till : Nat) (token : Bool)
  | onPort
  | fencing
  | acquiring
  | onCxget (op : Nat)
  | onLaunch (at_ : Nat) (desc : List Byte) (succs : List Nat)
  deriving DecidableEq, Repr

/-- One split (R25): lanes, program counter, chain of control-stack entry keys (innermost first), scoreboard of registers its
issued words still write (R115/R120 codes; 0x200 + p for predicates), the words whose intervals of R245 are open, by their place in the wave's
issue order, and when it last issued on ports V and X, in issue slots (R308). -/
structure Split where
  lanes : Mask
  pc : Nat
  chain : List Nat
  board : List Nat
  status : SplitStatus
  interval : List Nat
  lastV : Nat
  lastX : Nat
  deriving DecidableEq, Repr

/-- The part of a wave that R244 lists: what a checkpoint holds. `sshadow`, the shadow scalars, and `twins` are empty in an
unpaired wave (R131, R236). Physical lane 2i + 1 is the shadow of 2i in a paired one (R34). `turn`: the lowest lane of the split that
issued last (R364). -/
structure Arch where
  splits : List Split
  entries : List Entry
  live : Mask
  drain : Bool
  fresh : Mask
  lanes : List Lane
  vregs : List VReg
  preds : List Mask
  sregs : List Word64
  sshadow : List Word64
  tiles : List Tile
  twins : List Tile
  mr : Word64
  mx : Word64
  ns : BitVec 7
  sp : Word32
  mxbase : Word32
  mxplane : Word32
  seedlo : Word64
  seedhi : Word64
  retired : Nat
  turn : Nat
  spill : List Memory
  deriving DecidableEq, Repr

/-- The operation of an atomic (R140, R196). -/
inductive AtomicFn where
  | add | min | max | minu | maxu | and | or | xor | xchg | cas
  deriving DecidableEq, Repr

/-- What one piece of an operation does when its main side performs. -/
inductive Job where
  | read
  | write
  | local_
  | atomic (f : AtomicFn) (operand compare : Nat)
  | cxAdd (v : Val)
  | cxClear
  | cxRead
  deriving DecidableEq, Repr

/-- A piece of an engine operation (R205, R271, R276): bytes that perform at once on the main side, one by one on the local
side. `data`: the bytes carried, none while unread; `left`: the offsets whose destination side has not performed. -/
structure Piece where
  part : Nat
  va : Nat
  src : Option LocalAt
  dst : Option LocalAt
  data : List (Option Byte)
  left : List Nat
  job : Job
  lane : Nat
  deriving DecidableEq, Repr

/-- The leaf that translated a part (R318). `entry`: the physical address, at the home, of the table entry it was read from. -/
structure Leaf where
  pa : Nat
  size : Nat
  kind : Nat
  tier : Nat
  r : Bool
  w : Bool
  a : Bool
  x : Bool
  entry : Nat
  deriving DecidableEq, Repr

/-- Where a part stands (R271, R322, R324, R208). An error response has the index that its entry in the error log gives (R332). -/
inductive PartStatus where
  | pending
  | walking
  | retryAfter (till : Nat)
  | ready
  | held (tag : Option Nat)
  | replied (cause index : Nat)
  | refused (cause : Nat)
  | performed
  | logged
  deriving DecidableEq, Repr

/-- A part: the pieces of one operation on one page of one home, or one cell (R269); `page` is the first 64 KiB of it. Home 0xFF: cells of the
marver. -/
structure Part where
  home : Nat
  page : Nat
  status : PartStatus
  leaf : Option Leaf
  deriving DecidableEq, Repr

/-- Which instruction an engine operation came from. -/
inductive OpKind where
  | cpin | cpout | cpgat | cpsca | cpfill | cplocal
  | satomic (d : Nat)
  | vatomic (d : Nat)
  | cxadd | cxclr
  | cxget (d : Nat)
  | mma (zero : Bool) | mzero | mldv | mdrv (d : Nat) | mdrl | mdrx
  deriving DecidableEq, Repr

/-- What a matrix instruction carries from its issue to its turn (R216-R236). `regs`: the 32 source registers of `mldv`. -/
structure MatJob where
  tile : Nat
  mr : Word64
  mx : Word64
  seedlo : Word32
  seedhi : Word32
  aDesc : List Byte
  bDesc : List Byte
  aDescS : List Byte
  bDescS : List Byte
  addr : Nat
  addrS : Nat
  useLatch : Bool
  useLatchS : Bool
  regs : List (List Word32)
  done : Bool
  deriving DecidableEq, Repr

/-- An operation in an engine queue, or a `cxget` or `mdrv`, which count on no counter (R209, R229, R201). `seq` is its place
in the wave's issue order, shared with the local port; `rank` its place among all operations its counter has had (R208). -/
structure Op where
  key : Nat
  seq : Nat
  ctr : Option Nat
  rank : Nat
  kind : OpKind
  pc : Nat
  mask : Mask
  retired : Nat
  parts : List Part
  pieces : List Piece
  mat : Option MatJob
  tier : Nat
  returned : Bool
  deriving DecidableEq, Repr

/-- One lane's access of a vector load: the lane, the element's or block's place, the scale's place, the element number, and the
rounding control fixed at issue. -/
structure LaneAcc where
  lane : Nat
  at_ : LocalAt
  scale : Option LocalAt
  elem : Nat
  ctl : RoundCtl
  deriving DecidableEq, Repr

/-- An access at the local port (R269). A store's bytes were computed at issue: place, byte, and the mask of the bits written. -/
inductive PortJob where
  | vload (d : Nat) (raw : Option Nat) (storage compute : Fmt) (accs : List LaneAcc)
  | sload (d size : Nat) (at_ shadowAt : LocalAt)
  | store (writes : List (LocalAt × Byte × Byte))
  | atomic (op : Nat)
  deriving DecidableEq, Repr

/-- A local access waiting at the port. `lane`: the lowest lane of the split that issued it. -/
structure PortAcc where
  seq : Nat
  lane : Nat
  pc : Nat
  job : PortJob
  deriving DecidableEq, Repr

/-- The A latch (R225): descriptor, rows read, and the bytes by local address. -/
structure Latch where
  desc : List Byte
  rows : Mask
  bytes : List (Nat × List Byte)
  deriving DecidableEq, Repr

/-- A pending deferred fault (R208, R235): the counter its operation belongs to and its place there, when that issued, and the trap it
gives. -/
structure Deferred where
  seq : Nat
  rank : Nat
  ctr : Nat
  cause : Nat
  addr : Nat
  mask : Mask
  deriving DecidableEq, Repr

/-- A checkpoint (R244, R248, R367): the state, the code address of the head it was taken at, which split (lowest lane)
resumes after it, the region number for the log, the visit state, the faults then pending, which a restart keeps (R208; log 27), where the wave's issue
order then stood, and the bit errors in the cullet lines that hold it, with whether the scrubber has poisoned them (R343, R345). -/
structure Checkpoint where
  arch : Arch
  headPc : Nat
  resume : Option Nat
  region : Nat
  visitEnd : Nat
  visiting : Bool
  engineFault : Option Deferred
  matFault : Option Deferred
  seq : Nat
  wrong : Nat
  poisoned : Bool
  deriving DecidableEq, Repr

/-- The trap frame of R255 and the handler's object; `lane` identifies the trapping split. -/
structure TrapFrame where
  mr : Word64
  mx : Word64
  splits : List Split
  entries : List Entry
  live : Mask
  lane : Nat
  started : Nat
  obj : Object
  fromLadder : Bool
  turn : Nat
  deriving DecidableEq, Repr

/-- An open `preoff` section (R260): what remains, the n in force, and the count it is reckoned from. -/
structure Preoff where
  bound : Nat
  n : Nat
  since : Nat
  deriving DecidableEq, Repr

/-- Why a wave without live lanes waits (R17, R22, R121, R24). -/
inductive WaveStatus where
  | running
  | awaitingCreationDeal
  | awaitingDeal
  | awaitingDrain
  | retiring
  | retired
  deriving DecidableEq, Repr

/-- A rollback a wave owes, which R245 may defer (R346): the event code, trap cause, trapaddr, trapmask, the lane for the log, whether it was
found at an instruction's issue, for a compare an `mdrx` made at its turn the place of that word in the issue order, the code address
of the word, the array for the log, and the clock when it was found. -/
structure Demand where
  event : Nat
  cause : Nat
  addr : Nat
  mask : Mask
  lane : Nat
  atIssue : Bool
  op : Option Nat
  pc : Nat
  array : Nat
  time : Nat
  deriving DecidableEq, Repr

/-- A resident or stopped wave. `issued`: how many operations each of the five counters has had (R208). `lineReads`: for each main-memory line a
replaying wave has read, the retired value of its last read (R373). `waveTrap`: an ERRBUDGET the wave owes, with EB after the charge (R341).
`sempty`: the empty scalars (R119); bits 256 to 271 are the handler scalars of R256. -/
structure Wave where
  key : Nat
  launch : Nat
  crew : Nat
  ordinal : Nat
  kern : Object
  core : Nat
  partition : Nat
  slot : Nat
  created : Nat
  status : WaveStatus
  a : Arch
  sempty : BitVec 272
  hregs : List Word64
  hshadow : List Word64
  trapcause : Byte
  trappc : Word64
  trapaddr : Word64
  trapmask : Word64
  ops : List Op
  port : List PortAcc
  seq : Nat
  issued : List Nat
  latch : Option Latch
  latchS : Option Latch
  engineFault : Option Deferred
  matFault : Option Deferred
  drained : Bool
  checkpoint : Option Checkpoint
  failures : Nat
  frame : Option TrapFrame
  preoff : Option Preoff
  demand : Option Demand
  waveTrap : Option Nat
  native : Bool
  visitEnd : Nat
  visiting : Bool
  checkpointDue : Bool
  lineReads : List (Nat × Nat)
  deriving DecidableEq, Repr

/-! ### Crews, launches, queues, contexts -/

/-- A crew (R14, R24, R309). `barriers` lists, for each barrier, the ordinals arrived; `placed` is false while pre-empted. -/
structure Crew where
  key : Nat
  launch : Nat
  ordinal : Nat
  core : Nat
  store : Memory
  barriers : List (List Nat)
  placed : Bool
  stopReq : Bool
  deriving DecidableEq, Repr

/-- One tile-dependence entry (R300). -/
structure Dep where
  producer : Nat
  w : Nat
  a : Nat
  d : Int
  b : Nat
  deriving DecidableEq, Repr

/-- A launch descriptor (R293). -/
structure Desc where
  next : Nat
  handle : Nat
  ex : Nat
  ey : Nat
  ez : Nat
  crews : Nat
  submask : BitVec 160
  deterministic : Bool
  replay : Bool
  flagsReserved : Nat
  ndeps : Nat
  nsucc : Nat
  cblog : Nat
  params : Nat
  launchid : Nat
  predcount : Nat
  quantum : Nat
  succaddr : Nat
  recaddr : Nat
  seq : Nat
  deps : List Nat
  deriving DecidableEq, Repr

/-- Where a launch stands (R294-R298). -/
inductive LaunchState where
  | accepted | started | completed
  deriving DecidableEq, Repr

/-- An item's exit, for the completion bitmap: the engine operations its wave had issued and not yet completed, and its place in the wave's issue
order (R299, R278). -/
structure Exited where
  item : Nat
  wave : Nat
  ops : List Nat
  seq : Nat
  deriving DecidableEq, Repr

/-- A trace log (R372-R376). -/
structure TraceLog where
  base : Nat
  size : Nat
  mode : Nat
  state : Nat
  entries : Nat
  crew : Nat
  wave : Nat
  endret : Word64
  divexp : Word64
  divact : Word64
  deriving DecidableEq, Repr

/-- A launch (R8, R9, R20, R293-R302, R348, R362-R376). `succs`: the successor identifiers as read; `deps`: each entry with the producer launch's
key while it is found. `replaying`: its crews stop for a replay. `external`: main-memory byte keys written from outside while it runs (R372). -/
structure Launch where
  key : Nat
  queue : Nat
  ctx : Nat
  order : Nat
  desc : Desc
  descAt : Nat
  obj : Object
  depth : Nat
  parent : Option Nat
  state : LaunchState
  predcount : Nat
  succs : List Nat
  deps : List (Dep × Option Nat)
  killed : Bool
  dealer : Nat
  maxstatus : Word32
  items : Nat
  nonzero : Nat
  replayed : Bool
  logended : Bool
  replayable : Bool
  replaying : Bool
  params : List Byte
  marver : List (Nat × Memory)
  bits : List Nat
  exited : List Exited
  crewsMade : Nat
  crewsRetired : Nat
  lastCore : Option Nat
  tokenCrew : Nat
  tokenWave : Nat
  visiting : Bool
  log : Option TraceLog
  external : List Nat
  deriving DecidableEq, Repr

/-- A hardware queue (R291, R295, R310, R372). `reading`: the next descriptor's address, or (true) the last one read, after which the queue
waits for a further tail; `held`: identifiers with the killed mark; `tlog`: the setting for the next deterministic launch; `served`: its
place in the distributor's round (R307). -/
structure Queue where
  head : Word64
  tail : Word64
  cword : Word64
  mask : BitVec 160
  prio : Nat
  status : Nat
  context : BitVec 16
  stopat : Word64
  reading : Option (Bool × Nat)
  held : List (Nat × Bool)
  evicted : Bool
  tlog : Option (Nat × Nat × Nat)
  served : Nat
  deriving DecidableEq, Repr

/-- A trap record (R253), as a context fault reports it (R258). -/
structure TrapRecord where
  cause : Nat
  pc : Word64
  addr : Word64
  mask : Word64
  deriving DecidableEq, Repr

/-- A trap record that holds only a cause; the one with cause 0 is none. -/
def TrapRecord.ofCause (cause : Nat) : TrapRecord := ⟨cause, 0, 0, 0⟩

/-- A context (R255, R317, R340, R357). `roots`: home code and physical address of the L0 table; `pages`: the frames the loader took for it
(R109, log 12): home, virtual page, frame; a table has no virtual page and stands with 0. `report`: the trap record that a context fault reports
(R258, R350). -/
structure Context where
  id : Nat
  debug : Bool
  handler : Nat
  eb : Word64
  corrections : Nat
  roots : List (Nat × Nat)
  pages : List (Nat × Nat × Nat)
  faulted : Bool
  report : TrapRecord
  deriving DecidableEq, Repr

/-! ### Homes -/

/-- An open translation fault (R323). -/
structure OpenFault where
  tag : Nat
  ctx : Nat
  va : Nat
  level : Nat
  deriving DecidableEq, Repr

/-- A translation in flight, or waiting at the home to be (R322): the 64 KiB block, and of the request that began it the address, the op code and the
source of R323, and whether it came from the home's own die. -/
structure Walk where
  ctx : Nat
  va : Nat
  asked : Nat
  op : Nat
  source : Nat
  own : Bool
  deriving DecidableEq, Repr

/-- A lease a home has granted (R327). -/
structure Lease where
  id : Nat
  chip : Nat
  ctx : Nat
  va : Nat
  leaf : Leaf
  expires : Nat
  recalled : Bool
  deriving DecidableEq, Repr

/-- A migration in progress (R329): the table entries of the page, and lines copied so far. -/
structure Migration where
  ctx : Nat
  va : Nat
  old : Nat
  new : Nat
  size : Nat
  entries : List Nat
  copied : Nat
  deriving DecidableEq, Repr

/-- A cached entry (R321): it serves what its entry maps, the 64 KiB block `va` or a 32 MiB page. -/
structure Cached where
  ctx : Nat
  va : Nat
  leaf : Leaf
  deriving DecidableEq, Repr

/-- A home translation unit (R315-R331, R334, R338, R348). `walked`: context and block of walks that ended without a leaf for a request that had been
refused; its next request is answered (R322). -/
structure Home where
  cache : List Cached
  walked : List (Nat × Nat)
  faults : List OpenFault
  nextTag : Nat
  ringBase : Nat
  ringSize : Nat
  ringNext : Nat
  walks : List Walk
  leases : List Lease
  nextLease : Nat
  migrations : List Migration
  poisoned : List Nat
  reported : List Nat
  tiers : List Nat
  closed : List Nat
  lehr : List Nat
  deriving DecidableEq, Repr

/-- A side-logged write (R283, R324): the bytes written of the 256 from `va` on, with their addresses, or a cell operation; a copy's expected tier
(R207); what a later error response names (R208); and, once RESOLVE has mapped the page, the leaf in force then (R333). -/
structure LogEntry where
  key : Nat
  core : Nat
  wave : Nat
  launch : Nat
  ctx : Nat
  home : Nat
  tag : Nat
  va : Nat
  data : List (Nat × Byte)
  cell : Option Job
  seq : Nat
  rank : Nat
  ctr : Nat
  mask : Mask
  tier : Option Nat
  leaf : Option Leaf
  deriving DecidableEq, Repr

/-- A shadow granule of a replayable launch in the lehr (R348): its bytes, which of them the launch wrote, and which of its lines hold no valid data
(R344). -/
structure Shadow where
  launch : Nat
  die : Nat
  granule : Nat
  bytes : List Byte
  written : List Nat
  bad : List Nat
  deriving DecidableEq, Repr

/-- A lease this device's engines hold at a peer home (R327). -/
structure HeldLease where
  chip : Nat
  ctx : Nat
  va : Nat
  deriving DecidableEq, Repr

/-- A bit error not yet corrected or cleared (R337, R345): its place, how many bits of the code word are wrong, and whether the
word carries a poison bit or mark (R343, R344). -/
structure SoftErr where
  site : ErrSite
  bits : Nat
  poison : Bool
  deriving DecidableEq, Repr

/-- A cluster's assay state (R312, R353). -/
structure Cluster where
  due : Bool
  dueAt : Nat
  holding : Bool
  inService : Bool
  lastPassed : Nat
  deriving DecidableEq, Repr

/-- A command that has not completed: cmdstat reads 1 (R397, R328, R329, R338, R310, R390). `parts`, `entries`: the parts (wave, operation, part) and
side-log entries that XINVAL waits for. -/
inductive Running where
  | qevict (q : Nat)
  | xinval (home ctx va len : Nat) (parts : List (Nat × Nat × Nat)) (entries : List Nat)
  | migrate (home ctx va : Nat)
  | reclass (home band tier : Nat)
  | ctxsave (ctx : Nat) (addr : Word64) (size buf : Nat)
  deriving DecidableEq, Repr

/-- A ready split, by its wave and lowest lane, that more urgent ones have passed over on a port of its partition (R32, R308): how many consecutive
slots, and the lowest priority that took one of them. `port`: 0 V, 1 X. -/
structure Passed where
  wave : Nat
  lane : Nat
  core : Nat
  partition : Nat
  port : Nat
  count : Nat
  taker : Nat
  deriving DecidableEq, Repr

/-- The state of the device. The head of `waves` is the wave that issues, and the head of its splits the split that issues:
`step` brings the one it picks to the front. -/
structure State where
  -- the model's own (log 1, 7): steps to take next, what reaches the device from outside and when, counters of free values and of names,
  -- and the clock
  agenda : List Instr
  inputs : List (Nat × Instr)
  fresh : Nat
  nextKey : Nat
  clock : Nat
  slots : Nat
  passed : List Passed
  -- waves, crews, launches, queues, contexts, objects
  waves : List Wave
  crews : List Crew
  launches : List Launch
  queues : List Queue
  contexts : List Context
  objects : List Object
  nextHandle : Nat
  acceptances : Nat
  -- homes and memories
  homes : List Home
  hbm : Memory
  hostMem : Memory
  peerMem : Memory
  shadows : List Shadow
  softErrors : List SoftErr
  sideLog : List LogEntry
  hostWrites : Nat
  heldLeases : List HeldLease
  -- logs
  errorLog : List (List Byte)
  errorLost : Nat
  integrityLog : List (List Byte)
  integrityLost : Nat
  interrupts : Nat
  -- assay
  assayPeriod : Nat
  clusters : List Cluster
  -- registers of BAR0, firmware, links, power
  stage : Word32
  fwsvn : Word32
  minSvn : Word32
  fwdigest : List Byte
  faccept : List Word32
  hctx : BitVec 16
  cmd : List Byte
  cmdstat : Word32
  running : Option Running
  linkMasks : List (BitVec 12)
  linksDown : BitVec 12
  linkRetries : List Nat
  powerCap : Nat
  clockStep : Nat
  deriving DecidableEq, Repr

/-- Why a step stops. -/
inductive Fault where
  /-- Raised by every instruction word's meaning in a state with no wave, or whose first wave has no split: there is nothing
  to issue the word. `step` never asks for it: it issues a word only from a wave it found. Safe. -/
  | noIssuer
  deriving DecidableEq, Repr

/-- Why a step is refused. -/
inductive Refusal where
  /-- Raised by an arm of `exec` whose instruction has no meaning yet. Safe. -/
  | notModelled (mnemonic : String)
  deriving DecidableEq, Repr

/-- A queue after reset: stopped, its registers zero (log 3). -/
def Queue.reset : Queue :=
  ⟨0, 0, 0, 0, 0, 0, 0, 0, none, [], false, none, 0⟩

/-- A home unit after reset: nothing cached or open, every band sealed (R403; before FIRMWARE_READY, log 3). -/
def Home.reset : Home :=
  ⟨[], [], [], 0, 0, 0, 0, [], [], 0, [], [], [], List.replicate Config.bandsPerDie 2, [], []⟩

/-- A cluster after reset: in service, no assay due (log 3). -/
def Cluster.reset : Cluster := ⟨false, 0, false, true, 0⟩

/-- The device right after reset (R380, R396, R399, R403): no context, object, launch or wave; accepted words zero; stage 0;
link masks empty. What the manual gives no reset value for is zero, or as log 3 names it. -/
def State.reset : State where
  agenda := []
  inputs := []
  fresh := 0
  nextKey := 0
  clock := 0
  slots := 0
  passed := []
  waves := []
  crews := []
  launches := []
  queues := List.replicate Config.queues Queue.reset
  contexts := []
  objects := []
  nextHandle := 1
  acceptances := 0
  homes := List.replicate (Config.dies + 1) Home.reset
  hbm := []
  hostMem := []
  peerMem := []
  shadows := []
  softErrors := []
  sideLog := []
  hostWrites := 0
  heldLeases := []
  errorLog := []
  errorLost := 0
  integrityLog := []
  integrityLost := 0
  interrupts := 0
  assayPeriod := 3600
  clusters := List.replicate (Config.dies * Config.clustersPerDie) Cluster.reset
  stage := 0
  fwsvn := 0
  minSvn := 0
  fwdigest := List.replicate 64 0
  faccept := List.replicate 4 0
  hctx := 0
  cmd := List.replicate 64 0
  cmdstat := 0
  running := none
  linkMasks := List.replicate 28 0
  linksDown := 0
  linkRetries := List.replicate 12 0
  powerCap := 2000
  clockStep := 12

end Sys2Proof.Machine
end

