-- ==== Sys2Proof/Machine/Ops.lean ====
section
/-! DEFINITION. The shared operations: memories, looking up and putting back the parts of a state, scalar, vector, predicate and
mask access, completing a word, the logs, killing a launch, the context fault, taking an exception (R253, R255) and returning
from one (R259). -/

namespace Sys2Proof.Machine

/-- The outcome of a step. -/
abbrev Result := Host.Outcome State Fault Refusal

/-! ### Bytes and memories -/

/-- The byte at an address; an unlisted one reads 0. -/
def Memory.read : Memory → Nat → Byte
  | [], _ => 0
  | (a, b) :: rest, x => if x < a then 0 else if x = a then b else Memory.read rest x

/-- Writes one byte, keeping the canonical form. -/
def Memory.write : Memory → Nat → Byte → Memory
  | [], x, v => if v = 0 then [] else [(x, v)]
  | (a, b) :: rest, x, v =>
    if x < a then (if v = 0 then (a, b) :: rest else (x, v) :: (a, b) :: rest)
    else if x = a then (if v = 0 then rest else (x, v) :: rest)
    else (a, b) :: Memory.write rest x v

/-- `n` bytes from an address up. -/
def Memory.readBytes (m : Memory) (a n : Nat) : List Byte := (List.range n).map fun k => m.read (a + k)

/-- Writes bytes from an address up. -/
def Memory.writeBytes (m : Memory) (a : Nat) : List Byte → Memory
  | [] => m
  | b :: bs => Memory.writeBytes (m.write a b) (a + 1) bs

/-- Little-endian number of bytes (R3). -/
def leNat : List Byte → Nat
  | [] => 0
  | b :: bs => b.toNat + 256 * leNat bs

/-- The `n` low bytes of a number, little-endian (R3). -/
def leBytes : Nat → Nat → List Byte
  | 0, _ => []
  | n + 1, x => BitVec.ofNat 8 x :: leBytes n (x / 256)

/-- Field of `n` bytes at an offset of a byte list, little-endian. -/
def field (bs : List Byte) (off n : Nat) : Nat := leNat ((bs.drop off).take n)

/-- The integer of the low `n` bits in two's complement. -/
def signed (n x : Nat) : Int := (BitVec.ofNat n x).toInt

/-! ### Lists -/

/-- Replaces the k-th entry. -/
def setAt {α : Type} (l : List α) (k : Nat) (x : α) : List α := l.set k x

/-- The k-th entry or a default. -/
def nth {α : Type} (l : List α) (k : Nat) (d : α) : α := (l[k]?).getD d

/-- Changes the k-th entry. -/
def modifyAt {α : Type} (l : List α) (k : Nat) (f : α → α) : List α := l.modify k f

/-! ### Looking up and putting back -/

/-- The wave of a key. -/
def State.wave? (s : State) (k : Nat) : Option Wave := s.waves.find? fun w => w.key == k

/-- Puts a wave back in its place. -/
def State.putWave (s : State) (w : Wave) : State :=
  { s with waves := s.waves.map fun x => if x.key == w.key then w else x }

/-- Changes the wave of a key. -/
def State.onWave (s : State) (k : Nat) (f : Wave → Wave) : State :=
  { s with waves := s.waves.map fun x => if x.key == k then f x else x }

/-- The crew of a key. -/
def State.crew? (s : State) (k : Nat) : Option Crew := s.crews.find? fun c => c.key == k

/-- Changes the crew of a key. -/
def State.onCrew (s : State) (k : Nat) (f : Crew → Crew) : State :=
  { s with crews := s.crews.map fun x => if x.key == k then f x else x }

/-- The launch of a key. -/
def State.launch? (s : State) (k : Nat) : Option Launch := s.launches.find? fun l => l.key == k

/-- Changes the launch of a key. -/
def State.onLaunch (s : State) (k : Nat) (f : Launch → Launch) : State :=
  { s with launches := s.launches.map fun x => if x.key == k then f x else x }

/-- The context of an identifier. -/
def State.context? (s : State) (c : Nat) : Option Context := s.contexts.find? fun x => x.id == c

/-- Changes the context of an identifier. -/
def State.onContext (s : State) (c : Nat) (f : Context → Context) : State :=
  { s with contexts := s.contexts.map fun x => if x.id == c then f x else x }

/-- Queue q. -/
def State.queue (s : State) (q : Nat) : Queue := nth s.queues q Queue.reset

/-- Changes queue q. -/
def State.onQueue (s : State) (q : Nat) (f : Queue → Queue) : State := { s with queues := modifyAt s.queues q f }

/-- The home unit that serves a home code: a die's, or entry 4, the host window of die 0 (R315). -/
def homeIndex (code : Nat) : Option Nat :=
  if code < Config.dies then some code else if code = 0x80 then some 4 else none

/-- Home unit k. -/
def State.home (s : State) (k : Nat) : Home := nth s.homes k Home.reset

/-- Changes home unit k. -/
def State.onHome (s : State) (k : Nat) (f : Home → Home) : State := { s with homes := modifyAt s.homes k f }

/-- The version in force of a handle in a context. -/
def State.object? (s : State) (ctx handle : Nat) : Option Object :=
  s.objects.find? fun o => o.handle == handle && o.ctx == ctx && !o.superseded

/-- A fresh name. -/
def State.newKey (s : State) : Nat × State := (s.nextKey, { s with nextKey := s.nextKey + 1 })

/-- Draws the counter of free values (log 1). -/
def State.draw (s : State) : Nat × State := (s.fresh, { s with fresh := s.fresh + 1 })

/-! ### Physical memory of the homes -/

/-- The key of a physical byte: die d's byte a stands at d · 2^52 + a of the one HBM list. -/
def hbmKey (die pa : Nat) : Nat := die * 2 ^ 52 + pa

/-- Reads a byte of home unit k's memory (unit 4: host memory). -/
def State.readPhys (s : State) (k pa : Nat) : Byte :=
  if k < Config.dies then s.hbm.read (hbmKey k pa) else s.hostMem.read pa

/-- Writes a byte of home unit k's memory. -/
def State.writePhys (s : State) (k pa : Nat) (b : Byte) : State :=
  if k < Config.dies then { s with hbm := s.hbm.write (hbmKey k pa) b } else { s with hostMem := s.hostMem.write pa b }

/-- Writes bytes of home unit k's memory. -/
def State.writePhysBytes (s : State) (k pa : Nat) : List Byte → State
  | [] => s
  | b :: bs => State.writePhysBytes (s.writePhys k pa b) k (pa + 1) bs

/-- Reads bytes of home unit k's memory. -/
def State.readPhysBytes (s : State) (k pa n : Nat) : List Byte := (List.range n).map fun i => s.readPhys k (pa + i)

/-! ### Local memory (R185-R188) -/

/-- The marver allotment of a launch on a die; an absent one reads zero. -/
def Launch.marverOn (l : Launch) (die : Nat) : Memory := ((l.marver.find? fun x => x.1 == die).map Prod.snd).getD []

/-- Reads a local byte; the store of a crew or launch that is gone reads zero (R187). -/
def State.readLocal (s : State) : LocalAt → Byte
  | .crew k off => ((s.crew? k).map fun c => c.store.read off).getD 0
  | .marver l d off => ((s.launch? l).map fun x => (x.marverOn d).read off).getD 0

/-- Writes a local byte; a write to a store that is gone is lost with it (R187). -/
def State.writeLocal (s : State) (p : LocalAt) (b : Byte) : State :=
  match p with
  | .crew k off => s.onCrew k fun c => { c with store := c.store.write off b }
  | .marver l d off => s.onLaunch l fun x =>
      { x with marver := x.marver.map fun y => if y.1 == d then (y.1, y.2.write off b) else y }

/-- The place n bytes further on. -/
def LocalAt.plus : LocalAt → Nat → LocalAt
  | .crew k off, n => .crew k (off + n)
  | .marver l d off, n => .marver l d (off + n)

/-- Reads n local bytes. -/
def State.readLocalBytes (s : State) (p : LocalAt) (n : Nat) : List Byte := (List.range n).map fun k => s.readLocal (p.plus k)

/-- Writes local bytes. -/
def State.writeLocalBytes (s : State) (p : LocalAt) : List Byte → State
  | [] => s
  | b :: bs => State.writeLocalBytes (s.writeLocal p b) (p.plus 1) bs

/-- Writes the bits of `mask` in a local byte. -/
def State.writeLocalBits (s : State) (p : LocalAt) (b mask : Byte) : State :=
  s.writeLocal p ((s.readLocal p &&& ~~~mask) ||| (b &&& mask))

/-! ### Waves, lanes and masks -/

/-- Declared width W (R10). -/
def Wave.W (w : Wave) : Nat := w.kern.width
/-- Paired mode (R34). -/
def Wave.paired (w : Wave) : Bool := w.kern.tier == 2
/-- Visible width V (R10). -/
def Wave.V (w : Wave) : Nat := if w.paired then w.W / 2 else w.W
/-- Passes P (R11). -/
def Wave.P (w : Wave) : Nat := (w.W + 31) / 32
/-- Block groups G (R215). -/
def Wave.G (w : Wave) : Nat := (w.V + 31) / 32
/-- The visible index of a physical lane. -/
def Wave.visible (w : Wave) (i : Nat) : Nat := if w.paired then i / 2 else i
/-- The primary physical lane of a visible lane. -/
def Wave.primary (w : Wave) (v : Nat) : Nat := if w.paired then 2 * v else v
/-- The physical lanes of a visible lane. -/
def Wave.lanesOf (w : Wave) (v : Nat) : List Nat := if w.paired then [2 * v, 2 * v + 1] else [v]
/-- Is a physical lane a shadow (R34)? -/
def Wave.isShadow (w : Wave) (i : Nat) : Bool := w.paired && i % 2 == 1
/-- The lane of the same copy in another visible lane (R34). -/
def Wave.sameCopy (w : Wave) (i v : Nat) : Nat := if w.paired then 2 * v + i % 2 else v
/-- Both lanes of every pair of a mask. -/
def Wave.pairUp (w : Wave) (m : Mask) : Mask :=
  if w.paired then Mask.ofLanes ((List.range w.W).filter fun i => m.has (2 * (i / 2)) || m.has (2 * (i / 2) + 1)) else m
/-- Is the wave in system mode (R255)? -/
def Wave.system (w : Wave) : Bool := w.frame.isSome
/-- The object the wave fetches from (R112). -/
def Wave.codeObj (w : Wave) : Object := match w.frame with | some f => f.obj | none => w.kern

/-- The predicate that reads true in every lane (R114). -/
def trueMask : Mask := Mask.below 1024

/-- Predicate p of a wave; p0 reads true. -/
def Wave.pred (w : Wave) (p : Nat) : Mask := if p = 0 then trueMask else nth w.a.preds p 0

/-- Writes predicate p in the lanes of `on`; a write to p0 is ignored. -/
def Wave.setPred (w : Wave) (p : Nat) (on value : Mask) : Wave :=
  if p = 0 then w
  else { w with a := { w.a with preds := setAt w.a.preds p ((w.pred p).diff on ||| (value &&& on)) } }

/-- MR.guard (R116). -/
def Wave.guard (w : Wave) : Nat := (w.a.mr.toNat / 4096) % 16
/-- MR.class. -/
def mrClass (mr : Word64) : Nat := mr.toNat / 65536 % 256
/-- MR.round. -/
def mrRound (mr : Word64) : Nat := mr.toNat / 512 % 8
/-- MR.sat. -/
def mrSat (mr : Word64) : Bool := mr.toNat / 256 % 2 == 1
/-- MX.stream (R117). -/
def mxStream (mx : Word64) : Nat := mx.toNat / 256 % 32
/-- MX.phase. -/
def mxPhase (mx : Word64) : Nat := mx.toNat / 8 % 32

/-- The entry of a class in a temper record (R80-R82). -/
def Object.classRec (o : Object) (c : Nat) : Option ClassRec := o.classes.find? fun r => r.id == c

/-- Class 0, which every record holds (R63, R267): kind int, I32. -/
def classZero : ClassRec := ⟨0, .int, .i32, .i32, 0x10, 0, 0, 0, false, false, false, 255, 0⟩

/-- The record entry of a class of the wave's kernel. -/
def Wave.class_ (w : Wave) (c : Nat) : ClassRec := (w.kern.classRec c).getD classZero
/-- The compute class C. -/
def Wave.C (w : Wave) : ClassRec := w.class_ (mrClass w.a.mr)
/-- The conversion-source class X. -/
def Wave.X (w : Wave) : ClassRec := w.class_ (mrClass w.a.mx)

/-- The active lanes of a split (R13). -/
def Wave.active (w : Wave) (p : Split) : Mask := p.lanes &&& w.pred w.guard

/-- The issuing split's lanes, as a list. -/
def Wave.list (w : Wave) (m : Mask) : List Nat := m.lanes w.W

/-! ### Scalar registers (R114, R131, R256) -/

/-- Where scalar number n is held: 0 to 255 the wave's own, 256 to 271 the handler scalars that s240 to s255 name in system mode. -/
def Wave.sidx (w : Wave) (n : Nat) : Nat := if w.system && decide (240 ≤ n) then n + 16 else n

/-- Reads the scalar held at an index; s0 reads zero. -/
def Wave.sAt (w : Wave) (k : Nat) : Word64 :=
  if k = 0 then 0 else if k < 256 then nth w.a.sregs k 0 else nth w.hregs (k - 256) 0

/-- Reads the shadow copy at an index; in an unpaired wave there is one copy. -/
def Wave.shAt (w : Wave) (k : Nat) : Word64 :=
  if w.paired then (if k = 0 then 0 else if k < 256 then nth w.a.sshadow k 0 else nth w.hshadow (k - 256) 0) else w.sAt k

/-- Writes both copies at an index; a write to s0 is ignored. -/
def Wave.putS (w : Wave) (k : Nat) (x xs : Word64) : Wave :=
  if k = 0 then w
  else if k < 256 then
    { w with a := { w.a with sregs := setAt w.a.sregs k x, sshadow := setAt w.a.sshadow k xs } }
  else { w with hregs := setAt w.hregs (k - 256) x, hshadow := setAt w.hshadow (k - 256) xs }

/-- S(n) (R128). -/
def Wave.S (w : Wave) (n : Nat) : Word64 := w.sAt (w.sidx n)
/-- The shadow copy of S(n). -/
def Wave.Sh (w : Wave) (n : Nat) : Word64 := w.shAt (w.sidx n)
/-- SetS(n, x), with the shadow copy's value. -/
def Wave.setS (w : Wave) (n : Nat) (x xs : Word64) : Wave := w.putS (w.sidx n) x xs

/-- Marks the scalar at an index empty or full. -/
def Wave.markS (w : Wave) (k : Nat) (empty : Bool) : Wave :=
  if k = 0 then w else { w with sempty := (w.sempty &&& ~~~(BitVec.ofNat 272 (2 ^ k))) ||| (if empty then BitVec.ofNat 272 (2 ^ k) else 0) }

/-! ### Vector registers -/

/-- A register that reads zero in every lane. -/
def VReg.zero (W : Nat) : VReg := ⟨List.replicate W 0, .uniform, true⟩

/-- Vector register n. -/
def Wave.vreg (w : Wave) (n : Nat) : VReg := nth w.a.vregs n (VReg.zero w.W)
/-- Lane i of v(n). -/
def Wave.V_ (w : Wave) (n i : Nat) : Word32 := nth (w.vreg n).lanes i 0
/-- Changes vector register n. -/
def Wave.onV (w : Wave) (n : Nat) (f : VReg → VReg) : Wave := { w with a := { w.a with vregs := modifyAt w.a.vregs n f } }
/-- Marks v(n) empty or full. -/
def Wave.markV (w : Wave) (n : Nat) (empty : Bool) : Wave := w.onV n fun r => { r with full := !empty }

/-- Tag(d, t) (R128): t if the instruction wrote every live lane, else general. -/
def Wave.tagFor (w : Wave) (written : Mask) (t : Tag) : Tag := if w.a.live.sub written then t else .general

/-- Writes lane values into v(d) in the lanes of `on`, with the tag rule (R128). -/
def Wave.writeV (w : Wave) (d : Nat) (on : Mask) (value : Nat → Word32) (t : Tag) : Wave :=
  w.onV d fun r =>
    { r with
      lanes := r.lanes.zipIdx.map fun (x, i) => if on.has i then value i else x
      tag := w.tagFor on t }

/-- Registers by code: 0x00-0xBF vector, 0x100 + n scalar (R120). Is the register empty? -/
def Wave.isEmpty (w : Wave) (code : Nat) : Bool :=
  if code < 0xC0 then !(w.vreg code).full else if 0x100 ≤ code ∧ code < 0x200 then w.sempty.getLsbD (w.sidx (code - 0x100)) else false

/-- Is every register of the wave full (R121)? -/
def Wave.allFull (w : Wave) : Bool := w.sempty == 0 && w.a.vregs.all VReg.full

/-! ### Splits -/

/-- Replaces the issuing split, the head of the list. -/
def Wave.setSplit (w : Wave) (p : Split) : Wave := { w with a := { w.a with splits := p :: w.a.splits.tail } }

/-- Sets the flags of NS (R61). -/
def Wave.flags (w : Wave) (f : BitVec 7) : Wave := { w with a := { w.a with ns := w.a.ns ||| f } }

/-- The word has issued and retires: the program counter advances by 4 and `retired` by one (R112, R127, R378). -/
def Wave.advance (w : Wave) (p : Split) : Wave :=
  let w := w.setSplit { p with pc := (p.pc + 4) % 2 ^ 64 }
  { w with a := { w.a with retired := w.a.retired + 1, turn := p.lanes.lowest w.W } }

/-- Puts the wave back after a word that transfers no control. -/
def State.done (s : State) (w : Wave) (p : Split) : Result := .next (s.putWave (w.advance p))

/-- The word that split `p` issued retires; its control effect is already in the splits. -/
def Wave.retire (w : Wave) (p : Split) : Wave :=
  { w with a := { w.a with retired := w.a.retired + 1, turn := p.lanes.lowest w.W } }

/-- Enters registers in the issuing split's scoreboard (log 6). -/
def Split.busy (p : Split) (codes : List Nat) : Split := { p with board := p.board ++ codes }

/-! ### Logs (R332, R354) -/

/-- One error-log entry (R332). -/
def errorEntry (time va ctx home cause source index lost : Nat) : List Byte :=
  leBytes 8 0 ++ leBytes 1 (min lost 255) ++ leBytes 1 index ++ leBytes 2 source ++ leBytes 1 cause ++ leBytes 1 home ++
    leBytes 2 ctx ++ leBytes 8 va ++ leBytes 8 time

/-- Enters an entry into the device error log; a full log only counts it as lost (R332). -/
def State.logError (s : State) (va ctx home cause source index : Nat) : State :=
  if s.errorLog.length < Config.errorLogEntries then
    { s with errorLog := s.errorLog ++ [errorEntry s.clock va ctx home cause source index s.errorLost], errorLost := 0 }
  else { s with errorLost := s.errorLost + 1 }

/-- What an integrity-log entry names (R354); and the trap record a context fault reports, for which the entry has no field (log 43). -/
structure LogFields where
  addr : Nat
  launchid : Nat
  context : Nat
  event : Nat
  array : Nat
  core : Nat
  partition : Nat
  slot : Nat
  region : Nat
  lane : Nat
  report : TrapRecord
  deriving DecidableEq, Repr

/-- Fields that name nothing. -/
def LogFields.none : LogFields := ⟨0, 0, 0xFFFF, 0, 0, 0xFF, 0, 0, 0, 0xFFFF, .ofCause 0⟩

/-- One integrity-log entry (R354). -/
def integrityEntry (time : Nat) (f : LogFields) (lost : Nat) : List Byte :=
  leBytes 2 f.lane ++ leBytes 1 (min lost 255) ++ leBytes 3 f.region ++ leBytes 1 (f.slot + 16 * f.partition) ++ leBytes 1 f.core ++
    leBytes 1 f.array ++ leBytes 1 f.event ++ leBytes 2 f.context ++ leBytes 4 f.launchid ++ leBytes 8 f.addr ++ leBytes 8 time

/-- Enters an entry of a time into the integrity log; a full log drops it (R354). -/
def State.logIntegrityAt (s : State) (time : Nat) (f : LogFields) : State :=
  if s.integrityLog.length < Config.integrityLogEntries then
    { s with integrityLog := s.integrityLog ++ [integrityEntry time f s.integrityLost], integrityLost := 0 }
  else { s with integrityLost := s.integrityLost + 1 }

/-- Enters an entry of now into the integrity log. -/
def State.logIntegrity (s : State) (f : LogFields) : State := s.logIntegrityAt s.clock f

/-- The context of a wave. -/
def Wave.ctx (w : Wave) : Nat := w.kern.ctx

/-- The launch identifier of a wave. -/
def State.launchidOf (s : State) (w : Wave) : Nat := ((s.launch? w.launch).map fun l => l.desc.launchid).getD 0

/-- The trap record that a wave's trap registers hold (R253). -/
def Wave.trapRecord (w : Wave) : TrapRecord := ⟨w.trapcause.toNat, w.trappc, w.trapaddr, w.trapmask⟩

/-- Log fields that name a wave, with its trap record. -/
def State.fieldsOf (s : State) (w : Wave) : LogFields :=
  ⟨0, s.launchidOf w, w.ctx, 0, 0, w.core, w.partition, w.slot, 0, 0xFFFF, w.trapRecord⟩

/-! ### Killing a launch, context fault (R258, R298, R350) -/

/-- A wave of a killed launch: it stops issuing, its engine operations complete, and it retires (R258). -/
def Wave.kill (w : Wave) : Wave :=
  { w with
    status := if w.status = .retired then .retired else .retiring
    a := { w.a with splits := [], entries := [], live := 0 }
    frame := none, demand := none, waveTrap := none, preoff := none, engineFault := none, matFault := none }

/-- The keys of a launch's descendants among the launches, to a depth (R258). -/
def descendants (ls : List Launch) : Nat → List Nat → List Nat
  | 0, keys => keys
  | n + 1, keys =>
    descendants ls n (keys ++ (ls.filter fun l => !keys.contains l.key && (l.parent.map keys.contains).getD false).map Launch.key)

/-- Kills launches and their descendants (R258): none of their waves issues again; each completes with killed = 1. A stopped
crew's waves have nothing left to complete. -/
def State.killLaunches (s : State) (keys : List Nat) : State :=
  let all := descendants s.launches 11 keys
  { s with
    waves := s.waves.map fun w => if all.contains w.launch then w.kill else w
    launches := s.launches.map fun l =>
      if all.contains l.key && l.state != .completed then { l with killed := true, replayable := l.replayable } else l }

/-- Is a launch accepted and not completed? -/
def Launch.open_ (l : Launch) : Bool := l.state != .completed

/-- Context fault (R350, R258): kills every accepted launch of the context, sets status 3 in its queues and reports it in the integrity log,
event 0x30; the context keeps the trap record. -/
def State.contextFault (s : State) (ctx : Nat) (f : LogFields) : State :=
  let s := s.killLaunches ((s.launches.filter fun l => l.ctx == ctx && l.open_).map Launch.key)
  let s := { s with queues := s.queues.map fun (q : Queue) =>
    if q.context.toNat == ctx then { q with status := 3, reading := none } else q }
  let s := s.onContext ctx fun c => { c with faulted := true, report := f.report }
  { s.logIntegrity { f with event := 0x30, context := ctx } with interrupts := s.interrupts + 1 }

/-! ### Taking an exception and returning (R253-R259) -/

/-- Trap codes (R253). -/
def trapILLOP : Nat := 0x01
def trapFEATURE : Nat := 0x02
def trapPRIV : Nat := 0x03
def trapEMPTY : Nat := 0x04
def trapLANDING : Nat := 0x05
def trapREFILLDEPTH : Nat := 0x06
def trapBREAKDEPTH : Nat := 0x07
def trapALIGN : Nat := 0x08
def trapLOCALBOUND : Nat := 0x09
def trapDESC : Nat := 0x0A
def trapCLASSX : Nat := 0x0B
def trapXLATE : Nat := 0x0C
def trapACCESS : Nat := 0x0D
def trapXLATEUE : Nat := 0x0E
def trapRANGE : Nat := 0x0F
def trapNUMERIC : Nat := 0x10
def trapDEPTH : Nat := 0x11
def trapPRELIMIT : Nat := 0x12
def trapERRBUDGET : Nat := 0x13
def trapMISMATCH : Nat := 0x14
def trapUE : Nat := 0x15
def trapDIVERGE : Nat := 0x16
def trapLOGFULL : Nat := 0x17
def trapBRKPT : Nat := 0x18
def trapUSER : Nat := 0x19
def trapPARTIALMASK : Nat := 0x1A
def trapCALLDEPTH : Nat := 0x1B

/-- Fills the trap registers (R253). -/
def Wave.fillTrap (w : Wave) (cause pc addr : Nat) (mask : Mask) : Wave :=
  { w with
    trapcause := BitVec.ofNat 8 cause, trappc := BitVec.ofNat 64 pc, trapaddr := BitVec.ofNat 64 addr, trapmask := mask.trapWord }

/-- The object that holds a context's handler address in its code (R112, R357). -/
def State.handlerObj (s : State) (ctx : Nat) : Option (Nat × Object) :=
  match s.context? ctx with
  | none => none
  | some c =>
    if c.handler = 0 then none
    else (s.objects.find? fun o =>
      o.ctx == ctx && decide (o.codeVa ≤ c.handler ∧ c.handler < o.codeVa + 4 * o.code.length)).map fun o => (c.handler, o)

/-- Enters the trap handler (R255): the wave's splits stop; MR, MX and the control state go to the trap frame; MR and MX read
zero; the handler runs as one top-level split with the trapping split's lanes, which are the wave's live set. -/
def Wave.enterHandler (w : Wave) (p : Split) (clock handler : Nat) (obj : Object) (fromLadder : Bool) : Wave :=
  let lanes := w.pairUp p.lanes
  { w with
    frame := some ⟨w.a.mr, w.a.mx, w.a.splits, w.a.entries, w.a.live, p.lanes.lowest w.W, clock, obj, fromLadder, w.a.turn⟩
    a := { w.a with
      mr := 0, mx := 0, entries := [], live := lanes
      splits := [⟨lanes, handler, [], p.board, .ready, [], p.lastV, p.lastX⟩] } }

/-- TAKES AN EXCEPTION (R253, R255) of wave `w` with trapping split `p`, at code address `pc`: fills the trap registers and enters
the context's handler in system mode. A trap in system mode is a context fault (R258), and so is one without a handler. -/
def State.takeTrap (s : State) (w : Wave) (p : Split) (cause pc addr : Nat) (mask : Mask) : State :=
  let w := w.fillTrap cause pc addr mask
  if w.system then (s.putWave w).contextFault w.ctx { s.fieldsOf w with addr := pc }
  else
    match s.handlerObj w.ctx with
    | none => (s.putWave w).contextFault w.ctx { s.fieldsOf w with addr := pc }
    | some (h, obj) => s.putWave (w.enterHandler p s.clock h obj false)

/-- What is on the scoreboards of the wave's splits, suspended ones too (R27, R130). -/
def Wave.onBoards (w : Wave) : List Nat :=
  w.a.splits.flatMap Split.board ++ ((w.frame.map TrapFrame.splits).getD []).flatMap Split.board

/-- The scalars of `sgetv` words that the scoreboards of `w` hold and those of `v` do not: a bit for each (0x800 + its place in `sempty`). -/
def Wave.lostWrites (w v : Wave) : BitVec 272 :=
  (w.onBoards.filter fun c => decide (0x800 ≤ c) && !v.onBoards.contains c).foldl (fun m c => m ||| BitVec.ofNat 272 (2 ^ (c - 0x800))) 0

/-- A wave `v` that `w` became by losing splits: a write that a lost split still had under way lands (R119, R184, log 6). -/
def Wave.landLost (w v : Wave) : Wave := { v with sempty := v.sempty &&& ~~~(w.lostWrites v) }

/-- What a split waits in once the word it stands at is to issue again: nothing, but for the fence of its last deal (R301), which no word repeats. -/
def Split.anew (p : Split) : SplitStatus := if p.status = .acquiring then .acquiring else .ready

/-- RETURNS FROM THE HANDLER (R259): MR, MX and the control state come back from the frame; the trapping split resumes at trappc
and becomes ready, so that the word there issues again; a deal's fence that it still stood in holds it on (DEDUCED, log 27). -/
def Wave.leaveHandler (w : Wave) (f : TrapFrame) : Wave :=
  w.landLost { w with
    frame := none
    a := { w.a with
      mr := f.mr, mx := f.mx, entries := f.entries, live := f.live, turn := f.turn
      splits := f.splits.map fun q =>
        if q.lanes.has f.lane then { q with pc := w.trappc.toNat, status := q.anew } else q } }

/-- The outcome of a trap at the word a split issues. -/
def State.trapAt (s : State) (w : Wave) (p : Split) (cause addr : Nat) (mask : Mask) : Result :=
  .next (s.takeTrap w p cause p.pc addr mask)

/-! ### Charges and demands (R340, R341, R345-R347) -/

/-- Subtracts a charge from a context's budget; true when it leaves it at zero or below (R340, R341). -/
def State.charge (s : State) (ctx n : Nat) : State × Bool :=
  let s := s.onContext ctx fun c => { c with eb := c.eb - BitVec.ofNat 64 n }
  (s, ((s.context? ctx).map fun c => decide (n ≠ 0 ∧ c.eb.toInt ≤ 0)).getD false)

/-- EB of a context. -/
def State.ebOf (s : State) (ctx : Nat) : Word64 := ((s.context? ctx).map Context.eb).getD 0

/-- Fills the trap registers as R347 states for an event of the ladder: of a rollback too, as R359 says, where R253 has MISMATCH and UE enter trapcause
only with a handler (DEDUCED, log 32). -/
def Wave.fillDemand (w : Wave) (d : Demand) : Wave := w.fillTrap d.cause d.pc d.addr d.mask

/-- Enters an event of the ladder in the integrity log (R347, R354): the word's code address, and the number of the head the wave restarts
from, 0 where none is. The time is that at which the event was found. -/
def State.logDemand (s : State) (w : Wave) (d : Demand) (event region : Nat) : State :=
  s.logIntegrityAt d.time { s.fieldsOf w with addr := d.pc, event := event, array := d.array, lane := d.lane, region := region }

/-- The trap record of an event of the ladder (R347). -/
def Demand.record (d : Demand) : TrapRecord := ⟨d.cause, BitVec.ofNat 64 d.pc, BitVec.ofNat 64 d.addr, d.mask.trapWord⟩

/-- Was an event found at a drain's turn (R236), so that its rollback is one to redo the drain? -/
def Demand.atTurn (d : Demand) : Bool := !d.atIssue && decide (d.event < 0x12)

/-- The event a wave owes of an earlier one and a new one: the earlier, but a compare that a drain fails at its turn before one that was found at an
issue, whose rollback would skip the drain (R346). -/
def Demand.joined (old : Option Demand) (d : Demand) : Demand :=
  match old with
  | some e => if e.atIssue && e.event < 0x12 && d.atTurn then d else e
  | none => d

/-- Demands a region rollback of a wave (R346, R347): the trap registers are filled, and the wave owes the rollback, which enters the log as it is
taken; in system mode it is a context fault (R257). -/
def State.demandRollback (s : State) (w : Wave) (d : Demand) : State :=
  let w := w.fillDemand d
  let s := s.putWave w
  if w.system then (s.logDemand w d d.event 0).contextFault w.ctx { s.fieldsOf w with addr := d.pc }
  else s.onWave w.key fun w => { w with demand := some (Demand.joined w.demand d) }

/-- A paired compare finds a difference in the pairs of `bad` (R347); with no lane involved (`scalar`), trapmask holds the
issuing split's pairs and the log's lane is 0xFFFF. -/
def State.mismatch (s : State) (w : Wave) (p : Split) (bad : Mask) (scalar : Bool) : Result :=
  let mask := w.pairUp (if scalar then p.lanes else bad)
  .next (s.demandRollback w ⟨0x10, trapMISMATCH, p.pc, mask, if scalar then 0xFFFF else bad.lowest w.W, true, none, p.pc, 0x08, s.clock⟩)

end Sys2Proof.Machine
end

