-- ==== Sys2Proof/Machine/Flags.lean ====
section
/-! DEFINITION. The numeric status flags (R61, R62), the class range test (R84) and the rounding control of a lane (R51-R56). -/

namespace Sys2Proof.Machine

/-- NS bits (R61). -/
def nsInvalid : BitVec 7 := 0x01
def nsDivzero : BitVec 7 := 0x02
def nsOverflow : BitVec 7 := 0x04
def nsUnderflow : BitVec 7 := 0x08
def nsRange : BitVec 7 := 0x10
def nsSat : BitVec 7 := 0x20
def nsMxclamp : BitVec 7 := 0x40

/-- A flag when a condition holds. -/
def flagIf (c : Bool) (f : BitVec 7) : BitVec 7 := if c then f else 0

/-- The flags of a conversion. -/
def Converted.flags (c : Converted) : BitVec 7 :=
  flagIf c.invalid nsInvalid ||| flagIf c.ovf nsOverflow ||| flagIf c.unf nsUnderflow ||| flagIf c.sat nsSat

/-- Does a set of flags hold `invalid`? -/
def hasInvalid (f : BitVec 7) : Bool := f.getLsbD 0

/-- Is a value out of class range (R84): finite, nonzero and outside [2^lo, 2^hi] for a real class, outside the value set of R64
for an int or index class? Class 0 has no declared range (R160). -/
def ClassRec.outside (c : ClassRec) (v : Val) : Bool :=
  if c.id = 0 then false
  else match v with
    | .num neg m e _ =>
      match c.kind with
      | .real => m != 0 && (magLt m e 1 c.lo || magLt 1 c.hi m e)
      | .int => cmpNum false m e false 1 c.hi != .lt
      | .index => (neg && m != 0) || cmpNum false m e false 1 c.hi != .lt
    | _ => false

/-- The lanes out of class range among the active ones (R84, R85, R160): for a `block` class every active lane of a block (same
block group, same copy) whose largest magnitude is outside; else each lane outside. DESIGN CHOICE (log 48): a lane that holds an infinity or a
NaN has no magnitude here, so a block is judged by its largest finite one. -/
def Wave.outsideLanes (w : Wave) (c : ClassRec) (lanes : List Nat) (value : Nat → Val) : List Nat :=
  if c.block && c.kind == .real then
    lanes.filter fun i =>
      let peers := lanes.filter fun k => w.visible k / 32 == w.visible i / 32 && w.isShadow k == w.isShadow i
      let big := maxMag (peers.map value)
      c.outside (.num false big.1 big.2 false)
  else lanes.filter fun i => c.outside (value i)

/-- The stochastic draw r of a lane (R54-R56) under a rounding code. -/
def laneDraw (code : Nat) (mx : Word64) (seedlo seedhi : Word32) (l : Lane) (vis : Nat) : Nat :=
  if code = 5 then frit seedlo seedhi (BitVec.ofNat 32 (mxStream mx * 65536 + l.c.toNat)) l.n
  else if code = 6 then dither (vis % 32) (mxPhase mx)
  else 0

/-- Default lane. -/
def Lane.blank : Lane := ⟨0, 0, 0, 0, none, 0⟩

/-- Lane i of a wave. -/
def Wave.lane (w : Wave) (i : Nat) : Lane := nth w.a.lanes i Lane.blank

/-- The rounding control of lane i under given MR, MX and seeds. A shadow lane draws with its primary's item and c (R55). -/
def Wave.ctlWith (w : Wave) (mr mx : Word64) (seedlo seedhi : Word32) (i : Nat) : RoundCtl :=
  ⟨mrRound mr, laneDraw (mrRound mr) mx seedlo seedhi (w.lane (w.primary (w.visible i))) (w.visible i), mrSat mr⟩

/-- The rounding control of lane i now. -/
def Wave.ctl (w : Wave) (i : Nat) : RoundCtl :=
  w.ctlWith w.a.mr w.a.mx (w.a.seedlo.setWidth 32) (w.a.seedhi.setWidth 32) i

/-- c increases by 1 in the lanes of `on` (R55). -/
def Wave.bumpC (w : Wave) (on : Mask) : Wave :=
  { w with a := { w.a with lanes := w.a.lanes.zipIdx.map fun (l, i) => if on.has i then { l with c := l.c + 1 } else l } }

/-- c advances in `on` when the rounding code is SRF (R55). -/
def Wave.bumpIfSRF (w : Wave) (mr : Word64) (on : Mask) : Wave := if mrRound mr = 5 then w.bumpC on else w

end Sys2Proof.Machine
end

