-- ==== Sys2Proof/Machine/Operands.lean ====
section
/-! DEFINITION. Operand forms (R114, R115), which registers a word reads and writes, the checks at issue (R126, R120) and the frame
every instruction word's meaning runs in. -/

namespace Sys2Proof.Machine

/-- Source position (R120). -/
inductive Pos where
  | A | B | D
  deriving DecidableEq, Repr

/-- How a source field is read (R114, R115): a vector operand in form C, X or raw, a vector register named directly, a scalar, a
predicate. -/
inductive OKind where
  | vC | vX | vRaw | vr | s | p
  deriving DecidableEq, Repr

/-- A source of a word. -/
structure Operand where
  f : Byte
  pos : Pos
  kind : OKind
  deriving DecidableEq, Repr

/-- Code of a scalar register (R120); s0 has no full bit and is never written. -/
def sCode (f : Byte) : List Nat := if f = 0 then [] else [0x100 + f.toNat]
/-- Code of a predicate, for the scoreboard; p0 is never written. -/
def pCode (f : Byte) : List Nat := if f = 0 then [] else [0x200 + f.toNat]

/-- The sources of each word, with their positions and forms (R122-R125, R132-R264). -/
def sources : Instr → List Operand
  | .sadd _ a b => [⟨a, .A, .s⟩, ⟨b, .B, .s⟩]
  | .ssub _ a b => [⟨a, .A, .s⟩, ⟨b, .B, .s⟩]
  | .smul _ a b => [⟨a, .A, .s⟩, ⟨b, .B, .s⟩]
  | .smulh _ a b => [⟨a, .A, .s⟩, ⟨b, .B, .s⟩]
  | .smulhu _ a b => [⟨a, .A, .s⟩, ⟨b, .B, .s⟩]
  | .sdiv _ a b => [⟨a, .A, .s⟩, ⟨b, .B, .s⟩]
  | .sdivu _ a b => [⟨a, .A, .s⟩, ⟨b, .B, .s⟩]
  | .srem _ a b => [⟨a, .A, .s⟩, ⟨b, .B, .s⟩]
  | .sremu _ a b => [⟨a, .A, .s⟩, ⟨b, .B, .s⟩]
  | .sand _ a b => [⟨a, .A, .s⟩, ⟨b, .B, .s⟩]
  | .sor _ a b => [⟨a, .A, .s⟩, ⟨b, .B, .s⟩]
  | .sxor _ a b => [⟨a, .A, .s⟩, ⟨b, .B, .s⟩]
  | .sshl _ a b => [⟨a, .A, .s⟩, ⟨b, .B, .s⟩]
  | .sshr _ a b => [⟨a, .A, .s⟩, ⟨b, .B, .s⟩]
  | .ssra _ a b => [⟨a, .A, .s⟩, ⟨b, .B, .s⟩]
  | .smin _ a b => [⟨a, .A, .s⟩, ⟨b, .B, .s⟩]
  | .smax _ a b => [⟨a, .A, .s⟩, ⟨b, .B, .s⟩]
  | .sminu _ a b => [⟨a, .A, .s⟩, ⟨b, .B, .s⟩]
  | .smaxu _ a b => [⟨a, .A, .s⟩, ⟨b, .B, .s⟩]
  | .scmov _ a b => [⟨a, .A, .s⟩, ⟨b, .B, .s⟩]
  | .spopc _ a => [⟨a, .A, .s⟩]
  | .sclz _ a => [⟨a, .A, .s⟩]
  | .sctz _ a => [⟨a, .A, .s⟩]
  | .sbfx _ a b => [⟨a, .A, .s⟩, ⟨b, .B, .s⟩]
  | .sbfi d a b => [⟨a, .A, .s⟩, ⟨b, .B, .s⟩, ⟨d, .D, .s⟩]
  | .smov _ a => [⟨a, .A, .s⟩]
  | .sceq _ a b => [⟨a, .A, .s⟩, ⟨b, .B, .s⟩]
  | .scne _ a b => [⟨a, .A, .s⟩, ⟨b, .B, .s⟩]
  | .sclt _ a b => [⟨a, .A, .s⟩, ⟨b, .B, .s⟩]
  | .scle _ a b => [⟨a, .A, .s⟩, ⟨b, .B, .s⟩]
  | .scltu _ a b => [⟨a, .A, .s⟩, ⟨b, .B, .s⟩]
  | .scleu _ a b => [⟨a, .A, .s⟩, ⟨b, .B, .s⟩]
  | .sread _ _ => []
  | .swrite _ b => [⟨b, .B, .s⟩]
  | .sldl _ a b => [⟨a, .A, .s⟩, ⟨b, .B, .s⟩]
  | .sldw _ a b => [⟨a, .A, .s⟩, ⟨b, .B, .s⟩]
  | .sstl d a b => [⟨a, .A, .s⟩, ⟨b, .B, .s⟩, ⟨d, .D, .s⟩]
  | .sstw d a b => [⟨a, .A, .s⟩, ⟨b, .B, .s⟩, ⟨d, .D, .s⟩]
  | .sgetv _ a b => [⟨a, .A, .vr⟩, ⟨b, .B, .s⟩]
  | .sli _ _ => []
  | .slih d _ => [⟨d, .D, .s⟩]
  | .slix d _ => [⟨d, .D, .s⟩]
  | .sliy d _ => [⟨d, .D, .s⟩]
  | .saddi d _ => [⟨d, .D, .s⟩]
  | .sandi d _ => [⟨d, .D, .s⟩]
  | .sori d _ => [⟨d, .D, .s⟩]
  | .sxori d _ => [⟨d, .D, .s⟩]
  | .sshli d _ => [⟨d, .D, .s⟩]
  | .sshri d _ => [⟨d, .D, .s⟩]
  | .ssrai d _ => [⟨d, .D, .s⟩]
  | .smuli d _ => [⟨d, .D, .s⟩]
  | .sldp _ _ => []
  | .satadd _ a b => [⟨a, .A, .s⟩, ⟨b, .B, .s⟩]
  | .satxchg _ a b => [⟨a, .A, .s⟩, ⟨b, .B, .s⟩]
  | .satcas d a b => [⟨a, .A, .s⟩, ⟨b, .B, .s⟩, ⟨d, .D, .s⟩]
  | .satmin _ a b => [⟨a, .A, .s⟩, ⟨b, .B, .s⟩]
  | .satmax _ a b => [⟨a, .A, .s⟩, ⟨b, .B, .s⟩]
  | .satand _ a b => [⟨a, .A, .s⟩, ⟨b, .B, .s⟩]
  | .sator _ a b => [⟨a, .A, .s⟩, ⟨b, .B, .s⟩]
  | .satxor _ a b => [⟨a, .A, .s⟩, ⟨b, .B, .s⟩]
  | .vadd _ a b => [⟨a, .A, .vC⟩, ⟨b, .B, .vC⟩]
  | .vsub _ a b => [⟨a, .A, .vC⟩, ⟨b, .B, .vC⟩]
  | .vmul _ a b => [⟨a, .A, .vC⟩, ⟨b, .B, .vC⟩]
  | .vfma d a b => [⟨a, .A, .vC⟩, ⟨b, .B, .vC⟩, ⟨d, .D, .vr⟩]
  | .vfms d a b => [⟨a, .A, .vC⟩, ⟨b, .B, .vC⟩, ⟨d, .D, .vr⟩]
  | .vfnma d a b => [⟨a, .A, .vC⟩, ⟨b, .B, .vC⟩, ⟨d, .D, .vr⟩]
  | .vmin _ a b => [⟨a, .A, .vC⟩, ⟨b, .B, .vC⟩]
  | .vmax _ a b => [⟨a, .A, .vC⟩, ⟨b, .B, .vC⟩]
  | .vabs _ a => [⟨a, .A, .vC⟩]
  | .vneg _ a => [⟨a, .A, .vC⟩]
  | .vdiv _ a b => [⟨a, .A, .vC⟩, ⟨b, .B, .vC⟩]
  | .vrem _ a b => [⟨a, .A, .vC⟩, ⟨b, .B, .vC⟩]
  | .vsqrt _ a => [⟨a, .A, .vC⟩]
  | .vrsqrt _ a => [⟨a, .A, .vC⟩]
  | .vrcp _ a => [⟨a, .A, .vC⟩]
  | .vexp2 _ a => [⟨a, .A, .vC⟩]
  | .vlog2 _ a => [⟨a, .A, .vC⟩]
  | .vmulh _ a b => [⟨a, .A, .vC⟩, ⟨b, .B, .vC⟩]
  | .vand _ a b => [⟨a, .A, .vRaw⟩, ⟨b, .B, .vRaw⟩]
  | .vor _ a b => [⟨a, .A, .vRaw⟩, ⟨b, .B, .vRaw⟩]
  | .vxor _ a b => [⟨a, .A, .vRaw⟩, ⟨b, .B, .vRaw⟩]
  | .vshl _ a b => [⟨a, .A, .vRaw⟩, ⟨b, .B, .vRaw⟩]
  | .vshr _ a b => [⟨a, .A, .vRaw⟩, ⟨b, .B, .vRaw⟩]
  | .vsra _ a b => [⟨a, .A, .vRaw⟩, ⟨b, .B, .vRaw⟩]
  | .vpopc _ a => [⟨a, .A, .vRaw⟩]
  | .vclz _ a => [⟨a, .A, .vRaw⟩]
  | .vceq _ a b => [⟨a, .A, .vC⟩, ⟨b, .B, .vC⟩]
  | .vcne _ a b => [⟨a, .A, .vC⟩, ⟨b, .B, .vC⟩]
  | .vclt _ a b => [⟨a, .A, .vC⟩, ⟨b, .B, .vC⟩]
  | .vcle _ a b => [⟨a, .A, .vC⟩, ⟨b, .B, .vC⟩]
  | .vcun _ a b => [⟨a, .A, .vC⟩, ⟨b, .B, .vC⟩]
  | .vsel _ a b => [⟨a, .A, .vRaw⟩, ⟨b, .B, .vRaw⟩]
  | .vcvt _ a => [⟨a, .A, .vX⟩]
  | .vrnd _ a => [⟨a, .A, .vC⟩]
  | .vmov _ a => [⟨a, .A, .vC⟩]
  | .vfromp _ a => [⟨a, .A, .p⟩]
  | .vtop _ a => [⟨a, .A, .vRaw⟩]
  | .vpand _ a b => [⟨a, .A, .p⟩, ⟨b, .B, .p⟩]
  | .vpor _ a b => [⟨a, .A, .p⟩, ⟨b, .B, .p⟩]
  | .vpxor _ a b => [⟨a, .A, .p⟩, ⟨b, .B, .p⟩]
  | .vpnot _ a => [⟨a, .A, .p⟩]
  | .vshfl _ a b => [⟨a, .A, .vRaw⟩, ⟨b, .B, .vRaw⟩]
  | .vshup _ a b => [⟨a, .A, .vRaw⟩, ⟨b, .B, .vRaw⟩]
  | .vshdn _ a b => [⟨a, .A, .vRaw⟩, ⟨b, .B, .vRaw⟩]
  | .vbcast _ a b => [⟨a, .A, .vRaw⟩, ⟨b, .B, .vRaw⟩]
  | .vscan _ a => [⟨a, .A, .vC⟩]
  | .vscanmax _ a => [⟨a, .A, .vC⟩]
  | .vscanmin _ a => [⟨a, .A, .vC⟩]
  | .vredsum _ a => [⟨a, .A, .vC⟩]
  | .vredmax _ a => [⟨a, .A, .vC⟩]
  | .vredmin _ a => [⟨a, .A, .vC⟩]
  | .vballot _ a _ => [⟨a, .A, .p⟩]
  | .vcount _ a => [⟨a, .A, .p⟩]
  | .vrank _ a => [⟨a, .A, .p⟩]
  | .vtag _ a => [⟨a, .A, .vr⟩]
  | .vgen _ => []
  | .vld _ a b => [⟨a, .A, .vRaw⟩, ⟨b, .B, .vRaw⟩]
  | .vst d a b => [⟨a, .A, .vRaw⟩, ⟨b, .B, .vRaw⟩, ⟨d, .D, .vC⟩]
  | .vldraw _ a b => [⟨a, .A, .vRaw⟩, ⟨b, .B, .vRaw⟩]
  | .vstraw d a b => [⟨a, .A, .vRaw⟩, ⟨b, .B, .vRaw⟩, ⟨d, .D, .vRaw⟩]
  | .vldb _ a b => [⟨a, .A, .vRaw⟩, ⟨b, .B, .vRaw⟩]
  | .vstb d a b => [⟨a, .A, .vRaw⟩, ⟨b, .B, .vRaw⟩, ⟨d, .D, .vRaw⟩]
  | .vldh _ a b => [⟨a, .A, .vRaw⟩, ⟨b, .B, .vRaw⟩]
  | .vsth d a b => [⟨a, .A, .vRaw⟩, ⟨b, .B, .vRaw⟩, ⟨d, .D, .vRaw⟩]
  | .vlds _ a => [⟨a, .A, .vRaw⟩]
  | .vsts d a => [⟨a, .A, .vRaw⟩, ⟨d, .D, .vRaw⟩]
  | .vatadd d a b => [⟨a, .A, .s⟩, ⟨b, .B, .vRaw⟩, ⟨d, .D, .vr⟩]
  | .vatmin d a b => [⟨a, .A, .s⟩, ⟨b, .B, .vRaw⟩, ⟨d, .D, .vr⟩]
  | .vatmax d a b => [⟨a, .A, .s⟩, ⟨b, .B, .vRaw⟩, ⟨d, .D, .vr⟩]
  | .vatand d a b => [⟨a, .A, .s⟩, ⟨b, .B, .vRaw⟩, ⟨d, .D, .vr⟩]
  | .vator d a b => [⟨a, .A, .s⟩, ⟨b, .B, .vRaw⟩, ⟨d, .D, .vr⟩]
  | .vatxchg d a b => [⟨a, .A, .s⟩, ⟨b, .B, .vRaw⟩, ⟨d, .D, .vr⟩]
  | .vatcas d a b => [⟨a, .A, .s⟩, ⟨b, .B, .vRaw⟩, ⟨d, .D, .vr⟩, ⟨d + 1, .D, .vr⟩]
  | .cxadd d a b => [⟨a, .A, .s⟩, ⟨b, .B, .vRaw⟩, ⟨d, .D, .vC⟩]
  | .cxget _ a b => [⟨a, .A, .s⟩, ⟨b, .B, .vRaw⟩]
  | .cxclr a b => [⟨a, .A, .s⟩, ⟨b, .B, .vRaw⟩]
  | .cpin a => [⟨a, .A, .s⟩]
  | .cpout a => [⟨a, .A, .s⟩]
  | .cpgat a => [⟨a, .A, .s⟩]
  | .cpsca a => [⟨a, .A, .s⟩]
  | .cpfill a => [⟨a, .A, .s⟩]
  | .cplocal a => [⟨a, .A, .s⟩]
  | .wait _ _ => []
  | .fence _ _ => []
  | .mma _ a b => [⟨a, .A, .s⟩, ⟨b, .B, .s⟩]
  | .mmaz _ a b => [⟨a, .A, .s⟩, ⟨b, .B, .s⟩]
  | .mzero _ => []
  | .mdrv _ _ => []
  | .mdrl _ b => [⟨b, .B, .s⟩]
  | .mdrx _ b => [⟨b, .B, .s⟩]
  | .mldv _ a => (List.range 32).map fun k => ⟨a + BitVec.ofNat 8 k, .A, .vr⟩
  | .bra _ => []
  | .brp p _ => [⟨p.setWidth 8, .D, .p⟩]
  | .brn p _ => [⟨p.setWidth 8, .D, .p⟩]
  | .split _ => []
  | .join => []
  | .brk _ _ => []
  | .brx a b => [⟨a, .A, .s⟩, ⟨b, .B, .vRaw⟩]
  | .call _ => []
  | .ret => []
  | .land => []
  | .exit a => [⟨a, .A, .vRaw⟩]
  | .refill _ => []
  | .rgn _ => []
  | .bar _ _ => []
  | .mode _ => []
  | .modx _ => []
  | .seed a b => [⟨a, .A, .s⟩, ⟨b, .B, .s⟩]
  | .launch a => [⟨a, .A, .s⟩]
  | .trap _ => []
  | .brkpt => []
  | .preoff _ => []
  | .preon => []
  | .yield => []
  | .sleep _ => []
  | .bindq _ a _ => [⟨a, .A, .s⟩]
  | .nsclr => []
  | .tret => []
  | .inject d a b => [⟨a, .A, .s⟩, ⟨b, .B, .s⟩, ⟨d, .D, .vr⟩]
  | .nop => []
  | .portAccess _ => []
  | .enginePartPerform _ _ _ _ => []
  | .sideLog _ _ _ => []
  | .sideLogReplay _ _ => []
  | .counterRetire _ _ => []
  | .atomicReturn _ _ => []
  | .errorResponse _ _ _ => []
  | .matrixTurn _ => []
  | .waveDeal _ => []
  | .waveRetire _ => []
  | .prelimit _ => []
  | .sleepEnd _ _ => []
  | .systemModeTimeout _ => []
  | .tailWrite _ _ => []
  | .descriptorAccept _ => []
  | .launchStart _ => []
  | .crewPlace _ => []
  | .launchComplete _ => []
  | .bitmapBitSet _ _ => []
  | .crewPreempt _ => []
  | .crewReplace _ => []
  | .assayDue _ => []
  | .assayDelayed _ => []
  | .assayEnd _ _ => []
  | .homeRequest _ _ _ => []
  | .walkComplete _ _ _ => []
  | .retryAfterResend _ _ _ => []
  | .leaseGrant _ _ _ _ _ => []
  | .leaseExpire _ _ => []
  | .leaseRecallAck _ _ => []
  | .migrateCommit _ _ _ => []
  | .hostMemAccess _ _ _ _ => []
  | .hostGoResponse => []
  | .peerRequest _ _ _ _ _ => []
  | .linkFlitRetry _ _ => []
  | .cxlLinkLoss => []
  | .thermalTrip => []
  | .resetRelease _ _ _ => []
  | .firmwareReady => []
  | .facceptWrite _ _ => []
  | .registerWrite _ _ => []
  | .qstart _ => []
  | .qstop _ => []
  | .qevict _ => []
  | .qresume _ => []
  | .qkill _ => []
  | .load _ _ _ _ _ _ => []
  | .ctxcreate _ _ _ => []
  | .ctxroot _ _ _ => []
  | .xinval _ _ _ _ => []
  | .resolve _ _ _ => []
  | .migrate _ _ _ _ => []
  | .fringset _ _ _ => []
  | .trapset _ _ => []
  | .ebset _ _ => []
  | .ctxsave _ _ _ _ => []
  | .ctxrestore _ _ _ => []
  | .ctxdestroy _ => []
  | .reclass _ _ _ => []
  | .lehrset _ _ => []
  | .corrread _ _ => []
  | .assayset _ _ => []
  | .tlogset _ _ _ _ => []
  | .logread _ => []
  | .ilogread _ => []
  | .peerset _ _ => []
  | .attest _ _ _ _ => []
  | .attestCert _ _ => []
  | .pwrcap _ => []
  | .regionRollback _ => []
  | .launchReplay _ => []
  | .scrubPass _ => []
  | .tokenPass _ => []
  | .diverge _ => []
  | .nativeCodeReady _ _ _ => []
  | .softError _ _ => []
  | .registerWriteback _ _ => []
  | .bandReopen _ => []
  | .leaseRecall _ _ => []
  | .arithmeticClockStep _ => []

/-- The registers a word writes (R120). -/
def dests : Instr → List Nat
  | .sadd d _ _ => sCode d
  | .ssub d _ _ => sCode d
  | .smul d _ _ => sCode d
  | .smulh d _ _ => sCode d
  | .smulhu d _ _ => sCode d
  | .sdiv d _ _ => sCode d
  | .sdivu d _ _ => sCode d
  | .srem d _ _ => sCode d
  | .sremu d _ _ => sCode d
  | .sand d _ _ => sCode d
  | .sor d _ _ => sCode d
  | .sxor d _ _ => sCode d
  | .sshl d _ _ => sCode d
  | .sshr d _ _ => sCode d
  | .ssra d _ _ => sCode d
  | .smin d _ _ => sCode d
  | .smax d _ _ => sCode d
  | .sminu d _ _ => sCode d
  | .smaxu d _ _ => sCode d
  | .scmov d _ _ => sCode d
  | .spopc d _ => sCode d
  | .sclz d _ => sCode d
  | .sctz d _ => sCode d
  | .sbfx d _ _ => sCode d
  | .sbfi d _ _ => sCode d
  | .smov d _ => sCode d
  | .sceq d _ _ => pCode d
  | .scne d _ _ => pCode d
  | .sclt d _ _ => pCode d
  | .scle d _ _ => pCode d
  | .scltu d _ _ => pCode d
  | .scleu d _ _ => pCode d
  | .sread d _ => sCode d
  | .swrite _ _ => []
  | .sldl d _ _ => sCode d
  | .sldw d _ _ => sCode d
  | .sstl _ _ _ => []
  | .sstw _ _ _ => []
  | .sgetv d _ _ => sCode d
  | .sli d _ => sCode d
  | .slih d _ => sCode d
  | .slix d _ => sCode d
  | .sliy d _ => sCode d
  | .saddi d _ => sCode d
  | .sandi d _ => sCode d
  | .sori d _ => sCode d
  | .sxori d _ => sCode d
  | .sshli d _ => sCode d
  | .sshri d _ => sCode d
  | .ssrai d _ => sCode d
  | .smuli d _ => sCode d
  | .sldp d _ => sCode d
  | .satadd d _ _ => sCode d
  | .satxchg d _ _ => sCode d
  | .satcas d _ _ => sCode d
  | .satmin d _ _ => sCode d
  | .satmax d _ _ => sCode d
  | .satand d _ _ => sCode d
  | .sator d _ _ => sCode d
  | .satxor d _ _ => sCode d
  | .vadd d _ _ => [d.toNat]
  | .vsub d _ _ => [d.toNat]
  | .vmul d _ _ => [d.toNat]
  | .vfma d _ _ => [d.toNat]
  | .vfms d _ _ => [d.toNat]
  | .vfnma d _ _ => [d.toNat]
  | .vmin d _ _ => [d.toNat]
  | .vmax d _ _ => [d.toNat]
  | .vabs d _ => [d.toNat]
  | .vneg d _ => [d.toNat]
  | .vdiv d _ _ => [d.toNat]
  | .vrem d _ _ => [d.toNat]
  | .vsqrt d _ => [d.toNat]
  | .vrsqrt d _ => [d.toNat]
  | .vrcp d _ => [d.toNat]
  | .vexp2 d _ => [d.toNat]
  | .vlog2 d _ => [d.toNat]
  | .vmulh d _ _ => [d.toNat]
  | .vand d _ _ => [d.toNat]
  | .vor d _ _ => [d.toNat]
  | .vxor d _ _ => [d.toNat]
  | .vshl d _ _ => [d.toNat]
  | .vshr d _ _ => [d.toNat]
  | .vsra d _ _ => [d.toNat]
  | .vpopc d _ => [d.toNat]
  | .vclz d _ => [d.toNat]
  | .vceq d _ _ => pCode d
  | .vcne d _ _ => pCode d
  | .vclt d _ _ => pCode d
  | .vcle d _ _ => pCode d
  | .vcun d _ _ => pCode d
  | .vsel d _ _ => [d.toNat]
  | .vcvt d _ => [d.toNat]
  | .vrnd d _ => [d.toNat]
  | .vmov d _ => [d.toNat]
  | .vfromp d _ => [d.toNat]
  | .vtop d _ => pCode d
  | .vpand d _ _ => pCode d
  | .vpor d _ _ => pCode d
  | .vpxor d _ _ => pCode d
  | .vpnot d _ => pCode d
  | .vshfl d _ _ => [d.toNat]
  | .vshup d _ _ => [d.toNat]
  | .vshdn d _ _ => [d.toNat]
  | .vbcast d _ _ => [d.toNat]
  | .vscan d _ => [d.toNat]
  | .vscanmax d _ => [d.toNat]
  | .vscanmin d _ => [d.toNat]
  | .vredsum d _ => [d.toNat]
  | .vredmax d _ => [d.toNat]
  | .vredmin d _ => [d.toNat]
  | .vballot d _ _ => sCode d
  | .vcount d _ => sCode d
  | .vrank d _ => [d.toNat]
  | .vtag d _ => sCode d
  | .vgen d => [d.toNat]
  | .vld d _ _ => [d.toNat]
  | .vst _ _ _ => []
  | .vldraw d _ _ => [d.toNat]
  | .vstraw _ _ _ => []
  | .vldb d _ _ => [d.toNat]
  | .vstb _ _ _ => []
  | .vldh d _ _ => [d.toNat]
  | .vsth _ _ _ => []
  | .vlds d _ => [d.toNat]
  | .vsts _ _ => []
  | .vatadd d _ _ => [d.toNat]
  | .vatmin d _ _ => [d.toNat]
  | .vatmax d _ _ => [d.toNat]
  | .vatand d _ _ => [d.toNat]
  | .vator d _ _ => [d.toNat]
  | .vatxchg d _ _ => [d.toNat]
  | .vatcas d _ _ => [d.toNat]
  | .cxadd _ _ _ => []
  | .cxget d _ _ => [d.toNat]
  | .cxclr _ _ => []
  | .cpin _ => []
  | .cpout _ => []
  | .cpgat _ => []
  | .cpsca _ => []
  | .cpfill _ => []
  | .cplocal _ => []
  | .wait _ _ => []
  | .fence _ _ => []
  | .mma _ _ _ => []
  | .mmaz _ _ _ => []
  | .mzero _ => []
  | .mdrv d _ => (List.range 32).map (d.toNat + ·)
  | .mdrl _ _ => []
  | .mdrx _ _ => []
  | .mldv _ _ => []
  | .bra _ => []
  | .brp _ _ => []
  | .brn _ _ => []
  | .split _ => []
  | .join => []
  | .brk _ _ => []
  | .brx _ _ => []
  | .call _ => []
  | .ret => []
  | .land => []
  | .exit _ => []
  | .refill d => pCode d
  | .rgn _ => []
  | .bar d _ => pCode d
  | .mode _ => []
  | .modx _ => []
  | .seed _ _ => []
  | .launch _ => []
  | .trap _ => []
  | .brkpt => []
  | .preoff _ => []
  | .preon => []
  | .yield => []
  | .sleep _ => []
  | .bindq d _ _ => sCode d
  | .nsclr => []
  | .tret => []
  | .inject d _ _ => [d.toNat]
  | .nop => []
  | .portAccess _ => []
  | .enginePartPerform _ _ _ _ => []
  | .sideLog _ _ _ => []
  | .sideLogReplay _ _ => []
  | .counterRetire _ _ => []
  | .atomicReturn _ _ => []
  | .errorResponse _ _ _ => []
  | .matrixTurn _ => []
  | .waveDeal _ => []
  | .waveRetire _ => []
  | .prelimit _ => []
  | .sleepEnd _ _ => []
  | .systemModeTimeout _ => []
  | .tailWrite _ _ => []
  | .descriptorAccept _ => []
  | .launchStart _ => []
  | .crewPlace _ => []
  | .launchComplete _ => []
  | .bitmapBitSet _ _ => []
  | .crewPreempt _ => []
  | .crewReplace _ => []
  | .assayDue _ => []
  | .assayDelayed _ => []
  | .assayEnd _ _ => []
  | .homeRequest _ _ _ => []
  | .walkComplete _ _ _ => []
  | .retryAfterResend _ _ _ => []
  | .leaseGrant _ _ _ _ _ => []
  | .leaseExpire _ _ => []
  | .leaseRecallAck _ _ => []
  | .migrateCommit _ _ _ => []
  | .hostMemAccess _ _ _ _ => []
  | .hostGoResponse => []
  | .peerRequest _ _ _ _ _ => []
  | .linkFlitRetry _ _ => []
  | .cxlLinkLoss => []
  | .thermalTrip => []
  | .resetRelease _ _ _ => []
  | .firmwareReady => []
  | .facceptWrite _ _ => []
  | .registerWrite _ _ => []
  | .qstart _ => []
  | .qstop _ => []
  | .qevict _ => []
  | .qresume _ => []
  | .qkill _ => []
  | .load _ _ _ _ _ _ => []
  | .ctxcreate _ _ _ => []
  | .ctxroot _ _ _ => []
  | .xinval _ _ _ _ => []
  | .resolve _ _ _ => []
  | .migrate _ _ _ _ => []
  | .fringset _ _ _ => []
  | .trapset _ _ => []
  | .ebset _ _ => []
  | .ctxsave _ _ _ _ => []
  | .ctxrestore _ _ _ => []
  | .ctxdestroy _ => []
  | .reclass _ _ _ => []
  | .lehrset _ _ => []
  | .corrread _ _ => []
  | .assayset _ _ => []
  | .tlogset _ _ _ _ => []
  | .logread _ => []
  | .ilogread _ => []
  | .peerset _ _ => []
  | .attest _ _ _ _ => []
  | .attestCert _ _ => []
  | .pwrcap _ => []
  | .regionRollback _ => []
  | .launchReplay _ => []
  | .scrubPass _ => []
  | .tokenPass _ => []
  | .diverge _ => []
  | .nativeCodeReady _ _ _ => []
  | .softError _ _ => []
  | .registerWriteback _ _ => []
  | .bandReopen _ => []
  | .leaseRecall _ _ => []
  | .arithmeticClockStep _ => []

/-- The registers a source reads. -/
def Operand.codes (o : Operand) : List Nat :=
  match o.kind with
  | .s => sCode o.f
  | .p => pCode o.f
  | .vr => [o.f.toNat]
  | _ => if o.f.toNat ≤ 0xBF then [o.f.toNat] else if o.f.toNat ≤ 0xEF then sCode (o.f - 0xC0) else []

/-! ### Values of vector operands (R115) -/

/-- The form an operand is read in. -/
inductive Form where
  | raw
  | cls (c : ClassRec)
  deriving DecidableEq, Repr

/-- The format of a form; raw is read as if in class 0. -/
def Form.fmt : Form → Fmt
  | .raw => .i32
  | .cls c => c.compute

/-- The kind of a form. -/
def Form.kind (f : Form) : Kind := f.fmt.kind

/-- The form a source kind names in a wave. -/
def Wave.form (w : Wave) : OKind → Form
  | .vX => .cls w.X
  | .vC => .cls w.C
  | _ => .raw

/-- Is an operand constant legal in the form (R115)? -/
def constLegal (f : Byte) (form : Form) : Bool :=
  if f = 0xF2 then form.kind != .index
  else if f = 0xF3 || f = 0xF4 then form.kind == .real
  else true

/-- The bits of ±2^k in a form, for the constants 1, −1, 0.5 and 2. -/
def constBits (fmt : Fmt) (neg : Bool) (k : Int) : Word32 :=
  match fmt.kind with
  | .real => BitVec.ofNat 32 (fmt.convert .rne (.num neg 1 k false)).code
  | _ => BitVec.ofNat 32 (codeOfInt fmt.bits (if neg then -1 else 1))

/-- Src(f, i, form): the operand in lane i (R115, R128). A shadow lane reads a broadcast from the shadow copy (log 16). -/
def Wave.src (w : Wave) (f : Byte) (form : Form) (i : Nat) : Word32 :=
  let n := f.toNat
  if n ≤ 0xBF then w.V_ n i
  else if n ≤ 0xEF then
    let x := if w.isShadow i then w.Sh (n - 0xC0) else w.S (n - 0xC0)
    if form.fmt.bits = 16 then (x.setWidth 16).setWidth 32 else x.setWidth 32
  else if n = 0xF0 then 0
  else if n = 0xF1 then constBits form.fmt false 0
  else if n = 0xF2 then constBits form.fmt true 0
  else if n = 0xF3 then constBits form.fmt false (-1)
  else if n = 0xF4 then constBits form.fmt false 1
  else if n = 0xF5 then (w.lane i).x
  else if n = 0xF6 then (w.lane i).y
  else if n = 0xF7 then (w.lane i).z
  else if n = 0xF8 then (if w.a.fresh.has i then 1 else 0)
  else if n = 0xF9 then BitVec.ofNat 32 (w.visible i)
  else BitVec.ofNat 32 w.V

/-- The value of an operand in lane i, read in a form. -/
def Wave.srcVal (w : Wave) (f : Byte) (form : Form) (i : Nat) : Val :=
  let bits := (w.src f form i).toNat
  form.fmt.valOf (bits % 2 ^ form.fmt.bits)

/-- The shape tag of an operand (R115). -/
def Wave.srcTag (w : Wave) (f : Byte) : Tag :=
  let n := f.toNat
  if n ≤ 0xBF then (w.vreg n).tag
  else if 0xF5 ≤ n ∧ n ≤ 0xF8 then .general
  else if n = 0xF9 then .affine 0 1
  else .uniform

/-! ### The checks at issue (R126) -/

/-- Is a value legal for MR (R116, R118)? The record is that of the wave's kernel, in a handler of another object too (DEDUCED, log 24). -/
def Wave.mrLegal (w : Wave) (x : Word64) : Bool :=
  x.toNat / 2 ^ 24 == 0 && x.toNat % 256 == 0 && mrRound x != 7 && (w.kern.classRec (mrClass x)).isSome

/-- Is a value legal for MX (R117, R118)? -/
def Wave.mxLegal (w : Wave) (x : Word64) : Bool :=
  x.toNat / 2 ^ 24 == 0 && x.toNat % 8 == 0 && (w.kern.classRec (mrClass x)).isSome

/-- Does a tile group lie within the wave's tiles (R215)? -/
def Wave.tilesLegal (w : Wave) (t : Byte) : Bool := decide (1 ≤ w.G ∧ t.toNat + w.G ≤ w.kern.acc)

/-- The keys of `cxget` reads that a split, suspended or not, still waits in. -/
def Wave.awaited (w : Wave) : List Nat :=
  (w.a.splits ++ (w.frame.map TrapFrame.splits).getD []).filterMap fun p =>
    match p.status with | .onCxget k => some k | _ => none

/-- Has a part of a piece been refused, and with which cause? -/
def Op.refusal (o : Op) (x : Piece) : Option Nat :=
  match o.parts[x.part]? with
  | some q => match q.status with | .refused c => some c | _ => none
  | none => none

/-- What a `cxget` gives once its cells have come (R201, R60, R84, R85): the trap it ends in, with its cause, address and lanes; or its values by
lane and its flags. The range test is of the delivered values. -/
def Wave.gets (w : Wave) (o : Op) (job : MatJob) : Except (Nat × Nat × Mask) ((Nat → Word32) × BitVec 7) :=
  let refused := o.pieces.filterMap fun x => (o.refusal x).map fun c => (x.lane, c, x.va)
  match refused with
  | x :: rest =>
    let low := rest.foldl (fun (best : Nat × Nat × Nat) y => if y.1 < best.1 then y else best) x
    .error (low.2.1, low.2.2, Mask.ofLanes (refused.map Prod.fst))
  | [] =>
    let c := w.class_ (mrClass job.mr)
    let lanes := w.list o.mask
    let cell (i : Nat) : CxCell :=
      CxCell.ofNat (((o.pieces.find? fun x => x.lane == i).map fun x => leNat (x.data.map fun b => b.getD 0)).getD 0)
    let outs := lanes.map fun i => (i, (cell i).read c.compute (w.ctlWith job.mr job.mx job.seedlo job.seedhi i))
    let code (i : Nat) : Nat := ((outs.find? fun x => x.1 == i).map fun x => x.2.code).getD 0
    let bad := w.outsideLanes c lanes fun i => c.compute.valOf (code i)
    let inv := outs.filter fun x => x.2.invalid
    if w.kern.traponrng && !bad.isEmpty then .error (trapRANGE, 0, Mask.ofLanes bad)
    else if w.kern.traponinv && !inv.isEmpty then .error (trapNUMERIC, 0, Mask.ofLanes (inv.map Prod.fst))
    else .ok (fun i => BitVec.ofNat 32 (code i), outs.foldl (fun acc x => acc ||| x.2.flags) (flagIf (!bad.isEmpty) nsRange))

/-- The wave without an operation. -/
def Wave.withoutOp (w : Wave) (key : Nat) : Wave := { w with ops := w.ops.filter fun e => e.key != key }

/-- A `cxget` delivers its values: D, the flags, and under SRF c of its lanes (R201). -/
def Wave.gotten (w : Wave) (d : Nat) (o : Op) (job : MatJob) (x : (Nat → Word32) × BitVec 7) : Wave :=
  ((w.flags x.2).writeV d o.mask x.1 .general).bumpIfSRF job.mr o.mask

/-- Registers that the `cxget` words the wave's splits wait in have still to write, against readers and writers alike (R27, R120); one that ends in
a trap writes none. -/
def Wave.getWrites (w : Wave) : List Nat :=
  (w.ops.filter fun o => w.awaited.contains o.key).filterMap fun o =>
    match o.kind, o.mat with
    | .cxget d, some job => match w.gets o job with
        | .ok _ => some (0x400 + d)
        | .error _ => if o.returned then none else some (0x400 + d)
    | _, _ => none

/-- Registers that local loads waiting at the port will write: a vector one that is not marked empty for it (R119, R189), and a scalar one by its
place among the scalars (R130). -/
def Wave.portWrites (w : Wave) : List Nat :=
  w.port.filterMap fun x => match x.job with
    | .vload d _ _ _ _ => if w.isEmpty d then none else some (0x400 + d)
    | .sload d _ _ _ => if d = 0 then none else some (0xC00 + d)
    | _ => none

/-- Every register some issued word of the wave still writes; a load at the local port or a `cxget` holds 0x400 + its code, or 0xC00 + the place of
its scalar, against readers and writers alike (R27, R120, R130, R189), also when the split that issued a load is gone. -/
def Wave.boards (w : Wave) : List Nat := w.onBoards ++ w.portWrites ++ w.getWrites

/-- Does a load at the local port, or a `cxget`, hold a register by its code? -/
def Wave.portHolds (w : Wave) (boards : List Nat) (c : Nat) : Bool :=
  boards.contains (0x400 + c) || (decide (0x100 ≤ c ∧ c < 0x200) && boards.contains (0xC00 + w.sidx (c - 0x100)))

/-- Has every write of scalar n that an issued word of the wave still makes landed (R119, R130)? -/
def Wave.scalarThere (w : Wave) (n : Nat) : Bool :=
  !w.isEmpty (0x100 + n) && !w.boards.contains (0x100 + n) && !w.portHolds w.boards (0x100 + n)

/-- The part of R126, step 2, that depends on the wave: constants in their forms (R115), class kinds (R161, R196), tile groups (R215), ballot words
(R178), MR and MX values (R118; of a `swrite`, once its source stands in the register), special registers that cannot be written (R127), trap codes
in system mode (R258). -/
def Wave.legalHere (w : Wave) (i : Instr) : Bool :=
  (sources i).all (fun o => match o.kind with
    | .vC | .vX | .vRaw => constLegal o.f (w.form o.kind)
    | _ => true) &&
  match i with
  | .vrem _ _ _ | .vmulh _ _ _ => w.C.kind != .real
  | .vsqrt _ _ | .vrsqrt _ _ | .vrcp _ _ | .vexp2 _ _ | .vlog2 _ _ => w.C.kind == .real
  | .vatmin _ _ _ | .vatmax _ _ _ => w.C.kind != .real
  | .vatcas d _ _ => decide (d.toNat + 1 < w.kern.vregs)
  | .vballot _ _ b => b == 0x20 || decide (b.toNat < w.P)
  | .mma d _ _ | .mmaz d _ _ | .mzero d | .mldv d _ => w.tilesLegal d
  | .mdrv _ a | .mdrl a _ | .mdrx a _ => w.tilesLegal a
  | .mode i => w.mrLegal (((i ++ 0#8 : BitVec 24)).setWidth 64)
  | .modx i => w.mxLegal (((i ++ 0#3 : BitVec 24)).setWidth 64)
  | .swrite a b =>
    ((0x0A ≤ a.toNat && a.toNat ≤ 0x12) || (0x14 ≤ a.toNat && a.toNat ≤ 0x17)) &&
      (!w.scalarThere b.toNat || ((a != 0x0A || w.mrLegal (w.S b.toNat)) && (a != 0x0B || w.mxLegal (w.S b.toNat))))
  | .refill _ => w.kern.refill
  | .trap i => !w.system || i == 1 || i == 2
  | _ => true

/-- Does the context of a wave have debug enabled? -/
def State.debugOf (s : State) (w : Wave) : Bool := ((s.context? w.ctx).map Context.debug).getD false

/-- Step 3 of R126: may the wave issue this word in its mode? -/
def State.permitted (s : State) (w : Wave) : Instr → Bool
  | .tret => w.system
  | .inject _ _ _ => w.system && s.debugOf w
  | .swrite a _ => w.system || !(a == 0x0D || (0x14 ≤ a.toNat && a.toNat ≤ 0x17))
  | _ => true

/-- Step 4 of R126: is the word's feature accepted? -/
def State.accepted (s : State) : Instr → Bool
  | .launch _ => (nth s.faccept 0 0).getLsbD 7
  | _ => true

/-- Does MX make an empty source in a position trap (R117, R120)? -/
def Wave.emptyTraps (w : Wave) : Pos → Bool
  | .A => w.a.mx.getLsbD 15
  | .B => w.a.mx.getLsbD 14
  | .D => w.a.mx.getLsbD 13

/-- The sources in the order A, B, D. -/
def orderedSources (i : Instr) : List Operand :=
  let l := sources i
  l.filter (fun o => o.pos == .A) ++ l.filter (fun o => o.pos == .B) ++ l.filter (fun o => o.pos == .D)

/-- The first empty source: its position and register. The positions come in the order A, B, D (DEDUCED, log 24), and in one position the registers in
rising order: v(D) before v(D + 1), and of the 32 of an `mldv` the lowest (DESIGN CHOICE, log 24). -/
def Wave.firstEmpty (w : Wave) (i : Instr) : Option (Pos × Nat) :=
  ((orderedSources i).flatMap fun o => o.codes.map fun c => (o.pos, c)).find? fun x => w.isEmpty x.2

/-- The registers a word writes in a wave: a `scmov` whose condition is zero in both copies writes none (R122, R132). -/
def Wave.writes (w : Wave) (i : Instr) : List Nat :=
  match i with
  | .scmov _ _ b => if w.S b.toNat = 0 ∧ w.Sh b.toNat = 0 then [] else dests i
  | _ => dests i

/-- Does a word issue on port V: is it of class 01 (R308)? -/
def onPortV : Instr → Bool
  | .vadd _ _ _ | .vsub _ _ _ | .vmul _ _ _ | .vfma _ _ _ | .vfms _ _ _ | .vfnma _ _ _ | .vmin _ _ _ | .vmax _ _ _ => true
  | .vabs _ _ | .vneg _ _ | .vdiv _ _ _ | .vrem _ _ _ | .vsqrt _ _ | .vrsqrt _ _ | .vrcp _ _ | .vexp2 _ _ | .vlog2 _ _ => true
  | .vmulh _ _ _ | .vand _ _ _ | .vor _ _ _ | .vxor _ _ _ | .vshl _ _ _ | .vshr _ _ _ | .vsra _ _ _ | .vpopc _ _ => true
  | .vclz _ _ | .vceq _ _ _ | .vcne _ _ _ | .vclt _ _ _ | .vcle _ _ _ | .vcun _ _ _ | .vsel _ _ _ | .vcvt _ _ | .vrnd _ _ => true
  | .vmov _ _ | .vfromp _ _ | .vtop _ _ | .vpand _ _ _ | .vpor _ _ _ | .vpxor _ _ _ | .vpnot _ _ | .vshfl _ _ _ => true
  | .vshup _ _ _ | .vshdn _ _ _ | .vbcast _ _ _ | .vscan _ _ | .vscanmax _ _ | .vscanmin _ _ | .vredsum _ _ | .vredmax _ _ => true
  | .vredmin _ _ | .vballot _ _ _ | .vcount _ _ | .vrank _ _ | .vtag _ _ | .vgen _ => true
  | _ => false

/-- Does a word read MR's guard predicate, for its active lanes or, `vsel`, as its selector (R13)? The others ignore it: scalar words (R130), `vtag` and
`vgen` (R180, R181), copies (R202), `wait` and `fence` (R210, R211), and control and system words but `exit` and `trap` (R142, R240). -/
def readsGuard : Instr → Bool
  | .vtag _ _ | .vgen _ => false
  | .vld _ _ _ | .vst _ _ _ | .vldraw _ _ _ | .vstraw _ _ _ | .vldb _ _ _ | .vstb _ _ _ | .vldh _ _ _ | .vsth _ _ _ | .vlds _ _ | .vsts _ _ => true
  | .vatadd _ _ _ | .vatmin _ _ _ | .vatmax _ _ _ | .vatand _ _ _ | .vator _ _ _ | .vatxchg _ _ _ | .vatcas _ _ _ => true
  | .cxadd _ _ _ | .cxget _ _ _ | .cxclr _ _ => true
  | .mma _ _ _ | .mmaz _ _ _ | .mzero _ | .mdrv _ _ | .mdrl _ _ | .mdrx _ _ | .mldv _ _ => true
  | .exit _ | .trap _ => true
  | i => onPortV i

/-- Must the word wait for older writes of its registers, the guard predicate among them (R27, R120, R130, R158)? -/
def Wave.mustWait (w : Wave) (i : Instr) : Bool :=
  let reads := (sources i).flatMap Operand.codes ++ (if readsGuard i && w.guard != 0 then [0x200 + w.guard] else [])
  let boards := w.boards
  (w.writes i).any (fun c => w.isEmpty c) || reads.any (fun c => boards.contains c || w.portHolds boards c) ||
    (w.writes i).any (w.portHolds boards)

/-- Is the word a matrix instruction (R235)? -/
def isMatrix : Instr → Bool
  | .mma _ _ _ | .mmaz _ _ _ | .mzero _ | .mdrv _ _ | .mdrl _ _ | .mdrx _ _ | .mldv _ _ => true
  | _ => false

/-- The engine counters (R209). -/
def Wave.counter (w : Wave) (k : Nat) : Nat := (w.ops.filter fun o => o.ctr == some k).length

/-- Does `wait k, n` cover an operation (R208): have at least n operations been issued on counter k after it? -/
def Wave.covers (w : Wave) (k n : Nat) (d : Deferred) : Bool :=
  decide (d.ctr = k) && decide (d.rank + 1 + n ≤ nth w.issued k 0)

/-- The wave's live lanes: in system mode the handler's and those of the suspended splits. -/
def Wave.allLive (w : Wave) : Mask := w.a.live ||| ((w.frame.map TrapFrame.live).getD 0)

/-- Would an `exit` of these lanes vacate the wave's last live lane? -/
def Wave.lastExit (w : Wave) (p : Split) : Bool := w.allLive.diff (w.active p) == 0

/-- Is the word a delivery point of a pending engine fault (R208) or matrix failure (R235)? A `wait` delivers once its counter lets it
issue (R277), a `fence` before its waits begin (R211; once they have, in its own meaning when they end: R333), and an `rgn` after its waits (R243), in
its own meaning. -/
def Wave.delivers (w : Wave) (p : Split) (i : Instr) (mat : Bool) (d : Deferred) : Bool :=
  match i with
  | .wait k n => decide (w.counter k.toNat ≤ n.toNat) && w.covers k.toNat n.toNat d
  | .fence _ _ => p.status != .fencing
  | .exit _ => w.lastExit p
  | i => mat && isMatrix i

/-- The pending fault a word delivers, with its kind (true: matrix): of two, the earlier issued (R208, R254). -/
def Wave.due (w : Wave) (ok : Bool → Deferred → Bool) : Option (Bool × Deferred) :=
  let e := w.engineFault.filter (ok false)
  let m := w.matFault.filter (ok true)
  match e, m with
  | some e, some m => if e.seq < m.seq then some (false, e) else some (true, m)
  | some e, none => some (false, e)
  | none, some m => some (true, m)
  | none, none => none

/-- Delivers a pending fault at the word of split `p` (R208, R235). -/
def State.deliver (s : State) (w : Wave) (p : Split) (x : Bool × Deferred) : Result :=
  let w := if x.1 then { w with matFault := none } else { w with engineFault := none }
  s.trapAt w p x.2.cause x.2.addr x.2.mask

/-! ### Consumption of errors in registers (R342, R343, R345) -/

/-- The visible lane whose A a cross-lane word reads in physical lane l, of the active lanes `on` (R175); zero for another word. A `vbcast`
takes for both copies the lowest lane that is active in either, where the guard differs between them (DESIGN CHOICE, log 24). -/
def Wave.crossIndex (w : Wave) (on : Mask) (i : Instr) (l : Nat) : Nat :=
  match i with
  | .vshfl _ _ b => (w.src b .raw l).toNat
  | .vshup _ _ b => (BitVec.ofNat 32 (w.visible l) - w.src b .raw l).toNat
  | .vshdn _ _ b => (BitVec.ofNat 32 (w.visible l) + w.src b .raw l).toNat
  | .vbcast _ _ b => (w.src b .raw (w.sameCopy l (w.visible (on.lowest w.W)))).toNat
  | _ => 0

/-- Does a cross-lane word read A in physical lane l: some active lane's index names it (R30)? -/
def Wave.crossReads (w : Wave) (on : Mask) (i : Instr) (l : Nat) : Bool :=
  w.a.live.has l && (w.list on).any fun k => decide (w.crossIndex on i k < w.V) && w.sameCopy k (w.crossIndex on i k) == l

/-- Does the word read a vector source in physical lane l, and does it consume what it reads (R342, R183)? Of a cross-lane word's A, and for `sgetv`,
the lanes its indices name are read and no others; `vsel` consumes in each lane the source that lane takes, and `brx` reads all the split's lanes;
every other word reads all lanes and consumes the active ones. -/
def Wave.readsIn (w : Wave) (p : Split) (i : Instr) (pos : Pos) (l : Nat) : Option Bool :=
  let on := w.active p
  let named (b : Bool) : Option Bool := if b then some true else none
  match i, pos with
  | .vshfl _ _ _, .A | .vshup _ _ _, .A | .vshdn _ _ _, .A | .vbcast _ _ _, .A => named (w.crossReads on i l)
  | .vbcast _ _ _, .B => named (on != 0 && w.visible l == w.visible (on.lowest w.W))
  | .vsel _ _ _, .A => some (p.lanes.has l && (w.pred w.guard).has l)
  | .vsel _ _ _, .B => some (p.lanes.has l && !(w.pred w.guard).has l)
  | .sgetv _ _ b, _ => named (w.a.live.has l && (if w.isShadow l then w.Sh b.toNat else w.S b.toNat).toNat == w.visible l)
  | .inject _ a _, _ => named ((w.S a.toNat).toNat == l)
  | .vtag _ _, _ => none
  | .brx _ _, _ => some (p.lanes.has l)
  | _, _ => some (on.has l)

/-- Of several reads of one word: consumed if one of them consumes it. -/
def readsJoined (l : List (Option Bool)) : Option Bool :=
  if l.contains (some true) then some true else if l.contains (some false) then some false else none

/-- Does a copy of a scalar source enter anything (R342): the base of lane accesses does where a lane of its copy is active, and the value of a `scmov`
where the copy's condition holds; every other one does. -/
def Wave.scalarUsed (w : Wave) (p : Split) (i : Instr) (pos : Pos) (shadow : Bool) : Bool :=
  match i, pos with
  | .vatadd _ _ _, _ | .vatmin _ _ _, _ | .vatmax _ _ _, _ | .vatand _ _ _, _ | .vator _ _ _, _ | .vatxchg _ _ _, _ | .vatcas _ _ _, _
  | .cxadd _ _ _, _ | .cxget _ _ _, _ | .cxclr _ _, _ => (w.list (w.active p)).any fun l => w.isShadow l == shadow
  | .scmov _ _ b, .A => if shadow then w.Sh b.toNat != 0 else w.S b.toNat != 0
  | _, _ => true

/-- Is an error read by the word, and is it consumed? A scalar source is where its copy enters anything; a broadcast scalar is as the lanes of its copy
read it. Every word reads its wave's split table and pipeline state (R345). -/
def Wave.hits (w : Wave) (p : Split) (i : Instr) (e : SoftErr) : Option Bool :=
  let reading (code : Nat → Bool) : List Operand := (sources i).filter fun o => o.codes.any code
  match e.site with
  | .vreg k r l => if k = w.key then readsJoined ((reading (· == r)).map fun o => w.readsIn p i o.pos l) else none
  | .sreg k r shadow =>
    let lanes := (List.range w.W).filter fun l => w.isShadow l == shadow
    let scalar (c : Nat) : Bool := decide (0x100 ≤ c ∧ c < 0x200) && w.sidx (c - 0x100) == r
    if k = w.key then
      readsJoined ((reading scalar).flatMap fun o => if o.kind == .s then [some (w.scalarUsed p i o.pos shadow)] else lanes.map fun l => w.readsIn p i o.pos l)
    else none
  | .splitTable k | .pipeline k => if k = w.key then some true else none
  | _ => none

/-- The array code of a place (R354). -/
def arrayOf : ErrSite → Nat
  | .vreg _ _ _ => 1
  | .sreg _ _ _ => 2
  | .tile _ _ _ _ => 3
  | .splitTable _ | .pipeline _ | .sideLog _ _ => 0
  | .crewStore _ _ => 4
  | .marver _ _ _ => 5
  | .hbm _ _ => 6
  | .cullet _ => 7

/-- The register code of an error's place (R347); of a tile, which has none, the place of its word (log 43). -/
def errCode : ErrSite → Nat
  | .vreg _ r _ => r
  | .sreg _ r _ => if r < 256 then 0x100 + r else 0x100 + r - 16
  | .tile _ t n _ => 1024 * t + n
  | _ => 0

/-- The lane of an error's place, for the log (R354). -/
def errLane : ErrSite → Nat
  | .vreg _ _ l => l
  | _ => 0xFFFF

/-- Charges a wave's context; at zero or below the wave owes ERRBUDGET, whose trapaddr is EB after the charge (R341, R407). -/
def State.chargeWave (s : State) (k ctx n : Nat) : State :=
  let (s, low) := s.charge ctx n
  if low then
    { s with waves := s.waves.map fun (w : Wave) => if w.key == k then { w with waveTrap := some (s.ebOf ctx).toNat } else w }
      |>.logIntegrity { ((s.wave? k).map s.fieldsOf).getD LogFields.none with event := 0x31, context := ctx }
  else s

/-- Finds the errors in the register words the word reads: none; or the state after correcting, poisoning or demanding a
rollback, and whether the word was stopped (R343, R345). A correction is a step of its own before the word, so that an ERRBUDGET that follows it (R341)
traps at the reading word (DESIGN CHOICE, log 32). -/
def State.readErrors (s : State) (w : Wave) (p : Split) (i : Instr) : Option (State × Bool) :=
  match s.softErrors.find? fun e => (w.hits p i e).isSome && !(e.poison && w.hits p i e == some false) with
  | none => none
  | some e =>
    let rest := { s with softErrors := s.softErrors.erase e }
    if e.bits ≤ 1 then
      some ((rest.onContext w.ctx fun c => { c with corrections := c.corrections + 1 }).chargeWave w.key w.ctx 1, false)
    else if w.hits p i e == some true then
      let mask := match e.site with | .vreg _ _ l => Mask.single l | _ => p.lanes
      some (s.demandRollback w ⟨0x11, trapUE, errCode e.site, mask, errLane e.site, true, none, p.pc, arrayOf e.site, s.clock⟩, true)
    else some ({ rest with softErrors := { e with poison := true } :: rest.softErrors }, false)

/-- The soft errors of a register word that a write of the whole word clears (R343): latent ones enter the integrity log. -/
def State.clearErrors (s : State) (w : Wave) (gone : ErrSite → Bool) : State :=
  let hit := s.softErrors.filter fun e => gone e.site
  let s := { s with softErrors := s.softErrors.filter fun e => !gone e.site }
  (hit.filter SoftErr.poison).foldl
    (fun s e => s.logIntegrity { s.fieldsOf w with addr := errCode e.site, event := 0x02, array := arrayOf e.site, lane := errLane e.site }) s

/-- A write of the whole scalar at an index, both copies, clears the errors there (R343). -/
def State.clearScalar (s : State) (w : Wave) (k : Nat) : State :=
  if k = 0 then s
  else s.clearErrors w fun
    | .sreg x r _ => x == w.key && r == k
    | _ => false

/-- A write of whole words of vD in the lanes of `on` clears the errors there (R343). -/
def State.clearWritten (s : State) (w : Wave) (d : Nat) (on : Mask) : State :=
  s.clearErrors w fun
    | .vreg k r l => k == w.key && r == d && on.has l
    | _ => false

/-! ### Deterministic mode: the token (R365, R366) -/

/-- Is the wave's launch run in deterministic mode (R362)? -/
def State.deterministic (s : State) (w : Wave) : Bool :=
  ((s.launch? w.launch).map fun l => l.desc.deterministic).getD false

/-- The token quantum Q of a launch (R362). -/
def Launch.quantum (l : Launch) : Nat := if l.desc.quantum = 0 then 256 else l.desc.quantum

/-- Has every step of the wave's issued instructions performed (R286)? A `cxget` that has its values waits only for its split. -/
def Wave.drained_ (w : Wave) : Bool :=
  w.port.isEmpty && w.ops.all fun o => match o.kind with | .cxget _ => o.returned | _ => false

/-- The retired value of the instruction whose steps come next (R378). -/
def Wave.stepValue (w : Wave) : Nat := if w.drained_ then w.a.retired else w.a.retired - 1

/-- Is the wave the one the token visits? -/
def State.visited (s : State) (w : Wave) : Bool :=
  match s.launch? w.launch with
  | none => false
  | some l => l.visiting && ((s.crew? w.crew).map fun c => c.ordinal == l.tokenCrew && w.ordinal == l.tokenWave).getD false

/-- May the wave take a step that needs the token: outside deterministic mode always (R286); in it during its visit, for an instruction in
the visit's window (R366)? -/
def State.hasToken (s : State) (w : Wave) : Bool :=
  match s.launch? w.launch with
  | none => true
  | some l => !l.desc.deterministic || (s.visited w && decide (w.stepValue < w.visitEnd + l.quantum))

/-- Does a word need the token to issue in deterministic mode: it performs at the port or in an engine, arrives, ends a visit (R286, R366), or reads
what other waves' deals change (R370)? A `launch` reads its descriptor at the port (R269, R274); `refill` waits for the token later (R153). -/
def needsToken : Instr → Bool
  | .sldl _ _ _ | .sldw _ _ _ | .sstl _ _ _ | .sstw _ _ _ => true
  | .satadd _ _ _ | .satxchg _ _ _ | .satcas _ _ _ | .satmin _ _ _ | .satmax _ _ _ | .satand _ _ _ | .sator _ _ _ | .satxor _ _ _ => true
  | .vld _ _ _ | .vst _ _ _ | .vldraw _ _ _ | .vstraw _ _ _ | .vldb _ _ _ | .vstb _ _ _ | .vldh _ _ _ | .vsth _ _ _ => true
  | .vatadd _ _ _ | .vatmin _ _ _ | .vatmax _ _ _ | .vatand _ _ _ | .vator _ _ _ | .vatxchg _ _ _ | .vatcas _ _ _ => true
  | .cxadd _ _ _ | .cxget _ _ _ | .cxclr _ _ => true
  | .cpin _ | .cpout _ | .cpgat _ | .cpsca _ | .cpfill _ | .cplocal _ => true
  | .mma _ _ _ | .mmaz _ _ _ | .mdrl _ _ | .mdrx _ _ => true
  | .bar _ _ | .yield | .sleep _ | .exit _ | .launch _ => true
  | .sread _ a => a == 0x09
  | _ => false

/-! ### The frame of every instruction word -/

/-- What a word of a wave that owes a rollback may do: of an event found at an issue, only a split inside an interval of R245 goes on (R346); and a
handler goes on until its `tret` (R257). A wave for whose event its launch replays issues nothing (R348). -/
def Wave.mayIssue (w : Wave) (p : Split) : Bool :=
  match w.demand with
  | none => true
  | some d => d.event != 0x20 && ((p.interval != [] && d.atIssue) || w.system)

/-- The split as a word opens an interval of R245 with its issue: the word is the next in the wave's issue order. -/
def Split.opens (p : Split) (w : Wave) : Split := { p with interval := w.seq :: p.interval }

/-- A word that makes no operation takes its place in the issue order. -/
def Wave.counted (w : Wave) : Wave := { w with seq := w.seq + 1 }

/-- The split as its word issues: the slot becomes its last on the word's port (R308); the fence of its last deal is behind it (R301). -/
def Split.stamp (p : Split) (i : Instr) (slot : Nat) : Split :=
  let p := if p.status = .acquiring then { p with status := .ready } else p
  if onPortV i then { p with lastV := slot } else { p with lastX := slot }

/-- Issues a word of the issuing split (R126): steps 1 to 4, the deferred faults (R254), full and empty registers (R120), older
writes, errors in the words read, and then the word's own meaning `body`. A word that waits leaves the state as it is. -/
def issueWord (i : Instr) (s : State) (body : State → Wave → Split → Result) : Result :=
  match s.waves with
  | [] => .fault .noIssuer
  | w :: _ =>
    match w.a.splits with
    | [] => .fault .noIssuer
    | p :: _ =>
      if !(fieldsLegal i && w.legalHere i) then s.trapAt w p trapILLOP 0 (w.active p)
      else if !s.permitted w i then s.trapAt w p trapPRIV 0 (w.active p)
      else if !s.accepted i then s.trapAt w p trapFEATURE 0 (w.active p)
      else match w.due (w.delivers p i) with
      | some x => s.deliver w p x
      | none =>
        match w.firstEmpty i with
        | some (pos, code) => if w.emptyTraps pos then s.trapAt w p trapEMPTY code (w.active p) else .next s
        | none =>
          if w.mustWait i || !w.mayIssue p || (needsToken i && !s.hasToken w) then .next s
          else match s.readErrors w p i with
          | some (s', _) => .next s'
          | none => body s w (p.stamp i s.slots)

end Sys2Proof.Machine
end

