-- ==== Sys2Proof/Machine/Scalar.lean ====
section
/-! DEFINITION. Class 00, scalar: arithmetic, compares, immediates, special registers, reading one lane, the parameter block
(R130-R139). The scalar loads, stores and atomics are in Local.lean and Atomics.lean. -/

namespace Sys2Proof.Machine

/-- Writes sD from both scalar copies (R131) and goes on; the whole words written clear the errors in them (R343). -/
def State.scalarDone (s : State) (w : Wave) (p : Split) (d : Byte) (x xs : Word64) : Result :=
  (s.clearScalar w (w.sidx d.toNat)).done (w.setS d.toNat x xs) (p.busy (sCode d))

/-- A two-source word: D from f of S(A) and S(B) in each copy; `zero` says when it sets divzero (R130, R132). -/
def scalarBinary (i : Instr) (d a b : Byte) (f : Word64 → Word64 → Word64) (divides : Bool) (s : State) : Result :=
  issueWord i s fun s w p =>
    let x := f (w.S a.toNat) (w.S b.toNat)
    let xs := f (w.Sh a.toNat) (w.Sh b.toNat)
    let w := w.flags (flagIf (divides && (w.S b.toNat == 0 || w.Sh b.toNat == 0)) nsDivzero)
    s.scalarDone w p d x xs

/-- A one-source word. -/
def scalarUnary (i : Instr) (d a : Byte) (f : Word64 → Word64) (s : State) : Result :=
  issueWord i s fun s w p => s.scalarDone w p d (f (w.S a.toNat)) (f (w.Sh a.toNat))

/-- An immediate word that reads D (R135). -/
def scalarImm (i : Instr) (d : Byte) (f : Word64 → Word64) (s : State) : Result :=
  issueWord i s fun s w p => s.scalarDone w p d (f (w.S d.toNat)) (f (w.Sh d.toNat))

/-- Every second lane from 0: the primaries (R34). -/
def evenLanes : Mask := BitVec.ofNat 1024 ((4 ^ 512 - 1) / 3)

/-- The lanes that a condition of each scalar copy makes true (R134). -/
def Wave.copyMask (w : Wave) (c cs : Bool) : Mask :=
  if w.paired then (if c then evenLanes else 0) ||| (if cs then evenLanes <<< 1 else 0) else if c then trueMask else 0

/-- A compare: the condition into predicate D in every lane of the split (R134). -/
def scalarCompare (i : Instr) (d a b : Byte) (f : Word64 → Word64 → Bool) (s : State) : Result :=
  issueWord i s fun s w p =>
    let m := w.copyMask (f (w.S a.toNat) (w.S b.toNat)) (f (w.Sh a.toNat) (w.Sh b.toNat))
    s.done (w.setPred d.toNat p.lanes m) (p.busy (pCode d))

/-- smulh: bits 127:64 of the signed product. -/
def mulHigh (a b : Word64) : Word64 := BitVec.ofInt 64 (a.toInt * b.toInt / 2 ^ 64)
/-- smulhu. -/
def mulHighU (a b : Word64) : Word64 := BitVec.ofNat 64 (a.toNat * b.toNat / 2 ^ 64)
/-- sdiv: truncated toward zero; 0 for b = 0. -/
def divSigned (a b : Word64) : Word64 := if b = 0 then 0 else BitVec.ofInt 64 (a.toInt.tdiv b.toInt)
/-- srem: a − b·trunc(a/b); 0 for b = 0. -/
def remSigned (a b : Word64) : Word64 := if b = 0 then 0 else BitVec.ofInt 64 (a.toInt.tmod b.toInt)
/-- sdivu. -/
def divUnsigned (a b : Word64) : Word64 := if b = 0 then 0 else BitVec.ofNat 64 (a.toNat / b.toNat)
/-- sremu. -/
def remUnsigned (a b : Word64) : Word64 := if b = 0 then 0 else BitVec.ofNat 64 (a.toNat % b.toNat)
/-- The number of 1 bits of the low n bits. -/
def popCount (n x : Nat) : Nat := ((List.range n).filter fun k => x.testBit k).length
/-- The number of leading zeros of x in n bits. -/
def leadingZeros (n x : Nat) : Nat := if x = 0 then n else n - 1 - x.log2
/-- The number of trailing zeros of x in n bits. -/
def trailingZeros (n x : Nat) : Nat := ((List.range n).find? fun k => x.testBit k).getD n

/-- sbfx (R133): the field of S(B) extracted from a. -/
def fieldExtract (a b : Word64) : Word64 :=
  let pos := b.toNat % 64
  let len := b.toNat / 256 % 64
  let hi := min (pos + len) 63
  let l := hi - pos + 1
  let f := a.toNat / 2 ^ pos % 2 ^ l
  if b.getLsbD 16 then BitVec.ofInt 64 (intOfCode true l f) else BitVec.ofNat 64 f

/-- sbfi (R133): the low bits of a inserted into x. -/
def fieldInsert (x a b : Word64) : Word64 :=
  let pos := b.toNat % 64
  let len := b.toNat / 256 % 64
  let hi := min (pos + len) 63
  let l := hi - pos + 1
  let mask := BitVec.ofNat 64 ((2 ^ l - 1) * 2 ^ pos)
  (x &&& ~~~mask) ||| ((a <<< pos) &&& mask)

/-- `sadd` (R132). -/
def execSadd (d a b : Byte) (s : State) : Result :=
  scalarBinary (.sadd d a b) d a b (fun a b => a + b) false s

/-- `ssub` (R132). -/
def execSsub (d a b : Byte) (s : State) : Result :=
  scalarBinary (.ssub d a b) d a b (fun a b => a - b) false s

/-- `smul` (R132). -/
def execSmul (d a b : Byte) (s : State) : Result :=
  scalarBinary (.smul d a b) d a b (fun a b => a * b) false s

/-- `smulh` (R132). -/
def execSmulh (d a b : Byte) (s : State) : Result :=
  scalarBinary (.smulh d a b) d a b (fun a b => mulHigh a b) false s

/-- `smulhu` (R132). -/
def execSmulhu (d a b : Byte) (s : State) : Result :=
  scalarBinary (.smulhu d a b) d a b (fun a b => mulHighU a b) false s

/-- `sdiv` (R132). -/
def execSdiv (d a b : Byte) (s : State) : Result :=
  scalarBinary (.sdiv d a b) d a b (fun a b => divSigned a b) true s

/-- `sdivu` (R132). -/
def execSdivu (d a b : Byte) (s : State) : Result :=
  scalarBinary (.sdivu d a b) d a b (fun a b => divUnsigned a b) true s

/-- `srem` (R132). -/
def execSrem (d a b : Byte) (s : State) : Result :=
  scalarBinary (.srem d a b) d a b (fun a b => remSigned a b) true s

/-- `sremu` (R132). -/
def execSremu (d a b : Byte) (s : State) : Result :=
  scalarBinary (.sremu d a b) d a b (fun a b => remUnsigned a b) true s

/-- `sand` (R132). -/
def execSand (d a b : Byte) (s : State) : Result :=
  scalarBinary (.sand d a b) d a b (fun a b => a &&& b) false s

/-- `sor` (R132). -/
def execSor (d a b : Byte) (s : State) : Result :=
  scalarBinary (.sor d a b) d a b (fun a b => a ||| b) false s

/-- `sxor` (R132). -/
def execSxor (d a b : Byte) (s : State) : Result :=
  scalarBinary (.sxor d a b) d a b (fun a b => a ^^^ b) false s

/-- `sshl` (R132). -/
def execSshl (d a b : Byte) (s : State) : Result :=
  scalarBinary (.sshl d a b) d a b (fun a b => a <<< (b.toNat % 64)) false s

/-- `sshr` (R132). -/
def execSshr (d a b : Byte) (s : State) : Result :=
  scalarBinary (.sshr d a b) d a b (fun a b => a >>> (b.toNat % 64)) false s

/-- `ssra` (R132). -/
def execSsra (d a b : Byte) (s : State) : Result :=
  scalarBinary (.ssra d a b) d a b (fun a b => a.sshiftRight (b.toNat % 64)) false s

/-- `smin` (R132). -/
def execSmin (d a b : Byte) (s : State) : Result :=
  scalarBinary (.smin d a b) d a b (fun a b => if b.slt a then b else a) false s

/-- `smax` (R132). -/
def execSmax (d a b : Byte) (s : State) : Result :=
  scalarBinary (.smax d a b) d a b (fun a b => if a.slt b then b else a) false s

/-- `sminu` (R132). -/
def execSminu (d a b : Byte) (s : State) : Result :=
  scalarBinary (.sminu d a b) d a b (fun a b => if b.ult a then b else a) false s

/-- `smaxu` (R132). -/
def execSmaxu (d a b : Byte) (s : State) : Result :=
  scalarBinary (.smaxu d a b) d a b (fun a b => if a.ult b then b else a) false s

/-- `sbfx` (R133). -/
def execSbfx (d a b : Byte) (s : State) : Result :=
  scalarBinary (.sbfx d a b) d a b (fun a b => fieldExtract a b) false s

/-- `spopc` (R132). -/
def execSpopc (d a : Byte) (s : State) : Result :=
  scalarUnary (.spopc d a) d a (fun a => BitVec.ofNat 64 (popCount 64 a.toNat)) s

/-- `sclz` (R132). -/
def execSclz (d a : Byte) (s : State) : Result :=
  scalarUnary (.sclz d a) d a (fun a => BitVec.ofNat 64 (leadingZeros 64 a.toNat)) s

/-- `sctz` (R132). -/
def execSctz (d a : Byte) (s : State) : Result :=
  scalarUnary (.sctz d a) d a (fun a => BitVec.ofNat 64 (trailingZeros 64 a.toNat)) s

/-- `smov` (R132). -/
def execSmov (d a : Byte) (s : State) : Result :=
  scalarUnary (.smov d a) d a (fun a => a) s

/-- `scmov` (R132): D keeps its value in a copy whose S(B) is 0, and is not written at all where both are. -/
def execScmov (d a b : Byte) (s : State) : Result :=
  issueWord (.scmov d a b) s fun s w p =>
    let x := if w.S b.toNat = 0 then w.S d.toNat else w.S a.toNat
    let xs := if w.Sh b.toNat = 0 then w.Sh d.toNat else w.Sh a.toNat
    if w.S b.toNat = 0 ∧ w.Sh b.toNat = 0 then s.done w p else s.scalarDone w p d x xs

/-- `sbfi` (R133). -/
def execSbfi (d a b : Byte) (s : State) : Result :=
  issueWord (.sbfi d a b) s fun s w p =>
    s.scalarDone w p d (fieldInsert (w.S d.toNat) (w.S a.toNat) (w.S b.toNat))
      (fieldInsert (w.Sh d.toNat) (w.Sh a.toNat) (w.Sh b.toNat))

/-- `sceq` (R134). -/
def execSceq (d a b : Byte) (s : State) : Result :=
  scalarCompare (.sceq d a b) d a b (fun a b => a == b) s

/-- `scne` (R134). -/
def execScne (d a b : Byte) (s : State) : Result :=
  scalarCompare (.scne d a b) d a b (fun a b => a != b) s

/-- `sclt` (R134). -/
def execSclt (d a b : Byte) (s : State) : Result :=
  scalarCompare (.sclt d a b) d a b (fun a b => a.slt b) s

/-- `scle` (R134). -/
def execScle (d a b : Byte) (s : State) : Result :=
  scalarCompare (.scle d a b) d a b (fun a b => a.sle b) s

/-- `scltu` (R134). -/
def execScltu (d a b : Byte) (s : State) : Result :=
  scalarCompare (.scltu d a b) d a b (fun a b => a.ult b) s

/-- `scleu` (R134). -/
def execScleu (d a b : Byte) (s : State) : Result :=
  scalarCompare (.scleu d a b) d a b (fun a b => a.ule b) s

/-- `sli` (R135): D ← the sign-extended immediate. -/
def execSli (d : Byte) (i : BitVec 16) (s : State) : Result :=
  issueWord (.sli d i) s fun s w p => s.scalarDone w p d (i.signExtend 64) (i.signExtend 64)

/-- Replaces bits lo + 15 : lo of x. -/
def putField16 (lo : Nat) (x : Word64) (i : BitVec 16) : Word64 :=
  (x &&& ~~~(BitVec.ofNat 64 (0xFFFF * 2 ^ lo))) ||| ((i.setWidth 64) <<< lo)

/-- `slih` (R135). -/
def execSlih (d : Byte) (i : BitVec 16) (s : State) : Result :=
  scalarImm (.slih d i) d (fun x => putField16 16 x i) s

/-- `slix` (R135). -/
def execSlix (d : Byte) (i : BitVec 16) (s : State) : Result :=
  scalarImm (.slix d i) d (fun x => putField16 32 x i) s

/-- `sliy` (R135). -/
def execSliy (d : Byte) (i : BitVec 16) (s : State) : Result :=
  scalarImm (.sliy d i) d (fun x => putField16 48 x i) s

/-- `saddi` (R135). -/
def execSaddi (d : Byte) (i : BitVec 16) (s : State) : Result :=
  scalarImm (.saddi d i) d (fun x => x + i.signExtend 64) s

/-- `sandi` (R135). -/
def execSandi (d : Byte) (i : BitVec 16) (s : State) : Result :=
  scalarImm (.sandi d i) d (fun x => x &&& i.setWidth 64) s

/-- `sori` (R135). -/
def execSori (d : Byte) (i : BitVec 16) (s : State) : Result :=
  scalarImm (.sori d i) d (fun x => x ||| i.setWidth 64) s

/-- `sxori` (R135). -/
def execSxori (d : Byte) (i : BitVec 16) (s : State) : Result :=
  scalarImm (.sxori d i) d (fun x => x ^^^ i.setWidth 64) s

/-- `sshli` (R135). -/
def execSshli (d : Byte) (i : BitVec 6) (s : State) : Result :=
  scalarImm (.sshli d i) d (fun x => x <<< i.toNat) s

/-- `sshri` (R135). -/
def execSshri (d : Byte) (i : BitVec 6) (s : State) : Result :=
  scalarImm (.sshri d i) d (fun x => x >>> i.toNat) s

/-- `ssrai` (R135). -/
def execSsrai (d : Byte) (i : BitVec 6) (s : State) : Result :=
  scalarImm (.ssrai d i) d (fun x => x.sshiftRight i.toNat) s

/-- `smuli` (R135). -/
def execSmuli (d : Byte) (i : BitVec 16) (s : State) : Result :=
  scalarImm (.smuli d i) d (fun x => x * i.signExtend 64) s

/-- `sldp` (R139): the 64-bit value at an offset of the launch's parameter snapshot. An offset beyond the snapshot, which the loader
rejects (R108), reads zero bytes there. -/
def execSldp (d : Byte) (i : BitVec 13) (s : State) : Result :=
  issueWord (.sldp d i) s fun s w p =>
    let x := match s.launch? w.launch with
      | some l => BitVec.ofNat 64 (field l.params (8 * i.toNat) 8)
      | none => 0
    s.scalarDone w p d x x

/-- `sgetv` (R138): lane j of v(A), zero for a vacant or out-of-range j; D is empty until its writeback (R119). -/
def execSgetv (d a b : Byte) (s : State) : Result :=
  issueWord (.sgetv d a b) s fun s w p =>
    let get (j : Word64) (shadow : Bool) : Word64 :=
      if j.toNat ≥ w.V ∨ w.a.live.has (w.primary j.toNat) = false then 0
      else (w.V_ a.toNat (w.primary j.toNat + if shadow && w.paired then 1 else 0)).setWidth 64
    let x := get (w.S b.toNat) false
    let xs := get (w.Sh b.toNat) true
    let w := (w.setS d.toNat x xs).markS (w.sidx d.toNat) true
    (s.clearScalar w (w.sidx d.toNat)).done w (p.busy (if d = 0 then [] else [0x800 + w.sidx d.toNat]))

/-! ### Special registers (R127, R136) -/

/-- Undealt items of a launch (R9). -/
def Launch.total (l : Launch) : Nat := l.desc.ex * l.desc.ey * l.desc.ez

/-- Special register n as `sread` returns it (R127). -/
def State.special (s : State) (w : Wave) (n : Nat) : Word64 :=
  let l := s.launch? w.launch
  match n with
  | 0x00 => BitVec.ofNat 64 (if s.deterministic w then w.a.retired else s.clock - w.created)
  | 0x01 => BitVec.ofNat 64 w.a.retired
  | 0x02 => BitVec.ofNat 64 w.ordinal
  | 0x03 => BitVec.ofNat 64 ((s.crew? w.crew).map Crew.ordinal |>.getD 0)
  | 0x04 => BitVec.ofNat 64 w.core
  | 0x05 => BitVec.ofNat 64 (w.core / 40)
  | 0x06 => BitVec.ofNat 64 (s.launchidOf w)
  | 0x07 => BitVec.ofNat 64 ((l.map Launch.depth).getD 0)
  | 0x08 => BitVec.ofNat 64 w.W
  | 0x09 => BitVec.ofNat 64 ((l.map fun l => l.total - l.dealer).getD 0)
  | 0x0A => w.a.mr
  | 0x0B => w.a.mx
  | 0x0C => w.a.ns.setWidth 64
  | 0x0D => s.ebOf w.ctx
  | 0x0E => w.a.sp.setWidth 64
  | 0x0F => w.a.mxbase.setWidth 64
  | 0x10 => w.a.mxplane.setWidth 64
  | 0x11 => w.a.seedlo
  | 0x12 => w.a.seedhi
  | 0x13 => BitVec.ofNat 64 ((l.map fun l => l.desc.params).getD 0)
  | 0x14 => w.trapcause.setWidth 64
  | 0x15 => w.trappc
  | 0x16 => w.trapaddr
  | 0x17 => w.trapmask
  | 0x18 => BitVec.ofNat 64 (w.counter 0 + 2 ^ 8 * w.counter 1 + 2 ^ 16 * w.counter 2 + 2 ^ 24 * w.counter 3 + 2 ^ 32 * w.counter 4)
  | 0x19 => BitVec.ofNat 64 w.kern.tier
  | 0x1A => (nth s.faccept 0 0).setWidth 64
  | 0x1B => BitVec.ofNat 64 w.kern.temperVa
  | _ => 0

/-- Do loads still at the local port have flags to set? NS is read and written after them (R62). -/
def Wave.flagsPending (w : Wave) : Bool :=
  w.port.any (fun x => match x.job with | .vload _ _ _ _ _ => true | _ => false)

/-- `sread` (R136): D ← special register A; NS after the loads issued before it (R62). -/
def execSread (d a : Byte) (s : State) : Result :=
  issueWord (.sread d a) s fun s w p =>
    if a = 0x0C ∧ w.flagsPending then .next s
    else s.scalarDone w p d (s.special w a.toNat) (s.special w a.toNat)

/-- Special register n ← x (R127, R136): none where the value is refused. -/
def State.setSpecial (s : State) (w : Wave) (n : Nat) (x : Word64) : Option (State × Wave) :=
  match n with
  | 0x0A => if w.mrLegal x then some (s, { w with a := { w.a with mr := x } }) else none
  | 0x0B => if w.mxLegal x then some (s, { w with a := { w.a with mx := x } }) else none
  | 0x0C => some (s, { w with a := { w.a with ns := x.setWidth 7 } })
  | 0x0D => some (s.onContext w.ctx fun c => { c with eb := x }, w)
  | 0x0E => some (s, { w with a := { w.a with sp := x.setWidth 32 } })
  | 0x0F => if x.toNat / 2 ^ 32 = 0 then some (s, { w with a := { w.a with mxbase := x.setWidth 32 } }) else none
  | 0x10 => if x.toNat / 2 ^ 32 = 0 then some (s, { w with a := { w.a with mxplane := x.setWidth 32 } }) else none
  | 0x11 => some (s, { w with a := { w.a with seedlo := x } })
  | 0x12 => some (s, { w with a := { w.a with seedhi := x } })
  | 0x14 => some (s, { w with trapcause := x.setWidth 8 })
  | 0x15 => some (s, { w with trappc := x })
  | 0x16 => some (s, { w with trapaddr := x })
  | 0x17 => some (s, { w with trapmask := x })
  | _ => none

/-- `swrite` (R136, R131): the two copies of the source are compared first; a refused value traps ILLOP and writes nothing. -/
def execSwrite (a b : Byte) (s : State) : Result :=
  issueWord (.swrite a b) s fun s w p =>
    if w.S b.toNat ≠ w.Sh b.toNat then s.mismatch w p 0 true
    else if a = 0x0C ∧ w.flagsPending then .next s
    else match s.setSpecial w a.toNat (w.S b.toNat) with
      | none => s.trapAt w p trapILLOP 0 (w.active p)
      | some (s, w) => s.done w p

end Sys2Proof.Machine
end

