-- ==== Sys2Proof/Machine/Vector.lean ====
section
/-! DEFINITION. Class 01, vector arithmetic and cross-lane instructions (R156-R184). -/

namespace Sys2Proof.Machine

/-! ### Class-C results (R160) -/

/-- What a lane computes: the exact value, with the flags of the operation itself (R40, R164-R166). -/
structure Exact where
  val : Val
  flags : BitVec 7
  deriving DecidableEq, Repr

/-- The word a lane writes, with the flags of its rounding. -/
structure LaneOut where
  bits : Word32
  flags : BitVec 7
  deriving DecidableEq, Repr

/-- Forms a class-C result in lane i (R160, step 3): rounded into a real form, wrapped or saturated into an int or index form. -/
def Wave.formResult (w : Wave) (f : Fmt) (ctl : RoundCtl) (v : Val) : LaneOut :=
  match f.kind with
  | .real =>
    let c := f.convert ctl v
    ⟨BitVec.ofNat 32 c.code, c.flags⟩
  | _ =>
    match v with
    | .num neg m e _ =>
      let r := f.reduce (mrSat w.a.mr) (if neg then -((m <<< e.toNat : Nat) : Int) else ((m <<< e.toNat : Nat) : Int))
      ⟨BitVec.ofNat 32 r.1, flagIf r.2 nsSat⟩
    | _ => ⟨0, 0⟩

/-- What one active lane of a class-C word has computed: the exact value, the word it writes, and every flag it sets. -/
structure LaneRow where
  lane : Nat
  val : Val
  bits : Word32
  flags : BitVec 7
  deriving DecidableEq, Repr

/-- The rows of the lanes of `on`. -/
def Wave.classRows (w : Wave) (on : Mask) (exact : Nat → Exact) (out : Nat → Val → LaneOut) : List LaneRow :=
  (w.list on).map fun i =>
    let x := exact i
    let o := out i x.val
    ⟨i, x.val, o.bits, o.flags ||| x.flags⟩

/-- The row of a lane. -/
def rowOf (rows : List LaneRow) (i : Nat) : LaneRow := (rows.find? fun r => r.lane == i).getD ⟨i, .zero, 0, 0⟩

/-- The lanes whose exact values are out of class C's range (R84, R160). -/
def Wave.classBad (w : Wave) (rows : List LaneRow) : List Nat :=
  w.outsideLanes w.C (rows.map LaneRow.lane) fun i => (rowOf rows i).val

/-- The trap a class-C word takes before any write, with its lanes: the range test before the invalid test (R85, R160, R254). The
`.trapon` bits are those of the wave's kernel, in a handler of another object too (DEDUCED, log 24). -/
def Wave.classTrap (w : Wave) (rows : List LaneRow) : Option (Nat × Mask) :=
  let bad := w.classBad rows
  let inv := rows.filter fun r => hasInvalid r.flags
  if w.kern.traponrng && !bad.isEmpty then some (trapRANGE, Mask.ofLanes bad)
  else if w.kern.traponinv && !inv.isEmpty then some (trapNUMERIC, Mask.ofLanes (inv.map LaneRow.lane))
  else none

/-- The flags a class-C word sets (R160): every lane's, and range for a value out of class range. -/
def Wave.classFlags (w : Wave) (rows : List LaneRow) : BitVec 7 :=
  rows.foldl (fun acc r => acc ||| r.flags) (flagIf (!(w.classBad rows).isEmpty) nsRange)

/-- The state after a class-C word that does not trap (R160): flags, lanes, tag, c. `bump`: the word rounds, so that c advances under
SRF. -/
def State.classNext (s : State) (w : Wave) (p : Split) (d : Nat) (on : Mask) (rows : List LaneRow) (t : Tag) (bump : Bool) : State :=
  let w := w.flags (w.classFlags rows)
  let w := w.writeV d on (fun i => (rowOf rows i).bits) t
  let w := if bump then w.bumpIfSRF w.a.mr on else w
  (s.clearWritten w d on).putWave (w.advance (p.busy [d]))

/-- Ends a class-C word (R160, R85). -/
def State.classC (s : State) (w : Wave) (p : Split) (d : Nat) (on : Mask) (exact : Nat → Exact) (out : Nat → Val → LaneOut)
    (t : Tag) (bump : Bool) : Result :=
  let rows := w.classRows on exact out
  match w.classTrap rows with
  | some (cause, bad) => s.trapAt w p cause 0 bad
  | none => .next (s.classNext w p d on rows t bump)

/-- Does the class-C form of a wave round (R160)? -/
def Wave.rounds (w : Wave) : Bool := w.C.compute.kind == .real

/-- The usual rounding of lane i. -/
def Wave.usual (w : Wave) (i : Nat) (v : Val) : LaneOut := w.formResult w.C.compute (w.ctl i) v

/-- Is MR.round RDN (R51)? -/
def Wave.rdn (w : Wave) : Bool := mrRound w.a.mr == 2

/-! ### Shape tags (R182) -/

/-- Is form C a tag form? -/
def Wave.tagForm (w : Wave) : Bool := (w.C.compute == .i32 || w.C.compute == .n32) && !mrSat w.a.mr

/-- A tag with stride 0 is uniform. -/
def affineTag (base stride : Word32) : Tag := if stride = 0 then .uniform else .affine base stride

/-- A source as base and stride: uniform is its value with stride 0. -/
def Wave.affineOf (w : Wave) (f : Byte) (form : Form) : Option (Word32 × Word32) :=
  match w.srcTag f with
  | .uniform => some (w.src f form (w.a.live.lowest w.W % 1024), 0)
  | .affine b st => some (b, st)
  | .general => none

/-- Row "any elementwise instruction": uniform when no draw is made and every source is uniform, else what `otherwise` says. -/
def Wave.elemTag (w : Wave) (srcs : List Byte) (otherwise : Tag) : Tag :=
  if mrRound w.a.mr ≠ 5 ∧ mrRound w.a.mr ≠ 6 ∧ srcs.all (fun f => w.srcTag f == .uniform) then .uniform else otherwise

/-- Are two sources both uniform? Only the row "any elementwise instruction" speaks of that. -/
def Wave.bothUniform (w : Wave) (a b : Byte) : Bool := w.srcTag a == .uniform && w.srcTag b == .uniform

/-- Rows of `vadd` and `vsub` in a tag form: affine and uniform, or both affine. -/
def Wave.sumTag (w : Wave) (a b : Byte) (sub : Bool) : Tag :=
  if !w.tagForm || w.bothUniform a b then .general
  else match w.affineOf a (.cls w.C), w.affineOf b (.cls w.C) with
    | some x, some y => if sub then affineTag (x.1 - y.1) (x.2 - y.2) else affineTag (x.1 + y.1) (x.2 + y.2)
    | _, _ => .general

/-- Row of `vmul` in a tag form: one affine, one uniform. -/
def Wave.mulTag (w : Wave) (a b : Byte) : Tag :=
  if !w.tagForm || w.bothUniform a b then .general
  else match w.affineOf a (.cls w.C), w.affineOf b (.cls w.C) with
    | some x, some y =>
      if y.2 = 0 then affineTag (x.1 * y.1) (x.2 * y.1) else if x.2 = 0 then affineTag (y.1 * x.1) (y.2 * x.1) else .general
    | _, _ => .general

/-- Row of `vshl`: A affine, B uniform. -/
def Wave.shlTag (w : Wave) (a b : Byte) : Tag :=
  if w.bothUniform a b then .general
  else match w.affineOf a .raw, w.affineOf b .raw with
    | some x, some y => if y.2 = 0 then affineTag (x.1 <<< (y.1.toNat % 32)) (x.2 <<< (y.1.toNat % 32)) else .general
    | _, _ => .general

/-! ### Exact values of the elementwise operations (R163-R167) -/

/-- A signalling NaN operand sets invalid (R40). -/
def nanFlag (vs : List Val) : BitVec 7 := flagIf (vs.any Val.isSignalling) nsInvalid

/-- The lesser (or greater) of two real operands (R165). -/
def extremum (greater : Bool) (a b : Val) : Val :=
  if a.isNan then b else if b.isNan then a
  else match a.cmp b with
    | .lt => if greater then b else a
    | .gt => if greater then a else b
    | .eq => if a.neg == b.neg then a else if a.neg == greater then b else a

/-- a/b in a real form (R166). -/
def divReal (a b : Val) : Exact :=
  match a, b with
  | .nan _, _ => ⟨.nan false, nanFlag [a, b]⟩
  | _, .nan _ => ⟨.nan false, nanFlag [a, b]⟩
  | .inf _, .inf _ => ⟨.nan false, nsInvalid⟩
  | .inf n, .num n' _ _ _ => ⟨.inf (n != n'), 0⟩
  | .num n _ _ _, .inf n' => ⟨.num (n != n') 0 0 false, 0⟩
  | .num na ma ea _, .num nb mb eb _ =>
    if mb = 0 then (if ma = 0 then ⟨.nan false, nsInvalid⟩ else ⟨.inf (na != nb), nsDivzero⟩)
    else if ma = 0 then ⟨.num (na != nb) 0 0 false, 0⟩
    else ⟨quotient na ma ea nb mb eb, 0⟩

/-- √a (R166). -/
def sqrtReal (a : Val) : Exact :=
  match a with
  | .nan sg => ⟨.nan false, flagIf sg nsInvalid⟩
  | .inf false => ⟨.inf false, 0⟩
  | .inf true => ⟨.nan false, nsInvalid⟩
  | .num n m e _ => if m = 0 then ⟨.num n 0 0 false, 0⟩ else if n then ⟨.nan false, nsInvalid⟩ else ⟨rootOf m e, 0⟩

/-- 1/√a (R166). -/
def rsqrtReal (a : Val) : Exact :=
  match a with
  | .nan sg => ⟨.nan false, flagIf sg nsInvalid⟩
  | .inf false => ⟨.zero, 0⟩
  | .inf true => ⟨.nan false, nsInvalid⟩
  | .num n m e _ =>
    if m = 0 then ⟨.inf n, nsDivzero⟩ else if n then ⟨.nan false, nsInvalid⟩ else ⟨rootRecip m e, 0⟩

/-- 2^a (R166). -/
def exp2Real (a : Val) : Exact :=
  match a with
  | .nan sg => ⟨.nan false, flagIf sg nsInvalid⟩
  | .inf n => ⟨if n then .zero else .inf false, 0⟩
  | .num n m e _ => ⟨exp2Of n m e, 0⟩

/-- log2 a (R166). -/
def log2Real (a : Val) : Exact :=
  match a with
  | .nan sg => ⟨.nan false, flagIf sg nsInvalid⟩
  | .inf n => if n then ⟨.nan false, nsInvalid⟩ else ⟨.inf false, 0⟩
  | .num n m e _ =>
    if m = 0 then ⟨.inf true, nsDivzero⟩ else if n then ⟨.nan false, nsInvalid⟩ else ⟨log2Of m e, 0⟩

/-- The integer an exact int or index value stands for. -/
def Val.toInt : Val → Int
  | .num n m e _ => if n then -((m <<< e.toNat : Nat) : Int) else ((m <<< e.toNat : Nat) : Int)
  | _ => 0

/-- a/b in an int or index form: truncated toward zero; 0 and divzero for b = 0. -/
def divInt (a b : Int) : Exact := if b = 0 then ⟨.zero, nsDivzero⟩ else ⟨Val.ofInt (a.tdiv b), 0⟩

/-- a − b·trunc(a/b); 0 and divzero for b = 0. -/
def remInt (a b : Int) : Exact := if b = 0 then ⟨.zero, nsDivzero⟩ else ⟨Val.ofInt (a.tmod b), 0⟩

/-- The sum a·b ± d (R163): `np` negates the product, `nd` negates d. -/
def fusedReal (rdn np nd : Bool) (a b d : Val) : Exact :=
  let d := if nd && !d.isNan then d.negate else d
  let p := a.mul b
  let prod := if np && !p.1.isNan then p.1.negate else p.1
  if p.1.isNan then ⟨.nan false, flagIf (p.2 || d.isSignalling) nsInvalid⟩
  else
    let r := prod.add rdn d
    ⟨r.1, flagIf (p.2 || r.2) nsInvalid⟩

/-! ### Shapes of words -/

/-- A binary class-C word; `bump` as in `classC` for real forms. -/
def vectorBinary (i : Instr) (d a b : Byte) (real : Bool → Val → Val → Exact) (int : Int → Int → Exact)
    (tag : Wave → Tag) (s : State) : Result :=
  issueWord i s fun s w p =>
    let f := Form.cls w.C
    let on := w.active p
    let ex (l : Nat) : Exact :=
      let x := w.srcVal a f l
      let y := w.srcVal b f l
      if w.rounds then real w.rdn x y else int x.toInt y.toInt
    s.classC w p d.toNat on ex w.usual (w.elemTag [a, b] (tag w)) w.rounds

/-- A unary class-C word. -/
def vectorUnary (i : Instr) (d a : Byte) (real : Val → Exact) (int : Int → Exact) (tag : Wave → Tag) (s : State) : Result :=
  issueWord i s fun s w p =>
    let f := Form.cls w.C
    let ex (l : Nat) : Exact :=
      let x := w.srcVal a f l
      if w.rounds then real x else int x.toInt
    s.classC w p d.toNat (w.active p) ex w.usual (w.elemTag [a] (tag w)) w.rounds

/-- A word of the fused family (R163): D is a source in position D. -/
def vectorFused (i : Instr) (d a b : Byte) (np nd : Bool) (s : State) : Result :=
  issueWord i s fun s w p =>
    let f := Form.cls w.C
    let ex (l : Nat) : Exact :=
      let x := w.srcVal a f l
      let y := w.srcVal b f l
      let z := w.srcVal d f l
      if w.rounds then fusedReal w.rdn np nd x y z
      else
        let q := x.toInt * y.toInt
        ⟨Val.ofInt ((if np then -q else q) + (if nd then -z.toInt else z.toInt)), 0⟩
    s.classC w p d.toNat (w.active p) ex w.usual (w.elemTag [a, b, d] .general) w.rounds

/-- Writes raw values into vD in the lanes of `on`. -/
def State.rawDone (s : State) (w : Wave) (p : Split) (d : Nat) (on : Mask) (value : Nat → Word32) (t : Tag) : Result :=
  (s.clearWritten w d on).done (w.writeV d on value t) (p.busy [d])

/-- A bitwise word of two sources, raw (R168). -/
def rawBinary (i : Instr) (d a b : Byte) (f : Word32 → Word32 → Word32) (tag : Wave → Tag) (s : State) : Result :=
  issueWord i s fun s w p =>
    s.rawDone w p d.toNat (w.active p) (fun l => f (w.src a .raw l) (w.src b .raw l)) (w.elemTag [a, b] (tag w))

/-- A bitwise word of one source, raw (R168). -/
def rawUnary (i : Instr) (d a : Byte) (f : Word32 → Word32) (s : State) : Result :=
  issueWord i s fun s w p =>
    s.rawDone w p d.toNat (w.active p) (fun l => f (w.src a .raw l)) (w.elemTag [a] .general)

/-- `vadd` (R163). -/
def execVadd (d a b : Byte) (s : State) : Result :=
  vectorBinary (.vadd d a b) d a b (fun rdn a b => let r := a.add rdn b; ⟨r.1, flagIf r.2 nsInvalid⟩) (fun a b => ⟨Val.ofInt (a + b), 0⟩) (fun w => w.sumTag a b false) s

/-- `vsub` (R163). -/
def execVsub (d a b : Byte) (s : State) : Result :=
  vectorBinary (.vsub d a b) d a b (fun rdn a b => let r := a.add rdn (if b.isNan then b else b.negate); ⟨r.1, flagIf r.2 nsInvalid⟩) (fun a b => ⟨Val.ofInt (a - b), 0⟩) (fun w => w.sumTag a b true) s

/-- `vmul` (R163). -/
def execVmul (d a b : Byte) (s : State) : Result :=
  vectorBinary (.vmul d a b) d a b (fun _ a b => let r := a.mul b; ⟨r.1, flagIf r.2 nsInvalid⟩) (fun a b => ⟨Val.ofInt (a * b), 0⟩) (fun w => w.mulTag a b) s

/-- `vfma` (R163). -/
def execVfma (d a b : Byte) (s : State) : Result := vectorFused (.vfma d a b) d a b false false s

/-- `vfms` (R163). -/
def execVfms (d a b : Byte) (s : State) : Result := vectorFused (.vfms d a b) d a b false true s

/-- `vfnma` (R163). -/
def execVfnma (d a b : Byte) (s : State) : Result := vectorFused (.vfnma d a b) d a b true false s

/-- `vmin` (R163, R165). -/
def execVmin (d a b : Byte) (s : State) : Result :=
  vectorBinary (.vmin d a b) d a b (fun _ a b => ⟨extremum false a b, nanFlag [a, b]⟩) (fun a b => ⟨Val.ofInt (min a b), 0⟩) (fun _ => .general) s

/-- `vmax` (R163, R165). -/
def execVmax (d a b : Byte) (s : State) : Result :=
  vectorBinary (.vmax d a b) d a b (fun _ a b => ⟨extremum true a b, nanFlag [a, b]⟩) (fun a b => ⟨Val.ofInt (max a b), 0⟩) (fun _ => .general) s

/-- Row of `vneg` in a tag form (R182). -/
def Wave.negTag (w : Wave) (a : Byte) : Tag :=
  if !w.tagForm then .general
  else match w.srcTag a with
    | .affine base stride => affineTag (-base) (-stride)
    | _ => .general

/-- `vabs` (R163, R165). -/
def execVabs (d a : Byte) (s : State) : Result :=
  vectorUnary (.vabs d a) d a (fun a => ⟨if a.isNan then .nan false else a.withSign false, nanFlag [a]⟩) (fun a => ⟨Val.ofInt (a.natAbs : Int), 0⟩) (fun _ => .general) s

/-- `vneg` (R163, R165). -/
def execVneg (d a : Byte) (s : State) : Result :=
  vectorUnary (.vneg d a) d a (fun a => ⟨if a.isNan then .nan false else a.negate, nanFlag [a]⟩) (fun a => ⟨Val.ofInt (-a), 0⟩) (fun w => w.negTag a) s

/-- `vdiv` (R166). -/
def execVdiv (d a b : Byte) (s : State) : Result :=
  vectorBinary (.vdiv d a b) d a b (fun _ a b => divReal a b) (fun a b => divInt a b) (fun _ => .general) s

/-- `vrem` (R167). -/
def execVrem (d a b : Byte) (s : State) : Result :=
  vectorBinary (.vrem d a b) d a b (fun _ _ _ => ⟨.zero, 0⟩) (fun a b => remInt a b) (fun _ => .general) s

/-- `vsqrt` (R166). -/
def execVsqrt (d a : Byte) (s : State) : Result :=
  vectorUnary (.vsqrt d a) d a (fun a => sqrtReal a) (fun a => ⟨Val.ofInt a, 0⟩) (fun _ => .general) s

/-- `vrsqrt` (R166). -/
def execVrsqrt (d a : Byte) (s : State) : Result :=
  vectorUnary (.vrsqrt d a) d a (fun a => rsqrtReal a) (fun a => ⟨Val.ofInt a, 0⟩) (fun _ => .general) s

/-- `vrcp` (R166). -/
def execVrcp (d a : Byte) (s : State) : Result :=
  vectorUnary (.vrcp d a) d a (fun a => divReal (.num false 1 0 false) a) (fun a => ⟨Val.ofInt a, 0⟩) (fun _ => .general) s

/-- `vexp2` (R166). -/
def execVexp2 (d a : Byte) (s : State) : Result :=
  vectorUnary (.vexp2 d a) d a (fun a => exp2Real a) (fun a => ⟨Val.ofInt a, 0⟩) (fun _ => .general) s

/-- `vlog2` (R166). -/
def execVlog2 (d a : Byte) (s : State) : Result :=
  vectorUnary (.vlog2 d a) d a (fun a => log2Real a) (fun a => ⟨Val.ofInt a, 0⟩) (fun _ => .general) s

/-- `vmulh` (R167): the upper w bits of the exact product; never out of the form's range. -/
def execVmulh (d a b : Byte) (s : State) : Result :=
  issueWord (.vmulh d a b) s fun s w p =>
    let f := Form.cls w.C
    let ex (l : Nat) : Exact :=
      ⟨Val.ofInt ((w.srcVal a f l).toInt * (w.srcVal b f l).toInt / 2 ^ w.C.compute.bits), 0⟩
    s.classC w p d.toNat (w.active p) ex w.usual (w.elemTag [a, b] .general) false

/-- `vand` (R168). -/
def execVand (d a b : Byte) (s : State) : Result :=
  rawBinary (.vand d a b) d a b (fun a b => a &&& b) (fun _ => .general) s

/-- `vor` (R168). -/
def execVor (d a b : Byte) (s : State) : Result :=
  rawBinary (.vor d a b) d a b (fun a b => a ||| b) (fun _ => .general) s

/-- `vxor` (R168). -/
def execVxor (d a b : Byte) (s : State) : Result :=
  rawBinary (.vxor d a b) d a b (fun a b => a ^^^ b) (fun _ => .general) s

/-- `vshl` (R168). -/
def execVshl (d a b : Byte) (s : State) : Result :=
  rawBinary (.vshl d a b) d a b (fun a b => a <<< (b.toNat % 32)) (fun w => w.shlTag a b) s

/-- `vshr` (R168). -/
def execVshr (d a b : Byte) (s : State) : Result :=
  rawBinary (.vshr d a b) d a b (fun a b => a >>> (b.toNat % 32)) (fun _ => .general) s

/-- `vsra` (R168). -/
def execVsra (d a b : Byte) (s : State) : Result :=
  rawBinary (.vsra d a b) d a b (fun a b => a.sshiftRight (b.toNat % 32)) (fun _ => .general) s

/-- `vpopc` (R168). -/
def execVpopc (d a : Byte) (s : State) : Result :=
  rawUnary (.vpopc d a) d a (fun a => BitVec.ofNat 32 (popCount 32 a.toNat)) s

/-- `vclz` (R168). -/
def execVclz (d a : Byte) (s : State) : Result :=
  rawUnary (.vclz d a) d a (fun a => BitVec.ofNat 32 (leadingZeros 32 a.toNat)) s

/-! ### Compares and predicates (R169, R170) -/

/-- What one active lane of a compare has found (R169): `test` on numeric order, `nan` the condition with a NaN operand, `quiet`: only a
signalling NaN sets invalid. -/
structure CompareRow where
  lane : Nat
  holds : Bool
  invalid : Bool
  deriving DecidableEq, Repr

/-- The rows of a compare of A and B in form C. -/
def Wave.compareRows (w : Wave) (on : Mask) (a b : Byte) (test : Ordering → Bool) (nan quiet : Bool) : List CompareRow :=
  (w.list on).map fun l =>
    let x := w.srcVal a (.cls w.C) l
    let y := w.srcVal b (.cls w.C) l
    let isNan := x.isNan || y.isNan
    ⟨l, if isNan then nan else test (x.cmp y), if quiet then x.isSignalling || y.isSignalling else isNan⟩

/-- A compare in form C. -/
def vectorCompare (i : Instr) (d a b : Byte) (test : Ordering → Bool) (nan quiet : Bool) (s : State) : Result :=
  issueWord i s fun s w p =>
    let on := w.active p
    let rows := w.compareRows on a b test nan quiet
    let bad := (rows.filter CompareRow.invalid).map CompareRow.lane
    if w.kern.traponinv && !bad.isEmpty then s.trapAt w p trapNUMERIC 0 (Mask.ofLanes bad)
    else
      let value := Mask.ofLanes ((rows.filter CompareRow.holds).map CompareRow.lane)
      s.done ((w.flags (flagIf (!bad.isEmpty) nsInvalid)).setPred d.toNat on value) (p.busy (pCode d))

/-- `vceq` (R169). -/
def execVceq (d a b : Byte) (s : State) : Result :=
  vectorCompare (.vceq d a b) d a b (fun o => o == .eq) false true s

/-- `vcne` (R169). -/
def execVcne (d a b : Byte) (s : State) : Result :=
  vectorCompare (.vcne d a b) d a b (fun o => o != .eq) true true s

/-- `vclt` (R169). -/
def execVclt (d a b : Byte) (s : State) : Result :=
  vectorCompare (.vclt d a b) d a b (fun o => o == .lt) false false s

/-- `vcle` (R169). -/
def execVcle (d a b : Byte) (s : State) : Result :=
  vectorCompare (.vcle d a b) d a b (fun o => o != .gt) false false s

/-- `vcun` (R169). -/
def execVcun (d a b : Byte) (s : State) : Result :=
  vectorCompare (.vcun d a b) d a b (fun _ => false) true true s

/-- `vfromp` (R170). -/
def execVfromp (d a : Byte) (s : State) : Result :=
  issueWord (.vfromp d a) s fun s w p =>
    s.rawDone w p d.toNat (w.active p) (fun l => if (w.pred a.toNat).has l then 1 else 0) .general

/-- A word that writes a predicate in the active lanes (R170). -/
def predWord (i : Instr) (d : Byte) (value : Wave → Mask → Mask) (s : State) : Result :=
  issueWord i s fun s w p =>
    let on := w.active p
    s.done (w.setPred d.toNat on (value w on)) (p.busy (pCode d))

/-- `vtop` (R170): tests the raw bits. -/
def execVtop (d a : Byte) (s : State) : Result :=
  predWord (.vtop d a) d (fun w on => Mask.ofLanes ((w.list on).filter fun l => w.src a .raw l != 0)) s

/-- `vpand` (R170). -/
def execVpand (d a b : Byte) (s : State) : Result :=
  predWord (.vpand d a b) d (fun w _ => w.pred a.toNat &&& w.pred b.toNat) s

/-- `vpor` (R170). -/
def execVpor (d a b : Byte) (s : State) : Result :=
  predWord (.vpor d a b) d (fun w _ => w.pred a.toNat ||| w.pred b.toNat) s

/-- `vpxor` (R170). -/
def execVpxor (d a b : Byte) (s : State) : Result :=
  predWord (.vpxor d a b) d (fun w _ => w.pred a.toNat ^^^ w.pred b.toNat) s

/-- `vpnot` (R170). -/
def execVpnot (d a : Byte) (s : State) : Result :=
  predWord (.vpnot d a) d (fun w _ => ~~~(w.pred a.toNat)) s

/-! ### Selection, moves and conversion (R171-R174) -/

/-- `vsel` (R171): in every lane of the split, A where the guard predicate holds and B elsewhere. -/
def execVsel (d a b : Byte) (s : State) : Result :=
  issueWord (.vsel d a b) s fun s w p =>
    let g := w.pred w.guard
    let t := if p.lanes.diff g == 0 then w.srcTag a else if p.lanes &&& g == 0 then w.srcTag b else .general
    s.rawDone w p d.toNat p.lanes (fun l => if g.has l then w.src a .raw l else w.src b .raw l) t

/-- `vcvt` (R173): X's form to C's form. -/
def execVcvt (d a : Byte) (s : State) : Result :=
  issueWord (.vcvt d a) s fun s w p =>
    let f := Form.cls w.X
    let ex (l : Nat) : Exact :=
      let x := w.srcVal a f l
      ⟨x, if w.rounds then nanFlag [x] else 0⟩
    let out (l : Nat) (v : Val) : LaneOut :=
      let c := w.C.compute.convert (w.ctl l) v
      ⟨BitVec.ofNat 32 c.code, c.flags⟩
    s.classC w p d.toNat (w.active p) ex out (w.elemTag [a] .general) (w.rounds || w.X.compute.kind == .real)

/-- A value rounded to an integral value in the same form (R174): keeps infinities, and a zero result keeps the sign. -/
def integral (c : RoundCtl) : Val → Val
  | .num n m e st =>
    let z := roundToInt c n m e st
    .num n z.natAbs 0 false
  | v => v

/-- `vrnd` (R174). -/
def execVrnd (d a : Byte) (s : State) : Result :=
  issueWord (.vrnd d a) s fun s w p =>
    let f := Form.cls w.C
    let ex (l : Nat) : Exact :=
      let x := w.srcVal a f l
      if w.rounds then ⟨integral (w.ctl l) x, nanFlag [x]⟩ else ⟨x, 0⟩
    s.classC w p d.toNat (w.active p) ex w.usual (w.elemTag [a] .general) w.rounds

/-- `vmov` (R172): the bits of A, a broadcast or constant read in the form of class C. -/
def execVmov (d a : Byte) (s : State) : Result :=
  issueWord (.vmov d a) s fun s w p =>
    s.rawDone w p d.toNat (w.active p) (fun l => w.src a (.cls w.C) l) (w.srcTag a)

/-! ### Cross-lane operations (R30, R175) -/

/-- The value of A in visible lane j for a reader in physical lane i (R30, R34): zero for a vacant or out-of-range j. -/
def Wave.crossRead (w : Wave) (a : Byte) (i j : Nat) : Word32 :=
  if j ≥ w.V then 0 else if w.a.live.has (w.primary j) then w.src a .raw (w.sameCopy i j) else 0

/-- A cross-lane word: each active lane receives A of the lane its index names (R175). -/
def crossLane (i : Instr) (d a : Byte) (t : Tag) (s : State) : Result :=
  issueWord i s fun s w p =>
    let on := w.active p
    s.rawDone w p d.toNat on (fun l => w.crossRead a l (w.crossIndex on i l)) t

/-- `vshfl` (R175). -/
def execVshfl (d a b : Byte) (s : State) : Result := crossLane (.vshfl d a b) d a .general s

/-- `vshup` (R175). -/
def execVshup (d a b : Byte) (s : State) : Result := crossLane (.vshup d a b) d a .general s

/-- `vshdn` (R175). -/
def execVshdn (d a b : Byte) (s : State) : Result := crossLane (.vshdn d a b) d a .general s

/-- `vbcast` (R175): the index of the lowest active visible lane, each copy from its own B. -/
def execVbcast (d a b : Byte) (s : State) : Result := crossLane (.vbcast d a b) d a .uniform s

/-! ### Scans and reductions (R176, R177) -/

/-- The exact sum of a list of addends (R176): a NaN addend decides first, then infinities, then the zero signs. -/
def exactSum (rdn : Bool) (vs : List Val) : Exact :=
  if vs.any Val.isNan then ⟨.nan false, nanFlag vs⟩
  else
    let pos := vs.any fun v => v.isInf && !v.neg
    let neg := vs.any fun v => v.isInf && v.neg
    if pos && neg then ⟨.nan false, nsInvalid⟩
    else if pos then ⟨.inf false, 0⟩
    else if neg then ⟨.inf true, 0⟩
    else match vs with
      | [] => ⟨.zero, 0⟩
      | v :: rest => ⟨rest.foldl (fun acc x => (acc.add rdn x).1) v, 0⟩

/-- The greatest or least of a list of operands (R177). -/
def exactExtremum (greater : Bool) (real : Bool) (vs : List Val) : Exact :=
  match vs with
  | [] => ⟨.zero, 0⟩
  | v :: rest =>
    ⟨rest.foldl (fun acc x => if real then extremum greater acc x
      else if greater then Val.ofInt (max acc.toInt x.toInt) else Val.ofInt (min acc.toInt x.toInt)) v,
     if real then nanFlag vs else 0⟩

/-- The operands of a scan or reduction for lane i: the active lanes of the same copy, up to i when `prefix_` (R31, R162). -/
def Wave.scanLanes (w : Wave) (on : Mask) (prefix_ : Bool) (i : Nat) : List Nat :=
  (w.list on).filter fun k => w.isShadow k == w.isShadow i && (!prefix_ || decide (k ≤ i))

/-- A scan or reduction in form C; a sum that is one value for all lanes is rounded once, with the draw of the lowest active lane. -/
def scanWord (i : Instr) (d a : Byte) (prefix_ : Bool) (f : Wave → List Val → Exact) (s : State) : Result :=
  issueWord i s fun s w p =>
    let on := w.active p
    let form := Form.cls w.C
    let ex (l : Nat) : Exact := f w ((w.scanLanes on prefix_ l).map fun k => w.srcVal a form k)
    let drawLane (l : Nat) : Nat := if prefix_ then l else (w.scanLanes on false l).headD l
    let t : Tag := if prefix_ then .general else .uniform
    s.classC w p d.toNat on ex (fun l v => w.formResult w.C.compute (w.ctl (drawLane l)) v) t w.rounds

/-- `vscan` (R176). -/
def execVscan (d a : Byte) (s : State) : Result :=
  scanWord (.vscan d a) d a true (fun w vs => exactSum w.rdn vs) s

/-- `vscanmax` (R177). -/
def execVscanmax (d a : Byte) (s : State) : Result :=
  scanWord (.vscanmax d a) d a true (fun w vs => exactExtremum true w.rounds vs) s

/-- `vscanmin` (R177). -/
def execVscanmin (d a : Byte) (s : State) : Result :=
  scanWord (.vscanmin d a) d a true (fun w vs => exactExtremum false w.rounds vs) s

/-- `vredsum` (R176). -/
def execVredsum (d a : Byte) (s : State) : Result :=
  scanWord (.vredsum d a) d a false (fun w vs => exactSum w.rdn vs) s

/-- `vredmax` (R177). -/
def execVredmax (d a : Byte) (s : State) : Result :=
  scanWord (.vredmax d a) d a false (fun w vs => exactExtremum true w.rounds vs) s

/-- `vredmin` (R177). -/
def execVredmin (d a : Byte) (s : State) : Result :=
  scanWord (.vredmin d a) d a false (fun w vs => exactExtremum false w.rounds vs) s

/-! ### Counts over predicates and shape tags (R178-R181) -/

/-- The active visible lanes in which a predicate holds, from primaries or from shadows (R162, R178). -/
def Wave.ballot (w : Wave) (p : Split) (a : Byte) (shadow : Bool) : List Nat :=
  ((w.list (w.active p &&& w.pred a.toNat)).filter fun i => w.isShadow i == (shadow && w.paired)).map w.visible

/-- One mask word, or the summary word, of a set of visible lanes. -/
def ballotWord (sel : Nat) (m : Mask) : Word64 := if sel = 0x20 then m.summary.setWidth 64 else (m.word sel).setWidth 64

/-- `vballot` (R178). -/
def execVballot (d a b : Byte) (s : State) : Result :=
  issueWord (.vballot d a b) s fun s w p =>
    s.scalarDone w p d (ballotWord b.toNat (Mask.ofLanes (w.ballot p a false))) (ballotWord b.toNat (Mask.ofLanes (w.ballot p a true)))

/-- `vcount` (R179). -/
def execVcount (d a : Byte) (s : State) : Result :=
  issueWord (.vcount d a) s fun s w p =>
    s.scalarDone w p d (BitVec.ofNat 64 (w.ballot p a false).length) (BitVec.ofNat 64 (w.ballot p a true).length)

/-- `vrank` (R179). -/
def execVrank (d a : Byte) (s : State) : Result :=
  issueWord (.vrank d a) s fun s w p =>
    let below (l : Nat) : Nat := ((w.ballot p a (w.isShadow l)).filter fun v => decide (v < w.visible l)).length
    s.rawDone w p d.toNat (w.active p) (fun l => BitVec.ofNat 32 (below l)) .general

/-- `vtag` (R180). -/
def execVtag (d a : Byte) (s : State) : Result :=
  issueWord (.vtag d a) s fun s w p =>
    let x : Word64 := match (w.vreg a.toNat).tag with | .uniform => 0 | .affine _ _ => 1 | .general => 2
    s.scalarDone w p d x x

/-- `vgen` (R181). -/
def execVgen (d : Byte) (s : State) : Result :=
  issueWord (.vgen d) s fun s w p => s.done (w.onV d.toNat fun r => { r with tag := .general }) (p.busy [d.toNat])

end Sys2Proof.Machine
end

