-- ==== Sys2Proof/Machine/Local.lean ====
section
/-! DEFINITION. Local addresses and their checks (R185-R187), loads and stores (R190-R194, R137) and the spill stack (R195). The
accesses perform at the local port (PORT_ACCESS, in Engine.lean). -/

namespace Sys2Proof.Machine

/-! ### The local address space -/

/-- The crew that peer window k of a wave names: of its launch, on core k of its cluster, placed, of the lowest ordinal (R187). -/
def State.windowCrew (s : State) (w : Wave) (k : Nat) : Option Crew :=
  let core := w.core / 8 * 8 + k
  let cs := s.crews.filter fun c => c.launch == w.launch && c.core == core && c.placed
  cs.foldl (fun best c => match best with
    | some b => if c.ordinal < b.ordinal then some c else some b
    | none => some c) none

/-- Resolves an access of `size` bytes at a local address (R185, R187): none where it is out of bounds. -/
def State.resolve (s : State) (w : Wave) (a size : Nat) : Option LocalAt :=
  if a < 0x40000 then (if a + size ≤ w.kern.crewstore then some (.crew w.crew a) else none)
  else if 0x10000000 ≤ a ∧ a < 0x14800000 then
    (if a - 0x10000000 + size ≤ w.kern.marver then some (.marver w.launch (w.core / 40) (a - 0x10000000)) else none)
  else if 0x20000000 ≤ a ∧ a < 0x20200000 then
    let o := a % 2 ^ 18
    match s.windowCrew w ((a - 0x20000000) / 2 ^ 18) with
    | some c => if o + size ≤ w.kern.crewstore then some (.crew c.key o) else none
    | none => none
  else none

/-- One access to check: a lane, its address, size and alignment. -/
structure Access where
  lane : Nat
  addr : Nat
  size : Nat
  align : Nat
  deriving DecidableEq, Repr

/-- A trap a check found. -/
structure Refused where
  cause : Nat
  addr : Nat
  mask : Mask
  deriving DecidableEq, Repr

/-- The failing lanes of one step, with the address of the lowest (R186). -/
def refusedOf (cause : Nat) (bad : List (Nat × Nat)) : Option Refused :=
  match bad with
  | [] => none
  | x :: rest =>
    let low := rest.foldl (fun best y => if y.1 < best.1 then y else best) x
    some ⟨cause, low.2, Mask.ofLanes (bad.map Prod.fst)⟩

/-- Local() over the lanes of an instruction (R186): all bounds first, then all alignments. -/
def State.checkLanes (s : State) (w : Wave) (accs : List Access) : Option Refused :=
  let outside := accs.filter fun x => (s.resolve w x.addr x.size).isNone
  match refusedOf trapLOCALBOUND (outside.map fun x => (x.lane, x.addr)) with
  | some r => some r
  | none => refusedOf trapALIGN ((accs.filter fun x => x.addr % x.align != 0).map fun x => (x.lane, x.addr))

/-- Local() over the elements of an instruction in copy order (R186): the first failing element; the mask is the caller's. -/
def State.checkElems (s : State) (w : Wave) (mask : Mask) (accs : List Access) : Option Refused :=
  match accs.find? fun x => (s.resolve w x.addr x.size).isNone with
  | some x => some ⟨trapLOCALBOUND, x.addr, mask⟩
  | none =>
    match accs.find? fun x => x.addr % x.align != 0 with
    | some x => some ⟨trapALIGN, x.addr, mask⟩
    | none => none

/-- A local address held in a 64-bit scalar (R137): bits 63:32 zero or 0xFF00_0000. -/
def localOf64 (e : Word64) : Option Nat :=
  if e.toNat / 2 ^ 32 = 0 ∨ e.toNat / 2 ^ 32 = 0xFF000000 then some (e.toNat % 2 ^ 32) else none

/-- The place of an access that a check has passed. -/
def State.placeOf (s : State) (w : Wave) (a size : Nat) : LocalAt := (s.resolve w a size).getD (.crew w.crew a)

/-- Appends an access to the wave's local port (R269). -/
def Wave.pushPort (w : Wave) (p : Split) (job : PortJob) : Wave :=
  { w with port := w.port ++ [⟨w.seq, p.lanes.lowest w.W, p.pc, job⟩], seq := w.seq + 1 }

/-! ### Addresses of vector accesses -/

/-- a[i] = (A[i] + B[i]) mod 2^32 (R190). -/
def Wave.vaddr (w : Wave) (a b : Byte) (i : Nat) : Nat := (w.src a .raw i + w.src b .raw i).toNat

/-- The pairs whose primary and shadow differ in a compared value, or of which one alone is among the lanes that act (R34, R347), as primary
lanes; none in an unpaired wave. -/
def Wave.differing (w : Wave) (on : Mask) (f : Nat → Nat) : Mask :=
  if w.paired then
    Mask.ofLanes ((List.range w.V).map (2 * ·) |>.filter fun i => on.has i != on.has (i + 1) || (on.has i && f i != f (i + 1)))
  else 0

/-- The lanes that perform a store, atomic or add: the primaries (R189, R285). -/
def Wave.performers (w : Wave) (on : Mask) : List Nat := (w.list on).filter fun i => !w.isShadow i

/-- The scale address of a block at local address a (R45); none where a − mxbase is no multiple of E. -/
def Wave.scaleAddr (w : Wave) (f : Fmt) (a : Nat) : Option Nat :=
  let off := (BitVec.ofNat 32 a - w.a.mxbase).toNat
  if off % f.blockBytes = 0 then some ((w.a.mxplane + BitVec.ofNat 32 (off / f.blockBytes)).toNat) else none

/-- Bytes of one element of a storage format that is not packed (R190). -/
def Fmt.elemBytes (f : Fmt) : Nat := f.bits / 8

/-- The checks of a class-C access in storage format `f` (R190, R192): element accesses, or block and scale accesses with the
address rules of R192. Of a group whose addresses differ, the lanes that differ from its lowest active one fail (DEDUCED, log 23). -/
def State.checkClass (s : State) (w : Wave) (f : Fmt) (on : Mask) (addr : Nat → Nat) : Option Refused :=
  let lanes := w.list on
  if !f.packed then s.checkLanes w (lanes.map fun i => ⟨i, addr i, f.elemBytes, f.elemBytes⟩)
  else
    let scale (i : Nat) : List Access :=
      if f.isMX then ((w.scaleAddr f (addr i)).map fun x => ⟨i, x, 1, 1⟩).toList else []
    let accs := lanes.flatMap fun i => ⟨i, addr i, f.blockBytes, 8⟩ :: scale i
    let lead (i : Nat) : Nat :=
      ((lanes.filter fun k => w.visible k / 32 == w.visible i / 32 && w.isShadow k == w.isShadow i).headD i)
    let odd := lanes.filter fun i =>
      addr i != addr (lead i) || addr i % 8 != 0 || (f.isMX && (w.scaleAddr f (addr i)).isNone)
    match s.checkLanes w accs with
    | some r => if r.cause = trapLOCALBOUND then some r else refusedOf trapALIGN (odd.map fun i => (i, addr i))
    | none => refusedOf trapALIGN (odd.map fun i => (i, addr i))

/-- Does a local address lie in the marver or a peer window (R119, R191)? -/
def remoteLocal (a : Nat) : Bool := decide (0x40000 ≤ a)

/-- Issues a vector load that has passed its checks: D is marked empty for a remote access, and otherwise held by the port
(R119, R191). -/
def State.loadDone (s : State) (w : Wave) (p : Split) (d : Byte) (on : Mask) (remote : Bool) (job : PortJob) : Result :=
  let w := w.writeV d.toNat 0 (fun _ => 0) .general
  if w.list on = [] then s.done w p
  else
    let w := w.pushPort p job
    if remote then s.done (w.markV d.toNat true) p else s.done w (p.busy [0x400 + d.toNat])

/-- `vld` (R191, R192). Under SRF a BF16 element that an FP16 compute form must round draws with the lane's c, which does not advance: R191 has c advance
for MX formats only, R55 after every rounding (DESIGN CHOICE, log 48). -/
def execVld (d a b : Byte) (s : State) : Result :=
  issueWord (.vld d a b) s fun s w p =>
    let f := w.C.storage
    let on := w.active p
    let addr := w.vaddr a b
    match s.checkClass w f on addr with
    | some r => s.trapAt w p r.cause r.addr r.mask
    | none =>
      let acc (i : Nat) : LaneAcc :=
        let size := if f.packed then f.blockBytes else f.elemBytes
        let sc := if f.isMX then (w.scaleAddr f (addr i)).map fun x => s.placeOf w x 1 else none
        ⟨i, s.placeOf w (addr i) size, sc, w.visible i % 32, w.ctl i⟩
      let job := PortJob.vload d.toNat none f w.C.compute ((w.list on).map acc)
      let w' := if f.isMX then w.bumpIfSRF w.a.mr on else w
      s.loadDone w' p d on ((w.list on).any fun i => remoteLocal (addr i)) job

/-- A raw load of `size` bytes a lane (R194). -/
def rawLoad (i : Instr) (d a b : Byte) (size : Nat) (s : State) : Result :=
  issueWord i s fun s w p =>
    let on := w.active p
    let addr := w.vaddr a b
    match s.checkLanes w ((w.list on).map fun l => ⟨l, addr l, size, size⟩) with
    | some r => s.trapAt w p r.cause r.addr r.mask
    | none =>
      let acc (l : Nat) : LaneAcc := ⟨l, s.placeOf w (addr l) size, none, 0, .rne⟩
      s.loadDone w p d on ((w.list on).any fun l => remoteLocal (addr l))
        (.vload d.toNat (some size) .i32 .i32 ((w.list on).map acc))

/-- `vldraw` (R194). -/
def execVldraw (d a b : Byte) (s : State) : Result := rawLoad (.vldraw d a b) d a b 4 s
/-- `vldb` (R194). -/
def execVldb (d a b : Byte) (s : State) : Result := rawLoad (.vldb d a b) d a b 1 s
/-- `vldh` (R194). -/
def execVldh (d a b : Byte) (s : State) : Result := rawLoad (.vldh d a b) d a b 2 s

/-- Whole bytes written at a place. -/
def wholeBytes (at_ : LocalAt) (bs : List Byte) : List (LocalAt × Byte × Byte) :=
  bs.zipIdx.map fun (b, k) => (at_.plus k, b, 0xFF)

/-- Ends a store: the writes join the port (R269). -/
def State.storeDone (s : State) (w : Wave) (p : Split) (writes : List (LocalAt × Byte × Byte)) : Result :=
  if writes = [] then s.done w p else s.done (w.pushPort p (.store writes)) p

/-- A raw store of `size` bytes a lane (R194); the pair's addresses and data are compared first (R189). -/
def rawStore (i : Instr) (d a b : Byte) (size : Nat) (s : State) : Result :=
  issueWord i s fun s w p =>
    let on := w.active p
    let addr := w.vaddr a b
    let bad := w.differing on fun l => addr l + 2 ^ 32 * (w.src d .raw l).toNat
    if bad ≠ 0 then s.mismatch w p bad false
    else match s.checkLanes w ((w.list on).map fun l => ⟨l, addr l, size, size⟩) with
    | some r => s.trapAt w p r.cause r.addr r.mask
    | none =>
      s.storeDone w p ((w.performers on).flatMap fun l =>
        wholeBytes (s.placeOf w (addr l) size) (leBytes size (w.src d .raw l).toNat))

/-- `vstraw` (R194). -/
def execVstraw (d a b : Byte) (s : State) : Result := rawStore (.vstraw d a b) d a b 4 s
/-- `vstb` (R194). -/
def execVstb (d a b : Byte) (s : State) : Result := rawStore (.vstb d a b) d a b 1 s
/-- `vsth` (R194). -/
def execVsth (d a b : Byte) (s : State) : Result := rawStore (.vsth d a b) d a b 2 s

/-- What a `vst` writes, with its flags, once its addresses have passed: scalar elements, I4 nibbles or whole MX blocks (R193).
Under SRF an element of a block draws with the item index of its lane, as R55 has it for `vst` (DEDUCED, log 48: R47 names the position in the
block). -/
def State.storeBytes (s : State) (w : Wave) (f : Fmt) (on : Mask) (addr : Nat → Nat) (x : Nat → Val) :
    List (LocalAt × Byte × Byte) × List (Nat × BitVec 7) :=
  let lanes := w.performers on
  if f.isMX then
    let groups : List (Nat × Nat) := (List.range w.G).filterMap fun j => (lanes.find? fun i => w.visible i / 32 == j).map fun i => (j, i)
    let blocks : List (Nat × MXBlock) := groups.map fun (j, i) =>
      let pos : List (Nat × Nat) := (List.range 32).map fun k => (32 * j + k, w.primary (32 * j + k))
      let vals := pos.map fun (v, l) => if v < w.V ∧ on.has l then x l else .zero
      let ctls := pos.map fun (_, l) => w.ctl l
      (i, mxConvert f false ctls vals)
    (blocks.flatMap fun (i, blk) =>
      wholeBytes (s.placeOf w (addr i) f.blockBytes) (leBytes f.blockBytes blk.elems) ++
        ((w.scaleAddr f (addr i)).map fun sc => (s.placeOf w sc 1, BitVec.ofNat 8 blk.scale, (0xFF : Byte))).toList,
     blocks.map fun (i, blk) => (i, flagIf blk.ovf nsOverflow ||| flagIf blk.mxclamp nsMxclamp))
  else
    let conv := lanes.map fun i => (i, f.convert (w.ctl i) (x i))
    let bytes (i : Nat) (c : Converted) : List (LocalAt × Byte × Byte) :=
      if f == .i4 then
        let k := w.visible i % 32
        [((s.placeOf w (addr i) 16).plus (k / 2), BitVec.ofNat 8 (c.code * if k % 2 = 1 then 16 else 1),
          if k % 2 = 1 then 0xF0 else 0x0F)]
      else wholeBytes (s.placeOf w (addr i) f.elemBytes) (leBytes f.elemBytes c.code)
    (conv.flatMap fun (i, c) => bytes i c, conv.map fun (i, c) => (i, c.flags))

/-- `vst` (R193): compare of pairs, address checks, range test, conversion, flags. A signalling NaN stored into a real format sets invalid. The compare
looks at all 32 register bits of the data, also those that a 16-bit form or a narrower store leaves out, here and in the other stores and in `cxadd`
(DESIGN CHOICE, log 23). -/
def execVst (d a b : Byte) (s : State) : Result :=
  issueWord (.vst d a b) s fun s w p =>
    let f := w.C.storage
    let on := w.active p
    let addr := w.vaddr a b
    let form := Form.cls w.C
    let bad := w.differing on fun l => addr l + 2 ^ 32 * (w.src d form l).toNat
    if bad ≠ 0 then s.mismatch w p bad false
    else match s.checkClass w f on addr with
    | some r => s.trapAt w p r.cause r.addr r.mask
    | none =>
      let x := w.srcVal d form
      let out := w.outsideLanes w.C (w.list on) x
      if w.kern.traponrng && !out.isEmpty then s.trapAt w p trapRANGE 0 (Mask.ofLanes out)
      else
        let inv := if w.rounds then (w.list on).filter fun i => (x i).isSignalling else []
        if w.kern.traponinv && !inv.isEmpty then s.trapAt w p trapNUMERIC 0 (Mask.ofLanes inv)
        else
          let (writes, fl) := s.storeBytes w f on addr x
          let w' := w.flags (fl.foldl (fun acc y => acc ||| y.2) (flagIf (!out.isEmpty) nsRange ||| flagIf (!inv.isEmpty) nsInvalid))
          let w' := if f.kind == .real then w'.bumpIfSRF w.a.mr on else w'
          s.storeDone w' p writes

/-! ### The spill stack (R195) -/

/-- The checks of a spill access, both bounds and alignment over the active lanes. -/
def Wave.checkSpill (w : Wave) (on : Mask) (off : Nat → Nat) : Option Refused :=
  let lanes := w.list on
  match refusedOf trapLOCALBOUND ((lanes.filter fun i => off i + 4 > w.kern.stack).map fun i => (i, off i)) with
  | some r => some r
  | none => refusedOf trapALIGN ((lanes.filter fun i => off i % 4 != 0).map fun i => (i, off i))

/-- o = (sp + A[i]) mod 2^32. -/
def Wave.spillOff (w : Wave) (a : Byte) (i : Nat) : Nat := (w.a.sp + w.src a .raw i).toNat

/-- `vlds` (R195). -/
def execVlds (d a : Byte) (s : State) : Result :=
  issueWord (.vlds d a) s fun s w p =>
    let on := w.active p
    let off := w.spillOff a
    match w.checkSpill on off with
    | some r => s.trapAt w p r.cause r.addr r.mask
    | none => s.rawDone w p d.toNat on (fun i => BitVec.ofNat 32 (leNat ((nth w.a.spill i []).readBytes (off i) 4))) .general

/-- `vsts` (R195). In paired mode each lane writes its own stack. -/
def execVsts (d a : Byte) (s : State) : Result :=
  issueWord (.vsts d a) s fun s w p =>
    let on := w.active p
    let off := w.spillOff a
    let bad := w.differing on fun l => off l + 2 ^ 32 * (w.src d .raw l).toNat
    if bad ≠ 0 then s.mismatch w p bad false
    else match w.checkSpill on off with
    | some r => s.trapAt w p r.cause r.addr r.mask
    | none =>
      let put (m : Memory) (i : Nat) : Memory := if on.has i then m.writeBytes (off i) (leBytes 4 (w.src d .raw i).toNat) else m
      s.done { w with a := { w.a with spill := w.a.spill.zipIdx.map fun (m, i) => put m i } } p

/-! ### Scalar local loads and stores (R137) -/

/-- E = S(A) + S(B), of the primary or the shadow copy. -/
def Wave.saddr (w : Wave) (a b : Byte) (shadow : Bool) : Word64 :=
  if shadow then w.Sh a.toNat + w.Sh b.toNat else w.S a.toNat + w.S b.toNat

/-- Local(L, size) of a scalar access: the trap, or the local address. -/
def State.checkScalar (s : State) (w : Wave) (p : Split) (e : Word64) (size : Nat) : Except Refused Nat :=
  match localOf64 e with
  | none => .error ⟨trapLOCALBOUND, e.toNat, w.active p⟩
  | some l =>
    match s.resolve w l size with
    | none => .error ⟨trapLOCALBOUND, l, w.active p⟩
    | some _ => if l % size ≠ 0 then .error ⟨trapALIGN, l, w.active p⟩ else .ok l

/-- A scalar load: the split waits until the port has performed it. Each scalar copy loads from its own address; where
only the shadow's fails its checks the word traps with that address, and where both fail with the primary's (DESIGN CHOICE, log 23). -/
def scalarLoad (i : Instr) (d a b : Byte) (size : Nat) (s : State) : Result :=
  issueWord i s fun s w p =>
    match s.checkScalar w p (w.saddr a b false) size, s.checkScalar w p (w.saddr a b true) size with
    | .error r, _ => s.trapAt w p r.cause r.addr r.mask
    | _, .error r => s.trapAt w p r.cause r.addr r.mask
    | .ok l, .ok ls =>
      s.done (w.pushPort p (.sload (w.sidx d.toNat) size (s.placeOf w l size) (s.placeOf w ls size))) { p with status := .onPort }

/-- `sldl` (R137). -/
def execSldl (d a b : Byte) (s : State) : Result := scalarLoad (.sldl d a b) d a b 8 s
/-- `sldw` (R137). -/
def execSldw (d a b : Byte) (s : State) : Result := scalarLoad (.sldw d a b) d a b 4 s

/-- A scalar store: the copies' addresses and data are compared first (R131), all 64 bits of the data, also where `sstw` stores 32 (DESIGN CHOICE, log
23). -/
def scalarStore (i : Instr) (d a b : Byte) (size : Nat) (s : State) : Result :=
  issueWord i s fun s w p =>
    let e := w.saddr a b false
    if e ≠ w.saddr a b true ∨ w.S d.toNat ≠ w.Sh d.toNat then s.mismatch w p 0 true
    else match s.checkScalar w p e size with
    | .error r => s.trapAt w p r.cause r.addr r.mask
    | .ok l => s.storeDone w p (wholeBytes (s.placeOf w l size) (leBytes size (w.S d.toNat).toNat))

/-- `sstl` (R137). -/
def execSstl (d a b : Byte) (s : State) : Result := scalarStore (.sstl d a b) d a b 8 s
/-- `sstw` (R137). -/
def execSstw (d a b : Byte) (s : State) : Result := scalarStore (.sstw d a b) d a b 4 s

end Sys2Proof.Machine
end

