-- ==== Sys2Proof/Machine/Restart.lean ====
section
/-! DEFINITION. Fetching a word, region heads, checkpoints and restarts (R33, R112, R243-R248, R346, R367), and the trap of a wave
(R407). -/

namespace Sys2Proof.Machine

/-- The word a program counter addresses: none outside the code section (R112), nor inside it at an address that is no multiple of 4, where no word
stands; a fetch there traps ILLOP as one outside does (DESIGN CHOICE, log 24). -/
def Wave.fetch (w : Wave) (pc : Nat) : Option Word32 :=
  let o := w.codeObj
  if decide (o.codeVa ≤ pc) && (pc - o.codeVa) % 4 == 0 then o.code[(pc - o.codeVa) / 4]? else none

/-- The instruction at a program counter. -/
def Wave.instrAt (w : Wave) (pc : Nat) : Option Instr := (w.fetch pc).bind decodeWord

/-- Is the word at a program counter an `rgn`? -/
def Wave.atRgn (w : Wave) (pc : Nat) : Bool :=
  match w.instrAt pc with
  | some (.rgn _) => true
  | _ => false

/-! ### The control stack (R143, R147) -/

/-- The key of an entry. -/
def Entry.key : Entry → Nat
  | .region k _ _ _ => k
  | .frame k _ => k

/-- The entry of a key. -/
def Arch.entry? (a : Arch) (k : Nat) : Option Entry := a.entries.find? fun e => e.key == k

/-- Is the entry of a key a frame? -/
def Arch.isFrame (a : Arch) (k : Nat) : Bool := match a.entry? k with | some (.frame _ _) => true | _ => false

/-- The visible regions of a chain, innermost first: the region entries above its innermost frame (R143). -/
def Arch.visibleRegions (a : Arch) (chain : List Nat) : List Nat := chain.takeWhile fun k => !a.isFrame k

/-- Entries of a kind on a chain. -/
def Arch.countFrames (a : Arch) (chain : List Nat) : Nat := (chain.filter a.isFrame).length

/-- Entries no chain holds are freed (R143). -/
def Arch.collect (a : Arch) : Arch :=
  { a with entries := a.entries.filter fun e => a.splits.any fun p => p.chain.contains e.key }

/-- Changes the pending mask of a region. -/
def Entry.unpend (gone : Mask) : Entry → Entry
  | .region k j pend arr => .region k j (pend.diff gone) arr
  | e => e

/-- Does a split wait at a region? -/
def Split.waitsAt (p : Split) (g : Nat) : Bool := p.status == .atJoin g

/-- Close(G) (R147) of a region whose pending mask equals its arrived mask: the waiting splits become one, which continues after the
join point with the chain below G and all their scoreboards and open intervals, as a split that has not issued (DEDUCED, log 20); with an empty
pending mask nothing continues. -/
def Arch.closeOne (a : Arch) : Entry → Arch
  | .region g join pend arr =>
    if pend != arr then a
    else
      let waiting := a.splits.filter fun p => p.waitsAt g
      let others := a.splits.filter fun p => !p.waitsAt g
      let chain := ((waiting.head?.map fun p => p.chain.tail)).getD []
      let merged : Split := ⟨pend, (join + 4) % 2 ^ 64, chain, waiting.flatMap Split.board, .ready, waiting.flatMap Split.interval, 0, 0⟩
      let splits := if pend == 0 || waiting.isEmpty then others else merged :: others
      { a with splits := splits, entries := a.entries.filter fun e => e.key != g }
  | .frame _ _ => a

/-- Closes every complete region, innermost first: entries are listed youngest first. -/
def Arch.closeRegions (a : Arch) : Arch := (a.entries.foldl Arch.closeOne a).collect

/-- Vacates lanes (R19, R152): out of every region, out of their splits and out of the live set; empty splits disappear and regions
close. -/
def Arch.vacate (a : Arch) (gone : Mask) : Arch :=
  let drop : Entry → Entry
    | .region k j pend arr => .region k j (pend.diff gone) (arr.diff gone)
    | e => e
  let splits := (a.splits.map fun (q : Split) => { q with lanes := q.lanes.diff gone }).filter fun q => q.lanes != 0
  Arch.closeRegions { a with live := a.live.diff gone, splits := splits, entries := a.entries.map drop }

/-- Removes exited lanes from the current checkpoint at the moment they vacate (R19). -/
def Wave.forgetLanes (w : Wave) (gone : Mask) : Wave :=
  { w with checkpoint := w.checkpoint.map fun c => { c with arch := c.arch.vacate gone } }

/-! ### Operations -/

/-- Is a piece done: nothing of its destination side is left? -/
def Piece.done (x : Piece) : Bool := x.left.isEmpty

/-- Has a part performed, been logged, or received its error response (R271)? -/
def Part.settled (x : Part) : Bool :=
  match x.status with
  | .performed | .logged | .refused _ => true
  | _ => false

/-- Was the part of a piece refused? -/
def Op.refusedAt (o : Op) (x : Piece) : Bool :=
  match o.parts[x.part]? with
  | some q => match q.status with | .refused _ => true | _ => false
  | none => false

/-- Is the part of a piece in the side log? -/
def Op.loggedAt (o : Op) (x : Piece) : Bool :=
  match o.parts[x.part]? with
  | some q => q.status == .logged
  | none => false

/-- Are all pieces done, logged or refused? -/
def Op.piecesDone (o : Op) : Bool := o.pieces.all fun x => x.done || o.refusedAt x || o.loggedAt x

/-- Does an operation return a value? -/
def OpKind.returns : OpKind → Bool
  | .satomic _ | .vatomic _ | .cxget _ => true
  | _ => false

/-- Is it one of the matrix unit's (R216)? -/
def OpKind.isMatrix : OpKind → Bool
  | .mma _ | .mzero | .mldv | .mdrv _ | .mdrl | .mdrx => true
  | _ => false

/-- Has a matrix operation finished at its turn (R234)? `mdrl` when every byte is written. -/
def Op.finishedAtTurn (o : Op) : Bool :=
  match o.mat with
  | none => true
  | some j => match o.kind with
    | .mdrl => j.done && o.piecesDone
    | _ => j.done

/-- Has an operation completed (R271)? -/
def Op.complete (o : Op) : Bool :=
  o.parts.all Part.settled && o.piecesDone && o.finishedAtTurn && (!o.kind.returns || o.returned)

/-- Is it a copy held at a home, which a stop abandons (R209)? -/
def Op.abandonable (o : Op) : Bool :=
  (o.kind == .cpin || o.kind == .cpgat) && o.parts.any fun q => match q.status with | .held _ => true | _ => false

/-- Is a local access issued before `seq` still at the port (R271, condition 1)? -/
def Wave.portBefore (w : Wave) (seq : Nat) : Bool := w.port.any fun x => decide (x.seq < seq)

/-- Does a port access still write a register? -/
def PortJob.writesRegister : PortJob → Bool
  | .vload _ _ _ _ _ | .sload _ _ _ _ | .atomic _ => true
  | .store _ => false

/-- Does a split wait in a `cxget`? -/
def Split.getting (p : Split) : Bool :=
  match p.status with
  | .onCxget _ => true
  | _ => false

/-- The waits of R243, steps 1 and 2 (R121, R184, R234): every register full, every write landed, a `cxget`'s too, every matrix instruction finished
at its turn. -/
def Wave.settled (w : Wave) : Bool :=
  w.allFull && w.boards.isEmpty && !(w.port.any fun x => x.job.writesRegister) && !(w.a.splits.any Split.getting) &&
    w.ops.all fun o => !o.kind.isMatrix || o.finishedAtTurn

/-- The wait of R243, step 3: no other split stands in an interval of R245, unless it waits at the `rgn` that ends it. -/
def Wave.intervalsClear (w : Wave) (others : List Split) : Bool := others.all fun q => q.interval.isEmpty || w.atRgn q.pc

/-! ### Checkpoints -/

/-- A split as a checkpoint records it: ready at its program counter, or waiting at a join or for the fence of its deal (R301); at a barrier only where
the mode keeps that (R244, R248, R367). A sleep that the mode does not keep ends with the restart (R261): the split is ready after its word, which has retired (R378; DEDUCED, log 29). -/
def Split.recorded (q : Split) (keep : Bool) : Split :=
  let q := { q with board := [], interval := [] }
  match q.status with
  | .atJoin _ => q
  | .atBar _ _ => if keep then q else { q with status := .ready }
  | .asleep _ _ => if keep then q else { q with status := .ready, pc := (q.pc + 4) % 2 ^ 64 }
  | _ => { q with status := q.anew }

/-- A wave's state as a checkpoint records it, registers aside. -/
def Arch.recorded (a : Arch) (keep : Bool) : Arch := { a with splits := a.splits.map (Split.recorded · keep) }

/-- Keeps the live-in registers of a region and zeroes the rest (R93, R244). -/
def Arch.liveIn (a : Arch) (W : Nat) (r : RegionRec) : Arch :=
  let tile (t : Tile × Nat) : Tile := if r.alive.getLsbD t.2 then t.1 else ⟨List.replicate 1024 0, false⟩
  { a with
    vregs := a.vregs.zipIdx.map fun (v, i) => if r.vlive.getLsbD i then v else VReg.zero W
    sregs := a.sregs.zipIdx.map fun (x, i) => if r.slive.getLsbD i then x else 0
    sshadow := a.sshadow.zipIdx.map fun (x, i) => if r.slive.getLsbD i then x else 0
    preds := a.preds.zipIdx.map fun (x, i) => if r.plive.getLsbD i then x else 0
    tiles := a.tiles.zipIdx.map tile
    twins := a.twins.zipIdx.map tile }

/-- The registers the words of a code section name, by code, `mode`'s guard among them (R103). -/
def Object.names (o : Object) : List Nat :=
  (o.code.filterMap decodeWord).flatMap fun i =>
    (sources i).flatMap Operand.codes ++ dests i ++ (match i with | .mode m => [0x200 + m.toNat / 16 % 16] | _ => [])

/-- The bits k below n for which a condition holds. -/
def bitsWhere (n : Nat) (f : Nat → Bool) : BitVec n := (List.range n).foldl (fun m k => if f k then m ||| BitVec.ofNat n (2 ^ k) else m) 0

/-- The default live-in set of R103: the vector registers and tiles declared, and the scalars and predicates the code names. -/
def Object.defaultRegion (o : Object) (number at_ : Nat) : RegionRec :=
  let named := o.names
  ⟨number, at_, bitsWhere 192 fun k => decide (k < o.vregs), bitsWhere 256 fun k => k != 0 && named.contains (0x100 + k),
    bitsWhere 16 fun k => k != 0 && named.contains (0x200 + k), bitsWhere 16 fun k => decide (k < o.acc)⟩

/-- Does a checkpoint record a split at or beyond the `rgn` that ends its interval (R245): the split that executed the head, or one that stands at an
`rgn`? -/
def Wave.recordsPast (w : Wave) (lane : Option Nat) (q : Split) : Bool := (lane.map q.lanes.has).getD false || w.atRgn q.pc

/-- Takes the wave's checkpoint (R243, R244, R248, R367): `headPc` is the head's code address, `lane` a lane of the split that
executed it. It replaces the previous one and clears the failure count (R346). It closes the intervals of R245 of that split and of those it records at
an `rgn`; a split that stands before its `rgn` keeps its own. -/
def Wave.takeCheckpoint (w : Wave) (r : RegionRec) (headPc : Nat) (lane : Option Nat) (keep : Bool) : Wave :=
  { w with
    checkpoint := some ⟨(w.a.liveIn w.W r).recorded keep, headPc, lane, r.number, w.visitEnd, w.visiting, w.engineFault, w.matFault, w.seq, 0, false⟩
    failures := 0
    a := { w.a with splits := w.a.splits.map fun (q : Split) => if w.recordsPast lane q then { q with interval := [] } else q } }

/-- The region-table entry of a head (R93, R243). -/
def Wave.regionAt (w : Wave) (pc : Nat) (number : Nat) : RegionRec :=
  (w.kern.regions.find? fun r => r.at_ + w.kern.codeVa == pc).getD (w.kern.defaultRegion number (pc - w.kern.codeVa))

/-- Does a wave without a lane wait for the deal, or the drain, that R22 gives it? It restarts at a label then, and keeps what its last lane left
(R36). -/
def Wave.betweenDeals (w : Wave) : Bool :=
  w.a.live == 0 && w.frame.isNone && (w.status == .awaitingDeal || w.status == .awaitingDrain)

/-- The engine fault that a restart keeps: the earliest issued of the one pending at the checkpoint, and of one that has come since of an operation
issued before it (R208, R325). -/
def Wave.keptFault (w : Wave) (c : Checkpoint) : Option Deferred :=
  match c.engineFault, w.engineFault.filter fun d => decide (d.seq < c.seq) with
  | some x, some y => if x.seq ≤ y.seq then some x else some y
  | some x, none => some x
  | none, y => y

/-- Restarts a wave from its checkpoint (R244, R346, R309): counters zero, registers full, latch empty, no `preoff` section; the
handler scalars, trap registers and memory stay. A wave between deals keeps its state (R36; DEDUCED, log 27). -/
def Wave.restore (w : Wave) : Wave :=
  match w.checkpoint with
  | none => w
  | some c =>
    { w with
      a := if w.betweenDeals then { w.a with splits := [], entries := [] } else c.arch
      sempty := 0, ops := [], port := [], latch := none, latchS := none, engineFault := w.keptFault c, matFault := c.matFault,
      frame := none, preoff := none, demand := none, visitEnd := c.visitEnd, visiting := c.visiting,
      checkpointDue := false
      lineReads := w.lineReads.filter fun x => decide (x.2 < c.arch.retired) }

/-- Changes every split of a wave, suspended ones too. -/
def Wave.onSplits (w : Wave) (f : Split → Split) : Wave :=
  { w with
    a := { w.a with splits := w.a.splits.map f }
    frame := w.frame.map fun fr => { fr with splits := fr.splits.map f } }

/-- Wakes the splits of a wave that sleep until the token returns (R261). -/
def Wave.wakeToken (w : Wave) : Wave :=
  w.onSplits fun p => match p.status with
    | .asleep _ true => { p with status := .ready, pc := (p.pc + 4) % 2 ^ 64 }
    | _ => p

/-! ### Stopping -/

/-- Have the engine operations and local accesses of a wave completed, but for a held copy that is abandoned (R209)? -/
def Wave.quiet (w : Wave) : Bool := w.port.isEmpty && w.ops.all fun o => o.complete || o.abandonable

/-- Does some split stand in an interval of R245? -/
def Wave.inInterval (w : Wave) : Bool := w.a.splits.any fun p => !p.interval.isEmpty

/-- May the wave be stopped for pre-emption, the assay or a move now (R245, R257, R260, R309), with the checkpoint of its last visit taken (R367)? A
wave without a split stops at once. -/
def Wave.stoppable (w : Wave) : Bool :=
  !w.system && w.preoff.isNone && !w.inInterval && w.quiet && w.checkpoint.isSome && !w.checkpointDue

/-- What the bound of a `preoff` section counts: clocks, or in deterministic mode the wave's retired instructions (R260). -/
def State.sectionCount (s : State) (w : Wave) : Nat := if s.deterministic w then w.a.retired else s.clock

/-- What remains of a section's bound. -/
def State.remaining (s : State) (w : Wave) (x : Preoff) : Nat := x.bound - (s.sectionCount w - x.since)

/-- Has the bound of a wave's `preoff` section run out (R260)? -/
def State.ranOut (s : State) (w : Wave) : Bool :=
  (w.preoff.map fun x => s.remaining w x == 0).getD false

/-- Has the wave an event that its launch replays for: it issues nothing more (R345, R348)? -/
def Wave.lostToReplay (w : Wave) : Bool := (w.demand.map fun d => d.event == 0x20).getD false

/-- May a wave be stopped now: a wave that waits without a lane, or retires, or whose launch replays for its sake, when its operations have completed
(R209, R309)? A `preoff` section holds a wave without a lane until its bound has run out, when there is no split for PRELIMIT to take (R260; DEDUCED,
log 27). -/
def State.mayStop (s : State) (w : Wave) : Bool :=
  w.status == .retired || w.stoppable || (w.lostToReplay && w.quiet) ||
    (w.a.live == 0 && w.status != .running && w.quiet && (w.preoff.isNone || s.ranOut w))

/-! ### Traps of the wave (R407) -/

/-- The split that holds the lowest live lane. -/
def Wave.lowestSplit (w : Wave) : Option Split :=
  w.a.splits.find? fun p => p.lanes.has (w.a.live.lowest w.W)

/-- Withdraws the arrival of a split that waits at a join, or its wait in a `cxget`: the word issues again (R407). -/
def Wave.withdrawWait (w : Wave) (p : Split) : Wave :=
  match p.status with
  | .atJoin g =>
    { w with a := { w.a with entries := w.a.entries.map fun e => match e with
        | .region k j pend arr => if k == g then .region k j pend (arr.diff p.lanes) else e
        | e => e } }
  | .onCxget _ => { w with a := { w.a with splits := w.a.splits.map fun q => if q.lanes == p.lanes then { q with status := .ready } else q } }
  | _ => w

/-- Takes a trap that belongs to the wave: of the split with the lowest live lane, at the word it would issue next; for a split that
waits in a word already issued and passed, at that word. An ERRBUDGET that the wave still owes stays owed. -/
def State.takeWaveTrap (s : State) (w : Wave) (cause addr : Nat) : State :=
  match w.lowestSplit with
  | none => s
  | some p =>
    let w := w.withdrawWait p
    let s := s.onCrew w.crew fun c => match p.status with
      | .atBar _ _ => { c with barriers := c.barriers.map fun l => l.filter (· != w.ordinal) }
      | _ => c
    s.takeTrap w p cause p.pc addr p.lanes

/-- Wakes the split of a wave, or of its suspended control state, that holds a lane. -/
def Wave.wake (w : Wave) (lane : Nat) : Wave :=
  w.onSplits fun p => if p.lanes.has lane && p.status == .onPort then { p with status := .ready } else p

/-- Removes a code from every scoreboard of the wave. -/
def Wave.unboard (w : Wave) (code : Nat) : Wave :=
  w.onSplits fun p => { p with board := p.board.filter (· != code) }

end Sys2Proof.Machine
end

