-- ==== Sys2Proof/Machine/Integrity.lean ====
section
/-! DEFINITION. The containment ladder (R340-R351): corrections, region rollback, escalation, the debug delivery, and the lehr. -/

namespace Sys2Proof.Machine

/-- Counts and charges a correction to a context (R340, R345, rung 1); with a wave, ERRBUDGET belongs to it (R341), and otherwise
to the context. -/
def State.corrected (s : State) (ctx : Nat) (wave : Option Nat) : State :=
  let s := s.onContext ctx fun c => { c with corrections := c.corrections + 1 }
  match wave with
  | some k => s.chargeWave k ctx 1
  | none =>
    let (s, low) := s.charge ctx 1
    if low then (s.logIntegrity { LogFields.none with event := 0x31, context := ctx }).contextFault ctx { LogFields.none with report := .ofCause trapERRBUDGET }
    else s

/-- Are the cullet lines of a checkpoint beyond correction (R337, R343)? -/
def Checkpoint.lost (c : Checkpoint) : Bool := c.poisoned || decide (c.wrong ≥ 2)

/-- The checkpoint with its error corrected. -/
def Checkpoint.corrected (c : Checkpoint) : Checkpoint := { c with wrong := 0, poisoned := false }

/-- Has a wave a checkpoint that can be read back? -/
def Wave.mayRestart (w : Wave) : Bool := (w.checkpoint.map fun c => !c.lost).getD false

/-- Rung 3 (R345): the launch replays if it is replayable, and the affected wave issues nothing more (event 0x20); otherwise the affected wave's
handler receives the event in a debug context (R351), at the rollback step; otherwise the context faults (R350). -/
def State.rung3 (s : State) (lk : Nat) (wave : Option Nat) (d : Demand) : State :=
  match s.launch? lk with
  | none => s
  | some l =>
    if l.killed || l.state == .completed then s
    else if l.replayable then
      let s := { s with agenda := .launchReplay lk :: s.agenda }
      match wave with
      | some k => s.onWave k fun w => { w with demand := some { d with event := 0x20 } }
      | none => s
    else
      let debug := ((s.context? l.ctx).map Context.debug).getD false && (s.handlerObj l.ctx).isSome
      match wave.bind s.wave? with
      | some w =>
        if debug && !w.system && w.mayRestart && w.status != .retired then s.onWave w.key fun w => { w with demand := some { d with event := 0x12 } }
        else s.contextFault l.ctx { s.fieldsOf w with addr := d.addr, array := d.array, lane := d.lane, report := d.record }
      | none => s.contextFault l.ctx { LogFields.none with addr := d.addr, launchid := l.desc.launchid, array := d.array, report := d.record }

/-- Withdraws a wave's arrivals at barriers (R248); in deterministic mode they stay (R369). -/
def State.withdraw (s : State) (w : Wave) : State :=
  if s.deterministic w then s
  else s.onCrew w.crew fun c => { c with barriers := c.barriers.map fun l => l.filter (· != w.ordinal) }

/-- A restart writes a wave's registers, tiles, split table and pipeline state anew: the errors in them are gone (R343). -/
def State.clearWaveErrors (s : State) (w : Wave) : State :=
  s.clearErrors w fun
    | .vreg k _ _ | .sreg k _ _ | .tile k _ _ _ | .splitTable k | .pipeline k => k == w.key
    | _ => false

/-- A wave restarted from its checkpoint (R244). In the visit that the token makes to it now it goes on, awake (R261, R371). -/
def State.restarted (s : State) (w : Wave) : Wave :=
  if s.deterministic w && s.visited w then { w.restore.wakeToken with visiting := true } else w.restore

/-- The rollback itself (R346, R340, R347): the event enters the log with the head returned to, the trap registers hold it, the wave restarts from
its checkpoint with its failure count at 1, and is charged 16; ERRBUDGET falls before its first issue (R341). -/
def State.rollback (s : State) (w : Wave) (d : Demand) : State :=
  let s := s.logDemand w d d.event ((w.checkpoint.map Checkpoint.region).getD 0)
  let s := s.withdraw w
  let s := s.putWave { (s.restarted w).fillDemand d with failures := 1 }
  (s.clearWaveErrors w).chargeWave w.key w.ctx 16

/-- Delivers a context fault's event to the wave's handler with the wave restored to its checkpoint (R351): the split whose lane it names is the one
that holds the lowest lane of trapmask that the checkpoint still has, or else the lowest split. -/
def State.deliverDebug (s : State) (w : Wave) (d : Demand) : State :=
  let s := s.withdraw w
  let w := { s.restarted w with failures := 1 }
  let lane := (d.mask &&& w.a.splits.foldl (fun m p => m ||| p.lanes) 0).lowest w.W
  let p? := (w.a.splits.find? fun p => p.lanes.has lane) <|> w.lowestSplit
  match p?, s.handlerObj w.ctx with
  | some p, some (h, obj) =>
    (s.putWave ((w.fillTrap d.cause p.pc d.addr d.mask).enterHandler p s.clock h obj true)).clearWaveErrors w
  | _, _ => s.contextFault w.ctx { s.fieldsOf w with report := d.record }

/-- Escalation to rung 3, logged (R346): the event that was to be a rollback, and the escalation. -/
def State.escalate (s : State) (w : Wave) (d : Demand) : State :=
  let s := (s.logDemand w d d.event 0).logDemand w { d with time := s.clock } 0x12 0
  let s := s.onWave w.key fun w => { w with demand := none }
  s.rung3 w.launch (some w.key) d

/-- Reading a wave's checkpoint back (R345, R346): a single error is corrected and charged, for the cullet is main memory, to the context (R334, R341);
true where the line is lost, so that the restart fails. -/
def State.readCullet (s : State) (w : Wave) : State × Bool :=
  match w.checkpoint with
  | none => (s, false)
  | some c =>
    if c.wrong = 0 then (s, false)
    else if c.lost then (s, true)
    else ((s.onWave w.key fun w => { w with checkpoint := w.checkpoint.map Checkpoint.corrected }).corrected w.ctx none, false)

/-- Restarts a wave for the event it owes: by a rollback, or by delivery to its handler in a debug context. A checkpoint that cannot be read back
escalates, or leaves a context fault of what was to be delivered (R346, R351). -/
def State.restartFor (s : State) (w : Wave) (d : Demand) : State :=
  match s.readCullet w with
  | (s, true) => if d.event = 0x12 then (s.onWave w.key fun w => { w with demand := none }).rung3 w.launch (some w.key) d else s.escalate w d
  | (s, false) =>
    match s.wave? w.key with
    | some w => if w.demand.isNone then s else if d.event = 0x12 then s.deliverDebug w d else s.rollback w d
    | none => s

/-- Is the interval of one word the only one of R245 that is open? -/
def Wave.onlyOpen (w : Wave) (seq : Nat) : Bool := (w.a.splits.flatMap Split.interval).eraseDups == [seq]

/-- Would a return to a head skip or repeat something (R346, R371): of a drain that failed at its turn, in an interval other than its own, or with the
checkpoint of the last visit still to be taken? -/
def Wave.mustEscalate (w : Wave) (d : Demand) : Bool :=
  !d.atIssue && ((w.inInterval && !((d.op.map w.onlyOpen).getD false)) || w.checkpointDue)

/-- REGION_ROLLBACK (R346): performs the rollback a wave's event demanded, once its engine operations have completed and nothing of R245, R257 and
R367 defers it; a second failure, or one of the restart itself, escalates. Without a demand, or while it is deferred, nothing happens. A delivery to a
debug handler (R351) waits for no interval (DESIGN CHOICE, log 32). -/
def execRegionRollback (wave : Nat) (s : State) : Result :=
  match s.wave? wave with
  | none => .next s
  | some w =>
    match w.demand with
    | none => .next s
    | some d =>
      if !w.quiet || w.system || d.event = 0x20 then .next s
      else if d.event = 0x12 then .next (s.restartFor w d)
      else if w.mustEscalate d then .next (s.escalate w d)
      else if w.inInterval && d.atIssue || w.checkpointDue then .next s
      else if w.failures ≥ 1 ∨ w.checkpoint.isNone then .next (s.escalate w d)
      else .next (s.restartFor w d)

/-! ### Main memory and the errors in its lines (R343-R345) -/

/-- A place in main memory: home unit 0 to 3 a die, 4 host memory, and beyond that peer memory, reached by virtual address. -/
structure MainAt where
  unit : Nat
  pa : Nat
  deriving DecidableEq, Repr

/-- The number that names a byte of main memory, for the record of external inputs (R372). -/
def MainAt.key (m : MainAt) : Nat := m.unit * 2 ^ 64 + m.pa

/-- The place n bytes further on. -/
def MainAt.plus (m : MainAt) (n : Nat) : MainAt := ⟨m.unit, m.pa + n⟩

/-- The error of the line that holds a byte of a home's memory. -/
def State.lineError (s : State) (m : MainAt) : Option SoftErr :=
  s.softErrors.find? fun e => match e.site with
    | .hbm d line => d == m.unit && line == m.pa / 64
    | _ => false

/-- Does an error leave the data of its word or line lost (R343, R344)? -/
def SoftErr.lost (e : SoftErr) : Bool := e.poison || decide (e.bits ≥ 2)

/-- Does the committed line hold data no read may use (R344)? -/
def State.lineBad (s : State) (m : MainAt) : Bool := ((s.lineError m).map SoftErr.lost).getD false

/-- A read of the line corrects a single error and charges its owner; main memory's errors belong to the context (R340, R341). -/
def State.correctLine (s : State) (ctx : Nat) (m : MainAt) : State :=
  match s.lineError m with
  | some e => if e.lost then s else { s with softErrors := s.softErrors.erase e }.corrected ctx none
  | none => s

/-- Removes the error of a line whose check bits are written anew. -/
def State.dropLineError (s : State) (m : MainAt) : State :=
  match s.lineError m with
  | some e => { s with softErrors := s.softErrors.erase e }
  | none => s

/-- A write of the whole line clears its mark (R344): a latent poison cleared, which enters the log with no charge (R340, R354; DEDUCED, log 43). -/
def State.clearLine (s : State) (m : MainAt) : State :=
  let latent := ((s.lineError m).map SoftErr.poison).getD false
  let s := s.dropLineError m
  if latent then s.logIntegrity { LogFields.none with addr := m.pa / 64 * 64, event := 0x02, array := 0x06 } else s

/-- A line found lost is given its mark, except a bare one, which has none to lose (R344). -/
def State.markLine (s : State) (m : MainAt) : State :=
  match s.lineError m with
  | some e => { s with softErrors := s.softErrors.map fun x => if x == e then { x with poison := true } else x }
  | none => s

/-- A read of the line finds what is wrong with it: a lost line is given its mark (R344), a single error is corrected (R340). -/
def State.scanLine (s : State) (ctx : Nat) (m : MainAt) : State := if s.lineBad m then s.markLine m else s.correctLine ctx m

/-- A whole write of a table entry clears its poison (R331). -/
def State.healEntries (s : State) (m : MainAt) (n : Nat) : State :=
  let whole (pa : Nat) : Bool := decide (m.pa ≤ pa ∧ pa + 8 ≤ m.pa + n)
  if m.unit < s.homes.length then
    s.onHome m.unit fun h => { h with poisoned := h.poisoned.filter fun x => !whole x, reported := h.reported.filter fun x => !whole x }
  else s

/-- A table entry is written whole, which clears its poison (R331). -/
def State.writeEntry (s : State) (unit pa e : Nat) : State := (s.writePhysBytes unit pa (leBytes 8 e)).healEntries ⟨unit, pa⟩ 8

/-- Writes a byte of committed main memory. -/
def State.writeCommitted (s : State) (m : MainAt) (b : Byte) : State :=
  if m.unit ≤ 4 then s.writePhys m.unit m.pa b else { s with peerMem := s.peerMem.write m.pa b }

/-- A byte that launch `l` writes itself in committed memory is no external input of its own from then on (R372). -/
def State.noteOwn (s : State) (l : Option Nat) (m : MainAt) : State :=
  { s with launches := s.launches.map fun (x : Launch) =>
      if l == some x.key && x.log.isSome then { x with external := x.external.filter (· != m.key) } else x }

/-- A byte of committed memory that a party other than launch `l` writes is an external input of every other deterministic launch that runs
(R372). -/
def State.noteOthers (s : State) (l : Option Nat) (m : MainAt) : State :=
  { s with launches := s.launches.map fun (x : Launch) =>
      if l != some x.key && x.log.isSome && x.state == .started && !x.external.contains m.key then { x with external := m.key :: x.external }
      else x }

/-- Where migrations at a home unit have copied the line of a place to (R329). -/
def State.copiesOf (s : State) (m : MainAt) : List MainAt :=
  ((s.home m.unit).migrations.filter fun g => decide (g.old ≤ m.pa ∧ m.pa < g.old + g.size ∧ (m.pa - g.old) / 64 < g.copied)).map
    fun g => ⟨m.unit, g.new + (m.pa - g.old)⟩

/-- Has a migration copied the line of a place? -/
def State.lineCopied (s : State) (m : MainAt) : Bool := !(s.copiesOf m).isEmpty

/-! ### The lehr (R348, R349) -/

/-- Free granules of the lehr at a home: its bands hold 512 MiB of 4 KiB granules each. -/
def State.lehrFree (s : State) (die : Nat) : Nat :=
  (s.home die).lehr.length * 131072 - (s.shadows.filter fun x => x.die == die).length

/-- Is a line of a shadow one that the launch has not made whole since it was lost? -/
def Shadow.holds (x : Shadow) (line : Nat) : Bool := !x.bad.contains line

/-- Commits one line of a shadow (R348): a lost line stays as it was; any other is written whole, which clears a mark there (R344), and with it what a
migration has copied of it, so that no write is lost (R329). -/
def State.commitShadowLine (s : State) (x : Shadow) (line : Nat) : State :=
  let m : MainAt := ⟨x.die, x.granule * 4096 + 64 * line⟩
  if !x.holds line then s
  else
    let bs := (x.bytes.drop (64 * line)).take 64
    let s := bs.zipIdx.foldl (fun s (b, k) =>
      let s := if x.written.contains (64 * line + k) then s.noteOwn (some x.launch) (m.plus k) else s
      if x.written.contains (64 * line + k) || s.readPhys x.die (m.pa + k) != b then
        (m :: s.copiesOf m).foldl (fun s m => s.noteOthers (some x.launch) (m.plus k)) s
      else s) s
    (m :: s.copiesOf m).foldl (fun s m => ((s.clearLine m).writePhysBytes m.unit m.pa bs).healEntries m 64) s

/-- Commits every shadow of a launch to its page. -/
def State.commitShadows (s : State) (lk : Nat) : State :=
  let mine := s.shadows.filter fun x => x.launch == lk
  let s := mine.foldl (fun s x => (List.range 64).foldl (fun s k => s.commitShadowLine x k) s) s
  { s with shadows := s.shadows.filter fun x => x.launch != lk }

/-- Demotes a launch (R349): its shadows are committed, and it is no longer replayable; logged as event 0x21. -/
def State.demote (s : State) (lk : Nat) : State :=
  match s.launch? lk with
  | none => s
  | some l =>
    if !l.replayable then s
    else
      let s := (s.commitShadows lk).onLaunch lk fun l => { l with replayable := false }
      s.logIntegrity { LogFields.none with event := 0x21, launchid := l.desc.launchid, context := l.ctx, array := 0x06 }

/-! ### Main memory as a launch sees it (R348) -/

/-- The shadow granule that a launch, if one is meant, sees in place of a byte. -/
def State.shadowOf (s : State) (l : Option Nat) (m : MainAt) : Option Shadow :=
  s.shadows.find? fun x => l == some x.launch && x.die == m.unit && x.granule == m.pa / 4096

/-- Does launch `l` read a byte that it has itself written in its shadow, which a replay takes back (R348, R372)? -/
def State.ownByte (s : State) (l : Nat) (m : MainAt) : Bool :=
  ((s.shadowOf (some l) m).map fun x => x.written.contains (m.pa % 4096)).getD false

/-- Reads a byte of main memory, as launch `l` sees it or as everyone else does. -/
def State.readMain (s : State) (l : Option Nat) (m : MainAt) : Byte :=
  match s.shadowOf l m with
  | some x => nth x.bytes (m.pa % 4096) 0
  | none => if m.unit ≤ 4 then s.readPhys m.unit m.pa else s.peerMem.read m.pa

/-- Does the line, as launch `l` or everyone else sees it, hold data no read may use (R344)? -/
def State.lost (s : State) (l : Option Nat) (m : MainAt) : Bool :=
  match s.shadowOf l m with
  | some x => !x.holds (m.pa % 4096 / 64)
  | none => s.lineBad m

/-- A read of the line by launch `l` corrects a single error in it. -/
def State.readLine (s : State) (l : Option Nat) (ctx : Nat) (m : MainAt) : State :=
  match s.shadowOf l m with
  | some _ => s
  | none => s.correctLine ctx m

/-- A line that a read by launch `l` found lost is marked. -/
def State.markLost (s : State) (l : Option Nat) (m : MainAt) : State :=
  match s.shadowOf l m with
  | some _ => s
  | none => s.markLine m

/-- Changes a shadow. -/
def State.onShadow (s : State) (x : Shadow) (f : Shadow → Shadow) : State :=
  { s with shadows := s.shadows.map fun y => if y == x then f y else y }

/-- Gives a replayable launch a shadow of the granule it is about to write, while the lehr has room (R348); without, it is demoted (R349): a home
for which no lehr is named, and a peer's, have no granule. -/
def State.shadowed (s : State) (l : Option Nat) (m : MainAt) : State :=
  match l.bind s.launch? with
  | none => s
  | some x =>
    if !x.replayable || (s.shadowOf l m).isSome then s
    else if m.unit > 4 || s.lehrFree m.unit = 0 then s.demote x.key
    else
      let base := m.pa / 4096 * 4096
      let bad := (List.range 64).filter fun k => s.lineBad ⟨m.unit, base + 64 * k⟩
      { s with shadows := ⟨x.key, m.unit, m.pa / 4096, s.readPhysBytes m.unit base 4096, [], bad⟩ :: s.shadows }

/-- Writes a byte of main memory for launch `l`: to its shadow while it is replayable, and otherwise to committed memory. -/
def State.writeMain (s : State) (l : Option Nat) (m : MainAt) (b : Byte) : State :=
  let s := s.shadowed l m
  let k := m.pa % 4096
  match s.shadowOf l m with
  | some x => s.onShadow x fun y => { y with bytes := setAt y.bytes k b, written := if y.written.contains k then y.written else k :: y.written }
  | none => ((s.noteOwn l m).noteOthers l m).writeCommitted m b

/-- Writes bytes from a place up. -/
def State.writeMainBytes (s : State) (l : Option Nat) (m : MainAt) : List Byte → State
  | [] => s
  | b :: bs => State.writeMainBytes (s.writeMain l m b) l (m.plus 1) bs

/-- Reads n bytes from a place up. -/
def State.readMainBytes (s : State) (l : Option Nat) (m : MainAt) (n : Nat) : List Byte :=
  (List.range n).map fun k => s.readMain l (m.plus k)

/-- The line of a launch's write becomes whole: its mark is cleared (R344). -/
def State.makeWhole (s : State) (l : Option Nat) (m : MainAt) : State :=
  let s := s.shadowed l m
  match s.shadowOf l m with
  | some x => s.onShadow x fun y => { y with bad := y.bad.filter (· != m.pa % 4096 / 64) }
  | none => s.clearLine m

/-- Writes bytes of one line for launch `l`; `whole`: the writer writes all 64 (R344). A whole write clears a mark; a partial one of a lost line
writes nothing and leaves it its mark; another corrects a single error first. -/
def State.storeIn (s : State) (l : Option Nat) (ctx : Nat) (m : MainAt) (bs : List Byte) (whole : Bool) : State :=
  if !whole && s.lost l m then s.markLost l m
  else
    let s := if whole then s.makeWhole l m else s.readLine l ctx m
    let s := s.writeMainBytes l m bs
    if (s.shadowOf l m).isNone then s.healEntries m bs.length else s

/-- The pieces of the bytes `a` to `a + n - 1` in aligned granules of `g` bytes: start and length. -/
def granules (g a n : Nat) : List (Nat × Nat) :=
  (List.range ((a % g + n + g - 1) / g)).map fun k =>
    let lo := max a (a / g * g + k * g)
    (lo, min (a + n) (a / g * g + (k + 1) * g) - lo)

/-- Writes bytes from a place up for launch `l`, or for a party outside the launches, line by line (R339, R344). -/
def State.storePage (s : State) (l : Option Nat) (ctx : Nat) (m : MainAt) (bs : List Byte) : State :=
  (granules 64 m.pa bs.length).foldl
    (fun s x => s.storeIn l ctx ⟨m.unit, x.1⟩ ((bs.drop (x.1 - m.pa)).take x.2) (decide (x.2 = 64))) s

/-- The places of the lines of a range. -/
def linesOf (m : MainAt) (n : Nat) : List MainAt := (granules 64 m.pa n).map fun x => ⟨m.unit, x.1⟩

/-- The aligned 8 bytes at a place are all written by one writer, if not at once: a table entry there is whole again (R331). -/
def State.healWord (s : State) (l : Option Nat) (m : MainAt) : State :=
  if (s.shadowOf l m).isNone && !s.lost l m then s.healEntries ⟨m.unit, m.pa / 8 * 8⟩ 8 else s

end Sys2Proof.Machine
end

