-- ==== Sys2Proof/Machine/Translate.lean ====
section
/-! DEFINITION. Homes, page tables and the checks of a request (R315-R325, R334, R335), translation faults and error responses
(R323, R324, R332). -/

namespace Sys2Proof.Machine

/-- Home code of a virtual address (R315). -/
def homeOf (va : Nat) : Nat := va / 2 ^ 56 % 256

/-- Is a home code a peer chip's? -/
def isPeerHome (h : Nat) : Bool := decide (0x10 ≤ h ∧ h ≤ 0x7F)

/-- The home unit of this device that serves a code, or unit 5 for a peer. -/
def unitOf (h : Nat) : Nat := if h < Config.dies then h else if h = 0x80 then 4 else 5

/-- The 64 KiB block of an address: the least page. -/
def pageOf (va : Nat) : Nat := va / 65536 * 65536

/-- Bytes of a page size code (R318). -/
def pageBytes (size : Nat) : Nat := if size = 0 then 0x10000 else if size = 1 then 0x200000 else 0x2000000

/-- Usable bytes of a band of a tier (R334). -/
def usableBytes (tier : Nat) : Nat := if tier = 2 then 0x20000000 else if tier = 1 then 0x22000000 else 0x24000000

/-- The physical address of the cullet line that holds a wave's checkpoint, in the usable bytes of band 0: the manual says no more of it (log 43). -/
def culletLine (wave : Nat) : Nat := Config.culletAddr wave % usableBytes 2 / 64 * 64

/-- The tier of the band of a die that holds a frame; none where it lies in no band (R335). -/
def State.bandTier (s : State) (die pa : Nat) : Option Nat :=
  let k := pa / Config.bandSpan
  if k < Config.bandsPerDie then
    let t := nth (s.home die).tiers k 2
    if pa % Config.bandSpan < usableBytes t then some t else none
  else none

/-- Is the band of a frame closed by RECLASS (R338)? -/
def State.bandClosed (s : State) (die pa : Nat) : Bool := (s.home die).closed.contains (pa / Config.bandSpan)

/-! ### The walk (R317, R318) -/

/-- What a walk meets. -/
inductive WalkResult where
  | invalid (level : Nat)
  | malformed
  | poisoned (pa index : Nat)
  | leaf (l : Leaf)
  deriving DecidableEq, Repr

/-- The index a level takes from a virtual address (R317). -/
def levelIndex (level va : Nat) : Nat :=
  match level with
  | 0 => va / 2 ^ 39 % 512
  | 1 => va / 2 ^ 30 % 512
  | 2 => va / 2 ^ 25 % 32
  | _ => va / 2 ^ 16 % 512

/-- The leaf of a type 2 entry at a physical address (R318): none when it is malformed at this level. -/
def leafOf (level e entry : Nat) : Option Leaf :=
  let size := e / 4 % 4
  let frame := e / 2 ^ 16 % 2 ^ 36 * 2 ^ 16
  let ok := (if level = 2 then size == 2 else level == 3 && decide (size ≤ 1)) && e / 2 ^ 52 == 0 && e / 2 ^ 13 % 8 == 0 &&
    e / 64 % 4 != 3 && e / 16 % 4 != 3 && frame % pageBytes size == 0
  if ok then
    some ⟨frame, size, e / 16 % 4, e / 64 % 4, e.testBit 8, e.testBit 9, e.testBit 10, e.testBit 11, entry⟩
  else none

/-- Walks the tables of a home unit from the table at `table`. A table whose frame lies in no band of the home is malformed (R319). -/
def State.walkFrom (s : State) (unit va : Nat) : Nat → Nat → Nat → WalkResult
  | 0, _, _ => .malformed
  | fuel + 1, level, table =>
    let i := levelIndex level va
    let pa := table + 8 * i
    if (s.home unit).poisoned.contains pa || s.lineBad ⟨unit, pa⟩ then .poisoned table i
    else
      let e := leNat (s.readPhysBytes unit pa 8)
      match e % 4 with
      | 0 => .invalid level
      | 1 =>
        let frame := e / 2 ^ 16 % 2 ^ 36 * 2 ^ 16
        if level = 3 ∨ e / 2 ^ 52 ≠ 0 ∨ e / 4 % 2 ^ 14 ≠ 0 ∨ (unit < Config.dies ∧ (s.bandTier unit frame).isNone) then .malformed
        else s.walkFrom unit va fuel (level + 1) frame
      | 2 => match leafOf level e pa with | some l => .leaf l | none => .malformed
      | _ => .malformed

/-- The root of a context's tables at a home (R317). -/
def State.rootOf (s : State) (ctx home : Nat) : Option Nat :=
  ((s.context? ctx).bind fun c => c.roots.find? fun r => r.1 == home).map Prod.snd

/-- Walks for a context at a home from its root; no root faults at level 0 (R317, R333). -/
def State.walk (s : State) (ctx home va : Nat) : WalkResult :=
  match s.rootOf ctx home with
  | some root => s.walkFrom (unitOf home) va 5 0 root
  | none => .invalid 0

/-- Where a leaf puts an address. -/
def Leaf.place (l : Leaf) (va : Nat) : Nat := l.pa + va % pageBytes l.size

/-- Bytes that one entry serves: a 32 MiB page, or the 64 KiB of an entry at L3, of which a 2 MiB page has 32 (R318). -/
def Leaf.span (l : Leaf) : Nat := if l.size = 2 then 0x2000000 else 0x10000

/-- A cached entry of a home that covers an address (R321). -/
def Home.cached (h : Home) (ctx va : Nat) : Option Leaf :=
  (h.cache.find? fun c => c.ctx == ctx && c.va / c.leaf.span == va / c.leaf.span).map Cached.leaf

/-- The translation of an address at a home: the cached entry where there is one, else what a walk meets (R321). -/
def State.lookup (s : State) (ctx home va : Nat) : WalkResult :=
  match (s.home (unitOf home)).cached ctx va with
  | some l => .leaf l
  | none => s.walk ctx home va

/-- Do two addresses lie on one page of a size code? -/
def samePage (size a b : Nat) : Bool := a / pageBytes size == b / pageBytes size

/-- Has a home side-log entries for the page that a leaf maps, which it performs before any other part to the page (R283)? -/
def State.logsFirst (s : State) (ctx home va : Nat) (l : Leaf) : Bool :=
  s.sideLog.any fun e => e.home == home &&
    ((e.ctx == ctx && samePage l.size e.va va) || (e.leaf.map fun x => x.pa == l.pa && x.size == l.size).getD false)

/-- What permission a request needs (R319). -/
inductive Need where
  | read | write | atomic
  deriving DecidableEq, Repr

/-- Has a leaf the permission? -/
def Leaf.allows (l : Leaf) : Need → Bool
  | .read => l.r
  | .write => l.w
  | .atomic => l.a

/-- The checks of a request against its leaf after the walk (R319, steps 2 to 5, R338): none, or the cause. -/
def State.checkLeaf (s : State) (home : Nat) (l : Leaf) (va : Nat) (need : Need) (tier : Option Nat) : Option Nat :=
  let band := if home < Config.dies then s.bandTier home (l.place va) else some l.tier
  match band with
  | none => some trapACCESS
  | some t =>
    if home < Config.dies && s.bandClosed home (l.place va) then some trapACCESS
    else if t ≠ l.tier then some trapACCESS
    else if !l.allows need then some trapACCESS
    else match tier with
      | some e => if e ≠ l.tier then some trapCLASSX else none
      | none => none

/-! ### Faults and responses -/

/-- The 32-byte fault record (R323). -/
def faultRecord (time va ctx level op source tag : Nat) : List Byte :=
  leBytes 8 0 ++ leBytes 2 tag ++ leBytes 2 source ++ leBytes 1 op ++ leBytes 1 level ++ leBytes 2 ctx ++ leBytes 8 va ++ leBytes 8 time

/-- One device write to a home unit's memory: to host memory it waits for the host's global observation (R398). -/
def State.hostWritten (s : State) (unit : Nat) : State := if unit = 4 then { s with hostWrites := s.hostWrites + 1 } else s

/-- Raises or joins a translation fault at a home unit (R323): the tag, or none while the ring is full. DESIGN CHOICE (log 17): a ring of n records holds
n open faults; a page is the 64 KiB block of the address, whatever the level of the type 0 entry; tags count up modulo 65,536, used or not. -/
def State.raiseFault (s : State) (unit ctx va level op source : Nat) : State × Option Nat :=
  let h := s.home unit
  match h.faults.find? fun f => f.ctx == ctx && pageOf f.va == pageOf va with
  | some f => (s, some f.tag)
  | none =>
    let room := h.ringSize / 32
    if h.faults.length ≥ room then (s, none)
    else
      let tag := h.nextTag
      let s := (s.writePhysBytes unit (h.ringBase + 32 * h.ringNext) (faultRecord s.clock va ctx level op source tag)).hostWritten unit
      let s := s.onHome unit fun h =>
        { h with
          faults := h.faults ++ [⟨tag, ctx, va, level⟩]
          nextTag := (h.nextTag + 1) % 65536
          ringNext := (h.ringNext + 1) % room }
      ({ s with interrupts := s.interrupts + 1 }, some tag)

/-- The trap record of a fault that no word delivers: it has no code address. -/
def Deferred.record (d : Deferred) : TrapRecord := ⟨d.cause, 0, BitVec.ofNat 64 d.addr, d.mask.trapWord⟩

/-- An error response reaches a wave (R208, R325, R332): the error log, with the index that the cause gives, and the wave's pending engine fault, of
which it keeps the earliest issued; a retired wave's is a context fault, but for XLATEUE, which kills no context (R331). -/
def State.respond (s : State) (wave launch ctx core seq rank ctr : Nat) (mask : Mask) (cause index va : Nat) (deferred : Bool) : State :=
  let s := s.logError va ctx (homeOf va) cause core index
  let d : Deferred := ⟨seq, rank, ctr, cause, va, mask⟩
  let late (f : LogFields) : State := if cause = trapXLATEUE then s else s.contextFault ctx { f with report := d.record }
  if !deferred then s
  else match s.wave? wave with
    | some w =>
      if w.status == .retired then late (s.fieldsOf w)
      else
        let keep := match w.engineFault with
          | some e => if e.seq ≤ seq then some e else some d
          | none => some d
        s.onWave wave fun w => { w with engineFault := keep }
    | none => late { LogFields.none with launchid := ((s.launch? launch).map fun l => l.desc.launchid).getD 0 }

/-- The table entries in the line that holds one. -/
def entriesOfLine (pa : Nat) : List Nat := (List.range 8).map fun k => pa / 64 * 64 + 8 * k

/-- Poisons a table entry a walk found uncorrectable and reports it to the host once, through the error log, with the table's physical
address and the entry's index; cached copies of it, in any context, are discarded (R331). Where its line is lost, every entry of the line is poisoned,
each to be reported when a walk needs it, and the line can be written again, entry by entry (DEDUCED, log 17). -/
def State.reportPoison (s : State) (ctx home source table index : Nat) : State :=
  let u := unitOf home
  let pa := table + 8 * index
  let s := if s.lineBad ⟨u, pa⟩ then
      (s.dropLineError ⟨u, pa⟩).onHome u fun h => { h with poisoned := entriesOfLine pa ++ h.poisoned.filter fun x => !(entriesOfLine pa).contains x }
    else s
  let s := s.onHome u fun h => { h with cache := h.cache.filter fun c => c.leaf.entry != pa }
  if (s.home u).reported.contains pa then s
  else (s.logError table ctx home trapXLATEUE source index).onHome u fun h => { h with reported := pa :: h.reported }

/-- The free hint of a refusal with retry-after, in clocks (R322, log 14). -/
def State.retryClocks (s : State) : Nat × State :=
  let (n, s) := s.draw
  ((1 + Config.retryHint n % 255) * 128, s)

end Sys2Proof.Machine
end

