-- ==== Sys2Proof/Machine/Device.lean ====
section
/-! DEFINITION. Accesses that the device makes itself: of the queue unit (R139, R292, R297), of context images (R387) and of trace logs
(R372-R376). -/

namespace Sys2Proof.Machine

/-- Is an accepted feature bit of F0 set (R381)? -/
def State.feature (s : State) (b : Nat) : Bool := (nth s.faccept 0 0).getLsbD b

/-- Has a peer chip a link that is up (R399)? -/
def State.peerUp (s : State) (chip : Nat) : Bool := (nth s.linkMasks chip 0 &&& ~~~s.linksDown) != 0

/-- What stops an access of the device itself to main memory: side-log entries of the page or a copied line, which it waits for (R283, R329); a peer that
asks to have it sent again; a type 0 entry at a level; a poisoned entry, of a table and by its index; an error response; or uncorrectable data. -/
inductive DeviceErr where
  | later
  | again
  | fault (va level : Nat)
  | poisoned (va table index : Nat)
  | refused (va cause : Nat)
  | uncorrectable (m : MainAt)
  deriving DecidableEq, Repr

/-- Does the failed access wait? -/
def DeviceErr.waits : DeviceErr → Bool
  | .later | .again | .fault _ _ => true
  | _ => false

/-- Does what needed the access go no further until it can be made: it waits, or its data are lost, which is a context fault? -/
def DeviceErr.holds : DeviceErr → Bool
  | .uncorrectable _ => true
  | e => e.waits

/-- An access of the device at a peer's home, while F0 bit 4 is accepted and a link is up (R315, R399): a free choice of what the peer answers (log
18). -/
def State.peerPlace (s : State) (va : Nat) : Except DeviceErr MainAt :=
  if !s.feature 4 || !s.peerUp ((homeOf va - 0x10) / 4) then .error (.refused va trapACCESS)
  else match (Config.freeWord s.fresh).toNat % 4 with
    | 0 => .error (.refused va trapACCESS)
    | 1 => .error .again
    | _ => .ok ⟨5, va⟩

/-- Where a virtual address of a context stands, for an access of the device itself (R315, R319, R321). -/
def State.devicePlace (s : State) (ctx va : Nat) (need : Need) : Except DeviceErr MainAt :=
  let h := homeOf va
  if va / 2 ^ 48 % 256 != 0 then .error (.refused va trapACCESS)
  else if isPeerHome h then s.peerPlace va
  else if !(decide (h < Config.dies) || h == 0x80) then .error (.refused va trapACCESS)
  else
    match s.lookup ctx h va with
    | .invalid level => .error (.fault va level)
    | .malformed => .error (.refused va trapACCESS)
    | .poisoned table i => .error (.poisoned va table i)
    | .leaf l =>
      let m : MainAt := ⟨unitOf h, l.place va⟩
      match s.checkLeaf h l va need none with
      | some c => .error (.refused va c)
      | none => if s.logsFirst ctx h va l || (need == .write && s.lineCopied m) then .error .later else .ok m

/-- The places of n bytes from a virtual address up; the lowest failing byte's error. -/
def State.devicePlaces (s : State) (ctx va n : Nat) (need : Need) : Except DeviceErr (List MainAt) :=
  (List.range n).mapM fun k => s.devicePlace ctx (va + k) need

/-- An access at a peer's home has taken the peer's answer. -/
def State.answeredBy (s : State) (va : Nat) : State := if isPeerHome (homeOf va) then { s with fresh := s.fresh + 1 } else s

/-! ### Reads and writes -/

/-- Reads n bytes for the device. -/
def State.deviceRead (s : State) (ctx va n : Nat) : Except DeviceErr (List Byte) :=
  match s.devicePlaces ctx va n .read with
  | .error e => .error e
  | .ok ps =>
    match ps.find? s.lineBad with
    | some m => .error (.uncorrectable m)
    | none => .ok (ps.map (s.readMain none))

/-- A read of the device has taken its bytes: single errors in their lines are corrected and charged (R345, rung 1). -/
def State.deviceTook (s : State) (ctx va n : Nat) : State :=
  match s.devicePlaces ctx va n .read with
  | .error _ => s
  | .ok ps => (ps.foldl (fun s m => s.correctLine ctx m) s).answeredBy va

/-- Writes bytes for the device (R287), each line as `put` stores it; a write to host memory waits for its global observation (R398). -/
def State.deviceWriteBy (s : State) (put : State → MainAt → List Byte → Bool → State) (ctx va : Nat) (bs : List Byte) : Except DeviceErr State :=
  match s.devicePlaces ctx va bs.length .write with
  | .error e => .error e
  | .ok ps =>
    let s := (granules 64 va bs.length).foldl (fun s x =>
      match ps[x.1 - va]? with
      | some m => put s m ((bs.drop (x.1 - va)).take x.2) (decide (x.2 = 64))
      | none => s) s
    .ok ((s.hostWritten (unitOf (homeOf va))).answeredBy va)

/-- Writes bytes for the device. -/
def State.deviceWrite (s : State) (ctx va : Nat) (bs : List Byte) : Except DeviceErr State :=
  s.deviceWriteBy (fun s m l whole => s.storeIn none ctx m l whole) ctx va bs

/-- What a failed access of the device leaves: a type 0 entry opens a translation fault, and the access waits (R323); a poisoned entry is reported
(R331); an error response enters the error log (R332); uncorrectable data is a context fault (R345, R350). DESIGN CHOICE (log 17): the record and the
entry name op 0 or 1, a read or a write, and the host's source, 0xFFFF. -/
def State.deviceFailed (s : State) (ctx op : Nat) (e : DeviceErr) : State :=
  match e with
  | .later => s
  | .again => { s with fresh := s.fresh + 1 }
  | .fault va level => (s.raiseFault (unitOf (homeOf va)) ctx va level op 0xFFFF).1
  | .poisoned va table i => (s.reportPoison ctx (homeOf va) 0xFFFF table i).logError va ctx (homeOf va) trapXLATEUE 0xFFFF i
  | .refused va c => (s.logError va ctx (homeOf va) c 0xFFFF 0).answeredBy va
  | .uncorrectable m =>
    (s.markLine m).contextFault ctx { LogFields.none with addr := m.pa / 64 * 64, array := 0x06, report := .ofCause trapUE }

/-- Performs a write of the device: an error response drops it, after its entry in the log. -/
def State.deviceStore (s : State) (ctx va : Nat) (bs : List Byte) : State :=
  match s.deviceWrite ctx va bs with
  | .ok s => s
  | .error e => s.deviceFailed ctx 1 e

/-- Does a write of the device wait for a mapping? -/
def State.deviceWaits (s : State) (ctx va n : Nat) : Option DeviceErr :=
  match s.devicePlaces ctx va n .write with
  | .error e => if e.waits then some e else none
  | .ok _ => none

/-! ### Trace logs (R372-R376) -/

/-- Stores bytes that are an external input of no launch: those of a trace log, which the device writes for the launch itself (R372). -/
def State.storeUnnoted (s : State) (ctx : Nat) (m : MainAt) (bs : List Byte) (whole : Bool) : State :=
  let t := s.storeIn none ctx m bs whole
  { t with launches := t.launches.map fun (x : Launch) => match s.launch? x.key with
      | some y => { x with external := y.external }
      | none => x }

/-- Writes bytes of a launch's trace log, through its context's mapping as the home has it now. -/
def State.logWrite (s : State) (l : Launch) (va : Nat) (bs : List Byte) : State :=
  match s.deviceWriteBy (fun s m x whole => s.storeUnnoted l.ctx m x whole) l.ctx va bs with
  | .ok s => s
  | .error e => s.deviceFailed l.ctx 1 e

/-- Reads bytes of it; zeros where the read fails. -/
def State.logRead (s : State) (l : Launch) (va n : Nat) : List Byte :=
  match s.deviceRead l.ctx va n with
  | .ok bs => bs
  | .error _ => List.replicate n 0

/-- What a read of a trace log meets at its places, the lowest first: an access that waits or is refused, or a line whose data are lost. -/
def State.logUnread (s : State) (ctx base size : Nat) : Option DeviceErr :=
  (granules 64 base size).findSome? fun x =>
    match s.devicePlace ctx x.1 .read with
    | .error e => some e
    | .ok m => if s.lineBad m then some (.uncorrectable m) else none

/-- What keeps a step back that writes, or where `reading` reads, a trace log at a place: an access to a line of it that waits, or a line whose data are
lost (R319, R323, R329, R344). -/
def State.logTrouble (s : State) (ctx base size : Nat) (reading : Bool) : Option DeviceErr :=
  ((granules 64 base size).findSome? fun x =>
    match s.devicePlace ctx x.1 .write with
    | .error e => if e.waits then some e else none
    | .ok _ => none) <|>
  if reading then (s.logUnread ctx base size).filter DeviceErr.holds else none

/-- What keeps a step of a launch back that uses its trace log; a killed launch only waits. -/
def State.logHolds (s : State) (l : Launch) : Option DeviceErr :=
  (l.log.bind fun t => s.logTrouble l.ctx t.base t.size (t.state == 4)).filter fun e => e.waits || !l.killed

/-- What a launch that replays meets where it reads its trace log. -/
def State.replayUnread (s : State) (l : Launch) : Option DeviceErr :=
  l.log.bind fun t => if t.state = 4 then s.logUnread l.ctx t.base t.size else none

/-- A step has read a launch's trace log: an error response there enters the error log (R319, R332), and what was to be read reads as no entry. -/
def State.tookLog (s : State) (lk : Nat) : State :=
  match s.launch? lk with
  | none => s
  | some l => match (s.replayUnread l).filter fun e => !e.holds with
    | some e => s.deviceFailed l.ctx 0 e
    | none => s

end Sys2Proof.Machine
end

