-- ==== Sys2Proof/Machine/Engine.lean ====
section
/-! DEFINITION. The local port and the engines as the model machine steps them (R269-R286): making operations, translation of parts,
performing, side log, retiring, returned values and error responses. -/

namespace Sys2Proof.Machine

/-! ### Making operations -/

/-- Does a job act on a crucible cell? -/
def Job.onCell : Job → Bool
  | .cxAdd _ | .cxClear | .cxRead => true
  | _ => false

/-- Which main-memory part a piece belongs to (R269): its cell, or else its home and the 64 KiB block, the least page; parts of blocks that turn out
to lie on one larger page become one when the first is translated. None for the local side. -/
def Piece.partKey (x : Piece) : Option (Nat × Nat × Option Nat) :=
  match x.job with
  | .local_ => none
  | .atomic _ _ _ => if homeOf x.va = 0xFF then none else some (homeOf x.va, pageOf x.va, none)
  | j => some (homeOf x.va, pageOf x.va, if j.onCell then some x.va else none)

/-- Numbers the main-memory parts of pieces. Local-only pieces belong to the local side, one past the last part. -/
def partsOf (pieces : List Piece) : List Part × List Piece :=
  let keys := (pieces.filterMap Piece.partKey).eraseDups
  let parts := keys.map fun (h, pg, cell) => (⟨h, pg, if h = 0xFF ∧ cell.isSome then .ready else .pending, none⟩ : Part)
  let number (x : Piece) : Piece :=
    match x.partKey with
    | some k => { x with part := keys.idxOf k }
    | none => { x with part := keys.length }
  (parts, pieces.map number)

/-- Bytes of main memory that a piece touches. -/
def Piece.len (x : Piece) : Nat := if x.job.onCell then 64 else x.data.length

/-- Does a piece touch one of the n bytes from an address up? -/
def Piece.meets (x : Piece) (va n : Nat) : Bool := decide (x.va < va + n ∧ va < x.va + x.len)

/-- The first piece's address: where a part begins. -/
def Op.partVa (o : Op) (k : Nat) : Option Nat :=
  (o.pieces.filter fun x => x.part == k).foldl (fun (best : Option Nat) x => match best with
    | some b => some (min b x.va)
    | none => some x.va) none

/-- Is an engine counter full, so that Enqueue waits (R128, R209)? -/
def Wave.counterFull (w : Wave) (k : Nat) : Bool := decide (w.counter k ≥ 255)

/-- Appends an operation to the wave's engine queues (R209, R271), and gives its key. -/
def State.addOp (s : State) (w : Wave) (p : Split) (ctr : Option Nat) (kind : OpKind) (mask : Mask) (pieces : List Piece)
    (mat : Option MatJob) (tier : Nat) : State × Wave × Nat :=
  let (key, s) := s.newKey
  let (parts, pieces) := partsOf pieces
  let op : Op := ⟨key, w.seq, ctr, (ctr.map fun c => nth w.issued c 0).getD 0, kind, p.pc, mask, w.a.retired, parts, pieces, mat, tier, false⟩
  let issued := match ctr with
    | some c => modifyAt w.issued c (· + 1)
    | none => w.issued
  (s, { w with ops := w.ops ++ [op], seq := w.seq + 1, issued := issued }, key)

/-- Changes an operation of a wave. -/
def Wave.onOp (w : Wave) (k : Nat) (f : Op → Op) : Wave := { w with ops := w.ops.map fun o => if o.key == k then f o else o }

/-- An operation of a wave. -/
def Wave.op? (w : Wave) (k : Nat) : Option Op := w.ops.find? fun o => o.key == k

/-- Changes a part of an operation. -/
def Op.onPart (o : Op) (k : Nat) (f : Part → Part) : Op := { o with parts := modifyAt o.parts k f }

/-! ### Atomics (R140, R196) -/

/-- The new value of an atomic of `size` bytes: none where nothing is written. -/
def atomicNew (f : AtomicFn) (size old operand compare : Nat) : Option Nat :=
  let m := 2 ^ (8 * size)
  match f with
  | .add => some ((old + operand) % m)
  | .min => some (if signed (8 * size) operand < signed (8 * size) old then operand else old)
  | .max => some (if signed (8 * size) old < signed (8 * size) operand then operand else old)
  | .minu => some (min old operand)
  | .maxu => some (max old operand)
  | .and => some (old &&& operand)
  | .or => some (old ||| operand)
  | .xor => some (old ^^^ operand)
  | .xchg => some operand
  | .cas => if old = compare then some operand else none

/-! ### Trace log (R372-R376) -/

/-- The 64-byte header (R373). -/
def TraceLog.header (t : TraceLog) (launchid : Nat) : List Byte :=
  leBytes 1 t.state ++ leBytes 3 0 ++ leBytes 4 launchid ++ leBytes 8 t.entries ++ leBytes 8 t.endret.toNat ++
    leBytes 2 (t.wave * 2 ^ 12) ++ leBytes 6 t.crew ++ leBytes 8 t.divexp.toNat ++ leBytes 8 t.divact.toNat ++ leBytes 16 0

/-- Writes the header of a launch's log. -/
def State.writeHeader (s : State) (lk : Nat) : State :=
  match s.launch? lk with
  | none => s
  | some l => match l.log with
    | none => s
    | some t => s.logWrite l t.base (t.header l.desc.launchid)

/-- Changes a launch's trace log. -/
def State.onLog (s : State) (lk : Nat) (f : TraceLog → TraceLog) : State := s.onLaunch lk fun l => { l with log := l.log.map f }

/-- One entry (R374). -/
def traceEntry (retired va mask crew wave op : Nat) (line : List Byte) : List Byte :=
  leBytes 1 0 ++ leBytes 1 (op + 16 * (wave % 16)) ++ leBytes 6 crew ++ leBytes 8 mask ++ leBytes 8 va ++ leBytes 8 retired ++ line

/-- A decoded trace-log entry. -/
structure LogEntryView where
  index : Nat
  retired : Nat
  va : Nat
  mask : Nat
  crew : Nat
  wave : Nat
  line : List Byte
  deriving DecidableEq, Repr

/-- The entry at an index of a launch's log. -/
def State.logEntry (s : State) (l : Launch) (t : TraceLog) (k : Nat) : LogEntryView :=
  let bs := s.logRead l (t.base + 64 + 96 * k) 96
  ⟨k, field bs 24 8, field bs 16 8, field bs 8 8, field bs 2 6, field bs 1 1 / 16, bs.drop 32⟩

/-- Drops, from the end of a recording log, the entries that a discarded attempt of the wave left for reads it now makes again (R371): those of
later reads, or of this one from this line on. -/
def State.dropRedone (s : State) (lk : Nat) (l : Launch) (t : TraceLog) (w : Wave) (retired va : Nat) : State × TraceLog :=
  let crew := ((s.crew? w.crew).map Crew.ordinal).getD 0
  let redone (k : Nat) : Bool :=
    let e := s.logEntry l t k
    e.crew == crew && e.wave == w.ordinal && (decide (e.retired > retired) || (e.retired == retired && decide (e.va ≥ va)))
  let tail := ((List.range t.entries).reverse.takeWhile redone).length
  if tail = 0 then (s, t)
  else ((s.onLog lk fun t => { t with entries := t.entries - tail }).writeHeader lk, { t with entries := t.entries - tail })

/-- Records one line of a read (R375): when it has an external byte and the entry fits; LOGFULL ends recording. In replay the entry that names
the read is consumed (R376). -/
def State.recordLine (s : State) (lk : Nat) (w : Wave) (retired opcode va mask : Nat) (line : List Byte) : State :=
  match s.launch? lk with
  | none => s
  | some l => match l.log with
    | none => s
    | some t =>
      if t.state = 4 then
        let crew := ((s.crew? w.crew).map Crew.ordinal).getD 0
        let at_ := (List.range ((t.size - 64) / 96)).map fun k => s.logEntry l t k
        match at_.find? fun e => e.crew == crew && e.wave == w.ordinal && e.retired == retired && e.va == va with
        | some e => (s.onLog lk fun t => { t with entries := max t.entries (e.index + 1) }).writeHeader lk
        | none => s
      else if t.state ≠ 1 then s
      else
        let (s, t) := s.dropRedone lk l t w retired va
        if mask = 0 then s else
        let crew := ((s.crew? w.crew).map Crew.ordinal).getD 0
        if 64 + 96 * (t.entries + 1) ≤ t.size then
          let s := s.logWrite l (t.base + 64 + 96 * t.entries) (traceEntry retired va mask crew w.ordinal opcode line)
          (s.onLog lk fun t => { t with entries := t.entries + 1 }).writeHeader lk
        else
          let s := s.onLog lk fun t => { t with state := 3, crew := crew, wave := w.ordinal, endret := BitVec.ofNat 64 retired }
          let s := (s.onLaunch lk fun l => { l with logended := true }).writeHeader lk
          { s.logError l.desc.launchid l.ctx 0 trapLOGFULL w.core 0 with interrupts := s.interrupts + 1 }

/-- Notes that a wave whose launch has a trace log read a line (R373, divact). -/
def State.noteRead (s : State) (w : Wave) (line retired : Nat) : State :=
  if ((s.launch? w.launch).map fun l => l.log.isSome).getD false then
    s.onWave w.key fun w => { w with lineReads := (line, retired) :: w.lineReads.filter fun x => x.1 != line }
  else s

/-- The entries of a replaying log for a wave's instruction of one retired value, with a byte to deliver (R374, R376). -/
def State.entriesAt (s : State) (w : Wave) (retired : Nat) : List LogEntryView :=
  match s.launch? w.launch with
  | none => []
  | some l => match l.log with
    | none => []
    | some t =>
      if t.state ≠ 4 then []
      else
        let crew := ((s.crew? w.crew).map Crew.ordinal).getD 0
        ((List.range ((t.size - 64) / 96)).map fun k => s.logEntry l t k).filter fun e =>
          e.crew == crew && e.wave == w.ordinal && e.retired == retired && decide (e.mask ≠ 0)

/-- The bytes a replayed read delivers (R376): at the line an entry names, the masked bytes of the log. -/
def State.replayByte (s : State) (w : Wave) (retired va : Nat) (b : Byte) : Byte :=
  match s.launch? w.launch with
  | none => b
  | some l => match l.log with
    | none => b
    | some t =>
      if t.state ≠ 4 then b
      else
        let crew := ((s.crew? w.crew).map Crew.ordinal).getD 0
        match ((List.range ((t.size - 64) / 96)).map fun k => s.logEntry l t k).find? fun e =>
            e.crew == crew && e.wave == w.ordinal && e.retired == retired && e.va == va / 64 * 64 with
        | some e => if e.mask.testBit (va % 64) then nth e.line (va % 64) 0 else b
        | none => b

/-! ### The local port and the errors in local words (R337, R342-R345) -/

/-- Bytes of a code word (R337): 8 of a crew store, the 64 of a line of the marver. -/
def LocalAt.width : LocalAt → Nat
  | .crew _ _ => 8
  | .marver _ _ _ => 64

/-- The first byte of the code word that holds a local byte. -/
def LocalAt.word : LocalAt → LocalAt
  | .crew k off => .crew k (off / 8 * 8)
  | .marver l d off => .marver l d (off / 64 * 64)

/-- Where the line of a local byte begins: the address that R347 has reported (log 46). -/
def LocalAt.line : LocalAt → Nat
  | .crew _ off => off / 64 * 64
  | .marver _ _ off => off / 64 * 64

/-- The array of a local byte, for the log (R354). -/
def LocalAt.array : LocalAt → Nat
  | .crew _ _ => 0x04
  | .marver _ _ _ => 0x05

/-- The bit error of a local word. -/
def localError (s : State) (p : LocalAt) : Option SoftErr :=
  s.softErrors.find? fun e => match e.site, p with
    | .crewStore k o, .crew c off => k == c && o / 8 == off / 8
    | .marver l d o, .marver l' d' off => l == l' && d == d' && o / 64 == off / 64
    | _, _ => false

/-- Corrects a single error of a local word: of a crew store's the event is the wave's, and of the marver's the context's (R341, R345). -/
def State.correctLocal (s : State) (w : Wave) (p : LocalAt) (e : SoftErr) : State :=
  { s with softErrors := s.softErrors.erase e }.corrected w.ctx (match p with | .crew _ _ => some w.key | .marver _ _ _ => none)

/-- A line of the marver found lost is given its mark (R344); a crew store's word has none. -/
def State.markLocal (s : State) (p : LocalAt) (e : SoftErr) : State :=
  match p with
  | .crew _ _ => s
  | .marver _ _ _ => { s with softErrors := s.softErrors.map fun x => if x == e then { x with poison := true } else x }

/-- Reading local bytes: corrects single errors, marks lost lines, and finds the first place whose data are lost, which is consumed (R342, R344). -/
def State.scanLocal (s : State) (w : Wave) (places : List LocalAt) : State × Option LocalAt :=
  places.foldl (fun (s, bad) p => match localError s p with
    | none => (s, bad)
    | some e => if e.lost then (s.markLocal p e, bad <|> some p) else (s.correctLocal w p e, bad)) (s, none)

/-- Consumption of uncorrectable data in a crew store or the marver (R345, rung 3). -/
def State.consumeLocal (s : State) (w : Wave) (pc : Nat) (mask : Mask) (p : LocalAt) : State :=
  s.rung3 w.launch (some w.key) ⟨0x12, trapUE, p.line, mask, mask.lowest w.W, false, none, pc, p.array, s.clock⟩

/-- A command's reads of local bytes at its issue: none where they are sound; else the state after an error was corrected, from which
the word issues again, or consumed. -/
def State.findLocal (s : State) (w : Wave) (pc : Nat) (mask : Mask) (places : List LocalAt) : Option State :=
  match s.scanLocal w places with
  | (s', some p) => some (s'.consumeLocal w pc mask p)
  | (s', none) => if s'.softErrors.length = s.softErrors.length then none else some s'

/-- Prepares the code word of a local byte for a write (R343, R344): a write of the whole word clears an error, of which a latent one enters the
log; a partial one corrects a single error. False: a partial write of a lost word, which writes nothing and leaves a line its mark. -/
def State.readyLocal (s : State) (w : Wave) (p : LocalAt) (whole : Bool) : State × Bool :=
  match localError s p with
  | none => (s, true)
  | some e =>
    if whole then
      let s := { s with softErrors := s.softErrors.erase e }
      (if e.poison then s.logIntegrity { s.fieldsOf w with addr := p.line, event := 0x02, array := p.array } else s, true)
    else if e.lost then (s.markLocal p e, false)
    else (s.correctLocal w p e, true)

/-- Writes the bits of `mask` in a local byte, `whole` where the writer writes its whole code word. -/
def State.storeLocal (s : State) (w : Wave) (p : LocalAt) (b mask : Byte) (whole : Bool) : State :=
  match s.readyLocal w p whole with
  | (s, true) => s.writeLocalBits p b mask
  | (s, false) => s

/-- Does a list of places hold every byte of a place's code word? -/
def coversWord (places : List LocalAt) (p : LocalAt) : Bool := (List.range p.width).all fun k => places.contains (p.word.plus k)

/-- The writes of a store at the port, in order. -/
def State.storeAll (s : State) (w : Wave) (writes : List (LocalAt × Byte × Byte)) : State :=
  let full := (writes.filter fun x => x.2.2 == 0xFF).map Prod.fst
  writes.foldl (fun s (p, b, m) => s.storeLocal w p b m (coversWord full p)) s

/-- The places a load reads. -/
def LaneAcc.places (x : LaneAcc) (size : Nat) : List LocalAt := (List.range size).map x.at_.plus ++ x.scale.toList

/-- What a lane of a vector load delivers, with its flags (R191, R192, R194). A BF16 element that an FP16 compute form cannot hold is rounded under MR
(R50, R52; DEDUCED, log 48: R191 calls these conversions exact). A signalling NaN sets no flag (R61, R191; DEDUCED, log 23). -/
def State.loadLane (s : State) (raw : Option Nat) (storage compute : Fmt) (x : LaneAcc) : Word32 × BitVec 7 :=
  match raw with
  | some n => (BitVec.ofNat 32 (leNat (s.readLocalBytes x.at_ n)), 0)
  | none =>
    if storage.isMX then
      let block := leNat (s.readLocalBytes x.at_ storage.blockBytes)
      let scale := ((x.scale.map fun p => (s.readLocal p).toNat)).getD 0
      let c := compute.convert x.ctl (storage.scaled scale (blockElem storage block x.elem))
      (BitVec.ofNat 32 c.code, c.flags)
    else
      let code := if storage == .i4 then blockElem .i4 (leNat (s.readLocalBytes x.at_ 16)) x.elem
        else leNat (s.readLocalBytes x.at_ storage.elemBytes)
      match compute.kind with
      | .real =>
        let c := compute.convert x.ctl (storage.valOf code)
        (BitVec.ofNat 32 c.code, c.flags)
      | _ => (BitVec.ofNat 32 (codeOfInt compute.bits (storage.intOf code)), 0)

/-- Performs the local lanes of an atomic (R197, R141), in ascending lane order: each reads and writes indivisibly. The bytes are sound. -/
def State.atomicLocal (s : State) (size : Nat) (pieces : List Piece) : State × List Piece :=
  pieces.foldl (fun (s, done) x =>
    match x.dst, x.job with
    | some at_, .atomic f operand compare =>
      let old := leNat (s.readLocalBytes at_ size)
      let s := match atomicNew f size old operand compare with
        | some n => s.writeLocalBytes at_ (leBytes size n)
        | none => s
      (s, done ++ [{ x with data := (leBytes size old).map some, left := [] }])
    | _, _ => (s, done ++ [x])) (s, [])

/-- The bytes an atomic's local lanes read. -/
def atomicPlaces (size : Nat) (pieces : List Piece) : List LocalAt :=
  pieces.flatMap fun x => match x.dst with
    | some at_ => (List.range size).map at_.plus
    | none => []

/-- The lanes of the split that waits for its scalar load, by its lowest lane. -/
def Wave.issuer (w : Wave) (lane : Nat) : Mask := ((w.a.splits.find? fun p => p.lanes.has lane).map Split.lanes).getD (Mask.single lane)

/-- The access at the head of the port has performed. -/
def Wave.popPort (w : Wave) : Wave := { w with port := w.port.drop 1 }

/-- Bytes of an atomic's location: 8 for a scalar one, 4 for a lane's. -/
def Op.atomicSize (o : Op) : Nat := match o.kind with | .satomic _ => 8 | _ => 4

/-- PORT_ACCESS (R271, R273): the access at the head of a wave's local port performs, the whole word's in one step (DESIGN CHOICE, log 45: R273 promises
one step only for 8 aligned bytes of a lane). In deterministic mode only the token's holder steps (R286). Each copy of a scalar load reads, and
consumes, its own word (R137, R342). -/
def execPortAccess (wave : Nat) (s : State) : Result :=
  match s.wave? wave with
  | none => .next s
  | some w =>
    match w.port with
    | [] => .next s
    | x :: _ =>
      if !s.hasToken w then .next s
      else match x.job with
      | .store writes => .next ((s.storeAll w writes).onWave wave Wave.popPort)
      | .vload d raw storage compute accs =>
        let size := match raw with | some n => n | none => if storage.packed then storage.blockBytes else storage.elemBytes
        let on := Mask.ofLanes (accs.map LaneAcc.lane)
        match s.scanLocal w (accs.flatMap fun a => a.places size) with
        | (s, some p) => .next ((s.onWave wave Wave.popPort).consumeLocal w x.pc on p)
        | (s, none) =>
          let outs := accs.map fun a => (a.lane, s.loadLane raw storage compute a)
          let word (i : Nat) : Word32 := ((outs.find? fun y => y.1 == i).map fun y => y.2.1).getD 0
          let fl := outs.foldl (fun acc y => acc ||| y.2.2) 0
          .next ((s.clearWritten w d on).onWave wave fun w =>
            (((w.popPort.writeV d on word .general).flags fl).markV d false).unboard (0x400 + d))
      | .sload d size at_ shadowAt =>
        match s.scanLocal w ((List.range size).map at_.plus ++ (List.range size).map shadowAt.plus) with
        | (s, some p) => .next ((s.onWave wave Wave.popPort).consumeLocal w x.pc (w.issuer x.lane) p)
        | (s, none) =>
          let v := BitVec.ofNat 64 (leNat (s.readLocalBytes at_ size))
          let vs := BitVec.ofNat 64 (leNat (s.readLocalBytes shadowAt size))
          .next ((s.clearScalar w d).onWave wave fun w => (w.popPort.putS d v vs).wake x.lane)
      | .atomic k =>
        match w.op? k with
        | none => .next (s.onWave wave Wave.popPort)
        | some o =>
          let here := o.pieces.filter fun y => y.part == o.parts.length
          let there := o.pieces.filter fun y => y.part != o.parts.length
          match s.scanLocal w (atomicPlaces o.atomicSize here) with
          | (s, some p) =>
            .next ((s.onWave wave fun w => w.popPort.onOp k fun o =>
              { o with pieces := there ++ here.map fun y => { y with left := [] } }).consumeLocal w x.pc o.mask p)
          | (s, none) =>
            let (s, here) := s.atomicLocal o.atomicSize here
            .next (s.onWave wave fun w => w.popPort.onOp k fun o => { o with pieces := there ++ here })

/-! ### Performing parts (R271-R276) -/

/-- Does a piece's main side still have to perform? -/
def Piece.mainDue (x : Piece) : Bool :=
  match x.job with
  | .read => x.data.any Option.isNone
  | .write => !x.left.isEmpty && x.data.all Option.isSome
  | .local_ => false
  | _ => !x.left.isEmpty

/-- Is the main side of a piece not yet performed? -/
def Piece.mainOpen (x : Piece) : Bool :=
  match x.job with
  | .read => x.data.any Option.isNone
  | .local_ => false
  | _ => !x.left.isEmpty

/-- The address of the first piece of a part that has still to perform, which a fault or a refusal names. -/
def Op.firstVa (o : Op) (k : Nat) : Option Nat := (o.pieces.find? fun x => x.part == k && x.mainOpen).map Piece.va

/-- Has a part not performed, and is it not in the side log and not answered by an error? -/
def Part.open_ (q : Part) : Bool :=
  match q.status with
  | .performed | .logged | .refused _ => false
  | _ => true

/-- May a part be of an ordering kind: it is, or nothing has translated it yet? -/
def mayBe (kind : Nat) (leaf : Option Leaf) : Bool :=
  match leaf with
  | some l => l.kind == kind
  | none => true

/-- The open main-memory parts of an operation that may be of a kind, by number. -/
def Op.openParts (o : Op) (kind : Nat) : List Nat :=
  (o.parts.zipIdx.filter fun (q, _) => q.home != 0xFF && q.open_ && mayBe kind q.leaf).map Prod.snd

/-- Bytes of a side-logged write: those of its data, or its cell. -/
def LogEntry.meets (e : LogEntry) (x : Piece) : Bool :=
  if e.cell.isSome then x.meets e.va 64 else e.data.any fun y => x.meets y.1 1

/-- The ordering-kind condition of a part (R275): S waits for every S part of the operations issued earlier; C for every earlier part with an
overlapping byte of a C page. A write in the side log has not performed (R283). DESIGN CHOICE (log 45): bytes and cells are the same where their
virtual addresses are. -/
def State.orderMet (s : State) (w : Wave) (o : Op) (k : Nat) (leaf : Leaf) : Bool :=
  let earlier := w.ops.filter fun e => decide (e.seq < o.seq)
  let logged := s.sideLog.filter fun e => e.wave == w.key && decide (e.seq < o.seq)
  let mine := o.pieces.filter fun x => x.part == k
  match leaf.kind with
  | 0 => (earlier.all fun e => (e.openParts 0).isEmpty) && logged.all fun e => !mayBe 0 e.leaf
  | 1 =>
    (earlier.all fun e => (e.openParts 1).all fun j =>
      (e.pieces.filter fun y => y.part == j).all fun y => mine.all fun x => !x.meets y.va y.len) &&
      logged.all fun e => !mayBe 1 e.leaf || mine.all fun x => !e.meets x
  | _ => true

/-- Cells: the parts of one wave to one cell perform in issue order (R200, R233, R281), those in the side log among them. -/
def State.cellsMet (s : State) (w : Wave) (o : Op) (cells : List Piece) : Bool :=
  let adds (y : Piece) : Bool := match y.job with | .cxAdd _ | .cxClear => true | _ => false
  ((w.ops.filter fun e => decide (e.seq < o.seq)).all fun e =>
    e.pieces.all fun y => !(adds y && y.mainOpen && !e.refusedAt y && !e.loggedAt y) || cells.all fun x => x.va != y.va) &&
    s.sideLog.all fun e => !(e.wave == w.key && decide (e.seq < o.seq) && e.cell.isSome) || cells.all fun x => x.va != e.va

/-- The marver cell of a piece: none where its cell, or its bytes, stand in main memory. -/
def Piece.marverCell (x : Piece) : Option LocalAt := if x.job.onCell then x.dst else none

/-- The bytes of a piece's cell. -/
def State.readCell (s : State) (l : Option Nat) (x : Piece) (m : MainAt) : List Byte :=
  match x.marverCell with
  | some p => s.readLocalBytes p 64
  | none => s.readMainBytes l m 64

/-- Writes a cell, whole. -/
def State.writeCell (s : State) (w : Wave) (x : Piece) (m : MainAt) (bytes : List Byte) : State :=
  match x.marverCell with
  | some p => ((s.readyLocal w p true).1).writeLocalBytes p bytes
  | none => s.storeIn (some w.launch) w.ctx m bytes true

/-- Does an operation write every byte of the aligned n bytes of main memory that hold an address? -/
def Op.covers (o : Op) (va n : Nat) : Bool :=
  (List.range n).all fun k => o.pieces.any fun y => y.job == .write && y.meets (va / n * n + k) 1

/-- Has an operation written, by now, every byte of the aligned 8 bytes that hold an address (R331)? -/
def Op.wrote (o : Op) (va : Nat) : Bool :=
  (List.range 8).all fun k => o.pieces.any fun y => y.job == .write && y.left.isEmpty && y.meets (va / 8 * 8 + k) 1

/-- An operation some of whose pieces, by number, have performed. -/
def Op.performed (o : Op) (done : List Nat) : Op :=
  { o with pieces := o.pieces.zipIdx.map fun (x, i) => if done.contains i then { x with left := [] } else x }

/-- Performs the main side of one piece at its place (R271), whose data no error has lost. `prev`: what the previous lane of the same operation left
at an atomic's location (R197, R376); `o`: the operation as it stands with this piece performed. -/
def State.performMain (s : State) (w : Wave) (o : Op) (m : MainAt) (x : Piece) (prev : Option Nat) : State × Piece :=
  let me := some w.launch
  let replayed (bs : List Byte) : List Byte := bs.zipIdx.map fun (b, k) => s.replayByte w o.retired (x.va + k) b
  match x.job with
  | .read => (s, { x with data := (replayed (s.readMainBytes me m x.data.length)).map some })
  | .write =>
    let s := s.storeIn me w.ctx m (x.data.map fun b => b.getD 0) (o.covers x.va 64)
    (if o.wrote x.va then s.healWord me m else s, { x with left := [] })
  | .atomic f operand compare =>
    let size := o.atomicSize
    let old := prev.getD (leNat (replayed (s.readMainBytes me m size)))
    let s := match atomicNew f size old operand compare with
      | some n => s.storeIn me w.ctx m (leBytes size n) false
      | none => s
    (s, { x with data := (leBytes size old).map some, left := [] })
  | .cxAdd v => (s.writeCell w x m (leBytes 64 ((CxCell.ofNat (leNat (s.readCell me x m))).add v).toNat), { x with left := [] })
  | .cxClear => (s.writeCell w x m (leBytes 64 0), { x with left := [] })
  | .cxRead =>
    let bytes := s.readCell me x m
    (s, { x with data := (if x.marverCell.isSome then bytes else replayed bytes).map some, left := [] })
  | .local_ => (s, x)

/-- What an atomic that has performed left at its location. -/
def Piece.after (x : Piece) (size : Nat) : Option Nat :=
  match x.job with
  | .atomic f operand compare =>
    let old := leNat (x.data.map fun b => b.getD 0)
    some ((atomicNew f size old operand compare).getD old)
  | _ => none

/-- Does a job consume what stands in main memory or its cell (R342)? A crucible add reads its cell. -/
def Job.consumes : Job → Bool
  | .read | .atomic _ _ _ | .cxRead | .cxAdd _ => true
  | _ => false

/-- Does a job read main memory (R372)? -/
def Job.reads : Job → Bool
  | .read | .atomic _ _ _ | .cxRead => true
  | _ => false

/-- The trace-log op code of an operation (R374). -/
def OpKind.traceOp : OpKind → Nat
  | .satomic _ | .vatomic _ => 1
  | .cxget _ => 2
  | _ => 0

/-- Records the lines that a part of a deterministic launch's read took (R375), in ascending address. -/
def State.recordPart (s : State) (w : Wave) (o : Op) (unit : Nat) (leaf : Leaf) (pieces : List Piece) : State :=
  let bytes := (pieces.filter fun x => x.job.reads).flatMap fun x => (List.range x.data.length).map fun k => x.va + k
  let lines := ((bytes.map fun va => va / 64 * 64).eraseDups)
  let sorted := lines.foldl (fun acc x => acc.filter (· < x) ++ x :: acc.filter (· > x)) []
  sorted.foldl (fun s ln =>
    let ext := match s.launch? w.launch with
      | some l => bytes.filter fun va =>
          let m : MainAt := ⟨unit, leaf.place va⟩
          va / 64 * 64 == ln && l.external.contains m.key && !s.ownByte l.key m
      | none => []
    let mask := (ext.eraseDups).foldl (fun acc va => acc ||| 2 ^ (va % 64)) 0
    (s.recordLine w.launch w o.retired o.kind.traceOp ln mask (s.readMainBytes (some w.launch) ⟨unit, leaf.place ln⟩ 64)).noteRead w ln
      o.retired) s

/-- The leaf under which a cell of the marver performs: none is needed. -/
def Leaf.none_ : Leaf := ⟨0, 0, 2, 0, true, true, true, true, 0⟩

/-- The pieces a free choice takes: all, or one. -/
def chosenPieces (pick : Option Nat) (l : List (Piece × Nat)) : List (Piece × Nat) :=
  match pick with
  | none => l
  | some n => if l.isEmpty then [] else (l[n % l.length]?).toList

/-- Of the atomics of one location, the first listed, the lowest lane's, performs first (R197). -/
def firstOfEach (l : List (Piece × Nat)) : List (Piece × Nat) :=
  l.filter fun (x, i) => match x.job with
    | .atomic _ _ _ => l.all fun (y, j) => y.va != x.va || decide (i ≤ j)
    | _ => true

/-- Is what a piece consumes lost (R342, R344)? -/
def State.pieceLost (s : State) (w : Wave) (m : MainAt) (x : Piece) : Bool :=
  x.job.consumes && match x.marverCell with
    | some p => ((localError s p).map SoftErr.lost).getD false
    | none => s.lost (some w.launch) m

/-- A piece's read of what it consumes corrects a single error there (R345, rung 1). -/
def State.soundPiece (s : State) (w : Wave) (m : MainAt) (x : Piece) : State :=
  if !x.job.consumes then s
  else match x.marverCell with
    | some p => (s.scanLocal w [p]).1
    | none => s.readLine (some w.launch) w.ctx m

/-- A part consumes data that are lost (R344, R345, rung 3): it performs nothing, and its line is marked. -/
def State.partLost (s : State) (w : Wave) (o : Op) (k : Nat) (m : MainAt) (x : Piece) : State :=
  let s := s.onWave w.key fun w => w.onOp o.key fun o => o.onPart k fun q => { q with status := .refused trapUE }
  let (s, addr, array) := match x.marverCell with
    | some p => (((localError s p).map fun e => s.markLocal p e).getD s, p.line, 0x05)
    | none => (s.markLost (some w.launch) m, m.pa / 64 * 64, 0x06)
  s.rung3 w.launch (some w.key) ⟨0x12, trapUE, addr, o.mask, o.mask.lowest w.W, false, none, o.pc, array, s.clock⟩

/-- Performs some or all pieces of a main part (R271, R275, R276). -/
def State.performPart (s : State) (w : Wave) (o : Op) (k : Nat) (q : Part) (leaf : Leaf) (pick : Option Nat) : State :=
  let unit := unitOf q.home
  let due := (o.pieces.zipIdx).filter fun (x, _) => x.part == k && x.mainDue
  let take := if s.deterministic w || pick.isNone then due else chosenPieces pick (firstOfEach due)
  let place (x : Piece) : MainAt := ⟨unit, if unit = 5 then x.va else leaf.place x.va⟩
  match take.find? fun (x, _) => s.pieceLost w (place x) x with
  | some (x, _) => s.partLost w o k (place x) x
  | none =>
    let s := take.foldl (fun s (x, _) => s.soundPiece w (place x) x) s
    let s := if s.deterministic w && decide (q.home ≠ 0xFF) then s.recordPart w o unit leaf (take.map Prod.fst) else s
    let s := if unit = 4 && take.any fun (x, _) => x.job != .read && x.job != .cxRead then { s with hostWrites := s.hostWrites + 1 } else s
    let (s, done) := take.foldl (fun (s, done) (x, i) =>
      let prev := (done.find? fun y => y.1.va == x.va).bind fun y => y.1.after o.atomicSize
      let (s, x) := s.performMain w (o.performed (i :: done.map Prod.snd)) (place x) x prev
      (s, (x, i) :: done)) (s, ([] : List (Piece × Nat)))
    s.onWave w.key fun w => w.onOp o.key fun o =>
      let pieces := o.pieces.zipIdx.map fun (x, i) => ((done.find? fun y => y.2 == i).map Prod.fst).getD x
      let o := { o with pieces := pieces }
      if pieces.any fun x => x.part == k && x.mainOpen then o else o.onPart k fun q => { q with status := .performed }

/-- One byte of the local side that may perform: a piece, a byte, and whether it is read. -/
structure LocalAct where
  piece : Nat
  byte : Nat
  read : Bool
  deriving DecidableEq, Repr

/-- The local acts that may perform: bytes to read from their source, and bytes carried that have a local destination (R274). -/
def Op.localActs (o : Op) : List LocalAct :=
  o.pieces.zipIdx.flatMap fun (x, i) =>
    let reads := if x.src.isSome then (x.data.zipIdx.filter fun (b, _) => b.isNone).map fun (_, k) => ⟨i, k, true⟩ else []
    let cell := match x.job with | .read | .local_ => true | _ => false
    let writes := if x.dst.isSome && cell then
      (x.left.filter fun k => (nth x.data k none).isSome).map fun k => ⟨i, k, false⟩ else []
    reads ++ writes

/-- The local bytes an operation writes. -/
def Op.localWrites (o : Op) : List LocalAt :=
  o.pieces.flatMap fun x => match x.dst with
    | some p => if x.job.onCell then [] else (List.range x.data.length).map p.plus
    | none => []

/-- Performs one local act. A read of lost data is consumed (R345). -/
def State.localAct (s : State) (w : Wave) (k : Nat) (act : LocalAct) : State :=
  match (s.wave? w.key).bind fun w => (w.op? k).bind fun o => (o.pieces[act.piece]?).map fun x => (o, x) with
  | none => s
  | some (o, x) =>
    let put (f : Piece → Piece) (s : State) : State :=
      s.onWave w.key fun w => w.onOp k fun o => { o with pieces := modifyAt o.pieces act.piece f }
    if act.read then
      match x.src with
      | some p =>
        let at_ := p.plus act.byte
        let (s, bad) := s.scanLocal w [at_]
        let s := put (fun x => { x with data := setAt x.data act.byte (some (s.readLocal at_)) }) s
        match bad with
        | some p => s.consumeLocal w o.pc o.mask p
        | none => s
      | none => s
    else
      match x.dst, (nth x.data act.byte none) with
      | some p, some b =>
        let at_ := p.plus act.byte
        put (fun x => { x with left := x.left.filter (· != act.byte) }) (s.storeLocal w at_ b 0xFF (coversWord o.localWrites at_))
      | _, _ => s

/-- Performs the local side of an operation: one act a free choice picks, or all until none is left (two rounds: what is read can then
be written). -/
def State.performLocal (s : State) (w : Wave) (o : Op) (pick : Option Nat) : State :=
  let run (s : State) (acts : List LocalAct) : State := acts.foldl (fun s a => s.localAct w o.key a) s
  match pick with
  | some n => if o.localActs.isEmpty then s else run s ((o.localActs[n % o.localActs.length]?).toList)
  | none =>
    let s := run s o.localActs
    match (s.wave? w.key).bind fun w => w.op? o.key with
    | some o => run s o.localActs
    | none => s

/-- Is a matrix operation at the head of the wave's matrix order (R216)? -/
def Wave.matrixHead (w : Wave) (o : Op) : Bool :=
  (w.ops.filter fun e => e.kind.isMatrix && !e.finishedAtTurn).head?.map Op.key == some o.key

/-- Has a matrix operation begun its tile accesses, or its reads or writes of local memory, without having ended them? -/
def Op.begun (o : Op) : Bool :=
  o.kind.isMatrix && !o.finishedAtTurn &&
    ((o.mat.map MatJob.done).getD false || o.pieces.any fun x => x.src.isSome && x.data.any Option.isSome)

/-- Does the matrix unit of a wave's partition serve an instruction of another wave (R216)? -/
def State.unitTaken (s : State) (w : Wave) : Bool :=
  s.waves.any fun v => v.key != w.key && v.core == w.core && v.partition == w.partition && v.ops.any Op.begun

/-- Has a matrix operation to wait for its turn at the unit? The parts of an `mdrx` perform after it. -/
def State.awaitsUnit (s : State) (w : Wave) (o : Op) : Bool :=
  o.kind.isMatrix && (!w.matrixHead o || s.unitTaken w) && !(o.kind == .mdrx && o.finishedAtTurn)

/-- Sets the status and leaf of a part. -/
def State.setPart (s : State) (wave op part : Nat) (st : PartStatus) (leaf : Option Leaf) : State :=
  s.onWave wave fun w => w.onOp op fun o => o.onPart part fun q => { q with status := st, leaf := leaf }

/-- Is a home unit on the die of a core? The host window is die 0's (R315, R322). -/
def ownDie (core unit : Nat) : Bool := core / 40 == unit || (unit == 4 && core / 40 == 0)

/-- A part that its home sends back (R322) is cut into its 64 KiB blocks again, each a part that is translated anew: its pieces return to the parts it
took in (R269), and one all of whose pieces have performed stays performed. Cells keep their part. -/
def Op.recut (o : Op) (part : Nat) (st : PartStatus) : Op :=
  match o.parts[part]? with
  | none => o
  | some q =>
    let home (x : Piece) : Nat :=
      if x.part == part && !x.job.onCell then
        ((o.parts.findIdx? fun y => y.home == q.home && y.page == pageOf x.va).getD part)
      else x.part
    let pieces := o.pieces.map fun x => { x with part := home x }
    let back (k : Nat) : Bool := k == part || o.pieces.any fun x => x.part == part && home x == k
    { o with
      pieces := pieces
      parts := o.parts.zipIdx.map fun (y, k) =>
        if !back k then y
        else if pieces.any fun x => x.part == k && x.mainOpen then { y with status := st, leaf := none }
        else { y with status := .performed } }

/-- Migration (R329): does a write or atomic of a part meet a line already copied? -/
def State.migratingLine (s : State) (q : Part) (leaf : Leaf) (x : Piece) : Bool :=
  x.job != .read && x.job != .cxRead && s.lineCopied ⟨unitOf q.home, leaf.place x.va⟩

/-- ENGINE_PART_PERFORM (R271): a part of an operation performs, whole or a piece a free choice picks. Part `parts.length` is the
operation's local side. Where a condition does not hold, nothing happens; the parts of an `mdrx` perform after its turn, and a matrix operation is alone
at its unit (R216). In deterministic mode the parts of one operation perform in ascending address, and a read waits for its launch's trace log
(R374). -/
def execEnginePartPerform (wave op part : Nat) (pick : Option Nat) (s : State) : Result :=
  match s.wave? wave with
  | none => .next s
  | some w =>
    match w.op? op with
    | none => .next s
    | some o =>
      if w.portBefore o.seq || !s.hasToken w || s.awaitsUnit w o then .next s
      else if part = o.parts.length then .next (s.performLocal w o (if s.deterministic w then none else pick))
      else match o.parts[part]? with
        | none => .next s
        | some q =>
          if q.status != .ready || (o.kind == .mdrx && !o.finishedAtTurn) then .next s
          else
            let mine := o.pieces.filter fun x => x.part == part
            let leaf := q.leaf.getD Leaf.none_
            let here := (o.partVa part).getD q.page
            let before (k : Nat) : Bool := decide ((o.partVa k).getD q.page < here)
            let main := decide (q.home ≠ 0xFF)
            if main && (!s.orderMet w o part leaf || s.logsFirst w.ctx q.home here leaf) then .next s
            else if s.deterministic w && ((o.parts.zipIdx).any fun (y, k) => before k && !y.settled) then .next s
            else if (match o.kind with | .cxadd | .cxclr | .mdrx => !s.cellsMet w o mine | _ => false) then .next s
            else if main && isPeerHome q.home && !s.peerUp ((q.home - 0x10) / 4) then
              .next (s.setPart wave op part (.replied trapACCESS 0) none)
            else if main && mine.any fun x => s.migratingLine q leaf x then
              if ownDie w.core (unitOf q.home) then .next s
              else
                let (t, s) := s.retryClocks
                .next (s.onWave wave fun w => w.onOp op fun o => o.recut part (.retryAfter (s.clock + t)))
            else match if main && mine.any (fun x => x.job.reads) then (s.launch? w.launch).bind s.logHolds else none with
              | some e => .next (s.deviceFailed w.ctx 1 e)
              | none =>
                let s := if main && mine.any (fun x => x.job.reads) then s.tookLog w.launch else s
                .next (s.performPart w o part q leaf pick)

/-! ### Requests at a home (R319-R324) -/

/-- What an operation's parts need (R319). -/
def OpKind.need : OpKind → Need
  | .cpin | .cpgat | .cplocal => .read
  | .cpout | .cpsca | .cpfill => .write
  | _ => .atomic

/-- Is the part a write that a fault sends to the side log (R324)? -/
def OpKind.logs : OpKind → Bool
  | .cpout | .cpsca | .cpfill | .cxadd | .cxclr | .mdrx => true
  | _ => false

/-- Fault record op code (R323). -/
def OpKind.faultOp : OpKind → Nat
  | .cpin | .cpgat => 0
  | .cpout | .cpsca | .cpfill => 1
  | .satomic _ | .vatomic _ => 2
  | _ => 3

/-- The expected tier of a copy's main side (R207). -/
def Op.expectedTier (o : Op) : Option Nat :=
  match o.kind with
  | .cpin | .cpout | .cpgat | .cpsca | .cpfill => some o.tier
  | _ => none

/-- Has a part not been answered yet? -/
def Part.unanswered (q : Part) : Bool :=
  match q.status with
  | .pending | .walking | .retryAfter _ => true
  | _ => false

/-- The parts of an operation whose blocks lie on the page that a leaf now shows join the part that was translated (R269); cells keep theirs. -/
def Op.absorb (o : Op) (part : Nat) (l : Leaf) : Op :=
  match o.parts[part]? with
  | none => o
  | some q =>
    let cell (k : Nat) : Bool := o.pieces.any fun x => x.part == k && x.job.onCell
    let joins (y : Part) (k : Nat) : Bool := k != part && y.home == q.home && samePage l.size y.page q.page && y.unanswered && !cell k
    if cell part then o
    else
      let gone := (o.parts.zipIdx.filter fun (y, k) => joins y k).map Prod.snd
      { o with
        parts := o.parts.zipIdx.map fun (y, k) => if gone.contains k then { y with status := .performed } else y
        pieces := o.pieces.map fun (x : Piece) => if gone.contains x.part then { x with part := part } else x }

/-- A home's answer to a part from a walk or a cached entry (R319, R323, R331). -/
def State.answer (s : State) (w : Wave) (o : Op) (part : Nat) (q : Part) (r : WalkResult) : State :=
  match r with
  | .leaf l =>
    let s := s.onWave w.key fun w => w.onOp o.key fun o => o.absorb part l
    match s.checkLeaf q.home l q.page o.kind.need o.expectedTier with
    | some c => s.setPart w.key o.key part (.replied c 0) (some l)
    | none => s.setPart w.key o.key part .ready (some l)
  | .malformed => s.setPart w.key o.key part (.replied trapACCESS 0) none
  | .poisoned table i => (s.reportPoison w.ctx q.home w.core table i).setPart w.key o.key part (.replied trapXLATEUE i) none
  | .invalid level =>
    let (s, tag) := s.raiseFault (unitOf q.home) w.ctx ((o.firstVa part).getD q.page) level o.kind.faultOp w.core
    s.setPart w.key o.key part (.held tag) none

/-- A peer's home answers as it will: accepts the part under any kind, perhaps with a lease on the page (R327), refuses it, or asks to send
it again (log 18). -/
def State.answerPeer (s : State) (w : Wave) (o : Op) (part : Nat) (q : Part) : State :=
  let (n, s) := s.draw
  let x := (Config.freeWord n).toNat
  match x % 4 with
  | 0 => s.setPart w.key o.key part (.replied trapACCESS 0) none
  | 1 =>
    let (t, s) := s.retryClocks
    s.setPart w.key o.key part (.retryAfter (s.clock + t)) none
  | _ =>
    let s := if x / 16 % 2 = 1 then { s with heldLeases := ⟨(q.home - 0x10) / 4, w.ctx, q.page⟩ :: s.heldLeases } else s
    s.setPart w.key o.key part .ready (some ⟨q.page, 0, x / 4 % 3, o.tier, true, true, true, false, 0⟩)

/-- A request that misses asks for a walk (R322): one under way serves it; one of the home's own die waits in the order of arrival, and another's
begins only while the unit has room. -/
def Home.ask (h : Home) (x : Walk) : Home :=
  let same (y : Walk) : Bool := y.ctx == x.ctx && y.va == x.va
  if h.walks.any same then { h with walks := h.walks.map fun y => if same y && x.own then { y with own := true } else y }
  else if x.own || decide (h.walks.length < Config.walksPerHome) then { h with walks := h.walks ++ [x] }
  else h

/-- Takes the note that a walk for a refused request found no leaf: true where there was one, so that the request is now answered. -/
def State.takeWalked (s : State) (unit ctx va : Nat) : State × Bool :=
  let x := (ctx, pageOf va)
  (s.onHome unit fun h => { h with walked := h.walked.filter (· != x) }, (s.home unit).walked.contains x)

/-- Caches a leaf at a home unit (R321). R321 lets a home cache what it has read: the model's caches every leaf that a walk finds, caches no entry of
type 1, and drops a leaf for XINVAL, MIGRATE and poison alone (DESIGN CHOICE, log 35). -/
def State.cacheLeaf (s : State) (unit ctx va : Nat) (l : Leaf) : State :=
  s.onHome unit fun h => { h with cache := ⟨ctx, pageOf va, l⟩ :: h.cache.filter fun c => !(c.ctx == ctx && c.va == pageOf va) }

/-- A walk made to answer a request: its leaf is cached. -/
def State.freshWalk (s : State) (ctx home va : Nat) : State × WalkResult :=
  let r := s.walk ctx home va
  (match r with | .leaf l => s.cacheLeaf (unitOf home) ctx va l | _ => s, r)

/-- HOME_REQUEST (R315, R319, R322): a pending part reaches its home. A miss of the home's own die waits for the walk; another's is
refused with retry-after, and the walk starts if there is room. The parts of an `mdrx` are requested after its turn. -/
def execHomeRequest (wave op part : Nat) (s : State) : Result :=
  match s.wave? wave with
  | none => .next s
  | some w =>
    match (w.op? op).bind fun o => (o.parts[part]?).map fun q => (o, q) with
    | none => .next s
    | some (o, q) =>
      if q.status != .pending || (o.kind == .mdrx && !o.finishedAtTurn) then .next s
      else
        let h := q.home
        let reserved := !(decide (h < Config.dies) || h == 0x80 || isPeerHome h) || q.page / 2 ^ 48 % 256 != 0
        if reserved then .next (s.setPart wave op part (.replied trapACCESS 0) none)
        else if isPeerHome h then
          if !(nth s.faccept 0 0).getLsbD 4 || !s.peerUp ((h - 0x10) / 4) then .next (s.setPart wave op part (.replied trapACCESS 0) none)
          else .next (s.answerPeer w o part q)
        else
          let u := unitOf h
          match (s.home u).cached w.ctx q.page with
          | some l => .next (s.answer w o part q (.leaf l))
          | none =>
            let own := ownDie w.core u
            match s.takeWalked u w.ctx q.page with
            | (s, true) =>
              let (s, r) := s.freshWalk w.ctx h q.page
              .next (s.answer w o part q r)
            | (s, false) =>
              let s := s.onHome u fun x => x.ask ⟨w.ctx, q.page, (o.firstVa part).getD q.page, o.kind.faultOp, w.core, own⟩
              if own then .next (s.setPart wave op part .walking none)
              else
                let (t, s) := s.retryClocks
                .next (s.setPart wave op part (.retryAfter (s.clock + t)) none)

/-- RETRY_AFTER_RESEND (R322): after its hint a part is sent again. -/
def execRetryAfterResend (wave op part : Nat) (s : State) : Result :=
  match s.wave? wave with
  | none => .next s
  | some w =>
    match (w.op? op).bind fun o => o.parts[part]? with
    | none => .next s
    | some q =>
      match q.status with
      | .retryAfter t => if s.clock < t then .next s else .next (s.setPart wave op part .pending none)
      | _ => .next s

/-- A walk whose request was refused ends without a leaf: a type 0 entry raises its fault (R323), a poisoned one is reported (R331), and the home
answers the request when it comes again (log 13). -/
def State.walkFailed (s : State) (home : Nat) (x : Walk) (r : WalkResult) : State :=
  let u := unitOf home
  let s := s.onHome u fun h => { h with walked := (x.ctx, x.va) :: h.walked.filter (· != (x.ctx, x.va)) }
  match r with
  | .invalid level => (s.raiseFault u x.ctx x.asked level x.op x.source).1
  | .poisoned table i => s.reportPoison x.ctx home x.source table i
  | _ => s

/-- WALK_COMPLETE (R321, R322): a walk in flight ends, those of the home's own die in the order of arrival; a leaf is cached, and the parts that
waited for it are answered. -/
def execWalkComplete (home ctx va : Nat) (s : State) : Result :=
  let u := unitOf home
  let walks := (s.home u).walks
  match walks.zipIdx.find? fun x => x.1.ctx == ctx && x.1.va == va with
  | none => .next s
  | some (x, k) =>
    if decide (k ≥ Config.walksPerHome) || (x.own && (walks.take k).any Walk.own) then .next s
    else
      let s := s.onHome u fun h => { h with walks := h.walks.filter (· != x) }
      let (s, r) := s.freshWalk ctx home va
      let waiting := s.waves.flatMap fun w => w.ops.flatMap fun o =>
        (o.parts.zipIdx.filter fun (q, _) => q.status == .walking && w.ctx == ctx && q.home == home && q.page == va).map
          fun (q, k) => (w, o, k, q)
      let s := waiting.foldl (fun s (w, o, k, q) => s.answer w o k q r) s
      match r with
      | .leaf _ => .next s
      | _ => .next (if waiting.isEmpty then s.walkFailed home x r else s)

/-! ### Side log (R283, R324) -/

/-- Enters a byte in a list by rising address; of two for one address the later stays. -/
def insertByte : List (Nat × Byte) → Nat × Byte → List (Nat × Byte)
  | [], x => [x]
  | y :: ys, x => if x.1 < y.1 then x :: y :: ys else if x.1 = y.1 then x :: ys else y :: insertByte ys x

/-- Cuts bytes by rising address into entries: each begins at the first byte left and takes those of the four lines from its own on, at most 256,
so that no line is cut (DESIGN CHOICE, log 45). -/
def logWindows (bytes : List (Nat × Byte)) : List (List (Nat × Byte)) :=
  (bytes.foldl (fun acc x => match acc with
    | (y :: ys) :: more => if x.1 < y.1 / 64 * 64 + 256 then (y :: ys ++ [x]) :: more else [x] :: acc
    | _ => [x] :: acc) ([] : List (List (Nat × Byte)))).reverse

/-- Does a piece write main memory? -/
def Piece.writesMain (x : Piece) : Bool :=
  match x.job with
  | .read | .local_ | .cxRead => false
  | _ => true

/-- Has the wave an earlier write to a byte of these pieces that is neither performed nor logged, so that logging them would turn the two round (R200,
R275)? -/
def Wave.writesBefore (w : Wave) (o : Op) (mine : List Piece) : Bool :=
  (w.ops.filter fun e => decide (e.seq < o.seq)).any fun e =>
    e.pieces.any fun y => y.writesMain && y.mainOpen && !e.refusedAt y && !e.loggedAt y && mine.any fun x => x.meets y.va y.len

/-- SIDE_LOG (R324): a write part held by a translation fault enters its core's side log when all the entries it needs are free; it then
counts as complete. It waits, as a part that performs does, for the wave's earlier port accesses (DESIGN CHOICE, log 45). -/
def execSideLog (wave op part : Nat) (s : State) : Result :=
  match s.wave? wave with
  | none => .next s
  | some w =>
    match (w.op? op).bind fun o => (o.parts[part]?).map fun q => (o, q) with
    | none => .next s
    | some (o, q) =>
      match q.status with
      | .held (some tag) =>
        let mine := o.pieces.filter fun x => x.part == part && !x.left.isEmpty
        let writes := mine.filter fun x => x.job == .write
        let cells := mine.filter fun x => x.job != .write
        let bytes := (writes.flatMap fun x => x.data.zipIdx.map fun (b, k) => (x.va + k, b.getD 0)).foldl insertByte []
        let windows := logWindows bytes
        let used := (s.sideLog.filter fun e => e.core == w.core).length
        let unread := writes.any fun x => x.data.any Option.isNone
        if !o.kind.logs || w.portBefore o.seq || unread || w.writesBefore o mine ||
            decide (used + windows.length + cells.length > Config.sideLogEntries) then .next s
        else
          let entry (n : Nat) (va : Nat) (data : List (Nat × Byte)) (cell : Option Job) (mask : Mask) : LogEntry :=
            ⟨s.nextKey + n, w.core, w.key, w.launch, w.ctx, q.home, tag, va, data, cell, o.seq, o.rank, o.ctr.getD 2, mask, o.expectedTier, none⟩
          let logs := windows.zipIdx.map fun (bs, k) => entry k ((bs.head?.map Prod.fst).getD q.page) bs none o.mask
          let cellLogs := cells.zipIdx.map fun (x, k) => entry (windows.length + k) x.va [] (some x.job) (w.pairUp (Mask.single x.lane))
          let s := { s with sideLog := s.sideLog ++ logs ++ cellLogs, nextKey := s.nextKey + windows.length + cells.length }
          .next (s.setPart wave op part .logged none)
      | _ => .next s

/-- The addresses of the bytes an entry writes. -/
def LogEntry.bytes (e : LogEntry) : List Nat := if e.cell.isSome then (List.range 64).map (e.va + ·) else e.data.map Prod.fst

/-- Does an entry, mapped under `l`, perform after another: an older one of its wave to a byte of it (R283) or, on S pages, any older one, but no part
of the wave still open outside the log (R275; DESIGN CHOICE, log 45)? -/
def LogEntry.follows (e : LogEntry) (l : Leaf) (y : LogEntry) : Bool :=
  y.wave == e.wave && decide (y.key < e.key) &&
    (y.bytes.any e.bytes.contains || (l.kind == 0 && decide (y.seq < e.seq) && (y.leaf.map fun x => x.kind == 0).getD false))

/-- Must an entry, mapped under `l`, wait: for one that performs before it, or for a line that a migration has copied (R329)? -/
def State.replayWaits (s : State) (e : LogEntry) (l : Leaf) : Bool :=
  s.sideLog.any (e.follows l) || e.bytes.any fun a => s.lineCopied ⟨unitOf e.home, l.place a⟩

/-- The error in the core's log word that holds an entry (R337). -/
def State.entryError (s : State) (e : LogEntry) : Option SoftErr := s.softErrors.find? fun x => x.site == ErrSite.sideLog e.core e.key

/-- An entry whose data, or the cell they go to, are lost: consumption, rung 3 (R345; DESIGN CHOICE, log 43). -/
def State.logLost (s : State) (e : LogEntry) (addr array : Nat) : State :=
  s.rung3 e.launch (some e.wave) ⟨0x12, trapUE, addr, e.mask, e.mask.lowest 1024, false, none, 0, array, s.clock⟩

/-- Performs an entry at its home, line by line (R331, R344). -/
def State.storeLogged (s : State) (e : LogEntry) (l : Leaf) : State :=
  let u := unitOf e.home
  let me := some e.launch
  match e.cell with
  | none =>
    ((e.data.map fun x => x.1 / 64 * 64).eraseDups).foldl (fun s line =>
      let mine := e.data.filter fun x => x.1 / 64 * 64 == line
      let whole := decide (mine.length ≥ 64)
      if whole then s.storeIn me e.ctx ⟨u, l.place line⟩ (mine.map Prod.snd) true
      else mine.foldl (fun s x =>
        let m : MainAt := ⟨u, l.place x.1⟩
        let s := s.storeIn me e.ctx m [x.2] false
        if (mine.filter fun y => y.1 / 8 == x.1 / 8).length = 8 then s.healWord me m else s) s) s
  | some (.cxAdd v) =>
    let m : MainAt := ⟨u, l.place e.va⟩
    if s.lost me m then (s.markLost me m).logLost e (m.pa / 64 * 64) 0x06
    else
      let s := s.readLine me e.ctx m
      s.storeIn me e.ctx m (leBytes 64 ((CxCell.ofNat (leNat (s.readMainBytes me m 64))).add v).toNat) true
  | some _ => s.storeIn me e.ctx ⟨u, l.place e.va⟩ (leBytes 64 0) true

/-- SIDE_LOG_REPLAY (R271, R283, R325): an entry that RESOLVE has mapped performs at its home, under the entry then in force (R333). -/
def execSideLogReplay (core entry : Nat) (s : State) : Result :=
  match s.sideLog.find? fun e => e.core == core && e.key == entry with
  | none => .next s
  | some e =>
    match e.leaf with
    | none => .next s
    | some l =>
      if s.replayWaits e l then .next s
      else
        let error := s.entryError e
        let s := { s with
          sideLog := s.sideLog.filter fun y => y.key != e.key
          softErrors := s.softErrors.filter fun x => x.site != ErrSite.sideLog e.core e.key }
        let s := if (error.map SoftErr.lost).getD true then s else s.corrected e.ctx none
        if (error.map SoftErr.lost).getD false then .next (s.logLost e 0 0)
        else match s.checkLeaf e.home l e.va (if e.cell.isSome then .atomic else .write) e.tier with
        | some c => .next (s.respond e.wave e.launch e.ctx e.core e.seq e.rank e.ctr e.mask c 0 e.va true)
        | none =>
          let s := if unitOf e.home = 4 then { s with hostWrites := s.hostWrites + 1 } else s
          .next (s.storeLogged e l)

/-! ### Retiring, returning, responses -/

/-- COUNTER_RETIRE (R209, R271): the oldest operation of a counter has completed and leaves its queue. -/
def execCounterRetire (wave ctr : Nat) (s : State) : Result :=
  match s.wave? wave with
  | none => .next s
  | some w =>
    match w.ops.find? fun o => o.ctr == some ctr with
    | none => .next s
    | some o => if o.complete then .next (s.onWave wave fun w => { w with ops := w.ops.filter fun e => e.key != o.key }) else .next s

/-- Have all values of an atomic returned, or been refused, with every response delivered? -/
def Op.answered (o : Op) : Bool := o.piecesDone && o.parts.all Part.settled

/-- The values of an atomic are back, or refused, in every lane (R141, R197): D receives them, a refused lane keeping its operand, and is full. Before
that, or for an operation that returns nothing, nothing happens. -/
def State.returnAtomic (s : State) (wave op : Nat) : State :=
  match s.wave? wave with
  | none => s
  | some w =>
    match w.op? op with
    | none => s
    | some o =>
      if !o.answered || o.returned then s
      else
        let got := o.pieces.filter fun x => x.done && !o.refusedAt x
        let value (x : Piece) : Nat := leNat (x.data.map fun b => b.getD 0)
        let finish (w : Wave) : Wave :=
          let w := w.onOp op fun o => { o with returned := true }
          if o.ctr.isNone then { w with ops := w.ops.filter fun e => e.key != op } else w
        match o.kind with
        | .satomic d =>
          (if got.isEmpty then s else s.clearScalar w d).onWave wave fun w =>
            let w := match got with | x :: _ => w.putS d (BitVec.ofNat 64 (value x)) (BitVec.ofNat 64 (value x)) | [] => w
            finish (w.markS d false)
        | .vatomic d =>
          let on := w.pairUp (Mask.ofLanes (got.map Piece.lane))
          let word (i : Nat) : Word32 :=
            BitVec.ofNat 32 (((got.find? fun x => x.lane == w.primary (w.visible i)).map value).getD 0)
          (s.clearWritten w d on).onWave wave fun w => finish ((w.writeV d on word .general).markV d false)
        | .cxget _ => s.onWave wave fun w => w.onOp op fun o => { o with returned := true }
        | _ => s

/-- ATOMIC_RETURN (R141, R197): every value has returned. -/
def execAtomicReturn (wave op : Nat) (s : State) : Result := .next (s.returnAtomic wave op)

/-- ERROR_RESPONSE (R208, R332, R201): a part's error response reaches the wave; it performs nothing and is complete. Where it is the last answer an
atomic waited for, D is full as it arrives (R141, R197). A `cxget`'s is not deferred. The trap mask of an atomic or a crucible add
holds the lanes whose bytes or cells were refused with this part (DESIGN CHOICE, log 23). -/
def execErrorResponse (wave op part : Nat) (s : State) : Result :=
  match s.wave? wave with
  | none => .next s
  | some w =>
    match (w.op? op).bind fun o => (o.parts[part]?).map fun q => (o, q) with
    | none => .next s
    | some (o, q) =>
      match q.status with
      | .replied c i =>
        let mine := o.pieces.filter fun x => x.part == part && x.mainOpen
        let va := (o.firstVa part).getD q.page
        let lanes := match o.kind with
          | .vatomic _ | .cxadd | .cxclr | .mdrx => w.pairUp (Mask.ofLanes (mine.map Piece.lane))
          | _ => o.mask
        let s := s.setPart wave op part (.refused c) none
        let deferred := match o.kind with | .cxget _ => false | _ => true
        .next ((s.respond wave w.launch w.ctx w.core o.seq o.rank (o.ctr.getD 2) lanes c i va deferred).returnAtomic wave op)
      | _ => .next s

end Sys2Proof.Machine
end

