-- ==== Sys2Proof/Machine/Atomics.lean ====
section
/-! DEFINITION. Atomics (R140, R141, R196, R197). A local lane performs at the wave's port, a main-memory lane at its home; ATOMIC_RETURN
writes D. -/

namespace Sys2Proof.Machine

/-- Is a 64-bit address local (R141, R197)? -/
def isLocal64 (e : Nat) : Bool := decide (e / 2 ^ 56 % 256 = 0xFF)

/-- The bounds check of one local 64-bit address of `size` bytes (R141, R197, R198): the failing address. -/
def State.outside64 (s : State) (w : Wave) (e size : Nat) : Option Nat :=
  if !isLocal64 e then none
  else if e / 2 ^ 32 % 2 ^ 24 ≠ 0 then some e
  else if (s.resolve w (e % 2 ^ 32) size).isNone then some (e % 2 ^ 32)
  else none

/-- The address a check reports of a 64-bit address: the local address, or the whole one. -/
def reported64 (e : Nat) : Nat := if isLocal64 e then e % 2 ^ 32 else e

/-- The address checks over lanes, bounds first (R186, R197). -/
def State.check64 (s : State) (w : Wave) (lanes : List Nat) (e : Nat → Nat) (size : Nat) : Option Refused :=
  match refusedOf trapLOCALBOUND (lanes.filterMap fun i => (s.outside64 w (e i) size).map fun x => (i, x)) with
  | some r => some r
  | none => refusedOf trapALIGN ((lanes.filter fun i => e i % size != 0).map fun i => (i, reported64 (e i)))

/-- One lane's atomic as a piece. -/
def State.atomicPiece (s : State) (w : Wave) (lane e size : Nat) (f : AtomicFn) (operand compare : Nat) : Piece :=
  ⟨0, e, none, if isLocal64 e then some (s.placeOf w (e % 2 ^ 32) size) else none, List.replicate size none, [0],
    .atomic f operand compare, lane⟩

/-- Issues an atomic whose checks have passed: D becomes empty, the operation joins its queue or, counted nowhere, waits for the
port, and the interval of R245 opens. -/
def State.atomicDone (s : State) (w : Wave) (p : Split) (kind : OpKind) (mask : Mask) (pieces : List Piece) : Result :=
  let main := pieces.any fun x => !isLocal64 x.va
  if main && w.counterFull 3 then .next s
  else
    let (s, v, key) := s.addOp w p (if main then some 3 else none) kind mask pieces none 0
    let v := if pieces.any fun x => isLocal64 x.va then v.pushPort p (.atomic key) else v
    s.done v (p.opens w)

/-- A scalar atomic (R140, R141). -/
def scalarAtomic (i : Instr) (d a b : Byte) (f : AtomicFn) (s : State) : Result :=
  issueWord i s fun s w p =>
    let e := w.S a.toNat
    let x := w.S b.toNat
    let c := w.S d.toNat
    if e ≠ w.Sh a.toNat ∨ x ≠ w.Sh b.toNat ∨ (f = .cas ∧ c ≠ w.Sh d.toNat) then s.mismatch w p 0 true
    else match s.outside64 w e.toNat 8 with
    | some bad => s.trapAt w p trapLOCALBOUND bad (w.active p)
    | none =>
      if e.toNat % 8 ≠ 0 then s.trapAt w p trapALIGN (reported64 e.toNat) (w.active p)
      else
        s.atomicDone (w.markS (w.sidx d.toNat) true) p (.satomic (w.sidx d.toNat)) (w.active p)
          [s.atomicPiece w (p.lanes.lowest w.W) e.toNat 8 f x.toNat c.toNat]

/-- `satadd` (R140). -/
def execSatadd (d a b : Byte) (s : State) : Result := scalarAtomic (.satadd d a b) d a b .add s
/-- `satxchg` (R140). -/
def execSatxchg (d a b : Byte) (s : State) : Result := scalarAtomic (.satxchg d a b) d a b .xchg s
/-- `satcas` (R140). -/
def execSatcas (d a b : Byte) (s : State) : Result := scalarAtomic (.satcas d a b) d a b .cas s
/-- `satmin` (R140). -/
def execSatmin (d a b : Byte) (s : State) : Result := scalarAtomic (.satmin d a b) d a b .min s
/-- `satmax` (R140). -/
def execSatmax (d a b : Byte) (s : State) : Result := scalarAtomic (.satmax d a b) d a b .max s
/-- `satand` (R140). -/
def execSatand (d a b : Byte) (s : State) : Result := scalarAtomic (.satand d a b) d a b .and s
/-- `sator` (R140). -/
def execSator (d a b : Byte) (s : State) : Result := scalarAtomic (.sator d a b) d a b .or s
/-- `satxor` (R140). -/
def execSatxor (d a b : Byte) (s : State) : Result := scalarAtomic (.satxor d a b) d a b .xor s

/-- E[i] = (S(A) + B[i]) mod 2^64 (R196). -/
def Wave.eaddr (w : Wave) (a b : Byte) (i : Nat) : Nat :=
  ((if w.isShadow i then w.Sh a.toNat else w.S a.toNat) + (w.src b .raw i).setWidth 64).toNat

/-- A per-lane atomic (R196, R197). With no active lane every value has returned at once. -/
def laneAtomic (i : Instr) (d a b : Byte) (f : AtomicFn) (s : State) : Result :=
  issueWord i s fun s w p =>
    let on := w.active p
    let e := w.eaddr a b
    let operand (l : Nat) : Nat := (w.V_ d.toNat l).toNat
    let other (l : Nat) : Nat := if f = .cas then (w.V_ (d.toNat + 1) l).toNat else 0
    let bad := w.differing on fun l => e l + 2 ^ 64 * (operand l + 2 ^ 32 * other l)
    if bad ≠ 0 then s.mismatch w p bad false
    else match s.check64 w (w.list on) e 4 with
    | some r => s.trapAt w p r.cause r.addr r.mask
    | none =>
      let lanes := w.performers on
      if lanes = [] then s.done (w.writeV d.toNat 0 (fun _ => 0) .general).counted (p.opens w)
      else
        let piece (l : Nat) : Piece :=
          if f = .cas then s.atomicPiece w l (e l) 4 f (other l) (operand l) else s.atomicPiece w l (e l) 4 f (operand l) 0
        s.atomicDone (w.markV d.toNat true) p (.vatomic d.toNat) on (lanes.map piece)

/-- `vatadd` (R196). -/
def execVatadd (d a b : Byte) (s : State) : Result := laneAtomic (.vatadd d a b) d a b .add s
/-- The comparison of `vatmin` and `vatmax`: signed in an int class, unsigned in an index class (R196). -/
def Wave.atomicSigned (w : Wave) : Bool := w.C.kind == .int
/-- Does the issuing wave compare signed? -/
def State.frontSigned (s : State) : Bool := (s.waves.head?.map Wave.atomicSigned).getD true
/-- `vatmin` (R196). -/
def execVatmin (d a b : Byte) (s : State) : Result :=
  laneAtomic (.vatmin d a b) d a b (if s.frontSigned then .min else .minu) s
/-- `vatmax` (R196). -/
def execVatmax (d a b : Byte) (s : State) : Result :=
  laneAtomic (.vatmax d a b) d a b (if s.frontSigned then .max else .maxu) s
/-- `vatand` (R196). -/
def execVatand (d a b : Byte) (s : State) : Result := laneAtomic (.vatand d a b) d a b .and s
/-- `vator` (R196). -/
def execVator (d a b : Byte) (s : State) : Result := laneAtomic (.vator d a b) d a b .or s
/-- `vatxchg` (R196). -/
def execVatxchg (d a b : Byte) (s : State) : Result := laneAtomic (.vatxchg d a b) d a b .xchg s
/-- `vatcas` (R196). -/
def execVatcas (d a b : Byte) (s : State) : Result := laneAtomic (.vatcas d a b) d a b .cas s

end Sys2Proof.Machine
end

