-- ==== Sys2Proof/Machine/Digest.lean ====
section
/-! DEFINITION. SHA-512, which R97, R400 and R402 name and do not define: as FIPS 180-4 gives it (log 10). -/

namespace Sys2Proof.Machine

/-- The first 80 primes. -/
def shaPrimes : List Nat := (List.range 410).filter fun n => decide (2 ≤ n) && (List.range n).all fun d => decide (d < 2) || n % d != 0

/-- The greatest number whose cube is at most n, for n below 2^204. -/
def cubeRoot (n : Nat) : Nat := (List.range 68).foldr (fun k r => if (r + 2 ^ k) ^ 3 ≤ n then r + 2 ^ k else r) 0

/-- The round constants: the first 64 fraction bits of the cube roots of the primes. -/
def shaK : List Word64 := shaPrimes.map fun p => BitVec.ofNat 64 (cubeRoot (p * 2 ^ 192))

/-- The eight chaining words. -/
structure Sha where
  a : Word64
  b : Word64
  c : Word64
  d : Word64
  e : Word64
  f : Word64
  g : Word64
  h : Word64
  deriving DecidableEq, Repr

/-- Their start: the first 64 fraction bits of the square roots of the first eight primes. -/
def Sha.start : Sha :=
  let r (p : Nat) : Word64 := BitVec.ofNat 64 (Nat.sqrt (p * 2 ^ 128))
  ⟨r 2, r 3, r 5, r 7, r 11, r 13, r 17, r 19⟩

/-- Word-wise sum. -/
def Sha.plus (x y : Sha) : Sha := ⟨x.a + y.a, x.b + y.b, x.c + y.c, x.d + y.d, x.e + y.e, x.f + y.f, x.g + y.g, x.h + y.h⟩

/-- One round with constant plus schedule word `kw`. -/
def Sha.round (s : Sha) (kw : Word64) : Sha :=
  let s1 := s.e.rotateRight 14 ^^^ s.e.rotateRight 18 ^^^ s.e.rotateRight 41
  let ch := (s.e &&& s.f) ^^^ (~~~s.e &&& s.g)
  let t1 := s.h + s1 + ch + kw
  let s0 := s.a.rotateRight 28 ^^^ s.a.rotateRight 34 ^^^ s.a.rotateRight 39
  let maj := (s.a &&& s.b) ^^^ (s.a &&& s.c) ^^^ (s.b &&& s.c)
  ⟨t1 + (s0 + maj), s.a, s.b, s.c, s.d + t1, s.e, s.f, s.g⟩

/-- Extends a schedule, newest word first, by one word. -/
def shaExtend (w : List Word64) : List Word64 :=
  let x := nth w 1 0
  let y := nth w 14 0
  let s1 := x.rotateRight 19 ^^^ x.rotateRight 61 ^^^ (x >>> 6)
  let s0 := y.rotateRight 1 ^^^ y.rotateRight 8 ^^^ (y >>> 7)
  (s1 + nth w 6 0 + s0 + nth w 15 0) :: w

/-- Big-endian number of bytes. -/
def beNat (bs : List Byte) : Nat := leNat bs.reverse

/-- Compresses one block of 128 bytes. -/
def Sha.block (s : Sha) (bs : List Byte) : Sha :=
  let w := (List.range 16).foldl (fun acc k => BitVec.ofNat 64 (beNat ((bs.drop (8 * k)).take 8)) :: acc) ([] : List Word64)
  let w := ((List.range 64).foldl (fun acc _ => shaExtend acc) w).reverse
  s.plus ((w.zip shaK).foldl (fun s x => s.round (x.2 + x.1)) s)

/-- The padded message. -/
def shaPad (bs : List Byte) : List Byte :=
  bs ++ [0x80#8] ++ List.replicate ((239 - bs.length % 128) % 128) 0 ++ (leBytes 16 (8 * bs.length)).reverse

/-- SHA-512 of bytes: 64 bytes. -/
def sha512 (bs : List Byte) : List Byte :=
  let m := shaPad bs
  let s := (List.range (m.length / 128)).foldl (fun s k => s.block ((m.drop (128 * k)).take 128)) Sha.start
  [s.a, s.b, s.c, s.d, s.e, s.f, s.g, s.h].flatMap fun (x : Word64) => (leBytes 8 x.toNat).reverse

end Sys2Proof.Machine
end

