-- ==== Sys2Proof/Machine/Place.lean ====
section
/-! DEFINITION. A wave as it is created (R16, R17, R36, R57), and the smallest launch that holds one word of code: how a program is
placed where `step` fetches (log 2). -/

namespace Sys2Proof.Machine

/-- The architectural state of a wave at creation, before its deal (R16, R36, R57, R214). -/
def Arch.created (o : Object) : Arch where
  splits := []
  entries := []
  live := 0
  drain := false
  fresh := 0
  lanes := List.replicate o.width Lane.blank
  vregs := List.replicate 192 (VReg.zero o.width)
  preds := List.replicate 16 0
  sregs := List.replicate 256 0
  sshadow := if o.tier = 2 then List.replicate 256 0 else []
  tiles := List.replicate o.acc ⟨List.replicate 1024 0, false⟩
  twins := if o.tier = 2 then List.replicate o.acc ⟨List.replicate 1024 0, false⟩ else []
  mr := 0
  mx := 0
  ns := 0
  sp := 0
  mxbase := 0
  mxplane := 0
  seedlo := 0
  seedhi := 0
  retired := 0
  turn := 0
  spill := List.replicate o.width []

/-- A wave at creation (R36, R136, R209, R256). -/
def Wave.new (key launch crew ordinal core partition slot clock : Nat) (o : Object) : Wave where
  key := key
  launch := launch
  crew := crew
  ordinal := ordinal
  kern := o
  core := core
  partition := partition
  slot := slot
  created := clock
  status := .awaitingCreationDeal
  a := Arch.created o
  sempty := 0
  hregs := List.replicate 16 0
  hshadow := if o.tier = 2 then List.replicate 16 0 else []
  trapcause := 0
  trappc := 0
  trapaddr := 0
  trapmask := 0
  ops := []
  port := []
  seq := 0
  issued := List.replicate 5 0
  latch := none
  latchS := none
  engineFault := none
  matFault := none
  drained := false
  checkpoint := none
  failures := 0
  frame := none
  preoff := none
  demand := none
  waveTrap := none
  native := false
  visitEnd := 0
  visiting := false
  checkpointDue := false
  lineReads := []

/-- A split that has not issued. -/
def Split.new (lanes : Mask) (pc : Nat) : Split := ⟨lanes, pc, [], [], .ready, [], 0, 0⟩

/-- The coordinates of linear index n in an item space (R8). -/
def coords (d : Desc) (n : Nat) : Word32 × Word32 × Word32 :=
  (BitVec.ofNat 32 (n % d.ex), BitVec.ofNat 32 (n / d.ex % d.ey), BitVec.ofNat 32 (n / d.ex / d.ey))

/-- The object of log 2: one word of code, a 16-lane unpaired kernel with every register and tile, a crew store and a marver
allotment of 4 KiB, and class 0 alone. -/
def placedObject (w : Nat) : Object where
  handle := 1
  version := 0
  ctx := 1
  code := [BitVec.ofNat 32 w]
  codeVa := 0x10000
  width := 16
  crewwaves := 1
  vregs := 192
  acc := 16
  tier := 1
  refill := true
  traponinv := false
  traponrng := false
  detreq := false
  replay := false
  crewstore := 4096
  marver := 4096
  params := 64
  stack := 64
  entry := 0
  drain := none
  requires := []
  classes := [classZero]
  regions := [⟨0, 0, 0, 0, 0, 0⟩]
  temperVa := 0x20000
  temperGen := 0
  features := 1
  measure := List.replicate 64 0
  native := []
  superseded := false

/-- The descriptor of log 2: sixteen items, one crew. -/
def placedDesc : Desc := ⟨0, 1, 16, 1, 1, 1, 0, false, false, 0, 0, 0, 0xFF, 0, 1, 0, 0, 0, 0x30000, 1, []⟩

/-- A launch at acceptance. -/
def Launch.accepted (key queue order : Nat) (d : Desc) (o : Object) (depth : Nat) (parent : Option Nat) : Launch where
  key := key
  queue := queue
  ctx := o.ctx
  order := order
  desc := d
  descAt := 0
  obj := o
  depth := depth
  parent := parent
  state := .accepted
  predcount := d.predcount
  succs := []
  deps := []
  killed := false
  dealer := 0
  maxstatus := 0
  items := 0
  nonzero := 0
  replayed := false
  logended := false
  replayable := d.replay
  replaying := false
  params := List.replicate o.params 0
  marver := []
  bits := []
  exited := []
  crewsMade := 0
  crewsRetired := 0
  lastCore := none
  tokenCrew := 0
  tokenWave := 0
  visiting := false
  log := none
  external := []

/-- Is a version in force, or one that a launch still uses (R311, R384)? -/
def State.versionUsed (s : State) (o : Object) : Bool :=
  !o.superseded || s.launches.any fun l => l.open_ && l.obj.handle == o.handle && l.obj.version == o.version && l.ctx == o.ctx

/-- Discards the native code of versions that were replaced and that no launch uses any more (R384). -/
def State.dropNative (s : State) : State :=
  { s with objects := s.objects.map fun (o : Object) => if s.versionUsed o then o else { o with native := [] } }

/-- The wave of log 2 after its creation deal: sixteen live lanes in one split at the word. -/
def placedWave (w : Nat) : Wave :=
  let o := placedObject w
  let v := Wave.new 3 1 2 0 0 0 0 0 o
  let live := Mask.below 16
  let lane (n : Nat) : Lane := ⟨BitVec.ofNat 32 n, 0, 0, 0, some n, BitVec.ofNat 32 n⟩
  { v with
    status := .running
    a := { v.a with live := live, fresh := live, lanes := (List.range 16).map lane, splits := [Split.new live o.codeVa] } }

/-- A home with nothing under way. -/
def Home.idle (h : Home) : Home := { h with walked := [], walks := [], leases := [], migrations := [] }

/-- Puts a launch of that word in place of whatever the device ran; queues, homes and the host have nothing under way (log 2). -/
def State.placeWord (s : State) (w : Nat) : State :=
  let o := placedObject w
  let l := Launch.accepted 1 0 0 placedDesc o 0 none
  { s with
    agenda := []
    inputs := []
    running := none
    sideLog := []
    hostWrites := 0
    queues := s.queues.map fun (q : Queue) => { q with status := 0, reading := none }
    homes := s.homes.map Home.idle
    nextKey := max s.nextKey 4
    objects := [o]
    contexts := [⟨1, false, 0, Config.initialEB, 0, [], [], false, .ofCause 0⟩]
    launches := [{ l with state := .started, dealer := 16, crewsMade := 1, marver := [(0, [])] }]
    crews := [⟨2, 1, 0, 0, [], List.replicate 16 [], true, false⟩]
    waves := [placedWave w] }

end Sys2Proof.Machine
end

