-- ==== Sys2Proof/Machine/Life.lean ====
section
/-! DEFINITION. The life of a wave: deals (R9, R16, R300, R301, R368), the three ends of a wholly vacant wave (R22, R23), retirement (R24),
barriers (R28, R248) and the token's visits (R364-R371). -/

namespace Sys2Proof.Machine

/-! ### Deals -/

/-- Blocks of a launch's completion bitmap (R299). -/
def Launch.blocks (l : Launch) : Nat := (l.total + 2 ^ l.desc.cblog - 1) / 2 ^ l.desc.cblog

/-- Does a dependence entry permit item n (R301)? A producer that was not found, or has completed, counts as set. -/
def State.depMet (s : State) (d : Dep) (producer : Option Nat) (n : Nat) : Bool :=
  match producer.bind s.launch? with
  | none => true
  | some pl =>
    if pl.state == .completed then true
    else
      let first : Int := (d.a * (n / 2 ^ d.b) : Nat) + d.d
      (List.range d.w).all fun k =>
        let j := first + k
        decide (j < 0) || decide (j ≥ pl.blocks) || pl.bits.contains j.toNat

/-- Is item n of a launch dealable (R9, R301)? -/
def State.dealable (s : State) (l : Launch) (n : Nat) : Bool := l.deps.all fun (d, k) => s.depMet d k n

/-- The run of items the next deal of at most `most` items takes (R301). -/
def State.dealRun (s : State) (l : Launch) (most : Nat) : List Nat :=
  ((List.range (min most (l.total - l.dealer))).map (l.dealer + ·)).takeWhile (s.dealable l)

/-- Does a deal of these items rest on a set bit of a producer that has not completed (R301)? It is then an acquire fence for its wave. A bit that only
counts as set, for its producer has completed, makes the deal none (DESIGN CHOICE, log 27). -/
def State.restsOnBit (s : State) (l : Launch) (items : List Nat) : Bool :=
  l.deps.any fun (d, k) => match k.bind s.launch? with
    | none => false
    | some pl => pl.state != .completed && items.any fun n =>
        let first : Int := (d.a * (n / 2 ^ d.b) : Nat) + d.d
        (List.range d.w).any fun k => decide (0 ≤ first + k ∧ first + k < pl.blocks)

/-- Advances the dealer past a run (R9). -/
def State.advanceDealer (s : State) (lk n : Nat) : State := s.onLaunch lk fun l => { l with dealer := l.dealer + n }

/-- The vacant visible lanes, ascending (R13, R16). -/
def Wave.vacant (w : Wave) : List Nat := (List.range w.V).filter fun v => !w.allLive.has (w.primary v)

/-- The lanes a run of items fills: visible lane and item (R16). -/
def Wave.filled (w : Wave) (items : List Nat) : List (Nat × Nat) := w.vacant.zip items

/-- A register's tag after a deal (R16). -/
def Wave.tagAfterDeal (w : Wave) (r : VReg) : Tag :=
  if w.allLive == 0 then .uniform
  else if r.tag == .uniform && nth r.lanes (w.allLive.lowest w.W) 0 == 0 then .uniform
  else .general

/-- Deals a run of at least one item into the wave's vacant lanes (R16): they become live and fresh. The splits stay as they are. -/
def Wave.deal (w : Wave) (d : Desc) (items : List Nat) : Wave :=
  let fill := w.filled items
  let new := Mask.ofLanes (fill.flatMap fun x => w.lanesOf x.1)
  let laneOf (i : Nat) (old : Lane) : Lane :=
    match fill.find? fun x => x.1 == w.visible i with
    | some (_, n) =>
      let (x, y, z) := coords d n
      ⟨x, y, z, 0, some n, BitVec.ofNat 32 n⟩
    | none => old
  let reg (r : VReg) : VReg :=
    { r with
      lanes := r.lanes.zipIdx.map fun (x, i) => if new.has i then 0 else x
      tag := w.tagAfterDeal r }
  { w with
    a := { w.a with
      live := w.a.live ||| new
      fresh := new
      lanes := w.a.lanes.zipIdx.map fun (l, i) => laneOf i l
      preds := w.a.preds.map fun m => m.diff new
      vregs := w.a.vregs.map reg } }

/-- The region head at the code offset a wave starts at (R18). -/
def Wave.headAt (w : Wave) (off : Nat) : RegionRec := w.regionAt (w.kern.codeVa + off) 0

/-- A split that received a deal: one that is an acquire fence (R301) holds it at its next word, as a `fence` holds its split (R278). -/
def Split.dealt (p : Split) (fence : Bool) : Split := if fence then { p with status := .acquiring } else p

/-- Starts a wave's live lanes as one top-level split at a code offset, with the checkpoint of the region it opens (R17, R18); `fence`: its deal is an
acquire fence. The A latch stands as it was: a start of R22 within the wave's life is not taken as a restart that empties it (R225; DESIGN CHOICE,
log 25). -/
def Wave.startAt (w : Wave) (off : Nat) (fence : Bool) : Wave :=
  let pc := w.kern.codeVa + off
  let w := { w with status := .running, a := { w.a with splits := [(Split.new w.a.live pc).dealt fence], entries := [] } }
  w.takeCheckpoint (w.headAt off) pc none true

/-- A deal or drain state that resets lanes clears the errors in them (R343). -/
def State.clearLanes (s : State) (w : Wave) (on : Mask) : State :=
  s.clearErrors w fun
    | .vreg k _ l => k == w.key && on.has l
    | _ => false

/-- A creation deal, or a deal by the first row of R22, of a nonempty run: the wave starts at the entry point. -/
def State.dealStart (s : State) (w : Wave) (l : Launch) (items : List Nat) : State :=
  let w := (w.deal l.desc items).startAt w.kern.entry (s.restsOnBit l items)
  ((s.advanceDealer l.key items.length).putWave w).clearLanes w w.a.live

/-! ### Barriers (R28, R248) -/

/-- Is the native code of the region that a word lies in complete (R383)? -/
def Object.nativeAt (o : Object) (pc : Nat) : Bool :=
  ((o.regions.filter fun r => decide (r.at_ + o.codeVa ≤ pc)).getLast?.map fun r => o.native.contains r.number).getD false

/-- Resumes a wave that waits at barrier `id`: pD, the word after the `bar`, and outside system mode a checkpoint (R248), where the wave may pass to
native code (R383). -/
def Wave.passBarrier (w : Wave) (id : Nat) (closer keep : Bool) : Wave :=
  match w.a.splits.find? fun p => match p.status with | .atBar b _ => b == id | _ => false with
  | none => w
  | some p =>
    let pd := match p.status with | .atBar _ pd => pd | _ => 0
    let all := Mask.below w.W
    let w := w.setPred pd all (if closer then all else 0)
    let up (q : Split) : Split :=
      match q.status with
      | .atBar b _ => if b == id then { q with status := .ready, pc := (q.pc + 4) % 2 ^ 64 } else q
      | _ => q
    let w := { w with a := { w.a with splits := w.a.splits.map up } }
    if w.system then w
    else
      let v := w.takeCheckpoint (w.kern.defaultRegion 0 0) p.pc (some (p.lanes.lowest w.W)) keep
      { v with native := w.kern.nativeAt p.pc }

/-- Completes barrier `id` of a crew if every wave that has not retired has arrived (R28). -/
def State.tryBarrier (s : State) (crew id : Nat) : State :=
  match s.crew? crew with
  | none => s
  | some c =>
    let arrived := nth c.barriers id []
    let waves := s.waves.filter fun w => w.crew == crew && w.status != .retired
    if arrived = [] ∨ waves.any (fun w => !arrived.contains w.ordinal) then s
    else
      let closer := arrived.foldl max 0
      let s := { s with waves := s.waves.map fun (w : Wave) =>
        if w.crew == crew && w.status != WaveStatus.retired then w.passBarrier id (w.ordinal == closer) (s.deterministic w) else w }
      s.onCrew crew fun c => { c with barriers := setAt c.barriers id [] }

/-- Tries every barrier of a crew. -/
def State.tryBarriers (s : State) (crew : Nat) : State := (List.range 16).foldl (fun s id => s.tryBarrier crew id) s

/-- A cluster that is due for the assay is held once no crew is placed on it (R312). -/
def State.holdCluster (s : State) (k : Nat) : State :=
  let busy := s.crews.any fun c => c.placed && c.core / 8 == k
  { s with clusters := modifyAt s.clusters k fun (c : Cluster) => if c.due && !busy then { c with holding := true } else c }

/-! ### Retirement (R24) -/

/-- May a retiring wave retire: its counters are zero, its local accesses have performed, and no rollback is demanded? -/
def Wave.mayRetire (w : Wave) : Bool := w.port.isEmpty && w.demand.isNone && w.ops.all fun o => o.ctr.isNone

/-- What retiring leaves of a fault still pending in a wave, or of an ERRBUDGET it would take before its next issue: a context fault (R325, R341), but
for XLATEUE, which kills no context (R331). -/
def Wave.retiringFault (w : Wave) : Option TrapRecord :=
  (w.due fun _ d => d.cause != trapXLATEUE).map (fun x => x.2.record) <|>
    w.waveTrap.map fun eb => ⟨trapERRBUDGET, 0, BitVec.ofNat 64 eb, 0⟩

/-- Retires a wave: it leaves its crew's barriers, and the crew retires with its last wave. -/
def State.retireWave (s : State) (w : Wave) : State :=
  match w.retiringFault with
  | some r => s.contextFault w.ctx { s.fieldsOf w with report := r }
  | none =>
    let s := s.onWave w.key fun w => { w with status := .retired, ops := [], engineFault := none }
    let s := s.onCrew w.crew fun c => { c with barriers := c.barriers.map fun l => l.filter (· != w.ordinal) }
    let s := s.tryBarriers w.crew
    if s.waves.any fun x => x.crew == w.crew && x.status != .retired then s
    else
      let s := s.onCrew w.crew fun c => { c with placed := false, stopReq := false }
      (s.onLaunch w.launch fun l => { l with crewsRetired := l.crewsRetired + 1 }).holdCluster (w.core / 8)

/-! ### Wholly vacant waves (R22, R23) -/

/-- The index n of a lane in drain state: all ones in a one-dimensional item space, and else that of the all-ones coordinates (R8, R55). -/
def Desc.drainIndex (d : Desc) : Word32 :=
  BitVec.ofNat 32 (if d.ey = 1 ∧ d.ez = 1 then 2 ^ 32 - 1 else (2 ^ 32 - 1) + d.ex * ((2 ^ 32 - 1) + d.ey * (2 ^ 32 - 1)))

/-- Enters drain state (R23): all V lanes live in one split at the `.drain` label. -/
def Wave.enterDrain (w : Wave) (d : Desc) (off : Nat) : Wave :=
  let ones : Word32 := BitVec.allOnes 32
  let lane : Lane := ⟨ones, ones, ones, 0, none, d.drainIndex⟩
  let clear (r : VReg) : VReg := { r with lanes := r.lanes.map fun _ => 0, tag := .uniform }
  let a : Arch :=
    { w.a with
      live := Mask.below w.W, drain := true, fresh := 0, lanes := w.a.lanes.map (fun _ => lane), preds := w.a.preds.map (fun _ => 0)
      vregs := w.a.vregs.map clear }
  { w with drained := true, a := a }.startAt off false

/-- Lets a wave that waits to drain enter drain state once every register is full and every write has landed (R121). -/
def State.tryDrain (s : State) (w : Wave) : State :=
  match s.launch? w.launch, w.kern.drain with
  | some l, some off =>
    if !w.settled || w.demand.isSome then s
    else
      let v := w.enterDrain l.desc off
      (s.clearLanes w v.a.live).putWave v
  | _, _ => s

/-- What a wave does whose last live lane has vacated, or whose launch has nothing left for it (R22, R17, R121). -/
def State.wholeVacant (s : State) (w : Wave) : State :=
  match s.launch? w.launch with
  | none => s.putWave { w with status := .retiring }
  | some l =>
    if w.kern.refill && decide (l.dealer < l.total) then s.putWave { w with status := .awaitingDeal }
    else match w.kern.drain with
      | some _ =>
        if w.drained then s.putWave { w with status := .retiring }
        else
          let w := { w with status := .awaitingDrain }
          (s.putWave w).tryDrain w
      | none => s.putWave { w with status := .retiring }

/-! ### Visits of the token (R365-R367) -/

/-- Owes the wave a rollback that is to redo a drain, so that no visit ends and no checkpoint passes over it (R346, R371, R377)? -/
def Wave.redoes (w : Wave) : Bool := !w.system && (w.demand.map Demand.atTurn).getD false

/-- May the checkpoint of a visit's end be taken: the waits of R243 are met, outside system mode (R367)? -/
def Wave.visitReady (w : Wave) : Bool :=
  w.settled && w.drained_ && !w.system && !w.redoes && w.intervalsClear w.a.splits

/-- The checkpoint of a visit's end, now or at the next boundary that allows it. -/
def Wave.visitCheckpoint (w : Wave) : Wave :=
  if w.status == .retired then w
  else if w.visitReady then
    { w.takeCheckpoint (w.kern.defaultRegion 0 0) (w.kern.codeVa) none true with checkpointDue := false }
  else { w with checkpointDue := true }

/-- Is a wave before another in the token's cycle (R365)? -/
def State.cycleKey (s : State) (w : Wave) : Nat := ((s.crew? w.crew).map Crew.ordinal).getD 0 * 16 + w.ordinal

/-- Moves the token on: to the next wave of the cycle that has not retired (R365). -/
def State.passToken (s : State) (lk : Nat) : State :=
  match s.launch? lk with
  | none => s
  | some l =>
    let waves := s.waves.filter fun w => w.launch == lk && w.status != .retired
    let here := l.tokenCrew * 16 + l.tokenWave
    let least (ws : List Wave) : Option Wave :=
      ws.foldl (fun best w => match best with
        | some b => if s.cycleKey w < s.cycleKey b then some w else some b
        | none => some w) none
    let next := if l.visiting then (least (waves.filter fun w => decide (s.cycleKey w > here))) <|> least waves else least waves
    match next with
    | none => s.onLaunch lk fun l => { l with visiting := false }
    | some w =>
      let s := s.onLaunch lk fun l => { l with tokenCrew := s.cycleKey w / 16, tokenWave := w.ordinal, visiting := true }
      s.onWave w.key fun w => { w.wakeToken with visiting := true }

/-- Ends the visit of a wave at an end count (R365, R367). -/
def State.endVisit (s : State) (wave lk endCount : Nat) : State :=
  (s.onWave wave fun w => { w with visitEnd := endCount, visiting := false }.visitCheckpoint).passToken lk

/-- After a word that ends the visit in deterministic mode has retired (R249, R261, R365). -/
def State.visitWord (s : State) (wave : Nat) : State :=
  match s.wave? wave with
  | none => s
  | some w => if s.deterministic w then s.endVisit wave w.launch w.a.retired else s

/-- Is a wave waiting at a barrier or asleep, so that it cannot issue (R365)? -/
def Wave.cannotIssue (w : Wave) : Bool :=
  let waits (p : Split) : Bool := match p.status with | .atBar _ _ | .asleep _ _ => true | _ => false
  let joins (p : Split) : Bool := match p.status with | .atJoin _ => true | _ => false
  w.a.splits.any waits && w.a.splits.all fun p => waits p || joins p

/-- The end count at which the visit in progress is over now, if it is (R365); of a stopped wave's it is not, nor of one that has a drain to redo
(R371, R377). -/
def State.visitOver (s : State) (w : Wave) (l : Launch) : Option Nat :=
  if !(s.visited w) then none
  else if w.status == .retired then some w.a.retired
  else if !((s.crew? w.crew).map Crew.placed).getD false || w.redoes then none
  else if w.stepValue ≥ w.visitEnd + l.quantum then some (w.visitEnd + l.quantum)
  else if w.cannotIssue then some w.a.retired
  else none

/-- Is every crew of a deterministic launch placed, and has every wave had its creation deal (R363)? -/
def State.allPlaced (s : State) (l : Launch) : Bool :=
  l.state == .started && l.crewsMade == l.desc.crews && !(s.waves.any fun w => w.launch == l.key && w.status == .awaitingCreationDeal)

/-- TOKEN_PASS (R365, R367): the first visit begins when every crew is placed; a visit that is over ends and the token moves on; a visit's
checkpoint that was put off is taken. -/
def execTokenPass (l : Nat) (s : State) : Result :=
  match s.launch? l with
  | none => .next s
  | some x =>
    if !x.desc.deterministic || !s.allPlaced x then .next s
    else match s.waves.find? fun w => w.launch == l && w.checkpointDue && w.visitReady with
    | some w => .next (s.onWave w.key Wave.visitCheckpoint)
    | none =>
      if !x.visiting then .next (s.passToken l)
      else match s.waves.find? fun w => w.launch == l && s.visited w with
      | none => .next (s.passToken l)
      | some w =>
        match s.visitOver w x with
        | some n => .next (if w.status == .retired then s.passToken l else s.endVisit w.key l n)
        | none => .next s

end Sys2Proof.Machine
end

