-- ==== Sys2Proof/Machine/Crucible.lean ====
section
/-! DEFINITION. Crucible instructions (R198-R201). -/

namespace Sys2Proof.Machine

/-- The bounds check of a cell's address (R198): a local cell lies in the marver. A cell that fails is reported by its 64-bit address E,
the only address R198 judges (DEDUCED, log 23). -/
def State.outsideCell (s : State) (w : Wave) (e : Nat) : Option Nat :=
  if !isLocal64 e then none
  else if 0x10000000 ≤ e % 2 ^ 32 ∧ e % 2 ^ 32 < 0x14800000 then (s.outside64 w e 64).map fun _ => e
  else some e

/-- The address checks of cells over lanes, bounds first (R186, R198). -/
def State.checkCells (s : State) (w : Wave) (lanes : List Nat) (e : Nat → Nat) : Option Refused :=
  match refusedOf trapLOCALBOUND (lanes.filterMap fun i => (s.outsideCell w (e i)).map fun x => (i, x)) with
  | some r => some r
  | none => refusedOf trapALIGN ((lanes.filter fun i => e i % 64 != 0).map fun i => (i, e i))

/-- One cell access as a piece. -/
def State.cellPiece (s : State) (w : Wave) (lane e : Nat) (data : List (Option Byte)) (job : Job) : Piece :=
  ⟨0, e, none, if isLocal64 e then some (s.placeOf w (e % 2 ^ 32) 64) else none, data, [0], job, lane⟩

/-- `cxadd` (R199): the primary's values, after the compare, join the crucible queue. -/
def execCxadd (d a b : Byte) (s : State) : Result :=
  issueWord (.cxadd d a b) s fun s w p =>
    let on := w.active p
    let e := w.eaddr a b
    let form := Form.cls w.C
    let bad := w.differing on fun l => e l + 2 ^ 64 * (w.src d form l).toNat
    if bad ≠ 0 then s.mismatch w p bad false
    else match s.checkCells w (w.list on) e with
    | some r => s.trapAt w p r.cause r.addr r.mask
    | none =>
      let lanes := w.performers on
      if lanes = [] then s.done w.counted (p.opens w)
      else if w.counterFull 4 then .next s
      else
        let pieces := lanes.map fun l => s.cellPiece w l (e l) [] (.cxAdd (w.srcVal d form l))
        let (s, v, _) := s.addOp w p (some 4) .cxadd on pieces none 0
        s.done v (p.opens w)

/-- `cxclr` (R200). A cell that two lanes name is cleared once. The addresses of a pair are compared as those of a store are (R189; DEDUCED, log 23). -/
def execCxclr (a b : Byte) (s : State) : Result :=
  issueWord (.cxclr a b) s fun s w p =>
    let on := w.active p
    let e := w.eaddr a b
    let bad := w.differing on e
    if bad ≠ 0 then s.mismatch w p bad false
    else match s.checkCells w (w.list on) e with
    | some r => s.trapAt w p r.cause r.addr r.mask
    | none =>
      let lanes := w.performers on
      if lanes = [] then s.done w p
      else if w.counterFull 4 then .next s
      else
        let once := lanes.filter fun l => lanes.all fun k => e k != e l || decide (l ≤ k)
        let pieces := once.map fun l => s.cellPiece w l (e l) [] .cxClear
        let (s, w, _) := s.addOp w p (some 4) .cxclr on pieces none 0
        s.done w p

/-- Has every earlier `cxadd`, `cxclr` and `mdrx` of the wave completed (R201)? -/
def Wave.cellsQuiet (w : Wave) : Bool :=
  w.ops.all fun o => (match o.kind with | .cxadd | .cxclr | .mdrx => false | _ => true) || o.complete

/-- Drops reads whose split was sent elsewhere while they were under way. -/
def Wave.dropReads (w : Wave) : Wave :=
  { w with ops := w.ops.filter fun o => match o.kind with
      | .cxget _ => w.awaited.contains o.key
      | _ => true }

/-- Issues a `cxget` (R201): it reads its cells under the MR and seeds of its issue, and its split waits. -/
def issueCxget (d a b : Byte) (s : State) : Result :=
  issueWord (.cxget d a b) s fun s w p =>
    let on := w.active p
    let e := w.eaddr a b
    match s.checkCells w (w.list on) e with
    | some r => s.trapAt w p r.cause r.addr r.mask
    | none =>
      let lanes := w.list on
      if !w.cellsQuiet then .next s
      else if lanes = [] then s.done (w.writeV d.toNat 0 (fun _ => 0) .general) p
      else
        let pieces := lanes.map fun l => s.cellPiece w l (e l) (List.replicate 64 none) .cxRead
        let mat : MatJob :=
          ⟨0, w.a.mr, w.a.mx, w.a.seedlo.setWidth 32, w.a.seedhi.setWidth 32, [], [], [], [], 0, 0, false, false, [], false⟩
        let (s, w, key) := s.addOp w.dropReads p none (.cxget d.toNat) on pieces (some mat) 0
        .next (s.putWave (w.setSplit { p with status := .onCxget key }))

/-- Ends a `cxget` whose parts have all returned (R201). -/
def State.finishCxget (s : State) (w : Wave) (p : Split) (o : Op) (d : Nat) (job : MatJob) : Result :=
  let p := { p with status := .ready }
  let v := w.withoutOp o.key
  match w.gets o job with
  | .error (cause, addr, mask) => s.trapAt (v.setSplit p) p cause addr mask
  | .ok x => (s.clearWritten w d o.mask).done ((v.setSplit p).gotten d o job x) p

/-- The suspended split of a wave that holds a lane and whose `cxget` has its cells and no trap: its read, and what it gives. -/
def Wave.suspendedGet (w : Wave) (lane : Nat) : Option (Op × Nat × MatJob × (Nat → Word32) × BitVec 7) :=
  (((w.frame.map TrapFrame.splits).getD []).filter fun p => p.lanes.has lane).findSome? fun p =>
    match p.status with
    | .onCxget k => (w.op? k).bind fun o => match o.kind, o.mat with
        | .cxget d, some job => if o.returned then match w.gets o job with
            | .ok x => some (o, d, job, x)
            | .error _ => none
          else none
        | _, _ => none
    | _ => none

/-- A suspended split's `cxget` writes D and retires while the handler runs: words already issued complete under their own rules (R255). -/
def State.landGet (s : State) (w : Wave) (o : Op) (d : Nat) (job : MatJob) (x : (Nat → Word32) × BitVec 7) : State :=
  let v := (w.withoutOp o.key).gotten d o job x
  let v := v.onSplits fun p => if p.status == .onCxget o.key then { p with status := .ready, pc := (p.pc + 4) % 2 ^ 64 } else p
  (s.clearWritten w d o.mask).putWave { v with a := { v.a with retired := v.a.retired + 1 } }

/-- `cxget` (R201): the split issues it, and goes on when its cells have come. -/
def execCxget (d a b : Byte) (s : State) : Result :=
  match s.waves with
  | [] => .fault .noIssuer
  | w :: _ =>
    match w.a.splits with
    | [] => .fault .noIssuer
    | p :: _ =>
      match p.status with
      | .onCxget k =>
        match w.op? k with
        | some o => match o.mat with
          | some job => if o.returned then s.finishCxget w p o d.toNat job else .next s
          | none => .next s
        | none => issueCxget d a b (s.putWave (w.setSplit { p with status := .ready }))
      | _ => issueCxget d a b s

end Sys2Proof.Machine
end

