-- ==== Sys2Proof/Machine/Copies.lean ====
section
/-! DEFINITION. Copies (R202-R207), `wait` (R210) and `fence` (R211, R278). -/

namespace Sys2Proof.Machine

/-- A copy descriptor (R203). Strides are read modulo 2^64 or 2^32. -/
structure CopyDesc where
  gaddr : Nat
  laddr : Nat
  n0 : Nat
  n1 : Nat
  n2 : Nat
  gs1 : Nat
  gs2 : Nat
  ls1 : Nat
  ls2 : Nat
  aux : Nat
  esz : Nat
  ctl : Nat
  reserved : Nat
  deriving DecidableEq, Repr

/-- Reads a copy descriptor from its 64 bytes. -/
def CopyDesc.ofBytes (bs : List Byte) : CopyDesc :=
  ⟨field bs 0x00 8, field bs 0x08 4, field bs 0x0C 4, field bs 0x10 4, field bs 0x14 4, field bs 0x18 8, field bs 0x20 8,
    field bs 0x28 4, field bs 0x2C 4, field bs 0x30 8, field bs 0x38 1, field bs 0x39 1, field bs 0x3A 6⟩

/-- Which copy a word is. -/
inductive CopyFn where
  | cin | cout | gat | sca | fill | loc
  deriving DecidableEq, Repr

/-- The counter of a copy (R205). -/
def CopyFn.counter : CopyFn → Nat
  | .cin | .gat | .loc => 0
  | _ => 1

/-- The operation kind of a copy. -/
def CopyFn.kind : CopyFn → OpKind
  | .cin => .cpin
  | .cout => .cpout
  | .gat => .cpgat
  | .sca => .cpsca
  | .fill => .cpfill
  | .loc => .cplocal

/-- Is a copy indexed? -/
def CopyFn.indexed : CopyFn → Bool
  | .gat | .sca => true
  | _ => false

/-- Element bytes. -/
def CopyDesc.size (x : CopyDesc) : Nat := 2 ^ x.esz
/-- The expected tier of the main side. -/
def CopyDesc.tier (x : CopyDesc) : Nat := x.ctl / 2 % 4

/-- The descriptor conditions of R204. -/
def CopyDesc.legal (x : CopyDesc) (f : CopyFn) : Bool :=
  let count (n : Nat) : Bool := decide (1 ≤ n ∧ n ≤ 2 ^ 24)
  let multiple (n : Nat) : Bool := n % x.size == 0
  let zeros : Bool := match f with
    | .cin | .cout => x.aux == 0
    | .gat | .sca => x.aux / 2 ^ 32 == 0
    | .fill => true
    | .loc => x.aux / 2 ^ 32 == 0 && x.gaddr == 0 && x.gs1 == 0 && x.gs2 == 0
  x.reserved == 0 && x.ctl / 16 == 0 && zeros && decide (x.esz ≤ 6) && count x.n0 && count x.n1 && count x.n2 &&
    decide (x.n0 * x.n1 * x.n2 * x.size ≤ 2 ^ 24) && x.tier != 3 &&
    multiple x.gaddr && multiple x.laddr && multiple x.gs1 && multiple x.gs2 && multiple x.ls1 && multiple x.ls2 &&
    (f != .loc || multiple x.aux) && (f == .loc || x.gaddr / 2 ^ 56 != 0xFF) && (!f.indexed || x.n2 == 1) &&
    (f != .fill || (decide (x.esz ≤ 3) && x.laddr == 0 && x.ls1 == 0 && x.ls2 == 0))

/-- The elements in copy order (R205): (e0, e1, e2). -/
def CopyDesc.elements (x : CopyDesc) : List (Nat × Nat × Nat) :=
  (List.range x.n2).flatMap fun e2 => (List.range x.n1).flatMap fun e1 => (List.range x.n0).map fun e0 => (e0, e1, e2)

/-- The local address of an element from a base (R205). -/
def CopyDesc.local_ (x : CopyDesc) (base : Nat) (e : Nat × Nat × Nat) : Nat :=
  (base + e.1 * x.size + e.2.1 * x.ls1 + e.2.2 * x.ls2) % 2 ^ 32

/-- Bytes of an index entry. -/
def CopyDesc.indexSize (x : CopyDesc) : Nat := if x.ctl.testBit 3 then 8 else 4

/-- The local accesses of a copy in copy order (R204): an index entry before the elements it places. -/
def CopyDesc.accesses (x : CopyDesc) (f : CopyFn) : List Access :=
  x.elements.flatMap fun e =>
    let idx : List Access := if f.indexed && e.1 == 0 then [⟨0, (x.aux + e.2.1 * x.indexSize) % 2 ^ 32, x.indexSize, x.indexSize⟩] else []
    let el : List Access := if f == .fill then [] else [⟨0, x.local_ x.laddr e, x.size, x.size⟩]
    let dst : List Access := if f == .loc then [⟨0, x.local_ (x.aux % 2 ^ 32) e, x.size, x.size⟩] else []
    idx ++ el ++ dst

/-- The main-memory address of an element (R205); `index` gives the entries of the index list. -/
def CopyDesc.main (x : CopyDesc) (f : CopyFn) (index : Nat → Nat) (e : Nat × Nat × Nat) : Nat :=
  if f.indexed then (x.gaddr + e.1 * x.size + index e.2.1 * x.gs1) % 2 ^ 64
  else (x.gaddr + e.1 * x.size + e.2.1 * x.gs1 + e.2.2 * x.gs2) % 2 ^ 64

/-- One indivisible stretch of an element as a piece: n bytes from byte k (R276). -/
def State.copyPiece (s : State) (w : Wave) (x : CopyDesc) (f : CopyFn) (lane : Nat) (index : Nat → Nat) (e : Nat × Nat × Nat) (k n : Nat) :
    Piece :=
  let l := (s.placeOf w (x.local_ x.laddr e) x.size).plus k
  let m := if f == .loc then 0 else x.main f index e + k
  let unread : List (Option Byte) := List.replicate n none
  match f with
  | .cin | .gat => ⟨0, m, none, some l, unread, List.range n, .read, lane⟩
  | .cout | .sca => ⟨0, m, some l, none, unread, [0], .write, lane⟩
  | .fill => ⟨0, m, none, none, ((leBytes 8 x.aux).drop k).take n |>.map some, [0], .write, lane⟩
  | .loc => ⟨0, m, some l, some ((s.placeOf w (x.local_ (x.aux % 2 ^ 32) e) x.size).plus k), unread, List.range n, .local_, lane⟩

/-- The pieces of a copy: an element of up to 8 bytes whole, a larger one byte by byte (R276). -/
def State.copyPieces (s : State) (w : Wave) (x : CopyDesc) (f : CopyFn) (lane : Nat) (index : Nat → Nat) : List Piece :=
  x.elements.flatMap fun e =>
    if x.esz ≤ 3 then [s.copyPiece w x f lane index e 0 x.size]
    else (List.range x.size).map fun k => s.copyPiece w x f lane index e k 1

/-- Does the tier rule refuse the copy at issue (R207)? -/
def CopyDesc.tierRefused (x : CopyDesc) (f : CopyFn) (kernel : Nat) : Bool :=
  let launder := x.ctl.testBit 0
  match f with
  | .cin | .gat => kernel == 2 && x.tier != 2 && !launder
  | .cout | .sca | .fill => x.tier == 2 && kernel != 2 && !launder
  | .loc => false

/-- Does a whole-wave word meet a partial mask (R28, R202)? -/
def Wave.partialMask (w : Wave) (p : Split) : Bool :=
  (w.a.entries.any fun e => match e with | .region _ _ _ _ => true | _ => false) || p.lanes != w.a.live

/-- The local address a 64-bit scalar gives for a command's descriptor of `size` bytes (R202, R216, R250). -/
def State.descAt (s : State) (w : Wave) (e : Word64) (size : Nat) (mask : Mask) : Except Refused LocalAt :=
  match localOf64 e with
  | none => .error ⟨trapLOCALBOUND, e.toNat, mask⟩
  | some l =>
    match s.resolve w l size with
    | none => .error ⟨trapLOCALBOUND, l, mask⟩
    | some at_ => if l % size ≠ 0 then .error ⟨trapALIGN, l, mask⟩ else .ok at_

/-- Is an operation a copy that has not completed? -/
def Op.copying (o : Op) : Bool :=
  (match o.kind with | .cpin | .cpout | .cpgat | .cpsca | .cpfill | .cplocal => true | _ => false) && !o.complete

/-- Has a core as many copies outstanding as it may have (R2)? DESIGN CHOICE (log 50): a request is a copy instruction, `cplocal` too, that has not
completed, and one beyond the number waits at its issue. -/
def State.copiesFull (s : State) (core : Nat) : Bool :=
  decide (((s.waves.filter fun w => w.core == core).map fun w => (w.ops.filter Op.copying).length).sum ≥ Config.copiesPerCore)

/-- A copy (R202-R207). It waits until the wave's earlier local accesses have performed and, in deterministic mode, for the token: its
descriptor and index list are read in the port's order (R269). The traps of the whole copy hold the guard-active lanes (DESIGN CHOICE, log 23). -/
def copyWord (i : Instr) (a : Byte) (f : CopyFn) (s : State) : Result :=
  issueWord i s fun s w p =>
    let e := w.S a.toNat
    let mask := w.active p
    if w.partialMask p then s.trapAt w p trapPARTIALMASK 0 mask
    else if e ≠ w.Sh a.toNat then s.mismatch w p 0 true
    else match s.descAt w e 64 mask with
    | .error r => s.trapAt w p r.cause r.addr r.mask
    | .ok at_ =>
      if !w.port.isEmpty || !s.hasToken w then .next s
      else
        match s.findLocal w p.pc mask ((List.range 64).map at_.plus) with
        | some s' => .next s'
        | none =>
          let x := CopyDesc.ofBytes (s.readLocalBytes at_ 64)
          if !x.legal f then s.trapAt w p trapDESC e.toNat mask
          else match s.checkElems w mask (x.accesses f) with
          | some r => s.trapAt w p r.cause r.addr r.mask
          | none =>
            if x.tierRefused f w.kern.tier then s.trapAt w p trapCLASSX e.toNat mask
            else if w.counterFull f.counter || s.copiesFull w.core then .next s
            else
              let entry (k : Nat) : LocalAt := s.placeOf w ((x.aux + k * x.indexSize) % 2 ^ 32) x.indexSize
              let entries := if f.indexed then (List.range x.n1).map entry else []
              match s.findLocal w p.pc mask (entries.flatMap fun y => (List.range x.indexSize).map y.plus) with
              | some s' => .next s'
              | none =>
                let list := entries.map fun y => leNat (s.readLocalBytes y x.indexSize)
                let pieces := s.copyPieces w x f (p.lanes.lowest w.W) fun k => nth list k 0
                let (s, w, _) := s.addOp w p (some f.counter) f.kind mask pieces none x.tier
                s.done w p

/-- `cpin` (R205). -/
def execCpin (a : Byte) (s : State) : Result := copyWord (.cpin a) a .cin s
/-- `cpout` (R205). -/
def execCpout (a : Byte) (s : State) : Result := copyWord (.cpout a) a .cout s
/-- `cpgat` (R205). -/
def execCpgat (a : Byte) (s : State) : Result := copyWord (.cpgat a) a .gat s
/-- `cpsca` (R205). -/
def execCpsca (a : Byte) (s : State) : Result := copyWord (.cpsca a) a .sca s
/-- `cpfill` (R205). -/
def execCpfill (a : Byte) (s : State) : Result := copyWord (.cpfill a) a .fill s
/-- `cplocal` (R205). -/
def execCplocal (a : Byte) (s : State) : Result := copyWord (.cplocal a) a .loc s

/-- `wait` (R210): the split goes on when the counter reads n or less. -/
def execWait (k n : Byte) (s : State) : Result :=
  issueWord (.wait k n) s fun s w p => if w.counter k.toNat ≤ n.toNat then s.done w p else .next s

/-- Have the wave's earlier reads performed (R211, acquire)? -/
def Wave.acquired (w : Wave) : Bool :=
  !(w.port.any fun x => x.job.writesRegister) &&
    w.ops.all fun o => match o.kind with
      | .cpin | .cpgat | .satomic _ | .vatomic _ => o.parts.all Part.settled
      | _ => true

/-- Are the wave's earlier accesses complete to a scope (R211, release)? -/
def State.released (s : State) (w : Wave) (scope : Nat) : Bool :=
  w.port.isEmpty && (w.ops.all fun o => o.ctr.isNone || o.complete) &&
    (decide (scope < 4) || !(s.sideLog.any fun e => e.wave == w.key)) && (decide (scope < 6) || s.hostWrites == 0)

/-- Are the waits of a `fence` met (R211)? -/
def State.fenceMet (s : State) (w : Wave) (scope order : BitVec 4) : Bool :=
  (order == 1 || w.acquired) && (order == 0 || s.released w scope.toNat)

/-- `fence` (R211, R278): once its waits are met the split goes on; a fault that came pending while it waited is delivered then (R333). -/
def execFence (scope order : BitVec 4) (s : State) : Result :=
  issueWord (.fence scope order) s fun s w p =>
    if !s.fenceMet w scope order then .next (if p.status == .fencing then s else s.putWave (w.setSplit { p with status := .fencing }))
    else match w.due (fun _ _ => true) with
      | some x => s.deliver w p x
      | none => s.done w { p with status := .ready }

end Sys2Proof.Machine
end

