-- ==== Sys2Proof/Machine/Matrix.lean ====
section
/-! DEFINITION. Matrix instructions (R214-R236): what they check at issue, and MATRIX_TURN, which performs them. -/

namespace Sys2Proof.Machine

/-! ### Rows and tiles -/

/-- The visible lanes whose rows an instruction with this mask reads or writes (R215). -/
def Wave.rowsOf (w : Wave) (on : Mask) : List Nat := (List.range w.V).filter fun v => on.has (w.primary v)

/-- A tile that reads +0 in every word. -/
def Tile.zero : Tile := ⟨List.replicate 1024 0, false⟩

/-- A tile of the wave, or its twin (R236). -/
def Wave.tile (w : Wave) (twin : Bool) (t : Nat) : Tile := nth (if twin then w.a.twins else w.a.tiles) t Tile.zero

/-- Row i of a tile. -/
def Tile.row (t : Tile) (i : Nat) : List Word32 := (t.words.drop (32 * i)).take 32

/-- Replaces row i. -/
def Tile.setRow (t : Tile) (i : Nat) (ws : List Word32) : Tile :=
  { t with words := t.words.take (32 * i) ++ ws ++ t.words.drop (32 * i + 32) }

/-- Changes a tile or twin. -/
def Wave.onTile (w : Wave) (twin : Bool) (t : Nat) (f : Tile → Tile) : Wave :=
  if twin then { w with a := { w.a with twins := modifyAt w.a.twins t f } }
  else { w with a := { w.a with tiles := modifyAt w.a.tiles t f } }

/-- Writes rows of a tile group and the kind bit of each of its G tiles (R215); `row v` is the row of visible lane v. -/
def Wave.writeRows (w : Wave) (twin : Bool) (base : Nat) (rows : List Nat) (int : Bool) (row : Nat → List Word32) : Wave :=
  let w := rows.foldl (fun w v => w.onTile twin (base + v / 32) fun t => t.setRow (v % 32) (row v)) w
  (List.range w.G).foldl (fun w j => w.onTile twin (base + j) fun t => { t with int := int }) w

/-- The row of a visible lane in a tile group. -/
def Wave.rowAt (w : Wave) (twin : Bool) (base v : Nat) : List Word32 := (w.tile twin (base + v / 32)).row (v % 32)

/-- The copies an instruction executes for: the primary, and in paired mode the shadow (R236). -/
def Wave.copies (w : Wave) : List Bool := if w.paired then [false, true] else [false]

/-- Both lanes of the rows' visible lanes. -/
def Wave.lanesOfRows (w : Wave) (rows : List Nat) : Mask := Mask.ofLanes (rows.flatMap w.lanesOf)

/-! ### Operand descriptors (R217-R219) -/

/-- An operand descriptor. -/
structure MatDesc where
  laddr : Nat
  splane : Nat
  stride : Nat
  sstride : Nat
  cls : Nat
  ctl : Nat
  reserved : Nat
  deriving DecidableEq, Repr

/-- Reads an operand descriptor from its 32 bytes. -/
def MatDesc.ofBytes (bs : List Byte) : MatDesc :=
  ⟨field bs 0x00 4, field bs 0x04 4, field bs 0x08 4, field bs 0x0C 2, field bs 0x0E 1, field bs 0x0F 1, field bs 0x10 16⟩

/-- Is a format a matrix operand format (R75, R219)? -/
def Fmt.isOperand (f : Fmt) : Bool := decide (0x02 ≤ f.id ∧ f.id ≤ 0x0C) || f.id == 0x12 || f.id == 0x13

/-- The storage format of an operand's class. -/
def MatDesc.fmt (x : MatDesc) (w : Wave) : Option Fmt := (w.kern.classRec x.cls).map ClassRec.storage

/-- The conditions of R219 that concern one descriptor; `b` for operand B. -/
def MatDesc.legal (x : MatDesc) (w : Wave) (b : Bool) : Bool :=
  match x.fmt w with
  | none => false
  | some f =>
    x.reserved == 0 && x.ctl / 4 % 4 == 0 && f.isOperand && (!f.packed || x.ctl.testBit 0 == b) && (f.isMX || x.splane == 0) &&
      x.laddr % 8 == 0 && x.stride % 8 == 0 && (if b then !x.ctl.testBit 1 else x.ctl / 16 == 0)

/-- K of a format (R220). -/
def Fmt.matK : Fmt → Nat
  | .mxfp4 | .i4 => 64
  | .bf16 | .fp16 => 16
  | _ => 32

/-- Is the tile kind of a format I32 (R220)? -/
def Fmt.tileInt : Fmt → Bool
  | .i8 | .i4 => true
  | _ => false

/-- The address of an unpacked element of a line: a row of A or a column of B (R218). -/
def MatDesc.elemAddr (x : MatDesc) (f : Fmt) (b : Bool) (line k : Nat) : Nat :=
  if x.ctl.testBit 0 == b then (x.laddr + line * x.stride + k * f.elemBytes) % 2 ^ 32
  else (x.laddr + k * x.stride + line * f.elemBytes) % 2 ^ 32

/-- The address of block β of a line. -/
def MatDesc.blockAddr (x : MatDesc) (f : Fmt) (line β : Nat) : Nat := (x.laddr + line * x.stride + β * f.blockBytes) % 2 ^ 32

/-- The address of the scale of block β of a line. -/
def MatDesc.scaleAddr (x : MatDesc) (line β : Nat) : Nat := (x.splane + line * x.sstride + β) % 2 ^ 32

/-- The accesses of one line (R218). -/
def MatDesc.lineAccesses (x : MatDesc) (f : Fmt) (b : Bool) (lane line : Nat) : List Access :=
  if f == .i4 then [⟨lane, x.blockAddr f line 0, 32, 8⟩]
  else if f.isMX then
    (List.range (f.matK / 32)).flatMap fun β => [⟨lane, x.blockAddr f line β, f.blockBytes, 8⟩, ⟨lane, x.scaleAddr line β, 1, 1⟩]
  else (List.range f.matK).map fun k => ⟨lane, x.elemAddr f b line k, f.elemBytes, f.elemBytes⟩

/-- Bytes read, by local address. -/
abbrev Fetched := List (Nat × List Byte)

/-- The n bytes that one access fetched at an address, as a little-endian number: a scale may stand where a block begins. -/
def Fetched.at_ (m : Fetched) (a n : Nat) : Nat := ((m.find? fun x => x.1 == a && x.2.length == n).map fun x => leNat x.2).getD 0

/-- A NaN of a format whose signalling codes set no flag in a product (R222) reads as quiet. -/
def quietUnless (keep : Bool) : Val → Val
  | .nan s => .nan (s && keep)
  | v => v

/-- Element k of a line, without its scale; NaN under a NaN scale (R218, R222). -/
def MatDesc.elem (x : MatDesc) (f : Fmt) (b : Bool) (m : Fetched) (line k : Nat) : Val :=
  if f == .i4 then Val.ofInt (f.intOf (blockElem .i4 (m.at_ (x.blockAddr f line 0) 32) k))
  else if f.isMX then
    if m.at_ (x.scaleAddr line (k / 32)) 1 = 0xFF then .nan false
    else f.elemVal (blockElem f (m.at_ (x.blockAddr f line (k / 32)) f.blockBytes) (k % 32))
  else quietUnless (f == .bf16 || f == .fp16) (f.valOf (m.at_ (x.elemAddr f b line k) f.elemBytes))

/-- The exponent of the scale of block β of a line. -/
def MatDesc.scaleExp (x : MatDesc) (f : Fmt) (m : Fetched) (line β : Nat) : Int :=
  if f.isMX then (m.at_ (x.scaleAddr line β) 1 : Int) - 127 else 0

/-! ### The summation contract (R220-R222) -/

/-- Rounds a value to FP32 by RNE, with its flags. -/
def fp32Rne (v : Val) : Val × BitVec 7 :=
  let c := Fmt.fp32.convert .rne v
  (Fmt.fp32.valOf c.code, c.flags)

/-- One level of the tree with FP32 nodes. A node of infinities of both signs sets invalid and gives NaN (DESIGN CHOICE, log 25). -/
def treeLevel : List Val → List Val × BitVec 7
  | a :: b :: rest =>
    let (v, inv) := a.add false b
    let (r, fl) := fp32Rne v
    let (vs, fl') := treeLevel rest
    (r :: vs, fl ||| fl' ||| flagIf inv nsInvalid)
  | l => (l, 0)

/-- The group sum of sixteen products (R221, R222). -/
def groupSum (f : Fmt) (xs : List (Val × Val)) : Val × BitVec 7 :=
  let prods := xs.map fun (a, b) => a.mul b
  let ps := prods.map Prod.fst
  let inv := flagIf (prods.any Prod.snd) nsInvalid
  let up := ps.any fun v => v == .inf false
  let down := ps.any fun v => v == .inf true
  if ps.any Val.isNan || (up && down) then (.nan false, inv)
  else if up then (.inf false, inv)
  else if down then (.inf true, inv)
  else if f == .bf16 || f == .fp16 then
    let l1 := treeLevel ps
    let l2 := treeLevel l1.1
    let l3 := treeLevel l2.1
    let l4 := treeLevel l3.1
    (l4.1.headD .zero, inv ||| l1.2 ||| l2.2 ||| l3.2 ||| l4.2)
  else
    let sum := ps.foldl (fun acc v => (acc.add false v).1) .zero
    (if sum.isZero then .zero else sum, inv)

/-- A value times 2^k. -/
def Val.scale (v : Val) (k : Int) : Val :=
  match v with
  | .num n m e st => .num n m (e + k) st
  | v => v

/-- One step of the chain: acc + G (R221, R222). -/
def chainStep (f : Fmt) (sat : Bool) (acc : Word32) (g : Val) : Word32 × BitVec 7 :=
  if f.tileInt then
    let r := Fmt.i32.reduce sat (Fmt.i32.intOf acc.toNat + g.toInt)
    (BitVec.ofNat 32 r.1, flagIf r.2 nsSat)
  else
    let (v, inv) := (Fmt.fp32.valOf acc.toNat).add false g
    let c := Fmt.fp32.convert .rne v
    (BitVec.ofNat 32 c.code, c.flags ||| flagIf inv nsInvalid)

/-- Word (i, c) of a product: A row m against B column c (R221). -/
def productWord (f : Fmt) (sat : Bool) (a b : MatDesc) (am bm : Fetched) (m c : Nat) (old : Word32) : Word32 × BitVec 7 :=
  (List.range (f.matK / 16)).foldl (fun (acc, fl) g =>
    let xs := (List.range 16).map fun t => (a.elem f false am m (16 * g + t), b.elem f true bm c (16 * g + t))
    let (sum, fl') := groupSum f xs
    let β := 16 * g / 32
    let (acc, fl'') := chainStep f sat acc (sum.scale (a.scaleExp f am m β + b.scaleExp f bm c β))
    (acc, fl ||| fl' ||| fl'')) (old, 0)

/-- Row m of a product, with its flags. -/
def productRow (f : Fmt) (sat : Bool) (a b : MatDesc) (am bm : Fetched) (m : Nat) (old : List Word32) : List Word32 × BitVec 7 :=
  let ws := old.zipIdx.map fun (x, c) => productWord f sat a b am bm m c x
  (ws.map Prod.fst, ws.foldl (fun fl x => fl ||| x.2) 0)

/-! ### Issue -/

/-- The class range and drains read MR, MX and the seeds as at issue. -/
def Wave.matJob (w : Wave) (tile : Nat) : MatJob :=
  ⟨tile, w.a.mr, w.a.mx, w.a.seedlo.setWidth 32, w.a.seedhi.setWidth 32, [], [], [], [], 0, 0, false, false, [], false⟩

/-- Enqueues a matrix instruction that counts on mat. -/
def State.enqueueMat (s : State) (w : Wave) (p : Split) (kind : OpKind) (mask : Mask) (pieces : List Piece) (job : MatJob) : Result :=
  if w.counterFull 2 then .next s
  else
    let (s, w, _) := s.addOp w p (some 2) kind mask pieces (some job) 0
    s.done w p

/-- The bytes of one access as a piece to read; `tag` tells the operands apart. -/
def State.readPiece (s : State) (w : Wave) (tag : Nat) (x : Access) : Piece :=
  ⟨0, x.addr, some (s.placeOf w x.addr x.size), none, List.replicate x.size none, [], .local_, tag⟩

/-- Local() over the operands (R186, R223): bounds of every access, then alignment. A failing byte of B fails every active lane. -/
def State.checkOperands (s : State) (w : Wave) (on : Mask) (as_ bs : List Access) : Option Refused :=
  let step (cause : Nat) (bad : Access → Bool) : Option Refused :=
    let ba := as_.filter bad
    let bb := bs.filter bad
    match ba ++ bb with
    | [] => none
    | x :: _ => some ⟨cause, x.addr, if bb.isEmpty then Mask.ofLanes (ba.map Access.lane) else on⟩
  match step trapLOCALBOUND fun x => (s.resolve w x.addr x.size).isNone with
  | some r => some r
  | none => step trapALIGN fun x => x.addr % x.align != 0

/-- Does an A operand come from a latch (R225)? -/
def latched (l : Option Latch) (desc : List Byte) (on : Mask) : Bool :=
  (MatDesc.ofBytes desc).ctl.testBit 1 && match l with
    | some x => x.desc == desc && on.sub x.rows
    | none => false

/-- A latch after an instruction with this descriptor and mask has issued; its bytes come at the turn. -/
def latchAfter (l : Option Latch) (desc : List Byte) (on : Mask) : Option Latch :=
  some ⟨desc, on, (l.map Latch.bytes).getD []⟩

/-- `mma` and `mmaz` at issue (R223). In paired mode each copy has its own descriptors (R236). The fields of the descriptors are judged before the
addresses of the operand bytes (R223 against the order of R237's table; DESIGN CHOICE, log 23). Of several failures it reports the first in the order primary A,
primary B, shadow A, shadow B, and all of the primary's operand accesses come before the shadow's (DESIGN CHOICE, log 23). -/
def multiply (i : Instr) (d a b : Byte) (zero : Bool) (s : State) : Result :=
  issueWord i s fun s w p =>
    let on := w.active p
    let e (sh : Bool) (f : Byte) : Word64 := if sh then w.Sh f.toNat else w.S f.toNat
    match s.descAt w (e false a) 32 on, s.descAt w (e false b) 32 on, s.descAt w (e true a) 32 on, s.descAt w (e true b) 32 on with
    | .error r, _, _, _ | _, .error r, _, _ | _, _, .error r, _ | _, _, _, .error r => s.trapAt w p r.cause r.addr r.mask
    | .ok pa, .ok pb, .ok qa, .ok qb =>
      if !w.port.isEmpty || !s.hasToken w then .next s
      else match s.findLocal w p.pc on ([pa, pb, qa, qb].flatMap fun x => (List.range 32).map x.plus) with
      | some s' => .next s'
      | none =>
        let bytes (x : LocalAt) : List Byte := s.readLocalBytes x 32
        let da (sh : Bool) : MatDesc := MatDesc.ofBytes (bytes (if sh then qa else pa))
        let db (sh : Bool) : MatDesc := MatDesc.ofBytes (bytes (if sh then qb else pb))
        let bad := w.copies.flatMap fun sh =>
          (if (da sh).legal w false then [] else [e sh a]) ++
          (if (db sh).legal w true && (da sh).fmt w == (db sh).fmt w then [] else [e sh b])
        match bad with
        | x :: _ => s.trapAt w p trapDESC x.toNat on
        | [] =>
          let f := ((da false).fmt w).getD .i8
          let fS := ((da true).fmt w).getD .i8
          let rows := w.rowsOf on
          let hit (sh : Bool) : Bool := latched (if sh then w.latchS else w.latch) (bytes (if sh then qa else pa)) on
          let lineA (sh : Bool) : List Access :=
            if hit sh then []
            else rows.flatMap fun v => (da sh).lineAccesses (if sh then fS else f) false (w.primary v + sh.toNat) v
          let lineB (sh : Bool) : List Access :=
            if rows = [] then [] else (List.range 32).flatMap fun c => (db sh).lineAccesses (if sh then fS else f) true 0 c
          match s.checkOperands w on (w.copies.flatMap lineA) (w.copies.flatMap lineB) with
          | some r => s.trapAt w p r.cause r.addr r.mask
          | none =>
            let pieces := w.copies.flatMap fun sh =>
              (lineA sh).map (s.readPiece w sh.toNat) ++ (lineB sh).map (s.readPiece w (2 + sh.toNat))
            let job : MatJob :=
              { w.matJob d.toNat with
                aDesc := bytes pa, bDesc := bytes pb, aDescS := bytes qa, bDescS := bytes qb, useLatch := hit false, useLatchS := hit true }
            if w.counterFull 2 then .next s
            else
              let latch := latchAfter w.latch (bytes pa) on
              let latchS := if w.paired then latchAfter w.latchS (bytes qa) on else none
              s.enqueueMat { w with latch := latch, latchS := latchS } p (.mma zero) on pieces job

/-- `mma` (R223). -/
def execMma (d a b : Byte) (s : State) : Result := multiply (.mma d a b) d a b false s
/-- `mmaz` (R223). -/
def execMmaz (d a b : Byte) (s : State) : Result := multiply (.mmaz d a b) d a b true s

/-- `mzero` (R227). -/
def execMzero (d : Byte) (s : State) : Result :=
  issueWord (.mzero d) s fun s w p => s.enqueueMat w p .mzero (w.active p) [] (w.matJob d.toNat)

/-- `mldv` (R228): the 32 sources are read at issue. -/
def execMldv (d a : Byte) (s : State) : Result :=
  issueWord (.mldv d a) s fun s w p =>
    let regs := (List.range 32).map fun c => (w.vreg (a.toNat + c)).lanes
    s.enqueueMat w p .mldv (w.active p) [] { w.matJob d.toNat with regs := regs }

/-- May a product that a trap would follow still fail at its turn (R235)? Only `mdrv` waits for it; another matrix word that issues before that turn
takes no trap for it (DESIGN CHOICE, log 25). -/
def Wave.mayFail (w : Wave) : Bool :=
  w.kern.traponinv && w.ops.any fun o => match o.kind with | .mma _ => !o.finishedAtTurn | _ => false

/-- `mdrv` (R229): its 32 registers become empty. It counts on no counter. It issues after the turns of products that can fail, whose trap is taken at
it (R238). -/
def execMdrv (d a : Byte) (s : State) : Result :=
  issueWord (.mdrv d a) s fun s w p =>
    if w.mayFail then .next s
    else
    let w := (List.range 32).foldl (fun w c => w.markV (d.toNat + c) true) w
    let (s, w, _) := s.addOp w p none (.mdrv d.toNat) (w.active p) [] (some (w.matJob a.toNat)) 0
    s.done w p

/-! ### `mdrl` (R230, R231) -/

/-- A drain descriptor. -/
structure DrainDesc where
  laddr : Nat
  splane : Nat
  stride : Nat
  sstride : Nat
  zero0 : Nat
  ctl : Nat
  tilebase : Nat
  seq : Nat
  round : Nat
  phase : Nat
  zero1 : Nat
  deriving DecidableEq, Repr

/-- Reads a drain descriptor from its 32 bytes. -/
def DrainDesc.ofBytes (bs : List Byte) : DrainDesc :=
  ⟨field bs 0x00 4, field bs 0x04 4, field bs 0x08 4, field bs 0x0C 2, field bs 0x0E 1, field bs 0x0F 1, field bs 0x10 4,
    field bs 0x14 2, field bs 0x16 1, field bs 0x17 1, field bs 0x18 8⟩

/-- The conditions of R230 that are tested at issue. -/
def DrainDesc.legal (x : DrainDesc) (f : Fmt) : Bool :=
  x.zero0 == 0 && x.zero1 == 0 && x.ctl / 8 == 0 && x.round / 8 == 0 && x.phase / 32 == 0 &&
    (!x.ctl.testBit 2 || x.round != 7) && (!f.packed || !x.ctl.testBit 0) && x.laddr % 8 == 0 && x.stride % 8 == 0 &&
    (f.isMX || (x.splane == 0 && !x.ctl.testBit 1))

/-- The place and size of element c of the row of visible lane v; a packed row is one access (R230). -/
def DrainDesc.elemAt (x : DrainDesc) (f : Fmt) (v c : Nat) : Nat :=
  if x.ctl.testBit 0 then (x.laddr + c * x.stride + v * f.elemBytes) % 2 ^ 32
  else (x.laddr + v * x.stride + c * f.elemBytes) % 2 ^ 32

/-- A drain's accesses for a row, each with what it holds: element c, the block (0x100) or the scale (0x200). -/
def DrainDesc.accesses (x : DrainDesc) (f : Fmt) (lane v : Nat) : List (Nat × Access) :=
  if f.packed then
    (0x100, ⟨lane, (x.laddr + v * x.stride) % 2 ^ 32, f.blockBytes, 8⟩) ::
      (if f.isMX then [(0x200, ⟨lane, (x.splane + v * x.sstride) % 2 ^ 32, 1, 1⟩)] else [])
  else (List.range 32).map fun c => (c, ⟨lane, x.elemAt f v c, f.elemBytes, f.elemBytes⟩)

/-- The place a drained access writes, its bytes still to come at the turn. -/
def State.writePiece (s : State) (w : Wave) (x : Nat × Access) : Piece :=
  ⟨0, x.1, none, some (s.placeOf w x.2.addr x.2.size), List.replicate x.2.size none, List.range x.2.size, .local_, x.2.lane⟩

/-- Reads a drain's descriptor at issue and goes on with its bytes. -/
def withDescriptor (i : Instr) (b : Byte) (s : State) (body : State → Wave → Split → Mask → List Byte → Result) : Result :=
  issueWord i s fun s w p =>
    let on := w.active p
    match s.descAt w (w.S b.toNat) 32 on with
    | .error r => s.trapAt w p r.cause r.addr r.mask
    | .ok at_ =>
      if !w.port.isEmpty || !s.hasToken w then .next s
      else match s.findLocal w p.pc on ((List.range 32).map at_.plus) with
      | some s' => .next s'
      | none => body s w p on (s.readLocalBytes at_ 32)

/-- `mdrl` at issue (R231). -/
def execMdrl (a b : Byte) (s : State) : Result :=
  withDescriptor (.mdrl a b) b s fun s w p on bytes =>
    let x := DrainDesc.ofBytes bytes
    let f := w.C.storage
    if !x.legal f then s.trapAt w p trapDESC (w.S b.toNat).toNat on
    else
      let accs := (w.rowsOf on).flatMap fun v => x.accesses f (w.primary v) v
      match s.checkLanes w (accs.map Prod.snd) with
      | some r => s.trapAt w p r.cause r.addr (w.pairUp r.mask)
      | none =>
        let job := { w.matJob a.toNat with aDesc := bytes, addr := (w.S b.toNat).toNat, addrS := (w.Sh b.toNat).toNat }
        s.enqueueMat w p .mdrl on (accs.map (s.writePiece w)) job

/-! ### `mdrx` (R232, R233) -/

/-- The cell address of element (i, c) of the row of visible lane v, from a crucible descriptor's bytes. -/
def cellOf (bytes : List Byte) (v c : Nat) : Nat :=
  (field bytes 0 8 + v / 32 * field bytes 0x10 8 + v % 32 * field bytes 8 8 + 64 * c) % 2 ^ 64

/-- The adds of an `mdrx` (R233), of the values that the tiles give. -/
def Wave.drainAdds (w : Wave) (s : State) (mask : Mask) (bytes : List Byte) (value : Nat → Nat → Val) : List Piece :=
  (w.rowsOf mask).flatMap fun v => (List.range 32).map fun c =>
    s.cellPiece w (w.primary v) (cellOf bytes v c) [] (.cxAdd (value v c))

/-- `mdrx` at issue (R233): the interval of R245 opens. Its adds take their place in the order of cells now, and their values at the turn. -/
def execMdrx (a b : Byte) (s : State) : Result :=
  withDescriptor (.mdrx a b) b s fun s w p on bytes =>
    if field bytes 0x18 8 ≠ 0 ∨ field bytes 8 8 % 64 ≠ 0 ∨ field bytes 0x10 8 % 64 ≠ 0 then
      s.trapAt w p trapDESC (w.S b.toNat).toNat on
    else
      let cells := (w.rowsOf on).flatMap fun v => (List.range 32).map fun c => (w.primary v, cellOf bytes v c)
      match refusedOf trapLOCALBOUND (cells.filterMap fun (l, e) => (s.outsideCell w e).map fun x => (l, x)) with
      | some r => s.trapAt w p r.cause r.addr (w.pairUp r.mask)
      | none =>
        match refusedOf trapALIGN (cells.filter fun (_, e) => e % 64 != 0) with
        | some r => s.trapAt w p r.cause r.addr (w.pairUp r.mask)
        | none =>
          let job := { w.matJob a.toNat with aDesc := bytes, addr := (w.S b.toNat).toNat, addrS := (w.Sh b.toNat).toNat }
          s.enqueueMat w (p.opens w) .mdrx on (w.drainAdds s on bytes fun _ _ => .zero) job

/-! ### At the turn (R216, R235, R236) -/

/-- Ends an operation at its turn. -/
def Wave.turned (w : Wave) (k : Nat) (f : Op → Op) : Wave :=
  let w := w.onOp k fun o => f { o with mat := o.mat.map fun j => { j with done := true } }
  { w with ops := w.ops.filter fun o => o.key != k || o.ctr.isSome }

/-- An operation that performs nothing. -/
def Op.emptied (o : Op) : Op := { o with parts := [], pieces := [] }

/-- A failure at the turn (R235): the instruction performs nothing; of two the wave keeps the earlier issued. -/
def Wave.failAtTurn (w : Wave) (o : Op) (cause : Nat) (rows : List Nat) : Wave :=
  let d : Deferred := ⟨o.seq, o.rank, o.ctr.getD 2, cause, o.pc, w.lanesOfRows rows⟩
  let keep := match w.matFault with
    | some m => if m.seq ≤ o.seq then some m else some d
    | none => some d
  { w with matFault := keep }.turned o.key Op.emptied

/-- The tile kind MR.class asks for (R227). -/
def Wave.kindOf (w : Wave) (mr : Word64) : Bool := (w.class_ (mrClass mr)).kind != .real

/-- What an `mma` has read of an operand. -/
def Op.fetched (o : Op) (tag : Nat) : Fetched := (o.pieces.filter fun x => x.lane == tag).map fun x => (x.va, x.data.map fun b => b.getD 0)

/-- The latches as an `mma` or `mmaz` leaves them at its turn: they hold the A that it read, or took from there (R225). -/
def Wave.relatch (w : Wave) (o : Op) (job : MatJob) : Wave :=
  let keep (use : Bool) (l : Option Latch) (tag : Nat) : Option Latch := if use then l else l.map fun x => { x with bytes := o.fetched tag }
  { w with latch := keep job.useLatch w.latch 0, latchS := keep job.useLatchS w.latchS 1 }

/-- The rows of an `mma` or `mmaz`, with their flags, by copy (R221-R224, R236); A comes from the latches of `w`. -/
def Wave.productRows (w : Wave) (o : Op) (job : MatJob) (zero : Bool) : List (Bool × List (Nat × List Word32 × BitVec 7)) :=
  let am (sh : Bool) : Fetched := (((if sh then w.latchS else w.latch).map Latch.bytes)).getD []
  let a (sh : Bool) : MatDesc := MatDesc.ofBytes (if sh then job.aDescS else job.aDesc)
  let b (sh : Bool) : MatDesc := MatDesc.ofBytes (if sh then job.bDescS else job.bDesc)
  let f (sh : Bool) : Fmt := ((a sh).fmt w).getD .i8
  w.copies.map fun sh => (sh, (w.rowsOf o.mask).map fun v =>
    let old := if zero then List.replicate 32 0 else w.rowAt sh job.tile v
    (v, productRow (f sh) (mrSat job.mr) (a sh) (b sh) (am sh) (o.fetched (2 + sh.toNat)) v old))

/-- The rows for which an `mma` or `mmaz` fails at its turn: under `.trapon invalid`, those that would set invalid (R235). -/
def Wave.invalidRows (w : Wave) (o : Op) (job : MatJob) (zero : Bool) : List Nat :=
  if w.kern.traponinv then
    let out := w.productRows o job zero
    (w.rowsOf o.mask).filter fun v => out.any fun (_, l) => l.any fun (u, _, fl) => u == v && hasInvalid fl
  else []

/-- `mma` or `mmaz` at its turn (R221-R225, R235, R236). -/
def Wave.turnMma (w : Wave) (o : Op) (job : MatJob) (zero : Bool) : Wave :=
  let rows := w.rowsOf o.mask
  let w := w.relatch o job
  let bad := w.invalidRows o job zero
  if !bad.isEmpty then w.failAtTurn o trapNUMERIC bad
  else
    let out := w.productRows o job zero
    let f (sh : Bool) : Fmt := ((MatDesc.ofBytes (if sh then job.aDescS else job.aDesc)).fmt w).getD .i8
    let w := out.foldl (fun w (sh, l) =>
      let row (v : Nat) : List Word32 := ((l.find? fun x => x.1 == v).map fun x => x.2.1).getD []
      if rows.isEmpty then w
      else
        let w' := rows.foldl (fun w v => w.onTile sh (job.tile + v / 32) fun t => { t.setRow (v % 32) (row v) with int := (f sh).tileInt }) w
        w'.flags (l.foldl (fun fl x => fl ||| x.2.2) 0)) w
    w.turned o.key Op.emptied

/-- A row of `mdrl` converted (R231, whose n is taken for SRF in blocks too; DEDUCED, log 48): bytes by what each access holds; flags; is it out of
class range; would it set invalid? -/
def Wave.drainRow (w : Wave) (job : MatJob) (x : DrainDesc) (v : Nat) : (Nat → List Byte) × BitVec 7 × Bool × Bool :=
  let c := w.class_ (mrClass job.mr)
  let f := c.storage
  let t := w.tile false (job.tile + v / 32)
  let vals := (t.row (v % 32)).map fun b => if t.int then Fmt.i32.valOf b.toNat else Fmt.fp32.valOf b.toNat
  let out := if c.block && c.kind == .real then
      let big := maxMag vals
      c.outside (.num false big.1 big.2 false)
    else vals.any c.outside
  let code := if x.ctl.testBit 2 then x.round else mrRound job.mr
  let ctl (k : Nat) : RoundCtl :=
    let draw :=
      if code = 5 then
        frit job.seedlo job.seedhi (BitVec.ofNat 32 (mxStream job.mx * 65536 + x.seq)) (BitVec.ofNat 32 (x.tilebase + 32 * v + k))
      else if code = 6 then dither k ((x.phase + v / 32) % 32)
      else 0
    ⟨code, draw, mrSat job.mr⟩
  if f.isMX then
    let blk := mxConvert f (x.ctl.testBit 1) ((List.range 32).map ctl) vals
    let inv := vals.any Val.isSignalling
    (fun tag => if tag = 0x200 then [BitVec.ofNat 8 blk.scale] else leBytes f.blockBytes blk.elems,
      flagIf blk.ovf nsOverflow ||| flagIf blk.mxclamp nsMxclamp ||| flagIf inv nsInvalid, out, inv)
  else
    let cs := vals.zipIdx.map fun (y, k) => f.convert (ctl k) y
    let inv := cs.any Converted.invalid || (f.kind == .real && vals.any Val.isSignalling)
    let fl := cs.foldl (fun acc c => acc ||| c.flags) (flagIf inv nsInvalid)
    let elems := (cs.zipIdx.map fun (c, k) => c.code <<< (f.bits * k)).foldl (· + ·) 0
    (fun tag => if f.packed then leBytes f.blockBytes elems else leBytes f.elemBytes ((cs[tag]?.map Converted.code).getD 0), fl, out, inv)

/-- `mdrl` at its turn (R231, R235): refused by a tile's kind, out of range, invalid; otherwise its bytes are ready to be written. Its flags enter NS
here, before those writes (DESIGN CHOICE, log 25). -/
def Wave.turnMdrl (w : Wave) (o : Op) (job : MatJob) : Wave :=
  let x := DrainDesc.ofBytes job.aDesc
  let c := w.class_ (mrClass job.mr)
  let f := c.storage
  let rows := w.rowsOf o.mask
  let wrong := rows.filter fun v => (f == .i4 && !(w.tile false (job.tile + v / 32)).int) || (f.isMX && (w.tile false (job.tile + v / 32)).int)
  let out := rows.map fun v => (v, w.drainRow job x v)
  let far := (out.filter fun y => y.2.2.2.1).map Prod.fst
  let inv := (out.filter fun y => y.2.2.2.2).map Prod.fst
  if !wrong.isEmpty then w.failAtTurn o trapDESC wrong
  else if w.kern.traponrng && !far.isEmpty then w.failAtTurn o trapRANGE far
  else if w.kern.traponinv && !inv.isEmpty then w.failAtTurn o trapNUMERIC inv
  else
    let w := w.flags (out.foldl (fun fl y => fl ||| y.2.2.1) (flagIf (!far.isEmpty) nsRange))
    w.turned o.key fun o => { o with pieces := o.pieces.map fun (y : Piece) =>
      let bytes := ((out.find? fun z => z.1 == w.visible y.lane).map fun z => z.2.1 y.va).getD []
      { y with data := bytes.map some } }

/-- `mdrx` at its turn (R233): the words become the values of its adds, which go to the crucible units. -/
def Wave.turnMdrx (w : Wave) (s : State) (o : Op) (job : MatJob) : Wave :=
  let value (v c : Nat) : Val :=
    let t := w.tile false (job.tile + v / 32)
    let x := (nth (t.row (v % 32)) c 0).toNat
    if t.int then Fmt.i32.valOf x else Fmt.fp32.valOf x
  let adds := w.drainAdds s o.mask job.aDesc value
  w.turned o.key fun o => { o with pieces := o.pieces.zipWith (fun (x y : Piece) => { x with job := y.job }) adds }

/-- `mdrv` at its turn (R229, R236): registers written and full. -/
def Wave.turnMdrv (w : Wave) (o : Op) (job : MatJob) (d : Nat) : Wave :=
  let on := w.lanesOfRows (w.rowsOf o.mask)
  let w := (List.range 32).foldl (fun (w : Wave) c =>
    (w.writeV (d + c) on (fun i =>
      nth (w.rowAt (w.isShadow i) job.tile (w.visible i)) c 0) .general).markV (d + c) false) w
  w.turned o.key id

/-- Marks the 32 registers of an `mdrv` full. -/
def Wave.fillDrained (w : Wave) (kind : OpKind) : Wave :=
  match kind with
  | .mdrv d => (List.range 32).foldl (fun (w : Wave) c => w.markV (d + c) false) w
  | _ => w

/-- Does a matrix operation read its tiles? -/
def OpKind.readsTile : OpKind → Bool
  | .mma zero => !zero
  | .mdrv _ | .mdrl | .mdrx => true
  | _ => false

/-- Does a matrix operation write whole rows at its turn? A failed one performs nothing (R235). -/
def Wave.writesTile (w : Wave) (o : Op) (job : MatJob) : Bool :=
  match o.kind with
  | .mma zero => ((w.relatch o job).invalidRows o job zero).isEmpty
  | .mzero | .mldv => true
  | _ => false

/-- Is it a drain (R236)? -/
def OpKind.isDrain : OpKind → Bool
  | .mdrv _ | .mdrl | .mdrx => true
  | _ => false

/-- Does a bit error lie in the rows of an operation's tile group? -/
def Wave.tileHit (w : Wave) (o : Op) (job : MatJob) (e : SoftErr) : Bool :=
  match e.site with
  | .tile k t word _ => k == w.key && decide (job.tile ≤ t ∧ t < job.tile + w.G) &&
      (w.rowsOf o.mask).contains (32 * (t - job.tile) + word / 32)
  | _ => false

/-- The rows an operation writes whole clear the errors in them (R343). -/
def State.clearTile (s : State) (w : Wave) (o : Op) (job : MatJob) : State :=
  s.clearErrors w fun site => w.tileHit o job ⟨site, 0, false⟩

/-- The registers an `mdrv` writes clear the errors in them (R343). -/
def State.clearDrained (s : State) (w : Wave) (o : Op) : State :=
  match o.kind with
  | .mdrv d => (List.range 32).foldl (fun s c => s.clearWritten w (d + c) (w.lanesOfRows (w.rowsOf o.mask))) s
  | _ => s

/-- Performs a matrix operation at its turn, its reads done and its tiles sound. -/
def State.turn (s : State) (w : Wave) (o : Op) (job : MatJob) : State :=
  let rows := w.rowsOf o.mask
  let differ := if w.paired && o.kind.isDrain then rows.filter fun v => w.rowAt false job.tile v != w.rowAt true job.tile v else []
  let addrs := w.paired && (match o.kind with | .mdrl | .mdrx => true | _ => false) && job.addr != job.addrS
  if !differ.isEmpty || addrs then
    let mask := if differ.isEmpty then w.pairUp o.mask else w.lanesOfRows differ
    let lane := if differ.isEmpty then 0xFFFF else mask.lowest w.W
    let w := (w.fillDrained o.kind).turned o.key Op.emptied
    let op := match o.kind with | .mdrx => some o.seq | _ => none
    s.demandRollback w ⟨0x10, trapMISMATCH, o.pc, mask, lane, false, op, o.pc, 0x08, s.clock⟩
  else
    let w' := match o.kind with
      | .mma zero => w.turnMma o job zero
      | .mzero => (w.copies.foldl (fun w sh => w.writeRows sh job.tile rows (w.kindOf job.mr) fun _ => List.replicate 32 0) w).turned o.key id
      | .mldv =>
        (w.copies.foldl (fun (w : Wave) sh => w.writeRows sh job.tile rows (w.kindOf job.mr) fun v =>
          job.regs.map fun l => nth l (w.primary v + sh.toNat) 0) w).turned o.key id
      | .mdrv d => w.turnMdrv o job d
      | .mdrl => w.turnMdrl o job
      | .mdrx => w.turnMdrx s o job
      | _ => w
    let s := if w.writesTile o job then s.clearTile w o job else s
    (s.clearDrained w o).putWave w'

/-- MATRIX_TURN (R216): the oldest matrix instruction of a wave that has not had its turn, once the unit serves no other wave, performs what is left
of its reads, and then the rest. An error it meets in its tiles is corrected first, or consumed: a rollback is demanded and the instruction performs
nothing. -/
def execMatrixTurn (wave : Nat) (s : State) : Result :=
  match s.wave? wave with
  | none => .next s
  | some w =>
    match w.ops.find? fun o => o.kind.isMatrix && !o.finishedAtTurn with
    | none => .next s
    | some o =>
      match o.mat with
      | none => .next s
      | some job =>
        let memory := match o.kind with | .mma _ | .mdrl | .mdrx => true | _ => false
        if job.done || w.portBefore o.seq || (memory && !s.hasToken w) || s.unitTaken w then .next s
        else if !o.localActs.isEmpty then .next (s.performLocal w o none)
        else match s.softErrors.find? fun e => o.kind.readsTile && w.tileHit o job e with
        | some e =>
          if e.bits ≤ 1 then .next ({ s with softErrors := s.softErrors.erase e }.corrected w.ctx (some w.key))
          else
            let w := (w.fillDrained o.kind).turned o.key Op.emptied
            .next (s.demandRollback w ⟨0x11, trapUE, 0, w.pairUp o.mask, o.mask.lowest w.W, false, none, o.pc, 0x03, s.clock⟩)
        | none => .next (s.turn w o job)

end Sys2Proof.Machine
end

