-- ==== Sys2Proof/Machine/Control.lean ====
section
/-! DEFINITION. Control instructions (R142-R154). They act on the split's lanes; `exit` acts on the active lanes. -/

namespace Sys2Proof.Machine

/-- The address a word offset of `n` bits names from a word's address (R112). -/
def targetOf (pc : Nat) (o : BitVec 20) : Nat := (BitVec.ofNat 64 pc + 4 * o.signExtend 64).toNat

/-- Puts the wave back with split `p` gone to `pc`. -/
def State.jump (s : State) (w : Wave) (p : Split) (pc : Nat) : Result :=
  .next (s.putWave ((w.setSplit { p with pc := pc }).retire p))

/-- The address after a word. -/
def Split.after (p : Split) : Nat := (p.pc + 4) % 2 ^ 64

/-- Replaces the issuing split by others (R145, R149). -/
def Wave.forkSplit (w : Wave) (qs : List Split) : Wave := { w with a := { w.a with splits := qs ++ w.a.splits.tail } }

/-- `bra` (R145). -/
def execBra (o : BitVec 20) (s : State) : Result :=
  issueWord (.bra o) s fun s w p => s.jump w p (targetOf p.pc o)

/-- A conditional branch: the lanes in which predicate p reads `want` are taken (R145, R144). Each new split keeps when its parent last issued (R308;
DEDUCED, log 20). -/
def branchOn (i : Instr) (pr : BitVec 4) (o : BitVec 20) (want : Bool) (s : State) : Result :=
  issueWord i s fun s w p =>
    let v := w.pred pr.toNat
    let bad := w.differing p.lanes fun l => (v.has l).toNat
    if bad ≠ 0 then s.mismatch w p bad false
    else
      let t := if want then p.lanes &&& v else p.lanes.diff v
      if t = p.lanes then s.jump w p (targetOf p.pc o)
      else if t = 0 then s.jump w p p.after
      else
        let taken := { p with lanes := t, pc := targetOf p.pc o }
        let rest := { p with lanes := p.lanes.diff t, pc := p.after }
        .next (s.putWave ((w.forkSplit [rest, taken]).retire p))

/-- `brp` (R145). -/
def execBrp (p : BitVec 4) (o : BitVec 20) (s : State) : Result := branchOn (.brp p o) p o true s
/-- `brn` (R145). -/
def execBrn (p : BitVec 4) (o : BitVec 20) (s : State) : Result := branchOn (.brn p o) p o false s

/-- Region entries on a chain. -/
def Arch.countRegions (a : Arch) (chain : List Nat) : Nat := chain.length - a.countFrames chain

/-- `split` (R146). -/
def execSplit (o : BitVec 20) (s : State) : Result :=
  issueWord (.split o) s fun s w p =>
    if w.a.countRegions p.chain ≥ 64 then s.trapAt w p trapCALLDEPTH 0 p.lanes
    else
      let (k, s) := s.newKey
      let w := { w with a := { w.a with entries := .region k (targetOf p.pc o) p.lanes 0 :: w.a.entries } }
      s.jump w { p with chain := k :: p.chain } p.after

/-- `join` (R147): the split arrives at its innermost visible region and waits there. -/
def execJoin (s : State) : Result :=
  issueWord .join s fun s w p =>
    match w.a.visibleRegions p.chain with
    | [] => s.done w p
    | g :: _ =>
      let arrive : Entry → Entry
        | .region k j pend arr => if k = g then .region k j pend (arr ||| p.lanes) else .region k j pend arr
        | e => e
      let w := w.setSplit { p with status := .atJoin g }
      let w := { w with a := { w.a with entries := w.a.entries.map arrive }.closeRegions }
      .next (s.putWave (w.retire p))

/-- `brk` (R148). -/
def execBrk (n : BitVec 4) (o : BitVec 20) (s : State) : Result :=
  issueWord (.brk n o) s fun s w p =>
    let visible := w.a.visibleRegions p.chain
    if n.toNat > visible.length then s.trapAt w p trapBREAKDEPTH n.toNat p.lanes
    else
      let left := visible.take n.toNat
      let leave (e : Entry) : Entry := if left.contains e.key then e.unpend p.lanes else e
      let w := w.setSplit { p with chain := p.chain.drop n.toNat, pc := targetOf p.pc o }
      let w := { w with a := { w.a with entries := w.a.entries.map leave }.closeRegions }
      .next (s.putWave (w.retire p))

/-- The target of a `brx` in a lane: each copy reads its own base (R149, R131). -/
def Wave.brxTarget (w : Wave) (a b : Byte) (i : Nat) : Nat := w.eaddr a b i

/-- Is the word at an address of the code in use a `land` (R149)? -/
def Wave.isLand (w : Wave) (t : Nat) : Bool := w.instrAt t == some .land

/-- `brx` (R149): every target is checked before any lane moves. -/
def execBrx (a b : Byte) (s : State) : Result :=
  issueWord (.brx a b) s fun s w p =>
    let t := w.brxTarget a b
    let bad := w.differing p.lanes t
    let lanes := w.list p.lanes
    if bad ≠ 0 then s.mismatch w p bad false
    else match refusedOf trapLANDING ((lanes.filter fun i => !w.isLand (t i)).map fun i => (i, t i)) with
    | some r => s.trapAt w p r.cause r.addr r.mask
    | none =>
      let splits := ((lanes.map t).eraseDups).map fun x => { p with lanes := Mask.ofLanes (lanes.filter fun i => t i == x), pc := x }
      .next (s.putWave ((w.forkSplit splits).retire p))

/-- `call` (R151). -/
def execCall (o : BitVec 20) (s : State) : Result :=
  issueWord (.call o) s fun s w p =>
    if w.a.countFrames p.chain ≥ 64 then s.trapAt w p trapCALLDEPTH 0 p.lanes
    else
      let (k, s) := s.newKey
      let w := { w with a := { w.a with entries := .frame k p.after :: w.a.entries } }
      s.jump w { p with chain := k :: p.chain } (targetOf p.pc o)

/-- `ret` (R151). -/
def execRet (s : State) : Result :=
  issueWord .ret s fun s w p =>
    let v := (w.a.visibleRegions p.chain).length
    match p.chain.drop v with
    | [] => s.trapAt w p trapCALLDEPTH 0 p.lanes
    | k :: below =>
      if v > 0 then s.trapAt w p trapCALLDEPTH v p.lanes
      else
        let r := match w.a.entry? k with | some (.frame _ r) => r | _ => p.after
        let w := w.setSplit { p with chain := below, pc := r }
        .next (s.putWave ({ w with a := w.a.collect }.retire p))

/-- `land` (R150). -/
def execLand (s : State) : Result := issueWord .land s fun s w p => s.done w p

/-! ### `exit` (R152) and `refill` (R153) -/

/-- Control state by itself: what a vacated lane leaves. -/
def TrapFrame.vacate (f : TrapFrame) (a : Arch) (gone : Mask) : TrapFrame :=
  let b := { a with splits := f.splits, entries := f.entries, live := f.live }.vacate gone
  { f with splits := b.splits, entries := b.entries, live := b.live }

/-- Vacates lanes of a wave, in its checkpoint too (R19); a handler left without lanes ends, and the suspended splits go on. DESIGN CHOICE (log 27):
MR and MX are then those of the trap frame, which a wave without any lane left keeps into a restart of R22 (R36). -/
def Wave.vacateLanes (w : Wave) (gone : Mask) : Wave :=
  let v := { w with a := w.a.vacate gone, frame := w.frame.map fun (f : TrapFrame) => f.vacate w.a gone }.forgetLanes gone
  w.landLost (match v.frame with
    | some f =>
      if v.a.live == 0 then
        { v with frame := none, a := { v.a with mr := f.mr, mx := f.mx, splits := f.splits, entries := f.entries, live := f.live } }
      else v
    | none => v)

/-- Counts the exits of lanes in their launch's record and bitmap (R20, R299). -/
def State.countExits (s : State) (w : Wave) (lanes : List Nat) (st : Nat → Word32) : State :=
  s.onLaunch w.launch fun l =>
    let most := lanes.foldl (fun m i => if m.toNat < (st i).toNat then st i else m) l.maxstatus
    let items := lanes.filterMap fun i => (w.lane i).item
    let ops := (w.ops.filter fun o => !o.complete).map Op.key
    { l with
      maxstatus := most
      nonzero := l.nonzero + (lanes.filter fun i => st i != 0).length
      items := if w.a.drain then l.items else l.items + lanes.length
      exited := if l.desc.cblog = 0xFF then l.exited else l.exited ++ items.map fun n => ⟨n, w.key, ops, w.seq⟩ }

/-- `exit` (R152). In deterministic mode it ends the visit, and a wave it leaves with nothing to do retires within it (R365, R369). -/
def execExit (a : Byte) (s : State) : Result :=
  issueWord (.exit a) s fun s w p =>
    let on := w.active p
    let st (i : Nat) : Word32 := w.src a .raw i
    let bad := w.differing on fun i => (st i).toNat
    if bad ≠ 0 then s.mismatch w p bad false
    else if on = 0 then .next ((s.putWave (w.advance p)).visitWord w.key)
    else
      let s := s.countExits w (w.performers on) st
      let w := (w.advance p).vacateLanes on
      let s := s.putWave w
      let s := if w.a.live == 0 then s.wholeVacant w else s
      let s := match s.wave? w.key with
        | some x => if x.status == WaveStatus.retiring && s.deterministic x && x.mayRetire then s.retireWave x else s
        | none => s
      .next (s.visitWord w.key)

/-- Region entries open around any split. -/
def Wave.openRegions (w : Wave) : Nat := (w.a.entries.filter fun e => match e with | .region _ _ _ _ => true | _ => false).length

/-- The freshly filled lanes join the issuing split, in the suspended control state too where a handler refills. -/
def Wave.joinFresh (w : Wave) (p : Split) (new : Mask) : Wave :=
  let w := w.setSplit { p with lanes := p.lanes ||| new }
  { w with frame := w.frame.map fun f =>
      { f with
        live := f.live ||| new
        splits := f.splits.map fun (q : Split) => if q.lanes.has f.lane then { q with lanes := q.lanes ||| new } else q } }

/-- What a deal by a handler adds to the wave's checkpoint, which a handler's head does not replace (R18, R243): the same items in the same lanes,
which join the split that trapped (DESIGN CHOICE, log 27). -/
def Wave.dealCheckpoint (w : Wave) (f : TrapFrame) (d : Desc) (items : List Nat) : Wave :=
  { w with checkpoint := w.checkpoint.map fun c =>
      let v := { w with a := c.arch, frame := none }.deal d items
      let new := v.a.live.diff c.arch.live
      let at_ := if v.a.splits.any fun q => q.lanes.has f.lane then f.lane else (v.lowestSplit.map fun q => q.lanes.lowest w.W).getD 0
      { c with arch := { v.a with
          splits := v.a.splits.map fun (q : Split) => if q.lanes.has at_ then { q with lanes := q.lanes ||| new } else q } } }

/-- `refill` (R153, R21): the deal and the checkpoint of the region it opens form one step (R18); a fault then pending is kept with the checkpoint
(R208). A deal that is an acquire fence (R301) holds the split after it, not the deal (R153, item 3). It does not wait for a split that stands in an
issued `launch`, whose interval the checkpoint leaves open (DEDUCED, log 27). In a handler, which takes no checkpoint (R243), the deal enters the wave's
own. -/
def execRefill (d : Byte) (s : State) : Result :=
  issueWord (.refill d) s fun s w p =>
    if w.openRegions > 0 then s.trapAt w p trapREFILLDEPTH w.openRegions p.lanes
    else if !w.settled || !s.hasToken w then .next s
    else match s.launch? w.launch with
    | none => .next s
    | some l =>
      let most := if w.a.drain then 0 else w.vacant.length
      let items := s.dealRun l most
      if l.desc.deterministic && decide (items.length < min most (l.total - l.dealer)) then .next s
      else
        let old := w.allLive
        let w := match w.frame with
          | some f => if items = [] then w else w.dealCheckpoint f l.desc items
          | none => w
        let w := if items = [] then { w with a := { w.a with fresh := 0 } } else w.deal l.desc items
        let new := w.a.live.diff old
        let p' := { p with lanes := p.lanes ||| new }.dealt (s.restsOnBit l items)
        let w := (w.joinFresh p new).setPred d.toNat p'.lanes new
        let w := w.advance p'
        let head := w.regionAt p.after 0
        let w := if w.system then w else w.takeCheckpoint head p.after none (s.deterministic w)
        .next (((s.advanceDealer l.key items.length).putWave w).clearLanes w new)

end Sys2Proof.Machine
end

