-- ==== Sys2Proof/Machine/Launches.lean ====
section
/-! DEFINITION. Queues, launches and placement (R291-R314), replay (R348), the assay (R312, R353) and the divergence of a replayed
deterministic launch (R376). -/

namespace Sys2Proof.Machine

/-! ### Descriptors (R293, R294, R300) -/

/-- Reads a launch descriptor from its 128 bytes (R293). -/
def Desc.ofBytes (bs : List Byte) : Desc where
  next := field bs 0x00 8
  handle := field bs 0x08 8
  ex := field bs 0x10 4
  ey := field bs 0x14 4
  ez := field bs 0x18 4
  crews := field bs 0x1C 4
  submask := BitVec.ofNat 160 (field bs 0x20 20)
  deterministic := (field bs 0x34 1).testBit 0
  replay := (field bs 0x34 1).testBit 1
  flagsReserved := field bs 0x34 1 / 4
  ndeps := field bs 0x35 1
  nsucc := field bs 0x36 1
  cblog := field bs 0x37 1
  params := field bs 0x38 8
  launchid := field bs 0x40 4
  predcount := field bs 0x44 2
  quantum := field bs 0x46 2
  succaddr := field bs 0x48 8
  recaddr := field bs 0x50 8
  seq := field bs 0x58 8
  deps := (List.range 4).map fun k => field bs (0x60 + 8 * k) 8

/-- Writes a descriptor as its 128 bytes (R293, R388). -/
def Desc.toBytes (d : Desc) : List Byte :=
  leBytes 8 d.next ++ leBytes 8 d.handle ++ leBytes 4 d.ex ++ leBytes 4 d.ey ++ leBytes 4 d.ez ++ leBytes 4 d.crews ++
    leBytes 20 d.submask.toNat ++
    leBytes 1 ((if d.deterministic then 1 else 0) + (if d.replay then 2 else 0) + 4 * d.flagsReserved) ++
    leBytes 1 d.ndeps ++ leBytes 1 d.nsucc ++ leBytes 1 d.cblog ++ leBytes 8 d.params ++ leBytes 4 d.launchid ++
    leBytes 2 d.predcount ++ leBytes 2 d.quantum ++ leBytes 8 d.succaddr ++ leBytes 8 d.recaddr ++ leBytes 8 d.seq ++
    d.deps.flatMap (leBytes 8)

/-- A tile-dependence entry (R300). -/
def Dep.ofNat (x : Nat) : Dep :=
  ⟨x / 2 ^ 32, x / 2 ^ 24 % 256, x / 2 ^ 16 % 256, signed 10 (x / 64), x % 64⟩

/-- The dependences a descriptor uses. -/
def Desc.used (d : Desc) : List Dep := (d.deps.take d.ndeps).map Dep.ofNat

/-- Items of a descriptor's item space (R8). -/
def Desc.total (d : Desc) : Nat := d.ex * d.ey * d.ez

/-- An accepted launch of a queue that has not completed, by identifier. -/
def State.openLaunch (s : State) (q launchid : Nat) : Option Launch :=
  s.launches.find? fun l => l.queue == q && l.open_ && l.desc.launchid == launchid

/-- Does a dependence fail its check (R300)? A window of 0 is outside its range. -/
def State.depRefused (s : State) (q : Nat) (d : Dep) : Bool :=
  d.w == 0 || match s.openLaunch q d.producer with
    | some l => l.desc.cblog != d.b || l.desc.cblog == 0xFF
    | none => false

/-- Does the queue as it stands refuse a descriptor: its core mask, the identifiers of its open launches, the producers of the tile dependences (R293,
R294, R300)? A child is held to it again when it is appended (log 30). -/
def State.refusesNow (s : State) (q : Nat) (d : Desc) : Bool :=
  (d.submask &&& ~~~(s.queue q).mask) != 0 || (s.openLaunch q d.launchid).isSome || d.used.any (s.depRefused q)

/-- Why a descriptor is refused (R294, R8, R89, R251, R362, R381): true when any condition holds. `parent`: the caller of a child. -/
def State.refuses (s : State) (q ctx : Nat) (d : Desc) (parent : Option Launch) : Bool :=
  match s.object? ctx d.handle with
  | none => true
  | some o =>
    d.ex == 0 || d.ey == 0 || d.ez == 0 || decide (d.total ≥ 2 ^ 48) ||
    (d.replay && (!o.replay || !s.feature 3 || !((parent.map Launch.replayable).getD true))) ||
    (!d.deterministic && o.detreq) || (d.deterministic && (!s.feature 2 || d.crews == 0)) ||
    d.flagsReserved != 0 || decide (d.ndeps > 4) || decide (d.nsucc > 32) || (d.deps.drop d.ndeps).any (· != 0) ||
    s.refusesNow q d || d.recaddr == 0 || d.recaddr % 32 != 0 ||
    (d.cblog != 0xFF && (decide (d.cblog > 40) || decide ((d.total + 2 ^ d.cblog - 1) / 2 ^ d.cblog > 2 ^ 20)))

/-- The trace log a deterministic launch takes from its queue's setting (R372, R373); in replay the entries the log holds bound it. -/
def State.openLog (s : State) (l : Launch) (base size mode : Nat) : Option TraceLog :=
  let t : TraceLog := ⟨base, size, mode, if mode = 2 then 4 else 1, 0, 0, 0, 0, 0, 0⟩
  if mode = 0 then none
  else if mode = 2 then some { t with size := min size (64 + 96 * field (s.logRead l base 64) 8 8) }
  else some t

/-- Accepts a launch (R292, R295, R298, R372): its place in the acceptance order, the held decrements of its identifier, its dependences'
producers, and its trace log. A held decrement beyond the count kills as the others do (DESIGN CHOICE, log 30). -/
def State.accept (s : State) (q va : Nat) (d : Desc) (o : Object) (depth : Nat) (parent : Option Nat) (succs : List Nat) : State :=
  let (key, s) := s.newKey
  let qu := s.queue q
  let mine := qu.held.filter fun x => x.1 == d.launchid
  let l := Launch.accepted key q s.acceptances d o depth parent
  let l := { l with
    descAt := va
    predcount := d.predcount - mine.length
    killed := mine.any Prod.snd
    succs := succs
    deps := d.used.map fun x => (x, (s.openLaunch q x.producer).map Launch.key) }
  let log := match d.deterministic, qu.tlog with
    | true, some (base, size, mode) => s.openLog l base size mode
    | _, _ => none
  let s := s.onQueue q fun qu => { qu with
    held := qu.held.filter fun x => x.1 != d.launchid
    tlog := if d.deterministic then none else qu.tlog }
  ({ s with launches := s.launches ++ [{ l with log := log }], acceptances := s.acceptances + 1 }.tookLog key).writeHeader key

/-- What keeps a deterministic launch from being accepted: the trace log that its queue's setting gives it cannot be reached now (R372). -/
def State.acceptHolds (s : State) (q ctx : Nat) (d : Desc) : Option DeviceErr :=
  match d.deterministic, (s.queue q).tlog with
  | true, some (base, size, mode) => s.logTrouble ctx base size (mode == 2)
  | _, _ => none

/-- Refuses a host descriptor (R294): status 2, stopat, and an entry in the error log. -/
def State.refuseDescriptor (s : State) (q va : Nat) : State :=
  let ctx := (s.queue q).context.toNat
  (s.onQueue q fun qu => { qu with status := 2, stopat := BitVec.ofNat 64 va, reading := none }).logError va ctx (homeOf va) trapDESC 0xFFFF 0

/-- The successor identifiers at an address in main memory. -/
def State.readSuccs (s : State) (ctx : Nat) (d : Desc) : Except DeviceErr (List Nat) :=
  match s.deviceRead ctx d.succaddr (4 * d.nsucc) with
  | .error e => .error e
  | .ok bs => .ok ((List.range d.nsucc).map fun k => field bs (4 * k) 4)

/-- A read of the chain that failed: a type 0 entry waits; anything else refuses the descriptor. -/
def State.chainFailed (s : State) (q va : Nat) (e : DeviceErr) : State :=
  let s := s.deviceFailed (s.queue q).context.toNat 0 e
  if e.waits then s else s.refuseDescriptor q va

/-- DESCRIPTOR_ACCEPT (R292, R294, R295): a running queue reads the next descriptor of its chain, and accepts or refuses it; after the one
at tail it waits for a further tail. A tail of zero names no descriptor. -/
def execDescriptorAccept (q : Nat) (s : State) : Result :=
  let qu := s.queue q
  let ctx := qu.context.toNat
  if qu.status ≠ 1 ∨ qu.tail = 0 then .next s
  else match qu.reading with
  | none => .next s
  | some (true, va) =>
    if qu.tail.toNat = va then .next s
    else match s.deviceRead ctx va 8 with
      | .error e => .next (s.chainFailed q va e)
      | .ok bs => .next ((s.deviceTook ctx va 8).onQueue q fun qu => { qu with reading := some (false, field bs 0 8) })
  | some (false, va) =>
    match s.deviceRead ctx va 128 with
    | .error e => .next (s.chainFailed q va e)
    | .ok bs =>
      let d := Desc.ofBytes bs
      if s.refuses q ctx d none then .next (s.refuseDescriptor q va)
      else match s.readSuccs ctx d, s.object? ctx d.handle with
        | .error e, _ => .next (s.chainFailed q va e)
        | _, none => .next (s.refuseDescriptor q va)
        | .ok succs, some o => match s.acceptHolds q ctx d with
          | some e => .next (s.deviceFailed ctx 1 e)
          | none =>
          let s := ((s.deviceTook ctx va 128).deviceTook ctx d.succaddr (4 * d.nsucc)).accept q va d o 0 none succs
          .next (s.onQueue q fun qu => { qu with reading := some (if qu.tail.toNat = va then (true, va) else (false, d.next)) })

/-- TAIL_WRITE (R292, R313): the host writes tail; while the queue is stopped it is only recorded. -/
def execTailWrite (q : Nat) (tail : Word64) (s : State) : Result := .next (s.onQueue q fun qu => { qu with tail := tail })

/-! ### Resources and placement (R303-R307) -/

/-- Passes of an object's waves (R11). -/
def Object.passes (o : Object) : Nat := (o.width + 31) / 32
/-- Resident vector registers r (R303, R385). -/
def Object.resident (o : Object) : Nat := min o.vregs (1024 / o.passes)
/-- Vector rows of a wave (R303). -/
def Object.rows (o : Object) : Nat := (o.resident * o.passes + 15) / 16 * 16
/-- Accumulator tiles of a wave (R303). -/
def Object.tilesNeeded (o : Object) : Nat := if o.tier = 2 then 2 * o.acc else o.acc
/-- Crew-store granules of a crew (R303). -/
def Object.storeGranules (o : Object) : Nat := o.crewstore / 4096
/-- Marver granules of a launch on a die (R306). -/
def Object.marverGranules (o : Object) : Nat :=
  match o.tier with
  | 2 => (o.marver * 9 + 32767) / 32768
  | 1 => (o.marver * 18 + 69631) / 69632
  | _ => (o.marver + 4095) / 4096

/-- What a partition holds: wave slots in use, rows and tiles taken. -/
structure PartUse where
  slots : List Nat
  rows : Nat
  tiles : Nat
  deriving DecidableEq, Repr

/-- What a core holds: crew slots and crew-store granules taken, and its partitions. -/
structure CoreUse where
  crews : Nat
  granules : Nat
  parts : List PartUse
  deriving DecidableEq, Repr

/-- A core that holds nothing. -/
def CoreUse.empty : CoreUse := ⟨0, 0, List.replicate Config.partitionsPerCore ⟨[], 0, 0⟩⟩

/-- Is some access still bound to a crew's store (R187, R309): bytes of a source not yet read, or of a destination not yet written; but for copies
of its own waves that a stop abandons (R209, R284)? -/
def State.boundTo (s : State) (crew : Nat) : Bool :=
  let here : LocalAt → Bool
    | .crew k _ => k == crew
    | _ => false
  s.waves.any fun w =>
    (w.port.any fun x => match x.job with
      | .vload _ _ _ _ accs => accs.any fun a => here a.at_ || (a.scale.map here).getD false
      | .sload _ _ a b => here a || here b
      | .store writes => writes.any fun y => here y.1
      | .atomic _ => false) ||
    (w.ops.any fun o => !(w.crew == crew && o.abandonable) && o.pieces.any fun x =>
      (x.data.any Option.isNone && (x.src.map here).getD false) || (!x.done && (x.dst.map here).getD false))

/-- The object of a crew's launch. -/
def State.crewObject (s : State) (c : Crew) : Option Object := (s.launch? c.launch).map Launch.obj

/-- What a core holds now (R303): placed crews and their waves that have not retired; a crew's store also while an access is bound to it. -/
def State.coreUse (s : State) (core : Nat) : CoreUse :=
  let here := s.crews.filter fun c => c.core == core
  let placed := here.filter Crew.placed
  let gone := here.filter fun c => !c.placed && s.boundTo c.key && !(s.waves.any fun w => w.crew == c.key && w.status != .retired)
  let grans (cs : List Crew) : Nat := (cs.filterMap s.crewObject).foldl (fun n o => n + o.storeGranules) 0
  let waves := s.waves.filter fun w => w.core == core && w.status != .retired && placed.any fun c => c.key == w.crew
  let part (p : Nat) : PartUse :=
    let ws := waves.filter fun w => w.partition == p
    ⟨ws.map Wave.slot, ws.foldl (fun n w => n + w.kern.rows) 0, ws.foldl (fun n w => n + w.kern.tilesNeeded) 0⟩
  ⟨placed.length, grans placed + grans gone, (List.range Config.partitionsPerCore).map part⟩

/-- Does a wave fit in a partition? -/
def PartUse.fits (u : PartUse) (o : Object) : Bool :=
  decide (u.slots.length < Config.slotsPerPartition) && decide (u.rows + o.rows ≤ Config.rowsPerPartition) &&
    decide (u.tiles + o.tilesNeeded ≤ Config.tilesPerPartition)

/-- The partition R305 gives a wave: of those it fits in, the one with the most free rows, then the lowest. -/
def choosePart (parts : List PartUse) (o : Object) : Option Nat :=
  (parts.zipIdx.filter fun (u, _) => u.fits o).foldl (fun best (u, i) => match best with
    | some j => if u.rows < ((parts[j]?).map PartUse.rows).getD 0 then some i else some j
    | none => some i) none

/-- The lowest free wave slot of a partition. -/
def PartUse.freeSlot (u : PartUse) : Nat :=
  ((List.range Config.slotsPerPartition).find? fun k => !u.slots.contains k).getD 0

/-- Places n waves on partitions (R305): their partitions and slots, and what the partitions then hold. -/
def placeWaves (o : Object) : Nat → List PartUse → Option (List (Nat × Nat) × List PartUse)
  | 0, parts => some ([], parts)
  | n + 1, parts =>
    match choosePart parts o with
    | none => none
    | some p =>
      let slot := ((parts[p]?).map PartUse.freeSlot).getD 0
      let parts := modifyAt parts p fun u => ⟨u.slots ++ [slot], u.rows + o.rows, u.tiles + o.tilesNeeded⟩
      (placeWaves o n parts).map fun (ps, u) => ((p, slot) :: ps, u)

/-- Does a core take a crew of n waves (R303, R305)? -/
def CoreUse.take (c : CoreUse) (o : Object) (n : Nat) : Option (List (Nat × Nat) × CoreUse) :=
  if c.crews < Config.crewsPerCore ∧ c.granules + o.storeGranules ≤ Config.granulesPerCore then
    (placeWaves o n c.parts).map fun (ps, parts) => (ps, ⟨c.crews + 1, c.granules + o.storeGranules, parts⟩)
  else none

/-- The effective mask of a launch (R293). -/
def State.effectiveMask (s : State) (l : Launch) : BitVec 160 :=
  if l.desc.submask = 0 then (s.queue l.queue).mask else l.desc.submask

/-- Its cores, ascending. -/
def State.maskCores (s : State) (l : Launch) : List Nat :=
  (List.range Config.cores).filter fun k => (s.effectiveMask l).getLsbD k

/-- The cores in the order a crew is offered to them (R304, R314): after the core that took the launch's last crew, with wrap-around. -/
def offerOrder (cores : List Nat) (last : Option Nat) : List Nat :=
  match last with
  | none => cores
  | some k => cores.filter (fun c => decide (c > k)) ++ cores.filter fun c => decide (c ≤ k)

/-- The cluster of a core. -/
def State.clusterOf (s : State) (core : Nat) : Cluster := nth s.clusters (core / 8) Cluster.reset

/-- Does a core take crews: is its cluster in service and not due for or under the assay (R312, R353)? -/
def State.coreOpen (s : State) (core : Nat) : Bool := (s.clusterOf core).inService && !(s.clusterOf core).due

/-- Granules of the bitmap of a launch (R306). -/
def Launch.bitmapGranules (l : Launch) : Nat := if l.desc.cblog = 0xFF then 0 else (l.blocks + 32767) / 32768

/-- The die whose marver holds a launch's bitmap (R306): the lowest-numbered of its effective mask. -/
def State.bitmapDie (s : State) (l : Launch) : Nat := ((s.maskCores l).head?.getD 0) / 40

/-- Marver granules in use on a die (R306): allotments and bitmaps of started launches. -/
def State.marverUsed (s : State) (die : Nat) : Nat :=
  (s.launches.filter fun l => l.state == .started).foldl (fun n l =>
    n + (if l.marver.any fun x => x.1 == die then l.obj.marverGranules else 0) +
      (if s.bitmapDie l = die then l.bitmapGranules else 0)) 0

/-- Has a die room for a launch's marver allotment, or the allotment already (R306)? -/
def State.marverRoom (s : State) (l : Launch) (die : Nat) : Bool :=
  (l.marver.any fun x => x.1 == die) || decide (s.marverUsed die + l.obj.marverGranules ≤ Config.marverGranulesPerDie)

/-- The first core that takes a crew of n waves of a launch, with the waves' partitions and slots. `die`: the die a stopped crew must
return to (R309). -/
def State.offer (s : State) (l : Launch) (n : Nat) (die : Option Nat) : Option (Nat × List (Nat × Nat)) :=
  (offerOrder (s.maskCores l) l.lastCore).findSome? fun c =>
    if !s.coreOpen c || !((die.map fun d => d == c / 40).getD true) || !s.marverRoom l (c / 40) then none
    else ((s.coreUse c).take l.obj n).map fun x => (c, x.1)

/-- Places crews on cores that hold nothing else, for R363: true when all of them fit together. `bitmap`: granules of the launch's own bitmap on a
die (R306). -/
def allFit (o : Object) (order : List Nat) (bitmap : Nat → Nat) : Nat → Option Nat → List (Nat × CoreUse) → List Nat → Bool
  | 0, _, _, _ => true
  | n + 1, last, used, dies =>
    let useOf (c : Nat) : CoreUse := ((used.find? fun x => x.1 == c).map Prod.snd).getD CoreUse.empty
    let hit := (offerOrder order last).findSome? fun c =>
      if !dies.contains (c / 40) && decide (o.marverGranules + bitmap (c / 40) > Config.marverGranulesPerDie) then none
      else ((useOf c).take o o.crewwaves).map fun x => (c, x.2)
    match hit with
    | none => false
    | some (c, u) => allFit o order bitmap n (some c) ((c, u) :: used.filter fun x => x.1 != c) (c / 40 :: dies)

/-- Can all crews of a deterministic launch be placed together, with every core of its mask empty (R363)? No core takes more than its
crew slots. -/
def State.placeable (s : State) (l : Launch) : Bool :=
  decide (l.desc.crews ≤ Config.cores * Config.crewsPerCore) && allFit l.obj (s.maskCores l)
    (fun die => if s.bitmapDie l = die then l.bitmapGranules else 0) l.desc.crews none [] []

/-! ### Starting (R296, R363) -/

/-- Is a producer of one of a launch's dependences killed (R298)? -/
def State.producerKilled (s : State) (l : Launch) : Bool :=
  l.deps.any fun (_, k) => ((k.bind s.launch?).map Launch.killed).getD false

/-- May a launch start (R296)? -/
def State.startable (s : State) (l : Launch) : Bool :=
  l.state == .accepted && !l.killed && l.predcount == 0 &&
    (l.desc.cblog == 0xFF || decide (s.marverUsed (s.bitmapDie l) + l.bitmapGranules ≤ Config.marverGranulesPerDie))

/-- A parameter snapshot whose read received an error response: its bytes are free. -/
def State.freeBytes (s : State) (n : Nat) : List Byte × State :=
  ((List.range n).map fun k => (Config.freeWord (s.fresh + k)).setWidth 8, { s with fresh := s.fresh + n })

/-- Does the parameter snapshot of a launch wait, so that the launch holds back no later one (R296)? -/
def State.snapshotWaits (s : State) (l : Launch) : Bool :=
  match s.deviceRead l.ctx l.desc.params l.obj.params with
  | .error e => e.waits
  | .ok _ => false

/-- Has a launch an earlier one of its queue before it that may start (R296)? -/
def State.startsAfter (s : State) (x : Launch) : Bool :=
  s.launches.any fun y => y.queue == x.queue && decide (y.order < x.order) && s.startable y && !s.snapshotWaits y

/-- LAUNCH_START (R296, R139, R298, R363): the first startable launch of its queue takes its parameter snapshot; one whose producer was
killed, and a deterministic one whose crews cannot all be placed, is killed instead. -/
def execLaunchStart (l : Nat) (s : State) : Result :=
  match s.launch? l with
  | none => .next s
  | some x =>
    if !s.startable x || s.startsAfter x then .next s
    else if s.producerKilled x then .next (s.onLaunch l fun x => { x with killed := true })
    else
      let start (s : State) (bs : List Byte) : State :=
        let s := s.onLaunch l fun x => { x with state := .started, params := bs }
        if x.desc.deterministic && !s.placeable x then
          (s.onLaunch l fun x => { x with killed := true }).logError x.descAt x.ctx (homeOf x.descAt) trapDESC 0xFFFF 0
        else s
      match s.deviceRead x.ctx x.desc.params x.obj.params with
      | .ok bs => .next (start (s.deviceTook x.ctx x.desc.params x.obj.params) bs)
      | .error e =>
        let s := s.deviceFailed x.ctx 0 e
        if e.waits then .next s
        else
          let (bs, s) := s.freeBytes x.obj.params
          .next (start s bs)

/-! ### Placing crews (R302, R307, R309, R314) -/

/-- Crews of a launch that are stopped and wait to be placed again, by ordinal. -/
def State.stopped (s : State) (l : Launch) : List Crew :=
  (s.crews.filter fun c => c.launch == l.key && !c.placed && s.waves.any fun w => w.crew == c.key && w.status != .retired)

/-- The stopped crew that is offered first: the lowest ordinal (R314). -/
def State.firstStopped (s : State) (l : Launch) : Option Crew :=
  (s.stopped l).foldl (fun best c => match best with
    | some b => if c.ordinal < b.ordinal then some c else some b
    | none => some c) none

/-- Has a launch a crew to create (R302)? The crew before it has taken its creation deals. -/
def State.creating (s : State) (l : Launch) : Bool :=
  !(s.waves.any fun w => w.launch == l.key && w.status == .awaitingCreationDeal) &&
    (if l.desc.crews ≠ 0 then decide (l.crewsMade < l.desc.crews) else l.crewsMade == 0 || decide (l.dealer < l.total))

/-- The waves of a crew that have not retired, by ordinal. -/
def State.crewWaves (s : State) (c : Nat) : List Wave :=
  (List.range 16).flatMap fun n => s.waves.filter fun w => w.crew == c && w.ordinal == n && w.status != .retired

/-- Where a launch's waiting crew would be placed: a stopped crew before a new one. -/
def State.nextPlace (s : State) (l : Launch) : Option (Nat × List (Nat × Nat)) :=
  if l.state != .started || l.killed || l.replaying || (s.queue l.queue).evicted then none
  else match s.firstStopped l with
    | some c => s.offer l (s.crewWaves c.key).length (some (c.core / 40))
    | none => if s.creating l then s.offer l l.obj.crewwaves none else none

/-- The queue the distributor served last: queue 255 while it has served none, so that the first round begins at queue 0 (DESIGN CHOICE, log 31). -/
def State.lastServed (s : State) : Nat :=
  ((s.queues.zipIdx).foldl (fun (best : Nat × Nat) (q, i) => if q.served > best.1 then (q.served, i) else best) (0, Config.queues - 1)).2

/-- Is one launch served before another (R307): higher priority, then the round of queues, then acceptance order? -/
def State.servedBefore (s : State) (a b : Launch) : Bool :=
  let pa := (s.queue a.queue).prio
  let pb := (s.queue b.queue).prio
  let turn (l : Launch) : Nat := (l.queue + Config.queues - 1 - s.lastServed) % Config.queues
  decide (pa > pb) || (pa == pb && (decide (turn a < turn b) || (turn a == turn b && decide (a.order < b.order))))

/-- Is it a launch's turn at the distributor: no launch served before it has a crew that fits somewhere? -/
def State.placeTurn (s : State) (l : Launch) : Bool :=
  !(s.launches.any fun x => s.servedBefore x l && (s.nextPlace x).isSome)

/-- Notes that the distributor served a queue. -/
def State.noteServed (s : State) (q : Nat) : State :=
  let n := s.queues.foldl (fun n q => max n q.served) 0
  s.onQueue q fun qu => { qu with served := n + 1 }

/-- The creation deal of a new wave (R17): a run of dealable items; with none the wave waits, or follows R22 when no item is left. -/
def State.creationDeal (s : State) (k : Nat) : State :=
  match s.wave? k with
  | none => s
  | some w => match s.launch? w.launch with
    | none => s
    | some l =>
      let items := s.dealRun l w.V
      if items ≠ [] then s.dealStart w l items
      else if l.dealer < l.total then s
      else s.wholeVacant w

/-- CREW_PLACE (R302-R307, R14, R17): the distributor places a launch's next crew on the first core that takes it, and its waves take their
creation deals in order. -/
def execCrewPlace (l : Nat) (s : State) : Result :=
  match s.launch? l with
  | none => .next s
  | some x =>
    if (s.firstStopped x).isSome || !s.placeTurn x then .next s
    else match s.nextPlace x with
    | none => .next s
    | some (core, places) =>
      let (key, s) := s.newKey
      let crew : Crew := ⟨key, l, x.crewsMade, core, [], List.replicate 16 [], true, false⟩
      let waves := places.zipIdx.map fun ((p, slot), n) => Wave.new (s.nextKey + n) l key n core p slot s.clock x.obj
      let s := { s with crews := s.crews ++ [crew], waves := s.waves ++ waves, nextKey := s.nextKey + places.length }
      let s := s.onLaunch l fun x =>
        { x with
          crewsMade := x.crewsMade + 1
          lastCore := some core
          marver := if x.marver.any fun y => y.1 == core / 40 then x.marver else x.marver ++ [(core / 40, [])] }
      .next ((waves.map Wave.key).foldl State.creationDeal (s.noteServed x.queue))

/-- A wave that is placed again reads its checkpoint back: one whose lines are lost escalates, with their address
as trapaddr (R345-R347). -/
def State.readBack (s : State) (w : Wave) : State :=
  match s.readCullet w with
  | (s, false) => s
  | (s, true) =>
    s.escalate w ⟨0x11, trapUE, culletLine w.key, w.a.live, 0xFFFF, false, none, (w.checkpoint.map Checkpoint.headPc).getD 0, 0x07, s.clock⟩

/-- CREW_REPLACE (R309, R314): a stopped crew of the lowest ordinal is placed again on its die, and its waves go on from their
checkpoints. -/
def execCrewReplace (crew : Nat) (s : State) : Result :=
  match s.crew? crew with
  | none => .next s
  | some c => match s.launch? c.launch with
    | none => .next s
    | some x =>
      if (s.firstStopped x).map Crew.key != some crew || !s.placeTurn x then .next s
      else match s.nextPlace x with
      | none => .next s
      | some (core, places) =>
        let place : List (Nat × Nat × Nat) := ((s.crewWaves crew).map Wave.key).zip places
        let s := { s with waves := s.waves.map fun (w : Wave) => match place.find? fun (y : Nat × Nat × Nat) => y.1 == w.key with
          | some (_, p, slot) => { w with core := core, partition := p, slot := slot }
          | none => w }
        let s := s.onCrew crew fun c => { c with placed := true, core := core }
        let s := s.onLaunch x.key fun x =>
          { x with
            lastCore := some core
            marver := if x.marver.any fun y => y.1 == core / 40 then x.marver else x.marver ++ [(core / 40, [])] }
        .next (((s.crewWaves crew).foldl State.readBack s).noteServed x.queue)

/-! ### Stopping crews (R309, R310, R312) -/

/-- Asks for a crew to be stopped. -/
def State.stopCrews (s : State) (which : Crew → Bool) : State :=
  { s with crews := s.crews.map fun (c : Crew) => if c.placed && which c then { c with stopReq := true } else c }

/-- A stopped wave keeps its checkpoint, from which it goes on; its registers are discarded (R309, R371). -/
def State.stopWave (s : State) (w : Wave) : Wave :=
  if w.status == .retired || w.status == .retiring then { w with ops := [], port := [] } else s.restarted w

/-- CREW_PREEMPT (R309, R248, R369): a crew that was asked to stop, and whose waves may all stop, frees what it holds; its store is kept.
Arrivals at its barriers are withdrawn outside deterministic mode. -/
def execCrewPreempt (crew : Nat) (s : State) : Result :=
  match s.crew? crew with
  | none => .next s
  | some c =>
    let mine := s.crewWaves crew
    if !c.placed || !c.stopReq || mine.any (fun w => !s.mayStop w) || s.boundTo crew then .next s
    else
      let det := ((s.launch? c.launch).map fun l => l.desc.deterministic).getD false
      let s := { s with waves := s.waves.map fun (w : Wave) => if w.crew == crew then s.stopWave w else w }
      let s := mine.foldl State.clearWaveErrors s
      let s := s.onCrew crew fun c =>
        { c with placed := false, stopReq := false, barriers := if det then c.barriers else List.replicate 16 [] }
      .next (s.holdCluster (c.core / 8))

/-! ### Completing (R24, R295-R299) -/

/-- The completion record (R20). -/
def Launch.record (l : Launch) (done : Bool) : List Byte :=
  let bit (b : Bool) (k : Nat) : Nat := if b then 2 ^ k else 0
  leBytes 4 l.maxstatus.toNat ++ leBytes 4 0 ++ leBytes 8 l.items ++ leBytes 8 l.nonzero ++ leBytes 4 l.desc.launchid ++
    leBytes 4 (bit done 0 + bit l.killed 1 + bit l.replayed 2 + bit l.logended 3 + bit (done && decide (l.dealer < l.total)) 4)

/-- Has a launch retired every crew it creates (R24, R302)? -/
def Launch.crewsDone (l : Launch) : Bool :=
  l.crewsRetired == l.crewsMade &&
    (l.killed || (if l.desc.crews ≠ 0 then l.crewsMade == l.desc.crews else l.crewsMade != 0 && l.dealer == l.total))

/-- Does a launch meet R24: crews retired, operations and side-logged stores performed, every write to host memory accepted (R287), children
completed? A launch killed before it
started has none of these (R298). -/
def State.mayComplete (s : State) (l : Launch) : Bool :=
  l.open_ && (if l.state == .accepted then l.killed else l.crewsDone) && (!l.replaying || l.killed) && s.hostWrites == 0 &&
    !(s.sideLog.any fun e => e.launch == l.key) && !(s.launches.any fun x => x.parent == some l.key && x.open_)

/-- Sends one decrement to a queue (R295, R298): to the accepted launch of the identifier that has not started, or held. A killed one that finds the
count at zero is discarded as a decrement and kills the launch still (DESIGN CHOICE, log 30). -/
def State.decrement (s : State) (q : Nat) (killed : Bool) (id : Nat) : State :=
  match s.launches.find? fun l => l.queue == q && l.state == .accepted && l.desc.launchid == id with
  | some l => s.onLaunch l.key fun l => { l with predcount := l.predcount - 1, killed := l.killed || killed }
  | none =>
    s.onQueue q fun qu =>
      if qu.held.length ≥ Config.heldDecrements then { qu with status := 4, reading := none } else { qu with held := qu.held ++ [(id, killed)] }

/-- The sequence value of the completion word (R297): that of the newest launch such that it and all accepted before it have completed. -/
def State.wordValue (s : State) (q : Nat) : Option Nat :=
  let mine := s.launches.filter fun l => l.queue == q
  let first := (mine.filter Launch.open_).foldl (fun (best : Option Nat) l => match best with | some n => some (min n l.order) | none => some l.order) none
  let done := mine.filter fun l => !l.open_ && (match first with | some n => decide (l.order < n) | none => true)
  (done.foldl (fun (best : Option Launch) l => match best with
    | some b => if b.order < l.order then some l else some b
    | none => some l) none).map fun l => l.desc.seq

/-- Ends the trace log of a completed launch (R375, R376). -/
def State.endLog (s : State) (lk : Nat) : State :=
  (s.onLog lk fun t => { t with state := if t.state = 1 then 2 else if t.state = 4 then 5 else t.state }).writeHeader lk

/-- Drops the waves and crews of a launch, with the bit errors in what they held. -/
def State.dropCrews (s : State) (lk : Nat) : State :=
  let waves := (s.waves.filter fun w => w.launch == lk).map Wave.key
  let crews := (s.crews.filter fun c => c.launch == lk).map Crew.key
  { s with
    waves := s.waves.filter fun w => w.launch != lk
    crews := s.crews.filter fun c => c.launch != lk
    softErrors := s.softErrors.filter fun e => match e.site with
      | .vreg k _ _ | .sreg k _ _ | .tile k _ _ _ | .splitTable k | .pipeline k => !waves.contains k
      | .crewStore k _ => !crews.contains k
      | .marver k _ _ => k != lk
      | _ => true }

/-- LAUNCH_COMPLETE (R24, R297, R298, R348): shadows are committed, the record is written, allotments are freed, successors are decremented and
the completion word is updated. A completion word at address zero is none. -/
def execLaunchComplete (l : Nat) (s : State) : Result :=
  match s.launch? l with
  | none => .next s
  | some x =>
    let cword := (s.queue x.queue).cword.toNat
    if !s.mayComplete x then .next s
    else match s.deviceWaits x.ctx x.desc.recaddr 32 <|> (if cword = 0 then none else s.deviceWaits x.ctx cword 8) <|> s.logHolds x with
    | some e => .next (s.deviceFailed x.ctx 1 e)
    | none =>
      let s := (s.endLog l).commitShadows l
      let s := s.deviceStore x.ctx x.desc.recaddr (x.record true)
      let s := ((s.dropCrews l).onLaunch l fun x =>
        { x with state := .completed, marver := [], bits := [], exited := [], external := [] }).dropNative
      let s := x.succs.foldl (fun s id => s.decrement x.queue x.killed id) s
      let s := if x.killed then
          { s with launches := s.launches.map fun (y : Launch) =>
              if y.state == .accepted && y.deps.any fun (z : Dep × Option Nat) => z.2 == some l then { y with killed := true } else y }
        else s
      match s.wordValue x.queue with
      | some v => .next (if cword = 0 then s else s.deviceStore x.ctx cword (leBytes 8 v))
      | none => .next s

/-- Has every item of block p of a launch been exited, with its wave's local accesses and operations of that moment completed and side-logged
stores performed, as a release fence of package scope has them (R299, R278)? An operation that is gone counts as completed, one that a stop of the wave
abandoned too (R209; DESIGN CHOICE, log 31). -/
def State.blockDone (s : State) (l : Launch) (p : Nat) : Bool :=
  let lo := p * 2 ^ l.desc.cblog
  let hi := min (lo + 2 ^ l.desc.cblog) l.total
  decide (lo < hi) && (List.range (hi - lo)).all fun k =>
    match l.exited.find? fun e => e.item == lo + k with
    | none => false
    | some e =>
      !(s.sideLog.any fun y => y.wave == e.wave) &&
        match s.wave? e.wave with
        | none => true
        | some w => !w.portBefore e.seq && e.ops.all fun o => ((w.op? o).map Op.complete).getD true

/-- BITMAP_BIT_SET (R299): bit p of a started launch's completion bitmap is set. -/
def execBitmapBitSet (l p : Nat) (s : State) : Result :=
  match s.launch? l with
  | none => .next s
  | some x =>
    if x.state != .started || x.desc.cblog = 0xFF || decide (p ≥ x.blocks) || x.bits.contains p || !s.blockDone x p then .next s
    else .next (s.onLaunch l fun x => { x with bits := p :: x.bits })

/-! ### Replay (R348) -/

/-- A launch as a replay leaves it: its crews, counts, dealer and bitmap as at its start; allotments read zero. -/
def Launch.again (l : Launch) : Launch :=
  { l with
    replayed := true, replaying := false, dealer := 0, maxstatus := 0, items := 0, nonzero := 0, bits := [], exited := [], crewsMade := 0, crewsRetired := 0
    lastCore := none, tokenCrew := 0, tokenWave := 0, visiting := false
    marver := l.marver.map fun x => (x.1, [])
    log := l.log.map fun t => { t with entries := 0 } }

/-- LAUNCH_REPLAY (R348, R340, R341, R350): a replayable launch is charged 256, and its crews stop, as at pre-emption; once none is placed it runs
again from its start. A charge that leaves the budget at zero or below, or a launch that is not replayable, is a context fault. -/
def execLaunchReplay (l : Nat) (s : State) : Result :=
  match s.launch? l with
  | none => .next s
  | some x =>
    let who : LogFields := { LogFields.none with launchid := x.desc.launchid, context := x.ctx }
    if x.state != .started || x.killed then .next s
    else if !x.replayable then .next (s.contextFault x.ctx who)
    else if !x.replaying then
      let (s, low) := s.charge x.ctx 256
      if low then .next ((s.logIntegrity { who with event := 0x31 }).contextFault x.ctx { who with report := .ofCause trapERRBUDGET })
      else
        let s := (s.onLaunch l fun x => { x with replaying := true }).stopCrews fun c => c.launch == l
        .next (s.logIntegrity { who with event := 0x20 })
    else if s.crews.any fun c => c.launch == l && c.placed then .next s
    else match s.logHolds x with
    | some e => .next (s.deviceFailed x.ctx 1 e)
    | none =>
      let s := s.dropCrews l
      let s := { s with shadows := s.shadows.filter fun y => y.launch != l, sideLog := s.sideLog.filter fun e => e.launch != l }
      .next ((s.onLaunch l Launch.again).writeHeader l)

/-! ### The assay (R312, R353) -/

/-- ASSAY_DUE (R312): a cluster's assay falls due, unless another of its die is under way; every crew on the cluster is asked to stop. -/
def execAssayDue (cluster : Nat) (s : State) : Result :=
  let other := (s.clusters.zipIdx).any fun (c, i) => i / Config.clustersPerDie == cluster / Config.clustersPerDie && c.due
  if other || decide (cluster ≥ s.clusters.length) then .next s
  else
    let s := { s with clusters := modifyAt s.clusters cluster fun (c : Cluster) => { c with due := true, dueAt := s.clock } }
    .next ((s.stopCrews fun c => c.core / 8 == cluster).holdCluster cluster)

/-- The wave of a core, of the lowest partition and slot, that delays the assay: one that stands in an interval of R245. -/
def State.delaying (s : State) (core : Nat) : Option Wave :=
  (s.waves.filter fun w => w.core == core && w.inInterval && !s.mayStop w && ((s.crew? w.crew).map Crew.stopReq).getD false).foldl
    (fun (best : Option Wave) w => match best with
      | some b => if w.partition * 16 + w.slot < b.partition * 16 + b.slot then some w else some b
      | none => some w) none

/-- ASSAY_DELAYED (R312): an assay that its waves hold up beyond 100 ms enters event 0x51 for each such core. -/
def execAssayDelayed (cluster : Nat) (s : State) : Result :=
  let c := nth s.clusters cluster Cluster.reset
  if !c.due || c.holding then .next s
  else .next ((List.range Config.coresPerCluster).foldl (fun s k => match s.delaying (8 * cluster + k) with
    | some w => s.logIntegrity { s.fieldsOf w with event := 0x51 }
    | none => s) s)

/-- ASSAY_END (R312, R353): the hold ends; a failing cluster goes out of service, with an entry whose time is that of its last passed
assay. -/
def execAssayEnd (cluster : Nat) (faulty : Bool) (s : State) : Result :=
  let c := nth s.clusters cluster Cluster.reset
  if !c.holding then .next s
  else
    let put (c' : Cluster) : State := { s with clusters := setAt s.clusters cluster c' }
    if faulty then
      let s' := put { c with due := false, holding := false, inService := false }
      let t := { s' with clock := c.lastPassed }.logIntegrity { LogFields.none with event := 0x50, core := 8 * cluster }
      .next { t with clock := s.clock }
    else .next (put { c with due := false, holding := false, lastPassed := s.clock })

/-! ### Divergence (R376) -/

/-- The lines a word of the front split would read from main memory. -/
def State.linesRead (s : State) (w : Wave) (p : Split) (i : Instr) : List Nat :=
  let ofLanes (a b : Byte) : List Nat := (w.list (w.active p)).map fun l => w.eaddr a b l / 64 * 64
  let ofScalar (a : Byte) : List Nat := [(w.S a.toNat).toNat / 64 * 64]
  let ofCopy (a : Byte) (f : CopyFn) : List Nat :=
    match s.descAt w (w.S a.toNat) 64 0 with
    | .error _ => []
    | .ok at_ =>
      let x := CopyDesc.ofBytes (s.readLocalBytes at_ 64)
      let index (k : Nat) : Nat :=
        leNat (s.readLocalBytes (s.placeOf w ((x.aux + k * x.indexSize) % 2 ^ 32) x.indexSize) x.indexSize)
      if x.legal f then (x.elements.map fun e => x.main f index e / 64 * 64).eraseDups else []
  match i with
  | .cpin a => ofCopy a .cin
  | .cpgat a => ofCopy a .gat
  | .satadd _ a _ | .satxchg _ a _ | .satcas _ a _ | .satmin _ a _ | .satmax _ a _ | .satand _ a _ | .sator _ a _ | .satxor _ a _ =>
    ofScalar a
  | .vatadd _ a b | .vatmin _ a b | .vatmax _ a b | .vatand _ a b | .vator _ a b | .vatxchg _ a b | .vatcas _ a b => ofLanes a b
  | .cxget _ a b => ofLanes a b
  | _ => []

/-- An entry that a replaying wave's next word does not meet: the word's retired value is the entry's, the wave's next one, and it does not read the
entry's line. -/
def State.diverging (s : State) (w : Wave) (p : Split) (i : Instr) : Option LogEntryView :=
  (s.entriesAt w w.a.retired).find? fun e => !(s.linesRead w p i).contains e.va

/-- DIVERGE (R376, R373): the wave traps before its next word has any effect, and the log's header records where. -/
def execDiverge (wave : Nat) (s : State) : Result :=
  match s.wave? wave with
  | none => .next s
  | some w =>
    match w.a.splits with
    | [] => .next s
    | p :: _ =>
      match (w.instrAt p.pc).bind (s.diverging w p), (s.launch? w.launch).bind s.logHolds with
      | none, _ => .next s
      | _, some h => .next (s.deviceFailed w.ctx 1 h)
      | some e, none =>
        let act : Word64 := ((w.lineReads.find? fun x => x.1 == e.va).map fun x => BitVec.ofNat 64 x.2).getD (BitVec.allOnes 64)
        let s := s.onLog w.launch fun t =>
          { t with state := 6, crew := e.crew, wave := e.wave, divexp := BitVec.ofNat 64 e.retired, divact := act }
        .next ((s.writeHeader w.launch).takeTrap w p trapDIVERGE p.pc e.retired p.lanes)

end Sys2Proof.Machine
end

