-- ==== Sys2Proof/Machine/System.lean ====
section
/-! DEFINITION. Mode, region, barrier, launch and system instructions (R239-R265). -/

namespace Sys2Proof.Machine

/-! ### Mode registers and the seed (R241, R242) -/

/-- The 64 bits of MR that `mode` gives: its immediate holds bits 23:8; bits 7:0 are zero (R116). -/
def modeValue (i : BitVec 16) : Word64 := ((i ++ 0#8 : BitVec 24)).setWidth 64

/-- The 64 bits of MX that `modx` gives: bits 23:3; bits 2:0 are zero (R117). -/
def modxValue (i : BitVec 21) : Word64 := ((i ++ 0#3 : BitVec 24)).setWidth 64

/-- `mode` (R241). -/
def execMode (i : BitVec 16) (s : State) : Result :=
  issueWord (.mode i) s fun s w p => s.done { w with a := { w.a with mr := modeValue i } } p

/-- `modx` (R241). -/
def execModx (i : BitVec 21) (s : State) : Result :=
  issueWord (.modx i) s fun s w p => s.done { w with a := { w.a with mx := modxValue i } } p

/-- `seed` (R242): the copies of both sources are compared first (R240). -/
def execSeed (a b : Byte) (s : State) : Result :=
  issueWord (.seed a b) s fun s w p =>
    if w.S a.toNat ≠ w.Sh a.toNat ∨ w.S b.toNat ≠ w.Sh b.toNat then s.mismatch w p 0 true
    else s.done { w with a := { w.a with seedlo := w.S a.toNat, seedhi := w.S b.toNat } } p

/-! ### Region heads (R243-R246) -/

/-- The waits of R243, for the issuing split. -/
def Wave.headReady (w : Wave) : Bool := w.settled && w.intervalsClear w.a.splits.tail

/-- The interval that an engine fault's own word opened closes at the trap which an `rgn` takes for it (R245); one of a matrix failure, and every other
interval, stays open until the checkpoint that the reissued `rgn` takes. -/
def Wave.closeOwn (w : Wave) (x : Bool × Deferred) : Wave :=
  if x.1 then w else w.onSplits fun q => { q with interval := q.interval.filter (· != x.2.seq) }

/-- `rgn` (R243, R246): once its waits are met a pending fault is delivered; in system mode the interval closes and no checkpoint is taken; otherwise the
wave takes the checkpoint of the region, and may pass to native code. A fault's own interval is closed from then on, so that the wave may be stopped
or rolled back before the reissued `rgn` takes its checkpoint (DEDUCED, log 27). -/
def execRgn (i : BitVec 24) (s : State) : Result :=
  issueWord (.rgn i) s fun s w p =>
    if !w.headReady then .next s
    else match w.due (fun _ _ => true) with
      | some x => s.deliver (w.closeOwn x) p x
      | none =>
        if w.system then s.done w { p with interval := [] }
        else
          let v := (w.advance p).takeCheckpoint (w.regionAt p.pc i.toNat) p.pc (some (p.lanes.lowest w.W)) (s.deterministic w)
          .next (s.putWave { v with native := w.kern.native.contains i.toNat })

/-! ### Barriers (R28, R247-R249) -/

/-- `bar` (R28, R248, R249): the wave arrives once the waits of R243 are met; the arrival may complete the barrier, and in deterministic
mode it ends the visit. The split waits at the `bar` itself. The mask of PARTIALMASK holds the guard-active lanes (DESIGN CHOICE, log 23). -/
def execBar (d a : Byte) (s : State) : Result :=
  issueWord (.bar d a) s fun s w p =>
    if w.partialMask p then s.trapAt w p trapPARTIALMASK 0 (w.active p)
    else if !w.headReady then .next s
    else
      let w := (w.setSplit { p with status := .atBar a.toNat d.toNat }).retire p
      let s := (s.putWave w).onCrew w.crew fun c => { c with barriers := modifyAt c.barriers a.toNat fun l => l ++ [w.ordinal] }
      .next ((s.tryBarrier w.crew a.toNat).visitWord w.key)

/-! ### Child launches (R250, R251) -/

/-- The successor identifiers of a child, read from local memory (R250, R293). -/
def State.childSuccs (s : State) (w : Wave) (p : Split) (d : Desc) : Except Refused (List LocalAt) :=
  if d.nsucc = 0 then .ok []
  else match localOf64 (BitVec.ofNat 64 d.succaddr) with
    | none => .error ⟨trapLOCALBOUND, d.succaddr, p.lanes⟩
    | some l =>
      let accs : List Access := (List.range d.nsucc).map fun k => ⟨0, (l + 4 * k) % 2 ^ 32, 4, 4⟩
      match s.checkElems w p.lanes accs with
      | some r => .error r
      | none => .ok (accs.map fun x => s.placeOf w x.addr 4)

/-- The two halves of a child's descriptor in local memory (R250). -/
def State.childDesc (s : State) (w : Wave) (p : Split) (e : Word64) : Except Refused (List LocalAt) :=
  match localOf64 e with
  | none => .error ⟨trapLOCALBOUND, e.toNat, p.lanes⟩
  | some l =>
    if e.toNat % 64 ≠ 0 then .error ⟨trapALIGN, e.toNat, p.lanes⟩
    else
      let h := (l + 64) % 2 ^ 32
      match s.resolve w l 64, s.resolve w h 64 with
      | none, _ => .error ⟨trapLOCALBOUND, l, p.lanes⟩
      | _, none => .error ⟨trapLOCALBOUND, h, p.lanes⟩
      | some a, some b => .ok ((List.range 64).map a.plus ++ (List.range 64).map b.plus)

/-- Refuses a child's descriptor (R251, R294): the `launch` traps DESC, and the refusal enters the error log as every one does, with the caller's core as
its source (R332; DEDUCED, log 30). -/
def State.refuseChild (s : State) (w : Wave) (p : Split) (at_ : Nat) : Result :=
  (s.logError at_ w.ctx (homeOf at_) trapDESC w.core 0).trapAt w p trapDESC at_ p.lanes

/-- Ends a `launch` that has read and checked its descriptor (R250): once the release to package scope is met and, in deterministic mode, the
token is there, the child joins the chain of the caller's queue; until then the split waits with what it read. -/
def State.appendChild (s : State) (w : Wave) (p : Split) (at_ : Nat) (desc : List Byte) (succs : List Nat) : Result :=
  let d := Desc.ofBytes desc
  match s.launch? w.launch with
  | none => .next s
  | some l =>
    match s.object? l.ctx d.handle with
    | none => s.refuseChild w p at_
    | some o =>
      if !s.released w 5 || !s.hasToken w then
        .next (s.putWave (w.setSplit { p with status := .onLaunch at_ desc succs }))
      else match s.acceptHolds l.queue l.ctx d with
        | some e => .next ((s.putWave (w.setSplit { p with status := .onLaunch at_ desc succs })).deviceFailed l.ctx 1 e)
        | none => (s.accept l.queue at_ d o (l.depth + 1) (some l.key) succs).done w { p with status := .ready }

/-- Goes on with a `launch` that has waited: a child that the queue would refuse as it now stands traps DESC, and is not appended (R300, log 30). Its
interval closes with the trap (R245). -/
def State.resumeChild (s : State) (w : Wave) (p : Split) (at_ : Nat) (desc : List Byte) (succs : List Nat) : Result :=
  let refused := ((s.launch? w.launch).map fun l => s.refusesNow l.queue (Desc.ofBytes desc)).getD false
  let q := { p with interval := p.interval.tail }
  if s.released w 5 && s.hasToken w && refused then s.refuseChild (w.setSplit q) q at_
  else s.appendChild w p at_ desc succs

/-- Issues a `launch` (R250, R251, R29): the descriptor and the successors are read and checked, after the wave's earlier local accesses. From this
issue on the caller is no longer replayable (R349), and an interval of R245 is open. -/
def issueLaunch (a : Byte) (s : State) : Result :=
  issueWord (.launch a) s fun s w p =>
    let e := w.S a.toNat
    if e ≠ w.Sh a.toNat then s.mismatch w p 0 true
    else match s.childDesc w p e with
    | .error r => s.trapAt w p r.cause r.addr r.mask
    | .ok places =>
      if !w.port.isEmpty then .next s
      else match s.findLocal w p.pc p.lanes places with
      | some s' => .next s'
      | none => match s.launch? w.launch with
        | none => .next s
        | some l =>
          let desc := places.map s.readLocal
          let d := Desc.ofBytes desc
          if l.depth = 10 then s.trapAt w p trapDEPTH 10 p.lanes
          else if s.refuses l.queue l.ctx d (some l) then s.refuseChild w p e.toNat
          else match s.childSuccs w p d with
          | .error r => s.trapAt w p r.cause r.addr r.mask
          | .ok ids =>
            match s.findLocal w p.pc p.lanes (ids.flatMap fun x => (List.range 4).map x.plus) with
            | some s' => .next s'
            | none => (s.demote l.key).appendChild w.counted (p.opens w) e.toNat desc (ids.map fun x => leNat (s.readLocalBytes x 4))

/-- `launch` (R250): the split issues it, and goes on when the child has been appended. -/
def execLaunch (a : Byte) (s : State) : Result :=
  match s.waves with
  | [] => .fault .noIssuer
  | w :: _ =>
    match w.a.splits with
    | [] => .fault .noIssuer
    | p :: _ =>
      match p.status with
      | .onLaunch at_ desc succs => if w.mayIssue p then s.resumeChild w p at_ desc succs else .next s
      | _ => issueLaunch a s

/-! ### Traps raised by code (R252, R258) -/

/-- `trap` (R252, R258): USER when the split has an active lane; in system mode code 1 kills the launch and code 2 is a context fault, which reports
the trap record the wave's trap registers hold. -/
def execTrap (i : BitVec 24) (s : State) : Result :=
  issueWord (.trap i) s fun s w p =>
    let on := w.active p
    if on = 0 then s.done w p
    else if !w.system then s.trapAt w p trapUSER i.toNat on
    else if i = 1 then .next ((s.putWave (w.advance p)).killLaunches [w.launch])
    else .next ((s.putWave (w.advance p)).contextFault w.ctx { s.fieldsOf w with addr := p.pc })

/-- `brkpt` (R252). -/
def execBrkpt (s : State) : Result := issueWord .brkpt s fun s w p => s.trapAt w p trapBRKPT 0 p.lanes

/-- `tret` (R259, R351): returns from the handler; after a delivery in a debug context the return is charged as a rollback. -/
def execTret (s : State) : Result :=
  issueWord .tret s fun s w p =>
    match w.frame with
    | none => s.done w p
    | some f =>
      let s := s.putWave ((w.advance p).leaveHandler f)
      .next (if f.fromLadder then s.chargeWave w.key w.ctx 16 else s)

/-! ### Pre-emption sections (R260) -/

/-- `preoff` (R260): opens a section, or lowers the bound of the open one; the count starts from this word. In deterministic mode the `preoff` itself is
none of the retired instructions that its bound counts (DESIGN CHOICE, log 28). -/
def execPreoff (i : BitVec 24) (s : State) : Result :=
  issueWord (.preoff i) s fun s w p =>
    let now := s.sectionCount (w.advance p)
    let fresh : Preoff := ⟨i.toNat, i.toNat, now⟩
    let x := match w.preoff with
      | none => fresh
      | some x => if i.toNat < s.remaining (w.advance p) x then fresh else x
    s.done { w with preoff := some x } p

/-- `preon` (R260). -/
def execPreon (s : State) : Result := issueWord .preon s fun s w p => s.done { w with preoff := none } p

/-! ### Yield and sleep (R261) -/

/-- The split is the most recently issued on both ports. -/
def Split.yielded (p : Split) (slot : Nat) : Split := { p with lastV := slot, lastX := slot }

/-- `yield` (R261); in deterministic mode it passes the token. -/
def execYield (s : State) : Result :=
  issueWord .yield s fun s w p => .next ((s.putWave (w.advance (p.yielded s.slots))).visitWord w.key)

/-- `sleep` (R261): the word retires, and the split waits at it for n clocks, or in deterministic mode, where it ends the visit (R365), until the
token returns; `sleep 0` acts as `yield`. -/
def execSleep (i : BitVec 24) (s : State) : Result :=
  issueWord (.sleep i) s fun s w p =>
    if s.deterministic w then
      .next ((s.putWave ((w.setSplit { p with status := .asleep 0 true }).retire p)).visitWord w.key)
    else if i = 0 then .next ((s.putWave (w.advance (p.yielded s.slots))).visitWord w.key)
    else .next (s.putWave ((w.setSplit { p with status := .asleep (s.clock + i.toNat) false }).retire p))

/-! ### The temper record, numeric status, faults for test (R262-R265) -/

/-- Code of a class kind in the record (R82). -/
def Kind.code : Kind → Nat
  | .real => 0
  | .int => 1
  | .index => 2

/-- Bits 63:0 of a record entry (R82, R267). -/
def ClassRec.word (c : ClassRec) : Word64 :=
  BitVec.ofNat 64 (c.id + c.storage.id * 2 ^ 8 + c.compute.id * 2 ^ 16 + c.acc * 2 ^ 24 + c.kind.code * 2 ^ 32 +
    (if c.pinned then 2 ^ 34 else 0) + (if c.block then 2 ^ 35 else 0) + (if c.sr then 2 ^ 36 else 0) + c.round * 2 ^ 37 +
    (BitVec.ofInt 8 c.hi).toNat * 2 ^ 40 + (BitVec.ofInt 8 c.lo).toNat * 2 ^ 48 + c.achq * 2 ^ 56)

/-- Half of the record entry of a class; zero without an entry (R262). -/
def Object.recordHalf (o : Object) (cls half : Nat) : Word64 :=
  match o.classRec cls with
  | none => 0
  | some c => if half = 0 then c.word else c.e

/-- `bindq` (R262). -/
def execBindq (d a b : Byte) (s : State) : Result :=
  issueWord (.bindq d a b) s fun s w p =>
    let f (x : Word64) : Word64 := w.kern.recordHalf (x.toNat % 256) b.toNat
    s.scalarDone w p d (f (w.S a.toNat)) (f (w.Sh a.toNat))

/-- `nsclr` (R263): after the loads issued before it have set their flags (R62). -/
def execNsclr (s : State) : Result :=
  issueWord .nsclr s fun s w p => if w.flagsPending then .next s else s.done { w with a := { w.a with ns := 0 } } p

/-- `inject` (R264): one bit of one physical lane of v(D), whatever the lane's state. -/
def execInject (d a b : Byte) (s : State) : Result :=
  issueWord (.inject d a b) s fun s w p =>
    let l := (w.S a.toNat).toNat
    let k := (w.S b.toNat).toNat
    if l ≥ w.W ∨ k ≥ 32 then s.trapAt w p trapILLOP 0 p.lanes
    else
      s.done (w.onV d.toNat fun r =>
        { r with lanes := setAt r.lanes l (nth r.lanes l 0 ^^^ BitVec.ofNat 32 (2 ^ k)), tag := .general }) p

/-- `nop` (R265). -/
def execNop (s : State) : Result := issueWord .nop s fun s w p => s.done w p

end Sys2Proof.Machine
end

