-- ==== Sys2Proof/Machine/Waves.lean ====
section
/-! DEFINITION. Events of a wave's life: deals to waves without lanes, retirement, timers, and the write of an issued word's registers
(R17, R22, R24, R257, R260, R261, R184). -/

namespace Sys2Proof.Machine

/-- Is a wave of the same launch, created before, still without its creation deal (R302)? -/
def State.createdBefore (s : State) (w : Wave) : Bool :=
  s.waves.any fun x => x.launch == w.launch && x.status == .awaitingCreationDeal && decide (s.cycleKey x < s.cycleKey w)

/-- WAVE_DEAL (R17, R22, R121, R368): a wave without live lanes that waits for items takes a deal once one is dealable and starts at the entry
point; one that waits to drain does so; once no item is left it follows R22. In deterministic mode a deal of R22 takes every vacant lane's item,
during the wave's visit. A wave whose crew is pre-empted and not placed takes its deal, or its drain, all the same (DESIGN CHOICE, log 27). -/
def execWaveDeal (wave : Nat) (s : State) : Result :=
  match s.wave? wave with
  | none => .next s
  | some w => match s.launch? w.launch with
    | none => .next s
    | some l =>
      let items := s.dealRun l w.V
      let left := decide (l.dealer < l.total)
      match w.status with
      | .awaitingCreationDeal =>
        if s.createdBefore w then .next s
        else if items ≠ [] then .next (s.dealStart w l items)
        else if left then .next s
        else .next (s.wholeVacant w)
      | .awaitingDeal =>
        if !w.settled || w.demand.isSome || !s.hasToken w then .next s
        else if !left then .next (s.wholeVacant w)
        else if items = [] ∨ (l.desc.deterministic ∧ items.length < min w.V (l.total - l.dealer)) then .next s
        else .next (s.dealStart w l items)
      | .awaitingDrain => .next (s.tryDrain w)
      | _ => .next s

/-- WAVE_RETIRE (R24, R248, R369): a retiring wave whose counters read zero retires; in deterministic mode during its visit, unless its launch
was killed. -/
def execWaveRetire (wave : Nat) (s : State) : Result :=
  match s.wave? wave with
  | none => .next s
  | some w =>
    let killed := ((s.launch? w.launch).map Launch.killed).getD true
    if w.status != .retiring || !w.mayRetire || (s.deterministic w && !killed && !s.visited w) then .next s
    else .next (s.retireWave w)

/-- Can a trap of the wave be taken now: is its lowest split not waiting for a scalar load already past its word (R407)? -/
def Wave.trapReady (w : Wave) : Bool := (w.lowestSplit.map fun p => p.status != .onPort).getD false

/-- PRELIMIT (R260, R407): the bound has run out; the section ends and the wave traps. -/
def execPrelimit (wave : Nat) (s : State) : Result :=
  match s.wave? wave with
  | none => .next s
  | some w =>
    match w.preoff with
    | none => .next s
    | some x =>
      if !s.ranOut w || !w.trapReady || w.status != .running then .next s
      else
        let s := s.onWave wave fun w => { w with preoff := none }
        .next (s.takeWaveTrap { w with preoff := none } trapPRELIMIT x.n)

/-- SLEEP_END (R261): the sleep of the split that holds a lane, suspended or not, is over, and it goes on after its `sleep`. -/
def execSleepEnd (wave lane : Nat) (s : State) : Result :=
  match s.wave? wave with
  | none => .next s
  | some w =>
    let ended (p : Split) : Bool := match p.status with
      | .asleep till false => p.lanes.has lane && decide (till ≤ s.clock)
      | _ => false
    let splits := w.a.splits ++ (w.frame.map TrapFrame.splits).getD []
    if !splits.any ended then .next s
    else
      .next (s.putWave (w.onSplits fun p => if ended p then { p with status := .ready, pc := (p.pc + 4) % 2 ^ 64 } else p))

/-- SYSTEM_MODE_TIMEOUT (R257): system mode has lasted 65,536 clocks. -/
def execSystemModeTimeout (wave : Nat) (s : State) : Result :=
  match s.wave? wave with
  | none => .next s
  | some w =>
    match w.frame with
    | none => .next s
    | some f => if s.clock < f.started + Config.systemModeClocks then .next s else .next (s.contextFault w.ctx (s.fieldsOf w))

/-- A scoreboard entry that waits only for time: an issued word's own write, not a load at the local port (R189). -/
def ownWrite (c : Nat) : Bool := decide (c < 0x400 ∨ 0x800 ≤ c)

/-- The oldest write still to land of the split that holds a lane, suspended or not. -/
def Wave.nextWrite (w : Wave) (lane : Nat) : Option Nat :=
  let splits := w.a.splits ++ (w.frame.map TrapFrame.splits).getD []
  (splits.find? fun p => p.lanes.has lane && p.board.any ownWrite).bind fun p => p.board.find? ownWrite

/-- A write has landed: every scoreboard that holds its code loses it, since a fork copies a scoreboard and a handler has its trapping split's (R145,
R149). Of a register that is full again nothing is left; of another code one entry goes, since a later write of it may be under way. -/
def Wave.landed (w : Wave) (code : Nat) : Wave :=
  w.onSplits fun p => { p with board := if 0x800 ≤ code then p.board.filter (· != code) else p.board.erase code }

/-- REGISTER_WRITEBACK (R27, R184): the oldest write a split still has under way lands, and its registers may be used again. The value stands in the
register from the issue on, where only the scoreboard hides it (log 6); a scalar `sgetv` marked empty becomes full (R119). A suspended split that has
none lands its `cxget` (R255). -/
def execRegisterWriteback (wave lane : Nat) (s : State) : Result :=
  match s.wave? wave with
  | none => .next s
  | some w =>
    match w.nextWrite lane with
    | none => match w.suspendedGet lane with
        | some (o, d, job, x) => .next (s.landGet w o d job x)
        | none => .next s
    | some c =>
      let w := w.landed c
      .next (s.putWave (if 0x800 ≤ c then w.markS (c - 0x800) false else w))

/-- NATIVE_CODE_READY (R383, R384): a region's native code is complete; a wave passes to it at a later region head. A version that was replaced and
that no launch uses has none. -/
def execNativeCodeReady (handle version region : Nat) (s : State) : Result :=
  let up (o : Object) : Object :=
    if o.handle == handle && o.version == version && !o.native.contains region && s.versionUsed o then { o with native := o.native ++ [region] } else o
  .next { s with
    objects := s.objects.map up
    launches := s.launches.map fun l => { l with obj := up l.obj }
    waves := s.waves.map fun w => { w with kern := up w.kern } }

end Sys2Proof.Machine
end

