-- ==== Sys2Proof/Machine/Homes.lean ====
section
/-! DEFINITION. What happens at the homes apart from requests of this device: leases (R327), migration (R329), the end of RECLASS
(R338), peers and their links (R399), and accesses that come from outside (R322, R324, R331, R344). -/

namespace Sys2Proof.Machine

/-- A home code of this device: a die's, or the host window's (R315). -/
def isOwnHome (h : Nat) : Bool := decide (h < Config.dies) || h == 0x80

/-! ### Translating for others (R322-R324) -/

/-- How a home answers a request from a peer chip or the host window: an error with the index for its entry in the error log (R332). -/
inductive Answered where
  | leaf (l : Leaf)
  | again
  | error (cause index : Nat)
  deriving DecidableEq, Repr

/-- The leaf for a request from outside: a cached entry; a miss is refused with retry-after while the home walks, and an entry the walk found not to
be a leaf is answered when the request comes again (R322-R324, log 13). -/
def State.outsideLeaf (s : State) (home ctx va op source : Nat) : State × Answered :=
  let u := unitOf home
  match (s.home u).cached ctx va with
  | some l => (s, .leaf l)
  | none =>
    match s.takeWalked u ctx va with
    | (s, false) => (s.onHome u fun h => h.ask ⟨ctx, pageOf va, va, op, source, false⟩, .again)
    | (s, true) =>
      match s.freshWalk ctx home va with
      | (s, .leaf l) => (s, .leaf l)
      | (s, .malformed) => (s, .error trapACCESS 0)
      | (s, .poisoned table i) => (s.reportPoison ctx home source table i, .error trapXLATEUE i)
      | (s, .invalid level) => ((s.raiseFault u ctx va level op source).1, .error trapXLATE 0)

/-! ### The entries that map a page (R318, R329) -/

/-- The table entries of the page that a leaf maps: the one a walk read, or the 32 of a 2 MiB page's group (R318). -/
def Leaf.entries (l : Leaf) : List Nat :=
  if l.size = 1 then (List.range 32).map fun k => l.entry / 256 * 256 + 8 * k else [l.entry]

/-- Rewrites table entries, each by one write: the frame, and the migrating bit. -/
def State.rewriteEntries (s : State) (unit : Nat) (pas : List Nat) (frame : Option Nat) (migrating : Bool) : State :=
  pas.foldl (fun s pa =>
    let e : Word64 := BitVec.ofNat 64 (leNat (s.readPhysBytes unit pa 8))
    let e := (e &&& ~~~0x1000#64) ||| (if migrating then 0x1000#64 else 0)
    let e := match frame with
      | some f => (e &&& ~~~0x000FFFFFFFFF0000#64) ||| BitVec.ofNat 64 f
      | none => e
    (s.writeEntry unit pa e.toNat).hostWritten unit) s

/-! ### Leases (R327) -/

/-- The clocks of 1 ms at 1.5 GHz, the longest lease. -/
def leaseClocks : Nat := 1500000

/-- Does the page of a leaf at an address meet a range? -/
def Leaf.pageMeets (l : Leaf) (at_ va len : Nat) : Bool :=
  let base := at_ / pageBytes l.size * pageBytes l.size
  decide (base < va + len ∧ va < base + pageBytes l.size)

/-- Is the page of a leaf in a range that XINVAL is shooting down, or is it migrating? -/
def State.withdrawing (s : State) (home ctx va : Nat) (l : Leaf) : Bool :=
  (match s.running with
    | some (.xinval h c a n _ _) => h == home && c == ctx && l.pageMeets va a n
    | _ => false) ||
  (s.home (unitOf home)).migrations.any fun g => g.entries.contains l.entry

/-- The leases that a peer chip holds at the homes of this device. -/
def State.leasesHeldBy (s : State) (chip : Nat) : Nat := ((s.homes.flatMap Home.leases).filter fun x => x.chip == chip).length

/-- May a peer chip be granted a lease on a page of a home: the address names the home (R315), F0 bit 4 is accepted (R381), a link of the chip is up
(R399), and it holds fewer than 1,024, for at most 1 ms (R327)? -/
def State.leaseAllowed (s : State) (home chip va clocks : Nat) : Bool :=
  s.feature 4 && isOwnHome home && homeOf va == home && decide (chip < 28) && s.peerUp chip && clocks != 0 && decide (clocks ≤ leaseClocks) &&
    decide (s.leasesHeldBy chip < Config.leasesPerChip)

/-- Grants a peer chip a lease on the leaf of a page (R327), none while the page is being withdrawn or its band is closed. The page is translated as for
any request from outside: an address with bits of 55:48 set is refused (R315), a miss is refused while the home walks, and what the walk meets is
answered (R322, R323, R331). -/
def State.grantLease (s : State) (home chip ctx va clocks : Nat) : State :=
  if !s.leaseAllowed home chip va clocks then s
  else if va / 2 ^ 48 % 256 != 0 then s.logError va ctx home trapACCESS (0x100 + chip) 0
  else match s.outsideLeaf home ctx va 5 (0x100 + chip) with
    | (s, .again) => s
    | (s, .error c i) => s.logError va ctx home c (0x100 + chip) i
    | (s, .leaf l) =>
      if s.withdrawing home ctx va l || (decide (home < Config.dies) && s.bandClosed home l.pa) then s
      else s.onHome (unitOf home) fun h =>
        { h with leases := h.leases ++ [⟨h.nextLease, chip, ctx, pageOf va, l, s.clock + clocks, false⟩], nextLease := h.nextLease + 1 }

/-- LEASE_GRANT (R327). -/
def execLeaseGrant (home chip ctx va clocks : Nat) (s : State) : Result := .next (s.grantLease home chip ctx va clocks)

/-- LEASE_EXPIRE (R327): a lease whose duration is over ends. -/
def execLeaseExpire (home lease : Nat) (s : State) : Result :=
  .next (s.onHome (unitOf home) fun h => { h with leases := h.leases.filter fun x => !(x.id == lease && decide (x.expires ≤ s.clock)) })

/-- LEASE_RECALL_ACK (R327): the peer acknowledges a recall over a link that is up, and the lease ends; without one the recall completes when the
lease expires (R406). -/
def execLeaseRecallAck (home lease : Nat) (s : State) : Result :=
  .next (s.onHome (unitOf home) fun h => { h with leases := h.leases.filter fun x => !(x.id == lease && x.recalled && s.peerUp x.chip) })

/-- Recalls the leases of a home that meet a condition. -/
def State.recallLeases (s : State) (home : Nat) (hit : Lease → Bool) : State :=
  s.onHome (unitOf home) fun h => { h with leases := h.leases.map fun x => if hit x then { x with recalled := true } else x }

/-- Are no leases left at a home that meet a condition? -/
def State.leasesGone (s : State) (home : Nat) (hit : Lease → Bool) : Bool := !((s.home (unitOf home)).leases.any hit)

/-- Is a lease on a page of a range of a context (R328)? -/
def Lease.inRange (ctx va len : Nat) (x : Lease) : Bool := x.ctx == ctx && x.leaf.pageMeets x.va va len

/-- Is a lease on the page that a migration moves, in whichever context reaches its entries (R317, R329)? -/
def Lease.ofMigration (g : Migration) (x : Lease) : Bool := g.entries.contains x.leaf.entry

/-- The parts of this device's engines that wait to perform at a peer chip: wave, operation, part. -/
def State.peerParts (s : State) (chip : Nat) : List (Nat × Nat × Nat × Part) :=
  s.waves.flatMap fun w => w.ops.flatMap fun o =>
    (o.parts.zipIdx.filter fun (q, _) => isPeerHome q.home && (q.home - 0x10) / 4 == chip && q.status == .ready).map
      fun (q, k) => (w.key, o.key, k, q)

/-- LEASE_RECALL (R327): a peer home recalls a lease this device holds. Of the parts held for the page each is sent, or dropped, to be sent again by
virtual address: a free choice; then the lease is given back. -/
def execLeaseRecall (chip va : Nat) (s : State) : Result :=
  let held := s.heldLeases.filter fun x => x.chip == chip && pageOf x.va == pageOf va
  if held.isEmpty || !s.peerUp chip then .next s
  else
    let mine := (s.peerParts chip).filter fun x => x.2.2.2.page == pageOf va
    let s := mine.foldl (fun s x =>
      let (n, s) := s.draw
      if Config.freeBool n then s.setPart x.1 x.2.1 x.2.2.1 .pending none else s) s
    .next { s with heldLeases := s.heldLeases.filter fun x => !(x.chip == chip && pageOf x.va == pageOf va) }

/-! ### Migration (R329) -/

/-- Bytes written from outside are so in a launch's record wherever their page goes (R372): the marks of a copied line. -/
def Launch.carry (l : Launch) (from_ dest : MainAt) : Launch :=
  let kept := l.external.filter fun x => !decide (dest.key ≤ x ∧ x < dest.key + 64)
  { l with external := ((l.external.filter fun x => decide (from_.key ≤ x ∧ x < from_.key + 64)).map fun x => x - from_.key + dest.key) ++ kept }

/-- Copies the next line of a migration to the new frame: a single error is corrected, and a lost line stays marked. -/
def State.copyLine (s : State) (k : Nat) (g : Migration) : State :=
  let from_ : MainAt := ⟨k, g.old + 64 * g.copied⟩
  let dest : MainAt := ⟨k, g.new + 64 * g.copied⟩
  let bad := s.lineBad from_
  let s := s.correctLine g.ctx from_
  let s := (((s.clearLine dest).writePhysBytes k dest.pa (s.readPhysBytes k from_.pa 64)).healEntries dest 64).hostWritten k
  let s := if bad then { s with softErrors := ⟨.hbm k (dest.pa / 64), 2, true⟩ :: s.softErrors } else s
  let s := { s with launches := s.launches.map fun (l : Launch) => l.carry from_ dest }
  s.onHome k fun h => { h with migrations := h.migrations.map fun x => if x == g then { x with copied := x.copied + 1 } else x }

/-- A command that was running has taken effect: cmdstat reads 0 (R397). -/
def State.finishCommand (s : State) : State := { s with running := none, cmdstat := 0 }

/-- The leaf after a migration, where one of the page's entries gave it. -/
def Leaf.moved (l : Leaf) (g : Migration) : Leaf := if g.entries.contains l.entry then { l with pa := g.new } else l

/-- Everything that stands under a migrated page's entries goes to the new frame: parts and side-log entries that have not performed, and the
granules of the lehr. -/
def State.moveParts (s : State) (home : Nat) (g : Migration) : State :=
  let old (a : Nat) : Bool := decide (g.old ≤ a ∧ a < g.old + g.size)
  let upPart (q : Part) : Part :=
    if q.home == home && q.status == .ready then { q with leaf := q.leaf.map fun l => l.moved g } else q
  let upPage (x : Nat × Nat × Nat) : Nat × Nat × Nat :=
    if x.1 == home && old x.2.2 then (x.1, x.2.1, x.2.2 - g.old + g.new) else x
  { s with
    waves := s.waves.map fun w => { w with ops := w.ops.map fun o => { o with parts := o.parts.map upPart } }
    sideLog := s.sideLog.map fun e => if e.home == home then { e with leaf := e.leaf.map fun l => l.moved g } else e
    shadows := s.shadows.map fun x =>
      if x.die == unitOf home && old (4096 * x.granule) then { x with granule := x.granule - g.old / 4096 + g.new / 4096 } else x
    contexts := s.contexts.map fun c => { c with pages := c.pages.map upPage } }

/-- MIGRATE_COMMIT (R329): the page's entries receive the new frame, migrating is cleared, and the cached copies of the entries are discarded, in
every context. -/
def execMigrateCommit (home ctx va : Nat) (s : State) : Result :=
  let k := unitOf home
  match (s.home k).migrations.find? fun g => g.ctx == ctx && decide (g.va ≤ va ∧ va < g.va + g.size) with
  | none => .next s
  | some g =>
    if decide (64 * g.copied < g.size) || !s.leasesGone home (Lease.ofMigration g) then .next s
    else
      let s := (s.rewriteEntries k g.entries (some g.new) false).onHome k fun h =>
        { h with
          migrations := h.migrations.filter (· != g)
          cache := h.cache.filter fun x => !g.entries.contains x.leaf.entry }
      let s := s.moveParts home g
      match s.running with
      | some (.migrate _ _ _) => .next s.finishCommand
      | _ => .next s

/-! ### RECLASS ends (R338) -/

/-- Memory without the bytes of an address range. -/
def Memory.erase (m : Memory) (lo n : Nat) : Memory := m.filter fun x => !(decide (lo ≤ x.1 ∧ x.1 < lo + n))

/-- BAND_REOPEN (R338): every byte of the band reads zero with check bits of its new tier; the band has its new capacity and takes parts
again; RECLASS is complete. -/
def execBandReopen (home : Nat) (s : State) : Result :=
  match s.running with
  | some (.reclass h band tier) =>
    if h != home then .next s
    else
      let base := band * Config.bandSpan
      let inBand (pa : Nat) : Bool := decide (base ≤ pa ∧ pa < base + Config.bandSpan)
      let s := { s with
        hbm := s.hbm.erase (hbmKey home base) Config.bandSpan
        softErrors := s.softErrors.filter fun e => match e.site with
          | .hbm d line => !(d == home && inBand (64 * line))
          | _ => true }
      .next (s.onHome home fun h =>
        { h with
          tiers := setAt h.tiers band tier
          closed := h.closed.filter (· != band)
          poisoned := h.poisoned.filter fun x => !inBand x
          reported := h.reported.filter fun x => !inBand x }).finishCommand
  | _ => .next s

/-! ### Requests from outside (R322, R324, R398, R399) -/

/-- What a request from outside does with its page, once translated: none while it must come again, or the state after it performed or
was refused. -/
def State.outsideCheck (s : State) (home ctx va source : Nat) (need : Need) (op : Nat) : State × Option Leaf :=
  match s.outsideLeaf home ctx va op source with
  | (s, .again) => (s, none)
  | (s, .error c i) => (s.logError va ctx home c source i, none)
  | (s, .leaf l) =>
    match s.checkLeaf home l va need none with
    | some c => (s.logError va ctx home c source 0, none)
    | none => (s, if s.logsFirst ctx home va l then none else some l)

/-- The atomics a peer may ask for, by number. -/
def peerAtomic (kind : Nat) : Option AtomicFn := [AtomicFn.add, .min, .max, .minu, .maxu, .and, .or, .xor, .xchg, .cas][kind]?

/-- The cell at a place. -/
def State.mainCell (s : State) (m : MainAt) : CxCell := CxCell.ofNat (leNat (s.readMainBytes none m 64))

/-- Serves one page of a peer's request, already translated (R344, R399): uncorrectable data answers UE; single errors are corrected. -/
def State.servePeer (s : State) (home ctx va chip : Nat) (op : PeerOp) (l : Leaf) : State :=
  let m : MainAt := ⟨unitOf home, l.place va⟩
  let source := 0x100 + chip
  let reading (n : Nat) (f : State → State) : State :=
    let s' := (linesOf m n).foldl (fun s x => s.scanLine ctx x) s
    if (linesOf m n).any s.lineBad then s'.logError va ctx home trapUE source 0 else f s'
  let writing (n : Nat) (f : State → State) : State := if (linesOf m n).any s.lineCopied then s else f s
  match op with
  | .read n => reading n id
  | .write bs => writing bs.length fun s => s.storePage none ctx m bs
  | .atomic kind size operand compare =>
    match peerAtomic kind with
    | none => s
    | some f =>
      if (size != 4 && size != 8) || va % size != 0 then s
      else writing size fun _ => reading size fun s =>
        let old := leNat (s.readMainBytes none m size)
        match atomicNew f size old (operand.toNat % 2 ^ (8 * size)) (compare.toNat % 2 ^ (8 * size)) with
        | some x => s.storeIn none ctx m (leBytes size x) false
        | none => s
  | .cellAdd int word =>
    if va % 64 != 0 then s
    else
      let v := if int then Val.ofInt word.toInt else Float.fp32.decode word.toNat
      writing 64 fun _ => reading 64 fun s => s.storeIn none ctx m (leBytes 64 ((s.mainCell m).add v).toNat) true
  | .cellClear => if va % 64 != 0 then s else writing 64 fun s => s.storeIn none ctx m (leBytes 64 0) true
  | .cellRead => if va % 64 != 0 then s else reading 64 id
  | .leaseRequest _ => s

/-- What a peer's request needs (R319). -/
def needOf : PeerOp → Need
  | .read _ | .leaseRequest _ => .read
  | .write _ => .write
  | _ => .atomic

/-- The pieces of a peer's request by page: address and what is asked there. -/
def peerPages (va : Nat) : PeerOp → List (Nat × PeerOp)
  | .read n => (granules 65536 va n).map fun x => (x.1, .read x.2)
  | .write bs => (granules 65536 va bs.length).map fun x => (x.1, .write ((bs.drop (x.1 - va)).take x.2))
  | op => [(va, op)]

/-- Serves one page of a peer's request: under a lease by the leaf recorded with it, while the lease stands (R327), else by its virtual address. -/
def State.peerPage (s : State) (chip ctx va : Nat) (lease : Option Nat) (op : PeerOp) : State :=
  let home := homeOf va
  let source := 0x100 + chip
  if !s.feature 4 || decide (home ≥ Config.dies) || va / 2 ^ 48 % 256 != 0 then s.logError va ctx home trapACCESS source 0
  else match lease with
  | some n =>
    match (s.home (unitOf home)).leases.find? fun x => x.id == n && x.chip == chip && x.ctx == ctx && samePage x.leaf.size x.va va with
    | none => s
    | some x =>
      if x.recalled || decide (x.expires ≤ s.clock) then s
      else match s.checkLeaf home x.leaf va (needOf op) none with
        | some c => s.logError va ctx home c source 0
        | none => if s.logsFirst ctx home va x.leaf then s else s.servePeer home ctx va chip op x.leaf
  | none =>
    match op with
    | .leaseRequest clocks => s.grantLease home chip ctx va clocks
    | _ =>
      match s.outsideCheck home ctx va source (needOf op) 5 with
      | (s, none) => s
      | (s, some l) => s.servePeer home ctx va chip op l

/-- PEER_REQUEST (R399, R319, R327): a request of a peer chip is served at the home of a die. Only a chip with a link that is up sends one. A request
refused with retry-after, or under a lease that has ended, leaves nothing behind; it comes again as another request. -/
def execPeerRequest (chip ctx va : Nat) (lease : Option Nat) (op : PeerOp) (s : State) : Result :=
  if decide (chip ≥ 28) || !s.peerUp chip then .next s
  else .next ((peerPages va op).foldl (fun s x => s.peerPage chip ctx x.1 lease x.2) s)

/-- The chips assigned to a link. -/
def State.chipsOn (s : State) (link : Nat) : List Nat := (List.range 28).filter fun c => (nth s.linkMasks c 0).getLsbD link

/-- A link goes down (R399): parts in flight on it receive ACCESS. A part of a chip with another link that is up was on the failed one or not: a
free choice. -/
def State.dropLink (s : State) (link : Nat) : State :=
  let chips := s.chipsOn link
  let s := { s with linksDown := s.linksDown ||| BitVec.ofNat 12 (2 ^ link), linkRetries := setAt s.linkRetries link 0 }
  chips.foldl (fun s c => (s.peerParts c).foldl (fun s x =>
    let (n, s) := s.draw
    if s.peerUp c && Config.freeBool n then s else s.setPart x.1 x.2.1 x.2.2.1 (.replied trapACCESS 0) none) s) s

/-- LINK_FLIT_RETRY (R399): a flit is sent again; after 16 failed retries of one flit its link goes down. -/
def execLinkFlitRetry (link : Nat) (ok : Bool) (s : State) : Result :=
  if decide (link ≥ 12) || s.linksDown.getLsbD link then .next s
  else if ok then .next { s with linkRetries := setAt s.linkRetries link 0 }
  else
    let n := nth s.linkRetries link 0 + 1
    if n ≥ 16 then .next (s.dropLink link) else .next { s with linkRetries := setAt s.linkRetries link n }

end Sys2Proof.Machine
end

