-- ==== Sys2Proof/Machine/Pages.lean ====
section
/-! DEFINITION. The frames of a home that are free, and the page-table entries that the loader writes there (R109, R317, R318; log 12). -/

namespace Sys2Proof.Machine

/-! ### Frames in use -/

/-- Bytes of a table of a level (R317). -/
def tableBytes (level : Nat) : Nat := if level = 2 then 256 else 4096

/-- The nonzero entries of a table: each that has a nonzero byte. -/
def State.entriesOf (s : State) (die level table : Nat) : List Nat :=
  let base := hbmKey die table
  let bytes := (s.hbm.filter fun x => decide (base ≤ x.1 ∧ x.1 < base + tableBytes level)).map fun x => (x.1 - base) / 8
  bytes.eraseDups.map fun i => leNat (s.readPhysBytes die (table + 8 * i) 8)

/-- The ranges that a table and what stands under it use: the tables and the pages. -/
def State.rangesUnder (s : State) (die : Nat) : Nat → Nat → Nat → List (Nat × Nat)
  | 0, _, _ => []
  | fuel + 1, level, table =>
    (table, tableBytes level) :: (s.entriesOf die level table).flatMap fun e =>
      let frame := e / 2 ^ 16 % 2 ^ 36 * 2 ^ 16
      match e % 4 with
      | 1 => if level ≥ 3 then [] else s.rangesUnder die fuel (level + 1) frame
      | 2 => [(frame, pageBytes (e / 4 % 4))]
      | _ => []

/-- The ranges of a die in use: what its tables reach, what the loader has taken, the fault ring, and frames that a migration is filling. -/
def State.rangesUsed (s : State) (die : Nat) : List (Nat × Nat) :=
  let roots := s.contexts.flatMap fun c => (c.roots.filter fun r => r.1 == die).flatMap fun r => s.rangesUnder die 5 0 r.2
  let taken := s.contexts.flatMap fun c => (c.pages.filter fun p => p.1 == die).map fun p => (p.2.2, 65536)
  let h := s.home die
  roots ++ taken ++ [(h.ringBase, h.ringSize)] ++ h.migrations.map fun g => (g.new, g.size)

/-- Is a 64 KiB frame outside the ranges? -/
def freeFrame (used : List (Nat × Nat)) (pa : Nat) : Bool := used.all fun x => !decide (x.1 < pa + 65536 ∧ pa < x.1 + x.2)

/-- May the loader take frames of a band: it has the tier, is open, and is none of the lehr's (R109, R338, R348)? -/
def State.bandOpen (s : State) (die tier k : Nat) : Bool :=
  decide (k < Config.bandsPerDie) && nth (s.home die).tiers k 2 == tier && !(s.home die).closed.contains k && !(s.home die).lehr.contains k

/-- n free frames of one band of a tier, in ascending order: none where no band has room (R107, step 8). -/
def State.findFrames (s : State) (die tier n : Nat) : Option (List Nat) :=
  let used := s.rangesUsed die
  (List.range Config.bandsPerDie).findSome? fun k =>
    if !s.bandOpen die tier k then none
    else
      let free := ((List.range (usableBytes tier / 65536)).map fun j => k * Config.bandSpan + 65536 * j).filter (freeFrame used)
      if decide (free.length < n) then none else some (free.take n)

/-- The frames from a place on that the host's policy names, where they are free and lie in one band of the tier. -/
def State.namedFrames (s : State) (die tier pa n : Nat) : Option (List Nat) :=
  let k := pa / Config.bandSpan
  let l := (List.range n).map fun j => pa + 65536 * j
  let used := s.rangesUsed die
  let fits (x : Nat) : Bool := decide (x / Config.bandSpan = k) && decide (x % Config.bandSpan + 65536 ≤ usableBytes tier) && freeFrame used x
  if pa % 65536 == 0 && s.bandOpen die tier k && l.all fits then some l else none

/-! ### Writing entries -/

/-- Empties a frame: it reads zero, with valid check bits, and no entry there is poisoned any more (R331, log 12). -/
def State.emptyFrame (s : State) (die pa : Nat) : State :=
  { s.healEntries ⟨die, pa⟩ 65536 with
    hbm := s.hbm.erase (hbmKey die pa) 65536
    softErrors := s.softErrors.filter fun e => match e.site with
      | .hbm d line => !(d == die && line / 1024 == pa / 65536)
      | _ => true }

/-- The loader takes frames for a context: for the pages from a virtual address on. -/
def State.takeFrames (s : State) (ctx die va : Nat) (frames : List Nat) : State :=
  (frames.foldl (fun s pa => s.emptyFrame die pa) s).onContext ctx fun c =>
    { c with pages := (frames.zipIdx.map fun (pa, k) => (die, va + 65536 * k, pa)) ++ c.pages }

/-- A new table of a context, in a frame of its own of a sealed band (R317). -/
def State.newTable (s : State) (ctx die : Nat) : Option (State × Nat) :=
  match s.findFrames die 2 1 with
  | some [pa] => some (s.takeFrames ctx die 0 [pa], pa)
  | _ => none

/-- The context's root table at a die, a new one where it has none. -/
def State.needRoot (s : State) (ctx die : Nat) : Option (State × Nat) :=
  match s.rootOf ctx die with
  | some r => some (s, r)
  | none => (s.newTable ctx die).map fun (s, pa) => (s.onContext ctx fun c => { c with roots := (die, pa) :: c.roots }, pa)

/-- The L3 table that serves an address, with new tables where a level has none. -/
def State.needTable (s : State) (ctx die va : Nat) : Nat → Nat → Nat → Option (State × Nat)
  | 0, _, _ => none
  | fuel + 1, level, table =>
    if level = 3 then some (s, table)
    else
      let pa := table + 8 * levelIndex level va
      let e := leNat (s.readPhysBytes die pa 8)
      match e % 4 with
      | 0 => match s.newTable ctx die with
        | some (s, t) => (s.writeEntry die pa (t + 1)).needTable ctx die va fuel (level + 1) t
        | none => none
      | 1 => s.needTable ctx die va fuel (level + 1) (e / 2 ^ 16 % 2 ^ 36 * 2 ^ 16)
      | _ => none

/-- The entry of a leaf (R318). -/
def Leaf.word (l : Leaf) : Nat :=
  l.pa + 2 + 4 * l.size + 16 * l.kind + 64 * l.tier + 256 * l.r.toNat + 512 * l.w.toNat + 1024 * l.a.toNat + 2048 * l.x.toNat

/-- Maps one page: its entry is valid from then on. -/
def State.mapPage (s : State) (ctx die va : Nat) (l : Leaf) : Option State :=
  match s.needRoot ctx die with
  | none => none
  | some (s, root) => (s.needTable ctx die va 5 0 root).map fun (s, table) => s.writeEntry die (table + 8 * levelIndex 3 va) l.word

/-- Maps pages from a virtual address on to frames, each with its leaf. -/
def State.mapPages (s : State) (ctx die va : Nat) : List Leaf → Option State
  | [] => some s
  | l :: rest => match s.mapPage ctx die va l with
    | some s => s.mapPages ctx die (va + 65536) rest
    | none => none

/-- Are n pages of a context at a die free to be mapped? -/
def State.pagesFree (s : State) (ctx die va n : Nat) : Bool :=
  va % 65536 == 0 && homeOf va == die && va / 2 ^ 48 % 256 == 0 && decide (va % 2 ^ 48 + 65536 * n ≤ 2 ^ 48) &&
    (List.range n).all fun k => match s.walk ctx die (va + 65536 * k) with
      | .invalid _ => true
      | _ => false

/-- Virtual pages for a section: those that the host's policy names, where they are free, or the first free ones of the places behind what the loader
has mapped there and at each slot of the root. -/
def State.findPages (s : State) (ctx die named n : Nat) : Option Nat :=
  let loaded := (((s.context? ctx).map Context.pages).getD []).filter fun p => p.1 == die && p.2.1 != 0
  let behind := loaded.foldl (fun m p => max m (p.2.1 + 65536)) (die * 2 ^ 56 + 65536)
  (named :: behind :: (List.range 512).map fun k => die * 2 ^ 56 + k * 2 ^ 39).find? fun va => s.pagesFree ctx die va n

end Sys2Proof.Machine
end

