-- ==== Sys2Proof/Machine/Temper.lean ====
section
/-! DEFINITION. The temper: binding the classes of an object to formats (R63-R79) and the record's entries (R82). Errors are counted in
units of 2^-32, of which every unit error is a multiple. -/

namespace Sys2Proof.Machine

/-- A declared class (R64, R91). `sr`: 0 without, 1 allowed, 2 required. -/
structure ClassDecl where
  id : Nat
  kind : Kind
  block : Bool
  sr : Nat
  q : Nat
  pin : Option Fmt
  lo : Int
  hi : Int
  allow : Option (List Fmt)
  accum : Nat
  deriving DecidableEq, Repr

/-- The operation of a flow (R66). -/
inductive FlowOp where
  | mul | dotV | dotM | cvt
  deriving DecidableEq, Repr

/-- A flow (R66, R92). -/
structure Flow where
  op : FlowOp
  y : Nat
  x1 : Nat
  x2 : Nat
  k : Nat
  deriving DecidableEq, Repr

/-! ### Unit errors and limits (R68-R71) -/

/-- Fraction width F of a format (R68). -/
def Fmt.fraction : Fmt → Nat
  | .fp32 => 23 | .bf16 => 7 | .fp16 => 10 | .e4m3 => 3 | .e5m2 => 2 | .gr8 => 5
  | .mxfp8e4 => 3 | .mxfp8e5 => 2 | .mxfp6e2 => 3 | .mxfp6e3 => 2 | .mxfp4 => 1 | .mxint8 => 6
  | _ => 0

/-- The exponents x with lo ≤ x ≤ max(lo, hi - 1) (R69). -/
def gr8Exponents (lo hi : Int) : List Int := (List.range ((max lo (hi - 1) - lo).toNat + 1)).map fun (k : Nat) => lo + k

/-- Unit error u of a format over a class's range, in units of 2^-32 (R68, R69, R71). -/
def ClassDecl.unit (c : ClassDecl) (f : Fmt) : Nat :=
  match f.kind with
  | .real =>
    let w := if f = .gr8 then (gr8Exponents c.lo c.hi).foldl (fun n x => min n (gr8F x)) 5 else f.fraction
    2 ^ (32 - (w + 1)) * (if c.sr = 0 then 1 else 2)
  | _ => 0

/-- Range limits of a format (R68): least lo and greatest hi. -/
def Fmt.limits : Fmt → Int × Int
  | .fp32 | .bf16 => (-126, 127)
  | .fp16 => (-14, 15)
  | .e4m3 => (-6, 8)
  | .e5m2 => (-14, 15)
  | .gr8 => (-15, 13)
  | .mxfp8e4 => (-119, 135)
  | .mxfp8e5 => (-112, 142)
  | .mxfp6e2 | .mxfp4 => (-125, 129)
  | .mxfp6e3 => (-123, 131)
  | .mxint8 => (-127, 127)
  | .i32 => (0, 31) | .i16 => (0, 15) | .i8 => (0, 7) | .i4 => (0, 3)
  | .n32 => (0, 32) | .n8 => (0, 8)
  | .crucible => (0, 0)

/-- Does the declared range lie within a format's limits? -/
def ClassDecl.fits (c : ClassDecl) (f : Fmt) : Bool := decide (f.limits.1 ≤ c.lo ∧ c.hi ≤ f.limits.2)

/-! ### Candidates (R70, R73-R75, R77) -/

/-- Storage candidates of a kind in order (R73). -/
def storageOrder : Kind → List Fmt
  | .real => [.mxfp4, .mxfp6e2, .mxfp6e3, .e4m3, .e5m2, .gr8, .mxfp8e4, .mxfp8e5, .mxint8, .bf16, .fp16, .fp32]
  | .int => [.i4, .i8, .i16, .i32]
  | .index => [.n8, .n32]

/-- Compute forms of a kind in order (R74). -/
def computeOrder : Kind → List Fmt
  | .real => [.bf16, .fp16, .fp32]
  | .int => [.i16, .i32]
  | .index => [.n32]

/-- Matrix operand formats (R75). -/
def Fmt.matrixOperand (f : Fmt) : Bool := decide (2 ≤ f.id ∧ f.id ≤ 0xC) || f == .i8 || f == .i4

/-- The F0 bit a format needs, if any (R73, R77). -/
def Fmt.feature : Fmt → Option Nat
  | .gr8 => some 5
  | .mxfp6e2 | .mxfp6e3 => some 6
  | _ => none

/-- Is a format's feature accepted? -/
def Fmt.accepted (f : Fmt) (f0 : Word32) : Bool := match f.feature with | some b => f0.getLsbD b | none => true

/-- The storage candidates of a class on its own (R70, R73, R77). -/
def ClassDecl.candidates (c : ClassDecl) (f0 : Word32) : List Fmt :=
  (storageOrder c.kind).filter fun f =>
    (c.block || !f.isMX) && f.accepted f0 && (match c.pin with | some p => p == f | none => true) &&
      (match c.allow with | some l => l.contains f | none => true)

/-- The pairs of a storage candidate and a compute form that both fit (R74). A storage format without one counts as one that does not fit, for the
report too (DESIGN CHOICE, log 47: R73 has "fits" for storage alone, R79 a best pair). -/
def ClassDecl.pairs (c : ClassDecl) (cands : List Fmt) : List (Fmt × Fmt) :=
  (cands.filter c.fits).flatMap fun f =>
    ((computeOrder c.kind).filter fun g =>
      c.fits g && (match c.kind with
        | .real => decide (f.fraction ≤ g.fraction)
        | .int => decide (f.bits ≤ g.bits)
        | .index => true)).map fun g => (f, g)

/-! ### Composed error (R72) -/

/-- A bound class. -/
structure BoundClass where
  id : Nat
  storage : Fmt
  compute : Fmt
  acc : Nat
  e : Nat
  deriving DecidableEq, Repr

/-- The error of a bound class; class 0 and unbound ones count nothing. -/
def errorOf (bound : List BoundClass) (id : Nat) : Nat := ((bound.find? fun b => b.id == id).map BoundClass.e).getD 0

/-- The flow whose output is a class, with its index. -/
def flowOf (flows : List Flow) (id : Nat) : Option (Flow × Nat) := (flows.zipIdx).find? fun x => x.1.y == id

/-- Composed error of a class bound to a pair (R72). -/
def ClassDecl.error (c : ClassDecl) (flow : Option Flow) (bound : List BoundClass) (f g : Fmt) : Nat :=
  match c.kind with
  | .real =>
    match flow with
    | none => c.unit f
    | some w =>
      let e1 := errorOf bound w.x1
      let e2 := errorOf bound w.x2
      match w.op with
      | .mul => e1 + e2 + c.unit f
      | .dotV => e1 + e2 + w.k * c.unit g + c.unit f
      | .dotM => e1 + e2 + (w.k + 15) / 16 * 2 ^ 8 + c.unit f
      | .cvt => e1 + c.unit f
  | _ => 0

/-- Does an error satisfy a class's declaration (R72)? -/
def ClassDecl.satisfied (c : ClassDecl) (e : Nat) : Bool := match c.kind with | .real => decide (e * 2 ^ c.q ≤ 2 ^ 32) | _ => true

/-- The least k with n ≤ 2^k. -/
def ceilLog2 (n : Nat) : Nat := if n = 2 ^ n.log2 then n.log2 else n.log2 + 1

/-- Achieved q (R72). -/
def achieved (e : Nat) : Nat := if e = 0 then 255 else min 255 (32 - ceilLog2 e)

/-! ### Accumulation (R76) -/

/-- a = hi + ceil(log2 n). -/
def ClassDecl.accLog (c : ClassDecl) : Int := c.hi + ceilLog2 c.accum

/-- The accumulation format: none where no row applies. -/
def ClassDecl.accFormat (c : ClassDecl) : Option Nat :=
  match c.kind with
  | .real =>
    if c.accLog ≤ 127 ∧ c.accum * 2 ^ c.q ≤ 2 ^ 24 then some 0x01 else if c.accLog ≤ 190 then some 0x20 else none
  | _ => if c.accLog ≤ 31 then some 0x10 else if c.accLog ≤ 190 then some 0x20 else none

/-! ### Binding one class (R74-R79) -/

/-- The fault report (R79). -/
def bindReport (c : ClassDecl) (flow : Option Nat) (best : Option (Nat × Fmt × Fmt)) (accfail code : Nat) : Nat :=
  let (e, f, g) := match best with
    | some (e, f, g) => (if e < 2 ^ 64 then e else 2 ^ 64 - 1, f.id, g.id)
    | none => (2 ^ 64 - 1, 0, 0)
  e * 2 ^ 64 + (if c.kind = .real then c.q else 0) * 2 ^ 56 + f * 2 ^ 48 + g * 2 ^ 40 + accfail * 2 ^ 32 + (flow.getD 0xFFFF) * 2 ^ 16 +
    c.id * 2 ^ 8 + code

/-- A FEATURE report (R107): the lowest missing bit of word n. -/
def featureReport (n b : Nat) : Nat := 0xFFFFFFFF * 2 ^ 32 + (32 * n + b) * 2 ^ 16 + 0x02

/-- What limits the candidates of an input of a `dot.m` (R75): the matrix operand formats, or one imposed format. -/
inductive Limit where
  | any
  | matrix
  | imposed (f : Fmt)
  deriving DecidableEq, Repr

/-- Candidates under a limit. -/
def ClassDecl.limited (c : ClassDecl) (f0 : Word32) : Limit → List Fmt
  | .any => c.candidates f0
  | .matrix => (c.candidates f0).filter Fmt.matrixOperand
  | .imposed f => (c.candidates f0).filter fun g => g == f && f.matrixOperand

/-- The best error over the pairs that fit; of several pairs with it the first in the order in which they are tried (DESIGN CHOICE, log 47). -/
def bestPair (l : List (Nat × Fmt × Fmt)) : Option (Nat × Fmt × Fmt) :=
  l.foldl (fun best x => match best with
    | some b => if x.1 < b.1 then some x else some b
    | none => some x) none

/-- Binds one class (R73-R79). -/
def ClassDecl.bind (c : ClassDecl) (f0 : Word32) (flows : List Flow) (bound : List BoundClass) (lim : Limit) :
    Except Nat (List BoundClass) :=
  let flow := flowOf flows c.id
  let fi := flow.map Prod.snd
  match c.pin.bind fun p => if p.accepted f0 then none else p.feature with
  | some b => .error (featureReport 0 b)
  | none =>
    let errs (l : List (Fmt × Fmt)) := l.map fun (f, g) => (c.error (flow.map Prod.fst) bound f g, f, g)
    let fit := errs (c.pairs (c.limited f0 lim))
    let pinned := c.pin.isSome || match lim with | .imposed _ => true | _ => false
    -- for an imposed format the report describes that format where it fits (R75)
    let shown := match lim with
      | .imposed f => errs (c.pairs [f])
      | _ => fit
    match fit.find? fun x => c.satisfied x.1 with
    | none =>
      let code := if pinned then 0x33 else if fit.isEmpty then 0x30 else 0x31
      .error (bindReport c fi (bestPair shown) 0 code)
    | some (e, f, g) =>
      match c.accFormat with
      | none => .error (bindReport c fi (bestPair shown) (min 255 c.accLog.toNat) 0x32)
      | some a => .ok (bound ++ [⟨c.id, f, g, a, e⟩])

/-! ### Flow order (R67, R75) -/

/-- Is a class bound? Class 0 is from the start (R63). -/
def isBound (bound : List BoundClass) (id : Nat) : Bool := id == 0 || bound.any fun b => b.id == id

/-- The storage format a class is bound to. -/
def storageOf (bound : List BoundClass) (id : Nat) : Fmt := ((bound.find? fun b => b.id == id).map BoundClass.storage).getD .i32

/-- Binds a class of an id unless it is bound. -/
def bindId (decls : List ClassDecl) (f0 : Word32) (flows : List Flow) (bound : List BoundClass) (id : Nat) (lim : Limit) :
    Except Nat (List BoundClass) :=
  if isBound bound id then .ok bound
  else match decls.find? fun c => c.id == id with
    | none => .ok bound
    | some c => c.bind f0 flows bound lim

/-- Class 0 as a declaration (R63): an int class that every int format fits. Its report describes a format imposed on it as any class's does (DESIGN
CHOICE, log 47). -/
def ClassDecl.zero : ClassDecl := ⟨0, .int, false, 0, 0, none, 0, 0, none, 1⟩

/-- Binds the two inputs of a `dot.m` (R75). -/
def bindMatrix (decls : List ClassDecl) (f0 : Word32) (flows : List Flow) (bound : List BoundClass) (w : Flow) :
    Except Nat (List BoundClass) :=
  match isBound bound w.x1, isBound bound w.x2 with
  | true, true =>
    let f1 := storageOf bound w.x1
    if f1 = storageOf bound w.x2 ∧ f1.matrixOperand then .ok bound
    else
      let c := (decls.find? fun c => c.id == w.x2).getD .zero
      let flow := flowOf flows c.id
      let errs := (c.pairs [f1]).map fun (f, g) => (c.error (flow.map Prod.fst) bound f g, f, g)
      .error (bindReport c (flow.map Prod.snd) (bestPair errs) 0 0x33)
  | true, false => bindId decls f0 flows bound w.x2 (.imposed (storageOf bound w.x1))
  | false, true => bindId decls f0 flows bound w.x1 (.imposed (storageOf bound w.x2))
  | false, false =>
    match bindId decls f0 flows bound w.x1 .matrix with
    | .error r => .error r
    | .ok bound => bindId decls f0 flows bound w.x2 (.imposed (storageOf bound w.x1))

/-- Binds the classes of one flow. -/
def bindFlow (decls : List ClassDecl) (f0 : Word32) (flows : List Flow) (bound : List BoundClass) (w : Flow) :
    Except Nat (List BoundClass) :=
  let inputs := match w.op with
    | .dotM => bindMatrix decls f0 flows bound w
    | .cvt => bindId decls f0 flows bound w.x1 .any
    | _ => match bindId decls f0 flows bound w.x1 .any with
      | .error r => .error r
      | .ok bound => bindId decls f0 flows bound w.x2 .any
  match inputs with
  | .error r => .error r
  | .ok bound => bindId decls f0 flows bound w.y .any

/-- Binds every class in flow order, stopping at the first failure (R67, R78). -/
def bindAll (decls : List ClassDecl) (flows : List Flow) (f0 : Word32) : Except Nat (List BoundClass) :=
  match flows.foldlM (bindFlow decls f0 flows) [] with
  | .error r => .error r
  | .ok bound => decls.foldlM (fun bound c => bindId decls f0 flows bound c.id .any) bound

/-- The record entry of a declared class (R82). -/
def ClassDecl.entry (c : ClassDecl) (b : BoundClass) : ClassRec :=
  ⟨c.id, c.kind, b.storage, b.compute, b.acc, c.lo, c.hi, if c.sr = 2 then 5 else 0, c.sr != 0, c.block, c.pin.isSome, achieved b.e,
    BitVec.ofNat 64 b.e⟩

/-- The classes of an image: class 0, and every declared class as it was bound; or the report of the failure. -/
def temper (decls : List ClassDecl) (flows : List Flow) (f0 : Word32) : Except Nat (List ClassRec) :=
  match bindAll decls flows f0 with
  | .error r => .error r
  | .ok bound =>
    .ok (classZero :: decls.filterMap fun c => (bound.find? fun b => b.id == c.id).map c.entry)

/-- The record's bytes (R80, R81). -/
def recordBytes (classes : List ClassRec) (word : ClassRec → Word64) (features tempergen : Word32) : List Byte :=
  leBytes 1 1 ++ leBytes 1 0 ++ leBytes 2 classes.length ++ leBytes 4 features.toNat ++ leBytes 4 tempergen.toNat ++ leBytes 4 0 ++
    classes.flatMap fun c => leBytes 8 (word c).toNat ++ leBytes 8 c.e.toNat

end Sys2Proof.Machine
end

