-- ==== Sys2Proof/Machine/Loader.lean ====
section
/-! DEFINITION. The object format (R87-R97), the loader's checks (R107, R108), relocation (R94), placement (R109) and LOAD (R310, R311,
R397). The bytes of an object are an argument `bs` throughout. -/

namespace Sys2Proof.Machine

/-! ### The sections of an object (R88, R90) -/

/-- A section-table entry (R90). -/
structure Section where
  index : Nat
  type : Nat
  tier : Nat
  kind : Nat
  alignlog : Nat
  off : Nat
  size : Nat
  reserved : Nat
  deriving DecidableEq, Repr

/-- Offset of the section table. -/
def sectTab (bs : List Byte) : Nat := field bs 0x58 4

/-- The k-th section-table entry. -/
def sectionAt (bs : List Byte) (k : Nat) : Section :=
  let p := sectTab bs + 16 * k
  ⟨k, field bs p 1, field bs (p + 1) 1, field bs (p + 2) 1, field bs (p + 3) 1, field bs (p + 4) 4, field bs (p + 8) 4, field bs (p + 12) 4⟩

/-- All sections. -/
def sectionsOf (bs : List Byte) : List Section := (List.range (field bs 0x0A 2)).map (sectionAt bs)

/-- A section that is not there. -/
def Section.none : Section := ⟨0, 0, 0, 0, 0, 0, 0, 0⟩

/-- The section of a type an executable holds once. -/
def sectionOf (bs : List Byte) (type : Nat) : Section := ((sectionsOf bs).find? fun s => s.type == type).getD Section.none

/-- Bytes of an entry of a table section (R90). -/
def entrySize (type : Nat) : Nat :=
  match type with
  | 1 => 4 | 2 => 32 | 3 => 16 | 4 => 72 | 6 => 16 | 7 => 16
  | _ => 1

/-- Entries of a table section. -/
def Section.count (s : Section) : Nat := s.size / entrySize s.type

/-- Is a number of sections of a type allowed in an executable (R90)? -/
def countAllowed (type n : Nat) : Bool :=
  match type with
  | 5 => true
  | 6 | 7 => decide (n ≤ 1)
  | _ => n == 1

/-- Is a section-table entry sound by itself (R90)? Its place is a multiple of its alignment (DESIGN CHOICE, log 47: the format asks it of the linker,
R110, and step 1 of R107 does not name it). -/
def Section.sound (s : Section) (objsize : Nat) : Bool :=
  decide (1 ≤ s.type ∧ s.type ≤ 9) && decide (s.alignlog ≤ 16) && s.reserved == 0 &&
    (if s.type = 5 then decide (s.tier ≤ 2 ∧ s.kind ≤ 2) else s.tier == 0 && s.kind == 0) &&
    decide (s.off + s.size ≤ objsize) && s.off % 2 ^ s.alignlog == 0 && s.size % entrySize s.type == 0 &&
    (s.type != 1 || decide (4 ≤ s.size ∧ s.size ≤ 2 ^ 21)) && (s.type != 2 || decide (s.count ≤ 255)) && (s.type != 4 || decide (1 ≤ s.count))

/-- Do two sections overlap? -/
def Section.overlaps (a b : Section) : Bool := decide (a.off < b.off + b.size ∧ b.off < a.off + a.size ∧ 0 < a.size ∧ 0 < b.size)

/-- Are n bytes from an offset zero? The offset of the first that is not. -/
def firstNonzero (bs : List Byte) (off n : Nat) : Option Nat := ((List.range n).find? fun k => field bs (off + k) 1 != 0).map (off + ·)

/-- The first listed failure: each check is a condition that must hold, with the object offset it reports. -/
def firstFailure (checks : List (Bool × Nat)) : Option Nat := (checks.find? fun c => !c.1).map Prod.snd

/-- The 128-bit report of R107. -/
def loadReport (off detail code : Nat) : Nat := off * 2 ^ 32 + detail * 2 ^ 16 + code

/-! ### Step 1 -/

/-- The object with the measurement taken as zero (R97). -/
def unmeasured (bs : List Byte) : List Byte := bs.take 0x80 ++ List.replicate 64 0 ++ bs.drop 0xC0

/-- Step 1 of R107: the offset of what fails. Of a field of several bytes that is its first byte, of two sections that overlap the later entry, and for
a section missing or there too often 0x58, where the table is named (DESIGN CHOICE, log 47). -/
def checkLayout (bs : List Byte) : Option Nat :=
  let size := field bs 0x0C 4
  let ss := sectionsOf bs
  let reserved := (firstNonzero bs 0x09 1 <|> firstNonzero bs 0x37 1) <|> (firstNonzero bs 0x5C 36 <|> firstNonzero bs 0xC0 64)
  (firstFailure [(bs.take 4 == [0x44, 0x58, 0x4F, 0x00], 0), (field bs 4 2 == 1, 4), (field bs 8 1 == 1, 8),
    (size == bs.length && decide (256 ≤ size), 0x0C)] <|> reserved) <|>
  (firstFailure ([(decide (1 ≤ field bs 0x0A 2 ∧ field bs 0x0A 2 ≤ 1024), 0x0A), (decide (sectTab bs + 16 * field bs 0x0A 2 ≤ size), 0x58)] ++
      (ss.map fun s => (s.sound size, sectTab bs + 16 * s.index)) ++
      ((List.range 10).drop 1).map (fun t => (countAllowed t (ss.filter fun s => s.type == t).length, 0x58)) ++
      (ss.map fun s => (!(ss.any fun r => decide (r.index < s.index) && r.overlaps s), sectTab bs + 16 * s.index))) <|>
    firstFailure [(sha512 (unmeasured bs) == (bs.drop 0x80).take 64, 0x80)])

/-! ### Step 2 -/

/-- Is an offset that of a code word? -/
def addressesWord (code : Section) (off : Nat) : Bool := off % 4 == 0 && decide (off < code.size)

/-- The format ids the classes pin (R91). -/
def pins (bs : List Byte) : List Nat :=
  let t := sectionOf bs 2
  (List.range t.count).filterMap fun j =>
    if (field bs (t.off + 32 * j + 5) 1).testBit 3 then some (field bs (t.off + 32 * j + 7) 1) else none

/-- Step 2 of R107: the features that must be required (R101) and the header values (R10, R88, R89, R100), by rising offset (DEDUCED, log 40). The name's
place in the string section is judged here, at 0x54: R88 gives its meaning, and no step of R107 names it (DESIGN CHOICE, log 40). -/
def checkHeader (bs : List Byte) : Option Nat :=
  let code := sectionOf bs 1
  let tier := field bs 0x35 1
  let flags := field bs 0x38 4
  let f0 := field bs 0x10 4
  let most := if tier = 2 then 64 else if tier = 1 then 68 else 72
  let needs (bit : Nat) (cond : Bool) : Bool := !cond || f0.testBit bit
  firstFailure [
    (needs 0 true && needs 1 (tier == 2) && needs 2 (flags.testBit 1) && needs 3 (flags.testBit 0) && needs 5 ((pins bs).contains 6) &&
      needs 6 ((pins bs).contains 9 || (pins bs).contains 10), 0x10),
    ([16, 32, 64, 128, 256, 512, 1024].contains (field bs 0x30 2) && (tier != 2 || decide (32 ≤ field bs 0x30 2)), 0x30),
    (decide (1 ≤ field bs 0x32 1 ∧ field bs 0x32 1 ≤ 16), 0x32), (decide (1 ≤ field bs 0x33 1 ∧ field bs 0x33 1 ≤ 192), 0x33),
    (decide (field bs 0x34 1 ≤ if tier = 2 then 8 else 16), 0x34), (decide (tier ≤ 2), 0x35), (decide (field bs 0x36 1 ≤ 1), 0x36),
    (decide (flags < 16), 0x38), (field bs 0x3C 4 % 4096 == 0 && decide (field bs 0x3C 4 ≤ 262144), 0x3C),
    (field bs 0x40 4 % 4096 == 0 && decide (field bs 0x40 4 ≤ most * 2 ^ 20), 0x40),
    (field bs 0x44 4 % 8 == 0 && decide (field bs 0x44 4 ≤ 65536), 0x44), (field bs 0x48 4 % 4 == 0 && decide (field bs 0x48 4 ≤ 65536), 0x48),
    (addressesWord code (field bs 0x4C 4), 0x4C), (field bs 0x50 4 == 0xFFFFFFFF || addressesWord code (field bs 0x50 4), 0x50),
    (decide (field bs 0x54 4 < (sectionOf bs 8).size), 0x54)]

/-- Step 3 of R107: the lowest bit required and not accepted, as word and bit. -/
def missingFeature (requires accepted : List Word32) : Option (Nat × Nat) :=
  ((List.range 4).flatMap fun n => (List.range 32).map fun b => (n, b)).find? fun x =>
    (nth requires x.1 0).getLsbD x.2 && !(nth accepted x.1 0).getLsbD x.2

/-- The required feature words. -/
def requiresOf (bs : List Byte) : List Word32 := (List.range 4).map fun n => BitVec.ofNat 32 (field bs (0x10 + 4 * n) 4)

/-! ### Step 4 (R63-R67, R91, R92) -/

/-- A kind's code. -/
def kindOf (k : Nat) : Kind := if k = 0 then .real else if k = 1 then .int else .index

/-- The class of table entry j. -/
def classAt (bs : List Byte) (j : Nat) : ClassDecl :=
  let p := (sectionOf bs 2).off + 32 * j
  let fl := field bs (p + 5) 1
  let allow := field bs (p + 12) 4
  ⟨j + 1, kindOf (field bs (p + 4) 1), fl.testBit 0, if fl.testBit 2 then 2 else if fl.testBit 1 then 1 else 0, field bs (p + 6) 1,
    if fl.testBit 3 then Fmt.ofId (field bs (p + 7) 1) else none, signed 16 (field bs (p + 8) 2), signed 16 (field bs (p + 10) 2),
    if fl.testBit 4 then some ((Fmt.all.zipIdx.filter fun x => allow.testBit x.2).map Prod.fst) else none,
    if fl.testBit 5 then field bs (p + 16) 8 else 1⟩

/-- The declared classes. -/
def classesOf (bs : List Byte) : List ClassDecl := (List.range (sectionOf bs 2).count).map (classAt bs)

/-- May a pin or allow list of a class name a format (R65)? -/
def ClassDecl.nameable (c : ClassDecl) (f : Fmt) : Bool := f != .crucible && f.kind == c.kind && (c.block || !f.isMX)

/-- The bytes of a name in the string section. -/
def nameAt (bs : List Byte) (off : Nat) : List Byte :=
  let s := sectionOf bs 8
  ((bs.drop (s.off + off)).take (s.size - off)).takeWhile (· != 0)

/-- Is class-table entry j sound (R63, R64, R65, R91)? Its name is unique among the declared ones, and may be that of class 0, `i32c` (DESIGN CHOICE,
log 47). -/
def classSound (bs : List Byte) (j : Nat) : Bool :=
  let p := (sectionOf bs 2).off + 32 * j
  let fl := field bs (p + 5) 1
  let c := classAt bs j
  let real := c.kind == .real
  decide (field bs p 4 < (sectionOf bs 8).size) && decide (field bs (p + 4) 1 ≤ 2) && decide (fl < 64) &&
    !(fl.testBit 1 && fl.testBit 2) && !(fl.testBit 3 && fl.testBit 4) && (real || (!fl.testBit 0 && !fl.testBit 1 && !fl.testBit 2)) &&
    (if real then decide (c.q ≤ 31) && decide (-160 ≤ c.lo ∧ c.lo ≤ c.hi ∧ c.hi ≤ 160)
      else c.q == 0 && c.lo == 0 && decide (1 ≤ c.hi ∧ c.hi ≤ 32)) &&
    (if fl.testBit 3 then (c.pin.map c.nameable).getD false else field bs (p + 7) 1 == 0) &&
    (if fl.testBit 4 then decide (field bs (p + 12) 4 < 2 ^ 18) && (match c.allow with | some l => !l.isEmpty && l.all c.nameable | none => false)
      else field bs (p + 12) 4 == 0) &&
    (if fl.testBit 5 then decide (1 ≤ c.accum ∧ c.accum ≤ 2 ^ 48) else field bs (p + 16) 8 == 0) && field bs (p + 24) 8 == 0 &&
    !((List.range j).any fun i => nameAt bs (field bs ((sectionOf bs 2).off + 32 * i) 4) == nameAt bs (field bs p 4))

/-- The flow of table entry j. -/
def flowAt (bs : List Byte) (j : Nat) : Flow :=
  let p := (sectionOf bs 3).off + 16 * j
  let op := match field bs p 1 with | 0 => FlowOp.mul | 1 => .dotV | 2 => .dotM | _ => .cvt
  ⟨op, field bs (p + 1) 1, field bs (p + 2) 1, field bs (p + 3) 1, field bs (p + 4) 4⟩

/-- The flows in written order. -/
def flowsOf (bs : List Byte) : List Flow := (List.range (sectionOf bs 3).count).map (flowAt bs)

/-- The kind of a class id; class 0 is of kind int (R63). -/
def kindOfId (cs : List ClassDecl) (id : Nat) : Option Kind := if id = 0 then some .int else (cs.find? fun c => c.id == id).map ClassDecl.kind

/-- The classes bound before flow j is reached (R67). -/
def boundBefore (fs : List Flow) (j : Nat) : List Nat := (fs.take j).flatMap fun f => [f.x1, f.x2, f.y]

/-- Is flow-table entry j sound (R66, R67, R92)? -/
def flowSound (bs : List Byte) (j : Nat) : Bool :=
  let p := (sectionOf bs 3).off + 16 * j
  let f := flowAt bs j
  let cs := classesOf bs
  let fs := flowsOf bs
  let dot := f.op == .dotV || f.op == .dotM
  let kinds := [kindOfId cs f.y, kindOfId cs f.x1] ++ if f.op = .cvt then [] else [kindOfId cs f.x2]
  decide (field bs p 1 ≤ 3) && f.y != 0 && kinds.all Option.isSome && (f.op != .cvt || f.x2 == 0) &&
    (f.op == .cvt || kinds.all (· == some .real) || kinds.all (· == some .int)) &&
    (if dot then decide (1 ≤ f.k ∧ f.k ≤ 2 ^ 24) else f.k == 0) && field bs (p + 8) 8 == 0 &&
    !((f.x1 :: (if f.op = .cvt then [] else [f.x2])) ++ boundBefore fs j).contains f.y

/-- Step 4 of R107. -/
def checkClasses (bs : List Byte) : Option Nat :=
  firstFailure ((List.range (sectionOf bs 2).count).map (fun j => (classSound bs j, (sectionOf bs 2).off + 32 * j)) ++
    (List.range (sectionOf bs 3).count).map fun j => (flowSound bs j, (sectionOf bs 3).off + 16 * j))

/-! ### Step 5 (R93-R96) -/

/-- The code words. -/
def codeOf (bs : List Byte) : List Word32 :=
  let s := sectionOf bs 1
  (List.range s.count).map fun k => BitVec.ofNat 32 (field bs (s.off + 4 * k) 4)

/-- The region of table entry j (R93). -/
def regionEntry (bs : List Byte) (j : Nat) : RegionRec :=
  let p := (sectionOf bs 4).off + 72 * j
  ⟨field bs p 4, field bs (p + 4) 4, BitVec.ofNat 192 (field bs (p + 8) 24), BitVec.ofNat 256 (field bs (p + 0x20) 32),
    BitVec.ofNat 16 (field bs (p + 0x40) 2), BitVec.ofNat 16 (field bs (p + 0x42) 2)⟩

/-- The region table. -/
def regionTable (bs : List Byte) : List RegionRec := (List.range (sectionOf bs 4).count).map (regionEntry bs)

/-- The imm24 of a word that is an `rgn`. -/
def rgnImm (w : Word32) : Option Nat := match decodeWord w with | some (.rgn i) => some i.toNat | _ => none

/-- Is region-table entry j sound (R93)? -/
def regionSound (bs : List Byte) (code : List Word32) (rs : List RegionRec) (j : Nat) : Bool :=
  let p := (sectionOf bs 4).off + 72 * j
  match rs[j]? with
  | none => false
  | some r =>
    r.at_ % 4 == 0 && (code[r.at_ / 4]?).bind rgnImm == some r.number && !r.slive.getLsbD 0 && !r.plive.getLsbD 0 && field bs (p + 0x44) 4 == 0 &&
      (rs.take j).all fun x => decide (x.at_ < r.at_) && x.number != r.number

/-- A relocation (R94). -/
structure Reloc where
  at_ : Nat
  sect : Nat
  type : Nat
  sym : Nat
  addend : Nat
  deriving DecidableEq, Repr

/-- The relocation of table entry j. -/
def relocAt (bs : List Byte) (j : Nat) : Reloc :=
  let p := (sectionOf bs 6).off + 16 * j
  ⟨field bs p 4, field bs (p + 4) 1, field bs (p + 5) 1, field bs (p + 6) 2, field bs (p + 8) 8⟩

/-- Is a word in the SI format (R113, R122)? -/
def isSI (w : Word32) : Bool := w.extractLsb' 30 2 == 0 && decide (0x28 ≤ (w.extractLsb' 24 6).toNat ∧ (w.extractLsb' 24 6).toNat ≤ 0x34)

/-- Is relocation j sound in an executable (R94)? -/
def relocSound (bs : List Byte) (code : List Word32) (j : Nat) : Bool :=
  let r := relocAt bs j
  match (sectionsOf bs)[r.sect]? with
  | none => false
  | some s =>
    decide (2 ≤ r.type ∧ r.type ≤ 6) && decide (r.sym < (sectionOf bs 7).count) &&
      (if r.type = 6 then s.type == 5 && decide (r.at_ + 8 ≤ s.size)
        else s.type == 1 && r.at_ % 4 == 0 && (code[r.at_ / 4]?.map isSI).getD false)

/-- Is symbol j sound and defined (R95)? One of a section stands in code or data, at most at its end (DESIGN CHOICE, log 47). -/
def symbolSound (bs : List Byte) (j : Nat) : Bool :=
  let p := (sectionOf bs 7).off + 16 * j
  let sect := field bs (p + 4) 2
  decide (field bs p 4 < (sectionOf bs 8).size) && decide (field bs (p + 6) 2 < 4) && (field bs (p + 6) 2).testBit 1 &&
    (sect == 0xFFFF || match (sectionsOf bs)[sect]? with
      | some s => (s.type == 1 || s.type == 5) && decide (field bs (p + 8) 8 ≤ s.size)
      | none => false)

/-- The first byte of the string section that breaks R95: one that is no ASCII, or the last where it ends no name. -/
def badString (bs : List Byte) : Option Nat :=
  let s := sectionOf bs 8
  let chars := (bs.drop s.off).take s.size
  ((chars.zipIdx.find? fun (b, k) => decide (b.toNat ≥ 0x80) || (k + 1 == s.size && b != 0)).map Prod.snd).map (s.off + ·)

/-- Step 5 of R107. A wrong size of the temper area is reported at the area (DESIGN CHOICE, log 47). -/
def checkTables (bs : List Byte) : Option Nat :=
  let code := codeOf bs
  let rs := regionTable bs
  let rt := sectionOf bs 4
  let heads := (code.zipIdx.filter fun x => (rgnImm x.1).isSome).map fun x => 4 * x.2
  firstFailure ((List.range rt.count).map (fun j => (regionSound bs code rs j, rt.off + 72 * j)) ++
    (heads.map fun h => (rs.any fun r => r.at_ == h, (sectionOf bs 1).off + h)) ++
    (List.range (sectionOf bs 6).count).map (fun j => (relocSound bs code j, (sectionOf bs 6).off + 16 * j)) ++
    (List.range (sectionOf bs 7).count).map (fun j => (symbolSound bs j, (sectionOf bs 7).off + 16 * j)) ++
    [(field bs (sectionOf bs 8).off 1 == 0 && decide (1 ≤ (sectionOf bs 8).size), (sectionOf bs 8).off),
     ((badString bs).isNone, (badString bs).getD 0),
     ((sectionOf bs 9).size == 16 + 16 * ((sectionOf bs 2).count + 1), (sectionOf bs 9).off)])

/-! ### Step 6 (R108) -/

/-- The vector registers a word's operand codes name (R108, item 1). The code of an `mdrv` or `mldv` that names no register fails item 1 like one above
vregs − 32, whatever the closing sentence of R108 says of reserved codes (DESIGN CHOICE, log 40). -/
def vectorCodes (i : Instr) : List Nat :=
  match i with
  | .vatcas d _ b => [d.toNat, b.toNat].filter fun c => decide (c ≤ 0xBF)
  | .mdrv d _ => [d.toNat + 31]
  | .mldv _ a => [a.toNat + 31]
  | _ =>
    ((sources i).filterMap fun o => match o.kind with
      | .vC | .vX | .vRaw | .vr => if o.f.toNat ≤ 0xBF then some o.f.toNat else none
      | _ => none) ++ (dests i).filter fun c => decide (c ≤ 0xBF)

/-- The accumulator field of a word (R108, item 2). From 0x10 on it names no tile. -/
def tileField : Instr → Option Nat
  | .mma d _ _ | .mmaz d _ _ | .mzero d | .mldv d _ => some d.toNat
  | .mdrv _ a | .mdrl a _ | .mdrx a _ => some a.toNat
  | _ => none

/-- The class a `mode` or `modx` names (item 3). -/
def classNamed : Instr → Option Nat
  | .mode i => some (i.toNat / 256)
  | .modx i => some (i.toNat / 8192)
  | _ => none

/-- The signed word offset of a CB word (item 5). -/
def branchOffset : Instr → Option Int
  | .bra o | .brp _ o | .brn _ o | .split o | .brk _ o | .call o => some o.toInt
  | _ => none

/-- Must an `rgn` follow the word (R18; item 8)? -/
def rgnAfter : Instr → Bool
  | .satadd _ _ _ | .satxchg _ _ _ | .satcas _ _ _ | .satmin _ _ _ | .satmax _ _ _ | .satand _ _ _ | .sator _ _ _ | .satxor _ _ _ => true
  | .vatadd _ _ _ | .vatmin _ _ _ | .vatmax _ _ _ | .vatand _ _ _ | .vator _ _ _ | .vatxchg _ _ _ | .vatcas _ _ _ => true
  | .cxadd _ _ _ | .mdrx _ _ | .launch _ | .refill _ => true
  | _ => false

/-- The instruction of a word whose opcode is listed, its zero field taken as zero: the loader does not reject a nonzero one (R108). Each mask is the
zero field of some format (R113). -/
def looseWord (w : Word32) : Option Instr :=
  [0, 0x7, 0xFF, 0xFF00, 0xFFFF, 0xFFC0, 0xF00000, 0xFF0000, 0xFF00FF, 0xFFFFFF].findSome? fun (m : Word32) => decodeWord (w &&& ~~~m)

/-- The code checks on word k (R108). A word that no opcode lists passes. -/
def wordSound (bs : List Byte) (code : List Word32) (k : Nat) : Bool :=
  match (code[k]?).bind looseWord with
  | none => true
  | some i =>
    (vectorCodes i).all (fun c => decide (c < field bs 0x33 1)) && ((tileField i).map fun t => decide (t < field bs 0x34 1 ∨ 0x10 ≤ t)).getD true &&
      ((classNamed i).map fun c => decide (c ≤ (sectionOf bs 2).count)).getD true &&
      (match i with | .sldp _ x => decide (x.toNat * 8 < field bs 0x44 4) | _ => true) &&
      (match branchOffset i with
        | none => true
        | some o =>
          let t : Int := k + o
          decide (0 ≤ t ∧ t < code.length) && (match i with
            | .split _ => (code[t.toNat]?).bind looseWord == some .join
            | _ => true)) &&
      (!rgnAfter i || ((code[k + 1]?).bind rgnImm).isSome)

/-- Step 6 of R107: the words of R18 that begin something, then word by word. The report names the word whose check fails: of a word that must stand
before an `rgn`, or whose target must be a `join`, that word, not the one that is missing (DESIGN CHOICE, log 40). -/
def checkCode (bs : List Byte) : Option Nat :=
  let code := codeOf bs
  let base := (sectionOf bs 1).off
  let head (off : Nat) : Bool := ((code[off / 4]?).bind rgnImm).isSome
  firstFailure ([(head (field bs 0x4C 4), base + field bs 0x4C 4), (field bs 0x50 4 == 0xFFFFFFFF || head (field bs 0x50 4), base + field bs 0x50 4)] ++
    (List.range code.length).map fun k => (wordSound bs code k, base + 4 * k))

/-- Steps 1 to 6 of R107: the report of the first failure. -/
def checkObject (bs : List Byte) (accepted : List Word32) : Option Nat :=
  let bad (step : Nat) (x : Option Nat) : Option Nat := x.map fun o => loadReport o step 0x34
  match bad 1 (checkLayout bs) with
  | some r => some r
  | none => match bad 2 (checkHeader bs) with
    | some r => some r
    | none => match missingFeature (requiresOf bs) accepted with
      | some (n, b) => some (featureReport n b)
      | none => match bad 4 (checkClasses bs) with
        | some r => some r
        | none => match bad 5 (checkTables bs) with
          | some r => some r
          | none => bad 6 (checkCode bs)

/-! ### Placement (R109) -/

/-- The sections that are placed. -/
def placedSections (bs : List Byte) : List Section := (sectionsOf bs).filter fun s => s.type == 1 || s.type == 5 || s.type == 9

/-- Tier, ordering kind and permissions (R, W, A, X) of a placed section's pages (R109, R358). -/
def Section.leaf (s : Section) (pa : Nat) : Leaf :=
  match s.type with
  | 1 => ⟨pa, 0, 0, 2, false, false, false, true, 0⟩
  | 9 => ⟨pa, 0, 0, 2, true, false, false, false, 0⟩
  | _ => ⟨pa, 0, s.kind, s.tier, true, true, true, false, 0⟩

/-- 64 KiB pages of a section. -/
def Section.pages (s : Section) : Nat := (s.size + 65535) / 65536

/-- Where a section has been placed: its virtual address and the frames of its pages. -/
structure Placed where
  index : Nat
  va : Nat
  frames : List Nat
  deriving DecidableEq, Repr

/-- Places a section (R107, step 8; R109) at the die the host's policy names: in the frames named there, where they fit, or else in free ones of a
band of its tier; the pages are mapped. None where no band has room. -/
def State.placeSection (s : State) (ctx : Nat) (x : Section) (p : Placement) : Option (State × Placed) :=
  let die := homeOf p.va % Config.dies
  let tier := (x.leaf 0).tier
  match s.findPages ctx die p.va x.pages, s.namedFrames die tier p.frame x.pages <|> s.findFrames die tier x.pages with
  | some va, some frames =>
    ((s.takeFrames ctx die va frames).mapPages ctx die va (frames.map x.leaf)).map fun s => (s, ⟨x.index, va, frames⟩)
  | _, _ => none

/-- Places the sections in turn: the state with all of them mapped and where they stand, or the first that finds no room. -/
def State.placeAll (s : State) (ctx : Nat) (place : List Placement) : List Section → Nat → List Placed → Except Section (State × List Placed)
  | [], _, done => .ok (s, done)
  | x :: rest, k, done =>
    match s.placeSection ctx x (nth place k ⟨0, 0⟩) with
    | some (s, p) => s.placeAll ctx place rest (k + 1) (done ++ [p])
    | none => .error x

/-- Where a section of an index has been placed. -/
def placedAt (place : List Placed) (index : Nat) : Placed := (place.find? fun p => p.index == index).getD ⟨0, 0, []⟩

/-- S + A of a relocation (R94, R95). -/
def relocValue (bs : List Byte) (place : List Placed) (r : Reloc) : Nat :=
  let p := (sectionOf bs 7).off + 16 * r.sym
  let sect := field bs (p + 4) 2
  let value := field bs (p + 8) 8
  ((if sect = 0xFFFF then value else (placedAt place sect).va + value) + r.addend) % 2 ^ 64

/-- Replaces n bytes at an offset. -/
def patch (bs : List Byte) (off : Nat) (new : List Byte) : List Byte := bs.take off ++ new ++ bs.drop (off + new.length)

/-- Applies the relocations to the object's bytes (R94, R109), in the order of their table: of two that meet, the later one's bytes stay (DESIGN
CHOICE, log 40). -/
def relocate (bs : List Byte) (place : List Placed) : List Byte :=
  (List.range (sectionOf bs 6).count).foldl (fun (acc : List Byte) j =>
    let r := relocAt bs j
    let v := relocValue bs place r
    let off := (nth (sectionsOf bs) r.sect Section.none).off + r.at_
    match r.type with
    | 2 => patch acc off (leBytes 2 v)
    | 3 => patch acc off (leBytes 2 (v / 2 ^ 16))
    | 4 => patch acc off (leBytes 2 (v / 2 ^ 32))
    | 5 => patch acc off (leBytes 2 (v / 2 ^ 48))
    | _ => patch acc off (leBytes 8 v)) bs

/-- The record that the temper writes for an image (R80-R82). -/
def Object.record (o : Object) : List Byte := recordBytes o.classes ClassRec.word o.features o.temperGen

/-- The loaded image of an object (R88, R109). -/
def imageOf (bs : List Byte) (place : List Placed) (handle version ctx : Nat) (classes : List ClassRec) (features : Word32) : Object :=
  let img := relocate bs place
  let va (type : Nat) : Nat := (placedAt place (sectionOf bs type).index).va
  { handle := handle
    version := version
    ctx := ctx
    code := codeOf img
    codeVa := va 1
    width := field bs 0x30 2
    crewwaves := field bs 0x32 1
    vregs := field bs 0x33 1
    acc := field bs 0x34 1
    tier := field bs 0x35 1
    refill := field bs 0x36 1 == 1
    traponinv := (field bs 0x38 4).testBit 3
    traponrng := (field bs 0x38 4).testBit 2
    detreq := (field bs 0x38 4).testBit 1
    replay := (field bs 0x38 4).testBit 0
    crewstore := field bs 0x3C 4
    marver := field bs 0x40 4
    params := field bs 0x44 4
    stack := field bs 0x48 4
    entry := field bs 0x4C 4
    drain := if field bs 0x50 4 = 0xFFFFFFFF then none else some (field bs 0x50 4)
    requires := requiresOf bs
    classes := classes
    regions := regionTable bs
    temperVa := va 9
    temperGen := Config.tempergen
    features := features
    measure := (bs.drop 0x80).take 64
    native := []
    superseded := false }

/-- Stores a section's bytes in the frames of its pages. -/
def State.storeSection (s : State) (ctx : Nat) (p : Placed) (bs : List Byte) : State :=
  p.frames.zipIdx.foldl (fun s (pa, k) => s.storePage none ctx ⟨homeOf p.va, pa⟩ ((bs.drop (65536 * k)).take 65536)) s

/-- Puts a checked, bound and placed object into a context: its bytes, and its image; a version it replaces is superseded. -/
def State.install (s : State) (bs : List Byte) (place : List Placed) (ctx handle : Nat) (classes : List ClassRec) : Nat × State :=
  let (h, s) := match s.object? ctx handle with
    | some _ => (handle, s)
    | none => (s.nextHandle, { s with nextHandle := s.nextHandle + 1 })
  let version := (s.objects.filter fun o => o.handle == h).length
  let o := imageOf bs place h version ctx classes (nth s.faccept 0 0)
  let img := relocate bs place
  let s := (placedSections bs).foldl (fun s x =>
    s.storeSection ctx (placedAt place x.index) (if x.type = 9 then o.record else (img.drop x.off).take x.size)) s
  let objects := s.objects.map fun (y : Object) => if y.handle == h && y.ctx == ctx then { y with superseded := true } else y
  (h, { s with objects := objects ++ [o] }.dropNative)

/-- Checks, binds and places an object for a context (R107): the handle and a zero report, or the report of the failure. -/
def State.loadObject (s : State) (bs : List Byte) (place : List Placement) (ctx handle : Nat) : (Nat × Nat) × State :=
  match checkObject bs s.faccept with
  | some r => ((0, r), s)
  | none =>
    match temper (classesOf bs) (flowsOf bs) (nth s.faccept 0 0) with
    | .error r => ((0, r), s)
    | .ok classes =>
      match s.placeAll ctx place (placedSections bs) 0 [] with
      | .error x => ((0, loadReport (sectTab bs + 16 * x.index) 8 0x36), s)
      | .ok (s, placed) =>
        let (h, s) := s.install bs placed ctx handle classes
        ((h, 0), s)

end Sys2Proof.Machine
end

