-- ==== Sys2Proof/Machine/Commands.lean ====
section
/-! DEFINITION. The host's commands (R310, R320, R323-R330, R338, R355, R357, R372, R397, R399, R402, R404). Each is ignored while a command
runs, and all but ATTEST are refused before stage 3 (R397, R403). A home operand is a home code. -/

namespace Sys2Proof.Machine

/-- cmdstat of a command that is done (R396). -/
def State.commandDone (s : State) : State := { s with cmdstat := 0 }

/-- cmdstat of a refused command, with its detail (R396). -/
def State.commandRefused (s : State) (detail : Nat) : State := { s with cmdstat := BitVec.ofNat 32 (2 + detail % 65536 * 65536) }

/-- A command goes on: cmdstat reads 1. -/
def State.commandRuns (s : State) (r : Running) : State := { s with running := some r, cmdstat := 1 }

/-- Runs a command (R397, R403): `early` for the one that may run before stage 3. -/
def State.command (s : State) (early : Bool) (f : State → State) : Result :=
  if s.running.isSome then .next s
  else if !early && s.stage != 3 then .next (s.commandRefused 0)
  else .next (f s)

/-- A command that is refused unless a condition holds, and else takes effect at once. -/
def State.commandIf (s : State) (ok : Bool) (f : State → State) : Result :=
  s.command false fun s => if ok then (f s).commandDone else s.commandRefused 0

/-- Writes a result buffer in host memory (R397): one device write, accepted once the host's response arrives (R398). -/
def State.toHost (s : State) (addr : Nat) (bs : List Byte) : State :=
  { s with hostMem := s.hostMem.writeBytes addr bs, hostWrites := s.hostWrites + 1 }

/-! ### Queues (R310) -/

/-- QSTART: the queue runs and reads its chain from head. -/
def execQstart (q : Nat) (s : State) : Result :=
  s.commandIf (decide (q < Config.queues) && (s.queue q).status != 1) fun s =>
    s.onQueue q fun x => { x with status := 1, stopat := 0, reading := some (false, x.head.toNat) }

/-- Stops a queue: nothing more is read, and held decrements are discarded (R295). stopat stays as it stood (R291; DESIGN CHOICE, log 39). -/
def State.stopQueue (s : State) (q : Nat) : State := s.onQueue q fun x => { x with status := 0, reading := none, held := [] }

/-- QSTOP. -/
def execQstop (q : Nat) (s : State) : Result := s.commandIf (decide (q < Config.queues)) fun s => s.stopQueue q

/-- Does a crew belong to a launch of a queue? -/
def State.crewOfQueue (s : State) (q : Nat) (c : Crew) : Bool := ((s.launch? c.launch).map fun l => l.queue == q).getD false

/-- Stands a crew of a queue on a core? -/
def State.queuePlaced (s : State) (q : Nat) : Bool := s.crews.any fun c => c.placed && s.crewOfQueue q c

/-- QEVICT: the queue's crews are asked to stop, and none is placed until QRESUME; the command goes on until every one has been pre-empted. -/
def execQevict (q : Nat) (s : State) : Result :=
  s.command false fun s =>
    if decide (q ≥ Config.queues) then s.commandRefused 0
    else
      let s := (s.onQueue q fun x => { x with evicted := true }).stopCrews (s.crewOfQueue q)
      if s.queuePlaced q then s.commandRuns (.qevict q) else s.commandDone

/-- QRESUME. -/
def execQresume (q : Nat) (s : State) : Result :=
  s.commandIf (decide (q < Config.queues)) fun s => s.onQueue q fun x => { x with evicted := false }

/-- QKILL: every accepted launch of the queue is killed, and the queue stops (R258, R298). -/
def execQkill (q : Nat) (s : State) : Result :=
  s.commandIf (decide (q < Config.queues)) fun s =>
    (s.killLaunches ((s.launches.filter fun l => l.queue == q && l.open_).map Launch.key)).stopQueue q

/-! ### Contexts (R255, R317, R340, R357, R397) -/

/-- Is a context there? -/
def State.hasContext (s : State) (ctx : Nat) : Bool := (s.context? ctx).isSome

/-- CTXCREATE: EB is 2^20 (R340); identifier 0xFFFF names no context (R332, R402). -/
def execCtxcreate (ctx : Nat) (debug : Bool) (handler : Word64) (s : State) : Result :=
  s.commandIf (!s.hasContext ctx && decide (ctx < 0xFFFF)) fun s =>
    { s with contexts := s.contexts ++ [⟨ctx, debug, handler.toNat, Config.initialEB, 0, [], [], false, .ofCause 0⟩] }

/-- CTXROOT (R317): sets the L0 table of a context at a home; zero withdraws it. -/
def execCtxroot (ctx home root : Nat) (s : State) : Result :=
  s.commandIf (s.hasContext ctx && isOwnHome home) fun s =>
    s.onContext ctx fun c =>
      let rest := c.roots.filter fun r => r.1 != home
      { c with roots := if root = 0 then rest else (home, root) :: rest }

/-- May an address be a trap handler of a context (R357): a word of the code of an object loaded in it? -/
def State.handlerAllowed (s : State) (ctx a : Nat) : Bool :=
  s.objects.any fun o => o.ctx == ctx && decide (o.codeVa ≤ a ∧ a < o.codeVa + 4 * o.code.length) && (a - o.codeVa) % 4 == 0

/-- TRAPSET (R357): zero withdraws the handler. -/
def execTrapset (ctx : Nat) (addr : Word64) (s : State) : Result :=
  s.commandIf (s.hasContext ctx && (addr == 0 || s.handlerAllowed ctx addr.toNat)) fun s =>
    s.onContext ctx fun c => { c with handler := addr.toNat }

/-- EBSET (R355). -/
def execEbset (ctx : Nat) (value : Word64) (s : State) : Result :=
  s.commandIf (s.hasContext ctx) fun s => s.onContext ctx fun c => { c with eb := value }

/-- CORRREAD (R355): reads and clears the correction count. -/
def execCorrread (ctx buf : Nat) (s : State) : Result :=
  s.commandIf (s.hasContext ctx) fun s =>
    let n := ((s.context? ctx).map Context.corrections).getD 0
    (s.onContext ctx fun c => { c with corrections := 0 }).toHost buf (leBytes 8 n)

/-- CTXDESTROY (R397): frees the context's queues, roots and objects, unless an accepted launch has not completed. The distributor keeps which queue it
served last (R307). -/
def execCtxdestroy (ctx : Nat) (s : State) : Result :=
  s.commandIf (s.hasContext ctx && !(s.launches.any fun l => l.ctx == ctx && l.open_)) fun s =>
    { s with
      contexts := s.contexts.filter fun c => c.id != ctx
      objects := s.objects.filter fun o => o.ctx != ctx
      launches := s.launches.filter fun l => l.ctx != ctx
      queues := s.queues.map fun (x : Queue) => if x.context.toNat == ctx then { Queue.reset with served := x.served } else x }

/-! ### Translation (R320-R330) -/

/-- Does a cached entry cover some of a range? -/
def Cached.meets (c : Cached) (ctx va len : Nat) : Bool := c.ctx == ctx && c.leaf.pageMeets c.va va len

/-- Parts of a home whose status meets a condition: wave, operation, part number, part. -/
def State.partsAt (s : State) (home : Nat) (ok : Wave → Part → Bool) : List (Wave × Op × Nat × Part) :=
  s.waves.flatMap fun w => w.ops.flatMap fun o => (o.parts.zipIdx.filter fun (q, _) => q.home == home && ok w q).map fun (q, k) => (w, o, k, q)

/-- The side-log entries that an open fault keeps in the log: those of a page that is not mapped, and what has to perform after one of them. -/
def State.stuckEntries (s : State) : List LogEntry :=
  s.sideLog.foldl (fun st e =>
    if (e.leaf.map fun l => st.any fun y => e.follows l y).getD true then st ++ [e] else st) []

/-- An operation as an open fault leaves it in the end: the parts of `st` wait, and the others have had their answer. -/
def Op.onlyStuck (o : Op) (st : List Nat) : Op :=
  { o with parts := o.parts.zipIdx.map fun (q, k) => if st.contains k then q else { q with status := .refused 0 } }

/-- The parts of an operation that an open fault keeps from performing: those held by one, and those translated that cannot perform while it is open.
`s` has in its side log only what faults keep there, and of `w`'s operations the parts of the earlier ones that faults keep back. -/
def State.stuckParts (s : State) (w : Wave) (o : Op) : List Nat :=
  let reads (k : Nat) : Bool := o.pieces.any fun x => x.part == k && x.job.reads
  let stuck (q : Part) (k : Nat) : Bool :=
    match q.status, q.leaf with
    | .held _, _ => true
    | .ready, some l =>
      let mine := o.pieces.filter fun x => x.part == k
      !s.orderMet w o k l || s.logsFirst w.ctx q.home ((o.partVa k).getD q.page) l ||
        (match o.kind with | .cxadd | .cxclr | .mdrx => !s.cellsMet w o mine | _ => false) ||
        (reads k && (((s.launch? w.launch).bind s.logHolds).map DeviceErr.waits).getD false)
    | _, _ => false
  let first := (o.parts.zipIdx.filter fun (q, k) => stuck q k).map Prod.snd
  let behind (k : Nat) : Bool := s.deterministic w && first.any fun j => decide ((o.partVa j).getD 0 < (o.partVa k).getD 0)
  (List.range o.parts.length).filter fun k => first.contains k || behind k

/-- Is a translated part kept from performing by an open fault, of another part, a side-log entry or its launch's trace log, however many parts and
entries stand between (R275, R281, R283, R374)? XINVAL does not wait for it (R328; DEDUCED, log 35). -/
def State.behindFault (s : State) (w : Wave) (op part : Nat) : Bool :=
  let s := { s with sideLog := s.stuckEntries }
  let (_, hit) := w.ops.foldl (fun (acc : Wave × Bool) o =>
    let st := s.stuckParts acc.1 o
    ({ acc.1 with ops := acc.1.ops ++ [o.onlyStuck st] }, acc.2 || (o.key == op && st.contains part))) ({ w with ops := [] }, false)
  hit

/-- Does a part stand translated under an entry of a range, or refused under one with its response still due (R328)? -/
def Part.underRange (q : Part) (va len : Nat) : Option Leaf :=
  match q.status with
  | .ready | .replied _ _ => q.leaf.filter fun l => l.pageMeets q.page va len
  | _ => none

/-- The parts of a home that stand so (R328). -/
def State.partsInRange (s : State) (home ctx va len : Nat) : List (Nat × Nat × Nat) :=
  (s.partsAt home fun w q => w.ctx == ctx && (q.underRange va len).isSome).map fun x => (x.1.key, x.2.1.key, x.2.2.1)

/-- XINVAL (R328): cached entries of the range are discarded and its leases recalled; the command goes on until the leases are gone and every part
and side-log entry then translated there has performed or received its response. -/
def execXinval (ctx home va len : Nat) (s : State) : Result :=
  s.command false fun s =>
    if !s.hasContext ctx || !isOwnHome home then s.commandRefused 0
    else
      let entries := s.sideLog.filter fun e =>
        e.ctx == ctx && e.home == home && (e.leaf.map fun l => l.pageMeets e.va va len).getD false
      let parts := s.partsInRange home ctx va len
      let s := s.onHome (unitOf home) fun h => { h with cache := h.cache.filter fun c => !c.meets ctx va len }
      (s.recallLeases home (Lease.inRange ctx va len)).commandRuns (.xinval home ctx va len parts (entries.map LogEntry.key))

/-- Must XINVAL wait for a part that stood translated when it began: it stands so still, or its response is due, and no fault keeps it back (R328)? -/
def State.partAwaited (s : State) (x : Nat × Nat × Nat) : Bool :=
  match s.wave? x.1 with
  | none => false
  | some w => match (w.op? x.2.1).bind fun o => (o.parts[x.2.2]?).map fun q => (o, q) with
    | none => false
    | some (o, q) => match q.status, q.leaf with
      | .ready, some _ => !s.behindFault w o.key x.2.2
      | .replied _ _, some _ => true
      | _, _ => false

/-- Has XINVAL completed (R328)? It does not wait for an entry that a fault keeps in the side log. -/
def State.xinvalOver (s : State) (home ctx va len : Nat) (parts : List (Nat × Nat × Nat)) (entries : List Nat) : Bool :=
  s.leasesGone home (Lease.inRange ctx va len) && !parts.any s.partAwaited &&
    !(s.sideLog.any fun e => entries.contains e.key && !s.stuckEntries.contains e)

/-- The tag of a side-log entry whose fault found no room in the ring. -/
def noTag : Nat := 65536

/-- Raises a side-log entry's fault: it joins one that is open, or waits for room in the ring (R323). -/
def State.raiseLogged (s : State) (e : LogEntry) (level : Nat) : State :=
  let op := if e.cell.isSome then 3 else 1
  let (s, tag) := s.raiseFault (unitOf e.home) e.ctx e.va level op e.core
  { s with sideLog := s.sideLog.map fun y => if y.key == e.key then { y with tag := tag.getD noTag } else y }

/-- A translation that a home makes for itself: the cached entry, or a walk whose leaf is cached (R321). -/
def State.translate (s : State) (ctx home va : Nat) : State × WalkResult :=
  match (s.home (unitOf home)).cached ctx va with
  | some l => (s, .leaf l)
  | none => s.freshWalk ctx home va

/-- An error response to a side-log entry, which is discarded (R325). -/
def State.refuseLogged (s : State) (e : LogEntry) (cause index : Nat) : State :=
  { s with sideLog := s.sideLog.filter fun y => y.key != e.key }.respond e.wave e.launch e.ctx e.core e.seq e.rank e.ctr e.mask cause index e.va true

/-- RESOLVE has mapped the page of an entry: it will replay under the leaf now in force (R325, R333), or is answered as a part would be (R319,
R331). -/
def State.mapLogged (s : State) (e : LogEntry) : State :=
  match s.translate e.ctx e.home e.va with
  | (s, .leaf l) => { s with sideLog := s.sideLog.map fun y => if y.key == e.key then { y with leaf := some l } else y }
  | (s, .malformed) => s.refuseLogged e trapACCESS 0
  | (s, .poisoned table i) => (s.reportPoison e.ctx e.home e.core table i).refuseLogged e trapXLATEUE i
  | (s, .invalid level) => s.raiseLogged e level

/-- Parts and entries that wait for room in the fault ring try again (R323). -/
def State.retryUnrecorded (s : State) (home : Nat) : State :=
  let s := (s.sideLog.filter fun e => e.home == home && e.tag == noTag).foldl State.mapLogged s
  (s.partsAt home fun _ q => q.status == .held none).foldl (fun s x => s.setPart x.1.key x.2.1.key x.2.2.1 .pending none) s

/-- RESOLVE has mapped the page of a held part, which is now admitted or answered. -/
def State.mapHeld (s : State) (x : Wave × Op × Nat × Part) : State :=
  let (s, r) := s.translate x.1.ctx x.2.2.2.home x.2.2.2.page
  s.answer x.1 x.2.1 x.2.2.1 x.2.2.2 r

/-- RESOLVE (R325): `map` admits the held parts under the entry now in force, after the side log's replays; refusing answers held parts and
side-log entries with XLATE, and discards the entries. -/
def execResolve (home tag : Nat) (map : Bool) (s : State) : Result :=
  s.command false fun s =>
    match (s.home (unitOf home)).faults.find? fun f => f.tag == tag with
    | none => s.commandRefused 0
    | some f =>
      if !isOwnHome home then s.commandRefused 0
      else
        let s := s.onHome (unitOf home) fun h => { h with faults := h.faults.filter (· != f) }
        let held := s.partsAt home fun w q => w.ctx == f.ctx && q.status == .held (some tag) && q.page == pageOf f.va
        let logged := s.sideLog.filter fun e => e.home == home && e.tag == tag && e.ctx == f.ctx && pageOf e.va == pageOf f.va && e.leaf.isNone
        let s := if map then held.foldl State.mapHeld (logged.foldl State.mapLogged s)
          else logged.foldl (fun s e => s.refuseLogged e trapXLATE 0)
            (held.foldl (fun s x => s.setPart x.1.key x.2.1.key x.2.2.1 (.replied trapXLATE 0) none) s)
        (s.retryUnrecorded home).commandDone

/-- May a page move to a frame: aligned, and in usable bytes of an open band of the same tier (R329)? Host memory has no bands. -/
def State.frameFits (s : State) (home : Nat) (l : Leaf) (frame : Nat) : Bool :=
  frame % pageBytes l.size == 0 && decide (frame < 2 ^ 52) &&
    (decide (home ≥ Config.dies) ||
      (s.bandTier home frame == s.bandTier home l.pa && (s.bandTier home l.pa).isSome &&
        s.bandTier home (frame + pageBytes l.size - 1) == s.bandTier home l.pa && frame / Config.bandSpan == (frame + pageBytes l.size - 1) / Config.bandSpan &&
        !s.bandClosed home frame))

/-- MIGRATE (R329, R330), of an address of the home (R315): sets migrating in the page's entries, recalls its leases, and copying begins. A walk
that meets a poisoned entry reports it (R331). -/
def execMigrate (ctx home va frame : Nat) (s : State) : Result :=
  s.command false fun s =>
    if !isOwnHome home || homeOf va != home || va / 2 ^ 48 % 256 != 0 then s.commandRefused 0
    else match s.lookup ctx home va with
    | .leaf l =>
      let size := pageBytes l.size
      let base := va / size * size
      let faulted := (s.home (unitOf home)).faults.any fun f => f.ctx == ctx && decide (base ≤ f.va ∧ f.va < base + size)
      if faulted || !s.frameFits home l frame then s.commandRefused 0
      else
        let g : Migration := ⟨ctx, base, l.pa, frame, size, l.entries, 0⟩
        let s := (s.rewriteEntries (unitOf home) g.entries none true).recallLeases home (Lease.ofMigration g)
        (s.onHome (unitOf home) fun h => { h with migrations := h.migrations ++ [g] }).commandRuns (.migrate home ctx base)
    | .poisoned table i => (s.reportPoison ctx home 0xFFFF table i).commandRefused 0
    | _ => s.commandRefused 0

/-- FRINGSET (R323, R397): base and size in bytes of a home's fault ring, whose next record is its first. -/
def execFringset (home base size : Nat) (s : State) : Result :=
  s.commandIf (isOwnHome home) fun s =>
    (s.onHome (unitOf home) fun h => { h with ringBase := base, ringSize := size, ringNext := 0 }).retryUnrecorded home

/-! ### Bands and the lehr (R338, R355) -/

/-- Does something target a frame of a band (R338): a cached translation, a lease, a part or side-log entry that waits at the home, a migration, or an
open fault, or a part held without one, whose page is mapped there now? -/
def State.bandTargeted (s : State) (home band : Nat) : Bool :=
  let h := s.home home
  let inBand (pa : Nat) : Bool := pa / Config.bandSpan == band
  let mapped (ctx va : Nat) : Bool := match s.lookup ctx home va with | .leaf l => inBand (l.place va) | _ => false
  h.cache.any (fun c => inBand c.leaf.pa) || h.leases.any (fun x => inBand x.leaf.pa) || h.migrations.any (fun g => inBand g.old || inBand g.new) ||
    h.faults.any (fun f => mapped f.ctx f.va) || s.sideLog.any (fun e => e.home == home && ((e.leaf.map fun l => inBand l.pa).getD (mapped e.ctx e.va))) ||
    !(s.partsAt home fun w q => match q.status with
      | .ready => (q.leaf.map fun l => inBand l.pa).getD false
      | .held _ => mapped w.ctx q.page
      | _ => false).isEmpty

/-- RECLASS (R334, R338): the band closes; it reopens with its new tier at BAND_REOPEN. -/
def execReclass (home band tier : Nat) (s : State) : Result :=
  s.command false fun s =>
    if decide (home ≥ Config.dies) || band == 0 || decide (band ≥ Config.bandsPerDie) || decide (tier > 2) || s.bandTargeted home band then
      s.commandRefused 0
    else (s.onHome home fun h => { h with closed := band :: h.closed }).commandRuns (.reclass home band tier)

/-- LEHRSET (R348, R355): names the lehr's bands at a home, which are sealed; refused while shadows exist there. -/
def execLehrset (home : Nat) (bands : List Nat) (s : State) : Result :=
  let ok := decide (home < Config.dies) && !(s.shadows.any fun x => x.die == home) &&
    bands.all fun b => decide (b < Config.bandsPerDie) && nth (s.home home).tiers b 0 == 2
  s.commandIf ok fun s => s.onHome home fun h => { h with lehr := bands.eraseDups }

/-! ### Assay, trace log, logs, links, power -/

/-- ASSAYSET (R312, R353): the period in seconds, and a cluster to return to service. -/
def execAssayset (period : Nat) (returned : Option Nat) (s : State) : Result :=
  let ok := decide (10 ≤ period ∧ period ≤ 3600) && ((returned.map fun c => decide (c < s.clusters.length)).getD true)
  s.commandIf ok fun s =>
    let s := { s with assayPeriod := period }
    match returned with
    | some c => { s with clusters := modifyAt s.clusters c fun x => { x with inService := true } }
    | none => s

/-- Does every page of a range of a context lie in a sealed band of a die with R and W set (R315, R372, R387)? -/
def State.sealedRW (s : State) (ctx va n : Nat) : Bool :=
  (granules 65536 va n).all fun x => match s.lookup ctx (homeOf va) x.1 with
    | .leaf l => decide (homeOf x.1 < Config.dies) && x.1 / 2 ^ 48 % 256 == 0 && l.tier == 2 && l.r && l.w && s.checkLeaf (homeOf va) l x.1 .write none == none
    | _ => false

/-- A command is refused for a range that it may not use; a walk there that met a poisoned entry reports it (R331). -/
def State.rangeRefused (s : State) (ctx va n : Nat) : State :=
  let met := (granules 65536 va n).findSome? fun x => match s.lookup ctx (homeOf va) x.1 with
    | .poisoned table i => some (table, i)
    | _ => none
  ((met.map fun t => s.reportPoison ctx (homeOf va) 0xFFFF t.1 t.2).getD s).commandRefused 0

/-- TLOGSET (R372): the setting of the queue's next deterministic launch; mode 0 sets none. -/
def execTlogset (q base size mode : Nat) (s : State) : Result :=
  let ctx := (s.queue q).context.toNat
  s.command false fun s =>
    if decide (q ≥ Config.queues) || decide (mode > 2) then s.commandRefused 0
    else if mode = 0 then (s.onQueue q fun x => { x with tlog := none }).commandDone
    else if base % 64 != 0 || decide (size < 64) || (size - 64) % 96 != 0 then s.commandRefused 0
    else if !s.sealedRW ctx base size then s.rangeRefused ctx base size
    else (s.onQueue q fun x => { x with tlog := some (base, size, mode) }).commandDone

/-- A log as LOGREAD and ILOGREAD return it: its entries from the first, then zeros. -/
def logBytes (l : List (List Byte)) (n : Nat) : List Byte := (l.flatten ++ List.replicate n 0).take n

/-- LOGREAD (R332): returns and clears the error log. -/
def execLogread (buf : Nat) (s : State) : Result :=
  s.commandIf true fun s => { s.toHost buf (logBytes s.errorLog 2048) with errorLog := [] }

/-- ILOGREAD (R354): returns and clears the integrity log. -/
def execIlogread (buf : Nat) (s : State) : Result :=
  s.commandIf true fun s => { s.toHost buf (logBytes s.integrityLog 8192) with integrityLog := [] }

/-- PEERSET (R399): assigns a chip to links; parts in flight to a chip that is left without a link receive ACCESS. -/
def execPeerset (chip : Nat) (linkmask : BitVec 12) (s : State) : Result :=
  s.commandIf (decide (chip < 28)) fun s =>
    let s := { s with linkMasks := setAt s.linkMasks chip linkmask }
    if s.peerUp chip then s
    else (s.peerParts chip).foldl (fun s x => s.setPart x.1 x.2.1 x.2.2.1 (.replied trapACCESS 0) none) s

/-- PWRCAP (R404). -/
def execPwrcap (watts : Nat) (s : State) : Result :=
  s.commandIf (decide (1000 ≤ watts ∧ watts ≤ 2000)) fun s => { s with powerCap := watts }

/-- ARITHMETIC_CLOCK_STEP (R404): one step of 62.5 MHz, between 750 MHz and 1.5 GHz; nothing else changes. -/
def execArithmeticClockStep (up : Bool) (s : State) : Result :=
  if up then .next { s with clockStep := min 12 (s.clockStep + 1) } else .next { s with clockStep := s.clockStep - 1 }

/-! ### Attestation (R402) -/

/-- The signature field: 512 bytes. -/
def signature (n : Nat) (bs : List Byte) : List Byte := (Config.identitySignature n bs ++ List.replicate 512 0).take 512

/-- Measurements of the objects loaded in a context, in ascending handle. -/
def State.measures (s : State) (ctx : Nat) : List (List Byte) :=
  ((List.range s.nextHandle).filterMap (s.object? ctx)).map Object.measure

/-- Writes the identity key's certificate. -/
def State.attestCert (s : State) (buf size : Nat) : State :=
  let cert := Config.identityCertificate
  if size < cert.length + 4 then s.commandRefused ((cert.length + 63) / 64)
  else (s.toHost buf (leBytes 4 cert.length ++ cert)).commandDone

/-- ATTEST_CERT (R402). -/
def execAttestCert (buf size : Nat) (s : State) : Result := s.command true fun s => s.attestCert buf size

/-- ATTEST (R402): the signed report of a context, into host memory; context 0xFFFF asks for the certificate. -/
def execAttest (ctx nonceAddr buf size : Nat) (s : State) : Result :=
  s.command true fun s =>
    if ctx = 0xFFFF then s.attestCert buf size
    else
      let ms := s.measures ctx
      if size < 128 + 64 * ms.length + 512 then s.commandRefused ms.length
      else
        let body := s.hostMem.readBytes nonceAddr 32 ++ leBytes 4 (nth s.faccept 0 0).toNat ++ leBytes 4 s.fwsvn.toNat ++ leBytes 4 ms.length ++
          leBytes 2 ctx ++ leBytes 18 0 ++ s.fwdigest ++ ms.flatten
        let (n, s) := s.draw
        (s.toHost buf (body ++ signature n body)).commandDone

/-! ### LOAD (R107, R310, R311, R397) -/

/-- LOAD: reads the object in host memory, checks, binds and places it, and writes its handle and report. `handle` zero asks for a new one. -/
def execLoad (ctx q : Nat) (objAddr handle : Word64) (buf : Nat) (place : List Placement) (s : State) : Result :=
  s.command false fun s =>
    let replace := handle == 0 || (s.object? ctx handle.toNat).isSome
    if !s.hasContext ctx || decide (q ≥ Config.queues) || (s.queue q).context.toNat != ctx || !replace then s.commandRefused 0
    else
      let size := leNat (s.hostMem.readBytes (objAddr.toNat + 0x0C) 4)
      let bs := s.hostMem.readBytes objAddr.toNat (max 256 size)
      let ((h, report), s) := s.loadObject bs place ctx handle.toNat
      (s.toHost buf (leBytes 8 h ++ leBytes 8 0 ++ leBytes 16 report)).commandDone

end Sys2Proof.Machine
end

