-- ==== Sys2Proof/Machine/Raw.lean ====
section
/-! DEFINITION. Raw storage of the tiers (R334-R337): where a line and its check bytes lie, the check line of a granule, and the CRC-24 that
finds errors in a checked line. Memory elsewhere is addressed by usable bytes, and the errors in its code words stand in `softErrors`. -/

namespace Sys2Proof.Machine

/-! ### Placement (R335) -/

/-- Data lines of a granule of a tier; a bare line stands alone. -/
def granuleLines (tier : Nat) : Nat := if tier = 2 then 8 else if tier = 1 then 17 else 1

/-- Raw lines of a granule: its data lines, and its check line where it has one. -/
def rawLines (tier : Nat) : Nat := if tier = 0 then 1 else granuleLines tier + 1

/-- The raw line of a data line L of a band, or of a marver allotment at its kernel's tier (R337). -/
def rawData (tier L : Nat) : Nat := rawLines tier * (L / granuleLines tier) + L % granuleLines tier

/-- The raw line of the check line of a data line: a bare line has none. -/
def rawCheck (tier L : Nat) : Option Nat := if tier = 0 then none else some (rawLines tier * (L / granuleLines tier) + granuleLines tier)

/-! ### Check bytes (R336) -/

/-- One bit of the CRC-24. -/
def crcStep (c : BitVec 24) : BitVec 24 := if c.msb then (c <<< 1) ^^^ 0x864CFB#24 else c <<< 1

/-- One byte of it. -/
def crcByte (c : BitVec 24) (b : Byte) : BitVec 24 := (List.range 8).foldl (fun c _ => crcStep c) (c ^^^ (b ++ 0#16))

/-- The CRC-24 of RFC 4880, in ascending address. -/
def crc24 (bs : List Byte) : BitVec 24 := bs.foldl crcByte 0xB704CE#24

/-- The check line of a granule whose data lines, and marks, are given. -/
def checkLine (tier : Nat) (data : Nat → List Byte) (marked : Nat → Bool) : List Byte :=
  if tier = 2 then (List.range 8).flatMap fun j => leBytes 8 (if marked j then Config.sealedPoison else Config.sealedCheck (data j)).toNat
  else
    (List.range 17).flatMap (fun j => leBytes 3 (crc24 (data j)).toNat) ++
      leBytes 3 (((List.range 17).filter marked).foldl (fun n j => n + 2 ^ j) 0) ++ List.replicate 10 0

/-- Is the line of a place marked (R344)? -/
def State.marked (s : State) (m : MainAt) : Bool := ((s.lineError m).map SoftErr.poison).getD false

/-- A raw line of storage of a tier, as it is stored where no bit is wrong, from its data lines and their marks. -/
def rawOf (tier : Nat) (data : Nat → List Byte) (marked : Nat → Bool) (r : Nat) : List Byte :=
  let first := granuleLines tier * (r / rawLines tier)
  let j := r % rawLines tier
  if tier ≠ 0 ∧ j = granuleLines tier then checkLine tier (fun j => data (first + j)) fun j => marked (first + j) else data (first + j)

/-- A raw line of a band (R335, R336). -/
def State.rawLine (s : State) (die band r : Nat) : List Byte :=
  let place (k : Nat) : MainAt := ⟨die, band * Config.bandSpan + 64 * k⟩
  rawOf (nth (s.home die).tiers band 2) (fun k => s.readPhysBytes die (place k).pa 64) (fun k => s.marked (place k)) r

/-- A raw line of a launch's marver allotment on a die, at its kernel's tier (R337). -/
def State.rawMarver (s : State) (l : Launch) (die r : Nat) : List Byte :=
  let place (k : Nat) : LocalAt := .marver l.key die (64 * k)
  rawOf l.obj.tier (fun k => s.readLocalBytes (place k) 64) (fun k => ((localError s (place k)).map SoftErr.poison).getD false) r

/-! ### Wrong bits (R334, R336) -/

/-- Bytes with one bit flipped. -/
def flipAt (bs : List Byte) (k : Nat) : List Byte := modifyAt bs (k / 8) fun b => b ^^^ BitVec.ofNat 8 (2 ^ (k % 8))

/-- The bits of a code word that go wrong, at free places: n of `width`. -/
def State.drawBits (s : State) (n width : Nat) : List Nat × State :=
  ((List.range n).map fun k => (Config.freeWord (s.fresh + k)).toNat % width, { s with fresh := s.fresh + n })

/-- A line and the CRC-24 stored for it, after bits of the two have gone wrong: those from 512 on are the CRC's. -/
def spoilLine (bs : List Byte) (flips : List Nat) : List Byte × BitVec 24 :=
  flips.foldl (fun (bs, c) k => if k < 512 then (flipAt bs k, c) else (bs, c ^^^ BitVec.ofNat 24 (2 ^ (k - 512)))) (bs, crc24 bs)

end Sys2Proof.Machine
end

