-- ==== Sys2Proof/Machine/Errors.lean ====
section
/-! DEFINITION. Bit errors as they arise (R334, R336, R337, R345) and the scrubber (R352). In a sealed line `bits` counts wrong 16-bit symbols of
the code word, elsewhere wrong bits (R334, R337). -/

namespace Sys2Proof.Machine

/-- Do two places lie in one code word (R336, R337)? -/
def sameWord : ErrSite → ErrSite → Bool
  | .crewStore a x, .crewStore b y => a == b && x / 8 == y / 8
  | .marver a d x, .marver b e y => a == b && d == e && x / 64 == y / 64
  | a, b => a == b

/-- The side-log entry of a key. -/
def State.logAt (s : State) (core entry : Nat) : Option LogEntry := s.sideLog.find? fun e => e.core == core && e.key == entry

/-- The owner of a place (R337): a context, or none where the place is free. A crew store stays its context's while an access bound to it has still to
perform (R187). Band lines belong to the system, the cullet's in band 0 too (R334). -/
def State.ownerOf (s : State) (site : ErrSite) : Option Nat :=
  let ofWave (k : Nat) : Option Nat := (s.wave? k).bind fun w => if w.status == .retired then none else some w.ctx
  match site with
  | .vreg k _ _ | .sreg k _ _ | .tile k _ _ _ | .splitTable k | .pipeline k => ofWave k
  | .crewStore k _ => (s.crew? k).bind fun c =>
      if (s.waves.any fun w => w.crew == k && w.status != .retired) || s.boundTo k then (s.launch? c.launch).map Launch.ctx else none
  | .marver l d _ => (s.launch? l).bind fun x => if x.marver.any fun y => y.1 == d then some x.ctx else none
  | .sideLog core k => (s.logAt core k).map LogEntry.ctx
  | .hbm _ _ | .cullet _ => none

/-- The tier a place is protected at: 2 for what corrects a single error, 1 for what only detects, 0 for what does neither, none where
nothing is. -/
def State.siteTier (s : State) (site : ErrSite) : Option Nat :=
  match site with
  | .hbm d line => if d < Config.dies then s.bandTier d (64 * line) else none
  | .marver l d off => (s.launch? l).bind fun x => if decide (off < x.obj.marver) && x.marver.any fun y => y.1 == d then some x.obj.tier else none
  | .vreg k _ _ | .sreg k _ _ | .tile k _ _ _ | .splitTable k | .pipeline k => (s.wave? k).map fun _ => 2
  | .cullet k => ((s.wave? k).bind Wave.checkpoint).map fun _ => 2
  | .crewStore k off => ((s.crew? k).bind fun c => s.launch? c.launch).bind fun l => if off < l.obj.crewstore then some 2 else none
  | .sideLog core k => (s.logAt core k).map fun _ => 2

/-! ### The error of a place -/

/-- The error of the code word at a place. -/
def State.errorAt (s : State) (site : ErrSite) : Option SoftErr :=
  match site with
  | .cullet k => ((s.wave? k).bind Wave.checkpoint).bind fun c => if c.wrong = 0 then none else some ⟨site, c.wrong, c.poisoned⟩
  | _ => s.softErrors.find? fun e => sameWord e.site site

/-- The code word at a place is sound, or has this many wrong bits and perhaps its poison. -/
def State.setError (s : State) (site : ErrSite) (bits : Nat) (poison : Bool) : State :=
  match site with
  | .cullet k => s.onWave k fun w => { w with checkpoint := w.checkpoint.map fun c => { c with wrong := bits, poisoned := poison } }
  | _ =>
    let rest := s.softErrors.filter fun e => !sameWord e.site site
    let old := ((s.errorAt site).map SoftErr.site).getD site
    { s with softErrors := if bits = 0 then rest else rest ++ [⟨old, bits, poison⟩] }

/-- The 64 bytes of a line of main memory or of the marver. -/
def State.lineBytes (s : State) (site : ErrSite) : List Byte :=
  match site with
  | .hbm d line => s.readPhysBytes d (64 * line) 64
  | .marver l d off => s.readLocalBytes (.marver l d (off / 64 * 64)) 64
  | _ => []

/-- Stores them. -/
def State.putLine (s : State) (site : ErrSite) (bs : List Byte) : State :=
  match site with
  | .hbm d line => s.writePhysBytes d (64 * line) bs
  | .marver l d off => s.writeLocalBytes (.marver l d (off / 64 * 64)) bs
  | _ => s

/-- SOFT_ERROR (R334, R336, R337, R345): wrong bits arise in a word, at free places. Bare data change silently, and so do a checked line's where its
CRC-24 does not show it; other data stay as their code word has them until the error is found. -/
def execSoftError (site : ErrSite) (bits : Nat) (s : State) : Result :=
  match s.siteTier site with
  | none => .next s
  | some 0 =>
    let (flips, s) := s.drawBits bits 512
    .next (s.putLine site (flips.foldl flipAt (s.lineBytes site)))
  | some t =>
    let old := s.errorAt site
    let had := (old.map SoftErr.bits).getD 0
    let poison := (old.map SoftErr.poison).getD false
    if t = 1 && old.isNone then
      let (flips, s) := s.drawBits bits 536
      let bs := s.lineBytes site
      match spoilLine bs flips with
      | (new, crc) => .next (if crc24 new = crc then s.putLine site new else s.setError site (max 2 bits) false)
    else .next (if bits = 0 then s else s.setError site (had + bits) poison)

/-! ### The scrubber (R345, R352) -/

/-- What a log entry about a place names (R354): the address is that of the line or row. -/
def State.siteFields (s : State) (site : ErrSite) : LogFields :=
  let ofWave (k lane addr : Nat) : LogFields := match s.wave? k with
    | some w => { s.fieldsOf w with addr := addr, lane := lane }
    | none => { LogFields.none with addr := addr, lane := lane }
  let f : LogFields := match site with
    | .vreg k r l => ofWave k l r
    | .sreg k _ _ | .tile k _ _ _ => ofWave k 0xFFFF (errCode site)
    | .splitTable k | .pipeline k => ofWave k 0xFFFF 0
    | .cullet k => { LogFields.none with addr := culletLine k }
    | .crewStore k off => { LogFields.none with
        addr := off / 64 * 64, core := ((s.crew? k).map Crew.core).getD 0xFF,
        launchid := (((s.crew? k).bind fun c => s.launch? c.launch).map fun l => l.desc.launchid).getD 0 }
    | .marver l _ off => { LogFields.none with addr := off / 64 * 64, launchid := ((s.launch? l).map fun x => x.desc.launchid).getD 0 }
    | .sideLog core k => { LogFields.none with
        core := core, launchid := (((s.logAt core k).bind fun e => s.launch? e.launch).map fun l => l.desc.launchid).getD 0 }
    | .hbm _ line => { LogFields.none with addr := 64 * line }
  { f with array := arrayOf site, context := (s.ownerOf site).getD 0xFFFF }

/-- Writes zero into a place (R345). -/
def State.zeroSite (s : State) (site : ErrSite) : State :=
  let regs (k : Nat) (f : Arch → Arch) : State := s.onWave k fun w => { w with a := f w.a }
  let zeroWord (t : Tile) (n : Nat) : Tile := { t with words := setAt t.words n 0 }
  match site with
  | .vreg k r l => regs k fun a => { a with vregs := modifyAt a.vregs r fun v => { v with lanes := setAt v.lanes l 0 } }
  | .sreg k r shadow =>
    if shadow then regs k fun a => { a with sshadow := setAt a.sshadow r 0 } else regs k fun a => { a with sregs := setAt a.sregs r 0 }
  | .tile k t n twin =>
    if twin then regs k fun a => { a with twins := modifyAt a.twins t fun x => zeroWord x n }
    else regs k fun a => { a with tiles := modifyAt a.tiles t fun x => zeroWord x n }
  | .crewStore k off => s.writeLocalBytes (.crew k (off / 8 * 8)) (List.replicate 8 0)
  | .marver _ _ _ => s.putLine site (List.replicate 64 0)
  | _ => s

/-- Clears a place with no owner: zero with valid check bits (R345). -/
def State.clearUnowned (s : State) (site : ErrSite) : State :=
  ((s.zeroSite site).setError site 0 false).logIntegrity { s.siteFields site with event := 0x41 }

/-- SCRUB_PASS (R345, R352): the scrubber reads a word. A single error is corrected, and charged to its owner; an uncorrectable one is poisoned or
marked, and reported; one in a place without owner is cleared. Band lines belong to the system, which has no budget. It reads no pipeline state. -/
def execScrubPass (site : ErrSite) (s : State) : Result :=
  match s.errorAt site, site with
  | none, _ | _, .pipeline _ => .next s
  | some e, _ =>
    let band := match site with | .hbm _ _ | .cullet _ => true | _ => false
    if !band && (s.ownerOf site).isNone then .next (s.clearUnowned site)
    else if e.poison then .next s
    else if e.bits ≤ 1 then
      let s := s.setError site 0 false
      match s.ownerOf site with
      | some c => .next (s.corrected c none)
      | none => .next s
    else .next ((s.setError site e.bits true).logIntegrity { s.siteFields site with event := 0x40 })

end Sys2Proof.Machine
end

