-- ==== Sys2Proof/Machine/Images.lean ====
section
/-! DEFINITION. Context images: CTXSAVE and CTXRESTORE (R387-R392). Where R389 names what a record holds and gives no layout (the control
state, the lanes), the layout is the model's (log 21). -/

namespace Sys2Proof.Machine

/-! ### What a wave record holds (R389) -/

/-- Which live-in registers are saved: kind (0 vector, 1 scalar, 2 predicate, 3 tile) and number, ascending. -/
def savedRegs (o : Object) (r : RegionRec) : List (Nat × Nat) :=
  ((List.range o.vregs).filter fun i => r.vlive.getLsbD i).map (fun i => (0, i)) ++
    ((List.range 256).filter fun i => decide (0 < i) && r.slive.getLsbD i).map (fun i => (1, i)) ++
    ((List.range 16).filter fun i => decide (0 < i) && r.plive.getLsbD i).map (fun i => (2, i)) ++
    ((List.range o.acc).filter fun i => r.alive.getLsbD i).map fun i => (3, i)

/-- The region-table entry of a code offset (R93), or every register where it is no region head. -/
def Object.headRegion (o : Object) (off : Nat) : RegionRec := (o.regions.find? fun r => r.at_ == off).getD (o.defaultRegion 0 off)

/-- Bytes of a lane mask. -/
def maskBytes (W : Nat) : Nat := (W + 7) / 8

/-- The head of a register entry (R389). -/
def entryHead (kind num tag : Nat) (shadow : Bool) : List Byte :=
  leBytes 8 (num + kind * 2 ^ 8 + tag * 2 ^ 10 + if shadow then 2 ^ 12 else 0)

/-- A vector register's entry: general wherever primary and shadow differ. -/
def Wave.saveV (w : Wave) (n : Nat) : List Byte :=
  let v := w.vreg n
  let x (i : Nat) : Word32 := nth v.lanes i 0
  let same := !w.paired || (List.range w.V).all fun k => x (2 * k) == x (2 * k + 1)
  let words : List Byte := v.lanes.flatMap fun y => leBytes 4 y.toNat
  match v.tag, same with
  | .uniform, true => entryHead 0 n 0 false ++ leBytes 4 (x (w.a.live.lowest w.W % w.W)).toNat
  | .affine b st, true => entryHead 0 n 1 false ++ leBytes 4 b.toNat ++ leBytes 4 st.toNat
  | _, _ => entryHead 0 n 2 false ++ words

/-- A tile's words. -/
def Tile.bytes (t : Tile) : List Byte := t.words.flatMap fun y => leBytes 4 y.toNat

/-- One register's entries: primary, and in paired mode the shadow copy of a scalar or tile. -/
def Wave.saveReg (w : Wave) (r : Nat × Nat) : List Byte :=
  let n := r.2
  match r.1 with
  | 0 => w.saveV n
  | 1 => entryHead 1 n 0 false ++ leBytes 8 (w.sAt n).toNat ++ (if w.paired then entryHead 1 n 0 true ++ leBytes 8 (w.shAt n).toNat else [])
  | 2 => entryHead 2 n 0 false ++ leBytes (4 * ((w.W + 31) / 32)) (w.pred n).toNat
  | _ =>
    let t := nth w.a.tiles n Tile.zero
    let u := nth w.a.twins n Tile.zero
    entryHead 3 n (if t.int then 1 else 0) false ++ t.bytes ++ (if w.paired then entryHead 3 n (if u.int then 1 else 0) true ++ u.bytes else [])

/-- A split of the control state: mask, program counter as a code offset, state, and the chain it is bound to. -/
def Split.save (p : Split) (W codeVa : Nat) : List Byte :=
  let st : Nat × Nat × Nat := match p.status with
    | .atJoin g => (1, g, 0)
    | .atBar id pd => (2, id, pd)
    | .asleep t tok => (3, t, if tok then 1 else 0)
    | _ => (0, 0, 0)
  leBytes (maskBytes W) p.lanes.toNat ++ leBytes 8 (p.pc - codeVa) ++ leBytes 1 st.1 ++ leBytes 8 st.2.1 ++ leBytes 8 st.2.2 ++
    leBytes 2 p.chain.length ++ p.chain.flatMap (leBytes 8)

/-- A control-stack entry. -/
def Entry.save (e : Entry) (W codeVa : Nat) : List Byte :=
  match e with
  | .region k join pend arr =>
    leBytes 1 0 ++ leBytes 8 k ++ leBytes 8 (join - codeVa) ++ leBytes (maskBytes W) pend.toNat ++ leBytes (maskBytes W) arr.toNat
  | .frame k ret => leBytes 1 1 ++ leBytes 8 k ++ leBytes 8 (ret - codeVa) ++ leBytes (maskBytes W) 0 ++ leBytes (maskBytes W) 0

/-- A lane: live, vacant and drain bits, coordinates, fresh flag and c. -/
def Wave.saveLane (w : Wave) (i : Nat) : List Byte :=
  let l := w.lane i
  let bit (b : Bool) (k : Nat) : Nat := if b then 2 ^ k else 0
  leBytes 4 (bit (w.a.live.has i) 0 + bit (!w.a.live.has i) 1 + bit w.a.drain 2) ++ leBytes 4 l.x.toNat ++ leBytes 4 l.y.toNat ++
    leBytes 4 l.z.toNat ++ leBytes 2 (bit (w.a.fresh.has i) 0) ++ leBytes 2 l.c.toNat

/-- The code offset of the head a wave resumes from. -/
def Wave.headOffset (w : Wave) : Nat := ((w.checkpoint.map Checkpoint.headPc).getD (w.kern.codeVa + w.kern.entry)) - w.kern.codeVa

/-- Does a wave's stopped state hold registers its head's region does not list: was the checkpoint taken elsewhere than at the `rgn`? -/
def Wave.savesAll (w : Wave) : Bool := w.a.liveIn w.W (w.kern.headRegion w.headOffset) != w.a

/-- The region whose live-in set is saved. -/
def Wave.savedRegion (w : Wave) : RegionRec := if w.savesAll then w.kern.defaultRegion 0 0 else w.kern.headRegion w.headOffset

/-- The splits by ascending lowest lane, the one that takes the next turn first (R364). -/
def Wave.splitsInTurn (w : Wave) : List Split :=
  let at_ (i : Nat) : Option Split := w.a.splits.find? fun p => p.lanes.lowest w.W == i
  ((List.range w.W).filter fun i => decide (w.a.turn < i)).filterMap at_ ++ ((List.range w.W).filter fun i => decide (i ≤ w.a.turn)).filterMap at_

/-- The code of what a wave without live lanes waits for (log 21). -/
def WaveStatus.code : WaveStatus → Nat
  | .running => 0
  | .awaitingCreationDeal => 1
  | .awaitingDeal => 2
  | .awaitingDrain => 3
  | .retiring => 4
  | .retired => 5

/-- What a code names. -/
def WaveStatus.ofCode (n : Nat) : WaveStatus :=
  nth [.running, .awaitingCreationDeal, .awaitingDeal, .awaitingDrain, .retiring, .retired] n .retired

/-- A wave record (R389). The offset of a head that is no `rgn` (R248, R367) stands with 1 added, and the control state begins with the numbers of
splits and entries, the end count of the last visit, which R367 adds to it, and what a wave without live lanes waits for (R22; log 21). -/
def Wave.save (w : Wave) : List Byte :=
  let a := w.a
  leBytes 8 w.ordinal ++ leBytes 8 a.retired ++ leBytes 8 (w.headOffset + if w.savesAll then 1 else 0) ++
    leBytes 8 a.mr.toNat ++ leBytes 8 a.mx.toNat ++ leBytes 8 a.ns.toNat ++ leBytes 8 a.sp.toNat ++ leBytes 8 a.mxbase.toNat ++
    leBytes 8 a.mxplane.toNat ++ leBytes 8 a.seedlo.toNat ++ leBytes 8 a.seedhi.toNat ++
    (List.range 16).flatMap (fun k => leBytes 8 (nth w.hregs k 0).toNat) ++
    (if w.paired then (List.range 16).flatMap fun k => leBytes 8 (nth w.hshadow k 0).toNat else []) ++
    leBytes 4 a.splits.length ++ leBytes 4 a.entries.length ++ leBytes 8 w.visitEnd ++ leBytes 8 w.status.code ++
    w.splitsInTurn.flatMap (fun p => p.save w.W w.kern.codeVa) ++ a.entries.flatMap (fun e => e.save w.W w.kern.codeVa) ++
    (List.range w.W).flatMap w.saveLane ++ (savedRegs w.kern w.savedRegion).flatMap w.saveReg ++
    (List.range w.W).flatMap fun i => (nth a.spill i []).readBytes 0 w.kern.stack

/-! ### Crew and launch records (R388, R389) -/

/-- Zeros up to a multiple of 64. -/
def pad64 (bs : List Byte) : List Byte := bs ++ List.replicate ((64 - bs.length % 64) % 64) 0

/-- A crew record (R389). -/
def State.saveCrew (s : State) (o : Object) (c : Crew) : List Byte :=
  let waves := s.waves.filter fun w => w.crew == c.key
  let byOrdinal := (List.range o.crewwaves).filterMap fun k => waves.find? fun w => w.ordinal == k
  pad64 (leBytes 8 c.ordinal ++ leBytes 8 (c.core / 40) ++ c.store.readBytes 0 o.crewstore ++ byOrdinal.flatMap Wave.save)

/-- The crews of a launch in ascending ordinal. -/
def State.crewsInOrder (s : State) (l : Launch) : List Crew :=
  (List.range l.crewsMade).filterMap fun k => s.crews.find? fun c => c.launch == l.key && c.ordinal == k

/-- A completion bitmap as bytes (R299, R388). -/
def Launch.bitmapBytes (l : Launch) : List Byte :=
  if l.desc.cblog = 0xFF then []
  else (List.range ((l.blocks + 7) / 8)).map fun k =>
    BitVec.ofNat 8 ((List.range 8).foldl (fun n b => if l.bits.contains (8 * k + b) then n + 2 ^ b else n) 0)

/-- A launch record with its crew records (R388). -/
def State.saveLaunch (s : State) (l : Launch) : List Byte :=
  let crews := s.crewsInOrder l
  let token := if l.desc.deterministic then l.tokenCrew * 2 ^ 16 + l.tokenWave % 16 * 2 ^ 12 + (if l.visiting then 1 else 0) else 0
  pad64 (l.desc.toBytes ++ l.obj.measure ++ leBytes 8 l.obj.codeVa ++ leBytes 8 l.dealer ++ l.record false ++ leBytes 2 l.queue ++
    leBytes 1 (if l.state = .started then 1 else 0) ++ leBytes 1 l.depth ++ leBytes 2 l.predcount ++ leBytes 2 crews.length ++ leBytes 8 token ++
    l.obj.record ++ l.params ++ (List.range 4).flatMap (fun d => (l.marverOn d).readBytes 0 l.obj.marver) ++ l.bitmapBytes) ++
    crews.flatMap (s.saveCrew l.obj)

/-- The launches of a context that an image holds, in the image's order (R388). -/
def State.savedLaunches (s : State) (ctx : Nat) : List Launch :=
  (List.range Config.queues).flatMap fun q => s.launches.filter fun l => l.ctx == ctx && l.queue == q && l.open_

/-- A context image (R387). -/
def State.image (s : State) (ctx : Nat) : List Byte :=
  let ls := s.savedLaunches ctx
  let body := ls.flatMap s.saveLaunch
  [0x44#8, 0x58#8, 0x53#8, 0x00#8] ++ leBytes 2 1 ++ leBytes 2 ls.length ++ leBytes 8 (64 + body.length) ++
    (List.range 4).flatMap (fun k => leBytes 4 (nth s.faccept k 0).toNat) ++ leBytes 4 Config.tempergen.toNat ++ leBytes 4 0 ++
    leBytes 8 (s.ebOf ctx).toNat ++ leBytes 16 0 ++ body

/-! ### CTXSAVE (R387, R390) -/

/-- Has a context an open translation fault, or a launch whose trace log records or replays? -/
def State.saveRefused (s : State) (ctx : Nat) : Bool :=
  s.homes.any (fun h => h.faults.any fun f => f.ctx == ctx) ||
    s.launches.any fun l => l.ctx == ctx && l.open_ && (l.log.map fun t => t.state == 1 || t.state == 4).getD false

/-- Does a crew belong to a launch of a context? -/
def State.crewOfContext (s : State) (ctx : Nat) (c : Crew) : Bool := ((s.launch? c.launch).map fun l => l.ctx == ctx).getD false

/-- CTXSAVE: the context's queues stop and are evicted, and its crews are asked to stop; the image is written once it is at rest. -/
def execCtxsave (ctx : Nat) (addr : Word64) (size buf : Nat) (s : State) : Result :=
  s.command false fun s =>
    if !s.hasContext ctx || s.saveRefused ctx || addr.toNat % 64 != 0 then s.commandRefused 0
    else if !s.sealedRW ctx addr.toNat size then s.rangeRefused ctx addr.toNat size
    else
      let mine := (s.queues.zipIdx.filter fun x => x.1.context.toNat == ctx).map Prod.snd
      let s := mine.foldl (fun s q => (s.stopQueue q).onQueue q fun x => { x with evicted := true }) s
      (s.stopCrews (s.crewOfContext ctx)).commandRuns (.ctxsave ctx addr size buf)

/-- Has the replay of a launch been decided, and not yet begun (R348)? -/
def Launch.replayDue (l : Launch) : Bool := l.replaying && !l.killed && l.state == .started

/-- Is a context at rest (R390, steps 2 and 3)? A replay that has been decided begins first, so that no image holds a wave that the replay stopped
short of its region head (R245, R348). -/
def State.atRest (s : State) (ctx : Nat) : Bool :=
  !(s.crews.any fun c => c.placed && s.crewOfContext ctx c) && !(s.sideLog.any fun e => e.ctx == ctx) &&
    !(s.launches.any fun l => l.ctx == ctx && l.replayDue)

/-- Steps 4 and 5 of R390: replayable launches are demoted and the image is written; an image that does not fit leaves only the size needed
(R387). -/
def State.finishSave (s : State) (ctx : Nat) (addr : Word64) (size buf : Nat) : State :=
  let s := ((s.savedLaunches ctx).map Launch.key).foldl State.demote s
  let img := s.image ctx
  let s := s.toHost buf (leBytes 8 img.length)
  let refused := { s with running := none }.commandRefused 0
  if img.length > size then refused
  else match s.deviceWrite ctx addr.toNat img with
    | .ok s => s.finishCommand
    | .error .later => s
    | .error e => { s.deviceFailed ctx 1 e with running := none }.commandRefused 0

/-- Completes the command that runs, if its effect is complete (R310, R328, R390). -/
def State.finishRunning (s : State) : State :=
  match s.running with
  | some (.qevict q) => if s.queuePlaced q then s else s.finishCommand
  | some (.xinval home ctx va len parts entries) => if s.xinvalOver home ctx va len parts entries then s.finishCommand else s
  | some (.ctxsave ctx addr size buf) => if s.atRest ctx then s.finishSave ctx addr size buf else s
  | _ => s

/-- Would that change something? -/
def State.runningOver (s : State) : Bool :=
  match s.running with
  | some (.qevict q) => !s.queuePlaced q
  | some (.xinval home ctx va len parts entries) => s.xinvalOver home ctx va len parts entries
  | some (.ctxsave ctx _ _ _) => s.atRest ctx
  | _ => false

/-! ### Reading an image (R391) -/

/-- Reads n lots of items, each from where the one before ended. -/
def readMany {α : Type} (n : Nat) (f : Nat → α × Nat) (off : Nat) : List α × Nat :=
  (List.range n).foldl (fun (acc : List α × Nat) _ =>
    let (x, off) := f acc.2
    (acc.1 ++ [x], off)) ([], off)

/-- A lane mask. -/
def readMask (bs : List Byte) (W off : Nat) : Mask := BitVec.ofNat 1024 (field bs off (maskBytes W))

/-- A split. -/
def readSplit (bs : List Byte) (W codeVa off : Nat) : Split × Nat :=
  let m := maskBytes W
  let o := off + m
  let st : SplitStatus := match field bs (o + 8) 1 with
    | 1 => .atJoin (field bs (o + 9) 8)
    | 2 => .atBar (field bs (o + 9) 8) (field bs (o + 17) 8)
    | 3 => .asleep (field bs (o + 9) 8) (field bs (o + 17) 8 == 1)
    | _ => .ready
  let n := field bs (o + 25) 2
  (⟨readMask bs W off, codeVa + field bs o 8, (List.range n).map fun k => field bs (o + 27 + 8 * k) 8, [], st, [], 0, 0⟩, o + 27 + 8 * n)

/-- A control-stack entry. -/
def readEntry (bs : List Byte) (W codeVa off : Nat) : Entry × Nat :=
  let m := maskBytes W
  let k := field bs (off + 1) 8
  let x := codeVa + field bs (off + 9) 8
  let e : Entry := if field bs off 1 = 0 then .region k x (readMask bs W (off + 17)) (readMask bs W (off + 17 + m)) else .frame k x
  (e, off + 17 + 2 * m)

/-- Adds one saved register to a state, and gives the offset after its entries. -/
def readReg (bs : List Byte) (o : Object) (acc : Arch × Nat) (r : Nat × Nat) : Arch × Nat :=
  let (a, off) := acc
  let W := o.width
  let paired := o.tier == 2
  let tag := field bs off 8 / 2 ^ 10 % 4
  let p := off + 8
  let word (off : Nat) : Word32 := BitVec.ofNat 32 (field bs off 4)
  let tile (off : Nat) : Tile := ⟨(List.range 1024).map fun k => word (off + 8 + 4 * k), (field bs off 8).testBit 10⟩
  match r.1 with
  | 0 =>
    let vis (i : Nat) : Nat := if paired then i / 2 else i
    let (v, n) : VReg × Nat := match tag with
      | 0 => (⟨List.replicate W (word p), .uniform, true⟩, 4)
      | 1 => (⟨(List.range W).map fun i => word p + word (p + 4) * BitVec.ofNat 32 (vis i), .affine (word p) (word (p + 4)), true⟩, 8)
      | _ => (⟨(List.range W).map fun i => word (p + 4 * i), .general, true⟩, 4 * W)
    ({ a with vregs := setAt a.vregs r.2 v }, p + n)
  | 1 =>
    let x : Word64 := BitVec.ofNat 64 (field bs p 8)
    let y : Word64 := BitVec.ofNat 64 (field bs (p + 16) 8)
    ({ a with sregs := setAt a.sregs r.2 x, sshadow := setAt a.sshadow r.2 y }, if paired then p + 24 else p + 8)
  | 2 =>
    let n := 4 * ((W + 31) / 32)
    ({ a with preds := setAt a.preds r.2 (BitVec.ofNat 1024 (field bs p n)) }, p + n)
  | _ =>
    ({ a with tiles := setAt a.tiles r.2 (tile off), twins := setAt a.twins r.2 (tile (off + 4104)) }, if paired then off + 8208 else off + 4104)

/-- A wave record, as a stopped wave; the linear index of a lane follows from its coordinates (R8, R55). -/
def readWave (bs : List Byte) (o : Object) (d : Desc) (launch crew key core clock off : Nat) : Wave × Nat :=
  let W := o.width
  let n64 (k : Nat) : Word64 := BitVec.ofNat 64 (field bs (off + k) 8)
  let n32 (k : Nat) : Word32 := BitVec.ofNat 32 (field bs (off + k) 4)
  let c := off + 88 + 128 + if o.tier = 2 then 128 else 0
  let head := field bs (off + 16) 8 / 4 * 4
  let r := if field bs (off + 16) 8 % 2 = 1 then o.defaultRegion 0 0 else o.headRegion head
  let (splits, p) := readMany (field bs c 4) (readSplit bs W o.codeVa) (c + 24)
  let (entries, p) := readMany (field bs (c + 4) 4) (readEntry bs W o.codeVa) p
  let flag (i b : Nat) : Bool := (field bs (p + 20 * i) 4).testBit b
  let live := Mask.ofLanes ((List.range W).filter fun i => flag i 0)
  let fresh := Mask.ofLanes ((List.range W).filter fun i => (field bs (p + 20 * i + 16) 2).testBit 0)
  let drain := (List.range W).any fun i => flag i 2
  let lane (i : Nat) : Lane :=
    let x := field bs (p + 20 * i + 4) 4
    let y := field bs (p + 20 * i + 8) 4
    let z := field bs (p + 20 * i + 12) 4
    let item := x + d.ex * (y + d.ey * z)
    ⟨BitVec.ofNat 32 x, BitVec.ofNat 32 y, BitVec.ofNat 32 z, BitVec.ofNat 16 (field bs (p + 20 * i + 18) 2),
      if flag i 0 && !drain then some item else none, if drain then d.drainIndex else BitVec.ofNat 32 item⟩
  let a0 : Arch :=
    { Arch.created o with
      splits := splits, entries := entries, live := live, drain := drain, fresh := fresh, lanes := (List.range W).map lane
      mr := n64 24, mx := n64 32, ns := (n64 40).setWidth 7, sp := n32 48, mxbase := n32 56, mxplane := n32 64, seedlo := n64 72, seedhi := n64 80
      retired := field bs (off + 8) 8, turn := (splits.getLast?.map fun q => q.lanes.lowest W).getD 0 }
  let (a, q) := (savedRegs o r).foldl (readReg bs o) (a0, p + 20 * W)
  let spill := (List.range W).map fun i => Memory.writeBytes [] 0 ((bs.drop (q + o.stack * i)).take o.stack)
  let a := { a with spill := spill }
  let visitEnd := field bs (c + 8) 8
  let w := Wave.new key launch crew (field bs off 8) core 0 0 clock o
  ({ w with
      status := .ofCode (field bs (c + 16) 8)
      a := a
      hregs := (List.range 16).map fun k => n64 (88 + 8 * k)
      hshadow := if o.tier = 2 then (List.range 16).map fun k => n64 (216 + 8 * k) else []
      drained := drain
      visitEnd := visitEnd
      checkpoint := if live == 0 then none else some ⟨a, o.codeVa + head, none, r.number, visitEnd, false, none, none, 0, 0, false⟩ }, q + o.stack * W)

/-- The wave that the token visits, where a visit is in progress (R371, R388). -/
def Wave.inVisit (w : Wave) (on : Bool) : Wave :=
  { w with visiting := on, checkpoint := w.checkpoint.map fun c => { c with visiting := on } }

/-- A crew record: the crew, its waves and where the next record begins. -/
def readCrew (bs : List Byte) (o : Object) (d : Desc) (launch key clock off : Nat) : (Crew × List Wave) × Nat :=
  let core := 40 * field bs (off + 8) 8
  let (waves, p) := (List.range o.crewwaves).foldl (fun (acc : List Wave × Nat) k =>
    let (w, p) := readWave bs o d launch key (key + 1 + k) core clock acc.2
    (acc.1 ++ [w], p)) ([], off + 16 + o.crewstore)
  let arrived (id : Nat) : List Nat := (waves.filter fun w => w.a.splits.any fun q => match q.status with | .atBar b _ => b == id | _ => false).map
    Wave.ordinal
  let store := Memory.writeBytes [] 0 ((bs.drop (off + 16)).take o.crewstore)
  ((⟨key, launch, field bs off 8, core, store, (List.range 16).map arrived, false, false⟩, waves), (p + 63) / 64 * 64)

/-- A launch record as read: the record's offset, its object, the launch, its crews and waves. -/
structure LaunchImage where
  off : Nat
  obj : Object
  saved : List Byte
  launch : Launch
  crews : List (Nat × Crew × List Wave)
  deriving DecidableEq, Repr

/-- The object of a launch record: loaded in the context, with equal measurement, its code at the saved address (R391, step 1). -/
def State.imageObject (s : State) (ctx : Nat) (bs : List Byte) (off : Nat) : Option Object :=
  s.objects.find? fun o => o.ctx == ctx && !o.superseded && o.measure == (bs.drop (off + 0x80)).take 64 && o.codeVa == field bs (off + 0xC0) 8

/-- The items of a launch that lanes of its waves hold. -/
def heldItems (waves : List Wave) : List Nat :=
  waves.flatMap fun w => (List.range w.W).filterMap fun i => if w.a.live.has i then (w.lane i).item else none

/-- Reads one launch record; keys are numbered from `key`. -/
def readLaunch (bs : List Byte) (o : Object) (ctx key order clock off : Nat) : LaunchImage × Nat × Nat :=
  let d := Desc.ofBytes ((bs.drop off).take 128)
  let n := 16 * (o.classes.length + 1)
  let pOff := off + 0x100 + n
  let mOff := pOff + o.params
  let bOff := mOff + 4 * o.marver
  let l0 := Launch.accepted key (field bs (off + 0xF0) 2) order d { o with ctx := ctx } (field bs (off + 0xF3) 1) none
  let bLen := if d.cblog = 0xFF then 0 else (l0.blocks + 7) / 8
  let first := (bOff + bLen + 63) / 64 * 64
  let ncrew := field bs (off + 0xF6) 2
  let dealt := field bs (off + 0xC8) 8
  let (crews, p, key') := (List.range ncrew).foldl (fun (acc : List (Nat × Crew × List Wave) × Nat × Nat) _ =>
    let ((c, ws), p) := readCrew bs o d key acc.2.2 clock acc.2.1
    (acc.1 ++ [(acc.2.1, c, ws)], p, acc.2.2 + 1 + o.crewwaves)) ([], first, key + 1)
  let marver := (List.range 4).filterMap fun die =>
    let m := Memory.writeBytes [] 0 ((bs.drop (mOff + o.marver * die)).take o.marver)
    if !m.isEmpty || crews.any fun x => x.2.1.core / 40 == die then some (die, m) else none
  let flags := field bs (off + 0xEC) 4
  let started := field bs (off + 0xF2) 1 == 1
  let token := field bs (off + 0xF8) 8
  let held := heldItems (crews.flatMap fun x => x.2.2)
  let gone := if started && d.cblog != 0xFF then (List.range dealt).filter fun i => !held.contains i else []
  let l := { l0 with
    state := if started then LaunchState.started else .accepted
    predcount := field bs (off + 0xF4) 2
    killed := flags.testBit 1
    dealer := dealt
    maxstatus := BitVec.ofNat 32 (field bs (off + 0xD0) 4)
    items := field bs (off + 0xD8) 8
    nonzero := field bs (off + 0xE0) 8
    replayed := flags.testBit 2
    logended := flags.testBit 3
    replayable := false
    params := (bs.drop pOff).take o.params
    marver := marver
    bits := (List.range (8 * bLen)).filter fun k => (field bs (bOff + k / 8) 1).testBit (k % 8)
    exited := gone.map fun i => ⟨i, key, [], 0⟩
    crewsMade := ncrew
    crewsRetired := (crews.filter fun x => x.2.2.all fun w => w.status == .retired).length
    tokenCrew := token / 2 ^ 16
    tokenWave := token / 2 ^ 12 % 16
    visiting := token.testBit 0 }
  let here (c : Crew) (w : Wave) : Bool := d.deterministic && l.visiting && c.ordinal == l.tokenCrew && w.ordinal == l.tokenWave
  let crews := crews.map fun x => (x.1, x.2.1, x.2.2.map fun w => w.inVisit (here x.2.1 w))
  (⟨off, o, (bs.drop (off + 0x100)).take n, l, crews⟩, p, key')

/-- Reads the launch records of an image; a record without its object ends the reading with its offset. -/
def State.readImage (s : State) (ctx : Nat) (bs : List Byte) : Nat → Nat → Nat → Nat → Except Nat (List LaunchImage × Nat × Nat)
  | 0, off, key, _ => .ok ([], off, key)
  | n + 1, off, key, order =>
    match s.imageObject ctx bs off with
    | none => .error off
    | some o =>
      let (x, p, key) := readLaunch bs o ctx key order s.clock off
      match s.readImage ctx bs n p key (order + 1) with
      | .error e => .error e
      | .ok (xs, p, key) => .ok (x :: xs, p, key)

/-- The first class whose saved storage format or compute form differs from its object's (R391, step 4). -/
def LaunchImage.rebound (x : LaunchImage) : Option Nat :=
  (x.obj.classes.find? fun c => field x.saved (16 + 16 * c.id + 1) 1 != c.storage.id || field x.saved (16 + 16 * c.id + 2) 1 != c.compute.id).map
    ClassRec.id

/-- Does a saved crew fit on some core of the launch's effective mask on its die (R303, R391, step 5)? -/
def State.crewFits (s : State) (l : Launch) (c : Crew) (ws : List Wave) : Bool :=
  let n := (ws.filter fun w => w.status != .retired).length
  n == 0 || ((s.maskCores l).any fun k => k / 40 == c.core / 40) && (CoreUse.empty.take l.obj n).isSome &&
    decide (l.obj.marverGranules ≤ Config.marverGranulesPerDie)

/-- Is a header one of an image: magic, version and a size that holds it (R387, R391, step 1)? -/
def imageHeader (bs : List Byte) : Bool := bs.take 4 == [0x44, 0x58, 0x53, 0x00] && field bs 4 2 == 1 && decide (64 ≤ field bs 8 8)

/-- The checks of R391 on an image: its launches, and the next key; or the report. -/
def State.checkImage (s : State) (ctx : Nat) (bs : List Byte) : Except Nat (List LaunchImage × Nat) :=
  if !imageHeader bs then .error (loadReport 0 1 0x34)
  else match s.readImage ctx bs (field bs 6 2) 64 s.nextKey s.acceptances with
    | .error off => .error (loadReport off 1 0x34)
    | .ok (xs, len, key) =>
      if len ≠ field bs 8 8 then .error (loadReport 0 1 0x34)
      else match xs.find? fun x => (missingFeature x.obj.requires s.faccept).isSome with
      | some x => .error (loadReport x.off 2 0x02)
      | none => match xs.findSome? fun x => x.rebound.map fun c => (x.off, c) with
        | some (off, c) => .error (loadReport off c 0x35)
        | none => match (xs.flatMap fun x => x.crews.map fun y => (x.launch, y)).find? fun z => !s.crewFits z.1 z.2.2.1 z.2.2.2 with
          | some z => .error (loadReport z.2.1 5 0x0A)
          | none => .ok (xs, key)

/-! ### CTXRESTORE (R391, R392) -/

/-- The successor lists of the host's descriptors in an image, which are read again; a child's list lay in its caller's local memory (log 21). -/
def State.readAllSuccs (s : State) (ctx : Nat) (xs : List LaunchImage) : Except DeviceErr (List (List Nat)) :=
  xs.mapM fun x => if x.launch.depth = 0 then s.readSuccs ctx x.launch.desc else .ok []

/-- Those reads have taken their bytes. -/
def State.tookSuccs (s : State) (ctx : Nat) (xs : List LaunchImage) : State :=
  xs.foldl (fun s x => if x.launch.depth = 0 then s.deviceTook ctx x.launch.desc.succaddr (4 * x.launch.desc.nsucc) else s) s

/-- Puts a restored launch, with the successors read for it, among the others: its dependences find their producers in its queue; the successors of a
child are free, and its caller is one of the launches it can be (log 21). -/
def State.adopt (s : State) (y : LaunchImage × List Nat) : State :=
  let x := y.1
  let l := x.launch
  let (n, s) := s.draw
  let s := { s with fresh := s.fresh + l.desc.nsucc }
  let succs := if l.depth = 0 then y.2
    else (List.range l.desc.nsucc).map fun k => (Config.freeWord (n + 1 + k)).toNat % 2 ^ 32
  let callers := s.launches.filter fun y => y.queue == l.queue && y.open_ && y.state == .started && y.depth + 1 == l.depth
  let parent := if l.depth = 0 then none else (callers[(Config.freeWord n).toNat % callers.length]?).map Launch.key
  let l := { l with
    succs := succs, parent := parent
    deps := l.desc.used.map fun y => (y, (s.openLaunch l.queue y.producer).map Launch.key) }
  { s with
    launches := s.launches ++ [l], acceptances := s.acceptances + 1
    crews := s.crews ++ x.crews.map fun y => y.2.1
    waves := s.waves ++ x.crews.flatMap fun y => y.2.2 }

/-- The bytes of an image: its header, and, where that is sound, the size it gives. -/
def State.readImageBytes (s : State) (ctx a : Nat) : Except DeviceErr (List Byte) :=
  match s.deviceRead ctx a 64 with
  | .error e => .error e
  | .ok head => if imageHeader head then s.deviceRead ctx a (field head 8 8) else .ok head

/-- CTXRESTORE: the checks and the reads of the successor lists, of which one that fails refuses the command as the image's does (log 21); then the
launches of the image wait for their crews to be placed; EB comes from the image, and the context's queues read their chains from head. -/
def execCtxrestore (ctx : Nat) (addr : Word64) (buf : Nat) (s : State) : Result :=
  s.command false fun s =>
    let a := addr.toNat
    if !s.hasContext ctx then s.commandRefused 0
    else match s.readImageBytes ctx a with
      | .error e => (s.deviceFailed ctx 0 e).commandRefused 0
      | .ok bs =>
        let s := s.deviceTook ctx a bs.length
        match s.checkImage ctx bs with
        | .error r => (s.toHost buf (leBytes 16 r)).commandDone
        | .ok (xs, key) => match s.readAllSuccs ctx xs with
          | .error e => (s.deviceFailed ctx 0 e).commandRefused 0
          | .ok ids =>
          -- new control-stack entries take names above those of the saved ones
          let names := xs.flatMap fun x => x.crews.flatMap fun y => y.2.2.flatMap fun w => w.a.entries.map Entry.key
          let s := s.tookSuccs ctx xs
          let s := (xs.zip ids).foldl State.adopt { s with nextKey := names.foldl (fun n k => max n (k + 1)) key }
          let s := s.onContext ctx fun c => { c with eb := BitVec.ofNat 64 (field bs 0x28 8) }
          let s := { s with queues := s.queues.map fun (q : Queue) =>
            if q.context.toNat == ctx then { q with status := 1, reading := some (false, q.head.toNat), stopat := 0, evicted := false } else q }
          (s.toHost buf (leBytes 16 0)).commandDone

end Sys2Proof.Machine
end

