-- ==== Sys2Proof/Machine/Host.lean ====
section
/-! DEFINITION. The host and bring-up (R380, R395-R398, R400-R405): CXL.mem accesses, loss of the link, reset, firmware, and the registers of
BAR0 with the doorbell that starts the commands. -/

namespace Sys2Proof.Machine

/-! ### CXL.mem and CXL.cache (R398) -/

/-- Has a home side-log entries, mapped and not performed, for the page that holds a physical address (R283)? -/
def State.loggedAt (s : State) (m : MainAt) : Bool :=
  s.sideLog.any fun e => unitOf e.home == m.unit && (e.leaf.map fun l => decide (l.pa ≤ m.pa ∧ m.pa < l.pa + pageBytes l.size)).getD false

/-- One line of a host access at its home: it comes again where side-log entries of its page perform first, or where it writes a line that a migration
has copied (R283, R329). -/
def State.hostLine (s : State) (ctx : Nat) (m : MainAt) (n : Nat) (wr : Option (List Byte)) : State :=
  if s.loggedAt m then s
  else match wr with
    | some bs => if s.lineCopied m then s else s.storePage none ctx m (bs.take n)
    | none => if s.lineBad m then s.markLine m else s.correctLine ctx m

/-- One line of a host access through range 0 (R335, R398): a home-relative physical address, in usable bytes of an open band. -/
def State.hostPhys (s : State) (off n : Nat) (wr : Option (List Byte)) : State :=
  let die := off / 2 ^ 41
  let pa := off % 2 ^ 41
  if decide (die ≥ Config.dies) || (s.bandTier die pa).isNone || s.bandClosed die pa then
    s.logError (die * 2 ^ 56 + pa) 0xFFFF die trapACCESS 0xFFFF 0
  else s.hostLine 0xFFFF ⟨die, pa⟩ n wr

/-- One line of a host access through range 1 (R319, R322, R324, R398): a virtual address of the context in hctx. -/
def State.hostVirt (s : State) (off n : Nat) (wr : Option (List Byte)) : State :=
  let home := off / 2 ^ 48
  let va := home * 2 ^ 56 + off % 2 ^ 48
  let ctx := s.hctx.toNat
  match s.outsideCheck home ctx va 0xFFFF (if wr.isSome then .write else .read) 4 with
  | (s, none) => s
  | (s, some l) => s.hostLine ctx ⟨home, l.place va⟩ n wr

/-- One line that the host writes in its own memory, from which the device reads descriptor chains, successor lists, parameter blocks, objects and pages
of home 0x80 (R398). It is no request of the device: nothing is checked, nothing waits, and a write from outside a launch is an external input (R372). -/
def State.hostOwn (s : State) (pa : Nat) (wr : Option (List Byte)) : State :=
  match wr with
  | some bs => s.storePage none 0xFFFF ⟨4, pa⟩ bs
  | none => s

/-- HOST_MEM_ACCESS (R398): a read, or a write of `wr`, of `len` bytes at an offset of HDM range 0 or 1, line by line. What a read returns is no
state of the device. `range` 2, the model's own number, is the host's own memory by its physical address, of 64 bits (DESIGN CHOICE, log 36). -/
def execHostMemAccess (range off len : Nat) (wr : Option (List Byte)) (s : State) : Result :=
  let n := match wr with | some bs => bs.length | none => len
  .next ((granules 64 off n).foldl (fun s x =>
    let part := wr.map fun bs => (bs.drop (x.1 - off)).take x.2
    if range = 0 then (if x.1 < 2 ^ 43 then s.hostPhys x.1 x.2 part else s)
    else if range = 1 then (if x.1 < 2 ^ 50 then s.hostVirt x.1 x.2 part else s)
    else if range = 2 then (if x.1 < 2 ^ 64 then s.hostOwn x.1 part else s)
    else s) s)

/-- HOST_GO_RESPONSE (R278, R398): the host's global-observation response to one device write. -/
def execHostGoResponse (s : State) : Result := .next { s with hostWrites := s.hostWrites - 1 }

/-! ### Loss of the link and reset (R395, R399, R401, R403-R405) -/

/-- A loss of the CXL link (R395, R399): every context faults with cause UE, the accepted words read zero, and no chip has a link: parts for a chip
are answered with ACCESS when they are sent or would perform. -/
def State.linkLoss (s : State) : State :=
  let s := (s.contexts.map Context.id).foldl (fun s c => s.contextFault c { LogFields.none with report := .ofCause trapUE }) s
  { s with faccept := List.replicate 4 0, linkMasks := List.replicate 28 0 }

/-- CXL_LINK_LOSS (R395). -/
def execCxlLinkLoss (s : State) : Result := .next s.linkLoss

/-- THERMAL_TRIP (R404): the removal of power acts as a link loss. -/
def execThermalTrip (s : State) : Result := .next s.linkLoss

/-- Does a firmware image pass the boot ROM (R400, R401)? -/
def firmwareGood (header body : List Byte) (minSvn : Word32) : Bool :=
  Config.firmwareSignatureGood header && (header.drop 0x10).take 64 == sha512 (body.take (field header 8 8)) &&
    decide (field header 8 8 ≤ body.length) && decide (minSvn.toNat ≤ field header 4 4) && field header 0x50 4 / 2 == 0

/-- RESET_RELEASE (R401, R403, R405): the device is as after reset; the boot ROM tests the links and verifies the firmware, and stage becomes 2 or
0xE. The fused minimum version lasts. -/
def execResetRelease (linksGood : Bool) (header body : List Byte) (s : State) : Result :=
  let r := { State.reset with
    agenda := s.agenda, inputs := s.inputs, fresh := s.fresh, nextKey := s.nextKey, clock := s.clock, slots := s.slots
    hostMem := s.hostMem, peerMem := s.peerMem, minSvn := s.minSvn }
  if linksGood && firmwareGood header body s.minSvn then
    let svn : Word32 := BitVec.ofNat 32 (field header 4 4)
    let commit := (field header 0x50 4).testBit 0 && decide (s.minSvn.toNat < svn.toNat)
    .next { r with stage := 2, fwsvn := svn, fwdigest := (header.drop 0x10).take 64, minSvn := if commit then svn else s.minSvn }
  else .next { r with stage := 0xE }

/-- FIRMWARE_READY (R334, R403): memory is trained and every band written sealed; stage becomes 3. -/
def execFirmwareReady (s : State) : Result :=
  if s.stage ≠ 2 then .next s
  else
    let sealed_ (h : Home) : Home := { h with tiers := List.replicate Config.bandsPerDie 2, closed := [] }
    .next { s with
      stage := 3, hbm := [], homes := s.homes.map sealed_
      softErrors := s.softErrors.filter fun e => match e.site with | .hbm _ _ => false | _ => true }

/-! ### Registers (R291, R380, R396) -/

/-- The offered feature words (R379). -/
def offered (k : Nat) : Word32 := if k = 0 then Config.foffer0 else 0

/-- A write of an accepted feature word (R380): refused while a context exists, and where F0 bit 0 would be clear. -/
def State.acceptFeature (s : State) (word : Nat) (value : Word32) : State :=
  let v := value &&& offered word
  if !s.contexts.isEmpty || decide (word ≥ 4) || (word == 0 && !v.getLsbD 0) then s else { s with faccept := setAt s.faccept word v }

/-- FACCEPT_WRITE (R380). -/
def execFacceptWrite (word : Nat) (value : Word32) (s : State) : Result := .next (s.acceptFeature word value)

/-- A register's bytes after a write of `data` at `off`, where the register stands at `at_`: none where the write does not meet it. -/
def overlay (old : List Byte) (at_ off : Nat) (data : List Byte) : Option (List Byte) :=
  if at_ < off + data.length ∧ off < at_ + old.length then
    some (old.zipIdx.map fun (b, k) => if off ≤ at_ + k ∧ at_ + k < off + data.length then nth data (at_ + k - off) 0 else b)
  else none

/-- A write of a number held in a register of n bytes. -/
def writeField (n x at_ off : Nat) (data : List Byte) : Option Nat := (overlay (leBytes n x) at_ off data).map leNat

/-- Writes to the block of queue q (R291): head only while the queue is stopped; priorities are 0 to 7; read-only and reserved bytes are ignored. -/
def Queue.write (x : Queue) (base off : Nat) (data : List Byte) : Queue :=
  let f (n old at_ : Nat) : Option Nat := writeField n old (base + at_) off data
  { x with
    head := if x.status = 1 then x.head else ((f 8 x.head.toNat 0x00).map (BitVec.ofNat 64)).getD x.head
    tail := ((f 8 x.tail.toNat 0x08).map (BitVec.ofNat 64)).getD x.tail
    cword := ((f 8 x.cword.toNat 0x10).map (BitVec.ofNat 64)).getD x.cword
    mask := ((f 20 x.mask.toNat 0x18).map (BitVec.ofNat 160)).getD x.mask
    prio := ((f 1 x.prio 0x2C).map (· % 8)).getD x.prio
    context := ((f 2 x.context.toNat 0x2E).map (BitVec.ofNat 16)).getD x.context }

/-- Writes to the registers other than the doorbell. -/
def State.writeRegisters (s : State) (off : Nat) (data : List Byte) : State :=
  let s := (List.range 4).foldl (fun s k => match writeField 4 (nth s.faccept k 0).toNat (0x20 + 4 * k) off data with
    | some v => s.acceptFeature k (BitVec.ofNat 32 v)
    | none => s) s
  { s with
    hctx := ((writeField 2 s.hctx.toNat 0x40 off data).map (BitVec.ofNat 16)).getD s.hctx
    cmd := (overlay s.cmd 0x100 off data).getD s.cmd
    queues := s.queues.zipIdx.map fun (x : Queue × Nat) => x.1.write (0x1000 + 0x40 * x.2) off data }

/-! ### The doorbell (R397) -/

/-- The k-th operand of the command block. -/
def State.operand (s : State) (k : Nat) : Nat := field s.cmd (8 + 8 * k) 8

/-- A malformed command. -/
def State.commandMalformed (s : State) : Result := .next { s with cmdstat := 3 }

/-- The bands named by the four words of a band list: bit k names band k (log 22). -/
def State.bandList (s : State) : List Nat :=
  (List.range Config.bandsPerDie).filter fun k => (s.operand (1 + k / 64)).testBit (k % 64)

/-- The placements the host's policy gives a loaded object (R109, log 12). -/
def State.policy (s : State) (objAddr : Nat) : List Placement :=
  (List.range (leNat (s.hostMem.readBytes (objAddr + 0x0A) 2))).map fun k => ⟨Config.placementVa s.fresh k, Config.placementFrame s.fresh k⟩

/-- Starts the command in cmd. -/
def State.doorbell (s : State) : Result :=
  let a := s.operand
  let w (k : Nat) : Word64 := BitVec.ofNat 64 (a k)
  if s.running.isSome then .next s
  else if field s.cmd 2 6 ≠ 0 then s.commandMalformed
  else match field s.cmd 0 2 with
  | 0x01 => execQstart (a 0) s
  | 0x02 => execQstop (a 0) s
  | 0x03 => execQevict (a 0) s
  | 0x04 => execQresume (a 0) s
  | 0x05 => execQkill (a 0) s
  | 0x06 => execLoad (a 0) (a 1) (w 2) (w 3) (a 4) (s.policy (a 2)) { s with fresh := s.fresh + 1 }
  | 0x10 => if a 1 ≥ 2 then s.commandMalformed else execCtxcreate (a 0) (a 1 == 1) (w 2) s
  | 0x11 => execCtxroot (a 0) (a 1) (a 2) s
  | 0x12 => execXinval (a 0) (a 1) (a 2) (a 3) s
  | 0x13 => if a 2 ≥ 2 then s.commandMalformed else execResolve (a 0) (a 1) (a 2 == 0) s
  | 0x14 => execMigrate (a 0) (a 1) (a 2) (a 3) s
  | 0x15 => execFringset (a 0) (a 1) (a 2) s
  | 0x16 => execTrapset (a 0) (w 1) s
  | 0x17 => execEbset (a 0) (w 1) s
  | 0x18 => execCtxsave (a 0) (w 1) (a 2) (a 3) s
  | 0x19 => execCtxrestore (a 0) (w 1) (a 2) s
  | 0x1A => execCtxdestroy (a 0) s
  | 0x20 => execReclass (a 0) (a 1) (a 2) s
  | 0x21 => execLehrset (a 0) s.bandList s
  | 0x22 => execCorrread (a 0) (a 1) s
  | 0x23 => execAssayset (a 0) (if a 1 = 2 ^ 64 - 1 then none else some (a 1)) s
  | 0x24 => execTlogset (a 0) (a 1) (a 2) (a 3) s
  | 0x30 => execLogread (a 0) s
  | 0x31 => execIlogread (a 0) s
  | 0x40 => if a 1 ≥ 4096 then s.commandMalformed else execPeerset (a 0) (BitVec.ofNat 12 (a 1)) s
  | 0x41 => execAttest (a 0) (a 1) (a 2) (a 3) s
  | 0x42 => execPwrcap (a 0) s
  | _ => s.commandMalformed

/-- REGISTER_WRITE (R291, R396, R397): a host write to BAR0. Offsets not listed ignore it; writing 1 to the doorbell starts the command. -/
def execRegisterWrite (off : Nat) (data : List Byte) (s : State) : Result :=
  let s := s.writeRegisters off data
  if writeField 4 0 0x140 off data = some 1 then s.doorbell else .next s

end Sys2Proof.Machine
end

