-- ==== Sys2Proof/Machine/Dispatch.lean ====
section
/-! DEFINITION. One arm for each constructor of `Instr`. -/

namespace Sys2Proof.Machine

def exec (i : Instr) (s : State) : Host.Outcome State Fault Refusal :=
  match i with
  | .sadd d a b => Sys2Proof.Machine.execSadd d a b s
  | .ssub d a b => Sys2Proof.Machine.execSsub d a b s
  | .smul d a b => Sys2Proof.Machine.execSmul d a b s
  | .smulh d a b => Sys2Proof.Machine.execSmulh d a b s
  | .smulhu d a b => Sys2Proof.Machine.execSmulhu d a b s
  | .sdiv d a b => Sys2Proof.Machine.execSdiv d a b s
  | .sdivu d a b => Sys2Proof.Machine.execSdivu d a b s
  | .srem d a b => Sys2Proof.Machine.execSrem d a b s
  | .sremu d a b => Sys2Proof.Machine.execSremu d a b s
  | .sand d a b => Sys2Proof.Machine.execSand d a b s
  | .sor d a b => Sys2Proof.Machine.execSor d a b s
  | .sxor d a b => Sys2Proof.Machine.execSxor d a b s
  | .sshl d a b => Sys2Proof.Machine.execSshl d a b s
  | .sshr d a b => Sys2Proof.Machine.execSshr d a b s
  | .ssra d a b => Sys2Proof.Machine.execSsra d a b s
  | .smin d a b => Sys2Proof.Machine.execSmin d a b s
  | .smax d a b => Sys2Proof.Machine.execSmax d a b s
  | .sminu d a b => Sys2Proof.Machine.execSminu d a b s
  | .smaxu d a b => Sys2Proof.Machine.execSmaxu d a b s
  | .scmov d a b => Sys2Proof.Machine.execScmov d a b s
  | .spopc d a => Sys2Proof.Machine.execSpopc d a s
  | .sclz d a => Sys2Proof.Machine.execSclz d a s
  | .sctz d a => Sys2Proof.Machine.execSctz d a s
  | .sbfx d a b => Sys2Proof.Machine.execSbfx d a b s
  | .sbfi d a b => Sys2Proof.Machine.execSbfi d a b s
  | .smov d a => Sys2Proof.Machine.execSmov d a s
  | .sceq d a b => Sys2Proof.Machine.execSceq d a b s
  | .scne d a b => Sys2Proof.Machine.execScne d a b s
  | .sclt d a b => Sys2Proof.Machine.execSclt d a b s
  | .scle d a b => Sys2Proof.Machine.execScle d a b s
  | .scltu d a b => Sys2Proof.Machine.execScltu d a b s
  | .scleu d a b => Sys2Proof.Machine.execScleu d a b s
  | .sread d a => Sys2Proof.Machine.execSread d a s
  | .swrite a b => Sys2Proof.Machine.execSwrite a b s
  | .sldl d a b => Sys2Proof.Machine.execSldl d a b s
  | .sldw d a b => Sys2Proof.Machine.execSldw d a b s
  | .sstl d a b => Sys2Proof.Machine.execSstl d a b s
  | .sstw d a b => Sys2Proof.Machine.execSstw d a b s
  | .sgetv d a b => Sys2Proof.Machine.execSgetv d a b s
  | .sli d imm => Sys2Proof.Machine.execSli d imm s
  | .slih d imm => Sys2Proof.Machine.execSlih d imm s
  | .slix d imm => Sys2Proof.Machine.execSlix d imm s
  | .sliy d imm => Sys2Proof.Machine.execSliy d imm s
  | .saddi d imm => Sys2Proof.Machine.execSaddi d imm s
  | .sandi d imm => Sys2Proof.Machine.execSandi d imm s
  | .sori d imm => Sys2Proof.Machine.execSori d imm s
  | .sxori d imm => Sys2Proof.Machine.execSxori d imm s
  | .sshli d imm => Sys2Proof.Machine.execSshli d imm s
  | .sshri d imm => Sys2Proof.Machine.execSshri d imm s
  | .ssrai d imm => Sys2Proof.Machine.execSsrai d imm s
  | .smuli d imm => Sys2Proof.Machine.execSmuli d imm s
  | .sldp d imm => Sys2Proof.Machine.execSldp d imm s
  | .satadd d a b => Sys2Proof.Machine.execSatadd d a b s
  | .satxchg d a b => Sys2Proof.Machine.execSatxchg d a b s
  | .satcas d a b => Sys2Proof.Machine.execSatcas d a b s
  | .satmin d a b => Sys2Proof.Machine.execSatmin d a b s
  | .satmax d a b => Sys2Proof.Machine.execSatmax d a b s
  | .satand d a b => Sys2Proof.Machine.execSatand d a b s
  | .sator d a b => Sys2Proof.Machine.execSator d a b s
  | .satxor d a b => Sys2Proof.Machine.execSatxor d a b s
  | .vadd d a b => Sys2Proof.Machine.execVadd d a b s
  | .vsub d a b => Sys2Proof.Machine.execVsub d a b s
  | .vmul d a b => Sys2Proof.Machine.execVmul d a b s
  | .vfma d a b => Sys2Proof.Machine.execVfma d a b s
  | .vfms d a b => Sys2Proof.Machine.execVfms d a b s
  | .vfnma d a b => Sys2Proof.Machine.execVfnma d a b s
  | .vmin d a b => Sys2Proof.Machine.execVmin d a b s
  | .vmax d a b => Sys2Proof.Machine.execVmax d a b s
  | .vabs d a => Sys2Proof.Machine.execVabs d a s
  | .vneg d a => Sys2Proof.Machine.execVneg d a s
  | .vdiv d a b => Sys2Proof.Machine.execVdiv d a b s
  | .vrem d a b => Sys2Proof.Machine.execVrem d a b s
  | .vsqrt d a => Sys2Proof.Machine.execVsqrt d a s
  | .vrsqrt d a => Sys2Proof.Machine.execVrsqrt d a s
  | .vrcp d a => Sys2Proof.Machine.execVrcp d a s
  | .vexp2 d a => Sys2Proof.Machine.execVexp2 d a s
  | .vlog2 d a => Sys2Proof.Machine.execVlog2 d a s
  | .vmulh d a b => Sys2Proof.Machine.execVmulh d a b s
  | .vand d a b => Sys2Proof.Machine.execVand d a b s
  | .vor d a b => Sys2Proof.Machine.execVor d a b s
  | .vxor d a b => Sys2Proof.Machine.execVxor d a b s
  | .vshl d a b => Sys2Proof.Machine.execVshl d a b s
  | .vshr d a b => Sys2Proof.Machine.execVshr d a b s
  | .vsra d a b => Sys2Proof.Machine.execVsra d a b s
  | .vpopc d a => Sys2Proof.Machine.execVpopc d a s
  | .vclz d a => Sys2Proof.Machine.execVclz d a s
  | .vceq d a b => Sys2Proof.Machine.execVceq d a b s
  | .vcne d a b => Sys2Proof.Machine.execVcne d a b s
  | .vclt d a b => Sys2Proof.Machine.execVclt d a b s
  | .vcle d a b => Sys2Proof.Machine.execVcle d a b s
  | .vcun d a b => Sys2Proof.Machine.execVcun d a b s
  | .vsel d a b => Sys2Proof.Machine.execVsel d a b s
  | .vcvt d a => Sys2Proof.Machine.execVcvt d a s
  | .vrnd d a => Sys2Proof.Machine.execVrnd d a s
  | .vmov d a => Sys2Proof.Machine.execVmov d a s
  | .vfromp d a => Sys2Proof.Machine.execVfromp d a s
  | .vtop d a => Sys2Proof.Machine.execVtop d a s
  | .vpand d a b => Sys2Proof.Machine.execVpand d a b s
  | .vpor d a b => Sys2Proof.Machine.execVpor d a b s
  | .vpxor d a b => Sys2Proof.Machine.execVpxor d a b s
  | .vpnot d a => Sys2Proof.Machine.execVpnot d a s
  | .vshfl d a b => Sys2Proof.Machine.execVshfl d a b s
  | .vshup d a b => Sys2Proof.Machine.execVshup d a b s
  | .vshdn d a b => Sys2Proof.Machine.execVshdn d a b s
  | .vbcast d a b => Sys2Proof.Machine.execVbcast d a b s
  | .vscan d a => Sys2Proof.Machine.execVscan d a s
  | .vscanmax d a => Sys2Proof.Machine.execVscanmax d a s
  | .vscanmin d a => Sys2Proof.Machine.execVscanmin d a s
  | .vredsum d a => Sys2Proof.Machine.execVredsum d a s
  | .vredmax d a => Sys2Proof.Machine.execVredmax d a s
  | .vredmin d a => Sys2Proof.Machine.execVredmin d a s
  | .vballot d a b => Sys2Proof.Machine.execVballot d a b s
  | .vcount d a => Sys2Proof.Machine.execVcount d a s
  | .vrank d a => Sys2Proof.Machine.execVrank d a s
  | .vtag d a => Sys2Proof.Machine.execVtag d a s
  | .vgen d => Sys2Proof.Machine.execVgen d s
  | .vld d a b => Sys2Proof.Machine.execVld d a b s
  | .vst d a b => Sys2Proof.Machine.execVst d a b s
  | .vldraw d a b => Sys2Proof.Machine.execVldraw d a b s
  | .vstraw d a b => Sys2Proof.Machine.execVstraw d a b s
  | .vldb d a b => Sys2Proof.Machine.execVldb d a b s
  | .vstb d a b => Sys2Proof.Machine.execVstb d a b s
  | .vldh d a b => Sys2Proof.Machine.execVldh d a b s
  | .vsth d a b => Sys2Proof.Machine.execVsth d a b s
  | .vlds d a => Sys2Proof.Machine.execVlds d a s
  | .vsts d a => Sys2Proof.Machine.execVsts d a s
  | .vatadd d a b => Sys2Proof.Machine.execVatadd d a b s
  | .vatmin d a b => Sys2Proof.Machine.execVatmin d a b s
  | .vatmax d a b => Sys2Proof.Machine.execVatmax d a b s
  | .vatand d a b => Sys2Proof.Machine.execVatand d a b s
  | .vator d a b => Sys2Proof.Machine.execVator d a b s
  | .vatxchg d a b => Sys2Proof.Machine.execVatxchg d a b s
  | .vatcas d a b => Sys2Proof.Machine.execVatcas d a b s
  | .cxadd d a b => Sys2Proof.Machine.execCxadd d a b s
  | .cxget d a b => Sys2Proof.Machine.execCxget d a b s
  | .cxclr a b => Sys2Proof.Machine.execCxclr a b s
  | .cpin a => Sys2Proof.Machine.execCpin a s
  | .cpout a => Sys2Proof.Machine.execCpout a s
  | .cpgat a => Sys2Proof.Machine.execCpgat a s
  | .cpsca a => Sys2Proof.Machine.execCpsca a s
  | .cpfill a => Sys2Proof.Machine.execCpfill a s
  | .cplocal a => Sys2Proof.Machine.execCplocal a s
  | .wait sel n => Sys2Proof.Machine.execWait sel n s
  | .fence sel r => Sys2Proof.Machine.execFence sel r s
  | .mma d a b => Sys2Proof.Machine.execMma d a b s
  | .mmaz d a b => Sys2Proof.Machine.execMmaz d a b s
  | .mzero d => Sys2Proof.Machine.execMzero d s
  | .mdrv d a => Sys2Proof.Machine.execMdrv d a s
  | .mdrl a b => Sys2Proof.Machine.execMdrl a b s
  | .mdrx a b => Sys2Proof.Machine.execMdrx a b s
  | .mldv d a => Sys2Proof.Machine.execMldv d a s
  | .bra o => Sys2Proof.Machine.execBra o s
  | .brp p o => Sys2Proof.Machine.execBrp p o s
  | .brn p o => Sys2Proof.Machine.execBrn p o s
  | .split o => Sys2Proof.Machine.execSplit o s
  | .join => Sys2Proof.Machine.execJoin s
  | .brk n o => Sys2Proof.Machine.execBrk n o s
  | .brx a b => Sys2Proof.Machine.execBrx a b s
  | .call o => Sys2Proof.Machine.execCall o s
  | .ret => Sys2Proof.Machine.execRet s
  | .land => Sys2Proof.Machine.execLand s
  | .exit a => Sys2Proof.Machine.execExit a s
  | .refill d => Sys2Proof.Machine.execRefill d s
  | .rgn imm => Sys2Proof.Machine.execRgn imm s
  | .bar d a => Sys2Proof.Machine.execBar d a s
  | .mode imm => Sys2Proof.Machine.execMode imm s
  | .modx imm => Sys2Proof.Machine.execModx imm s
  | .seed a b => Sys2Proof.Machine.execSeed a b s
  | .launch a => Sys2Proof.Machine.execLaunch a s
  | .trap imm => Sys2Proof.Machine.execTrap imm s
  | .brkpt => Sys2Proof.Machine.execBrkpt s
  | .preoff imm => Sys2Proof.Machine.execPreoff imm s
  | .preon => Sys2Proof.Machine.execPreon s
  | .yield => Sys2Proof.Machine.execYield s
  | .sleep imm => Sys2Proof.Machine.execSleep imm s
  | .bindq d a b => Sys2Proof.Machine.execBindq d a b s
  | .nsclr => Sys2Proof.Machine.execNsclr s
  | .tret => Sys2Proof.Machine.execTret s
  | .inject d a b => Sys2Proof.Machine.execInject d a b s
  | .nop => Sys2Proof.Machine.execNop s
  | .portAccess wave => Sys2Proof.Machine.execPortAccess wave s
  | .enginePartPerform wave op part pick => Sys2Proof.Machine.execEnginePartPerform wave op part pick s
  | .sideLog wave op part => Sys2Proof.Machine.execSideLog wave op part s
  | .sideLogReplay core entry => Sys2Proof.Machine.execSideLogReplay core entry s
  | .counterRetire wave ctr => Sys2Proof.Machine.execCounterRetire wave ctr s
  | .atomicReturn wave op => Sys2Proof.Machine.execAtomicReturn wave op s
  | .errorResponse wave op part => Sys2Proof.Machine.execErrorResponse wave op part s
  | .matrixTurn wave => Sys2Proof.Machine.execMatrixTurn wave s
  | .waveDeal wave => Sys2Proof.Machine.execWaveDeal wave s
  | .waveRetire wave => Sys2Proof.Machine.execWaveRetire wave s
  | .prelimit wave => Sys2Proof.Machine.execPrelimit wave s
  | .sleepEnd wave lane => Sys2Proof.Machine.execSleepEnd wave lane s
  | .systemModeTimeout wave => Sys2Proof.Machine.execSystemModeTimeout wave s
  | .tailWrite q tail => Sys2Proof.Machine.execTailWrite q tail s
  | .descriptorAccept q => Sys2Proof.Machine.execDescriptorAccept q s
  | .launchStart l => Sys2Proof.Machine.execLaunchStart l s
  | .crewPlace l => Sys2Proof.Machine.execCrewPlace l s
  | .launchComplete l => Sys2Proof.Machine.execLaunchComplete l s
  | .bitmapBitSet l p => Sys2Proof.Machine.execBitmapBitSet l p s
  | .crewPreempt crew => Sys2Proof.Machine.execCrewPreempt crew s
  | .crewReplace crew => Sys2Proof.Machine.execCrewReplace crew s
  | .assayDue cluster => Sys2Proof.Machine.execAssayDue cluster s
  | .assayDelayed cluster => Sys2Proof.Machine.execAssayDelayed cluster s
  | .assayEnd cluster faulty => Sys2Proof.Machine.execAssayEnd cluster faulty s
  | .homeRequest wave op part => Sys2Proof.Machine.execHomeRequest wave op part s
  | .walkComplete home ctx va => Sys2Proof.Machine.execWalkComplete home ctx va s
  | .retryAfterResend wave op part => Sys2Proof.Machine.execRetryAfterResend wave op part s
  | .leaseGrant home chip ctx va clocks => Sys2Proof.Machine.execLeaseGrant home chip ctx va clocks s
  | .leaseExpire home lease => Sys2Proof.Machine.execLeaseExpire home lease s
  | .leaseRecallAck home lease => Sys2Proof.Machine.execLeaseRecallAck home lease s
  | .migrateCommit home ctx va => Sys2Proof.Machine.execMigrateCommit home ctx va s
  | .hostMemAccess range off len wr => Sys2Proof.Machine.execHostMemAccess range off len wr s
  | .hostGoResponse => Sys2Proof.Machine.execHostGoResponse s
  | .peerRequest chip ctx va lease op => Sys2Proof.Machine.execPeerRequest chip ctx va lease op s
  | .linkFlitRetry link ok => Sys2Proof.Machine.execLinkFlitRetry link ok s
  | .cxlLinkLoss => Sys2Proof.Machine.execCxlLinkLoss s
  | .thermalTrip => Sys2Proof.Machine.execThermalTrip s
  | .resetRelease linksGood header body => Sys2Proof.Machine.execResetRelease linksGood header body s
  | .firmwareReady => Sys2Proof.Machine.execFirmwareReady s
  | .facceptWrite word value => Sys2Proof.Machine.execFacceptWrite word value s
  | .registerWrite off data => Sys2Proof.Machine.execRegisterWrite off data s
  | .regionRollback wave => Sys2Proof.Machine.execRegionRollback wave s
  | .launchReplay l => Sys2Proof.Machine.execLaunchReplay l s
  | .scrubPass site => Sys2Proof.Machine.execScrubPass site s
  | .tokenPass l => Sys2Proof.Machine.execTokenPass l s
  | .diverge wave => Sys2Proof.Machine.execDiverge wave s
  | .nativeCodeReady handle version region => Sys2Proof.Machine.execNativeCodeReady handle version region s
  | .softError site bits => Sys2Proof.Machine.execSoftError site bits s
  | .registerWriteback wave lane => Sys2Proof.Machine.execRegisterWriteback wave lane s
  | .bandReopen home => Sys2Proof.Machine.execBandReopen home s
  | .leaseRecall chip va => Sys2Proof.Machine.execLeaseRecall chip va s
  | .arithmeticClockStep up => Sys2Proof.Machine.execArithmeticClockStep up s
  | .qstart q => Sys2Proof.Machine.execQstart q s
  | .qstop q => Sys2Proof.Machine.execQstop q s
  | .qevict q => Sys2Proof.Machine.execQevict q s
  | .qresume q => Sys2Proof.Machine.execQresume q s
  | .qkill q => Sys2Proof.Machine.execQkill q s
  | .load ctx q objAddr handle buf place => Sys2Proof.Machine.execLoad ctx q objAddr handle buf place s
  | .ctxcreate ctx debug handler => Sys2Proof.Machine.execCtxcreate ctx debug handler s
  | .ctxroot ctx home root => Sys2Proof.Machine.execCtxroot ctx home root s
  | .xinval ctx home va len => Sys2Proof.Machine.execXinval ctx home va len s
  | .resolve home tag map => Sys2Proof.Machine.execResolve home tag map s
  | .migrate ctx home va frame => Sys2Proof.Machine.execMigrate ctx home va frame s
  | .fringset home base size => Sys2Proof.Machine.execFringset home base size s
  | .trapset ctx addr => Sys2Proof.Machine.execTrapset ctx addr s
  | .ebset ctx value => Sys2Proof.Machine.execEbset ctx value s
  | .ctxsave ctx addr size buf => Sys2Proof.Machine.execCtxsave ctx addr size buf s
  | .ctxrestore ctx addr buf => Sys2Proof.Machine.execCtxrestore ctx addr buf s
  | .ctxdestroy ctx => Sys2Proof.Machine.execCtxdestroy ctx s
  | .reclass home band tier => Sys2Proof.Machine.execReclass home band tier s
  | .lehrset home bands => Sys2Proof.Machine.execLehrset home bands s
  | .corrread ctx buf => Sys2Proof.Machine.execCorrread ctx buf s
  | .assayset period returned => Sys2Proof.Machine.execAssayset period returned s
  | .tlogset q base size mode => Sys2Proof.Machine.execTlogset q base size mode s
  | .logread buf => Sys2Proof.Machine.execLogread buf s
  | .ilogread buf => Sys2Proof.Machine.execIlogread buf s
  | .peerset chip linkmask => Sys2Proof.Machine.execPeerset chip linkmask s
  | .attest ctx nonceAddr buf size => Sys2Proof.Machine.execAttest ctx nonceAddr buf size s
  | .attestCert buf size => Sys2Proof.Machine.execAttestCert buf size s
  | .pwrcap watts => Sys2Proof.Machine.execPwrcap watts s

end Sys2Proof.Machine
end

