-- ==== Sys2Proof/Machine/Scheduler.lean ====
section
/-! DEFINITION. Which steps may be taken next, and which of them is taken (R254, R271, R288, R308, R364; log 1). -/

namespace Sys2Proof.Machine

/-! ### Who may issue -/

/-- In deterministic mode the split whose turn it is: of those that wait at no join, the one of the next lowest lane after the split that
issued last (R364). -/
def Wave.turnOf (w : Wave) (p : Split) : Bool :=
  let lane (q : Split) : Nat := q.lanes.lowest w.W
  let rank (q : Split) : Nat := if w.a.turn < lane q then lane q else lane q + w.W
  let able := w.a.splits.filter fun q => match q.status with
    | .atJoin _ => false
    | _ => true
  able.all fun q => decide (rank p ≤ rank q)

/-- What deterministic mode asks before a word issues: every wave has its first items, the word before has performed all its steps, the
visit is not over with its checkpoint still to take, and it is the split's turn (R286, R363, R364, R367). -/
def State.orderly (s : State) (w : Wave) (p : Split) : Bool :=
  match s.launch? w.launch with
  | none => true
  | some l =>
    !l.desc.deterministic ||
      (s.allPlaced l && w.drained_ && w.a.splits.all (fun q => q.board.isEmpty) && (s.visitOver w l).isNone &&
        !(w.checkpointDue && w.visitReady) && w.turnOf p)

/-- Does the wave issue: it runs, its crew is placed, and neither a trap of the wave (an ERRBUDGET, or a `preoff` bound that has run out) nor a stop
that R245, R257 and R260 do not defer is ahead of its next word (R309, R407)? -/
def State.issues (s : State) (w : Wave) : Bool :=
  match s.crew? w.crew with
  | none => false
  | some c =>
    w.status == .running && c.placed && w.waveTrap.isNone && !s.ranOut w &&
      !(c.stopReq && !w.system && w.preoff.isNone && !w.inInterval)

/-- May a split be tried: it waits for nothing but its next word's own conditions, in a `launch` (R250) or a `fence` (R211), or for a
`cxget` that has its values (R201, R346), or in its deal's fence, whose waits are met (R301)? -/
def Wave.canTry (w : Wave) (p : Split) : Bool :=
  w.mayIssue p && match p.status with
    | .ready | .fencing | .onLaunch _ _ _ => true
    | .acquiring => w.acquired
    | .onCxget k => ((w.op? k).map Op.returned).getD true
    | _ => false

/-- Something that may happen next: an event, the issue of the split of a wave that holds a lane, a trap of a wave, the completion of the command
that runs, or the copying of one line of a home's migration. -/
inductive Candidate where
  | event (i : Instr)
  | issue (wave lane : Nat)
  | trap (wave : Nat)
  | finish
  | copy (unit : Nat)
  deriving DecidableEq, Repr

/-- The splits that may be tried. -/
def State.issuable (s : State) : List Candidate :=
  s.waves.flatMap fun w =>
    if s.issues w then
      (w.a.splits.filter fun p => w.canTry p && s.orderly w p).map fun p => .issue w.key (p.lanes.lowest w.W)
    else []

/-! ### Events whose condition holds -/

/-- Performing a part: at once, or one piece that may be any (R271). -/
def performs (k op part n : Nat) : List Candidate :=
  .event (.enginePartPerform k op part none) :: (List.range n).map fun i => .event (.enginePartPerform k op part (some i))

/-- What a part of an operation may do next, by its status. -/
def State.partEvents (s : State) (k : Nat) (o : Op) (q : Part) (part : Nat) : List Candidate :=
  match q.status with
  | .pending => [.event (.homeRequest k o.key part)]
  | .retryAfter t => if t ≤ s.clock then [.event (.retryAfterResend k o.key part)] else []
  | .ready => performs k o.key part (o.pieces.filter fun x => x.part == part).length
  | .held (some _) => if o.kind.logs then [.event (.sideLog k o.key part)] else []
  | .replied _ _ => [.event (.errorResponse k o.key part)]
  | _ => []

/-- What an operation may do next: its parts, its local side, its returned values. -/
def State.opEvents (s : State) (k : Nat) (o : Op) : List Candidate :=
  o.parts.zipIdx.flatMap (fun (q, part) => s.partEvents k o q part) ++
    (if o.localActs.isEmpty then [] else performs k o.key o.parts.length o.localActs.length) ++
    (if o.answered && o.kind.returns && !o.returned then [.event (.atomicReturn k o.key)] else [])

/-- The events a split waits for. -/
def State.splitEvents (s : State) (w : Wave) (p : Split) : List Candidate :=
  let lane := p.lanes.lowest w.W
  (match p.status with
    | .asleep till false => if till ≤ s.clock then [.event (.sleepEnd w.key lane)] else []
    | _ => []) ++
    (if p.board.any ownWrite then [.event (.registerWriteback w.key lane)] else [])

/-- What a wave may do next beside issuing. -/
def State.waveEvents (s : State) (w : Wave) : List Candidate :=
  let k := w.key
  let suspended := (w.frame.map TrapFrame.splits).getD []
  (w.ops.flatMap (s.opEvents k)) ++ ((w.a.splits ++ suspended).flatMap (s.splitEvents w)) ++
    ((suspended.filter fun p => (w.suspendedGet (p.lanes.lowest w.W)).isSome).map fun p => .event (.registerWriteback k (p.lanes.lowest w.W))) ++
    ((w.ops.filterMap Op.ctr).eraseDups.map fun c => .event (.counterRetire k c)) ++
    (if w.port.isEmpty then [] else [.event (.portAccess k)]) ++
    (if w.ops.any fun o => o.kind.isMatrix && !o.finishedAtTurn then [.event (.matrixTurn k)] else []) ++
    (match w.status with
      | .awaitingCreationDeal | .awaitingDeal | .awaitingDrain => [.event (.waveDeal k)]
      | .retiring => [.event (.waveRetire k)]
      | .running =>
        (if s.ranOut w && w.trapReady then [.event (.prelimit k)] else []) ++
          (if w.waveTrap.isSome && w.trapReady then [.trap k] else [])
      | .retired => []) ++
    (match w.frame with
      | some f => if f.started + Config.systemModeClocks ≤ s.clock then [.event (.systemModeTimeout k)] else []
      | none => []) ++
    (if w.demand.isSome then [.event (.regionRollback k)] else [])

/-- What a launch may do next. -/
def State.launchEvents (s : State) (l : Launch) : List Candidate :=
  (if s.startable l then [.event (.launchStart l.key)] else []) ++
    (if (s.firstStopped l).isNone && (s.nextPlace l).isSome then [.event (.crewPlace l.key)] else []) ++
    (if s.mayComplete l then [.event (.launchComplete l.key)] else []) ++
    (if l.replaying && !(s.crews.any fun c => c.launch == l.key && c.placed) then [.event (.launchReplay l.key)] else []) ++
    (if l.desc.deterministic && s.allPlaced l then [.event (.tokenPass l.key)] else []) ++
    (if l.state == .started && l.desc.cblog != 0xFF then
      ((List.range l.blocks).filter fun p => !l.bits.contains p && s.blockDone l p).map fun p => .event (.bitmapBitSet l.key p)
    else [])

/-- What a crew may do next. -/
def State.crewEvents (s : State) (c : Crew) : List Candidate :=
  if c.placed then (if c.stopReq then [.event (.crewPreempt c.key)] else [])
  else if (s.crewWaves c.key).isEmpty then [] else [.event (.crewReplace c.key)]

/-- The home code of a unit. -/
def unitCode (k : Nat) : Nat := if k < Config.dies then k else 0x80

/-- What a home may do next. -/
def State.homeEvents (s : State) (h : Home) (k : Nat) : List Candidate :=
  let code := unitCode k
  (h.walks.map fun x => .event (.walkComplete code x.ctx x.va)) ++
    ((h.leases.filter fun x => decide (x.expires ≤ s.clock)).map fun x => .event (.leaseExpire code x.id)) ++
    (h.migrations.flatMap fun g =>
      if !s.leasesGone code (Lease.ofMigration g) then [] else
        if 64 * g.copied < g.size then [.copy k] else [.event (.migrateCommit code g.ctx g.va)])

/-- The step that would end the command that runs. -/
def State.commandEvents (s : State) : List Candidate :=
  match s.running with
  | some (.reclass h _ _) => [.event (.bandReopen h)]
  | some _ => if s.runningOver then [.finish] else []
  | none => []

/-- Everything that may happen next by itself, beside an issue. -/
def State.enabled (s : State) : List Candidate :=
  s.waves.flatMap s.waveEvents ++ (s.sideLog.map fun e => .event (.sideLogReplay e.core e.key)) ++
    ((s.queues.zipIdx.filter fun (q, _) => q.status == 1 && q.reading.isSome).map fun (_, i) => .event (.descriptorAccept i)) ++
    s.launches.flatMap s.launchEvents ++ s.crews.flatMap s.crewEvents ++
    (s.homes.zipIdx.flatMap fun (h, k) => s.homeEvents h k) ++
    (if 0 < s.hostWrites then [.event .hostGoResponse] else []) ++ s.commandEvents

/-- The candidates of a state. -/
def State.candidates (s : State) : List Candidate := s.enabled ++ s.issuable

/-! ### Taking a candidate -/

/-- Brings a wave, and the split of it that holds a lane, to the front: they issue. -/
def State.front (s : State) (k lane : Nat) : State :=
  let hit := s.waves.filter fun w => w.key == k
  let first (l : List Split) : List Split := l.filter (fun p => p.lanes.has lane) ++ l.filter (fun p => !p.lanes.has lane)
  let hit := hit.map fun (w : Wave) => { w with a := { w.a with splits := first w.a.splits } }
  { s with waves := hit ++ s.waves.filter fun w => w.key != k }

/-- The clock advances by a free amount, at least one (log 7). -/
def State.tick (s : State) : State :=
  { s with clock := s.clock + 1 + Config.elapsed s.slots, slots := s.slots + 1 }

/-- What the front split fetches: the instruction, or none where the fetch or the decoding fails. -/
def State.fetchFront (s : State) : Option Instr :=
  match s.waves with
  | [] => none
  | w :: _ =>
    match w.a.splits with
    | [] => none
    | p :: _ => w.instrAt p.pc

/-- A word that no opcode lists, that breaks a zero field, or that lies outside the code: ILLOP (R112, R126). -/
def State.illegal (s : State) : Result :=
  match s.waves with
  | [] => .fault .noIssuer
  | w :: _ =>
    match w.a.splits with
    | [] => .fault .noIssuer
    | p :: _ => s.trapAt w p trapILLOP 0 (w.active p)

/-- Would the front split's next word diverge from the trace log that its launch replays (R376)? -/
def State.divergesAt (s : State) (i : Instr) : Option Nat :=
  match s.waves with
  | [] => none
  | w :: _ =>
    match w.a.splits with
    | [] => none
    | p :: _ => (s.diverging w p i).map fun _ => w.key

/-- Does the front split's word retire, if it issues now? -/
def State.retires (s : State) (i : Instr) : Bool :=
  match s.waves.head?, exec i s with
  | some w, .next t => (t.wave? w.key).map (fun v => v.a.retired) != some w.a.retired
  | _, _ => false

/-- What the front wave's launch meets where it reads the trace log that it replays. -/
def State.frontUnread (s : State) : Option (Launch × DeviceErr) :=
  (s.waves.head?.bind fun w => s.launch? w.launch).bind fun l => (s.replayUnread l).map fun e => (l, e)

/-- Issues the word of the front split; one that would retire without a read that the trace log names traps DIVERGE before it has any effect
(R376). A word that would retire waits while the log cannot be read; a read of it that is refused enters the error log (R319, R323, R332). -/
def State.issue (s : State) : Result :=
  match s.fetchFront with
  | none => s.illegal
  | some i =>
    match s.frontUnread with
    | some (l, e) =>
      if !s.retires i then exec i s
      else if e.holds then .next (s.deviceFailed l.ctx 0 e)
      else exec i (s.deviceFailed l.ctx 0 e)
    | none =>
      match s.divergesAt i with
      | some k => if s.retires i then exec (.diverge k) s else exec i s
      | none => exec i s

/-- Takes a trap that awaits a wave (R341, R407). -/
def State.trapWave (s : State) (k : Nat) : State :=
  match s.wave? k with
  | none => s
  | some w =>
    match w.waveTrap with
    | none => s
    | some eb => s.takeWaveTrap { w with waveTrap := none } trapERRBUDGET eb

/-- Copies a line of a home's first migration that has lines left. -/
def State.copyNext (s : State) (k : Nat) : State :=
  match (s.home k).migrations.find? fun g => decide (64 * g.copied < g.size) && s.leasesGone (unitCode k) (Lease.ofMigration g) with
  | none => s
  | some g => s.copyLine k g

/-- Takes a candidate. -/
def State.take (s : State) : Candidate → Result
  | .event i => exec i s
  | .issue k lane => (s.front k lane).issue
  | .trap k => .next (s.trapWave k)
  | .finish => .next s.finishRunning
  | .copy u => .next (s.copyNext u)

/-- Does a candidate change anything: for an event, does its condition hold; for a split, is it ready (R308)? -/
def State.effective (s : State) (c : Candidate) : Bool :=
  let before := match c with
    | .issue k lane => s.front k lane
    | _ => s
  match s.take c with
  | .next t => decide (t ≠ before)
  | _ => true

/-! ### The issue policy (R308) -/

/-- A ready split as the policy sees it: `port` is 0 for V and 1 for X, `last` its last issue on that port. -/
structure Ready where
  wave : Nat
  lane : Nat
  core : Nat
  partition : Nat
  port : Nat
  prio : Nat
  last : Nat
  slot : Nat
  deriving DecidableEq, Repr

/-- The priority a wave issues at: that of its launch's queue (R32). -/
def State.prioOf (s : State) (w : Wave) : Nat := ((s.launch? w.launch).map fun l => (s.queue l.queue).prio).getD 0

/-- The port a word issues on; what cannot be decoded takes port X. -/
def portOf (i : Option Instr) : Nat := if (i.map onPortV).getD false then 0 else 1

/-- A split of a wave that holds a lane, as the policy sees it. -/
def State.readyOf (s : State) (k lane : Nat) : Option Ready :=
  match s.wave? k with
  | none => none
  | some w =>
    match w.a.splits.find? fun p => p.lanes.has lane with
    | none => none
    | some p =>
      let port := portOf (w.instrAt p.pc)
      some ⟨k, lane, w.core, w.partition, port, s.prioOf w, if port = 0 then p.lastV else p.lastX, w.slot⟩

/-- Do two ready splits compete for one port of one partition? -/
def Ready.rival (a b : Ready) : Bool := a.core == b.core && a.partition == b.partition && a.port == b.port

/-- Does the policy take `a` before `b`? -/
def Ready.before (a b : Ready) : Bool :=
  decide (b.prio < a.prio) || (a.prio == b.prio && (decide (a.last < b.last) || (a.last == b.last &&
    (decide (a.slot < b.slot) || (a.slot == b.slot && decide (a.lane < b.lane))))))

/-- Is a note about a ready split, on the port it competes for? -/
def Passed.of (x : Passed) (a : Ready) : Bool :=
  x.wave == a.wave && x.lane == a.lane && x.core == a.core && x.partition == a.partition && x.port == a.port

/-- The priority below which the next slot goes, where 15 consecutive slots have passed over a ready split of lower priority (R308). -/
def State.starvedBelow (s : State) (mine : List Ready) : Option Nat :=
  (s.passed.filter fun x => decide (15 ≤ x.count) && mine.any fun b => x.of b && decide (b.prio < x.taker)).foldl
    (fun m x => some (max (m.getD 0) x.taker)) none

/-- The rivals among which a port picks: where one has been passed over 15 times, those below the priority that took those slots (R308, log 20). -/
def State.field_ (s : State) (rs : List Ready) (a : Ready) : List Ready :=
  let mine := rs.filter a.rival
  match s.starvedBelow mine with
  | some q => mine.filter fun b => decide (b.prio < q)
  | none => mine

/-- Is a ready split the one its port takes? -/
def State.taken (s : State) (rs : List Ready) (a : Ready) : Bool :=
  let f := s.field_ rs a
  f.contains a && f.all fun b => !b.before a

/-- Notes which splits of lower priority the slot that a split takes passes over; one that is not ready, or is not passed over, counts anew. -/
def State.notePassed (s : State) (rs : List Ready) (a : Ready) : State :=
  let rest := s.passed.filter fun x => !(x.core == a.core && x.partition == a.partition && x.port == a.port)
  let note (b : Ready) : Passed :=
    match s.passed.find? fun x => x.of b with
    | some x => { x with count := x.count + 1, taker := min x.taker a.prio }
    | none => ⟨b.wave, b.lane, b.core, b.partition, b.port, 1, a.prio⟩
  { s with passed := (rs.filter fun b => a.rival b && decide (b.prio < a.prio)).map note ++ rest }

/-- The splits of a list of candidates, as the policy sees them. -/
def State.readies (s : State) (cs : List Candidate) : List Ready :=
  cs.filterMap fun c => match c with
    | .issue k lane => s.readyOf k lane
    | _ => none

/-- May a candidate be chosen: an event may, and a split when its port takes it? -/
def State.mayChoose (s : State) (rs : List Ready) : Candidate → Bool
  | .issue k lane => ((s.readyOf k lane).map fun a => s.taken rs a).getD false
  | _ => true

/-- Of the candidates, the one taken: the only one, or the one a free choice names among those that change something and that the policy
allows (log 1); and the state with the slot noted. -/
def State.pick (s : State) (cs : List Candidate) : Option (Candidate × State) :=
  match cs with
  | [] => none
  | [c] => some (c, { s with passed := [] })
  | cs =>
    let live := cs.filter s.effective
    let rs := s.readies live
    let may := live.filter (s.mayChoose rs)
    (may[Config.choice s.slots % may.length]?).map fun c =>
      match c with
      | .issue k lane => (c, ((s.readyOf k lane).map fun a => s.notePassed rs a).getD s)
      | _ => (c, s)

/-- What happens next when nothing is due from outside: the candidate picked, or time passes. -/
def State.proceed (s : State) : Result :=
  match s.pick s.candidates with
  | none => .next s.tick
  | some (c, s) => s.tick.take c

/-- What has arrived from outside, if it is due (log 1). -/
def State.arrived (s : State) : Option (Instr × List (Nat × Instr)) :=
  match s.inputs with
  | (t, i) :: rest => if t ≤ s.clock then some (i, rest) else none
  | [] => none

end Sys2Proof.Machine
end

