-- ==== Sys2Proof/Machine/Step.lean ====
section
/-! DEFINITION. One step of the device: what the device owes at once, what arrives from outside, or one of the steps whose condition holds
(R271, R288). -/

namespace Sys2Proof.Machine

/-- `s` with the instruction whose bits are `w` where the next step fetches: a launch of one wave whose program counter is at it
(log 2). -/
def State.withFetchWord (s : State) (nbits w : Nat) : State := s.placeWord (w % 2 ^ nbits)

/-- One step. -/
def step (s : State) : Host.Outcome State Fault Refusal :=
  match s.agenda with
  | i :: rest => exec i { s.tick with agenda := rest }
  | [] =>
    match s.arrived with
    | some (i, rest) => exec i { s.tick with inputs := rest }
    | none => s.proceed

end Sys2Proof.Machine
end

