-- ==== Sys2Proof/Safety.lean ====
section
/-! DEFINITION. The terms the statements use: when a word issues with its own effect, what it then leaves, and what a sound state is. -/

namespace Sys2Proof.Machine

/-- Is `w` the wave, and `p` its split, that issues? -/
def State.fronts (s : State) (w : Wave) (p : Split) : Prop := s.waves.head? = some w ∧ w.a.splits.head? = some p

/-- Does a word go past every check and wait that comes before its own meaning (R126, R208, R120, R130, R345, R286)? -/
def State.unhindered (s : State) (w : Wave) (p : Split) (i : Instr) : Bool :=
  fieldsLegal i && w.legalHere i && s.permitted w i && s.accepted i && (w.due (w.delivers p i)).isNone && (w.firstEmpty i).isNone &&
    !w.mustWait i && w.mayIssue p && (!needsToken i || s.hasToken w) && (s.readErrors w p i).isNone

/-- Word `i`, issued by any wave and split that nothing hinders and for which `ok` holds, leads to the state `t`. -/
def leadsTo (i : Instr) (ok : State → Wave → Split → Prop) (t : State → Wave → Split → State) : Prop :=
  ∀ s w p, s.fronts w p → s.unhindered w p i = true → ok s w (p.stamp i s.slots) →
    exec i s = .next (t s w (p.stamp i s.slots))

/-- No further condition. -/
def anyState : State → Wave → Split → Prop := fun _ _ _ => True

/-- After a word whose one effect is on its wave: the wave becomes `f w p`, the split's pc is past the word, and `codes` are on its
scoreboard. -/
def afterWord (f : Wave → Split → Wave) (codes : List Nat) : State → Wave → Split → State :=
  fun s w p => s.putWave ((f w p).advance (p.busy codes))

/-- After a word that writes `x w` to the primary and `xs w` to the shadow copy of sD: the bit errors there are gone. -/
def afterScalar (d : Byte) (x xs : Wave → Word64) : State → Wave → Split → State :=
  fun s w p => afterWord (fun w _ => w.setS d.toNat (x w) (xs w)) (sCode d) (s.clearScalar w (w.sidx d.toNat)) w p

/-- After a paired compare that found the lanes of `bad` to differ (R347): the wave owes a rollback, with the trap registers filled for MISMATCH at
the word, and `lane` for the integrity log. -/
def afterMismatch (bad : Wave → Split → Mask) (lane : Wave → Split → Nat) : State → Wave → Split → State :=
  fun s w p => s.demandRollback w ⟨0x10, 0x14, p.pc, w.pairUp (bad w p), lane w p, true, none, p.pc, 0x08, s.clock⟩

/-- After a compare of the two scalar copies that found them to differ: it names the issuing split's pairs, and no lane. -/
def scalarMismatch : State → Wave → Split → State := afterMismatch (fun _ p => p.lanes) fun _ _ => 0xFFFF

/-- After a compare of lanes that found those of `bad` to differ. -/
def pairMismatch (bad : Wave → Split → Mask) : State → Wave → Split → State := afterMismatch bad fun w p => (bad w p).lowest w.W

/-- After a scalar word of two sources: each copy of sD receives `f` of that copy's S(A) and S(B). -/
def afterBinary (d a b : Byte) (f : Word64 → Word64 → Word64) : State → Wave → Split → State :=
  afterScalar d (fun w => f (w.S a.toNat) (w.S b.toNat)) (fun w => f (w.Sh a.toNat) (w.Sh b.toNat))

/-- After a scalar word of one source. -/
def afterUnary (d a : Byte) (f : Word64 → Word64) : State → Wave → Split → State :=
  afterScalar d (fun w => f (w.S a.toNat)) (fun w => f (w.Sh a.toNat))

/-- After a scalar word of two sources that sets divzero where a copy's divisor is zero. -/
def afterDivision (d a b : Byte) (f : Word64 → Word64 → Word64) : State → Wave → Split → State :=
  fun s w p => afterWord (fun w _ =>
    { w with a := { w.a with ns := w.a.ns ||| (if w.S b.toNat = 0 ∨ w.Sh b.toNat = 0 then 0x02 else 0) } }.setS d.toNat
      (f (w.S a.toNat) (w.S b.toNat)) (f (w.Sh a.toNat) (w.Sh b.toNat))) (sCode d) (s.clearScalar w (w.sidx d.toNat)) w p

/-- After a word that writes predicate D in the lanes of `on`. -/
def afterPred (d : Byte) (on value : Wave → Split → Mask) : State → Wave → Split → State :=
  afterWord (fun w p => w.setPred d.toNat (on w p) (value w p)) (pCode d)

/-- After a word that writes whole words of vD in the lanes of `on`: the bit errors there are gone. -/
def afterVector (d : Byte) (on : Wave → Split → Mask) (value : Wave → Split → Nat → Word32) (tag : Wave → Split → Tag) :
    State → Wave → Split → State :=
  fun s w p => (s.clearWritten w d.toNat (on w p)).putWave
    ((w.writeV d.toNat (on w p) (value w p) (tag w p)).advance (p.busy [d.toNat]))

/-- Word `i` is a class-C word (R160, R85): in each lane of `on` it computes `exact`, which `out` rounds or reduces. Where the range or the
invalid test traps it has no other effect; otherwise it writes the lanes, the flags and the tag, and c advances under SRF if it rounds. -/
def classWord (i : Instr) (d : Byte) (exact : Wave → Split → Nat → Exact) (out : Wave → Split → Nat → Val → LaneOut)
    (tag : Wave → Tag) (rounds : Wave → Bool) : Prop :=
  leadsTo i (fun _ w p => w.classTrap (w.classRows (w.active p) (exact w p) (out w p)) = none)
    (fun s w p => s.classNext w p d.toNat (w.active p) (w.classRows (w.active p) (exact w p) (out w p)) (tag w) (rounds w)) ∧
  ∀ s w p cause bad, s.fronts w p → s.unhindered w p i = true →
    w.classTrap (w.classRows (w.active p) (exact w p) (out w p)) = some (cause, bad) →
    exec i s = .next (s.takeTrap w (p.stamp i s.slots) cause p.pc 0 bad)

/-- The exact value of an elementwise word of two sources in form C: `real` in a real class, `int` in an int or index class. -/
def binaryExact (a b : Byte) (real : Bool → Val → Val → Exact) (int : Int → Int → Exact) : Wave → Split → Nat → Exact :=
  fun w _ l =>
    if w.C.compute.kind = .real then real (mrRound w.a.mr == 2) (w.srcVal a (.cls w.C) l) (w.srcVal b (.cls w.C) l)
    else int (w.srcVal a (.cls w.C) l).toInt (w.srcVal b (.cls w.C) l).toInt

/-- The exact value of an elementwise word of one source in form C. -/
def unaryExact (a : Byte) (real : Val → Exact) (int : Int → Exact) : Wave → Split → Nat → Exact :=
  fun w _ l => if w.C.compute.kind = .real then real (w.srcVal a (.cls w.C) l) else int (w.srcVal a (.cls w.C) l).toInt

/-- A class-C word whose result is formed as R160, step 3, says, with the lane's own draw; it rounds in a real class. -/
def formedWord (i : Instr) (d : Byte) (exact : Wave → Split → Nat → Exact) (tag : Wave → Tag) : Prop :=
  classWord i d exact (fun w _ => w.usual) tag fun w => w.C.compute.kind == .real

/-- After a bitwise or raw word: lane l of vD receives `f` in the active lanes. -/
def afterRaw (d : Byte) (f : Wave → Nat → Word32) (tag : Wave → Tag) : State → Wave → Split → State :=
  afterVector d (fun w p => w.active p) (fun w _ => f w) (fun w _ => tag w)

/-- After a word whose control effect is complete in `f w p`: it retires, and the scoreboard is as the split carries it. -/
def afterControl (f : Wave → Split → Wave) : State → Wave → Split → State := fun s w p => s.putWave ((f w p).retire p)

/-- After a word that sends its whole split to an address. -/
def afterJump (pc : Wave → Split → Nat) : State → Wave → Split → State :=
  afterControl fun w p => w.setSplit { p with pc := pc w p }

/-- The registers of a wave that an instruction with no destination keeps: scalars of both copies, handler scalars, predicates, vector
registers, tiles, MR, MX, NS and the seeds. -/
def Wave.sameRegisters (w v : Wave) : Prop :=
  v.a.sregs = w.a.sregs ∧ v.a.sshadow = w.a.sshadow ∧ v.hregs = w.hregs ∧ v.hshadow = w.hshadow ∧ v.a.preds = w.a.preds ∧
    v.a.vregs = w.a.vregs ∧ v.a.tiles = w.a.tiles ∧ v.a.twins = w.a.twins ∧ v.a.mr = w.a.mr ∧ v.a.mx = w.a.mx ∧ v.a.ns = w.a.ns ∧
    v.a.seedlo = w.a.seedlo ∧ v.a.seedhi = w.a.seedhi ∧ v.a.sp = w.a.sp ∧ v.a.spill = w.a.spill

/-- After a word that puts an operation into the wave's queues and goes on; `before` says what else it does to the wave, `after` to the
split. -/
def afterEnqueue (ctr : Option Nat) (kind : OpKind) (mask : Mask) (pieces : List Piece) (mat : Option MatJob) (tier : Nat)
    (before : Wave → Wave) (after : Split → Split) : State → Wave → Split → State :=
  fun s w p =>
    let r := s.addOp (before w) p ctr kind mask pieces mat tier
    r.1.putWave (r.2.1.advance (after p))

/-- After an atomic whose checks have passed: it counts on `atm` if a lane's location is in main memory, and its local lanes wait at the port. -/
def afterAtomic (kind : OpKind) (mask : Mask) (pieces : List Piece) (before : Wave → Wave) : State → Wave → Split → State :=
  fun s w p =>
    let r := s.addOp (before w) p (if pieces.any fun x => decide (homeOf x.va ≠ 0xFF) then some 3 else none) kind mask pieces none 0
    let v := if pieces.any fun x => decide (homeOf x.va = 0xFF) then r.2.1.pushPort p (.atomic r.2.2) else r.2.1
    r.1.putWave (v.advance (p.opens w))

/-- After a vector load that has passed its checks: its tag is general; with an active lane the access joins the port, and vD is empty if the
access may leave the core's own store, else held by the port against its readers and writers. -/
def afterLoad (d : Byte) (on : Mask) (remote : Bool) (job : PortJob) (before : Wave → Wave) : State → Wave → Split → State :=
  fun s w p =>
    let v := (before w).onV d.toNat fun r => { r with tag := .general }
    if w.list on = [] then s.putWave (v.advance p)
    else if remote then s.putWave (((v.pushPort p job).markV d.toNat true).advance p)
    else s.putWave ((v.pushPort p job).advance (p.busy [0x400 + d.toNat]))

/-- After a store whose bytes, if any, join the port. -/
def afterStore (writes : List (LocalAt × Byte × Byte)) (before : Wave → Wave) : State → Wave → Split → State :=
  fun s w p => if writes = [] then s.putWave ((before w).advance p) else s.putWave (((before w).pushPort p (.store writes)).advance p)

/-- The bytes of a number at a place, whole, least significant first. -/
def bytesAt (at_ : LocalAt) (n x : Nat) : List (LocalAt × Byte × Byte) := (leBytes n x).zipIdx.map fun y => (at_.plus y.2, y.1, 0xFF)

/-- A check refuses with a cause for failing lanes and their addresses (R186): it reports the address of the lowest of them, and every one. -/
def refusesFor (r : Option Refused) (cause : Nat) (bad : List (Nat × Nat)) : Prop :=
  ∃ x ∈ bad, ∃ m, r = some ⟨cause, x.2, m⟩ ∧ (∀ y ∈ bad, x.1 ≤ y.1) ∧ ∀ l, m.has l = true ↔ l < 1024 ∧ l ∈ bad.map Prod.fst

/-- A check judges the bounds of every lane before the alignment of any (R186): `far` and `odd` are the lanes that fail the one and the other, with
the addresses to report. -/
def judges (r : Option Refused) (far odd : List (Nat × Nat)) : Prop :=
  (far ≠ [] → refusesFor r 0x09 far) ∧ (far = [] → odd ≠ [] → refusesFor r 0x08 odd) ∧ (far = [] → odd = [] → r = none)

/-- What launch `k` writes lands in the homes' own memory: it has no shadows and no trace log, and no bit error is about. -/
def State.plainFor (s : State) (k : Nat) : Prop :=
  s.softErrors = [] ∧ s.shadows = [] ∧ s.hbm.wf = true ∧ s.hostMem.wf = true ∧ ∀ l, s.launch? k = some l → l.replayable = false ∧ l.log = none

/-- Home u's memory (of a die, or of the host: 4) holds bytes from a place up. -/
def State.holdsAt (s : State) (u pa : Nat) (bs : List Byte) : Prop := ∀ j, j < bs.length → s.readPhys u (pa + j) = nth bs j 0

/-- No byte of the dies' or the host's memory but those of the given ranges, of home, place and length, differs. -/
def State.sameOutside (s t : State) (ranges : List (Nat × Nat × Nat)) : Prop :=
  ∀ u b, u ≤ 4 → b < 2 ^ 52 → (∀ r ∈ ranges, r.1 = u → b < r.2.1 ∨ r.2.1 + r.2.2 ≤ b) → t.readPhys u b = s.readPhys u b

/-- How many bytes a piece of an operation writes to main memory (R196, R199, R205). -/
def Op.extent (o : Op) (x : Piece) : Nat :=
  match x.job with
  | .write => x.data.length
  | .atomic _ _ _ => o.atomicSize
  | .cxAdd _ | .cxClear => 64
  | .read | .cxRead | .local_ => 0

/-- The bytes it writes there, over those that stand at its place (R197, R199, R200). -/
def Op.stored (s : State) (o : Op) (u pa : Nat) (x : Piece) : Option (List Byte) :=
  let old (n : Nat) : Nat := leNat (s.readPhysBytes u pa n)
  match x.job with
  | .write => some (x.data.map fun b => b.getD 0)
  | .atomic f operand compare => (atomicNew f o.atomicSize (old o.atomicSize) operand compare).map (leBytes o.atomicSize)
  | .cxAdd v => some (leBytes 64 ((CxCell.ofNat (old 64)).add v).toNat)
  | .cxClear => some (leBytes 64 0)
  | .read | .cxRead | .local_ => none

/-- Does a rounding code (R51, R53) take the upper one of the neighbours of a magnitude V, with codes `lo` and `hi` and magnitudes L and H, on one scale?
None where a tie is between codes of one parity, and for code 7. -/
def takesUpper (c : RoundCtl) (neg : Bool) (lo hi L H V : Nat) : Option Bool :=
  match c.code with
  | 0 => if 2 * V < L + H then some false else if L + H < 2 * V then some true else if lo % 2 = hi % 2 then none else some (hi % 2 == 0)
  | 1 => some false
  | 2 => some neg
  | 3 => some !neg
  | 4 => some (decide (L + H ≤ 2 * V))
  | 5 | 6 => some (decide (65536 ≤ 65536 * (V - L) / (H - L) + c.r))
  | _ => none

/-- Does the rounding direction point toward zero (R52)? -/
def RoundCtl.inward (c : RoundCtl) (neg : Bool) : Bool := c.code == 1 || c.code == 2 && !neg || c.code == 3 && neg

/-- Main memory in canonical form: of the dies, of the host and of the peers. -/
def State.mainCanonical (s : State) : Bool := s.hbm.wf && s.hostMem.wf && s.peerMem.wf

/-- Local memory in canonical form: every crew's store and every launch's marver allotments. -/
def State.localCanonical (s : State) : Bool :=
  s.crews.all (fun c => c.store.wf) && s.launches.all fun l => l.marver.all fun x => x.2.wf

/-- No byte of any memory that a program can read differs: main memory, host and peer memory, shadows, every crew store and marver
allotment. -/
def State.sameMemory (s t : State) : Prop :=
  t.hbm = s.hbm ∧ t.hostMem = s.hostMem ∧ t.peerMem = s.peerMem ∧ t.shadows = s.shadows ∧ t.crews = s.crews ∧ t.launches = s.launches

end Sys2Proof.Machine
end

