-- ==== Sys2Proof/Certificates/Slice0/Obligations.lean ====
section
/-! DEFINITION. The statements for the provers, from the spec's numbered rules. A statement about a word names, with `leadsTo`, the whole
state it leads to: everything not named in it is unchanged. -/

open Sys2Proof Sys2Proof.Machine

/-! ### Class 00 -/

/-- R132: what each arithmetic and logic word puts in sD, in each scalar copy (R131); nothing else changes but the split's pc, its scoreboard and the
counts of retiring. R132: division truncates toward zero; a zero divisor gives 0 and sets divzero, and −2^63 / −1 is −2^63 with remainder 0. `scmov`
writes the copies whose S(B) is not zero; with both zero it writes nothing. That divzero is set when the divisor of either copy is zero is the model's
choice (log 24, DEDUCED). -/
def Obligations.ScalarArithmeticResults : Prop :=
  (∀ d a b : Byte,
      leadsTo (.sadd d a b) anyState (afterBinary d a b fun x y => x + y) ∧
      leadsTo (.ssub d a b) anyState (afterBinary d a b fun x y => x - y) ∧
      leadsTo (.smul d a b) anyState (afterBinary d a b fun x y => x * y) ∧
      leadsTo (.smulh d a b) anyState (afterBinary d a b fun x y => (x.signExtend 128 * y.signExtend 128).extractLsb' 64 64) ∧
      leadsTo (.smulhu d a b) anyState (afterBinary d a b fun x y => (x.setWidth 128 * y.setWidth 128).extractLsb' 64 64) ∧
      leadsTo (.sand d a b) anyState (afterBinary d a b fun x y => x &&& y) ∧
      leadsTo (.sor d a b) anyState (afterBinary d a b fun x y => x ||| y) ∧
      leadsTo (.sxor d a b) anyState (afterBinary d a b fun x y => x ^^^ y) ∧
      leadsTo (.sshl d a b) anyState (afterBinary d a b fun x y => x <<< (y.toNat % 64)) ∧
      leadsTo (.sshr d a b) anyState (afterBinary d a b fun x y => x >>> (y.toNat % 64)) ∧
      leadsTo (.ssra d a b) anyState (afterBinary d a b fun x y => x.sshiftRight (y.toNat % 64)) ∧
      leadsTo (.smin d a b) anyState (afterBinary d a b fun x y => if x.toInt ≤ y.toInt then x else y) ∧
      leadsTo (.smax d a b) anyState (afterBinary d a b fun x y => if y.toInt ≤ x.toInt then x else y) ∧
      leadsTo (.sminu d a b) anyState (afterBinary d a b fun x y => if x.toNat ≤ y.toNat then x else y) ∧
      leadsTo (.smaxu d a b) anyState (afterBinary d a b fun x y => if y.toNat ≤ x.toNat then x else y) ∧
      leadsTo (.scmov d a b) (fun _ w _ => w.S b.toNat ≠ 0 ∨ w.Sh b.toNat ≠ 0) (afterScalar d
        (fun w => if w.S b.toNat = 0 then w.S d.toNat else w.S a.toNat)
        (fun w => if w.Sh b.toNat = 0 then w.Sh d.toNat else w.Sh a.toNat)) ∧
      leadsTo (.scmov d a b) (fun _ w _ => w.S b.toNat = 0 ∧ w.Sh b.toNat = 0) (fun s w p => s.putWave (w.advance p))) ∧
  (∀ d a b : Byte,
      leadsTo (.sdiv d a b) anyState (afterDivision d a b fun x y => if y = 0 then 0 else x.sdiv y) ∧
      leadsTo (.sdivu d a b) anyState (afterDivision d a b fun x y => if y = 0 then 0 else x.udiv y) ∧
      leadsTo (.srem d a b) anyState (afterDivision d a b fun x y => if y = 0 then 0 else x.srem y) ∧
      leadsTo (.sremu d a b) anyState (afterDivision d a b fun x y => if y = 0 then 0 else x.umod y))

/-- R132, R133: counts of bits, moves, and bit fields. R134: a compare writes its condition into pD in every lane of the issuing split, whatever
the guard; shadow lanes receive that of the shadow copies. -/
def Obligations.ScalarBitAndCompareResults : Prop :=
  (∀ d a b : Byte,
      leadsTo (.smov d a) anyState (afterUnary d a fun x => x) ∧
      leadsTo (.spopc d a) anyState (afterUnary d a fun x => BitVec.ofNat 64 ((List.range 64).countP fun k => x.getLsbD k)) ∧
      leadsTo (.sclz d a) anyState
        (afterUnary d a fun x => BitVec.ofNat 64 ((List.range 64).takeWhile fun k => !x.getLsbD (63 - k)).length) ∧
      leadsTo (.sctz d a) anyState
        (afterUnary d a fun x => BitVec.ofNat 64 ((List.range 64).takeWhile fun k => !x.getLsbD k).length) ∧
      leadsTo (.sbfx d a b) anyState (afterBinary d a b fun x y =>
        let pos := (y.extractLsb' 0 6).toNat
        let hi := min (pos + (y.extractLsb' 8 6).toNat) 63
        let f := x.extractLsb' pos (hi - pos + 1)
        if y.getLsbD 16 then f.signExtend 64 else f.setWidth 64) ∧
      leadsTo (.sbfi d a b) anyState (
        let insert (x y z : Word64) : Word64 :=
          let pos := (z.extractLsb' 0 6).toNat
          let hi := min (pos + (z.extractLsb' 8 6).toNat) 63
          let m : Word64 := (BitVec.allOnes 64 >>> (63 - (hi - pos))) <<< pos
          (x &&& ~~~m) ||| ((y <<< pos) &&& m)
        afterScalar d (fun w => insert (w.S d.toNat) (w.S a.toNat) (w.S b.toNat))
          (fun w => insert (w.Sh d.toNat) (w.Sh a.toNat) (w.Sh b.toNat)))) ∧
  (∀ d a b : Byte,
      let writes (i : Instr) (c : Word64 → Word64 → Bool) : Prop :=
        ∃ m : Wave → Mask,
          (∀ w k, k < 1024 → (m w).has k = if w.isShadow k then c (w.Sh a.toNat) (w.Sh b.toNat) else c (w.S a.toNat) (w.S b.toNat)) ∧
            leadsTo i anyState (afterPred d (fun _ p => p.lanes) (fun w _ => m w))
      writes (.sceq d a b) (fun x y => decide (x = y)) ∧ writes (.scne d a b) (fun x y => decide (x ≠ y)) ∧
        writes (.sclt d a b) (fun x y => decide (x.toInt < y.toInt)) ∧ writes (.scle d a b) (fun x y => decide (x.toInt ≤ y.toInt)) ∧
        writes (.scltu d a b) (fun x y => decide (x.toNat < y.toNat)) ∧ writes (.scleu d a b) (fun x y => decide (x.toNat ≤ y.toNat)))

/-- R135: the immediate words. -/
def Obligations.ScalarImmediateResults : Prop :=
  ∀ (d : Byte) (i : BitVec 16) (n : BitVec 6),
    leadsTo (.sli d i) anyState (afterScalar d (fun _ => i.signExtend 64) (fun _ => i.signExtend 64)) ∧
    leadsTo (.slih d i) anyState (afterUnary d d fun x => x.extractLsb' 32 32 ++ i ++ x.extractLsb' 0 16) ∧
    leadsTo (.slix d i) anyState (afterUnary d d fun x => x.extractLsb' 48 16 ++ i ++ x.extractLsb' 0 32) ∧
    leadsTo (.sliy d i) anyState (afterUnary d d fun x => i ++ x.extractLsb' 0 48) ∧
    leadsTo (.saddi d i) anyState (afterUnary d d fun x => x + i.signExtend 64) ∧
    leadsTo (.sandi d i) anyState (afterUnary d d fun x => x &&& i.setWidth 64) ∧
    leadsTo (.sori d i) anyState (afterUnary d d fun x => x ||| i.setWidth 64) ∧
    leadsTo (.sxori d i) anyState (afterUnary d d fun x => x ^^^ i.setWidth 64) ∧
    leadsTo (.sshli d n) anyState (afterUnary d d fun x => x <<< n.toNat) ∧
    leadsTo (.sshri d n) anyState (afterUnary d d fun x => x >>> n.toNat) ∧
    leadsTo (.ssrai d n) anyState (afterUnary d d fun x => x.sshiftRight n.toNat) ∧
    leadsTo (.smuli d i) anyState (afterUnary d d fun x => x * i.signExtend 64)

/-- R127, R136: `sread` puts a special register in sD, zero-extended; NS after the loads issued before it, for which it waits (R62). `cycles`
outside deterministic mode is the model's clock (log 7) since the wave's creation. R138, R139: `sgetv` puts lane j of v(A), zero-extended, into
sD, zero where j is out of range or vacant, and sD is empty until that write lands; `sldp` puts the eight bytes of the launch's parameter
snapshot at the offset. R262: `bindq` writes a half of the record entry of the class in bits 7:0 of S(A), zero where the record has none; half 1 is e.
That a handler of another object reads the record of the wave's own kernel is the model's choice (log 24, DEDUCED). -/
def Obligations.ReadsIntoScalars : Prop :=
  ((∀ d a : Byte, leadsTo (.sread d a) (fun _ w _ => a = 0x0C → w.flagsPending = false)
      (fun s w p => afterScalar d (fun _ => s.special w a.toNat) (fun _ => s.special w a.toNat) s w p)) ∧
    (∀ d : Byte, leadsTo (.sread d 0x0C) (fun _ w _ => w.flagsPending = true) (fun s _ _ => s)) ∧
    ∀ (s : State) (w : Wave),
      s.special w 0x01 = BitVec.ofNat 64 w.a.retired ∧ s.special w 0x02 = BitVec.ofNat 64 w.ordinal ∧
      s.special w 0x04 = BitVec.ofNat 64 w.core ∧ s.special w 0x05 = BitVec.ofNat 64 (w.core / 40) ∧
      s.special w 0x08 = BitVec.ofNat 64 w.kern.width ∧ s.special w 0x0A = w.a.mr ∧ s.special w 0x0B = w.a.mx ∧
      s.special w 0x0C = w.a.ns.setWidth 64 ∧ s.special w 0x0E = w.a.sp.setWidth 64 ∧ s.special w 0x0F = w.a.mxbase.setWidth 64 ∧
      s.special w 0x10 = w.a.mxplane.setWidth 64 ∧ s.special w 0x11 = w.a.seedlo ∧ s.special w 0x12 = w.a.seedhi ∧
      s.special w 0x14 = w.trapcause.setWidth 64 ∧ s.special w 0x15 = w.trappc ∧ s.special w 0x16 = w.trapaddr ∧
      s.special w 0x17 = w.trapmask ∧ s.special w 0x19 = BitVec.ofNat 64 w.kern.tier ∧
      s.special w 0x1A = (nth s.faccept 0 0).setWidth 64 ∧ s.special w 0x1B = BitVec.ofNat 64 w.kern.temperVa ∧
      (s.deterministic w = true → s.special w 0x00 = s.special w 0x01) ∧
      (s.deterministic w = false → s.special w 0x00 = BitVec.ofNat 64 (s.clock - w.created)) ∧
      (∀ c, s.crew? w.crew = some c → s.special w 0x03 = BitVec.ofNat 64 c.ordinal) ∧
      (∀ c, s.context? w.ctx = some c → s.special w 0x0D = c.eb) ∧
      (∀ l, s.launch? w.launch = some l →
        s.special w 0x06 = BitVec.ofNat 64 l.desc.launchid ∧ s.special w 0x07 = BitVec.ofNat 64 l.depth ∧
        s.special w 0x09 = BitVec.ofNat 64 (l.desc.ex * l.desc.ey * l.desc.ez - l.dealer) ∧
        s.special w 0x13 = BitVec.ofNat 64 l.desc.params) ∧
      (∀ k < 5, w.counter k < 256 → w.counter 0 < 256 → w.counter 1 < 256 → w.counter 2 < 256 → w.counter 3 < 256 →
        ((s.special w 0x18).extractLsb' (8 * k) 8).toNat = w.counter k)) ∧
  ((∀ d a b : Byte, leadsTo (.sgetv d a b) anyState
      (fun s w p => afterWord (fun w _ =>
        let lane (j : Word64) (shadow : Bool) : Word64 :=
          let i := if w.paired then 2 * j.toNat else j.toNat
          if j.toNat < w.V ∧ w.a.live.has i = true then (w.V_ a.toNat (if w.paired ∧ shadow = true then i + 1 else i)).setWidth 64 else 0
        (w.setS d.toNat (lane (w.S b.toNat) false) (lane (w.Sh b.toNat) true)).markS (w.sidx d.toNat) true)
        (if d = 0 then [] else [0x800 + w.sidx d.toNat]) (s.clearScalar w (w.sidx d.toNat)) w p)) ∧
    ∀ (d : Byte) (n : BitVec 13) (l : Launch),
      leadsTo (.sldp d n) (fun s w _ => s.launch? w.launch = some l)
        (afterScalar d (fun _ => BitVec.ofNat 64 (leNat ((l.params.drop (8 * n.toNat)).take 8)))
          (fun _ => BitVec.ofNat 64 (leNat ((l.params.drop (8 * n.toNat)).take 8))))) ∧
  (∀ d a b : Byte, leadsTo (.bindq d a b) anyState
    (afterScalar d (fun w => w.kern.recordHalf ((w.S a.toNat).toNat % 256) b.toNat)
      fun w => w.kern.recordHalf ((w.Sh a.toNat).toNat % 256) b.toNat)) ∧
  ∀ (o : Object) (c half : Nat),
    (o.classRec c = none → o.recordHalf c half = 0) ∧ ∀ r, o.classRec c = some r → o.recordHalf c 1 = r.e ∧ o.recordHalf c 0 = r.word

/-- R127, R136, R118, R131: `swrite` replaces the special register, or the bits R127 names, with S(B) of the primary; copies that differ are a
mismatch, and NS waits for the loads issued before it (R62). A value that is not legal for MR, MX, mxbase or mxplane traps ILLOP and writes
nothing: for MR and MX one with a reserved bit set, with the rounding code 7, or with a class id without an entry in the kernel's temper record
(log 24: the wave's kernel, in a handler of another object too). -/
def Obligations.SpecialRegisterWrites : Prop :=
  (∀ b : Byte,
    let same (w : Wave) : Prop := w.S b.toNat = w.Sh b.toNat
    let writes (n : Byte) (ok : Wave → Prop) (f : Wave → Word64 → Wave) : Prop :=
      leadsTo (.swrite n b) (fun _ w _ => same w ∧ ok w) (afterWord (fun w _ => f w (w.S b.toNat)) [])
    let traps (n : Byte) (bad : Wave → Prop) : Prop :=
      leadsTo (.swrite n b) (fun _ w _ => same w ∧ bad w) (fun s w p => s.takeTrap w p 0x01 p.pc 0 (w.active p))
    let refused (n : Byte) (bad : Wave → Prop) : Prop :=
      ∀ s w p, s.fronts w p → w.scalarThere b.toNat = true → bad w →
        exec (.swrite n b) s = .next (s.takeTrap w p 0x01 p.pc 0 (w.active p))
    writes 0x0A (fun w => w.mrLegal (w.S b.toNat) = true) (fun w x => { w with a := { w.a with mr := x } }) ∧
    refused 0x0A (fun w => w.mrLegal (w.S b.toNat) = false) ∧
    writes 0x0B (fun w => w.mxLegal (w.S b.toNat) = true) (fun w x => { w with a := { w.a with mx := x } }) ∧
    refused 0x0B (fun w => w.mxLegal (w.S b.toNat) = false) ∧
    writes 0x0C (fun w => w.flagsPending = false) (fun w x => { w with a := { w.a with ns := x.extractLsb' 0 7 } }) ∧
    leadsTo (.swrite 0x0C b) (fun _ w _ => same w ∧ w.flagsPending = true) (fun s _ _ => s) ∧
    leadsTo (.swrite 0x0D b) (fun _ w _ => same w)
      (fun s w p => (s.onContext w.ctx fun c => { c with eb := w.S b.toNat }).putWave (w.advance p)) ∧
    writes 0x0E (fun _ => True) (fun w x => { w with a := { w.a with sp := x.extractLsb' 0 32 } }) ∧
    writes 0x0F (fun w => (w.S b.toNat).toNat < 2 ^ 32) (fun w x => { w with a := { w.a with mxbase := x.extractLsb' 0 32 } }) ∧
    traps 0x0F (fun w => 2 ^ 32 ≤ (w.S b.toNat).toNat) ∧
    writes 0x10 (fun w => (w.S b.toNat).toNat < 2 ^ 32) (fun w x => { w with a := { w.a with mxplane := x.extractLsb' 0 32 } }) ∧
    traps 0x10 (fun w => 2 ^ 32 ≤ (w.S b.toNat).toNat) ∧
    writes 0x11 (fun _ => True) (fun w x => { w with a := { w.a with seedlo := x } }) ∧
    writes 0x12 (fun _ => True) (fun w x => { w with a := { w.a with seedhi := x } }) ∧
    writes 0x14 (fun _ => True) (fun w x => { w with trapcause := x.extractLsb' 0 8 }) ∧
    writes 0x15 (fun _ => True) (fun w x => { w with trappc := x }) ∧
    writes 0x16 (fun _ => True) (fun w x => { w with trapaddr := x }) ∧
    writes 0x17 (fun _ => True) (fun w x => { w with trapmask := x }) ∧
    ∀ n, leadsTo (.swrite n b) (fun _ w _ => ¬same w) scalarMismatch) ∧
  ∀ (w : Wave) (x : Word64),
    (w.mrLegal x = false ↔ x.extractLsb' 24 40 ≠ 0 ∨ x.extractLsb' 0 8 ≠ 0 ∨ x.extractLsb' 9 3 = 7 ∨
      w.kern.classRec (x.extractLsb' 16 8).toNat = none) ∧
    (w.mxLegal x = false ↔ x.extractLsb' 24 40 ≠ 0 ∨ x.extractLsb' 0 3 ≠ 0 ∨ w.kern.classRec (x.extractLsb' 16 8).toNat = none)

/-- R185-R187, R192, R197, R198, R223: where a local access lands, and what the address checks report. A crew-store address is in bounds up to the
header's crewstore, a marver address up to the header's marver, a window address in the store of the crew of this launch of the lowest ordinal placed
on the core it names; every other address is out of bounds. A scalar access passes exactly when bits 63:32 are zero or 0xFF00_0000, it is in bounds,
and it is aligned; bounds are tested before alignment. A scalar access that fails, and a descriptor at a scalar's address, reports the address it
failed at, whole where bits 63:32 are wrong and else the local one, with the split's active lanes or those given. A check over lanes tests the bounds
of every lane before the alignment of any, and reports the lowest failing lane's address and every lane that fails; a check over elements reports the
first failing one; a failing byte of B fails every active lane. That a lane of a block group fails which differs from the group's lowest active one,
that bits 55:32 and a cell are reported with the whole address, and that A's failing byte is reported before B's, is log 23 (DEDUCED). -/
def Obligations.LocalAddressRules : Prop :=
  (∀ (s : State) (w : Wave) (a n : Nat),
    (a < 0x40000 → s.resolve w a n = if a + n ≤ w.kern.crewstore then some (.crew w.crew a) else none) ∧
    (0x10000000 ≤ a → a < 0x14800000 →
      s.resolve w a n = if a - 0x10000000 + n ≤ w.kern.marver then some (.marver w.launch (w.core / 40) (a - 0x10000000)) else none) ∧
    (∀ k o, k < 8 → o < 0x40000 → a = 0x20000000 + 0x40000 * k + o → ∀ at_, s.resolve w a n = some at_ →
      ∃ c ∈ s.crews, at_ = .crew c.key o ∧ o + n ≤ w.kern.crewstore ∧ c.launch = w.launch ∧ c.core = w.core / 8 * 8 + k ∧
        c.placed = true ∧ ∀ c' ∈ s.crews, c'.launch = w.launch → c'.core = w.core / 8 * 8 + k → c'.placed = true → c.ordinal ≤ c'.ordinal) ∧
    (∀ k o, k < 8 → o < 0x40000 → a = 0x20000000 + 0x40000 * k + o → o + n ≤ w.kern.crewstore →
      (∃ c ∈ s.crews, c.launch = w.launch ∧ c.core = w.core / 8 * 8 + k ∧ c.placed = true) → (s.resolve w a n).isSome = true) ∧
    (0x40000 ≤ a ∧ a < 0x10000000 ∨ 0x14800000 ≤ a ∧ a < 0x20000000 ∨ 0x20200000 ≤ a → s.resolve w a n = none)) ∧
  (∀ (s : State) (w : Wave) (accs : List Access),
    let far (x : Access) : Bool := (s.resolve w x.addr x.size).isNone
    let odd (x : Access) : Bool := x.addr % x.align != 0
    judges (s.checkLanes w accs) ((accs.filter far).map fun x => (x.lane, x.addr)) ((accs.filter odd).map fun x => (x.lane, x.addr)) ∧
    (∀ m, (∀ before x after, accs = before ++ x :: after →
        (far x = true → (∀ y ∈ before, far y = false) → s.checkElems w m accs = some ⟨0x09, x.addr, m⟩) ∧
        (odd x = true → (∀ y ∈ accs, far y = false) → (∀ y ∈ before, odd y = false) → s.checkElems w m accs = some ⟨0x08, x.addr, m⟩)) ∧
      ((∀ y ∈ accs, far y = false ∧ odd y = false) → s.checkElems w m accs = none)) ∧
    ∀ (m : Mask) (n : Nat),
      let as_ := accs.take n
      let bs := accs.drop n
      let reports (cause : Nat) (bad : Access → Bool) : Prop := ∃ x r, s.checkOperands w m as_ bs = some ⟨cause, x.addr, r⟩ ∧
        accs.find? bad = some x ∧ ((∃ y ∈ bs, bad y = true) → r = m) ∧
        ((∀ y ∈ bs, bad y = false) → ∀ l, r.has l = true ↔ l < 1024 ∧ ∃ y ∈ as_, bad y = true ∧ y.lane = l)
      ((∃ x ∈ accs, far x = true) → reports 0x09 far) ∧
      ((∀ x ∈ accs, far x = false) → (∃ x ∈ accs, odd x = true) → reports 0x08 odd) ∧
      ((∀ x ∈ accs, far x = false ∧ odd x = false) → s.checkOperands w m as_ bs = none)) ∧
  (∀ (s : State) (w : Wave) (lanes : List Nat) (e : Nat → Nat) (n : Nat),
    let isLocal (l : Nat) : Bool := homeOf (e l) == 0xFF
    let high (l : Nat) : Bool := e l / 2 ^ 32 % 2 ^ 24 != 0
    let shown (l : Nat) : Nat := if isLocal l = true then e l % 2 ^ 32 else e l
    judges (s.check64 w lanes e n)
      ((lanes.filter fun l => isLocal l && (high l || (s.resolve w (e l % 2 ^ 32) n).isNone)).map fun l => (l, if high l = true then e l else e l % 2 ^ 32))
      ((lanes.filter fun l => e l % n != 0).map fun l => (l, shown l)) ∧
    judges (s.checkCells w lanes e)
      ((lanes.filter fun l => isLocal l && (high l || e l % 2 ^ 32 < 0x10000000 || 0x14800000 ≤ e l % 2 ^ 32 ||
        (s.resolve w (e l % 2 ^ 32) 64).isNone)).map fun l => (l, e l))
      ((lanes.filter fun l => e l % 64 != 0).map fun l => (l, e l))) ∧
  (∀ (s : State) (w : Wave) (f : Fmt) (on : Mask) (addr : Nat → Nat),
    let lanes := w.list on
    (f.packed = false →
      s.checkClass w f on addr = s.checkLanes w (lanes.map fun l => ⟨l, addr l, f.bits / 8, f.bits / 8⟩)) ∧
    (f.packed = true →
      let scale (l : Nat) : List Nat := if f.isMX = true then (w.scaleAddr f (addr l)).toList else []
      let group (l k : Nat) : Bool := w.visible k / 32 == w.visible l / 32 && w.isShadow k == w.isShadow l
      judges (s.checkClass w f on addr)
        (lanes.flatMap fun l => ((if (s.resolve w (addr l) f.blockBytes).isNone then [addr l] else []) ++
          (scale l).filter fun x => (s.resolve w x 1).isNone).map fun x => (l, x))
        ((lanes.filter fun l => addr l % 8 != 0 || (f.isMX && (w.scaleAddr f (addr l)).isNone) ||
          ((lanes.find? (group l)).map addr).getD (addr l) != addr l).map fun l => (l, addr l)))) ∧
  ∀ (s : State) (w : Wave) (p : Split) (e : Word64) (n l : Nat), 0 < n →
    (s.checkScalar w p e n = .ok l ↔
      (e.toNat / 2 ^ 32 = 0 ∨ e.toNat / 2 ^ 32 = 0xFF000000) ∧ l = e.toNat % 2 ^ 32 ∧ (s.resolve w l n).isSome = true ∧ l % n = 0) ∧
    let l := e.toNat % 2 ^ 32
    let wide : Prop := e.toNat / 2 ^ 32 ≠ 0 ∧ e.toNat / 2 ^ 32 ≠ 0xFF000000
    (wide → s.checkScalar w p e n = .error ⟨0x09, e.toNat, w.active p⟩) ∧
    (¬wide → (s.resolve w l n).isNone = true → s.checkScalar w p e n = .error ⟨0x09, l, w.active p⟩) ∧
    (¬wide → (s.resolve w l n).isSome = true → l % n ≠ 0 → s.checkScalar w p e n = .error ⟨0x08, l, w.active p⟩) ∧
    ∀ m : Mask,
      (wide → s.descAt w e n m = .error ⟨0x09, e.toNat, m⟩) ∧
      (¬wide → (s.resolve w l n).isNone = true → s.descAt w e n m = .error ⟨0x09, l, m⟩) ∧
      (¬wide → (s.resolve w l n).isSome = true → l % n ≠ 0 → s.descAt w e n m = .error ⟨0x08, l, m⟩) ∧
      ∀ at_, ¬wide → s.resolve w l n = some at_ → l % n = 0 → s.descAt w e n m = .ok at_

/-- R137, R131, R269: a scalar load or store that passes its checks joins the wave's local port; a load holds its split until the port performs it,
and its register against other readers and writers (R130), a store with the copies equal goes on. A failing address, of a load's shadow copy too,
traps LOCALBOUND or ALIGN before any access; a store whose copies of address or data differ is a mismatch. That a store compares its copies before its
address is checked, so that copies that differ are a mismatch even where the address would trap, is the model's choice (log 23, DEDUCED).
That a load whose shadow copy's address alone fails traps with that address, and with the primary's where both fail, is the model's choice (log 23,
DESIGN CHOICE), and so is that the compare of `sstw` looks at all 64 bits of the data. -/
def Obligations.ScalarLocalAccessIssues : Prop :=
  ∀ d a b : Byte,
    let e (w : Wave) : Word64 := w.S a.toNat + w.S b.toNat
    let es (w : Wave) : Word64 := w.Sh a.toNat + w.Sh b.toNat
    let load (i : Instr) (n : Nat) : Prop :=
      (∀ l ls, leadsTo i (fun s w p => s.checkScalar w p (e w) n = .ok l ∧ s.checkScalar w p (es w) n = .ok ls)
        (fun s w p => s.putWave
          ((w.pushPort p (.sload (w.sidx d.toNat) n (s.placeOf w l n) (s.placeOf w ls n))).advance { p with status := .onPort }))) ∧
      (∀ r, leadsTo i (fun s w p => s.checkScalar w p (e w) n = .error r) (fun s w p => s.takeTrap w p r.cause p.pc r.addr r.mask)) ∧
      ∀ l r, leadsTo i (fun s w p => s.checkScalar w p (e w) n = .ok l ∧ s.checkScalar w p (es w) n = .error r)
        (fun s w p => s.takeTrap w p r.cause p.pc r.addr r.mask)
    let store (i : Instr) (n : Nat) : Prop :=
      let same (w : Wave) : Prop := e w = es w ∧ w.S d.toNat = w.Sh d.toNat
      (∀ l, leadsTo i (fun s w p => same w ∧ s.checkScalar w p (e w) n = .ok l)
        (fun s w p => s.putWave ((w.pushPort p (.store
          ((leBytes n (w.S d.toNat).toNat).zipIdx.map fun x => ((s.placeOf w l n).plus x.2, x.1, 0xFF)))).advance p))) ∧
      (∀ r, leadsTo i (fun s w p => same w ∧ s.checkScalar w p (e w) n = .error r)
        (fun s w p => s.takeTrap w p r.cause p.pc r.addr r.mask)) ∧
      leadsTo i (fun _ w _ => ¬same w) scalarMismatch
    load (.sldl d a b) 8 ∧ load (.sldw d a b) 4 ∧ store (.sstl d a b) 8 ∧ store (.sstw d a b) 4 ∧
    ∀ (w : Wave) (x : PortAcc) (n k : Nat) (at_ shadowAt : LocalAt), x ∈ w.port → x.job = .sload k n at_ shadowAt → k ≠ 0 → 0xC00 + k ∈ w.boards

/-! ### Rounding -/

/-- R39-R42, R44, R45, R47-R56, R61: what forming a value in a format gives, under every rounding code. `V` is the magnitude of the exact value, and `P k`
that of the code k, on the scale 2^e0; `next` is Max + g. A value that a code has is that code; any other lies between two neighbouring codes, of which
the rounding code takes one (`takesUpper`); one from `next` on, or rounded to it, is an overflow. The floating layouts, with the width w of a magnitude's
code, the fraction bits f, the bias and Max's code `top`; GR8, with its bands; the integer and index formats, which always saturate in a conversion; the
flags; MX blocks; and the draws of SRF and SRD, a shadow lane's with its primary's item and c (R55). A value with a sticky tail (a quotient, a root)
lies just above m · 2^e, and is given to enough bits. The model's choices in it: a value of exactly Max + g that rounds toward zero is no overflow (log
48, DEDUCED). A tie of two GR8 codes of one parity is left out, as the rule names no neighbour (log 8). -/
def Obligations.RoundingResults : Prop :=
  (∀ (s : Machine.Float) (w f : Nat) (bias : Int) (top : Nat), (s, w, f, bias, top) ∈
      [(Machine.Float.fp32, 31, 23, 127, 0x7F7FFFFF), (.bf16, 15, 7, 127, 0x7F7F), (.fp16, 15, 10, 15, 0x7BFF), (.e4m3, 7, 3, 7, 0x7E),
        (.e5m2, 7, 2, 15, 0x7B), (.e3m2, 5, 2, 3, 0x1F), (.e2m3, 5, 3, 1, 0x1F), (.e2m1, 3, 1, 1, 0x7)] →
    let M (k : Nat) : Nat := if k / 2 ^ f = 0 then k else 2 ^ f + k % 2 ^ f
    let Q (k : Nat) : Int := (max (k / 2 ^ f) 1 : Nat) - bias - f
    let sg (neg : Bool) : Nat := if neg then 2 ^ w else 0
    let overflow (el : Bool) (c : RoundCtl) (neg dir : Bool) (r : Rounded) : Prop :=
      (el = true ∨ w < 7 ∨ c.sat = true ∨ dir = true ∧ c.inward neg → r = ⟨sg neg + top, true, false⟩) ∧
      (¬(el = true ∨ w < 7 ∨ c.sat = true ∨ dir = true ∧ c.inward neg) →
        r = ⟨(if s = .e4m3 then 0 else sg neg) + top + 1, true, false⟩)
    (∀ neg k, k ≤ top → s.decode (sg neg + k) = .num neg (M k) (Q k) false) ∧
    (7 ≤ w → ∀ neg, (s ≠ .e4m3 → s.decode (sg neg + top + 1) = .inf neg) ∧
      ∀ k, top + 1 < k ∨ s = .e4m3 ∧ k = top + 1 → k < 2 ^ w → (s.decode (sg neg + k)).isNan = true) ∧
    (∀ el c neg e, s.round el c (.num neg 0 e false) = ⟨sg neg, false, false⟩) ∧
    (7 ≤ w → ∀ el c q, s.round el c (.nan q) = ⟨top + 1 + if s = .e4m3 then 0 else 2 ^ (f - 1), false, false⟩) ∧
    (7 ≤ w → ∀ c neg, (s ≠ .e4m3 → s.round false c (.inf neg) = ⟨sg neg + top + 1, false, false⟩) ∧
      (s = .e4m3 → overflow false c neg false (s.round false c (.inf neg)))) ∧
    ∀ (el : Bool) (c : RoundCtl) (neg : Bool) (m : Nat) (e : Int) (st : Bool), c.code ≤ 6 → 0 < m → (st = true → 2 ^ (f + 20) ≤ m) →
      let e0 : Int := min (e - 1) (1 - bias - f)
      let V : Nat := (2 * m + st.toNat) * 2 ^ (e - 1 - e0).toNat
      let P (k : Nat) : Nat := M k * 2 ^ (Q k - e0).toNat
      let next : Nat := 2 * P top - P (top - 1)
      let r := s.round el c (.num neg m e st)
      (∀ k, k ≤ top → P k = V → r = ⟨sg neg + k, false, false⟩) ∧
      (∀ k up, k < top → P k < V → V < P (k + 1) → takesUpper c neg k (k + 1) (P k) (P (k + 1)) V = some up →
        r = ⟨sg neg + if up then k + 1 else k, false, decide (V < P (2 ^ f))⟩) ∧
      (∀ up, P top < V → V < next → takesUpper c neg top (top + 1) (P top) next V = some up →
        (up = false → r = ⟨sg neg + top, false, false⟩) ∧ (up = true → overflow el c neg true r)) ∧
      (V = next → (c.inward neg → r = ⟨sg neg + top, false, false⟩) ∧ (¬c.inward neg → overflow el c neg true r)) ∧
      (next < V → overflow el c neg true r)) ∧
  (let bands : List (Nat × Int × Nat) :=
      [(1, -15, 0), (2, -14, 0), (3, 13, 0), (4, -13, 0), (5, -12, 0), (6, 11, 0), (7, 12, 0), (8, -11, 0), (9, -10, 0), (10, -9, 0), (11, -8, 0),
        (12, 7, 0), (13, 8, 0), (14, 9, 0), (15, 10, 0), (16, -7, 1), (18, -6, 1), (20, -5, 1), (22, -4, 1), (24, 3, 1), (26, 4, 1), (28, 5, 1),
        (30, 6, 1), (32, -3, 3), (40, -2, 3), (48, 1, 3), (56, 2, 3), (64, -1, 5), (96, 0, 5)]
    let sg (neg : Bool) (k : Nat) : Nat := if k = 0 then 0 else (if neg then 0x80 else 0) + k
    (∀ k x F, (k, x, F) ∈ bands → ∀ neg j, j < 2 ^ F → gr8Decode ((if neg then 0x80 else 0) + k + j) = .num neg (2 ^ F + j) (x - F) false) ∧
    gr8Decode 0 = .num false 0 0 false ∧ gr8Decode 0x80 = .nan false ∧
    (∀ c q neg e, gr8Round c (.nan q) = ⟨0x80, false, false⟩ ∧ gr8Round c (.inf neg) = ⟨sg neg 3, true, false⟩ ∧
      gr8Round c (.num neg 0 e false) = ⟨0, false, false⟩) ∧
    ∀ (c : RoundCtl) (neg : Bool) (m : Nat) (e : Int) (st : Bool), c.code ≤ 6 → 0 < m → (st = true → 2 ^ 25 ≤ m) →
      let e0 : Int := min (e - 1) (-15)
      let V : Nat := (2 * m + st.toNat) * 2 ^ (e - 1 - e0).toNat
      let P (k : Nat) : Nat := match gr8Decode k with
        | .num _ j q _ => j * 2 ^ (q - e0).toNat
        | _ => 0
      let next : Nat := 2 * P 3 - P 7
      let r := gr8Round c (.num neg m e st)
      (∀ k, k ≤ 127 → P k = V → r = ⟨sg neg k, false, false⟩) ∧
      (∀ lo hi up, lo ≤ 127 → hi ≤ 127 → P lo < V → V < P hi → (∀ k, k ≤ 127 → P k ≤ P lo ∨ P hi ≤ P k) →
        takesUpper c neg lo hi (P lo) (P hi) V = some up → r = ⟨sg neg (if up then hi else lo), false, decide (V < P 1)⟩) ∧
      (∀ up, P 3 < V → V < next → takesUpper c neg 3 4 (P 3) next V = some up → r = ⟨sg neg 3, up, false⟩) ∧
      (V = next → (c.inward neg → r = ⟨sg neg 3, false, false⟩) ∧ (¬c.inward neg → r = ⟨sg neg 3, true, false⟩)) ∧
      (next < V → r = ⟨sg neg 3, true, false⟩)) ∧
  (∀ (f : Fmt) (n : Nat) (lo hi : Int), (f, n, lo, hi) ∈ [(Fmt.i32, 32, -(2 ^ 31), 2 ^ 31 - 1), (.i16, 16, -(2 ^ 15), 2 ^ 15 - 1), (.i8, 8, -128, 127),
      (.i4, 4, -8, 7), (.n32, 32, 0, 2 ^ 32 - 1), (.n8, 8, 0, 255)] →
    let word (z : Int) : Nat := (z % 2 ^ n).toNat
    ∀ c : RoundCtl, c.code ≤ 6 →
      (∀ q, f.convert c (.nan q) = ⟨0, true, false, false, false⟩) ∧
      (∀ neg, f.convert c (.inf neg) = ⟨word (if neg then lo else hi), false, false, false, true⟩) ∧
      ∀ (neg : Bool) (m : Nat) (e : Int) (st : Bool) (a : Nat), (st = true → e ≤ -20) →
        let e0 : Int := min (e - 1) 0
        let V : Nat := (2 * m + st.toNat) * 2 ^ (e - 1 - e0).toNat
        let U : Nat := 2 ^ (-e0).toNat
        let k := V / U
        let z : Int := if neg then -(a : Int) else a
        a * U = V ∨ k * U < V ∧ (∃ up, takesUpper c neg k (k + 1) (k * U) ((k + 1) * U) V = some up ∧ a = if up then k + 1 else k) →
        f.convert c (.num neg m e st) = ⟨word (max lo (min hi z)), false, false, false, decide (z < lo ∨ hi < z)⟩) ∧
  (∀ (c : RoundCtl) (v : Val),
    let real (r : Rounded) : Converted := ⟨r.code, false, r.ovf, r.unf, false⟩
    Fmt.fp32.convert c v = real (Machine.Float.fp32.round false c v) ∧ Fmt.bf16.convert c v = real (Machine.Float.bf16.round false c v) ∧
    Fmt.fp16.convert c v = real (Machine.Float.fp16.round false c v) ∧ Fmt.e4m3.convert c v = real (Machine.Float.e4m3.round false c v) ∧
    Fmt.e5m2.convert c v = real (Machine.Float.e5m2.round false c v) ∧ Fmt.gr8.convert c v = real (gr8Round c v)) ∧
  (∀ x : Converted, x.flags.getLsbD 0 = x.invalid ∧ x.flags.getLsbD 1 = false ∧ x.flags.getLsbD 2 = x.ovf ∧ x.flags.getLsbD 3 = x.unf ∧
    x.flags.getLsbD 4 = false ∧ x.flags.getLsbD 5 = x.sat ∧ x.flags.getLsbD 6 = false) ∧
  (∀ (f : Fmt) (emax : Int) (L : Nat × Int) (ceil : Bool) (cs : List RoundCtl) (vs : List Val),
    (f, emax, L) ∈ [(Fmt.mxfp8e4, 8, (7, 6)), (.mxfp8e5, 15, (7, 13)), (.mxfp6e2, 2, (15, -1)), (.mxfp6e3, 4, (7, 2)), (.mxfp4, 2, (3, 1)),
      (.mxint8, 0, (127, -6))] → cs.length = 32 → vs.length = 32 → (∀ c ∈ cs, c.code ≤ 6) →
    let b := mxConvert f ceil cs vs
    let element (s : Int) (c : RoundCtl) (n : Bool) (m : Nat) (e : Int) : Nat :=
      let float (g : Machine.Float) (sign : Nat) : Nat :=
        let x := (g.round true c (.num n m (e - s) false)).code
        if x = sign then 0 else x
      match f with
      | .mxfp8e4 => float .e4m3 (2 ^ 7)
      | .mxfp8e5 => float .e5m2 (2 ^ 7)
      | .mxfp6e2 => float .e2m3 (2 ^ 5)
      | .mxfp6e3 => float .e3m2 (2 ^ 5)
      | .mxfp4 => float .e2m1 (2 ^ 3)
      | _ => (Fmt.i8.convert c (.num n m (e - s + 6) false)).code
    ((∃ v ∈ vs, v.isNan = true) → b = ⟨0, 0xFF, false, false⟩) ∧
    ((∀ v ∈ vs, v.isNan = false) → (∃ v ∈ vs, v.isInf = true) → b = ⟨0, 0xFF, true, false⟩) ∧
    ((∀ v ∈ vs, ∃ n e, v = .num n 0 e false) → b = ⟨0, 0, false, false⟩) ∧
    ∀ (mx : Nat) (ex s0 : Int), 0 < mx → (∃ n, .num n mx ex false ∈ vs) →
      (∀ v ∈ vs, ∃ n m e, v = .num n m e false ∧ cmpNum false m e false mx ex ≠ .gt) →
      (ceil = false → cmpNum false 1 (s0 + emax) false mx ex ≠ .gt ∧ cmpNum false mx ex false 1 (s0 + emax + 1) = .lt) →
      (ceil = true → cmpNum false mx ex false L.1 (L.2 + s0) ≠ .gt ∧ cmpNum false L.1 (L.2 + s0 - 1) false mx ex = .lt) →
      let s := max (-127) (min 127 s0)
      b.scale = (s + 127).toNat ∧ b.ovf = false ∧ b.mxclamp = decide (s ≠ s0) ∧
      ∀ i c n m e, cs[i]? = some c → vs[i]? = some (.num n m e false) → blockElem f b.elems i = element s c n m e) ∧
  (∀ i phase k : Nat, dither i phase < 2 ^ 16 ∧ dither i phase % 2 ^ 11 = 0 ∧
    (k < 5 → (dither i phase).testBit (11 + k) = ((i + phase) % 32).testBit (4 - k))) ∧
  ∀ (w : Wave) (mr mx : Word64) (lo hi : Word32) (i : Nat),
    let v := if w.paired = true then i / 2 else i
    let l := w.lane (if w.paired = true then 2 * v else v)
    let c := w.ctlWith mr mx lo hi i
    c.code = (mr.extractLsb' 9 3).toNat ∧ c.sat = mr.getLsbD 8 ∧
    (c.code = 5 → c.r = frit lo hi ((mx.extractLsb' 8 5 ++ l.c).setWidth 32) l.n) ∧
    (c.code = 6 → c.r = dither (v % 32) (mx.extractLsb' 3 5).toNat)

/-! ### Class 01 -/

/-- R160, R163, R164, R165: the elementwise words of class C compute the table's exact value in each active lane, and form it in C's compute
form. -/
def Obligations.VectorArithmeticResults : Prop :=
  ∀ d a b : Byte,
    let exact (v : Val × Bool) : Exact := ⟨v.1, if v.2 then 0x01 else 0⟩
    let whole (z : Int) : Exact := ⟨Val.ofInt z, 0⟩
    let signal (vs : List Val) : BitVec 7 := if vs.any Val.isSignalling then 0x01 else 0
    let fused (np nd : Bool) : Wave → Split → Nat → Exact := fun w _ l =>
      let x := w.srcVal a (.cls w.C) l
      let y := w.srcVal b (.cls w.C) l
      let z := w.srcVal d (.cls w.C) l
      if w.C.compute.kind = .real then fusedReal (mrRound w.a.mr == 2) np nd x y z
      else whole ((if np then -(x.toInt * y.toInt) else x.toInt * y.toInt) + (if nd then -z.toInt else z.toInt))
    formedWord (.vadd d a b) d (binaryExact a b (fun rdn x y => exact (x.add rdn y)) fun x y => whole (x + y))
      (fun w => w.elemTag [a, b] (w.sumTag a b false)) ∧
    formedWord (.vsub d a b) d
      (binaryExact a b (fun rdn x y => exact (x.add rdn (if y.isNan then y else y.negate))) fun x y => whole (x - y))
      (fun w => w.elemTag [a, b] (w.sumTag a b true)) ∧
    formedWord (.vmul d a b) d (binaryExact a b (fun _ x y => exact (x.mul y)) fun x y => whole (x * y))
      (fun w => w.elemTag [a, b] (w.mulTag a b)) ∧
    formedWord (.vfma d a b) d (fused false false) (fun w => w.elemTag [a, b, d] .general) ∧
    formedWord (.vfms d a b) d (fused false true) (fun w => w.elemTag [a, b, d] .general) ∧
    formedWord (.vfnma d a b) d (fused true false) (fun w => w.elemTag [a, b, d] .general) ∧
    formedWord (.vmin d a b) d (binaryExact a b (fun _ x y => ⟨extremum false x y, signal [x, y]⟩) fun x y => whole (min x y))
      (fun w => w.elemTag [a, b] .general) ∧
    formedWord (.vmax d a b) d (binaryExact a b (fun _ x y => ⟨extremum true x y, signal [x, y]⟩) fun x y => whole (max x y))
      (fun w => w.elemTag [a, b] .general) ∧
    formedWord (.vabs d a) d
      (unaryExact a (fun x => ⟨if x.isNan then .nan false else x.withSign false, signal [x]⟩) fun x => whole |x|)
      (fun w => w.elemTag [a] .general) ∧
    formedWord (.vneg d a) d (unaryExact a (fun x => ⟨if x.isNan then .nan false else x.negate, signal [x]⟩) fun x => whole (-x))
      (fun w => w.elemTag [a] (w.negTag a)) ∧
    formedWord (.vrnd d a) d
      (fun w _ l =>
        let x := w.srcVal a (.cls w.C) l
        if w.C.compute.kind = .real then ⟨integral (w.ctl l) x, signal [x]⟩ else ⟨x, 0⟩)
      (fun w => w.elemTag [a] .general)

/-- R166, R167: division, roots, exponent and logarithm. What the named functions compute: a quotient and a root to 79 bits and more, with whether
anything is left; and, as log 9 has it, 2^x and log2 x between their whole neighbours, exactly where they are exact. -/
def Obligations.VectorDivisionResults : Prop :=
  ∀ d a b : Byte,
    let over0 (y : Int) (z : Int) : Exact := if y = 0 then ⟨.zero, 0x02⟩ else ⟨Val.ofInt z, 0⟩
    let keep (x : Int) : Exact := ⟨Val.ofInt x, 0⟩
    formedWord (.vdiv d a b) d (binaryExact a b (fun _ x y => divReal x y) fun x y => over0 y (x.tdiv y))
      (fun w => w.elemTag [a, b] .general) ∧
    formedWord (.vrem d a b) d (binaryExact a b (fun _ _ _ => ⟨.zero, 0⟩) fun x y => over0 y (x - y * x.tdiv y))
      (fun w => w.elemTag [a, b] .general) ∧
    formedWord (.vsqrt d a) d (unaryExact a sqrtReal keep) (fun w => w.elemTag [a] .general) ∧
    formedWord (.vrsqrt d a) d (unaryExact a rsqrtReal keep) (fun w => w.elemTag [a] .general) ∧
    formedWord (.vrcp d a) d (unaryExact a (fun x => divReal (.num false 1 0 false) x) keep) (fun w => w.elemTag [a] .general) ∧
    formedWord (.vexp2 d a) d (unaryExact a exp2Real keep) (fun w => w.elemTag [a] .general) ∧
    formedWord (.vlog2 d a) d (unaryExact a log2Real keep) (fun w => w.elemTag [a] .general) ∧
    classWord (.vmulh d a b) d
      (fun w _ l => ⟨Val.ofInt (((w.srcVal a (.cls w.C) l).toInt * (w.srcVal b (.cls w.C) l).toInt) >>> w.C.compute.bits), 0⟩)
      (fun w _ => w.usual) (fun w => w.elemTag [a, b] .general) (fun _ => false) ∧
    (∀ (sg : Bool) (x : Val),
      let nan : Exact := ⟨.nan false, if sg then 0x01 else 0⟩
      sqrtReal (.nan sg) = nan ∧ rsqrtReal (.nan sg) = nan ∧ exp2Real (.nan sg) = nan ∧ log2Real (.nan sg) = nan ∧
      (x.isNan = false → divReal (.nan sg) x = nan ∧ divReal x (.nan sg) = nan) ∧
      divReal (.inf sg) (.inf sg) = ⟨.nan false, 0x01⟩ ∧ sqrtReal (.inf true) = ⟨.nan false, 0x01⟩ ∧
      rsqrtReal (.inf true) = ⟨.nan false, 0x01⟩ ∧ log2Real (.inf true) = ⟨.nan false, 0x01⟩ ∧
      sqrtReal (.inf false) = ⟨.inf false, 0⟩ ∧ rsqrtReal (.inf false) = ⟨.zero, 0⟩ ∧ log2Real (.inf false) = ⟨.inf false, 0⟩ ∧
      exp2Real (.inf false) = ⟨.inf false, 0⟩ ∧ exp2Real (.inf true) = ⟨.zero, 0⟩) ∧
    (∀ (n n' : Bool) (m : Nat) (e e' : Int), m ≠ 0 →
      divReal (.num n m e false) (.num n' 0 e' false) = ⟨.inf (n != n'), 0x02⟩ ∧
      divReal (.num n 0 e false) (.num n' 0 e' false) = ⟨.nan false, 0x01⟩ ∧
      divReal (.num n 0 e false) (.num n' m e' false) = ⟨.num (n != n') 0 0 false, 0⟩ ∧
      divReal (.inf n) (.num n' m e false) = ⟨.inf (n != n'), 0⟩ ∧ divReal (.num n m e false) (.inf n') = ⟨.num (n != n') 0 0 false, 0⟩ ∧
      sqrtReal (.num true m e false) = ⟨.nan false, 0x01⟩ ∧ sqrtReal (.num n 0 e false) = ⟨.num n 0 0 false, 0⟩ ∧
      rsqrtReal (.num true m e false) = ⟨.nan false, 0x01⟩ ∧ rsqrtReal (.num n 0 e false) = ⟨.inf n, 0x02⟩ ∧
      log2Real (.num true m e false) = ⟨.nan false, 0x01⟩ ∧ log2Real (.num n 0 e false) = ⟨.inf true, 0x02⟩) ∧
    (∀ (n n' : Bool) (m m' : Nat) (e e' : Int), m ≠ 0 → m' ≠ 0 →
      ∃ q r k : Nat, divReal (.num n m e false) (.num n' m' e' false) = ⟨.num (n != n') q (e - e' - k) (decide (r ≠ 0)), 0⟩ ∧
        m * 2 ^ k = q * m' + r ∧ r < m' ∧ 2 ^ 79 ≤ q) ∧
    (∀ (m : Nat) (e : Int), m ≠ 0 →
      (∃ (x r k : Nat) (h : Int), sqrtReal (.num false m e false) = ⟨.num false x h (decide (r ≠ 0)), 0⟩ ∧ e = 2 * h + k ∧
        m * 2 ^ k = x * x + r ∧ r < 2 * x + 1 ∧ 2 ^ 79 ≤ x) ∧
      (∃ (x r k : Nat) (h : Int), rsqrtReal (.num false m e false) = ⟨.num false x h (decide (r ≠ 0)), 0⟩ ∧
        ∃ m' : Nat, ((m' = m ∧ e + 2 * h + 2 * k = 0) ∨ (m' = 2 * m ∧ e + 2 * h + 2 * k = 1)) ∧
          2 ^ (2 * k) = x * x * m' + r ∧ r < (2 * x + 1) * m' ∧ 2 ^ 79 ≤ x)) ∧
    (∀ (n : Bool) (m k : Nat),
      let z : Int := if n then -(m : Int) else m
      (m * 2 ^ k < 2 ^ 16 → exp2Real (.num n m k false) = ⟨.num false 1 (z * 2 ^ k) false, 0⟩) ∧
      (m < 2 ^ (k + 16) → m % 2 ^ k = 0 → exp2Real (.num n m (-(k : Int)) false) = ⟨.num false 1 (z / 2 ^ k) false, 0⟩) ∧
      (m < 2 ^ (k + 16) → m % 2 ^ k ≠ 0 →
        ∃ x : Nat, exp2Real (.num n m (-(k : Int)) false) = ⟨.num false x (z / 2 ^ k - 512) true, 0⟩ ∧ 2 ^ 512 ≤ x ∧ x ≤ 2 ^ 513)) ∧
    (∀ (m k : Nat) (e : Int), 2 ^ k ≤ m → m < 2 ^ (k + 1) →
      (m = 2 ^ k → log2Real (.num false m e false) = ⟨Val.ofInt (k + e), 0⟩) ∧
      (m ≠ 2 ^ k → ∃ x : Nat, x < 2 ^ 192 ∧
        (0 ≤ k + e → log2Real (.num false m e false) = ⟨.num false ((k + e).toNat * 2 ^ 192 + x) (-192) true, 0⟩) ∧
        (k + e < 0 → log2Real (.num false m e false) = ⟨.num true ((-(k + e)).toNat * 2 ^ 192 - x - 1) (-192) true, 0⟩)))

/-- R160, R163, R49 and R64: in every class whose compute form is an integer or index form of w bits, addition, subtraction and multiplication give
each active lane their exact result, modulo 2^w without saturation and else cut off at the form's limits; no other lane of vD changes; and NS has the
saturation flag once a result was outside the form. Where the kernel traps on the class's range (R85), it is for words that meet that range. -/
def Obligations.IntegerVectorArithmeticWraps : Prop :=
  ∀ (s : State) (w : Wave) (p : Split) (d a b : Byte) (i : Instr) (f : Int → Int → Int) (n : Nat) (signed : Bool),
    (i = .vadd d a b ∧ f = (fun x y => x + y)) ∨ (i = .vsub d a b ∧ f = (fun x y => x - y)) ∨ (i = .vmul d a b ∧ f = (fun x y => x * y)) →
    (w.C.compute, n, signed) ∈ [(Fmt.i32, 32, true), (.i16, 16, true), (.n32, 32, false)] →
    let int (x : Word32) : Int := if signed then (BitVec.ofNat n x.toNat).toInt else (BitVec.ofNat n x.toNat).toNat
    let exact (l : Nat) : Int := f (int (w.src a (.cls w.C) l)) (int (w.src b (.cls w.C) l))
    let lo : Int := if signed then -(2 ^ (n - 1)) else 0
    let hi : Int := if signed then 2 ^ (n - 1) - 1 else 2 ^ n - 1
    let word (z : Int) : Word32 := BitVec.ofNat 32 (((if mrSat w.a.mr = true then max lo (min hi z) else z) % 2 ^ n).toNat)
    s.fronts w p → s.unhindered w p i = true →
    (w.kern.traponrng = true → w.outsideLanes w.C (w.list (w.active p)) (fun l => Val.ofInt (exact l)) = []) →
    ∃ t w', exec i s = .next t ∧ t.waves.head? = some w' ∧ w'.key = w.key ∧
      (w'.a.ns.getLsbD 5 = (w.a.ns.getLsbD 5 || (w.list (w.active p)).any fun l => decide (exact l < lo ∨ hi < exact l))) ∧
      ∀ l, l < w.W → l < (w.vreg d.toNat).lanes.length → d.toNat < w.a.vregs.length →
        w'.V_ d.toNat l = if (w.active p).has l then word (exact l) else w.V_ d.toNat l

/-- R168: bitwise words and shifts, raw, in the active lanes. R169: a compare writes its condition into pD in the active lanes; the invalid flag
as the table says, and under `.trapon invalid` the word traps NUMERIC with the lanes that would set it. -/
def Obligations.VectorBitwiseAndCompareResults : Prop :=
  (∀ d a b : Byte,
      let two (f : Word32 → Word32 → Word32) (t : Wave → Tag) : State → Wave → Split → State :=
        afterRaw d (fun w l => f (w.src a .raw l) (w.src b .raw l)) (fun w => w.elemTag [a, b] (t w))
      let one (f : Word32 → Word32) : State → Wave → Split → State := afterRaw d (fun w l => f (w.src a .raw l)) (fun w => w.elemTag [a] .general)
      leadsTo (.vand d a b) anyState (two (fun x y => x &&& y) fun _ => .general) ∧
      leadsTo (.vor d a b) anyState (two (fun x y => x ||| y) fun _ => .general) ∧
      leadsTo (.vxor d a b) anyState (two (fun x y => x ^^^ y) fun _ => .general) ∧
      leadsTo (.vshl d a b) anyState (two (fun x y => x <<< (y.extractLsb' 0 5).toNat) fun w => w.shlTag a b) ∧
      leadsTo (.vshr d a b) anyState (two (fun x y => x >>> (y.extractLsb' 0 5).toNat) fun _ => .general) ∧
      leadsTo (.vsra d a b) anyState (two (fun x y => x.sshiftRight (y.extractLsb' 0 5).toNat) fun _ => .general) ∧
      leadsTo (.vpopc d a) anyState (one fun x => BitVec.ofNat 32 ((List.range 32).countP fun k => x.getLsbD k)) ∧
      leadsTo (.vclz d a) anyState (one fun x => BitVec.ofNat 32 ((List.range 32).takeWhile fun k => !x.getLsbD (31 - k)).length)) ∧
  (∀ d a b : Byte,
      let row (i : Instr) (test : Ordering → Bool) (nan anyNan : Bool) : Prop :=
        let holds (w : Wave) (l : Nat) : Bool :=
          let x := w.srcVal a (.cls w.C) l
          let y := w.srcVal b (.cls w.C) l
          if x.isNan || y.isNan then nan else test (x.cmp y)
        let invalid (w : Wave) (l : Nat) : Bool :=
          let x := w.srcVal a (.cls w.C) l
          let y := w.srcVal b (.cls w.C) l
          if anyNan then x.isNan || y.isNan else x.isSignalling || y.isSignalling
        let bad (w : Wave) (p : Split) : List Nat := (w.list (w.active p)).filter (invalid w)
        leadsTo i (fun _ w p => w.kern.traponinv = false ∨ bad w p = [])
          (fun s w p => afterPred d (fun _ p => w.active p) (fun _ p => Mask.ofLanes ((w.list (w.active p)).filter (holds w))) s
            { w with a := { w.a with ns := w.a.ns ||| (if bad w p = [] then 0 else 0x01) } } p) ∧
        leadsTo i (fun _ w p => w.kern.traponinv = true ∧ bad w p ≠ [])
          (fun s w p => s.takeTrap w p 0x10 p.pc 0 (Mask.ofLanes (bad w p)))
      row (.vceq d a b) (fun o => o == .eq) false false ∧ row (.vcne d a b) (fun o => o != .eq) true false ∧
        row (.vclt d a b) (fun o => o == .lt) false true ∧ row (.vcle d a b) (fun o => o == .lt || o == .eq) false true ∧
        row (.vcun d a b) (fun _ => false) true false)

/-- R170, R172: predicates and moves. A write to p0 is ignored. -/
def Obligations.PredicateAndMoveResults : Prop :=
  ∀ d a b : Byte,
    let writes (i : Instr) (f : Wave → Mask) : Prop := leadsTo i anyState (afterPred d (fun w p => w.active p) (fun w _ => f w))
    writes (.vpand d a b) (fun w => w.pred a.toNat &&& w.pred b.toNat) ∧ writes (.vpor d a b) (fun w => w.pred a.toNat ||| w.pred b.toNat) ∧
    writes (.vpxor d a b) (fun w => w.pred a.toNat ^^^ w.pred b.toNat) ∧ writes (.vpnot d a) (fun w => ~~~(w.pred a.toNat)) ∧
    leadsTo (.vtop d a) anyState (afterPred d (fun w p => w.active p)
      (fun w p => Mask.ofLanes ((w.list (w.active p)).filter fun l => decide (w.src a .raw l ≠ 0)))) ∧
    leadsTo (.vfromp d a) anyState (afterRaw d (fun w l => if (w.pred a.toNat).has l = true then 1 else 0) fun _ => .general) ∧
    leadsTo (.vmov d a) anyState (afterRaw d (fun w l => w.src a (.cls w.C) l) fun w => w.srcTag a) ∧
    ∀ (w : Wave) (on v : Mask), w.setPred 0 on v = w ∧ w.pred 0 = Mask.below 1024 ∧
      ∀ q k, 0 < q → q < w.a.preds.length → ((w.setPred q on v).pred q).has k = if on.has k then v.has k else (w.pred q).has k

/-- R171, R173: `vsel` selects by MR's guard in every lane of the split; `vcvt` reads in X's form and rounds or saturates into C's. -/
def Obligations.SelectAndConvertResults : Prop :=
  ∀ d a b : Byte,
    leadsTo (.vsel d a b) anyState
      (afterVector d (fun _ p => p.lanes) (fun w _ l => if (w.pred w.guard).has l = true then w.src a .raw l else w.src b .raw l)
        (fun w p =>
          if p.lanes &&& ~~~(w.pred w.guard) = 0 then w.srcTag a else if p.lanes &&& w.pred w.guard = 0 then w.srcTag b else .general)) ∧
    classWord (.vcvt d a) d
      (fun w _ l =>
        let x := w.srcVal a (.cls w.X) l
        ⟨x, if w.C.compute.kind = .real ∧ x.isSignalling = true then 0x01 else 0⟩)
      (fun w _ l v => ⟨BitVec.ofNat 32 (w.C.compute.convert (w.ctl l) v).code, (w.C.compute.convert (w.ctl l) v).flags⟩)
      (fun w => w.elemTag [a] .general) (fun w => w.C.compute.kind == .real || w.X.compute.kind == .real)

/-- R30, R34, R175: a lane of a cross-lane word receives the raw value of A in the visible lane its index names, in the same copy; zero where
that lane is vacant or out of range. -/
def Obligations.CrossLaneResults : Prop :=
  ∀ d a b : Byte,
    let reads (i : Instr) (j : Wave → Split → Nat → Word32) (t : Tag) : Prop :=
      leadsTo i anyState (afterVector d (fun w p => w.active p)
        (fun w p l =>
          let v := (j w p l).toNat
          if v < w.V ∧ w.a.live.has (w.primary v) = true then w.src a .raw (w.sameCopy l v) else 0)
        (fun _ _ => t))
    reads (.vshfl d a b) (fun w _ l => w.src b .raw l) .general ∧
    reads (.vshup d a b) (fun w _ l => BitVec.ofNat 32 (w.visible l) - w.src b .raw l) .general ∧
    reads (.vshdn d a b) (fun w _ l => BitVec.ofNat 32 (w.visible l) + w.src b .raw l) .general ∧
    reads (.vbcast d a b) (fun w p l => w.src b .raw (w.sameCopy l (w.visible ((w.active p).lowest w.W)))) .uniform

/-- R176, R177, R162: scans combine the active lanes of the same copy up to the lane, reductions all of them; a sum is exact and rounded once, a
reduction's with the draw of the lowest active lane. R178, R179, R180, R181: ballots and counts over the active visible lanes in which a
predicate holds, ranks, and shape tags. -/
def Obligations.ScanReduceAndCountResults : Prop :=
  (∀ d a : Byte,
      let peers (w : Wave) (p : Split) (upTo : Bool) (l : Nat) : List Nat :=
        (w.list (w.active p)).filter fun k => w.isShadow k == w.isShadow l && (!upTo || decide (k ≤ l))
      let values (w : Wave) (p : Split) (upTo : Bool) (l : Nat) : List Val := (peers w p upTo l).map fun k => w.srcVal a (.cls w.C) k
      let row (i : Instr) (upTo : Bool) (f : Wave → List Val → Exact) (t : Tag) : Prop :=
        classWord i d (fun w p l => f w (values w p upTo l))
          (fun w p l v => w.formResult w.C.compute (w.ctl (if upTo then l else (peers w p false l).headD l)) v) (fun _ => t)
          (fun w => w.C.compute.kind == .real)
      row (.vscan d a) true (fun w => exactSum (mrRound w.a.mr == 2)) .general ∧
      row (.vscanmax d a) true (fun w => exactExtremum true (w.C.compute.kind == .real)) .general ∧
      row (.vscanmin d a) true (fun w => exactExtremum false (w.C.compute.kind == .real)) .general ∧
      row (.vredsum d a) false (fun w => exactSum (mrRound w.a.mr == 2)) .uniform ∧
      row (.vredmax d a) false (fun w => exactExtremum true (w.C.compute.kind == .real)) .uniform ∧
      row (.vredmin d a) false (fun w => exactExtremum false (w.C.compute.kind == .real)) .uniform) ∧
  (∀ d a b : Byte,
      let set (w : Wave) (p : Split) (shadow : Bool) : List Nat :=
        ((w.list (w.active p)).filter fun l => (w.pred a.toNat).has l && (w.isShadow l == (shadow && w.paired))).map w.visible
      let ballot (w : Wave) (p : Split) (shadow : Bool) : Word64 :=
        let m := Mask.ofLanes (set w p shadow)
        if b = 0x20 then m.summary.setWidth 64 else (m.word b.toNat).setWidth 64
      leadsTo (.vballot d a b) anyState
        (fun s w p => afterScalar d (fun _ => ballot w p false) (fun _ => ballot w p true) s w p) ∧
      leadsTo (.vcount d a) anyState
        (fun s w p => afterScalar d (fun _ => BitVec.ofNat 64 (set w p false).length) (fun _ => BitVec.ofNat 64 (set w p true).length) s w p) ∧
      leadsTo (.vrank d a) anyState (afterVector d (fun w p => w.active p)
        (fun w p l => BitVec.ofNat 32 ((set w p (w.isShadow l)).countP fun v => decide (v < w.visible l))) (fun _ _ => .general)) ∧
      leadsTo (.vtag d a) anyState (fun s w p =>
        let x : Word64 := match (w.vreg a.toNat).tag with | .uniform => 0 | .affine _ _ => 1 | .general => 2
        afterScalar d (fun _ => x) (fun _ => x) s w p) ∧
      leadsTo (.vgen d) anyState (afterWord (fun w _ => w.onV d.toNat fun r => { r with tag := .general }) [d.toNat]))

/-! ### Class 10 -/

/-- R190, R191, R194: a vector load checks every active lane's address before any access, makes vD's tag general, and joins the wave's local port;
where a lane's address is in the marver or a peer window vD is marked empty. Only `vld` of an MX class advances c. -/
def Obligations.VectorLoadIssues : Prop :=
  ∀ d a b : Byte,
    let addr (w : Wave) (l : Nat) : Nat := (w.src a .raw l + w.src b .raw l).toNat
    let remote (w : Wave) (p : Split) : Bool := (w.list (w.active p)).any fun l => decide (0x40000 ≤ addr w l)
    let raw (i : Instr) (n : Nat) : Prop :=
      let check (s : State) (w : Wave) (p : Split) : Option Refused :=
        s.checkLanes w ((w.list (w.active p)).map fun l => ⟨l, addr w l, n, n⟩)
      leadsTo i (fun s w p => check s w p = none) (fun s w p =>
        afterLoad d (w.active p) (remote w p) (.vload d.toNat (some n) .i32 .i32
          ((w.list (w.active p)).map fun l => ⟨l, s.placeOf w (addr w l) n, none, 0, .rne⟩)) id s w p) ∧
      ∀ r, leadsTo i (fun s w p => check s w p = some r) (fun s w p => s.takeTrap w p r.cause p.pc r.addr r.mask)
    raw (.vldraw d a b) 4 ∧ raw (.vldb d a b) 1 ∧ raw (.vldh d a b) 2 ∧
    leadsTo (.vld d a b) (fun s w p => s.checkClass w w.C.storage (w.active p) (addr w) = none) (fun s w p =>
      let f := w.C.storage
      let acc (l : Nat) : LaneAcc :=
        ⟨l, s.placeOf w (addr w l) (if f.packed then f.blockBytes else f.elemBytes),
          if f.isMX then (w.scaleAddr f (addr w l)).map fun x => s.placeOf w x 1 else none, w.visible l % 32, w.ctl l⟩
      afterLoad d (w.active p) (remote w p) (.vload d.toNat none f w.C.compute ((w.list (w.active p)).map acc))
        (fun w => if f.isMX then w.bumpIfSRF w.a.mr (w.active p) else w) s w p) ∧
    ∀ r, leadsTo (.vld d a b) (fun s w p => s.checkClass w w.C.storage (w.active p) (addr w) = some r)
      (fun s w p => s.takeTrap w p r.cause p.pc r.addr r.mask)

/-- R189, R193, R194: a vector store compares the pairs' addresses and data, which is a mismatch where they differ, checks every active lane's
address, and joins the local port with the bytes its primaries write, computed at issue. A `vst` under a `.trapon` of the kernel traps RANGE, or
NUMERIC with the lanes whose signalling NaN would set invalid (log 23), and writes nothing.
That the pairs are compared before the addresses are checked, so that pairs that differ are a mismatch even where an address would trap, is the
model's choice (log 23, DEDUCED), and so is that the compare looks at all 32 register bits of the data (log 23, DESIGN CHOICE). -/
def Obligations.VectorStoreIssues : Prop :=
  ∀ d a b : Byte,
    let addr (w : Wave) (l : Nat) : Nat := (w.src a .raw l + w.src b .raw l).toNat
    let raw (i : Instr) (n : Nat) : Prop :=
      let differ (w : Wave) (p : Split) : Mask := w.differing (w.active p) fun l => addr w l + 2 ^ 32 * (w.src d .raw l).toNat
      let check (s : State) (w : Wave) (p : Split) : Option Refused :=
        s.checkLanes w ((w.list (w.active p)).map fun l => ⟨l, addr w l, n, n⟩)
      leadsTo i (fun s w p => differ w p = 0 ∧ check s w p = none) (fun s w p =>
        afterStore (((w.list (w.active p)).filter fun l => !w.isShadow l).flatMap fun l =>
          bytesAt (s.placeOf w (addr w l) n) n (w.src d .raw l).toNat) id s w p) ∧
      (∀ r, leadsTo i (fun s w p => differ w p = 0 ∧ check s w p = some r) (fun s w p => s.takeTrap w p r.cause p.pc r.addr r.mask)) ∧
      leadsTo i (fun _ w p => differ w p ≠ 0) (pairMismatch differ)
    raw (.vstraw d a b) 4 ∧ raw (.vstb d a b) 1 ∧ raw (.vsth d a b) 2 ∧
    (let form (w : Wave) : Form := .cls w.C
     let differ (w : Wave) (p : Split) : Mask := w.differing (w.active p) fun l => addr w l + 2 ^ 32 * (w.src d (form w) l).toNat
     let far (w : Wave) (p : Split) : List Nat := w.outsideLanes w.C (w.list (w.active p)) (w.srcVal d (form w))
     let signal (w : Wave) (p : Split) : List Nat :=
       if w.C.compute.kind = .real then (w.list (w.active p)).filter fun l => (w.srcVal d (form w) l).isSignalling else []
     leadsTo (.vst d a b)
       (fun s w p => differ w p = 0 ∧ s.checkClass w w.C.storage (w.active p) (addr w) = none ∧
         (w.kern.traponrng = false ∨ far w p = []) ∧ (w.kern.traponinv = false ∨ signal w p = []))
       (fun s w p =>
         let out := s.storeBytes w w.C.storage (w.active p) (addr w) (w.srcVal d (form w))
         let flags : BitVec 7 := out.2.foldl (fun acc y => acc ||| y.2)
           ((if far w p = [] then 0 else 0x10) ||| (if signal w p = [] then 0 else 0x01))
         afterStore out.1 (fun w =>
           let v := { w with a := { w.a with ns := w.a.ns ||| flags } }
           if w.C.storage.kind = .real then v.bumpIfSRF w.a.mr (w.active p) else v) s w p) ∧
     leadsTo (.vst d a b)
       (fun s w p => differ w p = 0 ∧ s.checkClass w w.C.storage (w.active p) (addr w) = none ∧ w.kern.traponrng = true ∧ far w p ≠ [])
       (fun s w p => s.takeTrap w p 0x0F p.pc 0 (Mask.ofLanes (far w p))) ∧
     leadsTo (.vst d a b)
       (fun s w p => differ w p = 0 ∧ s.checkClass w w.C.storage (w.active p) (addr w) = none ∧ (w.kern.traponrng = false ∨ far w p = []) ∧
         w.kern.traponinv = true ∧ signal w p ≠ [])
       (fun s w p => s.takeTrap w p 0x10 p.pc 0 (Mask.ofLanes (signal w p))) ∧
     (∀ r, leadsTo (.vst d a b) (fun s w p => differ w p = 0 ∧ s.checkClass w w.C.storage (w.active p) (addr w) = some r)
       (fun s w p => s.takeTrap w p r.cause p.pc r.addr r.mask)) ∧
     leadsTo (.vst d a b) (fun _ w p => differ w p ≠ 0) (pairMismatch differ))

/-- R195, R186, R189: the spill stack. Each active lane reads or writes four bytes of its own stack at (sp + A) mod 2^32, after the checks: a lane
beyond the stack traps LOCALBOUND, else a misaligned one ALIGN, with the lowest failing lane's offset. A store whose pairs differ in offset or data is
a mismatch. That the pairs of a store are compared before any address is checked, and that each lane's own offset is checked, is the model's choice
(log 23, DEDUCED). -/
def Obligations.SpillStackResults : Prop :=
  ∀ d a : Byte,
    let off (w : Wave) (l : Nat) : Nat := (w.a.sp + w.src a .raw l).toNat
    let far (w : Wave) (p : Split) : List Nat := (w.list (w.active p)).filter fun l => decide (w.kern.stack < off w l + 4)
    let skew (w : Wave) (p : Split) : List Nat := (w.list (w.active p)).filter fun l => decide (off w l % 4 ≠ 0)
    let differ (w : Wave) (p : Split) : Mask := w.differing (w.active p) fun l => off w l + 2 ^ 32 * (w.src d .raw l).toNat
    let traps (i : Instr) (ok : Wave → Split → Prop) : Prop :=
      ∀ l rest,
        leadsTo i (fun _ w p => ok w p ∧ far w p = l :: rest) (fun s w p => s.takeTrap w p 0x09 p.pc (off w l) (Mask.ofLanes (far w p))) ∧
        leadsTo i (fun _ w p => ok w p ∧ far w p = [] ∧ skew w p = l :: rest)
          (fun s w p => s.takeTrap w p 0x08 p.pc (off w l) (Mask.ofLanes (skew w p)))
    leadsTo (.vlds d a) (fun _ w p => far w p = [] ∧ skew w p = [])
      (afterRaw d (fun w l => BitVec.ofNat 32 (leNat ((nth w.a.spill l []).readBytes (off w l) 4))) fun _ => .general) ∧
    leadsTo (.vsts d a) (fun _ w p => differ w p = 0 ∧ far w p = [] ∧ skew w p = [])
      (fun s w p =>
        let put (m : Memory) (l : Nat) : Memory :=
          if (w.active p).has l then m.writeBytes (off w l) (leBytes 4 (w.src d .raw l).toNat) else m
        afterWord (fun w _ => { w with a := { w.a with spill := w.a.spill.zipIdx.map fun (m, l) => put m l } }) [] s w p) ∧
    traps (.vlds d a) (fun _ _ => True) ∧ traps (.vsts d a) (fun w p => differ w p = 0) ∧
    leadsTo (.vsts d a) (fun _ w p => differ w p ≠ 0) (pairMismatch differ)

/-- R140, R141, R131: a scalar atomic whose copies agree and whose address is legal empties sD and goes to the local port or, counted on `atm`,
to its home; a local address out of bounds traps LOCALBOUND, a misaligned one ALIGN; copies that differ are a mismatch. R196, R197: a per-lane
atomic. In paired mode the primaries perform, after the compare. A local address is reported by its low 32 bits in both (log 23).
That copies and pairs are compared before the addresses are checked is the model's choice (log 23, DEDUCED). -/
def Obligations.AtomicIssues : Prop :=
  (∀ d a b : Byte,
      let row (i : Instr) (f : AtomicFn) : Prop :=
        let agree (w : Wave) : Prop := w.S a.toNat = w.Sh a.toNat ∧ w.S b.toNat = w.Sh b.toNat ∧ (f = .cas → w.S d.toNat = w.Sh d.toNat)
        let e (w : Wave) : Nat := (w.S a.toNat).toNat
        leadsTo i
          (fun s w _ => agree w ∧ s.outside64 w (e w) 8 = none ∧ e w % 8 = 0 ∧ (homeOf (e w) ≠ 0xFF → w.counter 3 < 255))
          (fun s w p => afterAtomic (.satomic (w.sidx d.toNat)) (w.active p)
            [⟨0, e w, none, if homeOf (e w) = 0xFF then some (s.placeOf w (e w % 2 ^ 32) 8) else none, List.replicate 8 none, [0],
              .atomic f (w.S b.toNat).toNat (w.S d.toNat).toNat, p.lanes.lowest w.W⟩]
            (fun w => w.markS (w.sidx d.toNat) true) s w p) ∧
        (∀ x, leadsTo i (fun s w _ => agree w ∧ s.outside64 w (e w) 8 = some x) (fun s w p => s.takeTrap w p 0x09 p.pc x (w.active p))) ∧
        leadsTo i (fun s w _ => agree w ∧ s.outside64 w (e w) 8 = none ∧ e w % 8 ≠ 0)
          (fun s w p => s.takeTrap w p 0x08 p.pc (if homeOf (e w) = 0xFF then e w % 2 ^ 32 else e w) (w.active p)) ∧
        leadsTo i (fun s w _ => agree w ∧ s.outside64 w (e w) 8 = none ∧ e w % 8 = 0 ∧ homeOf (e w) ≠ 0xFF ∧ 255 ≤ w.counter 3)
          (fun s _ _ => s) ∧
        leadsTo i (fun _ w _ => ¬agree w) scalarMismatch
      row (.satadd d a b) .add ∧ row (.satxchg d a b) .xchg ∧ row (.satcas d a b) .cas ∧ row (.satmin d a b) .min ∧
        row (.satmax d a b) .max ∧ row (.satand d a b) .and ∧ row (.sator d a b) .or ∧ row (.satxor d a b) .xor) ∧
  (∀ d a b : Byte,
      let e (w : Wave) (l : Nat) : Nat :=
        ((if w.isShadow l then w.Sh a.toNat else w.S a.toNat) + (w.src b .raw l).setWidth 64).toNat
      let row (i : Instr) (f : Wave → AtomicFn) (operand compare : Wave → Nat → Nat) (data : Wave → Nat → Nat) : Prop :=
        let differ (w : Wave) (p : Split) : Mask := w.differing (w.active p) fun l => e w l + 2 ^ 64 * data w l
        let main (w : Wave) (p : Split) : Prop := ∃ l ∈ w.performers (w.active p), homeOf (e w l) ≠ 0xFF
        leadsTo i
          (fun s w p => differ w p = 0 ∧ s.check64 w (w.list (w.active p)) (e w) 4 = none ∧
            w.performers (w.active p) ≠ [] ∧ (main w p → w.counter 3 < 255))
          (fun s w p => afterAtomic (.vatomic d.toNat) (w.active p)
            ((w.performers (w.active p)).map fun l =>
              ⟨0, e w l, none, if homeOf (e w l) = 0xFF then some (s.placeOf w (e w l % 2 ^ 32) 4) else none, List.replicate 4 none, [0],
                .atomic (f w) (operand w l) (compare w l), l⟩)
            (fun w => w.markV d.toNat true) s w p) ∧
        leadsTo i
          (fun s w p => differ w p = 0 ∧ s.check64 w (w.list (w.active p)) (e w) 4 = none ∧ w.performers (w.active p) = [])
          (fun s w p => s.putWave ((w.writeV d.toNat 0 (fun _ => 0) .general).counted.advance (p.opens w))) ∧
        leadsTo i
          (fun s w p => differ w p = 0 ∧ s.check64 w (w.list (w.active p)) (e w) 4 = none ∧ main w p ∧ 255 ≤ w.counter 3) (fun s _ _ => s) ∧
        (∀ r, leadsTo i (fun s w p => differ w p = 0 ∧ s.check64 w (w.list (w.active p)) (e w) 4 = some r)
          (fun s w p => s.takeTrap w p r.cause p.pc r.addr r.mask)) ∧
        leadsTo i (fun _ w p => differ w p ≠ 0) (pairMismatch differ)
      let one (i : Instr) (f : Wave → AtomicFn) : Prop :=
        row i f (fun w l => (w.V_ d.toNat l).toNat) (fun _ _ => 0) (fun w l => (w.V_ d.toNat l).toNat)
      one (.vatadd d a b) (fun _ => .add) ∧ one (.vatmin d a b) (fun w => if w.C.kind = .int then .min else .minu) ∧
        one (.vatmax d a b) (fun w => if w.C.kind = .int then .max else .maxu) ∧ one (.vatand d a b) (fun _ => .and) ∧
        one (.vator d a b) (fun _ => .or) ∧ one (.vatxchg d a b) (fun _ => .xchg) ∧
        row (.vatcas d a b) (fun _ => .cas) (fun w l => (w.V_ (d.toNat + 1) l).toNat) (fun w l => (w.V_ d.toNat l).toNat)
          (fun w l => (w.V_ d.toNat l).toNat + 2 ^ 32 * (w.V_ (d.toNat + 1) l).toNat))

/-- R140, R196: the value each atomic writes, from the old value m of its location, its operand and its compare value. R58-R60, for a crucible cell:
its fields, with reserved bits that are ignored and written as zero; an add, whose sum is exact modulo 2^384 and never clears a status bit; that the
value and the bits NAN, PINF and NINF do not depend on the order of the adds, and that no sum is out of range while the magnitudes stay below 2^191; and
a read, whose first matching status row decides and which rounds once. -/
def Obligations.AtomicValues : Prop :=
  (∀ (n m x c : Nat), 0 < n → m < 2 ^ (8 * n) → x < 2 ^ (8 * n) → c < 2 ^ (8 * n) →
    let int (v : Nat) : Int := (BitVec.ofNat (8 * n) v).toInt
    atomicNew .add n m x c = some ((BitVec.ofNat (8 * n) m + BitVec.ofNat (8 * n) x).toNat) ∧ atomicNew .xchg n m x c = some x ∧
    (m = c → atomicNew .cas n m x c = some x) ∧ (m ≠ c → atomicNew .cas n m x c = none) ∧
    (∃ v, atomicNew .min n m x c = some v ∧ int v = min (int m) (int x)) ∧ (∃ v, atomicNew .max n m x c = some v ∧ int v = max (int m) (int x)) ∧
    atomicNew .minu n m x c = some (min m x) ∧ atomicNew .maxu n m x c = some (max m x) ∧
    (∀ k, ((atomicNew .and n m x c).getD 0).testBit k = (m.testBit k && x.testBit k)) ∧
    (∀ k, ((atomicNew .or n m x c).getD 0).testBit k = (m.testBit k || x.testBit k)) ∧
    (∀ k, ((atomicNew .xor n m x c).getD 0).testBit k = (m.testBit k ^^ x.testBit k))) ∧
  (∀ (n : Nat) (c : CxCell),
    CxCell.ofNat n = ⟨BitVec.ofNat 384 n, n.testBit 384, n.testBit 385, n.testBit 386, n.testBit 387, n.testBit 388⟩ ∧
    CxCell.ofNat c.toNat = c ∧ c.toNat < 2 ^ 389) ∧
  (∀ (c : CxCell) (q neg : Bool) (m : Nat) (e : Int), c.add (.nan q) = { c with nan := true } ∧
    c.add (.inf neg) = (if neg = true then { c with ninf := true } else { c with pinf := true }) ∧
    (-192 ≤ e →
      let x : Int := m * 2 ^ (e + 192).toNat
      let z : Int := c.value.toInt + if neg = true then -x else x
      c.add (.num neg m e false) =
        { c with value := BitVec.ofInt 384 z, ovp := c.ovp || decide (2 ^ 383 ≤ z), ovn := c.ovn || decide (z < -(2 ^ 383)) })) ∧
  (∀ (c : CxCell) (vs ws : List Val), vs.Perm ws →
    let x := vs.foldl CxCell.add c
    let y := ws.foldl CxCell.add c
    x.value = y.value ∧ x.nan = y.nan ∧ x.pinf = y.pinf ∧ x.ninf = y.ninf) ∧
  (∀ vs : List (Bool × Nat × Int), (∀ v ∈ vs, -192 ≤ v.2.2) →
    let big (v : Bool × Nat × Int) : Nat := v.2.1 * 2 ^ (v.2.2 + 192).toNat
    let x := vs.foldl (fun c v => c.add (.num v.1 v.2.1 v.2.2 false)) (CxCell.ofNat 0)
    (vs.map big).sum < 2 ^ 383 →
      x.ovp = false ∧ x.ovn = false ∧ x.value.toInt = (vs.map fun v => if v.1 = true then -(big v : Int) else big v).sum) ∧
  (∀ (f : Fmt) (sign top quiet : Nat) (c : CxCell) (ctl : RoundCtl),
    (f, sign, top, quiet) ∈ [(Fmt.fp32, 2 ^ 31, 0x7F7FFFFF, 0x7FC00000), (.bf16, 2 ^ 15, 0x7F7F, 0x7FC0), (.fp16, 2 ^ 15, 0x7BFF, 0x7E00)] →
    let far (neg : Bool) : Nat := if ctl.sat = true ∨ ctl.inward neg then top else top + 1
    c.read f ctl =
      if c.nan = true then ⟨quiet, false, false, false, false⟩
      else if c.pinf = true ∧ c.ninf = true then ⟨quiet, true, false, false, false⟩
      else if c.pinf = true then ⟨top + 1, false, false, false, false⟩
      else if c.ninf = true then ⟨sign + top + 1, false, false, false, false⟩
      else if c.ovp = true ∧ c.ovn = true then ⟨quiet, false, true, false, false⟩
      else if c.ovp = true then ⟨far false, false, true, false, false⟩
      else if c.ovn = true then ⟨sign + far true, false, true, false, false⟩
      else f.convert ctl (.num (decide (c.value.toInt < 0)) c.value.toInt.natAbs (-192) false)) ∧
  ∀ (f : Fmt) (lo hi : Nat) (c : CxCell) (ctl : RoundCtl),
    (f, lo, hi) ∈ [(Fmt.i32, 2 ^ 31, 2 ^ 31 - 1), (.i16, 2 ^ 15, 2 ^ 15 - 1), (.n32, 0, 2 ^ 32 - 1)] →
    c.read f ctl =
      if c.nan = true ∨ c.pinf = true ∧ c.ninf = true then ⟨0, true, false, false, false⟩
      else if c.pinf = true then ⟨hi, false, false, false, true⟩
      else if c.ninf = true then ⟨lo, false, false, false, true⟩
      else if c.ovp = true ∧ c.ovn = true then ⟨0, false, false, false, true⟩
      else if c.ovp = true then ⟨hi, false, false, false, true⟩
      else if c.ovn = true then ⟨lo, false, false, false, true⟩
      else f.convert ctl (.num (decide (c.value.toInt < 0)) c.value.toInt.natAbs (-192) false)

/-- R198-R201: the crucible words. `cxadd` and `cxclr` count on `cru`; `cxget` counts nowhere, waits for the wave's earlier adds, clears and crucible
drains, and holds its split until its cells have come. A cell out of bounds traps LOCALBOUND, a misaligned one ALIGN, before any access; pairs of
`cxadd` or `cxclr` that differ are a mismatch. When the cells of a `cxget` have come, its split goes on: it delivers each lane's cell in the class,
with the range and invalid tests, or traps for the parts that an error ended (log 26), and writes nothing then. That `cxadd` and `cxclr` compare their
pairs before they check their cells is the model's choice (log 23, DEDUCED). -/
def Obligations.CrucibleIssues : Prop :=
  ∀ d a b : Byte,
    let e (w : Wave) (l : Nat) : Nat :=
      ((if w.isShadow l then w.Sh a.toNat else w.S a.toNat) + (w.src b .raw l).setWidth 64).toNat
    let piece (s : State) (w : Wave) (data : List (Option Byte)) (job : Nat → Job) (l : Nat) : Piece :=
      ⟨0, e w l, none, if homeOf (e w l) = 0xFF then some (s.placeOf w (e w l % 2 ^ 32) 64) else none, data, [0], job l, l⟩
    let lanes (w : Wave) (p : Split) : List Nat := w.performers (w.active p)
    let check (s : State) (w : Wave) (p : Split) : Option Refused := s.checkCells w (w.list (w.active p)) (e w)
    let sums (w : Wave) (p : Split) : Mask := w.differing (w.active p) fun l => e w l + 2 ^ 64 * (w.src d (.cls w.C) l).toNat
    let cells (w : Wave) (p : Split) : Mask := w.differing (w.active p) (e w)
    let idle (w : Wave) : Prop := ∀ o ∈ w.ops, o.kind = .cxadd ∨ o.kind = .cxclr ∨ o.kind = .mdrx → o.complete = true
    let fresh (p : Split) : Prop := ∀ k, p.status ≠ .onCxget k
    leadsTo (.cxadd d a b) (fun s w p => sums w p = 0 ∧ check s w p = none ∧ lanes w p ≠ [] ∧ w.counter 4 < 255)
      (fun s w p => afterEnqueue (some 4) .cxadd (w.active p) ((lanes w p).map (piece s w [] fun l => .cxAdd (w.srcVal d (.cls w.C) l))) none 0 id
        (fun _ => p.opens w) s w p) ∧
    leadsTo (.cxadd d a b) (fun s w p => sums w p = 0 ∧ check s w p = none ∧ lanes w p = [])
      (fun s w p => s.putWave (w.counted.advance (p.opens w))) ∧
    leadsTo (.cxclr a b) (fun s w p => cells w p = 0 ∧ check s w p = none ∧ lanes w p ≠ [] ∧ w.counter 4 < 255)
      (fun s w p =>
        let once := (lanes w p).filter fun l => (lanes w p).all fun k => e w k != e w l || decide (l ≤ k)
        afterEnqueue (some 4) .cxclr (w.active p) (once.map (piece s w [] fun _ => .cxClear)) none 0 id id s w p) ∧
    leadsTo (.cxclr a b) (fun s w p => cells w p = 0 ∧ check s w p = none ∧ lanes w p = []) (fun s w p => s.putWave (w.advance p)) ∧
    leadsTo (.cxget d a b) (fun s w p => fresh p ∧ check s w p = none ∧ idle w ∧ w.list (w.active p) ≠ [])
      (fun s w p =>
        let job : MatJob :=
          ⟨0, w.a.mr, w.a.mx, w.a.seedlo.setWidth 32, w.a.seedhi.setWidth 32, [], [], [], [], 0, 0, false, false, [], false⟩
        let r := s.addOp w.dropReads p none (.cxget d.toNat) (w.active p)
          ((w.list (w.active p)).map (piece s w (List.replicate 64 none) fun _ => .cxRead)) (some job) 0
        r.1.putWave (r.2.1.setSplit { p with status := .onCxget r.2.2 })) ∧
    leadsTo (.cxget d a b) (fun s w p => fresh p ∧ check s w p = none ∧ idle w ∧ w.list (w.active p) = [])
      (fun s w p => s.putWave ((w.writeV d.toNat 0 (fun _ => 0) .general).advance p)) ∧
    leadsTo (.cxget d a b) (fun s w p => fresh p ∧ check s w p = none ∧ ¬idle w) (fun s _ _ => s) ∧
    (∀ i (differ : Wave → Split → Mask), i = .cxadd d a b ∧ differ = sums ∨ i = .cxclr a b ∧ differ = cells →
      leadsTo i (fun s w p => differ w p = 0 ∧ check s w p = none ∧ lanes w p ≠ [] ∧ 255 ≤ w.counter 4) (fun s _ _ => s) ∧
      (∀ r, leadsTo i (fun s w p => differ w p = 0 ∧ check s w p = some r) (fun s w p => s.takeTrap w p r.cause p.pc r.addr r.mask)) ∧
      leadsTo i (fun _ w p => differ w p ≠ 0) (pairMismatch differ)) ∧
    (∀ r, leadsTo (.cxget d a b) (fun s w p => fresh p ∧ check s w p = some r) (fun s w p => s.takeTrap w p r.cause p.pc r.addr r.mask)) ∧
    ∀ (s : State) (w : Wave) (p : Split) (o : Op) (job : MatJob) (k : Nat),
      s.fronts w p → p.status = .onCxget k → w.op? k = some o → o.mat = some job →
      let v := { w with ops := w.ops.filter fun x => x.key != o.key }.setSplit { p with status := .ready }
      let q : Split := { p with status := .ready }
      let refused : List (Nat × Nat × Nat) := o.pieces.filterMap fun x => (o.refusal x).map fun c => (x.lane, c, x.va)
      let c := w.class_ (mrClass job.mr)
      let read (l : Nat) : Converted :=
        (CxCell.ofNat (((o.pieces.find? fun x => x.lane == l).map fun x => leNat (x.data.map fun b => b.getD 0)).getD 0)).read c.compute
          (w.ctlWith job.mr job.mx job.seedlo job.seedhi l)
      let far : List Nat := w.outsideLanes c (w.list o.mask) fun l => c.compute.valOf (read l).code
      let invalid : List Nat := (w.list o.mask).filter fun l => (read l).invalid
      (o.returned = false → exec (.cxget d a b) s = .next s) ∧
      (o.returned = true → ∀ l cause va, (l, cause, va) ∈ refused → (∀ y ∈ refused, l ≤ y.1) → (∀ y ∈ refused, y.1 = l → y = (l, cause, va)) →
        exec (.cxget d a b) s = .next (s.takeTrap v q cause p.pc va (Mask.ofLanes (refused.map Prod.fst)))) ∧
      (o.returned = true → refused = [] →
        (w.kern.traponrng = true → far ≠ [] → exec (.cxget d a b) s = .next (s.takeTrap v q 0x0F p.pc 0 (Mask.ofLanes far))) ∧
        (w.kern.traponrng = false ∨ far = [] → w.kern.traponinv = true → invalid ≠ [] →
          exec (.cxget d a b) s = .next (s.takeTrap v q 0x10 p.pc 0 (Mask.ofLanes invalid))) ∧
        (w.kern.traponrng = false ∨ far = [] → w.kern.traponinv = false ∨ invalid = [] →
          ∃ t u, exec (.cxget d a b) s = .next t ∧ t.waves.head? = some u ∧ u.key = w.key ∧ u.a.retired = w.a.retired + 1 ∧
            u.a.splits = { q with pc := (p.pc + 4) % 2 ^ 64 } :: w.a.splits.tail ∧
            ∀ l, l < w.W → l < (w.vreg d.toNat).lanes.length → d.toNat < w.a.vregs.length →
              u.V_ d.toNat l = if o.mask.has l = true then BitVec.ofNat 32 (read l).code else w.V_ d.toNat l))

/-- R202-R207, R2: a copy with a legal descriptor whose elements are in bounds joins its engine queue with one piece for each indivisible stretch of
each element; a partial mask, a descriptor's address, an illegal descriptor, an element out of bounds and a refused tier trap; a full counter, or 256
copies of the core under way, holds it back; copies of the source that differ are a mismatch. R205: the addresses of the elements of a copy. That
copies of the source are compared before the descriptor's address is checked, and that index entries are checked before the elements, is the model's
choice (log 23, DEDUCED); so is what R2 counts, and that a further copy waits (log 50).
That the traps of a copy, which ignores the guard, hold the guard-active lanes in the mask (PARTIALMASK, DESC, CLASSX and those of its elements) is
the model's choice too (log 23, DESIGN CHOICE). -/
def Obligations.CopyIssues : Prop :=
  (∀ a : Byte,
      let row (i : Instr) (f : CopyFn) : Prop :=
        ∀ at_ : LocalAt,
          let desc (s : State) : CopyDesc := CopyDesc.ofBytes (s.readLocalBytes at_ 64)
          let entry (s : State) (w : Wave) (k : Nat) : LocalAt :=
            s.placeOf w (((desc s).aux + k * (desc s).indexSize) % 2 ^ 32) (desc s).indexSize
          let open_ (s : State) (w : Wave) (p : Split) : Prop :=
            w.partialMask p = false ∧ w.S a.toNat = w.Sh a.toNat ∧ s.descAt w (w.S a.toNat) 64 (w.active p) = .ok at_ ∧ w.port = [] ∧
              s.hasToken w = true ∧ s.softErrors = []
          leadsTo i
            (fun s w p => open_ s w p ∧ (desc s).legal f = true ∧ s.checkElems w (w.active p) ((desc s).accesses f) = none ∧
              (desc s).tierRefused f w.kern.tier = false ∧ w.counter f.counter < 255 ∧ s.copiesFull w.core = false)
            (fun s w p =>
              let list := if f.indexed then (List.range (desc s).n1).map fun k => leNat (s.readLocalBytes (entry s w k) (desc s).indexSize) else []
              afterEnqueue (some f.counter) f.kind (w.active p) (s.copyPieces w (desc s) f (p.lanes.lowest w.W) fun k => nth list k 0) none
                (desc s).tier id id s w p) ∧
          leadsTo i (fun s w p => open_ s w p ∧ (desc s).legal f = false)
            (fun s w p => s.takeTrap w p 0x0A p.pc (w.S a.toNat).toNat (w.active p)) ∧
          leadsTo i
            (fun s w p => open_ s w p ∧ (desc s).legal f = true ∧ s.checkElems w (w.active p) ((desc s).accesses f) = none ∧
              (desc s).tierRefused f w.kern.tier = true)
            (fun s w p => s.takeTrap w p 0x0B p.pc (w.S a.toNat).toNat (w.active p)) ∧
          leadsTo i
            (fun s w p => open_ s w p ∧ (desc s).legal f = true ∧ s.checkElems w (w.active p) ((desc s).accesses f) = none ∧
              (desc s).tierRefused f w.kern.tier = false ∧ (255 ≤ w.counter f.counter ∨ s.copiesFull w.core = true))
            (fun s _ _ => s) ∧
          (∀ r, leadsTo i
            (fun s w p => open_ s w p ∧ (desc s).legal f = true ∧ s.checkElems w (w.active p) ((desc s).accesses f) = some r)
            (fun s w p => s.takeTrap w p r.cause p.pc r.addr r.mask)) ∧
          (∀ r, leadsTo i
            (fun s w p => w.partialMask p = false ∧ w.S a.toNat = w.Sh a.toNat ∧ s.descAt w (w.S a.toNat) 64 (w.active p) = .error r)
            (fun s w p => s.takeTrap w p r.cause p.pc r.addr r.mask)) ∧
          leadsTo i (fun _ w p => w.partialMask p = false ∧ w.S a.toNat ≠ w.Sh a.toNat) scalarMismatch ∧
          leadsTo i (fun _ w p => w.partialMask p = true) (fun s w p => s.takeTrap w p 0x1A p.pc 0 (w.active p))
      row (.cpin a) .cin ∧ row (.cpout a) .cout ∧ row (.cpgat a) .gat ∧ row (.cpsca a) .sca ∧ row (.cpfill a) .fill ∧ row (.cplocal a) .loc) ∧
  (∀ (s : State) (core : Nat),
    s.copiesFull core = true ↔ 256 ≤ ((s.waves.filter fun w => w.core == core).map fun w => (w.ops.filter Op.copying).length).sum) ∧
  (∀ (x : CopyDesc) (f : CopyFn) (index : Nat → Nat) (e0 e1 e2 : Nat),
      (f.indexed = false → x.main f index (e0, e1, e2) = (x.gaddr + e0 * 2 ^ x.esz + e1 * x.gs1 + e2 * x.gs2) % 2 ^ 64) ∧
      (f.indexed = true → x.main f index (e0, e1, e2) = (x.gaddr + e0 * 2 ^ x.esz + index e1 * x.gs1) % 2 ^ 64) ∧
      x.local_ x.laddr (e0, e1, e2) = (x.laddr + e0 * 2 ^ x.esz + e1 * x.ls1 + e2 * x.ls2) % 2 ^ 32 ∧
      ((e0, e1, e2) ∈ x.elements ↔ e0 < x.n0 ∧ e1 < x.n1 ∧ e2 < x.n2))

/-- R210, R211, R208, R333: `wait` goes on when its counter reads n or less, and until then it waits and nothing changes. A `fence` goes on when the
wave's earlier accesses have performed to its scope; until then its split stands in it; a fault that has come pending by then is delivered at the
`fence` in place of its going on. -/
def Obligations.WaitAndFenceHold : Prop :=
  (∀ k n : Byte,
    leadsTo (.wait k n) (fun _ w _ => w.counter k.toNat ≤ n.toNat) (fun s w p => s.putWave (w.advance p)) ∧
    leadsTo (.wait k n) (fun _ w _ => n.toNat < w.counter k.toNat) (fun s _ _ => s)) ∧
  ∀ scope order : BitVec 4,
    let acquired (w : Wave) : Prop :=
      (∀ x ∈ w.port, x.job.writesRegister = false) ∧
        ∀ o ∈ w.ops, (o.kind = .cpin ∨ o.kind = .cpgat ∨ (∃ d, o.kind = .satomic d) ∨ ∃ d, o.kind = .vatomic d) → ∀ q ∈ o.parts, q.settled = true
    let released (s : State) (w : Wave) : Prop :=
      w.port = [] ∧ (∀ o ∈ w.ops, o.ctr ≠ none → o.complete = true) ∧ (4 ≤ scope.toNat → ∀ e ∈ s.sideLog, e.wave ≠ w.key) ∧
        (6 ≤ scope.toNat → s.hostWrites = 0)
    let met (s : State) (w : Wave) : Prop := (order ≠ 1 → acquired w) ∧ (order ≠ 0 → released s w)
    leadsTo (.fence scope order) (fun s w _ => met s w ∧ w.engineFault = none ∧ w.matFault = none)
      (fun s w p => s.putWave (w.advance { p with status := .ready })) ∧
    (∀ m x, leadsTo (.fence scope order) (fun s w _ => met s w ∧ w.due (fun _ _ => true) = some (m, x))
      (fun s w p => s.takeTrap (if m = true then { w with matFault := none } else { w with engineFault := none }) p x.cause p.pc x.addr x.mask)) ∧
    leadsTo (.fence scope order) (fun s w p => ¬met s w ∧ p.status ≠ .fencing) (fun s w p => s.putWave (w.setSplit { p with status := .fencing })) ∧
    leadsTo (.fence scope order) (fun s w p => ¬met s w ∧ p.status = .fencing) (fun s _ _ => s)

/-! ### The matrix engine -/

/-- R215-R229: the matrix words that read no descriptor. `mzero` and `mldv` join the matrix queue and count on `mat`, with the row mask, MR and
(for `mldv`) the 32 sources as they are at issue; `mdrv` counts on no counter, and its 32 registers become empty; it waits for the turns of
products that can still fail (R238). R230-R233: `mdrl` and `mdrx` join the matrix queue with their descriptor's bytes, and one piece for each
place or cell they write, whose values come at the turn; the split of an `mdrx` enters an interval. An illegal descriptor traps DESC, a place or
cell out of bounds LOCALBOUND, a misaligned one ALIGN; so does a descriptor's own address. While the counter is full the word waits.
That `mdrl` and `mdrx` judge DESC before their places and cells, against the order of R237's table, is the model's choice (log 23, DESIGN CHOICE), and
so is that `mdrv` alone waits for a turn that can still fail (log 25, DESIGN CHOICE). -/
def Obligations.MatrixWordsAndDrainsIssue : Prop :=
  (∀ d a : Byte,
      leadsTo (.mzero d) (fun _ w _ => w.counter 2 < 255)
        (fun s w p => afterEnqueue (some 2) .mzero (w.active p) [] (some (w.matJob d.toNat)) 0 id id s w p) ∧
      leadsTo (.mldv d a) (fun _ w _ => w.counter 2 < 255)
        (fun s w p => afterEnqueue (some 2) .mldv (w.active p) []
          (some { w.matJob d.toNat with regs := (List.range 32).map fun c => (w.vreg (a.toNat + c)).lanes }) 0 id id s w p) ∧
      leadsTo (.mdrv d a) (fun _ w _ => w.mayFail = true) (fun s _ _ => s) ∧
      leadsTo (.mdrv d a) (fun _ w _ => w.mayFail = false) (fun s w p =>
        let e := (List.range 32).foldl (fun (w : Wave) c => w.markV (d.toNat + c) true) w
        afterEnqueue none (.mdrv d.toNat) (e.active p) [] (some (e.matJob a.toNat)) 0 (fun _ => e) id s w p) ∧
      ∀ i, (i = .mzero d ∨ i = .mldv d a) → leadsTo i (fun _ w _ => 255 ≤ w.counter 2) fun s _ _ => s) ∧
  (∀ (a b : Byte) (at_ : LocalAt),
      let bytes (s : State) : List Byte := s.readLocalBytes at_ 32
      let open_ (s : State) (w : Wave) (p : Split) : Prop :=
        s.descAt w (w.S b.toNat) 32 (w.active p) = .ok at_ ∧ w.port = [] ∧ s.hasToken w = true ∧ s.softErrors = []
      let job (s : State) (w : Wave) : MatJob :=
        { w.matJob a.toNat with aDesc := bytes s, addr := (w.S b.toNat).toNat, addrS := (w.Sh b.toNat).toNat }
      let accs (s : State) (w : Wave) (p : Split) : List (Nat × Access) :=
        (w.rowsOf (w.active p)).flatMap fun v => (DrainDesc.ofBytes (bytes s)).accesses w.C.storage (w.primary v) v
      let cell (s : State) (w : Wave) (v c : Nat) : Piece :=
        let e := cellOf (bytes s) v c
        ⟨0, e, none, if homeOf e = 0xFF then some (s.placeOf w (e % 2 ^ 32) 64) else none, [], [0], .cxAdd .zero, w.primary v⟩
      let strided (s : State) : Prop :=
        field (bytes s) 0x18 8 = 0 ∧ field (bytes s) 8 8 % 64 = 0 ∧ field (bytes s) 0x10 8 % 64 = 0
      leadsTo (.mdrl a b)
        (fun s w p => open_ s w p ∧ (DrainDesc.ofBytes (bytes s)).legal w.C.storage = true ∧
          s.checkLanes w ((accs s w p).map Prod.snd) = none ∧ w.counter 2 < 255)
        (fun s w p => afterEnqueue (some 2) .mdrl (w.active p) ((accs s w p).map (s.writePiece w)) (some (job s w)) 0 id id s w p) ∧
      leadsTo (.mdrl a b) (fun s w p => open_ s w p ∧ (DrainDesc.ofBytes (bytes s)).legal w.C.storage = false)
        (fun s w p => s.takeTrap w p 0x0A p.pc (w.S b.toNat).toNat (w.active p)) ∧
      leadsTo (.mdrx a b)
        (fun s w p => open_ s w p ∧ strided s ∧ w.counter 2 < 255 ∧
          ∀ v ∈ w.rowsOf (w.active p), ∀ c, c < 32 →
            s.outsideCell w (cellOf (bytes s) v c) = none ∧ cellOf (bytes s) v c % 64 = 0)
        (fun s w p => afterEnqueue (some 2) .mdrx (w.active p)
          ((w.rowsOf (w.active p)).flatMap fun v => (List.range 32).map fun c => cell s w v c) (some (job s w)) 0 id
          (fun _ => p.opens w) s w p) ∧
      (∀ r, leadsTo (.mdrl a b)
        (fun s w p => open_ s w p ∧ (DrainDesc.ofBytes (bytes s)).legal w.C.storage = true ∧
          s.checkLanes w ((accs s w p).map Prod.snd) = some r)
        (fun s w p => s.takeTrap w p r.cause p.pc r.addr (w.pairUp r.mask))) ∧
      (∀ v c x, leadsTo (.mdrx a b)
        (fun s w p => open_ s w p ∧ strided s ∧ v ∈ w.rowsOf (w.active p) ∧ c < 32 ∧ s.outsideCell w (cellOf (bytes s) v c) = some x ∧
          ∀ u ∈ w.rowsOf (w.active p), ∀ k, k < 32 → u < v ∨ u = v ∧ k < c → s.outsideCell w (cellOf (bytes s) u k) = none)
        (fun s w p => s.takeTrap w p 0x09 p.pc x (w.pairUp (Mask.ofLanes (((w.rowsOf (w.active p)).filter fun u =>
          (List.range 32).any fun k => (s.outsideCell w (cellOf (bytes s) u k)).isSome).map w.primary))))) ∧
      (∀ v c, leadsTo (.mdrx a b)
        (fun s w p => open_ s w p ∧ strided s ∧ v ∈ w.rowsOf (w.active p) ∧ c < 32 ∧ cellOf (bytes s) v c % 64 ≠ 0 ∧
          (∀ u ∈ w.rowsOf (w.active p), ∀ k, k < 32 → s.outsideCell w (cellOf (bytes s) u k) = none) ∧
          ∀ u ∈ w.rowsOf (w.active p), ∀ k, k < 32 → u < v ∨ u = v ∧ k < c → cellOf (bytes s) u k % 64 = 0)
        (fun s w p => s.takeTrap w p 0x08 p.pc (cellOf (bytes s) v c) (w.pairUp (Mask.ofLanes (((w.rowsOf (w.active p)).filter fun u =>
          (List.range 32).any fun k => decide (cellOf (bytes s) u k % 64 ≠ 0)).map w.primary))))) ∧
      leadsTo (.mdrx a b) (fun s w p => open_ s w p ∧ ¬strided s)
        (fun s w p => s.takeTrap w p 0x0A p.pc (w.S b.toNat).toNat (w.active p)) ∧
      leadsTo (.mdrl a b)
        (fun s w p => open_ s w p ∧ (DrainDesc.ofBytes (bytes s)).legal w.C.storage = true ∧
          s.checkLanes w ((accs s w p).map Prod.snd) = none ∧ 255 ≤ w.counter 2) (fun s _ _ => s) ∧
      leadsTo (.mdrx a b)
        (fun s w p => open_ s w p ∧ strided s ∧ 255 ≤ w.counter 2 ∧
          ∀ v ∈ w.rowsOf (w.active p), ∀ c, c < 32 →
            s.outsideCell w (cellOf (bytes s) v c) = none ∧ cellOf (bytes s) v c % 64 = 0) (fun s _ _ => s) ∧
      ∀ i r, (i = .mdrl a b ∨ i = .mdrx a b) →
        leadsTo i (fun s w p => s.descAt w (w.S b.toNat) 32 (w.active p) = .error r)
          (fun s w p => s.takeTrap w p r.cause p.pc r.addr r.mask))

/-- R217-R225, R236: `mma` and `mmaz`. With legal descriptors and operands in bounds and aligned, the word joins the matrix queue with one piece for
each access of the rows and columns it reads (none of A where the latch serves), and the latch takes its A descriptor; an illegal descriptor,
A's or B's, traps DESC at that descriptor's address. Formats that differ are B's fault (log 23), and so are reported at B's address.
An address of a descriptor that fails, of a shadow copy too, traps LOCALBOUND or ALIGN; while the counter is full the word waits.
That the fields of the descriptors are judged before the addresses of the operands, against the order of R237's table, is the model's choice (log 23,
DESIGN CHOICE), and so is that neither word waits for a turn that can still fail (log 25, DESIGN CHOICE). -/
def Obligations.MatrixMultiplyIssues : Prop :=
  ∀ (d a b : Byte) (pa pb qa qb : LocalAt),
    let row (i : Instr) (zero : Bool) : Prop :=
      let bytes (s : State) (x : LocalAt) : List Byte := s.readLocalBytes x 32
      let da (s : State) (sh : Bool) : MatDesc := MatDesc.ofBytes (bytes s (if sh then qa else pa))
      let db (s : State) (sh : Bool) : MatDesc := MatDesc.ofBytes (bytes s (if sh then qb else pb))
      let f (s : State) (w : Wave) (sh : Bool) : Fmt := ((da s sh).fmt w).getD .i8
      let hit (s : State) (w : Wave) (p : Split) (sh : Bool) : Bool :=
        latched (if sh then w.latchS else w.latch) (bytes s (if sh then qa else pa)) (w.active p)
      let lineA (s : State) (w : Wave) (p : Split) (sh : Bool) : List Access :=
        if hit s w p sh then []
        else (w.rowsOf (w.active p)).flatMap fun v => (da s sh).lineAccesses (f s w sh) false (w.primary v + sh.toNat) v
      let lineB (s : State) (w : Wave) (p : Split) (sh : Bool) : List Access :=
        if w.rowsOf (w.active p) = [] then [] else (List.range 32).flatMap fun c => (db s sh).lineAccesses (f s w sh) true 0 c
      let open_ (s : State) (w : Wave) (p : Split) : Prop :=
        s.descAt w (w.S a.toNat) 32 (w.active p) = .ok pa ∧ s.descAt w (w.S b.toNat) 32 (w.active p) = .ok pb ∧
          s.descAt w (w.Sh a.toNat) 32 (w.active p) = .ok qa ∧ s.descAt w (w.Sh b.toNat) 32 (w.active p) = .ok qb ∧
          w.port = [] ∧ s.hasToken w = true ∧ s.softErrors = []
      let legal (s : State) (w : Wave) : Prop :=
        ∀ sh ∈ w.copies, (da s sh).legal w false = true ∧ (db s sh).legal w true = true ∧ (da s sh).fmt w = (db s sh).fmt w
      leadsTo i
        (fun s w p => open_ s w p ∧ legal s w ∧ w.counter 2 < 255 ∧
          s.checkOperands w (w.active p) (w.copies.flatMap (lineA s w p)) (w.copies.flatMap (lineB s w p)) = none)
        (fun s w p =>
          let pieces := w.copies.flatMap fun sh =>
            (lineA s w p sh).map (s.readPiece w sh.toNat) ++ (lineB s w p sh).map (s.readPiece w (2 + sh.toNat))
          let job : MatJob :=
            { w.matJob d.toNat with
              aDesc := bytes s pa, bDesc := bytes s pb, aDescS := bytes s qa, bDescS := bytes s qb
              useLatch := hit s w p false, useLatchS := hit s w p true }
          afterEnqueue (some 2) (.mma zero) (w.active p) pieces (some job) 0
            (fun w => { w with
              latch := latchAfter w.latch (bytes s pa) (w.active p)
              latchS := if w.paired then latchAfter w.latchS (bytes s qa) (w.active p) else none }) id s w p) ∧
      leadsTo i (fun s w p => open_ s w p ∧ (da s false).legal w false = false)
        (fun s w p => s.takeTrap w p 0x0A p.pc (w.S a.toNat).toNat (w.active p)) ∧
      leadsTo i (fun s w p => open_ s w p ∧ (da s false).legal w false = true ∧
          ((db s false).legal w true = false ∨ (da s false).fmt w ≠ (db s false).fmt w))
        (fun s w p => s.takeTrap w p 0x0A p.pc (w.S b.toNat).toNat (w.active p)) ∧
      (let primary (s : State) (w : Wave) : Prop :=
        (da s false).legal w false = true ∧ (db s false).legal w true = true ∧ (da s false).fmt w = (db s false).fmt w ∧ w.paired = true
       leadsTo i (fun s w p => open_ s w p ∧ primary s w ∧ (da s true).legal w false = false)
         (fun s w p => s.takeTrap w p 0x0A p.pc (w.Sh a.toNat).toNat (w.active p)) ∧
       leadsTo i (fun s w p => open_ s w p ∧ primary s w ∧ (da s true).legal w false = true ∧
           ((db s true).legal w true = false ∨ (da s true).fmt w ≠ (db s true).fmt w))
         (fun s w p => s.takeTrap w p 0x0A p.pc (w.Sh b.toNat).toNat (w.active p))) ∧
      (∀ r, leadsTo i (fun s w p => s.descAt w (w.S a.toNat) 32 (w.active p) = .error r) (fun s w p => s.takeTrap w p r.cause p.pc r.addr r.mask)) ∧
      (∀ r, leadsTo i (fun s w p => s.descAt w (w.S a.toNat) 32 (w.active p) = .ok pa ∧ s.descAt w (w.S b.toNat) 32 (w.active p) = .error r)
        (fun s w p => s.takeTrap w p r.cause p.pc r.addr r.mask)) ∧
      (let both (s : State) (w : Wave) (p : Split) : Prop :=
        s.descAt w (w.S a.toNat) 32 (w.active p) = .ok pa ∧ s.descAt w (w.S b.toNat) 32 (w.active p) = .ok pb
       ∀ r,
        leadsTo i (fun s w p => both s w p ∧ s.descAt w (w.Sh a.toNat) 32 (w.active p) = .error r)
          (fun s w p => s.takeTrap w p r.cause p.pc r.addr r.mask) ∧
        leadsTo i (fun s w p => both s w p ∧ s.descAt w (w.Sh a.toNat) 32 (w.active p) = .ok qa ∧
            s.descAt w (w.Sh b.toNat) 32 (w.active p) = .error r)
          (fun s w p => s.takeTrap w p r.cause p.pc r.addr r.mask)) ∧
      leadsTo i
        (fun s w p => open_ s w p ∧ legal s w ∧ 255 ≤ w.counter 2 ∧
          s.checkOperands w (w.active p) (w.copies.flatMap (lineA s w p)) (w.copies.flatMap (lineB s w p)) = none)
        (fun s _ _ => s) ∧
      ∀ r, leadsTo i
        (fun s w p => open_ s w p ∧ legal s w ∧
          s.checkOperands w (w.active p) (w.copies.flatMap (lineA s w p)) (w.copies.flatMap (lineB s w p)) = some r)
        (fun s w p => s.takeTrap w p r.cause p.pc r.addr r.mask)
    row (.mma d a b) false ∧ row (.mmaz d a b) true

/-- R215, R227, R228: writing rows of a tile group writes exactly those rows and gives each of the group's tiles its kind. -/
def Obligations.TileRowsWritten : Prop :=
  ∀ (w : Wave) (twin : Bool) (base : Nat) (rows : List Nat) (int : Bool) (row : Nat → List Word32),
    (∀ t, t < (if twin then w.a.twins else w.a.tiles).length → (w.tile twin t).words.length = 1024) →
    (∀ v ∈ rows, v < 32 * w.G ∧ (row v).length = 32) → base + w.G ≤ (if twin then w.a.twins else w.a.tiles).length →
    let t := w.writeRows twin base rows int row
    (∀ v, t.rowAt twin base v = if v ∈ rows then row v else w.rowAt twin base v) ∧
    (∀ j, j < w.G → (t.tile twin (base + j)).int = int) ∧
    (∀ k, k < base ∨ base + w.G ≤ k → t.tile twin k = w.tile twin k) ∧ ∀ k, t.tile (!twin) k = w.tile (!twin) k

/-- R220, R221: with an integer operand format and `sat` clear, a product word becomes its old value plus the exact sum of the K products,
modulo 2^32, and no flag but `sat` can be raised. -/
def Obligations.IntegerProductIsExactSum : Prop :=
  ∀ (f : Fmt) (a b : MatDesc) (am bm : Fetched) (m c : Nat) (old : Word32), f.tileInt = true →
    let term (k : Nat) : Int := (a.elem f false am m k).toInt * (b.elem f true bm c k).toInt
    (productWord f false a b am bm m c old).1 = old + BitVec.ofInt 32 (((List.range f.matK).map term).sum) ∧
      ((productWord f false a b am bm m c old).2 = 0 ∨ (productWord f false a b am bm m c old).2 = 0x20)

/-! ### Control -/

/-- R112: a word offset names the address 4·offset from the word's own, modulo 2^64. R145, R144: `bra` sends the whole split to its target. `brp`
and `brn` send the lanes in which their predicate reads 1, or 0; where that is all of the split or none of it the split stays one, otherwise it
becomes two, the rest at the next word. Where a pair's copies of the predicate differ, it is a mismatch. -/
def Obligations.BranchResults : Prop :=
  (∀ (pc : Nat) (o : BitVec 20), (targetOf pc o : Int) = ((pc : Int) + 4 * o.toInt) % 2 ^ 64) ∧
  (∀ (pr : BitVec 4) (o : BitVec 20),
      let differ (w : Wave) (p : Split) : Mask := w.differing p.lanes fun l => ((w.pred pr.toNat).has l).toNat
      let row (i : Instr) (taken : Wave → Split → Mask) : Prop :=
        leadsTo i (fun _ w p => differ w p = 0 ∧ taken w p = p.lanes) (afterJump fun _ p => targetOf p.pc o) ∧
        leadsTo i (fun _ w p => differ w p = 0 ∧ taken w p ≠ p.lanes ∧ taken w p = 0) (afterJump fun _ p => (p.pc + 4) % 2 ^ 64) ∧
        leadsTo i (fun _ w p => differ w p = 0 ∧ taken w p ≠ p.lanes ∧ taken w p ≠ 0)
          (afterControl fun w p => w.forkSplit
            [{ p with lanes := p.lanes.diff (taken w p), pc := (p.pc + 4) % 2 ^ 64 }, { p with lanes := taken w p, pc := targetOf p.pc o }]) ∧
        leadsTo i (fun _ w p => differ w p ≠ 0) (pairMismatch differ)
      leadsTo (.bra o) anyState (afterJump fun _ p => targetOf p.pc o) ∧
      row (.brp pr o) (fun w p => p.lanes &&& w.pred pr.toNat) ∧ row (.brn pr o) (fun w p => p.lanes.diff (w.pred pr.toNat)))

/-- R149, R150, R144: `brx` checks every lane's target and then parts its split by target; a target that is no `land` traps LANDING at the lowest
failing lane's target, and no lane moves; pairs whose targets differ are a mismatch. `land` only advances. -/
def Obligations.IndirectBranchResults : Prop :=
  ∀ a b : Byte,
    let target (w : Wave) (l : Nat) : Nat :=
      ((if w.isShadow l then w.Sh a.toNat else w.S a.toNat) + (w.src b .raw l).setWidth 64).toNat
    let differ (w : Wave) (p : Split) : Mask := w.differing p.lanes (target w)
    let alike (w : Wave) (p : Split) : Prop := differ w p = 0
    leadsTo (.brx a b) (fun _ w p => ¬alike w p) (pairMismatch differ) ∧
    leadsTo (.brx a b) (fun _ w p => alike w p ∧ ∀ l ∈ w.list p.lanes, w.instrAt (target w l) = some .land)
      (afterControl fun w p => w.forkSplit ((((w.list p.lanes).map (target w)).eraseDups).map fun t =>
        { p with lanes := Mask.ofLanes ((w.list p.lanes).filter fun l => target w l == t), pc := t })) ∧
    (∀ l, leadsTo (.brx a b)
      (fun _ w p => alike w p ∧ l ∈ w.list p.lanes ∧ w.instrAt (target w l) ≠ some .land ∧
        ∀ k ∈ w.list p.lanes, k < l → w.instrAt (target w k) = some .land)
      (fun s w p => s.takeTrap w p 0x05 p.pc (target w l)
        (Mask.ofLanes ((w.list p.lanes).filter fun k => decide (w.instrAt (target w k) ≠ some .land))))) ∧
    leadsTo .land anyState (fun s w p => s.putWave (w.advance p))

/-- R143, R146-R148: `split` opens a region around its split, with all its lanes pending; the sixty-fifth traps CALLDEPTH. `join` arrives at the
innermost visible region, and is as `nop` without one. `brk` takes its lanes out of n visible regions; with fewer it traps BREAKDEPTH. Each
region whose pending lanes have all arrived closes, so that none of them is left. R147: closing a region whose pending lanes have all arrived: the splits
that waited there become one, with exactly the pending lanes, at the word after the join point, with the chain below the region and every write they
still make on its scoreboard, and the region is gone; a region with a lane still to arrive stays as it is; and of one whose pending set has become empty
no split goes on. The youngest closes first, and then entries that no split's chain holds are freed (R143). -/
def Obligations.RegionWordsAndClosing : Prop :=
  (∀ (o : BitVec 20) (n : BitVec 4),
      let visible (w : Wave) (p : Split) : List Nat := w.a.visibleRegions p.chain
      leadsTo (.split o) (fun _ w p => w.a.countRegions p.chain < 64)
        (fun s w p =>
          let w := { w with a := { w.a with entries := .region s.nextKey (targetOf p.pc o) p.lanes 0 :: w.a.entries } }
          { s with nextKey := s.nextKey + 1 }.putWave
            ((w.setSplit { p with chain := s.nextKey :: p.chain, pc := (p.pc + 4) % 2 ^ 64 }).retire { p with chain := s.nextKey :: p.chain })) ∧
      leadsTo (.split o) (fun _ w p => 64 ≤ w.a.countRegions p.chain) (fun s w p => s.takeTrap w p 0x1B p.pc 0 p.lanes) ∧
      leadsTo .join (fun _ w p => visible w p = []) (fun s w p => s.putWave (w.advance p)) ∧
      (∀ g rest, leadsTo .join (fun _ w p => visible w p = g :: rest)
        (afterControl fun w p =>
          let arrive (e : Entry) : Entry :=
            match e with
            | .region k j pend arr => .region k j pend (if k = g then arr ||| p.lanes else arr)
            | .frame k r => .frame k r
          let w := w.setSplit { p with status := .atJoin g }
          { w with a := { w.a with entries := w.a.entries.map arrive }.closeRegions })) ∧
      leadsTo (.brk n o) (fun _ w p => n.toNat ≤ (visible w p).length)
        (afterControl fun w p =>
          let leave (e : Entry) : Entry := if ((visible w p).take n.toNat).contains e.key then e.unpend p.lanes else e
          let w := w.setSplit { p with chain := p.chain.drop n.toNat, pc := targetOf p.pc o }
          { w with a := { w.a with entries := w.a.entries.map leave }.closeRegions }) ∧
      leadsTo (.brk n o) (fun _ w p => (visible w p).length < n.toNat) (fun s w p => s.takeTrap w p 0x07 p.pc n.toNat p.lanes)) ∧
  (∀ (a : Arch) (g join : Nat) (pend arr : Mask),
      (pend ≠ arr → a.closeOne (.region g join pend arr) = a) ∧
      (pend = arr → pend ≠ 0 → (∃ p ∈ a.splits, p.status = .atJoin g) →
        let b := a.closeOne (.region g join pend arr)
        (∀ e ∈ b.entries, e.key ≠ g) ∧ (∀ p ∈ b.splits, p.status ≠ .atJoin g) ∧
        (∃ m rest, b.splits = m :: rest ∧ m.lanes = pend ∧ m.pc = (join + 4) % 2 ^ 64 ∧ m.status = .ready ∧
          (rest = a.splits.filter fun p => !decide (p.status = .atJoin g)) ∧
          (∀ first more, a.splits.filter (fun p => decide (p.status = .atJoin g)) = first :: more → m.chain = first.chain.tail) ∧
          ∀ c, c ∈ m.board ↔ ∃ p ∈ a.splits, p.status = .atJoin g ∧ c ∈ p.board) ∧
        b.vregs = a.vregs ∧ b.sregs = a.sregs ∧ b.preds = a.preds ∧ b.live = a.live) ∧
      (pend = arr → pend = 0 →
        let b := a.closeOne (.region g join pend arr)
        (∀ e ∈ b.entries, e.key ≠ g) ∧ b.splits = a.splits.filter fun p => !decide (p.status = .atJoin g))) ∧
  ∀ a : Arch,
    a.closeRegions = (a.entries.foldl Arch.closeOne a).collect ∧
    (∀ g join pend arr, .region g join pend arr ∈ a.closeRegions.entries → .region g join pend arr ∈ a.entries ∧ pend ≠ arr) ∧
    a.collect.splits = a.splits ∧ ∀ e, e ∈ a.collect.entries ↔ e ∈ a.entries ∧ ∃ p ∈ a.splits, e.key ∈ p.chain

/-- R143, R151: `call` pushes a frame with the address after it and sends the split to its target; the sixty-fifth traps CALLDEPTH. `ret` pops the
innermost frame and sends the split to its return address; under a visible region, or without a frame, it traps CALLDEPTH. -/
def Obligations.CallReturnResults : Prop :=
  ∀ o : BitVec 20,
    leadsTo (.call o) (fun _ w p => w.a.countFrames p.chain < 64)
      (fun s w p =>
        let w := { w with a := { w.a with entries := .frame s.nextKey ((p.pc + 4) % 2 ^ 64) :: w.a.entries } }
        { s with nextKey := s.nextKey + 1 }.putWave
          ((w.setSplit { p with chain := s.nextKey :: p.chain, pc := targetOf p.pc o }).retire { p with chain := s.nextKey :: p.chain })) ∧
    leadsTo (.call o) (fun _ w p => 64 ≤ w.a.countFrames p.chain) (fun s w p => s.takeTrap w p 0x1B p.pc 0 p.lanes) ∧
    (∀ k below r, leadsTo .ret
      (fun _ w p => w.a.visibleRegions p.chain = [] ∧ p.chain = k :: below ∧ w.a.entry? k = some (.frame k r))
      (afterControl fun w p =>
        let w := w.setSplit { p with chain := below, pc := r }
        { w with a := w.a.collect })) ∧
    leadsTo .ret (fun _ w p => w.a.visibleRegions p.chain ≠ [])
      (fun s w p => s.takeTrap w p 0x1B p.pc (if p.chain.length = (w.a.visibleRegions p.chain).length then 0 else (w.a.visibleRegions p.chain).length) p.lanes) ∧
    leadsTo .ret (fun _ _ p => p.chain = []) (fun s w p => s.takeTrap w p 0x1B p.pc 0 p.lanes)

/-- R152, R22, R23, R299, R365: `exit`. The status words of its primaries enter the launch's record; the active lanes vacate; a wave left without
lanes goes on to its next deal, to drain state once every register is full (R121), or to its end. With no active lane it only advances. Pairs
whose status words differ are a mismatch. In deterministic mode it ends the visit, and a wave that may retire then does so. -/
def Obligations.ExitResults : Prop :=
  (∀ a : Byte,
    let differ (w : Wave) (p : Split) : Mask := w.differing (w.active p) fun l => (w.src a .raw l).toNat
    let left (w : Wave) (p : Split) : Wave := (w.advance p).vacateLanes (w.active p)
    let counted (s : State) (w : Wave) (p : Split) : State :=
      (s.countExits w (w.performers (w.active p)) (w.src a .raw)).putWave (left w p)
    let retired (s : State) (w : Wave) : State :=
      match s.wave? w.key with
      | some x => if x.status = .retiring ∧ s.deterministic x = true ∧ x.mayRetire = true then s.retireWave x else s
      | none => s
    leadsTo (.exit a) (fun _ w p => differ w p = 0 ∧ w.active p = 0) (fun s w p => (s.putWave (w.advance p)).visitWord w.key) ∧
    leadsTo (.exit a) (fun _ w p => differ w p = 0 ∧ w.active p ≠ 0 ∧ (left w p).a.live ≠ 0)
      (fun s w p => (retired (counted s w p) w).visitWord w.key) ∧
    leadsTo (.exit a) (fun _ w p => differ w p = 0 ∧ w.active p ≠ 0 ∧ (left w p).a.live = 0)
      (fun s w p => (retired ((counted s w p).wholeVacant (left w p)) w).visitWord w.key) ∧
    leadsTo (.exit a) (fun _ w p => differ w p ≠ 0) (pairMismatch differ) ∧
    ∀ (s : State) (w x : Wave), s.wave? w.key = some x → s.deterministic x = false → (retired s w).visitWord w.key = s) ∧
  (∀ (w : Wave) (gone : Mask), w.frame = none →
    (w.vacateLanes gone).a.live = w.a.live.diff gone ∧ (w.vacateLanes gone).a.vregs = w.a.vregs ∧
    (w.vacateLanes gone).a.sregs = w.a.sregs ∧ (w.vacateLanes gone).a.preds = w.a.preds) ∧
  ∀ (s : State) (w : Wave) (l : Launch), s.launch? w.launch = some l → (s.wave? w.key).isSome = true →
    let now (st : WaveStatus) : State := s.putWave { w with status := st }
    (w.kern.refill = true → l.dealer < l.total → s.wholeVacant w = now .awaitingDeal) ∧
    (w.kern.refill = false ∨ l.total ≤ l.dealer →
      (w.kern.drain = none ∨ w.drained = true → s.wholeVacant w = now .retiring) ∧
      ∀ off, w.kern.drain = some off → w.drained = false →
        (w.settled = false ∨ w.demand ≠ none → s.wholeVacant w = now .awaitingDrain) ∧
        (w.settled = true → w.demand = none →
          ∃ t v, s.wholeVacant w = t ∧ t.wave? w.key = some v ∧ v.status = .running ∧ v.drained = true ∧ v.a.drain = true ∧
            v.a.live = Mask.below w.W ∧ (v.a.splits.map fun q => (q.lanes, q.pc)) = [(Mask.below w.W, w.kern.codeVa + off)] ∧
            (∀ r ∈ v.a.vregs, ∀ x ∈ r.lanes, x = 0) ∧ (∀ m ∈ v.a.preds, m = 0) ∧ v.checkpoint.isSome = true))

/-- R153, R21, R18: `refill`. With an open region it traps REFILLDEPTH; else it waits for the wave's work to settle and for the token, and for nothing
else outside deterministic mode; in it, for the whole run too (R368). The next run of dealable items fills the vacant lanes, which join the split and are
the fresh lanes that pD marks; the wave takes a checkpoint at the word after it, and in a handler, which takes none, the deal enters the wave's own
(log 27). It waits for no split that stands in an issued `launch`, whose interval the checkpoint leaves open (log 27, DEDUCED). Where the deal rests on a
bit of a producer that has not completed it is an acquire fence (R301), in which the split stands after it until its next word (log 27, DEDUCED). -/
def Obligations.RefillResults : Prop :=
  ∀ (d : Byte) (l : Launch),
    let most (w : Wave) : Nat := if w.a.drain = true then 0 else w.vacant.length
    let items (s : State) (w : Wave) : List Nat := s.dealRun l (most w)
    let open_ (s : State) (w : Wave) : Prop :=
      w.settled = true ∧ s.hasToken w = true ∧
        (l.desc.deterministic = false ∨ min (most w) (l.total - l.dealer) ≤ (items s w).length)
    leadsTo (.refill d) (fun _ w _ => 0 < w.openRegions) (fun s w p => s.takeTrap w p 0x06 p.pc w.openRegions p.lanes) ∧
    leadsTo (.refill d) (fun s w _ => w.openRegions = 0 ∧ s.launch? w.launch = some l ∧ ¬open_ s w) (fun s _ _ => s) ∧
    leadsTo (.refill d) (fun s w _ => w.openRegions = 0 ∧ s.launch? w.launch = some l ∧ open_ s w)
      (fun s w p =>
        let base := match w.frame with
          | some f => if items s w = [] then w else w.dealCheckpoint f l.desc (items s w)
          | none => w
        let v := if items s w = [] then { base with a := { base.a with fresh := 0 } } else base.deal l.desc (items s w)
        let new := v.a.live.diff w.allLive
        let q := { p with lanes := p.lanes ||| new, status := if s.restsOnBit l (items s w) = true then .acquiring else p.status }
        let v := ((v.joinFresh p new).setPred d.toNat q.lanes new).advance q
        let v := if v.system = true then v
          else v.takeCheckpoint (v.regionAt ((p.pc + 4) % 2 ^ 64) 0) ((p.pc + 4) % 2 ^ 64) none (s.deterministic v)
        ((s.advanceDealer l.key (items s w).length).putWave v).clearLanes v new)

/-! ### Mode, system and launch words -/

/-- R241, R242, R263, R265: `mode` and `modx` replace bits 23:0 of MR and MX by their immediate's value and clear the rest, and wait for no older
instruction's registers, the guard predicate among them; `seed` replaces both
seed registers (copies that differ are a mismatch), `nsclr` clears NS once the loads issued before it have set their flags, and `nop` only
advances. R264: `inject` flips bit S(B) of physical lane
S(A) of vD, whatever the lane's state; a lane or bit that does not exist traps ILLOP. -/
def Obligations.ModeSeedAndInjectResults : Prop :=
  ((∀ i : BitVec 16, leadsTo (.mode i) anyState
      (afterWord (fun w _ => { w with a := { w.a with mr := BitVec.ofNat 64 (256 * i.toNat) } }) [])) ∧
    (∀ i : BitVec 21, leadsTo (.modx i) anyState
      (afterWord (fun w _ => { w with a := { w.a with mx := BitVec.ofNat 64 (8 * i.toNat) } }) [])) ∧
    (∀ w : Wave, (∀ i, w.mustWait (.mode i) = false) ∧ ∀ i, w.mustWait (.modx i) = false) ∧
    (∀ a b : Byte,
      leadsTo (.seed a b) (fun _ w _ => w.S a.toNat = w.Sh a.toNat ∧ w.S b.toNat = w.Sh b.toNat)
        (afterWord (fun w _ => { w with a := { w.a with seedlo := w.S a.toNat, seedhi := w.S b.toNat } }) []) ∧
      leadsTo (.seed a b) (fun _ w _ => w.S a.toNat ≠ w.Sh a.toNat ∨ w.S b.toNat ≠ w.Sh b.toNat)
        scalarMismatch) ∧
    leadsTo .nsclr (fun _ w _ => w.flagsPending = true) (fun s _ _ => s) ∧
    leadsTo .nsclr (fun _ w _ => w.flagsPending = false) (afterWord (fun w _ => { w with a := { w.a with ns := 0 } }) []) ∧
    leadsTo .nop anyState (afterWord (fun w _ => w) [])) ∧
  (∀ d a b : Byte,
      leadsTo (.inject d a b) (fun _ w _ => (w.S a.toNat).toNat < w.W ∧ (w.S b.toNat).toNat < 32)
        (afterWord (fun w _ => w.onV d.toNat fun r =>
          { r with
            lanes := r.lanes.set (w.S a.toNat).toNat ((r.lanes[(w.S a.toNat).toNat]?.getD 0) ^^^ BitVec.ofNat 32 (2 ^ (w.S b.toNat).toNat))
            tag := .general }) []) ∧
      leadsTo (.inject d a b) (fun _ w _ => w.W ≤ (w.S a.toNat).toNat ∨ 32 ≤ (w.S b.toNat).toNat)
        (fun s w p => s.takeTrap w p 0x01 p.pc 0 p.lanes))

/-- R260, R261: `preoff` opens a section of n clocks (in deterministic mode, n retired instructions) or lowers the bound of the open one; `preon` ends
it; `yield` makes its split the latest on both ports; `sleep` retires, and holds its split n clocks, or in deterministic mode until the token returns.
Clocks are the model's (log 7). That a `sleep` retires at its issue, its pc at the word meanwhile, is the model's choice (log 29, DEDUCED). That in
deterministic mode the bound counts from the instruction after the `preoff` (from `retired + 1`), so that the `preoff` word itself is not counted, at
an inner `preoff` as at the outer one, is the model's choice (log 28, DESIGN CHOICE): R260 does not say. -/
def Obligations.SectionAndSleepResults : Prop :=
  (∀ i : BitVec 24,
    let count (s : State) (w : Wave) : Nat := if s.deterministic w = true then w.a.retired + 1 else s.clock
    let left (s : State) (w : Wave) (x : Preoff) : Nat := x.bound - (count s w - x.since)
    let opened (s : State) (w : Wave) (p : Split) : State :=
      s.putWave ({ w with preoff := some ⟨i.toNat, i.toNat, count s w⟩ }.advance p)
    leadsTo (.preoff i) (fun _ w _ => w.preoff = none) opened ∧
    (∀ x, leadsTo (.preoff i) (fun s w _ => w.preoff = some x ∧ i.toNat < left s w x) opened) ∧
    (∀ x, leadsTo (.preoff i) (fun s w _ => w.preoff = some x ∧ left s w x ≤ i.toNat) (fun s w p => s.putWave (w.advance p))) ∧
    leadsTo (.sleep i) (fun s w _ => s.deterministic w = false ∧ i ≠ 0)
      (fun s w p => s.putWave ((w.setSplit { p with status := .asleep (s.clock + i.toNat) false }).retire p)) ∧
    leadsTo (.sleep i) (fun s w _ => s.deterministic w = false ∧ i = 0)
      (fun s w p => s.putWave (w.advance { p with lastV := s.slots, lastX := s.slots })) ∧
    leadsTo (.sleep i) (fun s w _ => s.deterministic w = true)
      (fun s w p => (s.putWave ((w.setSplit { p with status := .asleep 0 true }).retire p)).visitWord w.key)) ∧
  leadsTo .preon anyState (afterWord (fun w _ => { w with preoff := none }) []) ∧
  leadsTo .yield (fun s w _ => s.deterministic w = false)
    (fun s w p => s.putWave (w.advance { p with lastV := s.slots, lastX := s.slots })) ∧
  leadsTo .yield (fun s w _ => s.deterministic w = true)
    (fun s w p => (s.putWave (w.advance { p with lastV := s.slots, lastX := s.slots })).visitWord w.key)

/-- R243-R246, R208, R259: `rgn` waits until the wave's writes and matrix work have settled; then it delivers a pending fault, or takes the wave's
checkpoint with its split to resume after it. The checkpoint closes the intervals of that split and of every one it records at an `rgn`, which by the
waits are all; in system mode it takes none, and closes its own split's. Of a fault that it
delivers, an engine fault closes the interval that its own word opened, and every other one stays open until the checkpoint that the reissued `rgn`
takes. What the checkpoint holds of the live-in scalars (their shadow copies too), predicates, vector registers and tiles is what the wave holds, and
the others in it read zero. That a fault's own interval is closed for stops and rollbacks too is log 27 (DEDUCED). -/
def Obligations.RegionHeadResults : Prop :=
  (∀ i : BitVec 24,
    let ready (w : Wave) : Prop := w.settled = true ∧ w.intervalsClear w.a.splits.tail = true
    let clean (w : Wave) : Prop := w.engineFault = none ∧ w.matFault = none
    leadsTo (.rgn i) (fun _ w _ => ¬ready w) (fun s _ _ => s) ∧
    leadsTo (.rgn i) (fun _ w _ => ready w ∧ clean w ∧ w.system = true) (fun s w p => s.putWave (w.advance { p with interval := [] })) ∧
    leadsTo (.rgn i) (fun _ w _ => ready w ∧ clean w ∧ w.system = false)
      (fun s w p => s.putWave
        { (w.advance p).takeCheckpoint (w.regionAt p.pc i.toNat) p.pc (some (p.lanes.lowest w.W)) (s.deterministic w) with
          native := w.kern.native.contains i.toNat }) ∧
    (∀ x, leadsTo (.rgn i) (fun _ w _ => ready w ∧ w.due (fun _ _ => true) = some (false, x))
      (fun s w p => s.takeTrap
        { w.onSplits (fun q => { q with interval := q.interval.filter fun n => n != x.seq }) with engineFault := none } p x.cause p.pc x.addr x.mask)) ∧
    ∀ x, leadsTo (.rgn i) (fun _ w _ => ready w ∧ w.due (fun _ _ => true) = some (true, x))
      (fun s w p => s.takeTrap { w with matFault := none } p x.cause p.pc x.addr x.mask)) ∧
  ∀ (w : Wave) (r : RegionRec) (pc : Nat) (lane : Option Nat) (keep : Bool),
    ∃ c, (w.takeCheckpoint r pc lane keep).checkpoint = some c ∧ c.headPc = pc ∧ c.resume = lane ∧ c.arch.mr = w.a.mr ∧
      c.arch.mx = w.a.mx ∧ c.arch.ns = w.a.ns ∧
      c.arch.retired = w.a.retired ∧ c.arch.live = w.a.live ∧ c.arch.lanes = w.a.lanes ∧
      c.arch.spill = w.a.spill ∧ c.arch.entries = w.a.entries ∧ (∀ q ∈ c.arch.splits, q.interval = []) ∧
      ((w.takeCheckpoint r pc lane keep).a.splits = w.a.splits.map fun q =>
        if (∃ k, lane = some k ∧ q.lanes.has k = true) ∨ w.atRgn q.pc = true then { q with interval := [] } else q) ∧
      ∀ k,
        (k < w.a.sregs.length → nth c.arch.sregs k 0 = if r.slive.getLsbD k = true then nth w.a.sregs k 0 else 0) ∧
        (k < w.a.sshadow.length → nth c.arch.sshadow k 0 = if r.slive.getLsbD k = true then nth w.a.sshadow k 0 else 0) ∧
        (k < w.a.preds.length → nth c.arch.preds k 0 = if r.plive.getLsbD k = true then nth w.a.preds k 0 else 0) ∧
        (k < w.a.vregs.length → nth c.arch.vregs k (VReg.zero w.W) = if r.vlive.getLsbD k = true then nth w.a.vregs k (VReg.zero w.W) else VReg.zero w.W) ∧
        ∀ t, t = Tile.mk (List.replicate 1024 0) false →
          (k < w.a.tiles.length → nth c.arch.tiles k t = if r.alive.getLsbD k = true then nth w.a.tiles k t else t) ∧
          (k < w.a.twins.length → nth c.arch.twins k t = if r.alive.getLsbD k = true then nth w.a.twins k t else t)

/-- R28, R202, R248: `bar` traps PARTIALMASK unless all the wave's live lanes arrive together; it waits as `rgn` does; then the wave joins the
barrier, which opens once every wave of the crew that has not retired has arrived. Each wave then goes on after its `bar`, `pD` true in all
lanes of the wave with the highest ordinal alone, and takes a checkpoint there unless it is in system mode; in deterministic mode the word may
end the visit.
That the mask of PARTIALMASK holds the guard-active lanes, though `bar` ignores the guard, is the model's choice (log 23, DESIGN CHOICE). -/
def Obligations.BarrierResults : Prop :=
  ∀ d a : Byte,
    leadsTo (.bar d a) (fun _ w p => w.partialMask p = true) (fun s w p => s.takeTrap w p 0x1A p.pc 0 (w.active p)) ∧
    leadsTo (.bar d a) (fun _ w p => w.partialMask p = false ∧ w.headReady = false) (fun s _ _ => s) ∧
    leadsTo (.bar d a) (fun _ w p => w.partialMask p = false ∧ w.headReady = true)
      (fun s w p =>
        let v := (w.setSplit { p with status := .atBar a.toNat d.toNat }).retire p
        (((s.putWave v).onCrew w.crew fun c => { c with barriers := c.barriers.modify a.toNat fun l => l ++ [w.ordinal] }).tryBarrier
          w.crew a.toNat).visitWord w.key) ∧
    (∀ (w : Wave) (p : Split) (closer keep : Bool), w.a.splits = [p] → p.status = .atBar a.toNat d.toNat →
      let v := w.passBarrier a.toNat closer keep
      let on := if w.system = true then p.interval else []
      v.a.splits = [{ p with status := .ready, pc := (p.pc + 4) % 2 ^ 64, interval := on }] ∧
      v.a.retired = w.a.retired ∧ v.a.sregs = w.a.sregs ∧ v.a.vregs = w.a.vregs ∧
      (d ≠ 0 → d.toNat < w.a.preds.length → ∀ l, l < w.W → (v.pred d.toNat).has l = closer) ∧
      (∀ k, k ≠ d.toNat → v.pred k = w.pred k) ∧
      (w.system = true → v.checkpoint = w.checkpoint) ∧
      (w.system = false → v.failures = 0 ∧ ∃ c, v.checkpoint = some c ∧ c.headPc = p.pc ∧ c.resume = some (p.lanes.lowest w.W) ∧
        c.arch.splits = [{ p with status := .ready, pc := (p.pc + 4) % 2 ^ 64, board := [], interval := [] }])) ∧
    ∀ (s : State) (c : Crew), s.crew? c.key = some c → nth c.barriers a.toNat [] ≠ [] →
      ((∃ w ∈ s.waves, w.crew = c.key ∧ w.status ≠ .retired ∧ w.ordinal ∉ nth c.barriers a.toNat []) → s.tryBarrier c.key a.toNat = s) ∧
      ((∀ w ∈ s.waves, w.crew = c.key → w.status ≠ .retired → w.ordinal ∈ nth c.barriers a.toNat []) →
        (s.tryBarrier c.key a.toNat).waves = s.waves.map (fun w =>
          if w.crew = c.key ∧ w.status ≠ .retired then
            w.passBarrier a.toNat (decide (w.ordinal = (nth c.barriers a.toNat []).foldl max 0)) (s.deterministic w)
          else w) ∧
        ∀ c', (s.tryBarrier c.key a.toNat).crew? c.key = some c' → nth c'.barriers a.toNat [] = [])

/-- R250, R251, R29, R349: `launch` reads and checks its descriptor and its successors in local memory at its issue: LOCALBOUND and ALIGN, DEPTH at
depth 10, DESC for a descriptor that the queue refuses; copies of the address that differ are a mismatch. From then an interval is open and the caller
is no longer replayable. Once the wave's writes have performed to package scope, and with the token, the child is accepted on the caller's queue;
until then the split waits with what it read, and nothing of it is read again; a child that the queue would refuse by then traps DESC, and its
interval closes (log 30, DEDUCED). R332: a refusal enters the error log, a child's too, with the core as its source (log 30, DEDUCED). That the copies
of the address are compared before it is checked, and that the successors are checked as elements of four bytes with the split's lanes, is the model's
choice (log 23, DEDUCED). That a child which may be accepted waits, with what `deviceFailed` does then, while the trace log of its queue cannot be
reached is the model's choice (log 13, DESIGN CHOICE; log 45). -/
def Obligations.ChildLaunchResults : Prop :=
  ∀ a : Byte,
    let fresh (p : Split) : Prop := ∀ at_ bs ids, p.status ≠ .onLaunch at_ bs ids
    let checked (s : State) (w : Wave) (p : Split) (places : List LocalAt) : Prop :=
      fresh p ∧ w.S a.toNat = w.Sh a.toNat ∧ s.childDesc w p (w.S a.toNat) = .ok places
    let appended (s : State) (w : Wave) (p : Split) (l : Launch) (o : Object) (at_ : Nat) (desc : List Byte) (succs : List Nat) : State :=
      (s.accept l.queue at_ (Desc.ofBytes desc) o (l.depth + 1) (some l.key) succs).putWave
        (w.advance { p with status := .ready })
    let waits (s : State) (w : Wave) (p : Split) (at_ : Nat) (desc : List Byte) (succs : List Nat) : State :=
      s.putWave (w.setSplit { p with status := .onLaunch at_ desc succs })
    let refused (s : State) (w : Wave) (p : Split) (at_ : Nat) : State :=
      (s.logError at_ w.ctx (homeOf at_) 0x0A w.core 0).takeTrap w p 0x0A p.pc at_ p.lanes
    (∀ r, leadsTo (.launch a) (fun s w p => fresh p ∧ w.S a.toNat = w.Sh a.toNat ∧ s.childDesc w p (w.S a.toNat) = .error r)
      (fun s w p => s.takeTrap w p r.cause p.pc r.addr r.mask)) ∧
    leadsTo (.launch a) (fun _ w p => fresh p ∧ w.S a.toNat ≠ w.Sh a.toNat) scalarMismatch ∧
    (∀ places, leadsTo (.launch a) (fun s w p => checked s w p places ∧ w.port ≠ []) (fun s _ _ => s)) ∧
    (∀ (places ids : List LocalAt) (l : Launch),
      let desc (s : State) : List Byte := places.map s.readLocal
      let succs (s : State) : List Nat := ids.map fun x => leNat (s.readLocalBytes x 4)
      let open_ (s : State) (w : Wave) (p : Split) : Prop :=
        checked s w p places ∧ w.port = [] ∧ s.softErrors = [] ∧ s.launch? w.launch = some l
      let fits (s : State) (w : Wave) (p : Split) : Prop :=
        open_ s w p ∧ l.depth ≠ 10 ∧ s.refuses l.queue l.ctx (Desc.ofBytes (desc s)) (some l) = false
      leadsTo (.launch a) (fun s w p => open_ s w p ∧ l.depth = 10) (fun s w p => s.takeTrap w p 0x11 p.pc 10 p.lanes) ∧
      leadsTo (.launch a)
        (fun s w p => open_ s w p ∧ l.depth ≠ 10 ∧ s.refuses l.queue l.ctx (Desc.ofBytes (desc s)) (some l) = true)
        (fun s w p => refused s w p (w.S a.toNat).toNat) ∧
      (∀ r, leadsTo (.launch a) (fun s w p => fits s w p ∧ s.childSuccs w p (Desc.ofBytes (desc s)) = .error r)
        (fun s w p => s.takeTrap w p r.cause p.pc r.addr r.mask)) ∧
      ∀ (l' : Launch) (o : Object),
        let issued (s : State) : State := s.demote l.key
        let goes (s : State) (w : Wave) (p : Split) : Prop :=
          fits s w p ∧ s.childSuccs w p (Desc.ofBytes (desc s)) = .ok ids ∧ (issued s).launch? w.launch = some l' ∧
            (issued s).object? l'.ctx (Desc.ofBytes (desc s)).handle = some o
        let logs (s : State) : Option DeviceErr := (issued s).acceptHolds l'.queue l'.ctx (Desc.ofBytes (desc s))
        leadsTo (.launch a) (fun s w p => goes s w p ∧ (issued s).released w 5 = true ∧ logs s = none)
          (fun s w p => appended (issued s) w.counted (p.opens w) l' o (w.S a.toNat).toNat (desc s) (succs s)) ∧
        leadsTo (.launch a) (fun s w p => goes s w p ∧ (issued s).released w 5 = false)
          (fun s w p => waits (issued s) w.counted (p.opens w) (w.S a.toNat).toNat (desc s) (succs s)) ∧
        (∀ e, leadsTo (.launch a) (fun s w p => goes s w p ∧ (issued s).released w 5 = true ∧ logs s = some e)
          (fun s w p => (waits (issued s) w.counted (p.opens w) (w.S a.toNat).toNat (desc s) (succs s)).deviceFailed l'.ctx 1 e)) ∧
        ∀ s w p, goes s w p → l'.replayable = false) ∧
    ∀ (s : State) (w : Wave) (p : Split) (l : Launch) (o : Object) (at_ : Nat) (desc : List Byte) (succs : List Nat),
      s.fronts w p → p.status = .onLaunch at_ desc succs → s.launch? w.launch = some l →
      s.object? l.ctx (Desc.ofBytes desc).handle = some o →
      (w.mayIssue p = false → exec (.launch a) s = .next s) ∧
      (w.mayIssue p = true → s.released w 5 = true → s.hasToken w = true → s.refusesNow l.queue (Desc.ofBytes desc) = false →
        s.acceptHolds l.queue l.ctx (Desc.ofBytes desc) = none → exec (.launch a) s = .next (appended s w p l o at_ desc succs)) ∧
      (w.mayIssue p = true → s.released w 5 = true → s.hasToken w = true → s.refusesNow l.queue (Desc.ofBytes desc) = true →
        exec (.launch a) s = .next (let q := { p with interval := p.interval.tail }; refused s (w.setSplit q) q at_)) ∧
      (w.mayIssue p = true → s.released w 5 = false ∨ s.hasToken w = false →
        exec (.launch a) s = .next (waits s w p at_ desc succs))

/-- R252, R258, R259: `trap` raises USER with its code in trapaddr, for a split with an active lane; in system mode it kills the launch (code 1) or
faults the context (code 2). `brkpt` raises BRKPT whatever the mask. `tret` returns from the handler to the address in trappc; from one that the
containment ladder entered it is charged 16 (R351). R259: leaving the handler. MR, MX and the control state come back; the trapping split resumes at
the address in trappc, every other one where it was; the registers, NS and memory stand as the handler left them. -/
def Obligations.TrapWordResults : Prop :=
  ((∀ i : BitVec 24,
      leadsTo (.trap i) (fun _ w p => w.active p = 0) (fun s w p => s.putWave (w.advance p)) ∧
      leadsTo (.trap i) (fun _ w p => w.active p ≠ 0 ∧ w.system = false) (fun s w p => s.takeTrap w p 0x19 p.pc i.toNat (w.active p)) ∧
      leadsTo (.trap i) (fun _ w p => w.active p ≠ 0 ∧ w.system = true ∧ i = 1)
        (fun s w p => (s.putWave (w.advance p)).killLaunches [w.launch]) ∧
      leadsTo (.trap i) (fun _ w p => w.active p ≠ 0 ∧ w.system = true ∧ i = 2)
        (fun s w p => (s.putWave (w.advance p)).contextFault w.ctx { s.fieldsOf w with
          addr := p.pc, report := ⟨w.trapcause.toNat, w.trappc, w.trapaddr, w.trapmask⟩ })) ∧
    leadsTo .brkpt anyState (fun s w p => s.takeTrap w p 0x18 p.pc 0 p.lanes) ∧
    ∀ f : TrapFrame,
      leadsTo .tret (fun _ w _ => w.frame = some f ∧ f.fromLadder = false) (fun s w p => s.putWave ((w.advance p).leaveHandler f)) ∧
      leadsTo .tret (fun _ w _ => w.frame = some f ∧ f.fromLadder = true)
        (fun s w p => (s.putWave ((w.advance p).leaveHandler f)).chargeWave w.key w.ctx 16)) ∧
  (∀ (w : Wave) (f : TrapFrame),
      let v := w.leaveHandler f
      v.system = false ∧ v.a.mr = f.mr ∧ v.a.mx = f.mx ∧ v.a.entries = f.entries ∧ v.a.live = f.live ∧
      v.a.splits.length = f.splits.length ∧
      (∀ k, k < f.splits.length →
        ∃ p q, f.splits[k]? = some p ∧ v.a.splits[k]? = some q ∧ q.lanes = p.lanes ∧ q.chain = p.chain ∧
          (p.lanes.has f.lane = true → q.pc = w.trappc.toNat ∧ q.status = .ready) ∧ (p.lanes.has f.lane = false → q = p)) ∧
      v.a.sregs = w.a.sregs ∧ v.a.sshadow = w.a.sshadow ∧ v.hregs = w.hregs ∧ v.a.vregs = w.a.vregs ∧ v.a.preds = w.a.preds ∧
      v.a.tiles = w.a.tiles ∧ v.a.ns = w.a.ns ∧ v.a.retired = w.a.retired)

/-! ### Exceptions -/

/-- R126, R208, R120: the checks of every instruction word, in order. ILLOP, PRIV and FEATURE come first, each with the active lanes and address zero;
then a pending fault due at the word is delivered; then an empty source traps EMPTY with its register's number where MX asks for it, and waits
otherwise; then the word waits for older writes. That EMPTY is reported with the active lanes, and the order A, B, D of empty sources, is the model's
choice (log 24, DEDUCED). What ILLOP refuses, word by word: a field outside its kind (R114) or its limits (R122 to R125), and, by the wave: constants
that the form they are read in has not (R115), class kinds (R161, R196), ballot words (R178), tile groups (R215), the second register of `vatcas`,
MR and MX values (R118), registers that cannot be written (R127), `refill` without the object's leave, trap codes in system mode (R258). What PRIV
and FEATURE refuse. The record that class ids are looked up in is that of the wave's kernel, in a handler of another object too, and a `swrite`
judges its value once it stands in the register: the model's choices (log 24, DEDUCED). -/
def Obligations.IssueChecksInOrder : Prop :=
  (∀ (i : Instr) (s : State) (w : Wave) (p : Split), (encode i).isSome = true → s.fronts w p → (∀ k, p.status ≠ .onCxget k) →
    (∀ at_ bs ids, p.status ≠ .onLaunch at_ bs ids) →
    let trap (cause addr : Nat) : Prop := exec i s = .next (s.takeTrap w p cause p.pc addr (w.active p))
    let legal : Prop := fieldsLegal i = true ∧ w.legalHere i = true
    let past : Prop := legal ∧ s.permitted w i = true ∧ s.accepted i = true
    (¬legal → trap 0x01 0) ∧
    (legal → s.permitted w i = false → trap 0x03 0) ∧
    (legal → s.permitted w i = true → s.accepted i = false → trap 0x02 0) ∧
    (past → ∀ m d, w.due (w.delivers p i) = some (m, d) →
      exec i s = .next (s.takeTrap (if m = true then { w with matFault := none } else { w with engineFault := none }) p d.cause p.pc d.addr d.mask)) ∧
    (past → w.due (w.delivers p i) = none → ∀ pos code, w.firstEmpty i = some (pos, code) →
      (w.emptyTraps pos = true → trap 0x04 code) ∧ (w.emptyTraps pos = false → exec i s = .next s)) ∧
    (past → w.due (w.delivers p i) = none → w.firstEmpty i = none →
      (w.mustWait i = true ∨ w.mayIssue p = false ∨ needsToken i = true ∧ s.hasToken w = false) → exec i s = .next s)) ∧
  (∀ (d a b : BitVec 8), ∀ op ∈ [Instr.sceq, Instr.scne, Instr.sclt, Instr.scle, Instr.scltu, Instr.scleu, Instr.mma, Instr.mmaz], fieldsLegal (op
    d a b) = true ↔ d.toNat ≤ 15) ∧
  (∀ (d a : BitVec 8), fieldsLegal (.sread d a) = true ↔ a.toNat ≤ 27) ∧
  (∀ (d a : BitVec 8), fieldsLegal (.swrite d a) = true ↔ d.toNat ≤ 27) ∧
  (∀ (d a b : BitVec 8), fieldsLegal (.sgetv d a b) = true ↔ a.toNat ≤ 191) ∧
  (∀ (d a b : BitVec 8), ∀ op ∈ [Instr.vadd, Instr.vsub, Instr.vmul, Instr.vfma, Instr.vfms, Instr.vfnma, Instr.vmin, Instr.vmax, Instr.vdiv,
    Instr.vrem, Instr.vmulh, Instr.vand, Instr.vor, Instr.vxor, Instr.vshl, Instr.vshr, Instr.vsra, Instr.vsel, Instr.vshfl, Instr.vshup,
    Instr.vshdn, Instr.vbcast, Instr.vld, Instr.vldraw, Instr.vldb, Instr.vldh], fieldsLegal (op d a b) = true ↔ d.toNat ≤ 191 ∧ a.toNat ≤ 250 ∧
    b.toNat ≤ 250) ∧
  (∀ (d a : BitVec 8), ∀ op ∈ [Instr.vabs, Instr.vneg, Instr.vsqrt, Instr.vrsqrt, Instr.vrcp, Instr.vexp2, Instr.vlog2, Instr.vpopc, Instr.vclz,
    Instr.vcvt, Instr.vrnd, Instr.vmov, Instr.vscan, Instr.vscanmax, Instr.vscanmin, Instr.vredsum, Instr.vredmax, Instr.vredmin, Instr.vlds],
    fieldsLegal (op d a) = true ↔ d.toNat ≤ 191 ∧ a.toNat ≤ 250) ∧
  (∀ (d a b : BitVec 8), ∀ op ∈ [Instr.vceq, Instr.vcne, Instr.vclt, Instr.vcle, Instr.vcun], fieldsLegal (op d a b) = true ↔ d.toNat ≤ 15 ∧
    a.toNat ≤ 250 ∧ b.toNat ≤ 250) ∧
  (∀ (d a : BitVec 8), ∀ op ∈ [Instr.vfromp, Instr.vrank], fieldsLegal (op d a) = true ↔ d.toNat ≤ 191 ∧ a.toNat ≤ 15) ∧
  (∀ (d a : BitVec 8), fieldsLegal (.vtop d a) = true ↔ d.toNat ≤ 15 ∧ a.toNat ≤ 250) ∧
  (∀ (d a b : BitVec 8), ∀ op ∈ [Instr.vpand, Instr.vpor, Instr.vpxor], fieldsLegal (op d a b) = true ↔ d.toNat ≤ 15 ∧ a.toNat ≤ 15 ∧ b.toNat ≤
    15) ∧
  (∀ (d a : BitVec 8), ∀ op ∈ [Instr.vpnot, Instr.bar], fieldsLegal (op d a) = true ↔ d.toNat ≤ 15 ∧ a.toNat ≤ 15) ∧
  (∀ (d a b : BitVec 8), fieldsLegal (.vballot d a b) = true ↔ a.toNat ≤ 15 ∧ b.toNat ≤ 32) ∧
  (∀ (d a : BitVec 8), fieldsLegal (.vcount d a) = true ↔ a.toNat ≤ 15) ∧
  (∀ (d a : BitVec 8), fieldsLegal (.vtag d a) = true ↔ a.toNat ≤ 191) ∧
  (∀ (d : BitVec 8), fieldsLegal (.vgen d) = true ↔ d.toNat ≤ 191) ∧
  (∀ (d a b : BitVec 8), ∀ op ∈ [Instr.vst, Instr.vstraw, Instr.vstb, Instr.vsth], fieldsLegal (op d a b) = true ↔ d.toNat ≤ 250 ∧ a.toNat ≤ 250 ∧
    b.toNat ≤ 250) ∧
  (∀ (d a : BitVec 8), fieldsLegal (.vsts d a) = true ↔ d.toNat ≤ 250 ∧ a.toNat ≤ 250) ∧
  (∀ (d a b : BitVec 8), ∀ op ∈ [Instr.vatadd, Instr.vatmin, Instr.vatmax, Instr.vatand, Instr.vator, Instr.vatxchg, Instr.cxget], fieldsLegal (op
    d a b) = true ↔ d.toNat ≤ 191 ∧ b.toNat ≤ 250) ∧
  (∀ (d a b : BitVec 8), fieldsLegal (.vatcas d a b) = true ↔ d.toNat ≤ 190 ∧ b.toNat ≤ 250) ∧
  (∀ (d a b : BitVec 8), fieldsLegal (.cxadd d a b) = true ↔ d.toNat ≤ 250 ∧ b.toNat ≤ 250) ∧
  (∀ (d a : BitVec 8), ∀ op ∈ [Instr.cxclr, Instr.brx], fieldsLegal (op d a) = true ↔ a.toNat ≤ 250) ∧
  (∀ (d a : BitVec 8), fieldsLegal (.wait d a) = true ↔ d.toNat ≤ 4) ∧
  (∀ (d a : BitVec 4), fieldsLegal (.fence d a) = true ↔ d.toNat ≤ 6 ∧ a.toNat ≤ 3) ∧
  (∀ (d : BitVec 8), ∀ op ∈ [Instr.mzero, Instr.refill], fieldsLegal (op d) = true ↔ d.toNat ≤ 15) ∧
  (∀ (d a : BitVec 8), fieldsLegal (.mdrv d a) = true ↔ d.toNat ≤ 160 ∧ a.toNat ≤ 15) ∧
  (∀ (d a : BitVec 8), ∀ op ∈ [Instr.mdrl, Instr.mdrx], fieldsLegal (op d a) = true ↔ d.toNat ≤ 15) ∧
  (∀ (d a : BitVec 8), fieldsLegal (.mldv d a) = true ↔ d.toNat ≤ 15 ∧ a.toNat ≤ 160) ∧
  (∀ (d : BitVec 4) (a : BitVec 20), fieldsLegal (.brk d a) = true ↔ d ≠ 0) ∧
  (∀ (d : BitVec 8), fieldsLegal (.exit d) = true ↔ d.toNat ≤ 250) ∧
  (∀ (d : BitVec 24), fieldsLegal (.preoff d) = true ↔ 1 ≤ d.toNat ∧ d.toNat ≤ 65536) ∧
  (∀ (d a b : BitVec 8), fieldsLegal (.bindq d a b) = true ↔ b.toNat ≤ 1) ∧
  (∀ (d a b : BitVec 8), fieldsLegal (.inject d a b) = true ↔ d.toNat ≤ 191) ∧
  (∀ (d a b : BitVec 8), ∀ op ∈ [Instr.sadd, Instr.ssub, Instr.smul, Instr.smulh, Instr.smulhu, Instr.sdiv, Instr.sdivu, Instr.srem, Instr.sremu,
    Instr.sand, Instr.sor, Instr.sxor, Instr.sshl, Instr.sshr, Instr.ssra, Instr.smin, Instr.smax, Instr.sminu, Instr.smaxu, Instr.scmov,
    Instr.sbfx, Instr.sbfi, Instr.sldl, Instr.sldw, Instr.sstl, Instr.sstw, Instr.satadd, Instr.satxchg, Instr.satcas, Instr.satmin, Instr.satmax,
    Instr.satand, Instr.sator, Instr.satxor], fieldsLegal (op d a b) = true) ∧
  (∀ (d a : BitVec 8), ∀ op ∈ [Instr.spopc, Instr.sclz, Instr.sctz, Instr.smov, Instr.seed], fieldsLegal (op d a) = true) ∧
  (∀ (d : BitVec 8) (a : BitVec 16), ∀ op ∈ [Instr.sli, Instr.slih, Instr.slix, Instr.sliy, Instr.saddi, Instr.sandi, Instr.sori, Instr.sxori,
    Instr.smuli], fieldsLegal (op d a) = true) ∧
  (∀ (d : BitVec 8) (a : BitVec 6), ∀ op ∈ [Instr.sshli, Instr.sshri, Instr.ssrai], fieldsLegal (op d a) = true) ∧
  (∀ (d : BitVec 8) (a : BitVec 13), fieldsLegal (.sldp d a) = true) ∧
  (∀ (d : BitVec 8), ∀ op ∈ [Instr.cpin, Instr.cpout, Instr.cpgat, Instr.cpsca, Instr.cpfill, Instr.cplocal, Instr.launch], fieldsLegal (op d)
    = true) ∧
  (∀ (d : BitVec 20), ∀ op ∈ [Instr.bra, Instr.split, Instr.call], fieldsLegal (op d) = true) ∧
  (∀ (d : BitVec 4) (a : BitVec 20), ∀ op ∈ [Instr.brp, Instr.brn], fieldsLegal (op d a) = true) ∧
  (∀ op ∈ [Instr.join, Instr.ret, Instr.land, Instr.brkpt, Instr.preon, Instr.yield, Instr.nsclr, Instr.tret, Instr.nop], fieldsLegal op = true) ∧
  (∀ (d : BitVec 24), ∀ op ∈ [Instr.rgn, Instr.trap, Instr.sleep], fieldsLegal (op d) = true) ∧
  (∀ (d : BitVec 16), fieldsLegal (.mode d) = true) ∧
  (∀ (d : BitVec 21), fieldsLegal (.modx d) = true) ∧
  (∀ w : Wave,
    let K := w.C.kind
    let C := w.C.compute.kind
    let X := w.X.compute.kind
    let G := ((if w.paired = true then w.W / 2 else w.W) + 31) / 32
    let fits (k : Kind) (f : Byte) : Prop := (f = 0xF2 → k ≠ .index) ∧ (f = 0xF3 ∨ f = 0xF4 → k = .real)
    let tiles (t : Byte) : Prop := 1 ≤ G ∧ t.toNat + G ≤ w.kern.acc
    let named (c : Nat) : Prop := ∃ r ∈ w.kern.classes, r.id = c
    (∀ (d a b : BitVec 8), ∀ op ∈ [Instr.vadd, Instr.vsub, Instr.vmul, Instr.vfma, Instr.vfms, Instr.vfnma, Instr.vmin, Instr.vmax, Instr.vdiv,
      Instr.vceq, Instr.vcne, Instr.vclt, Instr.vcle, Instr.vcun], w.legalHere (op d a b) = true ↔ fits C a ∧ fits C b) ∧
    (∀ (d a : BitVec 8), ∀ op ∈ [Instr.vabs, Instr.vneg, Instr.vrnd, Instr.vmov, Instr.vscan, Instr.vscanmax, Instr.vscanmin, Instr.vredsum,
      Instr.vredmax, Instr.vredmin], w.legalHere (op d a) = true ↔ fits C a) ∧
    (∀ (d a b : BitVec 8), ∀ op ∈ [Instr.vrem, Instr.vmulh], w.legalHere (op d a b) = true ↔ fits C a ∧ fits C b ∧ K ≠ .real) ∧
    (∀ (d a : BitVec 8), ∀ op ∈ [Instr.vsqrt, Instr.vrsqrt, Instr.vrcp, Instr.vexp2, Instr.vlog2], w.legalHere (op d a) = true ↔ fits C a ∧
      K = .real) ∧
    (∀ (d a b : BitVec 8), ∀ op ∈ [Instr.vand, Instr.vor, Instr.vxor, Instr.vshl, Instr.vshr, Instr.vsra, Instr.vsel, Instr.vshfl, Instr.vshup,
      Instr.vshdn, Instr.vbcast, Instr.vld, Instr.vldraw, Instr.vldb, Instr.vldh], w.legalHere (op d a b) = true ↔ fits .int a ∧ fits .int b) ∧
    (∀ (d a : BitVec 8), ∀ op ∈ [Instr.vpopc, Instr.vclz, Instr.vtop, Instr.vlds, Instr.cxclr, Instr.brx], w.legalHere (op d a)
      = true ↔ fits .int a) ∧
    (∀ (d a : BitVec 8), w.legalHere (.vcvt d a) = true ↔ fits X a) ∧
    (∀ (d a b : BitVec 8), w.legalHere (.vballot d a b) = true ↔ (b = 0x20 ∨ 32 * b.toNat < w.W)) ∧
    (∀ (d a b : BitVec 8), w.legalHere (.vst d a b) = true ↔ fits C d ∧ fits .int a ∧ fits .int b) ∧
    (∀ (d a b : BitVec 8), ∀ op ∈ [Instr.vstraw, Instr.vstb, Instr.vsth], w.legalHere (op d a b) = true ↔ fits .int d ∧ fits .int a ∧
      fits .int b) ∧
    (∀ (d a : BitVec 8), w.legalHere (.vsts d a) = true ↔ fits .int d ∧ fits .int a) ∧
    (∀ (d a b : BitVec 8), ∀ op ∈ [Instr.vatadd, Instr.vatand, Instr.vator, Instr.vatxchg, Instr.cxget], w.legalHere (op d a b)
      = true ↔ fits .int b) ∧
    (∀ (d a b : BitVec 8), ∀ op ∈ [Instr.vatmin, Instr.vatmax], w.legalHere (op d a b) = true ↔ fits .int b ∧ K ≠ .real) ∧
    (∀ (d a b : BitVec 8), w.legalHere (.vatcas d a b) = true ↔ fits .int b ∧ d.toNat + 1 < w.kern.vregs) ∧
    (∀ (d a b : BitVec 8), w.legalHere (.cxadd d a b) = true ↔ fits C d ∧ fits .int b) ∧
    (∀ (d a b : BitVec 8), ∀ op ∈ [Instr.mma, Instr.mmaz], w.legalHere (op d a b) = true ↔ tiles d) ∧
    (∀ (d : BitVec 8), w.legalHere (.mzero d) = true ↔ tiles d) ∧
    (∀ (d a : BitVec 8), w.legalHere (.mdrv d a) = true ↔ tiles a) ∧
    (∀ (d a : BitVec 8), ∀ op ∈ [Instr.mdrl, Instr.mdrx], w.legalHere (op d a) = true ↔ tiles d) ∧
    (∀ (d : BitVec 8), w.legalHere (.exit d) = true ↔ fits .int d) ∧
    (∀ (d : BitVec 8), w.legalHere (.refill d) = true ↔ w.kern.refill = true) ∧
    (∀ (d : BitVec 16), w.legalHere (.mode d) = true ↔ (d.toNat / 2 % 8 ≠ 7 ∧ named (d.toNat / 2 ^ 8))) ∧
    (∀ (d : BitVec 21), w.legalHere (.modx d) = true ↔ named (d.toNat / 2 ^ 13)) ∧
    (∀ (d : BitVec 24), w.legalHere (.trap d) = true ↔ (w.system = false ∨ d = 1 ∨ d = 2)) ∧
    (∀ d a : BitVec 8, w.legalHere (.mldv d a) = true ↔ tiles d) ∧
    (∀ (d a b : BitVec 8), ∀ op ∈ [Instr.sadd, Instr.ssub, Instr.smul, Instr.smulh, Instr.smulhu, Instr.sdiv, Instr.sdivu, Instr.srem,
      Instr.sremu, Instr.sand, Instr.sor, Instr.sxor, Instr.sshl, Instr.sshr, Instr.ssra, Instr.smin, Instr.smax, Instr.sminu, Instr.smaxu,
      Instr.scmov, Instr.sbfx, Instr.sbfi, Instr.sceq, Instr.scne, Instr.sclt, Instr.scle, Instr.scltu, Instr.scleu, Instr.sldl, Instr.sldw,
      Instr.sstl, Instr.sstw, Instr.sgetv, Instr.satadd, Instr.satxchg, Instr.satcas, Instr.satmin, Instr.satmax, Instr.satand, Instr.sator,
      Instr.satxor, Instr.vpand, Instr.vpor, Instr.vpxor, Instr.bindq, Instr.inject], w.legalHere (op d a b) = true) ∧
    (∀ (d a : BitVec 8), ∀ op ∈ [Instr.spopc, Instr.sclz, Instr.sctz, Instr.smov, Instr.sread, Instr.vfromp, Instr.vpnot, Instr.vcount,
      Instr.vrank, Instr.vtag, Instr.wait, Instr.bar, Instr.seed], w.legalHere (op d a) = true) ∧
    (∀ (d : BitVec 8) (a : BitVec 16), ∀ op ∈ [Instr.sli, Instr.slih, Instr.slix, Instr.sliy, Instr.saddi, Instr.sandi, Instr.sori, Instr.sxori,
      Instr.smuli], w.legalHere (op d a) = true) ∧
    (∀ (d : BitVec 8) (a : BitVec 6), ∀ op ∈ [Instr.sshli, Instr.sshri, Instr.ssrai], w.legalHere (op d a) = true) ∧
    (∀ (d : BitVec 8) (a : BitVec 13), w.legalHere (.sldp d a) = true) ∧
    (∀ (d : BitVec 8), ∀ op ∈ [Instr.vgen, Instr.cpin, Instr.cpout, Instr.cpgat, Instr.cpsca, Instr.cpfill, Instr.cplocal, Instr.launch],
      w.legalHere (op d) = true) ∧
    (∀ (d a : BitVec 4), w.legalHere (.fence d a) = true) ∧
    (∀ (d : BitVec 20), ∀ op ∈ [Instr.bra, Instr.split, Instr.call], w.legalHere (op d) = true) ∧
    (∀ (d : BitVec 4) (a : BitVec 20), ∀ op ∈ [Instr.brp, Instr.brn, Instr.brk], w.legalHere (op d a) = true) ∧
    (∀ op ∈ [Instr.join, Instr.ret, Instr.land, Instr.brkpt, Instr.preon, Instr.yield, Instr.nsclr, Instr.tret, Instr.nop], w.legalHere op
      = true) ∧
    (∀ (d : BitVec 24), ∀ op ∈ [Instr.rgn, Instr.preoff, Instr.sleep], w.legalHere (op d) = true) ∧
    (∀ d a : BitVec 8, w.legalHere (.swrite d a) = true ↔
      (10 ≤ d.toNat ∧ d.toNat ≤ 18 ∨ 20 ≤ d.toNat ∧ d.toNat ≤ 23) ∧
      (w.scalarThere a.toNat = true →
        let x := (w.S a.toNat).toNat
        (d = 0x0A → x < 2 ^ 24 ∧ x % 256 = 0 ∧ x / 512 % 8 ≠ 7 ∧ named (x / 65536)) ∧
        (d = 0x0B → x < 2 ^ 24 ∧ x % 8 = 0 ∧ named (x / 65536))))) ∧
  ∀ (s : State) (w : Wave) (i : Instr),
    (s.permitted w i = false ↔
      w.system = false ∧ (i = .tret ∨ ∃ d a, i = .swrite d a ∧ (d = 0x0D ∨ 20 ≤ d.toNat ∧ d.toNat ≤ 23)) ∨
      (w.system = false ∨ s.debugOf w = false) ∧ ∃ d a b, i = .inject d a b) ∧
    (s.accepted i = false ↔ (∃ d, i = .launch d) ∧ (nth s.faccept 0 0).getLsbD 7 = false) ∧
    (∀ c, s.context? w.ctx = some c → s.debugOf w = c.debug)

/-- R253, R255: a trap outside system mode in a context with a handler. The trap registers are filled; the frame keeps MR, MX and the control state;
MR and MX read zero; the handler runs from its object as one top-level split with the trapping split's lanes, both of each pair, which are the
live set; and the registers, the flags and the work under way stay. -/
def Obligations.TakingATrap : Prop :=
  ∀ (s : State) (w : Wave) (p : Split) (cause pc addr : Nat) (mask : Mask) (h : Nat) (o : Object), w.frame = none →
    s.handlerObj w.ctx = some (h, o) →
    ∃ v f q, s.takeTrap w p cause pc addr mask = s.putWave v ∧ v.key = w.key ∧ v.system = true ∧ v.frame = some f ∧ v.codeObj = o ∧
      v.trapcause = BitVec.ofNat 8 cause ∧ v.trappc = BitVec.ofNat 64 pc ∧ v.trapaddr = BitVec.ofNat 64 addr ∧ v.trapmask = mask.trapWord ∧
      f.mr = w.a.mr ∧ f.mx = w.a.mx ∧ f.splits = w.a.splits ∧ f.entries = w.a.entries ∧ f.live = w.a.live ∧
      v.a.mr = 0 ∧ v.a.mx = 0 ∧ v.a.entries = [] ∧ v.a.splits = [q] ∧ q.pc = h ∧ q.chain = [] ∧ q.status = .ready ∧
      q.lanes = w.pairUp p.lanes ∧ v.a.live = w.pairUp p.lanes ∧
      v.a.sregs = w.a.sregs ∧ v.a.sshadow = w.a.sshadow ∧ v.hregs = w.hregs ∧ v.a.vregs = w.a.vregs ∧ v.a.preds = w.a.preds ∧
      v.a.tiles = w.a.tiles ∧ v.a.ns = w.a.ns ∧ v.a.seedlo = w.a.seedlo ∧ v.a.seedhi = w.a.seedhi ∧ v.a.sp = w.a.sp ∧
      v.a.spill = w.a.spill ∧ v.a.retired = w.a.retired ∧ v.ops = w.ops ∧ v.port = w.port ∧ v.checkpoint = w.checkpoint ∧
      v.engineFault = w.engineFault ∧ v.matFault = w.matFault

/-- R255, R258, R350, R354: a trap in system mode, or in a context without a handler, is a context fault: the trap registers are filled, every launch
of the context is killed and its waves stop, its queues stop with status 3, the integrity log has the entry 0x30, and the host is told (by
`interrupts`, with the trap record in the context: the model's form, log 43). -/
def Obligations.TrapBecomesContextFault : Prop :=
  ∀ (s : State) (w : Wave) (p : Split) (cause pc addr : Nat) (mask : Mask), w ∈ s.waves → (w.system = true ∨ s.handlerObj w.ctx = none) →
    let t := s.takeTrap w p cause pc addr mask
    let record : TrapRecord := ⟨cause % 256, BitVec.ofNat 64 pc, BitVec.ofNat 64 addr, mask.trapWord⟩
    (∃ v ∈ t.waves, v.key = w.key ∧ v.trapcause = BitVec.ofNat 8 cause ∧ v.trappc = BitVec.ofNat 64 pc ∧
      v.trapaddr = BitVec.ofNat 64 addr ∧ v.trapmask = mask.trapWord) ∧
    (∀ l ∈ t.launches, l.ctx = w.ctx → l.state ≠ .completed → l.killed = true) ∧
    (∀ v ∈ t.waves, (∃ l ∈ s.launches, l.key = v.launch ∧ l.ctx = w.ctx ∧ l.state ≠ .completed) →
      v.a.splits = [] ∧ (v.status = .retiring ∨ v.status = .retired)) ∧
    (∀ q ∈ t.queues, q.context.toNat = w.ctx → q.status = 3) ∧
    (∀ c ∈ t.contexts, c.id = w.ctx → c.faulted = true ∧ c.report = record) ∧ t.interrupts = s.interrupts + 1 ∧
    (let f : LogFields :=
      ⟨pc, s.launchidOf w, w.ctx, 0x30, 0, w.core, w.partition, w.slot, 0, 0xFFFF, record⟩
     s.integrityLog.length < 256 → t.integrityLog = s.integrityLog ++ [integrityEntry s.clock f s.integrityLost] ∧ t.integrityLost = 0) ∧
    (256 ≤ s.integrityLog.length → t.integrityLog = s.integrityLog ∧ t.integrityLost = s.integrityLost + 1) ∧
    t.hbm = s.hbm ∧ t.hostMem = s.hostMem ∧ t.peerMem = s.peerMem ∧ t.crews = s.crews

/-- R150: `land` is one word, changes no state, and its program counter advances by 4; it executes as a `nop` does. -/
def Obligations.LandChangesNothing : Prop :=
  (∀ w : Word32, decodeWord w = some .land ↔ w = 0xC9000000#32) ∧
  leadsTo .land anyState (fun s w p => s.putWave (w.advance p)) ∧ leadsTo .nop anyState (fun s w p => s.putWave (w.advance p)) ∧
  ∀ (w : Wave) (p : Split) (rest : List Split), w.a.splits = p :: rest →
    (w.advance p).a.splits = { p with pc := (p.pc + 4) % 2 ^ 64 } :: rest ∧ (w.advance p).a.retired = w.a.retired + 1 ∧
    w.sameRegisters (w.advance p)

/-- R54: the frit generator, in arithmetic modulo 2^32; `sx` is x shifted right and combined with itself. -/
def Obligations.FritGenerator : Prop :=
  ∀ (seedlo seedhi t n : Word32),
    let m (x y : Nat) : Nat := x * y % 2 ^ 32
    let sx (x k : Nat) : Nat := x ^^^ (x / 2 ^ k)
    let x1 := seedlo.toNat ^^^ m n.toNat 0x8F2D4C6B
    let x2 := x1 ^^^ m t.toNat 0xC13A97E5
    let x3 := m (sx x2 15) 0x5B7E2D19
    let x4 := x3 ^^^ seedhi.toNat
    let x5 := m (sx x4 13) 0xE4A3F0C7
    frit seedlo seedhi t n = sx x5 16 / 2 ^ 16 ∧ frit seedlo seedhi t n < 2 ^ 16

/-! ### Frames -/

/-- The frame of every word of classes 00, 01 and 10 but `swrite`, when it retires: scalars (both copies), vector registers and predicates that are no
destination of it, MR, MX, the seeds, sp, mxbase, mxplane, the spill stacks but for `vsts`, the tiles, the trap registers, the coordinates of
the lanes, the control stack, the live set and the checkpoint are as before; no flag is cleared; no other wave differs; and no byte of main or
local memory differs, for these words store nothing before the port or an engine performs. -/
def Obligations.WordFrame : Prop :=
  ∀ (i : Instr) (c : Word32) (s t : State) (w v : Wave), encode i = some c → c.toNat < 0xC0000000 → (∀ a b, i ≠ .swrite a b) →
    s.waves.head? = some w → exec i s = .next t → t.wave? w.key = some v → v.a.retired = w.a.retired + 1 →
    (∀ n, n < 256 → (∀ x ∈ sCode (BitVec.ofNat 8 n), x ∉ dests i) → v.S n = w.S n ∧ v.Sh n = w.Sh n) ∧
    (∀ n, n < 192 → n ∉ dests i → nth v.a.vregs n (VReg.zero w.W) = nth w.a.vregs n (VReg.zero w.W)) ∧
    (∀ n, n < 16 → 0x200 + n ∉ dests i → nth v.a.preds n 0 = nth w.a.preds n 0) ∧
    v.a.mr = w.a.mr ∧ v.a.mx = w.a.mx ∧ v.a.seedlo = w.a.seedlo ∧ v.a.seedhi = w.a.seedhi ∧ v.a.sp = w.a.sp ∧
    v.a.mxbase = w.a.mxbase ∧ v.a.mxplane = w.a.mxplane ∧ ((∀ d a, i ≠ .vsts d a) → v.a.spill = w.a.spill) ∧
    v.a.tiles = w.a.tiles ∧ v.a.twins = w.a.twins ∧ w.a.ns &&& v.a.ns = w.a.ns ∧
    v.a.lanes.map (fun l => (l.x, l.y, l.z, l.item, l.n)) = w.a.lanes.map (fun l => (l.x, l.y, l.z, l.item, l.n)) ∧
    v.a.entries = w.a.entries ∧ v.a.live = w.a.live ∧ v.checkpoint = w.checkpoint ∧
    v.trapcause = w.trapcause ∧ v.trappc = w.trappc ∧ v.trapaddr = w.trapaddr ∧ v.trapmask = w.trapmask ∧ v.frame = w.frame ∧
    (∀ k, k ≠ w.key → t.wave? k = s.wave? k) ∧ s.sameMemory t

/-- The frame of the control words that move splits alone, when they retire: every register, predicate, tile, mode register, flag and seed, the trap
registers and the checkpoint are as before, as are all other waves and every byte of memory. -/
def Obligations.ControlFrame : Prop :=
  ∀ (i : Instr) (s t : State) (w v : Wave),
    ((∃ o, i = .bra o ∨ i = .split o ∨ i = .call o) ∨ (∃ p o, i = .brp p o ∨ i = .brn p o ∨ i = .brk p o) ∨ (∃ a b, i = .brx a b) ∨
      i = .join ∨ i = .ret ∨ i = .land ∨ i = .nop ∨ i = .preon ∨ ∃ n, i = .preoff n) →
    s.waves.head? = some w → exec i s = .next t → t.wave? w.key = some v → v.a.retired = w.a.retired + 1 →
    w.sameRegisters v ∧ v.a.mxbase = w.a.mxbase ∧ v.a.mxplane = w.a.mxplane ∧ v.a.live = w.a.live ∧ v.a.lanes = w.a.lanes ∧
    v.trapcause = w.trapcause ∧ v.trappc = w.trappc ∧ v.trapaddr = w.trapaddr ∧ v.trapmask = w.trapmask ∧ v.checkpoint = w.checkpoint ∧
    (∀ k, k ≠ w.key → t.wave? k = s.wave? k) ∧ s.sameMemory t

/-! ### Events of the port and the engines -/

/-- R269, R271, R273: the access at the head of a wave's local port performs, in a launch outside deterministic mode and with no bit error about. A
store writes its bytes; a load delivers its lanes or its scalar; an atomic performs its local lanes. Of a store: a byte written last with a full mask
reads as written, and every local byte it does not name reads as before. A part of an operation changes the bytes of main memory that its pieces
write, at the places its leaf gives them, to what each writes there, and no others; a logged write those of its entry, at the places of its leaf; a
matrix instruction's turn changes no byte, and that of an `mma` or `mmaz` which fails changes no row of a tile and no error mark of one (R235); and
the local side of an operation, a drain's among them, those its pieces name, which read as it carried them. That a whole access, all lanes and bytes
of its word, performs in one step is the model's choice (log 45, DESIGN CHOICE, unsafe): R273 makes only 8 aligned bytes of a lane indivisible. -/
def Obligations.LocalPortPerforms : Prop :=
  (∀ (k : Nat) (s : State) (w : Wave) (x : PortAcc) (rest : List PortAcc), s.wave? k = some w → w.port = x :: rest → s.hasToken w = true →
    s.softErrors = [] →
    let popped (w : Wave) : Wave := { w with port := w.port.drop 1 }
    (∀ writes, x.job = .store writes →
      exec (.portAccess k) s = .next ((writes.foldl (fun s y => s.writeLocalBits y.1 y.2.1 y.2.2) s).onWave k popped)) ∧
    (∀ d raw storage compute accs, x.job = .vload d raw storage compute accs →
      let outs := accs.map fun a => (a.lane, s.loadLane raw storage compute a)
      exec (.portAccess k) s = .next (s.onWave k fun w =>
        (((((popped w).writeV d (Mask.ofLanes (accs.map LaneAcc.lane))
          (fun l => ((outs.find? fun y => y.1 == l).map fun y => y.2.1).getD 0) .general).flags
            (outs.foldl (fun acc y => acc ||| y.2.2) 0)).markV d false).unboard (0x400 + d)))) ∧
    (∀ d n at_ shadowAt, x.job = .sload d n at_ shadowAt →
      exec (.portAccess k) s = .next (s.onWave k fun w =>
        ((popped w).putS d (BitVec.ofNat 64 (leNat (s.readLocalBytes at_ n))) (BitVec.ofNat 64 (leNat (s.readLocalBytes shadowAt n)))).wake x.lane)) ∧
    (∀ op o, x.job = .atomic op → w.op? op = some o →
      let r := s.atomicLocal o.atomicSize (o.pieces.filter fun y => y.part == o.parts.length)
      let there := o.pieces.filter fun y => y.part != o.parts.length
      exec (.portAccess k) s = .next (r.1.onWave k fun w => (popped w).onOp op fun o => { o with pieces := there ++ r.2 }))) ∧
  (∀ (s : State) (writes : List (LocalAt × Byte × Byte)), s.localCanonical = true →
    let t := writes.foldl (fun s y => s.writeLocalBits y.1 y.2.1 y.2.2) s
    t.localCanonical = true ∧ (∀ at_, (∀ y ∈ writes, y.1 ≠ at_) → t.readLocal at_ = s.readLocal at_) ∧
    ∀ front c off b, writes = front ++ [(.crew c off, b, 0xFF)] → (s.crew? c).isSome = true → t.readLocal (.crew c off) = b) ∧
  (∀ (s : State) (w : Wave) (o : Op) (k : Nat) (q : Part) (l : Leaf) (pick : Option Nat), s.plainFor w.launch → s.deterministic w = false →
    let u := unitOf q.home
    let mine := o.pieces.filter fun x => x.part == k && x.mainDue
    let stores := mine.filter fun x => o.extent x != 0
    (∀ x ∈ mine, x.marverCell = none) → (∀ x ∈ stores, l.place x.va + o.extent x ≤ 2 ^ 52) →
    let t := s.performPart w o k q l pick
    s.sameOutside t (stores.map fun x => (u, l.place x.va, o.extent x)) ∧ t.crews = s.crews ∧
    (pick = none → u ≤ 4 → ∀ before x after bs, mine = before ++ x :: after →
      (∀ y ∈ before ++ after, o.extent y = 0 ∨ l.place y.va + o.extent y ≤ l.place x.va ∨ l.place x.va + o.extent x ≤ l.place y.va) →
      o.stored s u (l.place x.va) x = some bs → t.holdsAt u (l.place x.va) bs)) ∧
  (∀ (s : State) (e : LogEntry) (l : Leaf), s.plainFor e.launch → unitOf e.home ≤ 4 →
    let u := unitOf e.home
    let t := s.storeLogged e l
    (e.cell = none → e.data.Pairwise (fun x y => x.1 < y.1) → (∀ x ∈ e.data, l.place x.1 < 2 ^ 52) →
      s.sameOutside t (e.data.map fun x => (u, l.place x.1, 1)) ∧
      ((∀ x ∈ e.data, ∀ y ∈ e.data, l.place x.1 = l.place y.1 → x.1 = y.1) → ∀ x ∈ e.data, t.readPhys u (l.place x.1) = x.2)) ∧
    (∀ job, e.cell = some job → l.place e.va + 64 ≤ 2 ^ 52 →
      s.sameOutside t [(u, l.place e.va, 64)] ∧
      (∀ v, job = .cxAdd v → t.holdsAt u (l.place e.va) (leBytes 64 ((CxCell.ofNat (leNat (s.readPhysBytes u (l.place e.va) 64))).add v).toNat)) ∧
      (job = .cxClear → t.holdsAt u (l.place e.va) (leBytes 64 0)))) ∧
  (∀ (s : State) (w : Wave) (o : Op) (job : MatJob),
    let t := s.turn w o job
    t.hbm = s.hbm ∧ t.hostMem = s.hostMem ∧ t.peerMem = s.peerMem ∧ (∀ at_, t.readLocal at_ = s.readLocal at_) ∧
    ∀ zero, o.kind = .mma zero → let v := w.relatch o job
      v.invalidRows o job zero ≠ [] → t = s.putWave (v.failAtTurn o 0x10 (v.invalidRows o job zero))) ∧
  ∀ (s : State) (w : Wave) (o : Op) (pick : Option Nat), s.wave? w.key = some w → w.op? o.key = some o → s.softErrors = [] →
    s.localCanonical = true →
    let t := s.performLocal w o pick
    t.hbm = s.hbm ∧ t.hostMem = s.hostMem ∧ t.peerMem = s.peerMem ∧
    (∀ at_, (∀ x ∈ o.pieces, ∀ p, x.dst = some p → ∀ j, j < x.data.length → p.plus j ≠ at_) → t.readLocal at_ = s.readLocal at_) ∧
    (pick = none → ∀ x ∈ o.pieces, ∀ c off j b, x.dst = some (.crew c off) → x.src = none → x.job = .local_ → j ∈ x.left →
      x.data[j]? = some (some b) → (s.crew? c).isSome = true →
      (∀ y ∈ o.pieces, ∀ r n, y.dst = some r → n < y.data.length → r.plus n = .crew c (off + j) → y = x ∧ n = j) →
      t.readLocal (.crew c (off + j)) = b)

/-- R200, R209, R216, R271-R283, R324, R325: the events of the engines. A matrix instruction takes its turn once its reads are done; the local side of
an operation performs byte by byte, its main side part by part once translated, in the order of its page's kind and of its cells, after the logged
writes of its page: on an S page once no part of the wave issued earlier that may be of an S page is unfinished, or in the side log; on a C page where
no such part holds a byte of it; at a cell once no earlier add or clear of the cell is open or logged; and once no logged write of the page is left.
While the matrix unit of a partition serves one wave's instruction, no other takes its turn there; a held write enters the side log, in entries of at
most four lines (log 45), and performs from there once mapped; the oldest operation of a counter leaves it when complete; an atomic's values return to
its register, which is then full; an error response ends its part, and where it is the last answer that an atomic waited for, the register is full as it
arrives. The model's choices in it: that an error response to an atomic or crucible word has the lanes refused with the part in its trap mask is log 23
(DESIGN CHOICE), and that bytes and cells are taken as the same where their virtual addresses are, in the order of C pages and of cells, is log 45
(DESIGN CHOICE). -/
def Obligations.EngineEventsTakePlace : Prop :=
  (∀ (k : Nat) (s : State) (w : Wave) (o : Op), s.wave? k = some w →
    (∀ job, w.ops.find? (fun o => o.kind.isMatrix && !o.finishedAtTurn) = some o → o.mat = some job → job.done = false → s.softErrors = [] →
      (w.portBefore o.seq = true ∨ s.unitTaken w = true → exec (.matrixTurn k) s = .next s) ∧
      (w.portBefore o.seq = false → s.unitTaken w = false → s.hasToken w = true →
        exec (.matrixTurn k) s = .next (if o.localActs.isEmpty then s.turn w o job else s.performLocal w o none))) ∧
    (w.op? o.key = some o → w.portBefore o.seq = false → s.deterministic w = false →
      (o.kind.isMatrix = true → o.kind = .mdrx ∧ o.finishedAtTurn = true) →
      (∀ pick, exec (.enginePartPerform k o.key o.parts.length pick) s = .next (s.performLocal w o pick)) ∧
      ∀ n q leaf pick, o.parts[n]? = some q → q.status = .ready → q.leaf = some leaf → q.home ≠ 0xFF →
        let mine := o.pieces.filter fun x => x.part == n
        (s.orderMet w o n leaf = false ∨ s.logsFirst w.ctx q.home ((o.partVa n).getD q.page) leaf = true →
          exec (.enginePartPerform k o.key n pick) s = .next s) ∧
        (s.orderMet w o n leaf = true → s.logsFirst w.ctx q.home ((o.partVa n).getD q.page) leaf = false →
          (o.kind = .cxadd ∨ o.kind = .cxclr ∨ o.kind = .mdrx → s.cellsMet w o mine = true) →
          (isPeerHome q.home = true → s.peerUp ((q.home - 0x10) / 4) = true) → (∀ x ∈ mine, s.migratingLine q leaf x = false) →
          (∀ l, s.launch? w.launch = some l → l.log = none) →
          exec (.enginePartPerform k o.key n pick) s = .next (s.performPart w o n q leaf pick))) ∧
    (∀ n q tag, w.op? o.key = some o → o.parts[n]? = some q → q.status = .held (some tag) → o.kind.logs = true → w.portBefore o.seq = false →
      let mine := o.pieces.filter fun x => x.part == n && !x.left.isEmpty
      let writes := mine.filter fun x => x.job == .write
      let bytes := (writes.flatMap fun x => x.data.zipIdx.map fun (b, k) => (x.va + k, b.getD 0)).foldl insertByte []
      w.writesBefore o mine = false → (∀ x ∈ writes, ∀ b ∈ x.data, b ≠ none) →
      (s.sideLog.filter fun e => e.core == w.core).length + (logWindows bytes).length + (mine.filter fun x => x.job != .write).length ≤ 128 →
      ∃ new t, exec (.sideLog k o.key n) s = .next t ∧ t.sideLog = s.sideLog ++ new ∧
        (∀ e ∈ new, e.core = w.core ∧ e.wave = w.key ∧ e.ctx = w.ctx ∧ e.home = q.home ∧ e.tag = tag ∧ e.leaf = none ∧
          e.tier = o.expectedTier ∧ ∀ y ∈ e.data, e.va ≤ y.1 ∧ y.1 < e.va / 64 * 64 + 256) ∧
        (∀ x ∈ writes, ∀ k, k < x.data.length → ∃ e ∈ new, x.va + k ∈ e.data.map Prod.fst) ∧
        t.waves = (s.setPart k o.key n .logged none).waves ∧ t.hbm = s.hbm ∧ t.hostMem = s.hostMem) ∧
    (∀ ctr, w.ops.find? (fun o => o.ctr == some ctr) = some o →
      (o.complete = true → exec (.counterRetire k ctr) s = .next (s.onWave k fun w => { w with ops := w.ops.filter fun e => e.key != o.key })) ∧
      (o.complete = false → exec (.counterRetire k ctr) s = .next s)) ∧
    (w.op? o.key = some o → o.answered = true → o.returned = false → o.ctr ≠ none →
      let got := o.pieces.filter fun x => x.done && !o.refusedAt x
      let value (x : Piece) : Nat := leNat (x.data.map fun b => b.getD 0)
      let back (w : Wave) : Wave := w.onOp o.key fun o => { o with returned := true }
      (∀ d x rest, o.kind = .satomic d → got = x :: rest →
        exec (.atomicReturn k o.key) s = .next ((s.clearScalar w d).onWave k fun w =>
          back ((w.putS d (BitVec.ofNat 64 (value x)) (BitVec.ofNat 64 (value x))).markS d false))) ∧
      ∀ d, o.kind = .vatomic d →
        let on := w.pairUp (Mask.ofLanes (got.map Piece.lane))
        exec (.atomicReturn k o.key) s = .next ((s.clearWritten w d on).onWave k fun w =>
          back ((w.writeV d on (fun l =>
            BitVec.ofNat 32 (((got.find? fun x => x.lane == w.primary (w.visible l)).map value).getD 0)) .general).markV d false))) ∧
    (∀ n q c i lanes deferred, w.op? o.key = some o → o.parts[n]? = some q → q.status = .replied c i →
      let mine := o.pieces.filter fun x => x.part == n && x.mainOpen
      let byLane : Prop := (∃ d, o.kind = .vatomic d) ∨ o.kind = .cxadd ∨ o.kind = .cxclr ∨ o.kind = .mdrx
      (byLane → lanes = w.pairUp (Mask.ofLanes (mine.map Piece.lane))) → (¬byLane → lanes = o.mask) →
      (deferred = true ↔ ∀ d, o.kind ≠ .cxget d) →
      let u := (s.setPart k o.key n (.refused c) none).respond k w.launch w.ctx w.core o.seq o.rank (o.ctr.getD 2) lanes c i
        ((mine.head?.map Piece.va).getD q.page) deferred
      exec (.errorResponse k o.key n) s = exec (.atomicReturn k o.key) u) ∧
    (w.op? o.key = some o → o.answered = false ∨ o.returned = true ∨ o.kind.returns = false → exec (.atomicReturn k o.key) s = .next s)) ∧
  (∀ (s : State) (e : LogEntry), s.sideLog.find? (fun y => y.core == e.core && y.key == e.key) = some e →
    (e.leaf = none → exec (.sideLogReplay e.core e.key) s = .next s) ∧
    ∀ l, e.leaf = some l →
      (s.replayWaits e l = true → exec (.sideLogReplay e.core e.key) s = .next s) ∧
      (s.replayWaits e l = false → s.entryError e = none →
        let rest := { s with sideLog := s.sideLog.filter fun y => y.key != e.key }
        let judged := s.checkLeaf e.home l e.va (if e.cell.isSome then .atomic else .write) e.tier
        (∀ c, judged = some c → exec (.sideLogReplay e.core e.key) s =
          .next (rest.respond e.wave e.launch e.ctx e.core e.seq e.rank e.ctr e.mask c 0 e.va true)) ∧
        (judged = none → exec (.sideLogReplay e.core e.key) s =
          .next ({ rest with hostWrites := s.hostWrites + if unitOf e.home = 4 then 1 else 0 }.storeLogged e l)))) ∧
  (∀ (s : State) (w : Wave), s.unitTaken w = true ↔
    ∃ v ∈ s.waves, v.key ≠ w.key ∧ v.core = w.core ∧ v.partition = w.partition ∧ ∃ o ∈ v.ops, o.begun = true) ∧
  (∀ (s : State) (w : Wave) (o : Op) (n : Nat) (leaf : Leaf),
    let unfinished (y : Part) : Prop := y.status ≠ .performed ∧ y.status ≠ .logged ∧ ∀ c, y.status ≠ .refused c
    let may (kind : Nat) (l : Option Leaf) : Prop := ∀ x, l = some x → x.kind = kind
    let earlier (kind j : Nat) (e : Op) : Prop := e ∈ w.ops ∧ e.seq < o.seq ∧ ∃ y, e.parts[j]? = some y ∧ y.home ≠ 0xFF ∧ unfinished y ∧ may kind y.leaf
    let logged (kind : Nat) (e : LogEntry) : Prop := e ∈ s.sideLog ∧ e.wave = w.key ∧ e.seq < o.seq ∧ may kind e.leaf
    let mine (x : Piece) : Prop := x ∈ o.pieces ∧ x.part = n
    let holds (x : Piece) (a : Nat) : Prop := x.va ≤ a ∧ a < x.va + x.len
    (leaf.kind = 0 → (s.orderMet w o n leaf = false ↔ (∃ j e, earlier 0 j e) ∨ ∃ e, logged 0 e)) ∧
    (leaf.kind = 1 → (∃ x a, mine x ∧ holds x a ∧
        ((∃ j e z, earlier 1 j e ∧ z ∈ e.pieces ∧ z.part = j ∧ holds z a) ∨ ∃ e, logged 1 e ∧ a ∈ e.bytes)) → s.orderMet w o n leaf = false) ∧
    (leaf.kind = 1 → (∀ x, mine x → 0 < x.len ∧
        (∀ j e z, earlier 1 j e → z ∈ e.pieces → z.part = j → x.va + x.len ≤ z.va ∨ z.va + z.len ≤ x.va) ∧
        ∀ e, logged 1 e → ∀ a ∈ e.bytes, ¬holds x a) → s.orderMet w o n leaf = true) ∧
    (2 ≤ leaf.kind → s.orderMet w o n leaf = true)) ∧
  (∀ (s : State) (ctx home va : Nat) (l : Leaf),
    s.logsFirst ctx home va l = true ↔ ∃ e ∈ s.sideLog, e.home = home ∧
      (e.ctx = ctx ∧ e.va / pageBytes l.size = va / pageBytes l.size ∨ ∃ x, e.leaf = some x ∧ x.pa = l.pa ∧ x.size = l.size)) ∧
  ∀ (s : State) (w : Wave) (o : Op) (cells : List Piece),
    let adds (j : Job) : Prop := j = .cxClear ∨ ∃ v, j = .cxAdd v
    let ended (e : Op) (y : Piece) : Prop := ∃ q, e.parts[y.part]? = some q ∧ (q.status = .logged ∨ ∃ c, q.status = .refused c)
    s.cellsMet w o cells = false ↔ ∃ x ∈ cells,
      (∃ e ∈ w.ops, e.seq < o.seq ∧ ∃ y ∈ e.pieces, y.va = x.va ∧ adds y.job ∧ y.left ≠ [] ∧ ¬ended e y) ∨
      ∃ e ∈ s.sideLog, e.wave = w.key ∧ e.seq < o.seq ∧ e.cell.isSome = true ∧ e.va = x.va

/-! ### Events of waves and launches -/

/-- R17, R22-R24, R121, R257, R260, R261, R184, R301, R376, R407: the events of a wave's life take place once their conditions hold: a deal, after
which, where it rests on a producer's bit, the wave stands in an acquire fence until its earlier reads have performed or its next word issues, drain
state, a retirement, the end of a section or of a sleep, 65,536 clocks of system mode, the write of an issued word, that of a suspended split's
`cxget` among them (R255), and a divergence from a replayed log; R383, R384: a region's native code becomes ready in every copy of the object's
version that a launch or the loader uses, and changes nothing a program sees. The model's choices here (DEDUCED): that a `sleep` has retired before it
ends (log 29), the moment and the trap mask of DIVERGE (log 28), and the waits of a deal and of the fence that it acts as (log 27). -/
def Obligations.WaveEventsTakePlace : Prop :=
  (∀ (k : Nat) (s : State) (w : Wave), s.wave? k = some w →
    (∀ l, s.launch? w.launch = some l → w.status = .awaitingCreationDeal → s.createdBefore w = false →
      (s.dealRun l w.V ≠ [] → exec (.waveDeal k) s = .next (s.dealStart w l (s.dealRun l w.V))) ∧
      (s.dealRun l w.V = [] → l.dealer < l.total → exec (.waveDeal k) s = .next s) ∧
      (l.total ≤ l.dealer → exec (.waveDeal k) s = .next (s.wholeVacant w))) ∧
    (∀ l items, s.launch? w.launch = some l → w.status = .awaitingDeal → w.settled = true → w.demand = none → l.desc.deterministic = false →
      s.dealRun l w.V = items → l.dealer < l.total →
      (items ≠ [] → exec (.waveDeal k) s = .next (s.dealStart w l items)) ∧ (items = [] → exec (.waveDeal k) s = .next s)) ∧
    (∀ l items v, (s.dealStart w l items).wave? k = some v →
      v.status = .running ∧ ∃ p, v.a.splits = [p] ∧ (p.status = if s.restsOnBit l items = true then .acquiring else .ready) ∧
        (s.restsOnBit l items = true → (v.canTry p = true ↔ v.mayIssue p = true ∧ v.acquired = true))) ∧
    (∀ l, s.launch? w.launch = some l → w.status = .awaitingDeal → w.settled = true → w.demand = none → s.hasToken w = true →
      l.total ≤ l.dealer → exec (.waveDeal k) s = .next (s.wholeVacant w)) ∧
    (w.status = .awaitingDrain → (s.launch? w.launch).isSome = true → exec (.waveDeal k) s = .next (s.tryDrain w)) ∧
    (w.status = .retiring → w.mayRetire = true → s.deterministic w = false → exec (.waveRetire k) s = .next (s.retireWave w)) ∧
    (∀ x, w.preoff = some x → s.remaining w x = 0 → w.trapReady = true → w.status = .running →
      exec (.prelimit k) s =
        .next ((s.onWave k fun w => { w with preoff := none }).takeWaveTrap { w with preoff := none } 0x12 x.n)) ∧
    (∀ lane,
      let ended (p : Split) : Prop := p.lanes.has lane = true ∧ ∃ till, p.status = .asleep till false ∧ till ≤ s.clock
      let held : List Split := w.a.splits ++ ((w.frame.map TrapFrame.splits).getD [])
      ((∀ p ∈ held, ¬ended p) → exec (.sleepEnd k lane) s = .next s) ∧
      ((∃ p ∈ held, ended p) → ∃ t v, exec (.sleepEnd k lane) s = .next t ∧ t.wave? k = some v ∧ v.a.retired = w.a.retired ∧
        (∀ (n : Nat) (p : Split), w.a.splits[n]? = some p → ∃ q, v.a.splits[n]? = some q ∧
          (ended p → q = { p with status := .ready, pc := (p.pc + 4) % 2 ^ 64 }) ∧ (¬ended p → q = p)) ∧
        (∀ f, w.frame = some f → ∃ g, v.frame = some g ∧ ∀ (n : Nat) (p : Split), f.splits[n]? = some p → ∃ q, g.splits[n]? = some q ∧
          (ended p → q = { p with status := .ready, pc := (p.pc + 4) % 2 ^ 64 }) ∧ (¬ended p → q = p)) ∧
        w.sameRegisters v)) ∧
    (∀ f, w.frame = some f → f.started + 65536 ≤ s.clock → exec (.systemModeTimeout k) s = .next (s.contextFault w.ctx (s.fieldsOf w))) ∧
    (∀ lane c, w.nextWrite lane = some c →
      exec (.registerWriteback k lane) s =
        .next (s.putWave (if 0x800 ≤ c then (w.landed c).markS (c - 0x800) false else w.landed c))) ∧
    (∀ lane o d job x, w.nextWrite lane = none → w.suspendedGet lane = some (o, d, job, x) →
      ∃ t v, exec (.registerWriteback k lane) s = .next t ∧ t.wave? k = some v ∧ v.a.retired = w.a.retired + 1 ∧ v.op? o.key = none ∧
        v.a.sregs = w.a.sregs ∧ v.a.preds = w.a.preds ∧ s.sameMemory t ∧ (∀ r, r ≠ d → v.vreg r = w.vreg r) ∧
        (∀ l, l < w.W → l < (w.vreg d).lanes.length → d < w.a.vregs.length → v.V_ d l = if o.mask.has l = true then x.1 l else w.V_ d l) ∧
        ∀ f, w.frame = some f → ∃ g, v.frame = some g ∧ ∀ (n : Nat) (p : Split), f.splits[n]? = some p → ∃ q, g.splits[n]? = some q ∧
          (p.status = .onCxget o.key → q = { p with status := .ready, pc := (p.pc + 4) % 2 ^ 64 }) ∧ (p.status ≠ .onCxget o.key → q = p)) ∧
    (∀ p rest e i, w.a.splits = p :: rest → w.instrAt p.pc = some i → s.diverging w p i = some e →
      (s.launch? w.launch).bind s.logHolds = none →
      ∃ u : State, exec (.diverge k) s = .next (u.takeTrap w p 0x16 p.pc e.retired p.lanes) ∧ u.waves = s.waves ∧ u.crews = s.crews)) ∧
  ∀ (handle version region : Nat) (s : State),
    let named (o : Object) : Prop := o.handle = handle ∧ o.version = version
    let ready (o o' : Object) : Prop :=
      (named o → s.versionUsed o = true → region ∈ o'.native) ∧ (¬named o ∨ s.versionUsed o = false → o' = o) ∧
      { o' with native := o.native } = o ∧ ∀ r, r ≠ region → (r ∈ o'.native ↔ r ∈ o.native)
    ∃ t, exec (.nativeCodeReady handle version region) s = .next t ∧ t.hbm = s.hbm ∧ t.crews = s.crews ∧
      t.objects.length = s.objects.length ∧ t.launches.length = s.launches.length ∧ t.waves.length = s.waves.length ∧
      (∀ (n : Nat) (o : Object), s.objects[n]? = some o → ∃ o', t.objects[n]? = some o' ∧ ready o o') ∧
      (∀ (n : Nat) (l : Launch), s.launches[n]? = some l → ∃ l', t.launches[n]? = some l' ∧ ready l.obj l'.obj) ∧
      (∀ (n : Nat) (w : Wave), s.waves[n]? = some w → ∃ w', t.waves[n]? = some w' ∧ ready w.kern w'.kern) ∧
      t.waves.map Wave.a = s.waves.map Wave.a ∧ t.waves.map Wave.native = s.waves.map Wave.native ∧
      t.waves.map (fun w => w.kern.code) = s.waves.map fun w => w.kern.code

/-- R292-R312, R348, R365: the events of queues, launches, crews and the assay take place once their conditions hold. An assay that waves in an
interval hold back enters event 0x51 for each core of theirs. A launch whose queue has a trace log is accepted only once that log can be reached, and
until then what `deviceFailed` gives follows; that wait is the model's choice (log 13, DESIGN CHOICE; logs 28, 30 and 45), which no rule states. That
a launch whose snapshot waits holds back no later one is the model's choice (log 30, DEDUCED). -/
def Obligations.LaunchEventsTakePlace : Prop :=
  (∀ (q : Nat) (v : Word64) (s : State), exec (.tailWrite q v) s = .next (s.onQueue q fun x => { x with tail := v })) ∧
  (∀ (q va : Nat) (s : State) (bs : List Byte) (succs : List Nat) (o : Object),
    let ctx := (s.queue q).context.toNat
    let d := Desc.ofBytes bs
    (s.queue q).status = 1 → (s.queue q).tail ≠ 0 → (s.queue q).reading = some (false, va) → s.deviceRead ctx va 128 = .ok bs →
    (s.refuses q ctx d none = true → exec (.descriptorAccept q) s = .next (s.refuseDescriptor q va)) ∧
    (∀ e, s.refuses q ctx d none = false → s.readSuccs ctx d = .ok succs → s.object? ctx d.handle = some o → s.acceptHolds q ctx d = some e →
      exec (.descriptorAccept q) s = .next (s.deviceFailed ctx 1 e)) ∧
    (s.refuses q ctx d none = false → s.readSuccs ctx d = .ok succs → s.object? ctx d.handle = some o → s.acceptHolds q ctx d = none →
      exec (.descriptorAccept q) s = .next ((((s.deviceTook ctx va 128).deviceTook ctx d.succaddr (4 * d.nsucc)).accept q va d o 0 none
        succs).onQueue q fun x =>
        { x with reading := some (if (s.queue q).tail.toNat = va then (true, va) else (false, d.next)) }))) ∧
  (∀ (s : State) (l : Launch) (bs : List Byte), s.launch? l.key = some l → s.startable l = true →
    (∀ y ∈ s.launches, y.queue = l.queue → y.order < l.order → s.startable y = true → s.snapshotWaits y = false →
      exec (.launchStart l.key) s = .next s) ∧
    ((∀ y ∈ s.launches, y.queue = l.queue → y.order < l.order → s.startable y = false ∨ s.snapshotWaits y = true) →
      (s.producerKilled l = true → exec (.launchStart l.key) s = .next (s.onLaunch l.key fun x => { x with killed := true })) ∧
      (s.producerKilled l = false → l.desc.deterministic = false → s.deviceRead l.ctx l.desc.params l.obj.params = .ok bs →
        exec (.launchStart l.key) s = .next ((s.deviceTook l.ctx l.desc.params l.obj.params).onLaunch l.key fun x =>
          { x with state := .started, params := bs })))) ∧
  (∀ (s : State) (l : Launch) (core : Nat) (places : List (Nat × Nat)), s.launch? l.key = some l → s.placeTurn l = true →
    s.nextPlace l = some (core, places) → s.firstStopped l = none →
    ∃ t c, exec (.crewPlace l.key) s = .next t ∧ c ∈ t.crews ∧ c.key = s.nextKey ∧ c.launch = l.key ∧ c.ordinal = l.crewsMade ∧
      c.core = core ∧ c.placed = true ∧ c.store = []) ∧
  (∀ (s : State) (l : Launch) (c : Crew) (core : Nat) (places : List (Nat × Nat)), s.crew? c.key = some c → s.launch? c.launch = some l →
    (s.firstStopped l).map Crew.key = some c.key → s.placeTurn l = true → s.nextPlace l = some (core, places) →
    (∀ w ∈ s.waves, w.crew = c.key → ∀ k, w.checkpoint = some k → k.wrong = 0) →
    ∃ t, exec (.crewReplace c.key) s = .next t ∧ (t.crew? c.key).map (fun x => (x.core, x.placed, x.store)) = some (core, true, c.store)) ∧
  (∀ (s : State) (c : Crew), s.crew? c.key = some c → c.placed = true → c.stopReq = true → s.boundTo c.key = false →
    (∀ w ∈ s.waves, w.crew = c.key → w.status ≠ .retired → s.mayStop w = true) →
    ∃ t, exec (.crewPreempt c.key) s = .next t ∧ (t.crew? c.key).map (fun x => (x.placed, x.stopReq, x.store)) = some (false, false, c.store)) ∧
  (∀ (s : State) (l : Launch), s.launch? l.key = some l → s.mayComplete l = true → l.succs = [] → l.log = none → (s.queue l.queue).cword = 0 →
    s.deviceWaits l.ctx l.desc.recaddr 32 = none →
    ∃ t, exec (.launchComplete l.key) s = .next t ∧ (∃ x ∈ t.launches, x.key = l.key ∧ x.state = .completed) ∧
      ∀ w ∈ t.waves, w.launch ≠ l.key) ∧
  (∀ (s : State) (l : Launch) (p : Nat), s.launch? l.key = some l → l.state = .started → l.desc.cblog ≠ 0xFF → p < l.blocks → p ∉ l.bits →
    (s.blockDone l p = true → exec (.bitmapBitSet l.key p) s = .next (s.onLaunch l.key fun x => { x with bits := p :: x.bits })) ∧
    (s.blockDone l p = false → exec (.bitmapBitSet l.key p) s = .next s)) ∧
  (∀ (s : State) (l : Launch), s.launch? l.key = some l → l.desc.deterministic = true → s.allPlaced l = true → l.visiting = false →
    (∀ w ∈ s.waves, w.checkpointDue = false) → exec (.tokenPass l.key) s = .next (s.passToken l.key)) ∧
  ∀ (k : Nat) (s : State), k < s.clusters.length →
    ((∀ c ∈ s.clusters, c.due = false) → ∃ t, exec (.assayDue k) s = .next t ∧ (nth t.clusters k Cluster.reset).due = true ∧
      ∀ c ∈ t.crews, c.placed = true → c.core / 8 = k → c.stopReq = true) ∧
    (let c := nth s.clusters k Cluster.reset
      let late (core : Nat) (w : Wave) : Prop := w ∈ s.waves ∧ w.core = core ∧ w.inInterval = true ∧ s.mayStop w = false ∧
        (s.crew? w.crew).map Crew.stopReq = some true
      (c.due = false ∨ c.holding = true → exec (.assayDelayed k) s = .next s) ∧
      (c.due = true → c.holding = false → s.integrityLog.length + 8 ≤ 256 → s.integrityLost = 0 →
        exec (.assayDelayed k) s = .next { s with integrityLog := s.integrityLog ++ ((List.range 8).filterMap fun n =>
          (s.delaying (8 * k + n)).map fun w => integrityEntry s.clock { s.fieldsOf w with event := 0x51 } 0) }) ∧
      ∀ core, (∀ w, s.delaying core = some w → late core w ∧ ∀ v, late core v → w.partition * 16 + w.slot ≤ v.partition * 16 + v.slot) ∧
        ((∃ w, late core w) → (s.delaying core).isSome = true)) ∧
    ∀ faulty, (nth s.clusters k Cluster.reset).holding = true → ∃ t, exec (.assayEnd k faulty) s = .next t ∧
      (nth t.clusters k Cluster.reset).holding = false ∧ (nth t.clusters k Cluster.reset).due = false ∧
      ((nth t.clusters k Cluster.reset).inService = true ↔ faulty = false ∧ (nth s.clusters k Cluster.reset).inService = true)

/-! ### Events of homes, the host and the errors -/

/-- R315-R332, R399: the events of the homes of this device. A pending part whose page is cached is answered from the entry; otherwise a walk is asked
for, for which a part of the home's own die waits while another is refused with retry-after and sent again; a walk ends and its leaf is cached; leases
are granted, expire and are recalled; a migration whose lines are copied commits, and its page's entries show the new frame. A peer's request is
refused with an entry in the error log, waits for logged writes, or performs: it writes the bytes asked for at its place and no other. The model's
choices here: answers of retry-after and of walks (log 13), leases and migrations found by their table entry, and leases withheld from a page that is
being withdrawn (log 35), and the form of a peer's requests (log 36). -/
def Obligations.HomeEventsTakePlace : Prop :=
  (∀ (k n : Nat) (s : State) (w : Wave) (o : Op) (q : Part), s.wave? k = some w → w.op? o.key = some o → o.parts[n]? = some q →
    (q.home < 4 → q.home < s.homes.length → q.page / 2 ^ 48 % 256 = 0 → q.status = .pending → (o.kind = .mdrx → o.finishedAtTurn = true) →
      let asked (own : Bool) : Walk := ⟨w.ctx, q.page, (o.firstVa n).getD q.page, o.kind.faultOp, w.core, own⟩
      (∀ l, (s.home q.home).cached w.ctx q.page = some l → exec (.homeRequest k o.key n) s = .next (s.answer w o n q (.leaf l))) ∧
      ((s.home q.home).cached w.ctx q.page = none → (w.ctx, pageOf q.page) ∉ (s.home q.home).walked →
        (w.core / 40 = q.home → exec (.homeRequest k o.key n) s =
          .next ((s.onHome q.home fun h => h.ask (asked true)).setPart k o.key n .walking none)) ∧
        (w.core / 40 ≠ q.home → ∃ (t : State) (till : Nat), exec (.homeRequest k o.key n) s = .next (t.setPart k o.key n (.retryAfter till) none) ∧
          s.clock + 128 ≤ till ∧ till ≤ s.clock + 32640 ∧ t.waves = s.waves ∧
          (t.home q.home).walks = ((s.home q.home).ask (asked false)).walks))) ∧
    (∀ till, q.status = .retryAfter till →
      exec (.retryAfterResend k o.key n) s = .next (if s.clock < till then s else s.setPart k o.key n .pending none))) ∧
  (∀ (u n : Nat) (s : State) (x : Walk) (l : Leaf), u < 4 → u < s.homes.length → (s.home u).walks[n]? = some x → n < Config.walksPerHome →
    (∀ y ∈ (s.home u).walks.take n, ¬(y.ctx = x.ctx ∧ y.va = x.va) ∧ (x.own = true → y.own = false)) →
    s.walk x.ctx u x.va = .leaf l → (∀ w ∈ s.waves, w.ops = []) →
    ∃ t, exec (.walkComplete u x.ctx x.va) s = .next t ∧ ⟨x.ctx, pageOf x.va, l⟩ ∈ (t.home u).cache ∧ x ∉ (t.home u).walks ∧
      t.waves = s.waves ∧ t.hbm = s.hbm) ∧
  (∀ (home chip ctx va clocks lease : Nat) (s : State),
    exec (.leaseExpire home lease) s = .next (s.onHome (unitOf home) fun h =>
      { h with leases := h.leases.filter fun x => !(x.id == lease && decide (x.expires ≤ s.clock)) }) ∧
    exec (.leaseRecallAck home lease) s = .next (s.onHome (unitOf home) fun h =>
      { h with leases := h.leases.filter fun x => !(x.id == lease && x.recalled && s.peerUp x.chip) }) ∧
    (s.peerUp chip = false → exec (.leaseRecall chip va) s = .next s) ∧
    (s.peerUp chip = true → ∃ t, exec (.leaseRecall chip va) s = .next t ∧ (∀ x ∈ t.heldLeases, x.chip ≠ chip ∨ pageOf x.va ≠ pageOf va) ∧
      t.hbm = s.hbm) ∧
    (∀ l, s.feature 4 = true → home < 4 → homeOf va = home → va / 2 ^ 48 % 256 = 0 → chip < 28 → s.peerUp chip = true →
      0 < clocks → clocks ≤ 1500000 → s.leasesHeldBy chip < 1024 →
      home < s.homes.length → (s.home home).cached ctx va = some l → s.withdrawing home ctx va l = false → s.bandClosed home l.pa = false →
      ∃ t, exec (.leaseGrant home chip ctx va clocks) s = .next t ∧
        ⟨(s.home home).nextLease, chip, ctx, pageOf va, l, s.clock + clocks, false⟩ ∈ (t.home home).leases) ∧
    (s.feature 4 = true → home < 4 → homeOf va = home → va / 2 ^ 48 % 256 ≠ 0 → chip < 28 → s.peerUp chip = true → 0 < clocks → clocks ≤ 1500000 →
      s.leasesHeldBy chip < 1024 →
      exec (.leaseGrant home chip ctx va clocks) s = .next (s.logError va ctx home 0x0D (0x100 + chip) 0)) ∧
    (s.feature 4 = true → home < 4 → homeOf va = home → va / 2 ^ 48 % 256 = 0 → chip < 28 → s.peerUp chip = true → 0 < clocks → clocks ≤ 1500000 →
      s.leasesHeldBy chip < 1024 → (s.home home).cached ctx va = none → (ctx, pageOf va) ∉ (s.home home).walked →
      exec (.leaseGrant home chip ctx va clocks) s =
        .next (s.onHome home fun h => h.ask ⟨ctx, pageOf va, va, 5, 0x100 + chip, false⟩)) ∧
    (s.feature 4 = false ∨ homeOf va ≠ home ∨ s.peerUp chip = false ∨ clocks = 0 ∨ 1500000 < clocks ∨ 1024 ≤ s.leasesHeldBy chip →
      exec (.leaseGrant home chip ctx va clocks) s = .next s)) ∧
  (∀ (u ctx va : Nat) (s : State) (g : Migration), u < 4 →
    (s.home u).migrations.find? (fun g => g.ctx == ctx && decide (g.va ≤ va ∧ va < g.va + g.size)) = some g → g.size ≤ 64 * g.copied →
    (∀ x ∈ (s.home u).leases, x.leaf.entry ∉ g.entries) →
    ∃ t, exec (.migrateCommit u ctx va) s = .next t ∧ g ∉ (t.home u).migrations ∧ (∀ c ∈ (t.home u).cache, c.leaf.entry ∉ g.entries) ∧
      t.hbm = (s.rewriteEntries u g.entries (some g.new) false).hbm ∧
      ((∃ c a b, s.running = some (.migrate c a b)) → t.running = none ∧ t.cmdstat = 0)) ∧
  (∀ (home : Nat) (s : State) (band tier : Nat), s.running = some (.reclass home band tier) → home < 4 → home < s.homes.length →
    band < (s.home home).tiers.length →
    ∃ t, exec (.bandReopen home) s = .next t ∧ t.running = none ∧ t.cmdstat = 0 ∧ nth (t.home home).tiers band 3 = tier ∧
      band ∉ (t.home home).closed ∧
      (s.mainCanonical = true → ∀ pa, band * 0x24000000 ≤ pa → pa < (band + 1) * 0x24000000 → t.readPhys home pa = 0)) ∧
  (∀ (chip ctx va : Nat) (lease : Option Nat) (op : PeerOp) (s : State),
    let home := homeOf va
    let one : Prop := match op with
      | .read n => 0 < n ∧ va % 65536 + n ≤ 65536
      | .write bs => 0 < bs.length ∧ va % 65536 + bs.length ≤ 65536
      | _ => True
    (28 ≤ chip ∨ s.peerUp chip = false → exec (.peerRequest chip ctx va lease op) s = .next s) ∧
    (chip < 28 → s.peerUp chip = true → one → (s.feature 4 = false ∨ 4 ≤ home ∨ va / 2 ^ 48 % 256 ≠ 0) →
      exec (.peerRequest chip ctx va lease op) s = .next (s.logError va ctx home 0x0D (0x100 + chip) 0)) ∧
    ∀ l, chip < 28 → s.peerUp chip = true → one → s.feature 4 = true → home < 4 → va / 2 ^ 48 % 256 = 0 → lease = none →
      (s.home home).cached ctx va = some l → (∀ n, op ≠ .leaseRequest n) →
      let pa := l.place va
      let old (n : Nat) : Nat := leNat (s.readPhysBytes home pa n)
      (∀ c, s.checkLeaf home l va (needOf op) none = some c →
        exec (.peerRequest chip ctx va lease op) s = .next (s.logError va ctx home c (0x100 + chip) 0)) ∧
      (s.checkLeaf home l va (needOf op) none = none → s.logsFirst ctx home va l = true → exec (.peerRequest chip ctx va lease op) s = .next s) ∧
      (s.checkLeaf home l va (needOf op) none = none → s.logsFirst ctx home va l = false → s.softErrors = [] → s.mainCanonical = true →
        (s.home home).migrations = [] →
        let puts (bs : List Byte) : Prop := pa + bs.length ≤ 2 ^ 52 →
          ∃ t, exec (.peerRequest chip ctx va lease op) s = .next t ∧ t.holdsAt home pa bs ∧ s.sameOutside t [(home, pa, bs.length)] ∧ t.crews = s.crews
        (∀ n, op = .read n ∨ op = .cellRead → exec (.peerRequest chip ctx va lease op) s = .next s) ∧
        (∀ bs, op = .write bs → puts bs) ∧
        (∀ kind f n x y, op = .atomic kind n x y → peerAtomic kind = some f → n = 4 ∨ n = 8 → va % n = 0 →
          (∀ z, atomicNew f n (old n) (x.toNat % 2 ^ (8 * n)) (y.toNat % 2 ^ (8 * n)) = some z → puts (leBytes n z)) ∧
          (atomicNew f n (old n) (x.toNat % 2 ^ (8 * n)) (y.toNat % 2 ^ (8 * n)) = none → exec (.peerRequest chip ctx va lease op) s = .next s)) ∧
        (∀ int word, op = .cellAdd int word → va % 64 = 0 →
          puts (leBytes 64 ((CxCell.ofNat (old 64)).add (if int = true then Val.ofInt word.toInt else Float.fp32.decode word.toNat)).toNat)) ∧
        (op = .cellClear → va % 64 = 0 → puts (leBytes 64 0)))) ∧
  ∀ (link : Nat) (s : State), link < 12 → s.linksDown.getLsbD link = false → link < s.linkRetries.length →
    exec (.linkFlitRetry link true) s = .next { s with linkRetries := s.linkRetries.set link 0 } ∧
    (nth s.linkRetries link 0 < 15 →
      exec (.linkFlitRetry link false) s = .next { s with linkRetries := s.linkRetries.set link (nth s.linkRetries link 0 + 1) }) ∧
    (15 ≤ nth s.linkRetries link 0 → ∃ t, exec (.linkFlitRetry link false) s = .next t ∧ t.linksDown.getLsbD link = true)

/-- R334-R352, R380, R395-R404: the events that reach the device from the host and its surroundings, and those of the containment ladder: accepted
features, register writes, host accesses, loss of the link, reset and firmware, bit errors and the scrubber, region rollback, and replay. A host
access is stated line by line, in range 0 at every die and in range 1 at every home; its writes where no bit error is about. Bit errors are stated at
every place that corrects them and in the lines of main memory; which bits go wrong in a bare or a checked line is free, so what the line becomes is
left out, as are such lines of a marver allotment. The scrubber: a single error is corrected and charged to its owner, one of more bits poisoned and
reported, one in a free place cleared. The model's choices in it are these: an FACCEPT0 with bit 0 clear changes nothing (log 39, DEDUCED); a host
access goes line by line, and which address its error entry names (log 36, DEDUCED); a host request refused with retry-after ends there (log 13,
DESIGN CHOICE); what a loss of the link and a thermal trip leave (log 37, DEDUCED); what the boot ROM checks and leaves empty (log 38, DEDUCED); a
replay is charged when it is decided, and a scrubber's correction in a band is charged to no context (log 32, DEDUCED). Three or more wrong bits or
symbols in one word are found, poisoned and reported as two are (log 49, DESIGN CHOICE: R336 and R337 promise nothing there). What errors of the
cullet and of a wave's pipeline state report and lead to is log 43 (DESIGN CHOICE). Range 2 of a host access, the host's own memory by its physical
address, is the model's own (log 36, DESIGN CHOICE). -/
def Obligations.HostAndErrorEventsTakePlace : Prop :=
  (∀ (k : Nat) (v : Word32) (s : State),
    (s.contexts ≠ [] ∨ 4 ≤ k ∨ k = 0 ∧ v.getLsbD 0 = false → exec (.facceptWrite k v) s = .next s) ∧
    (s.contexts = [] → k < 4 → (k = 0 → v.getLsbD 0 = true) →
      exec (.facceptWrite k v) s = .next { s with faccept := s.faccept.set k (if k = 0 then v &&& 0xFF else 0) })) ∧
  (∀ (off : Nat) (bs : List Byte) (s : State),
    (bs.length ≤ 4 → off + bs.length ≤ 0x140 ∨ 0x144 ≤ off → exec (.registerWrite off bs) s = .next (s.writeRegisters off bs)) ∧
    (off = 0x140 → bs = leBytes 4 1 → exec (.registerWrite off bs) s = (s.writeRegisters off bs).doorbell)) ∧
  (∀ (d pa len : Nat) (wr : Option (List Byte)) (s : State),
    let n := (wr.map List.length).getD len
    let act := exec (.hostMemAccess 0 (d * 2 ^ 41 + pa) len wr) s
    d < 4 → pa < 2 ^ 41 → 0 < n → pa % 64 + n ≤ 64 →
    (s.bandTier d pa = none ∨ s.bandClosed d pa = true → act = .next (s.logError (d * 2 ^ 56 + pa) 0xFFFF d 0x0D 0xFFFF 0)) ∧
    ((s.bandTier d pa).isSome = true → s.bandClosed d pa = false →
      (s.loggedAt ⟨d, pa⟩ = true → act = .next s) ∧
      (s.loggedAt ⟨d, pa⟩ = false → wr = none →
        (s.softErrors = [] → act = .next s) ∧
        ∀ e, s.softErrors = [e] → e.site = .hbm d (pa / 64) →
          (e.bits = 1 → e.poison = false → act = .next ({ s with softErrors := [] }.corrected 0xFFFF none)) ∧
          (2 ≤ e.bits ∨ e.poison = true → act = .next { s with softErrors := [⟨e.site, e.bits, true⟩] })) ∧
      (s.loggedAt ⟨d, pa⟩ = false → ∀ bs, wr = some bs →
        (s.lineCopied ⟨d, pa⟩ = true → act = .next s) ∧
        (s.lineCopied ⟨d, pa⟩ = false → s.softErrors = [] → s.mainCanonical = true →
          ∃ t, act = .next t ∧ t.holdsAt d pa bs ∧ s.sameOutside t [(d, pa, n)])))) ∧
  (∀ (home off len : Nat) (wr : Option (List Byte)) (s : State),
    let n := (wr.map List.length).getD len
    let va := home * 2 ^ 56 + off
    let ctx := s.hctx.toNat
    let act := exec (.hostMemAccess 1 (home * 2 ^ 48 + off) len wr) s
    home < 4 → off < 2 ^ 48 → 0 < n → off % 64 + n ≤ 64 →
    ((s.home home).cached ctx va = none → (ctx, pageOf va) ∉ (s.home home).walked →
      act = .next (s.onHome home fun h => h.ask ⟨ctx, pageOf va, va, 4, 0xFFFF, false⟩)) ∧
    ∀ l, (s.home home).cached ctx va = some l →
      let need := if wr.isSome = true then Need.write else Need.read
      let pa := l.place va
      (∀ c, s.checkLeaf home l va need none = some c → act = .next (s.logError va ctx home c 0xFFFF 0)) ∧
      (s.checkLeaf home l va need none = none →
        (s.logsFirst ctx home va l = true ∨ s.loggedAt ⟨home, pa⟩ = true → act = .next s) ∧
        (s.logsFirst ctx home va l = false → s.loggedAt ⟨home, pa⟩ = false → s.softErrors = [] →
          (wr = none → act = .next s) ∧
          ∀ bs, wr = some bs → s.mainCanonical = true → (s.home home).migrations = [] → pa + n ≤ 2 ^ 52 →
            ∃ t, act = .next t ∧ t.holdsAt home pa bs ∧ s.sameOutside t [(home, pa, n)]))) ∧
  (∀ (pa len : Nat) (wr : Option (List Byte)) (s : State),
    let n := (wr.map List.length).getD len
    let act := exec (.hostMemAccess 2 pa len wr) s
    0 < n → pa % 64 + n ≤ 64 → pa + n ≤ 2 ^ 64 → (wr = none → act = .next s) ∧
    ∀ bs, wr = some bs → s.softErrors = [] → s.mainCanonical = true →
      ∃ t, act = .next t ∧ t.holdsAt 4 pa bs ∧ s.sameOutside t [(4, pa, n)]) ∧
  (∀ (range off len : Nat) (wr : Option (List Byte)) (s : State),
    3 ≤ range ∨ range = 0 ∧ 2 ^ 43 ≤ off ∨ range = 1 ∧ 2 ^ 50 ≤ off ∨ range = 2 ∧ 2 ^ 64 ≤ off →
      exec (.hostMemAccess range off len wr) s = .next s) ∧
  (∀ s : State, exec .hostGoResponse s = .next { s with hostWrites := s.hostWrites - 1 }) ∧
  (∀ (s t : State), (exec .cxlLinkLoss s = .next t ∨ exec .thermalTrip s = .next t) →
    (∀ w ∈ t.faccept, w = 0) ∧ (∀ m ∈ t.linkMasks, m = 0) ∧ (∀ c ∈ t.contexts, c.faulted = true ∧ c.report.cause = trapUE) ∧
    ∀ l ∈ t.launches, l.state ≠ .completed → l.ctx ∈ s.contexts.map Context.id → l.killed = true) ∧
  (∀ s : State, (∃ t, exec .cxlLinkLoss s = .next t) ∧ ∃ t, exec .thermalTrip s = .next t) ∧
  (∀ (good : Bool) (header body : List Byte) (s : State),
    ∃ t, exec (.resetRelease good header body) s = .next t ∧ t.waves = [] ∧ t.contexts = [] ∧ t.faccept = State.reset.faccept ∧
      t.linkMasks = State.reset.linkMasks ∧ t.hostMem = s.hostMem ∧
      (good = true → firmwareGood header body s.minSvn = true → t.stage = 2) ∧
      (good = false ∨ firmwareGood header body s.minSvn = false → t.stage = 0xE ∧ t.minSvn = s.minSvn)) ∧
  (∀ s : State, (s.stage ≠ 2 → exec .firmwareReady s = .next s) ∧
    (s.stage = 2 → ∃ t, exec .firmwareReady s = .next t ∧ t.stage = 3 ∧ ∀ h ∈ t.homes, h.tiers = List.replicate 256 2)) ∧
  (∀ (s : State) (w : Wave) (d : Demand), s.wave? w.key = some w → w.demand = some d → w.quiet = true → w.system = false →
    d.event ≠ 0x12 → d.event ≠ 0x20 → w.inInterval = false → w.checkpointDue = false →
    (∀ c, w.failures = 0 → w.checkpoint = some c → c.wrong = 0 → exec (.regionRollback w.key) s = .next (s.rollback w d)) ∧
    (1 ≤ w.failures ∨ w.checkpoint = none → exec (.regionRollback w.key) s = .next (s.escalate w d))) ∧
  (∀ (s : State) (l : Launch), s.launch? l.key = some l → l.state = .started → l.killed = false →
    (l.replayable = false → exec (.launchReplay l.key) s =
      .next (s.contextFault l.ctx { LogFields.none with launchid := l.desc.launchid, context := l.ctx })) ∧
    (l.replayable = true → l.replaying = false → (∀ c, s.context? l.ctx = some c → 256 < c.eb.toInt) →
      ∃ t x, exec (.launchReplay l.key) s = .next t ∧ t.launch? l.key = some x ∧ x.replaying = true ∧
        t.ebOf l.ctx = (if (s.context? l.ctx).isSome then s.ebOf l.ctx - 256 else 0) ∧
        ∀ c ∈ t.crews, c.launch = l.key → c.placed = true → c.stopReq = true) ∧
    (l.replayable = true → l.replaying = true → (∃ c ∈ s.crews, c.launch = l.key ∧ c.placed = true) → exec (.launchReplay l.key) s = .next s) ∧
    (l.replayable = true → l.replaying = true → (∀ c ∈ s.crews, c.launch = l.key → c.placed = false) → s.logHolds l = none →
      ∃ t x, exec (.launchReplay l.key) s = .next t ∧ t.launch? l.key = some x ∧ x.replayed = true ∧ x.replaying = false ∧ x.dealer = 0 ∧ x.items = 0 ∧
        (∀ w ∈ t.waves, w.launch ≠ l.key) ∧ ∀ y ∈ t.shadows, y.launch ≠ l.key)) ∧
  (∀ (site : ErrSite) (n : Nat) (s : State),
    (s.siteTier site = none → exec (.softError site n) s = .next s) ∧
    (s.siteTier site = some 2 → 0 < n → s.errorAt site = none → (∀ k, site ≠ .cullet k) →
      exec (.softError site n) s = .next { s with softErrors := s.softErrors ++ [⟨site, n, false⟩] }) ∧
    (∀ k w c, site = .cullet k → s.wave? k = some w → w.checkpoint = some c → c.wrong = 0 → 0 < n →
      ∃ t v, exec (.softError site n) s = .next t ∧ t.wave? k = some v ∧ v.checkpoint = some { c with wrong := n, poisoned := false }) ∧
    (∀ t e, s.siteTier site = some t → t ≠ 0 → 0 < n → s.errorAt site = some e →
      ∃ u, exec (.softError site n) s = .next u ∧ u.errorAt site = some ⟨e.site, e.bits + n, e.poison⟩) ∧
    (∀ t d line, s.siteTier site = some t → t ≤ 1 → site = .hbm d line → s.errorAt site = none → s.mainCanonical = true →
      ∃ u, exec (.softError site n) s = .next u ∧ s.sameOutside u [(d, 64 * line, 64)] ∧
        (t = 0 → u.softErrors = s.softErrors) ∧ (t = 1 → u.softErrors = s.softErrors ∨ u.softErrors = s.softErrors ++ [⟨site, max 2 n, false⟩]))) ∧
  (∀ (k : Nat) (s : State), exec (.scrubPass (.pipeline k)) s = .next s) ∧
  (∀ (site : ErrSite) (s : State), s.errorAt site = none → exec (.scrubPass site) s = .next s) ∧
  (∀ (k : Nat) (s : State) (w : Wave) (c : Checkpoint), s.wave? k = some w → w.checkpoint = some c →
    let act := exec (.scrubPass (.cullet k)) s
    (c.wrong = 0 ∨ c.poisoned = true → act = .next s) ∧
    (c.wrong = 1 → c.poisoned = false → ∃ t v, act = .next t ∧ t.wave? k = some v ∧ v.checkpoint = some { c with wrong := 0 } ∧
      t.integrityLog = s.integrityLog) ∧
    (2 ≤ c.wrong → c.poisoned = false → ∃ t v, act = .next t ∧ t.wave? k = some v ∧ v.checkpoint = some { c with poisoned := true } ∧
      (s.integrityLog.length < 256 →
        t.integrityLog = s.integrityLog ++ [integrityEntry s.clock { s.siteFields (.cullet k) with event := 0x40 } s.integrityLost]))) ∧
  (∀ (e : SoftErr) (s : State), (∀ k, e.site ≠ .cullet k ∧ e.site ≠ .pipeline k) → s.errorAt e.site = some e →
    let band : Prop := ∃ d line, e.site = .hbm d line
    let rest := s.softErrors.filter fun x => !sameWord x.site e.site
    let act := exec (.scrubPass e.site) s
    (s.ownerOf e.site = none → ¬band →
      act = .next ({ s.zeroSite e.site with softErrors := rest }.logIntegrity { s.siteFields e.site with event := 0x41 })) ∧
    ((s.ownerOf e.site).isSome = true ∨ band → e.poison = true → act = .next s) ∧
    (∀ c, s.ownerOf e.site = some c → e.poison = false → e.bits ≤ 1 → act = .next ({ s with softErrors := rest }.corrected c none)) ∧
    (band → e.poison = false → e.bits ≤ 1 → act = .next { s with softErrors := rest }) ∧
    ((s.ownerOf e.site).isSome = true ∨ band → e.poison = false → 2 ≤ e.bits →
      act = .next ({ s with softErrors := rest ++ [{ e with poison := true }] }.logIntegrity { s.siteFields e.site with event := 0x40 }))) ∧
  ∀ (up : Bool) (s : State), exec (.arithmeticClockStep up) s =
    .next { s with clockStep := if up then min 12 (s.clockStep + 1) else s.clockStep - 1 }

/-! ### Commands -/

/-- R310, R317, R323, R340, R355, R357, R372, R397, R399, R403, R404: the commands that take effect at once. While a command runs they are ignored;
before stage 3 they are refused, and where their condition fails (cmdstat 2); otherwise they have their effect and cmdstat reads 0. QEVICT alone may
go on: until no crew of the queue is placed (log 30). The model's choices here (DEDUCED): CTXCREATE is refused for a context that exists and does not
check its handler, CTXROOT checks no alignment, and TLOGSET mode 0 (log 41); QSTART clears stopat (log 39). -/
def Obligations.CommandsTakeEffect : Prop :=
  let does (i : Instr) (ok : State → Prop) (f : State → State) : Prop :=
    ∀ s : State, (s.running ≠ none → exec i s = .next s) ∧ (s.running = none → s.stage ≠ 3 → exec i s = .next { s with cmdstat := 2 }) ∧
      (s.running = none → s.stage = 3 → (ok s → exec i s = .next { f s with cmdstat := 0 }) ∧ (¬ok s → exec i s = .next { s with cmdstat := 2 }))
  let has (c : Nat) (s : State) : Prop := ∃ x ∈ s.contexts, x.id = c
  let stop (s : State) (q : Nat) : State := s.onQueue q fun x => { x with status := 0, reading := none, held := [] }
  (∀ q : Nat,
    does (.qstart q) (fun s => q < 256 ∧ (s.queue q).status ≠ 1)
      (fun s => s.onQueue q fun x => { x with status := 1, stopat := 0, reading := some (false, x.head.toNat) }) ∧
    does (.qstop q) (fun _ => q < 256) (fun s => stop s q) ∧
    (∀ s : State, let t := (s.onQueue q fun x => { x with evicted := true }).stopCrews (s.crewOfQueue q)
      (s.running ≠ none → exec (.qevict q) s = .next s) ∧
      (s.running = none → s.stage ≠ 3 ∨ 256 ≤ q → exec (.qevict q) s = .next { s with cmdstat := 2 }) ∧
      (s.running = none → s.stage = 3 → q < 256 →
        (t.queuePlaced q = false → exec (.qevict q) s = .next { t with cmdstat := 0 }) ∧
        (t.queuePlaced q = true → exec (.qevict q) s = .next { t with running := some (.qevict q), cmdstat := 1 }))) ∧
    does (.qresume q) (fun _ => q < 256) (fun s => s.onQueue q fun x => { x with evicted := false }) ∧
    does (.qkill q) (fun _ => q < 256)
      (fun s => stop (s.killLaunches ((s.launches.filter fun l => l.queue == q && l.open_).map Launch.key)) q)) ∧
  (∀ (c home root : Nat) (debug : Bool) (x : Word64) (buf : Nat),
    does (.ctxcreate c debug x) (fun s => ¬has c s ∧ c < 0xFFFF)
      (fun s => { s with contexts := s.contexts ++ [⟨c, debug, x.toNat, 0x100000, 0, [], [], false, .ofCause 0⟩] }) ∧
    does (.ctxroot c home root) (fun s => has c s ∧ (home < 4 ∨ home = 0x80))
      (fun s => s.onContext c fun y =>
        { y with roots := (if root = 0 then [] else [(home, root)]) ++ y.roots.filter fun r => r.1 != home }) ∧
    does (.trapset c x)
      (fun s => has c s ∧ (x = 0 ∨ ∃ o ∈ s.objects, o.ctx = c ∧ o.codeVa ≤ x.toNat ∧ x.toNat < o.codeVa + 4 * o.code.length ∧ (x.toNat - o.codeVa) % 4 = 0))
      (fun s => s.onContext c fun y => { y with handler := x.toNat }) ∧
    does (.ebset c x) (has c) (fun s => s.onContext c fun y => { y with eb := x }) ∧
    does (.corrread c buf) (has c)
      (fun s => (s.onContext c fun y => { y with corrections := 0 }).toHost buf (leBytes 8 (((s.context? c).map Context.corrections).getD 0))) ∧
    does (.ctxdestroy c) (fun s => has c s ∧ ∀ l ∈ s.launches, l.ctx = c → l.state = .completed)
      (fun s => { s with
        contexts := s.contexts.filter fun y => y.id != c
        objects := s.objects.filter fun o => o.ctx != c
        launches := s.launches.filter fun l => l.ctx != c
        queues := s.queues.map fun (y : Queue) => if y.context.toNat = c then { Queue.reset with served := y.served } else y })) ∧
  (∀ (home base size : Nat) (bands : List Nat),
    does (.fringset home base size) (fun _ => home < 4 ∨ home = 0x80)
      (fun s => (s.onHome (unitOf home) fun h => { h with ringBase := base, ringSize := size, ringNext := 0 }).retryUnrecorded home) ∧
    does (.lehrset home bands)
      (fun s => home < 4 ∧ (∀ x ∈ s.shadows, x.die ≠ home) ∧ ∀ b ∈ bands, b < 256 ∧ nth (s.home home).tiers b 0 = 2)
      (fun s => s.onHome home fun h => { h with lehr := bands.eraseDups })) ∧
  (∀ (n k buf : Nat) (m : BitVec 12),
    does (.assayset n none) (fun _ => 10 ≤ n ∧ n ≤ 3600) (fun s => { s with assayPeriod := n }) ∧
    does (.assayset n (some k)) (fun s => 10 ≤ n ∧ n ≤ 3600 ∧ k < s.clusters.length)
      (fun s => { s with assayPeriod := n, clusters := s.clusters.modify k fun c => { c with inService := true } }) ∧
    does (.tlogset k 0 0 0) (fun _ => k < 256) (fun s => s.onQueue k fun x => { x with tlog := none }) ∧
    (∀ (s : State) (base size mode : Nat), 0 < mode →
      let ctx := (s.queue k).context.toNat
      let form : Prop := k < 256 ∧ mode ≤ 2 ∧ base % 64 = 0 ∧ 64 ≤ size ∧ (size - 64) % 96 = 0
      let run := exec (.tlogset k base size mode) s
      (s.running ≠ none → run = .next s) ∧ (s.running = none → s.stage ≠ 3 → run = .next { s with cmdstat := 2 }) ∧
      (s.running = none → s.stage = 3 →
        (form → s.sealedRW ctx base size = true →
          run = .next { s.onQueue k fun x => { x with tlog := some (base, size, mode) } with cmdstat := 0 }) ∧
        (¬form → run = .next { s with cmdstat := 2 }) ∧
        (form → s.sealedRW ctx base size = false →
          run = .next (s.rangeRefused ctx base size) ∧ (s.rangeRefused ctx base size).cmdstat = 2 ∧
          ((∀ x ∈ granules 65536 base size, ∀ t n, s.lookup ctx (homeOf base) x.1 ≠ .poisoned t n) →
            s.rangeRefused ctx base size = { s with cmdstat := 2 })))) ∧
    does (.logread buf) (fun _ => True) (fun s => { s.toHost buf (logBytes s.errorLog 2048) with errorLog := [] }) ∧
    does (.ilogread buf) (fun _ => True) (fun s => { s.toHost buf (logBytes s.integrityLog 8192) with integrityLog := [] }) ∧
    does (.peerset k m) (fun _ => k < 28)
      (fun s =>
        let s := { s with linkMasks := s.linkMasks.set k m }
        if s.peerUp k = true then s else (s.peerParts k).foldl (fun s x => s.setPart x.1 x.2.1 x.2.2.1 (.replied 0x0D 0) none) s) ∧
    does (.pwrcap n) (fun _ => 1000 ≤ n ∧ n ≤ 2000) (fun s => { s with powerCap := n }))

/-- R325, R328-R330, R338, R390, R391, R397, R402: the commands that go on after their start, and those that read or write at length. XINVAL discards
the range's entries and recalls its leases; MIGRATE is refused for a page with an open fault and for an address that is not the home's (R315); RECLASS
closes the band; RESOLVE ends its fault; LOAD writes its handle and report; CTXSAVE stops and evicts the context's queues; CTXRESTORE refuses what it
cannot read, an image's successor lists among it; ATTEST answers at any stage. ATTEST_CERT writes the certificate and its length, or reports the size
it needs. The model's choices here (DEDUCED): the length of the object and the addresses of LOAD (log 40), the parts that XINVAL waits for and MIGRATE
by table entry (log 35), the grounds on which RECLASS is refused (log 42), the order of the checks of an image (log 21), and ATTEST of a context that
does not exist (log 41). -/
def Obligations.LongCommandsTakeEffect : Prop :=
  (∀ (s : State) (c home va n : Nat), s.running = none → s.stage = 3 → s.hasContext c = true → home < 4 → home < s.homes.length →
    ∃ t, exec (.xinval c home va n) s = .next t ∧ t.running = some (.xinval home c va n (s.partsInRange home c va n)
        ((s.sideLog.filter fun e => e.ctx == c && e.home == home && (e.leaf.map fun l => l.pageMeets e.va va n).getD false).map LogEntry.key)) ∧
      t.cmdstat = 1 ∧ t.hbm = s.hbm ∧ (∀ e ∈ (t.home home).cache, e.ctx = c → e.leaf.pageMeets e.va va n = false) ∧
      ∀ x ∈ (t.home home).leases, x.ctx = c → x.leaf.pageMeets x.va va n = true → x.recalled = true) ∧
  (∀ (s : State) (c home va frame : Nat) (l : Leaf), s.running = none → s.stage = 3 → s.lookup c home va = .leaf l →
    ((∃ f ∈ (s.home (unitOf home)).faults, f.ctx = c ∧ va / pageBytes l.size * pageBytes l.size ≤ f.va ∧
        f.va < va / pageBytes l.size * pageBytes l.size + pageBytes l.size) → exec (.migrate c home va frame) s = .next { s with cmdstat := 2 }) ∧
    (4 ≤ home ∧ home ≠ 0x80 ∨ homeOf va ≠ home ∨ va / 2 ^ 48 % 256 ≠ 0 → exec (.migrate c home va frame) s = .next { s with cmdstat := 2 }) ∧
    ((s.home (unitOf home)).faults = [] → home < 4 → home < s.homes.length → homeOf va = home → va / 2 ^ 48 % 256 = 0 →
      s.frameFits home l frame = true →
      ∃ t, exec (.migrate c home va frame) s = .next t ∧ t.running = some (.migrate home c (va / pageBytes l.size * pageBytes l.size)) ∧
        t.cmdstat = 1 ∧ t.hbm = (s.rewriteEntries home l.entries none true).hbm ∧
        (∀ x ∈ (t.home home).leases, x.leaf.entry ∈ l.entries → x.recalled = true) ∧
        ⟨c, va / pageBytes l.size * pageBytes l.size, l.pa, frame, pageBytes l.size, l.entries, 0⟩ ∈ (t.home home).migrations)) ∧
  (∀ (s : State) (home band tier : Nat), s.running = none → s.stage = 3 →
    (4 ≤ home ∨ band = 0 ∨ 256 ≤ band ∨ 2 < tier ∨ s.bandTargeted home band = true →
      exec (.reclass home band tier) s = .next { s with cmdstat := 2 }) ∧
    (home < 4 → 0 < band → band < 256 → tier ≤ 2 → s.bandTargeted home band = false → home < s.homes.length →
      ∃ t, exec (.reclass home band tier) s = .next t ∧ t.running = some (.reclass home band tier) ∧ t.cmdstat = 1 ∧
        band ∈ (t.home home).closed)) ∧
  (∀ (s : State) (home tag : Nat) (map : Bool), s.running = none → s.stage = 3 → home < 4 →
    ((∀ f ∈ (s.home home).faults, f.tag ≠ tag) → exec (.resolve home tag map) s = .next { s with cmdstat := 2 }) ∧
    (∀ f, (s.home home).faults.find? (fun f => f.tag == tag) = some f → (∀ w ∈ s.waves, w.ops = []) → s.sideLog = [] →
      ∃ t, exec (.resolve home tag map) s = .next t ∧ t.cmdstat = 0 ∧ (home < s.homes.length → f ∉ (t.home home).faults) ∧ t.hbm = s.hbm)) ∧
  (∀ (s : State) (c q : Nat) (addr handle : Word64) (buf : Nat) (place : List Placement), s.running = none → s.stage = 3 →
    (s.hasContext c = false ∨ 256 ≤ q → exec (.load c q addr handle buf place) s = .next { s with cmdstat := 2 }) ∧
    (s.hasContext c = true → q < 256 → (s.queue q).context.toNat = c → handle = 0 →
      let bs := s.hostMem.readBytes addr.toNat (max 256 (leNat (s.hostMem.readBytes (addr.toNat + 0x0C) 4)))
      let r := s.loadObject bs place c 0
      exec (.load c q addr handle buf place) s =
        .next { r.2.toHost buf (leBytes 8 r.1.1 ++ leBytes 8 0 ++ leBytes 16 r.1.2) with cmdstat := 0 })) ∧
  (∀ (s : State) (c : Nat) (addr : Word64) (size buf : Nat), s.running = none → s.stage = 3 →
    (s.hasContext c = false → exec (.ctxsave c addr size buf) s = .next { s with cmdstat := 2 } ∧
      exec (.ctxrestore c addr buf) s = .next { s with cmdstat := 2 }) ∧
    (s.hasContext c = true → s.saveRefused c = false → addr.toNat % 64 = 0 → s.sealedRW c addr.toNat size = true →
      ∃ t, exec (.ctxsave c addr size buf) s = .next t ∧ t.running = some (.ctxsave c addr size buf) ∧ t.cmdstat = 1 ∧
        ∀ q ∈ t.queues, q.context.toNat = c → q.status = 0 ∧ q.evicted = true) ∧
    (∀ bs r, s.hasContext c = true → s.readImageBytes c addr.toNat = .ok bs → (s.deviceTook c addr.toNat bs.length).checkImage c bs = .error r →
      exec (.ctxrestore c addr buf) s = .next { (s.deviceTook c addr.toNat bs.length).toHost buf (leBytes 16 r) with cmdstat := 0 }) ∧
    (∀ bs r e, s.hasContext c = true → s.readImageBytes c addr.toNat = .ok bs → (s.deviceTook c addr.toNat bs.length).checkImage c bs = .ok r →
      (s.deviceTook c addr.toNat bs.length).readAllSuccs c r.1 = .error e →
      exec (.ctxrestore c addr buf) s = .next { (s.deviceTook c addr.toNat bs.length).deviceFailed c 0 e with cmdstat := 2 }) ∧
    ∀ bs r ids, s.hasContext c = true → s.readImageBytes c addr.toNat = .ok bs → (s.deviceTook c addr.toNat bs.length).checkImage c bs = .ok r →
      (s.deviceTook c addr.toNat bs.length).readAllSuccs c r.1 = .ok ids →
      ∃ t, exec (.ctxrestore c addr buf) s = .next t ∧ t.cmdstat = 0 ∧
        ((t.context? c).map Context.eb) = some (BitVec.ofNat 64 (field bs 0x28 8)) ∧
        ∀ q ∈ t.queues, q.context.toNat = c → q.status = 1 ∧ q.evicted = false ∧ q.reading = some (false, q.head.toNat)) ∧
  ∀ (s : State) (c nonce buf size : Nat), s.running = none →
    (size < 128 + 64 * (s.measures c).length + 512 → c ≠ 0xFFFF →
      exec (.attest c nonce buf size) s = .next { s with cmdstat := BitVec.ofNat 32 (2 + (s.measures c).length % 65536 * 65536) }) ∧
    (128 + 64 * (s.measures c).length + 512 ≤ size → c ≠ 0xFFFF →
      ∃ t sig, exec (.attest c nonce buf size) s = .next t ∧ t.cmdstat = 0 ∧
        t.hostMem = s.hostMem.writeBytes buf (s.hostMem.readBytes nonce 32 ++ leBytes 4 (nth s.faccept 0 0).toNat ++ leBytes 4 s.fwsvn.toNat ++
          leBytes 4 (s.measures c).length ++ leBytes 2 c ++ leBytes 18 0 ++ s.fwdigest ++ (s.measures c).flatten ++ sig) ∧ sig.length = 512) ∧
    exec (.attestCert buf size) s = exec (.attest 0xFFFF nonce buf size) s ∧
    let cert := Config.identityCertificate
    (cert.length + 4 ≤ size → exec (.attestCert buf size) s = .next { s with
      hostMem := s.hostMem.writeBytes buf (leBytes 4 cert.length ++ cert), hostWrites := s.hostWrites + 1, cmdstat := 0 }) ∧
    (size < cert.length + 4 → exec (.attestCert buf size) s =
      .next { s with cmdstat := BitVec.ofNat 32 (2 + (cert.length + 63) / 64 % 65536 * 65536) })

/-! ### Encoding -/

/-- R112-R125: words written out bit by bit from the manual's formats decode to the instructions they stand for. -/
def Obligations.DecodeKnownWords : Prop :=
  decodeWord 0x28010002#32 = some (.sli 1 2) ∧ decodeWord 0x20010300#32 = some (.sread 1 3) ∧
  decodeWord 0x5202F9F1#32 = some (.vand 2 0xF9 0xF1) ∧ decodeWord 0x7A070320#32 = some (.vballot 7 3 0x20) ∧
  decodeWord 0x810201F0#32 = some (.vst 2 1 0xF0) ∧ decodeWord 0x98000600#32 = some (.cpin 6) ∧
  decodeWord 0xA8020405#32 = some (.mma 2 4 5) ∧ decodeWord 0xA1410000#32 = some (.fence 4 1) ∧
  decodeWord 0xC11FFFFD#32 = some (.brp 1 0xFFFFD) ∧ decodeWord 0xC5200005#32 = some (.brk 2 5) ∧
  decodeWord 0xCE032A00#32 = some (.mode 0x032A) ∧ decodeWord 0xCA00F500#32 = some (.exit 0xF5) ∧
  decodeWord 0xC9000001#32 = none ∧ decodeWord 0x27000000#32 = none

/-- R112-R125: decoding the word of any instruction gives the instruction back, with every operand at every value. R112-R125: a word that decodes
is the word of the instruction it decodes to; so no two words mean the same. -/
def Obligations.EncodingRoundTrip : Prop :=
  (∀ (i : Instr) (w : Word32), encode i = some w → decodeWord w = some i) ∧
  (∀ (i : Instr) (w : Word32), decodeWord w = some i → encode i = some w)

/-! ### Steps -/

/-- R112, R126: when nothing else is due and the scheduler picks the issue of a split, a step fetches the word at its program counter from the code in
use, decodes it, and is `exec` of that instruction with the split brought to the front; where fetch or decoding fails the wave traps ILLOP. A word
that would retire without the read that the trace log names next traps DIVERGE (R376), and one that would retire while that log cannot be read waits,
or where a read of the log is refused is run as if the log had no entry there (R319, R323; the model's reading, DEDUCED, log 28). What the device owes
at once comes first, then what has arrived from outside. That order, and the choice of a candidate by Config.choice, is the model's choice (log 1,
DESIGN CHOICE). -/
def Obligations.StepRunsTheDecodedWord : Prop :=
  (∀ (s u : State) (k lane : Nat) (i : Instr), s.agenda = [] → s.arrived = none → s.pick s.candidates = some (.issue k lane, u) →
    let f := u.tick.front k lane
    f.fetchFront = some i →
    (f.frontUnread = none → f.divergesAt i = none → step s = exec i f) ∧
    (f.frontUnread = none → ∀ d, f.divergesAt i = some d → step s = if f.retires i = true then exec (.diverge d) f else exec i f) ∧
    (∀ l e, f.frontUnread = some (l, e) →
      (f.retires i = false → step s = exec i f) ∧
      (f.retires i = true → e.holds = true → step s = .next (f.deviceFailed l.ctx 0 e)) ∧
      (f.retires i = true → e.holds = false → step s = exec i (f.deviceFailed l.ctx 0 e)))) ∧
  (∀ (s u : State) (k lane : Nat) (w : Wave) (p : Split), s.agenda = [] → s.arrived = none → s.pick s.candidates = some (.issue k lane, u) →
    (u.tick.front k lane).fronts w p → (u.tick.front k lane).fetchFront = none →
    step s = .next ((u.tick.front k lane).takeTrap w p 0x01 p.pc 0 (w.active p))) ∧
  (∀ (s : State) (w : Wave) (p : Split) (n : Nat) (c : Word32) (i : Instr), s.fronts w p → w.codeObj.code[n]? = some c →
    p.pc = w.codeObj.codeVa + 4 * n → decodeWord c = some i → s.fetchFront = some i) ∧
  (∀ (s : State) (i : Instr) (rest : List Instr), s.agenda = i :: rest → step s = exec i { s.tick with agenda := rest }) ∧
  (∀ (s : State) (i : Instr) (rest : List (Nat × Instr)) (t : Nat), s.agenda = [] → s.inputs = (t, i) :: rest → t ≤ s.clock →
    step s = exec i { s.tick with inputs := rest }) ∧
  ∀ (s : State) (i : Instr) (u : State), s.agenda = [] → s.arrived = none → s.pick s.candidates = some (.event i, u) → step s = exec i u.tick

/-! ### Reset and invariants -/

/-- R380, R396, R399: after reset the accepted words read zero, every chip's link mask is empty, the stage is 0, and no context, object, launch,
crew or wave exists. The memories list nothing, so that every byte of them reads zero, in the model's canonical form (DESIGN CHOICE, log 3 and log
5). -/
def Obligations.ResetState : Prop :=
  State.reset.faccept = [0, 0, 0, 0] ∧ (∀ m ∈ State.reset.linkMasks, m = 0) ∧ State.reset.linkMasks.length = 28 ∧ State.reset.stage = 0 ∧
  State.reset.contexts = [] ∧ State.reset.objects = [] ∧ State.reset.launches = [] ∧ State.reset.crews = [] ∧ State.reset.waves = [] ∧
  (∀ q ∈ State.reset.queues, q.status = 0) ∧ State.reset.queues.length = 256 ∧
  State.reset.hbm = [] ∧ State.reset.hostMem = [] ∧ State.reset.peerMem = [] ∧
  (∀ d a, State.reset.readPhys d a = 0) ∧ (∀ a, State.reset.hostMem.read a = 0) ∧
  State.reset.mainCanonical = true ∧ State.reset.localCanonical = true

/-- The model's own form of main memory (log 5), which every read of a byte relies on: every step keeps it, from every state that has it. -/
def Obligations.StepKeepsMainMemory : Prop :=
  ∀ s t : State, s.mainCanonical = true → step s = .next t → t.mainCanonical = true
end

