-- ==== Sys2Proof/Laws/Issue.lean ====
section
/-! SUPPORT. What issuing a word does, said once: a word that nothing hinders runs its own meaning, and each check before it answers as
R126 orders. -/

namespace Sys2Proof.Machine

/-- A word that nothing hinders runs its own meaning, with its split stamped. -/
theorem issueWord_runs {s : State} {w : Wave} {p : Split} {i : Instr} (hf : s.fronts w p) (hu : s.unhindered w p i = true)
    (body : State → Wave → Split → Result) : issueWord i s body = body s w (p.stamp i s.slots) := by
  obtain ⟨hw, hp⟩ := hf
  obtain ⟨ws, hws⟩ : ∃ ws, s.waves = w :: ws := by
    cases h : s.waves with
    | nil => simp [h] at hw
    | cons x xs => simp [h] at hw; exact ⟨xs, by rw [hw]⟩
  obtain ⟨ps, hps⟩ : ∃ ps, w.a.splits = p :: ps := by
    cases h : w.a.splits with
    | nil => simp [h] at hp
    | cons x xs => simp [h] at hp; exact ⟨xs, by rw [hp]⟩
  simp only [State.unhindered, Bool.and_eq_true, Option.isNone_iff_eq_none, Bool.or_eq_true, Bool.not_eq_true'] at hu
  obtain ⟨⟨⟨⟨⟨⟨⟨⟨⟨h1, h2⟩, h3⟩, h4⟩, h5⟩, h6⟩, h7⟩, h8⟩, h9⟩, h10⟩ := hu
  have h9' : (needsToken i && !s.hasToken w) = false := by
    rcases h9 with h | h <;> simp [h]
  simp [issueWord, hws, hps, h1, h2, h3, h4, h5, h6, h7, h8, h9', h10]

/-- Everything issuing a word can do: stop for want of an issuer; trap at one of the first checks; deliver a pending fault; trap on an empty
source or wait; meet a bit error; or run its own meaning. -/
theorem issueWord_cases (i : Instr) (s : State) (body : State → Wave → Split → Result) :
    issueWord i s body = .fault .noIssuer ∨ ∃ w p, s.fronts w p ∧
      ((∃ cause ∈ [trapILLOP, trapPRIV, trapFEATURE], issueWord i s body = s.trapAt w p cause 0 (w.active p)) ∨
        (∃ x, w.due (w.delivers p i) = some x ∧ issueWord i s body = s.deliver w p x) ∨
        (∃ pos code, w.firstEmpty i = some (pos, code) ∧ issueWord i s body = s.trapAt w p trapEMPTY code (w.active p)) ∨
        issueWord i s body = .next s ∨
        (∃ s' x, s.readErrors w p i = some (s', x) ∧ issueWord i s body = .next s') ∨
        issueWord i s body = body s w (p.stamp i s.slots)) := by
  cases hw : s.waves with
  | nil => left; simp [issueWord, hw]
  | cons w ws =>
    cases hp : w.a.splits with
    | nil => left; simp [issueWord, hw, hp]
    | cons p ps =>
      right
      refine ⟨w, p, ⟨by simp [hw], by simp [hp]⟩, ?_⟩
      simp only [issueWord, hw, hp]
      split
      · exact .inl ⟨_, by simp, rfl⟩
      split
      · exact .inl ⟨_, by simp, rfl⟩
      split
      · exact .inl ⟨_, by simp, rfl⟩
      split
      · exact .inr (.inl ⟨_, ‹_›, rfl⟩)
      split
      · split
        · exact .inr (.inr (.inl ⟨_, _, ‹_›, rfl⟩))
        · exact .inr (.inr (.inr (.inl rfl)))
      split
      · exact .inr (.inr (.inr (.inl rfl)))
      split
      · exact .inr (.inr (.inr (.inr (.inl ⟨_, _, ‹_›, rfl⟩))))
      · exact .inr (.inr (.inr (.inr (.inr rfl))))

/-- Only a state without a wave or a split to issue ends in a fault before the word's own meaning. -/
theorem issueWord_fault {i : Instr} {s : State} {body : State → Wave → Split → Result} {f : Fault}
    (h : issueWord i s body = .fault f) (hb : ∀ w p, body s w p ≠ .fault f) : ∀ w p, ¬s.fronts w p := by
  intro w p hf
  rcases issueWord_cases i s body with h' | ⟨w', p', -, h'⟩
  · obtain ⟨hw, hp⟩ := hf
    cases hws : s.waves with
    | nil => simp [hws] at hw
    | cons x xs =>
      simp only [hws, List.head?_cons, Option.some.injEq] at hw
      subst hw
      cases hps : x.a.splits with
      | nil => simp [hps] at hp
      | cons y ys =>
        simp only [issueWord, hws, hps] at h
        repeat' split at h
        all_goals first
          | exact absurd h (hb _ _)
          | simp_all [State.trapAt, State.deliver]
  · rcases h' with ⟨c, -, h'⟩ | ⟨x, -, h'⟩ | ⟨_, _, -, h'⟩ | h' | ⟨_, _, -, h'⟩ | h'
    all_goals first
      | exact absurd (h'.symm.trans h) (hb _ _)
      | simp [h', State.trapAt, State.deliver] at h

/-- A word that names no register and ignores the guard waits for none (R241). -/
theorem Wave.mustWait_of_no_registers {w : Wave} {i : Instr} (hg : readsGuard i = false) (hs : sources i = []) (hd : w.writes i = []) :
    w.mustWait i = false := by
  simp [Wave.mustWait, hg, hs, hd]

end Sys2Proof.Machine
end

