-- ==== Sys2Proof/Laws/Memory.lean ====
section
/-! SUPPORT. The laws of memory: what a read gives after a write, and that every operation keeps the canonical form. -/

namespace Sys2Proof.Machine

/-! ### The canonical form -/

/-- A memory that starts at or above `lo` also starts at or above anything lower. -/
theorem Memory.wfFrom_mono {lo lo' : Nat} {m : Memory} (h : lo' ≤ lo) (hm : Memory.wfFrom lo m = true) : Memory.wfFrom lo' m = true := by
  cases m with
  | nil => rfl
  | cons c m =>
    obtain ⟨a, b⟩ := c
    simp only [Memory.wfFrom, Bool.and_eq_true, decide_eq_true_eq] at hm ⊢
    exact ⟨⟨h.trans hm.1.1, hm.1.2⟩, hm.2⟩

theorem Memory.wfFrom_write {m : Memory} {x : Nat} {v : Byte} :
    ∀ {lo : Nat}, lo ≤ x → Memory.wfFrom lo m = true → Memory.wfFrom lo (m.write x v) = true := by
  induction m with
  | nil => intro lo hx _; by_cases hv : v = 0#8 <;> simp [Memory.write, Memory.wfFrom, hv, hx]
  | cons c m ih =>
    obtain ⟨a, b⟩ := c
    intro lo hx hm
    simp only [Memory.wfFrom, Bool.and_eq_true, decide_eq_true_eq, bne_iff_ne, ne_eq] at hm
    obtain ⟨⟨hlo, hb⟩, hm⟩ := hm
    simp only [Memory.write]
    split
    · split
      · simpa [Memory.wfFrom, hlo, hm] using hb
      · simp only [Memory.wfFrom, Bool.and_eq_true, decide_eq_true_eq, bne_iff_ne, ne_eq]
        exact ⟨⟨hx, ‹_›⟩, ⟨⟨by omega, hb⟩, hm⟩⟩
    · split
      · subst x
        split
        · exact Memory.wfFrom_mono (by omega) hm
        · simpa [Memory.wfFrom, hlo, hm] using ‹¬v = 0›
      · simp only [Memory.wfFrom, Bool.and_eq_true, decide_eq_true_eq, bne_iff_ne, ne_eq]
        exact ⟨⟨hlo, hb⟩, ih (by omega) hm⟩

/-- Writing a byte keeps the canonical form. -/
theorem Memory.wf_write {m : Memory} (x : Nat) (v : Byte) (h : m.wf = true) : (m.write x v).wf = true :=
  Memory.wfFrom_write (Nat.zero_le x) h

/-- Writing bytes keeps the canonical form. -/
theorem Memory.wf_writeBytes {m : Memory} (a : Nat) (bs : List Byte) (h : m.wf = true) : (m.writeBytes a bs).wf = true := by
  induction bs generalizing m a with
  | nil => exact h
  | cons b bs ih => exact ih (a + 1) (Memory.wf_write a b h)

theorem Memory.wfFrom_filter {m : Memory} (f : Host.Cell → Bool) :
    ∀ {lo : Nat}, Memory.wfFrom lo m = true → Memory.wfFrom lo (m.filter f) = true := by
  induction m with
  | nil => intro lo h; exact h
  | cons c m ih =>
    obtain ⟨a, b⟩ := c
    intro lo hm
    simp only [Memory.wfFrom, Bool.and_eq_true, decide_eq_true_eq, bne_iff_ne, ne_eq] at hm
    obtain ⟨⟨hlo, hb⟩, hm⟩ := hm
    simp only [List.filter]
    split
    · simp only [Memory.wfFrom, Bool.and_eq_true, decide_eq_true_eq, bne_iff_ne, ne_eq]
      exact ⟨⟨hlo, hb⟩, ih hm⟩
    · exact Memory.wfFrom_mono (by omega) (ih hm)

/-- Taking bytes out keeps the canonical form. -/
theorem Memory.wf_filter {m : Memory} (f : Host.Cell → Bool) (h : m.wf = true) : Memory.wf (m.filter f) = true :=
  Memory.wfFrom_filter f h

/-- Clearing a range keeps the canonical form. -/
theorem Memory.wf_erase {m : Memory} (lo n : Nat) (h : m.wf = true) : (m.erase lo n).wf = true :=
  Memory.wf_filter _ h

/-! ### Reads -/

/-- Below the first listed address every byte reads zero. -/
theorem Memory.read_below {m : Memory} {lo x : Nat} (hm : Memory.wfFrom lo m = true) (hx : x < lo) : m.read x = 0 := by
  cases m with
  | nil => rfl
  | cons c m =>
    obtain ⟨a, b⟩ := c
    simp only [Memory.wfFrom, Bool.and_eq_true, decide_eq_true_eq] at hm
    simp [Memory.read, show x < a by omega]

theorem Memory.read_write_from {m : Memory} {x y : Nat} {v : Byte} :
    ∀ {lo : Nat}, Memory.wfFrom lo m = true → (m.write x v).read y = if y = x then v else m.read y := by
  induction m with
  | nil =>
    intro lo _
    by_cases hv : v = 0#8
    · simp [Memory.write, Memory.read, hv]
    · simp only [Memory.write, hv, Memory.read, BitVec.ofNat_eq_ofNat, if_false]
      split <;> split <;> first | rfl | omega
  | cons c m ih =>
    obtain ⟨a, b⟩ := c
    intro lo hm
    simp only [Memory.wfFrom, Bool.and_eq_true, decide_eq_true_eq] at hm
    have below : ∀ z, z < a + 1 → Memory.read m z = 0#8 := fun z hz => Memory.read_below hm.2 hz
    have ih := ih hm.2
    rcases Nat.lt_trichotomy x a with h | h | h
    · by_cases hv : v = 0#8
      · simp only [Memory.write, h, hv, BitVec.ofNat_eq_ofNat, if_true]
        split
        · subst y; simp [Memory.read, h]
        · rfl
      · simp only [Memory.write, h, hv, BitVec.ofNat_eq_ofNat, if_true, if_false, Memory.read]
        split <;> split <;> (simp_all; try omega)
    · subst x
      by_cases hv : v = 0#8
      · simp only [Memory.write, hv, BitVec.ofNat_eq_ofNat, if_true, Nat.lt_irrefl, if_false, Memory.read]
        split
        · subst y; exact below a (by omega)
        · split
          · exact below y (by omega)
          · rfl
      · simp only [Memory.write, hv, BitVec.ofNat_eq_ofNat, if_true, Nat.lt_irrefl, if_false, Memory.read]
        split
        · rw [if_neg (by omega)]
        · split <;> rfl
    · simp only [Memory.write, show ¬x < a by omega, show ¬x = a by omega, if_false, Memory.read, ih]
      split
      · rw [if_neg (by omega)]
      · split
        · rw [if_neg (by omega)]
        · rfl

/-- A read after a write: the byte written there, every other byte as before. -/
theorem Memory.read_write {m : Memory} (x y : Nat) (v : Byte) (h : m.wf = true) :
    (m.write x v).read y = if y = x then v else m.read y :=
  Memory.read_write_from h

/-- Bytes outside a written stretch read as before. -/
theorem Memory.read_writeBytes_outside {m : Memory} {a : Nat} {bs : List Byte} {y : Nat} (h : m.wf = true)
    (hy : y < a ∨ a + bs.length ≤ y) : (m.writeBytes a bs).read y = m.read y := by
  induction bs generalizing m a with
  | nil => rfl
  | cons b bs ih =>
    simp only [List.length_cons] at hy
    rw [Memory.writeBytes, ih (Memory.wf_write a b h) (by omega), Memory.read_write _ _ _ h, if_neg (by omega)]

/-- Each byte of a written stretch reads as written. -/
theorem Memory.read_writeBytes_inside {m : Memory} {a : Nat} {bs : List Byte} {k : Nat} (h : m.wf = true) (hk : k < bs.length) :
    (m.writeBytes a bs).read (a + k) = bs[k] := by
  induction bs generalizing m a k with
  | nil => simp at hk
  | cons b bs ih =>
    rw [Memory.writeBytes]
    cases k with
    | zero => rw [Memory.read_writeBytes_outside (Memory.wf_write a b h) (by omega), Memory.read_write _ _ _ h]; simp
    | succ k =>
      rw [show a + (k + 1) = a + 1 + k by omega, ih (Memory.wf_write a b h) (by simpa using hk)]
      simp

/-- A stretch read back just after it was written. -/
theorem Memory.readBytes_writeBytes {m : Memory} (a : Nat) (bs : List Byte) (h : m.wf = true) :
    (m.writeBytes a bs).readBytes a bs.length = bs := by
  apply List.ext_getElem
  · simp [Memory.readBytes]
  · intro k h1 h2
    simp [Memory.readBytes, Memory.read_writeBytes_inside h h2]

/-! ### The memories of a state -/

/-- Writing a byte of main memory or of the host keeps their form. -/
theorem State.mainCanonical_writePhys {s : State} (k pa : Nat) (b : Byte)
    (h : s.hbm.wf = true ∧ s.hostMem.wf = true ∧ s.peerMem.wf = true) :
    (s.writePhys k pa b).hbm.wf = true ∧ (s.writePhys k pa b).hostMem.wf = true ∧ (s.writePhys k pa b).peerMem.wf = true := by
  unfold State.writePhys
  split <;> simp [h, Memory.wf_write]

/-- After reset every memory has its canonical form. -/
theorem State.reset_memory_wf : State.reset.hbm.wf = true ∧ State.reset.hostMem.wf = true ∧ State.reset.peerMem.wf = true := by decide

/-! ### What a read of a line, a fault and a shadow find -/

/-- A line with no error about it is read as it stands. -/
@[simp] theorem State.scanLine_sound {s : State} {m : MainAt} (ctx : Nat) (h : s.lineError m = none) : s.scanLine ctx m = s := by
  simp [State.scanLine, State.lineBad, State.correctLine, h]

/-- The address that a fault names is that of a piece of the part which has still to perform. -/
theorem Op.firstVa_open {o : Op} {k va : Nat} (h : o.firstVa k = some va) :
    ∃ x ∈ o.pieces, x.part = k ∧ x.mainOpen = true ∧ x.va = va := by
  simp only [Op.firstVa, Option.map_eq_some_iff] at h
  obtain ⟨x, hx, rfl⟩ := h
  have hm := List.mem_of_find?_eq_some hx
  have hp := List.find?_some hx
  simp only [Bool.and_eq_true, beq_iff_eq] at hp
  exact ⟨x, hm, hp.1, hp.2, rfl⟩

/-- A launch without a shadow of a byte's granule reads no byte of its own there. -/
@[simp] theorem State.ownByte_unshadowed {s : State} {l : Nat} {m : MainAt} (h : s.shadowOf (some l) m = none) : s.ownByte l m = false := by
  simp [State.ownByte, h]

end Sys2Proof.Machine
end

