-- ==== Sys2Proof/Laws/PerInstr.lean ====
section
/-! SUPPORT. Statements about every instruction as syntax, one lemma for each constructor. -/

namespace Sys2Proof.Laws.Destinations

open Sys2Proof.Machine

set_option Elab.async false

/-- A register a well-formed instruction writes is a vector register, a scalar that is not s0, or a predicate that is not p0 (R114, R120). -/
def Statement (i : Instr) : Prop :=
  i.wellFormed = true → ∀ c ∈ dests i, c < 0xC0 ∨ 0x100 < c ∧ c < 0x200 ∨ 0x200 < c ∧ c < 0x210

theorem scalar {d : Byte} {c : Nat} (h : c ∈ sCode d) : 0x100 < c ∧ c < 0x200 := by
  unfold sCode at h
  split at h
  · simp at h
  · have : d.toNat ≠ 0 := fun e => ‹¬d = 0› (BitVec.eq_of_toNat_eq (by simpa using e))
    have := d.isLt
    simp at h
    omega

theorem predicate {d : Byte} {c : Nat} (hd : isP d = true) (h : c ∈ pCode d) : 0x200 < c ∧ c < 0x210 := by
  unfold pCode at h
  split at h
  · simp at h
  · have : d.toNat ≠ 0 := fun e => ‹¬d = 0› (BitVec.eq_of_toNat_eq (by simpa using e))
    simp [isP] at hd
    simp at h
    omega

theorem fst_of {x y : Bool} (h : (x && y) = true) : x = true := by
  cases x <;> simp_all

theorem row {d : Byte} {c : Nat} (hd : isVrRow d = true) (h : c ∈ (List.range 32).map (d.toNat + ·)) : c < 0xC0 := by
  simp [isVrRow] at hd
  simp at h
  omega

theorem pair {d : Byte} {c : Nat} (hd : isVrPair d = true) (h : c ∈ [d.toNat]) : c < 0xC0 := by
  simp [isVrPair] at hd
  simp at h
  omega

theorem vector {d : Byte} {c : Nat} (hd : isVr d = true) (h : c ∈ [d.toNat]) : c < 0xC0 := by
  simp [isVr] at hd
  simp at h
  omega

theorem sadd (d a b : BitVec 8) : Statement (.sadd d a b) := fun _ _ h => .inr (.inl (scalar h))

theorem ssub (d a b : BitVec 8) : Statement (.ssub d a b) := fun _ _ h => .inr (.inl (scalar h))

theorem smul (d a b : BitVec 8) : Statement (.smul d a b) := fun _ _ h => .inr (.inl (scalar h))

theorem smulh (d a b : BitVec 8) : Statement (.smulh d a b) := fun _ _ h => .inr (.inl (scalar h))

theorem smulhu (d a b : BitVec 8) : Statement (.smulhu d a b) := fun _ _ h => .inr (.inl (scalar h))

theorem sdiv (d a b : BitVec 8) : Statement (.sdiv d a b) := fun _ _ h => .inr (.inl (scalar h))

theorem sdivu (d a b : BitVec 8) : Statement (.sdivu d a b) := fun _ _ h => .inr (.inl (scalar h))

theorem srem (d a b : BitVec 8) : Statement (.srem d a b) := fun _ _ h => .inr (.inl (scalar h))

theorem sremu (d a b : BitVec 8) : Statement (.sremu d a b) := fun _ _ h => .inr (.inl (scalar h))

theorem sand (d a b : BitVec 8) : Statement (.sand d a b) := fun _ _ h => .inr (.inl (scalar h))

theorem sor (d a b : BitVec 8) : Statement (.sor d a b) := fun _ _ h => .inr (.inl (scalar h))

theorem sxor (d a b : BitVec 8) : Statement (.sxor d a b) := fun _ _ h => .inr (.inl (scalar h))

theorem sshl (d a b : BitVec 8) : Statement (.sshl d a b) := fun _ _ h => .inr (.inl (scalar h))

theorem sshr (d a b : BitVec 8) : Statement (.sshr d a b) := fun _ _ h => .inr (.inl (scalar h))

theorem ssra (d a b : BitVec 8) : Statement (.ssra d a b) := fun _ _ h => .inr (.inl (scalar h))

theorem smin (d a b : BitVec 8) : Statement (.smin d a b) := fun _ _ h => .inr (.inl (scalar h))

theorem smax (d a b : BitVec 8) : Statement (.smax d a b) := fun _ _ h => .inr (.inl (scalar h))

theorem sminu (d a b : BitVec 8) : Statement (.sminu d a b) := fun _ _ h => .inr (.inl (scalar h))

theorem smaxu (d a b : BitVec 8) : Statement (.smaxu d a b) := fun _ _ h => .inr (.inl (scalar h))

theorem scmov (d a b : BitVec 8) : Statement (.scmov d a b) := fun _ _ h => .inr (.inl (scalar h))

theorem spopc (d a : BitVec 8) : Statement (.spopc d a) := fun _ _ h => .inr (.inl (scalar h))

theorem sclz (d a : BitVec 8) : Statement (.sclz d a) := fun _ _ h => .inr (.inl (scalar h))

theorem sctz (d a : BitVec 8) : Statement (.sctz d a) := fun _ _ h => .inr (.inl (scalar h))

theorem sbfx (d a b : BitVec 8) : Statement (.sbfx d a b) := fun _ _ h => .inr (.inl (scalar h))

theorem sbfi (d a b : BitVec 8) : Statement (.sbfi d a b) := fun _ _ h => .inr (.inl (scalar h))

theorem smov (d a : BitVec 8) : Statement (.smov d a) := fun _ _ h => .inr (.inl (scalar h))

theorem sceq (d a b : BitVec 8) : Statement (.sceq d a b) := fun h _ hc => .inr (.inr (predicate h hc))

theorem scne (d a b : BitVec 8) : Statement (.scne d a b) := fun h _ hc => .inr (.inr (predicate h hc))

theorem sclt (d a b : BitVec 8) : Statement (.sclt d a b) := fun h _ hc => .inr (.inr (predicate h hc))

theorem scle (d a b : BitVec 8) : Statement (.scle d a b) := fun h _ hc => .inr (.inr (predicate h hc))

theorem scltu (d a b : BitVec 8) : Statement (.scltu d a b) := fun h _ hc => .inr (.inr (predicate h hc))

theorem scleu (d a b : BitVec 8) : Statement (.scleu d a b) := fun h _ hc => .inr (.inr (predicate h hc))

theorem sread (d a : BitVec 8) : Statement (.sread d a) := fun _ _ h => .inr (.inl (scalar h))

theorem swrite (a b : BitVec 8) : Statement (.swrite a b) := fun _ _ h => absurd h List.not_mem_nil

theorem sldl (d a b : BitVec 8) : Statement (.sldl d a b) := fun _ _ h => .inr (.inl (scalar h))

theorem sldw (d a b : BitVec 8) : Statement (.sldw d a b) := fun _ _ h => .inr (.inl (scalar h))

theorem sstl (d a b : BitVec 8) : Statement (.sstl d a b) := fun _ _ h => absurd h List.not_mem_nil

theorem sstw (d a b : BitVec 8) : Statement (.sstw d a b) := fun _ _ h => absurd h List.not_mem_nil

theorem sgetv (d a b : BitVec 8) : Statement (.sgetv d a b) := fun _ _ h => .inr (.inl (scalar h))

theorem sli (d : BitVec 8) (i : BitVec 16) : Statement (.sli d i) := fun _ _ h => .inr (.inl (scalar h))

theorem slih (d : BitVec 8) (i : BitVec 16) : Statement (.slih d i) := fun _ _ h => .inr (.inl (scalar h))

theorem slix (d : BitVec 8) (i : BitVec 16) : Statement (.slix d i) := fun _ _ h => .inr (.inl (scalar h))

theorem sliy (d : BitVec 8) (i : BitVec 16) : Statement (.sliy d i) := fun _ _ h => .inr (.inl (scalar h))

theorem saddi (d : BitVec 8) (i : BitVec 16) : Statement (.saddi d i) := fun _ _ h => .inr (.inl (scalar h))

theorem sandi (d : BitVec 8) (i : BitVec 16) : Statement (.sandi d i) := fun _ _ h => .inr (.inl (scalar h))

theorem sori (d : BitVec 8) (i : BitVec 16) : Statement (.sori d i) := fun _ _ h => .inr (.inl (scalar h))

theorem sxori (d : BitVec 8) (i : BitVec 16) : Statement (.sxori d i) := fun _ _ h => .inr (.inl (scalar h))

theorem sshli (d : BitVec 8) (i : BitVec 6) : Statement (.sshli d i) := fun _ _ h => .inr (.inl (scalar h))

theorem sshri (d : BitVec 8) (i : BitVec 6) : Statement (.sshri d i) := fun _ _ h => .inr (.inl (scalar h))

theorem ssrai (d : BitVec 8) (i : BitVec 6) : Statement (.ssrai d i) := fun _ _ h => .inr (.inl (scalar h))

theorem smuli (d : BitVec 8) (i : BitVec 16) : Statement (.smuli d i) := fun _ _ h => .inr (.inl (scalar h))

theorem sldp (d : BitVec 8) (i : BitVec 13) : Statement (.sldp d i) := fun _ _ h => .inr (.inl (scalar h))

theorem satadd (d a b : BitVec 8) : Statement (.satadd d a b) := fun _ _ h => .inr (.inl (scalar h))

theorem satxchg (d a b : BitVec 8) : Statement (.satxchg d a b) := fun _ _ h => .inr (.inl (scalar h))

theorem satcas (d a b : BitVec 8) : Statement (.satcas d a b) := fun _ _ h => .inr (.inl (scalar h))

theorem satmin (d a b : BitVec 8) : Statement (.satmin d a b) := fun _ _ h => .inr (.inl (scalar h))

theorem satmax (d a b : BitVec 8) : Statement (.satmax d a b) := fun _ _ h => .inr (.inl (scalar h))

theorem satand (d a b : BitVec 8) : Statement (.satand d a b) := fun _ _ h => .inr (.inl (scalar h))

theorem sator (d a b : BitVec 8) : Statement (.sator d a b) := fun _ _ h => .inr (.inl (scalar h))

theorem satxor (d a b : BitVec 8) : Statement (.satxor d a b) := fun _ _ h => .inr (.inl (scalar h))

theorem vadd (d a b : BitVec 8) : Statement (.vadd d a b) := fun h _ hc => .inl (vector (fst_of (fst_of h)) hc)

theorem vsub (d a b : BitVec 8) : Statement (.vsub d a b) := fun h _ hc => .inl (vector (fst_of (fst_of h)) hc)

theorem vmul (d a b : BitVec 8) : Statement (.vmul d a b) := fun h _ hc => .inl (vector (fst_of (fst_of h)) hc)

theorem vfma (d a b : BitVec 8) : Statement (.vfma d a b) := fun h _ hc => .inl (vector (fst_of (fst_of h)) hc)

theorem vfms (d a b : BitVec 8) : Statement (.vfms d a b) := fun h _ hc => .inl (vector (fst_of (fst_of h)) hc)

theorem vfnma (d a b : BitVec 8) : Statement (.vfnma d a b) := fun h _ hc => .inl (vector (fst_of (fst_of h)) hc)

theorem vmin (d a b : BitVec 8) : Statement (.vmin d a b) := fun h _ hc => .inl (vector (fst_of (fst_of h)) hc)

theorem vmax (d a b : BitVec 8) : Statement (.vmax d a b) := fun h _ hc => .inl (vector (fst_of (fst_of h)) hc)

theorem vabs (d a : BitVec 8) : Statement (.vabs d a) := fun h _ hc => .inl (vector (fst_of h) hc)

theorem vneg (d a : BitVec 8) : Statement (.vneg d a) := fun h _ hc => .inl (vector (fst_of h) hc)

theorem vdiv (d a b : BitVec 8) : Statement (.vdiv d a b) := fun h _ hc => .inl (vector (fst_of (fst_of h)) hc)

theorem vrem (d a b : BitVec 8) : Statement (.vrem d a b) := fun h _ hc => .inl (vector (fst_of (fst_of h)) hc)

theorem vsqrt (d a : BitVec 8) : Statement (.vsqrt d a) := fun h _ hc => .inl (vector (fst_of h) hc)

theorem vrsqrt (d a : BitVec 8) : Statement (.vrsqrt d a) := fun h _ hc => .inl (vector (fst_of h) hc)

theorem vrcp (d a : BitVec 8) : Statement (.vrcp d a) := fun h _ hc => .inl (vector (fst_of h) hc)

theorem vexp2 (d a : BitVec 8) : Statement (.vexp2 d a) := fun h _ hc => .inl (vector (fst_of h) hc)

theorem vlog2 (d a : BitVec 8) : Statement (.vlog2 d a) := fun h _ hc => .inl (vector (fst_of h) hc)

theorem vmulh (d a b : BitVec 8) : Statement (.vmulh d a b) := fun h _ hc => .inl (vector (fst_of (fst_of h)) hc)

theorem vand (d a b : BitVec 8) : Statement (.vand d a b) := fun h _ hc => .inl (vector (fst_of (fst_of h)) hc)

theorem vor (d a b : BitVec 8) : Statement (.vor d a b) := fun h _ hc => .inl (vector (fst_of (fst_of h)) hc)

theorem vxor (d a b : BitVec 8) : Statement (.vxor d a b) := fun h _ hc => .inl (vector (fst_of (fst_of h)) hc)

theorem vshl (d a b : BitVec 8) : Statement (.vshl d a b) := fun h _ hc => .inl (vector (fst_of (fst_of h)) hc)

theorem vshr (d a b : BitVec 8) : Statement (.vshr d a b) := fun h _ hc => .inl (vector (fst_of (fst_of h)) hc)

theorem vsra (d a b : BitVec 8) : Statement (.vsra d a b) := fun h _ hc => .inl (vector (fst_of (fst_of h)) hc)

theorem vpopc (d a : BitVec 8) : Statement (.vpopc d a) := fun h _ hc => .inl (vector (fst_of h) hc)

theorem vclz (d a : BitVec 8) : Statement (.vclz d a) := fun h _ hc => .inl (vector (fst_of h) hc)

theorem vceq (d a b : BitVec 8) : Statement (.vceq d a b) := fun h _ hc => .inr (.inr (predicate (fst_of (fst_of h)) hc))

theorem vcne (d a b : BitVec 8) : Statement (.vcne d a b) := fun h _ hc => .inr (.inr (predicate (fst_of (fst_of h)) hc))

theorem vclt (d a b : BitVec 8) : Statement (.vclt d a b) := fun h _ hc => .inr (.inr (predicate (fst_of (fst_of h)) hc))

theorem vcle (d a b : BitVec 8) : Statement (.vcle d a b) := fun h _ hc => .inr (.inr (predicate (fst_of (fst_of h)) hc))

theorem vcun (d a b : BitVec 8) : Statement (.vcun d a b) := fun h _ hc => .inr (.inr (predicate (fst_of (fst_of h)) hc))

theorem vsel (d a b : BitVec 8) : Statement (.vsel d a b) := fun h _ hc => .inl (vector (fst_of (fst_of h)) hc)

theorem vcvt (d a : BitVec 8) : Statement (.vcvt d a) := fun h _ hc => .inl (vector (fst_of h) hc)

theorem vrnd (d a : BitVec 8) : Statement (.vrnd d a) := fun h _ hc => .inl (vector (fst_of h) hc)

theorem vmov (d a : BitVec 8) : Statement (.vmov d a) := fun h _ hc => .inl (vector (fst_of h) hc)

theorem vfromp (d a : BitVec 8) : Statement (.vfromp d a) := fun h _ hc => .inl (vector (fst_of h) hc)

theorem vtop (d a : BitVec 8) : Statement (.vtop d a) := fun h _ hc => .inr (.inr (predicate (fst_of h) hc))

theorem vpand (d a b : BitVec 8) : Statement (.vpand d a b) := fun h _ hc => .inr (.inr (predicate (fst_of (fst_of h)) hc))

theorem vpor (d a b : BitVec 8) : Statement (.vpor d a b) := fun h _ hc => .inr (.inr (predicate (fst_of (fst_of h)) hc))

theorem vpxor (d a b : BitVec 8) : Statement (.vpxor d a b) := fun h _ hc => .inr (.inr (predicate (fst_of (fst_of h)) hc))

theorem vpnot (d a : BitVec 8) : Statement (.vpnot d a) := fun h _ hc => .inr (.inr (predicate (fst_of h) hc))

theorem vshfl (d a b : BitVec 8) : Statement (.vshfl d a b) := fun h _ hc => .inl (vector (fst_of (fst_of h)) hc)

theorem vshup (d a b : BitVec 8) : Statement (.vshup d a b) := fun h _ hc => .inl (vector (fst_of (fst_of h)) hc)

theorem vshdn (d a b : BitVec 8) : Statement (.vshdn d a b) := fun h _ hc => .inl (vector (fst_of (fst_of h)) hc)

theorem vbcast (d a b : BitVec 8) : Statement (.vbcast d a b) := fun h _ hc => .inl (vector (fst_of (fst_of h)) hc)

theorem vscan (d a : BitVec 8) : Statement (.vscan d a) := fun h _ hc => .inl (vector (fst_of h) hc)

theorem vscanmax (d a : BitVec 8) : Statement (.vscanmax d a) := fun h _ hc => .inl (vector (fst_of h) hc)

theorem vscanmin (d a : BitVec 8) : Statement (.vscanmin d a) := fun h _ hc => .inl (vector (fst_of h) hc)

theorem vredsum (d a : BitVec 8) : Statement (.vredsum d a) := fun h _ hc => .inl (vector (fst_of h) hc)

theorem vredmax (d a : BitVec 8) : Statement (.vredmax d a) := fun h _ hc => .inl (vector (fst_of h) hc)

theorem vredmin (d a : BitVec 8) : Statement (.vredmin d a) := fun h _ hc => .inl (vector (fst_of h) hc)

theorem vballot (d a b : BitVec 8) : Statement (.vballot d a b) := fun _ _ h => .inr (.inl (scalar h))

theorem vcount (d a : BitVec 8) : Statement (.vcount d a) := fun _ _ h => .inr (.inl (scalar h))

theorem vrank (d a : BitVec 8) : Statement (.vrank d a) := fun h _ hc => .inl (vector (fst_of h) hc)

theorem vtag (d a : BitVec 8) : Statement (.vtag d a) := fun _ _ h => .inr (.inl (scalar h))

theorem vgen (d : BitVec 8) : Statement (.vgen d) := fun h _ hc => .inl (vector h hc)

theorem vld (d a b : BitVec 8) : Statement (.vld d a b) := fun h _ hc => .inl (vector (fst_of (fst_of h)) hc)

theorem vst (d a b : BitVec 8) : Statement (.vst d a b) := fun _ _ h => absurd h List.not_mem_nil

theorem vldraw (d a b : BitVec 8) : Statement (.vldraw d a b) := fun h _ hc => .inl (vector (fst_of (fst_of h)) hc)

theorem vstraw (d a b : BitVec 8) : Statement (.vstraw d a b) := fun _ _ h => absurd h List.not_mem_nil

theorem vldb (d a b : BitVec 8) : Statement (.vldb d a b) := fun h _ hc => .inl (vector (fst_of (fst_of h)) hc)

theorem vstb (d a b : BitVec 8) : Statement (.vstb d a b) := fun _ _ h => absurd h List.not_mem_nil

theorem vldh (d a b : BitVec 8) : Statement (.vldh d a b) := fun h _ hc => .inl (vector (fst_of (fst_of h)) hc)

theorem vsth (d a b : BitVec 8) : Statement (.vsth d a b) := fun _ _ h => absurd h List.not_mem_nil

theorem vlds (d a : BitVec 8) : Statement (.vlds d a) := fun h _ hc => .inl (vector (fst_of h) hc)

theorem vsts (d a : BitVec 8) : Statement (.vsts d a) := fun _ _ h => absurd h List.not_mem_nil

theorem vatadd (d a b : BitVec 8) : Statement (.vatadd d a b) := fun h _ hc => .inl (vector (fst_of h) hc)

theorem vatmin (d a b : BitVec 8) : Statement (.vatmin d a b) := fun h _ hc => .inl (vector (fst_of h) hc)

theorem vatmax (d a b : BitVec 8) : Statement (.vatmax d a b) := fun h _ hc => .inl (vector (fst_of h) hc)

theorem vatand (d a b : BitVec 8) : Statement (.vatand d a b) := fun h _ hc => .inl (vector (fst_of h) hc)

theorem vator (d a b : BitVec 8) : Statement (.vator d a b) := fun h _ hc => .inl (vector (fst_of h) hc)

theorem vatxchg (d a b : BitVec 8) : Statement (.vatxchg d a b) := fun h _ hc => .inl (vector (fst_of h) hc)

theorem vatcas (d a b : BitVec 8) : Statement (.vatcas d a b) := fun h _ hc => .inl (pair (fst_of h) hc)

theorem cxadd (d a b : BitVec 8) : Statement (.cxadd d a b) := fun _ _ h => absurd h List.not_mem_nil

theorem cxget (d a b : BitVec 8) : Statement (.cxget d a b) := fun h _ hc => .inl (vector (fst_of h) hc)

theorem cxclr (a b : BitVec 8) : Statement (.cxclr a b) := fun _ _ h => absurd h List.not_mem_nil

theorem cpin (a : BitVec 8) : Statement (.cpin a) := fun _ _ h => absurd h List.not_mem_nil

theorem cpout (a : BitVec 8) : Statement (.cpout a) := fun _ _ h => absurd h List.not_mem_nil

theorem cpgat (a : BitVec 8) : Statement (.cpgat a) := fun _ _ h => absurd h List.not_mem_nil

theorem cpsca (a : BitVec 8) : Statement (.cpsca a) := fun _ _ h => absurd h List.not_mem_nil

theorem cpfill (a : BitVec 8) : Statement (.cpfill a) := fun _ _ h => absurd h List.not_mem_nil

theorem cplocal (a : BitVec 8) : Statement (.cplocal a) := fun _ _ h => absurd h List.not_mem_nil

theorem wait (s n : BitVec 8) : Statement (.wait s n) := fun _ _ h => absurd h List.not_mem_nil

theorem fence (s r : BitVec 4) : Statement (.fence s r) := fun _ _ h => absurd h List.not_mem_nil

theorem mma (d a b : BitVec 8) : Statement (.mma d a b) := fun _ _ h => absurd h List.not_mem_nil

theorem mmaz (d a b : BitVec 8) : Statement (.mmaz d a b) := fun _ _ h => absurd h List.not_mem_nil

theorem mzero (d : BitVec 8) : Statement (.mzero d) := fun _ _ h => absurd h List.not_mem_nil

theorem mdrv (d a : BitVec 8) : Statement (.mdrv d a) := fun h _ hc => .inl (row (fst_of h) hc)

theorem mdrl (a b : BitVec 8) : Statement (.mdrl a b) := fun _ _ h => absurd h List.not_mem_nil

theorem mdrx (a b : BitVec 8) : Statement (.mdrx a b) := fun _ _ h => absurd h List.not_mem_nil

theorem mldv (d a : BitVec 8) : Statement (.mldv d a) := fun _ _ h => absurd h List.not_mem_nil

theorem bra (o : BitVec 20) : Statement (.bra o) := fun _ _ h => absurd h List.not_mem_nil

theorem brp (p : BitVec 4) (o : BitVec 20) : Statement (.brp p o) := fun _ _ h => absurd h List.not_mem_nil

theorem brn (p : BitVec 4) (o : BitVec 20) : Statement (.brn p o) := fun _ _ h => absurd h List.not_mem_nil

theorem split (o : BitVec 20) : Statement (.split o) := fun _ _ h => absurd h List.not_mem_nil

theorem join : Statement .join := fun _ _ h => absurd h List.not_mem_nil

theorem brk (n : BitVec 4) (o : BitVec 20) : Statement (.brk n o) := fun _ _ h => absurd h List.not_mem_nil

theorem brx (a b : BitVec 8) : Statement (.brx a b) := fun _ _ h => absurd h List.not_mem_nil

theorem call (o : BitVec 20) : Statement (.call o) := fun _ _ h => absurd h List.not_mem_nil

theorem ret : Statement .ret := fun _ _ h => absurd h List.not_mem_nil

theorem land : Statement .land := fun _ _ h => absurd h List.not_mem_nil

theorem exit (a : BitVec 8) : Statement (.exit a) := fun _ _ h => absurd h List.not_mem_nil

theorem refill (d : BitVec 8) : Statement (.refill d) := fun h _ hc => .inr (.inr (predicate h hc))

theorem rgn (i : BitVec 24) : Statement (.rgn i) := fun _ _ h => absurd h List.not_mem_nil

theorem bar (d a : BitVec 8) : Statement (.bar d a) := fun h _ hc => .inr (.inr (predicate (fst_of h) hc))

theorem mode (i : BitVec 16) : Statement (.mode i) := fun _ _ h => absurd h List.not_mem_nil

theorem modx (i : BitVec 21) : Statement (.modx i) := fun _ _ h => absurd h List.not_mem_nil

theorem seed (a b : BitVec 8) : Statement (.seed a b) := fun _ _ h => absurd h List.not_mem_nil

theorem launch (a : BitVec 8) : Statement (.launch a) := fun _ _ h => absurd h List.not_mem_nil

theorem trap (i : BitVec 24) : Statement (.trap i) := fun _ _ h => absurd h List.not_mem_nil

theorem brkpt : Statement .brkpt := fun _ _ h => absurd h List.not_mem_nil

theorem preoff (i : BitVec 24) : Statement (.preoff i) := fun _ _ h => absurd h List.not_mem_nil

theorem preon : Statement .preon := fun _ _ h => absurd h List.not_mem_nil

theorem yield : Statement .yield := fun _ _ h => absurd h List.not_mem_nil

theorem sleep (i : BitVec 24) : Statement (.sleep i) := fun _ _ h => absurd h List.not_mem_nil

theorem bindq (d a b : BitVec 8) : Statement (.bindq d a b) := fun _ _ h => .inr (.inl (scalar h))

theorem nsclr : Statement .nsclr := fun _ _ h => absurd h List.not_mem_nil

theorem tret : Statement .tret := fun _ _ h => absurd h List.not_mem_nil

theorem inject (d a b : BitVec 8) : Statement (.inject d a b) := fun h _ hc => .inl (vector h hc)

theorem nop : Statement .nop := fun _ _ h => absurd h List.not_mem_nil

theorem portAccess (wave : Nat) : Statement (.portAccess wave) := fun _ _ h => absurd h List.not_mem_nil

theorem enginePartPerform (wave op part : Nat) (pick : Option Nat) : Statement (.enginePartPerform wave op part pick) := fun _ _ h => absurd h List.not_mem_nil

theorem sideLog (wave op part : Nat) : Statement (.sideLog wave op part) := fun _ _ h => absurd h List.not_mem_nil

theorem sideLogReplay (core entry : Nat) : Statement (.sideLogReplay core entry) := fun _ _ h => absurd h List.not_mem_nil

theorem counterRetire (wave ctr : Nat) : Statement (.counterRetire wave ctr) := fun _ _ h => absurd h List.not_mem_nil

theorem atomicReturn (wave op : Nat) : Statement (.atomicReturn wave op) := fun _ _ h => absurd h List.not_mem_nil

theorem errorResponse (wave op part : Nat) : Statement (.errorResponse wave op part) := fun _ _ h => absurd h List.not_mem_nil

theorem matrixTurn (wave : Nat) : Statement (.matrixTurn wave) := fun _ _ h => absurd h List.not_mem_nil

theorem waveDeal (wave : Nat) : Statement (.waveDeal wave) := fun _ _ h => absurd h List.not_mem_nil

theorem waveRetire (wave : Nat) : Statement (.waveRetire wave) := fun _ _ h => absurd h List.not_mem_nil

theorem prelimit (wave : Nat) : Statement (.prelimit wave) := fun _ _ h => absurd h List.not_mem_nil

theorem sleepEnd (wave lane : Nat) : Statement (.sleepEnd wave lane) := fun _ _ h => absurd h List.not_mem_nil

theorem systemModeTimeout (wave : Nat) : Statement (.systemModeTimeout wave) := fun _ _ h => absurd h List.not_mem_nil

theorem tailWrite (q : Nat) (tail : Word64) : Statement (.tailWrite q tail) := fun _ _ h => absurd h List.not_mem_nil

theorem descriptorAccept (q : Nat) : Statement (.descriptorAccept q) := fun _ _ h => absurd h List.not_mem_nil

theorem launchStart (l : Nat) : Statement (.launchStart l) := fun _ _ h => absurd h List.not_mem_nil

theorem crewPlace (l : Nat) : Statement (.crewPlace l) := fun _ _ h => absurd h List.not_mem_nil

theorem launchComplete (l : Nat) : Statement (.launchComplete l) := fun _ _ h => absurd h List.not_mem_nil

theorem bitmapBitSet (l p : Nat) : Statement (.bitmapBitSet l p) := fun _ _ h => absurd h List.not_mem_nil

theorem crewPreempt (crew : Nat) : Statement (.crewPreempt crew) := fun _ _ h => absurd h List.not_mem_nil

theorem crewReplace (crew : Nat) : Statement (.crewReplace crew) := fun _ _ h => absurd h List.not_mem_nil

theorem assayDue (cluster : Nat) : Statement (.assayDue cluster) := fun _ _ h => absurd h List.not_mem_nil

theorem assayDelayed (cluster : Nat) : Statement (.assayDelayed cluster) := fun _ _ h => absurd h List.not_mem_nil

theorem assayEnd (cluster : Nat) (faulty : Bool) : Statement (.assayEnd cluster faulty) := fun _ _ h => absurd h List.not_mem_nil

theorem homeRequest (wave op part : Nat) : Statement (.homeRequest wave op part) := fun _ _ h => absurd h List.not_mem_nil

theorem walkComplete (home ctx va : Nat) : Statement (.walkComplete home ctx va) := fun _ _ h => absurd h List.not_mem_nil

theorem retryAfterResend (wave op part : Nat) : Statement (.retryAfterResend wave op part) := fun _ _ h => absurd h List.not_mem_nil

theorem leaseGrant (home chip ctx va clocks : Nat) : Statement (.leaseGrant home chip ctx va clocks) := fun _ _ h => absurd h List.not_mem_nil

theorem leaseExpire (home lease : Nat) : Statement (.leaseExpire home lease) := fun _ _ h => absurd h List.not_mem_nil

theorem leaseRecallAck (home lease : Nat) : Statement (.leaseRecallAck home lease) := fun _ _ h => absurd h List.not_mem_nil

theorem migrateCommit (home ctx va : Nat) : Statement (.migrateCommit home ctx va) := fun _ _ h => absurd h List.not_mem_nil

theorem hostMemAccess (range off len : Nat) (wr : Option (List Byte)) : Statement (.hostMemAccess range off len wr) := fun _ _ h => absurd h List.not_mem_nil

theorem hostGoResponse : Statement .hostGoResponse := fun _ _ h => absurd h List.not_mem_nil

theorem peerRequest (chip ctx va : Nat) (lease : Option Nat) (op : PeerOp) : Statement (.peerRequest chip ctx va lease op) := fun _ _ h => absurd h List.not_mem_nil

theorem linkFlitRetry (link : Nat) (ok : Bool) : Statement (.linkFlitRetry link ok) := fun _ _ h => absurd h List.not_mem_nil

theorem cxlLinkLoss : Statement .cxlLinkLoss := fun _ _ h => absurd h List.not_mem_nil

theorem thermalTrip : Statement .thermalTrip := fun _ _ h => absurd h List.not_mem_nil

theorem resetRelease (linksGood : Bool) (header body : List Byte) : Statement (.resetRelease linksGood header body) := fun _ _ h => absurd h List.not_mem_nil

theorem firmwareReady : Statement .firmwareReady := fun _ _ h => absurd h List.not_mem_nil

theorem facceptWrite (word : Nat) (value : Word32) : Statement (.facceptWrite word value) := fun _ _ h => absurd h List.not_mem_nil

theorem registerWrite (off : Nat) (data : List Byte) : Statement (.registerWrite off data) := fun _ _ h => absurd h List.not_mem_nil

theorem regionRollback (wave : Nat) : Statement (.regionRollback wave) := fun _ _ h => absurd h List.not_mem_nil

theorem launchReplay (l : Nat) : Statement (.launchReplay l) := fun _ _ h => absurd h List.not_mem_nil

theorem scrubPass (site : ErrSite) : Statement (.scrubPass site) := fun _ _ h => absurd h List.not_mem_nil

theorem tokenPass (l : Nat) : Statement (.tokenPass l) := fun _ _ h => absurd h List.not_mem_nil

theorem diverge (wave : Nat) : Statement (.diverge wave) := fun _ _ h => absurd h List.not_mem_nil

theorem nativeCodeReady (handle version region : Nat) : Statement (.nativeCodeReady handle version region) := fun _ _ h => absurd h List.not_mem_nil

theorem softError (site : ErrSite) (bits : Nat) : Statement (.softError site bits) := fun _ _ h => absurd h List.not_mem_nil

theorem registerWriteback (wave lane : Nat) : Statement (.registerWriteback wave lane) := fun _ _ h => absurd h List.not_mem_nil

theorem bandReopen (home : Nat) : Statement (.bandReopen home) := fun _ _ h => absurd h List.not_mem_nil

theorem leaseRecall (chip : Nat) (va : Nat) : Statement (.leaseRecall chip va) := fun _ _ h => absurd h List.not_mem_nil

theorem arithmeticClockStep (up : Bool) : Statement (.arithmeticClockStep up) := fun _ _ h => absurd h List.not_mem_nil

theorem qstart (q : Nat) : Statement (.qstart q) := fun _ _ h => absurd h List.not_mem_nil

theorem qstop (q : Nat) : Statement (.qstop q) := fun _ _ h => absurd h List.not_mem_nil

theorem qevict (q : Nat) : Statement (.qevict q) := fun _ _ h => absurd h List.not_mem_nil

theorem qresume (q : Nat) : Statement (.qresume q) := fun _ _ h => absurd h List.not_mem_nil

theorem qkill (q : Nat) : Statement (.qkill q) := fun _ _ h => absurd h List.not_mem_nil

theorem load (ctx q : Nat) (objAddr handle : Word64) (buf : Nat) (place : List Placement) : Statement (.load ctx q objAddr handle buf place) := fun _ _ h => absurd h List.not_mem_nil

theorem ctxcreate (ctx : Nat) (debug : Bool) (handler : Word64) : Statement (.ctxcreate ctx debug handler) := fun _ _ h => absurd h List.not_mem_nil

theorem ctxroot (ctx home : Nat) (root : Nat) : Statement (.ctxroot ctx home root) := fun _ _ h => absurd h List.not_mem_nil

theorem xinval (ctx home va len : Nat) : Statement (.xinval ctx home va len) := fun _ _ h => absurd h List.not_mem_nil

theorem resolve (home tag : Nat) (map : Bool) : Statement (.resolve home tag map) := fun _ _ h => absurd h List.not_mem_nil

theorem migrate (ctx home va frame : Nat) : Statement (.migrate ctx home va frame) := fun _ _ h => absurd h List.not_mem_nil

theorem fringset (home base size : Nat) : Statement (.fringset home base size) := fun _ _ h => absurd h List.not_mem_nil

theorem trapset (ctx : Nat) (addr : Word64) : Statement (.trapset ctx addr) := fun _ _ h => absurd h List.not_mem_nil

theorem ebset (ctx : Nat) (value : Word64) : Statement (.ebset ctx value) := fun _ _ h => absurd h List.not_mem_nil

theorem ctxsave (ctx : Nat) (addr : Word64) (size buf : Nat) : Statement (.ctxsave ctx addr size buf) := fun _ _ h => absurd h List.not_mem_nil

theorem ctxrestore (ctx : Nat) (addr : Word64) (buf : Nat) : Statement (.ctxrestore ctx addr buf) := fun _ _ h => absurd h List.not_mem_nil

theorem ctxdestroy (ctx : Nat) : Statement (.ctxdestroy ctx) := fun _ _ h => absurd h List.not_mem_nil

theorem reclass (home band tier : Nat) : Statement (.reclass home band tier) := fun _ _ h => absurd h List.not_mem_nil

theorem lehrset (home : Nat) (bands : List Nat) : Statement (.lehrset home bands) := fun _ _ h => absurd h List.not_mem_nil

theorem corrread (ctx buf : Nat) : Statement (.corrread ctx buf) := fun _ _ h => absurd h List.not_mem_nil

theorem assayset (period : Nat) (returned : Option Nat) : Statement (.assayset period returned) := fun _ _ h => absurd h List.not_mem_nil

theorem tlogset (q : Nat) (base size mode : Nat) : Statement (.tlogset q base size mode) := fun _ _ h => absurd h List.not_mem_nil

theorem logread (buf : Nat) : Statement (.logread buf) := fun _ _ h => absurd h List.not_mem_nil

theorem ilogread (buf : Nat) : Statement (.ilogread buf) := fun _ _ h => absurd h List.not_mem_nil

theorem peerset (chip : Nat) (linkmask : BitVec 12) : Statement (.peerset chip linkmask) := fun _ _ h => absurd h List.not_mem_nil

theorem attest (ctx nonceAddr buf size : Nat) : Statement (.attest ctx nonceAddr buf size) := fun _ _ h => absurd h List.not_mem_nil

theorem attestCert (buf size : Nat) : Statement (.attestCert buf size) := fun _ _ h => absurd h List.not_mem_nil

theorem pwrcap (watts : Nat) : Statement (.pwrcap watts) := fun _ _ h => absurd h List.not_mem_nil

end Sys2Proof.Laws.Destinations
end

