-- ==== Sys2Proof/Laws/State.lean ====
section
/-! SUPPORT. One lemma for each field and each update of a state and of a wave: what the update does to the field. -/

namespace Sys2Proof.Machine

set_option Elab.async false

/-! ### Updates of a state -/

@[simp] theorem State.putWave_agenda (s : State) (w : Wave) : (s.putWave w).agenda = s.agenda := rfl
@[simp] theorem State.putWave_inputs (s : State) (w : Wave) : (s.putWave w).inputs = s.inputs := rfl
@[simp] theorem State.putWave_fresh (s : State) (w : Wave) : (s.putWave w).fresh = s.fresh := rfl
@[simp] theorem State.putWave_nextKey (s : State) (w : Wave) : (s.putWave w).nextKey = s.nextKey := rfl
@[simp] theorem State.putWave_clock (s : State) (w : Wave) : (s.putWave w).clock = s.clock := rfl
@[simp] theorem State.putWave_slots (s : State) (w : Wave) : (s.putWave w).slots = s.slots := rfl
@[simp] theorem State.putWave_passed (s : State) (w : Wave) : (s.putWave w).passed = s.passed := rfl
@[simp] theorem State.putWave_waves (s : State) (w : Wave) : (s.putWave w).waves = s.waves.map fun x => if x.key == w.key then w else x := rfl
@[simp] theorem State.putWave_crews (s : State) (w : Wave) : (s.putWave w).crews = s.crews := rfl
@[simp] theorem State.putWave_launches (s : State) (w : Wave) : (s.putWave w).launches = s.launches := rfl
@[simp] theorem State.putWave_queues (s : State) (w : Wave) : (s.putWave w).queues = s.queues := rfl
@[simp] theorem State.putWave_contexts (s : State) (w : Wave) : (s.putWave w).contexts = s.contexts := rfl
@[simp] theorem State.putWave_objects (s : State) (w : Wave) : (s.putWave w).objects = s.objects := rfl
@[simp] theorem State.putWave_nextHandle (s : State) (w : Wave) : (s.putWave w).nextHandle = s.nextHandle := rfl
@[simp] theorem State.putWave_acceptances (s : State) (w : Wave) : (s.putWave w).acceptances = s.acceptances := rfl
@[simp] theorem State.putWave_homes (s : State) (w : Wave) : (s.putWave w).homes = s.homes := rfl
@[simp] theorem State.putWave_hbm (s : State) (w : Wave) : (s.putWave w).hbm = s.hbm := rfl
@[simp] theorem State.putWave_hostMem (s : State) (w : Wave) : (s.putWave w).hostMem = s.hostMem := rfl
@[simp] theorem State.putWave_peerMem (s : State) (w : Wave) : (s.putWave w).peerMem = s.peerMem := rfl
@[simp] theorem State.putWave_shadows (s : State) (w : Wave) : (s.putWave w).shadows = s.shadows := rfl
@[simp] theorem State.putWave_softErrors (s : State) (w : Wave) : (s.putWave w).softErrors = s.softErrors := rfl
@[simp] theorem State.putWave_sideLog (s : State) (w : Wave) : (s.putWave w).sideLog = s.sideLog := rfl
@[simp] theorem State.putWave_hostWrites (s : State) (w : Wave) : (s.putWave w).hostWrites = s.hostWrites := rfl
@[simp] theorem State.putWave_heldLeases (s : State) (w : Wave) : (s.putWave w).heldLeases = s.heldLeases := rfl
@[simp] theorem State.putWave_errorLog (s : State) (w : Wave) : (s.putWave w).errorLog = s.errorLog := rfl
@[simp] theorem State.putWave_errorLost (s : State) (w : Wave) : (s.putWave w).errorLost = s.errorLost := rfl
@[simp] theorem State.putWave_integrityLog (s : State) (w : Wave) : (s.putWave w).integrityLog = s.integrityLog := rfl
@[simp] theorem State.putWave_integrityLost (s : State) (w : Wave) : (s.putWave w).integrityLost = s.integrityLost := rfl
@[simp] theorem State.putWave_interrupts (s : State) (w : Wave) : (s.putWave w).interrupts = s.interrupts := rfl
@[simp] theorem State.putWave_assayPeriod (s : State) (w : Wave) : (s.putWave w).assayPeriod = s.assayPeriod := rfl
@[simp] theorem State.putWave_clusters (s : State) (w : Wave) : (s.putWave w).clusters = s.clusters := rfl
@[simp] theorem State.putWave_stage (s : State) (w : Wave) : (s.putWave w).stage = s.stage := rfl
@[simp] theorem State.putWave_fwsvn (s : State) (w : Wave) : (s.putWave w).fwsvn = s.fwsvn := rfl
@[simp] theorem State.putWave_minSvn (s : State) (w : Wave) : (s.putWave w).minSvn = s.minSvn := rfl
@[simp] theorem State.putWave_fwdigest (s : State) (w : Wave) : (s.putWave w).fwdigest = s.fwdigest := rfl
@[simp] theorem State.putWave_faccept (s : State) (w : Wave) : (s.putWave w).faccept = s.faccept := rfl
@[simp] theorem State.putWave_hctx (s : State) (w : Wave) : (s.putWave w).hctx = s.hctx := rfl
@[simp] theorem State.putWave_cmd (s : State) (w : Wave) : (s.putWave w).cmd = s.cmd := rfl
@[simp] theorem State.putWave_cmdstat (s : State) (w : Wave) : (s.putWave w).cmdstat = s.cmdstat := rfl
@[simp] theorem State.putWave_running (s : State) (w : Wave) : (s.putWave w).running = s.running := rfl
@[simp] theorem State.putWave_linkMasks (s : State) (w : Wave) : (s.putWave w).linkMasks = s.linkMasks := rfl
@[simp] theorem State.putWave_linksDown (s : State) (w : Wave) : (s.putWave w).linksDown = s.linksDown := rfl
@[simp] theorem State.putWave_linkRetries (s : State) (w : Wave) : (s.putWave w).linkRetries = s.linkRetries := rfl
@[simp] theorem State.putWave_powerCap (s : State) (w : Wave) : (s.putWave w).powerCap = s.powerCap := rfl
@[simp] theorem State.putWave_clockStep (s : State) (w : Wave) : (s.putWave w).clockStep = s.clockStep := rfl

@[simp] theorem State.onWave_agenda (s : State) (k : Nat) (f : Wave → Wave) : (s.onWave k f).agenda = s.agenda := rfl
@[simp] theorem State.onWave_inputs (s : State) (k : Nat) (f : Wave → Wave) : (s.onWave k f).inputs = s.inputs := rfl
@[simp] theorem State.onWave_fresh (s : State) (k : Nat) (f : Wave → Wave) : (s.onWave k f).fresh = s.fresh := rfl
@[simp] theorem State.onWave_nextKey (s : State) (k : Nat) (f : Wave → Wave) : (s.onWave k f).nextKey = s.nextKey := rfl
@[simp] theorem State.onWave_clock (s : State) (k : Nat) (f : Wave → Wave) : (s.onWave k f).clock = s.clock := rfl
@[simp] theorem State.onWave_slots (s : State) (k : Nat) (f : Wave → Wave) : (s.onWave k f).slots = s.slots := rfl
@[simp] theorem State.onWave_passed (s : State) (k : Nat) (f : Wave → Wave) : (s.onWave k f).passed = s.passed := rfl
@[simp] theorem State.onWave_waves (s : State) (k : Nat) (f : Wave → Wave) : (s.onWave k f).waves = s.waves.map fun x => if x.key == k then f x else x := rfl
@[simp] theorem State.onWave_crews (s : State) (k : Nat) (f : Wave → Wave) : (s.onWave k f).crews = s.crews := rfl
@[simp] theorem State.onWave_launches (s : State) (k : Nat) (f : Wave → Wave) : (s.onWave k f).launches = s.launches := rfl
@[simp] theorem State.onWave_queues (s : State) (k : Nat) (f : Wave → Wave) : (s.onWave k f).queues = s.queues := rfl
@[simp] theorem State.onWave_contexts (s : State) (k : Nat) (f : Wave → Wave) : (s.onWave k f).contexts = s.contexts := rfl
@[simp] theorem State.onWave_objects (s : State) (k : Nat) (f : Wave → Wave) : (s.onWave k f).objects = s.objects := rfl
@[simp] theorem State.onWave_nextHandle (s : State) (k : Nat) (f : Wave → Wave) : (s.onWave k f).nextHandle = s.nextHandle := rfl
@[simp] theorem State.onWave_acceptances (s : State) (k : Nat) (f : Wave → Wave) : (s.onWave k f).acceptances = s.acceptances := rfl
@[simp] theorem State.onWave_homes (s : State) (k : Nat) (f : Wave → Wave) : (s.onWave k f).homes = s.homes := rfl
@[simp] theorem State.onWave_hbm (s : State) (k : Nat) (f : Wave → Wave) : (s.onWave k f).hbm = s.hbm := rfl
@[simp] theorem State.onWave_hostMem (s : State) (k : Nat) (f : Wave → Wave) : (s.onWave k f).hostMem = s.hostMem := rfl
@[simp] theorem State.onWave_peerMem (s : State) (k : Nat) (f : Wave → Wave) : (s.onWave k f).peerMem = s.peerMem := rfl
@[simp] theorem State.onWave_shadows (s : State) (k : Nat) (f : Wave → Wave) : (s.onWave k f).shadows = s.shadows := rfl
@[simp] theorem State.onWave_softErrors (s : State) (k : Nat) (f : Wave → Wave) : (s.onWave k f).softErrors = s.softErrors := rfl
@[simp] theorem State.onWave_sideLog (s : State) (k : Nat) (f : Wave → Wave) : (s.onWave k f).sideLog = s.sideLog := rfl
@[simp] theorem State.onWave_hostWrites (s : State) (k : Nat) (f : Wave → Wave) : (s.onWave k f).hostWrites = s.hostWrites := rfl
@[simp] theorem State.onWave_heldLeases (s : State) (k : Nat) (f : Wave → Wave) : (s.onWave k f).heldLeases = s.heldLeases := rfl
@[simp] theorem State.onWave_errorLog (s : State) (k : Nat) (f : Wave → Wave) : (s.onWave k f).errorLog = s.errorLog := rfl
@[simp] theorem State.onWave_errorLost (s : State) (k : Nat) (f : Wave → Wave) : (s.onWave k f).errorLost = s.errorLost := rfl
@[simp] theorem State.onWave_integrityLog (s : State) (k : Nat) (f : Wave → Wave) : (s.onWave k f).integrityLog = s.integrityLog := rfl
@[simp] theorem State.onWave_integrityLost (s : State) (k : Nat) (f : Wave → Wave) : (s.onWave k f).integrityLost = s.integrityLost := rfl
@[simp] theorem State.onWave_interrupts (s : State) (k : Nat) (f : Wave → Wave) : (s.onWave k f).interrupts = s.interrupts := rfl
@[simp] theorem State.onWave_assayPeriod (s : State) (k : Nat) (f : Wave → Wave) : (s.onWave k f).assayPeriod = s.assayPeriod := rfl
@[simp] theorem State.onWave_clusters (s : State) (k : Nat) (f : Wave → Wave) : (s.onWave k f).clusters = s.clusters := rfl
@[simp] theorem State.onWave_stage (s : State) (k : Nat) (f : Wave → Wave) : (s.onWave k f).stage = s.stage := rfl
@[simp] theorem State.onWave_fwsvn (s : State) (k : Nat) (f : Wave → Wave) : (s.onWave k f).fwsvn = s.fwsvn := rfl
@[simp] theorem State.onWave_minSvn (s : State) (k : Nat) (f : Wave → Wave) : (s.onWave k f).minSvn = s.minSvn := rfl
@[simp] theorem State.onWave_fwdigest (s : State) (k : Nat) (f : Wave → Wave) : (s.onWave k f).fwdigest = s.fwdigest := rfl
@[simp] theorem State.onWave_faccept (s : State) (k : Nat) (f : Wave → Wave) : (s.onWave k f).faccept = s.faccept := rfl
@[simp] theorem State.onWave_hctx (s : State) (k : Nat) (f : Wave → Wave) : (s.onWave k f).hctx = s.hctx := rfl
@[simp] theorem State.onWave_cmd (s : State) (k : Nat) (f : Wave → Wave) : (s.onWave k f).cmd = s.cmd := rfl
@[simp] theorem State.onWave_cmdstat (s : State) (k : Nat) (f : Wave → Wave) : (s.onWave k f).cmdstat = s.cmdstat := rfl
@[simp] theorem State.onWave_running (s : State) (k : Nat) (f : Wave → Wave) : (s.onWave k f).running = s.running := rfl
@[simp] theorem State.onWave_linkMasks (s : State) (k : Nat) (f : Wave → Wave) : (s.onWave k f).linkMasks = s.linkMasks := rfl
@[simp] theorem State.onWave_linksDown (s : State) (k : Nat) (f : Wave → Wave) : (s.onWave k f).linksDown = s.linksDown := rfl
@[simp] theorem State.onWave_linkRetries (s : State) (k : Nat) (f : Wave → Wave) : (s.onWave k f).linkRetries = s.linkRetries := rfl
@[simp] theorem State.onWave_powerCap (s : State) (k : Nat) (f : Wave → Wave) : (s.onWave k f).powerCap = s.powerCap := rfl
@[simp] theorem State.onWave_clockStep (s : State) (k : Nat) (f : Wave → Wave) : (s.onWave k f).clockStep = s.clockStep := rfl

@[simp] theorem State.onCrew_agenda (s : State) (k : Nat) (f : Crew → Crew) : (s.onCrew k f).agenda = s.agenda := rfl
@[simp] theorem State.onCrew_inputs (s : State) (k : Nat) (f : Crew → Crew) : (s.onCrew k f).inputs = s.inputs := rfl
@[simp] theorem State.onCrew_fresh (s : State) (k : Nat) (f : Crew → Crew) : (s.onCrew k f).fresh = s.fresh := rfl
@[simp] theorem State.onCrew_nextKey (s : State) (k : Nat) (f : Crew → Crew) : (s.onCrew k f).nextKey = s.nextKey := rfl
@[simp] theorem State.onCrew_clock (s : State) (k : Nat) (f : Crew → Crew) : (s.onCrew k f).clock = s.clock := rfl
@[simp] theorem State.onCrew_slots (s : State) (k : Nat) (f : Crew → Crew) : (s.onCrew k f).slots = s.slots := rfl
@[simp] theorem State.onCrew_passed (s : State) (k : Nat) (f : Crew → Crew) : (s.onCrew k f).passed = s.passed := rfl
@[simp] theorem State.onCrew_waves (s : State) (k : Nat) (f : Crew → Crew) : (s.onCrew k f).waves = s.waves := rfl
@[simp] theorem State.onCrew_crews (s : State) (k : Nat) (f : Crew → Crew) : (s.onCrew k f).crews = s.crews.map fun x => if x.key == k then f x else x := rfl
@[simp] theorem State.onCrew_launches (s : State) (k : Nat) (f : Crew → Crew) : (s.onCrew k f).launches = s.launches := rfl
@[simp] theorem State.onCrew_queues (s : State) (k : Nat) (f : Crew → Crew) : (s.onCrew k f).queues = s.queues := rfl
@[simp] theorem State.onCrew_contexts (s : State) (k : Nat) (f : Crew → Crew) : (s.onCrew k f).contexts = s.contexts := rfl
@[simp] theorem State.onCrew_objects (s : State) (k : Nat) (f : Crew → Crew) : (s.onCrew k f).objects = s.objects := rfl
@[simp] theorem State.onCrew_nextHandle (s : State) (k : Nat) (f : Crew → Crew) : (s.onCrew k f).nextHandle = s.nextHandle := rfl
@[simp] theorem State.onCrew_acceptances (s : State) (k : Nat) (f : Crew → Crew) : (s.onCrew k f).acceptances = s.acceptances := rfl
@[simp] theorem State.onCrew_homes (s : State) (k : Nat) (f : Crew → Crew) : (s.onCrew k f).homes = s.homes := rfl
@[simp] theorem State.onCrew_hbm (s : State) (k : Nat) (f : Crew → Crew) : (s.onCrew k f).hbm = s.hbm := rfl
@[simp] theorem State.onCrew_hostMem (s : State) (k : Nat) (f : Crew → Crew) : (s.onCrew k f).hostMem = s.hostMem := rfl
@[simp] theorem State.onCrew_peerMem (s : State) (k : Nat) (f : Crew → Crew) : (s.onCrew k f).peerMem = s.peerMem := rfl
@[simp] theorem State.onCrew_shadows (s : State) (k : Nat) (f : Crew → Crew) : (s.onCrew k f).shadows = s.shadows := rfl
@[simp] theorem State.onCrew_softErrors (s : State) (k : Nat) (f : Crew → Crew) : (s.onCrew k f).softErrors = s.softErrors := rfl
@[simp] theorem State.onCrew_sideLog (s : State) (k : Nat) (f : Crew → Crew) : (s.onCrew k f).sideLog = s.sideLog := rfl
@[simp] theorem State.onCrew_hostWrites (s : State) (k : Nat) (f : Crew → Crew) : (s.onCrew k f).hostWrites = s.hostWrites := rfl
@[simp] theorem State.onCrew_heldLeases (s : State) (k : Nat) (f : Crew → Crew) : (s.onCrew k f).heldLeases = s.heldLeases := rfl
@[simp] theorem State.onCrew_errorLog (s : State) (k : Nat) (f : Crew → Crew) : (s.onCrew k f).errorLog = s.errorLog := rfl
@[simp] theorem State.onCrew_errorLost (s : State) (k : Nat) (f : Crew → Crew) : (s.onCrew k f).errorLost = s.errorLost := rfl
@[simp] theorem State.onCrew_integrityLog (s : State) (k : Nat) (f : Crew → Crew) : (s.onCrew k f).integrityLog = s.integrityLog := rfl
@[simp] theorem State.onCrew_integrityLost (s : State) (k : Nat) (f : Crew → Crew) : (s.onCrew k f).integrityLost = s.integrityLost := rfl
@[simp] theorem State.onCrew_interrupts (s : State) (k : Nat) (f : Crew → Crew) : (s.onCrew k f).interrupts = s.interrupts := rfl
@[simp] theorem State.onCrew_assayPeriod (s : State) (k : Nat) (f : Crew → Crew) : (s.onCrew k f).assayPeriod = s.assayPeriod := rfl
@[simp] theorem State.onCrew_clusters (s : State) (k : Nat) (f : Crew → Crew) : (s.onCrew k f).clusters = s.clusters := rfl
@[simp] theorem State.onCrew_stage (s : State) (k : Nat) (f : Crew → Crew) : (s.onCrew k f).stage = s.stage := rfl
@[simp] theorem State.onCrew_fwsvn (s : State) (k : Nat) (f : Crew → Crew) : (s.onCrew k f).fwsvn = s.fwsvn := rfl
@[simp] theorem State.onCrew_minSvn (s : State) (k : Nat) (f : Crew → Crew) : (s.onCrew k f).minSvn = s.minSvn := rfl
@[simp] theorem State.onCrew_fwdigest (s : State) (k : Nat) (f : Crew → Crew) : (s.onCrew k f).fwdigest = s.fwdigest := rfl
@[simp] theorem State.onCrew_faccept (s : State) (k : Nat) (f : Crew → Crew) : (s.onCrew k f).faccept = s.faccept := rfl
@[simp] theorem State.onCrew_hctx (s : State) (k : Nat) (f : Crew → Crew) : (s.onCrew k f).hctx = s.hctx := rfl
@[simp] theorem State.onCrew_cmd (s : State) (k : Nat) (f : Crew → Crew) : (s.onCrew k f).cmd = s.cmd := rfl
@[simp] theorem State.onCrew_cmdstat (s : State) (k : Nat) (f : Crew → Crew) : (s.onCrew k f).cmdstat = s.cmdstat := rfl
@[simp] theorem State.onCrew_running (s : State) (k : Nat) (f : Crew → Crew) : (s.onCrew k f).running = s.running := rfl
@[simp] theorem State.onCrew_linkMasks (s : State) (k : Nat) (f : Crew → Crew) : (s.onCrew k f).linkMasks = s.linkMasks := rfl
@[simp] theorem State.onCrew_linksDown (s : State) (k : Nat) (f : Crew → Crew) : (s.onCrew k f).linksDown = s.linksDown := rfl
@[simp] theorem State.onCrew_linkRetries (s : State) (k : Nat) (f : Crew → Crew) : (s.onCrew k f).linkRetries = s.linkRetries := rfl
@[simp] theorem State.onCrew_powerCap (s : State) (k : Nat) (f : Crew → Crew) : (s.onCrew k f).powerCap = s.powerCap := rfl
@[simp] theorem State.onCrew_clockStep (s : State) (k : Nat) (f : Crew → Crew) : (s.onCrew k f).clockStep = s.clockStep := rfl

@[simp] theorem State.onLaunch_agenda (s : State) (k : Nat) (f : Launch → Launch) : (s.onLaunch k f).agenda = s.agenda := rfl
@[simp] theorem State.onLaunch_inputs (s : State) (k : Nat) (f : Launch → Launch) : (s.onLaunch k f).inputs = s.inputs := rfl
@[simp] theorem State.onLaunch_fresh (s : State) (k : Nat) (f : Launch → Launch) : (s.onLaunch k f).fresh = s.fresh := rfl
@[simp] theorem State.onLaunch_nextKey (s : State) (k : Nat) (f : Launch → Launch) : (s.onLaunch k f).nextKey = s.nextKey := rfl
@[simp] theorem State.onLaunch_clock (s : State) (k : Nat) (f : Launch → Launch) : (s.onLaunch k f).clock = s.clock := rfl
@[simp] theorem State.onLaunch_slots (s : State) (k : Nat) (f : Launch → Launch) : (s.onLaunch k f).slots = s.slots := rfl
@[simp] theorem State.onLaunch_passed (s : State) (k : Nat) (f : Launch → Launch) : (s.onLaunch k f).passed = s.passed := rfl
@[simp] theorem State.onLaunch_waves (s : State) (k : Nat) (f : Launch → Launch) : (s.onLaunch k f).waves = s.waves := rfl
@[simp] theorem State.onLaunch_crews (s : State) (k : Nat) (f : Launch → Launch) : (s.onLaunch k f).crews = s.crews := rfl
@[simp] theorem State.onLaunch_launches (s : State) (k : Nat) (f : Launch → Launch) : (s.onLaunch k f).launches = s.launches.map fun x => if x.key == k then f x else x := rfl
@[simp] theorem State.onLaunch_queues (s : State) (k : Nat) (f : Launch → Launch) : (s.onLaunch k f).queues = s.queues := rfl
@[simp] theorem State.onLaunch_contexts (s : State) (k : Nat) (f : Launch → Launch) : (s.onLaunch k f).contexts = s.contexts := rfl
@[simp] theorem State.onLaunch_objects (s : State) (k : Nat) (f : Launch → Launch) : (s.onLaunch k f).objects = s.objects := rfl
@[simp] theorem State.onLaunch_nextHandle (s : State) (k : Nat) (f : Launch → Launch) : (s.onLaunch k f).nextHandle = s.nextHandle := rfl
@[simp] theorem State.onLaunch_acceptances (s : State) (k : Nat) (f : Launch → Launch) : (s.onLaunch k f).acceptances = s.acceptances := rfl
@[simp] theorem State.onLaunch_homes (s : State) (k : Nat) (f : Launch → Launch) : (s.onLaunch k f).homes = s.homes := rfl
@[simp] theorem State.onLaunch_hbm (s : State) (k : Nat) (f : Launch → Launch) : (s.onLaunch k f).hbm = s.hbm := rfl
@[simp] theorem State.onLaunch_hostMem (s : State) (k : Nat) (f : Launch → Launch) : (s.onLaunch k f).hostMem = s.hostMem := rfl
@[simp] theorem State.onLaunch_peerMem (s : State) (k : Nat) (f : Launch → Launch) : (s.onLaunch k f).peerMem = s.peerMem := rfl
@[simp] theorem State.onLaunch_shadows (s : State) (k : Nat) (f : Launch → Launch) : (s.onLaunch k f).shadows = s.shadows := rfl
@[simp] theorem State.onLaunch_softErrors (s : State) (k : Nat) (f : Launch → Launch) : (s.onLaunch k f).softErrors = s.softErrors := rfl
@[simp] theorem State.onLaunch_sideLog (s : State) (k : Nat) (f : Launch → Launch) : (s.onLaunch k f).sideLog = s.sideLog := rfl
@[simp] theorem State.onLaunch_hostWrites (s : State) (k : Nat) (f : Launch → Launch) : (s.onLaunch k f).hostWrites = s.hostWrites := rfl
@[simp] theorem State.onLaunch_heldLeases (s : State) (k : Nat) (f : Launch → Launch) : (s.onLaunch k f).heldLeases = s.heldLeases := rfl
@[simp] theorem State.onLaunch_errorLog (s : State) (k : Nat) (f : Launch → Launch) : (s.onLaunch k f).errorLog = s.errorLog := rfl
@[simp] theorem State.onLaunch_errorLost (s : State) (k : Nat) (f : Launch → Launch) : (s.onLaunch k f).errorLost = s.errorLost := rfl
@[simp] theorem State.onLaunch_integrityLog (s : State) (k : Nat) (f : Launch → Launch) : (s.onLaunch k f).integrityLog = s.integrityLog := rfl
@[simp] theorem State.onLaunch_integrityLost (s : State) (k : Nat) (f : Launch → Launch) : (s.onLaunch k f).integrityLost = s.integrityLost := rfl
@[simp] theorem State.onLaunch_interrupts (s : State) (k : Nat) (f : Launch → Launch) : (s.onLaunch k f).interrupts = s.interrupts := rfl
@[simp] theorem State.onLaunch_assayPeriod (s : State) (k : Nat) (f : Launch → Launch) : (s.onLaunch k f).assayPeriod = s.assayPeriod := rfl
@[simp] theorem State.onLaunch_clusters (s : State) (k : Nat) (f : Launch → Launch) : (s.onLaunch k f).clusters = s.clusters := rfl
@[simp] theorem State.onLaunch_stage (s : State) (k : Nat) (f : Launch → Launch) : (s.onLaunch k f).stage = s.stage := rfl
@[simp] theorem State.onLaunch_fwsvn (s : State) (k : Nat) (f : Launch → Launch) : (s.onLaunch k f).fwsvn = s.fwsvn := rfl
@[simp] theorem State.onLaunch_minSvn (s : State) (k : Nat) (f : Launch → Launch) : (s.onLaunch k f).minSvn = s.minSvn := rfl
@[simp] theorem State.onLaunch_fwdigest (s : State) (k : Nat) (f : Launch → Launch) : (s.onLaunch k f).fwdigest = s.fwdigest := rfl
@[simp] theorem State.onLaunch_faccept (s : State) (k : Nat) (f : Launch → Launch) : (s.onLaunch k f).faccept = s.faccept := rfl
@[simp] theorem State.onLaunch_hctx (s : State) (k : Nat) (f : Launch → Launch) : (s.onLaunch k f).hctx = s.hctx := rfl
@[simp] theorem State.onLaunch_cmd (s : State) (k : Nat) (f : Launch → Launch) : (s.onLaunch k f).cmd = s.cmd := rfl
@[simp] theorem State.onLaunch_cmdstat (s : State) (k : Nat) (f : Launch → Launch) : (s.onLaunch k f).cmdstat = s.cmdstat := rfl
@[simp] theorem State.onLaunch_running (s : State) (k : Nat) (f : Launch → Launch) : (s.onLaunch k f).running = s.running := rfl
@[simp] theorem State.onLaunch_linkMasks (s : State) (k : Nat) (f : Launch → Launch) : (s.onLaunch k f).linkMasks = s.linkMasks := rfl
@[simp] theorem State.onLaunch_linksDown (s : State) (k : Nat) (f : Launch → Launch) : (s.onLaunch k f).linksDown = s.linksDown := rfl
@[simp] theorem State.onLaunch_linkRetries (s : State) (k : Nat) (f : Launch → Launch) : (s.onLaunch k f).linkRetries = s.linkRetries := rfl
@[simp] theorem State.onLaunch_powerCap (s : State) (k : Nat) (f : Launch → Launch) : (s.onLaunch k f).powerCap = s.powerCap := rfl
@[simp] theorem State.onLaunch_clockStep (s : State) (k : Nat) (f : Launch → Launch) : (s.onLaunch k f).clockStep = s.clockStep := rfl

@[simp] theorem State.onContext_agenda (s : State) (c : Nat) (f : Context → Context) : (s.onContext c f).agenda = s.agenda := rfl
@[simp] theorem State.onContext_inputs (s : State) (c : Nat) (f : Context → Context) : (s.onContext c f).inputs = s.inputs := rfl
@[simp] theorem State.onContext_fresh (s : State) (c : Nat) (f : Context → Context) : (s.onContext c f).fresh = s.fresh := rfl
@[simp] theorem State.onContext_nextKey (s : State) (c : Nat) (f : Context → Context) : (s.onContext c f).nextKey = s.nextKey := rfl
@[simp] theorem State.onContext_clock (s : State) (c : Nat) (f : Context → Context) : (s.onContext c f).clock = s.clock := rfl
@[simp] theorem State.onContext_slots (s : State) (c : Nat) (f : Context → Context) : (s.onContext c f).slots = s.slots := rfl
@[simp] theorem State.onContext_passed (s : State) (c : Nat) (f : Context → Context) : (s.onContext c f).passed = s.passed := rfl
@[simp] theorem State.onContext_waves (s : State) (c : Nat) (f : Context → Context) : (s.onContext c f).waves = s.waves := rfl
@[simp] theorem State.onContext_crews (s : State) (c : Nat) (f : Context → Context) : (s.onContext c f).crews = s.crews := rfl
@[simp] theorem State.onContext_launches (s : State) (c : Nat) (f : Context → Context) : (s.onContext c f).launches = s.launches := rfl
@[simp] theorem State.onContext_queues (s : State) (c : Nat) (f : Context → Context) : (s.onContext c f).queues = s.queues := rfl
@[simp] theorem State.onContext_contexts (s : State) (c : Nat) (f : Context → Context) : (s.onContext c f).contexts = s.contexts.map fun x => if x.id == c then f x else x := rfl
@[simp] theorem State.onContext_objects (s : State) (c : Nat) (f : Context → Context) : (s.onContext c f).objects = s.objects := rfl
@[simp] theorem State.onContext_nextHandle (s : State) (c : Nat) (f : Context → Context) : (s.onContext c f).nextHandle = s.nextHandle := rfl
@[simp] theorem State.onContext_acceptances (s : State) (c : Nat) (f : Context → Context) : (s.onContext c f).acceptances = s.acceptances := rfl
@[simp] theorem State.onContext_homes (s : State) (c : Nat) (f : Context → Context) : (s.onContext c f).homes = s.homes := rfl
@[simp] theorem State.onContext_hbm (s : State) (c : Nat) (f : Context → Context) : (s.onContext c f).hbm = s.hbm := rfl
@[simp] theorem State.onContext_hostMem (s : State) (c : Nat) (f : Context → Context) : (s.onContext c f).hostMem = s.hostMem := rfl
@[simp] theorem State.onContext_peerMem (s : State) (c : Nat) (f : Context → Context) : (s.onContext c f).peerMem = s.peerMem := rfl
@[simp] theorem State.onContext_shadows (s : State) (c : Nat) (f : Context → Context) : (s.onContext c f).shadows = s.shadows := rfl
@[simp] theorem State.onContext_softErrors (s : State) (c : Nat) (f : Context → Context) : (s.onContext c f).softErrors = s.softErrors := rfl
@[simp] theorem State.onContext_sideLog (s : State) (c : Nat) (f : Context → Context) : (s.onContext c f).sideLog = s.sideLog := rfl
@[simp] theorem State.onContext_hostWrites (s : State) (c : Nat) (f : Context → Context) : (s.onContext c f).hostWrites = s.hostWrites := rfl
@[simp] theorem State.onContext_heldLeases (s : State) (c : Nat) (f : Context → Context) : (s.onContext c f).heldLeases = s.heldLeases := rfl
@[simp] theorem State.onContext_errorLog (s : State) (c : Nat) (f : Context → Context) : (s.onContext c f).errorLog = s.errorLog := rfl
@[simp] theorem State.onContext_errorLost (s : State) (c : Nat) (f : Context → Context) : (s.onContext c f).errorLost = s.errorLost := rfl
@[simp] theorem State.onContext_integrityLog (s : State) (c : Nat) (f : Context → Context) : (s.onContext c f).integrityLog = s.integrityLog := rfl
@[simp] theorem State.onContext_integrityLost (s : State) (c : Nat) (f : Context → Context) : (s.onContext c f).integrityLost = s.integrityLost := rfl
@[simp] theorem State.onContext_interrupts (s : State) (c : Nat) (f : Context → Context) : (s.onContext c f).interrupts = s.interrupts := rfl
@[simp] theorem State.onContext_assayPeriod (s : State) (c : Nat) (f : Context → Context) : (s.onContext c f).assayPeriod = s.assayPeriod := rfl
@[simp] theorem State.onContext_clusters (s : State) (c : Nat) (f : Context → Context) : (s.onContext c f).clusters = s.clusters := rfl
@[simp] theorem State.onContext_stage (s : State) (c : Nat) (f : Context → Context) : (s.onContext c f).stage = s.stage := rfl
@[simp] theorem State.onContext_fwsvn (s : State) (c : Nat) (f : Context → Context) : (s.onContext c f).fwsvn = s.fwsvn := rfl
@[simp] theorem State.onContext_minSvn (s : State) (c : Nat) (f : Context → Context) : (s.onContext c f).minSvn = s.minSvn := rfl
@[simp] theorem State.onContext_fwdigest (s : State) (c : Nat) (f : Context → Context) : (s.onContext c f).fwdigest = s.fwdigest := rfl
@[simp] theorem State.onContext_faccept (s : State) (c : Nat) (f : Context → Context) : (s.onContext c f).faccept = s.faccept := rfl
@[simp] theorem State.onContext_hctx (s : State) (c : Nat) (f : Context → Context) : (s.onContext c f).hctx = s.hctx := rfl
@[simp] theorem State.onContext_cmd (s : State) (c : Nat) (f : Context → Context) : (s.onContext c f).cmd = s.cmd := rfl
@[simp] theorem State.onContext_cmdstat (s : State) (c : Nat) (f : Context → Context) : (s.onContext c f).cmdstat = s.cmdstat := rfl
@[simp] theorem State.onContext_running (s : State) (c : Nat) (f : Context → Context) : (s.onContext c f).running = s.running := rfl
@[simp] theorem State.onContext_linkMasks (s : State) (c : Nat) (f : Context → Context) : (s.onContext c f).linkMasks = s.linkMasks := rfl
@[simp] theorem State.onContext_linksDown (s : State) (c : Nat) (f : Context → Context) : (s.onContext c f).linksDown = s.linksDown := rfl
@[simp] theorem State.onContext_linkRetries (s : State) (c : Nat) (f : Context → Context) : (s.onContext c f).linkRetries = s.linkRetries := rfl
@[simp] theorem State.onContext_powerCap (s : State) (c : Nat) (f : Context → Context) : (s.onContext c f).powerCap = s.powerCap := rfl
@[simp] theorem State.onContext_clockStep (s : State) (c : Nat) (f : Context → Context) : (s.onContext c f).clockStep = s.clockStep := rfl

@[simp] theorem State.onQueue_agenda (s : State) (q : Nat) (f : Queue → Queue) : (s.onQueue q f).agenda = s.agenda := rfl
@[simp] theorem State.onQueue_inputs (s : State) (q : Nat) (f : Queue → Queue) : (s.onQueue q f).inputs = s.inputs := rfl
@[simp] theorem State.onQueue_fresh (s : State) (q : Nat) (f : Queue → Queue) : (s.onQueue q f).fresh = s.fresh := rfl
@[simp] theorem State.onQueue_nextKey (s : State) (q : Nat) (f : Queue → Queue) : (s.onQueue q f).nextKey = s.nextKey := rfl
@[simp] theorem State.onQueue_clock (s : State) (q : Nat) (f : Queue → Queue) : (s.onQueue q f).clock = s.clock := rfl
@[simp] theorem State.onQueue_slots (s : State) (q : Nat) (f : Queue → Queue) : (s.onQueue q f).slots = s.slots := rfl
@[simp] theorem State.onQueue_passed (s : State) (q : Nat) (f : Queue → Queue) : (s.onQueue q f).passed = s.passed := rfl
@[simp] theorem State.onQueue_waves (s : State) (q : Nat) (f : Queue → Queue) : (s.onQueue q f).waves = s.waves := rfl
@[simp] theorem State.onQueue_crews (s : State) (q : Nat) (f : Queue → Queue) : (s.onQueue q f).crews = s.crews := rfl
@[simp] theorem State.onQueue_launches (s : State) (q : Nat) (f : Queue → Queue) : (s.onQueue q f).launches = s.launches := rfl
@[simp] theorem State.onQueue_queues (s : State) (q : Nat) (f : Queue → Queue) : (s.onQueue q f).queues = modifyAt s.queues q f := rfl
@[simp] theorem State.onQueue_contexts (s : State) (q : Nat) (f : Queue → Queue) : (s.onQueue q f).contexts = s.contexts := rfl
@[simp] theorem State.onQueue_objects (s : State) (q : Nat) (f : Queue → Queue) : (s.onQueue q f).objects = s.objects := rfl
@[simp] theorem State.onQueue_nextHandle (s : State) (q : Nat) (f : Queue → Queue) : (s.onQueue q f).nextHandle = s.nextHandle := rfl
@[simp] theorem State.onQueue_acceptances (s : State) (q : Nat) (f : Queue → Queue) : (s.onQueue q f).acceptances = s.acceptances := rfl
@[simp] theorem State.onQueue_homes (s : State) (q : Nat) (f : Queue → Queue) : (s.onQueue q f).homes = s.homes := rfl
@[simp] theorem State.onQueue_hbm (s : State) (q : Nat) (f : Queue → Queue) : (s.onQueue q f).hbm = s.hbm := rfl
@[simp] theorem State.onQueue_hostMem (s : State) (q : Nat) (f : Queue → Queue) : (s.onQueue q f).hostMem = s.hostMem := rfl
@[simp] theorem State.onQueue_peerMem (s : State) (q : Nat) (f : Queue → Queue) : (s.onQueue q f).peerMem = s.peerMem := rfl
@[simp] theorem State.onQueue_shadows (s : State) (q : Nat) (f : Queue → Queue) : (s.onQueue q f).shadows = s.shadows := rfl
@[simp] theorem State.onQueue_softErrors (s : State) (q : Nat) (f : Queue → Queue) : (s.onQueue q f).softErrors = s.softErrors := rfl
@[simp] theorem State.onQueue_sideLog (s : State) (q : Nat) (f : Queue → Queue) : (s.onQueue q f).sideLog = s.sideLog := rfl
@[simp] theorem State.onQueue_hostWrites (s : State) (q : Nat) (f : Queue → Queue) : (s.onQueue q f).hostWrites = s.hostWrites := rfl
@[simp] theorem State.onQueue_heldLeases (s : State) (q : Nat) (f : Queue → Queue) : (s.onQueue q f).heldLeases = s.heldLeases := rfl
@[simp] theorem State.onQueue_errorLog (s : State) (q : Nat) (f : Queue → Queue) : (s.onQueue q f).errorLog = s.errorLog := rfl
@[simp] theorem State.onQueue_errorLost (s : State) (q : Nat) (f : Queue → Queue) : (s.onQueue q f).errorLost = s.errorLost := rfl
@[simp] theorem State.onQueue_integrityLog (s : State) (q : Nat) (f : Queue → Queue) : (s.onQueue q f).integrityLog = s.integrityLog := rfl
@[simp] theorem State.onQueue_integrityLost (s : State) (q : Nat) (f : Queue → Queue) : (s.onQueue q f).integrityLost = s.integrityLost := rfl
@[simp] theorem State.onQueue_interrupts (s : State) (q : Nat) (f : Queue → Queue) : (s.onQueue q f).interrupts = s.interrupts := rfl
@[simp] theorem State.onQueue_assayPeriod (s : State) (q : Nat) (f : Queue → Queue) : (s.onQueue q f).assayPeriod = s.assayPeriod := rfl
@[simp] theorem State.onQueue_clusters (s : State) (q : Nat) (f : Queue → Queue) : (s.onQueue q f).clusters = s.clusters := rfl
@[simp] theorem State.onQueue_stage (s : State) (q : Nat) (f : Queue → Queue) : (s.onQueue q f).stage = s.stage := rfl
@[simp] theorem State.onQueue_fwsvn (s : State) (q : Nat) (f : Queue → Queue) : (s.onQueue q f).fwsvn = s.fwsvn := rfl
@[simp] theorem State.onQueue_minSvn (s : State) (q : Nat) (f : Queue → Queue) : (s.onQueue q f).minSvn = s.minSvn := rfl
@[simp] theorem State.onQueue_fwdigest (s : State) (q : Nat) (f : Queue → Queue) : (s.onQueue q f).fwdigest = s.fwdigest := rfl
@[simp] theorem State.onQueue_faccept (s : State) (q : Nat) (f : Queue → Queue) : (s.onQueue q f).faccept = s.faccept := rfl
@[simp] theorem State.onQueue_hctx (s : State) (q : Nat) (f : Queue → Queue) : (s.onQueue q f).hctx = s.hctx := rfl
@[simp] theorem State.onQueue_cmd (s : State) (q : Nat) (f : Queue → Queue) : (s.onQueue q f).cmd = s.cmd := rfl
@[simp] theorem State.onQueue_cmdstat (s : State) (q : Nat) (f : Queue → Queue) : (s.onQueue q f).cmdstat = s.cmdstat := rfl
@[simp] theorem State.onQueue_running (s : State) (q : Nat) (f : Queue → Queue) : (s.onQueue q f).running = s.running := rfl
@[simp] theorem State.onQueue_linkMasks (s : State) (q : Nat) (f : Queue → Queue) : (s.onQueue q f).linkMasks = s.linkMasks := rfl
@[simp] theorem State.onQueue_linksDown (s : State) (q : Nat) (f : Queue → Queue) : (s.onQueue q f).linksDown = s.linksDown := rfl
@[simp] theorem State.onQueue_linkRetries (s : State) (q : Nat) (f : Queue → Queue) : (s.onQueue q f).linkRetries = s.linkRetries := rfl
@[simp] theorem State.onQueue_powerCap (s : State) (q : Nat) (f : Queue → Queue) : (s.onQueue q f).powerCap = s.powerCap := rfl
@[simp] theorem State.onQueue_clockStep (s : State) (q : Nat) (f : Queue → Queue) : (s.onQueue q f).clockStep = s.clockStep := rfl

@[simp] theorem State.onHome_agenda (s : State) (k : Nat) (f : Home → Home) : (s.onHome k f).agenda = s.agenda := rfl
@[simp] theorem State.onHome_inputs (s : State) (k : Nat) (f : Home → Home) : (s.onHome k f).inputs = s.inputs := rfl
@[simp] theorem State.onHome_fresh (s : State) (k : Nat) (f : Home → Home) : (s.onHome k f).fresh = s.fresh := rfl
@[simp] theorem State.onHome_nextKey (s : State) (k : Nat) (f : Home → Home) : (s.onHome k f).nextKey = s.nextKey := rfl
@[simp] theorem State.onHome_clock (s : State) (k : Nat) (f : Home → Home) : (s.onHome k f).clock = s.clock := rfl
@[simp] theorem State.onHome_slots (s : State) (k : Nat) (f : Home → Home) : (s.onHome k f).slots = s.slots := rfl
@[simp] theorem State.onHome_passed (s : State) (k : Nat) (f : Home → Home) : (s.onHome k f).passed = s.passed := rfl
@[simp] theorem State.onHome_waves (s : State) (k : Nat) (f : Home → Home) : (s.onHome k f).waves = s.waves := rfl
@[simp] theorem State.onHome_crews (s : State) (k : Nat) (f : Home → Home) : (s.onHome k f).crews = s.crews := rfl
@[simp] theorem State.onHome_launches (s : State) (k : Nat) (f : Home → Home) : (s.onHome k f).launches = s.launches := rfl
@[simp] theorem State.onHome_queues (s : State) (k : Nat) (f : Home → Home) : (s.onHome k f).queues = s.queues := rfl
@[simp] theorem State.onHome_contexts (s : State) (k : Nat) (f : Home → Home) : (s.onHome k f).contexts = s.contexts := rfl
@[simp] theorem State.onHome_objects (s : State) (k : Nat) (f : Home → Home) : (s.onHome k f).objects = s.objects := rfl
@[simp] theorem State.onHome_nextHandle (s : State) (k : Nat) (f : Home → Home) : (s.onHome k f).nextHandle = s.nextHandle := rfl
@[simp] theorem State.onHome_acceptances (s : State) (k : Nat) (f : Home → Home) : (s.onHome k f).acceptances = s.acceptances := rfl
@[simp] theorem State.onHome_homes (s : State) (k : Nat) (f : Home → Home) : (s.onHome k f).homes = modifyAt s.homes k f := rfl
@[simp] theorem State.onHome_hbm (s : State) (k : Nat) (f : Home → Home) : (s.onHome k f).hbm = s.hbm := rfl
@[simp] theorem State.onHome_hostMem (s : State) (k : Nat) (f : Home → Home) : (s.onHome k f).hostMem = s.hostMem := rfl
@[simp] theorem State.onHome_peerMem (s : State) (k : Nat) (f : Home → Home) : (s.onHome k f).peerMem = s.peerMem := rfl
@[simp] theorem State.onHome_shadows (s : State) (k : Nat) (f : Home → Home) : (s.onHome k f).shadows = s.shadows := rfl
@[simp] theorem State.onHome_softErrors (s : State) (k : Nat) (f : Home → Home) : (s.onHome k f).softErrors = s.softErrors := rfl
@[simp] theorem State.onHome_sideLog (s : State) (k : Nat) (f : Home → Home) : (s.onHome k f).sideLog = s.sideLog := rfl
@[simp] theorem State.onHome_hostWrites (s : State) (k : Nat) (f : Home → Home) : (s.onHome k f).hostWrites = s.hostWrites := rfl
@[simp] theorem State.onHome_heldLeases (s : State) (k : Nat) (f : Home → Home) : (s.onHome k f).heldLeases = s.heldLeases := rfl
@[simp] theorem State.onHome_errorLog (s : State) (k : Nat) (f : Home → Home) : (s.onHome k f).errorLog = s.errorLog := rfl
@[simp] theorem State.onHome_errorLost (s : State) (k : Nat) (f : Home → Home) : (s.onHome k f).errorLost = s.errorLost := rfl
@[simp] theorem State.onHome_integrityLog (s : State) (k : Nat) (f : Home → Home) : (s.onHome k f).integrityLog = s.integrityLog := rfl
@[simp] theorem State.onHome_integrityLost (s : State) (k : Nat) (f : Home → Home) : (s.onHome k f).integrityLost = s.integrityLost := rfl
@[simp] theorem State.onHome_interrupts (s : State) (k : Nat) (f : Home → Home) : (s.onHome k f).interrupts = s.interrupts := rfl
@[simp] theorem State.onHome_assayPeriod (s : State) (k : Nat) (f : Home → Home) : (s.onHome k f).assayPeriod = s.assayPeriod := rfl
@[simp] theorem State.onHome_clusters (s : State) (k : Nat) (f : Home → Home) : (s.onHome k f).clusters = s.clusters := rfl
@[simp] theorem State.onHome_stage (s : State) (k : Nat) (f : Home → Home) : (s.onHome k f).stage = s.stage := rfl
@[simp] theorem State.onHome_fwsvn (s : State) (k : Nat) (f : Home → Home) : (s.onHome k f).fwsvn = s.fwsvn := rfl
@[simp] theorem State.onHome_minSvn (s : State) (k : Nat) (f : Home → Home) : (s.onHome k f).minSvn = s.minSvn := rfl
@[simp] theorem State.onHome_fwdigest (s : State) (k : Nat) (f : Home → Home) : (s.onHome k f).fwdigest = s.fwdigest := rfl
@[simp] theorem State.onHome_faccept (s : State) (k : Nat) (f : Home → Home) : (s.onHome k f).faccept = s.faccept := rfl
@[simp] theorem State.onHome_hctx (s : State) (k : Nat) (f : Home → Home) : (s.onHome k f).hctx = s.hctx := rfl
@[simp] theorem State.onHome_cmd (s : State) (k : Nat) (f : Home → Home) : (s.onHome k f).cmd = s.cmd := rfl
@[simp] theorem State.onHome_cmdstat (s : State) (k : Nat) (f : Home → Home) : (s.onHome k f).cmdstat = s.cmdstat := rfl
@[simp] theorem State.onHome_running (s : State) (k : Nat) (f : Home → Home) : (s.onHome k f).running = s.running := rfl
@[simp] theorem State.onHome_linkMasks (s : State) (k : Nat) (f : Home → Home) : (s.onHome k f).linkMasks = s.linkMasks := rfl
@[simp] theorem State.onHome_linksDown (s : State) (k : Nat) (f : Home → Home) : (s.onHome k f).linksDown = s.linksDown := rfl
@[simp] theorem State.onHome_linkRetries (s : State) (k : Nat) (f : Home → Home) : (s.onHome k f).linkRetries = s.linkRetries := rfl
@[simp] theorem State.onHome_powerCap (s : State) (k : Nat) (f : Home → Home) : (s.onHome k f).powerCap = s.powerCap := rfl
@[simp] theorem State.onHome_clockStep (s : State) (k : Nat) (f : Home → Home) : (s.onHome k f).clockStep = s.clockStep := rfl

@[simp] theorem State.tick_agenda (s : State) : s.tick.agenda = s.agenda := rfl
@[simp] theorem State.tick_inputs (s : State) : s.tick.inputs = s.inputs := rfl
@[simp] theorem State.tick_fresh (s : State) : s.tick.fresh = s.fresh := rfl
@[simp] theorem State.tick_nextKey (s : State) : s.tick.nextKey = s.nextKey := rfl
@[simp] theorem State.tick_clock (s : State) : s.tick.clock = s.clock + 1 + Config.elapsed s.slots := rfl
@[simp] theorem State.tick_slots (s : State) : s.tick.slots = s.slots + 1 := rfl
@[simp] theorem State.tick_passed (s : State) : s.tick.passed = s.passed := rfl
@[simp] theorem State.tick_waves (s : State) : s.tick.waves = s.waves := rfl
@[simp] theorem State.tick_crews (s : State) : s.tick.crews = s.crews := rfl
@[simp] theorem State.tick_launches (s : State) : s.tick.launches = s.launches := rfl
@[simp] theorem State.tick_queues (s : State) : s.tick.queues = s.queues := rfl
@[simp] theorem State.tick_contexts (s : State) : s.tick.contexts = s.contexts := rfl
@[simp] theorem State.tick_objects (s : State) : s.tick.objects = s.objects := rfl
@[simp] theorem State.tick_nextHandle (s : State) : s.tick.nextHandle = s.nextHandle := rfl
@[simp] theorem State.tick_acceptances (s : State) : s.tick.acceptances = s.acceptances := rfl
@[simp] theorem State.tick_homes (s : State) : s.tick.homes = s.homes := rfl
@[simp] theorem State.tick_hbm (s : State) : s.tick.hbm = s.hbm := rfl
@[simp] theorem State.tick_hostMem (s : State) : s.tick.hostMem = s.hostMem := rfl
@[simp] theorem State.tick_peerMem (s : State) : s.tick.peerMem = s.peerMem := rfl
@[simp] theorem State.tick_shadows (s : State) : s.tick.shadows = s.shadows := rfl
@[simp] theorem State.tick_softErrors (s : State) : s.tick.softErrors = s.softErrors := rfl
@[simp] theorem State.tick_sideLog (s : State) : s.tick.sideLog = s.sideLog := rfl
@[simp] theorem State.tick_hostWrites (s : State) : s.tick.hostWrites = s.hostWrites := rfl
@[simp] theorem State.tick_heldLeases (s : State) : s.tick.heldLeases = s.heldLeases := rfl
@[simp] theorem State.tick_errorLog (s : State) : s.tick.errorLog = s.errorLog := rfl
@[simp] theorem State.tick_errorLost (s : State) : s.tick.errorLost = s.errorLost := rfl
@[simp] theorem State.tick_integrityLog (s : State) : s.tick.integrityLog = s.integrityLog := rfl
@[simp] theorem State.tick_integrityLost (s : State) : s.tick.integrityLost = s.integrityLost := rfl
@[simp] theorem State.tick_interrupts (s : State) : s.tick.interrupts = s.interrupts := rfl
@[simp] theorem State.tick_assayPeriod (s : State) : s.tick.assayPeriod = s.assayPeriod := rfl
@[simp] theorem State.tick_clusters (s : State) : s.tick.clusters = s.clusters := rfl
@[simp] theorem State.tick_stage (s : State) : s.tick.stage = s.stage := rfl
@[simp] theorem State.tick_fwsvn (s : State) : s.tick.fwsvn = s.fwsvn := rfl
@[simp] theorem State.tick_minSvn (s : State) : s.tick.minSvn = s.minSvn := rfl
@[simp] theorem State.tick_fwdigest (s : State) : s.tick.fwdigest = s.fwdigest := rfl
@[simp] theorem State.tick_faccept (s : State) : s.tick.faccept = s.faccept := rfl
@[simp] theorem State.tick_hctx (s : State) : s.tick.hctx = s.hctx := rfl
@[simp] theorem State.tick_cmd (s : State) : s.tick.cmd = s.cmd := rfl
@[simp] theorem State.tick_cmdstat (s : State) : s.tick.cmdstat = s.cmdstat := rfl
@[simp] theorem State.tick_running (s : State) : s.tick.running = s.running := rfl
@[simp] theorem State.tick_linkMasks (s : State) : s.tick.linkMasks = s.linkMasks := rfl
@[simp] theorem State.tick_linksDown (s : State) : s.tick.linksDown = s.linksDown := rfl
@[simp] theorem State.tick_linkRetries (s : State) : s.tick.linkRetries = s.linkRetries := rfl
@[simp] theorem State.tick_powerCap (s : State) : s.tick.powerCap = s.powerCap := rfl
@[simp] theorem State.tick_clockStep (s : State) : s.tick.clockStep = s.clockStep := rfl

/-! ### Updates of a wave -/

@[simp] theorem Wave.setSplit_key (w : Wave) (p : Split) : (w.setSplit p).key = w.key := rfl
@[simp] theorem Wave.setSplit_launch (w : Wave) (p : Split) : (w.setSplit p).launch = w.launch := rfl
@[simp] theorem Wave.setSplit_crew (w : Wave) (p : Split) : (w.setSplit p).crew = w.crew := rfl
@[simp] theorem Wave.setSplit_ordinal (w : Wave) (p : Split) : (w.setSplit p).ordinal = w.ordinal := rfl
@[simp] theorem Wave.setSplit_kern (w : Wave) (p : Split) : (w.setSplit p).kern = w.kern := rfl
@[simp] theorem Wave.setSplit_core (w : Wave) (p : Split) : (w.setSplit p).core = w.core := rfl
@[simp] theorem Wave.setSplit_partition (w : Wave) (p : Split) : (w.setSplit p).partition = w.partition := rfl
@[simp] theorem Wave.setSplit_slot (w : Wave) (p : Split) : (w.setSplit p).slot = w.slot := rfl
@[simp] theorem Wave.setSplit_created (w : Wave) (p : Split) : (w.setSplit p).created = w.created := rfl
@[simp] theorem Wave.setSplit_status (w : Wave) (p : Split) : (w.setSplit p).status = w.status := rfl
@[simp] theorem Wave.setSplit_a_splits (w : Wave) (p : Split) : (w.setSplit p).a.splits = p :: w.a.splits.tail := rfl
@[simp] theorem Wave.setSplit_a_entries (w : Wave) (p : Split) : (w.setSplit p).a.entries = w.a.entries := rfl
@[simp] theorem Wave.setSplit_a_live (w : Wave) (p : Split) : (w.setSplit p).a.live = w.a.live := rfl
@[simp] theorem Wave.setSplit_a_drain (w : Wave) (p : Split) : (w.setSplit p).a.drain = w.a.drain := rfl
@[simp] theorem Wave.setSplit_a_fresh (w : Wave) (p : Split) : (w.setSplit p).a.fresh = w.a.fresh := rfl
@[simp] theorem Wave.setSplit_a_lanes (w : Wave) (p : Split) : (w.setSplit p).a.lanes = w.a.lanes := rfl
@[simp] theorem Wave.setSplit_a_vregs (w : Wave) (p : Split) : (w.setSplit p).a.vregs = w.a.vregs := rfl
@[simp] theorem Wave.setSplit_a_preds (w : Wave) (p : Split) : (w.setSplit p).a.preds = w.a.preds := rfl
@[simp] theorem Wave.setSplit_a_sregs (w : Wave) (p : Split) : (w.setSplit p).a.sregs = w.a.sregs := rfl
@[simp] theorem Wave.setSplit_a_sshadow (w : Wave) (p : Split) : (w.setSplit p).a.sshadow = w.a.sshadow := rfl
@[simp] theorem Wave.setSplit_a_tiles (w : Wave) (p : Split) : (w.setSplit p).a.tiles = w.a.tiles := rfl
@[simp] theorem Wave.setSplit_a_twins (w : Wave) (p : Split) : (w.setSplit p).a.twins = w.a.twins := rfl
@[simp] theorem Wave.setSplit_a_mr (w : Wave) (p : Split) : (w.setSplit p).a.mr = w.a.mr := rfl
@[simp] theorem Wave.setSplit_a_mx (w : Wave) (p : Split) : (w.setSplit p).a.mx = w.a.mx := rfl
@[simp] theorem Wave.setSplit_a_ns (w : Wave) (p : Split) : (w.setSplit p).a.ns = w.a.ns := rfl
@[simp] theorem Wave.setSplit_a_sp (w : Wave) (p : Split) : (w.setSplit p).a.sp = w.a.sp := rfl
@[simp] theorem Wave.setSplit_a_mxbase (w : Wave) (p : Split) : (w.setSplit p).a.mxbase = w.a.mxbase := rfl
@[simp] theorem Wave.setSplit_a_mxplane (w : Wave) (p : Split) : (w.setSplit p).a.mxplane = w.a.mxplane := rfl
@[simp] theorem Wave.setSplit_a_seedlo (w : Wave) (p : Split) : (w.setSplit p).a.seedlo = w.a.seedlo := rfl
@[simp] theorem Wave.setSplit_a_seedhi (w : Wave) (p : Split) : (w.setSplit p).a.seedhi = w.a.seedhi := rfl
@[simp] theorem Wave.setSplit_a_retired (w : Wave) (p : Split) : (w.setSplit p).a.retired = w.a.retired := rfl
@[simp] theorem Wave.setSplit_a_turn (w : Wave) (p : Split) : (w.setSplit p).a.turn = w.a.turn := rfl
@[simp] theorem Wave.setSplit_a_spill (w : Wave) (p : Split) : (w.setSplit p).a.spill = w.a.spill := rfl
@[simp] theorem Wave.setSplit_sempty (w : Wave) (p : Split) : (w.setSplit p).sempty = w.sempty := rfl
@[simp] theorem Wave.setSplit_hregs (w : Wave) (p : Split) : (w.setSplit p).hregs = w.hregs := rfl
@[simp] theorem Wave.setSplit_hshadow (w : Wave) (p : Split) : (w.setSplit p).hshadow = w.hshadow := rfl
@[simp] theorem Wave.setSplit_trapcause (w : Wave) (p : Split) : (w.setSplit p).trapcause = w.trapcause := rfl
@[simp] theorem Wave.setSplit_trappc (w : Wave) (p : Split) : (w.setSplit p).trappc = w.trappc := rfl
@[simp] theorem Wave.setSplit_trapaddr (w : Wave) (p : Split) : (w.setSplit p).trapaddr = w.trapaddr := rfl
@[simp] theorem Wave.setSplit_trapmask (w : Wave) (p : Split) : (w.setSplit p).trapmask = w.trapmask := rfl
@[simp] theorem Wave.setSplit_ops (w : Wave) (p : Split) : (w.setSplit p).ops = w.ops := rfl
@[simp] theorem Wave.setSplit_port (w : Wave) (p : Split) : (w.setSplit p).port = w.port := rfl
@[simp] theorem Wave.setSplit_seq (w : Wave) (p : Split) : (w.setSplit p).seq = w.seq := rfl
@[simp] theorem Wave.setSplit_issued (w : Wave) (p : Split) : (w.setSplit p).issued = w.issued := rfl
@[simp] theorem Wave.setSplit_latch (w : Wave) (p : Split) : (w.setSplit p).latch = w.latch := rfl
@[simp] theorem Wave.setSplit_latchS (w : Wave) (p : Split) : (w.setSplit p).latchS = w.latchS := rfl
@[simp] theorem Wave.setSplit_engineFault (w : Wave) (p : Split) : (w.setSplit p).engineFault = w.engineFault := rfl
@[simp] theorem Wave.setSplit_matFault (w : Wave) (p : Split) : (w.setSplit p).matFault = w.matFault := rfl
@[simp] theorem Wave.setSplit_drained (w : Wave) (p : Split) : (w.setSplit p).drained = w.drained := rfl
@[simp] theorem Wave.setSplit_checkpoint (w : Wave) (p : Split) : (w.setSplit p).checkpoint = w.checkpoint := rfl
@[simp] theorem Wave.setSplit_failures (w : Wave) (p : Split) : (w.setSplit p).failures = w.failures := rfl
@[simp] theorem Wave.setSplit_frame (w : Wave) (p : Split) : (w.setSplit p).frame = w.frame := rfl
@[simp] theorem Wave.setSplit_preoff (w : Wave) (p : Split) : (w.setSplit p).preoff = w.preoff := rfl
@[simp] theorem Wave.setSplit_demand (w : Wave) (p : Split) : (w.setSplit p).demand = w.demand := rfl
@[simp] theorem Wave.setSplit_waveTrap (w : Wave) (p : Split) : (w.setSplit p).waveTrap = w.waveTrap := rfl
@[simp] theorem Wave.setSplit_native (w : Wave) (p : Split) : (w.setSplit p).native = w.native := rfl
@[simp] theorem Wave.setSplit_visitEnd (w : Wave) (p : Split) : (w.setSplit p).visitEnd = w.visitEnd := rfl
@[simp] theorem Wave.setSplit_visiting (w : Wave) (p : Split) : (w.setSplit p).visiting = w.visiting := rfl
@[simp] theorem Wave.setSplit_checkpointDue (w : Wave) (p : Split) : (w.setSplit p).checkpointDue = w.checkpointDue := rfl
@[simp] theorem Wave.setSplit_lineReads (w : Wave) (p : Split) : (w.setSplit p).lineReads = w.lineReads := rfl

@[simp] theorem Wave.advance_key (w : Wave) (p : Split) : (w.advance p).key = w.key := rfl
@[simp] theorem Wave.advance_launch (w : Wave) (p : Split) : (w.advance p).launch = w.launch := rfl
@[simp] theorem Wave.advance_crew (w : Wave) (p : Split) : (w.advance p).crew = w.crew := rfl
@[simp] theorem Wave.advance_ordinal (w : Wave) (p : Split) : (w.advance p).ordinal = w.ordinal := rfl
@[simp] theorem Wave.advance_kern (w : Wave) (p : Split) : (w.advance p).kern = w.kern := rfl
@[simp] theorem Wave.advance_core (w : Wave) (p : Split) : (w.advance p).core = w.core := rfl
@[simp] theorem Wave.advance_partition (w : Wave) (p : Split) : (w.advance p).partition = w.partition := rfl
@[simp] theorem Wave.advance_slot (w : Wave) (p : Split) : (w.advance p).slot = w.slot := rfl
@[simp] theorem Wave.advance_created (w : Wave) (p : Split) : (w.advance p).created = w.created := rfl
@[simp] theorem Wave.advance_status (w : Wave) (p : Split) : (w.advance p).status = w.status := rfl
@[simp] theorem Wave.advance_a_splits (w : Wave) (p : Split) : (w.advance p).a.splits = { p with pc := (p.pc + 4) % 2 ^ 64 } :: w.a.splits.tail := rfl
@[simp] theorem Wave.advance_a_entries (w : Wave) (p : Split) : (w.advance p).a.entries = w.a.entries := rfl
@[simp] theorem Wave.advance_a_live (w : Wave) (p : Split) : (w.advance p).a.live = w.a.live := rfl
@[simp] theorem Wave.advance_a_drain (w : Wave) (p : Split) : (w.advance p).a.drain = w.a.drain := rfl
@[simp] theorem Wave.advance_a_fresh (w : Wave) (p : Split) : (w.advance p).a.fresh = w.a.fresh := rfl
@[simp] theorem Wave.advance_a_lanes (w : Wave) (p : Split) : (w.advance p).a.lanes = w.a.lanes := rfl
@[simp] theorem Wave.advance_a_vregs (w : Wave) (p : Split) : (w.advance p).a.vregs = w.a.vregs := rfl
@[simp] theorem Wave.advance_a_preds (w : Wave) (p : Split) : (w.advance p).a.preds = w.a.preds := rfl
@[simp] theorem Wave.advance_a_sregs (w : Wave) (p : Split) : (w.advance p).a.sregs = w.a.sregs := rfl
@[simp] theorem Wave.advance_a_sshadow (w : Wave) (p : Split) : (w.advance p).a.sshadow = w.a.sshadow := rfl
@[simp] theorem Wave.advance_a_tiles (w : Wave) (p : Split) : (w.advance p).a.tiles = w.a.tiles := rfl
@[simp] theorem Wave.advance_a_twins (w : Wave) (p : Split) : (w.advance p).a.twins = w.a.twins := rfl
@[simp] theorem Wave.advance_a_mr (w : Wave) (p : Split) : (w.advance p).a.mr = w.a.mr := rfl
@[simp] theorem Wave.advance_a_mx (w : Wave) (p : Split) : (w.advance p).a.mx = w.a.mx := rfl
@[simp] theorem Wave.advance_a_ns (w : Wave) (p : Split) : (w.advance p).a.ns = w.a.ns := rfl
@[simp] theorem Wave.advance_a_sp (w : Wave) (p : Split) : (w.advance p).a.sp = w.a.sp := rfl
@[simp] theorem Wave.advance_a_mxbase (w : Wave) (p : Split) : (w.advance p).a.mxbase = w.a.mxbase := rfl
@[simp] theorem Wave.advance_a_mxplane (w : Wave) (p : Split) : (w.advance p).a.mxplane = w.a.mxplane := rfl
@[simp] theorem Wave.advance_a_seedlo (w : Wave) (p : Split) : (w.advance p).a.seedlo = w.a.seedlo := rfl
@[simp] theorem Wave.advance_a_seedhi (w : Wave) (p : Split) : (w.advance p).a.seedhi = w.a.seedhi := rfl
@[simp] theorem Wave.advance_a_retired (w : Wave) (p : Split) : (w.advance p).a.retired = w.a.retired + 1 := rfl
@[simp] theorem Wave.advance_a_turn (w : Wave) (p : Split) : (w.advance p).a.turn = p.lanes.lowest w.W := rfl
@[simp] theorem Wave.advance_a_spill (w : Wave) (p : Split) : (w.advance p).a.spill = w.a.spill := rfl
@[simp] theorem Wave.advance_sempty (w : Wave) (p : Split) : (w.advance p).sempty = w.sempty := rfl
@[simp] theorem Wave.advance_hregs (w : Wave) (p : Split) : (w.advance p).hregs = w.hregs := rfl
@[simp] theorem Wave.advance_hshadow (w : Wave) (p : Split) : (w.advance p).hshadow = w.hshadow := rfl
@[simp] theorem Wave.advance_trapcause (w : Wave) (p : Split) : (w.advance p).trapcause = w.trapcause := rfl
@[simp] theorem Wave.advance_trappc (w : Wave) (p : Split) : (w.advance p).trappc = w.trappc := rfl
@[simp] theorem Wave.advance_trapaddr (w : Wave) (p : Split) : (w.advance p).trapaddr = w.trapaddr := rfl
@[simp] theorem Wave.advance_trapmask (w : Wave) (p : Split) : (w.advance p).trapmask = w.trapmask := rfl
@[simp] theorem Wave.advance_ops (w : Wave) (p : Split) : (w.advance p).ops = w.ops := rfl
@[simp] theorem Wave.advance_port (w : Wave) (p : Split) : (w.advance p).port = w.port := rfl
@[simp] theorem Wave.advance_seq (w : Wave) (p : Split) : (w.advance p).seq = w.seq := rfl
@[simp] theorem Wave.advance_issued (w : Wave) (p : Split) : (w.advance p).issued = w.issued := rfl
@[simp] theorem Wave.advance_latch (w : Wave) (p : Split) : (w.advance p).latch = w.latch := rfl
@[simp] theorem Wave.advance_latchS (w : Wave) (p : Split) : (w.advance p).latchS = w.latchS := rfl
@[simp] theorem Wave.advance_engineFault (w : Wave) (p : Split) : (w.advance p).engineFault = w.engineFault := rfl
@[simp] theorem Wave.advance_matFault (w : Wave) (p : Split) : (w.advance p).matFault = w.matFault := rfl
@[simp] theorem Wave.advance_drained (w : Wave) (p : Split) : (w.advance p).drained = w.drained := rfl
@[simp] theorem Wave.advance_checkpoint (w : Wave) (p : Split) : (w.advance p).checkpoint = w.checkpoint := rfl
@[simp] theorem Wave.advance_failures (w : Wave) (p : Split) : (w.advance p).failures = w.failures := rfl
@[simp] theorem Wave.advance_frame (w : Wave) (p : Split) : (w.advance p).frame = w.frame := rfl
@[simp] theorem Wave.advance_preoff (w : Wave) (p : Split) : (w.advance p).preoff = w.preoff := rfl
@[simp] theorem Wave.advance_demand (w : Wave) (p : Split) : (w.advance p).demand = w.demand := rfl
@[simp] theorem Wave.advance_waveTrap (w : Wave) (p : Split) : (w.advance p).waveTrap = w.waveTrap := rfl
@[simp] theorem Wave.advance_native (w : Wave) (p : Split) : (w.advance p).native = w.native := rfl
@[simp] theorem Wave.advance_visitEnd (w : Wave) (p : Split) : (w.advance p).visitEnd = w.visitEnd := rfl
@[simp] theorem Wave.advance_visiting (w : Wave) (p : Split) : (w.advance p).visiting = w.visiting := rfl
@[simp] theorem Wave.advance_checkpointDue (w : Wave) (p : Split) : (w.advance p).checkpointDue = w.checkpointDue := rfl
@[simp] theorem Wave.advance_lineReads (w : Wave) (p : Split) : (w.advance p).lineReads = w.lineReads := rfl

@[simp] theorem Wave.retire_key (w : Wave) (p : Split) : (w.retire p).key = w.key := rfl
@[simp] theorem Wave.retire_launch (w : Wave) (p : Split) : (w.retire p).launch = w.launch := rfl
@[simp] theorem Wave.retire_crew (w : Wave) (p : Split) : (w.retire p).crew = w.crew := rfl
@[simp] theorem Wave.retire_ordinal (w : Wave) (p : Split) : (w.retire p).ordinal = w.ordinal := rfl
@[simp] theorem Wave.retire_kern (w : Wave) (p : Split) : (w.retire p).kern = w.kern := rfl
@[simp] theorem Wave.retire_core (w : Wave) (p : Split) : (w.retire p).core = w.core := rfl
@[simp] theorem Wave.retire_partition (w : Wave) (p : Split) : (w.retire p).partition = w.partition := rfl
@[simp] theorem Wave.retire_slot (w : Wave) (p : Split) : (w.retire p).slot = w.slot := rfl
@[simp] theorem Wave.retire_created (w : Wave) (p : Split) : (w.retire p).created = w.created := rfl
@[simp] theorem Wave.retire_status (w : Wave) (p : Split) : (w.retire p).status = w.status := rfl
@[simp] theorem Wave.retire_a_splits (w : Wave) (p : Split) : (w.retire p).a.splits = w.a.splits := rfl
@[simp] theorem Wave.retire_a_entries (w : Wave) (p : Split) : (w.retire p).a.entries = w.a.entries := rfl
@[simp] theorem Wave.retire_a_live (w : Wave) (p : Split) : (w.retire p).a.live = w.a.live := rfl
@[simp] theorem Wave.retire_a_drain (w : Wave) (p : Split) : (w.retire p).a.drain = w.a.drain := rfl
@[simp] theorem Wave.retire_a_fresh (w : Wave) (p : Split) : (w.retire p).a.fresh = w.a.fresh := rfl
@[simp] theorem Wave.retire_a_lanes (w : Wave) (p : Split) : (w.retire p).a.lanes = w.a.lanes := rfl
@[simp] theorem Wave.retire_a_vregs (w : Wave) (p : Split) : (w.retire p).a.vregs = w.a.vregs := rfl
@[simp] theorem Wave.retire_a_preds (w : Wave) (p : Split) : (w.retire p).a.preds = w.a.preds := rfl
@[simp] theorem Wave.retire_a_sregs (w : Wave) (p : Split) : (w.retire p).a.sregs = w.a.sregs := rfl
@[simp] theorem Wave.retire_a_sshadow (w : Wave) (p : Split) : (w.retire p).a.sshadow = w.a.sshadow := rfl
@[simp] theorem Wave.retire_a_tiles (w : Wave) (p : Split) : (w.retire p).a.tiles = w.a.tiles := rfl
@[simp] theorem Wave.retire_a_twins (w : Wave) (p : Split) : (w.retire p).a.twins = w.a.twins := rfl
@[simp] theorem Wave.retire_a_mr (w : Wave) (p : Split) : (w.retire p).a.mr = w.a.mr := rfl
@[simp] theorem Wave.retire_a_mx (w : Wave) (p : Split) : (w.retire p).a.mx = w.a.mx := rfl
@[simp] theorem Wave.retire_a_ns (w : Wave) (p : Split) : (w.retire p).a.ns = w.a.ns := rfl
@[simp] theorem Wave.retire_a_sp (w : Wave) (p : Split) : (w.retire p).a.sp = w.a.sp := rfl
@[simp] theorem Wave.retire_a_mxbase (w : Wave) (p : Split) : (w.retire p).a.mxbase = w.a.mxbase := rfl
@[simp] theorem Wave.retire_a_mxplane (w : Wave) (p : Split) : (w.retire p).a.mxplane = w.a.mxplane := rfl
@[simp] theorem Wave.retire_a_seedlo (w : Wave) (p : Split) : (w.retire p).a.seedlo = w.a.seedlo := rfl
@[simp] theorem Wave.retire_a_seedhi (w : Wave) (p : Split) : (w.retire p).a.seedhi = w.a.seedhi := rfl
@[simp] theorem Wave.retire_a_retired (w : Wave) (p : Split) : (w.retire p).a.retired = w.a.retired + 1 := rfl
@[simp] theorem Wave.retire_a_turn (w : Wave) (p : Split) : (w.retire p).a.turn = p.lanes.lowest w.W := rfl
@[simp] theorem Wave.retire_a_spill (w : Wave) (p : Split) : (w.retire p).a.spill = w.a.spill := rfl
@[simp] theorem Wave.retire_sempty (w : Wave) (p : Split) : (w.retire p).sempty = w.sempty := rfl
@[simp] theorem Wave.retire_hregs (w : Wave) (p : Split) : (w.retire p).hregs = w.hregs := rfl
@[simp] theorem Wave.retire_hshadow (w : Wave) (p : Split) : (w.retire p).hshadow = w.hshadow := rfl
@[simp] theorem Wave.retire_trapcause (w : Wave) (p : Split) : (w.retire p).trapcause = w.trapcause := rfl
@[simp] theorem Wave.retire_trappc (w : Wave) (p : Split) : (w.retire p).trappc = w.trappc := rfl
@[simp] theorem Wave.retire_trapaddr (w : Wave) (p : Split) : (w.retire p).trapaddr = w.trapaddr := rfl
@[simp] theorem Wave.retire_trapmask (w : Wave) (p : Split) : (w.retire p).trapmask = w.trapmask := rfl
@[simp] theorem Wave.retire_ops (w : Wave) (p : Split) : (w.retire p).ops = w.ops := rfl
@[simp] theorem Wave.retire_port (w : Wave) (p : Split) : (w.retire p).port = w.port := rfl
@[simp] theorem Wave.retire_seq (w : Wave) (p : Split) : (w.retire p).seq = w.seq := rfl
@[simp] theorem Wave.retire_issued (w : Wave) (p : Split) : (w.retire p).issued = w.issued := rfl
@[simp] theorem Wave.retire_latch (w : Wave) (p : Split) : (w.retire p).latch = w.latch := rfl
@[simp] theorem Wave.retire_latchS (w : Wave) (p : Split) : (w.retire p).latchS = w.latchS := rfl
@[simp] theorem Wave.retire_engineFault (w : Wave) (p : Split) : (w.retire p).engineFault = w.engineFault := rfl
@[simp] theorem Wave.retire_matFault (w : Wave) (p : Split) : (w.retire p).matFault = w.matFault := rfl
@[simp] theorem Wave.retire_drained (w : Wave) (p : Split) : (w.retire p).drained = w.drained := rfl
@[simp] theorem Wave.retire_checkpoint (w : Wave) (p : Split) : (w.retire p).checkpoint = w.checkpoint := rfl
@[simp] theorem Wave.retire_failures (w : Wave) (p : Split) : (w.retire p).failures = w.failures := rfl
@[simp] theorem Wave.retire_frame (w : Wave) (p : Split) : (w.retire p).frame = w.frame := rfl
@[simp] theorem Wave.retire_preoff (w : Wave) (p : Split) : (w.retire p).preoff = w.preoff := rfl
@[simp] theorem Wave.retire_demand (w : Wave) (p : Split) : (w.retire p).demand = w.demand := rfl
@[simp] theorem Wave.retire_waveTrap (w : Wave) (p : Split) : (w.retire p).waveTrap = w.waveTrap := rfl
@[simp] theorem Wave.retire_native (w : Wave) (p : Split) : (w.retire p).native = w.native := rfl
@[simp] theorem Wave.retire_visitEnd (w : Wave) (p : Split) : (w.retire p).visitEnd = w.visitEnd := rfl
@[simp] theorem Wave.retire_visiting (w : Wave) (p : Split) : (w.retire p).visiting = w.visiting := rfl
@[simp] theorem Wave.retire_checkpointDue (w : Wave) (p : Split) : (w.retire p).checkpointDue = w.checkpointDue := rfl
@[simp] theorem Wave.retire_lineReads (w : Wave) (p : Split) : (w.retire p).lineReads = w.lineReads := rfl

@[simp] theorem Wave.flags_key (w : Wave) (f : BitVec 7) : (w.flags f).key = w.key := rfl
@[simp] theorem Wave.flags_launch (w : Wave) (f : BitVec 7) : (w.flags f).launch = w.launch := rfl
@[simp] theorem Wave.flags_crew (w : Wave) (f : BitVec 7) : (w.flags f).crew = w.crew := rfl
@[simp] theorem Wave.flags_ordinal (w : Wave) (f : BitVec 7) : (w.flags f).ordinal = w.ordinal := rfl
@[simp] theorem Wave.flags_kern (w : Wave) (f : BitVec 7) : (w.flags f).kern = w.kern := rfl
@[simp] theorem Wave.flags_core (w : Wave) (f : BitVec 7) : (w.flags f).core = w.core := rfl
@[simp] theorem Wave.flags_partition (w : Wave) (f : BitVec 7) : (w.flags f).partition = w.partition := rfl
@[simp] theorem Wave.flags_slot (w : Wave) (f : BitVec 7) : (w.flags f).slot = w.slot := rfl
@[simp] theorem Wave.flags_created (w : Wave) (f : BitVec 7) : (w.flags f).created = w.created := rfl
@[simp] theorem Wave.flags_status (w : Wave) (f : BitVec 7) : (w.flags f).status = w.status := rfl
@[simp] theorem Wave.flags_a_splits (w : Wave) (f : BitVec 7) : (w.flags f).a.splits = w.a.splits := rfl
@[simp] theorem Wave.flags_a_entries (w : Wave) (f : BitVec 7) : (w.flags f).a.entries = w.a.entries := rfl
@[simp] theorem Wave.flags_a_live (w : Wave) (f : BitVec 7) : (w.flags f).a.live = w.a.live := rfl
@[simp] theorem Wave.flags_a_drain (w : Wave) (f : BitVec 7) : (w.flags f).a.drain = w.a.drain := rfl
@[simp] theorem Wave.flags_a_fresh (w : Wave) (f : BitVec 7) : (w.flags f).a.fresh = w.a.fresh := rfl
@[simp] theorem Wave.flags_a_lanes (w : Wave) (f : BitVec 7) : (w.flags f).a.lanes = w.a.lanes := rfl
@[simp] theorem Wave.flags_a_vregs (w : Wave) (f : BitVec 7) : (w.flags f).a.vregs = w.a.vregs := rfl
@[simp] theorem Wave.flags_a_preds (w : Wave) (f : BitVec 7) : (w.flags f).a.preds = w.a.preds := rfl
@[simp] theorem Wave.flags_a_sregs (w : Wave) (f : BitVec 7) : (w.flags f).a.sregs = w.a.sregs := rfl
@[simp] theorem Wave.flags_a_sshadow (w : Wave) (f : BitVec 7) : (w.flags f).a.sshadow = w.a.sshadow := rfl
@[simp] theorem Wave.flags_a_tiles (w : Wave) (f : BitVec 7) : (w.flags f).a.tiles = w.a.tiles := rfl
@[simp] theorem Wave.flags_a_twins (w : Wave) (f : BitVec 7) : (w.flags f).a.twins = w.a.twins := rfl
@[simp] theorem Wave.flags_a_mr (w : Wave) (f : BitVec 7) : (w.flags f).a.mr = w.a.mr := rfl
@[simp] theorem Wave.flags_a_mx (w : Wave) (f : BitVec 7) : (w.flags f).a.mx = w.a.mx := rfl
@[simp] theorem Wave.flags_a_ns (w : Wave) (f : BitVec 7) : (w.flags f).a.ns = w.a.ns ||| f := rfl
@[simp] theorem Wave.flags_a_sp (w : Wave) (f : BitVec 7) : (w.flags f).a.sp = w.a.sp := rfl
@[simp] theorem Wave.flags_a_mxbase (w : Wave) (f : BitVec 7) : (w.flags f).a.mxbase = w.a.mxbase := rfl
@[simp] theorem Wave.flags_a_mxplane (w : Wave) (f : BitVec 7) : (w.flags f).a.mxplane = w.a.mxplane := rfl
@[simp] theorem Wave.flags_a_seedlo (w : Wave) (f : BitVec 7) : (w.flags f).a.seedlo = w.a.seedlo := rfl
@[simp] theorem Wave.flags_a_seedhi (w : Wave) (f : BitVec 7) : (w.flags f).a.seedhi = w.a.seedhi := rfl
@[simp] theorem Wave.flags_a_retired (w : Wave) (f : BitVec 7) : (w.flags f).a.retired = w.a.retired := rfl
@[simp] theorem Wave.flags_a_turn (w : Wave) (f : BitVec 7) : (w.flags f).a.turn = w.a.turn := rfl
@[simp] theorem Wave.flags_a_spill (w : Wave) (f : BitVec 7) : (w.flags f).a.spill = w.a.spill := rfl
@[simp] theorem Wave.flags_sempty (w : Wave) (f : BitVec 7) : (w.flags f).sempty = w.sempty := rfl
@[simp] theorem Wave.flags_hregs (w : Wave) (f : BitVec 7) : (w.flags f).hregs = w.hregs := rfl
@[simp] theorem Wave.flags_hshadow (w : Wave) (f : BitVec 7) : (w.flags f).hshadow = w.hshadow := rfl
@[simp] theorem Wave.flags_trapcause (w : Wave) (f : BitVec 7) : (w.flags f).trapcause = w.trapcause := rfl
@[simp] theorem Wave.flags_trappc (w : Wave) (f : BitVec 7) : (w.flags f).trappc = w.trappc := rfl
@[simp] theorem Wave.flags_trapaddr (w : Wave) (f : BitVec 7) : (w.flags f).trapaddr = w.trapaddr := rfl
@[simp] theorem Wave.flags_trapmask (w : Wave) (f : BitVec 7) : (w.flags f).trapmask = w.trapmask := rfl
@[simp] theorem Wave.flags_ops (w : Wave) (f : BitVec 7) : (w.flags f).ops = w.ops := rfl
@[simp] theorem Wave.flags_port (w : Wave) (f : BitVec 7) : (w.flags f).port = w.port := rfl
@[simp] theorem Wave.flags_seq (w : Wave) (f : BitVec 7) : (w.flags f).seq = w.seq := rfl
@[simp] theorem Wave.flags_issued (w : Wave) (f : BitVec 7) : (w.flags f).issued = w.issued := rfl
@[simp] theorem Wave.flags_latch (w : Wave) (f : BitVec 7) : (w.flags f).latch = w.latch := rfl
@[simp] theorem Wave.flags_latchS (w : Wave) (f : BitVec 7) : (w.flags f).latchS = w.latchS := rfl
@[simp] theorem Wave.flags_engineFault (w : Wave) (f : BitVec 7) : (w.flags f).engineFault = w.engineFault := rfl
@[simp] theorem Wave.flags_matFault (w : Wave) (f : BitVec 7) : (w.flags f).matFault = w.matFault := rfl
@[simp] theorem Wave.flags_drained (w : Wave) (f : BitVec 7) : (w.flags f).drained = w.drained := rfl
@[simp] theorem Wave.flags_checkpoint (w : Wave) (f : BitVec 7) : (w.flags f).checkpoint = w.checkpoint := rfl
@[simp] theorem Wave.flags_failures (w : Wave) (f : BitVec 7) : (w.flags f).failures = w.failures := rfl
@[simp] theorem Wave.flags_frame (w : Wave) (f : BitVec 7) : (w.flags f).frame = w.frame := rfl
@[simp] theorem Wave.flags_preoff (w : Wave) (f : BitVec 7) : (w.flags f).preoff = w.preoff := rfl
@[simp] theorem Wave.flags_demand (w : Wave) (f : BitVec 7) : (w.flags f).demand = w.demand := rfl
@[simp] theorem Wave.flags_waveTrap (w : Wave) (f : BitVec 7) : (w.flags f).waveTrap = w.waveTrap := rfl
@[simp] theorem Wave.flags_native (w : Wave) (f : BitVec 7) : (w.flags f).native = w.native := rfl
@[simp] theorem Wave.flags_visitEnd (w : Wave) (f : BitVec 7) : (w.flags f).visitEnd = w.visitEnd := rfl
@[simp] theorem Wave.flags_visiting (w : Wave) (f : BitVec 7) : (w.flags f).visiting = w.visiting := rfl
@[simp] theorem Wave.flags_checkpointDue (w : Wave) (f : BitVec 7) : (w.flags f).checkpointDue = w.checkpointDue := rfl
@[simp] theorem Wave.flags_lineReads (w : Wave) (f : BitVec 7) : (w.flags f).lineReads = w.lineReads := rfl

@[simp] theorem Wave.onV_key (w : Wave) (n : Nat) (f : VReg → VReg) : (w.onV n f).key = w.key := rfl
@[simp] theorem Wave.onV_launch (w : Wave) (n : Nat) (f : VReg → VReg) : (w.onV n f).launch = w.launch := rfl
@[simp] theorem Wave.onV_crew (w : Wave) (n : Nat) (f : VReg → VReg) : (w.onV n f).crew = w.crew := rfl
@[simp] theorem Wave.onV_ordinal (w : Wave) (n : Nat) (f : VReg → VReg) : (w.onV n f).ordinal = w.ordinal := rfl
@[simp] theorem Wave.onV_kern (w : Wave) (n : Nat) (f : VReg → VReg) : (w.onV n f).kern = w.kern := rfl
@[simp] theorem Wave.onV_core (w : Wave) (n : Nat) (f : VReg → VReg) : (w.onV n f).core = w.core := rfl
@[simp] theorem Wave.onV_partition (w : Wave) (n : Nat) (f : VReg → VReg) : (w.onV n f).partition = w.partition := rfl
@[simp] theorem Wave.onV_slot (w : Wave) (n : Nat) (f : VReg → VReg) : (w.onV n f).slot = w.slot := rfl
@[simp] theorem Wave.onV_created (w : Wave) (n : Nat) (f : VReg → VReg) : (w.onV n f).created = w.created := rfl
@[simp] theorem Wave.onV_status (w : Wave) (n : Nat) (f : VReg → VReg) : (w.onV n f).status = w.status := rfl
@[simp] theorem Wave.onV_a_splits (w : Wave) (n : Nat) (f : VReg → VReg) : (w.onV n f).a.splits = w.a.splits := rfl
@[simp] theorem Wave.onV_a_entries (w : Wave) (n : Nat) (f : VReg → VReg) : (w.onV n f).a.entries = w.a.entries := rfl
@[simp] theorem Wave.onV_a_live (w : Wave) (n : Nat) (f : VReg → VReg) : (w.onV n f).a.live = w.a.live := rfl
@[simp] theorem Wave.onV_a_drain (w : Wave) (n : Nat) (f : VReg → VReg) : (w.onV n f).a.drain = w.a.drain := rfl
@[simp] theorem Wave.onV_a_fresh (w : Wave) (n : Nat) (f : VReg → VReg) : (w.onV n f).a.fresh = w.a.fresh := rfl
@[simp] theorem Wave.onV_a_lanes (w : Wave) (n : Nat) (f : VReg → VReg) : (w.onV n f).a.lanes = w.a.lanes := rfl
@[simp] theorem Wave.onV_a_vregs (w : Wave) (n : Nat) (f : VReg → VReg) : (w.onV n f).a.vregs = modifyAt w.a.vregs n f := rfl
@[simp] theorem Wave.onV_a_preds (w : Wave) (n : Nat) (f : VReg → VReg) : (w.onV n f).a.preds = w.a.preds := rfl
@[simp] theorem Wave.onV_a_sregs (w : Wave) (n : Nat) (f : VReg → VReg) : (w.onV n f).a.sregs = w.a.sregs := rfl
@[simp] theorem Wave.onV_a_sshadow (w : Wave) (n : Nat) (f : VReg → VReg) : (w.onV n f).a.sshadow = w.a.sshadow := rfl
@[simp] theorem Wave.onV_a_tiles (w : Wave) (n : Nat) (f : VReg → VReg) : (w.onV n f).a.tiles = w.a.tiles := rfl
@[simp] theorem Wave.onV_a_twins (w : Wave) (n : Nat) (f : VReg → VReg) : (w.onV n f).a.twins = w.a.twins := rfl
@[simp] theorem Wave.onV_a_mr (w : Wave) (n : Nat) (f : VReg → VReg) : (w.onV n f).a.mr = w.a.mr := rfl
@[simp] theorem Wave.onV_a_mx (w : Wave) (n : Nat) (f : VReg → VReg) : (w.onV n f).a.mx = w.a.mx := rfl
@[simp] theorem Wave.onV_a_ns (w : Wave) (n : Nat) (f : VReg → VReg) : (w.onV n f).a.ns = w.a.ns := rfl
@[simp] theorem Wave.onV_a_sp (w : Wave) (n : Nat) (f : VReg → VReg) : (w.onV n f).a.sp = w.a.sp := rfl
@[simp] theorem Wave.onV_a_mxbase (w : Wave) (n : Nat) (f : VReg → VReg) : (w.onV n f).a.mxbase = w.a.mxbase := rfl
@[simp] theorem Wave.onV_a_mxplane (w : Wave) (n : Nat) (f : VReg → VReg) : (w.onV n f).a.mxplane = w.a.mxplane := rfl
@[simp] theorem Wave.onV_a_seedlo (w : Wave) (n : Nat) (f : VReg → VReg) : (w.onV n f).a.seedlo = w.a.seedlo := rfl
@[simp] theorem Wave.onV_a_seedhi (w : Wave) (n : Nat) (f : VReg → VReg) : (w.onV n f).a.seedhi = w.a.seedhi := rfl
@[simp] theorem Wave.onV_a_retired (w : Wave) (n : Nat) (f : VReg → VReg) : (w.onV n f).a.retired = w.a.retired := rfl
@[simp] theorem Wave.onV_a_turn (w : Wave) (n : Nat) (f : VReg → VReg) : (w.onV n f).a.turn = w.a.turn := rfl
@[simp] theorem Wave.onV_a_spill (w : Wave) (n : Nat) (f : VReg → VReg) : (w.onV n f).a.spill = w.a.spill := rfl
@[simp] theorem Wave.onV_sempty (w : Wave) (n : Nat) (f : VReg → VReg) : (w.onV n f).sempty = w.sempty := rfl
@[simp] theorem Wave.onV_hregs (w : Wave) (n : Nat) (f : VReg → VReg) : (w.onV n f).hregs = w.hregs := rfl
@[simp] theorem Wave.onV_hshadow (w : Wave) (n : Nat) (f : VReg → VReg) : (w.onV n f).hshadow = w.hshadow := rfl
@[simp] theorem Wave.onV_trapcause (w : Wave) (n : Nat) (f : VReg → VReg) : (w.onV n f).trapcause = w.trapcause := rfl
@[simp] theorem Wave.onV_trappc (w : Wave) (n : Nat) (f : VReg → VReg) : (w.onV n f).trappc = w.trappc := rfl
@[simp] theorem Wave.onV_trapaddr (w : Wave) (n : Nat) (f : VReg → VReg) : (w.onV n f).trapaddr = w.trapaddr := rfl
@[simp] theorem Wave.onV_trapmask (w : Wave) (n : Nat) (f : VReg → VReg) : (w.onV n f).trapmask = w.trapmask := rfl
@[simp] theorem Wave.onV_ops (w : Wave) (n : Nat) (f : VReg → VReg) : (w.onV n f).ops = w.ops := rfl
@[simp] theorem Wave.onV_port (w : Wave) (n : Nat) (f : VReg → VReg) : (w.onV n f).port = w.port := rfl
@[simp] theorem Wave.onV_seq (w : Wave) (n : Nat) (f : VReg → VReg) : (w.onV n f).seq = w.seq := rfl
@[simp] theorem Wave.onV_issued (w : Wave) (n : Nat) (f : VReg → VReg) : (w.onV n f).issued = w.issued := rfl
@[simp] theorem Wave.onV_latch (w : Wave) (n : Nat) (f : VReg → VReg) : (w.onV n f).latch = w.latch := rfl
@[simp] theorem Wave.onV_latchS (w : Wave) (n : Nat) (f : VReg → VReg) : (w.onV n f).latchS = w.latchS := rfl
@[simp] theorem Wave.onV_engineFault (w : Wave) (n : Nat) (f : VReg → VReg) : (w.onV n f).engineFault = w.engineFault := rfl
@[simp] theorem Wave.onV_matFault (w : Wave) (n : Nat) (f : VReg → VReg) : (w.onV n f).matFault = w.matFault := rfl
@[simp] theorem Wave.onV_drained (w : Wave) (n : Nat) (f : VReg → VReg) : (w.onV n f).drained = w.drained := rfl
@[simp] theorem Wave.onV_checkpoint (w : Wave) (n : Nat) (f : VReg → VReg) : (w.onV n f).checkpoint = w.checkpoint := rfl
@[simp] theorem Wave.onV_failures (w : Wave) (n : Nat) (f : VReg → VReg) : (w.onV n f).failures = w.failures := rfl
@[simp] theorem Wave.onV_frame (w : Wave) (n : Nat) (f : VReg → VReg) : (w.onV n f).frame = w.frame := rfl
@[simp] theorem Wave.onV_preoff (w : Wave) (n : Nat) (f : VReg → VReg) : (w.onV n f).preoff = w.preoff := rfl
@[simp] theorem Wave.onV_demand (w : Wave) (n : Nat) (f : VReg → VReg) : (w.onV n f).demand = w.demand := rfl
@[simp] theorem Wave.onV_waveTrap (w : Wave) (n : Nat) (f : VReg → VReg) : (w.onV n f).waveTrap = w.waveTrap := rfl
@[simp] theorem Wave.onV_native (w : Wave) (n : Nat) (f : VReg → VReg) : (w.onV n f).native = w.native := rfl
@[simp] theorem Wave.onV_visitEnd (w : Wave) (n : Nat) (f : VReg → VReg) : (w.onV n f).visitEnd = w.visitEnd := rfl
@[simp] theorem Wave.onV_visiting (w : Wave) (n : Nat) (f : VReg → VReg) : (w.onV n f).visiting = w.visiting := rfl
@[simp] theorem Wave.onV_checkpointDue (w : Wave) (n : Nat) (f : VReg → VReg) : (w.onV n f).checkpointDue = w.checkpointDue := rfl
@[simp] theorem Wave.onV_lineReads (w : Wave) (n : Nat) (f : VReg → VReg) : (w.onV n f).lineReads = w.lineReads := rfl

@[simp] theorem Wave.pushPort_key (w : Wave) (p : Split) (job : PortJob) : (w.pushPort p job).key = w.key := rfl
@[simp] theorem Wave.pushPort_launch (w : Wave) (p : Split) (job : PortJob) : (w.pushPort p job).launch = w.launch := rfl
@[simp] theorem Wave.pushPort_crew (w : Wave) (p : Split) (job : PortJob) : (w.pushPort p job).crew = w.crew := rfl
@[simp] theorem Wave.pushPort_ordinal (w : Wave) (p : Split) (job : PortJob) : (w.pushPort p job).ordinal = w.ordinal := rfl
@[simp] theorem Wave.pushPort_kern (w : Wave) (p : Split) (job : PortJob) : (w.pushPort p job).kern = w.kern := rfl
@[simp] theorem Wave.pushPort_core (w : Wave) (p : Split) (job : PortJob) : (w.pushPort p job).core = w.core := rfl
@[simp] theorem Wave.pushPort_partition (w : Wave) (p : Split) (job : PortJob) : (w.pushPort p job).partition = w.partition := rfl
@[simp] theorem Wave.pushPort_slot (w : Wave) (p : Split) (job : PortJob) : (w.pushPort p job).slot = w.slot := rfl
@[simp] theorem Wave.pushPort_created (w : Wave) (p : Split) (job : PortJob) : (w.pushPort p job).created = w.created := rfl
@[simp] theorem Wave.pushPort_status (w : Wave) (p : Split) (job : PortJob) : (w.pushPort p job).status = w.status := rfl
@[simp] theorem Wave.pushPort_a_splits (w : Wave) (p : Split) (job : PortJob) : (w.pushPort p job).a.splits = w.a.splits := rfl
@[simp] theorem Wave.pushPort_a_entries (w : Wave) (p : Split) (job : PortJob) : (w.pushPort p job).a.entries = w.a.entries := rfl
@[simp] theorem Wave.pushPort_a_live (w : Wave) (p : Split) (job : PortJob) : (w.pushPort p job).a.live = w.a.live := rfl
@[simp] theorem Wave.pushPort_a_drain (w : Wave) (p : Split) (job : PortJob) : (w.pushPort p job).a.drain = w.a.drain := rfl
@[simp] theorem Wave.pushPort_a_fresh (w : Wave) (p : Split) (job : PortJob) : (w.pushPort p job).a.fresh = w.a.fresh := rfl
@[simp] theorem Wave.pushPort_a_lanes (w : Wave) (p : Split) (job : PortJob) : (w.pushPort p job).a.lanes = w.a.lanes := rfl
@[simp] theorem Wave.pushPort_a_vregs (w : Wave) (p : Split) (job : PortJob) : (w.pushPort p job).a.vregs = w.a.vregs := rfl
@[simp] theorem Wave.pushPort_a_preds (w : Wave) (p : Split) (job : PortJob) : (w.pushPort p job).a.preds = w.a.preds := rfl
@[simp] theorem Wave.pushPort_a_sregs (w : Wave) (p : Split) (job : PortJob) : (w.pushPort p job).a.sregs = w.a.sregs := rfl
@[simp] theorem Wave.pushPort_a_sshadow (w : Wave) (p : Split) (job : PortJob) : (w.pushPort p job).a.sshadow = w.a.sshadow := rfl
@[simp] theorem Wave.pushPort_a_tiles (w : Wave) (p : Split) (job : PortJob) : (w.pushPort p job).a.tiles = w.a.tiles := rfl
@[simp] theorem Wave.pushPort_a_twins (w : Wave) (p : Split) (job : PortJob) : (w.pushPort p job).a.twins = w.a.twins := rfl
@[simp] theorem Wave.pushPort_a_mr (w : Wave) (p : Split) (job : PortJob) : (w.pushPort p job).a.mr = w.a.mr := rfl
@[simp] theorem Wave.pushPort_a_mx (w : Wave) (p : Split) (job : PortJob) : (w.pushPort p job).a.mx = w.a.mx := rfl
@[simp] theorem Wave.pushPort_a_ns (w : Wave) (p : Split) (job : PortJob) : (w.pushPort p job).a.ns = w.a.ns := rfl
@[simp] theorem Wave.pushPort_a_sp (w : Wave) (p : Split) (job : PortJob) : (w.pushPort p job).a.sp = w.a.sp := rfl
@[simp] theorem Wave.pushPort_a_mxbase (w : Wave) (p : Split) (job : PortJob) : (w.pushPort p job).a.mxbase = w.a.mxbase := rfl
@[simp] theorem Wave.pushPort_a_mxplane (w : Wave) (p : Split) (job : PortJob) : (w.pushPort p job).a.mxplane = w.a.mxplane := rfl
@[simp] theorem Wave.pushPort_a_seedlo (w : Wave) (p : Split) (job : PortJob) : (w.pushPort p job).a.seedlo = w.a.seedlo := rfl
@[simp] theorem Wave.pushPort_a_seedhi (w : Wave) (p : Split) (job : PortJob) : (w.pushPort p job).a.seedhi = w.a.seedhi := rfl
@[simp] theorem Wave.pushPort_a_retired (w : Wave) (p : Split) (job : PortJob) : (w.pushPort p job).a.retired = w.a.retired := rfl
@[simp] theorem Wave.pushPort_a_turn (w : Wave) (p : Split) (job : PortJob) : (w.pushPort p job).a.turn = w.a.turn := rfl
@[simp] theorem Wave.pushPort_a_spill (w : Wave) (p : Split) (job : PortJob) : (w.pushPort p job).a.spill = w.a.spill := rfl
@[simp] theorem Wave.pushPort_sempty (w : Wave) (p : Split) (job : PortJob) : (w.pushPort p job).sempty = w.sempty := rfl
@[simp] theorem Wave.pushPort_hregs (w : Wave) (p : Split) (job : PortJob) : (w.pushPort p job).hregs = w.hregs := rfl
@[simp] theorem Wave.pushPort_hshadow (w : Wave) (p : Split) (job : PortJob) : (w.pushPort p job).hshadow = w.hshadow := rfl
@[simp] theorem Wave.pushPort_trapcause (w : Wave) (p : Split) (job : PortJob) : (w.pushPort p job).trapcause = w.trapcause := rfl
@[simp] theorem Wave.pushPort_trappc (w : Wave) (p : Split) (job : PortJob) : (w.pushPort p job).trappc = w.trappc := rfl
@[simp] theorem Wave.pushPort_trapaddr (w : Wave) (p : Split) (job : PortJob) : (w.pushPort p job).trapaddr = w.trapaddr := rfl
@[simp] theorem Wave.pushPort_trapmask (w : Wave) (p : Split) (job : PortJob) : (w.pushPort p job).trapmask = w.trapmask := rfl
@[simp] theorem Wave.pushPort_ops (w : Wave) (p : Split) (job : PortJob) : (w.pushPort p job).ops = w.ops := rfl
@[simp] theorem Wave.pushPort_issued (w : Wave) (p : Split) (job : PortJob) : (w.pushPort p job).issued = w.issued := rfl
@[simp] theorem Wave.pushPort_latch (w : Wave) (p : Split) (job : PortJob) : (w.pushPort p job).latch = w.latch := rfl
@[simp] theorem Wave.pushPort_latchS (w : Wave) (p : Split) (job : PortJob) : (w.pushPort p job).latchS = w.latchS := rfl
@[simp] theorem Wave.pushPort_engineFault (w : Wave) (p : Split) (job : PortJob) : (w.pushPort p job).engineFault = w.engineFault := rfl
@[simp] theorem Wave.pushPort_matFault (w : Wave) (p : Split) (job : PortJob) : (w.pushPort p job).matFault = w.matFault := rfl
@[simp] theorem Wave.pushPort_drained (w : Wave) (p : Split) (job : PortJob) : (w.pushPort p job).drained = w.drained := rfl
@[simp] theorem Wave.pushPort_checkpoint (w : Wave) (p : Split) (job : PortJob) : (w.pushPort p job).checkpoint = w.checkpoint := rfl
@[simp] theorem Wave.pushPort_failures (w : Wave) (p : Split) (job : PortJob) : (w.pushPort p job).failures = w.failures := rfl
@[simp] theorem Wave.pushPort_frame (w : Wave) (p : Split) (job : PortJob) : (w.pushPort p job).frame = w.frame := rfl
@[simp] theorem Wave.pushPort_preoff (w : Wave) (p : Split) (job : PortJob) : (w.pushPort p job).preoff = w.preoff := rfl
@[simp] theorem Wave.pushPort_demand (w : Wave) (p : Split) (job : PortJob) : (w.pushPort p job).demand = w.demand := rfl
@[simp] theorem Wave.pushPort_waveTrap (w : Wave) (p : Split) (job : PortJob) : (w.pushPort p job).waveTrap = w.waveTrap := rfl
@[simp] theorem Wave.pushPort_native (w : Wave) (p : Split) (job : PortJob) : (w.pushPort p job).native = w.native := rfl
@[simp] theorem Wave.pushPort_visitEnd (w : Wave) (p : Split) (job : PortJob) : (w.pushPort p job).visitEnd = w.visitEnd := rfl
@[simp] theorem Wave.pushPort_visiting (w : Wave) (p : Split) (job : PortJob) : (w.pushPort p job).visiting = w.visiting := rfl
@[simp] theorem Wave.pushPort_checkpointDue (w : Wave) (p : Split) (job : PortJob) : (w.pushPort p job).checkpointDue = w.checkpointDue := rfl
@[simp] theorem Wave.pushPort_lineReads (w : Wave) (p : Split) (job : PortJob) : (w.pushPort p job).lineReads = w.lineReads := rfl

@[simp] theorem Wave.onOp_key (w : Wave) (k : Nat) (f : Op → Op) : (w.onOp k f).key = w.key := rfl
@[simp] theorem Wave.onOp_launch (w : Wave) (k : Nat) (f : Op → Op) : (w.onOp k f).launch = w.launch := rfl
@[simp] theorem Wave.onOp_crew (w : Wave) (k : Nat) (f : Op → Op) : (w.onOp k f).crew = w.crew := rfl
@[simp] theorem Wave.onOp_ordinal (w : Wave) (k : Nat) (f : Op → Op) : (w.onOp k f).ordinal = w.ordinal := rfl
@[simp] theorem Wave.onOp_kern (w : Wave) (k : Nat) (f : Op → Op) : (w.onOp k f).kern = w.kern := rfl
@[simp] theorem Wave.onOp_core (w : Wave) (k : Nat) (f : Op → Op) : (w.onOp k f).core = w.core := rfl
@[simp] theorem Wave.onOp_partition (w : Wave) (k : Nat) (f : Op → Op) : (w.onOp k f).partition = w.partition := rfl
@[simp] theorem Wave.onOp_slot (w : Wave) (k : Nat) (f : Op → Op) : (w.onOp k f).slot = w.slot := rfl
@[simp] theorem Wave.onOp_created (w : Wave) (k : Nat) (f : Op → Op) : (w.onOp k f).created = w.created := rfl
@[simp] theorem Wave.onOp_status (w : Wave) (k : Nat) (f : Op → Op) : (w.onOp k f).status = w.status := rfl
@[simp] theorem Wave.onOp_a_splits (w : Wave) (k : Nat) (f : Op → Op) : (w.onOp k f).a.splits = w.a.splits := rfl
@[simp] theorem Wave.onOp_a_entries (w : Wave) (k : Nat) (f : Op → Op) : (w.onOp k f).a.entries = w.a.entries := rfl
@[simp] theorem Wave.onOp_a_live (w : Wave) (k : Nat) (f : Op → Op) : (w.onOp k f).a.live = w.a.live := rfl
@[simp] theorem Wave.onOp_a_drain (w : Wave) (k : Nat) (f : Op → Op) : (w.onOp k f).a.drain = w.a.drain := rfl
@[simp] theorem Wave.onOp_a_fresh (w : Wave) (k : Nat) (f : Op → Op) : (w.onOp k f).a.fresh = w.a.fresh := rfl
@[simp] theorem Wave.onOp_a_lanes (w : Wave) (k : Nat) (f : Op → Op) : (w.onOp k f).a.lanes = w.a.lanes := rfl
@[simp] theorem Wave.onOp_a_vregs (w : Wave) (k : Nat) (f : Op → Op) : (w.onOp k f).a.vregs = w.a.vregs := rfl
@[simp] theorem Wave.onOp_a_preds (w : Wave) (k : Nat) (f : Op → Op) : (w.onOp k f).a.preds = w.a.preds := rfl
@[simp] theorem Wave.onOp_a_sregs (w : Wave) (k : Nat) (f : Op → Op) : (w.onOp k f).a.sregs = w.a.sregs := rfl
@[simp] theorem Wave.onOp_a_sshadow (w : Wave) (k : Nat) (f : Op → Op) : (w.onOp k f).a.sshadow = w.a.sshadow := rfl
@[simp] theorem Wave.onOp_a_tiles (w : Wave) (k : Nat) (f : Op → Op) : (w.onOp k f).a.tiles = w.a.tiles := rfl
@[simp] theorem Wave.onOp_a_twins (w : Wave) (k : Nat) (f : Op → Op) : (w.onOp k f).a.twins = w.a.twins := rfl
@[simp] theorem Wave.onOp_a_mr (w : Wave) (k : Nat) (f : Op → Op) : (w.onOp k f).a.mr = w.a.mr := rfl
@[simp] theorem Wave.onOp_a_mx (w : Wave) (k : Nat) (f : Op → Op) : (w.onOp k f).a.mx = w.a.mx := rfl
@[simp] theorem Wave.onOp_a_ns (w : Wave) (k : Nat) (f : Op → Op) : (w.onOp k f).a.ns = w.a.ns := rfl
@[simp] theorem Wave.onOp_a_sp (w : Wave) (k : Nat) (f : Op → Op) : (w.onOp k f).a.sp = w.a.sp := rfl
@[simp] theorem Wave.onOp_a_mxbase (w : Wave) (k : Nat) (f : Op → Op) : (w.onOp k f).a.mxbase = w.a.mxbase := rfl
@[simp] theorem Wave.onOp_a_mxplane (w : Wave) (k : Nat) (f : Op → Op) : (w.onOp k f).a.mxplane = w.a.mxplane := rfl
@[simp] theorem Wave.onOp_a_seedlo (w : Wave) (k : Nat) (f : Op → Op) : (w.onOp k f).a.seedlo = w.a.seedlo := rfl
@[simp] theorem Wave.onOp_a_seedhi (w : Wave) (k : Nat) (f : Op → Op) : (w.onOp k f).a.seedhi = w.a.seedhi := rfl
@[simp] theorem Wave.onOp_a_retired (w : Wave) (k : Nat) (f : Op → Op) : (w.onOp k f).a.retired = w.a.retired := rfl
@[simp] theorem Wave.onOp_a_turn (w : Wave) (k : Nat) (f : Op → Op) : (w.onOp k f).a.turn = w.a.turn := rfl
@[simp] theorem Wave.onOp_a_spill (w : Wave) (k : Nat) (f : Op → Op) : (w.onOp k f).a.spill = w.a.spill := rfl
@[simp] theorem Wave.onOp_sempty (w : Wave) (k : Nat) (f : Op → Op) : (w.onOp k f).sempty = w.sempty := rfl
@[simp] theorem Wave.onOp_hregs (w : Wave) (k : Nat) (f : Op → Op) : (w.onOp k f).hregs = w.hregs := rfl
@[simp] theorem Wave.onOp_hshadow (w : Wave) (k : Nat) (f : Op → Op) : (w.onOp k f).hshadow = w.hshadow := rfl
@[simp] theorem Wave.onOp_trapcause (w : Wave) (k : Nat) (f : Op → Op) : (w.onOp k f).trapcause = w.trapcause := rfl
@[simp] theorem Wave.onOp_trappc (w : Wave) (k : Nat) (f : Op → Op) : (w.onOp k f).trappc = w.trappc := rfl
@[simp] theorem Wave.onOp_trapaddr (w : Wave) (k : Nat) (f : Op → Op) : (w.onOp k f).trapaddr = w.trapaddr := rfl
@[simp] theorem Wave.onOp_trapmask (w : Wave) (k : Nat) (f : Op → Op) : (w.onOp k f).trapmask = w.trapmask := rfl
@[simp] theorem Wave.onOp_ops (w : Wave) (k : Nat) (f : Op → Op) : (w.onOp k f).ops = w.ops.map fun o => if o.key == k then f o else o := rfl
@[simp] theorem Wave.onOp_port (w : Wave) (k : Nat) (f : Op → Op) : (w.onOp k f).port = w.port := rfl
@[simp] theorem Wave.onOp_seq (w : Wave) (k : Nat) (f : Op → Op) : (w.onOp k f).seq = w.seq := rfl
@[simp] theorem Wave.onOp_issued (w : Wave) (k : Nat) (f : Op → Op) : (w.onOp k f).issued = w.issued := rfl
@[simp] theorem Wave.onOp_latch (w : Wave) (k : Nat) (f : Op → Op) : (w.onOp k f).latch = w.latch := rfl
@[simp] theorem Wave.onOp_latchS (w : Wave) (k : Nat) (f : Op → Op) : (w.onOp k f).latchS = w.latchS := rfl
@[simp] theorem Wave.onOp_engineFault (w : Wave) (k : Nat) (f : Op → Op) : (w.onOp k f).engineFault = w.engineFault := rfl
@[simp] theorem Wave.onOp_matFault (w : Wave) (k : Nat) (f : Op → Op) : (w.onOp k f).matFault = w.matFault := rfl
@[simp] theorem Wave.onOp_drained (w : Wave) (k : Nat) (f : Op → Op) : (w.onOp k f).drained = w.drained := rfl
@[simp] theorem Wave.onOp_checkpoint (w : Wave) (k : Nat) (f : Op → Op) : (w.onOp k f).checkpoint = w.checkpoint := rfl
@[simp] theorem Wave.onOp_failures (w : Wave) (k : Nat) (f : Op → Op) : (w.onOp k f).failures = w.failures := rfl
@[simp] theorem Wave.onOp_frame (w : Wave) (k : Nat) (f : Op → Op) : (w.onOp k f).frame = w.frame := rfl
@[simp] theorem Wave.onOp_preoff (w : Wave) (k : Nat) (f : Op → Op) : (w.onOp k f).preoff = w.preoff := rfl
@[simp] theorem Wave.onOp_demand (w : Wave) (k : Nat) (f : Op → Op) : (w.onOp k f).demand = w.demand := rfl
@[simp] theorem Wave.onOp_waveTrap (w : Wave) (k : Nat) (f : Op → Op) : (w.onOp k f).waveTrap = w.waveTrap := rfl
@[simp] theorem Wave.onOp_native (w : Wave) (k : Nat) (f : Op → Op) : (w.onOp k f).native = w.native := rfl
@[simp] theorem Wave.onOp_visitEnd (w : Wave) (k : Nat) (f : Op → Op) : (w.onOp k f).visitEnd = w.visitEnd := rfl
@[simp] theorem Wave.onOp_visiting (w : Wave) (k : Nat) (f : Op → Op) : (w.onOp k f).visiting = w.visiting := rfl
@[simp] theorem Wave.onOp_checkpointDue (w : Wave) (k : Nat) (f : Op → Op) : (w.onOp k f).checkpointDue = w.checkpointDue := rfl
@[simp] theorem Wave.onOp_lineReads (w : Wave) (k : Nat) (f : Op → Op) : (w.onOp k f).lineReads = w.lineReads := rfl

@[simp] theorem Wave.setPred_key (w : Wave) (q : Nat) (on v : Mask) : (w.setPred q on v).key = w.key := by unfold Wave.setPred; (repeat' split) <;> rfl
@[simp] theorem Wave.setPred_launch (w : Wave) (q : Nat) (on v : Mask) : (w.setPred q on v).launch = w.launch := by unfold Wave.setPred; (repeat' split) <;> rfl
@[simp] theorem Wave.setPred_crew (w : Wave) (q : Nat) (on v : Mask) : (w.setPred q on v).crew = w.crew := by unfold Wave.setPred; (repeat' split) <;> rfl
@[simp] theorem Wave.setPred_ordinal (w : Wave) (q : Nat) (on v : Mask) : (w.setPred q on v).ordinal = w.ordinal := by unfold Wave.setPred; (repeat' split) <;> rfl
@[simp] theorem Wave.setPred_kern (w : Wave) (q : Nat) (on v : Mask) : (w.setPred q on v).kern = w.kern := by unfold Wave.setPred; (repeat' split) <;> rfl
@[simp] theorem Wave.setPred_core (w : Wave) (q : Nat) (on v : Mask) : (w.setPred q on v).core = w.core := by unfold Wave.setPred; (repeat' split) <;> rfl
@[simp] theorem Wave.setPred_partition (w : Wave) (q : Nat) (on v : Mask) : (w.setPred q on v).partition = w.partition := by unfold Wave.setPred; (repeat' split) <;> rfl
@[simp] theorem Wave.setPred_slot (w : Wave) (q : Nat) (on v : Mask) : (w.setPred q on v).slot = w.slot := by unfold Wave.setPred; (repeat' split) <;> rfl
@[simp] theorem Wave.setPred_created (w : Wave) (q : Nat) (on v : Mask) : (w.setPred q on v).created = w.created := by unfold Wave.setPred; (repeat' split) <;> rfl
@[simp] theorem Wave.setPred_status (w : Wave) (q : Nat) (on v : Mask) : (w.setPred q on v).status = w.status := by unfold Wave.setPred; (repeat' split) <;> rfl
@[simp] theorem Wave.setPred_a_splits (w : Wave) (q : Nat) (on v : Mask) : (w.setPred q on v).a.splits = w.a.splits := by unfold Wave.setPred; (repeat' split) <;> rfl
@[simp] theorem Wave.setPred_a_entries (w : Wave) (q : Nat) (on v : Mask) : (w.setPred q on v).a.entries = w.a.entries := by unfold Wave.setPred; (repeat' split) <;> rfl
@[simp] theorem Wave.setPred_a_live (w : Wave) (q : Nat) (on v : Mask) : (w.setPred q on v).a.live = w.a.live := by unfold Wave.setPred; (repeat' split) <;> rfl
@[simp] theorem Wave.setPred_a_drain (w : Wave) (q : Nat) (on v : Mask) : (w.setPred q on v).a.drain = w.a.drain := by unfold Wave.setPred; (repeat' split) <;> rfl
@[simp] theorem Wave.setPred_a_fresh (w : Wave) (q : Nat) (on v : Mask) : (w.setPred q on v).a.fresh = w.a.fresh := by unfold Wave.setPred; (repeat' split) <;> rfl
@[simp] theorem Wave.setPred_a_lanes (w : Wave) (q : Nat) (on v : Mask) : (w.setPred q on v).a.lanes = w.a.lanes := by unfold Wave.setPred; (repeat' split) <;> rfl
@[simp] theorem Wave.setPred_a_vregs (w : Wave) (q : Nat) (on v : Mask) : (w.setPred q on v).a.vregs = w.a.vregs := by unfold Wave.setPred; (repeat' split) <;> rfl
@[simp] theorem Wave.setPred_a_sregs (w : Wave) (q : Nat) (on v : Mask) : (w.setPred q on v).a.sregs = w.a.sregs := by unfold Wave.setPred; (repeat' split) <;> rfl
@[simp] theorem Wave.setPred_a_sshadow (w : Wave) (q : Nat) (on v : Mask) : (w.setPred q on v).a.sshadow = w.a.sshadow := by unfold Wave.setPred; (repeat' split) <;> rfl
@[simp] theorem Wave.setPred_a_tiles (w : Wave) (q : Nat) (on v : Mask) : (w.setPred q on v).a.tiles = w.a.tiles := by unfold Wave.setPred; (repeat' split) <;> rfl
@[simp] theorem Wave.setPred_a_twins (w : Wave) (q : Nat) (on v : Mask) : (w.setPred q on v).a.twins = w.a.twins := by unfold Wave.setPred; (repeat' split) <;> rfl
@[simp] theorem Wave.setPred_a_mr (w : Wave) (q : Nat) (on v : Mask) : (w.setPred q on v).a.mr = w.a.mr := by unfold Wave.setPred; (repeat' split) <;> rfl
@[simp] theorem Wave.setPred_a_mx (w : Wave) (q : Nat) (on v : Mask) : (w.setPred q on v).a.mx = w.a.mx := by unfold Wave.setPred; (repeat' split) <;> rfl
@[simp] theorem Wave.setPred_a_ns (w : Wave) (q : Nat) (on v : Mask) : (w.setPred q on v).a.ns = w.a.ns := by unfold Wave.setPred; (repeat' split) <;> rfl
@[simp] theorem Wave.setPred_a_sp (w : Wave) (q : Nat) (on v : Mask) : (w.setPred q on v).a.sp = w.a.sp := by unfold Wave.setPred; (repeat' split) <;> rfl
@[simp] theorem Wave.setPred_a_mxbase (w : Wave) (q : Nat) (on v : Mask) : (w.setPred q on v).a.mxbase = w.a.mxbase := by unfold Wave.setPred; (repeat' split) <;> rfl
@[simp] theorem Wave.setPred_a_mxplane (w : Wave) (q : Nat) (on v : Mask) : (w.setPred q on v).a.mxplane = w.a.mxplane := by unfold Wave.setPred; (repeat' split) <;> rfl
@[simp] theorem Wave.setPred_a_seedlo (w : Wave) (q : Nat) (on v : Mask) : (w.setPred q on v).a.seedlo = w.a.seedlo := by unfold Wave.setPred; (repeat' split) <;> rfl
@[simp] theorem Wave.setPred_a_seedhi (w : Wave) (q : Nat) (on v : Mask) : (w.setPred q on v).a.seedhi = w.a.seedhi := by unfold Wave.setPred; (repeat' split) <;> rfl
@[simp] theorem Wave.setPred_a_retired (w : Wave) (q : Nat) (on v : Mask) : (w.setPred q on v).a.retired = w.a.retired := by unfold Wave.setPred; (repeat' split) <;> rfl
@[simp] theorem Wave.setPred_a_turn (w : Wave) (q : Nat) (on v : Mask) : (w.setPred q on v).a.turn = w.a.turn := by unfold Wave.setPred; (repeat' split) <;> rfl
@[simp] theorem Wave.setPred_a_spill (w : Wave) (q : Nat) (on v : Mask) : (w.setPred q on v).a.spill = w.a.spill := by unfold Wave.setPred; (repeat' split) <;> rfl
@[simp] theorem Wave.setPred_sempty (w : Wave) (q : Nat) (on v : Mask) : (w.setPred q on v).sempty = w.sempty := by unfold Wave.setPred; (repeat' split) <;> rfl
@[simp] theorem Wave.setPred_hregs (w : Wave) (q : Nat) (on v : Mask) : (w.setPred q on v).hregs = w.hregs := by unfold Wave.setPred; (repeat' split) <;> rfl
@[simp] theorem Wave.setPred_hshadow (w : Wave) (q : Nat) (on v : Mask) : (w.setPred q on v).hshadow = w.hshadow := by unfold Wave.setPred; (repeat' split) <;> rfl
@[simp] theorem Wave.setPred_trapcause (w : Wave) (q : Nat) (on v : Mask) : (w.setPred q on v).trapcause = w.trapcause := by unfold Wave.setPred; (repeat' split) <;> rfl
@[simp] theorem Wave.setPred_trappc (w : Wave) (q : Nat) (on v : Mask) : (w.setPred q on v).trappc = w.trappc := by unfold Wave.setPred; (repeat' split) <;> rfl
@[simp] theorem Wave.setPred_trapaddr (w : Wave) (q : Nat) (on v : Mask) : (w.setPred q on v).trapaddr = w.trapaddr := by unfold Wave.setPred; (repeat' split) <;> rfl
@[simp] theorem Wave.setPred_trapmask (w : Wave) (q : Nat) (on v : Mask) : (w.setPred q on v).trapmask = w.trapmask := by unfold Wave.setPred; (repeat' split) <;> rfl
@[simp] theorem Wave.setPred_ops (w : Wave) (q : Nat) (on v : Mask) : (w.setPred q on v).ops = w.ops := by unfold Wave.setPred; (repeat' split) <;> rfl
@[simp] theorem Wave.setPred_port (w : Wave) (q : Nat) (on v : Mask) : (w.setPred q on v).port = w.port := by unfold Wave.setPred; (repeat' split) <;> rfl
@[simp] theorem Wave.setPred_seq (w : Wave) (q : Nat) (on v : Mask) : (w.setPred q on v).seq = w.seq := by unfold Wave.setPred; (repeat' split) <;> rfl
@[simp] theorem Wave.setPred_issued (w : Wave) (q : Nat) (on v : Mask) : (w.setPred q on v).issued = w.issued := by unfold Wave.setPred; (repeat' split) <;> rfl
@[simp] theorem Wave.setPred_latch (w : Wave) (q : Nat) (on v : Mask) : (w.setPred q on v).latch = w.latch := by unfold Wave.setPred; (repeat' split) <;> rfl
@[simp] theorem Wave.setPred_latchS (w : Wave) (q : Nat) (on v : Mask) : (w.setPred q on v).latchS = w.latchS := by unfold Wave.setPred; (repeat' split) <;> rfl
@[simp] theorem Wave.setPred_engineFault (w : Wave) (q : Nat) (on v : Mask) : (w.setPred q on v).engineFault = w.engineFault := by unfold Wave.setPred; (repeat' split) <;> rfl
@[simp] theorem Wave.setPred_matFault (w : Wave) (q : Nat) (on v : Mask) : (w.setPred q on v).matFault = w.matFault := by unfold Wave.setPred; (repeat' split) <;> rfl
@[simp] theorem Wave.setPred_drained (w : Wave) (q : Nat) (on v : Mask) : (w.setPred q on v).drained = w.drained := by unfold Wave.setPred; (repeat' split) <;> rfl
@[simp] theorem Wave.setPred_checkpoint (w : Wave) (q : Nat) (on v : Mask) : (w.setPred q on v).checkpoint = w.checkpoint := by unfold Wave.setPred; (repeat' split) <;> rfl
@[simp] theorem Wave.setPred_failures (w : Wave) (q : Nat) (on v : Mask) : (w.setPred q on v).failures = w.failures := by unfold Wave.setPred; (repeat' split) <;> rfl
@[simp] theorem Wave.setPred_frame (w : Wave) (q : Nat) (on v : Mask) : (w.setPred q on v).frame = w.frame := by unfold Wave.setPred; (repeat' split) <;> rfl
@[simp] theorem Wave.setPred_preoff (w : Wave) (q : Nat) (on v : Mask) : (w.setPred q on v).preoff = w.preoff := by unfold Wave.setPred; (repeat' split) <;> rfl
@[simp] theorem Wave.setPred_demand (w : Wave) (q : Nat) (on v : Mask) : (w.setPred q on v).demand = w.demand := by unfold Wave.setPred; (repeat' split) <;> rfl
@[simp] theorem Wave.setPred_waveTrap (w : Wave) (q : Nat) (on v : Mask) : (w.setPred q on v).waveTrap = w.waveTrap := by unfold Wave.setPred; (repeat' split) <;> rfl
@[simp] theorem Wave.setPred_native (w : Wave) (q : Nat) (on v : Mask) : (w.setPred q on v).native = w.native := by unfold Wave.setPred; (repeat' split) <;> rfl
@[simp] theorem Wave.setPred_visitEnd (w : Wave) (q : Nat) (on v : Mask) : (w.setPred q on v).visitEnd = w.visitEnd := by unfold Wave.setPred; (repeat' split) <;> rfl
@[simp] theorem Wave.setPred_visiting (w : Wave) (q : Nat) (on v : Mask) : (w.setPred q on v).visiting = w.visiting := by unfold Wave.setPred; (repeat' split) <;> rfl
@[simp] theorem Wave.setPred_checkpointDue (w : Wave) (q : Nat) (on v : Mask) : (w.setPred q on v).checkpointDue = w.checkpointDue := by unfold Wave.setPred; (repeat' split) <;> rfl
@[simp] theorem Wave.setPred_lineReads (w : Wave) (q : Nat) (on v : Mask) : (w.setPred q on v).lineReads = w.lineReads := by unfold Wave.setPred; (repeat' split) <;> rfl

@[simp] theorem Wave.putS_key (w : Wave) (k : Nat) (x xs : Word64) : (w.putS k x xs).key = w.key := by unfold Wave.putS; (repeat' split) <;> rfl
@[simp] theorem Wave.putS_launch (w : Wave) (k : Nat) (x xs : Word64) : (w.putS k x xs).launch = w.launch := by unfold Wave.putS; (repeat' split) <;> rfl
@[simp] theorem Wave.putS_crew (w : Wave) (k : Nat) (x xs : Word64) : (w.putS k x xs).crew = w.crew := by unfold Wave.putS; (repeat' split) <;> rfl
@[simp] theorem Wave.putS_ordinal (w : Wave) (k : Nat) (x xs : Word64) : (w.putS k x xs).ordinal = w.ordinal := by unfold Wave.putS; (repeat' split) <;> rfl
@[simp] theorem Wave.putS_kern (w : Wave) (k : Nat) (x xs : Word64) : (w.putS k x xs).kern = w.kern := by unfold Wave.putS; (repeat' split) <;> rfl
@[simp] theorem Wave.putS_core (w : Wave) (k : Nat) (x xs : Word64) : (w.putS k x xs).core = w.core := by unfold Wave.putS; (repeat' split) <;> rfl
@[simp] theorem Wave.putS_partition (w : Wave) (k : Nat) (x xs : Word64) : (w.putS k x xs).partition = w.partition := by unfold Wave.putS; (repeat' split) <;> rfl
@[simp] theorem Wave.putS_slot (w : Wave) (k : Nat) (x xs : Word64) : (w.putS k x xs).slot = w.slot := by unfold Wave.putS; (repeat' split) <;> rfl
@[simp] theorem Wave.putS_created (w : Wave) (k : Nat) (x xs : Word64) : (w.putS k x xs).created = w.created := by unfold Wave.putS; (repeat' split) <;> rfl
@[simp] theorem Wave.putS_status (w : Wave) (k : Nat) (x xs : Word64) : (w.putS k x xs).status = w.status := by unfold Wave.putS; (repeat' split) <;> rfl
@[simp] theorem Wave.putS_a_splits (w : Wave) (k : Nat) (x xs : Word64) : (w.putS k x xs).a.splits = w.a.splits := by unfold Wave.putS; (repeat' split) <;> rfl
@[simp] theorem Wave.putS_a_entries (w : Wave) (k : Nat) (x xs : Word64) : (w.putS k x xs).a.entries = w.a.entries := by unfold Wave.putS; (repeat' split) <;> rfl
@[simp] theorem Wave.putS_a_live (w : Wave) (k : Nat) (x xs : Word64) : (w.putS k x xs).a.live = w.a.live := by unfold Wave.putS; (repeat' split) <;> rfl
@[simp] theorem Wave.putS_a_drain (w : Wave) (k : Nat) (x xs : Word64) : (w.putS k x xs).a.drain = w.a.drain := by unfold Wave.putS; (repeat' split) <;> rfl
@[simp] theorem Wave.putS_a_fresh (w : Wave) (k : Nat) (x xs : Word64) : (w.putS k x xs).a.fresh = w.a.fresh := by unfold Wave.putS; (repeat' split) <;> rfl
@[simp] theorem Wave.putS_a_lanes (w : Wave) (k : Nat) (x xs : Word64) : (w.putS k x xs).a.lanes = w.a.lanes := by unfold Wave.putS; (repeat' split) <;> rfl
@[simp] theorem Wave.putS_a_vregs (w : Wave) (k : Nat) (x xs : Word64) : (w.putS k x xs).a.vregs = w.a.vregs := by unfold Wave.putS; (repeat' split) <;> rfl
@[simp] theorem Wave.putS_a_preds (w : Wave) (k : Nat) (x xs : Word64) : (w.putS k x xs).a.preds = w.a.preds := by unfold Wave.putS; (repeat' split) <;> rfl
@[simp] theorem Wave.putS_a_tiles (w : Wave) (k : Nat) (x xs : Word64) : (w.putS k x xs).a.tiles = w.a.tiles := by unfold Wave.putS; (repeat' split) <;> rfl
@[simp] theorem Wave.putS_a_twins (w : Wave) (k : Nat) (x xs : Word64) : (w.putS k x xs).a.twins = w.a.twins := by unfold Wave.putS; (repeat' split) <;> rfl
@[simp] theorem Wave.putS_a_mr (w : Wave) (k : Nat) (x xs : Word64) : (w.putS k x xs).a.mr = w.a.mr := by unfold Wave.putS; (repeat' split) <;> rfl
@[simp] theorem Wave.putS_a_mx (w : Wave) (k : Nat) (x xs : Word64) : (w.putS k x xs).a.mx = w.a.mx := by unfold Wave.putS; (repeat' split) <;> rfl
@[simp] theorem Wave.putS_a_ns (w : Wave) (k : Nat) (x xs : Word64) : (w.putS k x xs).a.ns = w.a.ns := by unfold Wave.putS; (repeat' split) <;> rfl
@[simp] theorem Wave.putS_a_sp (w : Wave) (k : Nat) (x xs : Word64) : (w.putS k x xs).a.sp = w.a.sp := by unfold Wave.putS; (repeat' split) <;> rfl
@[simp] theorem Wave.putS_a_mxbase (w : Wave) (k : Nat) (x xs : Word64) : (w.putS k x xs).a.mxbase = w.a.mxbase := by unfold Wave.putS; (repeat' split) <;> rfl
@[simp] theorem Wave.putS_a_mxplane (w : Wave) (k : Nat) (x xs : Word64) : (w.putS k x xs).a.mxplane = w.a.mxplane := by unfold Wave.putS; (repeat' split) <;> rfl
@[simp] theorem Wave.putS_a_seedlo (w : Wave) (k : Nat) (x xs : Word64) : (w.putS k x xs).a.seedlo = w.a.seedlo := by unfold Wave.putS; (repeat' split) <;> rfl
@[simp] theorem Wave.putS_a_seedhi (w : Wave) (k : Nat) (x xs : Word64) : (w.putS k x xs).a.seedhi = w.a.seedhi := by unfold Wave.putS; (repeat' split) <;> rfl
@[simp] theorem Wave.putS_a_retired (w : Wave) (k : Nat) (x xs : Word64) : (w.putS k x xs).a.retired = w.a.retired := by unfold Wave.putS; (repeat' split) <;> rfl
@[simp] theorem Wave.putS_a_turn (w : Wave) (k : Nat) (x xs : Word64) : (w.putS k x xs).a.turn = w.a.turn := by unfold Wave.putS; (repeat' split) <;> rfl
@[simp] theorem Wave.putS_a_spill (w : Wave) (k : Nat) (x xs : Word64) : (w.putS k x xs).a.spill = w.a.spill := by unfold Wave.putS; (repeat' split) <;> rfl
@[simp] theorem Wave.putS_sempty (w : Wave) (k : Nat) (x xs : Word64) : (w.putS k x xs).sempty = w.sempty := by unfold Wave.putS; (repeat' split) <;> rfl
@[simp] theorem Wave.putS_trapcause (w : Wave) (k : Nat) (x xs : Word64) : (w.putS k x xs).trapcause = w.trapcause := by unfold Wave.putS; (repeat' split) <;> rfl
@[simp] theorem Wave.putS_trappc (w : Wave) (k : Nat) (x xs : Word64) : (w.putS k x xs).trappc = w.trappc := by unfold Wave.putS; (repeat' split) <;> rfl
@[simp] theorem Wave.putS_trapaddr (w : Wave) (k : Nat) (x xs : Word64) : (w.putS k x xs).trapaddr = w.trapaddr := by unfold Wave.putS; (repeat' split) <;> rfl
@[simp] theorem Wave.putS_trapmask (w : Wave) (k : Nat) (x xs : Word64) : (w.putS k x xs).trapmask = w.trapmask := by unfold Wave.putS; (repeat' split) <;> rfl
@[simp] theorem Wave.putS_ops (w : Wave) (k : Nat) (x xs : Word64) : (w.putS k x xs).ops = w.ops := by unfold Wave.putS; (repeat' split) <;> rfl
@[simp] theorem Wave.putS_port (w : Wave) (k : Nat) (x xs : Word64) : (w.putS k x xs).port = w.port := by unfold Wave.putS; (repeat' split) <;> rfl
@[simp] theorem Wave.putS_seq (w : Wave) (k : Nat) (x xs : Word64) : (w.putS k x xs).seq = w.seq := by unfold Wave.putS; (repeat' split) <;> rfl
@[simp] theorem Wave.putS_issued (w : Wave) (k : Nat) (x xs : Word64) : (w.putS k x xs).issued = w.issued := by unfold Wave.putS; (repeat' split) <;> rfl
@[simp] theorem Wave.putS_latch (w : Wave) (k : Nat) (x xs : Word64) : (w.putS k x xs).latch = w.latch := by unfold Wave.putS; (repeat' split) <;> rfl
@[simp] theorem Wave.putS_latchS (w : Wave) (k : Nat) (x xs : Word64) : (w.putS k x xs).latchS = w.latchS := by unfold Wave.putS; (repeat' split) <;> rfl
@[simp] theorem Wave.putS_engineFault (w : Wave) (k : Nat) (x xs : Word64) : (w.putS k x xs).engineFault = w.engineFault := by unfold Wave.putS; (repeat' split) <;> rfl
@[simp] theorem Wave.putS_matFault (w : Wave) (k : Nat) (x xs : Word64) : (w.putS k x xs).matFault = w.matFault := by unfold Wave.putS; (repeat' split) <;> rfl
@[simp] theorem Wave.putS_drained (w : Wave) (k : Nat) (x xs : Word64) : (w.putS k x xs).drained = w.drained := by unfold Wave.putS; (repeat' split) <;> rfl
@[simp] theorem Wave.putS_checkpoint (w : Wave) (k : Nat) (x xs : Word64) : (w.putS k x xs).checkpoint = w.checkpoint := by unfold Wave.putS; (repeat' split) <;> rfl
@[simp] theorem Wave.putS_failures (w : Wave) (k : Nat) (x xs : Word64) : (w.putS k x xs).failures = w.failures := by unfold Wave.putS; (repeat' split) <;> rfl
@[simp] theorem Wave.putS_frame (w : Wave) (k : Nat) (x xs : Word64) : (w.putS k x xs).frame = w.frame := by unfold Wave.putS; (repeat' split) <;> rfl
@[simp] theorem Wave.putS_preoff (w : Wave) (k : Nat) (x xs : Word64) : (w.putS k x xs).preoff = w.preoff := by unfold Wave.putS; (repeat' split) <;> rfl
@[simp] theorem Wave.putS_demand (w : Wave) (k : Nat) (x xs : Word64) : (w.putS k x xs).demand = w.demand := by unfold Wave.putS; (repeat' split) <;> rfl
@[simp] theorem Wave.putS_waveTrap (w : Wave) (k : Nat) (x xs : Word64) : (w.putS k x xs).waveTrap = w.waveTrap := by unfold Wave.putS; (repeat' split) <;> rfl
@[simp] theorem Wave.putS_native (w : Wave) (k : Nat) (x xs : Word64) : (w.putS k x xs).native = w.native := by unfold Wave.putS; (repeat' split) <;> rfl
@[simp] theorem Wave.putS_visitEnd (w : Wave) (k : Nat) (x xs : Word64) : (w.putS k x xs).visitEnd = w.visitEnd := by unfold Wave.putS; (repeat' split) <;> rfl
@[simp] theorem Wave.putS_visiting (w : Wave) (k : Nat) (x xs : Word64) : (w.putS k x xs).visiting = w.visiting := by unfold Wave.putS; (repeat' split) <;> rfl
@[simp] theorem Wave.putS_checkpointDue (w : Wave) (k : Nat) (x xs : Word64) : (w.putS k x xs).checkpointDue = w.checkpointDue := by unfold Wave.putS; (repeat' split) <;> rfl
@[simp] theorem Wave.putS_lineReads (w : Wave) (k : Nat) (x xs : Word64) : (w.putS k x xs).lineReads = w.lineReads := by unfold Wave.putS; (repeat' split) <;> rfl

@[simp] theorem Wave.markS_key (w : Wave) (k : Nat) (e : Bool) : (w.markS k e).key = w.key := by unfold Wave.markS; (repeat' split) <;> rfl
@[simp] theorem Wave.markS_launch (w : Wave) (k : Nat) (e : Bool) : (w.markS k e).launch = w.launch := by unfold Wave.markS; (repeat' split) <;> rfl
@[simp] theorem Wave.markS_crew (w : Wave) (k : Nat) (e : Bool) : (w.markS k e).crew = w.crew := by unfold Wave.markS; (repeat' split) <;> rfl
@[simp] theorem Wave.markS_ordinal (w : Wave) (k : Nat) (e : Bool) : (w.markS k e).ordinal = w.ordinal := by unfold Wave.markS; (repeat' split) <;> rfl
@[simp] theorem Wave.markS_kern (w : Wave) (k : Nat) (e : Bool) : (w.markS k e).kern = w.kern := by unfold Wave.markS; (repeat' split) <;> rfl
@[simp] theorem Wave.markS_core (w : Wave) (k : Nat) (e : Bool) : (w.markS k e).core = w.core := by unfold Wave.markS; (repeat' split) <;> rfl
@[simp] theorem Wave.markS_partition (w : Wave) (k : Nat) (e : Bool) : (w.markS k e).partition = w.partition := by unfold Wave.markS; (repeat' split) <;> rfl
@[simp] theorem Wave.markS_slot (w : Wave) (k : Nat) (e : Bool) : (w.markS k e).slot = w.slot := by unfold Wave.markS; (repeat' split) <;> rfl
@[simp] theorem Wave.markS_created (w : Wave) (k : Nat) (e : Bool) : (w.markS k e).created = w.created := by unfold Wave.markS; (repeat' split) <;> rfl
@[simp] theorem Wave.markS_status (w : Wave) (k : Nat) (e : Bool) : (w.markS k e).status = w.status := by unfold Wave.markS; (repeat' split) <;> rfl
@[simp] theorem Wave.markS_a_splits (w : Wave) (k : Nat) (e : Bool) : (w.markS k e).a.splits = w.a.splits := by unfold Wave.markS; (repeat' split) <;> rfl
@[simp] theorem Wave.markS_a_entries (w : Wave) (k : Nat) (e : Bool) : (w.markS k e).a.entries = w.a.entries := by unfold Wave.markS; (repeat' split) <;> rfl
@[simp] theorem Wave.markS_a_live (w : Wave) (k : Nat) (e : Bool) : (w.markS k e).a.live = w.a.live := by unfold Wave.markS; (repeat' split) <;> rfl
@[simp] theorem Wave.markS_a_drain (w : Wave) (k : Nat) (e : Bool) : (w.markS k e).a.drain = w.a.drain := by unfold Wave.markS; (repeat' split) <;> rfl
@[simp] theorem Wave.markS_a_fresh (w : Wave) (k : Nat) (e : Bool) : (w.markS k e).a.fresh = w.a.fresh := by unfold Wave.markS; (repeat' split) <;> rfl
@[simp] theorem Wave.markS_a_lanes (w : Wave) (k : Nat) (e : Bool) : (w.markS k e).a.lanes = w.a.lanes := by unfold Wave.markS; (repeat' split) <;> rfl
@[simp] theorem Wave.markS_a_vregs (w : Wave) (k : Nat) (e : Bool) : (w.markS k e).a.vregs = w.a.vregs := by unfold Wave.markS; (repeat' split) <;> rfl
@[simp] theorem Wave.markS_a_preds (w : Wave) (k : Nat) (e : Bool) : (w.markS k e).a.preds = w.a.preds := by unfold Wave.markS; (repeat' split) <;> rfl
@[simp] theorem Wave.markS_a_sregs (w : Wave) (k : Nat) (e : Bool) : (w.markS k e).a.sregs = w.a.sregs := by unfold Wave.markS; (repeat' split) <;> rfl
@[simp] theorem Wave.markS_a_sshadow (w : Wave) (k : Nat) (e : Bool) : (w.markS k e).a.sshadow = w.a.sshadow := by unfold Wave.markS; (repeat' split) <;> rfl
@[simp] theorem Wave.markS_a_tiles (w : Wave) (k : Nat) (e : Bool) : (w.markS k e).a.tiles = w.a.tiles := by unfold Wave.markS; (repeat' split) <;> rfl
@[simp] theorem Wave.markS_a_twins (w : Wave) (k : Nat) (e : Bool) : (w.markS k e).a.twins = w.a.twins := by unfold Wave.markS; (repeat' split) <;> rfl
@[simp] theorem Wave.markS_a_mr (w : Wave) (k : Nat) (e : Bool) : (w.markS k e).a.mr = w.a.mr := by unfold Wave.markS; (repeat' split) <;> rfl
@[simp] theorem Wave.markS_a_mx (w : Wave) (k : Nat) (e : Bool) : (w.markS k e).a.mx = w.a.mx := by unfold Wave.markS; (repeat' split) <;> rfl
@[simp] theorem Wave.markS_a_ns (w : Wave) (k : Nat) (e : Bool) : (w.markS k e).a.ns = w.a.ns := by unfold Wave.markS; (repeat' split) <;> rfl
@[simp] theorem Wave.markS_a_sp (w : Wave) (k : Nat) (e : Bool) : (w.markS k e).a.sp = w.a.sp := by unfold Wave.markS; (repeat' split) <;> rfl
@[simp] theorem Wave.markS_a_mxbase (w : Wave) (k : Nat) (e : Bool) : (w.markS k e).a.mxbase = w.a.mxbase := by unfold Wave.markS; (repeat' split) <;> rfl
@[simp] theorem Wave.markS_a_mxplane (w : Wave) (k : Nat) (e : Bool) : (w.markS k e).a.mxplane = w.a.mxplane := by unfold Wave.markS; (repeat' split) <;> rfl
@[simp] theorem Wave.markS_a_seedlo (w : Wave) (k : Nat) (e : Bool) : (w.markS k e).a.seedlo = w.a.seedlo := by unfold Wave.markS; (repeat' split) <;> rfl
@[simp] theorem Wave.markS_a_seedhi (w : Wave) (k : Nat) (e : Bool) : (w.markS k e).a.seedhi = w.a.seedhi := by unfold Wave.markS; (repeat' split) <;> rfl
@[simp] theorem Wave.markS_a_retired (w : Wave) (k : Nat) (e : Bool) : (w.markS k e).a.retired = w.a.retired := by unfold Wave.markS; (repeat' split) <;> rfl
@[simp] theorem Wave.markS_a_turn (w : Wave) (k : Nat) (e : Bool) : (w.markS k e).a.turn = w.a.turn := by unfold Wave.markS; (repeat' split) <;> rfl
@[simp] theorem Wave.markS_a_spill (w : Wave) (k : Nat) (e : Bool) : (w.markS k e).a.spill = w.a.spill := by unfold Wave.markS; (repeat' split) <;> rfl
@[simp] theorem Wave.markS_hregs (w : Wave) (k : Nat) (e : Bool) : (w.markS k e).hregs = w.hregs := by unfold Wave.markS; (repeat' split) <;> rfl
@[simp] theorem Wave.markS_hshadow (w : Wave) (k : Nat) (e : Bool) : (w.markS k e).hshadow = w.hshadow := by unfold Wave.markS; (repeat' split) <;> rfl
@[simp] theorem Wave.markS_trapcause (w : Wave) (k : Nat) (e : Bool) : (w.markS k e).trapcause = w.trapcause := by unfold Wave.markS; (repeat' split) <;> rfl
@[simp] theorem Wave.markS_trappc (w : Wave) (k : Nat) (e : Bool) : (w.markS k e).trappc = w.trappc := by unfold Wave.markS; (repeat' split) <;> rfl
@[simp] theorem Wave.markS_trapaddr (w : Wave) (k : Nat) (e : Bool) : (w.markS k e).trapaddr = w.trapaddr := by unfold Wave.markS; (repeat' split) <;> rfl
@[simp] theorem Wave.markS_trapmask (w : Wave) (k : Nat) (e : Bool) : (w.markS k e).trapmask = w.trapmask := by unfold Wave.markS; (repeat' split) <;> rfl
@[simp] theorem Wave.markS_ops (w : Wave) (k : Nat) (e : Bool) : (w.markS k e).ops = w.ops := by unfold Wave.markS; (repeat' split) <;> rfl
@[simp] theorem Wave.markS_port (w : Wave) (k : Nat) (e : Bool) : (w.markS k e).port = w.port := by unfold Wave.markS; (repeat' split) <;> rfl
@[simp] theorem Wave.markS_seq (w : Wave) (k : Nat) (e : Bool) : (w.markS k e).seq = w.seq := by unfold Wave.markS; (repeat' split) <;> rfl
@[simp] theorem Wave.markS_issued (w : Wave) (k : Nat) (e : Bool) : (w.markS k e).issued = w.issued := by unfold Wave.markS; (repeat' split) <;> rfl
@[simp] theorem Wave.markS_latch (w : Wave) (k : Nat) (e : Bool) : (w.markS k e).latch = w.latch := by unfold Wave.markS; (repeat' split) <;> rfl
@[simp] theorem Wave.markS_latchS (w : Wave) (k : Nat) (e : Bool) : (w.markS k e).latchS = w.latchS := by unfold Wave.markS; (repeat' split) <;> rfl
@[simp] theorem Wave.markS_engineFault (w : Wave) (k : Nat) (e : Bool) : (w.markS k e).engineFault = w.engineFault := by unfold Wave.markS; (repeat' split) <;> rfl
@[simp] theorem Wave.markS_matFault (w : Wave) (k : Nat) (e : Bool) : (w.markS k e).matFault = w.matFault := by unfold Wave.markS; (repeat' split) <;> rfl
@[simp] theorem Wave.markS_drained (w : Wave) (k : Nat) (e : Bool) : (w.markS k e).drained = w.drained := by unfold Wave.markS; (repeat' split) <;> rfl
@[simp] theorem Wave.markS_checkpoint (w : Wave) (k : Nat) (e : Bool) : (w.markS k e).checkpoint = w.checkpoint := by unfold Wave.markS; (repeat' split) <;> rfl
@[simp] theorem Wave.markS_failures (w : Wave) (k : Nat) (e : Bool) : (w.markS k e).failures = w.failures := by unfold Wave.markS; (repeat' split) <;> rfl
@[simp] theorem Wave.markS_frame (w : Wave) (k : Nat) (e : Bool) : (w.markS k e).frame = w.frame := by unfold Wave.markS; (repeat' split) <;> rfl
@[simp] theorem Wave.markS_preoff (w : Wave) (k : Nat) (e : Bool) : (w.markS k e).preoff = w.preoff := by unfold Wave.markS; (repeat' split) <;> rfl
@[simp] theorem Wave.markS_demand (w : Wave) (k : Nat) (e : Bool) : (w.markS k e).demand = w.demand := by unfold Wave.markS; (repeat' split) <;> rfl
@[simp] theorem Wave.markS_waveTrap (w : Wave) (k : Nat) (e : Bool) : (w.markS k e).waveTrap = w.waveTrap := by unfold Wave.markS; (repeat' split) <;> rfl
@[simp] theorem Wave.markS_native (w : Wave) (k : Nat) (e : Bool) : (w.markS k e).native = w.native := by unfold Wave.markS; (repeat' split) <;> rfl
@[simp] theorem Wave.markS_visitEnd (w : Wave) (k : Nat) (e : Bool) : (w.markS k e).visitEnd = w.visitEnd := by unfold Wave.markS; (repeat' split) <;> rfl
@[simp] theorem Wave.markS_visiting (w : Wave) (k : Nat) (e : Bool) : (w.markS k e).visiting = w.visiting := by unfold Wave.markS; (repeat' split) <;> rfl
@[simp] theorem Wave.markS_checkpointDue (w : Wave) (k : Nat) (e : Bool) : (w.markS k e).checkpointDue = w.checkpointDue := by unfold Wave.markS; (repeat' split) <;> rfl
@[simp] theorem Wave.markS_lineReads (w : Wave) (k : Nat) (e : Bool) : (w.markS k e).lineReads = w.lineReads := by unfold Wave.markS; (repeat' split) <;> rfl

/-- The intervals that a checkpoint closes (R245). -/
@[simp] theorem Wave.takeCheckpoint_splits (w : Wave) (r : RegionRec) (pc : Nat) (lane : Option Nat) (keep : Bool) :
    (w.takeCheckpoint r pc lane keep).a.splits = w.a.splits.map fun q => if w.recordsPast lane q then { q with interval := [] } else q := rfl
@[simp] theorem Wave.takeCheckpoint_failures (w : Wave) (r : RegionRec) (pc : Nat) (lane : Option Nat) (keep : Bool) :
    (w.takeCheckpoint r pc lane keep).failures = 0 := rfl
@[simp] theorem Wave.takeCheckpoint_ops (w : Wave) (r : RegionRec) (pc : Nat) (lane : Option Nat) (keep : Bool) :
    (w.takeCheckpoint r pc lane keep).ops = w.ops := rfl

/-! ### The fence that a deal acts as (R301), and the return of an atomic's values (R141) -/

@[simp] theorem Split.dealt_lanes (p : Split) (f : Bool) : (p.dealt f).lanes = p.lanes := by unfold Split.dealt; split <;> rfl
@[simp] theorem Split.dealt_pc (p : Split) (f : Bool) : (p.dealt f).pc = p.pc := by unfold Split.dealt; split <;> rfl
@[simp] theorem Split.dealt_interval (p : Split) (f : Bool) : (p.dealt f).interval = p.interval := by unfold Split.dealt; split <;> rfl
@[simp] theorem Split.stamp_lanes (p : Split) (i : Instr) (n : Nat) : (p.stamp i n).lanes = p.lanes := by
  unfold Split.stamp; split <;> split <;> rfl
@[simp] theorem Split.stamp_pc (p : Split) (i : Instr) (n : Nat) : (p.stamp i n).pc = p.pc := by
  unfold Split.stamp; split <;> split <;> rfl
/-- The next word that issues ends the fence. -/
theorem Split.stamp_status (p : Split) (i : Instr) (n : Nat) :
    (p.stamp i n).status = if p.status = .acquiring then .ready else p.status := by
  unfold Split.stamp; by_cases h : p.status = .acquiring <;> simp [h] <;> split <;> rfl

/-- Without the wave, without the operation, before its last answer and after its values have returned, nothing happens. -/
theorem State.returnAtomic_stays {s : State} {k op : Nat}
    (h : ∀ w o, s.wave? k = some w → w.op? op = some o → o.answered = false ∨ o.returned = true) : s.returnAtomic k op = s := by
  unfold State.returnAtomic
  split
  · rfl
  · split
    · rfl
    · rcases h _ _ ‹_› ‹_› with h | h <;> simp [h]

end Sys2Proof.Machine
end

