-- ==== Sys2Proof/Laws/Registers.lean ====
section
/-! SUPPORT. What a read of a register gives after a write of one. -/

namespace Sys2Proof.Machine

/-! ### Lists -/

@[simp] theorem nth_setAt {α : Type} (l : List α) (k j : Nat) (x d : α) :
    nth (setAt l k x) j d = if k = j ∧ k < l.length then x else nth l j d := by
  unfold nth setAt
  rw [List.getElem?_set]
  by_cases h : k = j
  · subst h
    by_cases hk : k < l.length <;> simp [hk]
  · simp [h]

@[simp] theorem nth_modifyAt {α : Type} (l : List α) (k j : Nat) (f : α → α) (d : α) :
    nth (modifyAt l k f) j d = if k = j ∧ k < l.length then f (nth l k d) else nth l j d := by
  unfold nth modifyAt
  rw [List.getElem?_modify]
  by_cases h : k = j
  · subst h
    by_cases hk : k < l.length <;> simp [hk]
  · simp [h]

@[simp] theorem length_setAt {α : Type} (l : List α) (k : Nat) (x : α) : (setAt l k x).length = l.length := by simp [setAt]

@[simp] theorem length_modifyAt {α : Type} (l : List α) (k : Nat) (f : α → α) : (modifyAt l k f).length = l.length := by
  simp [modifyAt]

/-! ### Scalars -/

/-- A scalar read after a write at an index: s0 reads zero, the index written reads the value, every other one is as before. -/
theorem Wave.sAt_putS (w : Wave) (k j : Nat) (x xs : Word64) (hs : w.a.sregs.length = 256) (hh : w.hregs.length = 16) (hk : k < 272) :
    (w.putS k x xs).sAt j = if j = 0 then 0 else if k = j then x else w.sAt j := by
  unfold Wave.putS Wave.sAt
  by_cases hj : j = 0
  · simp [hj]
  by_cases h0 : k = 0
  · simp [h0, hj, show ¬0 = j by omega]
  by_cases h1 : k < 256
  · by_cases hkj : k = j
    · subst hkj; simp [h0, h1, hs]
    · by_cases hj2 : j < 256 <;> simp [h0, h1, hj, hj2, hkj]
  · by_cases hkj : k = j
    · subst hkj; simp [h0, h1, hh, show k - 256 < 16 by omega]
    · by_cases hj2 : j < 256
      · simp [h0, h1, hj, hj2, hkj]
      · simp [h0, h1, hj, hj2, hkj, show ¬k - 256 = j - 256 by omega]

/-- Writing s0 changes nothing. -/
@[simp] theorem Wave.putS_zero (w : Wave) (x xs : Word64) : w.putS 0 x xs = w := rfl

/-- s0 reads zero. -/
@[simp] theorem Wave.S_zero (w : Wave) : w.S 0 = 0 := by simp [Wave.S, Wave.sidx, Wave.sAt]

/-- The shadow copy of s0 reads zero. -/
@[simp] theorem Wave.Sh_zero (w : Wave) : w.Sh 0 = 0 := by simp [Wave.Sh, Wave.sidx, Wave.shAt, Wave.sAt]

/-! ### Predicates -/

/-- Predicate 0 reads true in every lane. -/
@[simp] theorem Wave.pred_zero (w : Wave) : w.pred 0 = trueMask := rfl

/-- A write to p0 is ignored. -/
@[simp] theorem Wave.setPred_zero (w : Wave) (on v : Mask) : w.setPred 0 on v = w := rfl

/-- Another predicate than the one written is as before. -/
theorem Wave.pred_setPred_other (w : Wave) {p q : Nat} (on v : Mask) (h : p ≠ q) : (w.setPred p on v).pred q = w.pred q := by
  unfold Wave.setPred
  split
  · rfl
  · simp [Wave.pred, h]

/-! ### Vector registers -/

/-- Another register than the one changed is as before. -/
theorem Wave.vreg_onV_other (w : Wave) {n m : Nat} (f : VReg → VReg) (h : n ≠ m) : (w.onV n f).vreg m = w.vreg m := by
  simp [Wave.vreg, Wave.W, h]

/-- The register changed. -/
theorem Wave.vreg_onV_same (w : Wave) {n : Nat} (f : VReg → VReg) (h : n < w.a.vregs.length) : (w.onV n f).vreg n = f (w.vreg n) := by
  simp [Wave.vreg, Wave.W, h]

/-- Writing lanes of v(d) leaves every other vector register as it was. -/
theorem Wave.vreg_writeV_other (w : Wave) {d m : Nat} (on : Mask) (f : Nat → Word32) (t : Tag) (h : d ≠ m) :
    (w.writeV d on f t).vreg m = w.vreg m :=
  w.vreg_onV_other _ h

/-- A lane of v(d) after its lanes of `on` were written. -/
theorem Wave.V_writeV (w : Wave) {d l : Nat} (on : Mask) (f : Nat → Word32) (t : Tag) (h : d < w.a.vregs.length)
    (hl : l < (w.vreg d).lanes.length) : (w.writeV d on f t).V_ d l = if on.has l = true then f l else w.V_ d l := by
  have : (w.writeV d on f t).vreg d = _ := w.vreg_onV_same _ h
  unfold Wave.V_
  rw [this]
  simp only [nth, List.getElem?_map, List.getElem?_zipIdx, Nat.zero_add]
  simp [hl]

end Sys2Proof.Machine
end

