-- ==== Sys2Proof/Tests/Slice0.lean ====
section
/-! SUPPORT. Tests: words that a check refuses, words written out from the formats, one step of some instructions with the result the
spec gives, and for each statement a state and operands that meet its hypotheses. -/

namespace Sys2Proof.Tests

open Sys2Proof.Machine

set_option maxRecDepth 20000
set_option Elab.async false

/-! ### Sample states -/

/-- A launch of one 16-lane wave, at a `nop`. -/
def base : State := State.reset.withFetchWord 32 0xDC000000

/-- Its wave. -/
def wave : Wave := placedWave 0xDC000000

/-- Its split. -/
def split : Split := Split.new (Mask.below 16) 0x10000

/-- The base state with the wave changed. -/
def withWave (f : Wave → Wave) : State := base.putWave (f wave)

/-- The base state with the kernel of the wave and of its launch changed. -/
def withKern (f : Object → Object) (g : Wave → Wave) : State :=
  let s := withWave fun w => g { w with kern := f w.kern }
  { s with launches := s.launches.map fun (l : Launch) => { l with obj := f l.obj } }

/-- A wave with three scalars. -/
def scalars (x y z : Word64) (w : Wave) : Wave := ((w.setS 1 x x).setS 2 y y).setS 3 z z

/-- Class 5 in FP32, current in MR, with flags of MR. -/
def real (w : Wave) : Wave :=
  { w with
    kern := { w.kern with classes := [classZero, ⟨5, .real, .fp32, .fp32, 0x01, 0, 0, 0, false, false, false, 255, 0⟩] }
    a := { w.a with mr := 0x50000, mx := 0x50000 } }

/-- Class 5 in an integer or index form, current in MR, with or without saturation, in a kernel that traps on ranges. -/
def whole (f : Fmt) (k : Kind) (sat : Bool) (w : Wave) : Wave :=
  { w with
    kern := { w.kern with classes := [classZero, ⟨5, k, f, f, f.id, 0, 16, 0, false, false, false, 255, 0⟩], traponrng := true }
    a := { w.a with mr := if sat then 0x50100 else 0x50000, mx := 0x50000 } }

/-- A wave in a handler. -/
def handler (w : Wave) : Wave :=
  { w with frame := some ⟨0, 0, w.a.splits, [], w.a.live, 0, 0, w.kern, false, 0⟩ }

/-- Does the issuing wave and split of a state meet a condition, and does nothing hinder the word? -/
def meets (s : State) (i : Instr) (ok : State → Wave → Split → Bool) : Bool :=
  match s.waves with
  | w :: _ =>
    match w.a.splits with
    | p :: _ => s.unhindered w p i && ok s w (p.stamp i s.slots)
    | [] => false
  | [] => false

/-- What `meets` says. -/
theorem meets_spec {s : State} {i : Instr} {ok : State → Wave → Split → Bool} (h : meets s i ok = true) :
    ∃ w p, s.fronts w p ∧ s.unhindered w p i = true ∧ ok s w (p.stamp i s.slots) = true := by
  unfold meets at h
  split at h
  · split at h
    · rw [Bool.and_eq_true] at h
      exact ⟨_, _, ⟨by simp [*], by simp [*]⟩, h⟩
    · cases h
  · cases h

/-- Does the issuing wave and split of a state meet a condition? -/
def fronted (s : State) (ok : Wave → Split → Bool) : Bool :=
  match s.waves with
  | w :: _ => match w.a.splits with
    | p :: _ => ok w p
    | [] => false
  | [] => false

/-- A condition that always holds. -/
def always : State → Wave → Split → Bool := fun _ _ _ => true

/-- The wave after one step of an instruction, if it answers a next state. -/
def after {α : Type} (i : Instr) (s : State) (f : State → Wave → α) : Option α :=
  match exec i s with
  | .next t => (t.wave? 3).map (f t)
  | _ => none

/-- A kernel of tier 2, whose odd lanes are shadows: 8 visible lanes in 16. -/
def paired (w : Wave) : Wave :=
  { w with kern := { w.kern with tier := 2 }, a := { w.a with sshadow := w.a.sregs, twins := w.a.tiles }, hshadow := w.hregs }

/-- The paired wave with a shadow copy of one scalar that differs from the primary. -/
def split_ (n : Nat) (w : Wave) : Wave :=
  let w := paired w
  { w with a := { w.a with sshadow := w.a.sregs.set n 7 } }

/-- The base state with the shadow copy of s1 changed. -/
def odd : State := withWave (split_ 1)

/-- The base state with a load of v1, in an MX class, at the port. -/
def loading : State := withWave fun w => { w with port := [⟨0, 0, 0x10000, .vload 1 none .mxfp8e4 .fp32 [⟨0, .crew 2 0, none, 0, .rne⟩]⟩] }

/-! ### The checks of fields refuse -/

theorem test_refuses_predicate_field : (Instr.sceq 0x10 1 2).wellFormed = false := by decide
theorem test_refuses_special_register : (Instr.sread 1 0x1C).wellFormed = false := by decide
theorem test_refuses_vector_destination : (Instr.vadd 0xC0 1 2).wellFormed = false := by decide
theorem test_refuses_vector_operand : (Instr.vadd 1 0xFB 2).wellFormed = false := by decide
theorem test_refuses_tile : (Instr.mzero 0x10).wellFormed = false := by decide
theorem test_refuses_pair : (Instr.vatcas 0xBF 1 2).wellFormed = false := by decide
theorem test_refuses_row : (Instr.mdrv 0xA1 0).wellFormed = false := by decide
theorem test_refuses_ballot_selector : (Instr.vballot 1 1 0x21).wellFormed = false := by decide
theorem test_refuses_counter : (Instr.wait 5 0).wellFormed = false := by decide
theorem test_refuses_scope : (Instr.fence 7 0).wellFormed = false := by decide
theorem test_accepts_its_limits :
    (Instr.sceq 0x0F 1 2).wellFormed = true ∧ (Instr.sread 1 0x1B).wellFormed = true ∧ (Instr.vadd 0xBF 0xFA 2).wellFormed = true ∧
      (Instr.wait 4 255).wellFormed = true ∧ (Instr.fence 6 3).wellFormed = true ∧ (Instr.mdrv 0xA0 15).wellFormed = true := by decide

/-! ### Words from the formats (R112-R125): class, opcode, then the fields -/

theorem test_decode_scalar :
    decodeWord (0b00#2 ++ 0x28#6 ++ 0x01#8 ++ 0x0002#16) = some (.sli 1 2) ∧
      decodeWord (0b00#2 ++ 0x20#6 ++ 0x01#8 ++ 0x03#8 ++ 0#8) = some (.sread 1 3) ∧
      decodeWord (0b00#2 ++ 0x34#6 ++ 0x14#8 ++ 0x0008#16) = some (.sldp 20 1) ∧
      decodeWord (0b00#2 ++ 0x05#6 ++ 0x04#8 ++ 0x05#8 ++ 0x06#8) = some (.sdiv 4 5 6) := by decide

theorem test_decode_vector :
    decodeWord (0b01#2 ++ 0x12#6 ++ 0x02#8 ++ 0xF9#8 ++ 0xF1#8) = some (.vand 2 0xF9 0xF1) ∧
      decodeWord (0b01#2 ++ 0x15#6 ++ 0x01#8 ++ 0xF9#8 ++ 0xC1#8) = some (.vshl 1 0xF9 0xC1) ∧
      decodeWord (0b01#2 ++ 0x22#6 ++ 0x02#8 ++ 0xF5#8 ++ 0#8) = some (.vmov 2 0xF5) ∧
      decodeWord 0x7A070320#32 = some (.vballot 7 3 0x20) := by decide

theorem test_decode_memory :
    decodeWord 0x810201F0#32 = some (.vst 2 1 0xF0) ∧ decodeWord 0x98000600#32 = some (.cpin 6) ∧
      decodeWord 0x99000900#32 = some (.cpout 9) ∧ decodeWord (0b10#2 ++ 0x21#6 ++ 4#4 ++ 1#4 ++ 0#16) = some (.fence 4 1) ∧
      decodeWord (0b10#2 ++ 0x20#6 ++ 3#8 ++ 0#8 ++ 7#8) = some (.wait 3 7) := by decide

theorem test_decode_matrix :
    decodeWord 0xA8000607#32 = some (.mma 0 6 7) ∧ decodeWord 0xA9040809#32 = some (.mmaz 4 8 9) ∧
      decodeWord 0xAE032000#32 = some (.mldv 3 0x20) ∧ decodeWord 0xAB100100#32 = some (.mdrv 0x10 1) ∧
      decodeWord 0xAD000009#32 = some (.mdrx 0 9) := by decide

theorem test_decode_control :
    decodeWord (0b11#2 ++ 0x00#6 ++ 0#4 ++ 0xFFFFE#20) = some (.bra 0xFFFFE) ∧ decodeWord 0xC11FFFFD#32 = some (.brp 1 0xFFFFD) ∧
      decodeWord 0xC5200005#32 = some (.brk 2 5) ∧ decodeWord 0xCA00F500#32 = some (.exit 0xF5) ∧
      decodeWord 0xCB010000#32 = some (.refill 1) ∧ decodeWord 0xC9000000#32 = some .land := by decide

theorem test_decode_system :
    decodeWord 0xCC000000#32 = some (.rgn 0) ∧ decodeWord 0xCE032A00#32 = some (.mode 0x032A) ∧
      decodeWord 0xD8151400#32 = some (.bindq 0x15 0x14 0) ∧ decodeWord 0xDC000000#32 = some .nop := by decide

theorem test_decode_refuses :
    decodeWord 0x27000000#32 = none ∧ decodeWord 0xC9000001#32 = none ∧ decodeWord 0x14010203#32 = none ∧
      decodeWord 0xDC000001#32 = none := by decide
/-! ### One word of every row of the opcode table, its fields at the places the table gives them -/

/-- Does each word decode to its instruction? -/
def decodes (l : List (Word32 × Instr)) : Bool := l.all fun x => decodeWord x.1 == some x.2

theorem test_words_scalar_0 : decodes [
    (0x00120D31, .sadd 0x12 0xd 0x31), (0x01120D31, .ssub 0x12 0xd 0x31), (0x02120D31, .smul 0x12 0xd 0x31),
    (0x03120D31, .smulh 0x12 0xd 0x31), (0x04120D31, .smulhu 0x12 0xd 0x31), (0x05120D31, .sdiv 0x12 0xd 0x31),
    (0x06120D31, .sdivu 0x12 0xd 0x31), (0x07120D31, .srem 0x12 0xd 0x31), (0x08120D31, .sremu 0x12 0xd 0x31),
    (0x09120D31, .sand 0x12 0xd 0x31), (0x0A120D31, .sor 0x12 0xd 0x31), (0x0B120D31, .sxor 0x12 0xd 0x31),
    (0x0C120D31, .sshl 0x12 0xd 0x31), (0x0D120D31, .sshr 0x12 0xd 0x31), (0x0E120D31, .ssra 0x12 0xd 0x31),
    (0x0F120D31, .smin 0x12 0xd 0x31), (0x10120D31, .smax 0x12 0xd 0x31), (0x11120D31, .sminu 0x12 0xd 0x31),
    (0x12120D31, .smaxu 0x12 0xd 0x31), (0x13120D31, .scmov 0x12 0xd 0x31), (0x14120D00, .spopc 0x12 0xd),
    (0x15120D00, .sclz 0x12 0xd), (0x16120D00, .sctz 0x12 0xd), (0x17120D31, .sbfx 0x12 0xd 0x31)] = true := by decide +kernel

theorem test_words_scalar_1 : decodes [
    (0x18120D31, .sbfi 0x12 0xd 0x31), (0x19120D00, .smov 0x12 0xd), (0x1A120D31, .sceq 0x12 0xd 0x31),
    (0x1B120D31, .scne 0x12 0xd 0x31), (0x1C120D31, .sclt 0x12 0xd 0x31), (0x1D120D31, .scle 0x12 0xd 0x31),
    (0x1E120D31, .scltu 0x12 0xd 0x31), (0x1F120D31, .scleu 0x12 0xd 0x31), (0x20120D00, .sread 0x12 0xd),
    (0x2100120D, .swrite 0x12 0xd), (0x22120D31, .sldl 0x12 0xd 0x31), (0x23120D31, .sldw 0x12 0xd 0x31),
    (0x24120D31, .sstl 0x12 0xd 0x31), (0x25120D31, .sstw 0x12 0xd 0x31), (0x26120D31, .sgetv 0x12 0xd 0x31),
    (0x28128A31, .sli 0x12 0x8a31), (0x29128A31, .slih 0x12 0x8a31), (0x2A128A31, .slix 0x12 0x8a31),
    (0x2B128A31, .sliy 0x12 0x8a31), (0x2C128A31, .saddi 0x12 0x8a31), (0x2D128A31, .sandi 0x12 0x8a31),
    (0x2E128A31, .sori 0x12 0x8a31), (0x2F128A31, .sxori 0x12 0x8a31), (0x30120029, .sshli 0x12 0x29)] = true := by decide +kernel

theorem test_words_scalar_2 : decodes [
    (0x31120029, .sshri 0x12 0x29), (0x32120029, .ssrai 0x12 0x29), (0x33128A31, .smuli 0x12 0x8a31),
    (0x34125188, .sldp 0x12 0xa31), (0x36120D31, .satadd 0x12 0xd 0x31), (0x37120D31, .satxchg 0x12 0xd 0x31),
    (0x38120D31, .satcas 0x12 0xd 0x31), (0x39120D31, .satmin 0x12 0xd 0x31), (0x3A120D31, .satmax 0x12 0xd 0x31),
    (0x3B120D31, .satand 0x12 0xd 0x31), (0x3C120D31, .sator 0x12 0xd 0x31), (0x3D120D31, .satxor 0x12 0xd 0x31)] = true := by decide +kernel

theorem test_words_vector_0 : decodes [
    (0x40120D31, .vadd 0x12 0xd 0x31), (0x41120D31, .vsub 0x12 0xd 0x31), (0x42120D31, .vmul 0x12 0xd 0x31),
    (0x43120D31, .vfma 0x12 0xd 0x31), (0x44120D31, .vfms 0x12 0xd 0x31), (0x45120D31, .vfnma 0x12 0xd 0x31),
    (0x46120D31, .vmin 0x12 0xd 0x31), (0x47120D31, .vmax 0x12 0xd 0x31), (0x48120D00, .vabs 0x12 0xd),
    (0x49120D00, .vneg 0x12 0xd), (0x4A120D31, .vdiv 0x12 0xd 0x31), (0x4B120D31, .vrem 0x12 0xd 0x31),
    (0x4C120D00, .vsqrt 0x12 0xd), (0x4D120D00, .vrsqrt 0x12 0xd), (0x4E120D00, .vrcp 0x12 0xd), (0x4F120D00, .vexp2 0x12 0xd),
    (0x50120D00, .vlog2 0x12 0xd), (0x51120D31, .vmulh 0x12 0xd 0x31), (0x52120D31, .vand 0x12 0xd 0x31),
    (0x53120D31, .vor 0x12 0xd 0x31), (0x54120D31, .vxor 0x12 0xd 0x31), (0x55120D31, .vshl 0x12 0xd 0x31),
    (0x56120D31, .vshr 0x12 0xd 0x31), (0x57120D31, .vsra 0x12 0xd 0x31)] = true := by decide +kernel

theorem test_words_vector_1 : decodes [
    (0x58120D00, .vpopc 0x12 0xd), (0x59120D00, .vclz 0x12 0xd), (0x5A120D31, .vceq 0x12 0xd 0x31),
    (0x5B120D31, .vcne 0x12 0xd 0x31), (0x5C120D31, .vclt 0x12 0xd 0x31), (0x5D120D31, .vcle 0x12 0xd 0x31),
    (0x5E120D31, .vcun 0x12 0xd 0x31), (0x5F120D31, .vsel 0x12 0xd 0x31), (0x60120D00, .vcvt 0x12 0xd),
    (0x61120D00, .vrnd 0x12 0xd), (0x62120D00, .vmov 0x12 0xd), (0x63120D00, .vfromp 0x12 0xd), (0x64120D00, .vtop 0x12 0xd),
    (0x65120D31, .vpand 0x12 0xd 0x31), (0x66120D31, .vpor 0x12 0xd 0x31), (0x67120D31, .vpxor 0x12 0xd 0x31),
    (0x68120D00, .vpnot 0x12 0xd), (0x70120D31, .vshfl 0x12 0xd 0x31), (0x71120D31, .vshup 0x12 0xd 0x31),
    (0x72120D31, .vshdn 0x12 0xd 0x31), (0x73120D31, .vbcast 0x12 0xd 0x31), (0x74120D00, .vscan 0x12 0xd),
    (0x75120D00, .vscanmax 0x12 0xd), (0x76120D00, .vscanmin 0x12 0xd)] = true := by decide +kernel

theorem test_words_vector_2 : decodes [
    (0x77120D00, .vredsum 0x12 0xd), (0x78120D00, .vredmax 0x12 0xd), (0x79120D00, .vredmin 0x12 0xd),
    (0x7A120D20, .vballot 0x12 0xd 0x20), (0x7B120D00, .vcount 0x12 0xd), (0x7C120D00, .vrank 0x12 0xd),
    (0x7D120D00, .vtag 0x12 0xd), (0x7E120000, .vgen 0x12)] = true := by decide +kernel

theorem test_words_memory_0 : decodes [
    (0x80120D31, .vld 0x12 0xd 0x31), (0x81120D31, .vst 0x12 0xd 0x31), (0x82120D31, .vldraw 0x12 0xd 0x31),
    (0x83120D31, .vstraw 0x12 0xd 0x31), (0x84120D31, .vldb 0x12 0xd 0x31), (0x85120D31, .vstb 0x12 0xd 0x31),
    (0x86120D31, .vldh 0x12 0xd 0x31), (0x87120D31, .vsth 0x12 0xd 0x31), (0x88120D00, .vlds 0x12 0xd),
    (0x89120D00, .vsts 0x12 0xd), (0x8A120D31, .vatadd 0x12 0xd 0x31), (0x8B120D31, .vatmin 0x12 0xd 0x31),
    (0x8C120D31, .vatmax 0x12 0xd 0x31), (0x8D120D31, .vatand 0x12 0xd 0x31), (0x8E120D31, .vator 0x12 0xd 0x31),
    (0x8F120D31, .vatxchg 0x12 0xd 0x31), (0x90120D31, .vatcas 0x12 0xd 0x31), (0x91120D31, .cxadd 0x12 0xd 0x31),
    (0x92120D31, .cxget 0x12 0xd 0x31), (0x9300120D, .cxclr 0x12 0xd), (0x98001200, .cpin 0x12), (0x99001200, .cpout 0x12),
    (0x9A001200, .cpgat 0x12), (0x9B001200, .cpsca 0x12)] = true := by decide +kernel

theorem test_words_memory_1 : decodes [
    (0x9C001200, .cpfill 0x12), (0x9D001200, .cplocal 0x12), (0xA012000D, .wait 0x12 0xd), (0xA1310000, .fence 0x3 0x1),
    (0xA8120D31, .mma 0x12 0xd 0x31), (0xA9120D31, .mmaz 0x12 0xd 0x31), (0xAA120000, .mzero 0x12),
    (0xAB120D00, .mdrv 0x12 0xd), (0xAC00120D, .mdrl 0x12 0xd), (0xAD00120D, .mdrx 0x12 0xd), (0xAE120D00, .mldv 0x12 0xd)] = true := by decide +kernel

theorem test_words_control_0 : decodes [
    (0xC008A315, .bra 0x8a315), (0xC138A315, .brp 0x3 0x8a315), (0xC238A315, .brn 0x3 0x8a315), (0xC308A315, .split 0x8a315),
    (0xC4000000, .join), (0xC538A315, .brk 0x3 0x8a315), (0xC600120D, .brx 0x12 0xd), (0xC708A315, .call 0x8a315),
    (0xC8000000, .ret), (0xC9000000, .land), (0xCA001200, .exit 0x12), (0xCB120000, .refill 0x12), (0xCC8A3157, .rgn 0x8a3157),
    (0xCD120D00, .bar 0x12 0xd), (0xCE8A3100, .mode 0x8a31), (0xCF0C5188, .modx 0x18a31), (0xD000120D, .seed 0x12 0xd),
    (0xD1001200, .launch 0x12), (0xD28A3157, .trap 0x8a3157), (0xD3000000, .brkpt), (0xD48A3157, .preoff 0x8a3157),
    (0xD5000000, .preon), (0xD6000000, .yield), (0xD78A3157, .sleep 0x8a3157)] = true := by decide +kernel

theorem test_words_control_1 : decodes [
    (0xD8120D31, .bindq 0x12 0xd 0x31), (0xD9000000, .nsclr), (0xDA000000, .tret), (0xDB120D31, .inject 0x12 0xd 0x31),
    (0xDC000000, .nop)] = true := by decide +kernel

/-! ### A state and operands that meet the hypotheses of each statement -/

/-- Does nothing hinder any of these words? -/
def free (s : State) (l : List Instr) : Bool := l.all fun i => meets s i always

theorem witness_ScalarArithmeticResults :
    free base [.sadd 1 2 3, .ssub 1 2 3, .smul 1 2 3, .smulh 1 2 3, .smulhu 1 2 3, .sand 1 2 3, .sor 1 2 3, .sxor 1 2 3, .sshl 1 2 3,
      .sshr 1 2 3, .ssra 1 2 3, .smin 1 2 3, .smax 1 2 3, .sminu 1 2 3, .smaxu 1 2 3, .scmov 1 2 3, .sdiv 1 2 3, .sdivu 1 2 3, .srem 1 2 3,
      .sremu 0 255 0] = true := by decide +kernel

theorem witness_ScalarBitAndCompareResults :
    free base [.smov 1 2, .spopc 1 2, .sclz 1 2, .sctz 0 255, .sbfx 1 2 3, .sbfi 1 2 3, .sceq 1 2 3, .scne 0 2 3, .sclt 15 2 3, .scle 1 2 3,
      .scltu 1 2 3, .scleu 1 2 3] = true := by decide +kernel

theorem witness_ScalarImmediateResults :
    free base [.sli 1 0xFFFF, .slih 1 0, .slix 1 5, .sliy 1 5, .saddi 1 0x8000, .sandi 1 5, .sori 1 5, .sxori 1 5, .sshli 1 63, .sshri 1 0,
      .ssrai 1 63, .smuli 0 5] = true := by decide +kernel

theorem witness_ReadsIntoScalars :
    (meets base (.sread 1 0x0C) (fun _ w _ => !w.flagsPending) && meets loading (.sread 1 0x0C) (fun _ w _ => w.flagsPending) &&
      free base [.sread 1 0x00, .sread 1 0x1B, .sgetv 1 2 3] &&
      meets base (.sldp 1 0) (fun s w _ => (s.launch? w.launch).isSome) && decide (wave.counter 4 < 256) &&
      (let s := { base with launches := base.launches.map fun (l : Launch) => { l with desc := { l.desc with deterministic := true } } }
       s.deterministic wave)) = true := by decide +kernel

/-- Are the copies of a scalar alike, and is a condition on its value met? -/
def valued (b : Nat) (f : Wave → Word64 → Bool) : State → Wave → Split → Bool := fun _ w _ => w.S b == w.Sh b && f w (w.S b)

theorem witness_SpecialRegisterWrites :
    (meets base (.swrite 0x0A 0) (valued 0 fun w x => w.mrLegal x) && meets base (.swrite 0x0B 0) (valued 0 fun w x => w.mxLegal x) &&
      [(0x90000 : Word64), 0x1000000, 1, 0xE00].all (fun x => fronted (withWave (scalars x 0 0)) fun w _ =>
        w.scalarThere 1 && !w.mrLegal (w.S 1)) &&
      [(0x90000 : Word64), 0x1000000, 1].all (fun x => fronted (withWave (scalars x 0 0)) fun w _ =>
        w.scalarThere 1 && !w.mxLegal (w.S 1)) &&
      meets base (.swrite 0x0C 1) (fun _ w _ => w.S 1 == w.Sh 1 && !w.flagsPending) &&
      meets loading (.swrite 0x0C 1) (fun _ w _ => w.S 1 == w.Sh 1 && w.flagsPending) &&
      [(0x0A : Byte), 0x0C, 0x0E, 0x0F, 0x10, 0x11, 0x12].all (fun n => meets odd (.swrite n 1) fun _ w _ => w.S 1 != w.Sh 1) &&
      meets (withWave handler) (.swrite 0x0D 1) (valued 1 fun _ _ => true) && meets base (.swrite 0x0E 1) (valued 1 fun _ _ => true) &&
      meets (withWave (scalars 0xFFFFFFFF 0 0)) (.swrite 0x0F 1) (valued 1 fun _ x => decide (x.toNat < 2 ^ 32)) &&
      meets (withWave (scalars 0x100000000 0 0)) (.swrite 0x0F 1) (valued 1 fun _ x => decide (2 ^ 32 ≤ x.toNat)) &&
      meets (withWave (scalars 0xFFFFFFFF 0 0)) (.swrite 0x10 1) (valued 1 fun _ x => decide (x.toNat < 2 ^ 32)) &&
      meets (withWave (scalars 0x100000000 0 0)) (.swrite 0x10 1) (valued 1 fun _ x => decide (2 ^ 32 ≤ x.toNat)) &&
      free base [.swrite 0x11 1, .swrite 0x12 1] &&
      [(0x14 : Byte), 0x15, 0x16, 0x17].all fun n => meets (withWave handler) (.swrite n 1) (valued 1 fun _ _ => true)) = true := by
  decide +kernel

/-- A crew of the launch on core 3. -/
def window : State := { base with crews := base.crews.map fun (c : Crew) => { c with core := 3 } }

theorem witness_LocalAddressRules :
    base.resolve wave 4092 4 = some (.crew 2 4092) ∧ base.resolve wave 4093 4 = none ∧ base.resolve wave 0x40000 1 = none ∧
      base.resolve wave 0x10000FFC 4 = some (.marver 1 0 0xFFC) ∧ base.resolve wave 0x0FFFFFFF 1 = none ∧
      base.resolve wave 0x14800000 1 = none ∧ base.resolve wave 0x1FFFFFFF 1 = none ∧
      window.resolve wave 0x200C0000 4 = some (.crew 2 0) ∧ window.resolve wave 0x200C0FFC 4 = some (.crew 2 0xFFC) ∧ base.resolve wave 0x20200000 1 = none ∧
      base.checkScalar wave split 0xFF00000000000008 8 = .ok 8 ∧ base.checkScalar wave split 0xFF00000000000004 8 ≠ .ok 4 := by
  decide +kernel

theorem witness_LocalAddressRules_checks :
    (let accs : List Access := [⟨0, 8, 4, 4⟩, ⟨1, 6, 4, 4⟩, ⟨2, 4092, 8, 4⟩, ⟨3, 5000, 4, 4⟩]
     let e (l : Nat) : Nat := [0xFF00000000000000, 0xFF00000000001000, 0xFF00000100000000, 0x1004, 0xFF00000010000002][l]?.getD 0
     base.checkLanes wave accs == some ⟨0x09, 4092, 0xC⟩ && base.checkLanes wave (accs.take 2) == some ⟨0x08, 6, 0x2⟩ &&
      (base.checkLanes wave (accs.take 1)).isNone &&
      base.checkElems wave 0xF accs == some ⟨0x09, 4092, 0xF⟩ && base.checkElems wave 0xF (accs.take 2) == some ⟨0x08, 6, 0xF⟩ &&
      base.checkOperands wave 0xF (accs.take 3) (accs.drop 3) == some ⟨0x09, 4092, 0xF⟩ &&
      base.checkOperands wave 0xF accs [] == some ⟨0x09, 4092, 0xC⟩ && base.checkOperands wave 0xF (accs.take 2) [] == some ⟨0x08, 6, 0x2⟩ &&
      base.check64 wave [0, 1, 2, 3] e 8 == some ⟨0x09, 0x1000, 0x6⟩ && base.check64 wave [0, 3] e 8 == some ⟨0x08, 0x1004, 0x8⟩ &&
      base.checkCells wave [0, 3, 4] e == some ⟨0x09, 0xFF00000000000000, 0x1⟩ && base.checkCells wave [3, 4] e == some ⟨0x08, 0x1004, 0x18⟩ &&
      base.checkClass wave .i4 0x7 (fun l => [8, 8, 16][l]?.getD 0) == some ⟨0x08, 16, 0x4⟩ &&
      base.checkClass wave .i4 0x3 (fun l => [4088, 4][l]?.getD 0) == some ⟨0x09, 4088, 0x1⟩ &&
      base.checkClass wave .mxfp8e4 0x1 (fun _ => 16) == some ⟨0x08, 16, 0x1⟩ && (base.checkClass wave .i4 0x3 fun _ => 8).isNone) = true := by
  decide +kernel

/-- Does a check pass? -/
def passes {α : Type} (r : Except Refused α) : Bool := match r with | .ok _ => true | .error _ => false

theorem witness_ScalarLocalAccessIssues :
    ([Instr.sldl 1 2 3, .sldw 1 2 3].all (fun i =>
        meets (withWave (scalars 0 8 16)) i (fun s w p =>
          passes (s.checkScalar w p (w.S 2 + w.S 3) 8) && passes (s.checkScalar w p (w.Sh 2 + w.Sh 3) 8)) &&
        meets (withWave (scalars 0 4093 2)) i (fun s w p => !passes (s.checkScalar w p (w.S 2 + w.S 3) 4))) &&
      [Instr.sstl 1 2 3, .sstw 1 2 3].all fun i => meets (withWave (scalars 7 8 16)) i fun s w p =>
        w.S 2 + w.S 3 == w.Sh 2 + w.Sh 3 && w.S 1 == w.Sh 1 && passes (s.checkScalar w p (w.S 2 + w.S 3) 8)) = true := by decide +kernel

theorem witness_ScalarLocalAccessIssues_stops :
    ([Instr.sldl 1 2 3, .sldw 1 2 3].all (fun i => meets (withWave (split_ 3 ∘ scalars 0 8 16)) i fun s w p =>
        passes (s.checkScalar w p (w.S 2 + w.S 3) 8) && !passes (s.checkScalar w p (w.Sh 2 + w.Sh 3) 4)) &&
      [Instr.sstl 1 2 3, .sstw 1 2 3].all fun i =>
        meets (withWave (scalars 7 4093 2)) i (fun s w p =>
          w.S 2 + w.S 3 == w.Sh 2 + w.Sh 3 && w.S 1 == w.Sh 1 && !passes (s.checkScalar w p (w.S 2 + w.S 3) 4)) &&
        meets odd i (fun _ w _ => w.S 1 != w.Sh 1)) = true ∧
    (let w := (withWave fun w => { w with port := [⟨0, 0, 0x10000, .sload 1 8 (.crew 2 0) (.crew 2 0)⟩] }).wave? 3
     (w.map fun w => (w.port.map PortAcc.job, w.boards.contains 0xC01)) = some ([.sload 1 8 (.crew 2 0) (.crew 2 0)], true)) := by
  decide +kernel

/-- With both trap directives off no class-C word traps. -/
theorem classTrap_off {w : Wave} (h : w.kern.traponrng = false) (k : w.kern.traponinv = false) (rows : List LaneRow) :
    w.classTrap rows = none := by
  simp [Wave.classTrap, h, k]

/-- The trap directives of a wave's kernel. -/
def trapon (inv rng : Bool) (w : Wave) : Wave := { w with kern := { w.kern with traponinv := inv, traponrng := rng } }

/-- v1 and v2, the same value in every lane. -/
def vectors (x y : Word32) (w : Wave) : Wave :=
  (w.writeV 1 (Mask.below 16) (fun _ => x) .general).writeV 2 (Mask.below 16) (fun _ => y) .general

/-- A real class whose magnitudes lie above 2^100, current in MR. -/
def huge (w : Wave) : Wave :=
  { w with
    kern := { w.kern with classes := [classZero, ⟨5, .real, .fp32, .fp32, 0x01, 100, 120, 0, false, false, false, 255, 0⟩] }
    a := { w.a with mr := 0x50000, mx := 0x50000 } }

theorem witness_VectorArithmeticResults :
    (free base [.vadd 1 2 3, .vsub 1 2 3, .vmul 1 2 3, .vfma 1 2 3, .vfms 1 2 3, .vfnma 1 2 3, .vmin 1 2 3, .vmax 1 2 3, .vabs 1 2, .vneg 1 2,
        .vrnd 1 2] &&
      free (withWave real) [.vadd 191 0xFA 0xF5, .vfma 1 2 3, .vrnd 1 2] &&
      meets (withWave (huge ∘ trapon false true ∘ vectors 0x40800000 0x40000000)) (.vadd 3 1 2) (fun _ w p =>
        ((w.classTrap (w.classRows (w.active p)
          (binaryExact 1 2 (fun rdn x y => ⟨(x.add rdn y).1, 0⟩) (fun x y => ⟨Val.ofInt (x + y), 0⟩) w p) w.usual)).map Prod.fst) == some 0x0F) &&
      meets (withWave (real ∘ trapon true false ∘ vectors 0xFFA00000 0)) (.vabs 3 1) (fun _ w p =>
        ((w.classTrap (w.classRows (w.active p)
          (unaryExact 1 (fun x => ⟨x, if x.isSignalling then 0x01 else 0⟩) (fun x => ⟨Val.ofInt x, 0⟩) w p) w.usual)).map Prod.fst) == some 0x10)) = true := by
  decide +kernel

theorem witness_VectorDivisionResults :
    (free base [.vdiv 1 2 3, .vrem 1 2 3, .vmulh 1 2 3] &&
      free (withWave real) [.vdiv 1 2 3, .vsqrt 1 2, .vrsqrt 1 2, .vrcp 1 2, .vexp2 1 2, .vlog2 1 2] &&
      meets (withWave (real ∘ trapon true false ∘ vectors 0xC0800000 0)) (.vsqrt 3 1) (fun _ w p =>
        ((w.classTrap (w.classRows (w.active p) (unaryExact 1 sqrtReal (fun x => ⟨Val.ofInt x, 0⟩) w p) w.usual)).map Prod.fst) == some 0x10)) =
      true := by decide +kernel

theorem witness_IntegerVectorArithmeticWraps :
    ([Instr.vadd 1 2 3, .vsub 1 2 3, .vmul 1 2 3].all (fun i => [(Fmt.i32, Kind.int, false), (.i16, .int, true), (.n32, .index, true)].all fun f =>
      meets (withWave (whole f.1 f.2.1 f.2.2)) i fun _ w _ => w.C.compute == f.1 && mrSat w.a.mr == f.2.2 && w.kern.traponrng &&
        w.outsideLanes w.C (w.list 0xFFFF) (fun _ => Val.ofInt 7) == [] && decide (w.W = 16 ∧ (w.vreg 1).lanes.length = 16 ∧ w.a.vregs.length = 192)) &&
      after (.vadd 3 1 2) (withWave (whole .i16 .int true ∘ vectors 0x7FFF 1)) (fun _ w => (w.V_ 3 0, w.a.ns.getLsbD 5)) == some (0x7FFF, true)) =
      true := by decide +kernel

theorem witness_RoundingResults_floats :
    ([(Machine.Float.fp32, 31, 23, 127, 0x7F7FFFFF), (.e4m3, 7, 3, 7, 0x7E), (.e2m1, 3, 1, 1, 0x7)].all (fun (x : Machine.Float × Nat × Nat × Int × Nat) =>
        let s := x.1
        let top := x.2.2.2.2
        let q : Int := (max (top / 2 ^ x.2.2.1) 1 : Nat) - x.2.2.2.1 - x.2.2.1
        let k := 2 ^ x.2.2.1 + top % 2 ^ x.2.2.1
        let r (c : Nat) (m : Nat) : Rounded := s.round false ⟨c, 0, false⟩ (.num false m (q - 2) false)
        r 0 (4 * k) == ⟨top, false, false⟩ && r 4 (4 * k - 2) == ⟨top, false, false⟩ && r 1 (4 * k - 1) == ⟨top - 1, false, false⟩ &&
          r 0 (4 * k + 1) == ⟨top, false, false⟩ && (r 3 (4 * k + 1)).ovf && (r 0 (4 * k + 4)).ovf && r 2 (4 * k + 4) == ⟨top, false, false⟩ &&
          (r 1 (4 * k + 5)).ovf && s.round true ⟨0, 0, false⟩ (.num true 1 (2 - x.2.2.2.1 - x.2.2.1 - 2) false) == ⟨2 ^ x.2.1, false, true⟩) &&
      takesUpper ⟨5, 0x8000, false⟩ false 4 5 0 2 1 == some true && takesUpper ⟨6, 0x7FFF, false⟩ false 4 5 0 2 1 == some false &&
      Machine.Float.e4m3.round false ⟨0, 0, false⟩ (.inf true) == ⟨0x7F, true, false⟩ && decide (2 ^ (3 + 20) ≤ 2 ^ 30)) = true := by decide +kernel

theorem witness_RoundingResults_others :
    (let g (c : Nat) (m : Nat) (e : Int) : Rounded := gr8Round ⟨c, 0, false⟩ (.num true m e false)
     g 0 33 (-5) == ⟨0x80 + 97, false, false⟩ && g 1 65 (-6) == ⟨0x80 + 96, false, false⟩ && g 0 5 11 == ⟨0x83, true, false⟩ && g 1 5 11 == ⟨0x83, false, false⟩ &&
      g 0 3 12 == ⟨0x83, true, false⟩ && g 3 3 12 == ⟨0x83, false, false⟩ && g 1 4 12 == ⟨0x83, true, false⟩ && g 2 1 (-16) == ⟨0x81, false, true⟩ &&
      Fmt.i8.convert ⟨0, 0, false⟩ (.num true 5 (-1) false) == ⟨0xFE, false, false, false, false⟩ &&
      Fmt.i8.convert ⟨4, 0, false⟩ (.num true 257 (-1) false) == ⟨0x80, false, false, false, true⟩ &&
      Fmt.n8.convert ⟨3, 0, false⟩ (.num false 1 (-30) true) == ⟨1, false, false, false, false⟩ &&
      (let b := mxConvert .mxfp4 false (List.replicate 32 ⟨0, 0, false⟩) (.num true 13 0 false :: List.replicate 31 (.num false 3 0 false))
       b.scale == 128 && blockElem .mxfp4 b.elems 0 == 0xF && blockElem .mxfp4 b.elems 1 == 3) &&
      (mxConvert .mxint8 true (List.replicate 32 ⟨0, 0, false⟩) (.num false 1 500 false :: List.replicate 31 .zero)).mxclamp &&
      dither 3 30 == 0x8000 && (paired wave).ctlWith 0xA00 0x300 1 2 3 == (paired wave).ctlWith 0xA00 0x300 1 2 2) = true := by decide +kernel

/-- R41's table: 0x61 is 2^0 · (1 + 1/32), and 0x03 is 2^13. -/
theorem test_gr8_codes : gr8Decode 0x61 = .num false 33 (-5) false ∧ gr8Decode 0x83 = .num true 1 13 false := by decide

/-- R55: a shadow lane uses its primary's c, whatever its own. -/
theorem test_shadow_draw :
    (let w := paired wave
     let v : Wave := { w with a := { w.a with lanes := w.a.lanes.set 3 { w.lane 3 with c := 7 } } }
     v.ctlWith 0xA00 0 1 2 3 == v.ctlWith 0xA00 0 1 2 2) = true := by decide +kernel

theorem witness_VectorBitwiseAndCompareResults :
    (free base [.vand 1 2 3, .vor 1 2 3, .vxor 1 2 3, .vshl 1 2 3, .vshr 1 2 3, .vsra 1 2 3, .vpopc 1 2, .vclz 1 2, .vceq 1 2 3, .vcne 1 2 3,
        .vclt 1 2 3, .vcle 1 2 3, .vcun 1 2 3] &&
      [Instr.vceq 3 1 2, .vcne 3 1 2, .vclt 3 1 2, .vcle 3 1 2, .vcun 3 1 2].all fun i =>
        meets (withWave (real ∘ trapon true false ∘ vectors 0xFFA00000 0)) i fun _ w p =>
          w.kern.traponinv && ((w.list (w.active p)).filter fun l => (w.srcVal 1 (.cls w.C) l).isSignalling) != []) = true := by
  decide +kernel

theorem witness_PredicateAndMoveResults :
    (free base [.vpand 1 2 3, .vpor 0 2 3, .vpxor 1 2 3, .vpnot 1 2, .vtop 1 2, .vfromp 1 2, .vmov 1 2] &&
      decide (15 < wave.a.preds.length)) = true := by decide +kernel

theorem witness_SelectAndConvertResults :
    (free base [.vsel 1 2 3, .vcvt 1 2] && free (withWave real) [.vcvt 1 2] &&
      meets (withWave (huge ∘ trapon false true ∘ vectors 0x40800000 0)) (.vcvt 3 1) (fun _ w p =>
        ((w.classTrap (w.classRows (w.active p) (fun l => ⟨w.srcVal 1 (.cls w.X) l, 0⟩) w.usual)).map Prod.fst) == some 0x0F)) = true := by
  decide +kernel

theorem witness_CrossLaneResults :
    free base [.vshfl 1 2 3, .vshup 1 2 3, .vshdn 1 2 3, .vbcast 1 2 3] = true := by decide +kernel

theorem witness_ScanReduceAndCountResults :
    (free base [.vscan 1 2, .vscanmax 1 2, .vscanmin 1 2, .vredsum 1 2, .vredmax 1 2, .vredmin 1 2, .vballot 1 2 0, .vballot 1 2 0x20,
        .vcount 1 2, .vrank 1 2, .vtag 1 2, .vgen 1] &&
      meets (withWave (huge ∘ trapon false true ∘ vectors 0x40800000 0)) (.vredmax 3 1) (fun _ w p =>
        ((w.classTrap (w.classRows (w.active p) (fun _ => exactExtremum true true ((w.list (w.active p)).map fun k => w.srcVal 1 (.cls w.C) k))
          w.usual)).map Prod.fst) == some 0x0F)) = true := by decide +kernel

/-- v1 holds in each lane the number of the lane. -/
def numbered (w : Wave) : Wave := w.writeV 1 (Mask.below 16) (fun l => BitVec.ofNat 32 l) .general

theorem witness_VectorLoadIssues :
    ([Instr.vldraw 3 1 2, .vldb 3 1 2, .vldh 3 1 2].all (fun i =>
        meets base i (fun s w p => (s.checkLanes w ((w.list (w.active p)).map fun l => ⟨l, 0, 4, 4⟩)).isNone) &&
        meets (withWave (vectors 0x40000 0)) i (fun s w p =>
          (s.checkLanes w ((w.list (w.active p)).map fun l => ⟨l, (w.src 1 .raw l + w.src 2 .raw l).toNat, 1, 1⟩)).isSome)) &&
      meets base (.vld 3 1 2) (fun s w p => (s.checkClass w w.C.storage (w.active p) fun _ => 0).isNone) &&
      meets (withWave (vectors 0x10000000 0)) (.vld 3 1 2) (fun s w p =>
        (s.checkClass w w.C.storage (w.active p) fun l => (w.src 1 .raw l + w.src 2 .raw l).toNat).isNone) &&
      meets (withWave (vectors 2 0)) (.vld 3 1 2) (fun s w p =>
        (s.checkClass w w.C.storage (w.active p) fun l => (w.src 1 .raw l + w.src 2 .raw l).toNat).isSome)) = true := by decide +kernel

theorem witness_VectorStoreIssues :
    ([Instr.vstraw 3 1 2, .vstb 3 1 2, .vsth 3 1 2].all (fun i =>
        meets base i (fun s w p => w.differing (w.active p) (fun l => 2 ^ 32 * (w.src 3 .raw l).toNat) == 0 &&
          (s.checkLanes w ((w.list (w.active p)).map fun l => ⟨l, 0, 4, 4⟩)).isNone) &&
        meets (withWave (vectors 0x40000 0)) i (fun s w p => w.differing (w.active p) (fun l => (w.src 1 .raw l).toNat) == 0 &&
          (s.checkLanes w ((w.list (w.active p)).map fun l => ⟨l, (w.src 1 .raw l).toNat, 1, 1⟩)).isSome) &&
        meets (withWave (paired ∘ numbered)) i (fun _ w p => w.differing (w.active p) (fun l => (w.src 1 .raw l).toNat) != 0)) &&
      meets base (.vst 3 1 2) (fun s w p => w.differing (w.active p) (fun l => (w.src 3 (.cls w.C) l).toNat) == 0 &&
        (s.checkClass w w.C.storage (w.active p) fun _ => 0).isNone && !w.kern.traponrng && !w.kern.traponinv) &&
      meets (withWave (huge ∘ trapon false true ∘ vectors 0x40800000 0)) (.vst 1 2 2) (fun s w p =>
        w.differing (w.active p) (fun l => (w.src 1 (.cls w.C) l).toNat) == 0 && (s.checkClass w w.C.storage (w.active p) fun _ => 0).isNone &&
          w.kern.traponrng && w.outsideLanes w.C (w.list (w.active p)) (w.srcVal 1 (.cls w.C)) != [])) = true := by decide +kernel

theorem witness_VectorStoreIssues_stops :
    (meets (withWave (paired ∘ numbered)) (.vst 3 1 2) (fun _ w p =>
        w.differing (w.active p) (fun l => (w.src 1 .raw l + w.src 2 .raw l).toNat) != 0) &&
      meets (withWave (vectors 2 0)) (.vst 3 1 2) (fun s w p => w.differing (w.active p) (fun l => (w.src 3 (.cls w.C) l).toNat) == 0 &&
        (s.checkClass w w.C.storage (w.active p) fun _ => 2).isSome) &&
      meets (withWave (real ∘ trapon true false ∘ vectors 0xFFA00000 0)) (.vst 1 2 2) (fun s w p =>
        w.differing (w.active p) (fun l => (w.src 1 (.cls w.C) l).toNat) == 0 && (s.checkClass w w.C.storage (w.active p) fun _ => 0).isNone &&
          w.kern.traponinv && (w.list (w.active p)).any fun l => (w.srcVal 1 (.cls w.C) l).isSignalling)) = true := by decide +kernel

theorem witness_SpillStackResults_stops :
    ([Instr.vlds 3 1, .vsts 3 1].all (fun i => meets (withWave (vectors 58 0)) i fun _ w p => (w.list (w.active p)).all fun l =>
        decide ((w.a.sp + w.src 1 .raw l).toNat + 4 ≤ w.kern.stack ∧ (w.a.sp + w.src 1 .raw l).toNat % 4 ≠ 0)) &&
      meets (withWave (vectors 61 0)) (.vsts 3 1) (fun _ w p => (w.list (w.active p)).contains 0 &&
        decide (w.kern.stack < (w.a.sp + w.src 1 .raw 0).toNat + 4)) &&
      meets (withWave (paired ∘ numbered)) (.vsts 3 1) (fun _ w p =>
        w.differing (w.active p) (fun l => (w.a.sp + w.src 1 .raw l).toNat) != 0)) = true := by decide +kernel

theorem witness_SpillStackResults :
    (meets (withWave (vectors 60 0)) (.vlds 3 1) (fun _ w p => (w.list (w.active p)).all fun l =>
        decide ((w.a.sp + w.src 1 .raw l).toNat + 4 ≤ w.kern.stack ∧ (w.a.sp + w.src 1 .raw l).toNat % 4 = 0)) &&
      meets (withWave (vectors 60 0)) (.vsts 3 1) (fun _ w p =>
        ((w.list (w.active p)).all fun l =>
          decide ((w.a.sp + w.src 1 .raw l).toNat + 4 ≤ w.kern.stack ∧ (w.a.sp + w.src 1 .raw l).toNat % 4 = 0)) &&
          w.differing (w.active p) (fun l => (w.a.sp + w.src 1 .raw l).toNat + 2 ^ 32 * (w.src 3 .raw l).toNat) == 0) &&
      meets (withWave (vectors 61 0)) (.vlds 3 1) (fun _ w p => (w.list (w.active p)).contains 0 &&
        decide (w.kern.stack < (w.a.sp + w.src 1 .raw 0).toNat + 4))) = true := by decide +kernel

theorem witness_AtomicIssues :
    ([Instr.satadd 1 2 3, .satxchg 1 2 3, .satcas 1 2 3, .satmin 1 2 3, .satmax 1 2 3, .satand 1 2 3, .sator 1 2 3, .satxor 1 2 3].all (fun i =>
        let agree (w : Wave) : Bool := w.S 1 == w.Sh 1 && w.S 2 == w.Sh 2 && w.S 3 == w.Sh 3
        meets (withWave (scalars 0 8 5)) i (fun s w _ => agree w && (s.outside64 w (w.S 2).toNat 8).isNone &&
          decide ((w.S 2).toNat % 8 = 0 ∧ homeOf (w.S 2).toNat ≠ 0xFF ∧ w.counter 3 < 255)) &&
        meets (withWave (scalars 0 0xFF00000000000008 5)) i (fun s w _ => agree w && (s.outside64 w (w.S 2).toNat 8).isNone) &&
        meets (withWave (scalars 0 0xFF00000000040000 5)) i (fun s w _ => agree w && (s.outside64 w (w.S 2).toNat 8).isSome) &&
        meets (withWave (scalars 0 4 5)) i (fun _ w _ => agree w && decide (homeOf (w.S 2).toNat ≠ 0xFF ∧ (w.S 2).toNat % 8 ≠ 0))) &&
      [Instr.vatadd 3 2 1, .vatmin 3 2 1, .vatmax 3 2 1, .vatand 3 2 1, .vator 3 2 1, .vatxchg 3 2 1, .vatcas 3 2 1].all fun i =>
        let e (w : Wave) (l : Nat) : Nat := (w.S 2 + (w.src 1 .raw l).setWidth 64).toNat
        meets (withWave (scalars 0 8 5)) i (fun s w p => w.differing (w.active p) (e w) == 0 &&
          (s.check64 w (w.list (w.active p)) (e w) 4).isNone && w.performers (w.active p) != [] && decide (w.counter 3 < 255)) &&
        meets (withWave (scalars 0 0xFF00000000040000 5)) i (fun s w p => w.differing (w.active p) (e w) == 0 &&
          (s.check64 w (w.list (w.active p)) (e w) 4).isSome)) = true := by decide +kernel

/-- An operation that is not complete. -/
def pendingOp (ctr : Option Nat) (kind : OpKind) : Op :=
  ⟨9, 0, ctr, 0, kind, 0x10000, 1, 0, [⟨0, 0, .pending, none⟩], [⟨0, 0, none, some (.crew 2 0), [none], [0], .read, 0⟩], none, 0, false⟩

/-- A predicate that stops every lane, in the guard of MR. -/
def masked (w : Wave) : Wave := { w with a := { w.a with mr := 0x1000 } }.setPred 1 (Mask.below 16) 0

/-- A wave with 255 operations on a counter. -/
def filled (ctr : Nat) (w : Wave) : Wave :=
  { w with ops := (List.range 255).map fun k => { pendingOp (some ctr) .cpin with key := k } }

theorem witness_AtomicIssues_stops :
    (let e (w : Wave) (l : Nat) : Nat := (w.S 2 + (w.src 1 .raw l).setWidth 64).toNat
     meets (withWave (filled 3 ∘ scalars 0 8 5)) (.satcas 1 2 3) (fun s w _ =>
        (s.outside64 w (w.S 2).toNat 8).isNone && decide (homeOf (w.S 2).toNat ≠ 0xFF ∧ 255 ≤ w.counter 3)) &&
      meets (withWave (filled 3 ∘ scalars 0 8 5)) (.vatcas 3 2 1) (fun s w p => (s.check64 w (w.list (w.active p)) (e w) 4).isNone &&
        (w.performers (w.active p)).any (fun l => homeOf (e w l) != 0xFF) && decide (255 ≤ w.counter 3)) &&
      [Instr.satadd 1 2 3, .satxchg 1 2 3, .satcas 1 2 3, .satmin 1 2 3, .satmax 1 2 3, .satand 1 2 3, .sator 1 2 3, .satxor 1 2 3].all (fun i =>
        meets (withWave (split_ 2 ∘ scalars 0 8 5)) i (fun _ w _ => w.S 2 != w.Sh 2)) &&
      [Instr.vatadd 3 2 1, .vatmin 3 2 1, .vatmax 3 2 1, .vatand 3 2 1, .vator 3 2 1, .vatxchg 3 2 1, .vatcas 3 2 1].all fun i =>
        meets (withWave (masked ∘ scalars 0 8 5)) i (fun s w p =>
          w.differing (w.active p) (e w) == 0 && (s.check64 w (w.list (w.active p)) (e w) 4).isNone && w.performers (w.active p) == []) &&
        meets (withWave (paired ∘ numbered)) i (fun _ w p => w.differing (w.active p) (e w) != 0)) = true := by decide +kernel

theorem witness_AtomicValues : atomicNew .cas 1 5 7 5 = some 7 ∧ atomicNew .cas 1 5 7 4 = none := by decide

theorem witness_AtomicValues_cells :
    (let c := CxCell.ofNat 0
     let one : Val := .num false 1 0 false
     let far : CxCell := CxCell.ofNat (2 ^ 383 - 1)
     c.add one == ⟨BitVec.ofNat 384 (2 ^ 192), false, false, false, false, false⟩ && (far.add one).ovp && ((c.add one).add (.num true 1 0 false)).value == 0 &&
      (c.add (.inf true)).ninf && (c.add (.nan false)).nan && (far.add one).read .fp32 .rne == ⟨0x7F800000, false, true, false, false⟩ &&
      (far.add one).read .i32 .rne == ⟨0x7FFFFFFF, false, false, false, true⟩ && c.read .bf16 ⟨2, 0, false⟩ == ⟨0, false, false, false, false⟩ &&
      ([(false, 1, 0), (true, 3, -192)].map fun (v : Bool × Nat × Int) => v.2.1 * 2 ^ (v.2.2 + 192).toNat).sum == 2 ^ 192 + 3 &&
      CxCell.ofNat (2 ^ 400 + 5) == ⟨5, false, false, false, false, false⟩) = true := by decide +kernel

theorem witness_CrucibleIssues :
    (let e (w : Wave) (l : Nat) : Nat := (w.S 2 + (w.src 1 .raw l).setWidth 64).toNat
     meets base (.cxadd 3 2 1) (fun s w p => w.differing (w.active p) (fun l => e w l + 2 ^ 64 * (w.src 3 (.cls w.C) l).toNat) == 0 &&
        (s.checkCells w (w.list (w.active p)) (e w)).isNone && w.performers (w.active p) != [] && decide (w.counter 4 < 255)) &&
      meets base (.cxclr 2 1) (fun s w p => w.differing (w.active p) (e w) == 0 && (s.checkCells w (w.list (w.active p)) (e w)).isNone) &&
      meets base (.cxget 3 2 1) (fun s w p => p.status == .ready && (s.checkCells w (w.list (w.active p)) (e w)).isNone &&
        w.list (w.active p) != [] && w.ops == []) &&
      meets (withWave (scalars 0 4 0)) (.cxadd 3 2 1) (fun s w p =>
        w.differing (w.active p) (fun l => e w l + 2 ^ 64 * (w.src 3 (.cls w.C) l).toNat) == 0 &&
        (s.checkCells w (w.list (w.active p)) (e w)).isSome)) = true := by decide +kernel

/-- A wave whose split waits in `cxget` for one cell, lane 0's; `came`: it has come; `status`: how its part stands. -/
def getting (came : Bool) (status : PartStatus) (cell : Nat) (w : Wave) : Wave :=
  { w with
    a := { w.a with splits := [{ split with status := .onCxget 9 }] }
    ops := [⟨9, 0, none, 0, .cxget 3, 0x10000, 1, 0, [⟨0, 0, status, none⟩],
      [⟨0, 0, none, none, (leBytes 64 cell).map some, [], .cxRead, 0⟩], some (w.matJob 0), 0, came⟩] }

theorem witness_CrucibleIssues_stops :
    (let e (w : Wave) (l : Nat) : Nat := (w.S 2 + (w.src 1 .raw l).setWidth 64).toNat
     [Instr.cxadd 3 2 1, .cxclr 2 1].all (fun i =>
        meets (withWave (filled 4)) i (fun s w p => (s.checkCells w (w.list (w.active p)) (e w)).isNone && decide (255 ≤ w.counter 4)) &&
        meets (withWave masked) i (fun s w p => (s.checkCells w (w.list (w.active p)) (e w)).isNone && w.performers (w.active p) == []) &&
        meets (withWave (paired ∘ numbered)) i (fun _ w p => w.differing (w.active p) (e w) != 0) &&
        meets (withWave (scalars 0 4 0)) i fun s w p => (s.checkCells w (w.list (w.active p)) (e w)).isSome) &&
      meets (withWave fun w => { w with ops := [pendingOp (some 4) .cxadd] }) (.cxget 3 2 1) (fun s w p => p.status == .ready &&
        (s.checkCells w (w.list (w.active p)) (e w)).isNone && w.ops.any fun o => o.kind == .cxadd && !o.complete) &&
      meets (withWave masked) (.cxget 3 2 1) (fun s w p =>
        (s.checkCells w (w.list (w.active p)) (e w)).isNone && w.ops == [] && w.list (w.active p) == []) &&
      meets (withWave (scalars 0 4 0)) (.cxget 3 2 1) (fun s w p => (s.checkCells w (w.list (w.active p)) (e w)).isSome)) = true := by
  decide +kernel

theorem witness_CrucibleIssues_return :
    (let waits (s : State) (f : Wave → Op → MatJob → Bool) : Bool :=
       fronted s fun w p => p.status == .onCxget 9 && (w.op? 9).any fun o => o.mat.any (f w o)
     let far (w : Wave) (o : Op) (job : MatJob) : List Nat :=
       let c := w.class_ (mrClass job.mr)
       w.outsideLanes c (w.list o.mask) fun _ => c.compute.valOf ((CxCell.ofNat (2 ^ 192)).read c.compute .rne).code
     waits (withWave (getting false .ready 0)) (fun _ o _ => !o.returned) &&
      waits (withWave (getting true (.refused 0x0D) 0)) (fun _ o _ =>
        o.returned && (o.pieces.filterMap fun x => (o.refusal x).map fun c => (x.lane, c, x.va)) == [(0, 0x0D, 0)]) &&
      waits (withWave (getting true .performed (2 ^ 192) ∘ huge ∘ trapon false true)) (fun w o job => o.returned &&
        o.pieces.all (fun x => (o.refusal x).isNone) && w.kern.traponrng && far w o job != []) &&
      waits (withWave (getting true .performed (2 ^ 192) ∘ real)) (fun w o _ => o.returned &&
        o.pieces.all (fun x => (o.refusal x).isNone) && !w.kern.traponrng && !w.kern.traponinv)) = true := by decide +kernel

/-- The bytes of a copy descriptor of four words of four bytes. -/
def copyBytes (gaddr laddr aux esz ctl : Nat) : List Byte :=
  leBytes 8 gaddr ++ leBytes 4 laddr ++ leBytes 4 4 ++ leBytes 4 1 ++ leBytes 4 1 ++ leBytes 24 0 ++ leBytes 8 aux ++ leBytes 1 esz ++
    leBytes 1 ctl ++ leBytes 6 0

/-- A state whose crew store holds bytes from an address up, with sA = s2 = that address. -/
def stored (at_ : Nat) (bs : List Byte) : State :=
  { withWave (scalars 0 (BitVec.ofNat 64 at_) (BitVec.ofNat 64 at_)) with
    crews := base.crews.map fun (c : Crew) => { c with store := c.store.writeBytes at_ bs } }

/-- A core with 256 copies under way, and its counters not full. -/
def crowded (s : State) : State :=
  { s with waves := s.waves.map fun w =>
      { w with ops := (List.range 256).map fun k => { pendingOp (some (k % 2)) .cpin with key := k } } }

/-- Does a copy pass all its checks at the descriptor in the crew store's byte 64? -/
def copies (s : State) (i : Instr) (f : CopyFn) (good refused : Bool) : Bool :=
  meets s i fun s w p =>
    let d := CopyDesc.ofBytes (s.readLocalBytes (.crew 2 64) 64)
    !w.partialMask p && w.S 2 == w.Sh 2 && decide (s.descAt w (w.S 2) 64 (w.active p) = .ok (.crew 2 64)) && w.port == [] && s.hasToken w &&
      s.softErrors == [] && d.legal f == good &&
      (!good || (s.checkElems w (w.active p) (d.accesses f)).isNone && d.tierRefused f w.kern.tier == refused &&
        decide (w.counter f.counter < 255))

theorem witness_CopyIssues_waits :
    (let s := crowded (stored 64 (copyBytes 0x1000 0x200 0 2 0))
     copies s (.cpin 2) .cin true false && fronted s fun w _ => s.copiesFull w.core &&
      ((s.waves.filter fun w => w.core == 0).map fun w => (w.ops.filter Op.copying).length).sum == 256) = true := by decide +kernel

theorem witness_CopyIssues :
    (copies (stored 64 (copyBytes 0x1000 0x200 0 2 0)) (.cpin 2) .cin true false &&
      copies (stored 64 (copyBytes 0x1000 0x200 0 2 0)) (.cpout 2) .cout true false &&
      copies (stored 64 (copyBytes 0x1000 0x200 0x300 2 0)) (.cpgat 2) .gat true false &&
      copies (stored 64 (copyBytes 0x1000 0x200 0x300 2 0)) (.cpsca 2) .sca true false &&
      copies (stored 64 (copyBytes 0x1000 0 7 2 0)) (.cpfill 2) .fill true false &&
      copies (stored 64 (copyBytes 0 0x200 0x300 2 0)) (.cplocal 2) .loc true false &&
      copies (stored 64 (copyBytes 0x1000 0x200 0 2 4)) (.cpout 2) .cout true true &&
      copies (stored 64 (copyBytes 0x1000 0x200 0 7 0)) (.cpin 2) .cin false false &&
      (let part (w : Wave) : Wave := { w with a := { w.a with splits := [{ split with lanes := Mask.below 8 }] } }
       [Instr.cpin 2, .cpout 2, .cpgat 2, .cpsca 2, .cpfill 2, .cplocal 2].all fun i =>
        meets (withWave part) i fun _ w p => w.partialMask p)) = true := by decide +kernel

theorem witness_WaitAndFenceHold :
    (let busy (w : Wave) : Wave := { w with ops := [pendingOp (some 0) .cpin] }
     meets base (.wait 0 0) (fun _ w _ => decide (w.counter 0 ≤ 0)) && meets (withWave busy) (.wait 0 0) (fun _ w _ => decide (0 < w.counter 0)) &&
      (let halted (w : Wave) : Wave := { w with a := { w.a with splits := [{ split with status := .fencing }] } }
       let failing (w : Wave) : Wave := { w with engineFault := some ⟨0, 0, 0, 0x0C, 0x1000, 1⟩ }
       let open_ (s : State) (w : Wave) : Bool := w.port == [] && w.ops == [] && s.sideLog == [] && s.hostWrites == 0
       let held (w : Wave) : Bool := w.ops.any fun o => o.kind == .cpin && o.parts.any fun q => !q.settled
       meets base (.fence 6 3) (fun s w _ => open_ s w && w.engineFault.isNone && w.matFault.isNone) &&
        meets (withWave (failing ∘ halted)) (.fence 6 3) (fun s w _ => open_ s w && (w.due fun _ _ => true).isSome) &&
        meets (withWave busy) (.fence 0 0) (fun _ w p => held w && p.status != .fencing) &&
        meets (withWave (busy ∘ halted)) (.fence 0 0) (fun _ w p => held w && p.status == .fencing))) = true := by decide +kernel

/-- The bytes of an operand or drain descriptor. -/
def matBytes (laddr stride cls ctl : Nat) : List Byte :=
  leBytes 4 laddr ++ leBytes 4 0 ++ leBytes 4 stride ++ leBytes 2 0 ++ leBytes 1 cls ++ leBytes 1 ctl ++ leBytes 16 0

/-- Are a drain's descriptor and its reading in order? -/
def drains (s : State) (w : Wave) (p : Split) : Bool :=
  decide (s.descAt w (w.S 2) 32 (w.active p) = .ok (.crew 2 64)) && w.port == [] && s.hasToken w && s.softErrors == []

theorem witness_MatrixWordsAndDrainsIssue :
    (let full (w : Wave) : Wave := { w with ops := (List.range 255).map fun k => { pendingOp (some 2) .mzero with key := k } }
     [Instr.mzero 0, .mldv 0 1, .mdrv 1 15].all (fun i => meets base i fun _ w _ => decide (w.counter 2 < 255)) &&
      [Instr.mzero 0, .mldv 0 1].all (fun i => meets (withWave full) i fun _ w _ => decide (255 ≤ w.counter 2)) &&
      meets (stored 64 (matBytes 0x200 128 0 0)) (.mdrl 0 2) (fun s w p =>
        let d := DrainDesc.ofBytes (s.readLocalBytes (.crew 2 64) 32)
        drains s w p && d.legal w.C.storage && decide (w.counter 2 < 255) &&
          (s.checkLanes w (((w.rowsOf (w.active p)).flatMap fun v => d.accesses w.C.storage (w.primary v) v).map Prod.snd)).isNone) &&
      meets (stored 64 (matBytes 0x204 128 0 0)) (.mdrl 0 2) (fun s w p =>
        drains s w p && !(DrainDesc.ofBytes (s.readLocalBytes (.crew 2 64) 32)).legal w.C.storage) &&
      meets (stored 64 (leBytes 32 0)) (.mdrx 0 2) (fun s w p =>
        let bs := s.readLocalBytes (.crew 2 64) 32
        drains s w p && decide (field bs 0x18 8 = 0 ∧ field bs 8 8 % 64 = 0 ∧ field bs 0x10 8 % 64 = 0 ∧ w.counter 2 < 255) &&
          (w.rowsOf (w.active p)).all fun v => (List.range 32).all fun c =>
            (s.outsideCell w (cellOf bs v c)).isNone && cellOf bs v c % 64 == 0) &&
      meets (stored 64 (leBytes 24 0 ++ leBytes 8 1)) (.mdrx 0 2) (fun s w p =>
        drains s w p && decide (field (s.readLocalBytes (.crew 2 64) 32) 0x18 8 ≠ 0))) = true := by decide +kernel

/-- The wave with as many operations on `mat` as its counter holds. -/
def matFull (w : Wave) : Wave := { w with ops := (List.range 255).map fun k => { pendingOp (some 2) .mzero with key := k } }

/-- A state whose waves are changed. -/
def changed (s : State) (f : Wave → Wave) : State := { s with waves := s.waves.map f }

theorem witness_MatrixWordsAndDrainsIssue_waits :
    (meets (changed (stored 64 (matBytes 0x200 128 0 0)) matFull) (.mdrl 0 2) (fun s w p =>
        let d := DrainDesc.ofBytes (s.readLocalBytes (.crew 2 64) 32)
        drains s w p && d.legal w.C.storage && decide (255 ≤ w.counter 2) &&
          (s.checkLanes w (((w.rowsOf (w.active p)).flatMap fun v => d.accesses w.C.storage (w.primary v) v).map Prod.snd)).isNone) &&
      meets (changed (stored 64 (leBytes 32 0)) matFull) (.mdrx 0 2) (fun s w p =>
        let bs := s.readLocalBytes (.crew 2 64) 32
        drains s w p && decide (field bs 0x18 8 = 0 ∧ field bs 8 8 % 64 = 0 ∧ field bs 0x10 8 % 64 = 0 ∧ 255 ≤ w.counter 2) &&
          (w.rowsOf (w.active p)).all fun v => (List.range 32).all fun c =>
            (s.outsideCell w (cellOf bs v c)).isNone && cellOf bs v c % 64 == 0) &&
      [Instr.mdrl 0 2, .mdrx 0 2].all fun i => meets (withWave (scalars 0 4 0)) i fun s w p =>
        !passes (s.descAt w (w.S 2) 32 (w.active p))) = true := by decide +kernel

theorem witness_MatrixWordsAndDrainsIssue_stops :
    (meets (withWave fun w => { trapon true false w with ops := [{ pendingOp (some 2) (.mma false) with mat := some (w.matJob 0) }] })
        (.mdrv 1 15) (fun _ w _ => w.mayFail) &&
      meets base (.mdrv 1 15) (fun _ w _ => !w.mayFail) &&
      meets (stored 64 (matBytes 0x38000 128 0 0)) (.mdrl 0 2) (fun s w p =>
        let d := DrainDesc.ofBytes (s.readLocalBytes (.crew 2 64) 32)
        drains s w p && d.legal w.C.storage &&
          (s.checkLanes w (((w.rowsOf (w.active p)).flatMap fun v => d.accesses w.C.storage (w.primary v) v).map Prod.snd)).isSome) &&
      [(0xFF00000000040000, true), (4, false)].all fun x =>
        meets (stored 64 (leBytes 8 x.1 ++ leBytes 24 0)) (.mdrx 0 2) fun s w p =>
          let bs := s.readLocalBytes (.crew 2 64) 32
          drains s w p && decide (field bs 0x18 8 = 0 ∧ field bs 8 8 % 64 = 0 ∧ field bs 0x10 8 % 64 = 0) && (w.rowsOf (w.active p)).contains 0 &&
            (w.rowsOf (w.active p)).all fun v => (List.range 32).all fun c =>
              (s.outsideCell w (cellOf bs v c)).isSome == x.2 && (x.2 || cellOf bs v c % 64 != 0)) = true := by decide +kernel

/-- Class 6 in I8, beside class 0. -/
def bytesClass (w : Wave) : Wave :=
  { w with kern := { w.kern with classes := [classZero, ⟨6, .int, .i8, .i32, 0x10, 0, 7, 0, false, false, false, 255, 0⟩] } }

/-- s2 and s3 give the descriptors of A, at byte 64, and of B, at byte 96. -/
def multiplied (addrA : Nat) (cls : Nat) : State :=
  let s := base.putWave (scalars 0 64 96 (bytesClass wave))
  { s with crews := s.crews.map fun (c : Crew) =>
      { c with store := (c.store.writeBytes 64 (matBytes addrA 32 cls 0)).writeBytes 96 (matBytes 0x800 32 6 0) } }

/-- Do the two descriptors of a product pass? -/
def multiplies (s : State) (i : Instr) (legal inBounds : Bool) (full : Bool := false) : Bool :=
  meets s i fun s w p =>
    let a := MatDesc.ofBytes (s.readLocalBytes (.crew 2 64) 32)
    let b := MatDesc.ofBytes (s.readLocalBytes (.crew 2 96) 32)
    let rows := w.rowsOf (w.active p)
    decide (s.descAt w (w.S 2) 32 (w.active p) = .ok (.crew 2 64) ∧ s.descAt w (w.S 3) 32 (w.active p) = .ok (.crew 2 96) ∧
        s.descAt w (w.Sh 2) 32 (w.active p) = .ok (.crew 2 64) ∧ s.descAt w (w.Sh 3) 32 (w.active p) = .ok (.crew 2 96)) &&
      w.port == [] && s.hasToken w && s.softErrors == [] && a.legal w false == legal &&
      (!legal || b.legal w true && a.fmt w == b.fmt w && decide (255 ≤ w.counter 2) == full && w.copies == [false] && w.latch == none &&
        (s.checkOperands w (w.active p) (rows.flatMap fun v => a.lineAccesses .i8 false (w.primary v) v)
          ((List.range 32).flatMap fun c => b.lineAccesses .i8 true 0 c)).isNone == inBounds)

theorem witness_MatrixMultiplyIssues :
    [Instr.mma 0 2 3, .mmaz 15 2 3].all (fun i =>
      multiplies (multiplied 0x200 6) i true true && multiplies (multiplied 0x204 6) i false true &&
        multiplies (multiplied 0xFF8 6) i true false && multiplies (changed (multiplied 0x200 6) matFull) i true true true) = true := by
  decide +kernel

/-- The same with another B, a third class, an illegal descriptor at byte 128, and the wave changed. -/
def multipliedBy (addrB clsB : Nat) (f : Wave → Wave) : State :=
  let s := multiplied 0x200 6
  let third (o : Object) : Object := { o with classes := o.classes ++ [⟨7, .real, .e4m3, .fp32, 0x01, 0, 0, 0, false, false, false, 255, 0⟩] }
  { s with
    waves := s.waves.map fun w => f { w with kern := third w.kern }
    crews := s.crews.map fun (c : Crew) =>
      { c with store := (c.store.writeBytes 96 (matBytes addrB 32 clsB 0)).writeBytes 128 (matBytes 0x204 32 6 0) } }

/-- The paired wave with the shadow copy of a scalar changed. -/
def shadowed (n : Nat) (x : Word64) (w : Wave) : Wave :=
  let w := paired w
  { w with a := { w.a with sshadow := w.a.sregs.set n x } }

theorem witness_MatrixMultiplyIssues_stops :
    [Instr.mma 0 2 3, .mmaz 15 2 3].all (fun i =>
      let da (s : State) : MatDesc := MatDesc.ofBytes (s.readLocalBytes (.crew 2 64) 32)
      let db (s : State) : MatDesc := MatDesc.ofBytes (s.readLocalBytes (.crew 2 96) 32)
      let found (s : State) (w : Wave) (p : Split) : Bool :=
        decide (s.descAt w (w.S 2) 32 (w.active p) = .ok (.crew 2 64) ∧ s.descAt w (w.S 3) 32 (w.active p) = .ok (.crew 2 96)) &&
          passes (s.descAt w (w.Sh 2) 32 (w.active p)) && passes (s.descAt w (w.Sh 3) 32 (w.active p)) && w.port == [] && s.hasToken w &&
          s.softErrors == []
      meets (multipliedBy 0x804 6 id) i (fun s w p => found s w p && (da s).legal w false && !(db s).legal w true) &&
        meets (multipliedBy 0x800 7 id) i (fun s w p => found s w p && (da s).legal w false && (da s).fmt w != (db s).fmt w) &&
        [2, 3].all (fun n => meets (multipliedBy 0x800 6 (shadowed n 128)) i fun s w p =>
          found s w p && (da s).legal w false && (db s).legal w true && (da s).fmt w == (db s).fmt w && w.paired &&
            decide (s.descAt w (w.Sh n) 32 (w.active p) = .ok (.crew 2 128)) &&
            !(MatDesc.ofBytes (s.readLocalBytes (.crew 2 128) 32)).legal w (n == 3)) &&
        meets (withWave (scalars 0 4 0)) i (fun s w p => !passes (s.descAt w (w.S 2) 32 (w.active p))) &&
        meets (withWave (scalars 0 64 4)) i fun s w p =>
          decide (s.descAt w (w.S 2) 32 (w.active p) = .ok (.crew 2 64)) && !passes (s.descAt w (w.S 3) 32 (w.active p))) = true := by
  decide +kernel

theorem witness_MatrixMultiplyIssues_shadows :
    [Instr.mma 0 2 3, .mmaz 15 2 3].all (fun i => [2, 3].all fun n =>
      meets (multipliedBy 0x800 6 (shadowed n 4)) i fun s w p =>
        decide (s.descAt w (w.S 2) 32 (w.active p) = .ok (.crew 2 64) ∧ s.descAt w (w.S 3) 32 (w.active p) = .ok (.crew 2 96)) &&
          passes (s.descAt w (w.Sh 2) 32 (w.active p)) == (n == 3) && passes (s.descAt w (w.Sh 3) 32 (w.active p)) == (n == 2)) = true := by
  decide +kernel

theorem witness_TileRowsWritten :
    wave.a.tiles.length = 16 ∧ 15 + wave.G ≤ wave.a.tiles.length ∧ (wave.tile false 15).words.length = 1024 := by decide +kernel

theorem witness_IntegerProductIsExactSum :
    Fmt.i8.tileInt = true ∧ Fmt.i4.tileInt = true ∧
      (productWord .i8 false (MatDesc.ofBytes (matBytes 0 32 6 0)) (MatDesc.ofBytes (matBytes 0x800 32 6 0)) [] [] 0 0 5).1 = 5 := by
  decide +kernel

/-- Predicate 1 true in the lanes of a mask. -/
def pred1 (m : Mask) (w : Wave) : Wave := w.setPred 1 (Mask.below 16) m

/-- The split on a chain of entries. -/
def chained (es : List Entry) (w : Wave) : Wave :=
  { w with a := { w.a with splits := [{ split with chain := es.map Entry.key }], entries := es } }

/-- A region round all sixteen lanes. -/
def region (k : Nat) : Entry := .region k 0x10000 (Mask.below 16) 0

theorem witness_BranchResults :
    (free base [.bra 0xFFFFE] &&
      [Instr.brp 1 5, .brn 1 5].all fun i =>
        let taken (w : Wave) (p : Split) : Mask := if i = .brp 1 5 then p.lanes &&& w.pred 1 else p.lanes.diff (w.pred 1)
        let differ (w : Wave) (p : Split) : Mask := w.differing p.lanes fun l => ((w.pred 1).has l).toNat
        [Mask.below 16, 0].any (fun m => meets (withWave (pred1 m)) i fun _ w p => differ w p == 0 && taken w p == p.lanes) &&
          [Mask.below 16, 0].any (fun m => meets (withWave (pred1 m)) i fun _ w p => differ w p == 0 && taken w p == 0) &&
          meets (withWave (pred1 (Mask.below 8))) i (fun _ w p => differ w p == 0 && taken w p != 0 && taken w p != p.lanes) &&
          meets (withWave (paired ∘ pred1 (Mask.below 7))) i fun _ w p => differ w p != 0) = true := by decide +kernel

/-- A kernel whose only word is `land`. -/
def landing : State := withKern (fun o => { o with code := [0xC9000000] }) (scalars 0x10000 0x10004 0)

theorem witness_IndirectBranchResults :
    (meets landing (.brx 1 0) (fun _ w p => w.differing p.lanes (fun l => (w.S 1 + (w.src 0 .raw l).setWidth 64).toNat) == 0 &&
        (w.list p.lanes).all fun l => w.instrAt (w.S 1 + (w.src 0 .raw l).setWidth 64).toNat == some .land) &&
      meets landing (.brx 2 0) (fun _ w p => (w.list p.lanes).contains 0 && w.instrAt (w.S 2 + (w.src 0 .raw 0).setWidth 64).toNat != some .land) &&
      free base [.land]) = true := by decide +kernel

theorem witness_RegionWordsAndClosing :
    (let deep := (List.range 64).map fun k => region (k + 10)
     let inRegion := withWave (chained [region 10])
     meets base (.split 5) (fun _ w p => decide (w.a.countRegions p.chain < 64)) &&
      meets (withWave (chained deep)) (.split 5) (fun _ w p => decide (64 ≤ w.a.countRegions p.chain)) &&
      meets base .join (fun _ w p => w.a.visibleRegions p.chain == []) &&
      meets inRegion .join (fun _ w p => w.a.visibleRegions p.chain == [10]) &&
      meets inRegion (.brk 1 5) (fun _ w p => decide (1 ≤ (w.a.visibleRegions p.chain).length)) &&
      meets inRegion (.brk 2 5) (fun _ w p => decide ((w.a.visibleRegions p.chain).length < 2))) = true ∧
    (let a := { wave.a with splits := [{ split with status := .atJoin 10 }] }
     ∃ p ∈ a.splits, p.status = .atJoin 10) := by
  refine ⟨by decide +kernel, ⟨_, List.mem_singleton.mpr rfl, rfl⟩⟩

theorem witness_CallReturnResults :
    (let deep := (List.range 64).map fun k => Entry.frame (k + 10) 0x10000
     meets base (.call 5) (fun _ w p => decide (w.a.countFrames p.chain < 64)) &&
      meets (withWave (chained deep)) (.call 5) (fun _ w p => decide (64 ≤ w.a.countFrames p.chain)) &&
      meets (withWave (chained [.frame 10 0x10008])) .ret (fun _ w p =>
        w.a.visibleRegions p.chain == [] && p.chain == [10] && w.a.entry? 10 == some (.frame 10 0x10008)) &&
      meets (withWave (chained [region 11, .frame 10 0x10008])) .ret (fun _ w p => w.a.visibleRegions p.chain != []) &&
      meets base .ret (fun _ _ p => p.chain == [])) = true := by decide +kernel

theorem witness_ExitResults :
    (let masked (w : Wave) : Wave := pred1 0 { w with a := { w.a with mr := 0x1000 } }
     let half (w : Wave) : Wave := { w with a := { w.a with splits := [{ split with lanes := Mask.below 8 }] } }
     let left (w : Wave) (p : Split) : Wave := (w.advance p).vacateLanes (w.active p)
     let alike (s : State) (w : Wave) (p : Split) : Bool :=
       !s.deterministic w && w.differing (w.active p) (fun l => (w.src 0 .raw l).toNat) == 0
     meets (withWave masked) (.exit 0) (fun s w p => alike s w p && w.active p == 0) &&
      meets (withWave half) (.exit 0) (fun s w p => alike s w p && w.active p != 0 && (left w p).a.live != 0) &&
      meets base (.exit 0) (fun s w p => alike s w p && w.active p != 0 && (left w p).a.live == 0 && w.frame.isNone)) = true := by
  decide +kernel

theorem witness_ExitResults_ends :
    (meets (withWave (paired ∘ numbered)) (.exit 1) (fun _ w p => w.differing (w.active p) (fun l => (w.src 1 .raw l).toNat) != 0) &&
      (let s (f : Wave → Wave) : State := withKern (fun o => { o with drain := some 0 }) f
       [s id, s fun w => w.markV 1 true, s fun w => { w with drained := true }].all (fun s => s.waves.all fun w =>
          w.kern.drain == some 0 && (s.launch? w.launch).any fun l => decide (l.total ≤ l.dealer)) &&
        (s id).waves.all (fun w => w.settled && w.demand.isNone && !w.drained) && (s fun w => w.markV 1 true).waves.all fun w => !w.settled)) =
      true := by decide +kernel

theorem witness_RefillResults_waits :
    meets (withWave fun w => w.markV 1 true) (.refill 1) (fun s w _ =>
      w.openRegions == 0 && !w.settled && (s.launch? w.launch).isSome) = true := by decide +kernel

/-- The launch rests on a bit of itself, as of a producer that has not completed, with items left to deal. -/
def resting (s : State) : State :=
  { s with launches := s.launches.map fun (l : Launch) => { l with deps := [(⟨1, 1, 0, 0, 0⟩, some 1)], bits := [0], dealer := 4 } }

theorem witness_RefillResults_fence :
    (let s := resting (withWave fun w => { w with a := { w.a with live := 0xFF, splits := [{ split with lanes := 0xFF }] } })
     meets s (.refill 1) (fun s w _ => w.openRegions == 0 && w.settled && s.launches.all fun l => s.dealRun l w.vacant.length != [] &&
       s.restsOnBit l (s.dealRun l w.vacant.length)) &&
      after (.refill 1) s (fun _ w => (w.a.splits.map Split.status, w.a.splits.all fun p => w.canTry p)) == some ([.acquiring], true)) = true := by
  decide +kernel

theorem witness_RefillResults :
    (meets (withWave (chained [region 10])) (.refill 1) (fun _ w _ => decide (0 < w.openRegions)) &&
      meets base (.refill 1) (fun s w _ => w.openRegions == 0 && w.settled &&
        (s.launch? w.launch).isSome && !s.deterministic w)) = true := by decide +kernel

/-- The base state with debug in its context. -/
def debugged (f : Wave → Wave) : State :=
  { withWave f with contexts := base.contexts.map fun (c : Context) => { c with debug := true } }

theorem witness_ModeSeedAndInjectResults :
    (free base [.mode 0, .mode 2, .modx 0, .modx 0x1F, .nsclr, .nop] && meets loading .nsclr (fun _ w _ => w.flagsPending) &&
      meets base (.seed 1 2) (fun _ w _ => w.S 1 == w.Sh 1 && w.S 2 == w.Sh 2) &&
      meets (withWave fun w => { paired w with a := { (paired w).a with sshadow := (paired w).a.sregs.set 1 7 } }) (.seed 1 2)
        (fun _ w _ => w.S 1 != w.Sh 1) &&
      meets (debugged (handler ∘ scalars 15 31 0)) (.inject 1 1 2) (fun _ w _ => decide ((w.S 1).toNat < w.W ∧ (w.S 2).toNat < 32)) &&
      meets (debugged (handler ∘ scalars 16 31 0)) (.inject 1 1 2) (fun _ w _ => decide (w.W ≤ (w.S 1).toNat)) &&
      meets (debugged (handler ∘ scalars 15 32 0)) (.inject 1 1 2) (fun _ w _ => decide (32 ≤ (w.S 2).toNat))) = true := by decide +kernel

theorem witness_ReadsIntoScalars_bindq :
    (free base [.bindq 1 2 0, .bindq 1 2 1] && (wave.kern.classRec 0).isSome && (wave.kern.classRec 1).isNone) = true := by decide +kernel

/-- The launch in deterministic mode, its wave visited. -/
def ordered (f : Wave → Wave) : State :=
  let s := withWave fun w => f { w with visiting := true }
  { s with launches := s.launches.map fun (l : Launch) => { l with desc := { l.desc with deterministic := true }, visiting := true } }

theorem witness_SectionAndSleepResults :
    (let within (w : Wave) : Wave := { w with preoff := some ⟨100, 100, 0⟩ }
     let left (s : State) (w : Wave) (x : Preoff) : Nat := x.bound - ((if s.deterministic w then w.a.retired + 1 else s.clock) - x.since)
     meets base (.preoff 10) (fun _ w _ => w.preoff.isNone) &&
      meets (withWave within) (.preoff 99) (fun s w _ => decide (99 < left s w ⟨100, 100, 0⟩) && w.preoff == some ⟨100, 100, 0⟩) &&
      meets (withWave within) (.preoff 100) (fun s w _ => decide (left s w ⟨100, 100, 0⟩ ≤ 100) && w.preoff == some ⟨100, 100, 0⟩) &&
      [Instr.sleep 1, .sleep 0, .yield, .preon].all (fun i => meets base i fun s w _ => !s.deterministic w) &&
      [Instr.sleep 1, .yield].all fun i => meets (ordered id) i fun s w _ => s.deterministic w) = true := by decide +kernel

theorem witness_RegionHeadResults :
    (let unsettled (w : Wave) : Wave := w.markV 1 true
     let failing (w : Wave) : Wave := { w with engineFault := some ⟨0, 0, 0, 0x0C, 0x1000, 1⟩ }
     let ready (w : Wave) : Bool := w.settled && w.intervalsClear w.a.splits.tail
     meets (withWave unsettled) (.rgn 0) (fun _ w _ => !ready w) &&
      meets (withWave handler) (.rgn 0) (fun _ w _ => ready w && w.system && w.engineFault.isNone && w.matFault.isNone) &&
      meets base (.rgn 0) (fun _ w _ => ready w && !w.system && w.engineFault.isNone && w.matFault.isNone) &&
      meets (withWave failing) (.rgn 0) (fun _ w _ => ready w && (w.due fun _ _ => true) == w.engineFault.map fun x => (false, x)) &&
      meets (withWave fun w => { w with matFault := some ⟨0, 0, 0, 0x0C, 0x1000, 1⟩ }) (.rgn 0) (fun _ w _ =>
        ready w && (w.due fun _ _ => true) == w.matFault.map fun x => (true, x)) &&
      decide (wave.a.sregs.length = 256 ∧ wave.a.vregs.length = 192 ∧ (paired wave).a.sshadow.length = 256 ∧ wave.a.preds.length = 16 ∧
        wave.a.tiles.length = 16 ∧ (paired wave).a.twins.length = 16)) = true := by decide +kernel

theorem witness_BarrierResults :
    (meets (withWave (chained [region 10])) (.bar 1 0) (fun _ w p => w.partialMask p) &&
      meets (withWave fun w => w.markV 1 true) (.bar 1 0) (fun _ w p => !w.partialMask p && !w.headReady) &&
      meets base (.bar 1 15) (fun _ w p => !w.partialMask p && w.headReady) &&
      [wave, handler wave].all (fun w =>
        let w := { w with a := { w.a with splits := [{ split with status := .atBar 15 1 }] } }
        w.a.splits == [{ split with status := .atBar 15 1 }] && w.a.preds.length == 16) &&
      (let crew : Crew := ⟨2, 1, 0, 0, [], List.replicate 16 [0], true, false⟩
       let s := { base with crews := [crew] }
       s.crew? 2 == some crew && nth crew.barriers 15 [] != [] &&
         s.waves.all fun w => w.crew == 2 && w.status != .retired && (nth crew.barriers 15 []).contains w.ordinal) &&
      (let crew : Crew := ⟨2, 1, 0, 0, [], List.replicate 16 [1], true, false⟩
       nth crew.barriers 0 [] != [] && base.waves.any fun w => w.crew == 2 && w.status != .retired && !(nth crew.barriers 0 []).contains w.ordinal)) =
      true := by decide +kernel

/-- The descriptor of a child launch of the object of the base state. -/
def childDesc_ : Desc := { placedDesc with launchid := 2 }

/-- A state whose crew store holds a launch descriptor at byte 64, with child launches accepted; `deep`: the caller is at depth 10. -/
def parent (d : Desc) (deep : Bool) : State :=
  let s := stored 64 d.toBytes
  { s with
    faccept := [0x81, 0, 0, 0]
    launches := s.launches.map fun (l : Launch) => { l with depth := if deep then 10 else 0 } }

/-- What `launch` finds: a descriptor in place and its caller; `free`: nothing of the wave's writes is left to perform; `logs`: its trace log cannot
be reached. -/
def launches_ (s : State) (deep refused : Bool) (free : Bool := true) (logs : Bool := false) : Bool :=
  meets s (.launch 2) fun s w p =>
    match s.childDesc w p (w.S 2), s.launch? w.launch with
    | .ok places, some l =>
      let d := Desc.ofBytes (places.map s.readLocal)
      w.S 2 == w.Sh 2 && w.port == [] && s.softErrors == [] && (l.depth == 10) == deep && (deep || s.refuses l.queue l.ctx d (some l) == refused) &&
        (deep || refused || passes (s.childSuccs w p d) && (s.demote l.key).released w 5 == free && (s.demote l.key).hasToken w &&
          ((s.demote l.key).acceptHolds l.queue l.ctx d).isSome == logs &&
          ((s.demote l.key).launch? w.launch).any fun l => !l.replayable && ((s.demote l.key).object? l.ctx d.handle).isSome)
    | _, _ => false

theorem witness_ChildLaunchResults :
    (launches_ (parent childDesc_ true) true false && launches_ (parent { childDesc_ with ex := 0 } false) false true &&
      launches_ (parent childDesc_ false) false false &&
      launches_ { parent childDesc_ false with
        launches := (parent childDesc_ false).launches.map fun (l : Launch) => { l with replayable := true } } false false &&
      launches_ { parent childDesc_ false with waves := [{ scalars 0 64 0 wave with ops := [pendingOp (some 0) .cpin] }] } false false false &&
      (let s := parent { childDesc_ with deterministic := true } false
       launches_ { s with
         faccept := [0x85, 0, 0, 0], queues := s.queues.set 0 { Queue.reset with context := 1, tlog := some (0x50000, 64, 1) } } false false true true) &&
      meets { parent childDesc_ false with waves := [scalars 0 0x48 0 wave] } (.launch 2) (fun s w p =>
        w.S 2 == w.Sh 2 && !passes (s.childDesc w p (w.S 2))) &&
      meets { parent childDesc_ false with
          waves := [{ paired wave with a := { (paired wave).a with sshadow := (paired wave).a.sregs.set 2 7 } }] } (.launch 2)
        (fun _ w _ => w.S 2 != w.Sh 2)) = true := by decide +kernel

theorem witness_ChildLaunchResults_waits :
    (let s (f : Wave → Wave) : State := withWave fun w => f
       { w with a := { w.a with splits := [{ split with status := .onLaunch 64 childDesc_.toBytes [], interval := [0] }] } }
     let found (s : State) (ok : Wave → Split → Bool) : Bool := fronted s fun w p =>
       p.status == .onLaunch 64 childDesc_.toBytes [] && (s.launch? w.launch).any (fun l =>
         (s.object? l.ctx (Desc.ofBytes childDesc_.toBytes).handle).isSome) && ok w p
     found (s id) (fun w p => w.mayIssue p && (s id).released w 5 && (s id).hasToken w &&
        ((s id).launch? w.launch).all fun l => ((s id).acceptHolds l.queue l.ctx childDesc_).isNone) &&
      (let t := s fun w => { w with ops := [pendingOp (some 0) .cpin] }
       found t fun w p => w.mayIssue p && !t.released w 5) &&
      found (s fun w => { w with demand := some ⟨0x20, 0x14, 0, 0, 0, false, none, 0, 8, 0⟩ }) fun w p => !w.mayIssue p) = true := by
  decide +kernel

theorem witness_TrapWordResults :
    (let masked (w : Wave) : Wave := pred1 0 { w with a := { w.a with mr := 0x1000 } }
     meets (withWave masked) (.trap 7) (fun _ w p => w.active p == 0) &&
      meets base (.trap 7) (fun _ w p => w.active p != 0 && !w.system) &&
      [(1 : BitVec 24), 2].all (fun i => meets (withWave handler) (.trap i) fun _ w p => w.active p != 0 && w.system) &&
      free base [.brkpt] && meets (withWave handler) .tret (fun _ w _ => (w.frame.map TrapFrame.fromLadder) == some false) &&
      meets (withWave fun w => { handler w with frame := (handler w).frame.map fun f => { f with fromLadder := true } }) .tret (fun _ w _ =>
        (w.frame.map TrapFrame.fromLadder) == some true)) = true := by
  decide +kernel

/-! ### Exceptions, frames and the port -/

theorem witness_IssueChecksInOrder :
    (let past (s : State) (w : Wave) (i : Instr) : Bool := fieldsLegal i && w.legalHere i && s.permitted w i && s.accepted i
     let mem (f : Wave → Wave) := withWave f
     (encode (.vadd 0 1 2)).isSome && fronted base (fun w p => p.status == .ready && !(fieldsLegal (.vadd 0xC0 1 2) && w.legalHere (.vadd 0xC0 1 2))) &&
      fronted base (fun w _ => fieldsLegal .tret && w.legalHere .tret && !base.permitted w .tret) &&
      fronted base (fun w _ => base.permitted w (.launch 1) && !base.accepted (.launch 1)) &&
      (let s := mem fun w => { w with engineFault := some ⟨0, 0, 0, 0x0C, 0x1000, 1⟩ }
       fronted s fun w p => past s w (.fence 0 0) && (w.due (w.delivers p (.fence 0 0))).isSome) &&
      (let s := mem fun w => { w.markV 2 true with a := { (w.markV 2 true).a with mx := 0xE000 } }
       fronted s fun w p => past s w (.vadd 3 1 2) && (w.due (w.delivers p (.vadd 3 1 2))).isNone && w.firstEmpty (.vadd 3 1 2) == some (.B, 2) &&
        w.emptyTraps .B) &&
      (let s := mem fun w => w.markV 2 true
       fronted s fun w _ => past s w (.vadd 3 1 2) && w.firstEmpty (.vadd 3 1 2) == some (.B, 2) && !w.emptyTraps .B) &&
      (let s := mem fun w => w.markV 3 true
       fronted s fun w _ => past s w (.vadd 3 1 2) && (w.firstEmpty (.vadd 3 1 2)).isNone && w.mustWait (.vadd 3 1 2))) = true := by
  decide +kernel

/-- The context of the base state with its handler at the only word. -/
def handled (f : Wave → Wave) : State :=
  { withWave f with contexts := base.contexts.map fun (c : Context) => { c with handler := 0x10000 } }

theorem witness_TakingATrap : wave.frame = none ∧ (handled id).handlerObj 1 = some (0x10000, placedObject 0xDC000000) := by
  decide +kernel

theorem witness_TrapBecomesContextFault :
    wave ∈ base.waves ∧ base.handlerObj wave.ctx = none ∧ (withWave handler).waves.any Wave.system = true := by
  refine ⟨?_, by decide +kernel, by decide +kernel⟩
  exact List.mem_singleton.mpr rfl

/-- Does the wave answer a next state in which one more word has retired? -/
def retires (s : State) (i : Instr) : Bool :=
  match exec i s with
  | .next t => (t.wave? 3).any fun v => v.a.retired == 1
  | _ => false

theorem witness_WordFrame :
    ([Instr.sadd 1 2 3, .smov 1 2, .sceq 1 2 3, .sli 1 5, .sread 1 3, .sgetv 1 2 3, .vadd 1 2 3, .vceq 1 2 3, .vmov 1 2, .vballot 1 2 0].all
        (fun i => retires base i && ((encode i).map fun c => decide (c.toNat < 0xC0000000)) == some true) &&
      [Instr.vld 1 2 3, .vst 1 2 3, .vsts 1 2, .satadd 1 2 3, .vatadd 1 2 3, .cxadd 1 2 3, .wait 0 0, .mzero 0, .mdrv 1 0].all
        fun i => retires base i) = true := by decide +kernel

theorem witness_ControlFrame :
    ([Instr.bra 5, .split 5, .call 5, .brp 1 5, .brn 1 5, .join, .land, .nop, .preon, .preoff 5].all (retires base) &&
      retires landing (.brx 1 0) && retires (withWave (chained [region 10])) (.brk 1 5) && retires (withWave (chained [.frame 10 0x10008])) .ret) = true := by decide +kernel

/-- The base state with an access at the head of the port. -/
def atPort (job : PortJob) : State := withWave fun w => { w with port := [⟨0, 0, 0x10000, job⟩] }

/-- An atomic on a local word. -/
def localAtomic : Op :=
  ⟨9, 0, none, 0, .satomic 1, 0x10000, 1, 0, [], [⟨0, 0xFF00000000000000, none, some (.crew 2 0), List.replicate 8 none, [0], .atomic .add 5 0, 0⟩],
    none, 0, false⟩

theorem witness_LocalPortPerforms :
    ([PortJob.store [(.crew 2 8, 0x5A, 0xFF)], .vload 1 (some 1) .i32 .i32 [⟨0, .crew 2 0, none, 0, .rne⟩], .sload 1 4 (.crew 2 0) (.crew 2 0)].all
        (fun j => ((atPort j).wave? 3).any fun w => w.port.map PortAcc.job == [j] && (atPort j).hasToken w && (atPort j).softErrors == []) &&
      (let s := withWave fun w => { w with port := [⟨0, 0, 0x10000, .atomic 9⟩], ops := [localAtomic] }
       (s.wave? 3).any fun w => w.op? 9 == some localAtomic && s.hasToken w) &&
      base.localCanonical && (base.crew? 2).isSome &&
      (match exec (.portAccess 3) (atPort (.store [(.crew 2 8, 0x5A, 0xFF)])) with
       | .next t => t.readLocal (.crew 2 8) == 0x5A && t.readLocal (.crew 2 9) == 0
       | _ => false)) = true := by decide +kernel

/-- A copy of one byte to main memory at a virtual address. -/
def written (va : Nat) (b : Byte) : Piece := ⟨0, va, none, none, [some b], [0], .write, 0⟩

theorem witness_LocalPortPerforms_main :
    (let leaf : Leaf := ⟨0x100000, 0, 1, 2, true, true, true, true, 0⟩
     let o : Op := ⟨9, 0, some 1, 0, .cpout, 0x10000, 1, 0, [⟨0, 0, .ready, some leaf⟩],
       [written 0 7, { written 64 0 with data := List.replicate 8 none, job := .atomic .add 5 0 }, { written 128 0 with job := .cxClear }], none, 0, false⟩
     let s := withWave fun w => { w with ops := [o] }
     let t := s.performPart wave o 0 ⟨0, 0, .ready, some leaf⟩ leaf none
     let e : LogEntry := ⟨5, 0, 3, 1, 1, 0, 4, 0, [(0, 7), (3, 9)], none, 0, 0, 1, 1, none, some leaf⟩
     s.softErrors == [] && s.shadows == [] && s.hbm.wf && s.hostMem.wf && s.launches.all (fun l => !l.replayable && l.log.isNone) &&
      !s.deterministic wave && o.pieces.all (fun x => x.part == 0 && x.mainDue && x.marverCell.isNone && decide (leaf.place x.va + o.extent x ≤ 2 ^ 52)) &&
      o.pieces.all (fun x => (o.stored s 0 (leaf.place x.va) x).isSome) && t.readPhys 0 0x100000 == 7 && t.readPhys 0 0x100001 == 0 &&
      (let t := s.storeLogged e leaf
       t.readPhys 0 0x100000 == 7 && t.readPhys 0 0x100003 == 9 && t.readPhys 0 0x100001 == 0) &&
      [Job.cxClear, .cxAdd .zero].all (fun j => ({ e with cell := some j }).cell == some j) &&
      (let x : Piece := ⟨0, 0, none, some (.crew 2 8), [some 7], [0], .local_, 0⟩
       let o : Op := { o with parts := [], pieces := [x] }
       let s := withWave fun w => { w with ops := [o] }
       ((s.wave? 3).bind fun w => w.op? 9) == some o && s.localCanonical && (s.crew? 2).isSome &&
        (s.performLocal { wave with ops := [o] } o none).readLocal (.crew 2 8) == 7)) = true := by decide +kernel

/-! ### Events of engines, waves and launches -/

/-- The leaf of page 0, from the first entry of the last table below. -/
def leaf0 : Leaf := ⟨0x100000, 0, 1, 2, true, true, true, true, 0x230000⟩

/-- Page tables that map virtual 0 and 0x30000 of die 0 to 0x100000 and 0x130000 (R317, R318). -/
def tables : Memory :=
  [(0x200000, 1), (0x200002, 0x21), (0x210000, 1), (0x210002, 0x22), (0x220000, 1), (0x220002, 0x23),
    (0x230000, 0x92), (0x230001, 0x0F), (0x230002, 0x10), (0x230018, 0x92), (0x230019, 0x0F), (0x23001A, 0x13)]

/-- The base state with these tables, and the second page's entry cached. -/
def mapped (f : Wave → Wave) : State :=
  { (withWave f).onHome 0 fun h => { h with cache := [⟨1, 0x30000, { leaf0 with pa := 0x130000, entry := 0x230018 }⟩] } with
    hbm := tables
    contexts := base.contexts.map fun (c : Context) => { c with roots := [(0, 0x200000)] } }

/-- A part of a copy to page 0. -/
def part (st : PartStatus) : Part := ⟨0, 0, st, some leaf0⟩

/-- A copy of one byte to address 0, in a part. -/
def copyOp (kind : OpKind) (st : PartStatus) (data : Option Byte) (left : List Nat) : Op :=
  ⟨9, 0, some 1, 0, kind, 0x10000, 1, 0, [part st], [⟨0, 0, some (.crew 2 0), none, [data], left, .write, 0⟩], none, 0, false⟩

/-- A job of a matrix instruction, not yet done. -/
def job : MatJob := wave.matJob 0

/-- The wave with one operation, and a store before it at the port or none. -/
def operating (o : Op) (before : Bool) (w : Wave) : Wave :=
  { w with ops := [o], port := if before then [⟨0, 0, 0x10000, .store []⟩] else [] }

/-- A side-logged byte of page 0, with the leaf in force for it. -/
def logged (l : Option Leaf) : LogEntry := ⟨5, 0, 3, 1, 1, 0, 4, 0, [(0, 7)], none, 0, 0, 1, 1, none, l⟩

theorem witness_EngineEventsTakePlace :
    (let turning : Op := { copyOp .mzero .performed none [] with seq := 1, ctr := some 2, parts := [], pieces := [], mat := some job }
     [true, false].all (fun b =>
        let w := operating turning b wave
        w.ops.find? (fun o => o.kind.isMatrix && !o.finishedAtTurn) == some turning && !job.done && w.portBefore turning.seq == b) &&
      (let o := copyOp .cpout .ready (some 7) [0]
       let s := mapped (operating o false)
       let w := operating o false wave
       (s.wave? 3).any (fun w => w.op? 9 == some o && !w.portBefore o.seq && !s.deterministic w) && o.kind.isMatrix == false &&
        o.parts[0]? == some (part .ready) && (part .ready).leaf == some leaf0 && s.orderMet w o 0 leaf0 &&
        !s.logsFirst w.ctx 0 ((o.partVa 0).getD 0) leaf0 && s.cellsMet w o (o.pieces.filter fun x => x.part == 0) &&
        o.pieces.all (fun x => !s.migratingLine (part .ready) leaf0 x) && s.launches.all (fun l => l.log.isNone) &&
        ({ s with sideLog := [logged (some leaf0)] } : State).logsFirst w.ctx 0 ((o.partVa 0).getD 0) leaf0) &&
      (let o := copyOp .cpout (.held (some 3)) (some 7) [0]
       o.kind.logs && !(operating o false wave).portBefore o.seq &&
        !(operating o false wave).writesBefore o o.pieces && (logWindows [(0, 7)]).length == 1 && o.pieces.all fun x => !x.data.contains none) &&
      (copyOp .cpout .performed (some 7) []).complete && !(copyOp .cpout .ready (some 7) [0]).complete &&
      (let o : Op := { copyOp (.satomic 1) .performed (some 7) [] with
          ctr := some 3, pieces := [⟨0, 0, none, none, List.replicate 8 (some 7), [], .atomic .add 5 0, 0⟩] }
       o.answered && !o.returned && o.pieces.filter (fun x => x.done && !o.refusedAt x) != []) &&
      (copyOp .cpout (.replied 0x0C 5) (some 7) [0]).parts[0]? == some (part (.replied 0x0C 5)) &&
      (let o : Op := { copyOp (.satomic 1) (.replied 0x0C 5) none [0] with ctr := some 3 }
       let s := mapped fun w => { w with ops := [o] }.markS 1 true
       after (.errorResponse 3 9 0) s (fun _ w => (w.isEmpty 0x101, w.engineFault.map Deferred.cause, w.ops.all Op.returned)) ==
         some (false, some 0x0C, true)) && !(copyOp (.satomic 1) .ready none [0]).answered && !(OpKind.cpout).returns &&
      [some leaf0, some { leaf0 with w := false }, none].all fun l =>
        let s := { mapped id with sideLog := [logged l] }
        s.sideLog.find? (fun y => y.core == 0 && y.key == 5) == some (logged l) && l.all fun l =>
          !s.replayWaits (logged (some l)) l && (s.entryError (logged (some l))).isNone && (s.checkLeaf 0 l 0 .write none).isNone == l.w) =
      true := by decide +kernel

theorem witness_WaveEventsTakePlace :
    (let waiting (dealer : Nat) : State :=
        let s := withWave fun w => { w with status := .awaitingDeal, a := { w.a with live := 0, splits := [] } }
        { s with launches := s.launches.map fun (l : Launch) => { l with dealer := dealer } }
     (waiting 4).waves.all (fun w => w.status == .awaitingDeal && w.settled && w.demand.isNone && !(waiting 4).deterministic w) &&
      (waiting 4).launches.all (fun l => (waiting 4).dealRun l 16 != [] && decide (l.dealer < l.total)) &&
      (waiting 16).launches.all (fun l => decide (l.total ≤ l.dealer)) && (waiting 16).waves.all (waiting 16).hasToken &&
      ({ wave with status := .retiring }).mayRetire &&
      (let w : Wave := { wave with preoff := some ⟨0, 100, 0⟩ }
       base.remaining w ⟨0, 100, 0⟩ == 0 && w.trapReady && w.status == .running) &&
      (let f : TrapFrame := ⟨0, 0, [], [], 0, 0, 0, wave.kern, false, 0⟩
       decide (f.started + 65536 ≤ ({ base with clock := 65536 } : State).clock)) &&
      (let w : Wave := { wave with a := { wave.a with splits := [{ split with board := [0x101] }] } }
       w.nextWrite 0 == some 0x101)) = true := by decide +kernel

theorem witness_WaveEventsTakePlace_deals :
    (let waiting (st : WaveStatus) (f : Wave → Wave) (g : Launch → Launch) : State :=
       let s := withWave fun w => f { w with status := st, a := { w.a with live := 0, splits := [] } }
       { s with launches := s.launches.map fun (l : Launch) => g { l with dealer := 4 } }
     let resting (l : Launch) : Launch := { l with deps := [(⟨1, 1, 0, 0, 0⟩, some 1)], bits := [0] }
     let reading (w : Wave) : Wave := { w with port := [⟨0, 0, 0x10000, .vload 1 none .i32 .i32 [⟨0, .crew 2 0, none, 0, .rne⟩]⟩] }
     let s := waiting .awaitingCreationDeal id id
     s.waves.all (fun w => w.status == .awaitingCreationDeal && !s.createdBefore w) && s.launches.all (fun l => s.dealRun l 16 != []) &&
      (waiting .awaitingDrain id id).waves.all (fun w => w.status == .awaitingDrain) &&
      [waiting .awaitingDeal id resting, waiting .awaitingDeal reading resting].all (fun s => s.launches.all fun l =>
        s.dealRun l 16 != [] && s.restsOnBit l (s.dealRun l 16) && !l.desc.deterministic && decide (l.dealer < l.total)) &&
      (waiting .awaitingDeal id resting).waves.all (fun w => w.settled && w.acquired) && (withWave reading).waves.all (fun w => !w.acquired) &&
      (let held (w : Wave) : Wave := { w with ops := [{ copyOp .cpin (.held none) none [0] with pieces := [] }] }
       [(id, true), (held, false)].all fun x => after (.waveDeal 3) (waiting .awaitingDeal x.1 resting)
         (fun _ w => (w.a.splits.map Split.status, w.a.splits.all fun p => w.canTry p)) == some ([.acquiring], x.2)) &&
      (waiting .awaitingDeal id fun l => { l with deps := [(⟨1, 1, 0, 0, 0⟩, some 1)] }).launches.all fun l =>
        (waiting .awaitingDeal id fun l => { l with deps := [(⟨1, 1, 0, 0, 0⟩, some 1)] }).dealRun l 16 == []) = true := by decide +kernel

theorem witness_WaveEventsTakePlace_sleep :
    (let s := withWave fun w => { w with a := { w.a with splits := [{ split with status := .asleep 0 false }] } }
     fronted s fun _ p => p.lanes.has 5 && p.status == .asleep 0 false && decide (0 ≤ s.clock)) = true := by decide +kernel

/-- What the entry of the log below stands as in memory (R373): a read of 0x5000 by the first wave at retired value 1. -/
theorem test_traceEntry :
    Memory.writeBytes [] 0x100040 (traceEntry 0 0x5000 1 0 0 0 (List.replicate 64 0)) = [(0x100048, 1), (0x100051, 0x50)] := by decide +kernel

/-- A launch that follows a trace log whose one entry, at the wave's place, is a read that its `cpin` does not make. -/
def following : State :=
  let s := withKern (fun o => { o with code := [0x98000100] }) (scalars 64 0 0)
  { s with
    contexts := (mapped id).contexts
    hbm := (0x100048, 1) :: (0x100051, 0x50) :: tables
    launches := s.launches.map fun (l : Launch) =>
      { l with desc := { l.desc with deterministic := true }, log := some ⟨0, 160, 2, 4, 1, 0, 0, 0, 0, 0⟩ } }

theorem witness_WaveEventsTakePlace_diverge :
    fronted following (fun w p => w.instrAt p.pc == some (.cpin 1) && (following.diverging w p (.cpin 1)).isSome &&
      ((following.launch? w.launch).bind following.logHolds).isNone) = true := by
  decide +kernel

/-- Queue 0 in the context of the base state, running, about to read the descriptor at virtual 0x30000, which holds bytes. -/
def queued (d : Memory) : State :=
  let s := mapped id
  { s with
    hbm := d ++ tables
    queues := s.queues.set 0 { Queue.reset with tail := 0x30000, status := 1, context := 1, reading := some (false, 0x30000) } }

/-- The bytes there of the descriptor of a child launch, with an extent. -/
def queuedDesc (ex : Byte) (det : Bool := false) : Memory :=
  [(0x130008, 1)] ++ (if ex = 0 then [] else [(0x130010, ex)]) ++ [(0x130014, 1), (0x130018, 1), (0x13001C, 1)] ++
    (if det then [(0x130034, 1)] else []) ++ [(0x130037, 0xFF), (0x130040, 2), (0x130052, 3), (0x130058, 1)]

/-- Does a queue read these bytes, and does it take or refuse the descriptor? `logs`: that of a deterministic launch whose trace log cannot be
reached. -/
def reads (ex : Byte) (refused : Bool) (logs : Bool := false) : Bool :=
  let s := queued (queuedDesc ex logs)
  let s := if logs then { s with
    faccept := [0x85, 0, 0, 0], queues := s.queues.set 0 { s.queue 0 with tlog := some (0x50000, 64, 1) } } else s
  let d : Desc := { childDesc_ with ex := ex.toNat, deterministic := logs }
  (s.queue 0).status == 1 && (s.queue 0).tail != 0 && (s.queue 0).reading == some (false, 0x30000) &&
    (match s.deviceRead 1 0x30000 128 with | .ok bs => bs == d.toBytes ++ List.replicate 32 0 | .error _ => false) &&
      let d := Desc.ofBytes (d.toBytes ++ List.replicate 32 0)
      s.refuses 0 1 d none == refused &&
        (refused || (match s.readSuccs 1 d with | .ok _ => true | .error _ => false) && (s.object? 1 d.handle).isSome &&
          (s.acceptHolds 0 1 d).isSome == logs)

/-- The launch of the base state changed, with every granule in its queue's mask. -/
def launching (f : Launch → Launch) : State :=
  let s := mapped id
  { s with
    launches := s.launches.map f
    queues := s.queues.set 0 { Queue.reset with status := 1, context := 1, mask := BitVec.allOnes 160 } }

/-- The launch of the base state. -/
def launch : Launch := (base.launches.headD (Launch.accepted 0 0 0 placedDesc (placedObject 0) 0 none))

theorem witness_LaunchEventsTakePlace_queue : (reads 16 false && reads 0 true && reads 16 false true) = true := by
  decide +kernel

theorem witness_LaunchEventsTakePlace_start :
    (let s := launching fun l => { l with state := .accepted, desc := { l.desc with params := 0x30000 } }
     s.launches.all fun l => s.launch? l.key == some l && s.startable l && !s.producerKilled l && !l.desc.deterministic &&
       match s.deviceRead l.ctx l.desc.params l.obj.params with | .ok _ => true | .error _ => false) = true := by decide +kernel

theorem witness_LaunchEventsTakePlace_order :
    [0x30000, 0x50000].all (fun params =>
      let s := launching fun l => { l with state := .accepted, desc := { l.desc with params := params } }
      let s := { s with launches := s.launches ++ s.launches.map fun (l : Launch) => { l with key := 8, order := 1 } }
      s.launches.all fun l => (s.launch? l.key).map Launch.key == some l.key && s.startable l && s.snapshotWaits l == decide (params = 0x50000)) =
      true := by decide +kernel

theorem witness_LaunchEventsTakePlace_place :
    (let s := { launching (fun l => { l with crewsMade := 0 }) with waves := [], crews := [] }
     s.launches.all fun l => s.placeTurn l && (s.nextPlace l).isSome && (s.firstStopped l).isNone) = true := by decide +kernel

theorem witness_LaunchEventsTakePlace_replace :
    (let s := launching id
     let s := { s with crews := s.crews.map fun (c : Crew) => { c with placed := false } }
     s.crews.all fun c => s.crew? c.key == some c && (s.launch? c.launch).any fun l =>
       (s.firstStopped l).map Crew.key == some c.key && s.placeTurn l && (s.nextPlace l).isSome) = true := by decide +kernel

theorem witness_LaunchEventsTakePlace_preempt :
    (let s := withWave fun w => { w with status := .retired }
     let s := { s with crews := s.crews.map fun (c : Crew) => { c with stopReq := true } }
     s.crews.all fun c => s.crew? c.key == some c && c.placed && c.stopReq && !s.boundTo c.key &&
       s.waves.all fun w => w.status == .retired || s.mayStop w) = true := by decide +kernel

theorem witness_LaunchEventsTakePlace_complete :
    (let s := launching fun l => { l with crewsRetired := 1 }
     s.launches.all fun l => s.launch? l.key == some l && s.mayComplete l && l.succs == [] && l.log.isNone && (s.queue l.queue).cword == 0 &&
       (s.deviceWaits l.ctx l.desc.recaddr 32).isNone) = true := by decide +kernel

theorem witness_LaunchEventsTakePlace_bitmap :
    (let s (exited : List Exited) := launching fun l => { l with desc := { l.desc with cblog := 0 }, exited := exited }
     (s [⟨3, 3, [], 0⟩]).launches.all (fun l => l.state == .started && decide (3 < l.blocks) && !l.bits.contains 3 && (s [⟨3, 3, [], 0⟩]).blockDone l 3) &&
      (s []).launches.all (fun l => l.desc.cblog != 0xFF && decide (15 < l.blocks) && !(s []).blockDone l 15)) = true := by decide +kernel

theorem witness_LaunchEventsTakePlace_token :
    (let s := launching fun l => { l with desc := { l.desc with deterministic := true } }
     s.launches.all (fun l => s.launch? l.key == some l && l.desc.deterministic && s.allPlaced l && !l.visiting) &&
      s.waves.all (fun w => !w.checkpointDue) && decide (0 < s.clusters.length) && s.clusters.all (fun c => !c.due) &&
      (nth ({ s with clusters := s.clusters.modify 0 fun c => { c with holding := true } } : State).clusters 0 Cluster.reset).holding) = true := by
  decide +kernel

theorem witness_LaunchEventsTakePlace_assay :
    (let s := withWave fun w => { w with a := { w.a with splits := [{ split with interval := [0] }] } }
     let s := { s with
       crews := s.crews.map fun (c : Crew) => { c with stopReq := true }
       clusters := s.clusters.modify 0 fun (c : Cluster) => { c with due := true } }
     (nth s.clusters 0 Cluster.reset).due && !(nth s.clusters 0 Cluster.reset).holding && s.integrityLog == [] && s.integrityLost == 0 &&
      s.waves.all (fun w => w.core == 0 && w.inInterval && !s.mayStop w && (s.crew? w.crew).map Crew.stopReq == some true) &&
      (s.delaying 0).map Wave.key == some 3 &&
      match exec (.assayDelayed 0) s with | .next t => t.integrityLog.length == 1 | _ => false) = true := by decide +kernel

/-! ### Events of homes, of the host and of errors -/

/-- The mapped state with home 0 changed, features accepted and every chip's first link up. -/
def homed (f : Home → Home) (g : Wave → Wave) : State :=
  { (mapped g).onHome 0 f with faccept := [0xFF, 0, 0, 0], linkMasks := List.replicate 28 1, stage := 3 }

theorem witness_HomeEventsTakePlace_parts :
    ([(true, 0, PartStatus.pending), (false, 0, .pending), (false, 40, .pending), (true, 0, .retryAfter 0), (false, 0, .retryAfter 9)].all fun x =>
      let o := copyOp .cpout x.2.2 (some 7) [0]
      let s := homed (fun h => { h with cache := if x.1 then [⟨1, 0, leaf0⟩] else [] }) fun w => operating o false { w with core := x.2.1 }
      (s.wave? 3).any fun w => w.op? o.key == some o && o.parts[0]? == some (part x.2.2) && decide ((part x.2.2).home < s.homes.length) &&
        ((s.home 0).cached w.ctx 0).isSome == x.1 && (w.core / 40 == 0) == decide (x.2.1 < 40) && (s.home 0).walked == []) = true := by
  decide +kernel

/-- A walk at home 0 for page 0, for a part of a die's own or of another's. -/
def walking (own : Bool) : Walk := ⟨1, 0, 0, 1, 0, own⟩

theorem witness_HomeEventsTakePlace_walks :
    [true, false].all (fun own =>
      let s := homed (fun h => { h with walks := [walking own, ⟨1, 0x30000, 0x30000, 1, 0, true⟩] }) id
      decide (0 < s.homes.length) && (s.home 0).walks[0]? == some (walking own) && (s.home 0).walks[1]? != none && s.walk 1 0 0 == .leaf leaf0 &&
        (own || decide (1 < Config.walksPerHome)) && s.waves.all fun w => w.ops == []) = true := by decide +kernel

theorem witness_HomeEventsTakePlace_leases :
    (let s := homed (fun h => { h with cache := [⟨1, 0, leaf0⟩] }) id
     s.feature 4 && !s.withdrawing 0 1 0 leaf0 && (s.home 0).cached 1 0 == some leaf0 && !s.bandClosed 0 leaf0.pa && s.peerUp 27 &&
      ((homed id id).home 0).cached 1 0 == none && ((homed id id).home 0).walked == [] &&
      !(State.reset.peerUp 27) && !(State.reset.feature 4) && decide (s.leasesHeldBy 27 < 1024)) = true := by decide +kernel

theorem witness_HomeEventsTakePlace_peers :
    (let s := homed (fun h => { h with cache := [⟨1, 0, leaf0⟩] }) id
     let closed := homed (fun h => { h with cache := [⟨1, 0, { leaf0 with w := false, a := false }⟩] }) id
     let logs := { s with sideLog := [logged (some leaf0)] }
     let written (op : PeerOp) (n : Nat) (b : Byte) : Bool := match exec (.peerRequest 27 1 0 none op) s with
       | .next t => t.readPhys 0 0x100000 == b && t.readPhys 0 (0x100000 + n) == 0
       | _ => false
     s.peerUp 27 && s.feature 4 && (s.home 0).cached 1 0 == some leaf0 && s.softErrors == [] && s.mainCanonical && (s.home 0).migrations == [] &&
      [Need.read, .write, .atomic].all (fun n => (s.checkLeaf 0 leaf0 0 n none).isNone) && !s.logsFirst 1 0 0 leaf0 && logs.logsFirst 1 0 0 leaf0 &&
      (closed.checkLeaf 0 { leaf0 with w := false, a := false } 0 .write none).isSome && !(State.reset.feature 4) &&
      written (.write [5, 6]) 2 5 && written (.atomic 0 4 7 0) 4 7 && written .cellClear 64 0 && written (.cellAdd true 0) 64 0 &&
      (atomicNew .cas 4 0 7 1).isNone && peerAtomic 9 == some .cas) = true := by decide +kernel

/-- A migration of page 0, its lines copied. -/
def moved : Migration := ⟨1, 0, 0x100000, 0x110000, 65536, [0x230000], 1024⟩

theorem witness_HomeEventsTakePlace_migration :
    (let g := moved
     let s := homed (fun h => { h with migrations := [g] }) id
     (s.home 0).migrations.find? (fun g => g.ctx == 1 && decide (g.va ≤ 0 ∧ 0 < g.va + g.size)) == some g && decide (g.size ≤ 64 * g.copied) &&
      (s.home 0).leases.all (fun x => !g.entries.contains x.leaf.entry) &&
      (let r : State := { homed id id with running := some (.reclass 0 255 1) }
       r.running == some (.reclass 0 255 1) && decide (255 < (r.home 0).tiers.length ∧ 0 < r.homes.length) && r.mainCanonical) &&
      decide (11 < s.linkRetries.length) && !s.linksDown.getLsbD 11 &&
      decide (15 ≤ nth ({ s with linkRetries := s.linkRetries.set 11 15 } : State).linkRetries 11 0)) = true := by decide +kernel

theorem witness_HostAndErrorEventsTakePlace_host :
    (State.reset.contexts == [] && (State.reset.bandTier 0 0x100000).isSome && !State.reset.bandClosed 0 0x100000 &&
      State.reset.softErrors == [] && State.reset.mainCanonical && (leBytes 4 1).length == 4 && !State.reset.loggedAt ⟨0, 0x100000⟩ &&
      !State.reset.lineCopied ⟨0, 0x100000⟩ &&
      ({ State.reset with stage := 2 } : State).stage == 2) = true := by decide +kernel

/-- A firmware header of no body, with the digest of the empty string. -/
def header : List Byte := leBytes 16 0 ++ sha512 [] ++ leBytes 16 0

theorem witness_HostAndErrorEventsTakePlace_firmware (h : Config.firmwareSignatureGood header = true) : firmwareGood header [] 0 = true := by
  have : ((header.drop 0x10).take 64 == sha512 (([] : List Byte).take (field header 8 8)) && decide (field header 8 8 ≤ 0) &&
    decide ((0 : Word32).toNat ≤ field header 4 4) && field header 0x50 4 / 2 == 0) = true := by decide +kernel
  simp_all [firmwareGood]

/-- A wave that has a checkpoint and a demand. -/
def demanding (w : Wave) : Wave :=
  { w with
    checkpoint := some ⟨w.a, 0x10000, none, 0, 0, false, none, none, 0, 0, false⟩
    demand := some ⟨0x10, 0x14, 0x10000, 1, 0, true, none, 0x10000, 8, 0⟩ }

theorem witness_HostAndErrorEventsTakePlace_ladder :
    ([0, 1].all (fun n => (withWave fun w => { demanding w with failures := n }).waves.all fun w =>
        w.demand.any (fun d => d.event != 0x12 && d.event != 0x20) && w.quiet && !w.inInterval && !w.system && !w.checkpointDue &&
          w.failures == n && w.checkpoint.any fun c => c.wrong == 0) &&
      base.launches.all (fun l => base.launch? l.key == some l && l.state == .started && !l.killed && !l.replayable) &&
      (let s := { launching (fun l => { l with replayable := true }) with
          contexts := base.contexts.map fun (c : Context) => { c with eb := 257 } }
       s.launches.all (fun l => l.replayable && !l.replaying && ((s.context? l.ctx).map fun c => decide (256 < c.eb.toInt)) == some true)) &&
      [true, false].all (fun there =>
        let s := launching fun l => { l with replayable := true, replaying := true }
        let s := { s with crews := s.crews.map fun (c : Crew) => { c with placed := there } }
        s.launches.all fun l => l.replayable && l.replaying && (s.logHolds l).isNone &&
          s.crews.any fun c => c.launch == l.key && c.placed == there) &&
      (base.crew? 2).isSome &&
      (let e : SoftErr := ⟨.crewStore 2 0, 1, false⟩
       let s := { base with softErrors := [e] }
       s.ownerOf e.site == some 1 && base.launches.all fun l => decide (0 < l.obj.crewstore))) = true := by decide +kernel

/-! ### Commands -/

/-- A state ready for a command. -/
def ready : State := { homed id id with running := none }

theorem witness_CommandsTakeEffect :
    (ready.running == none && ready.stage == 3 && State.reset.stage != 3 &&
      ({ ready with running := some (.reclass 0 1 1) } : State).running != none &&
      (ready.queue 255).status != 1 && ready.queuePlaced 0 && !ready.queuePlaced 255 && (queued []).queue 0 != Queue.reset &&
      ready.contexts.all (fun c => c.id == 1) &&
      ready.objects.all (fun o => o.ctx == 1 && o.codeVa == 0x10000 && o.code.length == 1) &&
      (let s := { ready with launches := ready.launches.map fun (l : Launch) => { l with state := .completed } }
       s.launches.all fun l => l.state == .completed) &&
      ready.shadows == [] && nth (ready.home 0).tiers 255 0 == 2 && decide (319 < ready.clusters.length ∨ 19 < ready.clusters.length) &&
      ({ ready with queues := ready.queues.set 0 { Queue.reset with context := 1 } } : State).sealedRW 1 0 64) = true := by decide +kernel

theorem witness_LongCommandsTakeEffect_pages :
    (ready.hasContext 1 && decide (3 < ready.homes.length) && ready.walk 1 0 0 == .leaf leaf0 && (ready.home 0).faults == [] && homeOf 0 == 0 &&
      ready.frameFits 0 leaf0 0x110000 && ready.lookup 1 0 0 == .leaf leaf0 &&
      (let s := homed (fun h => { h with faults := [⟨7, 1, 0, 0⟩] }) id
       (s.home 0).faults.any (fun f => f.ctx == 1 && decide (0 ≤ f.va ∧ f.va < 0x10000)) &&
        (s.home 0).faults.find? (fun f => f.tag == 7) == some ⟨7, 1, 0, 0⟩ && s.waves.all (fun w => w.ops == []) && s.sideLog == []) &&
      !ready.bandTargeted 0 255 &&
      (homed (fun h => { h with migrations := [moved] }) id).bandTargeted 0 0) = true := by decide +kernel

/-- Does an image pass the checks of a restore? -/
def passesImage (s : State) (bs : List Byte) : Bool := match s.checkImage 1 bs with | .ok _ => true | .error _ => false

theorem witness_LongCommandsTakeEffect_contexts :
    (!ready.hasContext 2 && ({ ready with queues := ready.queues.set 0 { Queue.reset with context := 1 } } : State).queue 0 != Queue.reset &&
      !ready.saveRefused 1 && ready.sealedRW 1 0x30000 65536 &&
      (match ready.readImageBytes 1 0x30000 with
       | .ok bs => !passesImage (ready.deviceTook 1 0x30000 bs.length) bs
       | .error _ => false) &&
      decide (128 + 64 * (ready.measures 1).length + 512 ≤ 4096)) = true := by decide +kernel

theorem witness_LongCommandsTakeEffect_image :
    (let s := { ready with hbm := [(0x130000, 0x44), (0x130001, 0x58), (0x130002, 0x53), (0x130004, 1), (0x130008, 64)] ++ tables }
     match s.readImageBytes 1 0x30000 with
     | .ok bs => passesImage (s.deviceTook 1 0x30000 bs.length) bs
     | .error _ => false) = true := by decide +kernel

/-- A code version without marver allotment and parameters. -/
def small : Object := { placedObject 0xDC000000 with marver := 0, params := 0 }

/-- A launch not started, whose descriptor has one successor's identifier at a virtual address. -/
def heir (at_ : Nat) : Launch := Launch.accepted 1 0 0 { placedDesc with nsucc := 1, succaddr := at_, deps := [0, 0, 0, 0] } small 0 none

/-- A state whose memory holds, at virtual 0x30000, the image of a context with this launch alone. -/
def moving (at_ : Nat) : State :=
  let s : State := { ready with objects := [small], launches := [heir at_], crews := [], waves := [] }
  let body := s.saveLaunch (heir at_)
  let image := [0x44#8, 0x58#8, 0x53#8, 0#8] ++ leBytes 2 1 ++ leBytes 2 1 ++ leBytes 8 (64 + body.length) ++ List.replicate 48 0 ++ body
  { s with launches := [], hbm := tables.foldr (fun x m => m.write x.1 x.2) (Memory.writeBytes [] 0x130000 image) }

theorem witness_LongCommandsTakeEffect_successors :
    ([(0x30004, true), (0x50000, false)].all fun x =>
      let s := moving x.1
      s.hasContext 1 && match s.readImageBytes 1 0x30000 with
        | .error _ => false
        | .ok bs =>
          let s := s.deviceTook 1 0x30000 bs.length
          match s.checkImage 1 bs with
          | .error _ => false
          | .ok r => (match s.readAllSuccs 1 r.1 with | .ok _ => true | .error _ => false) == x.2) = true := by decide +kernel

theorem witness_LongCommandsTakeEffect_certificate :
    State.reset.running = none ∧ (∃ size, Config.identityCertificate.length + 4 ≤ size) ∧ 0 < Config.identityCertificate.length + 4 :=
  ⟨rfl, ⟨_, le_refl _⟩, Nat.succ_pos _⟩

/-! ### Encoding and steps -/

theorem witness_EncodingRoundTrip : encode (.vadd 1 2 3) = some 0x40010203#32 ∧ decodeWord 0x40010203#32 = some (.vadd 1 2 3) := by decide

theorem witness_StepRunsTheDecodedWord :
    (base.agenda == [] && base.arrived.isNone && (match base.candidates with | [.issue k lane] => k == 3 && lane == 0 | _ => false) &&
      (base.tick.front 3 0).waves.all (fun w => w.codeObj.code[0]? == some 0xDC000000#32 && w.codeObj.codeVa == 0x10000)) = true ∧
    ((∃ u, base.pick base.candidates = some (.issue 3 0, u)) ∧ decodeWord 0xDC000000#32 = some .nop) := by
  refine ⟨by decide +kernel, ?_, by decide⟩
  have h : base.candidates = [.issue 3 0] := by decide +kernel
  exact ⟨_, by rw [h]; rfl⟩

theorem witness_StepRunsTheDecodedWord_others :
    ({ base with agenda := [.hostGoResponse] } : State).agenda = [.hostGoResponse] ∧
      (({ base with inputs := [(0, .hostGoResponse)] } : State).arrived.isSome = true) ∧
      (∃ s i u, s.agenda = [] ∧ s.arrived = none ∧ State.pick s s.candidates = some (.event i, u)) := by
  refine ⟨rfl, by decide, ?_⟩
  have h : ({ withWave fun w => { w with status := .retiring, a := { w.a with live := 0, splits := [] } } with inputs := [] } : State).candidates =
      [.event (.waveRetire 3)] := by decide +kernel
  exact ⟨_, _, _, rfl, rfl, by rw [h]; rfl⟩

theorem witness_StepKeepsMainMemory : base.mainCanonical = true ∧ after .nop base (fun t _ => t.mainCanonical) = some true := by
  decide +kernel

/-! ### Witnesses of clauses about legality, ordering, host accesses and errors -/

theorem witness_LocalAddressRules_reports :
    ((base.resolve wave 4090 8).isNone && (base.resolve wave 4 8).isSome && base.resolve wave 64 64 == some (.crew 2 64) &&
      (match base.descAt wave 0x100000000 64 7, base.descAt wave 4090 8 7, base.descAt wave 4 8 7, base.descAt wave 64 64 7 with
       | .error a, .error b, .error c, .ok d => a == ⟨0x09, 0x100000000, 7⟩ && b == ⟨0x09, 4090, 7⟩ && c == ⟨0x08, 4, 7⟩ && d == .crew 2 64
       | _, _, _, _ => false) &&
      (match base.checkScalar wave split 4 8 with | .error r => r == ⟨0x08, 4, wave.active split⟩ | .ok _ => false)) = true := by decide +kernel

theorem witness_RegionWordsAndClosing_all :
    (let a (pend arr : Mask) : Arch := { wave.a with
       splits := [{ split with status := .atJoin 10, chain := [10, 11] }], entries := [.region 10 0x20000 pend arr, region 11] }
     ((a 0xFFFF 0xFFFF).closeRegions.splits.map fun p => (p.pc, p.chain)) == [(0x20004, [11])] &&
      (a 0xFFFF 0xFFFF).closeRegions.entries == [region 11] &&
      (a 0xFFFF 1).closeRegions.entries == [.region 10 0x20000 0xFFFF 1, region 11] && (a 0 0).closeRegions.splits == []) = true := by decide +kernel

theorem witness_ChildLaunchResults_refused :
    (let d : Desc := { childDesc_ with launchid := placedDesc.launchid }
     let s (d : Desc) : State := withWave fun w => { w with a := { w.a with splits := [{ split with status := .onLaunch 64 d.toBytes [] }] } }
     [d, childDesc_].all fun x => fronted (s x) fun w p =>
       w.mayIssue p && (s x).released w 5 && (s x).hasToken w &&
        ((s x).launch? w.launch).any fun l => (s x).refusesNow l.queue (Desc.ofBytes x.toBytes) == (x == d)) = true := by decide +kernel

theorem witness_IssueChecksInOrder_legality :
    (wave.scalarThere 2 && (base.context? wave.ctx).isSome && wave.legalHere (.swrite 0x0A 2) && !(scalars 0 0xE00 0 wave).legalHere (.swrite 0x0A 2) &&
      !(real wave).legalHere (.vrem 1 2 3) && wave.legalHere (.vrem 1 2 3) && !wave.legalHere (.vmov 1 0xF3) && wave.legalHere (.vballot 1 1 0x20) &&
      !wave.legalHere (.vballot 1 1 1) && !wave.legalHere (.mzero 15) == !(decide (16 ≤ wave.kern.acc))) = true := by decide +kernel

theorem witness_EngineEventsTakePlace_order :
    (let leaf (k : Nat) : Leaf := { leaf0 with kind := k }
     let op (k seq key va : Nat) : Op := { copyOp .cpout .ready (some 7) [0] with
       key := key, seq := seq, parts := [⟨0, 0, .ready, some (leaf k)⟩], pieces := [⟨0, va, some (.crew 2 0), none, [some 7], [0], .write, 0⟩] }
     let w (k va : Nat) : Wave := { wave with ops := [op k 0 8 0, op k 1 9 va] }
     let s (e : List LogEntry) : State := { mapped id with sideLog := e }
     let e (k : Nat) : LogEntry := { logged (some (leaf k)) with seq := 0 }
     [(0, 0, false), (0, 5, false), (1, 0, false), (1, 5, true), (2, 0, true), (3, 0, true)].all (fun x =>
       (s []).orderMet (w x.1 x.2.1) (op x.1 1 9 x.2.1) 0 (leaf x.1) == x.2.2) &&
      [(0, false), (1, false), (2, true)].all (fun x => (s [e x.1]).orderMet { wave with ops := [op x.1 1 9 0] } (op x.1 1 9 0) 0 (leaf x.1) == x.2) &&
      (s [e 2]).logsFirst 1 0 0x2000 leaf0 && !(s [e 2]).logsFirst 1 0 0x10000 { leaf0 with pa := 0x110000 } &&
      (let add (seq : Nat) (left : List Nat) : Op := { op 2 seq (seq + 8) 0 with pieces := [⟨0, 0, none, none, [], left, .cxAdd .zero, 0⟩] }
       [[0], []].all fun left => (s []).cellsMet { wave with ops := [add 0 left, add 1 [0]] } (add 1 [0]) (add 1 [0]).pieces == (left == [])) &&
      (let turning : Op := { copyOp .mzero .performed none [] with parts := [], pieces := [], mat := some { job with done := true } }
       let other : Wave := { wave with key := 4, ops := [turning] }
       turning.begun == !turning.finishedAtTurn && ({ base with waves := [wave, other] } : State).unitTaken wave == turning.begun)) = true := by
  decide +kernel

theorem witness_WaveEventsTakePlace_cxget :
    (let w := getting true .performed 0 wave
     let w : Wave := { handler w with a := { w.a with splits := [] } }
     w.nextWrite 0 == none && (w.suspendedGet 0).isSome && w.frame.any fun f => f.splits.any fun p => p.status == .onCxget 9) = true := by decide +kernel

theorem witness_WaveEventsTakePlace_native :
    (let s := base
     s.objects.any (fun o => o.native == [] && s.versionUsed o) &&
      match s.objects with
      | o :: _ => (match exec (.nativeCodeReady o.handle o.version 0) s with | .next t => t.objects.all fun o => o.native == [0] | _ => false)
      | [] => false) = true := by decide +kernel

theorem witness_HomeEventsTakePlace_alias :
    decide (homeOf (2 ^ 48) = 0 ∧ (2 ^ 48) / 2 ^ 48 % 256 ≠ 0 ∧ homeOf (2 ^ 56) ≠ 0) = true := by decide +kernel

theorem witness_HostAndErrorEventsTakePlace_accesses :
    (let s : State := homed (fun h => { h with cache := [⟨1, 0, leaf0⟩] }) id
     let s : State := { s with hctx := 1 }
     let bad (bits : Nat) (poison : Bool) : State := { s with softErrors := [⟨.hbm 0 0x4000, bits, poison⟩] }
     let reads (s : State) (ok : State → Bool) : Bool := match exec (.hostMemAccess 0 0x100000 8 none) s with | .next t => ok t | _ => false
     let logs := { s with sideLog := [logged (some leaf0)] }
     (s.bandTier 3 (2 ^ 41 - 64)).isNone && (s.bandTier 3 0x100000).isSome && (s.onHome 3 fun h => { h with closed := [0] }).bandClosed 3 0x100000 &&
      logs.loggedAt ⟨0, 0x100000⟩ && (homed (fun h => { h with migrations := [{ moved with copied := 1024 }] }) id).lineCopied ⟨0, 0x100000⟩ &&
      reads (bad 1 false) (fun t => t.softErrors == []) && reads (bad 2 false) (fun t => t.softErrors == [⟨.hbm 0 0x4000, 2, true⟩]) &&
      (s.home 0).cached 1 0 == some leaf0 && (s.home 0).cached 1 (2 ^ 47) == none && (s.home 0).walked == [] &&
      (s.checkLeaf 0 leaf0 0 .read none).isNone && (s.checkLeaf 0 leaf0 0 .write none).isNone &&
      (s.checkLeaf 0 { leaf0 with w := false } 0 .write none).isSome && logs.logsFirst 1 0 0 leaf0 && !s.logsFirst 1 0 0 leaf0 &&
      (match exec (.hostMemAccess 1 0 0 (some [5])) s with | .next t => t.readPhys 0 0x100000 == 5 | _ => false) &&
      (match exec (.hostMemAccess 2 0x9000 0 (some [5])) s with | .next t => t.readPhys 4 0x9000 == 5 | _ => false)) = true := by decide +kernel

theorem witness_HostAndErrorEventsTakePlace_errors :
    (let checked (n : Nat) (p : Bool) (w : Wave) : Wave :=
       { w with checkpoint := some ⟨w.a, 0x10000, none, 0, 0, false, none, none, 0, n, p⟩ }
     let site : ErrSite := .crewStore 2 0
     let bad (e : SoftErr) : State := { base with softErrors := [e] }
     let free : State := { bad ⟨site, 1, false⟩ with waves := [] }
     base.siteTier site == some 2 && base.siteTier (.crewStore 99 0) == none && base.siteTier (.hbm 0 5) == some 2 &&
      (base.onHome 0 fun h => { h with tiers := h.tiers.set 0 0 }).siteTier (.hbm 0 5) == some 0 &&
      (base.onHome 0 fun h => { h with tiers := h.tiers.set 0 1 }).siteTier (.hbm 0 5) == some 1 && (base.errorAt site).isNone &&
      (bad ⟨site, 1, false⟩).errorAt (.crewStore 2 3) == some ⟨site, 1, false⟩ &&
      [(0, false), (1, false), (2, false), (2, true)].all (fun x => (withWave (checked x.1 x.2)).waves.all fun w =>
        w.checkpoint.any fun c => c.wrong == x.1 && c.poisoned == x.2) &&
      free.ownerOf site == none && base.ownerOf site == some 1 && base.ownerOf (.hbm 0 5) == none &&
      (match exec (.scrubPass site) free with | .next t => t.softErrors == [] && t.integrityLog.length == 1 | _ => false) &&
      (match exec (.scrubPass site) (bad ⟨site, 2, false⟩) with | .next t => t.softErrors == [⟨site, 2, true⟩] | _ => false) &&
      (match exec (.scrubPass (.hbm 0 5)) (bad ⟨.hbm 0 5, 1, false⟩) with | .next t => t.softErrors == [] | _ => false) &&
      (match exec (.softError (.crewStore 2 3) 1) (bad ⟨site, 1, false⟩) with | .next t => t.softErrors == [⟨site, 2, false⟩] | _ => false)) = true := by
  decide +kernel

theorem witness_CommandsTakeEffect_tlogset :
    (let s := { ready with queues := ready.queues.set 0 { Queue.reset with context := 1 } }
     !s.sealedRW 1 0x50000 64 && (granules 65536 0x50000 64).all (fun x => match s.lookup 1 (homeOf 0x50000) x.1 with | .poisoned _ _ => false | _ => true) &&
      decide (0x50000 % 64 = 0)) = true := by decide +kernel

theorem witness_LongCommandsTakeEffect_alias :
    (match ready.lookup 1 0 (2 ^ 48) with | .leaf _ => true | _ => false) = true := by decide +kernel

/-- A wave at a `nop` in a launch that follows a trace log, whose next entry is a read, with home 0's entry of the page of the log. -/
def followingBy (l : Option Leaf) : State :=
  { base.onHome 0 fun h => { h with cache := (l.map fun l => [⟨1, 0, l⟩]).getD [], ringBase := 0x10000, ringSize := 64 } with
    contexts := (mapped id).contexts
    hbm := (0x100048, 1) :: (0x100051, 0x50) :: if l.isSome then tables else []
    launches := following.launches.map fun (l : Launch) => { l with visiting := true } }

/-- Where one candidate alone would change something and is allowed, it is picked. -/
theorem pick_one {s : State} {cs : List Candidate} {c : Candidate} (h : 2 ≤ cs.length)
    (h' : (cs.filter s.effective).filter (s.mayChoose (s.readies (cs.filter s.effective))) = [c]) : ∃ u, s.pick cs = some (c, u) := by
  unfold State.pick
  split
  · simp at h
  · simp at h
  · simp only [h', List.length_singleton, Nat.mod_one]
    cases c <;> exact ⟨_, rfl⟩

theorem witness_StepRunsTheDecodedWord_log :
    ([(some leaf0, 0), (some { leaf0 with r := false }, 1), (none, 2)].all fun x =>
      let s := followingBy x.1
      let f := s.tick.front 3 0
      let live := s.candidates.filter s.effective
      decide (2 ≤ s.candidates.length) && live.filter (s.mayChoose (s.readies live)) == [.issue 3 0] && f.fetchFront == some .nop &&
        f.retires .nop && (f.divergesAt .nop).isSome == (x.2 == 0) &&
        (f.frontUnread.map fun y => y.2.holds) == (if x.2 = 0 then none else some (x.2 == 2))) = true := by decide +kernel

/-! ### Results, from the manual's worked examples or by hand from its tables -/

/-- Manual, "Frit bits and a stochastic decision". -/
theorem test_frit : frit 0x1000 0xA5 0x30000 5 = 0xE53E := by decide

/-- The same example under SRD: i = 5, phase 0. -/
theorem test_dither : dither 5 0 = 0xA000 := by decide

/-- Manual, "One GR8 value from each band": the code of each band reads as its value. -/
theorem test_gr8_decode :
    [(0x70, 3, (-1 : Int)), (0x1B, 3, 3), (0x0A, 1, -9), (0x06, 1, 11), (0x02, 1, -14), (0x01, 1, -15)].all (fun x =>
      (gr8Decode x.1).cmp (.num false x.2.1 x.2.2 false) == .eq) = true ∧ (gr8Decode 0xA4).cmp (.num true 3 (-4) false) = .eq := by decide

/-- Manual, the ties of the same section. -/
theorem test_gr8_ties :
    (gr8Round .rne (.num false 80 0 false)).code = 0x1E ∧ (gr8Round .rne (.num false 112 0 false)).code = 0x0C ∧
      (gr8Round .rne (.num false 1 (-16) false)).code = 0x00 := by decide

/-- R52: Max + g = 3 · 2^12 of GR8, and that of FP16, are an overflow under RNE and none under RTZ. -/
theorem test_max_plus_g :
    (let rtz : RoundCtl := ⟨1, 0, false⟩
     (gr8Round .rne (.num false 3 12 false), gr8Round rtz (.num false 3 12 false)) = (⟨3, true, false⟩, ⟨3, false, false⟩) ∧
       (Float.fp16.round false .rne (.num false 1 16 false), Float.fp16.round false rtz (.num false 1 16 false)) =
         (⟨0x7C00, true, false⟩, ⟨0x7BFF, false, false⟩)) := by decide

/-- Manual, "Frit bits and a stochastic decision": 1 + 2^−10 to BF16 under SRF, RNE and SRD. -/
theorem test_bf16_stochastic :
    (Fmt.bf16.convert ⟨5, 0xE53E, false⟩ (.num false 1025 (-10) false)).code = 0x3F81 ∧
      (Fmt.bf16.convert .rne (.num false 1025 (-10) false)).code = 0x3F80 ∧
      (Fmt.bf16.convert ⟨6, 0xA000, false⟩ (.num false 1025 (-10) false)).code = 0x3F80 := by decide

/-- R235, R343: an `mmaz` that would set invalid under `.trapon invalid` (∞ · 0) performs nothing at its turn and makes no tile word sound. -/
theorem test_failed_mmaz_leaves_tile :
    (let fp16 (w : Wave) : Wave := trapon true false { w with
       kern := { w.kern with classes := [classZero, ⟨5, .real, .fp16, .fp32, 0x01, 0, 0, 0, false, false, false, 255, 0⟩] }, latch := some ⟨[], 1, []⟩ }
     let w := fp16 wave
     let j : MatJob := { job with aDesc := matBytes 0 64 5 0, bDesc := matBytes 0 64 5 0, mr := 0x50000 }
     let o : Op := { copyOp (.mma true) .performed none [] with
       ctr := some 2, mask := 1, parts := [], pieces := [⟨0, 0, none, none, [some 0, some 0x7C], [], .local_, 0⟩], mat := some j }
     let s := { withWave (fun w => { fp16 w with ops := [o] }) with softErrors := [⟨.tile 3 0 0 false, 2, true⟩] }
     let t := s.turn { w with ops := [o] } o j
     (w.relatch o j).invalidRows o j true == [0] && t.softErrors == s.softErrors && t.waves.all fun w => w.matFault.any fun d => d.cause == 0x10) =
      true := by decide +kernel

/-- R331: a poisoned table entry stays so until all its eight bytes are written, and is sound from then on. -/
theorem test_entry_heals_whole :
    (let half (va : Nat) : Piece := ⟨0, va, some (.crew 2 0), none, List.replicate 4 (some 7), [0, 1, 2, 3], .write, 0⟩
     let o : Op := { copyOp .cpout .ready (some 7) [0] with pieces := [half 0, half 4] }
     let s := (mapped (operating o false)).onHome 0 fun h => { h with poisoned := [0x100000] }
     let t := s.performPart wave o 0 (part .ready) leaf0 (some 0)
     let o := ((t.wave? 3).bind fun w => w.op? 9).getD o
     (t.home 0).poisoned == [0x100000] && ((t.performPart wave o 0 (part .ready) leaf0 (some 0)).home 0).poisoned == []) = true := by decide +kernel

/-- R187, R337: a crew store whose waves have retired keeps its owner while an access bound to it has still to perform. -/
theorem test_bound_store_owned :
    (let gone (port : List PortAcc) : State := { base with waves := [{ wave with status := .retired }, { wave with key := 4, crew := 5, port := port }] }
     (gone [⟨0, 0, 0x10000, .sload 1 8 (.crew 2 0) (.crew 2 0)⟩]).ownerOf (.crewStore 2 0) == some 1 &&
      (gone []).ownerOf (.crewStore 2 0) == none) = true := by decide +kernel

/-- R307, R397: freeing a context's queues does not change which queue was served last. -/
theorem test_round_survives_ctxdestroy :
    (let s := ({ ready with launches := [] }.noteServed 3).noteServed 7
     let s := { s with queues := s.queues.set 7 { s.queue 7 with context := 1 } }
     s.lastServed == 7 && match exec (.ctxdestroy 1) s with | .next t => t.lastServed == 7 && (t.queue 7).context == 0 | _ => false) = true := by
  decide +kernel

/-- Manual, "One crucible sum in two orders": both orders give the same cell, which reads as 1.0. -/
theorem test_crucible_orders :
    (let v (neg : Bool) (e : Int) : Val := .num neg 1 e false
     let a := ((((CxCell.ofNat 0).add (v false 100)).add (v false 0)).add (v true 100)).add (v false (-149))
     let b := ((((CxCell.ofNat 0).add (v false (-149))).add (v true 100)).add (v false 0)).add (v false 100)
     a.toNat = b.toNat ∧ a.toNat = 2 ^ 43 + 2 ^ 192 ∧ (a.read .fp32 .rne).code = 0x3F800000) := by decide

theorem test_sdiv_zero : after (.sdiv 1 2 3) (withWave (scalars 0 7 0)) (fun _ w => (w.S 1, w.a.ns)) = some (0, 0x02) := by decide +kernel
theorem test_sdiv_overflow :
    after (.sdiv 1 2 3) (withWave (scalars 0 0x8000000000000000 (-1))) (fun _ w => (w.S 1, w.a.ns)) = some (0x8000000000000000, 0) := by
  decide +kernel
theorem test_srem_sign : after (.srem 1 2 3) (withWave (scalars 0 (-7) 2)) (fun _ w => w.S 1) = some (-1) := by decide +kernel
theorem test_sadd_s0 : after (.sadd 0 2 3) (withWave (scalars 0 7 2)) (fun _ w => w.S 0) = some 0 := by decide +kernel
theorem test_smulh : after (.smulh 1 2 3) (withWave (scalars 0 (-1) 1)) (fun _ w => w.S 1) = some (-1) := by decide +kernel
theorem test_smulhu : after (.smulhu 1 2 3) (withWave (scalars 0 (-1) 2)) (fun _ w => w.S 1) = some 1 := by decide +kernel
theorem test_sbfx_cut : after (.sbfx 1 2 3) (withWave (scalars 0 0x8000000000000000 0x13F3C)) (fun _ w => w.S 1) = some 0xFFFFFFFFFFFFFFF8 := by
  decide +kernel
theorem test_scmov_source_is_destination : after (.scmov 1 2 3) (withWave (scalars 9 7 0)) (fun _ w => w.S 1) = some 9 := by decide +kernel
theorem test_slih : after (.slih 1 0x1234) (withWave (scalars (-1) 0 0)) (fun _ w => w.S 1) = some 0xFFFFFFFF1234FFFF := by decide +kernel
theorem test_scltu : after (.scltu 1 2 3) (withWave (scalars 0 1 (-1))) (fun _ w => w.pred 1) = some (Mask.below 16) := by decide +kernel
theorem test_saddi_wraps : after (.saddi 1 1) (withWave (scalars (-1) 0 0)) (fun _ w => w.S 1) = some 0 := by decide +kernel

theorem test_vadd_wraps :
    after (.vadd 3 1 2) (withWave (vectors 0xFFFFFFFF 2)) (fun _ w => (w.V_ 3 0, w.V_ 3 15)) = some (1, 1) := by decide +kernel
theorem test_vadd_fp32 : after (.vadd 3 1 2) (withWave (real ∘ vectors 0x3F800000 0x40000000)) (fun _ w => w.V_ 3 7) = some 0x40400000 := by
  decide +kernel
theorem test_vdiv_zero :
    after (.vdiv 3 1 2) (withWave (real ∘ vectors 0x3F800000 0)) (fun _ w => (w.V_ 3 0, w.a.ns)) = some (0x7F800000, 0x02) := by decide +kernel
theorem test_vsqrt_negative :
    after (.vsqrt 3 1) (withWave (real ∘ vectors 0xC0800000 0)) (fun _ w => w.a.ns) = some 0x01 := by decide +kernel
theorem test_vshl_modulo : after (.vshl 3 1 2) (withWave (vectors 1 33)) (fun _ w => w.V_ 3 0) = some 2 := by decide +kernel
theorem test_vshup_low_lane : after (.vshup 3 1 2) (withWave ((fun w => w.writeV 2 (Mask.below 16) (fun _ => 1) .general) ∘ numbered))
    (fun _ w => (w.V_ 3 0, w.V_ 3 5)) = some (0, 4) := by decide +kernel
theorem test_vscan : after (.vscan 3 1) (withWave numbered) (fun _ w => (w.V_ 3 3, w.V_ 3 15)) = some (6, 120) := by decide +kernel
theorem test_vredmax : after (.vredmax 3 1) (withWave numbered) (fun _ w => w.V_ 3 0) = some 15 := by decide +kernel
theorem test_vballot_word : after (.vballot 1 1 0) (withWave (pred1 (Mask.below 5))) (fun _ w => w.S 1) = some 31 := by decide +kernel
theorem test_vsel_guard :
    after (.vsel 3 1 2) (withWave (pred1 (Mask.below 8) ∘ (fun w => { w with a := { w.a with mr := 0x1000 } }) ∘ vectors 5 6))
      (fun _ w => (w.V_ 3 7, w.V_ 3 8)) = some (5, 6) := by decide +kernel
theorem test_vlds : after (.vlds 3 1) (withWave fun w => { vectors 4 0 w with a := { (vectors 4 0 w).a with spill := List.replicate 16 [(5, 1)] } })
    (fun _ w => w.V_ 3 2) = some 0x100 := by decide +kernel

theorem test_bra_back : after (.bra 0xFFFFE) base (fun _ w => w.a.splits.map Split.pc) = some [0xFFF8] := by decide +kernel
theorem test_brp_parts :
    after (.brp 1 4) (withWave (pred1 (Mask.below 3))) (fun _ w => w.a.splits.map fun p => (p.pc, p.lanes.toNat)) =
      some [(0x10004, 0xFFF8), (0x10010, 7)] := by decide +kernel
theorem test_call_returns :
    after (.call 4) base (fun _ w => w.a.splits.map fun p => (p.pc, p.chain.map w.a.entry?)) =
      some [(0x10010, [some (.frame 4 0x10004)])] := by decide +kernel
theorem test_brk_too_deep : after (.brk 1 0) base (fun _ w => (w.trapcause, w.trapaddr)) = some (0x07, 1) := by decide +kernel
theorem test_mode_refused : after (.mode 0x0900) base (fun _ w => (w.trapcause, w.a.mr)) = some (0x01, 0) := by decide +kernel
theorem test_tret_privileged : after .tret base (fun _ w => w.trapcause) = some 0x03 := by decide +kernel
theorem test_trap_enters_handler :
    after (.trap 7) (handled id) (fun _ w => (w.trapcause, w.trapaddr, w.trappc, w.a.splits.map Split.pc)) =
      some (0x19, 7, 0x10000, [0x10000]) := by decide +kernel
theorem test_trap_without_handler : after (.trap 7) base (fun t _ => t.interrupts) = some 1 := by decide +kernel
theorem test_sldl_traps_bound : after (.sldl 1 2 3) (withWave (scalars 0 4090 0)) (fun _ w => w.trapcause) = some 0x09 := by decide +kernel
theorem test_sldl_traps_align : after (.sldl 1 2 3) (withWave (scalars 0 4 0)) (fun _ w => w.trapcause) = some 0x08 := by decide +kernel
theorem test_preoff_bound : after (.preoff 9) base (fun _ w => w.preoff.map Preoff.n) = some (some 9) := by decide +kernel
theorem test_exit_last : after (.exit 0) base (fun t w => (t.launches.map Launch.items, w.a.live == 0)) = some ([16], true) := by decide +kernel
theorem test_exit_lands_sgetv :
    ({ wave with sempty := 0x20, a := { wave.a with splits := [⟨Mask.below 16, 0x10000, [], [0x805], .ready, [], 0, 0⟩] } }.vacateLanes
      (Mask.below 16)).sempty = 0 := by decide +kernel
theorem test_bindq_no_entry : after (.bindq 1 2 1) (withWave (scalars 5 0xFF 0)) (fun _ w => w.S 1) = some 0 := by decide +kernel
theorem test_step_nop : (match step base with | .next t => t.waves.map fun w => w.a.splits.map Split.pc | _ => []) = [[0x10004]] := by
  decide +kernel

end Sys2Proof.Tests
end

section
/-! Local memory without bit errors, and what the copies of R202-R207 do at their issue. -/

namespace Sys2Proof.Machine

/-! ### Reading local bytes where no bit error is about (R342) -/

/-- Without bit errors no local word has one. -/
theorem localError_sound {s : State} (h : s.softErrors = []) (p : LocalAt) : localError s p = none := by
  simp [localError, h]

/-- Without bit errors a read of local bytes corrects nothing and loses nothing. -/
theorem State.scanLocal_sound {s : State} (h : s.softErrors = []) (w : Wave) (places : List LocalAt) :
    s.scanLocal w places = (s, none) := by
  unfold State.scanLocal
  induction places with
  | nil => rfl
  | cons p places ih => simpa [localError_sound h] using ih

/-- Without bit errors a command goes on from its reads of local bytes. -/
@[simp] theorem State.findLocal_sound {s : State} (h : s.softErrors = []) (w : Wave) (pc : Nat) (mask : Mask) (places : List LocalAt) :
    s.findLocal w pc mask places = none := by
  simp [State.findLocal, State.scanLocal_sound h]

/-! ### Outcomes of a word -/

/-- A word's outcome under a narrower condition, written another way there. -/
theorem leadsTo.narrow {i : Instr} {ok ok' : State → Wave → Split → Prop} {t t' : State → Wave → Split → State} (h : leadsTo i ok t)
    (hn : ∀ s w p, ok' s w p → ok s w p ∧ t s w p = t' s w p) : leadsTo i ok' t' := by
  intro s w p hf hu hok
  obtain ⟨hok, ht⟩ := hn s w _ hok
  rw [h s w p hf hu hok, ht]

/-! ### What a copy does at its issue (R202-R207) -/

/-- A copy reads its descriptor: the wave is whole, both copies of its source give one place for 64 bytes, and neither an earlier local access nor the
token nor a bit error holds it back. -/
def copyReads (a : Byte) (at_ : LocalAt) (s : State) (w : Wave) (p : Split) : Prop :=
  w.partialMask p = false ∧ w.S a.toNat = w.Sh a.toNat ∧ s.descAt w (w.S a.toNat) 64 (w.active p) = .ok at_ ∧ w.port = [] ∧
    s.hasToken w = true ∧ s.softErrors = []

/-- The entries of the index list that a copy reads at its issue, with the descriptor. -/
def copyIndex (f : CopyFn) (x : CopyDesc) (s : State) (w : Wave) : List Nat :=
  if f.indexed then
    (List.range x.n1).map fun k => leNat (s.readLocalBytes (s.placeOf w ((x.aux + k * x.indexSize) % 2 ^ 32) x.indexSize) x.indexSize)
  else []

/-- What a copy does once it has read the descriptor `x`: the checks of R204 and R207, the waits of R209 and R2, and its place in the queue. -/
def copyOutcome (a : Byte) (f : CopyFn) (x : CopyDesc) (s : State) (w : Wave) (p : Split) : State :=
  if x.legal f = false then s.takeTrap w p trapDESC p.pc (w.S a.toNat).toNat (w.active p)
  else match s.checkElems w (w.active p) (x.accesses f) with
    | some r => s.takeTrap w p r.cause p.pc r.addr r.mask
    | none =>
      if x.tierRefused f w.kern.tier = true then s.takeTrap w p trapCLASSX p.pc (w.S a.toNat).toNat (w.active p)
      else if 255 ≤ w.counter f.counter ∨ s.copiesFull w.core = true then s
      else
        afterEnqueue (some f.counter) f.kind (w.active p) (s.copyPieces w x f (p.lanes.lowest w.W) fun k => nth (copyIndex f x s w) k 0) none
          x.tier id id s w p

section
variable {i : Instr} {a : Byte} {f : CopyFn} (hexec : ∀ s, exec i s = copyWord i a f s)
include hexec

/-- R28, R202: a copy meets a partial mask before anything else. -/
theorem copy_partialMask :
    leadsTo i (fun _ w p => w.partialMask p = true) fun s w p => s.takeTrap w p trapPARTIALMASK p.pc 0 (w.active p) := by
  intro s w p hf hu hm
  simp only [hexec, copyWord, issueWord_runs hf hu, hm, if_true]
  rfl

/-- R347: the copies of the source are compared before the descriptor's address is checked. -/
theorem copy_mismatch : leadsTo i (fun _ w p => w.partialMask p = false ∧ w.S a.toNat ≠ w.Sh a.toNat) scalarMismatch := by
  intro s w p hf hu ⟨hm, hne⟩
  simp only [hexec, copyWord, issueWord_runs hf hu, hm, Bool.false_eq_true, if_false, if_pos hne]
  rfl

/-- R202: the descriptor's own address is refused. -/
theorem copy_address_refused (r : Refused) :
    leadsTo i (fun s w p => w.partialMask p = false ∧ w.S a.toNat = w.Sh a.toNat ∧
        s.descAt w (w.S a.toNat) 64 (w.active p) = .error r)
      fun s w p => s.takeTrap w p r.cause p.pc r.addr r.mask := by
  intro s w p hf hu ⟨hm, he, hd⟩
  simp only [hexec, copyWord, issueWord_runs hf hu, hm, Bool.false_eq_true, if_false, if_neg (not_not_intro he), hd]
  rfl

/-- A copy that reads its descriptor has the outcome the descriptor gives. -/
theorem copy_outcome (at_ : LocalAt) :
    leadsTo i (copyReads a at_) fun s w p => copyOutcome a f (CopyDesc.ofBytes (s.readLocalBytes at_ 64)) s w p := by
  intro s w p hf hu ⟨hm, he, hd, hport, htok, hsoft⟩
  simp only [hexec, copyWord, issueWord_runs hf hu, hm, Bool.false_eq_true, if_false, if_neg (not_not_intro he), hd, hport, htok,
    State.findLocal_sound hsoft, List.isEmpty_nil, Bool.not_true, Bool.or_false]
  generalize CopyDesc.ofBytes (s.readLocalBytes at_ 64) = x
  unfold copyOutcome
  cases hl : x.legal f
  case false => rfl
  case true =>
    cases hc : s.checkElems w (w.active (p.stamp i s.slots)) (x.accesses f)
    case some r => rfl
    case none =>
      cases ht : x.tierRefused f w.kern.tier
      case true => rfl
      case false =>
        by_cases hfull : 255 ≤ w.counter f.counter ∨ s.copiesFull w.core = true
        · simp [Wave.counterFull, hfull]
        · cases hx : f.indexed <;> simp [Wave.counterFull, hfull, hx, copyIndex, afterEnqueue, State.done, Function.comp_def]

end

/-- R2: a core is full when 256 copies of its waves are under way. -/
theorem State.copiesFull_iff (s : State) (core : Nat) :
    s.copiesFull core = true ↔ 256 ≤ ((s.waves.filter fun w => w.core == core).map fun w => (w.ops.filter Op.copying).length).sum := by
  simp [State.copiesFull, Config.copiesPerCore]

/-- R205: the elements of a copy are the triples below its three counts. -/
theorem CopyDesc.mem_elements (x : CopyDesc) (e0 e1 e2 : Nat) : (e0, e1, e2) ∈ x.elements ↔ e0 < x.n0 ∧ e1 < x.n1 ∧ e2 < x.n2 := by
  simp only [CopyDesc.elements, List.mem_flatMap, List.mem_map, List.mem_range, Prod.mk.injEq]
  constructor
  · rintro ⟨_, h2, _, h1, _, h0, rfl, rfl, rfl⟩
    exact ⟨h0, h1, h2⟩
  · rintro ⟨h0, h1, h2⟩
    exact ⟨e2, h2, e1, h1, e0, h0, rfl, rfl, rfl⟩

/-- Settles O22: every clause about one of the six words narrows what `copy_outcome` and the three checks before it say of any copy. -/
theorem copyIssues : Obligations.CopyIssues := by
  unfold Obligations.CopyIssues
  refine ⟨fun a => ?_, State.copiesFull_iff, fun x f index e0 e1 e2 => ⟨?_, ?_, rfl, x.mem_elements e0 e1 e2⟩⟩
  · intro row
    have hrow (i : Instr) (f : CopyFn) (hexec : ∀ s, exec i s = copyWord i a f s) : row i f := by
      intro at_
      have outcome := copy_outcome hexec at_
      refine ⟨?_, ?_, ?_, ?_, fun r => ?_, copy_address_refused hexec, copy_mismatch hexec, copy_partialMask hexec⟩
      · refine outcome.narrow fun s w p ⟨hread, hlegal, helems, htier, hcount, hcopies⟩ => ⟨hread, ?_⟩
        simp [copyOutcome, hlegal, helems, htier, hcopies, Nat.not_le.mpr hcount, copyIndex]
      · refine outcome.narrow fun s w p ⟨hread, hlegal⟩ => ⟨hread, ?_⟩
        simp [copyOutcome, hlegal, trapDESC]
      · refine outcome.narrow fun s w p ⟨hread, hlegal, helems, htier⟩ => ⟨hread, ?_⟩
        simp [copyOutcome, hlegal, helems, htier, trapCLASSX]
      · refine outcome.narrow fun s w p ⟨hread, hlegal, helems, htier, hfull⟩ => ⟨hread, ?_⟩
        simp [copyOutcome, hlegal, helems, htier, hfull]
      · refine outcome.narrow fun s w p ⟨hread, hlegal, helems⟩ => ⟨hread, ?_⟩
        simp [copyOutcome, hlegal, helems]
    exact ⟨hrow _ _ fun _ => rfl, hrow _ _ fun _ => rfl, hrow _ _ fun _ => rfl, hrow _ _ fun _ => rfl, hrow _ _ fun _ => rfl,
      hrow _ _ fun _ => rfl⟩
  · intro h
    simp [CopyDesc.main, CopyDesc.size, h]
  · intro h
    simp [CopyDesc.main, CopyDesc.size, h]

end Sys2Proof.Machine
end

section
/-! The arithmetic of the frit generator (R54) read as natural numbers. -/

namespace Sys2Proof.Machine

/-- A word combined with itself shifted right is, as a number, combined with its quotient. -/
theorem toNat_xor_ushiftRight_self (x : Word32) (k : Nat) : (x ^^^ (x >>> k)).toNat = x.toNat ^^^ (x.toNat / 2 ^ k) := by
  rw [BitVec.toNat_xor, BitVec.toNat_ushiftRight, Nat.shiftRight_eq_div_pow]

/-- R54: `r` has 16 bits. -/
theorem frit_lt (seedlo seedhi t n : Word32) : frit seedlo seedhi t n < 2 ^ 16 :=
  BitVec.toNat_ushiftRight_lt _ 16 (by decide)

/-- Settles O45: `toNat` carries the lines of R54 from words to numbers, the last line first. -/
theorem fritGenerator : Obligations.FritGenerator := by
  unfold Obligations.FritGenerator
  intro seedlo seedhi t n m sx x1 x2 x3 x4 x5
  have hm (x c : Word32) : (x * c).toNat = m x.toNat c.toNat := BitVec.toNat_mul x c
  have hsx (x : Word32) (k : Nat) : (x ^^^ (x >>> k)).toNat = sx x.toNat k := toNat_xor_ushiftRight_self x k
  refine ⟨?_, frit_lt seedlo seedhi t n⟩
  rw [frit, BitVec.toNat_ushiftRight, Nat.shiftRight_eq_div_pow, hsx, hm, hsx, BitVec.toNat_xor, hm, hsx, BitVec.toNat_xor, hm,
    BitVec.toNat_xor, hm]
  rfl

end Sys2Proof.Machine
end

section
/-! The word `land` (R150): which word it is, and that it leaves all but the program counter alone. -/

namespace Sys2Proof.Machine

/-! ### Decoding to `land` (R125) -/

/-- No scalar word is `land`. -/
theorem decodeScalar_ne_land (op : Nat) (d a b : Byte) : decodeScalar op d a b ≠ some .land := by
  unfold decodeScalar
  split <;> simp

/-- No vector word is `land`. -/
theorem decodeVector_ne_land (op : Nat) (d a b : Byte) : decodeVector op d a b ≠ some .land := by
  unfold decodeVector
  split <;> simp

/-- No word of memory, engines or matrices is `land`. -/
theorem decodeMemory_ne_land (op : Nat) (d a b : Byte) : decodeMemory op d a b ≠ some .land := by
  unfold decodeMemory
  split <;> simp

/-- Among the control words `land` has opcode 9 and no operand. -/
theorem decodeControl_eq_land_iff (op : Nat) (d a b : Byte) :
    decodeControl op d a b = some .land ↔ op = 9 ∧ d = 0 ∧ a = 0 ∧ b = 0 := by
  constructor
  · intro h
    unfold decodeControl at h
    split at h
    case h_10 => simpa [and_assoc] using h
    all_goals simp at h
  · rintro ⟨rfl, rfl, rfl, rfl⟩
    rfl

/-- Of the four classes only class 11 holds `land`. -/
theorem decodeBytes4_eq_land_iff (o d a b : Byte) : decodeBytes4 o d a b = some .land ↔ o = 0xC9 ∧ d = 0 ∧ a = 0 ∧ b = 0 := by
  constructor
  · intro h
    unfold decodeBytes4 at h
    split at h
    · exact (decodeScalar_ne_land _ _ _ _ h).elim
    · exact (decodeVector_ne_land _ _ _ _ h).elim
    · exact (decodeMemory_ne_land _ _ _ _ h).elim
    next h0 h1 h2 =>
      obtain ⟨hop, operands⟩ := (decodeControl_eq_land_iff ..).mp h
      simp only [imp_false, BitVec.extractLsb'_toNat, Nat.shiftRight_eq_div_pow] at h0 h1 h2 hop
      have ho : o.toNat = 0xC9 := by omega
      exact ⟨BitVec.eq_of_toNat_eq ho, operands⟩
  · rintro ⟨rfl, rfl, rfl, rfl⟩
    rfl

/-- The four bytes of a word determine it. -/
theorem decodeWord_eq_land_iff (w : Word32) : decodeWord w = some .land ↔ w = 0xC9000000#32 := by
  constructor
  · intro h
    obtain ⟨ho, hd, ha, hb⟩ := (decodeBytes4_eq_land_iff ..).mp h
    simp only [← BitVec.toNat_inj, BitVec.extractLsb'_toNat, Nat.shiftRight_eq_div_pow] at ho hd ha hb
    bv_omega
  · rintro rfl
    rfl

/-! ### A word without an effect of its own -/

/-- A word whose whole meaning is to retire only moves its split past itself. -/
theorem leadsTo_advance {i : Instr} (hexec : ∀ s, exec i s = issueWord i s State.done) :
    leadsTo i anyState fun s w p => s.putWave (w.advance p) := by
  intro s w p hf hu _
  rw [hexec, issueWord_runs hf hu]
  rfl

/-- Retiring moves the issuing split past its word and keeps the splits after it. -/
theorem Wave.advance_splits {w : Wave} {p : Split} {rest : List Split} (h : w.a.splits = p :: rest) :
    (w.advance p).a.splits = { p with pc := (p.pc + 4) % 2 ^ 64 } :: rest := by
  simp [Wave.advance, Wave.setSplit, h]

/-- Retiring counts one word. -/
theorem Wave.advance_retired (w : Wave) (p : Split) : (w.advance p).a.retired = w.a.retired + 1 := rfl

/-- Retiring writes no register. -/
theorem Wave.sameRegisters_advance (w : Wave) (p : Split) : w.sameRegisters (w.advance p) := by
  simp [Wave.sameRegisters, Wave.advance, Wave.setSplit]

/-- Settles O44: `land` decodes from one word alone, and `land` and `nop` both do nothing but retire. -/
theorem landChangesNothing : Obligations.LandChangesNothing := by
  unfold Obligations.LandChangesNothing
  exact ⟨decodeWord_eq_land_iff, leadsTo_advance fun _ => rfl, leadsTo_advance fun _ => rfl,
    fun w p _ h => ⟨w.advance_splits h, w.advance_retired p, w.sameRegisters_advance p⟩⟩

end Sys2Proof.Machine
end

section
/-! The return from a handler (R259) and the acquire fence of a deal (R301): a split that was still to issue its first word after the deal stands in the
fence when it comes back. -/

namespace Sys2Proof.Machine

/-- R259: the splits of the frame come back in their order, the trapping one at trappc and at its word anew. -/
theorem Wave.leaveHandler_splits (w : Wave) (f : TrapFrame) :
    (w.leaveHandler f).a.splits =
      f.splits.map fun q => if q.lanes.has f.lane then { q with pc := w.trappc.toNat, status := q.anew } else q := rfl

/-- R301: a trapping split that its deal's fence held is held by it on (log 27). -/
theorem Wave.leaveHandler_acquiring {w : Wave} {f : TrapFrame} {k : Nat} {p : Split} (hp : f.splits[k]? = some p)
    (ht : p.lanes.has f.lane = true) (hs : p.status = .acquiring) :
    (w.leaveHandler f).a.splits[k]? = some { p with pc := w.trappc.toNat } := by
  simp [Wave.leaveHandler_splits, hp, ht, Split.anew, ← hs]

/-- The wave of log 2 as a deal that is an acquire fence starts it: one split of sixteen lanes, which no word has issued yet. -/
def fencedWave : Wave := (placedWave 0xDC000000).startAt 0 true

/-- The split of that wave. -/
def fencedSplit : Split := (Split.new (Mask.below 16) (placedObject 0xDC000000).codeVa).dealt true

/-- That wave in a handler: PRELIMIT, a trap that belongs to the wave (R260, R407), took its split before its first word. -/
def fencedInHandler : Wave :=
  (fencedWave.fillTrap trapPRELIMIT fencedSplit.pc 0 fencedSplit.lanes).enterHandler fencedSplit 0 0x20000 (placedObject 0xDC000000) false

/-- The frame that its handler keeps. -/
def fencedFrame : TrapFrame := ⟨0, 0, [fencedSplit], [], Mask.below 16, 0, 0, placedObject 0xDC000000, false, 0⟩

/-- The frame is that of the wave in its handler. -/
theorem fencedInHandler_frame : fencedInHandler.frame = some fencedFrame := by
  decide +kernel

/-- Refutes O40: its last part has the trapping split ready once the handler is left, but a split that a deal's acquire fence held (R301) is in that fence
still, whose waits its word keeps. -/
theorem not_trapWordResults : ¬Obligations.TrapWordResults := by
  unfold Obligations.TrapWordResults
  intro ⟨_, leaving⟩
  obtain ⟨-, -, -, -, -, -, resumes, -⟩ := leaving fencedInHandler fencedFrame
  obtain ⟨p, q, hp, hq, -, -, ready, -⟩ := resumes 0 (by decide)
  obtain rfl : fencedSplit = p := Option.some.inj hp
  have trapping : fencedSplit.lanes.has fencedFrame.lane = true := by decide +kernel
  have held := Wave.leaveHandler_acquiring (w := fencedInHandler) hp trapping rfl
  obtain rfl := Option.some.inj (hq.symm.trans held)
  exact absurd (ready trapping).2 (by decide)

end Sys2Proof.Machine
end

section
/-! The names that the device's own reads and stores keep: which launches there are, and the tail of every queue. An access of the queue unit can charge
a context, fault it, commit a shadow or raise a translation fault, but none of these accepts or drops a launch, or moves a tail. -/

namespace Sys2Proof.Machine

/-- A fold keeps what each of its steps keeps. -/
theorem foldl_keeps {σ α γ : Type} {g : σ → γ} {f : σ → α → σ} (h : ∀ s a, g (f s a) = g s) (l : List α) (s : σ) :
    g (l.foldl f s) = g s := by
  induction l generalizing s with
  | nil => rfl
  | cons a l ih => exact (ih (f s a)).trans (h s a)

/-- The keys of the launches, and the tails of the queues. -/
def State.names (s : State) : List Nat × List Word64 := (s.launches.map Launch.key, s.queues.map Queue.tail)

/-- Changing launches keeps the names where it keeps each key. -/
theorem State.mapLaunches_names (s : State) {f : Launch → Launch} (h : ∀ l, (f l).key = l.key) :
    State.names { s with launches := s.launches.map f } = s.names := by
  simp [State.names, h]

/-- Changing the launch of a key keeps the names where it keeps the key. -/
theorem State.onLaunch_names (s : State) (k : Nat) {f : Launch → Launch} (h : ∀ l, (f l).key = l.key) : (s.onLaunch k f).names = s.names :=
  s.mapLaunches_names fun l => by split <;> simp [h]

/-- Changing queue q keeps the names where it keeps its tail. -/
theorem State.onQueue_names (s : State) (q : Nat) {f : Queue → Queue} (h : ∀ x, (f x).tail = x.tail) : (s.onQueue q f).names = s.names := by
  have tails : (s.queues.modify q f).map Queue.tail = s.queues.map Queue.tail := by
    apply List.ext_getElem?
    intro n
    cases hn : s.queues[n]? with
    | none => simp [List.getElem?_modify, hn]
    | some x => by_cases hq : q = n <;> simp [hn, hq, h]
  simp [State.names, modifyAt, tails]

@[simp] theorem State.onHome_names (s : State) (k : Nat) (f : Home → Home) : (s.onHome k f).names = s.names := rfl

/-! ### Logs, charges and faults (R332, R340, R350) -/

@[simp] theorem State.logIntegrityAt_names (s : State) (time : Nat) (f : LogFields) : (s.logIntegrityAt time f).names = s.names := by
  unfold State.logIntegrityAt
  split <;> rfl

@[simp] theorem State.logIntegrity_names (s : State) (f : LogFields) : (s.logIntegrity f).names = s.names :=
  s.logIntegrityAt_names s.clock f

@[simp] theorem State.logError_names (s : State) (va ctx home cause source index : Nat) :
    (s.logError va ctx home cause source index).names = s.names := by
  unfold State.logError
  split <;> rfl

@[simp] theorem State.killLaunches_names (s : State) (keys : List Nat) : (s.killLaunches keys).names = s.names :=
  ({ s with waves := (s.killLaunches keys).waves } : State).mapLaunches_names fun l => by split <;> rfl

@[simp] theorem State.contextFault_names (s : State) (ctx : Nat) (f : LogFields) : (s.contextFault ctx f).names = s.names := by
  have queues (qs : List Queue) :
      (qs.map fun q : Queue => if q.context.toNat == ctx then { q with status := 3, reading := none } else q).map Queue.tail =
        qs.map Queue.tail := by
    rw [List.map_map]
    exact List.map_congr_left fun q _ => by simp only [Function.comp_apply]; split <;> rfl
  refine (State.logIntegrity_names _ _).trans ?_
  rw [← s.killLaunches_names ((s.launches.filter fun l => l.ctx == ctx && l.open_).map Launch.key)]
  exact congrArg (Prod.mk _) (queues _)

@[simp] theorem State.chargeWave_names (s : State) (k ctx n : Nat) : (s.chargeWave k ctx n).names = s.names := by
  unfold State.chargeWave
  simp only
  split
  · rw [State.logIntegrity_names]
    rfl
  · rfl

@[simp] theorem State.corrected_names (s : State) (ctx : Nat) (wave : Option Nat) : (s.corrected ctx wave).names = s.names := by
  unfold State.corrected
  cases wave with
  | some k => exact State.chargeWave_names _ k ctx 1
  | none =>
    simp only
    split
    · rw [State.contextFault_names, State.logIntegrity_names]
      rfl
    · rfl

/-! ### Lines of main memory (R343-R345, R372) -/

@[simp] theorem State.writePhys_names (s : State) (k pa : Nat) (b : Byte) : (s.writePhys k pa b).names = s.names := by
  unfold State.writePhys
  split <;> rfl

@[simp] theorem State.writePhysBytes_names (s : State) (k pa : Nat) (bs : List Byte) : (s.writePhysBytes k pa bs).names = s.names := by
  induction bs generalizing s pa with
  | nil => rfl
  | cons b bs ih => exact (ih _ _).trans (s.writePhys_names k pa b)

@[simp] theorem State.correctLine_names (s : State) (ctx : Nat) (m : MainAt) : (s.correctLine ctx m).names = s.names := by
  unfold State.correctLine
  split
  · split
    · rfl
    · exact State.corrected_names _ ctx none
  · rfl

@[simp] theorem State.dropLineError_names (s : State) (m : MainAt) : (s.dropLineError m).names = s.names := by
  unfold State.dropLineError
  split <;> rfl

@[simp] theorem State.clearLine_names (s : State) (m : MainAt) : (s.clearLine m).names = s.names := by
  unfold State.clearLine
  simp only
  split <;> simp

@[simp] theorem State.markLine_names (s : State) (m : MainAt) : (s.markLine m).names = s.names := by
  unfold State.markLine
  split <;> rfl

@[simp] theorem State.healEntries_names (s : State) (m : MainAt) (n : Nat) : (s.healEntries m n).names = s.names := by
  unfold State.healEntries
  simp only
  split <;> rfl

@[simp] theorem State.writeCommitted_names (s : State) (m : MainAt) (b : Byte) : (s.writeCommitted m b).names = s.names := by
  unfold State.writeCommitted
  split
  · simp
  · rfl

@[simp] theorem State.noteOwn_names (s : State) (l : Option Nat) (m : MainAt) : (s.noteOwn l m).names = s.names :=
  s.mapLaunches_names fun x => by split <;> rfl

@[simp] theorem State.noteOthers_names (s : State) (l : Option Nat) (m : MainAt) : (s.noteOthers l m).names = s.names :=
  s.mapLaunches_names fun x => by split <;> rfl

/-! ### Shadows and stores (R348, R344) -/

@[simp] theorem State.commitShadowLine_names (s : State) (x : Shadow) (line : Nat) : (s.commitShadowLine x line).names = s.names := by
  unfold State.commitShadowLine
  simp only
  split
  · rfl
  · refine (foldl_keeps (fun s m => ?_) _ _).trans (foldl_keeps (fun s b => ?_) _ _)
    · simp
    · have others (t : State) (ms : List MainAt) :
          (ms.foldl (fun s m => s.noteOthers (some x.launch) (m.plus b.2)) t).names = t.names :=
        foldl_keeps (fun s m => s.noteOthers_names ..) ms t
      simp [apply_ite State.names, others, -List.foldl_cons]

@[simp] theorem State.commitShadows_names (s : State) (lk : Nat) : (s.commitShadows lk).names = s.names :=
  foldl_keeps (g := State.names) (fun s x => foldl_keeps (fun s k => s.commitShadowLine_names x k) _ s) _ s

@[simp] theorem State.demote_names (s : State) (lk : Nat) : (s.demote lk).names = s.names := by
  unfold State.demote
  split
  · rfl
  · split
    · rfl
    · rw [State.logIntegrity_names]
      refine (State.onLaunch_names _ lk ?_).trans (s.commitShadows_names lk)
      exact fun _ => rfl

@[simp] theorem State.shadowed_names (s : State) (l : Option Nat) (m : MainAt) : (s.shadowed l m).names = s.names := by
  unfold State.shadowed
  split
  · rfl
  · split
    · rfl
    · split
      · simp
      · rfl

@[simp] theorem State.writeMain_names (s : State) (l : Option Nat) (m : MainAt) (b : Byte) : (s.writeMain l m b).names = s.names := by
  unfold State.writeMain
  simp only
  split
  · exact s.shadowed_names l m
  · simp

@[simp] theorem State.writeMainBytes_names (s : State) (l : Option Nat) (m : MainAt) (bs : List Byte) :
    (s.writeMainBytes l m bs).names = s.names := by
  induction bs generalizing s m with
  | nil => rfl
  | cons b bs ih => exact (ih _ _).trans (s.writeMain_names l m b)

@[simp] theorem State.makeWhole_names (s : State) (l : Option Nat) (m : MainAt) : (s.makeWhole l m).names = s.names := by
  unfold State.makeWhole
  simp only
  split
  · exact s.shadowed_names l m
  · simp

@[simp] theorem State.readLine_names (s : State) (l : Option Nat) (ctx : Nat) (m : MainAt) : (s.readLine l ctx m).names = s.names := by
  unfold State.readLine
  split <;> simp

@[simp] theorem State.markLost_names (s : State) (l : Option Nat) (m : MainAt) : (s.markLost l m).names = s.names := by
  unfold State.markLost
  split <;> simp

@[simp] theorem State.storeIn_names (s : State) (l : Option Nat) (ctx : Nat) (m : MainAt) (bs : List Byte) (whole : Bool) :
    (s.storeIn l ctx m bs whole).names = s.names := by
  unfold State.storeIn
  split
  · simp
  · simp only
    split <;> split <;> simp

/-! ### Accesses of the device (R139, R287, R292, R323, R331) -/

@[simp] theorem State.hostWritten_names (s : State) (unit : Nat) : (s.hostWritten unit).names = s.names := by
  unfold State.hostWritten
  split <;> rfl

@[simp] theorem State.answeredBy_names (s : State) (va : Nat) : (s.answeredBy va).names = s.names := by
  unfold State.answeredBy
  split <;> rfl

@[simp] theorem State.raiseFault_names (s : State) (unit ctx va level op source : Nat) :
    (s.raiseFault unit ctx va level op source).1.names = s.names := by
  unfold State.raiseFault
  simp only
  split
  · rfl
  · split
    · rfl
    · exact (State.hostWritten_names _ unit).trans (s.writePhysBytes_names ..)

@[simp] theorem State.reportPoison_names (s : State) (ctx home source table index : Nat) :
    (s.reportPoison ctx home source table index).names = s.names := by
  simp [State.reportPoison, apply_ite State.names]

@[simp] theorem State.deviceFailed_names (s : State) (ctx op : Nat) (e : DeviceErr) : (s.deviceFailed ctx op e).names = s.names := by
  cases e with
  | later => rfl
  | again => rfl
  | fault va level => exact s.raiseFault_names ..
  | poisoned va table i => simp [State.deviceFailed]
  | refused va c => simp [State.deviceFailed]
  | uncorrectable m => simp [State.deviceFailed]

@[simp] theorem State.deviceTook_names (s : State) (ctx va n : Nat) : (s.deviceTook ctx va n).names = s.names := by
  unfold State.deviceTook
  split
  · rfl
  · exact (State.answeredBy_names _ va).trans (foldl_keeps (fun s m => s.correctLine_names ctx m) _ s)

/-- A write of the device keeps the names where the store of each of its lines does. -/
theorem State.deviceWriteBy_names {s t : State} {put : State → MainAt → List Byte → Bool → State}
    (hput : ∀ s m bs whole, (put s m bs whole).names = s.names) {ctx va : Nat} {bs : List Byte} (h : s.deviceWriteBy put ctx va bs = .ok t) :
    t.names = s.names := by
  unfold State.deviceWriteBy at h
  split at h
  · cases h
  · cases h
    rw [State.answeredBy_names, State.hostWritten_names]
    refine foldl_keeps (fun s x => ?_) _ s
    split
    · exact hput ..
    · rfl

@[simp] theorem State.deviceStore_names (s : State) (ctx va : Nat) (bs : List Byte) : (s.deviceStore ctx va bs).names = s.names := by
  unfold State.deviceStore
  split
  next t h => exact State.deviceWriteBy_names (fun s m bs whole => s.storeIn_names none ctx m bs whole) h
  next e h => exact s.deviceFailed_names ctx 1 e

/-! ### Trace logs (R372, R373) -/

@[simp] theorem State.storeUnnoted_names (s : State) (ctx : Nat) (m : MainAt) (bs : List Byte) (whole : Bool) :
    (s.storeUnnoted ctx m bs whole).names = s.names :=
  ((s.storeIn none ctx m bs whole).mapLaunches_names fun x => by split <;> rfl).trans (s.storeIn_names none ctx m bs whole)

@[simp] theorem State.logWrite_names (s : State) (l : Launch) (va : Nat) (bs : List Byte) : (s.logWrite l va bs).names = s.names := by
  unfold State.logWrite
  split
  next t h => exact State.deviceWriteBy_names (fun s m bs whole => s.storeUnnoted_names l.ctx m bs whole) h
  next e h => exact s.deviceFailed_names l.ctx 1 e

@[simp] theorem State.writeHeader_names (s : State) (lk : Nat) : (s.writeHeader lk).names = s.names := by
  unfold State.writeHeader
  split
  · rfl
  · split <;> simp

@[simp] theorem State.tookLog_names (s : State) (lk : Nat) : (s.tookLog lk).names = s.names := by
  unfold State.tookLog
  split
  · rfl
  · split <;> simp

@[simp] theorem State.endLog_names (s : State) (lk : Nat) : (s.endLog lk).names = s.names :=
  (State.writeHeader_names _ lk).trans (s.onLaunch_names lk fun _ => rfl)

end Sys2Proof.Machine
end

section
/-! The events of queues, launches, crews, the token and the assay (R292-R312, R348, R353, R365). -/

namespace Sys2Proof.Machine

/-! ### Queues (R292, R294, R295) -/

/-- The names give a queue's tail. -/
theorem State.queue_tail_of_names {s t : State} (h : t.names = s.names) (q : Nat) : (t.queue q).tail = (s.queue q).tail := by
  have tail (u : State) : (u.queue q).tail = nth (u.names.2) q 0 := by
    simp only [State.queue, nth, State.names, List.getElem?_map]
    cases u.queues[q]? <;> rfl
  rw [tail, tail, h]

/-- Accepting a launch moves no tail. -/
theorem State.accept_tail (s : State) (q va : Nat) (d : Desc) (o : Object) (depth : Nat) (parent : Option Nat) (succs : List Nat) (k : Nat) :
    ((s.accept q va d o depth parent succs).queue k).tail = (s.queue k).tail := by
  have logs (t : State) (key : Nat) : ((t.tookLog key).writeHeader key).names = t.names :=
    (State.writeHeader_names _ key).trans (t.tookLog_names key)
  refine (State.queue_tail_of_names (logs _ _) k).trans ?_
  change ((State.onQueue s.newKey.2 q _).queue k).tail = (s.newKey.2.queue k).tail
  refine State.queue_tail_of_names (State.onQueue_names _ q ?_) k
  exact fun _ => rfl

/-- Two changes of a queue are one where they agree on the queue as it stands. -/
theorem State.onQueue_congr (s : State) (q : Nat) {f g : Queue → Queue} (h : f (s.queue q) = g (s.queue q)) : s.onQueue q f = s.onQueue q g := by
  have queues : s.queues.modify q f = s.queues.modify q g := by
    apply List.ext_getElem?
    intro n
    by_cases hq : q = n
    · subst hq
      cases hn : s.queues[q]? with
      | none => simp [hn]
      | some x =>
        have hx : s.queue q = x := by simp [State.queue, nth, hn]
        simpa [hn, hx] using h
    · simp [hq]
  simp only [State.onQueue, modifyAt, queues]

section
variable {s : State} {q va : Nat} {bs : List Byte} (hstatus : (s.queue q).status = 1) (htail : (s.queue q).tail ≠ 0)
  (hreading : (s.queue q).reading = some (false, va)) (hread : s.deviceRead (s.queue q).context.toNat va 128 = .ok bs)
include hstatus htail hreading hread

/-- R294: a descriptor that a running queue has read and that fails a check is refused. -/
theorem descriptorAccept_refuses (href : s.refuses q (s.queue q).context.toNat (Desc.ofBytes bs) none = true) :
    exec (.descriptorAccept q) s = .next (s.refuseDescriptor q va) := by
  show execDescriptorAccept q s = _
  simp only [execDescriptorAccept, hstatus, htail, hreading, hread, href, ne_eq, not_true_eq_false, or_self, if_false, if_true]

variable {succs : List Nat} {o : Object} (href : s.refuses q (s.queue q).context.toNat (Desc.ofBytes bs) none = false)
  (hsuccs : s.readSuccs (s.queue q).context.toNat (Desc.ofBytes bs) = .ok succs)
  (hobj : s.object? (s.queue q).context.toNat (Desc.ofBytes bs).handle = some o)
include href hsuccs hobj

/-- R372: a launch whose trace log cannot be reached is not accepted yet. -/
theorem descriptorAccept_holds {e : DeviceErr} (hlog : s.acceptHolds q (s.queue q).context.toNat (Desc.ofBytes bs) = some e) :
    exec (.descriptorAccept q) s = .next (s.deviceFailed (s.queue q).context.toNat 1 e) := by
  show execDescriptorAccept q s = _
  simp only [execDescriptorAccept, hstatus, htail, hreading, hread, href, hsuccs, hobj, hlog, ne_eq, not_true_eq_false, or_self, if_false,
    Bool.false_eq_true]

/-- R292, R295: any other descriptor is accepted, and the queue goes on with the next one, or waits for a further tail at the one tail names: the tail
that it compares is the one it had. -/
theorem descriptorAccept_accepts (hlog : s.acceptHolds q (s.queue q).context.toNat (Desc.ofBytes bs) = none) :
    exec (.descriptorAccept q) s = .next ((((s.deviceTook (s.queue q).context.toNat va 128).deviceTook (s.queue q).context.toNat
        (Desc.ofBytes bs).succaddr (4 * (Desc.ofBytes bs).nsucc)).accept q va (Desc.ofBytes bs) o 0 none succs).onQueue q fun x =>
      { x with reading := some (if (s.queue q).tail.toNat = va then (true, va) else (false, (Desc.ofBytes bs).next)) }) := by
  show execDescriptorAccept q s = _
  simp only [execDescriptorAccept, hstatus, htail, hreading, hread, href, hsuccs, hobj, hlog, ne_eq, not_true_eq_false, or_self, if_false,
    Bool.false_eq_true]
  refine congrArg Host.Outcome.next (State.onQueue_congr _ q ?_)
  have tail := (State.accept_tail _ q va (Desc.ofBytes bs) o 0 none succs q).trans
    (State.queue_tail_of_names ((State.deviceTook_names _ (s.queue q).context.toNat (Desc.ofBytes bs).succaddr
      (4 * (Desc.ofBytes bs).nsucc)).trans (s.deviceTook_names (s.queue q).context.toNat va 128)) q)
  simp only [tail]

end

/-! ### Starting (R296, R298) -/

/-- R296: an earlier launch of the queue that may start, and whose snapshot does not wait, holds a launch back. -/
theorem State.startsAfter_iff (s : State) (x : Launch) :
    s.startsAfter x = true ↔
      ∃ y ∈ s.launches, y.queue = x.queue ∧ y.order < x.order ∧ s.startable y = true ∧ s.snapshotWaits y = false := by
  simp [State.startsAfter, and_assoc]

section
variable {s : State} {l : Launch} (hl : s.launch? l.key = some l)
include hl

/-- R296: the launches of a queue start in the order of acceptance. -/
theorem launchStart_waits {y : Launch} (hy : y ∈ s.launches) (hqueue : y.queue = l.queue) (horder : y.order < l.order)
    (hys : s.startable y = true) (hyw : s.snapshotWaits y = false) : exec (.launchStart l.key) s = .next s := by
  have after : s.startsAfter l = true := (s.startsAfter_iff l).mpr ⟨y, hy, hqueue, horder, hys, hyw⟩
  show execLaunchStart l.key s = _
  simp [execLaunchStart, hl, after]

variable (hstart : s.startable l = true)
  (hfirst : ∀ y ∈ s.launches, y.queue = l.queue → y.order < l.order → s.startable y = false ∨ s.snapshotWaits y = true)
include hstart hfirst

omit hl hstart in
/-- The first launch of a queue that may start is held back by none. -/
theorem State.startsAfter_eq_false : s.startsAfter l = false := by
  rw [← Bool.not_eq_true, s.startsAfter_iff]
  rintro ⟨y, hy, hqueue, horder, hys, hyw⟩
  rcases hfirst y hy hqueue horder with h | h
  · simp [h] at hys
  · simp [h] at hyw

/-- R298: a launch one of whose producers was killed is killed in place of its start. -/
theorem launchStart_kills (hkilled : s.producerKilled l = true) :
    exec (.launchStart l.key) s = .next (s.onLaunch l.key fun x => { x with killed := true }) := by
  show execLaunchStart l.key s = _
  simp [execLaunchStart, hl, hstart, State.startsAfter_eq_false hfirst, hkilled]

/-- R296: a launch that starts takes its parameter snapshot. -/
theorem launchStart_starts {bs : List Byte} (hkilled : s.producerKilled l = false) (hdet : l.desc.deterministic = false)
    (hread : s.deviceRead l.ctx l.desc.params l.obj.params = .ok bs) :
    exec (.launchStart l.key) s = .next ((s.deviceTook l.ctx l.desc.params l.obj.params).onLaunch l.key fun x =>
      { x with state := .started, params := bs }) := by
  show execLaunchStart l.key s = _
  simp [execLaunchStart, hl, hstart, State.startsAfter_eq_false hfirst, hkilled, hdet, hread]

end

/-! ### What leaves the crews as they are -/

@[simp] theorem State.logIntegrity_crews (s : State) (f : LogFields) : (s.logIntegrity f).crews = s.crews := by
  unfold State.logIntegrity State.logIntegrityAt
  split <;> rfl

@[simp] theorem State.logIntegrity_clusters (s : State) (f : LogFields) : (s.logIntegrity f).clusters = s.clusters := by
  unfold State.logIntegrity State.logIntegrityAt
  split <;> rfl

@[simp] theorem State.clearErrors_crews (s : State) (w : Wave) (gone : ErrSite → Bool) : (s.clearErrors w gone).crews = s.crews :=
  foldl_keeps (g := State.crews) (fun s _ => s.logIntegrity_crews _) _ _

@[simp] theorem State.clearWaveErrors_crews (s : State) (w : Wave) : (s.clearWaveErrors w).crews = s.crews := s.clearErrors_crews w _

@[simp] theorem State.dealStart_crews (s : State) (w : Wave) (l : Launch) (items : List Nat) : (s.dealStart w l items).crews = s.crews :=
  State.clearErrors_crews ..

@[simp] theorem State.tryDrain_crews (s : State) (w : Wave) : (s.tryDrain w).crews = s.crews := by
  unfold State.tryDrain
  split
  · split
    · rfl
    · exact State.clearErrors_crews ..
  · rfl

@[simp] theorem State.wholeVacant_crews (s : State) (w : Wave) : (s.wholeVacant w).crews = s.crews := by
  simp only [State.wholeVacant]
  split
  · rfl
  · split
    · rfl
    · split
      · split
        · rfl
        · simp
      · rfl

@[simp] theorem State.creationDeal_crews (s : State) (k : Nat) : (s.creationDeal k).crews = s.crews := by
  unfold State.creationDeal
  split
  · rfl
  · split
    · rfl
    · simp [apply_ite State.crews]

@[simp] theorem State.holdCluster_crews (s : State) (k : Nat) : (s.holdCluster k).crews = s.crews := rfl

@[simp] theorem State.holdCluster_crew? (s : State) (k c : Nat) : (s.holdCluster k).crew? c = s.crew? c := rfl

@[simp] theorem State.noteServed_crew? (s : State) (q c : Nat) : (s.noteServed q).crew? c = s.crew? c := rfl

@[simp] theorem State.onLaunch_crew? (s : State) (k : Nat) (f : Launch → Launch) (c : Nat) : (s.onLaunch k f).crew? c = s.crew? c := rfl

@[simp] theorem State.noteServed_crews (s : State) (q : Nat) : (s.noteServed q).crews = s.crews := rfl

/-! ### Placing crews, stopping them and placing them again (R302-R309, R314) -/

/-- R302, R314: where it is a launch's turn and none of its crews is stopped, its next crew is placed, with an empty store. -/
theorem crewPlace_places {s : State} {l : Launch} {core : Nat} {places : List (Nat × Nat)} (hl : s.launch? l.key = some l)
    (hturn : s.placeTurn l = true) (hplace : s.nextPlace l = some (core, places)) (hstopped : s.firstStopped l = none) :
    ∃ t c, exec (.crewPlace l.key) s = .next t ∧ c ∈ t.crews ∧ c.key = s.nextKey ∧ c.launch = l.key ∧ c.ordinal = l.crewsMade ∧
      c.core = core ∧ c.placed = true ∧ c.store = [] := by
  refine ⟨?next, ⟨s.nextKey, l.key, l.crewsMade, core, [], List.replicate 16 [], true, false⟩, ?run, ?made, rfl, rfl, rfl, rfl, rfl, rfl⟩
  case run =>
    show execCrewPlace l.key s = _
    simp only [execCrewPlace, hl, hstopped, hturn, hplace]
    rfl
  case made =>
    rw [foldl_keeps (g := State.crews) State.creationDeal_crews]
    simp [State.newKey]

/-- A wave of a crew that has not retired is a wave of the state. -/
theorem State.mem_crewWaves {s : State} {c : Nat} {w : Wave} (h : w ∈ s.crewWaves c) : w ∈ s.waves ∧ w.crew = c ∧ w.status ≠ .retired := by
  simp only [State.crewWaves, List.mem_flatMap, List.mem_filter, Bool.and_eq_true, beq_iff_eq, bne_iff_ne] at h
  obtain ⟨_, _, hw, ⟨hc, _⟩, hr⟩ := h
  exact ⟨hw, hc, hr⟩

/-- Changing a crew changes what its key finds. -/
theorem State.crew?_onCrew {s : State} {c : Crew} {f : Crew → Crew} (h : s.crew? c.key = some c) (hf : ∀ x, (f x).key = x.key) :
    (s.onCrew c.key f).crew? c.key = some (f c) := by
  have key (x : Crew) : ((if x.key == c.key then f x else x).key == c.key) = (x.key == c.key) := by split <;> simp [hf]
  have found := h
  unfold State.crew? at found
  simp only [State.crew?, State.onCrew_crews, List.find?_map, Function.comp_def, key, found]
  simp

/-- R345: a wave whose checkpoint has no error is read back without a change. -/
theorem State.readBack_sound {s : State} {w : Wave} (h : ∀ k, w.checkpoint = some k → k.wrong = 0) : s.readBack w = s := by
  unfold State.readBack State.readCullet
  cases hc : w.checkpoint with
  | none => rfl
  | some k => simp [h k hc]

/-- So are waves all of whose checkpoints have none. -/
theorem State.foldl_readBack_sound {s : State} {ws : List Wave} (h : ∀ w ∈ ws, ∀ k, w.checkpoint = some k → k.wrong = 0) :
    ws.foldl State.readBack s = s := by
  induction ws with
  | nil => rfl
  | cons w ws ih =>
    rw [List.foldl_cons, State.readBack_sound (h w List.mem_cons_self)]
    exact ih fun v hv => h v (List.mem_cons_of_mem w hv)

/-- R309, R314: the stopped crew that is offered first is placed again with the store it kept. -/
theorem crewReplace_places {s : State} {l : Launch} {c : Crew} {core : Nat} {places : List (Nat × Nat)} (hc : s.crew? c.key = some c)
    (hl : s.launch? c.launch = some l) (hstopped : (s.firstStopped l).map Crew.key = some c.key) (hturn : s.placeTurn l = true)
    (hplace : s.nextPlace l = some (core, places))
    (hsound : ∀ w ∈ s.waves, w.crew = c.key → ∀ k, w.checkpoint = some k → k.wrong = 0) :
    ∃ t, exec (.crewReplace c.key) s = .next t ∧ (t.crew? c.key).map (fun x => (x.core, x.placed, x.store)) = some (core, true, c.store) := by
  refine ⟨?next, ?run, ?found⟩
  case run =>
    show execCrewReplace c.key s = _
    simp only [execCrewReplace, hc, hl, hstopped, hturn, hplace, bne_self_eq_false, Bool.not_true, Bool.or_self, Bool.false_eq_true, if_false]
    rfl
  case found =>
    rw [State.foldl_readBack_sound]
    · rw [State.noteServed_crew?, State.onLaunch_crew?, State.crew?_onCrew ?_ ?_]
      · rfl
      · exact hc
      · exact fun _ => rfl
    · intro w hw
      obtain ⟨hw, hcrew, -⟩ := State.mem_crewWaves hw
      obtain ⟨v, hv, rfl⟩ := List.mem_map.mp hw
      split at hcrew
      · exact hsound v hv hcrew
      · exact hsound v hv hcrew

/-- R309: a crew that was asked to stop, and all of whose waves may, frees its core and keeps its store. -/
theorem crewPreempt_stops {s : State} {c : Crew} (hc : s.crew? c.key = some c) (hplaced : c.placed = true) (hreq : c.stopReq = true)
    (hbound : s.boundTo c.key = false) (hstop : ∀ w ∈ s.waves, w.crew = c.key → w.status ≠ .retired → s.mayStop w = true) :
    ∃ t, exec (.crewPreempt c.key) s = .next t ∧ (t.crew? c.key).map (fun x => (x.placed, x.stopReq, x.store)) = some (false, false, c.store) := by
  have stops : ((s.crewWaves c.key).any fun w => !s.mayStop w) = false := by
    rw [List.any_eq_false]
    intro w hw
    obtain ⟨hw, hcrew, hlive⟩ := State.mem_crewWaves hw
    simp [hstop w hw hcrew hlive]
  refine ⟨?next, ?run, ?found⟩
  case run =>
    show execCrewPreempt c.key s = _
    simp only [execCrewPreempt, hc, hplaced, hreq, stops, hbound]
    rfl
  case found =>
    rw [State.holdCluster_crew?, State.crew?_onCrew ?_ ?_]
    · rfl
    · rw [State.crew?, foldl_keeps (g := State.crews) State.clearWaveErrors_crews]
      exact hc
    · exact fun _ => rfl

/-! ### Completing, the bitmap and the token (R24, R297-R299, R365) -/

/-- A launch without a trace log is held back by none. -/
theorem State.logHolds_of_no_log (s : State) {l : Launch} (h : l.log = none) : s.logHolds l = none := by
  simp [State.logHolds, h]

/-- A launch completes (R24, R297, R348): its shadows are committed, its record is written, and what it held is free. -/
def State.completeLaunch (s : State) (l : Launch) : State :=
  (((((s.endLog l.key).commitShadows l.key).deviceStore l.ctx l.desc.recaddr (l.record true)).dropCrews l.key).onLaunch l.key fun x =>
    { x with state := .completed, marver := [], bits := [], exited := [], external := [] }).dropNative

/-- What a launch leaves that completes with no successor, trace log or completion word: a killed one kills the launches that wait for it (R298). -/
def State.completing (s : State) (l : Launch) : State :=
  let t := s.completeLaunch l
  if l.killed then
    { t with launches := t.launches.map fun (y : Launch) =>
        if y.state == .accepted && y.deps.any fun (z : Dep × Option Nat) => z.2 == some l.key then { y with killed := true } else y }
  else t

/-- R24, R297: a launch that may complete does so at once where nothing that it writes waits. -/
theorem launchComplete_eq {s : State} {l : Launch} (hl : s.launch? l.key = some l) (hmay : s.mayComplete l = true) (hsuccs : l.succs = [])
    (hlog : l.log = none) (hword : (s.queue l.queue).cword = 0) (hrec : s.deviceWaits l.ctx l.desc.recaddr 32 = none) :
    exec (.launchComplete l.key) s = .next (s.completing l) := by
  have word : (0 : Word64).toNat = 0 := rfl
  have free : (none <|> none <|> none : Option DeviceErr) = none := rfl
  show execLaunchComplete l.key s = _
  simp only [execLaunchComplete, hl, hmay, hsuccs, hword, hrec, s.logHolds_of_no_log hlog, word, free, Bool.not_true, Bool.false_eq_true,
    if_false, if_true, List.foldl_nil]
  split <;> rfl

@[simp] theorem State.dropCrews_launches (s : State) (lk : Nat) : (s.dropCrews lk).launches = s.launches := rfl

@[simp] theorem State.dropNative_launches (s : State) : s.dropNative.launches = s.launches := rfl

@[simp] theorem State.dropCrews_waves (s : State) (lk : Nat) : (s.dropCrews lk).waves = s.waves.filter fun w => w.launch != lk := rfl

@[simp] theorem State.dropNative_waves (s : State) : s.dropNative.waves = s.waves := rfl

/-- A launch that completes stands among the launches as completed: the stores before it drop no launch. -/
theorem State.completeLaunch_launch {s : State} {l : Launch} (hl : s.launch? l.key = some l) :
    ∃ x ∈ (s.completeLaunch l).launches, x.key = l.key ∧ x.state = .completed := by
  have names := ((State.deviceStore_names ((s.endLog l.key).commitShadows l.key) l.ctx l.desc.recaddr (l.record true)).trans
    (State.commitShadows_names _ l.key)).trans (s.endLog_names l.key)
  have key : l.key ∈ s.names.1 := List.mem_map_of_mem (List.mem_of_find?_eq_some hl)
  rw [← names] at key
  obtain ⟨y, hy, hkey⟩ := List.mem_map.mp key
  rw [State.completeLaunch, State.dropNative_launches, State.onLaunch_launches, State.dropCrews_launches]
  exact ⟨{ y with state := .completed, marver := [], bits := [], exited := [], external := [] },
    List.mem_map.mpr ⟨y, hy, if_pos (beq_iff_eq.mpr hkey)⟩, hkey, rfl⟩

/-- Killing the launches that wait for it does not touch a completed launch. -/
theorem State.completing_launch {s : State} {l : Launch} (hl : s.launch? l.key = some l) :
    ∃ x ∈ (s.completing l).launches, x.key = l.key ∧ x.state = .completed := by
  obtain ⟨x, hx, hkey, hstate⟩ := State.completeLaunch_launch hl
  unfold State.completing
  generalize s.completeLaunch l = t at hx
  simp only
  split
  · exact ⟨x, List.mem_map.mpr ⟨x, hx, by simp [hstate]⟩, hkey, hstate⟩
  · exact ⟨x, hx, hkey, hstate⟩

/-- It has no wave any more. -/
theorem State.completing_waves (s : State) (l : Launch) : ∀ w ∈ (s.completing l).waves, w.launch ≠ l.key := by
  intro w hw
  have waves : (s.completing l).waves = (s.completeLaunch l).waves := by
    simp [State.completing, apply_ite State.waves]
  rw [waves, State.completeLaunch, State.dropNative_waves, State.onLaunch_waves, State.dropCrews_waves] at hw
  simpa using (List.mem_filter.mp hw).2

/-- R299: the bit of a block that is done is set, and no other. -/
theorem bitmapBitSet_eq {s : State} {l : Launch} {p : Nat} (hl : s.launch? l.key = some l) (hstarted : l.state = .started)
    (hcblog : l.desc.cblog ≠ 0xFF) (hp : p < l.blocks) (hbit : p ∉ l.bits) :
    exec (.bitmapBitSet l.key p) s =
      .next (if s.blockDone l p = true then s.onLaunch l.key fun x => { x with bits := p :: x.bits } else s) := by
  show execBitmapBitSet l.key p s = _
  cases h : s.blockDone l p <;> simp [execBitmapBitSet, hl, hstarted, hcblog, Nat.not_le.mpr hp, hbit, h]

/-- R365: the first visit begins once every crew is placed. -/
theorem tokenPass_passes {s : State} {l : Launch} (hl : s.launch? l.key = some l) (hdet : l.desc.deterministic = true)
    (hplaced : s.allPlaced l = true) (hvisit : l.visiting = false) (hdue : ∀ w ∈ s.waves, w.checkpointDue = false) :
    exec (.tokenPass l.key) s = .next (s.passToken l.key) := by
  have none_due : (s.waves.find? fun w => w.launch == l.key && w.checkpointDue && w.visitReady) = none := by
    rw [List.find?_eq_none]
    intro w hw
    simp [hdue w hw]
  show execTokenPass l.key s = _
  simp [execTokenPass, hl, hdet, hplaced, hvisit, none_due]

/-! ### The assay (R312, R353) -/

/-- R312: an assay falls due where no other is, and every crew placed on its cluster is asked to stop. -/
theorem assayDue_stops {k : Nat} {s : State} (hk : k < s.clusters.length) (hnone : ∀ c ∈ s.clusters, c.due = false) :
    ∃ t, exec (.assayDue k) s = .next t ∧ (nth t.clusters k Cluster.reset).due = true ∧
      ∀ c ∈ t.crews, c.placed = true → c.core / 8 = k → c.stopReq = true := by
  have other : ((s.clusters.zipIdx).any fun (c, i) => i / Config.clustersPerDie == k / Config.clustersPerDie && c.due) = false := by
    rw [List.any_eq_false]
    intro x hx
    simp [hnone x.1 (List.fst_mem_of_mem_zipIdx hx)]
  refine ⟨?next, ?run, ?due, ?stops⟩
  case run =>
    show execAssayDue k s = _
    simp only [execAssayDue, other, Nat.not_le.mpr hk]
    rfl
  case due =>
    simp only [State.holdCluster, State.stopCrews, nth_modifyAt, length_modifyAt, hk, and_self, if_true]
    split <;> rfl
  case stops =>
    intro c hc hplaced hcore
    simp only [State.holdCluster_crews, State.stopCrews, List.mem_map] at hc
    obtain ⟨b, hb, rfl⟩ := hc
    by_cases asked : (b.placed && b.core / 8 == k) = true
    · rw [if_pos asked]
    · rw [if_neg asked] at hplaced hcore
      exact absurd (by simp [hplaced, hcore]) asked

/-- R312: the waves of a core that delay the assay. -/
def State.lateWaves (s : State) (core : Nat) : List Wave :=
  s.waves.filter fun w => w.core == core && w.inInterval && !s.mayStop w && ((s.crew? w.crew).map Crew.stopReq).getD false

/-- R312: they stand in an interval of R245, in crews that were asked to stop. -/
theorem State.mem_lateWaves {s : State} {core : Nat} {w : Wave} :
    w ∈ s.lateWaves core ↔
      w ∈ s.waves ∧ w.core = core ∧ w.inInterval = true ∧ s.mayStop w = false ∧ (s.crew? w.crew).map Crew.stopReq = some true := by
  have asked (o : Option Bool) : o.getD false = true ↔ o = some true := by cases o <;> simp
  simp only [State.lateWaves, List.mem_filter, Bool.and_eq_true, beq_iff_eq, Bool.not_eq_true', asked, and_assoc]

/-- R312, R354: the one that is named is the lowest of them by partition and slot. -/
theorem State.delaying_eq (s : State) (core : Nat) :
    s.delaying core = (s.lateWaves core).argmin fun w => w.partition * 16 + w.slot := by
  unfold State.delaying List.argmin
  congr 1
  funext best w
  cases best <;> rfl

/-- The entries of the integrity log for the cores, of those listed, that a wave delays. -/
def State.delayEntries (s : State) (k : Nat) (ns : List Nat) : List (List Byte) :=
  ns.filterMap fun n => (s.delaying (8 * k + n)).map fun w => integrityEntry s.clock { s.fieldsOf w with event := 0x51 } 0

/-- While the log has room and has lost nothing, an entry joins it. -/
theorem State.logIntegrity_room {s : State} (h : s.integrityLog.length < 256) (hlost : s.integrityLost = 0) (f : LogFields) :
    s.logIntegrity f = { s with integrityLog := s.integrityLog ++ [integrityEntry s.clock f 0] } := by
  simp [State.logIntegrity, State.logIntegrityAt, Config.integrityLogEntries, h, hlost]

/-- One core's part of a delayed assay. -/
def State.logDelay (k : Nat) (s : State) (n : Nat) : State :=
  match s.delaying (8 * k + n) with
  | some w => s.logIntegrity { s.fieldsOf w with event := 0x51 }
  | none => s

/-- R312: over several cores it adds their entries, for none of these changes which waves delay. -/
theorem State.foldl_logDelay {s : State} (k : Nat) (ns : List Nat) (logs : List (List Byte)) (hroom : logs.length + ns.length ≤ 256)
    (hlost : s.integrityLost = 0) :
    ns.foldl (State.logDelay k) { s with integrityLog := logs } = { s with integrityLog := logs ++ s.delayEntries k ns } := by
  induction ns generalizing logs with
  | nil => simp [State.delayEntries]
  | cons n ns ih =>
    rw [List.length_cons] at hroom
    cases hd : s.delaying (8 * k + n) with
    | none =>
      have here : State.logDelay k { s with integrityLog := logs } n = { s with integrityLog := logs } := by
        have : State.delaying { s with integrityLog := logs } (8 * k + n) = none := hd
        simp [State.logDelay, this]
      rw [List.foldl_cons, here, ih logs (by omega)]
      simp [State.delayEntries, hd]
    | some w =>
      have here : State.logDelay k { s with integrityLog := logs } n =
          { s with integrityLog := logs ++ [integrityEntry s.clock { s.fieldsOf w with event := 0x51 } 0] } := by
        have : State.delaying { s with integrityLog := logs } (8 * k + n) = some w := hd
        rw [State.logDelay, this]
        exact State.logIntegrity_room (s := { s with integrityLog := logs }) (by simp only; omega) hlost _
      rw [List.foldl_cons, here, ih _ (by simp; omega)]
      simp [State.delayEntries, hd]

/-- R312: an assay that its waves hold up enters event 0x51 for each of its eight cores that has such a wave. -/
theorem assayDelayed_logs {k : Nat} {s : State} (hdue : (nth s.clusters k Cluster.reset).due = true)
    (hhold : (nth s.clusters k Cluster.reset).holding = false) (hroom : s.integrityLog.length + 8 ≤ 256) (hlost : s.integrityLost = 0) :
    exec (.assayDelayed k) s = .next { s with integrityLog := s.integrityLog ++ s.delayEntries k (List.range 8) } := by
  rw [← State.foldl_logDelay k (List.range 8) s.integrityLog hroom hlost]
  show execAssayDelayed k s = _
  simp only [execAssayDelayed, hdue, hhold]
  rfl

/-- R312: an assay that is not due, or that its cluster holds for already, is delayed by none. -/
theorem assayDelayed_idle {k : Nat} {s : State}
    (h : (nth s.clusters k Cluster.reset).due = false ∨ (nth s.clusters k Cluster.reset).holding = true) :
    exec (.assayDelayed k) s = .next s := by
  show execAssayDelayed k s = _
  rcases h with h | h <;> simp [execAssayDelayed, h]

/-- R312, R353: the hold ends with the assay; a failing cluster goes out of service. -/
theorem assayEnd_ends {k : Nat} {s : State} (hk : k < s.clusters.length) (faulty : Bool)
    (hhold : (nth s.clusters k Cluster.reset).holding = true) :
    ∃ t, exec (.assayEnd k faulty) s = .next t ∧ (nth t.clusters k Cluster.reset).holding = false ∧
      (nth t.clusters k Cluster.reset).due = false ∧
      ((nth t.clusters k Cluster.reset).inService = true ↔ faulty = false ∧ (nth s.clusters k Cluster.reset).inService = true) := by
  show ∃ t, execAssayEnd k faulty s = .next t ∧ _
  cases faulty
  case false => simp [execAssayEnd, hhold, hk]
  case true => simp [execAssayEnd, hhold, hk]

/-- Settles O51, event by event. Three clauses have an idea of their own: `descriptorAccept` and `launchComplete` rest on the names that every store of
the device keeps, and `assayDelayed` on the log, whose entries change no wave that delays. -/
theorem launchEventsTakePlace : Obligations.LaunchEventsTakePlace := by
  unfold Obligations.LaunchEventsTakePlace
  refine ⟨fun q v s => rfl, ?queue, ?start, fun s l core places => crewPlace_places, fun s l c core places => crewReplace_places,
    fun s c => crewPreempt_stops, ?complete, ?bitmap, fun s l => tokenPass_passes, ?assay⟩
  case queue =>
    intro q va s bs succs o ctx d hstatus htail hreading hread
    exact ⟨descriptorAccept_refuses hstatus htail hreading hread,
      fun e href hsuccs hobj => descriptorAccept_holds hstatus htail hreading hread href hsuccs hobj,
      descriptorAccept_accepts hstatus htail hreading hread⟩
  case start =>
    intro s l bs hl hstart
    exact ⟨fun y => launchStart_waits hl,
      fun hfirst => ⟨launchStart_kills hl hstart hfirst, launchStart_starts hl hstart hfirst⟩⟩
  case complete =>
    intro s l hl hmay hsuccs hlog hword hrec
    exact ⟨s.completing l, launchComplete_eq hl hmay hsuccs hlog hword hrec, State.completing_launch hl, s.completing_waves l⟩
  case bitmap =>
    intro s l p hl hstarted hcblog hp hbit
    rw [bitmapBitSet_eq hl hstarted hcblog hp hbit]
    exact ⟨fun h => by rw [if_pos h], fun h => by rw [if_neg (by simp [h])]⟩
  case assay =>
    intro k s hk
    refine ⟨assayDue_stops hk, ⟨assayDelayed_idle, assayDelayed_logs, fun core => ?_⟩, assayEnd_ends hk⟩
    simp only [← State.mem_lateWaves, State.delaying_eq]
    refine ⟨fun w hw => ⟨List.argmin_mem hw, fun v hv => List.le_of_mem_argmin hv hw⟩, fun ⟨w, hw⟩ => ?_⟩
    rw [Option.isSome_iff_ne_none, ne_eq, List.argmin_eq_none]
    exact List.ne_nil_of_mem hw

end Sys2Proof.Machine
end

section
/-! Waves found by their key, once a wave is put back, an entry is logged or errors are cleared. -/

namespace Sys2Proof.Machine

/-- A wave that stands in the state is found by its key once it is put back. -/
theorem State.wave?_putWave {s : State} {w : Wave} (h : (s.wave? w.key).isSome = true) : (s.putWave w).wave? w.key = some w := by
  obtain ⟨x, hx⟩ := Option.isSome_iff_exists.mp h
  unfold State.wave? at hx
  have key (x : Wave) : ((if x.key == w.key then w else x).key == w.key) = (x.key == w.key) := by split <;> simp_all
  simp only [State.wave?, State.putWave_waves, List.find?_map, Function.comp_def, key, hx, Option.map_some]
  rw [if_pos (List.find?_some hx)]

/-- Putting a wave back hides no wave of its key. -/
theorem State.wave?_putWave_isSome {s : State} {w v : Wave} (h : (s.wave? w.key).isSome = true) (hk : v.key = w.key) :
    ((s.putWave v).wave? w.key).isSome = true := by
  rw [← hk] at h ⊢
  rw [State.wave?_putWave h]
  rfl

/-- Putting a wave back leaves the waves of other keys. -/
theorem State.wave?_putWave_other {s : State} {w : Wave} {k : Nat} (h : k ≠ w.key) : (s.putWave w).wave? k = s.wave? k := by
  have key (x : Wave) : ((if x.key == w.key then w else x).key == k) = (x.key == k) := by split <;> simp_all
  simp only [State.wave?, State.putWave_waves, List.find?_map, Function.comp_def, key]
  cases hx : s.waves.find? fun x => x.key == k with
  | none => rfl
  | some x =>
    have hk : x.key = k := by simpa using List.find?_some hx
    rw [Option.map_some, if_neg (by simpa [hk] using h)]

/-- After a wave is put back it is the only one of its key. -/
theorem State.eq_of_mem_putWave {s : State} {w x : Wave} (hx : x ∈ (s.putWave w).waves) (hk : x.key = w.key) : x = w := by
  obtain ⟨y, -, rfl⟩ := List.mem_map.mp hx
  by_cases hy : (y.key == w.key) = true
  · rw [if_pos hy]
  · rw [if_neg hy] at hk
    exact absurd (beq_iff_eq.mpr hk) hy

@[simp] theorem State.logIntegrity_waves (s : State) (f : LogFields) : (s.logIntegrity f).waves = s.waves := by
  unfold State.logIntegrity State.logIntegrityAt
  split <;> rfl

@[simp] theorem State.clearLanes_waves (s : State) (w : Wave) (on : Mask) : (s.clearLanes w on).waves = s.waves :=
  foldl_keeps (g := State.waves) (fun s _ => s.logIntegrity_waves _) _ _

/-- Clearing errors in lanes leaves the waves that are found. -/
@[simp] theorem State.clearLanes_wave? (s : State) (w : Wave) (on : Mask) (k : Nat) : (s.clearLanes w on).wave? k = s.wave? k := by
  simp [State.wave?]

end Sys2Proof.Machine
end

section
/-! The word `refill` (R153, R301, R368): its trap, its waits and its deal. -/

namespace Sys2Proof.Machine

/-- The split of a deal that is an acquire fence (R301) stands in it; another keeps its status. -/
theorem Split.dealt_eq (p : Split) (fence : Bool) :
    p.dealt fence = { p with status := if fence = true then .acquiring else p.status } := by
  cases fence <;> rfl

/-- How many items a `refill` may deal: as many as lanes are vacant, and in drain state, where no item is left, none. -/
def Wave.refillMost (w : Wave) : Nat := if w.a.drain = true then 0 else w.vacant.length

/-- R153: the waits of a `refill` are met: the wave's work has settled, it has the token, and in deterministic mode the whole run is dealable (R368). -/
def State.refillOpen (s : State) (l : Launch) (w : Wave) : Prop :=
  w.settled = true ∧ s.hasToken w = true ∧
    (l.desc.deterministic = false ∨ min w.refillMost (l.total - l.dealer) ≤ (s.dealRun l w.refillMost).length)

/-- R153: an open region traps REFILLDEPTH before anything else. -/
theorem refill_depth (d : Byte) :
    leadsTo (.refill d) (fun _ w _ => 0 < w.openRegions) fun s w p => s.takeTrap w p trapREFILLDEPTH p.pc w.openRegions p.lanes := by
  intro s w p hf hu hopen
  show execRefill d s = _
  rw [execRefill, issueWord_runs hf hu, if_pos hopen]
  rfl

/-- R153, R368: a `refill` whose waits are not met leaves everything as it is. -/
theorem refill_waits (d : Byte) (l : Launch) :
    leadsTo (.refill d) (fun s w _ => w.openRegions = 0 ∧ s.launch? w.launch = some l ∧ ¬s.refillOpen l w) fun s _ _ => s := by
  intro s w p hf hu ⟨hdepth, hl, hwait⟩
  show execRefill d s = _
  simp only [execRefill, issueWord_runs hf hu, hdepth, gt_iff_lt, lt_self_iff_false, if_false, hl]
  by_cases hready : (!w.settled || !s.hasToken w) = true
  · rw [if_pos hready]
  · rw [if_neg hready]
    simp only [Bool.or_eq_true, Bool.not_eq_true', not_or, Bool.not_eq_false] at hready
    simp only [State.refillOpen, hready, true_and, not_or, not_le, Bool.not_eq_false] at hwait
    rw [if_pos]
    simpa [Wave.refillMost] using hwait

/-- Settles O33: after its trap and its waits, a `refill` deals; whether a handler's frame takes part in the deal is the one case to split. -/
theorem refillResults : Obligations.RefillResults := by
  unfold Obligations.RefillResults
  intro d l most items open_
  refine ⟨refill_depth d, refill_waits d l, ?_⟩
  intro s w p hf hu ⟨hdepth, hl, hsettled, htoken, hrun⟩
  show execRefill d s = _
  simp only [execRefill, issueWord_runs hf hu, hdepth, hl, hsettled, htoken, gt_iff_lt, lt_self_iff_false, if_false, Bool.not_true,
    Bool.or_self, Bool.false_eq_true, Split.dealt_eq]
  rw [if_neg]
  · cases w.frame <;> rfl
  · rw [Bool.and_eq_true, decide_eq_true_eq, not_and, Nat.not_lt]
    exact fun hdet => hrun.resolve_left (by simp [hdet])

end Sys2Proof.Machine
end

section
/-! The word `exit` (R152, R365, R369): lanes that vacate (R19), and what a wave without lanes goes on to (R22, R23, R121). -/

namespace Sys2Proof.Machine

/-! ### Lanes that vacate (R19, R152) -/

/-- What closing regions and vacating lanes leave alone: the registers. -/
def Arch.registers (a : Arch) : List VReg × List Word64 × List Mask := (a.vregs, a.sregs, a.preds)

/-- R147: closing a region neither ends a lane nor writes a register. -/
theorem Arch.closeOne_keeps (a : Arch) (e : Entry) : (a.closeOne e).live = a.live ∧ (a.closeOne e).registers = a.registers := by
  cases e with
  | region g join pend arr =>
    simp only [Arch.closeOne]
    split
    · exact ⟨rfl, rfl⟩
    · exact ⟨rfl, rfl⟩
  | frame => exact ⟨rfl, rfl⟩

/-- R143, R147: neither does closing every complete region. -/
theorem Arch.closeRegions_keeps (a : Arch) : a.closeRegions.live = a.live ∧ a.closeRegions.registers = a.registers :=
  ⟨foldl_keeps (g := Arch.live) (fun a e => (a.closeOne_keeps e).1) _ a,
    foldl_keeps (g := Arch.registers) (fun a e => (a.closeOne_keeps e).2) _ a⟩

/-- R19: lanes that vacate leave the live set, and no register is written. -/
theorem Arch.vacate_keeps (a : Arch) (gone : Mask) : (a.vacate gone).live = a.live.diff gone ∧ (a.vacate gone).registers = a.registers := by
  unfold Arch.vacate
  exact Arch.closeRegions_keeps _

/-- Outside a handler a wave that vacates lanes has the control state and the registers that vacating gives. -/
theorem Wave.vacateLanes_a {w : Wave} (gone : Mask) (h : w.frame = none) : (w.vacateLanes gone).a = w.a.vacate gone := by
  simp [Wave.vacateLanes, Wave.landLost, Wave.forgetLanes, h]

/-- Vacating lanes keeps the wave's key. -/
@[simp] theorem Wave.vacateLanes_key (w : Wave) (gone : Mask) : (w.vacateLanes gone).key = w.key := by
  simp only [Wave.vacateLanes, Wave.landLost]
  split
  · split <;> rfl
  · rfl

/-! ### A wave without lanes (R22, R23, R121) -/

/-- R22: in a kernel that does not refill, or with no item left, a wave takes no further deal. -/
theorem Launch.deals_no_more {l : Launch} {w : Wave} (h : w.kern.refill = false ∨ l.total ≤ l.dealer) :
    (w.kern.refill && decide (l.dealer < l.total)) = false := by
  rcases h with h | h
  · simp [h]
  · simp [Nat.not_lt.mpr h]

section
variable {s : State} {w : Wave} {l : Launch} (hl : s.launch? w.launch = some l)
include hl

/-- R121: a wave does not drain while a register is empty, a write is under way, or a rollback is owed. -/
theorem State.tryDrain_waits {off : Nat} (hoff : w.kern.drain = some off) (hwait : w.settled = false ∨ w.demand ≠ none) :
    s.tryDrain w = s := by
  have held : (!w.settled || w.demand.isSome) = true := by
    rcases hwait with h | h
    · simp [h]
    · simp [Option.isSome_iff_ne_none.mpr h]
  simp only [State.tryDrain, hl, hoff, held, if_true]

/-- R23, R121: otherwise it enters drain state. -/
theorem State.tryDrain_enters {off : Nat} (hoff : w.kern.drain = some off) (hsettled : w.settled = true) (hdemand : w.demand = none) :
    s.tryDrain w = (s.clearLanes w (w.enterDrain l.desc off).a.live).putWave (w.enterDrain l.desc off) := by
  simp [State.tryDrain, hl, hoff, hsettled, hdemand]

/-- R22: with items left, and in a kernel that refills, the wave waits for its next deal. -/
theorem State.wholeVacant_deal (hrefill : w.kern.refill = true) (hleft : l.dealer < l.total) :
    s.wholeVacant w = s.putWave { w with status := .awaitingDeal } := by
  simp [State.wholeVacant, hl, hrefill, hleft]

variable (hnone : w.kern.refill = false ∨ l.total ≤ l.dealer)
include hnone

/-- R22: a wave that takes no further deal and has no drain to make, or has made it, retires. -/
theorem State.wholeVacant_retire (hdrain : w.kern.drain = none ∨ w.drained = true) :
    s.wholeVacant w = s.putWave { w with status := .retiring } := by
  simp only [State.wholeVacant, hl, Launch.deals_no_more hnone, Bool.false_eq_true, if_false]
  rcases hdrain with h | h
  · simp [h]
  · cases w.kern.drain <;> simp [h]

/-- R22, R121: any other waits to drain, and tries it at once. -/
theorem State.wholeVacant_tryDrain {off : Nat} (hoff : w.kern.drain = some off) (hdrained : w.drained = false) :
    s.wholeVacant w = (s.putWave { w with status := .awaitingDrain }).tryDrain { w with status := .awaitingDrain } := by
  simp only [State.wholeVacant, hl, Launch.deals_no_more hnone, hoff, hdrained, Bool.false_eq_true, if_false]

end

/-- R23: in drain state the whole width stands in one split at the `.drain` label, with zero registers, in a region of its own. -/
theorem Wave.enterDrain_state (w : Wave) (d : Desc) (off : Nat) :
    let v := w.enterDrain d off
    v.key = w.key ∧ v.status = .running ∧ v.drained = true ∧ v.a.drain = true ∧ v.a.live = Mask.below w.W ∧
      (v.a.splits.map fun q => (q.lanes, q.pc)) = [(Mask.below w.W, w.kern.codeVa + off)] ∧
      (∀ r ∈ v.a.vregs, ∀ x ∈ r.lanes, x = 0) ∧ (∀ m ∈ v.a.preds, m = 0) ∧ v.checkpoint.isSome = true := by
  refine ⟨rfl, rfl, rfl, rfl, rfl, ?_, fun r hr x hx => ?_, fun m hm => ?_, rfl⟩
  · simp [Wave.enterDrain, Wave.startAt, Split.new, apply_ite Split.lanes, apply_ite Split.pc]
  · obtain ⟨_, -, rfl⟩ := List.mem_map.mp hr
    obtain ⟨_, -, rfl⟩ := List.mem_map.mp hx
    rfl
  · obtain ⟨_, -, rfl⟩ := List.mem_map.mp hm
    rfl

/-! ### `exit` (R152, R365, R369) -/

/-- A wave that `exit` leaves with nothing to do retires within its visit (R369). -/
def State.retireIdle (s : State) (w : Wave) : State :=
  match s.wave? w.key with
  | some x => if x.status = .retiring ∧ s.deterministic x = true ∧ x.mayRetire = true then s.retireWave x else s
  | none => s

/-- Outside deterministic mode neither that nor the end of a visit follows an `exit`. -/
theorem State.visitWord_retireIdle {s : State} {w x : Wave} (hx : s.wave? w.key = some x) (hdet : s.deterministic x = false) :
    (s.retireIdle w).visitWord w.key = s := by
  have stays : s.retireIdle w = s := by simp [State.retireIdle, hx, hdet]
  rw [stays, State.visitWord, hx]
  simp [hdet]

/-- The pairs of a split whose status words differ. -/
def Wave.exitDiffers (a : Byte) (w : Wave) (p : Split) : Mask := w.differing (w.active p) fun l => (w.src a .raw l).toNat

/-- The wave once the active lanes of the split have exited. -/
def Wave.exited (w : Wave) (p : Split) : Wave := (w.advance p).vacateLanes (w.active p)

/-- What an `exit` of lanes leaves: their status words in the record, the lanes vacant, and a wave without lanes where R22 takes it. -/
def State.afterExits (a : Byte) (s : State) (w : Wave) (p : Split) : State :=
  let t := (s.countExits w (w.performers (w.active p)) (w.src a .raw)).putWave (w.exited p)
  if (w.exited p).a.live = 0 then t.wholeVacant (w.exited p) else t

/-- What an `exit` that nothing hinders does: it compares the pairs' status words, and only advances without an active lane. -/
def exitBody (a : Byte) (s : State) (w : Wave) (p : Split) : Result :=
  if w.exitDiffers a p ≠ 0 then s.mismatch w p (w.exitDiffers a p) false
  else if w.active p = 0 then .next ((s.putWave (w.advance p)).visitWord w.key)
  else .next (((s.afterExits a w p).retireIdle w).visitWord w.key)

/-- `exit` by its three cases: vacating lanes keeps the key by which its wave is found. -/
theorem exec_exit (a : Byte) (s : State) : exec (.exit a) s = issueWord (.exit a) s (exitBody a) := by
  show execExit a s = _
  rw [execExit]
  congr 1
  funext s w p
  simp only [exitBody, State.afterExits, State.retireIdle, Wave.exited, Wave.exitDiffers, Wave.vacateLanes_key, Wave.advance_key,
    Bool.and_eq_true, beq_iff_eq, and_assoc] <;> rfl

/-- R347: pairs with different status words are a mismatch. -/
theorem exit_mismatch (a : Byte) :
    leadsTo (.exit a) (fun _ w p => w.exitDiffers a p ≠ 0) (pairMismatch fun w p => w.exitDiffers a p) := by
  intro s w p hf hu hdiff
  rw [exec_exit, issueWord_runs hf hu, exitBody, if_pos hdiff]
  rfl

/-- R152: without an active lane an `exit` only advances. -/
theorem exit_empty (a : Byte) :
    leadsTo (.exit a) (fun _ w p => w.exitDiffers a p = 0 ∧ w.active p = 0) fun s w p => (s.putWave (w.advance p)).visitWord w.key := by
  intro s w p hf hu ⟨hsame, hnone⟩
  rw [exec_exit, issueWord_runs hf hu, exitBody, if_neg (not_not_intro hsame), if_pos hnone]

/-- R152, R365, R369: otherwise its lanes exit, and the visit ends. -/
theorem exit_lanes (a : Byte) :
    leadsTo (.exit a) (fun _ w p => w.exitDiffers a p = 0 ∧ w.active p ≠ 0)
      fun s w p => ((s.afterExits a w p).retireIdle w).visitWord w.key := by
  intro s w p hf hu ⟨hsame, hsome⟩
  rw [exec_exit, issueWord_runs hf hu, exitBody, if_neg (not_not_intro hsame), if_neg hsome]

/-- Settles O32: `exit_lanes` narrowed by whether a lane is left; a wave without lanes follows the rows of R22. -/
theorem exitResults : Obligations.ExitResults := by
  unfold Obligations.ExitResults
  refine ⟨fun a => ?words, fun w gone h => ?vacates, fun s w l hl hw => ?vacant⟩
  case words =>
    refine ⟨exit_empty a, ?_, ?_, exit_mismatch a, fun s w x => State.visitWord_retireIdle⟩
    · exact (exit_lanes a).narrow fun s w p ⟨hsame, hsome, hlive⟩ => ⟨⟨hsame, hsome⟩, by
        rw [State.afterExits, if_neg (c := (w.exited p).a.live = 0) hlive]
        rfl⟩
    · exact (exit_lanes a).narrow fun s w p ⟨hsame, hsome, hlive⟩ => ⟨⟨hsame, hsome⟩, by
        rw [State.afterExits, if_pos (c := (w.exited p).a.live = 0) hlive]
        rfl⟩
  case vacates =>
    obtain ⟨live, registers⟩ := w.a.vacate_keeps gone
    simp only [Arch.registers, Prod.mk.injEq] at registers
    rw [Wave.vacateLanes_a gone h]
    exact ⟨live, registers⟩
  case vacant =>
    refine ⟨State.wholeVacant_deal hl, fun hnone => ⟨State.wholeVacant_retire hl hnone, fun off hoff hdrained => ?_⟩⟩
    rw [State.wholeVacant_tryDrain hl hnone hoff hdrained]
    have hl' : (s.putWave { w with status := .awaitingDrain }).launch? w.launch = some l := hl
    refine ⟨State.tryDrain_waits hl' hoff, fun hsettled hdemand => ?_⟩
    obtain ⟨hkey, drains⟩ := ({ w with status := .awaitingDrain } : Wave).enterDrain_state l.desc off
    refine ⟨_, _, State.tryDrain_enters hl' hoff hsettled hdemand, ?_, drains⟩
    have found : ((s.putWave { w with status := .awaitingDrain }).wave? w.key).isSome = true := State.wave?_putWave_isSome hw rfl
    exact hkey ▸ State.wave?_putWave (by rwa [State.clearLanes_wave?])

end Sys2Proof.Machine
end

section
/-! The events of a wave's life: where DIVERGE (R376) leaves another wave than it found. -/

namespace Sys2Proof.Machine

/-! ### What a trap does to the other waves (R253, R258) -/

/-- R258: a context fault kills waves, and changes no other. -/
theorem State.contextFault_waves (s : State) (ctx : Nat) (f : LogFields) :
    ∃ dead : Wave → Bool, (s.contextFault ctx f).waves = s.waves.map fun w => if dead w then w.kill else w :=
  ⟨_, State.logIntegrity_waves _ _⟩

/-- After a context fault a wave that stood in no handler before stands in none. -/
theorem State.contextFault_frame {s : State} {ctx k : Nat} {f : LogFields} {v : Wave} (hv : (s.contextFault ctx f).wave? k = some v)
    (h : ∀ w ∈ s.waves, w.key = k → w.frame = none) : v.frame = none := by
  obtain ⟨dead, waves⟩ := s.contextFault_waves ctx f
  have hkey : v.key = k := by simpa using List.find?_some hv
  have hmem := List.mem_of_find?_eq_some hv
  rw [waves] at hmem
  obtain ⟨w, hw, rfl⟩ := List.mem_map.mp hmem
  cases hdead : dead w with
  | true => rfl
  | false =>
    simp only [hdead] at hkey
    exact h w hw hkey

/-- R255: a wave that a trap takes to its handler leaves every other wave as it is, for the trap is then no context fault. -/
theorem State.takeTrap_other_wave {s : State} {w v : Wave} {p : Split} {cause pc addr k : Nat} {mask : Mask} (hw : w.frame = none)
    (hv : (s.takeTrap w p cause pc addr mask).wave? w.key = some v) (hframe : v.frame.isSome = true) (hk : k ≠ w.key) :
    (s.takeTrap w p cause pc addr mask).wave? k = s.wave? k := by
  have user : (w.fillTrap cause pc addr mask).system = false := by simp [Wave.system, Wave.fillTrap, hw]
  simp only [State.takeTrap, user, Bool.false_eq_true, if_false] at hv ⊢
  cases hobj : s.handlerObj (w.fillTrap cause pc addr mask).ctx with
  | some h => exact State.wave?_putWave_other hk
  | none =>
    rw [hobj] at hv
    have faulted : v.frame = none :=
      State.contextFault_frame hv fun x hx hkey => (congrArg Wave.frame (State.eq_of_mem_putWave hx hkey)).trans hw
    simp [faulted] at hframe

/-! ### A trace log that lies across lines (R372, R376) -/

/-- Page tables of die 0 that map virtual 0 to 0x100000 (R317, R318); before them an entry of the trace log at virtual 32: the wave's read of the line
0x5000 at retired value 0 (R374). -/
def splitLogMemory : Memory :=
  [(0x100068, 1), (0x100071, 0x50), (0x200000, 1), (0x200002, 0x21), (0x210000, 1), (0x210002, 0x22), (0x220000, 1), (0x220002, 0x23),
    (0x230000, 0x92), (0x230001, 0x0F), (0x230002, 0x10)]

/-- The wave of log 2, at a `nop`, which reads no line. -/
def divergingWave : Wave := placedWave 0xDC000000

/-- Its split. -/
def divergingSplit : Split := Split.new (Mask.below 16) 0x10000

/-- Two such waves follow that log, of which the first is about to diverge. The line where the log begins has a single bit wrong, and the error budget
of the context, which has a handler, allows no further charge. -/
def splitLogState : State :=
  let s := State.reset.placeWord 0xDC000000
  { s with
    contexts := [⟨1, false, 0x10000, 1, 0, [(0, 0x200000)], [], false, .ofCause 0⟩]
    hbm := splitLogMemory
    softErrors := [⟨.hbm 0 (0x100000 / 64), 1, false⟩]
    waves := [divergingWave, { divergingWave with key := 4, ordinal := 1, slot := 1 }]
    launches := s.launches.map fun (l : Launch) =>
      { l with desc := { l.desc with deterministic := true }, log := some ⟨32, 160, 2, 4, 1, 0, 0, 0, 0, 0⟩ } }

/-- The wave of a key in the state that a step answers. -/
def waveAfter (r : Result) (k : Nat) : Option Wave :=
  match r with
  | .next t => t.wave? k
  | _ => none

/-- The first wave's log entry is one that its `nop` does not meet, and nothing about the log holds DIVERGE back. -/
theorem splitLogState_diverges :
    (splitLogState.diverging divergingWave divergingSplit .nop).isSome = true ∧
      (splitLogState.launch? divergingWave.launch).bind splitLogState.logHolds = none := by
  decide +kernel

/-- R340, R341, R350: the header is written to parts of two lines, and correcting the first exhausts the budget: a context fault, which kills the second
wave. The first, which the event has in hand, traps to its handler. -/
theorem splitLogState_faults :
    (waveAfter (exec (.diverge 3) splitLogState) 3).map (fun v => v.frame.isSome) = some true ∧
      (waveAfter (exec (.diverge 3) splitLogState) 4).map Wave.status = some .retiring := by
  decide +kernel

/-- Refutes O50: its clause about DIVERGE has every wave as it was before the trap, in every state. Where the trace log's base is no multiple of 64 the
header, which DIVERGE writes (R373), is no whole line, and the correction of a bit error under it can fault the context, which kills the launch's other
waves. R372 asks for a multiple of 64, and TLOGSET refuses any other base, so no run comes to such a state; the clause does not ask for it. -/
theorem not_waveEventsTakePlace : ¬Obligations.WaveEventsTakePlace := by
  unfold Obligations.WaveEventsTakePlace
  intro ⟨life, _⟩
  obtain ⟨-, -, -, -, -, -, -, -, -, -, -, diverge⟩ := life 3 splitLogState divergingWave rfl
  obtain ⟨hdiv, hlog⟩ := splitLogState_diverges
  obtain ⟨e, he⟩ := Option.isSome_iff_exists.mp hdiv
  obtain ⟨u, hrun, hwaves, -⟩ := diverge divergingSplit [] e .nop rfl (by decide +kernel) he hlog
  obtain ⟨hframe, hstatus⟩ := splitLogState_faults
  rw [hrun] at hframe hstatus
  obtain ⟨v, hv, hsome⟩ := Option.map_eq_some_iff.mp hframe
  obtain ⟨x, hx, hretiring⟩ := Option.map_eq_some_iff.mp hstatus
  have other := State.takeTrap_other_wave (w := divergingWave) (k := 4) rfl hv hsome (by decide)
  have running : u.wave? 4 = some { divergingWave with key := 4, ordinal := 1, slot := 1 } := by
    rw [State.wave?, hwaves]
    rfl
  obtain rfl := Option.some.inj (hx.symm.trans (other.trans running))
  exact absurd hretiring (by decide)

end Sys2Proof.Machine
end

section
/-! The decoder and the encoder agree (R112-R125): a lemma for each class of words, and one for the four bytes. -/

namespace Sys2Proof.Machine

/-! ### Fields and bytes -/

/-- A field of the upper of two joined fields. -/
theorem extractLsb'_append_upper {m k n : Nat} (s : Nat) (x : BitVec m) (y : BitVec k) :
    (x ++ y).extractLsb' (k + s) n = x.extractLsb' s n := by
  ext j hj
  simp [BitVec.getLsbD_append, show ¬ k + s + j < k by omega, show k + s + j - k = s + j by omega]

/-- A field of the lower of two joined fields. -/
theorem extractLsb'_append_lower {m k n : Nat} (s : Nat) (x : BitVec m) (y : BitVec k) (h : s + n ≤ k) :
    (x ++ y).extractLsb' s n = y.extractLsb' s n := by
  ext j hj
  simp [BitVec.getLsbD_append, show s + j < k by omega]

/-- Bytes A and B of a 16-bit field, joined again. -/
@[simp] theorem split16_join (i : BitVec 16) : (split16 i).1 ++ (split16 i).2 = i :=
  BitVec.extractLsb'_append_extractLsb' (w := 8) (len := 8)

/-- The 16-bit field of two bytes has them as its parts. -/
@[simp] theorem split16_append (a b : Byte) : split16 (a ++ b) = (a, b) :=
  Prod.ext ((extractLsb'_append_upper 0 a b).trans BitVec.extractLsb'_eq_self)
    ((extractLsb'_append_lower 0 a b le_rfl).trans BitVec.extractLsb'_eq_self)

/-- Bytes D, A and B of a 24-bit field, joined again. -/
@[simp] theorem split24_join (i : BitVec 24) : (split24 i).1 ++ (split24 i).2.1 ++ (split24 i).2.2 = i := by
  have h : i.extractLsb' 16 8 ++ i.extractLsb' 8 8 = i.extractLsb' 8 16 :=
    BitVec.extractLsb'_append_extractLsb'_eq_extractLsb' (start₁ := 8) (len₁ := 8) rfl
  unfold split24
  rw [h]
  exact BitVec.extractLsb'_append_extractLsb' (w := 16) (len := 8)

/-- The 24-bit field of three bytes has them as its parts. -/
@[simp] theorem split24_append (d a b : Byte) : split24 (d ++ a ++ b) = (d, a, b) := by
  have hd : (d ++ a ++ b).extractLsb' 16 8 = d := by
    simpa using (extractLsb'_append_upper 8 (d ++ a) b (n := 8)).trans (extractLsb'_append_upper 0 d a)
  have ha : (d ++ a ++ b).extractLsb' 8 8 = a := by
    simpa using (extractLsb'_append_upper 0 (d ++ a) b (n := 8)).trans (extractLsb'_append_lower 0 d a le_rfl)
  have hb : (d ++ a ++ b).extractLsb' 0 8 = b := by
    simpa using extractLsb'_append_lower 0 (d ++ a) b (n := 8) le_rfl
  simp only [split24, hd, ha, hb]

/-- A byte of which only the low six bits are a field. -/
theorem zero_append_low (b : Byte) (h : b.extractLsb' 6 2 = 0#2) : 0#2 ++ b.extractLsb' 0 6 = b := by
  rw [← h]
  exact BitVec.extractLsb'_append_extractLsb' (w := 2) (len := 6)

/-- The upper four bits of byte D are the first field of a branch. -/
@[simp] theorem branch_first (p : BitVec 4) (o : BitVec 20) : (split24 (p ++ o)).1.extractLsb' 4 4 = p := by
  have h : (split24 (p ++ o)).1.extractLsb' 4 4 = (p ++ o).extractLsb' 20 4 := by
    ext j hj
    simp [split24, show 4 + j < 8 by omega, ← Nat.add_assoc]
  rw [h]
  exact (extractLsb'_append_upper 0 p o).trans BitVec.extractLsb'_eq_self

/-- The rest is its offset. -/
@[simp] theorem branch_offset (p : BitVec 4) (o : BitVec 20) :
    ((split24 (p ++ o)).1 ++ (split24 (p ++ o)).2.1 ++ (split24 (p ++ o)).2.2).extractLsb' 0 20 = o := by
  rw [split24_join]
  exact (extractLsb'_append_lower 0 p o le_rfl).trans BitVec.extractLsb'_eq_self

/-- A 16-bit field without its low three bits. -/
theorem split16_append_low (a b : Byte) (h : b.extractLsb' 0 3 = 0#3) : split16 ((a ++ b).extractLsb' 3 13 ++ 0#3) = (a, b) := by
  rw [← h, ← extractLsb'_append_lower 0 a b (by decide)]
  exact (congrArg split16 (BitVec.extractLsb'_append_extractLsb' (w := 13) (len := 3))).trans (split16_append a b)

/-- A 24-bit field without its low three bits. -/
theorem split24_append_low (d a b : Byte) (h : b.extractLsb' 0 3 = 0#3) :
    split24 ((d ++ a ++ b).extractLsb' 3 21 ++ 0#3) = (d, a, b) := by
  rw [← h, ← extractLsb'_append_lower 0 (d ++ a) b (by decide)]
  exact (congrArg split24 (BitVec.extractLsb'_append_extractLsb' (w := 21) (len := 3))).trans (split24_append d a b)

/-- A 24-bit field as the two fields of a branch. -/
@[simp] theorem split24_branch (d a b : Byte) : split24 (d.extractLsb' 4 4 ++ (d ++ a ++ b).extractLsb' 0 20) = (d, a, b) := by
  have hd : d.extractLsb' 4 4 = (d ++ a ++ b).extractLsb' 20 4 :=
    ((extractLsb'_append_upper 12 (d ++ a) b).trans (extractLsb'_append_upper 4 d a)).symm
  rw [hd]
  exact (congrArg split24 (BitVec.extractLsb'_append_extractLsb' (w := 4) (len := 20))).trans (split24_append d a b)

/-- The same where the first field is zero. -/
theorem split24_zero_branch (d a b : Byte) (h : d.extractLsb' 4 4 = 0#4) : split24 (0#4 ++ (d ++ a ++ b).extractLsb' 0 20) = (d, a, b) := by
  rw [← h, split24_branch]

/-- The two fields of a byte, joined again. -/
theorem nibbles_join (d : Byte) : d.extractLsb' 4 4 ++ d.extractLsb' 0 4 = d :=
  BitVec.extractLsb'_append_extractLsb' (w := 4) (len := 4)

/-! ### Decoding what was encoded -/

/-- The bytes of an instruction decode to it: where a field is cut into bytes, the decoder joins them again. -/
theorem decodeBytes4_of_encodeBytes {i : Instr} {o d a b : Byte} : encodeBytes i = some (o, d, a, b) → decodeBytes4 o d a b = some i := by
  cases i with
  | sli d i | slih d i | slix d i | sliy d i | saddi d i | sandi d i | sori d i | sxori d i | smuli d i | mode i =>
    rintro ⟨⟩
    exact congrArg some (congrArg _ (split16_join i))
  | rgn i | trap i | preoff i | sleep i =>
    rintro ⟨⟩
    exact congrArg some (congrArg _ (split24_join i))
  | brp p o | brn p o | brk p o =>
    rintro ⟨⟩
    exact congrArg some (congrArg₂ _ (branch_first p o) (branch_offset p o))
  | bra o | split o | call o =>
    rintro ⟨⟩
    exact (if_pos (beq_iff_eq.mpr (branch_first 0 o))).trans (congrArg some (congrArg _ (branch_offset 0 o)))
  | sshli d i | sshri d i | ssrai d i =>
    rintro ⟨⟩
    have hz : (0#2 ++ i).extractLsb' 6 2 = 0#2 := (extractLsb'_append_upper 0 (0#2) i).trans BitVec.extractLsb'_eq_self
    have hi : (0#2 ++ i).extractLsb' 0 6 = i := (extractLsb'_append_lower 0 (0#2) i le_rfl).trans BitVec.extractLsb'_eq_self
    exact (if_pos (beq_iff_eq.mpr hz)).trans (congrArg some (congrArg _ hi))
  | fence s r =>
    rintro ⟨⟩
    have hs : (s ++ r).extractLsb' 4 4 = s := (extractLsb'_append_upper 0 s r).trans BitVec.extractLsb'_eq_self
    have hr : (s ++ r).extractLsb' 0 4 = r := (extractLsb'_append_lower 0 s r le_rfl).trans BitVec.extractLsb'_eq_self
    exact congrArg some (congrArg₂ _ hs hr)
  | sldp d i =>
    rintro ⟨⟩
    have hz : (split16 (i ++ 0#3)).2.extractLsb' 0 3 = 0#3 :=
      ((BitVec.extractLsb'_extractLsb'_of_le (len' := 8) (by decide)).trans (extractLsb'_append_lower 0 i (0#3) le_rfl)).trans rfl
    have hi : ((split16 (i ++ 0#3)).1 ++ (split16 (i ++ 0#3)).2).extractLsb' 3 13 = i := by
      rw [split16_join]
      exact (extractLsb'_append_upper 0 i (0#3)).trans BitVec.extractLsb'_eq_self
    exact (if_pos (beq_iff_eq.mpr hz)).trans (congrArg some (congrArg _ hi))
  | modx i =>
    rintro ⟨⟩
    have hz : (split24 (i ++ 0#3)).2.2.extractLsb' 0 3 = 0#3 :=
      ((BitVec.extractLsb'_extractLsb'_of_le (len' := 8) (by decide)).trans (extractLsb'_append_lower 0 i (0#3) le_rfl)).trans rfl
    have hi : ((split24 (i ++ 0#3)).1 ++ (split24 (i ++ 0#3)).2.1 ++ (split24 (i ++ 0#3)).2.2).extractLsb' 3 21 = i := by
      rw [split24_join]
      exact (extractLsb'_append_upper 0 i (0#3)).trans BitVec.extractLsb'_eq_self
    exact (if_pos (beq_iff_eq.mpr hz)).trans (congrArg some (congrArg _ hi))
  | _ => rintro ⟨⟩ <;> rfl

/-! ### Encoding what was decoded -/

/-- A scalar word is that of the instruction it decodes to. -/
theorem encodeBytes_of_decodeScalar {op : Nat} {d a b : Byte} {i : Instr} (h : decodeScalar op d a b = some i) :
    encodeBytes i = some (BitVec.ofNat 8 op, d, a, b) := by
  unfold decodeScalar at h
  split at h
  case h_21 | h_22 | h_23 | h_26 | h_33 =>
    obtain ⟨hb, ⟨⟩⟩ := Option.ite_none_right_eq_some.mp h
    obtain rfl := eq_of_beq hb
    rfl
  case h_34 =>
    obtain ⟨hd, ⟨⟩⟩ := Option.ite_none_right_eq_some.mp h
    obtain rfl := eq_of_beq hd
    rfl
  case h_40 | h_41 | h_42 | h_43 | h_44 | h_45 | h_46 | h_47 | h_51 =>
    obtain ⟨⟩ := h
    exact congrArg (fun x => some (BitVec.ofNat 8 _, d, x)) (split16_append a b)
  case h_48 | h_49 | h_50 =>
    obtain ⟨hz, ⟨⟩⟩ := Option.ite_none_right_eq_some.mp h
    obtain ⟨ha, hb⟩ := Bool.and_eq_true_iff.mp hz
    obtain rfl := eq_of_beq ha
    exact congrArg (fun x => some (BitVec.ofNat 8 _, d, 0, x)) (zero_append_low b (eq_of_beq hb))
  case h_52 =>
    obtain ⟨hb, ⟨⟩⟩ := Option.ite_none_right_eq_some.mp h
    exact congrArg (fun x => some (BitVec.ofNat 8 _, d, x)) (split16_append_low a b (eq_of_beq hb))
  all_goals
    obtain ⟨⟩ := h <;> rfl

/-- A vector word is that of the instruction it decodes to. -/
theorem encodeBytes_of_decodeVector {op : Nat} {d a b : Byte} {i : Instr} (h : decodeVector op d a b = some i) :
    encodeBytes i = some (BitVec.ofNat 8 (64 + op), d, a, b) := by
  unfold decodeVector at h
  split at h
  case h_9 | h_10 | h_13 | h_14 | h_15 | h_16 | h_17 | h_25 | h_26 | h_33 | h_34 | h_35 | h_36 | h_37 | h_41 | h_46 | h_47 | h_48 | h_49 | h_50 |
      h_51 | h_53 | h_54 | h_55 =>
    obtain ⟨hb, ⟨⟩⟩ := Option.ite_none_right_eq_some.mp h
    obtain rfl := eq_of_beq hb
    rfl
  case h_56 =>
    obtain ⟨hz, ⟨⟩⟩ := Option.ite_none_right_eq_some.mp h
    obtain ⟨ha, hb⟩ := Bool.and_eq_true_iff.mp hz
    obtain rfl := eq_of_beq ha
    obtain rfl := eq_of_beq hb
    rfl
  all_goals
    obtain ⟨⟩ := h <;> rfl

/-- A word of memory, engines or matrices is that of the instruction it decodes to. -/
theorem encodeBytes_of_decodeMemory {op : Nat} {d a b : Byte} {i : Instr} (h : decodeMemory op d a b = some i) :
    encodeBytes i = some (BitVec.ofNat 8 (128 + op), d, a, b) := by
  unfold decodeMemory at h
  split at h
  case h_9 | h_10 | h_27 | h_32 | h_35 | h_20 | h_33 | h_34 =>
    obtain ⟨hz, ⟨⟩⟩ := Option.ite_none_right_eq_some.mp h
    obtain rfl := eq_of_beq hz
    rfl
  case h_21 | h_22 | h_23 | h_24 | h_25 | h_26 | h_31 =>
    obtain ⟨hz, ⟨⟩⟩ := Option.ite_none_right_eq_some.mp h
    obtain ⟨hx, hb⟩ := Bool.and_eq_true_iff.mp hz
    obtain rfl := eq_of_beq hx
    obtain rfl := eq_of_beq hb
    rfl
  case h_28 =>
    obtain ⟨hz, ⟨⟩⟩ := Option.ite_none_right_eq_some.mp h
    obtain ⟨ha, hb⟩ := Bool.and_eq_true_iff.mp hz
    obtain rfl := eq_of_beq ha
    obtain rfl := eq_of_beq hb
    exact congrArg (fun x => some (BitVec.ofNat 8 _, x, 0, 0)) (nibbles_join d)
  all_goals
    obtain ⟨⟩ := h <;> rfl

/-- A control word is that of the instruction it decodes to. -/
theorem encodeBytes_of_decodeControl {op : Nat} {d a b : Byte} {i : Instr} (h : decodeControl op d a b = some i) :
    encodeBytes i = some (BitVec.ofNat 8 (192 + op), d, a, b) := by
  unfold decodeControl at h
  split at h
  case h_1 | h_4 | h_8 =>
    obtain ⟨hd, ⟨⟩⟩ := Option.ite_none_right_eq_some.mp h
    exact congrArg (fun x => some (BitVec.ofNat 8 _, x)) (split24_zero_branch d a b (eq_of_beq hd))
  case h_2 | h_3 | h_6 =>
    obtain ⟨⟩ := h
    exact congrArg (fun x => some (BitVec.ofNat 8 _, x)) (split24_branch d a b)
  case h_13 | h_19 | h_21 | h_24 =>
    obtain ⟨⟩ := h
    exact congrArg (fun x => some (BitVec.ofNat 8 _, x)) (split24_append d a b)
  case h_16 =>
    obtain ⟨hb, ⟨⟩⟩ := Option.ite_none_right_eq_some.mp h
    exact congrArg (fun x => some (BitVec.ofNat 8 _, x)) (split24_append_low d a b (eq_of_beq hb))
  case h_15 =>
    obtain ⟨hb, ⟨⟩⟩ := Option.ite_none_right_eq_some.mp h
    obtain rfl := eq_of_beq hb
    exact congrArg (fun x : Byte × Byte => some (BitVec.ofNat 8 _, x.1, x.2, 0)) (split16_append d a)
  case h_7 | h_14 | h_17 =>
    obtain ⟨hz, ⟨⟩⟩ := Option.ite_none_right_eq_some.mp h
    obtain rfl := eq_of_beq hz
    rfl
  case h_11 | h_12 | h_18 =>
    obtain ⟨hz, ⟨⟩⟩ := Option.ite_none_right_eq_some.mp h
    obtain ⟨hx, hb⟩ := Bool.and_eq_true_iff.mp hz
    obtain rfl := eq_of_beq hx
    obtain rfl := eq_of_beq hb
    rfl
  case h_5 | h_9 | h_10 | h_20 | h_22 | h_23 | h_26 | h_27 | h_29 =>
    obtain ⟨hz, ⟨⟩⟩ := Option.ite_none_right_eq_some.mp h
    obtain ⟨hx, hb⟩ := Bool.and_eq_true_iff.mp hz
    obtain ⟨hd, ha⟩ := Bool.and_eq_true_iff.mp hx
    obtain rfl := eq_of_beq hd
    obtain rfl := eq_of_beq ha
    obtain rfl := eq_of_beq hb
    rfl
  all_goals
    obtain ⟨⟩ := h <;> rfl

/-- The four bytes of a word are those of the instruction they decode to: the first holds the class and the opcode. -/
theorem encodeBytes_of_decodeBytes4 {i : Instr} {o d a b : Byte} (h : decodeBytes4 o d a b = some i) :
    encodeBytes i = some (o, d, a, b) := by
  have ho (k : Nat) (hk : (o.extractLsb' 6 2).toNat = k) : o = BitVec.ofNat 8 (64 * k + (o.extractLsb' 0 6).toNat) := by
    subst hk
    apply BitVec.eq_of_toNat_eq
    simp only [BitVec.extractLsb'_toNat, Nat.shiftRight_eq_div_pow, BitVec.toNat_ofNat]
    omega
  have hlt : (o.extractLsb' 6 2).toNat < 4 := (o.extractLsb' 6 2).isLt
  unfold decodeBytes4 at h
  split at h
  next hk =>
    have hop := encodeBytes_of_decodeScalar h
    rwa [← show o = BitVec.ofNat 8 (o.extractLsb' 0 6).toNat by simpa using ho 0 hk] at hop
  next hk =>
    have hop := encodeBytes_of_decodeVector h
    rwa [← ho 1 hk] at hop
  next hk =>
    have hop := encodeBytes_of_decodeMemory h
    rwa [← ho 2 hk] at hop
  next h0 h1 h2 =>
    have hop := encodeBytes_of_decodeControl h
    have hk : (o.extractLsb' 6 2).toNat = 3 := by
      simp only [imp_false] at h0 h1 h2
      omega
    rwa [← ho 3 hk] at hop

/-- A word is its four bytes. -/
theorem bytes_join (w : Word32) : w.extractLsb' 24 8 ++ w.extractLsb' 16 8 ++ w.extractLsb' 8 8 ++ w.extractLsb' 0 8 = w := by
  have h16 : w.extractLsb' 24 8 ++ w.extractLsb' 16 8 = w.extractLsb' 16 16 :=
    BitVec.extractLsb'_append_extractLsb'_eq_extractLsb' (start₁ := 16) (len₁ := 8) rfl
  have h8 : w.extractLsb' 16 16 ++ w.extractLsb' 8 8 = w.extractLsb' 8 24 :=
    BitVec.extractLsb'_append_extractLsb'_eq_extractLsb' (start₁ := 8) (len₁ := 8) rfl
  rw [h16, h8]
  exact BitVec.extractLsb'_append_extractLsb' (w := 24) (len := 8)

/-- The decoder reads the four bytes that the encoder joins. -/
theorem decodeWord_bytes (o d a b : Byte) : decodeWord (o ++ d ++ a ++ b) = decodeBytes4 o d a b := by
  have ho : (o ++ d ++ a ++ b).extractLsb' 24 8 = o :=
    (((extractLsb'_append_upper 16 (o ++ d ++ a) b).trans (extractLsb'_append_upper 8 (o ++ d) a)).trans
      (extractLsb'_append_upper 0 o d)).trans BitVec.extractLsb'_eq_self
  have hd : (o ++ d ++ a ++ b).extractLsb' 16 8 = d :=
    (((extractLsb'_append_upper 8 (o ++ d ++ a) b).trans (extractLsb'_append_upper 0 (o ++ d) a)).trans
      (extractLsb'_append_lower (n := 8) 0 o d le_rfl)).trans BitVec.extractLsb'_eq_self
  have ha : (o ++ d ++ a ++ b).extractLsb' 8 8 = a :=
    ((extractLsb'_append_upper 0 (o ++ d ++ a) b).trans (extractLsb'_append_lower (n := 8) 0 (o ++ d) a le_rfl)).trans
      BitVec.extractLsb'_eq_self
  have hb : (o ++ d ++ a ++ b).extractLsb' 0 8 = b :=
    (extractLsb'_append_lower (n := 8) 0 (o ++ d ++ a) b le_rfl).trans BitVec.extractLsb'_eq_self
  rw [decodeWord, ho, hd, ha, hb]

/-- Settles O57: the four bytes of a word determine it, and the decoder and the encoder are inverse on bytes. -/
theorem encodingRoundTrip : Obligations.EncodingRoundTrip := by
  unfold Obligations.EncodingRoundTrip
  constructor
  · intro i w h
    obtain ⟨⟨o, d, a, b⟩, hx, rfl⟩ := Option.map_eq_some_iff.mp h
    exact (decodeWord_bytes o d a b).trans (decodeBytes4_of_encodeBytes hx)
  · intro i w h
    rw [encode, encodeBytes_of_decodeBytes4 h]
    exact congrArg some (bytes_join w)

end Sys2Proof.Machine
end

section
/-! Scalar arithmetic, moves, compares and immediates (R130-R135): what the shared forms of these words lead to, and the words' functions. -/

namespace Sys2Proof.Machine

/-! ### The shared forms -/

/-- A word whose meaning goes on from `t`, where it holds what its meaning says, leads there. -/
theorem leadsTo_of_body {i : Instr} {body : State → Wave → Split → Result} {ok : State → Wave → Split → Prop} {t : State → Wave → Split → State}
    (hexec : ∀ s, exec i s = issueWord i s body) (h : ∀ s w p, ok s w p → body s w p = .next (t s w p)) : leadsTo i ok t := by
  intro s w p hf hu hok
  rw [hexec, issueWord_runs hf hu, h s w _ hok]

/-- Raising no flag changes nothing. -/
@[simp] theorem Wave.flags_zero (w : Wave) : w.flags 0 = w := by simp [Wave.flags]

/-- A word of two scalar sources that sets no flag. -/
theorem scalarBinary_result {i : Instr} {d a b : Byte} {f : Word64 → Word64 → Word64} (hexec : exec i = scalarBinary i d a b f false) :
    leadsTo i anyState (afterBinary d a b f) := by
  refine leadsTo_of_body (congrFun hexec) fun s w p _ => ?_
  simp only [Bool.false_and, flagIf, Bool.false_eq_true, if_false, Wave.flags_zero]
  rfl

/-- The same with its function written another way. -/
theorem scalarBinary_result_of_eq {i : Instr} {d a b : Byte} (f : Word64 → Word64 → Word64) {g : Word64 → Word64 → Word64}
    (hexec : exec i = scalarBinary i d a b f false) (h : ∀ x y, f x y = g x y) : leadsTo i anyState (afterBinary d a b g) :=
  funext₂ h ▸ scalarBinary_result hexec

/-- A word of division: it sets divzero where a copy's divisor is zero. -/
theorem scalarDivision_result {i : Instr} {d a b : Byte} (f : Word64 → Word64 → Word64) {g : Word64 → Word64 → Word64}
    (hexec : exec i = scalarBinary i d a b f true) (h : ∀ x y, f x y = g x y) : leadsTo i anyState (afterDivision d a b g) := by
  obtain rfl : f = g := funext₂ h
  refine leadsTo_of_body (congrFun hexec) fun s w p _ => ?_
  have hz : flagIf (true && (w.S b.toNat == 0 || w.Sh b.toNat == 0)) nsDivzero = if w.S b.toNat = 0 ∨ w.Sh b.toNat = 0 then 0x02 else 0 := by
    simp [flagIf, nsDivzero]
  simp only [hz]
  rfl

/-- A word of one scalar source. -/
theorem scalarUnary_result {i : Instr} {d a : Byte} {f : Word64 → Word64} (hexec : exec i = scalarUnary i d a f) :
    leadsTo i anyState (afterUnary d a f) :=
  leadsTo_of_body (congrFun hexec) fun _ _ _ _ => rfl

/-- An immediate word that reads D. -/
theorem scalarImm_result {i : Instr} {d : Byte} {f : Word64 → Word64} (hexec : exec i = scalarImm i d f) :
    leadsTo i anyState (afterUnary d d f) :=
  leadsTo_of_body (congrFun hexec) fun _ _ _ _ => rfl

/-! ### Arithmetic (R132) -/

/-- The high half of a signed product. -/
theorem mulHigh_eq (x y : Word64) : mulHigh x y = (x.signExtend 128 * y.signExtend 128).extractLsb' 64 64 := by
  have hxy : x.signExtend 128 * y.signExtend 128 = BitVec.ofInt 128 (x.toInt * y.toInt) := (BitVec.ofInt_mul ..).symm
  rw [hxy, mulHigh]
  generalize x.toInt * y.toInt = z
  apply BitVec.eq_of_toNat_eq
  simp only [BitVec.extractLsb'_toNat, BitVec.toNat_ofInt, Nat.shiftRight_eq_div_pow]
  omega

/-- The high half of an unsigned product. -/
theorem mulHighU_eq (x y : Word64) : mulHighU x y = (x.setWidth 128 * y.setWidth 128).extractLsb' 64 64 := by
  apply BitVec.eq_of_toNat_eq
  have hx := x.isLt
  have hy := y.isLt
  have hxy : x.toNat * y.toNat < 2 ^ 128 := by nlinarith
  norm_num at hxy
  simp [mulHighU, BitVec.extractLsb'_toNat, Nat.shiftRight_eq_div_pow, Nat.mod_eq_of_lt hxy]

/-- Signed division truncates, modulo 2^64. -/
theorem divSigned_eq (x y : Word64) : divSigned x y = if y = 0 then 0 else x.sdiv y := by
  unfold divSigned
  split
  · rfl
  · exact BitVec.eq_of_toInt_eq (by simp [BitVec.toInt_sdiv])

/-- The remainder has the sign of the dividend. -/
theorem remSigned_eq (x y : Word64) : remSigned x y = if y = 0 then 0 else x.srem y := by
  unfold remSigned
  split
  · rfl
  · apply BitVec.eq_of_toInt_eq
    rw [BitVec.toInt_ofInt, ← BitVec.toInt_srem, BitVec.toInt_bmod_cancel]

/-- The lesser of two signed numbers. -/
theorem signedMin_eq (x y : Word64) : (if y.slt x then y else x) = if x.toInt ≤ y.toInt then x else y := by
  by_cases h : y.toInt < x.toInt
  · simp [BitVec.slt, h, not_le.mpr h]
  · simp [BitVec.slt, h, not_lt.mp h]

/-- The greater of two signed numbers. -/
theorem signedMax_eq (x y : Word64) : (if x.slt y then y else x) = if y.toInt ≤ x.toInt then x else y := by
  by_cases h : x.toInt < y.toInt
  · simp [BitVec.slt, h, not_le.mpr h]
  · simp [BitVec.slt, h, not_lt.mp h]

/-- The lesser of two unsigned numbers. -/
theorem unsignedMin_eq (x y : Word64) : (if y.ult x then y else x) = if x.toNat ≤ y.toNat then x else y := by
  by_cases h : y.toNat < x.toNat
  · simp [BitVec.ult, h, not_le.mpr h]
  · simp [BitVec.ult, h, not_lt.mp h]

/-- The greater of two unsigned numbers. -/
theorem unsignedMax_eq (x y : Word64) : (if x.ult y then y else x) = if y.toNat ≤ x.toNat then x else y := by
  by_cases h : x.toNat < y.toNat
  · simp [BitVec.ult, h, not_le.mpr h]
  · simp [BitVec.ult, h, not_lt.mp h]

/-- Settles O1: the words share one form, and their functions are those of R132. -/
theorem scalarArithmeticResults : Obligations.ScalarArithmeticResults := by
  unfold Obligations.ScalarArithmeticResults
  refine ⟨fun d a b => ⟨?_, ?_, ?_, ?_, ?_, ?_, ?_, ?_, ?_, ?_, ?_, ?_, ?_, ?_, ?_, ?_, ?_⟩, fun d a b => ⟨?_, ?_, ?_, ?_⟩⟩
  · exact scalarBinary_result rfl
  · exact scalarBinary_result rfl
  · exact scalarBinary_result rfl
  · exact scalarBinary_result_of_eq mulHigh rfl mulHigh_eq
  · exact scalarBinary_result_of_eq mulHighU rfl mulHighU_eq
  · exact scalarBinary_result rfl
  · exact scalarBinary_result rfl
  · exact scalarBinary_result rfl
  · exact scalarBinary_result rfl
  · exact scalarBinary_result rfl
  · exact scalarBinary_result rfl
  · exact scalarBinary_result_of_eq (fun x y => if y.slt x then y else x) rfl signedMin_eq
  · exact scalarBinary_result_of_eq (fun x y => if x.slt y then y else x) rfl signedMax_eq
  · exact scalarBinary_result_of_eq (fun x y => if y.ult x then y else x) rfl unsignedMin_eq
  · exact scalarBinary_result_of_eq (fun x y => if x.ult y then y else x) rfl unsignedMax_eq
  · intro s w p hf hu h
    change execScmov d a b s = _
    rw [execScmov, issueWord_runs hf hu, if_neg (by tauto)]
    rfl
  · intro s w p hf hu h
    change execScmov d a b s = _
    rw [execScmov, issueWord_runs hf hu, if_pos h]
    rfl
  · exact scalarDivision_result divSigned rfl divSigned_eq
  · exact scalarDivision_result divUnsigned rfl fun x y => by simp [divUnsigned, BitVec.udiv_def]
  · exact scalarDivision_result remSigned rfl remSigned_eq
  · exact scalarDivision_result remUnsigned rfl fun x y => by simp [remUnsigned, BitVec.umod_def]

end Sys2Proof.Machine
end

section
/-! Scalar bit counts, bit fields and compares (R133, R134), and immediates (R135): their functions on words and masks. -/

namespace Sys2Proof.Machine

/-! ### Counts of bits -/

/-- How far a condition holds from 0 up. -/
theorem length_takeWhile_range {n k : Nat} {c : Nat → Bool} (hk : k ≤ n) (hall : ∀ j < k, c j = true) (hstop : k < n → c k = false) :
    ((List.range n).takeWhile c).length = k := by
  obtain ⟨m, rfl⟩ := Nat.exists_eq_add_of_le hk
  rw [List.range_add, List.takeWhile_append_of_pos fun j hj => hall j (List.mem_range.mp hj)]
  cases m with
  | zero => simp
  | succ m => simp [List.range_succ_eq_map, hstop (by omega)]

/-- The ones of a word. -/
theorem popCount_eq {n : Nat} (x : BitVec n) : popCount n x.toNat = (List.range n).countP fun k => x.getLsbD k := by
  rw [popCount, List.countP_eq_length_filter]
  rfl

/-- The zeros above the highest one. -/
theorem leadingZeros_eq {m : Nat} (x : BitVec (m + 1)) :
    leadingZeros (m + 1) x.toNat = ((List.range (m + 1)).takeWhile fun k => !x.getLsbD (m - k)).length := by
  have hlt := x.isLt
  symm
  unfold leadingZeros
  split
  next h =>
    exact length_takeWhile_range le_rfl (fun j _ => by simp [BitVec.getLsbD, h]) (fun h => absurd h (lt_irrefl _))
  next h =>
    have hlog : x.toNat.log2 < m + 1 := (Nat.log2_lt h).mpr hlt
    refine length_takeWhile_range (by omega) (fun j hj => ?_) fun _ => ?_
    · have : x.toNat < 2 ^ (m - j) := (Nat.log2_lt h).mp (by omega)
      simp [BitVec.getLsbD, Nat.testBit_lt_two_pow this]
    · have : m - (m + 1 - 1 - x.toNat.log2) = x.toNat.log2 := by omega
      rw [BitVec.getLsbD, this, Nat.testBit_log2 h]
      rfl

/-- The zeros below the lowest one. -/
theorem trailingZeros_eq (x : Word64) : trailingZeros 64 x.toNat = ((List.range 64).takeWhile fun k => !x.getLsbD k).length := by
  symm
  unfold trailingZeros
  cases h : (List.range 64).find? fun k => x.toNat.testBit k with
  | none =>
    simp only [List.find?_eq_none, List.mem_range, Bool.not_eq_true] at h
    exact length_takeWhile_range le_rfl (fun j hj => by simp [BitVec.getLsbD, h j hj]) (fun h => absurd h (lt_irrefl _))
  | some k =>
    obtain ⟨hk, hmem, hbelow⟩ := List.find?_range_eq_some.mp h
    exact length_takeWhile_range (List.mem_range.mp hmem).le hbelow fun _ => by simpa [BitVec.getLsbD] using hk

/-! ### Bit fields (R133) -/

/-- The first bit of a field. -/
theorem fieldPos_eq (y : Word64) : (y.extractLsb' 0 6).toNat = y.toNat % 64 := by
  simp [BitVec.extractLsb'_toNat]

/-- Its length, less one. -/
theorem fieldLen_eq (y : Word64) : (y.extractLsb' 8 6).toNat = y.toNat / 256 % 64 := by
  simp [BitVec.extractLsb'_toNat, Nat.shiftRight_eq_div_pow]

/-- A code read as a signed integer. -/
theorem intOfCode_toNat {n : Nat} (x : BitVec (n + 1)) : intOfCode true (n + 1) x.toNat = x.toInt := by
  have hx := x.isLt
  have hp : 2 ^ (n + 1) = 2 * 2 ^ n := by ring
  simp only [intOfCode, Nat.mod_eq_of_lt hx, Bool.true_and, Nat.add_sub_cancel, BitVec.toInt_eq_toNat_cond, decide_eq_true_eq]
  split <;> split <;> first | omega | simp

/-- Extraction of a field. -/
theorem fieldExtract_eq (x y : Word64) :
    fieldExtract x y =
      let pos := (y.extractLsb' 0 6).toNat
      let hi := min (pos + (y.extractLsb' 8 6).toNat) 63
      let f := x.extractLsb' pos (hi - pos + 1)
      if y.getLsbD 16 then f.signExtend 64 else f.setWidth 64 := by
  have hf (pos n : Nat) : x.toNat / 2 ^ pos % 2 ^ n = (x.extractLsb' pos n).toNat := by
    rw [BitVec.extractLsb'_toNat, Nat.shiftRight_eq_div_pow]
  simp only [fieldExtract, ← fieldPos_eq, ← fieldLen_eq, hf, intOfCode_toNat, BitVec.ofNat_toNat]
  rfl

/-- The mask of a field. -/
theorem fieldMask_eq {pos l : Nat} (h : l < 64) :
    BitVec.ofNat 64 ((2 ^ (l + 1) - 1) * 2 ^ pos) = (BitVec.allOnes 64 >>> (63 - l)) <<< pos := by
  ext k hk
  rw [← BitVec.getLsbD_eq_getElem hk, ← BitVec.getLsbD_eq_getElem hk, BitVec.getLsbD_ofNat, Nat.testBit_mul_two_pow,
    Nat.testBit_two_pow_sub_one, BitVec.getLsbD_shiftLeft, BitVec.getLsbD_ushiftRight, BitVec.getLsbD_allOnes, Bool.eq_iff_iff]
  simp only [Bool.and_eq_true, decide_eq_true_eq, Bool.not_eq_true', decide_eq_false_iff_not]
  omega

/-- Insertion of a field. -/
theorem fieldInsert_eq (x y z : Word64) :
    fieldInsert x y z =
      let pos := (z.extractLsb' 0 6).toNat
      let hi := min (pos + (z.extractLsb' 8 6).toNat) 63
      let m : Word64 := (BitVec.allOnes 64 >>> (63 - (hi - pos))) <<< pos
      (x &&& ~~~m) ||| ((y <<< pos) &&& m) := by
  simp only [fieldInsert, ← fieldPos_eq, ← fieldLen_eq]
  rw [fieldMask_eq (by omega)]

/-! ### Masks of the scalar copies (R134) -/

/-- Every second lane is even. -/
theorem testBit_pairs (n k : Nat) : ((4 ^ n - 1) / 3).testBit k = (decide (k < 2 * n) && k % 2 == 0) := by
  induction n generalizing k with
  | zero => simp
  | succ n ih =>
    have hstep : (4 ^ (n + 1) - 1) / 3 = 2 ^ 2 * ((4 ^ n - 1) / 3) + 1 := by
      have hmod : 4 ^ n % 3 = 1 := by simp [Nat.pow_mod]
      have hpow : 4 ^ (n + 1) = 4 * 4 ^ n := by ring
      omega
    rw [hstep, Nat.testBit_two_pow_mul_add _ (by decide), ih]
    split
    · have hk : k = 0 ∨ k = 1 := by omega
      rcases hk with rfl | rfl
      · simp
      · simp [Nat.testBit_succ]
    · rw [Bool.eq_iff_iff]
      simp only [Bool.and_eq_true, decide_eq_true_eq, beq_iff_eq]
      omega

/-- A lane is in `evenLanes` when its number is even. -/
theorem evenLanes_getLsbD {k : Nat} (hk : k < 1024) : evenLanes.getLsbD k = (k % 2 == 0) := by
  rw [evenLanes, BitVec.getLsbD_ofNat, testBit_pairs]
  simp [hk]

/-- Every lane is in `trueMask`. -/
theorem trueMask_getLsbD {k : Nat} (hk : k < 1024) : trueMask.getLsbD k = true := by
  rw [trueMask, Mask.below, BitVec.getLsbD_ofNat, Nat.testBit_two_pow_sub_one]
  simp [hk]

/-- The lanes that a condition of each copy makes true. -/
theorem Wave.copyMask_has (w : Wave) (c cs : Bool) {k : Nat} (hk : k < 1024) : (w.copyMask c cs).has k = if w.isShadow k then cs else c := by
  have hshadow : (evenLanes <<< 1).getLsbD k = (k % 2 == 1) := by
    rcases k with _ | k
    · simp
    · rw [BitVec.getLsbD_shiftLeft, Nat.add_sub_cancel, evenLanes_getLsbD (by omega), Bool.eq_iff_iff]
      simp [hk]
      omega
  unfold Wave.copyMask Mask.has Wave.isShadow
  cases w.paired
  · cases c <;> simp [trueMask_getLsbD hk]
  · rcases Nat.mod_two_eq_zero_or_one k with h | h <;> cases c <;> cases cs <;> simp [evenLanes_getLsbD hk, hshadow, h]

/-! ### The words -/

/-- A compare writes its condition of each copy in every lane of the split. -/
theorem scalarCompare_result {i : Instr} {d a b : Byte} (f : Word64 → Word64 → Bool) {c : Word64 → Word64 → Bool}
    (hexec : exec i = scalarCompare i d a b f) (h : ∀ x y, f x y = c x y) :
    ∃ m : Wave → Mask,
      (∀ w k, k < 1024 → (m w).has k = if w.isShadow k then c (w.Sh a.toNat) (w.Sh b.toNat) else c (w.S a.toNat) (w.S b.toNat)) ∧
        leadsTo i anyState (afterPred d (fun _ p => p.lanes) fun w _ => m w) := by
  obtain rfl : f = c := funext₂ h
  exact ⟨fun w => w.copyMask (f (w.S a.toNat) (w.S b.toNat)) (f (w.Sh a.toNat) (w.Sh b.toNat)), fun w k hk => w.copyMask_has _ _ hk,
    leadsTo_of_body (congrFun hexec) fun _ _ _ _ => rfl⟩

/-- Settles O2: counts, fields and compares are those of R132 to R134. -/
theorem scalarBitAndCompareResults : Obligations.ScalarBitAndCompareResults := by
  unfold Obligations.ScalarBitAndCompareResults
  refine ⟨fun d a b => ⟨?_, ?_, ?_, ?_, ?_, ?_⟩, fun d a b => ?_⟩
  · exact scalarUnary_result rfl
  · simp only [← popCount_eq]
    exact scalarUnary_result rfl
  · simp only [← leadingZeros_eq (m := 63)]
    exact scalarUnary_result rfl
  · simp only [← trailingZeros_eq]
    exact scalarUnary_result rfl
  · exact scalarBinary_result_of_eq fieldExtract rfl fieldExtract_eq
  · refine leadsTo_of_body (body := fun s w p => s.scalarDone w p d (fieldInsert (w.S d.toNat) (w.S a.toNat) (w.S b.toNat))
      (fieldInsert (w.Sh d.toNat) (w.Sh a.toNat) (w.Sh b.toNat))) (fun _ => rfl) fun s w p _ => ?_
    simp only [fieldInsert_eq]
    rfl
  · intro writes
    have hwrites {i : Instr} {c : Word64 → Word64 → Bool} (f : Word64 → Word64 → Bool) (hexec : exec i = scalarCompare i d a b f)
        (h : ∀ x y, f x y = c x y) : writes i c := scalarCompare_result f hexec h
    exact ⟨hwrites (fun x y => x == y) rfl fun _ _ => beq_eq_decide _ _, hwrites (c := fun x y => decide (x ≠ y)) (fun x y => x != y) rfl fun _ _ => by simp [bne, beq_eq_decide],
      hwrites BitVec.slt rfl fun _ _ => rfl, hwrites BitVec.sle rfl fun _ _ => rfl, hwrites BitVec.ult rfl fun _ _ => rfl,
      hwrites BitVec.ule rfl fun _ _ => rfl⟩

/-! ### Immediates (R135) -/

/-- Replacing sixteen bits of a word. -/
theorem getLsbD_putField16 (lo : Nat) (x : Word64) (i : BitVec 16) {k : Nat} (hk : k < 64) :
    (putField16 lo x i).getLsbD k = if k < lo then x.getLsbD k else if k < lo + 16 then i.getLsbD (k - lo) else x.getLsbD k := by
  have hm : (BitVec.ofNat 64 (0xFFFF * 2 ^ lo)).getLsbD k = (decide (lo ≤ k) && decide (k < lo + 16)) := by
    rw [BitVec.getLsbD_ofNat, Nat.testBit_mul_two_pow, show 0xFFFF = 2 ^ 16 - 1 from rfl, Nat.testBit_two_pow_sub_one, Bool.eq_iff_iff]
    simp only [Bool.and_eq_true, decide_eq_true_eq]
    omega
  rw [putField16, BitVec.getLsbD_or, BitVec.getLsbD_and, BitVec.getLsbD_not, hm, BitVec.getLsbD_shiftLeft, BitVec.getLsbD_setWidth]
  by_cases h1 : k < lo
  · simp [hk, h1, show ¬ lo ≤ k by omega]
  · by_cases h2 : k < lo + 16
    · simp [hk, h1, h2, show lo ≤ k by omega, show k - lo < 64 by omega]
    · simp [hk, h1, h2, show lo ≤ k by omega, BitVec.getLsbD_of_ge i (k - lo) (by omega)]

/-- Settles O3: every immediate word is one of the shared forms; the three that replace sixteen bits agree with theirs bit by bit. -/
theorem scalarImmediateResults : Obligations.ScalarImmediateResults := by
  unfold Obligations.ScalarImmediateResults
  have h16 (x : Word64) (i : BitVec 16) : x.extractLsb' 32 32 ++ i ++ x.extractLsb' 0 16 = putField16 16 x i := by
    ext k hk
    rw [← BitVec.getLsbD_eq_getElem hk, ← BitVec.getLsbD_eq_getElem hk, getLsbD_putField16 16 x i hk, BitVec.getLsbD_append,
      BitVec.getLsbD_append, BitVec.getLsbD_extractLsb', BitVec.getLsbD_extractLsb']
    by_cases h1 : k < 16
    · simp [h1]
    · by_cases h2 : k < 32
      · simp [h1, h2, show k - 16 < 16 by omega]
      · simp [h1, h2, show ¬ k - 16 < 16 by omega, show 32 + (k - 16 - 16) = k by omega, show k - 16 - 16 < 32 by omega]
  have h32 (x : Word64) (i : BitVec 16) : x.extractLsb' 48 16 ++ i ++ x.extractLsb' 0 32 = putField16 32 x i := by
    ext k hk
    rw [← BitVec.getLsbD_eq_getElem hk, ← BitVec.getLsbD_eq_getElem hk, getLsbD_putField16 32 x i hk, BitVec.getLsbD_append,
      BitVec.getLsbD_append, BitVec.getLsbD_extractLsb', BitVec.getLsbD_extractLsb']
    by_cases h1 : k < 32
    · simp [h1]
    · by_cases h2 : k < 48
      · simp [h1, h2, show k - 32 < 16 by omega]
      · simp [h1, h2, show ¬ k - 32 < 16 by omega, show 48 + (k - 32 - 16) = k by omega, show k - 32 - 16 < 16 by omega]
  have h48 (x : Word64) (i : BitVec 16) : i ++ x.extractLsb' 0 48 = putField16 48 x i := by
    ext k hk
    rw [← BitVec.getLsbD_eq_getElem hk, ← BitVec.getLsbD_eq_getElem hk, getLsbD_putField16 48 x i hk, BitVec.getLsbD_append,
      BitVec.getLsbD_extractLsb']
    by_cases h1 : k < 48
    · simp [h1]
    · simp [h1, show k < 64 by omega]
  intro d i n
  refine ⟨?_, ?_, ?_, ?_, ?_, ?_, ?_, ?_, ?_, ?_, ?_, ?_⟩
  · exact leadsTo_of_body (i := .sli d i) (body := fun s w p => s.scalarDone w p d (i.signExtend 64) (i.signExtend 64)) (fun _ => rfl)
      fun _ _ _ _ => rfl
  · simp only [h16]
    exact scalarImm_result rfl
  · simp only [h32]
    exact scalarImm_result rfl
  · simp only [h48]
    exact scalarImm_result rfl
  · exact scalarImm_result rfl
  · exact scalarImm_result rfl
  · exact scalarImm_result rfl
  · exact scalarImm_result rfl
  · exact scalarImm_result rfl
  · exact scalarImm_result rfl
  · exact scalarImm_result rfl
  · exact scalarImm_result rfl

end Sys2Proof.Machine
end

section
/-! Special registers, one lane of a vector register, the parameter block and the temper record, read into scalars and written from them (R127, R136,
R138, R139, R262). -/

namespace Sys2Proof.Machine

/-! ### A write of a scalar leaves what names the wave -/

/-- What a log entry names of a wave does not depend on its scalars. -/
@[simp] theorem State.fieldsOf_setS (s : State) (w : Wave) (n : Nat) (x xs : Word64) : s.fieldsOf (w.setS n x xs) = s.fieldsOf w := by
  simp [State.fieldsOf, State.launchidOf, Wave.trapRecord, Wave.ctx, Wave.setS]

/-- Nor on which of them are empty. -/
@[simp] theorem State.fieldsOf_markS (s : State) (w : Wave) (k : Nat) (e : Bool) : s.fieldsOf (w.markS k e) = s.fieldsOf w := by
  simp [State.fieldsOf, State.launchidOf, Wave.trapRecord, Wave.ctx]

/-- Clearing the errors of a scalar asks of the wave its name alone. -/
theorem State.clearScalar_congr (s : State) {w v : Wave} (k : Nat) (hkey : v.key = w.key) (h : ∀ t : State, t.fieldsOf v = t.fieldsOf w) :
    s.clearScalar v k = s.clearScalar w k := by
  simp only [State.clearScalar, State.clearErrors, hkey, h]

/-- A write of a scalar leaves the place of every scalar. -/
theorem Wave.sidx_written (w : Wave) (n m k : Nat) (x xs : Word64) (e : Bool) : ((w.setS n x xs).markS k e).sidx m = w.sidx m := by
  simp [Wave.sidx, Wave.system, Wave.setS]

/-- A write of a scalar that marks it empty clears the errors of the word that it writes. -/
theorem State.clearScalar_written (s : State) (w : Wave) (n k m : Nat) (x xs : Word64) (e : Bool) :
    s.clearScalar ((w.setS n x xs).markS k e) m = s.clearScalar w m :=
  s.clearScalar_congr m (by simp [Wave.setS]) fun t => by simp

/-! ### Reads (R136, R138, R139, R262) -/

/-- `sread` of a register whose flags have settled. -/
theorem sread_result (d a : Byte) : leadsTo (.sread d a) (fun _ w _ => a = 0x0C → w.flagsPending = false)
    fun s w p => afterScalar d (fun _ => s.special w a.toNat) (fun _ => s.special w a.toNat) s w p := by
  intro s w p hf hu h
  change execSread d a s = _
  rw [execSread, issueWord_runs hf hu, if_neg (by simpa using h)]
  rfl

/-- `sread` of NS waits for the loads issued before it. -/
theorem sread_waits (d : Byte) : leadsTo (.sread d 0x0C) (fun _ w _ => w.flagsPending = true) fun s _ _ => s := by
  intro s w p hf hu h
  change execSread d 0x0C s = _
  rw [execSread, issueWord_runs hf hu, if_pos ⟨rfl, h⟩]

/-- The engine counters stand in a byte each. -/
theorem State.special_counters (s : State) (w : Wave) {k : Nat} (hk : k < 5) (hlt : w.counter k < 256) (h0 : w.counter 0 < 256) (h1 : w.counter 1 < 256)
    (h2 : w.counter 2 < 256) (h3 : w.counter 3 < 256) : ((s.special w 0x18).extractLsb' (8 * k) 8).toNat = w.counter k := by
  have hs : s.special w 0x18 =
    BitVec.ofNat 64 (w.counter 0 + 2 ^ 8 * w.counter 1 + 2 ^ 16 * w.counter 2 + 2 ^ 24 * w.counter 3 + 2 ^ 32 * w.counter 4) := rfl
  rw [hs, BitVec.extractLsb'_toNat, BitVec.toNat_ofNat, Nat.shiftRight_eq_div_pow]
  have hcases : k = 0 ∨ k = 1 ∨ k = 2 ∨ k = 3 ∨ k = 4 := by omega
  rcases hcases with rfl | rfl | rfl | rfl | rfl <;> omega

/-- `sgetv` reads the lane of each copy that its index names. -/
theorem sgetv_result (d a b : Byte) : leadsTo (.sgetv d a b) anyState
    (fun s w p => afterWord (fun w _ =>
      let lane (j : Word64) (shadow : Bool) : Word64 :=
        let i := if w.paired then 2 * j.toNat else j.toNat
        if j.toNat < w.V ∧ w.a.live.has i = true then (w.V_ a.toNat (if w.paired ∧ shadow = true then i + 1 else i)).setWidth 64 else 0
      (w.setS d.toNat (lane (w.S b.toNat) false) (lane (w.Sh b.toNat) true)).markS (w.sidx d.toNat) true)
      (if d = 0 then [] else [0x800 + w.sidx d.toNat]) (s.clearScalar w (w.sidx d.toNat)) w p) := by
  intro s w p hf hu _
  change execSgetv d a b s = _
  rw [execSgetv, issueWord_runs hf hu]
  have hlane (j : Word64) (shadow : Bool) :
      (if j.toNat ≥ w.V ∨ w.a.live.has (w.primary j.toNat) = false then (0 : Word64)
        else (w.V_ a.toNat (w.primary j.toNat + if (shadow && w.paired) = true then 1 else 0)).setWidth 64) =
      if j.toNat < w.V ∧ w.a.live.has (if w.paired then 2 * j.toNat else j.toNat) = true then
        (w.V_ a.toNat (if w.paired ∧ shadow = true then (if w.paired then 2 * j.toNat else j.toNat) + 1
          else if w.paired then 2 * j.toNat else j.toNat)).setWidth 64 else 0 := by
    rw [← ite_not]
    unfold Wave.primary
    cases w.paired <;> cases shadow <;> simp
  simp only [hlane, State.clearScalar_written, Wave.sidx_written]
  rfl

/-- Settles O4: each of the four words, and then the special registers one by one. -/
theorem readsIntoScalars : Obligations.ReadsIntoScalars := by
  unfold Obligations.ReadsIntoScalars
  refine ⟨⟨sread_result, sread_waits, fun s w => ?_⟩, ⟨sgetv_result, fun d n l => ?_⟩, fun d a b => ?_, fun o c half => ⟨fun h => ?_, fun r h => ?_⟩⟩
  · refine ⟨rfl, rfl, rfl, rfl, rfl, rfl, rfl, rfl, rfl, rfl, rfl, rfl, rfl, rfl, rfl, rfl, rfl, rfl, rfl, rfl, ?_, ?_, ?_, ?_, ?_, ?_⟩
    · intro h
      simp [State.special, h]
    · intro h
      simp [State.special, h]
    · intro c h
      simp [State.special, h]
    · intro c h
      simp [State.special, State.ebOf, h]
    · intro l h
      simp [State.special, State.launchidOf, Launch.total, h]
    · intro k hk hlt h0 h1 h2 h3
      exact s.special_counters w hk hlt h0 h1 h2 h3
  · intro s w p hf hu h
    change execSldp d n s = _
    rw [execSldp, issueWord_runs hf hu]
    simp only [h]
    rfl
  · exact leadsTo_of_body (body := fun s w p => s.scalarDone w p d (w.kern.recordHalf ((w.S a.toNat).toNat % 256) b.toNat)
      (w.kern.recordHalf ((w.Sh a.toNat).toNat % 256) b.toNat)) (fun _ => rfl) fun _ _ _ _ => rfl
  · simp [Object.recordHalf, h]
  · simp [Object.recordHalf, h]

/-! ### Writes of special registers (R136) -/

/-- What a `swrite` of register n leads to, once nothing holds it back: the register written, or the trap of a refused value. -/
def specialOutcome (n b : Byte) (s : State) (w : Wave) (p : Split) : State :=
  match s.setSpecial w n.toNat (w.S b.toNat) with
  | none => s.takeTrap w p trapILLOP p.pc 0 (w.active p)
  | some (t, v) => t.putWave (v.advance p)

/-- `swrite` of a register, with copies that agree and flags that have settled, is what `setSpecial` says of its value. -/
theorem swrite_outcome (n b : Byte) : leadsTo (.swrite n b)
    (fun _ w _ => w.S b.toNat = w.Sh b.toNat ∧ (n = 0x0C → w.flagsPending = false)) (specialOutcome n b) := by
  intro s w p hf hu ⟨hsame, hns⟩
  change execSwrite n b s = _
  rw [execSwrite, issueWord_runs hf hu, if_neg (not_not_intro hsame), if_neg (by simpa using hns), specialOutcome]
  cases hset : s.setSpecial w n.toNat (w.S b.toNat) <;> simp only [hset] <;> rfl

/-- A write of a register of the wave. -/
theorem swrite_writes (n b : Byte) {ok : Wave → Prop} {f : Wave → Word64 → Wave} (hns : ∀ w, ok w → n = 0x0C → w.flagsPending = false)
    (hset : ∀ (s : State) w, ok w → s.setSpecial w n.toNat (w.S b.toNat) = some (s, f w (w.S b.toNat))) :
    leadsTo (.swrite n b) (fun _ w _ => w.S b.toNat = w.Sh b.toNat ∧ ok w) (afterWord (fun w _ => f w (w.S b.toNat)) []) := by
  refine (swrite_outcome n b).narrow fun s w p ⟨hsame, hok⟩ => ⟨⟨hsame, hns w hok⟩, ?_⟩
  simp only [specialOutcome, hset s w hok, afterWord, Split.busy, List.append_nil]

/-- A value that the register refuses. -/
theorem swrite_traps (n b : Byte) {bad : Wave → Prop} (hn : n ≠ 0x0C) (hset : ∀ (s : State) w, bad w → s.setSpecial w n.toNat (w.S b.toNat) = none) :
    leadsTo (.swrite n b) (fun _ w _ => w.S b.toNat = w.Sh b.toNat ∧ bad w) (fun s w p => s.takeTrap w p 0x01 p.pc 0 (w.active p)) := by
  refine (swrite_outcome n b).narrow fun s w p ⟨hsame, hbad⟩ => ⟨⟨hsame, fun h => absurd h hn⟩, ?_⟩
  simp only [specialOutcome, hset s w hbad]
  rfl

/-- R126, step 2: a value that stands in its register and is not legal for MR or MX is refused before anything else. -/
theorem swrite_refused {n b : Byte} {s : State} {w : Wave} {p : Split} (hf : s.fronts w p) (hill : w.legalHere (.swrite n b) = false) :
    exec (.swrite n b) s = .next (s.takeTrap w p 0x01 p.pc 0 (w.active p)) := by
  obtain ⟨ws, hws⟩ := List.head?_eq_some_iff.mp hf.1
  obtain ⟨ps, hps⟩ := List.head?_eq_some_iff.mp hf.2
  change execSwrite n b s = _
  simp only [execSwrite, issueWord, hws, hps, hill, Bool.and_false, Bool.not_false, if_true]
  rfl

/-- The class id of MR or MX. -/
theorem mrClass_eq (x : Word64) : (x.extractLsb' 16 8).toNat = mrClass x := by
  simp [mrClass, BitVec.extractLsb'_toNat, Nat.shiftRight_eq_div_pow]

/-- The reserved upper bits of MR and MX. -/
theorem extractLsb'_high_eq_zero (x : Word64) : x.extractLsb' 24 40 = 0 ↔ x.toNat / 2 ^ 24 = 0 := by
  have hlt := x.isLt
  have hmod : x.toNat / 2 ^ 24 % 2 ^ 40 = x.toNat / 2 ^ 24 := Nat.mod_eq_of_lt (by omega)
  simp only [← BitVec.toNat_inj, BitVec.extractLsb'_toNat, Nat.shiftRight_eq_div_pow, hmod]
  rfl

/-- R116, R118: what a value for MR may not be. -/
theorem Wave.mrLegal_eq_false_iff (w : Wave) (x : Word64) : w.mrLegal x = false ↔ x.extractLsb' 24 40 ≠ 0 ∨ x.extractLsb' 0 8 ≠ 0 ∨
    x.extractLsb' 9 3 = 7 ∨ w.kern.classRec (x.extractLsb' 16 8).toNat = none := by
  have hlow : x.extractLsb' 0 8 = 0 ↔ x.toNat % 256 = 0 := by
    simp [← BitVec.toNat_inj, BitVec.extractLsb'_toNat]
  have hround : x.extractLsb' 9 3 = 7 ↔ mrRound x = 7 := by
    simp [← BitVec.toNat_inj, BitVec.extractLsb'_toNat, mrRound, Nat.shiftRight_eq_div_pow]
  rw [mrClass_eq, hround, ne_eq, extractLsb'_high_eq_zero, ne_eq, hlow]
  simp only [Wave.mrLegal, Bool.and_eq_false_iff, beq_eq_false_iff_ne, bne_eq_false_iff_eq, Option.isSome_eq_false_iff, Option.isNone_iff_eq_none,
    or_assoc, ne_eq]

/-- R117, R118: what a value for MX may not be. -/
theorem Wave.mxLegal_eq_false_iff (w : Wave) (x : Word64) : w.mxLegal x = false ↔ x.extractLsb' 24 40 ≠ 0 ∨ x.extractLsb' 0 3 ≠ 0 ∨
    w.kern.classRec (x.extractLsb' 16 8).toNat = none := by
  have hlow : x.extractLsb' 0 3 = 0 ↔ x.toNat % 8 = 0 := by
    simp [← BitVec.toNat_inj, BitVec.extractLsb'_toNat]
  rw [mrClass_eq, ne_eq, extractLsb'_high_eq_zero, ne_eq, hlow]
  simp only [Wave.mxLegal, Bool.and_eq_false_iff, beq_eq_false_iff_ne, Option.isSome_eq_false_iff, Option.isNone_iff_eq_none, or_assoc, ne_eq]

/-- Settles O5: by register, what `setSpecial` gives; the two refusals before it are checks of R126. -/
theorem specialRegisterWrites : Obligations.SpecialRegisterWrites := by
  unfold Obligations.SpecialRegisterWrites
  refine ⟨fun b => ?_, fun w x => ⟨w.mrLegal_eq_false_iff x, w.mxLegal_eq_false_iff x⟩⟩
  intro same writes traps refused
  have hwrites (n : Byte) {ok : Wave → Prop} {f : Wave → Word64 → Wave} (hns : ∀ w, ok w → n = 0x0C → w.flagsPending = false)
      (hset : ∀ (s : State) w, ok w → s.setSpecial w n.toNat (w.S b.toNat) = some (s, f w (w.S b.toNat))) : writes n ok f :=
    swrite_writes n b hns hset
  have htraps (n : Byte) {bad : Wave → Prop} (hn : n ≠ 0x0C)
      (hset : ∀ (s : State) w, bad w → s.setSpecial w n.toNat (w.S b.toNat) = none) : traps n bad := swrite_traps n b hn hset
  clear_value writes traps
  refine ⟨?_, ?_, ?_, ?_, ?_, ?_, ?_, ?_, ?_, ?_, ?_, ?_, ?_, ?_, ?_, ?_, ?_, ?_, ?_⟩
  · exact hwrites 0x0A (by simp) fun s w h => if_pos h
  · intro s w p hf hthere hbad
    exact swrite_refused hf (by simp [Wave.legalHere, hthere, hbad])
  · exact hwrites 0x0B (by simp) fun s w h => if_pos h
  · intro s w p hf hthere hbad
    exact swrite_refused hf (by simp [Wave.legalHere, hthere, hbad])
  · exact hwrites 0x0C (fun w h _ => h) fun s w _ => by rw [← BitVec.setWidth_eq_extractLsb' (by decide)]; rfl
  · intro s w p hf hu ⟨hsame, hns⟩
    change execSwrite 0x0C b s = _
    rw [execSwrite, issueWord_runs hf hu, if_neg (not_not_intro hsame), if_pos ⟨rfl, hns⟩]
  · exact (swrite_outcome 0x0D b).narrow fun s w p hsame => ⟨⟨hsame, by simp⟩, rfl⟩
  · exact hwrites 0x0E (by simp) fun s w _ => by rw [← BitVec.setWidth_eq_extractLsb' (by decide)]; rfl
  · exact hwrites 0x0F (by simp) fun s w h => (if_pos (Nat.div_eq_of_lt h)).trans (by rw [BitVec.setWidth_eq_extractLsb' (by decide)])
  · exact htraps 0x0F (by simp) fun s w h => if_neg (Nat.div_pos h (by decide)).ne'
  · exact hwrites 0x10 (by simp) fun s w h => (if_pos (Nat.div_eq_of_lt h)).trans (by rw [BitVec.setWidth_eq_extractLsb' (by decide)])
  · exact htraps 0x10 (by simp) fun s w h => if_neg (Nat.div_pos h (by decide)).ne'
  · exact hwrites 0x11 (by simp) fun s w _ => rfl
  · exact hwrites 0x12 (by simp) fun s w _ => rfl
  · exact hwrites 0x14 (by simp) fun s w _ => by rw [← BitVec.setWidth_eq_extractLsb' (by decide)]; rfl
  · exact hwrites 0x15 (by simp) fun s w _ => rfl
  · exact hwrites 0x16 (by simp) fun s w _ => rfl
  · exact hwrites 0x17 (by simp) fun s w _ => rfl
  · intro n s w p hf hu hne
    change execSwrite n b s = _
    rw [execSwrite, issueWord_runs hf hu, if_pos hne]
    rfl

end Sys2Proof.Machine
end

section
/-! Local addresses (R185-R187): where they land, and what each check of them reports. -/

namespace Sys2Proof.Machine

/-! ### Lists of failing lanes -/

/-- Adding the lanes of a list to a mask. -/
theorem Mask.foldl_single_has (l : List Nat) (m : Mask) (i : Nat) :
    (l.foldl (fun m i => m ||| Mask.single i) m).has i = true ↔ m.has i = true ∨ i < 1024 ∧ i ∈ l := by
  induction l generalizing m with
  | nil => simp
  | cons x l ih =>
    have hsingle : (Mask.single x).has i = (decide (i < 1024) && decide (x = i)) := by
      rw [Mask.has, Mask.single, BitVec.getLsbD_ofNat, Nat.testBit_two_pow]
    have hor : (m ||| Mask.single x).has i = (m.has i || (Mask.single x).has i) := BitVec.getLsbD_or
    rw [List.foldl_cons, ih, hor, hsingle]
    simp only [Bool.or_eq_true, Bool.and_eq_true, decide_eq_true_eq, List.mem_cons]
    tauto

/-- The mask of a list of lanes has them, below 1,024. -/
theorem Mask.ofLanes_has (l : List Nat) (i : Nat) : (Mask.ofLanes l).has i = true ↔ i < 1024 ∧ i ∈ l := by
  rw [Mask.ofLanes, Mask.foldl_single_has]
  simp [Mask.has]

/-- The entry of the lowest lane, the first of several. -/
theorem lowest_entry {β : Type} (x : Nat × β) (rest : List (Nat × β)) :
    rest.foldl (fun best y => if y.1 < best.1 then y else best) x ∈ x :: rest ∧
      ∀ y ∈ x :: rest, (rest.foldl (fun best y => if y.1 < best.1 then y else best) x).1 ≤ y.1 := by
  induction rest generalizing x with
  | nil => simp
  | cons z rest ih =>
    rw [List.foldl_cons]
    split
    next h =>
      obtain ⟨hmem, hle⟩ := ih z
      refine ⟨List.mem_cons_of_mem _ hmem, fun y hy => ?_⟩
      rcases List.mem_cons.mp hy with rfl | hy
      · exact (hle z List.mem_cons_self).trans h.le
      · exact hle y hy
    next h =>
      obtain ⟨hmem, hle⟩ := ih x
      refine ⟨?_, fun y hy => ?_⟩
      · rcases List.mem_cons.mp hmem with h | h
        · exact List.mem_cons.mpr (.inl h)
        · exact List.mem_cons_of_mem _ (List.mem_cons_of_mem _ h)
      · rcases List.mem_cons.mp hy with rfl | hy
        · exact hle _ List.mem_cons_self
        · rcases List.mem_cons.mp hy with rfl | hy
          · exact (hle x List.mem_cons_self).trans (not_lt.mp h)
          · exact hle y (List.mem_cons_of_mem _ hy)

/-- R186: failing lanes are reported with the address of the lowest. -/
theorem refusedOf_refuses (cause : Nat) {bad : List (Nat × Nat)} (h : bad ≠ []) : refusesFor (refusedOf cause bad) cause bad := by
  obtain ⟨x, rest, rfl⟩ := List.exists_cons_of_ne_nil h
  obtain ⟨hmem, hle⟩ := lowest_entry x rest
  exact ⟨_, hmem, _, rfl, hle, fun l => Mask.ofLanes_has _ l⟩

/-- A check that looks for lanes out of bounds, and then for misaligned ones, judges them so. -/
theorem judges_of_refusedOf {far odd : List (Nat × Nat)} {r : Option Refused}
    (h : r = (refusedOf trapLOCALBOUND far).or (refusedOf trapALIGN odd)) : judges r far odd := by
  refine ⟨fun hfar => ?_, fun hfar hodd => ?_, fun hfar hodd => ?_⟩
  · obtain ⟨x, hx, m, hr, hrest⟩ := refusedOf_refuses trapLOCALBOUND hfar
    exact ⟨x, hx, m, by rw [h, hr]; rfl, hrest⟩
  · obtain ⟨x, hx, m, hr, hrest⟩ := refusedOf_refuses trapALIGN hodd
    exact ⟨x, hx, m, by rw [h, hr, hfar]; rfl, hrest⟩
  · rw [h, hfar, hodd]
    rfl

/-! ### Where a local address lands (R185, R187) -/

/-- The crew of the lowest ordinal in a list, taking an earlier find into account. -/
theorem lowestCrew_spec (cs : List Crew) (init : Option Crew) {c : Crew}
    (h : cs.foldl (fun best c => match best with
      | some b => if c.ordinal < b.ordinal then some c else some b
      | none => some c) init = some c) :
    (c ∈ cs ∨ init = some c) ∧ (∀ c' ∈ cs, c.ordinal ≤ c'.ordinal) ∧ ∀ b, init = some b → c.ordinal ≤ b.ordinal := by
  induction cs generalizing init with
  | nil => exact ⟨.inr h, by simp, fun b hb => by simp_all⟩
  | cons x cs ih =>
    rw [List.foldl_cons] at h
    obtain ⟨hmem, hle, hinit⟩ := ih _ h
    cases init with
    | none =>
      have hx := hinit x rfl
      refine ⟨.inl ?_, ?_, by simp⟩
      · rcases hmem with hmem | hmem
        · exact List.mem_cons_of_mem _ hmem
        · simp_all
      · simpa [hx] using hle
    | some b =>
      by_cases hlt : x.ordinal < b.ordinal
      · simp only [hlt, if_true, Option.some.injEq, forall_eq'] at hmem hinit
        refine ⟨.inl ?_, ?_, fun b' hb => ?_⟩
        · rcases hmem with hmem | rfl
          · exact List.mem_cons_of_mem _ hmem
          · exact List.mem_cons_self
        · simpa [hinit] using hle
        · obtain rfl := Option.some.inj hb
          omega
      · simp only [hlt, if_false, Option.some.injEq, forall_eq'] at hmem hinit
        refine ⟨?_, ?_, fun b' hb => ?_⟩
        · rcases hmem with hmem | rfl
          · exact .inl (List.mem_cons_of_mem _ hmem)
          · exact .inr rfl
        · simpa [show c.ordinal ≤ x.ordinal by omega] using hle
        · obtain rfl := Option.some.inj hb
          exact hinit

/-- A list of crews has one of the lowest ordinal. -/
theorem lowestCrew_isSome (cs : List Crew) (init : Option Crew) (h : init.isSome = true ∨ cs ≠ []) :
    (cs.foldl (fun best c => match best with
      | some b => if c.ordinal < b.ordinal then some c else some b
      | none => some c) init).isSome = true := by
  induction cs generalizing init with
  | nil => simpa using h
  | cons x cs ih =>
    rw [List.foldl_cons]
    refine ih _ (.inl ?_)
    cases init with
    | none => rfl
    | some b => dsimp only; split <;> rfl

/-- The crew that a peer window names. -/
theorem State.windowCrew_spec {s : State} {w : Wave} {k : Nat} {c : Crew} (h : s.windowCrew w k = some c) :
    c ∈ s.crews ∧ c.launch = w.launch ∧ c.core = w.core / 8 * 8 + k ∧ c.placed = true ∧
      ∀ c' ∈ s.crews, c'.launch = w.launch → c'.core = w.core / 8 * 8 + k → c'.placed = true → c.ordinal ≤ c'.ordinal := by
  obtain ⟨hmem, hle, -⟩ := lowestCrew_spec _ none h
  simp only [reduceCtorEq, or_false, List.mem_filter, Bool.and_eq_true, beq_iff_eq] at hmem hle
  obtain ⟨hc, ⟨hl, hcore⟩, hp⟩ := hmem
  exact ⟨hc, hl, hcore, hp, fun c' hc' hl' hcore' hp' => hle c' ⟨hc', ⟨hl', hcore'⟩, hp'⟩⟩

/-- A peer window names a crew where one is placed. -/
theorem State.windowCrew_isSome {s : State} {w : Wave} {k : Nat}
    (h : ∃ c ∈ s.crews, c.launch = w.launch ∧ c.core = w.core / 8 * 8 + k ∧ c.placed = true) : (s.windowCrew w k).isSome = true := by
  obtain ⟨c, hc, hl, hcore, hp⟩ := h
  refine lowestCrew_isSome _ none (.inr ?_)
  exact List.ne_nil_of_mem (a := c) (by simp [hc, hl, hcore, hp])

section
variable (s : State) (w : Wave) {a n : Nat}

/-- An address of the crew store. -/
theorem State.resolve_crew (h : a < 0x40000) : s.resolve w a n = if a + n ≤ w.kern.crewstore then some (.crew w.crew a) else none :=
  if_pos h

/-- An address of the marver. -/
theorem State.resolve_marver (hlo : 0x10000000 ≤ a) (hhi : a < 0x14800000) : s.resolve w a n =
    if a - 0x10000000 + n ≤ w.kern.marver then some (.marver w.launch (w.core / 40) (a - 0x10000000)) else none := by
  rw [State.resolve, if_neg (by omega), if_pos ⟨hlo, hhi⟩]

/-- An address of peer window k. -/
theorem State.resolve_window {k o : Nat} (hk : k < 8) (ho : o < 0x40000) (ha : a = 0x20000000 + 0x40000 * k + o) : s.resolve w a n =
    (s.windowCrew w k).bind fun c => if o + n ≤ w.kern.crewstore then some (.crew c.key o) else none := by
  have hoff : a % 2 ^ 18 = o := by omega
  have hwin : (a - 0x20000000) / 2 ^ 18 = k := by omega
  rw [State.resolve, if_neg (by omega), if_neg (by omega), if_pos (by omega), hoff, hwin]
  cases s.windowCrew w k <;> rfl

/-- Every other address. -/
theorem State.resolve_outside (h : 0x40000 ≤ a ∧ a < 0x10000000 ∨ 0x14800000 ≤ a ∧ a < 0x20000000 ∨ 0x20200000 ≤ a) : s.resolve w a n = none := by
  rw [State.resolve, if_neg (by omega), if_neg (by omega), if_neg (by omega)]

end

/-! ### Checks over lanes and elements (R186) -/

/-- A check over lanes looks for those out of bounds, and then for misaligned ones. -/
theorem State.checkLanes_eq (s : State) (w : Wave) (accs : List Access) : s.checkLanes w accs =
    (refusedOf trapLOCALBOUND ((accs.filter fun x => (s.resolve w x.addr x.size).isNone).map fun x => (x.lane, x.addr))).or
      (refusedOf trapALIGN ((accs.filter fun x => x.addr % x.align != 0).map fun x => (x.lane, x.addr))) := by
  unfold State.checkLanes
  dsimp only
  split
  next r h => rw [h]; rfl
  next h => rw [h]; rfl

/-- A check over lanes. -/
theorem State.checkLanes_judges (s : State) (w : Wave) (accs : List Access) :
    judges (s.checkLanes w accs) ((accs.filter fun x => (s.resolve w x.addr x.size).isNone).map fun x => (x.lane, x.addr))
      ((accs.filter fun x => x.addr % x.align != 0).map fun x => (x.lane, x.addr)) :=
  judges_of_refusedOf (s.checkLanes_eq w accs)

/-- A refusal has the cause that was looked for. -/
theorem refusedOf_cause {cause : Nat} {bad : List (Nat × Nat)} {r : Refused} (h : refusedOf cause bad = some r) : r.cause = cause := by
  cases bad with
  | nil => cases h
  | cons x rest =>
    obtain rfl := Option.some.inj h
    rfl

/-- The lanes for which a partial function answers, with what it answers. -/
theorem filterMap_pairs {f : Nat → Option Nat} {p : Nat → Bool} {g : Nat → Nat} (lanes : List Nat)
    (h : ∀ l, f l = if p l = true then some (g l) else none) :
    (lanes.filterMap fun l => (f l).map fun x => (l, x)) = (lanes.filter p).map fun l => (l, g l) := by
  induction lanes with
  | nil => rfl
  | cons l lanes ih =>
    rw [List.filterMap_cons, ih]
    cases hp : p l <;> simp [h l, hp]

/-- A check of 64-bit addresses (R197). -/
theorem State.check64_judges (s : State) (w : Wave) (lanes : List Nat) (e : Nat → Nat) (n : Nat) :
    judges (s.check64 w lanes e n)
      ((lanes.filter fun l => homeOf (e l) == 0xFF && (e l / 2 ^ 32 % 2 ^ 24 != 0 || (s.resolve w (e l % 2 ^ 32) n).isNone)).map
        fun l => (l, if (e l / 2 ^ 32 % 2 ^ 24 != 0) = true then e l else e l % 2 ^ 32))
      ((lanes.filter fun l => e l % n != 0).map fun l => (l, if (homeOf (e l) == 0xFF) = true then e l % 2 ^ 32 else e l)) := by
  apply judges_of_refusedOf
  have hodd (l : Nat) : reported64 (e l) = if (homeOf (e l) == 0xFF) = true then e l % 2 ^ 32 else e l := by
    simp [reported64, isLocal64, homeOf]
  rw [← filterMap_pairs (f := fun l => s.outside64 w (e l) n) lanes fun l => ?_]
  · unfold State.check64
    simp only [← hodd]
    split
    next r h => rw [h]; rfl
    next h => rw [h]; rfl
  · unfold State.outside64 isLocal64 homeOf
    generalize e l / 2 ^ 56 % 256 = home, e l / 2 ^ 32 % 2 ^ 24 = high, e l % 2 ^ 32 = low
    by_cases hl : home = 0xFF <;> by_cases hh : high = 0 <;> simp [hl, hh]

/-- A check of crucible cells (R198). -/
theorem State.checkCells_judges (s : State) (w : Wave) (lanes : List Nat) (e : Nat → Nat) :
    judges (s.checkCells w lanes e)
      ((lanes.filter fun l => homeOf (e l) == 0xFF && (e l / 2 ^ 32 % 2 ^ 24 != 0 || decide (e l % 2 ^ 32 < 0x10000000) ||
        decide (0x14800000 ≤ e l % 2 ^ 32) || (s.resolve w (e l % 2 ^ 32) 64).isNone)).map fun l => (l, e l))
      ((lanes.filter fun l => e l % 64 != 0).map fun l => (l, e l)) := by
  apply judges_of_refusedOf
  rw [← filterMap_pairs (f := fun l => s.outsideCell w (e l)) lanes fun l => ?_]
  · unfold State.checkCells
    split
    next r h => rw [h]; rfl
    next h => rw [h]; rfl
  · unfold State.outsideCell State.outside64 isLocal64 homeOf
    generalize e l / 2 ^ 56 % 256 = home, e l / 2 ^ 32 % 2 ^ 24 = high, e l % 2 ^ 32 = low
    by_cases hl : home = 0xFF <;> by_cases hlo : low < 0x10000000 <;> by_cases hhi : 0x14800000 ≤ low <;> by_cases hh : high = 0 <;>
      simp [hl, hlo, hhi, hh, Nat.not_le.mp, Nat.not_lt.mp]

/-- A check over elements reports the first that fails. -/
theorem State.checkElems_spec (s : State) (w : Wave) (m : Mask) (accs : List Access) :
    let far (x : Access) : Bool := (s.resolve w x.addr x.size).isNone
    let odd (x : Access) : Bool := x.addr % x.align != 0
    (∀ before x after, accs = before ++ x :: after →
      (far x = true → (∀ y ∈ before, far y = false) → s.checkElems w m accs = some ⟨0x09, x.addr, m⟩) ∧
      (odd x = true → (∀ y ∈ accs, far y = false) → (∀ y ∈ before, odd y = false) → s.checkElems w m accs = some ⟨0x08, x.addr, m⟩)) ∧
    ((∀ y ∈ accs, far y = false ∧ odd y = false) → s.checkElems w m accs = none) := by
  intro far odd
  have hnone {c : Access → Bool} (h : ∀ y ∈ accs, c y = false) : accs.find? c = none :=
    List.find?_eq_none.mpr fun y hy => by simp [h y hy]
  refine ⟨fun before x after hsplit => ⟨fun hx hbefore => ?_, fun hx hfar hbefore => ?_⟩, fun h => ?_⟩
  · have hfind : accs.find? far = some x :=
      List.find?_eq_some_iff_append.mpr ⟨hx, before, after, hsplit, fun y hy => by simp [hbefore y hy]⟩
    unfold State.checkElems
    rw [hfind]
    rfl
  · have hfind : accs.find? odd = some x :=
      List.find?_eq_some_iff_append.mpr ⟨hx, before, after, hsplit, fun y hy => by simp [hbefore y hy]⟩
    unfold State.checkElems
    rw [hnone hfar, hfind]
    rfl
  · unfold State.checkElems
    rw [hnone fun y hy => (h y hy).1, hnone fun y hy => (h y hy).2]

/-- One step of the check of two operands: where an access fails, what is reported of it. -/
def operandReport (m : Mask) (as_ bs : List Access) (cause : Nat) (bad : Access → Bool) : Option Refused :=
  match as_.filter bad ++ bs.filter bad with
  | [] => none
  | x :: _ => some ⟨cause, x.addr, if (bs.filter bad).isEmpty then Mask.ofLanes ((as_.filter bad).map Access.lane) else m⟩

/-- The check of two operands is a step over the bounds, and then one over the alignment. -/
theorem State.checkOperands_eq (s : State) (w : Wave) (m : Mask) (as_ bs : List Access) : s.checkOperands w m as_ bs =
    (operandReport m as_ bs trapLOCALBOUND fun x => (s.resolve w x.addr x.size).isNone).or
      (operandReport m as_ bs trapALIGN fun x => x.addr % x.align != 0) := by
  unfold State.checkOperands
  dsimp only
  split
  next r h => exact (congrArg (Option.or · _) h).symm
  next h => exact (congrArg (Option.or · _) h).symm

/-- A step without a failing access reports nothing. -/
theorem operandReport_none {m : Mask} {accs : List Access} (n cause : Nat) {bad : Access → Bool} (h : ∀ x ∈ accs, bad x = false) :
    operandReport m (accs.take n) (accs.drop n) cause bad = none := by
  have ha : (accs.take n).filter bad = [] := List.filter_eq_nil_iff.mpr fun x hx => by simp [h x (List.mem_of_mem_take hx)]
  have hb : (accs.drop n).filter bad = [] := List.filter_eq_nil_iff.mpr fun x hx => by simp [h x (List.mem_of_mem_drop hx)]
  rw [operandReport, ha, hb]
  rfl

/-- A step reports the first failing access: with every lane where one of B fails, else with the lanes of A's that fail. -/
theorem operandReport_some {m : Mask} {accs : List Access} (n cause : Nat) {bad : Access → Bool} (h : ∃ x ∈ accs, bad x = true) :
    ∃ x r, operandReport m (accs.take n) (accs.drop n) cause bad = some ⟨cause, x.addr, r⟩ ∧ accs.find? bad = some x ∧
      ((∃ y ∈ accs.drop n, bad y = true) → r = m) ∧
      ((∀ y ∈ accs.drop n, bad y = false) → ∀ l, r.has l = true ↔ l < 1024 ∧ ∃ y ∈ accs.take n, bad y = true ∧ y.lane = l) := by
  have hfilter : (accs.take n).filter bad ++ (accs.drop n).filter bad = accs.filter bad := by
    rw [← List.filter_append, List.take_append_drop]
  obtain ⟨x, rest, hx⟩ : ∃ x rest, accs.filter bad = x :: rest := by
    obtain ⟨y, hy, hbad⟩ := h
    exact List.exists_cons_of_ne_nil (List.ne_nil_of_mem (List.mem_filter.mpr ⟨hy, hbad⟩))
  refine ⟨x, _, by rw [operandReport, hfilter, hx], ?_, ?_, ?_⟩
  · rw [← List.head?_filter, hx]
    rfl
  · rintro ⟨y, hy, hbad⟩
    have : (accs.drop n).filter bad ≠ [] := List.ne_nil_of_mem (List.mem_filter.mpr ⟨hy, hbad⟩)
    simp [this]
  · intro hb l
    have : (accs.drop n).filter bad = [] := List.filter_eq_nil_iff.mpr fun y hy => by simp [hb y hy]
    rw [this, List.isEmpty_nil, if_pos rfl, Mask.ofLanes_has]
    simp only [List.mem_map, List.mem_filter, and_assoc]

/-! ### Accesses in class C (R190, R192) -/

/-- A scalar format is checked lane by lane. -/
theorem State.checkClass_scalar (s : State) (w : Wave) {f : Fmt} (on : Mask) (addr : Nat → Nat) (h : f.packed = false) :
    s.checkClass w f on addr = s.checkLanes w ((w.list on).map fun l => ⟨l, addr l, f.bits / 8, f.bits / 8⟩) := by
  simp only [State.checkClass, h, Bool.not_false, if_true, Fmt.elemBytes]

/-- A packed format is checked by block and scale, and each lane against the lowest of its group. -/
theorem State.checkClass_packed (s : State) (w : Wave) {f : Fmt} (on : Mask) (addr : Nat → Nat) (h : f.packed = true) :
    let scale (l : Nat) : List Nat := if f.isMX = true then (w.scaleAddr f (addr l)).toList else []
    let group (l k : Nat) : Bool := w.visible k / 32 == w.visible l / 32 && w.isShadow k == w.isShadow l
    judges (s.checkClass w f on addr)
      ((w.list on).flatMap fun l => ((if (s.resolve w (addr l) f.blockBytes).isNone then [addr l] else []) ++
        (scale l).filter fun x => (s.resolve w x 1).isNone).map fun x => (l, x))
      (((w.list on).filter fun l => addr l % 8 != 0 || (f.isMX && (w.scaleAddr f (addr l)).isNone) ||
        (((w.list on).find? (group l)).map addr).getD (addr l) != addr l).map fun l => (l, addr l)) := by
  intro scale group
  have hfar : ((((w.list on).flatMap fun i => (⟨i, addr i, f.blockBytes, 8⟩ : Access) ::
        if f.isMX then ((w.scaleAddr f (addr i)).map fun x => (⟨i, x, 1, 1⟩ : Access)).toList else []).filter fun x =>
          (s.resolve w x.addr x.size).isNone).map fun x => (x.lane, x.addr)) =
      (w.list on).flatMap fun l => ((if (s.resolve w (addr l) f.blockBytes).isNone then [addr l] else []) ++
        (scale l).filter fun x => (s.resolve w x 1).isNone).map fun x => (l, x) := by
    rw [List.filter_flatMap, List.map_flatMap]
    congr 1
    funext l
    have hscale : ((if f.isMX = true then (Option.map (fun x => (⟨l, x, 1, 1⟩ : Access)) (w.scaleAddr f (addr l))).toList else []).filter
        fun x => (s.resolve w x.addr x.size).isNone).map (fun x => (x.lane, x.addr)) =
        ((scale l).filter fun x => (s.resolve w x 1).isNone).map fun x => (l, x) := by
      simp only [scale]
      split
      · cases w.scaleAddr f (addr l) with
        | none => rfl
        | some x => cases hx : (s.resolve w x 1).isNone <;> simp [hx]
      · rfl
    rw [List.filter_cons, List.map_append, ← hscale]
    split <;> rfl
  have hlead (l : Nat) : (((w.list on).find? (group l)).map addr).getD (addr l) = addr (((w.list on).filter (group l)).headD l) := by
    rw [← List.head?_filter]
    cases (w.list on).filter (group l) <;> rfl
  rw [← hfar]
  simp only [hlead]
  apply judges_of_refusedOf
  have hodd : (w.list on).filter (fun l => addr l != addr (((w.list on).filter (group l)).headD l) || addr l % 8 != 0 ||
        (f.isMX && (w.scaleAddr f (addr l)).isNone)) =
      (w.list on).filter fun l => addr l % 8 != 0 || (f.isMX && (w.scaleAddr f (addr l)).isNone) ||
        addr (((w.list on).filter (group l)).headD l) != addr l := by
    congr 1
    funext l
    rw [Bool.or_comm (addr l % 8 != 0 || _), ← Bool.or_assoc, bne_comm]
  rw [← hodd]
  unfold State.checkClass
  rw [h]
  simp only [Bool.not_true, Bool.false_eq_true, if_false]
  rw [s.checkLanes_eq]
  generalize hA : refusedOf trapLOCALBOUND _ = A
  generalize hB : refusedOf trapALIGN (List.map (fun x : Access => (x.lane, x.addr)) _) = B
  cases A with
  | some r =>
    simp only [Option.some_or, refusedOf_cause hA, if_true]
  | none =>
    cases B with
    | some r =>
      have hne : trapALIGN ≠ trapLOCALBOUND := by decide
      simp only [Option.none_or, refusedOf_cause hB, if_neg hne]
      rfl
    | none => rfl

/-! ### Scalar accesses (R137) -/

/-- The address that a scalar names, where its upper half is legal. -/
theorem localOf64_narrow {e : Word64} (h : ¬(e.toNat / 2 ^ 32 ≠ 0 ∧ e.toNat / 2 ^ 32 ≠ 0xFF000000)) : localOf64 e = some (e.toNat % 2 ^ 32) :=
  if_pos (by tauto)

/-- An upper half that is not legal. -/
theorem localOf64_wide {e : Word64} (h : e.toNat / 2 ^ 32 ≠ 0 ∧ e.toNat / 2 ^ 32 ≠ 0xFF000000) : localOf64 e = none :=
  if_neg (by tauto)

section
variable (s : State) (w : Wave) (p : Split) {e : Word64} {n : Nat}

/-- A scalar's address with an upper half that is not legal is refused whole. -/
theorem State.checkScalar_wide (h : e.toNat / 2 ^ 32 ≠ 0 ∧ e.toNat / 2 ^ 32 ≠ 0xFF000000) :
    s.checkScalar w p e n = .error ⟨0x09, e.toNat, w.active p⟩ := by
  rw [State.checkScalar, localOf64_wide h]
  rfl

/-- Else its local address must be in bounds, -/
theorem State.checkScalar_far (h : ¬(e.toNat / 2 ^ 32 ≠ 0 ∧ e.toNat / 2 ^ 32 ≠ 0xFF000000))
    (hr : (s.resolve w (e.toNat % 2 ^ 32) n).isNone = true) : s.checkScalar w p e n = .error ⟨0x09, e.toNat % 2 ^ 32, w.active p⟩ := by
  rw [State.checkScalar, localOf64_narrow h]
  simp only [Option.isNone_iff_eq_none.mp hr]
  rfl

/-- and then aligned. -/
theorem State.checkScalar_odd (h : ¬(e.toNat / 2 ^ 32 ≠ 0 ∧ e.toNat / 2 ^ 32 ≠ 0xFF000000))
    (hr : (s.resolve w (e.toNat % 2 ^ 32) n).isSome = true) (hodd : e.toNat % 2 ^ 32 % n ≠ 0) :
    s.checkScalar w p e n = .error ⟨0x08, e.toNat % 2 ^ 32, w.active p⟩ := by
  obtain ⟨at_, hr⟩ := Option.isSome_iff_exists.mp hr
  rw [State.checkScalar, localOf64_narrow h]
  simp only [hr, if_pos hodd]
  rfl

/-- Nothing else refuses it. -/
theorem State.checkScalar_ok (h : ¬(e.toNat / 2 ^ 32 ≠ 0 ∧ e.toNat / 2 ^ 32 ≠ 0xFF000000))
    (hr : (s.resolve w (e.toNat % 2 ^ 32) n).isSome = true) (heven : e.toNat % 2 ^ 32 % n = 0) :
    s.checkScalar w p e n = .ok (e.toNat % 2 ^ 32) := by
  obtain ⟨at_, hr⟩ := Option.isSome_iff_exists.mp hr
  rw [State.checkScalar, localOf64_narrow h]
  simp only [hr, if_neg (not_not_intro heven)]

/-- A descriptor's address is checked as a scalar's is, with the mask that is given. -/
theorem State.descAt_eq (m : Mask) : s.descAt w e n m =
    match s.checkScalar w p e n with
    | .error r => .error { r with mask := m }
    | .ok l => .ok (s.placeOf w l n) := by
  unfold State.descAt State.checkScalar State.placeOf
  cases localOf64 e with
  | none => rfl
  | some l =>
    cases hr : s.resolve w l n with
    | none => simp only [hr]
    | some at_ => by_cases h : l % n = 0 <;> simp [hr, h]

/-- A scalar's address passes its check when it is legal, in bounds and aligned. -/
theorem State.checkScalar_eq_ok_iff (l : Nat) : s.checkScalar w p e n = .ok l ↔
    (e.toNat / 2 ^ 32 = 0 ∨ e.toNat / 2 ^ 32 = 0xFF000000) ∧ l = e.toNat % 2 ^ 32 ∧ (s.resolve w l n).isSome = true ∧ l % n = 0 := by
  constructor
  · intro h
    by_cases hw : e.toNat / 2 ^ 32 ≠ 0 ∧ e.toNat / 2 ^ 32 ≠ 0xFF000000
    · simp [s.checkScalar_wide w p hw] at h
    by_cases hr : (s.resolve w (e.toNat % 2 ^ 32) n).isSome = true
    · by_cases heven : e.toNat % 2 ^ 32 % n = 0
      · rw [s.checkScalar_ok w p hw hr heven] at h
        obtain rfl := Except.ok.inj h
        exact ⟨by tauto, rfl, hr, heven⟩
      · simp [s.checkScalar_odd w p hw hr heven] at h
    · simp [s.checkScalar_far w p hw (by simpa using hr)] at h
  · rintro ⟨hw, rfl, hr, heven⟩
    exact s.checkScalar_ok w p (by tauto) hr heven

end

/-- Settles O6: of each check, which addresses fail it, in the order that R186 gives; then where an address lands. -/
theorem localAddressRules : Obligations.LocalAddressRules := by
  unfold Obligations.LocalAddressRules
  refine ⟨fun s w a n => ⟨s.resolve_crew w, s.resolve_marver w, fun k o hk ho ha at_ h => ?_, fun k o hk ho ha hsize hc => ?_, s.resolve_outside w⟩,
    fun s w accs => ⟨s.checkLanes_judges w accs, fun m => s.checkElems_spec w m accs, fun m n => ⟨fun h => ?_, fun hfar h => ?_, fun h => ?_⟩⟩,
    fun s w lanes e n => ⟨s.check64_judges w lanes e n, s.checkCells_judges w lanes e⟩,
    fun s w f on addr => ⟨s.checkClass_scalar w on addr, s.checkClass_packed w on addr⟩,
    fun s w p e n l _ => ⟨s.checkScalar_eq_ok_iff w p l, s.checkScalar_wide w p, s.checkScalar_far w p, s.checkScalar_odd w p, fun m => ?_⟩⟩
  · rw [s.resolve_window w hk ho ha, Option.bind_eq_some_iff] at h
    obtain ⟨c, hc, h⟩ := h
    obtain ⟨hsize, ⟨⟩⟩ := Option.ite_none_right_eq_some.mp h
    obtain ⟨hmem, hl, hcore, hp, hlow⟩ := State.windowCrew_spec hc
    exact ⟨c, hmem, rfl, hsize, hl, hcore, hp, hlow⟩
  · obtain ⟨c, hc⟩ := Option.isSome_iff_exists.mp (State.windowCrew_isSome hc)
    rw [s.resolve_window w hk ho ha, hc, Option.bind_some, if_pos hsize]
    rfl
  · obtain ⟨x, r, hr, hrest⟩ := operandReport_some (m := m) n trapLOCALBOUND h
    exact ⟨x, r, by rw [s.checkOperands_eq, hr]; rfl, hrest⟩
  · obtain ⟨x, r, hr, hrest⟩ := operandReport_some (m := m) n trapALIGN h
    exact ⟨x, r, by rw [s.checkOperands_eq, operandReport_none n _ hfar, hr]; rfl, hrest⟩
  · rw [s.checkOperands_eq, operandReport_none n _ fun x hx => (h x hx).1, operandReport_none n _ fun x hx => (h x hx).2]
    rfl
  · rw [s.descAt_eq w p]
    refine ⟨fun hw => ?_, fun hw hr => ?_, fun hw hr hodd => ?_, fun at_ hw hr heven => ?_⟩
    · rw [s.checkScalar_wide w p hw]
    · rw [s.checkScalar_far w p hw hr]
    · rw [s.checkScalar_odd w p hw hr hodd]
    · rw [s.checkScalar_ok w p hw (by rw [hr]; rfl) heven]
      simp only [State.placeOf, hr, Option.getD_some]

/-! ### Scalar loads and stores (R137) -/

section
variable {i : Instr} {d a b : Byte} {n : Nat}

/-- A scalar load that passes both checks joins the port, and its split waits there. -/
theorem scalarLoad_joins (hexec : exec i = scalarLoad i d a b n) (l ls : Nat) :
    leadsTo i (fun s w p => s.checkScalar w p (w.S a.toNat + w.S b.toNat) n = .ok l ∧ s.checkScalar w p (w.Sh a.toNat + w.Sh b.toNat) n = .ok ls)
      fun s w p => s.putWave
        ((w.pushPort p (.sload (w.sidx d.toNat) n (s.placeOf w l n) (s.placeOf w ls n))).advance { p with status := .onPort }) := by
  intro s w p hf hu ⟨hl, hls⟩
  rw [hexec, scalarLoad, issueWord_runs hf hu]
  simp only [Wave.saddr, Bool.false_eq_true, if_false, if_true, hl, hls]
  rfl

/-- The primary's address is refused first. -/
theorem scalarLoad_refused (hexec : exec i = scalarLoad i d a b n) (r : Refused) :
    leadsTo i (fun s w p => s.checkScalar w p (w.S a.toNat + w.S b.toNat) n = .error r)
      fun s w p => s.takeTrap w p r.cause p.pc r.addr r.mask := by
  intro s w p hf hu hr
  rw [hexec, scalarLoad, issueWord_runs hf hu]
  simp only [Wave.saddr, Bool.false_eq_true, if_false, if_true, hr]
  rfl

/-- Then the shadow copy's. -/
theorem scalarLoad_refused_shadow (hexec : exec i = scalarLoad i d a b n) (l : Nat) (r : Refused) :
    leadsTo i (fun s w p => s.checkScalar w p (w.S a.toNat + w.S b.toNat) n = .ok l ∧ s.checkScalar w p (w.Sh a.toNat + w.Sh b.toNat) n = .error r)
      fun s w p => s.takeTrap w p r.cause p.pc r.addr r.mask := by
  intro s w p hf hu ⟨hl, hr⟩
  rw [hexec, scalarLoad, issueWord_runs hf hu]
  simp only [Wave.saddr, Bool.false_eq_true, if_false, if_true, hl, hr]
  rfl

/-- A scalar store with equal copies that passes its check joins the port. -/
theorem scalarStore_joins (hexec : exec i = scalarStore i d a b n) (hn : 0 < n) (l : Nat) :
    leadsTo i (fun s w p => (w.S a.toNat + w.S b.toNat = w.Sh a.toNat + w.Sh b.toNat ∧ w.S d.toNat = w.Sh d.toNat) ∧
        s.checkScalar w p (w.S a.toNat + w.S b.toNat) n = .ok l)
      fun s w p => s.putWave ((w.pushPort p (.store
        ((leBytes n (w.S d.toNat).toNat).zipIdx.map fun x => ((s.placeOf w l n).plus x.2, x.1, 0xFF)))).advance p) := by
  intro s w p hf hu ⟨⟨he, hd⟩, hl⟩
  rw [hexec, scalarStore, issueWord_runs hf hu]
  simp only [Wave.saddr, Bool.false_eq_true, if_false, if_true, if_neg (not_or.mpr ⟨not_not_intro he, not_not_intro hd⟩), hl]
  have hne : wholeBytes (s.placeOf w l n) (leBytes n (w.S d.toNat).toNat) ≠ [] := by
    obtain ⟨m, rfl⟩ := Nat.exists_eq_succ_of_ne_zero hn.ne'
    simp [wholeBytes, leBytes]
  rw [State.storeDone, if_neg hne]
  rfl

/-- One whose address is refused traps. -/
theorem scalarStore_refused (hexec : exec i = scalarStore i d a b n) (r : Refused) :
    leadsTo i (fun s w p => (w.S a.toNat + w.S b.toNat = w.Sh a.toNat + w.Sh b.toNat ∧ w.S d.toNat = w.Sh d.toNat) ∧
        s.checkScalar w p (w.S a.toNat + w.S b.toNat) n = .error r)
      fun s w p => s.takeTrap w p r.cause p.pc r.addr r.mask := by
  intro s w p hf hu ⟨⟨he, hd⟩, hr⟩
  rw [hexec, scalarStore, issueWord_runs hf hu]
  simp only [Wave.saddr, Bool.false_eq_true, if_false, if_true, if_neg (not_or.mpr ⟨not_not_intro he, not_not_intro hd⟩), hr]
  rfl

/-- Copies that differ are a mismatch, before the address is checked. -/
theorem scalarStore_mismatch (hexec : exec i = scalarStore i d a b n) :
    leadsTo i (fun _ w _ => ¬(w.S a.toNat + w.S b.toNat = w.Sh a.toNat + w.Sh b.toNat ∧ w.S d.toNat = w.Sh d.toNat)) scalarMismatch := by
  intro s w p hf hu hne
  rw [hexec, scalarStore, issueWord_runs hf hu]
  simp only [Wave.saddr, Bool.false_eq_true, if_false, if_true, if_pos (not_and_or.mp hne)]
  rfl

end

/-- R130: a load at the port holds its scalar by its place. -/
theorem Wave.boards_of_sload {w : Wave} {x : PortAcc} {n k : Nat} {at_ shadowAt : LocalAt} (hx : x ∈ w.port)
    (hjob : x.job = .sload k n at_ shadowAt) (hk : k ≠ 0) : 0xC00 + k ∈ w.boards := by
  refine List.mem_append_left _ (List.mem_append_right _ (List.mem_filterMap.mpr ⟨x, hx, ?_⟩))
  simp [hjob, hk]

/-- Settles O7: both loads and both stores have one form each. -/
theorem scalarLocalAccessIssues : Obligations.ScalarLocalAccessIssues := by
  unfold Obligations.ScalarLocalAccessIssues
  intro d a b e es load store
  have hload {i : Instr} {n : Nat} (hexec : exec i = scalarLoad i d a b n) : load i n :=
    ⟨scalarLoad_joins hexec, scalarLoad_refused hexec, scalarLoad_refused_shadow hexec⟩
  have hstore {i : Instr} {n : Nat} (hexec : exec i = scalarStore i d a b n) (hn : 0 < n) : store i n :=
    ⟨scalarStore_joins hexec hn, scalarStore_refused hexec, scalarStore_mismatch hexec⟩
  exact ⟨hload rfl, hload rfl, hstore rfl (by decide), hstore rfl (by decide), fun w x n k at_ shadowAt => Wave.boards_of_sload⟩

end Sys2Proof.Machine
end

section
/-! Class 01 (R156-R184): the shared forms of its words, and the words that only name their functions. -/

namespace Sys2Proof.Machine

/-! ### Words of class C (R160) -/

/-- A word that ends as every class-C word does. -/
theorem classWord_of_classC {i : Instr} {d : Byte} {exact : Wave → Split → Nat → Exact} {out : Wave → Split → Nat → Val → LaneOut} {tag : Wave → Tag}
    {rounds : Wave → Bool}
    (hexec : ∀ s, exec i s = issueWord i s fun s w p => s.classC w p d.toNat (w.active p) (exact w p) (out w p) (tag w) (rounds w))
    (hexact : ∀ w p n, exact w (p.stamp i n) = exact w p) (hout : ∀ w p n, out w (p.stamp i n) = out w p) :
    classWord i d exact out tag rounds := by
  have hactive (w : Wave) (p : Split) (n : Nat) : w.active (p.stamp i n) = w.active p := by simp [Wave.active]
  constructor
  · intro s w p hf hu htrap
    rw [hexec, issueWord_runs hf hu, State.classC]
    simp only [htrap]
  · intro s w p cause bad hf hu htrap
    rw [hexec, issueWord_runs hf hu, State.classC]
    simp only [hactive, hexact, hout, htrap, State.trapAt, Split.stamp_pc]

/-- The test for a real class. -/
theorem Wave.rounds_eq_true_iff (w : Wave) : w.rounds = true ↔ w.C.compute.kind = .real := beq_iff_eq

/-- A class-C word of two sources. -/
theorem vectorBinary_formed {i : Instr} {d a b : Byte} {real : Bool → Val → Val → Exact} {int : Int → Int → Exact} {tag : Wave → Tag}
    (hexec : exec i = vectorBinary i d a b real int tag) : formedWord i d (binaryExact a b real int) fun w => w.elemTag [a, b] (tag w) := by
  refine classWord_of_classC (fun s => ?_) (fun _ _ _ => rfl) fun _ _ _ => rfl
  rw [hexec, vectorBinary]
  simp only [Wave.rounds_eq_true_iff, binaryExact, Wave.rdn]
  rfl

/-- A class-C word of one source. -/
theorem vectorUnary_formed {i : Instr} {d a : Byte} {real : Val → Exact} {int : Int → Exact} {tag : Wave → Tag}
    (hexec : exec i = vectorUnary i d a real int tag) : formedWord i d (unaryExact a real int) fun w => w.elemTag [a] (tag w) := by
  refine classWord_of_classC (fun s => ?_) (fun _ _ _ => rfl) fun _ _ _ => rfl
  rw [hexec, vectorUnary]
  simp only [Wave.rounds_eq_true_iff, unaryExact]
  rfl

/-- The exact value of the fused family (R163). -/
def fusedExact (d a b : Byte) (np nd : Bool) : Wave → Split → Nat → Exact := fun w _ l =>
  let x := w.srcVal a (.cls w.C) l
  let y := w.srcVal b (.cls w.C) l
  let z := w.srcVal d (.cls w.C) l
  if w.C.compute.kind = .real then fusedReal (mrRound w.a.mr == 2) np nd x y z
  else ⟨Val.ofInt ((if np then -(x.toInt * y.toInt) else x.toInt * y.toInt) + (if nd then -z.toInt else z.toInt)), 0⟩

/-- A word of the fused family. -/
theorem vectorFused_formed {i : Instr} {d a b : Byte} {np nd : Bool} (hexec : exec i = vectorFused i d a b np nd) :
    formedWord i d (fusedExact d a b np nd) fun w => w.elemTag [a, b, d] .general := by
  refine classWord_of_classC (fun s => ?_) (fun _ _ _ => rfl) fun _ _ _ => rfl
  rw [hexec, vectorFused]
  simp only [Wave.rounds_eq_true_iff, fusedExact, Wave.rdn]
  rfl

/-- The unsigned distance of an integer from zero. -/
theorem ofInt_natAbs (x : Int) : Val.ofInt (x.natAbs : Int) = Val.ofInt |x| := by rw [Int.abs_eq_natAbs]

/-- Settles O8: each word is of one of the three forms, with the functions of R163 to R165. -/
theorem vectorArithmeticResults : Obligations.VectorArithmeticResults := by
  unfold Obligations.VectorArithmeticResults
  intro d a b exact whole signal fused
  refine ⟨?_, ?_, ?_, ?_, ?_, ?_, ?_, ?_, ?_, ?_, ?_⟩
  · exact vectorBinary_formed rfl
  · exact vectorBinary_formed rfl
  · exact vectorBinary_formed rfl
  · exact vectorFused_formed rfl
  · exact vectorFused_formed rfl
  · exact vectorFused_formed rfl
  · exact vectorBinary_formed rfl
  · exact vectorBinary_formed rfl
  · refine vectorUnary_formed (funext fun s => ?_)
    simp only [whole, ← ofInt_natAbs]
    rfl
  · exact vectorUnary_formed rfl
  · refine classWord_of_classC (fun s => ?_) (fun _ _ _ => rfl) fun _ _ _ => rfl
    change execVrnd d a s = _
    rw [execVrnd]
    simp only [Wave.rounds_eq_true_iff]
    rfl

/-! ### Raw words, predicates and moves (R168, R170, R172) -/

section
variable {i : Instr} {d a b : Byte}

/-- A raw word of two sources. -/
theorem rawBinary_result {f : Word32 → Word32 → Word32} {tag : Wave → Tag} (hexec : exec i = rawBinary i d a b f tag) :
    leadsTo i anyState (afterRaw d (fun w l => f (w.src a .raw l) (w.src b .raw l)) fun w => w.elemTag [a, b] (tag w)) :=
  leadsTo_of_body (congrFun hexec) fun _ _ _ _ => rfl

/-- A raw word of one source. -/
theorem rawUnary_result {f : Word32 → Word32} (hexec : exec i = rawUnary i d a f) :
    leadsTo i anyState (afterRaw d (fun w l => f (w.src a .raw l)) fun w => w.elemTag [a] .general) :=
  leadsTo_of_body (congrFun hexec) fun _ _ _ _ => rfl

/-- A word that writes a predicate in the active lanes. -/
theorem predWord_result {value : Wave → Mask → Mask} (hexec : exec i = predWord i d value) :
    leadsTo i anyState (afterPred d (fun w p => w.active p) fun w p => value w (w.active p)) :=
  leadsTo_of_body (congrFun hexec) fun _ _ _ _ => rfl

/-- A cross-lane word. -/
theorem crossLane_result {t : Tag} (hexec : exec i = crossLane i d a t) : leadsTo i anyState
    (afterVector d (fun w p => w.active p) (fun w p l => w.crossRead a l (w.crossIndex (w.active p) i l)) fun _ _ => t) :=
  leadsTo_of_body (congrFun hexec) fun _ _ _ _ => rfl

end

/-- The distance of a shift. -/
theorem shiftCount_eq (y : Word32) : (y.extractLsb' 0 5).toNat = y.toNat % 32 := by
  simp [BitVec.extractLsb'_toNat]

/-! ### Compares (R169) -/

section
variable (w : Wave) (a b : Byte)

/-- The condition of a compare in a lane. -/
def Wave.compareHolds (test : Ordering → Bool) (nan : Bool) (l : Nat) : Bool :=
  let x := w.srcVal a (.cls w.C) l
  let y := w.srcVal b (.cls w.C) l
  if x.isNan || y.isNan then nan else test (x.cmp y)

/-- Does a compare set invalid in a lane? -/
def Wave.compareInvalid (anyNan : Bool) (l : Nat) : Bool :=
  let x := w.srcVal a (.cls w.C) l
  let y := w.srcVal b (.cls w.C) l
  if anyNan then x.isNan || y.isNan else x.isSignalling || y.isSignalling

/-- The rows of a compare hold the two, lane by lane. -/
theorem Wave.compareRows_eq (on : Mask) (test : Ordering → Bool) (nan anyNan : Bool) : w.compareRows on a b test nan (!anyNan) =
    (w.list on).map fun l => ⟨l, w.compareHolds a b test nan l, w.compareInvalid a b anyNan l⟩ := by
  cases anyNan <;> rfl

end

/-- A compare: the predicate and the flag, or the trap. -/
theorem vectorCompare_result {i : Instr} {d a b : Byte} {test : Ordering → Bool} {nan anyNan : Bool}
    (hexec : exec i = vectorCompare i d a b test nan (!anyNan)) :
    let bad (w : Wave) (p : Split) : List Nat := (w.list (w.active p)).filter (w.compareInvalid a b anyNan)
    leadsTo i (fun _ w p => w.kern.traponinv = false ∨ bad w p = [])
      (fun s w p => afterPred d (fun _ p => w.active p) (fun _ p => Mask.ofLanes ((w.list (w.active p)).filter (w.compareHolds a b test nan))) s
        { w with a := { w.a with ns := w.a.ns ||| (if bad w p = [] then 0 else 0x01) } } p) ∧
    leadsTo i (fun _ w p => w.kern.traponinv = true ∧ bad w p ≠ [])
      (fun s w p => s.takeTrap w p 0x10 p.pc 0 (Mask.ofLanes (bad w p))) := by
  intro bad
  have hbad (w : Wave) (p : Split) :
      ((w.compareRows (w.active p) a b test nan (!anyNan)).filter CompareRow.invalid).map CompareRow.lane = bad w p := by
    rw [w.compareRows_eq, List.filter_map, List.map_map]
    exact List.map_id _
  have hholds (w : Wave) (p : Split) : ((w.compareRows (w.active p) a b test nan (!anyNan)).filter CompareRow.holds).map CompareRow.lane =
      (w.list (w.active p)).filter (w.compareHolds a b test nan) := by
    rw [w.compareRows_eq, List.filter_map, List.map_map]
    exact List.map_id _
  constructor
  · intro s w p hf hu hok
    rw [hexec, vectorCompare, issueWord_runs hf hu]
    simp only [hbad, hholds]
    rw [if_neg (by rcases hok with h | h <;> simp [h])]
    have hflag (l : List Nat) : flagIf (!l.isEmpty) nsInvalid = if l = [] then 0 else 0x01 := by cases l <;> rfl
    rw [hflag]
    rfl
  · intro s w p hf hu ⟨htrap, hne⟩
    rw [hexec, vectorCompare, issueWord_runs hf hu]
    simp only [hbad]
    rw [if_pos (by simp [htrap, hne])]
    rfl

/-! ### Lanes of combined masks -/

section
variable (m n : Mask) (k : Nat)

@[simp] theorem Mask.has_or : (m ||| n : Mask).has k = (m.has k || n.has k) := BitVec.getLsbD_or
@[simp] theorem Mask.has_and : (m &&& n : Mask).has k = (m.has k && n.has k) := BitVec.getLsbD_and

@[simp] theorem Mask.has_diff : (m.diff n).has k = (m.has k && !n.has k) := by
  by_cases hk : k < 1024
  · rw [Mask.has, Mask.diff, BitVec.getLsbD_and, BitVec.getLsbD_not, decide_eq_true hk, Bool.true_and]
    rfl
  · simp [Mask.has, BitVec.getLsbD_of_ge _ k (Nat.not_lt.mp hk)]

end

/-! ### The words -/

/-- A predicate other than p0 reads as it was written in the lanes written, and else as before. -/
theorem Wave.pred_setPred_same (w : Wave) {q : Nat} (on v : Mask) (hq : 0 < q) (hlen : q < w.a.preds.length) :
    (w.setPred q on v).pred q = (w.pred q).diff on ||| (v &&& on) := by
  simp [Wave.setPred, Wave.pred, hq.ne', hlen]

/-- Settles O11: the raw words have two forms, and the compares one. -/
theorem vectorBitwiseAndCompareResults : Obligations.VectorBitwiseAndCompareResults := by
  unfold Obligations.VectorBitwiseAndCompareResults
  refine ⟨fun d a b => ?_, fun d a b => ?_⟩
  · intro two one
    have htwo {i : Instr} {f g : Word32 → Word32 → Word32} {tag : Wave → Tag} (hexec : exec i = rawBinary i d a b g tag)
        (h : ∀ x y, g x y = f x y) : leadsTo i anyState (two f tag) := by
      obtain rfl : g = f := funext₂ h
      exact rawBinary_result hexec
    have hone {i : Instr} {f g : Word32 → Word32} (hexec : exec i = rawUnary i d a g) (h : ∀ x, g x = f x) : leadsTo i anyState (one f) := by
      obtain rfl : g = f := funext h
      exact rawUnary_result hexec
    clear_value two one
    exact ⟨htwo (g := fun x y => x &&& y) rfl fun _ _ => rfl, htwo (g := fun x y => x ||| y) rfl fun _ _ => rfl,
      htwo (g := fun x y => x ^^^ y) rfl fun _ _ => rfl,
      htwo (g := fun x y => x <<< (y.toNat % 32)) rfl fun _ y => by rw [shiftCount_eq],
      htwo (g := fun x y => x >>> (y.toNat % 32)) rfl fun _ y => by rw [shiftCount_eq],
      htwo (g := fun x y => x.sshiftRight (y.toNat % 32)) rfl fun _ y => by rw [shiftCount_eq],
      hone (g := fun x => BitVec.ofNat 32 (popCount 32 x.toNat)) rfl fun x => by rw [popCount_eq (n := 32)],
      hone (g := fun x => BitVec.ofNat 32 (leadingZeros 32 x.toNat)) rfl fun x => by rw [leadingZeros_eq (m := 31)]⟩
  · intro row
    have hrow {i : Instr} (test : Ordering → Bool) {nan anyNan : Bool}
        (hexec : exec i = vectorCompare i d a b test nan (!anyNan)) : row i test nan anyNan := vectorCompare_result hexec
    have hle : (fun o : Ordering => o == .lt || o == .eq) = fun o => o != .gt := funext fun o => by cases o <;> rfl
    clear_value row
    rw [hle]
    exact ⟨hrow (fun o => o == .eq) rfl, hrow (fun o => o != .eq) rfl, hrow (fun o => o == .lt) rfl, hrow (fun o => o != .gt) rfl,
      hrow (fun _ => false) rfl⟩

/-- Settles O12: words that write a predicate have one form; the two moves write raw lanes. -/
theorem predicateAndMoveResults : Obligations.PredicateAndMoveResults := by
  unfold Obligations.PredicateAndMoveResults
  intro d a b writes
  refine ⟨?_, ?_, ?_, ?_, ?_, ?_, ?_, fun w on v => ⟨rfl, rfl, fun q k hq hlen => ?_⟩⟩
  · exact predWord_result (value := fun w _ => w.pred a.toNat &&& w.pred b.toNat) rfl
  · exact predWord_result (value := fun w _ => w.pred a.toNat ||| w.pred b.toNat) rfl
  · exact predWord_result (value := fun w _ => w.pred a.toNat ^^^ w.pred b.toNat) rfl
  · exact predWord_result (value := fun w _ => ~~~(w.pred a.toNat)) rfl
  · have hne (x : Word32) : (x != 0) = decide (x ≠ 0) := by simp [bne, beq_eq_decide]
    simp only [← hne]
    exact predWord_result (value := fun w on => Mask.ofLanes ((w.list on).filter fun l => w.src a .raw l != 0)) rfl
  · exact leadsTo_of_body (body := fun s w p => s.rawDone w p d.toNat (w.active p) (fun l => if (w.pred a.toNat).has l then 1 else 0) .general)
      (fun _ => rfl) fun _ _ _ _ => rfl
  · exact leadsTo_of_body (body := fun s w p => s.rawDone w p d.toNat (w.active p) (fun l => w.src a (.cls w.C) l) (w.srcTag a))
      (fun _ => rfl) fun _ _ _ _ => rfl
  · rw [w.pred_setPred_same on v hq hlen, Mask.has_or, Mask.has_diff, Mask.has_and]
    cases on.has k <;> simp

/-- Settles O13: `vsel` writes raw lanes, and `vcvt` ends as a class-C word does. -/
theorem selectAndConvertResults : Obligations.SelectAndConvertResults := by
  unfold Obligations.SelectAndConvertResults
  intro d a b
  constructor
  · intro s w p hf hu _
    change execVsel d a b s = _
    rw [execVsel, issueWord_runs hf hu]
    simp only [beq_iff_eq]
    rfl
  · refine classWord_of_classC (fun s => ?_) (fun _ _ _ => rfl) fun _ _ _ => rfl
    change execVcvt d a s = _
    rw [execVcvt]
    have hflag (w : Wave) (x : Val) : (if w.rounds = true then nanFlag [x] else 0) =
        if w.C.compute.kind = .real ∧ x.isSignalling = true then 0x01 else 0 := by
      simp only [Wave.rounds_eq_true_iff, nanFlag, flagIf, nsInvalid, List.any_cons, List.any_nil, Bool.or_false, ite_and]
    simp only [hflag]
    rfl

/-- Settles O14: all four words read by `crossRead`, at the lane that `crossIndex` names. -/
theorem crossLaneResults : Obligations.CrossLaneResults := by
  unfold Obligations.CrossLaneResults
  intro d a b reads
  have hread (w : Wave) (l j : Nat) : w.crossRead a l j = if j < w.V ∧ w.a.live.has (w.primary j) = true then w.src a .raw (w.sameCopy l j) else 0 := by
    rw [Wave.crossRead, ite_and, ← ite_not]
    simp only [ge_iff_le, not_le]
  have hreads {i : Instr} {t : Tag} (j : Wave → Split → Nat → Word32) (hexec : exec i = crossLane i d a t)
      (hj : ∀ w p l, w.crossIndex (w.active p) i l = (j w p l).toNat) : reads i j t := by
    have h := crossLane_result hexec
    simp only [hread, hj] at h
    exact h
  exact ⟨hreads _ rfl fun _ _ _ => rfl, hreads _ rfl fun _ _ _ => rfl, hreads _ rfl fun _ _ _ => rfl, hreads _ rfl fun _ _ _ => rfl⟩

/-! ### Scans, reductions and counts (R176-R181) -/

/-- A scan or reduction: the active lanes of the same copy, all of them or those up to the lane. -/
theorem scanWord_class {i : Instr} {d a : Byte} {upTo : Bool} {f : Wave → List Val → Exact} (hexec : exec i = scanWord i d a upTo f) :
    classWord i d (fun w p l => f w ((w.scanLanes (w.active p) upTo l).map fun k => w.srcVal a (.cls w.C) k))
      (fun w p l v => w.formResult w.C.compute (w.ctl (if upTo then l else (w.scanLanes (w.active p) false l).headD l)) v)
      (fun _ => if upTo then .general else .uniform) Wave.rounds := by
  have hactive (w : Wave) (p : Split) (n : Nat) : w.active (p.stamp i n) = w.active p := by simp [Wave.active]
  refine classWord_of_classC (fun s => ?_) (fun w p n => ?_) fun w p n => ?_
  · rw [hexec]
    rfl
  · simp only [hactive]
  · simp only [hactive]

/-- The active visible lanes in which a predicate holds, from one copy. -/
theorem Wave.ballot_eq (w : Wave) (p : Split) (a : Byte) (shadow : Bool) : w.ballot p a shadow =
    ((w.list (w.active p)).filter fun l => (w.pred a.toNat).has l && (w.isShadow l == (shadow && w.paired))).map w.visible := by
  rw [Wave.ballot, Wave.list, Wave.list, Mask.lanes, Mask.lanes, List.filter_filter, List.filter_filter]
  congr 2
  funext l
  simp only [Mask.has_and]
  cases (w.active p).has l <;> cases (w.pred a.toNat).has l <;> cases w.isShadow l == (shadow && w.paired) <;> rfl

/-- Settles O15: the six scans have one form; counts, ranks and ballots are of the one set of lanes. -/
theorem scanReduceAndCountResults : Obligations.ScanReduceAndCountResults := by
  unfold Obligations.ScanReduceAndCountResults
  refine ⟨fun d a => ?_, fun d a b => ?_⟩
  · intro peers values row
    have hrow {i : Instr} {upTo : Bool} {f : Wave → List Val → Exact} {t : Tag} (hexec : exec i = scanWord i d a upTo f)
        (ht : t = if upTo then .general else .uniform) : row i upTo f t := by
      subst ht
      exact scanWord_class hexec
    exact ⟨hrow rfl rfl, hrow rfl rfl, hrow rfl rfl, hrow rfl rfl, hrow rfl rfl, hrow rfl rfl⟩
  · intro set ballot
    refine ⟨?_, ?_, ?_, ?_, ?_⟩
    · intro s w p hf hu _
      change execVballot d a b s = _
      rw [execVballot, issueWord_runs hf hu]
      have hb : b.toNat = 0x20 ↔ b = 0x20 := BitVec.toNat_inj (y := 0x20#8)
      simp only [Wave.ballot_eq, ballotWord, hb]
      rfl
    · intro s w p hf hu _
      change execVcount d a s = _
      rw [execVcount, issueWord_runs hf hu]
      simp only [Wave.ballot_eq]
      rfl
    · intro s w p hf hu _
      change execVrank d a s = _
      rw [execVrank, issueWord_runs hf hu]
      simp only [Wave.ballot_eq, ← List.countP_eq_length_filter]
      rfl
    · exact leadsTo_of_body (body := fun s w p =>
        let x : Word64 := match (w.vreg a.toNat).tag with | .uniform => 0 | .affine _ _ => 1 | .general => 2
        s.scalarDone w p d x x) (fun _ => rfl) fun _ _ _ _ => rfl
    · exact leadsTo_of_body (body := fun s w p => s.done (w.onV d.toNat fun r => { r with tag := .general }) (p.busy [d.toNat]))
        (fun _ => rfl) fun _ _ _ _ => rfl

end Sys2Proof.Machine
end

section
/-! The single step (O56, O58, O59): which words decode, what a step does with the word it fetches, and the state after reset. -/

namespace Sys2Proof.Machine

/-- Settles O56, by evaluating the decoder on each word. -/
theorem decodeKnownWords : Obligations.DecodeKnownWords := by
  unfold Obligations.DecodeKnownWords
  refine ⟨?_, ?_, ?_, ?_, ?_, ?_, ?_, ?_, ?_, ?_, ?_, ?_, ?_, ?_⟩ <;> rfl

/-- With nothing due, a step takes the candidate that the scheduler picks. -/
theorem step_of_pick {s u : State} {c : Candidate} (hagenda : s.agenda = []) (harrived : s.arrived = none)
    (hpick : s.pick s.candidates = some (c, u)) : step s = u.tick.take c := by
  simp only [step, hagenda, harrived, State.proceed, hpick]

theorem State.fetchFront_of_fronts {s : State} {w : Wave} {p : Split} (h : s.fronts w p) : s.fetchFront = w.instrAt p.pc := by
  obtain ⟨hw, hp⟩ := h
  obtain ⟨ws, hws⟩ := List.head?_eq_some_iff.mp hw
  obtain ⟨ps, hps⟩ := List.head?_eq_some_iff.mp hp
  simp only [State.fetchFront, hws, hps]

/-- Where fetch or decoding fails, the front wave traps ILLOP. -/
theorem State.issue_illegal {s : State} {w : Wave} {p : Split} (h : s.fronts w p) (hf : s.fetchFront = none) :
    s.issue = .next (s.takeTrap w p trapILLOP p.pc 0 (w.active p)) := by
  obtain ⟨hw, hp⟩ := h
  obtain ⟨ws, hws⟩ := List.head?_eq_some_iff.mp hw
  obtain ⟨ps, hps⟩ := List.head?_eq_some_iff.mp hp
  simp only [State.issue, hf, State.illegal, hws, hps]
  rfl

/-- A word of the code in use is fetched at its address. -/
theorem Wave.instrAt_of_code {w : Wave} {n : Nat} {c : Word32} {i : Instr} (hc : w.codeObj.code[n]? = some c)
    (hi : decodeWord c = some i) : w.instrAt (w.codeObj.codeVa + 4 * n) = some i := by
  obtain ⟨hn, -⟩ := List.getElem?_eq_some_iff.mp hc
  have hfetch : w.fetch (w.codeObj.codeVa + 4 * n) = some c := by
    unfold Wave.fetch
    simp [hc]
  rw [Wave.instrAt, hfetch]
  exact hi

/-- Settles O58: a step is the candidate's own effect, and the issue of a split is what its front word means. -/
theorem stepRunsTheDecodedWord : Obligations.StepRunsTheDecodedWord := by
  unfold Obligations.StepRunsTheDecodedWord
  refine ⟨?_, ?_, ?_, ?_, ?_, ?_⟩
  · intro s u k lane i hagenda harrived hpick f hf
    have hstep : step s = f.issue := step_of_pick hagenda harrived hpick
    refine ⟨fun hread hdiv => ?_, fun hread d hdiv => ?_, fun l e hread => ⟨fun hret => ?_, fun hret hhold => ?_, fun hret hhold => ?_⟩⟩ <;>
      rw [hstep, State.issue]
    · simp only [hf, hread, hdiv]
    · simp only [hf, hread, hdiv]
    · simp only [hf, hread, hret, Bool.not_false, if_true]
    · simp only [hf, hread, hret, hhold, Bool.not_true, Bool.false_eq_true, if_false, if_true]
    · simp only [hf, hread, hret, hhold, Bool.not_true, Bool.false_eq_true, if_false]
  · intro s u k lane w p hagenda harrived hpick hw hf
    rw [step_of_pick hagenda harrived hpick]
    exact State.issue_illegal hw hf
  · intro s w p n c i hw hc hpc hi
    rw [State.fetchFront_of_fronts hw, hpc, Wave.instrAt_of_code hc hi]
  · intro s i rest hagenda
    simp only [step, hagenda]
  · intro s i rest t hagenda hinputs hdue
    have harrived : s.arrived = some (i, rest) := by simp only [State.arrived, hinputs, if_pos hdue]
    simp only [step, hagenda, harrived]
  · intro s i u hagenda harrived hpick
    rw [step_of_pick hagenda harrived hpick]
    rfl

/-- Settles O59, by reading each field of the reset state. -/
theorem resetState : Obligations.ResetState := by
  unfold Obligations.ResetState
  refine ⟨rfl, ?_, List.length_replicate, rfl, rfl, rfl, rfl, rfl, rfl, ?_, List.length_replicate, rfl, rfl, rfl, ?_, ?_, rfl, ?_⟩
  · exact fun m hm => List.eq_of_mem_replicate hm
  · intro q hq
    rw [List.eq_of_mem_replicate hq]
    rfl
  · intro d a
    unfold State.readPhys
    split <;> rfl
  · intro a
    rfl
  · rfl
end Sys2Proof.Machine
end

section
/-! Branches, regions and calls (O28–O31). -/

namespace Sys2Proof.Machine

/-- A word offset counts words from the word's own address, modulo 2^64. -/
theorem targetOf_eq (pc : Nat) (o : BitVec 20) : (targetOf pc o : Int) = ((pc : Int) + 4 * o.toInt) % 2 ^ 64 := by
  have hext : ((o.signExtend 64).toNat : Int) = o.toInt % 2 ^ 64 := by
    rw [← BitVec.toInt_signExtend_of_le (w := 20) (v := 64) (by decide), BitVec.toInt_eq_toNat_cond]
    omega
  unfold targetOf
  rw [BitVec.toNat_add, BitVec.toNat_mul, BitVec.toNat_ofNat]
  change (((pc % 2 ^ 64 + (4 * (o.signExtend 64).toNat) % 2 ^ 64) % 2 ^ 64 : Nat) : Int) = _
  generalize (o.signExtend 64).toNat = x at hext
  omega

/-- A conditional branch: with the copies of its predicate alike, the lanes of `taken` go to its target and the others on. -/
theorem branchOn_results {i : Instr} {pr : BitVec 4} {o : BitVec 20} {want : Bool} {taken : Wave → Split → Mask}
    (hexec : ∀ s, exec i s = branchOn i pr o want s)
    (htaken : ∀ w p, (if want then p.lanes &&& w.pred pr.toNat else p.lanes.diff (w.pred pr.toNat)) = taken w p) :
    let differ (w : Wave) (p : Split) : Mask := w.differing p.lanes fun l => ((w.pred pr.toNat).has l).toNat
    leadsTo i (fun _ w p => differ w p = 0 ∧ taken w p = p.lanes) (afterJump fun _ p => targetOf p.pc o) ∧
    leadsTo i (fun _ w p => differ w p = 0 ∧ taken w p ≠ p.lanes ∧ taken w p = 0) (afterJump fun _ p => (p.pc + 4) % 2 ^ 64) ∧
    leadsTo i (fun _ w p => differ w p = 0 ∧ taken w p ≠ p.lanes ∧ taken w p ≠ 0)
      (afterControl fun w p => w.forkSplit
        [{ p with lanes := p.lanes.diff (taken w p), pc := (p.pc + 4) % 2 ^ 64 }, { p with lanes := taken w p, pc := targetOf p.pc o }]) ∧
    leadsTo i (fun _ w p => differ w p ≠ 0) (pairMismatch differ) := by
  intro differ
  refine ⟨leadsTo_of_body hexec ?_, leadsTo_of_body hexec ?_, leadsTo_of_body hexec ?_, leadsTo_of_body hexec ?_⟩
  · rintro s w p ⟨hsame, hall⟩
    simp only [htaken, hall]
    rw [if_neg (not_not_intro hsame)]
    rfl
  · rintro s w p ⟨hsame, hall, hnone⟩
    simp only [htaken]
    rw [if_neg (not_not_intro hsame), if_neg hall, if_pos hnone]
    rfl
  · rintro s w p ⟨hsame, hall, hnone⟩
    simp only [htaken]
    rw [if_neg (not_not_intro hsame), if_neg hall, if_neg hnone]
    rfl
  · intro s w p hdiffer
    exact if_pos hdiffer

/-- Settles O28: both conditional branches have one form. -/
theorem branchResults : Obligations.BranchResults := by
  unfold Obligations.BranchResults
  refine ⟨targetOf_eq, ?_⟩
  intro pr o differ row
  have hrow {i : Instr} {want : Bool} {taken : Wave → Split → Mask} (hexec : ∀ s, exec i s = branchOn i pr o want s)
      (htaken : ∀ w p, (if want then p.lanes &&& w.pred pr.toNat else p.lanes.diff (w.pred pr.toNat)) = taken w p) : row i taken :=
    branchOn_results hexec htaken
  clear_value row
  exact ⟨leadsTo_of_body (fun _ => rfl) fun _ _ _ _ => rfl, hrow (want := true) (fun _ => rfl) fun _ _ => rfl,
    hrow (want := false) (fun _ => rfl) fun _ _ => rfl⟩

/-! ### Indirect branches (R149, R150) -/

theorem Wave.isLand_iff (w : Wave) (t : Nat) : w.isLand t = true ↔ w.instrAt t = some .land := by
  simp [Wave.isLand]

/-- Of the failing lanes, each with its own address, the lowest one's is reported. -/
theorem refusedOf_map (cause : Nat) {bad : List Nat} {t : Nat → Nat} {l : Nat} (hl : l ∈ bad) (hlow : ∀ k ∈ bad, l ≤ k) :
    refusedOf cause (bad.map fun i => (i, t i)) = some ⟨cause, t l, Mask.ofLanes bad⟩ := by
  obtain ⟨x, rest, rfl⟩ := List.exists_cons_of_ne_nil (List.ne_nil_of_mem hl)
  have hlowest := lowest_entry (x, t x) (rest.map fun i => (i, t i))
  rw [← List.map_cons (f := fun i => (i, t i))] at hlowest
  obtain ⟨hmem, hle⟩ := hlowest
  obtain ⟨k, hk, hkeq⟩ := List.mem_map.mp hmem
  have hkl : k = l := by
    refine le_antisymm ?_ (hlow k hk)
    have := hle (l, t l) (List.mem_map.mpr ⟨l, hl, rfl⟩)
    rwa [← hkeq] at this
  rw [List.map_cons, refusedOf, ← hkeq, ← hkl]
  simp [Function.comp_def]

/-- The check of the targets: it passes where each is a `land`. -/
theorem landing_passes {w : Wave} {lanes : List Nat} {t : Nat → Nat} (h : ∀ l ∈ lanes, w.instrAt (t l) = some .land) :
    refusedOf trapLANDING ((lanes.filter fun i => !w.isLand (t i)).map fun i => (i, t i)) = none := by
  have hnone : (lanes.filter fun i => !w.isLand (t i)) = [] :=
    List.filter_eq_nil_iff.mpr fun l hl => by simp [(w.isLand_iff _).mpr (h l hl)]
  rw [hnone]
  rfl

/-- Where one is not, the lowest failing lane's is reported, with every failing lane. -/
theorem landing_fails {w : Wave} {lanes : List Nat} {t : Nat → Nat} {l : Nat} (hl : l ∈ lanes) (hbad : w.instrAt (t l) ≠ some .land)
    (hlow : ∀ k ∈ lanes, k < l → w.instrAt (t k) = some .land) :
    refusedOf trapLANDING ((lanes.filter fun i => !w.isLand (t i)).map fun i => (i, t i)) =
      some ⟨trapLANDING, t l, Mask.ofLanes (lanes.filter fun k => decide (w.instrAt (t k) ≠ some .land))⟩ := by
  have hfilter : (lanes.filter fun i => !w.isLand (t i)) = lanes.filter fun k => decide (w.instrAt (t k) ≠ some .land) := by
    refine List.filter_congr fun k _ => ?_
    by_cases h : w.instrAt (t k) = some .land <;> simp [Wave.isLand, h]
  rw [hfilter]
  refine refusedOf_map trapLANDING (List.mem_filter.mpr ⟨hl, decide_eq_true hbad⟩) fun k hk => ?_
  obtain ⟨hk, hkbad⟩ := List.mem_filter.mp hk
  exact not_lt.mp fun hlt => of_decide_eq_true hkbad (hlow k hk hlt)

/-- Settles O29: the check of the targets decides between the trap and the split by target. -/
theorem indirectBranchResults : Obligations.IndirectBranchResults := by
  unfold Obligations.IndirectBranchResults
  intro a b target differ alike
  have hexec (s : State) : exec (.brx a b) s = execBrx a b s := rfl
  refine ⟨fun s w p hf hu hok => ?_, fun s w p hf hu hok => ?_, fun l s w p hf hu hok => ?_, leadsTo_advance fun _ => rfl⟩ <;>
    rw [hexec, execBrx, issueWord_runs hf hu] <;>
    generalize p.stamp (.brx a b) s.slots = q at hok ⊢
  · exact if_pos hok
  · obtain ⟨hsame, hland⟩ := hok
    have hpass := landing_passes (t := w.brxTarget a b) hland
    refine (if_neg (not_not_intro hsame)).trans ?_
    simp only [hpass]
    rfl
  · obtain ⟨hsame, hl, hbad, hlow⟩ := hok
    have hfail := landing_fails (t := w.brxTarget a b) hl hbad hlow
    refine (if_neg (not_not_intro hsame)).trans ?_
    simp only [hfail]
    rfl

/-! ### Calls (R151) -/

/-- The visible regions begin the chain. -/
theorem Arch.length_visibleRegions_le (a : Arch) (chain : List Nat) : (a.visibleRegions chain).length ≤ chain.length :=
  (List.takeWhile_prefix _).length_le

/-- Settles O31: each word looks at the chain alone. -/
theorem callReturnResults : Obligations.CallReturnResults := by
  unfold Obligations.CallReturnResults
  intro o
  have hcall (s : State) : exec (.call o) s = execCall o s := rfl
  have hret (s : State) : exec .ret s = execRet s := rfl
  refine ⟨fun s w p hf hu hok => ?_, fun s w p hf hu hok => ?_, fun k below r s w p hf hu hok => ?_, fun s w p hf hu hok => ?_,
    fun s w p hf hu hok => ?_⟩
  · rw [hcall, execCall, issueWord_runs hf hu]
    exact if_neg (Nat.not_le.mpr hok)
  · rw [hcall, execCall, issueWord_runs hf hu]
    exact if_pos hok
  · obtain ⟨hvisible, hchain, hentry⟩ := hok
    rw [hchain] at hvisible
    rw [hret, execRet, issueWord_runs hf hu]
    simp only [hchain, hvisible, List.length_nil, List.drop_zero, gt_iff_lt, lt_self_iff_false, if_false, hentry]
    rfl
  · rw [hret, execRet, issueWord_runs hf hu]
    generalize p.stamp .ret s.slots = q at hok ⊢
    have hpos : 0 < (w.a.visibleRegions q.chain).length := List.length_pos_iff.mpr hok
    have hle := w.a.length_visibleRegions_le q.chain
    cases hrest : q.chain.drop (w.a.visibleRegions q.chain).length with
    | nil =>
      have hlen : q.chain.length = (w.a.visibleRegions q.chain).length := le_antisymm (List.drop_eq_nil_iff.mp hrest) hle
      simp only [hrest, if_pos hlen]
      rfl
    | cons k below =>
      have hlen : q.chain.length ≠ (w.a.visibleRegions q.chain).length := fun h => by simp [← h] at hrest
      simp only [hrest, if_neg hlen, gt_iff_lt, if_pos hpos]
      rfl
  · rw [hret, execRet, issueWord_runs hf hu]
    generalize p.stamp .ret s.slots = q at hok ⊢
    simp only [hok, List.drop_nil]
    rfl

/-! ### Regions (R143, R146-R148) -/

/-- What closing a region leaves of the entries: all where a lane has still to arrive, else those of other keys. -/
theorem Arch.mem_closeOne {a : Arch} {x e : Entry} (h : e ∈ (a.closeOne x).entries) :
    e ∈ a.entries ∧ ∀ g join pend, x = .region g join pend pend → e.key ≠ g := by
  cases x with
  | frame k r => exact ⟨h, by simp⟩
  | region g join pend arr =>
    by_cases hpend : pend = arr
    · subst hpend
      simp only [Arch.closeOne, bne_self_eq_false, Bool.false_eq_true, if_false, List.mem_filter, bne_iff_ne] at h
      obtain ⟨hmem, hkey⟩ := h
      refine ⟨hmem, fun g' join' pend' hx => ?_⟩
      injection hx with hg
      exact hg ▸ hkey
    · rw [Arch.closeOne, if_pos (by simpa using hpend)] at h
      refine ⟨h, fun g' join' pend' hx => ?_⟩
      injection hx with _ _ h1 h2
      exact absurd (h1.trans h2.symm) hpend

/-- The same of a list of them. -/
theorem Arch.mem_closeAll {es : List Entry} {a : Arch} {e : Entry} (he : e ∈ (es.foldl Arch.closeOne a).entries) :
    e ∈ a.entries ∧ ∀ g join pend, .region g join pend pend ∈ es → e.key ≠ g := by
  induction es generalizing a with
  | nil => exact ⟨he, by simp⟩
  | cons x es ih =>
    obtain ⟨hmem, hrest⟩ := ih he
    obtain ⟨hmem, hx⟩ := Arch.mem_closeOne hmem
    refine ⟨hmem, fun g join pend hin => ?_⟩
    rcases List.mem_cons.mp hin with heq | hin
    · exact hx g join pend heq.symm
    · exact hrest g join pend hin

theorem Split.waitsAt_eq (p : Split) (g : Nat) : p.waitsAt g = decide (p.status = .atJoin g) := by
  by_cases h : p.status = .atJoin g <;> simp [Split.waitsAt, h]

/-- R147: a complete region closes. -/
theorem Arch.closeOne_complete (a : Arch) (g join : Nat) (pend : Mask) (hpend : pend ≠ 0) (hwait : ∃ p ∈ a.splits, p.status = .atJoin g) :
    let b := a.closeOne (.region g join pend pend)
    (∀ e ∈ b.entries, e.key ≠ g) ∧ (∀ p ∈ b.splits, p.status ≠ .atJoin g) ∧
    (∃ m rest, b.splits = m :: rest ∧ m.lanes = pend ∧ m.pc = (join + 4) % 2 ^ 64 ∧ m.status = .ready ∧
      (rest = a.splits.filter fun p => !decide (p.status = .atJoin g)) ∧
      (∀ first more, a.splits.filter (fun p => decide (p.status = .atJoin g)) = first :: more → m.chain = first.chain.tail) ∧
      ∀ c, c ∈ m.board ↔ ∃ p ∈ a.splits, p.status = .atJoin g ∧ c ∈ p.board) ∧
    b.vregs = a.vregs ∧ b.sregs = a.sregs ∧ b.preds = a.preds ∧ b.live = a.live := by
  obtain ⟨p, hp, hpg⟩ := hwait
  have hwaiting : (a.splits.filter fun p => decide (p.status = .atJoin g)) ≠ [] :=
    List.ne_nil_of_mem (List.mem_filter.mpr ⟨hp, decide_eq_true hpg⟩)
  have hclosed : (a.closeOne (.region g join pend pend)).splits =
      ⟨pend, (join + 4) % 2 ^ 64, (((a.splits.filter fun p => decide (p.status = .atJoin g)).head?.map fun p => p.chain.tail)).getD [],
        (a.splits.filter fun p => decide (p.status = .atJoin g)).flatMap Split.board, .ready,
        (a.splits.filter fun p => decide (p.status = .atJoin g)).flatMap Split.interval, 0, 0⟩ ::
        a.splits.filter fun p => !decide (p.status = .atJoin g) := by
    simp [Arch.closeOne, Split.waitsAt_eq, hpend]
    exact ⟨hpend, p, hp, hpg⟩
  refine ⟨fun e he => (Arch.mem_closeOne he).2 g join pend rfl, fun q hq => ?_, ⟨_, _, hclosed, rfl, rfl, rfl, rfl, fun first more h => ?_, fun c => ?_⟩, ?_⟩
  · rw [hclosed] at hq
    rcases List.mem_cons.mp hq with rfl | hq
    · simp
    · simpa using (List.mem_filter.mp hq).2
  · simp [h]
  · simp [List.mem_flatMap, and_assoc]
  · simp [Arch.closeOne]

/-- Settles O30: `split`, `join` and `brk` each change the entries as their rule says; closing drops the entries of complete regions. -/
theorem regionWordsAndClosing : Obligations.RegionWordsAndClosing := by
  unfold Obligations.RegionWordsAndClosing
  refine ⟨?_, fun a g join pend arr => ⟨fun h => ?_, fun h hpend hwait => ?_, fun h hpend => ?_⟩, fun a => ⟨rfl, fun g join pend arr he => ?_, rfl, fun e => ?_⟩⟩
  · intro o n visible
    have hsplit (s : State) : exec (.split o) s = execSplit o s := rfl
    have hjoin (s : State) : exec .join s = execJoin s := rfl
    have hbrk (s : State) : exec (.brk n o) s = execBrk n o s := rfl
    refine ⟨fun s w p hf hu hok => ?_, fun s w p hf hu hok => ?_, fun s w p hf hu hok => ?_, fun g rest s w p hf hu hok => ?_,
      fun s w p hf hu hok => ?_, fun s w p hf hu hok => ?_⟩
    · rw [hsplit, execSplit, issueWord_runs hf hu]
      exact if_neg (Nat.not_le.mpr hok)
    · rw [hsplit, execSplit, issueWord_runs hf hu]
      exact if_pos hok
    · rw [hjoin, execJoin, issueWord_runs hf hu]
      simp only [show w.a.visibleRegions _ = [] from hok]
      rfl
    · rw [hjoin, execJoin, issueWord_runs hf hu]
      generalize p.stamp .join s.slots = q at hok ⊢
      simp only [show w.a.visibleRegions _ = g :: rest from hok]
      let v := w.setSplit { q with status := .atJoin g }
      refine congrArg (fun es => Host.Outcome.next
        (s.putWave ({ v with a := { v.a with entries := es }.closeRegions }.retire q))) (List.map_congr_left fun e _ => ?_)
      cases e with
      | frame k r => rfl
      | region k j pend arr => by_cases hk : k = g <;> simp [hk]
    · rw [hbrk, execBrk, issueWord_runs hf hu]
      exact if_neg (Nat.not_lt.mpr hok)
    · rw [hbrk, execBrk, issueWord_runs hf hu]
      exact if_pos hok
  · simp [Arch.closeOne, h]
  · subst h
    exact a.closeOne_complete g join pend hpend hwait
  · subst h
    refine ⟨fun e he => (Arch.mem_closeOne he).2 g join pend rfl, ?_⟩
    simp [Arch.closeOne, Split.waitsAt_eq, hpend]
  · obtain ⟨hmem, hnot⟩ := Arch.mem_closeAll (List.mem_filter.mp he).1
    refine ⟨hmem, fun hpend => ?_⟩
    subst hpend
    exact hnot g join pend hmem rfl
  · simp [Arch.collect]

end Sys2Proof.Machine
end

section
/-! Mode registers, sections and sleep (O34, O36). -/

namespace Sys2Proof.Machine

/-- The word of a field above zero bits. -/
theorem toNat_append_zero {m n : Nat} (x : BitVec m) : (x ++ 0#n).toNat = 2 ^ n * x.toNat := by
  rw [BitVec.toNat_append]
  simp [Nat.shiftLeft_eq, Nat.mul_comm]

theorem modeValue_eq (i : BitVec 16) : modeValue i = BitVec.ofNat 64 (256 * i.toNat) := by
  refine BitVec.eq_of_toNat_eq ?_
  simp only [modeValue, BitVec.toNat_setWidth, toNat_append_zero, BitVec.toNat_ofNat]
  rfl

theorem modxValue_eq (i : BitVec 21) : modxValue i = BitVec.ofNat 64 (8 * i.toNat) := by
  refine BitVec.eq_of_toNat_eq ?_
  simp only [modxValue, BitVec.toNat_setWidth, toNat_append_zero, BitVec.toNat_ofNat]
  rfl

/-- A word with nothing on its scoreboard. -/
@[simp] theorem Split.busy_nil (p : Split) : p.busy [] = p := by
  simp [Split.busy]

/-- A word whose one effect is on its wave. -/
theorem leadsTo_afterWord {i : Instr} {ok : State → Wave → Split → Prop} {f : Wave → Split → Wave} {e : State → Result}
    (hexec : ∀ s, exec i s = e s)
    (h : ∀ s w p, s.fronts w p → s.unhindered w p i = true → ok s w (p.stamp i s.slots) →
      e s = s.done (f w (p.stamp i s.slots)) (p.stamp i s.slots)) : leadsTo i ok (afterWord f []) := by
  intro s w p hf hu hok
  rw [hexec, h s w p hf hu hok, afterWord, Split.busy_nil]
  rfl

/-- Settles O34: each word reads its copies or its immediate, and puts them in their place. -/
theorem modeSeedAndInjectResults : Obligations.ModeSeedAndInjectResults := by
  unfold Obligations.ModeSeedAndInjectResults
  refine ⟨⟨fun i => ?_, fun i => ?_, fun w => ⟨fun i => ?_, fun i => ?_⟩, fun a b => ⟨?_, ?_⟩, ?_, ?_, ?_⟩, fun d a b => ⟨?_, ?_⟩⟩
  · refine leadsTo_afterWord (e := execMode i) (fun _ => rfl) fun s w p hf hu _ => ?_
    rw [execMode, issueWord_runs hf hu, modeValue_eq]
  · refine leadsTo_afterWord (e := execModx i) (fun _ => rfl) fun s w p hf hu _ => ?_
    rw [execModx, issueWord_runs hf hu, modxValue_eq]
  · exact Wave.mustWait_of_no_registers rfl rfl rfl
  · exact Wave.mustWait_of_no_registers rfl rfl rfl
  · refine leadsTo_afterWord (e := execSeed a b) (fun _ => rfl) fun s w p hf hu hok => ?_
    rw [execSeed, issueWord_runs hf hu]
    obtain ⟨ha, hb⟩ := hok
    exact if_neg (not_or.mpr ⟨not_not_intro ha, not_not_intro hb⟩)
  · intro s w p hf hu hok
    change execSeed a b s = _
    rw [execSeed, issueWord_runs hf hu]
    exact if_pos hok
  · intro s w p hf hu hok
    change execNsclr s = _
    rw [execNsclr, issueWord_runs hf hu]
    exact if_pos hok
  · refine leadsTo_afterWord (e := execNsclr) (fun _ => rfl) fun s w p hf hu hok => ?_
    rw [execNsclr, issueWord_runs hf hu]
    exact if_neg (by simpa using hok)
  · refine leadsTo_afterWord (e := execNop) (fun _ => rfl) fun s w p hf hu _ => ?_
    rw [execNop, issueWord_runs hf hu]
  · refine leadsTo_afterWord (e := execInject d a b) (fun _ => rfl) fun s w p hf hu hok => ?_
    rw [execInject, issueWord_runs hf hu]
    obtain ⟨hl, hk⟩ := hok
    exact if_neg (not_or.mpr ⟨Nat.not_le.mpr hl, Nat.not_le.mpr hk⟩)
  · intro s w p hf hu hok
    change execInject d a b s = _
    rw [execInject, issueWord_runs hf hu]
    exact if_pos hok

/-! ### Sections and sleep (R260, R261) -/

theorem Wave.preoff_self {w : Wave} {x : Preoff} (h : w.preoff = some x) : { w with preoff := some x } = w := by
  rw [← h]

/-- The wave that issues is found by its key. -/
theorem State.wave?_of_fronts {s : State} {w : Wave} {p : Split} (h : s.fronts w p) : s.wave? w.key = some w := by
  obtain ⟨ws, hws⟩ := List.head?_eq_some_iff.mp h.1
  simp [State.wave?, hws]

/-- Outside deterministic mode a word ends no visit. -/
theorem State.visitWord_putWave {s : State} {w v : Wave} {p : Split} (hf : s.fronts w p) (hdet : s.deterministic w = false)
    (hkey : v.key = w.key) (hlaunch : v.launch = w.launch) : (s.putWave v).visitWord w.key = s.putWave v := by
  have hfound : (s.putWave v).wave? v.key = some v :=
    State.wave?_putWave (by rw [hkey, State.wave?_of_fronts hf]; rfl)
  have hdet' : (s.putWave v).deterministic v = false := by rw [← hdet, State.deterministic, State.deterministic, hlaunch]; rfl
  rw [State.visitWord, ← hkey, hfound]
  simp [hdet']

/-- Settles O36: each word looks at the section, the mode and its immediate. -/
theorem sectionAndSleepResults : Obligations.SectionAndSleepResults := by
  unfold Obligations.SectionAndSleepResults
  refine ⟨?_, ?_, ?_, ?_⟩
  · intro i count left opened
    refine ⟨fun s w p hf hu hok => ?_, fun x s w p hf hu hok => ?_, fun x s w p hf hu hok => ?_, fun s w p hf hu hok => ?_,
      fun s w p hf hu hok => ?_, fun s w p hf hu hok => ?_⟩
    · change execPreoff i s = _
      rw [execPreoff, issueWord_runs hf hu]
      simp only [hok]
      rfl
    · obtain ⟨hx, hlt⟩ := hok
      change execPreoff i s = _
      rw [execPreoff, issueWord_runs hf hu]
      simp only [hx]
      exact congrArg (fun y => s.done { w with preoff := some y } _) (if_pos hlt)
    · obtain ⟨hx, hle⟩ := hok
      change execPreoff i s = _
      rw [execPreoff, issueWord_runs hf hu]
      simp only [hx]
      refine (congrArg (fun y => s.done { w with preoff := some y } _) (if_neg (Nat.not_lt.mpr hle))).trans ?_
      rw [Wave.preoff_self hx]
      rfl
    · obtain ⟨hdet, hi⟩ := hok
      change execSleep i s = _
      rw [execSleep, issueWord_runs hf hu]
      simp only [hdet, Bool.false_eq_true, if_false]
      exact if_neg hi
    · obtain ⟨hdet, hi⟩ := hok
      change execSleep i s = _
      rw [execSleep, issueWord_runs hf hu]
      simp only [hdet, Bool.false_eq_true, if_false]
      exact (if_pos hi).trans (congrArg _ (State.visitWord_putWave hf hdet rfl rfl))
    · change execSleep i s = _
      rw [execSleep, issueWord_runs hf hu]
      exact if_pos hok
  · refine leadsTo_afterWord (e := execPreon) (fun _ => rfl) fun s w p hf hu _ => ?_
    rw [execPreon, issueWord_runs hf hu]
  · intro s w p hf hu hok
    change execYield s = _
    rw [execYield, issueWord_runs hf hu]
    exact congrArg _ (State.visitWord_putWave hf hok rfl rfl)
  · intro s w p hf hu hok
    change execYield s = _
    rw [execYield, issueWord_runs hf hu]
    rfl

end Sys2Proof.Machine
end

section
/-! Region heads and barriers (O37, O38). -/

namespace Sys2Proof.Machine

/-! ### What a checkpoint holds (R244) -/

/-- An entry of a list of which some entries are replaced by a default. -/
theorem nth_liveIn {α : Type} (l : List α) (live : Nat → Bool) (zero x : α) {k : Nat} (hk : k < l.length) :
    nth (l.zipIdx.map fun y => if live y.2 then y.1 else zero) k x = if live k = true then nth l k x else zero := by
  simp [nth, hk]

/-- A split as a checkpoint records it stands in no interval. -/
theorem Split.recorded_interval (q : Split) (keep : Bool) : (q.recorded keep).interval = [] := by
  unfold Split.recorded
  cases q.status <;> cases keep <;> rfl

/-- A fault is due only where one is pending. -/
theorem Wave.due_none {w : Wave} {ok : Bool → Deferred → Bool} (he : w.engineFault = none) (hm : w.matFault = none) : w.due ok = none := by
  simp [Wave.due, he, hm]

theorem Wave.headReady_iff (w : Wave) : w.headReady = true ↔ w.settled = true ∧ w.intervalsClear w.a.splits.tail = true := by
  simp [Wave.headReady]

/-- Settles O37: the waits, the pending fault and system mode decide what a head does; the checkpoint is read field by field. -/
theorem regionHeadResults : Obligations.RegionHeadResults := by
  unfold Obligations.RegionHeadResults
  refine ⟨?_, fun w r pc lane keep => ?_⟩
  · intro i ready clean
    have hexec (s : State) : exec (.rgn i) s = execRgn i s := rfl
    refine ⟨fun s w p hf hu hok => ?_, fun s w p hf hu hok => ?_, fun s w p hf hu hok => ?_, fun x s w p hf hu hok => ?_,
      fun x s w p hf hu hok => ?_⟩
    · rw [hexec, execRgn, issueWord_runs hf hu]
      have hnot : w.headReady = false := eq_false_of_ne_true fun h => hok (w.headReady_iff.mp h)
      exact if_pos (by rw [hnot]; rfl)
    · obtain ⟨hready, ⟨he, hm⟩, hsystem⟩ := hok
      rw [hexec, execRgn, issueWord_runs hf hu]
      simp only [w.headReady_iff.mpr hready, Wave.due_none he hm, hsystem]
      rfl
    · obtain ⟨hready, ⟨he, hm⟩, hsystem⟩ := hok
      rw [hexec, execRgn, issueWord_runs hf hu]
      simp only [w.headReady_iff.mpr hready, Wave.due_none he hm, hsystem]
      rfl
    · obtain ⟨hready, hdue⟩ := hok
      rw [hexec, execRgn, issueWord_runs hf hu]
      simp only [w.headReady_iff.mpr hready, hdue]
      rfl
    · obtain ⟨hready, hdue⟩ := hok
      rw [hexec, execRgn, issueWord_runs hf hu]
      simp only [w.headReady_iff.mpr hready, hdue]
      rfl
  · refine ⟨_, rfl, rfl, rfl, rfl, rfl, rfl, rfl, rfl, rfl, rfl, rfl, fun q hq => ?_, ?_, fun k => ⟨?_, ?_, ?_, ?_, fun t ht => ⟨?_, ?_⟩⟩⟩
    · obtain ⟨q', -, rfl⟩ := List.mem_map.mp hq
      exact q'.recorded_interval keep
    · refine List.map_congr_left fun q _ => ?_
      cases lane <;> simp [Wave.recordsPast]
    · exact nth_liveIn w.a.sregs _ 0 0
    · exact nth_liveIn w.a.sshadow _ 0 0
    · exact nth_liveIn w.a.preds _ 0 0
    · exact nth_liveIn w.a.vregs _ _ _
    · subst ht
      exact nth_liveIn w.a.tiles _ _ _
    · subst ht
      exact nth_liveIn w.a.twins _ _ _

/-! ### Barriers (R28, R248) -/

/-- A split that waits at barrier 0 in an interval, and has no lane. -/
def emptySplitAtBarrier : Split := { Split.new 0 0x10000 with status := .atBar 0 0, interval := [5] }

/-- The wave of log 2, on a word that is no `rgn`, with that split as its only one. -/
def waveWithEmptySplit : Wave :=
  { placedWave 0xDC000000 with a := { (placedWave 0xDC000000).a with splits := [emptySplitAtBarrier] } }

/-- The barrier's checkpoint closes the interval of the split that holds a lane: of none here. -/
theorem waveWithEmptySplit_interval :
    (waveWithEmptySplit.passBarrier 0 false false).a.splits.map Split.interval = [[5]] := by
  decide +kernel

/-- Refutes O38: its clause about a wave that goes on after its `bar` has the interval closed outside system mode, in every wave. The checkpoint closes the
interval of the split that holds the lowest lane of the split that waited: where that split has no lane there is none. No run comes to a split without
lanes; the clause does not ask for one with lanes. -/
theorem not_barrierResults : ¬Obligations.BarrierResults := by
  unfold Obligations.BarrierResults
  intro h
  obtain ⟨-, -, -, passes, -⟩ := h 0 0
  obtain ⟨hsplits, -⟩ := passes waveWithEmptySplit emptySplitAtBarrier false false rfl rfl
  have hinterval := (congrArg (List.map Split.interval) hsplits).symm.trans waveWithEmptySplit_interval
  exact absurd hinterval (by decide +kernel)

end Sys2Proof.Machine
end

section
/-! Integer vector arithmetic (O10): the rows of a class-C word in an integer form, their flags and their words. -/

namespace Sys2Proof.Machine

/-! ### Integer forms -/

/-- What an integer or index compute form of n bits is: its kind, width and range. -/
def intForm (f : Fmt) (n : Nat) (signed : Bool) : Prop :=
  f.kind = (if signed then .int else .index) ∧ f.bits = n ∧
    f.range = (if signed then (-(2 ^ (n - 1)), 2 ^ (n - 1) - 1) else (0, 2 ^ n - 1)) ∧ 0 < n ∧
    ∀ code, f.valOf code = Val.ofInt (f.intOf code)

/-- The three compute forms that are no real form. -/
theorem intForm_of_mem {f : Fmt} {n : Nat} {signed : Bool}
    (h : (f, n, signed) ∈ [(Fmt.i32, 32, true), (.i16, 16, true), (.n32, 32, false)]) : intForm f n signed := by
  simp only [List.mem_cons, List.not_mem_nil, or_false, Prod.mk.injEq] at h
  rcases h with ⟨rfl, rfl, rfl⟩ | ⟨rfl, rfl, rfl⟩ | ⟨rfl, rfl, rfl⟩ <;>
    exact ⟨rfl, rfl, by decide, by decide, fun _ => rfl⟩

theorem intForm.not_real {f : Fmt} {n : Nat} {signed : Bool} (h : intForm f n signed) : f.kind ≠ .real := by
  rw [h.1]
  cases signed <;> decide

/-- The integer an n-bit code stands for. -/
def intOfWord (n : Nat) (signed : Bool) (x : Word32) : Int :=
  if signed then (BitVec.ofNat n x.toNat).toInt else (BitVec.ofNat n x.toNat).toNat

@[simp] theorem Val.toInt_ofInt (z : Int) : (Val.ofInt z).toInt = z := by
  by_cases h : z < 0
  · simp [Val.ofInt, Val.toInt, h, abs_of_neg h]
  · simp [Val.ofInt, Val.toInt, h, abs_of_nonneg (not_lt.mp h)]

/-- What an integer operand reads. -/
theorem Wave.srcVal_toInt {w : Wave} {n : Nat} {signed : Bool} (hform : intForm w.C.compute n signed) (a : Byte) (l : Nat) :
    (w.srcVal a (.cls w.C) l).toInt = intOfWord n signed (w.src a (.cls w.C) l) := by
  obtain ⟨hkind, hbits, -, hn, hval⟩ := hform
  obtain ⟨m, rfl⟩ := Nat.exists_eq_succ_of_ne_zero hn.ne'
  simp only [Wave.srcVal, Form.fmt, hbits, hval, Val.toInt_ofInt, Fmt.intOf, hkind, intOfWord]
  rw [← BitVec.toNat_ofNat]
  cases signed with
  | true => exact intOfCode_toNat _
  | false => simp [intOfCode, Nat.mod_eq_of_lt (BitVec.isLt _)]

/-! ### Forming an integer (R49) -/

/-- An exact integer as the form of range lo to hi writes it. -/
def intWord (n : Nat) (lo hi : Int) (sat : Bool) (z : Int) : Word32 :=
  BitVec.ofNat 32 (((if sat = true then max lo (min hi z) else z) % 2 ^ n).toNat)

theorem Fmt.saturate_eq {f : Fmt} {lo hi : Int} (hrange : f.range = (lo, hi)) (hle : lo ≤ hi) (z : Int) :
    (f.saturate z).1 = max lo (min hi z) := by
  simp only [Fmt.saturate, hrange]
  split
  · omega
  · split <;> omega

/-- R49: the usual forming of an integer wraps or saturates, and raises the saturation flag alone, outside the range. -/
theorem Wave.usual_ofInt {w : Wave} {n : Nat} {lo hi : Int} (hkind : w.C.compute.kind ≠ .real) (hbits : w.C.compute.bits = n)
    (hrange : w.C.compute.range = (lo, hi)) (hle : lo ≤ hi) (i : Nat) (z : Int) :
    w.usual i (Val.ofInt z) = ⟨intWord n lo hi (mrSat w.a.mr) z, flagIf (decide (z < lo ∨ hi < z)) nsSat⟩ := by
  have hform (ctl : RoundCtl) : w.formResult w.C.compute ctl (Val.ofInt z) =
      ⟨BitVec.ofNat 32 (w.C.compute.reduce (mrSat w.a.mr) (Val.ofInt z).toInt).1,
        flagIf (w.C.compute.reduce (mrSat w.a.mr) (Val.ofInt z).toInt).2 nsSat⟩ := by
    unfold Wave.formResult
    split
    · contradiction
    · rfl
  rw [Wave.usual, hform, Val.toInt_ofInt]
  simp only [Fmt.reduce, hrange, hbits, Fmt.saturate_eq hrange hle, codeOfInt, intWord, gt_iff_lt]

/-! ### The rows of a class-C word -/

/-- Of entries made from lanes, one each, the lane's own is found. -/
theorem find?_map_keyed {α : Type} {g : Nat → α} {key : α → Nat} (hg : ∀ i, key (g i) = i) {lanes : List Nat} {l : Nat} (hl : l ∈ lanes) :
    (lanes.map g).find? (fun r => key r == l) = some (g l) := by
  have hfind : lanes.find? ((fun r => key r == l) ∘ g) = some l := by
    cases h : lanes.find? ((fun r => key r == l) ∘ g) with
    | none => exact absurd (List.find?_eq_none.mp h l hl) (by simp [hg])
    | some k =>
      have hk := List.find?_some h
      simp only [Function.comp_apply, hg, beq_iff_eq] at hk
      rw [hk]
  rw [List.find?_map, hfind]
  rfl

/-- The row of an active lane. -/
theorem rowOf_map {g : Nat → LaneRow} (hg : ∀ i, (g i).lane = i) {lanes : List Nat} {l : Nat} (hl : l ∈ lanes) :
    rowOf (lanes.map g) l = g l := by
  rw [rowOf, find?_map_keyed hg hl]
  rfl

/-- The range test looks at the values of its lanes alone. -/
theorem Wave.outsideLanes_congr (w : Wave) (c : ClassRec) {lanes : List Nat} {v v' : Nat → Val} (h : ∀ l ∈ lanes, v l = v' l) :
    w.outsideLanes c lanes v = w.outsideLanes c lanes v' := by
  unfold Wave.outsideLanes
  split
  · refine List.filter_congr fun i _ => ?_
    have hpeers : (lanes.filter fun k => w.visible k / 32 == w.visible i / 32 && w.isShadow k == w.isShadow i).map v =
        (lanes.filter fun k => w.visible k / 32 == w.visible i / 32 && w.isShadow k == w.isShadow i).map v' :=
      List.map_congr_left fun k hk => h k (List.mem_filter.mp hk).1
    simp only [hpeers]
  · exact List.filter_congr fun i hi => by rw [h i hi]

/-- A flag is set once a row sets it. -/
theorem getLsbD_foldl_flags (rows : List LaneRow) (init : BitVec 7) (k : Nat) :
    (rows.foldl (fun acc r => acc ||| r.flags) init).getLsbD k = (init.getLsbD k || rows.any fun r => r.flags.getLsbD k) := by
  induction rows generalizing init with
  | nil => simp
  | cons r rows ih => rw [List.foldl_cons, ih, BitVec.getLsbD_or, List.any_cons, Bool.or_assoc]

/-- The rows of a class-C word whose lanes compute integers: each lane's value, its word and the saturation flag. -/
theorem Wave.classRows_ofInt {w : Wave} {n : Nat} {lo hi : Int} (hkind : w.C.compute.kind ≠ .real) (hbits : w.C.compute.bits = n)
    (hrange : w.C.compute.range = (lo, hi)) (hle : lo ≤ hi) (on : Mask) {exact : Nat → Exact} {z : Nat → Int}
    (hz : ∀ l, exact l = ⟨Val.ofInt (z l), 0⟩) :
    w.classRows on exact w.usual = (w.list on).map fun l =>
      ⟨l, Val.ofInt (z l), intWord n lo hi (mrSat w.a.mr) (z l), flagIf (decide (z l < lo ∨ hi < z l)) nsSat⟩ := by
  refine List.map_congr_left fun l _ => ?_
  simp [hz, Wave.usual_ofInt hkind hbits hrange hle]

/-- The saturation flag is flag 5 alone. -/
theorem flagIf_nsSat_getLsbD (c : Bool) (k : Nat) : (flagIf c nsSat).getLsbD k = (c && decide (k = 5)) := by
  cases c with
  | false => simp [flagIf]
  | true =>
    by_cases hk : k < 7
    · interval_cases k <;> rfl
    · have hne : k ≠ 5 := by omega
      simp [flagIf, hne, BitVec.getLsbD_of_ge _ _ (not_lt.mp hk)]

section
variable {w : Wave} {n : Nat} {lo hi : Int} {on : Mask} {exact : Nat → Exact} {z : Nat → Int}
  (hkind : w.C.compute.kind ≠ .real) (hbits : w.C.compute.bits = n) (hrange : w.C.compute.range = (lo, hi)) (hle : lo ≤ hi)
  (hz : ∀ l, exact l = ⟨Val.ofInt (z l), 0⟩)
include hkind hbits hrange hle hz

/-- R85: such a word takes no trap where the range test finds no lane, for it raises no invalid flag. -/
theorem Wave.classTrap_ofInt
    (hrng : w.kern.traponrng = true → w.outsideLanes w.C (w.list on) (fun l => Val.ofInt (z l)) = []) :
    w.classTrap (w.classRows on exact w.usual) = none := by
  rw [Wave.classRows_ofInt hkind hbits hrange hle on hz]
  set g : Nat → LaneRow := fun l =>
    ⟨l, Val.ofInt (z l), intWord n lo hi (mrSat w.a.mr) (z l), flagIf (decide (z l < lo ∨ hi < z l)) nsSat⟩ with hg
  have hbad : w.classBad ((w.list on).map g) = w.outsideLanes w.C (w.list on) fun l => Val.ofInt (z l) := by
    rw [Wave.classBad, List.map_map, show LaneRow.lane ∘ g = id from rfl, List.map_id]
    exact w.outsideLanes_congr w.C fun l hl => by rw [rowOf_map (fun _ => rfl) hl]
  have hinv : (((w.list on).map g).filter fun r => hasInvalid r.flags) = [] := by
    refine List.filter_eq_nil_iff.mpr fun r hr => ?_
    obtain ⟨l, -, rfl⟩ := List.mem_map.mp hr
    simp only [hg, hasInvalid, flagIf_nsSat_getLsbD]
    simp
  simp only [Wave.classTrap, hbad, hinv, List.isEmpty_nil, Bool.not_true, Bool.and_false, Bool.false_eq_true, if_false]
  split
  next h =>
    obtain ⟨htrapon, hnonempty⟩ := Bool.and_eq_true_iff.mp h
    simp [hrng htrapon] at hnonempty
  next => rfl

/-- R49, R64: it raises saturation where a lane lay outside the form. -/
theorem Wave.classFlags_ofInt_sat :
    (w.classFlags (w.classRows on exact w.usual)).getLsbD 5 = (w.list on).any fun l => decide (z l < lo ∨ hi < z l) := by
  rw [Wave.classFlags, getLsbD_foldl_flags, Wave.classRows_ofInt hkind hbits hrange hle on hz, List.any_map]
  have hrange5 (c : Bool) : (flagIf c nsRange).getLsbD 5 = false := by cases c <;> rfl
  simp only [hrange5, Bool.false_or, Function.comp_def, flagIf_nsSat_getLsbD, decide_true, Bool.and_true]

/-- It writes each active lane's word. -/
theorem rowOf_ofInt_bits {l : Nat} (hl : l ∈ w.list on) :
    (rowOf (w.classRows on exact w.usual) l).bits = intWord n lo hi (mrSat w.a.mr) (z l) := by
  rw [Wave.classRows_ofInt hkind hbits hrange hle on hz, rowOf_map (fun _ => rfl) hl]

end

theorem Wave.mem_list {w : Wave} {m : Mask} {l : Nat} : l ∈ w.list m ↔ l < w.W ∧ m.has l = true := by
  simp [Wave.list, Mask.lanes]

/-- Clearing errors changes no wave. -/
theorem State.clearErrors_waves (s : State) (w : Wave) (gone : ErrSite → Bool) : (s.clearErrors w gone).waves = s.waves :=
  foldl_keeps (g := State.waves) (fun s _ => s.logIntegrity_waves _) _ _

/-- What a class-C word leaves at the front, where it advances no counter: flags, and lanes. -/
theorem State.classNext_front {s : State} {w : Wave} {p : Split} (hf : s.fronts w p) (q : Split) (d : Nat) (on : Mask)
    (rows : List LaneRow) (t : Tag) :
    ∃ v, (s.classNext w q d on rows t false).waves.head? = some v ∧ v.key = w.key ∧ v.a.ns = w.a.ns ||| w.classFlags rows ∧
      ∀ l, l < (w.vreg d).lanes.length → d < w.a.vregs.length → v.V_ d l = if on.has l = true then (rowOf rows l).bits else w.V_ d l := by
  obtain ⟨ws, hws⟩ := List.head?_eq_some_iff.mp hf.1
  let u := (w.flags (w.classFlags rows)).writeV d on (fun i => (rowOf rows i).bits) t
  refine ⟨u.advance (q.busy [d]), ?_, rfl, rfl, fun l hl hd => ?_⟩
  · change (((s.clearWritten u d on).putWave (u.advance (q.busy [d]))).waves).head? = _
    have hkey : (w.key == (u.advance (q.busy [d])).key) = true := beq_self_eq_true w.key
    rw [State.putWave_waves, State.clearWritten, State.clearErrors_waves, hws, List.map_cons, List.head?_cons, if_pos hkey]
  · change u.V_ d l = _
    exact Wave.V_writeV (w.flags (w.classFlags rows)) on _ t hd hl

/-- A formed integer word, in full. -/
theorem formedWord_integer {i : Instr} {d a b : Byte} {real : Bool → Val → Val → Exact} {f : Int → Int → Int} {tag : Wave → Tag}
    (hword : formedWord i d (binaryExact a b real fun x y => ⟨Val.ofInt (f x y), 0⟩) tag) {s : State} {w : Wave} {p : Split} {n : Nat}
    {signed : Bool} {lo hi : Int} (hform : intForm w.C.compute n signed) (hrange : w.C.compute.range = (lo, hi)) (hle : lo ≤ hi)
    (hf : s.fronts w p) (hu : s.unhindered w p i = true) {z : Nat → Int}
    (hzdef : ∀ l, z l = f (intOfWord n signed (w.src a (.cls w.C) l)) (intOfWord n signed (w.src b (.cls w.C) l)))
    (hrng : w.kern.traponrng = true → w.outsideLanes w.C (w.list (w.active p)) (fun l => Val.ofInt (z l)) = []) :
    ∃ t v, exec i s = .next t ∧ t.waves.head? = some v ∧ v.key = w.key ∧
      (v.a.ns.getLsbD 5 = (w.a.ns.getLsbD 5 || (w.list (w.active p)).any fun l => decide (z l < lo ∨ hi < z l))) ∧
      ∀ l, l < w.W → l < (w.vreg d.toNat).lanes.length → d.toNat < w.a.vregs.length →
        v.V_ d.toNat l = if (w.active p).has l then intWord n lo hi (mrSat w.a.mr) (z l) else w.V_ d.toNat l := by
  set exact := binaryExact a b real (fun x y => (⟨Val.ofInt (f x y), 0⟩ : Exact)) w p with hexact
  have hz (l : Nat) : exact l = ⟨Val.ofInt (z l), 0⟩ := by
    simp only [hexact, binaryExact, if_neg hform.not_real, Wave.srcVal_toInt hform, hzdef]
  have htrap := Wave.classTrap_ofInt hform.not_real hform.2.1 hrange hle hz hrng
  have hexec := hword.1 s w p hf hu
  have hactive : w.active (p.stamp i s.slots) = w.active p := by simp [Wave.active]
  simp only [hactive] at hexec
  have hbump : (w.C.compute.kind == .real) = false := by simpa using hform.not_real
  obtain ⟨v, hhead, hkey, hns, hlanes⟩ :=
    State.classNext_front hf (p.stamp i s.slots) d.toNat (w.active p) (w.classRows (w.active p) exact w.usual) (tag w)
  refine ⟨_, v, hexec htrap, ?_, hkey, ?_, fun l hl hlen hd => ?_⟩
  · rw [← hhead]
    simp only [hbump]
    rfl
  · rw [hns, BitVec.getLsbD_or, Wave.classFlags_ofInt_sat hform.not_real hform.2.1 hrange hle hz]
  · rw [hlanes l hlen hd]
    split
    next hon => rw [rowOf_ofInt_bits hform.not_real hform.2.1 hrange hle hz (Wave.mem_list.mpr ⟨hl, hon⟩)]
    next => rfl

/-- Settles O10: the three words are formed words (O8) of integers. -/
theorem integerVectorArithmeticWraps : Obligations.IntegerVectorArithmeticWraps := by
  unfold Obligations.IntegerVectorArithmeticWraps
  intro s w p d a b i f n signed hi hmem int exact lo hi' word hf hu hrng
  have hform := intForm_of_mem hmem
  have hrange : w.C.compute.range = (lo, hi') := by
    rw [hform.2.2.1]
    cases signed <;> rfl
  have hle : lo ≤ hi' := by
    have : (1 : Int) ≤ 2 ^ (n - 1) := one_le_pow₀ (by decide)
    have : (1 : Int) ≤ 2 ^ n := one_le_pow₀ (by decide)
    cases signed <;> simp only [lo, hi', if_true, Bool.false_eq_true, if_false] <;> omega
  obtain ⟨hadd, hsub, hmul, -⟩ := vectorArithmeticResults d a b
  rcases hi with ⟨rfl, rfl⟩ | ⟨rfl, rfl⟩ | ⟨rfl, rfl⟩
  · exact formedWord_integer hadd hform hrange hle hf hu (fun _ => rfl) hrng
  · exact formedWord_integer hsub hform hrange hle hf hu (fun _ => rfl) hrng
  · exact formedWord_integer hmul hform hrange hle hf hu (fun _ => rfl) hrng

end Sys2Proof.Machine
end

section
/-! Division, roots, exponent and logarithm (O9): what the integer roots and the digit loops of R166 compute. -/

namespace Sys2Proof.Machine

theorem bne_eq_decide_ne (a b : Nat) : (a != b) = decide (a ≠ b) := by
  by_cases h : a = b <;> simp [h]

/-! ### The integer square root -/

/-- The bits below `fuel` of a root complete it. -/
theorem isqrtAux_spec (fuel n r : Nat) (hlo : r * r ≤ n) (hhi : n < (r + 2 ^ fuel) * (r + 2 ^ fuel)) :
    isqrtAux fuel n r * isqrtAux fuel n r ≤ n ∧ n < (isqrtAux fuel n r + 1) * (isqrtAux fuel n r + 1) := by
  induction fuel generalizing r with
  | zero => exact ⟨hlo, by simpa [isqrtAux] using hhi⟩
  | succ fuel ih =>
    simp only [isqrtAux]
    split
    next h => exact ih _ h (by rwa [Nat.add_assoc, ← two_mul, ← pow_succ'])
    next h => exact ih _ hlo (not_le.mp h)

/-- ⌊√n⌋. -/
theorem isqrt_spec (n : Nat) : isqrt n * isqrt n ≤ n ∧ n < (isqrt n + 1) * (isqrt n + 1) := by
  refine isqrtAux_spec _ n 0 (Nat.zero_le n) ?_
  rw [Nat.zero_add, ← pow_add]
  exact Nat.lt_log2_self.trans_le (Nat.pow_le_pow_right (by decide) (by omega))

/-- The root of what is large enough is large. -/
theorem le_isqrt {a n : Nat} (h : a * a ≤ n) : a ≤ isqrt n := by
  obtain ⟨-, hlt⟩ := isqrt_spec n
  exact Nat.lt_succ_iff.mp (Nat.mul_self_lt_mul_self_iff.mp (h.trans_lt hlt))

/-! ### Quotients and roots (R166) -/

/-- The quotient: more than 80 bits, and whether anything is left. -/
theorem quotient_spec (n n' : Bool) (m m' : Nat) (e e' : Int) (hm : m ≠ 0) (hm' : m' ≠ 0) :
    ∃ q r k : Nat, divReal (.num n m e false) (.num n' m' e' false) = ⟨.num (n != n') q (e - e' - k) (decide (r ≠ 0)), 0⟩ ∧
      m * 2 ^ k = q * m' + r ∧ r < m' ∧ 2 ^ 79 ≤ q := by
  refine ⟨m <<< (80 + m'.log2) / m', m <<< (80 + m'.log2) % m', 80 + m'.log2, ?_, ?_, Nat.mod_lt _ (Nat.pos_of_ne_zero hm'), ?_⟩
  · simp only [divReal, if_neg hm, if_neg hm', quotient, bne_eq_decide_ne]
  · rw [← Nat.shiftLeft_eq, Nat.mul_comm, Nat.div_add_mod]
  · rw [Nat.le_div_iff_mul_le (Nat.pos_of_ne_zero hm'), Nat.shiftLeft_eq]
    calc 2 ^ 79 * m' ≤ 2 ^ 79 * 2 ^ (m'.log2 + 1) := Nat.mul_le_mul_left _ Nat.lt_log2_self.le
      _ = 1 * 2 ^ (80 + m'.log2) := by ring
      _ ≤ m * 2 ^ (80 + m'.log2) := Nat.mul_le_mul_right _ (Nat.pos_of_ne_zero hm)

/-- What a root leaves: its square and a remainder too small for the next one. -/
theorem isqrt_remainder (n : Nat) : ∃ r, n = isqrt n * isqrt n + r ∧ r < 2 * isqrt n + 1 ∧ (isqrt n * isqrt n != n) = decide (r ≠ 0) := by
  obtain ⟨hle, hlt⟩ := isqrt_spec n
  refine ⟨n - isqrt n * isqrt n, by omega, ?_, ?_⟩
  · have : (isqrt n + 1) * (isqrt n + 1) = isqrt n * isqrt n + 2 * isqrt n + 1 := by ring
    omega
  · rw [bne_eq_decide_ne, decide_eq_decide]
    omega

/-- The root of what is scaled by 2^160: 80 bits of it and more. -/
theorem rootOf_scaled {m : Nat} (hm : m ≠ 0) : 2 ^ 79 ≤ isqrt (m <<< 160) := by
  refine le_isqrt ?_
  rw [Nat.shiftLeft_eq, ← pow_add]
  calc 2 ^ (79 + 79) ≤ 1 * 2 ^ 160 := by rw [one_mul]; exact Nat.pow_le_pow_right (by decide) (by decide)
    _ ≤ m * 2 ^ 160 := Nat.mul_le_mul_right _ (Nat.pos_of_ne_zero hm)

theorem rootOf_spec (m : Nat) (e : Int) (hm : m ≠ 0) :
    ∃ (x r k : Nat) (h : Int), sqrtReal (.num false m e false) = ⟨.num false x h (decide (r ≠ 0)), 0⟩ ∧ e = 2 * h + k ∧
      m * 2 ^ k = x * x + r ∧ r < 2 * x + 1 ∧ 2 ^ 79 ≤ x := by
  have hsqrt : sqrtReal (.num false m e false) = ⟨rootOf m e, 0⟩ := by simp [sqrtReal, hm]
  by_cases he : e % 2 = 0
  · obtain ⟨r, hr, hlt, hsticky⟩ := isqrt_remainder (m <<< 160)
    refine ⟨isqrt (m <<< 160), r, 160, e / 2 - 80, ?_, by omega, by rw [← Nat.shiftLeft_eq]; exact hr, hlt, rootOf_scaled hm⟩
    rw [hsqrt, rootOf, ← hsticky]
    simp only [he, if_true]
  · obtain ⟨r, hr, hlt, hsticky⟩ := isqrt_remainder ((2 * m) <<< 160)
    refine ⟨isqrt ((2 * m) <<< 160), r, 161, (e - 1) / 2 - 80, ?_, by omega, ?_, hlt, rootOf_scaled (by omega)⟩
    · rw [hsqrt, rootOf, ← hsticky]
      simp only [he, if_false]
    · rw [← hr, Nat.shiftLeft_eq]
      ring

/-- The reciprocal of a root, with k bits of scale. -/
theorem isqrt_reciprocal {m : Nat} (hm : m ≠ 0) :
    let k := 80 + m.log2
    let x := isqrt (2 ^ (2 * k) / m)
    ∃ r, 2 ^ (2 * k) = x * x * m + r ∧ r < (2 * x + 1) * m ∧ 2 ^ 79 ≤ x ∧ (x * x * m != 2 ^ (2 * k)) = decide (r ≠ 0) := by
  intro k x
  have hpos := Nat.pos_of_ne_zero hm
  obtain ⟨hle, hlt⟩ := isqrt_spec (2 ^ (2 * k) / m)
  have hle' : x * x * m ≤ 2 ^ (2 * k) := (Nat.le_div_iff_mul_le hpos).mp hle
  have hlt' : 2 ^ (2 * k) < (x + 1) * (x + 1) * m := (Nat.div_lt_iff_lt_mul hpos).mp hlt
  have hexpand : (x + 1) * (x + 1) * m = x * x * m + (2 * x + 1) * m := by ring
  refine ⟨2 ^ (2 * k) - x * x * m, by omega, by omega, le_isqrt ?_, ?_⟩
  · rw [Nat.le_div_iff_mul_le hpos, ← pow_add]
    calc 2 ^ (79 + 79) * m ≤ 2 ^ (79 + 79) * 2 ^ (m.log2 + 1) := Nat.mul_le_mul_left _ Nat.lt_log2_self.le
      _ = 2 ^ (159 + m.log2) := by ring
      _ ≤ 2 ^ (2 * k) := Nat.pow_le_pow_right (by decide) (by omega)
  · rw [bne_eq_decide_ne, decide_eq_decide]
    omega

theorem rootRecip_spec (m : Nat) (e : Int) (hm : m ≠ 0) :
    ∃ (x r k : Nat) (h : Int), rsqrtReal (.num false m e false) = ⟨.num false x h (decide (r ≠ 0)), 0⟩ ∧
      ∃ m' : Nat, ((m' = m ∧ e + 2 * h + 2 * k = 0) ∨ (m' = 2 * m ∧ e + 2 * h + 2 * k = 1)) ∧
        2 ^ (2 * k) = x * x * m' + r ∧ r < (2 * x + 1) * m' ∧ 2 ^ 79 ≤ x := by
  have hrsqrt : rsqrtReal (.num false m e false) = ⟨rootRecip m e, 0⟩ := by simp [rsqrtReal, hm]
  by_cases he : e % 2 = 0
  · obtain ⟨r, hr, hlt, hbig, hsticky⟩ := isqrt_reciprocal hm
    refine ⟨_, r, 80 + m.log2, -((80 + m.log2 : Nat) : Int) - e / 2, ?_, m, .inl ⟨rfl, by omega⟩, hr, hlt, hbig⟩
    rw [hrsqrt, rootRecip, ← hsticky]
    simp only [he, if_true]
  · obtain ⟨r, hr, hlt, hbig, hsticky⟩ := isqrt_reciprocal (m := 2 * m) (by omega)
    refine ⟨_, r, 80 + (2 * m).log2, -((80 + (2 * m).log2 : Nat) : Int) - (e - 1) / 2, ?_, 2 * m, .inr ⟨rfl, by omega⟩, hr, hlt, hbig⟩
    rw [hrsqrt, rootRecip, ← hsticky]
    simp only [he, if_false]

/-! ### 2^x (R166, log 9) -/

/-- The digits' factors multiply to at most 2: with W = 2^512 for 1, the accumulator times the square of the next factor stays below 2 W^3. -/
theorem exp2Aux_bounds {W : Nat} (hW : W = 2 ^ workBits) {bits : List Bool} {c acc : Nat} (hc : W ≤ c) (hacc : W ≤ acc)
    (hprod : acc * (c * c) ≤ 2 * W * (W * W)) : W ≤ exp2Aux bits c acc ∧ exp2Aux bits c acc ≤ 2 * W := by
  have hpos : 0 < W := hW ▸ Nat.two_pow_pos workBits
  have hshl (x : Nat) : x <<< workBits = x * W := by rw [Nat.shiftLeft_eq, hW]
  have hshr (x : Nat) : x >>> workBits = x / W := by rw [Nat.shiftRight_eq_div_pow, hW]
  clear hW
  induction bits generalizing c acc with
  | nil =>
    refine ⟨hacc, Nat.le_of_mul_le_mul_right ?_ (Nat.mul_pos hpos hpos)⟩
    exact (Nat.mul_le_mul_left acc (Nat.mul_le_mul hc hc)).trans hprod
  | cons b bits ih =>
    obtain ⟨hroot, -⟩ := isqrt_spec (c * W)
    have hc' : W ≤ isqrt (c * W) := le_isqrt (Nat.mul_le_mul_right W hc)
    simp only [exp2Aux, hshl, hshr]
    cases b with
    | false => exact ih hc' hacc ((Nat.mul_le_mul_left acc (hroot.trans (Nat.mul_le_mul_left c hc))).trans hprod)
    | true =>
      have hquot : acc * c / W * W ≤ acc * c := Nat.div_mul_le_self _ _
      refine ih hc' ((Nat.le_div_iff_mul_le hpos).mpr (Nat.mul_le_mul hacc hc)) (le_trans ?_ hprod)
      calc acc * c / W * (isqrt (c * W) * isqrt (c * W))
          ≤ acc * c / W * (c * W) := Nat.mul_le_mul_left _ hroot
        _ = acc * c / W * W * c := by ring
        _ ≤ acc * c * c := Nat.mul_le_mul_right _ hquot
        _ = acc * (c * c) := by ring

/-- The first factor is √2; the digits' product lies between 1 and 2, at the precision of u bits. -/
theorem exp2_digits (bits : List Bool) {u v : Nat} (hu : u = workBits) (hv : v = u + 1) :
    2 ^ u ≤ exp2Aux bits (isqrt (2 <<< (2 * workBits))) (2 ^ workBits) ∧
      exp2Aux bits (isqrt (2 <<< (2 * workBits))) (2 ^ workBits) ≤ 2 ^ v := by
  obtain ⟨W, hW⟩ : ∃ W, W = 2 ^ workBits := ⟨_, rfl⟩
  have hroot : 2 <<< (2 * workBits) = 2 * (W * W) := by rw [Nat.shiftLeft_eq, hW, ← pow_add, two_mul workBits]
  rw [hv, pow_succ', hu, ← hW, hroot]
  obtain ⟨hle, -⟩ := isqrt_spec (2 * (W * W))
  refine exp2Aux_bounds hW (le_isqrt (by omega)) le_rfl ?_
  calc W * (isqrt (2 * (W * W)) * isqrt (2 * (W * W))) ≤ W * (2 * (W * W)) := Nat.mul_le_mul_left W hle
    _ = 2 * W * (W * W) := by ring

/-- 2^x for a whole x of at most 16 bits, given as ±m · 2^k. -/
theorem exp2Real_whole (n : Bool) (m k : Nat) (h : m * 2 ^ k < 2 ^ 16) :
    exp2Real (.num n m k false) = ⟨.num false 1 ((if n then -(m : Int) else m) * 2 ^ k) false, 0⟩ := by
  have hshift : m <<< (min (k : Int) 64).toNat = m * 2 ^ k := by
    rw [Nat.shiftLeft_eq]
    rcases Nat.eq_zero_or_pos m with rfl | hm
    · simp
    · have hk : k < 16 := (Nat.pow_lt_pow_iff_right (by decide)).mp ((Nat.le_mul_of_pos_left _ hm).trans_lt h)
      rw [show (min (k : Int) 64).toNat = k by omega]
  have hmin : min ((m * 2 ^ k : Nat) : Int) 100000 = (m * 2 ^ k : Nat) := by omega
  simp only [exp2Real, exp2Of, if_pos (Int.natCast_nonneg k), ge_iff_le, hshift, hmin]
  cases n <;> simp

/-- The whole part of a fraction of at most 16 bits before the point is small. -/
theorem floor_bounds (n : Bool) {m k : Nat} (h : m < 2 ^ (k + 16)) :
    max (-100000) (min 100000 ((if n then -(m : Int) else m) / 2 ^ k)) = (if n then -(m : Int) else m) / 2 ^ k := by
  have hpos : (0 : Int) < 2 ^ k := by positivity
  have hm : (m : Int) < 2 ^ k * 2 ^ 16 := by rw [← pow_add]; exact_mod_cast h
  have hlt : (if n then -(m : Int) else m) / 2 ^ k < 2 ^ 16 := by
    refine Int.ediv_lt_of_lt_mul hpos ?_
    cases n <;> simp only [if_true, Bool.false_eq_true, if_false] <;> linarith
  have hge : -(2 ^ 16 : Int) ≤ (if n then -(m : Int) else m) / 2 ^ k := by
    refine (Int.le_ediv_iff_mul_le hpos).mpr ?_
    cases n <;> simp only [if_true, Bool.false_eq_true, if_false] <;> linarith
  omega

/-- Whether anything is left below the point. -/
theorem fraction_eq_zero_iff (n : Bool) (m k : Nat) :
    ((if n then -(m : Int) else m) % 2 ^ k).toNat = 0 ↔ m % 2 ^ k = 0 := by
  have hpos : (0 : Int) < 2 ^ k := by positivity
  have hnonneg := Int.emod_nonneg (if n then -(m : Int) else m) hpos.ne'
  have hdvd : (2 ^ k : Int) ∣ m ↔ m % 2 ^ k = 0 := by
    rw [← Nat.dvd_iff_mod_eq_zero]
    exact_mod_cast Iff.rfl
  have hiff : (2 ^ k : Int) ∣ (if n then -(m : Int) else m) ↔ (2 ^ k : Int) ∣ m := by
    cases n with
    | true => exact dvd_neg
    | false => exact Iff.rfl
  rw [← hdvd, ← hiff, Int.dvd_iff_emod_eq_zero, Int.toNat_eq_zero]
  exact ⟨fun h => le_antisymm h hnonneg, fun h => h.le⟩

/-- 2^x for a fraction ±m / 2^k. -/
theorem exp2Real_fraction (n : Bool) (m k : Nat) (h : m < 2 ^ (k + 16)) :
    let z : Int := if n then -(m : Int) else m
    (m % 2 ^ k = 0 → exp2Real (.num n m (-(k : Int)) false) = ⟨.num false 1 (z / 2 ^ k) false, 0⟩) ∧
    (m % 2 ^ k ≠ 0 →
      ∃ x : Nat, exp2Real (.num n m (-(k : Int)) false) = ⟨.num false x (z / 2 ^ k - 512) true, 0⟩ ∧ 2 ^ 512 ≤ x ∧ x ≤ 2 ^ 513) := by
  intro z
  rcases Nat.eq_zero_or_pos k with rfl | hk
  · refine ⟨fun _ => ?_, fun hne => absurd (Nat.mod_one m) (by simpa using hne)⟩
    have := exp2Real_whole n m 0 (by simpa using h)
    simpa using this
  · have hneg : ¬(-(k : Int) ≥ 0) := by omega
    have hsh : (-(-(k : Int))).toNat = k := by omega
    refine ⟨fun hzero => ?_, fun hne => ?_⟩
    · simp only [exp2Real, exp2Of, if_neg hneg, hsh, floor_bounds n h, (fraction_eq_zero_iff n m k).mpr hzero, if_true]
      rfl
    · have hfrac := mt (fraction_eq_zero_iff n m k).mp hne
      obtain ⟨hlo, hhi⟩ := exp2_digits ((List.range k).map fun i => (z % 2 ^ k).toNat.testBit (k - 1 - i)) (u := 512) (v := 513) rfl rfl
      refine ⟨_, ?_, hlo, hhi⟩
      simp only [exp2Real, exp2Of, if_neg hneg, hsh, floor_bounds n h, if_neg hfrac]
      rfl

/-! ### log2 x (R166, log 9) -/

/-- n digits make a number below 2^n. -/
theorem log2Aux_lt (n y acc : Nat) : log2Aux n y acc < 2 ^ n * (acc + 1) := by
  induction n generalizing y acc with
  | zero => simp [log2Aux]
  | succ n ih =>
    simp only [log2Aux]
    have hpow : 2 ^ (n + 1) * (acc + 1) = 2 ^ n * (2 * acc + 2) := by ring
    rw [hpow]
    split
    · exact ih _ _
    · exact (ih _ _).trans_le (Nat.mul_le_mul_left _ (by omega))

theorem log2Real_spec (m k : Nat) (e : Int) (hlo : 2 ^ k ≤ m) (hhi : m < 2 ^ (k + 1)) :
    (m = 2 ^ k → log2Real (.num false m e false) = ⟨Val.ofInt (k + e), 0⟩) ∧
    (m ≠ 2 ^ k → ∃ x : Nat, x < 2 ^ 192 ∧
      (0 ≤ k + e → log2Real (.num false m e false) = ⟨.num false ((k + e).toNat * 2 ^ 192 + x) (-192) true, 0⟩) ∧
      (k + e < 0 → log2Real (.num false m e false) = ⟨.num true ((-(k + e)).toNat * 2 ^ 192 - x - 1) (-192) true, 0⟩)) := by
  have hm : m ≠ 0 := ((Nat.two_pow_pos k).trans_le hlo).ne'
  have hlog : m.log2 = k := (Nat.log2_eq_iff hm).mpr ⟨hlo, hhi⟩
  have hreal : log2Real (.num false m e false) = ⟨log2Of m e, 0⟩ := by simp [log2Real, hm]
  rw [hreal, log2Of, hlog]
  refine ⟨fun h => by rw [if_pos h], fun h => ⟨log2Aux 192 ((m <<< workBits) >>> k) 0, ?_, fun hge => ?_, fun hlt => ?_⟩⟩
  · simpa using log2Aux_lt 192 ((m <<< workBits) >>> k) 0
  · simp only [if_neg h, ge_iff_le, if_pos hge]
    rfl
  · simp only [if_neg h, ge_iff_le, if_neg (not_le.mpr hlt)]
    rfl

/-! ### The words (R166, R167) -/

/-- A division with a NaN. -/
theorem divReal_nan (sg : Bool) {x : Val} (hx : x.isNan = false) :
    divReal (.nan sg) x = ⟨.nan false, if sg then 0x01 else 0⟩ ∧ divReal x (.nan sg) = ⟨.nan false, if sg then 0x01 else 0⟩ := by
  cases x with
  | nan => cases hx
  | inf n => cases sg <;> exact ⟨rfl, rfl⟩
  | num n m e st => cases sg <;> exact ⟨rfl, rfl⟩

/-- Settles O9: each word has its shared form; what its function computes is said above. -/
theorem vectorDivisionResults : Obligations.VectorDivisionResults := by
  unfold Obligations.VectorDivisionResults
  intro d a b over0 keep
  refine ⟨vectorBinary_formed rfl, vectorBinary_formed (funext fun s => ?_), vectorUnary_formed rfl, vectorUnary_formed rfl, vectorUnary_formed rfl,
    vectorUnary_formed rfl, vectorUnary_formed rfl, classWord_of_classC (fun s => ?_) (fun _ _ _ => rfl) fun _ _ _ => rfl,
    fun sg x => ?_, fun n n' m e e' hm => ?_, quotient_spec, fun m e hm => ⟨rootOf_spec m e hm, rootRecip_spec m e hm⟩,
    fun n m k => ⟨exp2Real_whole n m k, fun h => (exp2Real_fraction n m k h).1, fun h => (exp2Real_fraction n m k h).2⟩, log2Real_spec⟩
  · change execVrem d a b s = _
    have hrem : (fun x y : Int => remInt x y) = fun x y => over0 y (x - y * x.tdiv y) := by
      funext x y
      rw [remInt, Int.tmod_def]
      rfl
    rw [execVrem, hrem]
  · change execVmulh d a b s = _
    rw [execVmulh]
    simp only [Int.shiftRight_eq_div_pow]
    rfl
  · cases sg <;> exact ⟨rfl, rfl, rfl, rfl, divReal_nan _, rfl, rfl, rfl, rfl, rfl, rfl, rfl, rfl, rfl⟩
  · simp only [divReal, sqrtReal, rsqrtReal, log2Real, if_neg hm, if_true]
    exact ⟨rfl, rfl, trivial, trivial, trivial, rfl, trivial, rfl, rfl, rfl, rfl⟩

end Sys2Proof.Machine
end

section
/-! Products in an integer tile, and the rows of a tile group (O26, O27). -/

namespace Sys2Proof.Machine

/-! ### Whole values -/

/-- A value that is an integer as it stands: finite, exact and of exponent 0. -/
def Val.whole (v : Val) : Prop := ∃ n m, v = .num n m 0 false

theorem Val.whole_ofInt (z : Int) : (Val.ofInt z).whole := ⟨_, _, rfl⟩

theorem toInt_num (n : Bool) (m : Nat) : (Val.num n m 0 false).toInt = if n then -(m : Int) else m := by
  simp [Val.toInt]

/-- The product of whole values is whole, and their integers' product; it is never invalid. -/
theorem Val.mul_whole {a b : Val} (ha : a.whole) (hb : b.whole) :
    (a.mul b).1.whole ∧ (a.mul b).2 = false ∧ (a.mul b).1.toInt = a.toInt * b.toInt := by
  obtain ⟨n, m, rfl⟩ := ha
  obtain ⟨n', m', rfl⟩ := hb
  refine ⟨⟨n != n', m * m', rfl⟩, rfl, ?_⟩
  change (Val.num (n != n') (m * m') 0 false).toInt = _
  rw [toInt_num, toInt_num, toInt_num]
  cases n <;> cases n' <;> simp

/-- So is their sum. -/
theorem Val.add_whole {a b : Val} (ha : a.whole) (hb : b.whole) :
    (a.add false b).1.whole ∧ (a.add false b).1.toInt = a.toInt + b.toInt := by
  obtain ⟨n, m, rfl⟩ := ha
  obtain ⟨n', m', rfl⟩ := hb
  have hscale (n : Bool) (m : Nat) : scaleTo n m 0 0 = (Val.num n m 0 false).toInt := by
    rw [toInt_num]
    simp [scaleTo]
  change (addNum false n m 0 n' m' 0).whole ∧ (addNum false n m 0 n' m' 0).toInt = _
  simp only [addNum, min_self, hscale]
  split
  next h => exact ⟨⟨_, _, rfl⟩, by rw [h, toInt_num]; simp⟩
  next h => exact ⟨⟨_, _, rfl⟩, Val.toInt_ofInt _⟩

/-- The exact sum of a list, from a value on. -/
def Val.addAll (acc : Val) (vs : List Val) : Val := vs.foldl (fun acc v => (acc.add false v).1) acc

/-- A list of whole values adds up exactly. -/
theorem Val.addAll_whole {vs : List Val} (h : ∀ v ∈ vs, v.whole) {acc : Val} (hacc : acc.whole) :
    (acc.addAll vs).whole ∧ (acc.addAll vs).toInt = acc.toInt + (vs.map Val.toInt).sum := by
  induction vs generalizing acc with
  | nil => exact ⟨hacc, by simp [Val.addAll]⟩
  | cons v vs ih =>
    obtain ⟨hsum, hint⟩ := Val.add_whole hacc (h v List.mem_cons_self)
    obtain ⟨hall, htotal⟩ := ih (fun x hx => h x (List.mem_cons_of_mem _ hx)) hsum
    refine ⟨hall, ?_⟩
    rw [Val.addAll, List.foldl_cons, ← Val.addAll, htotal, hint, List.map_cons, List.sum_cons, add_assoc]

/-! ### The summation contract in an integer format (R220, R221) -/

/-- The group sum of whole pairs: exact, and no flag. -/
theorem groupSum_whole {f : Fmt} (hf : f.tileInt = true) {xs : List (Val × Val)} (h : ∀ x ∈ xs, x.1.whole ∧ x.2.whole) :
    (groupSum f xs).1.whole ∧ (groupSum f xs).2 = 0 ∧ (groupSum f xs).1.toInt = (xs.map fun x => x.1.toInt * x.2.toInt).sum := by
  have hwhole : ∀ v ∈ (xs.map fun x => x.1.mul x.2).map Prod.fst, v.whole := by
    intro v hv
    obtain ⟨y, hy, rfl⟩ := List.mem_map.mp hv
    obtain ⟨x, hx, rfl⟩ := List.mem_map.mp hy
    exact (Val.mul_whole (h x hx).1 (h x hx).2).1
  have hvalid : ((xs.map fun x => x.1.mul x.2).any Prod.snd) = false := by
    refine List.any_eq_false.mpr fun y hy => ?_
    obtain ⟨x, hx, rfl⟩ := List.mem_map.mp hy
    simp [(Val.mul_whole (h x hx).1 (h x hx).2).2.1]
  have hints : (((xs.map fun x => x.1.mul x.2).map Prod.fst).map Val.toInt) = xs.map fun x => x.1.toInt * x.2.toInt := by
    simp only [List.map_map]
    exact List.map_congr_left fun x hx => (Val.mul_whole (h x hx).1 (h x hx).2).2.2
  obtain ⟨hsum, htotal⟩ := Val.addAll_whole hwhole (acc := .zero) ⟨false, 0, rfl⟩
  rw [hints, show Val.zero.toInt = 0 from rfl, zero_add] at htotal
  generalize hps : (xs.map fun x => x.1.mul x.2).map Prod.fst = ps at hwhole hsum htotal
  have hnone (q : Val → Bool) (hq : ∀ n m, q (.num n m 0 false) = false) : ps.any q = false :=
    List.any_eq_false.mpr fun v hv => by
      obtain ⟨n, m, rfl⟩ := hwhole v hv
      simp [hq]
  have hreal : (f == .bf16 || f == .fp16) = false := by
    cases f <;> first | rfl | cases hf
  have hgroup : groupSum f xs = (if (Val.zero.addAll ps).isZero then .zero else Val.zero.addAll ps, 0) := by
    unfold groupSum
    simp only [hvalid, hps, hnone Val.isNan (fun _ _ => rfl), hnone (fun v => v == .inf false) (fun _ _ => rfl),
      hnone (fun v => v == .inf true) (fun _ _ => rfl), hreal, Bool.and_self, Bool.or_self, Bool.false_eq_true, if_false, flagIf]
    rfl
  rw [hgroup, ← htotal]
  by_cases hzero : (Val.zero.addAll ps).isZero = true
  · obtain ⟨n, m, hnm⟩ := hsum
    rw [hnm] at hzero ⊢
    obtain rfl : m = 0 := by
      cases m with
      | zero => rfl
      | succ m => cases hzero
    rw [if_pos hzero, toInt_num]
    exact ⟨⟨false, 0, rfl⟩, rfl, by cases n <;> rfl⟩
  · rw [if_neg hzero]
    exact ⟨hsum, rfl, rfl⟩

/-- An integer as a word. -/
theorem ofNat_codeOfInt (z : Int) : BitVec.ofNat 32 (codeOfInt 32 z) = BitVec.ofInt 32 z := by
  refine BitVec.eq_of_toNat_eq ?_
  rw [BitVec.toNat_ofNat, BitVec.toNat_ofInt, codeOfInt]
  omega

/-- One step of the chain: the word gains the integer modulo 2^32, with no flag but `sat`. -/
theorem chainStep_whole {f : Fmt} (hf : f.tileInt = true) (acc : Word32) (g : Val) :
    (chainStep f false acc g).1 = acc + BitVec.ofInt 32 g.toInt ∧
      ((chainStep f false acc g).2 = 0 ∨ (chainStep f false acc g).2 = 0x20) := by
  have hacc : Fmt.i32.intOf acc.toNat = acc.toInt := intOfCode_toNat acc
  rw [chainStep, if_pos hf]
  constructor
  · simp only [Fmt.reduce, hacc, Bool.false_eq_true, if_false, codeOfInt]
    exact (ofNat_codeOfInt _).trans ((BitVec.ofInt_add _ _).trans (by rw [BitVec.ofInt_toInt]))
  · dsimp only [flagIf]
    split
    · exact .inr rfl
    · exact .inl rfl

/-- An element of an integer format is whole, and its scale 1. -/
theorem MatDesc.elem_whole {f : Fmt} (hf : f.tileInt = true) (x : MatDesc) (b : Bool) (m : Fetched) (line k : Nat) :
    (x.elem f b m line k).whole := by
  cases f with
  | i8 => exact ⟨_, _, rfl⟩
  | i4 => exact Val.whole_ofInt _
  | _ => cases hf

theorem MatDesc.scaleExp_tileInt {f : Fmt} (hf : f.tileInt = true) (x : MatDesc) (m : Fetched) (line β : Nat) :
    x.scaleExp f m line β = 0 := by
  cases f with
  | i8 => rfl
  | i4 => rfl
  | _ => cases hf

theorem Val.scale_whole {v : Val} (h : v.whole) : v.scale (0 + 0) = v := by
  obtain ⟨n, m, rfl⟩ := h
  rfl

/-- Sums over groups of sixteen. -/
theorem sum_groups (term : Nat → Int) (n : Nat) :
    ((List.range (16 * (n + 1))).map term).sum =
      ((List.range (16 * n)).map term).sum + ((List.range 16).map fun t => term (16 * n + t)).sum := by
  rw [show 16 * (n + 1) = 16 * n + 16 by ring, List.range_add, List.map_append, List.sum_append, List.map_map]
  rfl

section
variable (f : Fmt) (a b : MatDesc) (am bm : Fetched) (m c : Nat) (old : Word32)

/-- A product word over its first n groups. -/
def productGroups (n : Nat) : Word32 × BitVec 7 :=
  (List.range n).foldl (fun (acc, fl) g =>
    let xs := (List.range 16).map fun t => (a.elem f false am m (16 * g + t), b.elem f true bm c (16 * g + t))
    let (sum, fl') := groupSum f xs
    let β := 16 * g / 32
    let (acc, fl'') := chainStep f false acc (sum.scale (a.scaleExp f am m β + b.scaleExp f bm c β))
    (acc, fl ||| fl' ||| fl'')) (old, 0)

/-- No flag but `sat` comes of flags that are no other. -/
theorem sat_or {x y : BitVec 7} (hx : x = 0 ∨ x = 0x20) (hy : y = 0 ∨ y = 0x20) : x ||| 0 ||| y = 0 ∨ x ||| 0 ||| y = 0x20 := by
  rcases hx with rfl | rfl <;> rcases hy with rfl | rfl <;> decide

theorem productGroups_exact (hf : f.tileInt = true) (n : Nat) :
    (productGroups f a b am bm m c old n).1 = old + BitVec.ofInt 32
        (((List.range (16 * n)).map fun k => (a.elem f false am m k).toInt * (b.elem f true bm c k).toInt).sum) ∧
      ((productGroups f a b am bm m c old n).2 = 0 ∨ (productGroups f a b am bm m c old n).2 = 0x20) := by
  induction n with
  | zero => exact ⟨by simp [productGroups], .inl rfl⟩
  | succ n ih =>
    obtain ⟨hword, hflags⟩ := ih
    set prev := productGroups f a b am bm m c old n with hprev
    set xs := (List.range 16).map fun t => (a.elem f false am m (16 * n + t), b.elem f true bm c (16 * n + t)) with hxs
    have hxswhole : ∀ x ∈ xs, x.1.whole ∧ x.2.whole := by
      intro x hx
      obtain ⟨t, -, rfl⟩ := List.mem_map.mp hx
      exact ⟨MatDesc.elem_whole hf _ _ _ _ _, MatDesc.elem_whole hf _ _ _ _ _⟩
    obtain ⟨hsum, hnoflag, htotal⟩ := groupSum_whole hf hxswhole
    obtain ⟨hstep, hsat⟩ := chainStep_whole hf prev.1 (groupSum f xs).1
    have hsucc : productGroups f a b am bm m c old (n + 1) =
        ((chainStep f false prev.1 (groupSum f xs).1).1, prev.2 ||| 0 ||| (chainStep f false prev.1 (groupSum f xs).1).2) := by
      rw [productGroups, List.range_succ (n := n), List.foldl_append, List.foldl_cons, List.foldl_nil, ← productGroups, ← hprev]
      simp only [← hxs, MatDesc.scaleExp_tileInt hf, Val.scale_whole hsum, hnoflag]
    rw [hsucc]
    refine ⟨?_, ?_⟩
    · rw [hstep, hword, sum_groups, htotal, BitVec.ofInt_add, BitVec.add_assoc, hxs, List.map_map]
      rfl
    · exact sat_or hflags hsat

end

/-- Settles O27: the groups' exact sums add up. -/
theorem integerProductIsExactSum : Obligations.IntegerProductIsExactSum := by
  unfold Obligations.IntegerProductIsExactSum
  intro f a b am bm m c old hf term
  have hK : 16 * (f.matK / 16) = f.matK := by cases f <;> rfl
  have := productGroups_exact f a b am bm m c old hf (f.matK / 16)
  rw [hK] at this
  exact this

/-! ### The rows of a tile group (R215, R227) -/

/-- The tiles of a wave, or their twins. -/
def Wave.tileList (w : Wave) (twin : Bool) : List Tile := if twin then w.a.twins else w.a.tiles

theorem Wave.tile_eq (w : Wave) (twin : Bool) (k : Nat) : w.tile twin k = nth (w.tileList twin) k Tile.zero := rfl

/-- Changing a tile changes its list at its place, and the other list not at all. -/
theorem Wave.tileList_onTile (w : Wave) (twin side : Bool) (t : Nat) (f : Tile → Tile) :
    (w.onTile twin t f).tileList side = if side = twin then (w.tileList twin).modify t f else w.tileList side := by
  cases twin <;> cases side <;> rfl

@[simp] theorem Wave.onTile_G (w : Wave) (twin : Bool) (t : Nat) (f : Tile → Tile) : (w.onTile twin t f).G = w.G := by
  cases twin <;> rfl

theorem Wave.length_tileList_onTile (w : Wave) (twin side : Bool) (t : Nat) (f : Tile → Tile) :
    ((w.onTile twin t f).tileList side).length = (w.tileList side).length := by
  rw [Wave.tileList_onTile]
  split
  next h => rw [h, List.length_modify]
  next => rfl

/-- The tile that was changed. -/
theorem Wave.tile_onTile_same (w : Wave) (twin : Bool) {t : Nat} (f : Tile → Tile) (h : t < (w.tileList twin).length) :
    (w.onTile twin t f).tile twin t = f (w.tile twin t) := by
  simp [Wave.tile_eq, Wave.tileList_onTile, nth, h]

/-- Every other tile. -/
theorem Wave.tile_onTile_other (w : Wave) (twin : Bool) {t k : Nat} (f : Tile → Tile) (h : t ≠ k) :
    (w.onTile twin t f).tile twin k = w.tile twin k := by
  simp [Wave.tile_eq, Wave.tileList_onTile, nth, List.getElem?_modify, h]

theorem Wave.tile_onTile_twin (w : Wave) (twin : Bool) (t k : Nat) (f : Tile → Tile) :
    (w.onTile twin t f).tile (!twin) k = w.tile (!twin) k := by
  cases twin <;> rfl

/-- A word of a tile after one of its rows was replaced. -/
theorem Tile.setRow_getElem? {t : Tile} {j : Nat} {ws : List Word32} (ht : t.words.length = 1024) (hj : j < 32) (hws : ws.length = 32) (x : Nat) :
    (t.setRow j ws).words[x]? = if 32 * j ≤ x ∧ x < 32 * j + 32 then ws[x - 32 * j]? else t.words[x]? := by
  have htake : (t.words.take (32 * j)).length = 32 * j := by rw [List.length_take]; omega
  rw [Tile.setRow, List.append_assoc, List.getElem?_append, List.getElem?_append, htake, hws]
  by_cases h1 : x < 32 * j
  · rw [if_pos h1, if_neg (by omega), List.getElem?_take, if_pos h1]
  · by_cases h2 : x < 32 * j + 32
    · rw [if_neg h1, if_pos (by omega), if_pos ⟨by omega, h2⟩]
    · rw [if_neg h1, if_neg (by omega), if_neg (by omega), List.getElem?_drop]
      congr 1
      omega

theorem Tile.length_setRow {t : Tile} {j : Nat} {ws : List Word32} (ht : t.words.length = 1024) (hj : j < 32) (hws : ws.length = 32) :
    (t.setRow j ws).words.length = 1024 := by
  simp only [Tile.setRow, List.length_append, List.length_take, List.length_drop, ht, hws]
  omega

/-- The row that was replaced, and every other one. -/
theorem Tile.row_setRow {t : Tile} {i j : Nat} {ws : List Word32} (ht : t.words.length = 1024) (hj : j < 32) (hws : ws.length = 32) :
    (t.setRow j ws).row i = if i = j then ws else t.row i := by
  refine List.ext_getElem? fun n => ?_
  rw [Tile.row, List.getElem?_take, List.getElem?_drop, Tile.setRow_getElem? ht hj hws]
  by_cases hij : i = j
  · subst hij
    rw [if_pos rfl]
    by_cases hn : n < 32
    · rw [if_pos hn, if_pos (by omega), Nat.add_sub_cancel_left]
    · rw [if_neg hn, List.getElem?_eq_none (by omega)]
  · rw [if_neg hij, Tile.row, List.getElem?_take, List.getElem?_drop]
    by_cases hn : n < 32
    · rw [if_pos hn, if_pos hn, if_neg (by omega)]
    · rw [if_neg hn, if_neg hn]

section
variable (twin : Bool) (base : Nat) (row : Nat → List Word32)

/-- Replaces the rows of visible lanes in a tile group. -/
def Wave.putRows (w : Wave) (rows : List Nat) : Wave :=
  rows.foldl (fun w v => w.onTile twin (base + v / 32) fun t => t.setRow (v % 32) (row v)) w

/-- Sets the kind of the first n tiles of a group. -/
def Wave.putKinds (w : Wave) (int : Bool) (n : Nat) : Wave :=
  (List.range n).foldl (fun w j => w.onTile twin (base + j) fun t => { t with int := int }) w

/-- What putting rows leaves: the words of the tiles in number, the rows put, and everything else. -/
theorem Wave.putRows_spec {rows : List Nat} {g : Nat} (hrows : ∀ v ∈ rows, v < 32 * g ∧ (row v).length = 32) (w : Wave)
    (hlen : base + g ≤ (w.tileList twin).length) (hwords : ∀ t, t < (w.tileList twin).length → (w.tile twin t).words.length = 1024) :
    let t := w.putRows twin base row rows
    t.G = w.G ∧ (t.tileList twin).length = (w.tileList twin).length ∧
    (∀ v, t.rowAt twin base v = if v ∈ rows then row v else w.rowAt twin base v) ∧
    (∀ k, k < base ∨ base + g ≤ k → t.tile twin k = w.tile twin k) ∧ ∀ k, t.tile (!twin) k = w.tile (!twin) k := by
  induction rows generalizing w with
  | nil => exact ⟨rfl, rfl, by simp [Wave.putRows], fun _ _ => rfl, fun _ => rfl⟩
  | cons u rows ih =>
    obtain ⟨hu, hrow⟩ := hrows u List.mem_cons_self
    have hplace : base + u / 32 < (w.tileList twin).length := by omega
    have hmod : u % 32 < 32 := Nat.mod_lt _ (by decide)
    set w' := w.onTile twin (base + u / 32) fun t => t.setRow (u % 32) (row u) with hw'
    have hsame : w'.tile twin (base + u / 32) = (w.tile twin (base + u / 32)).setRow (u % 32) (row u) := w.tile_onTile_same twin _ hplace
    have hother {k : Nat} (hk : base + u / 32 ≠ k) : w'.tile twin k = w.tile twin k := w.tile_onTile_other twin _ hk
    have hlen' : (w'.tileList twin).length = (w.tileList twin).length := w.length_tileList_onTile twin twin _ _
    have hwords' : ∀ t, t < (w'.tileList twin).length → (w'.tile twin t).words.length = 1024 := by
      intro t ht
      rw [hlen'] at ht
      by_cases hk : base + u / 32 = t
      · rw [← hk, hsame]
        exact Tile.length_setRow (hwords _ hplace) hmod hrow
      · rw [hother hk, hwords t ht]
    have hrowAt (v : Nat) : w'.rowAt twin base v = if v = u then row u else w.rowAt twin base v := by
      by_cases hk : base + u / 32 = base + v / 32
      · rw [Wave.rowAt, ← hk, hsame, Tile.row_setRow (hwords _ hplace) hmod hrow, Wave.rowAt, hk]
        by_cases hv : v = u
        · rw [hv, if_pos rfl, if_pos rfl]
        · rw [if_neg (by omega), if_neg hv]
      · rw [Wave.rowAt, hother hk, if_neg (by rintro rfl; exact hk rfl), Wave.rowAt]
    obtain ⟨hG, hlength, hput, houtside, htwin⟩ := ih (fun v hv => hrows v (List.mem_cons_of_mem _ hv)) w' (hlen' ▸ hlen) hwords'
    refine ⟨hG.trans (w.onTile_G ..), hlength.trans hlen', fun v => ?_, fun k hk => ?_, fun k => (htwin k).trans (w.tile_onTile_twin ..)⟩
    · rw [Wave.putRows, List.foldl_cons, ← hw']
      refine (hput v).trans ?_
      rw [hrowAt]
      by_cases hin : v ∈ rows
      · rw [if_pos hin, if_pos (List.mem_cons_of_mem _ hin)]
      · by_cases hv : v = u
        · rw [if_neg hin, if_pos hv, if_pos (hv ▸ List.mem_cons_self), hv]
        · rw [if_neg hin, if_neg hv, if_neg (by simp [hv, hin])]
    · exact (houtside k hk).trans (hother (by omega))

/-- Setting kinds changes no word of a tile. -/
theorem Wave.putKinds_spec (int : Bool) (n : Nat) (w : Wave) (hlen : base + n ≤ (w.tileList twin).length) :
    let t := w.putKinds twin base int n
    (t.tileList twin).length = (w.tileList twin).length ∧
    (∀ k, t.tile twin k = if base ≤ k ∧ k < base + n then { w.tile twin k with int := int } else w.tile twin k) ∧
    ∀ k, t.tile (!twin) k = w.tile (!twin) k := by
  induction n with
  | zero => exact ⟨rfl, fun k => by rw [if_neg (by omega)]; rfl, fun _ => rfl⟩
  | succ n ih =>
    obtain ⟨hlength, htile, htwin⟩ := ih (by omega)
    have hsucc : w.putKinds twin base int (n + 1) = (w.putKinds twin base int n).onTile twin (base + n) fun t => { t with int := int } := by
      rw [Wave.putKinds, List.range_succ, List.foldl_append]
      rfl
    rw [hsucc]
    refine ⟨(Wave.length_tileList_onTile ..).trans hlength, fun k => ?_, fun k => (Wave.tile_onTile_twin ..).trans (htwin k)⟩
    by_cases hk : base + n = k
    · subst hk
      rw [Wave.tile_onTile_same _ twin _ (by omega), htile, if_neg (by omega), if_pos (by omega)]
    · rw [Wave.tile_onTile_other _ twin _ hk, htile]
      by_cases hin : base ≤ k ∧ k < base + n
      · rw [if_pos hin, if_pos (by omega)]
      · rw [if_neg hin, if_neg (by omega)]

end

/-- Settles O26: the rows are put first, and the kinds change no word. -/
theorem tileRowsWritten : Obligations.TileRowsWritten := by
  unfold Obligations.TileRowsWritten
  intro w twin base rows int row hwords hrows hlen t
  obtain ⟨hG, hlength, hput, houtside, htwin⟩ := Wave.putRows_spec twin base row hrows w hlen hwords
  obtain ⟨-, hkinds, hkindTwin⟩ := Wave.putKinds_spec twin base int w.G (w.putRows twin base row rows) (by rw [hlength]; exact hlen)
  have ht : t = (w.putRows twin base row rows).putKinds twin base int w.G := by rw [← hG]; rfl
  rw [ht]
  refine ⟨fun v => ?_, fun j hj => ?_, fun k hk => ?_, fun k => (hkindTwin k).trans (htwin k)⟩
  · rw [← hput v, Wave.rowAt, Wave.rowAt, hkinds]
    split <;> rfl
  · rw [hkinds, if_pos (by omega)]
  · rw [hkinds, if_neg (by omega), houtside k hk]

end Sys2Proof.Machine
end

section
/-! `wait` and `fence` (O23). -/

namespace Sys2Proof.Machine

/-- R211, acquire: no access at the port writes a register, and every part of a copy in or an atomic has settled. -/
theorem Wave.acquired_iff (w : Wave) :
    w.acquired = true ↔ (∀ x ∈ w.port, x.job.writesRegister = false) ∧
      ∀ o ∈ w.ops, (o.kind = .cpin ∨ o.kind = .cpgat ∨ (∃ d, o.kind = .satomic d) ∨ ∃ d, o.kind = .vatomic d) → ∀ q ∈ o.parts, q.settled = true := by
  rw [Wave.acquired, Bool.and_eq_true, List.all_eq_true]
  refine and_congr (by simp) (forall₂_congr fun o _ => ?_)
  cases o.kind <;> simp

/-- R211, release. -/
theorem State.released_iff (s : State) (w : Wave) (scope : Nat) :
    s.released w scope = true ↔ w.port = [] ∧ (∀ o ∈ w.ops, o.ctr ≠ none → o.complete = true) ∧
      (4 ≤ scope → ∀ e ∈ s.sideLog, e.wave ≠ w.key) ∧ (6 ≤ scope → s.hostWrites = 0) := by
  have hop (o : Op) : (o.ctr.isNone || o.complete) = true ↔ (o.ctr ≠ none → o.complete = true) := by
    cases o.ctr <;> simp
  have hge (n : Nat) (b : Bool) (P : Prop) (h : b = true ↔ P) : (decide (scope < n) || b) = true ↔ (n ≤ scope → P) := by
    rw [Bool.or_eq_true, decide_eq_true_eq, h, ← not_lt]
    tauto
  rw [State.released, Bool.and_eq_true, Bool.and_eq_true, Bool.and_eq_true, List.isEmpty_iff, List.all_eq_true,
    hge 4 _ (∀ e ∈ s.sideLog, e.wave ≠ w.key) (by simp), hge 6 _ (s.hostWrites = 0) (by simp), and_assoc, and_assoc]
  simp only [hop]

/-- The waits of a fence. -/
theorem State.fenceMet_iff (s : State) (w : Wave) (scope order : BitVec 4) :
    s.fenceMet w scope order = true ↔ (order ≠ 1 → w.acquired = true) ∧ (order ≠ 0 → s.released w scope.toNat = true) := by
  rw [State.fenceMet, Bool.and_eq_true, Bool.or_eq_true, Bool.or_eq_true, beq_iff_eq, beq_iff_eq]
  tauto

/-- Settles O23: the conditions are the model's own tests, said as properties. -/
theorem waitAndFenceHold : Obligations.WaitAndFenceHold := by
  unfold Obligations.WaitAndFenceHold
  refine ⟨fun k n => ⟨fun s w p hf hu hok => ?_, fun s w p hf hu hok => ?_⟩, ?_⟩
  · change execWait k n s = _
    rw [execWait, issueWord_runs hf hu]
    exact if_pos hok
  · change execWait k n s = _
    rw [execWait, issueWord_runs hf hu]
    exact if_neg (Nat.not_le.mpr hok)
  · intro scope order acquired released met
    have hmet (s : State) (w : Wave) : s.fenceMet w scope order = true ↔ met s w := by
      rw [State.fenceMet_iff, Wave.acquired_iff, State.released_iff]
    have hnot {s : State} {w : Wave} (h : ¬met s w) : s.fenceMet w scope order = false := eq_false_of_ne_true (mt (hmet s w).mp h)
    clear_value met
    have hexec (s : State) : exec (.fence scope order) s = execFence scope order s := rfl
    refine ⟨fun s w p hf hu hok => ?_, fun m x s w p hf hu hok => ?_, fun s w p hf hu hok => ?_, fun s w p hf hu hok => ?_⟩ <;>
      rw [hexec, execFence, issueWord_runs hf hu] <;>
      generalize p.stamp (.fence scope order) s.slots = q at hok ⊢
    · obtain ⟨hready, he, hm⟩ := hok
      simp only [(hmet s w).mpr hready, Wave.due_none he hm, Bool.not_true, Bool.false_eq_true, if_false]
      rfl
    · obtain ⟨hready, hdue⟩ := hok
      simp only [(hmet s w).mpr hready, hdue, Bool.not_true, Bool.false_eq_true, if_false]
      rfl
    · obtain ⟨hwait, hstatus⟩ := hok
      simp only [hnot hwait, Bool.not_false, if_true, beq_iff_eq, if_neg hstatus]
    · obtain ⟨hwait, hstatus⟩ := hok
      simp only [hnot hwait, Bool.not_false, if_true, beq_iff_eq, if_pos hstatus]

end Sys2Proof.Machine
end

section
/-! Scalar and per-lane atomics (O19). -/

namespace Sys2Proof.Machine

/-- A word runs its shared form, given for the states in which it issues. -/
theorem leadsTo_of_form {i : Instr} {ok : State → Wave → Split → Prop} {t : State → Wave → Split → State} {form : State → Result}
    (hexec : ∀ s, exec i s = form s)
    (h : ∀ s w p, s.fronts w p → s.unhindered w p i = true → ok s w (p.stamp i s.slots) → form s = .next (t s w (p.stamp i s.slots))) :
    leadsTo i ok t := fun s w p hf hu hok => (hexec s).trans (h s w p hf hu hok)

theorem isLocal64_eq (e : Nat) : isLocal64 e = decide (homeOf e = 0xFF) := rfl

/-- A piece of an atomic, with its place where the address is local. -/
theorem State.atomicPiece_eq (s : State) (w : Wave) (lane e size : Nat) (f : AtomicFn) (operand compare : Nat) :
    s.atomicPiece w lane e size f operand compare =
      ⟨0, e, none, if homeOf e = 0xFF then some (s.placeOf w (e % 2 ^ 32) size) else none, List.replicate size none, [0],
        .atomic f operand compare, lane⟩ := by
  simp [State.atomicPiece, isLocal64_eq]

/-- An atomic that has passed its checks, with room on its counter, joins its queues; without, it waits. -/
theorem State.atomicDone_eq (s : State) (w : Wave) (p : Split) (kind : OpKind) (mask : Mask) (pieces : List Piece) (before : Wave → Wave)
    (hseq : (before w).seq = w.seq) (hroom : (∃ x ∈ pieces, homeOf x.va ≠ 0xFF) → (before w).counter 3 < 255) :
    s.atomicDone (before w) p kind mask pieces = .next (afterAtomic kind mask pieces before s w p) := by
  have hopens : p.opens (before w) = p.opens w := by rw [Split.opens, hseq]; rfl
  have hmain : (pieces.any fun x => !isLocal64 x.va) = pieces.any fun x => decide (homeOf x.va ≠ 0xFF) := by
    simp only [isLocal64_eq, decide_not]
  have hfull : ((pieces.any fun x => decide (homeOf x.va ≠ 0xFF)) && (before w).counterFull 3) = false := by
    rw [Bool.and_eq_false_iff]
    by_cases h : ∃ x ∈ pieces, homeOf x.va ≠ 0xFF
    · exact .inr (by simp [Wave.counterFull, hroom h])
    · exact .inl (by simpa using h)
  have hlocal : (pieces.any fun x => isLocal64 x.va) = pieces.any fun x => decide (homeOf x.va = 0xFF) := rfl
  unfold State.atomicDone
  rw [hmain, hlocal, hopens]
  exact if_neg (by simp only [hfull, Bool.false_eq_true, not_false_eq_true])

/-- R209: it waits at a full counter. -/
theorem State.atomicDone_waits (s : State) (w : Wave) (p : Split) (kind : OpKind) (mask : Mask) (pieces : List Piece)
    (hmain : ∃ x ∈ pieces, homeOf x.va ≠ 0xFF) (hfull : 255 ≤ w.counter 3) : s.atomicDone w p kind mask pieces = .next s := by
  have hany : (pieces.any fun x => !isLocal64 x.va) = true := by
    obtain ⟨x, hx, hne⟩ := hmain
    exact List.any_eq_true.mpr ⟨x, hx, by simp [isLocal64_eq, hne]⟩
  unfold State.atomicDone
  simp only [hany, Wave.counterFull, ge_iff_le, decide_eq_true hfull, Bool.and_self, if_true]

@[simp] theorem Wave.markS_counter (w : Wave) (k : Nat) (e : Bool) (c : Nat) : (w.markS k e).counter c = w.counter c := by
  unfold Wave.markS
  split <;> rfl

/-! ### Scalar atomics (R140, R141) -/

section
variable {i : Instr} {d a b : Byte} {f : AtomicFn} (hexec : ∀ s, exec i s = scalarAtomic i d a b f s)
include hexec

/-- The copies that a scalar atomic compares. -/
theorem scalarAtomic_mismatch :
    leadsTo i (fun _ w _ => ¬(w.S a.toNat = w.Sh a.toNat ∧ w.S b.toNat = w.Sh b.toNat ∧ (f = .cas → w.S d.toNat = w.Sh d.toNat)))
      scalarMismatch := by
  refine leadsTo_of_form hexec fun s w p hf hu hok => ?_
  rw [scalarAtomic, issueWord_runs hf hu]
  exact if_pos (by tauto)

/-- What a scalar atomic whose copies agree checks, in its order. -/
theorem scalarAtomic_agrees {s : State} {w : Wave} {p : Split} (hf : s.fronts w p) (hu : s.unhindered w p i = true)
    (hagree : w.S a.toNat = w.Sh a.toNat ∧ w.S b.toNat = w.Sh b.toNat ∧ (f = .cas → w.S d.toNat = w.Sh d.toNat)) :
    exec i s = match s.outside64 w (w.S a.toNat).toNat 8 with
      | some bad => s.trapAt w (p.stamp i s.slots) trapLOCALBOUND bad (w.active (p.stamp i s.slots))
      | none =>
        if (w.S a.toNat).toNat % 8 ≠ 0 then
          s.trapAt w (p.stamp i s.slots) trapALIGN (reported64 (w.S a.toNat).toNat) (w.active (p.stamp i s.slots))
        else
          s.atomicDone (w.markS (w.sidx d.toNat) true) (p.stamp i s.slots) (.satomic (w.sidx d.toNat)) (w.active (p.stamp i s.slots))
            [s.atomicPiece w ((p.stamp i s.slots).lanes.lowest w.W) (w.S a.toNat).toNat 8 f (w.S b.toNat).toNat (w.S d.toNat).toNat] := by
  rw [hexec, scalarAtomic, issueWord_runs hf hu]
  refine (if_neg ?_).trans ?_
  · obtain ⟨ha, hb, hd⟩ := hagree
    rintro (h | h | ⟨hcas, h⟩)
    · exact h ha
    · exact h hb
    · exact h (hd hcas)
  · rfl

end

/-- The rules of the scalar atomics. -/
theorem scalarAtomic_results {i : Instr} {d a b : Byte} {f : AtomicFn} (hexec : ∀ s, exec i s = scalarAtomic i d a b f s) :
    let agree (w : Wave) : Prop := w.S a.toNat = w.Sh a.toNat ∧ w.S b.toNat = w.Sh b.toNat ∧ (f = .cas → w.S d.toNat = w.Sh d.toNat)
    let e (w : Wave) : Nat := (w.S a.toNat).toNat
    leadsTo i
      (fun s w _ => agree w ∧ s.outside64 w (e w) 8 = none ∧ e w % 8 = 0 ∧ (homeOf (e w) ≠ 0xFF → w.counter 3 < 255))
      (fun s w p => afterAtomic (.satomic (w.sidx d.toNat)) (w.active p)
        [⟨0, e w, none, if homeOf (e w) = 0xFF then some (s.placeOf w (e w % 2 ^ 32) 8) else none, List.replicate 8 none, [0],
          .atomic f (w.S b.toNat).toNat (w.S d.toNat).toNat, p.lanes.lowest w.W⟩]
        (fun w => w.markS (w.sidx d.toNat) true) s w p) ∧
    (∀ x, leadsTo i (fun s w _ => agree w ∧ s.outside64 w (e w) 8 = some x) (fun s w p => s.takeTrap w p 0x09 p.pc x (w.active p))) ∧
    leadsTo i (fun s w _ => agree w ∧ s.outside64 w (e w) 8 = none ∧ e w % 8 ≠ 0)
      (fun s w p => s.takeTrap w p 0x08 p.pc (if homeOf (e w) = 0xFF then e w % 2 ^ 32 else e w) (w.active p)) ∧
    leadsTo i (fun s w _ => agree w ∧ s.outside64 w (e w) 8 = none ∧ e w % 8 = 0 ∧ homeOf (e w) ≠ 0xFF ∧ 255 ≤ w.counter 3)
      (fun s _ _ => s) ∧
    leadsTo i (fun _ w _ => ¬agree w) scalarMismatch := by
  intro agree e
  refine ⟨fun s w p hf hu hok => ?_, fun x s w p hf hu hok => ?_, fun s w p hf hu hok => ?_, fun s w p hf hu hok => ?_, scalarAtomic_mismatch hexec⟩
  · obtain ⟨hagree, hin, halign, hroom⟩ := hok
    rw [scalarAtomic_agrees hexec hf hu hagree]
    simp only [show s.outside64 w (w.S a.toNat).toNat 8 = none from hin, if_neg (not_not_intro (show (w.S a.toNat).toNat % 8 = 0 from halign)),
      State.atomicPiece_eq]
    exact State.atomicDone_eq s w _ _ _ _ (fun w => w.markS (w.sidx d.toNat) true) (by simp) (by simpa using hroom)
  · obtain ⟨hagree, hout⟩ := hok
    rw [scalarAtomic_agrees hexec hf hu hagree]
    simp only [show s.outside64 w (w.S a.toNat).toNat 8 = some x from hout]
    rfl
  · obtain ⟨hagree, hin, halign⟩ := hok
    rw [scalarAtomic_agrees hexec hf hu hagree]
    simp only [show s.outside64 w (w.S a.toNat).toNat 8 = none from hin, if_pos (show (w.S a.toNat).toNat % 8 ≠ 0 from halign), reported64,
      isLocal64_eq, decide_eq_true_eq]
    rfl
  · obtain ⟨hagree, hin, halign, hmain, hfull⟩ := hok
    rw [scalarAtomic_agrees hexec hf hu hagree]
    simp only [show s.outside64 w (w.S a.toNat).toNat 8 = none from hin, if_neg (not_not_intro (show (w.S a.toNat).toNat % 8 = 0 from halign))]
    exact State.atomicDone_waits _ _ _ _ _ _ ⟨_, List.mem_singleton_self _, hmain⟩ (by simpa using hfull)

/-! ### Per-lane atomics (R196, R197) -/

/-- The function of a per-lane atomic, with the operand, the compare value and the data of each lane. -/
structure LaneAtomic where
  fn : Wave → AtomicFn
  operand : Wave → Nat → Nat
  compare : Wave → Nat → Nat
  data : Wave → Nat → Nat

/-- A per-lane atomic of one register. -/
def LaneAtomic.one (d : Byte) (f : Wave → AtomicFn) : LaneAtomic :=
  ⟨f, fun w l => (w.V_ d.toNat l).toNat, fun _ _ => 0, fun w l => (w.V_ d.toNat l).toNat⟩

/-- `vatcas`. -/
def LaneAtomic.two (d : Byte) : LaneAtomic :=
  ⟨fun _ => .cas, fun w l => (w.V_ (d.toNat + 1) l).toNat, fun w l => (w.V_ d.toNat l).toNat,
    fun w l => (w.V_ d.toNat l).toNat + 2 ^ 32 * (w.V_ (d.toNat + 1) l).toNat⟩

/-- A description agrees with the registers the model reads. -/
def LaneAtomic.reads (x : LaneAtomic) (d : Byte) : Prop :=
  ∀ w l, (x.fn w = .cas → x.operand w l = (w.V_ (d.toNat + 1) l).toNat ∧ x.compare w l = (w.V_ d.toNat l).toNat ∧
      x.data w l = (w.V_ d.toNat l).toNat + 2 ^ 32 * (w.V_ (d.toNat + 1) l).toNat) ∧
    (x.fn w ≠ .cas → x.operand w l = (w.V_ d.toNat l).toNat ∧ x.compare w l = 0 ∧ x.data w l = (w.V_ d.toNat l).toNat)

theorem LaneAtomic.reads_one {d : Byte} {f : Wave → AtomicFn} (hf : ∀ w, f w ≠ .cas) : (LaneAtomic.one d f).reads d :=
  fun w _ => ⟨fun h => absurd h (hf w), fun _ => ⟨rfl, rfl, rfl⟩⟩

theorem LaneAtomic.reads_two (d : Byte) : (LaneAtomic.two d).reads d := fun _ _ => ⟨fun _ => ⟨rfl, rfl, rfl⟩, fun h => absurd rfl h⟩

section
variable {i : Instr} {d a b : Byte} {x : LaneAtomic} {g : State → AtomicFn}
  (hexec : ∀ s, exec i s = laneAtomic i d a b (g s) s) (hg : ∀ s w p, s.fronts w p → g s = x.fn w) (hreads : x.reads d)
include hexec hg hreads

/-- What a per-lane atomic compares and checks, in its order, and the pieces it makes. -/
theorem laneAtomic_eq {s : State} {w : Wave} {p : Split} (hf : s.fronts w p) (hu : s.unhindered w p i = true) :
    let q := p.stamp i s.slots
    let e := w.eaddr a b
    let bad := w.differing (w.active q) fun l => e l + 2 ^ 64 * x.data w l
    exec i s =
      if bad ≠ 0 then s.mismatch w q bad false
      else match s.check64 w (w.list (w.active q)) e 4 with
        | some r => s.trapAt w q r.cause r.addr r.mask
        | none =>
          if w.performers (w.active q) = [] then s.done (w.writeV d.toNat 0 (fun _ => 0) .general).counted (q.opens w)
          else s.atomicDone (w.markV d.toNat true) q (.vatomic d.toNat) (w.active q)
            ((w.performers (w.active q)).map fun l =>
              ⟨0, e l, none, if homeOf (e l) = 0xFF then some (s.placeOf w (e l % 2 ^ 32) 4) else none, List.replicate 4 none, [0],
                .atomic (x.fn w) (x.operand w l) (x.compare w l), l⟩) := by
  intro q e bad
  rw [hexec, laneAtomic, issueWord_runs hf hu, hg s w p hf]
  by_cases hcas : x.fn w = .cas
  · have hdata (l : Nat) : x.data w l = (w.V_ d.toNat l).toNat + 2 ^ 32 * (w.V_ (d.toNat + 1) l).toNat := ((hreads w l).1 hcas).2.2
    have hoperand (l : Nat) : x.operand w l = (w.V_ (d.toNat + 1) l).toNat := ((hreads w l).1 hcas).1
    have hcompare (l : Nat) : x.compare w l = (w.V_ d.toNat l).toNat := ((hreads w l).1 hcas).2.1
    simp only [hcas, if_true, bad, hdata, hoperand, hcompare, State.atomicPiece_eq]
    rfl
  · have hdata (l : Nat) : x.data w l = (w.V_ d.toNat l).toNat := ((hreads w l).2 hcas).2.2
    have hoperand (l : Nat) : x.operand w l = (w.V_ d.toNat l).toNat := ((hreads w l).2 hcas).1
    have hcompare (l : Nat) : x.compare w l = 0 := ((hreads w l).2 hcas).2.1
    simp only [if_neg hcas, bad, hdata, hoperand, hcompare, State.atomicPiece_eq, Nat.mul_zero, Nat.add_zero]
    rfl

/-- The rules of the per-lane atomics. -/
theorem laneAtomic_results :
    let e (w : Wave) (l : Nat) : Nat :=
      ((if w.isShadow l then w.Sh a.toNat else w.S a.toNat) + (w.src b .raw l).setWidth 64).toNat
    let differ (w : Wave) (p : Split) : Mask := w.differing (w.active p) fun l => e w l + 2 ^ 64 * x.data w l
    let main (w : Wave) (p : Split) : Prop := ∃ l ∈ w.performers (w.active p), homeOf (e w l) ≠ 0xFF
    leadsTo i
      (fun s w p => differ w p = 0 ∧ s.check64 w (w.list (w.active p)) (e w) 4 = none ∧
        w.performers (w.active p) ≠ [] ∧ (main w p → w.counter 3 < 255))
      (fun s w p => afterAtomic (.vatomic d.toNat) (w.active p)
        ((w.performers (w.active p)).map fun l =>
          ⟨0, e w l, none, if homeOf (e w l) = 0xFF then some (s.placeOf w (e w l % 2 ^ 32) 4) else none, List.replicate 4 none, [0],
            .atomic (x.fn w) (x.operand w l) (x.compare w l), l⟩)
        (fun w => w.markV d.toNat true) s w p) ∧
    leadsTo i
      (fun s w p => differ w p = 0 ∧ s.check64 w (w.list (w.active p)) (e w) 4 = none ∧ w.performers (w.active p) = [])
      (fun s w p => s.putWave ((w.writeV d.toNat 0 (fun _ => 0) .general).counted.advance (p.opens w))) ∧
    leadsTo i
      (fun s w p => differ w p = 0 ∧ s.check64 w (w.list (w.active p)) (e w) 4 = none ∧ main w p ∧ 255 ≤ w.counter 3) (fun s _ _ => s) ∧
    (∀ r, leadsTo i (fun s w p => differ w p = 0 ∧ s.check64 w (w.list (w.active p)) (e w) 4 = some r)
      (fun s w p => s.takeTrap w p r.cause p.pc r.addr r.mask)) ∧
    leadsTo i (fun _ w p => differ w p ≠ 0) (pairMismatch differ) := by
  intro e differ main
  have heq {s : State} {w : Wave} {p : Split} (hf : s.fronts w p) (hu : s.unhindered w p i = true) := laneAtomic_eq hexec hg hreads hf hu
  refine ⟨fun s w p hf hu hok => ?_, fun s w p hf hu hok => ?_, fun s w p hf hu hok => ?_, fun r s w p hf hu hok => ?_, fun s w p hf hu hok => ?_⟩ <;>
    refine (heq hf hu).trans ?_ <;> generalize p.stamp i s.slots = q at hok ⊢
  · obtain ⟨hsame, hcheck, hsome, hroom⟩ := hok
    refine (if_neg (not_not_intro hsame)).trans ?_
    simp only [show s.check64 w (w.list (w.active q)) (w.eaddr a b) 4 = none from hcheck, if_neg hsome]
    refine State.atomicDone_eq s w q _ _ _ (fun w => w.markV d.toNat true) rfl fun ⟨y, hy, hne⟩ => hroom ?_
    obtain ⟨l, hl, rfl⟩ := List.mem_map.mp hy
    exact ⟨l, hl, hne⟩
  · obtain ⟨hsame, hcheck, hnone⟩ := hok
    refine (if_neg (not_not_intro hsame)).trans ?_
    simp only [show s.check64 w (w.list (w.active q)) (w.eaddr a b) 4 = none from hcheck, if_pos hnone]
    rfl
  · obtain ⟨hsame, hcheck, ⟨l, hl, hne⟩, hfull⟩ := hok
    refine (if_neg (not_not_intro hsame)).trans ?_
    simp only [show s.check64 w (w.list (w.active q)) (w.eaddr a b) 4 = none from hcheck, if_neg (List.ne_nil_of_mem hl)]
    exact State.atomicDone_waits _ _ _ _ _ _ ⟨_, List.mem_map.mpr ⟨l, hl, rfl⟩, hne⟩ hfull
  · obtain ⟨hsame, hcheck⟩ := hok
    refine (if_neg (not_not_intro hsame)).trans ?_
    simp only [show s.check64 w (w.list (w.active q)) (w.eaddr a b) 4 = some r from hcheck]
    rfl
  · exact if_pos hok

end

/-- The comparison of the front wave's class. -/
theorem State.frontSigned_of_fronts {s : State} {w : Wave} {p : Split} (h : s.fronts w p) : s.frontSigned = decide (w.C.kind = .int) := by
  rw [State.frontSigned, h.1]
  by_cases hk : w.C.kind = .int <;> simp [Wave.atomicSigned, hk]

/-- Settles O19: every scalar atomic has one form, and every per-lane atomic another. -/
theorem atomicIssues : Obligations.AtomicIssues := by
  unfold Obligations.AtomicIssues
  refine ⟨?_, ?_⟩
  · intro d a b row
    have hrow {i : Instr} {f : AtomicFn} (hexec : ∀ s, exec i s = scalarAtomic i d a b f s) : row i f := scalarAtomic_results hexec
    clear_value row
    exact ⟨hrow fun _ => rfl, hrow fun _ => rfl, hrow fun _ => rfl, hrow fun _ => rfl, hrow fun _ => rfl, hrow fun _ => rfl, hrow fun _ => rfl,
      hrow fun _ => rfl⟩
  · intro d a b e row one
    have hrow {i : Instr} (x : LaneAtomic) (g : State → AtomicFn) (hexec : ∀ s, exec i s = laneAtomic i d a b (g s) s)
        (hg : ∀ s w p, s.fronts w p → g s = x.fn w) (hreads : x.reads d) : row i x.fn x.operand x.compare x.data :=
      laneAtomic_results hexec hg hreads
    have hone {i : Instr} (f : Wave → AtomicFn) (g : State → AtomicFn) (hexec : ∀ s, exec i s = laneAtomic i d a b (g s) s)
        (hg : ∀ s w p, s.fronts w p → g s = f w) (hcas : ∀ w, f w ≠ .cas) : one i f :=
      hrow (.one d f) g hexec hg (LaneAtomic.reads_one hcas)
    have htwo : row (.vatcas d a b) (fun _ => .cas) (fun w l => (w.V_ (d.toNat + 1) l).toNat) (fun w l => (w.V_ d.toNat l).toNat)
        (fun w l => (w.V_ d.toNat l).toNat + 2 ^ 32 * (w.V_ (d.toNat + 1) l).toNat) :=
      hrow (.two d) (fun _ => .cas) (fun _ => rfl) (fun _ _ _ _ => rfl) (LaneAtomic.reads_two d)
    clear_value one row
    refine ⟨hone _ (fun _ => .add) (fun _ => rfl) (fun _ _ _ _ => rfl) (by simp),
      hone _ (fun s => if s.frontSigned then .min else .minu) (fun _ => rfl) (fun s w p h => ?_) (fun w => ?_),
      hone _ (fun s => if s.frontSigned then .max else .maxu) (fun _ => rfl) (fun s w p h => ?_) (fun w => ?_),
      hone _ (fun _ => .and) (fun _ => rfl) (fun _ _ _ _ => rfl) (by simp), hone _ (fun _ => .or) (fun _ => rfl) (fun _ _ _ _ => rfl) (by simp),
      hone _ (fun _ => .xchg) (fun _ => rfl) (fun _ _ _ _ => rfl) (by simp), htwo⟩
    · simp [State.frontSigned_of_fronts h]
    · split <;> simp
    · simp [State.frontSigned_of_fronts h]
    · split <;> simp

end Sys2Proof.Machine
end

section
/-! Vector loads and stores, and the spill stack (O16–O18). -/

namespace Sys2Proof.Machine

/-! ### Loads (R190-R194) -/

/-- Writing no lane leaves the lanes; the tag is general. -/
theorem Wave.writeV_zero_general (w : Wave) (d : Nat) (f : Nat → Word32) :
    w.writeV d 0 f .general = w.onV d fun r => { r with tag := .general } := by
  have htag : w.tagFor 0 .general = .general := by
    unfold Wave.tagFor
    split <;> rfl
  have hlanes (r : VReg) : (r.lanes.zipIdx.map fun x => if (0 : Mask).has x.2 then f x.2 else x.1) = r.lanes := by
    have hhas (i : Nat) : (0 : Mask).has i = false := by simp [Mask.has]
    simp only [hhas, Bool.false_eq_true, if_false]
    simp
  unfold Wave.writeV
  simp only [hlanes, htag]

/-- A load that has passed its checks. -/
theorem State.loadDone_eq (s : State) (w : Wave) (p : Split) (d : Byte) (on : Mask) (remote : Bool) (job : PortJob) {before : Wave → Wave}
    (hkern : (before w).kern = w.kern) : s.loadDone (before w) p d on remote job = .next (afterLoad d on remote job before s w p) := by
  have hlist : ((before w).onV d.toNat fun r => { r with tag := .general }).list on = w.list on := by
    change on.lanes (before w).W = on.lanes w.W
    rw [Wave.W, Wave.W, hkern]
  unfold State.loadDone afterLoad
  simp only [Wave.writeV_zero_general, hlist]
  split
  · rfl
  · cases remote <;> rfl

section
variable {i : Instr} {d a b : Byte} {n : Nat} (hexec : ∀ s, exec i s = rawLoad i d a b n s)
include hexec

/-- A raw load. -/
theorem rawLoad_results :
    let addr (w : Wave) (l : Nat) : Nat := (w.src a .raw l + w.src b .raw l).toNat
    let remote (w : Wave) (p : Split) : Bool := (w.list (w.active p)).any fun l => decide (0x40000 ≤ addr w l)
    let check (s : State) (w : Wave) (p : Split) : Option Refused :=
      s.checkLanes w ((w.list (w.active p)).map fun l => ⟨l, addr w l, n, n⟩)
    leadsTo i (fun s w p => check s w p = none) (fun s w p =>
      afterLoad d (w.active p) (remote w p) (.vload d.toNat (some n) .i32 .i32
        ((w.list (w.active p)).map fun l => ⟨l, s.placeOf w (addr w l) n, none, 0, .rne⟩)) id s w p) ∧
    ∀ r, leadsTo i (fun s w p => check s w p = some r) (fun s w p => s.takeTrap w p r.cause p.pc r.addr r.mask) := by
  intro addr remote check
  have haddr (w : Wave) : w.vaddr a b = addr w := rfl
  refine ⟨leadsTo_of_form hexec fun s w p hf hu hok => ?_, fun r => leadsTo_of_form hexec fun s w p hf hu hok => ?_⟩ <;>
    rw [rawLoad, issueWord_runs hf hu] <;> generalize p.stamp i s.slots = q at hok ⊢ <;> simp only [haddr]
  · rw [show s.checkLanes w ((w.list (w.active q)).map fun l => ⟨l, addr w l, n, n⟩) = none from hok]
    exact s.loadDone_eq w q d _ _ _ (before := id) rfl
  · rw [show s.checkLanes w ((w.list (w.active q)).map fun l => ⟨l, addr w l, n, n⟩) = some r from hok]
    rfl

end

@[simp] theorem Wave.bumpIfSRF_kern (w : Wave) (mr : Word64) (on : Mask) : (w.bumpIfSRF mr on).kern = w.kern := by
  unfold Wave.bumpIfSRF
  split <;> rfl

/-- Settles O16: the raw loads have one form; `vld` has its own. -/
theorem vectorLoadIssues : Obligations.VectorLoadIssues := by
  unfold Obligations.VectorLoadIssues
  intro d a b addr remote raw
  have hraw {i : Instr} {n : Nat} (hexec : ∀ s, exec i s = rawLoad i d a b n s) : raw i n := rawLoad_results hexec
  clear_value raw
  have haddr (w : Wave) : w.vaddr a b = addr w := rfl
  have hexec (s : State) : exec (.vld d a b) s = execVld d a b s := rfl
  refine ⟨hraw fun _ => rfl, hraw fun _ => rfl, hraw fun _ => rfl, leadsTo_of_form hexec fun s w p hf hu hok => ?_,
    fun r => leadsTo_of_form hexec fun s w p hf hu hok => ?_⟩ <;>
    rw [execVld, issueWord_runs hf hu] <;> generalize p.stamp (.vld d a b) s.slots = q at hok ⊢ <;> simp only [haddr]
  · rw [show s.checkClass w w.C.storage (w.active q) (addr w) = none from hok]
    refine s.loadDone_eq w q d _ _ _ (before := fun v => if w.C.storage.isMX then v.bumpIfSRF v.a.mr (w.active q) else v) ?_
    split
    · exact Wave.bumpIfSRF_kern ..
    · rfl
  · rw [show s.checkClass w w.C.storage (w.active q) (addr w) = some r from hok]
    rfl

/-! ### Stores (R189, R193, R194) -/

/-- A store that has passed its checks. -/
theorem State.storeDone_eq (s : State) (w : Wave) (p : Split) (writes : List (LocalAt × Byte × Byte)) (before : Wave → Wave) :
    s.storeDone (before w) p writes = .next (afterStore writes before s w p) := by
  unfold State.storeDone afterStore
  split <;> rfl

section
variable {i : Instr} {d a b : Byte} {n : Nat} (hexec : ∀ s, exec i s = rawStore i d a b n s)
include hexec

/-- A raw store. -/
theorem rawStore_results :
    let addr (w : Wave) (l : Nat) : Nat := (w.src a .raw l + w.src b .raw l).toNat
    let differ (w : Wave) (p : Split) : Mask := w.differing (w.active p) fun l => addr w l + 2 ^ 32 * (w.src d .raw l).toNat
    let check (s : State) (w : Wave) (p : Split) : Option Refused :=
      s.checkLanes w ((w.list (w.active p)).map fun l => ⟨l, addr w l, n, n⟩)
    leadsTo i (fun s w p => differ w p = 0 ∧ check s w p = none) (fun s w p =>
      afterStore (((w.list (w.active p)).filter fun l => !w.isShadow l).flatMap fun l =>
        bytesAt (s.placeOf w (addr w l) n) n (w.src d .raw l).toNat) id s w p) ∧
    (∀ r, leadsTo i (fun s w p => differ w p = 0 ∧ check s w p = some r) (fun s w p => s.takeTrap w p r.cause p.pc r.addr r.mask)) ∧
    leadsTo i (fun _ w p => differ w p ≠ 0) (pairMismatch differ) := by
  intro addr differ check
  have haddr (w : Wave) : w.vaddr a b = addr w := rfl
  refine ⟨leadsTo_of_form hexec fun s w p hf hu hok => ?_, fun r => leadsTo_of_form hexec fun s w p hf hu hok => ?_,
    leadsTo_of_form hexec fun s w p hf hu hok => ?_⟩ <;>
    rw [rawStore, issueWord_runs hf hu] <;> generalize p.stamp i s.slots = q at hok ⊢ <;> simp only [haddr]
  · obtain ⟨hsame, hcheck⟩ := hok
    refine (if_neg (not_not_intro hsame)).trans ?_
    rw [show s.checkLanes w ((w.list (w.active q)).map fun l => ⟨l, addr w l, n, n⟩) = none from hcheck]
    exact s.storeDone_eq w q _ id
  · obtain ⟨hsame, hcheck⟩ := hok
    refine (if_neg (not_not_intro hsame)).trans ?_
    rw [show s.checkLanes w ((w.list (w.active q)).map fun l => ⟨l, addr w l, n, n⟩) = some r from hcheck]
    rfl
  · exact if_pos hok

end

section
variable (d a b : Byte)

/-- The lanes of a `vst` whose values are out of class range. -/
def Wave.storeFar (w : Wave) (p : Split) : List Nat := w.outsideLanes w.C (w.list (w.active p)) (w.srcVal d (.cls w.C))

/-- The lanes whose signalling NaN would set invalid. -/
def Wave.storeSignal (w : Wave) (p : Split) : List Nat :=
  if w.C.compute.kind = .real then (w.list (w.active p)).filter fun l => (w.srcVal d (.cls w.C) l).isSignalling else []

/-- What a `vst` does once its pairs are alike and its addresses legal. -/
theorem execVst_checked {s : State} {w : Wave} {p : Split} (hf : s.fronts w p) (hu : s.unhindered w p (.vst d a b) = true)
    (hsame : w.differing (w.active (p.stamp (.vst d a b) s.slots)) (fun l => w.vaddr a b l + 2 ^ 32 * (w.src d (.cls w.C) l).toNat) = 0)
    (hcheck : s.checkClass w w.C.storage (w.active (p.stamp (.vst d a b) s.slots)) (w.vaddr a b) = none) :
    let q := p.stamp (.vst d a b) s.slots
    execVst d a b s =
      if (w.kern.traponrng && !(w.storeFar d q).isEmpty) = true then s.trapAt w q trapRANGE 0 (Mask.ofLanes (w.storeFar d q))
      else if (w.kern.traponinv && !(w.storeSignal d q).isEmpty) = true then s.trapAt w q trapNUMERIC 0 (Mask.ofLanes (w.storeSignal d q))
      else
        let out := s.storeBytes w w.C.storage (w.active q) (w.vaddr a b) (w.srcVal d (.cls w.C))
        let v := w.flags (out.2.foldl (fun acc y => acc ||| y.2)
          (flagIf (!(w.storeFar d q).isEmpty) nsRange ||| flagIf (!(w.storeSignal d q).isEmpty) nsInvalid))
        s.storeDone (if w.C.storage.kind == .real then v.bumpIfSRF w.a.mr (w.active q) else v) q out.1 := by
  intro q
  rw [execVst, issueWord_runs hf hu]
  refine (if_neg (not_not_intro hsame)).trans ?_
  simp only [hcheck, Wave.rounds_eq_true_iff]
  rfl

/-- A flag for a list that is not empty. -/
theorem flagIf_not_isEmpty {α : Type} (l : List α) (f : BitVec 7) : flagIf (!l.isEmpty) f = if l = [] then 0 else f := by
  cases l <;> rfl

/-- Does a `.trapon` find no lane? -/
theorem trapon_passes {α : Type} {on : Bool} {l : List α} (h : on = false ∨ l = []) : ¬(on && !l.isEmpty) = true := by
  rcases h with rfl | rfl <;> simp

theorem trapon_traps {α : Type} {on : Bool} {l : List α} (hon : on = true) (h : l ≠ []) : (on && !l.isEmpty) = true := by
  simp [hon, h]

end

/-- Settles O17: the raw stores have one form; `vst` takes its traps in order. -/
theorem vectorStoreIssues : Obligations.VectorStoreIssues := by
  unfold Obligations.VectorStoreIssues
  intro d a b addr raw
  have hraw {i : Instr} {n : Nat} (hexec : ∀ s, exec i s = rawStore i d a b n s) : raw i n := rawStore_results hexec
  clear_value raw
  have hexec (s : State) : exec (.vst d a b) s = execVst d a b s := rfl
  refine ⟨hraw fun _ => rfl, hraw fun _ => rfl, hraw fun _ => rfl, ?_⟩
  intro form differ far signal
  refine ⟨leadsTo_of_form hexec fun s w p hf hu hok => ?_, leadsTo_of_form hexec fun s w p hf hu hok => ?_,
    leadsTo_of_form hexec fun s w p hf hu hok => ?_, fun r => leadsTo_of_form hexec fun s w p hf hu hok => ?_,
    leadsTo_of_form hexec fun s w p hf hu hok => ?_⟩
  · obtain ⟨hsame, hcheck, hrng, hinv⟩ := hok
    rw [execVst_checked d a b hf hu hsame hcheck]
    refine (if_neg (trapon_passes hrng)).trans ((if_neg (trapon_passes hinv)).trans ?_)
    simp only [flagIf_not_isEmpty, beq_iff_eq]
    exact s.storeDone_eq w _ _ fun v =>
      let u := v.flags _
      if w.C.storage.kind = .real then u.bumpIfSRF w.a.mr _ else u
  · obtain ⟨hsame, hcheck, htrapon, hfar⟩ := hok
    rw [execVst_checked d a b hf hu hsame hcheck]
    exact if_pos (trapon_traps htrapon hfar)
  · obtain ⟨hsame, hcheck, hrng, htrapon, hsignal⟩ := hok
    rw [execVst_checked d a b hf hu hsame hcheck]
    exact (if_neg (trapon_passes hrng)).trans (if_pos (trapon_traps htrapon hsignal))
  · obtain ⟨hsame, hcheck⟩ := hok
    rw [execVst, issueWord_runs hf hu]
    refine (if_neg (not_not_intro hsame)).trans ?_
    simp only [show s.checkClass w w.C.storage (w.active (p.stamp (.vst d a b) s.slots)) (w.vaddr a b) = some r from hcheck]
    rfl
  · rw [execVst, issueWord_runs hf hu]
    exact if_pos hok

/-! ### The spill stack (R195) -/

/-- The lanes of a mask are listed in order. -/
theorem Wave.list_sorted (w : Wave) (m : Mask) : (w.list m).Pairwise (· < ·) := List.Pairwise.filter _ List.pairwise_lt_range

/-- The failing lanes of an ordered list are reported with the address of the first. -/
theorem refusedOf_sorted (cause : Nat) {bad rest : List Nat} {t : Nat → Nat} {l : Nat} (hbad : bad = l :: rest) (hsorted : bad.Pairwise (· < ·)) :
    refusedOf cause (bad.map fun i => (i, t i)) = some ⟨cause, t l, Mask.ofLanes bad⟩ := by
  subst hbad
  refine refusedOf_map cause List.mem_cons_self fun k hk => ?_
  rcases List.mem_cons.mp hk with rfl | hk
  · exact le_rfl
  · exact ((List.pairwise_cons.mp hsorted).1 k hk).le

section
variable (w : Wave) (on : Mask) (off : Nat → Nat)

/-- The lanes beyond their stacks. -/
def Wave.spillFar : List Nat := (w.list on).filter fun l => decide (w.kern.stack < off l + 4)

/-- The misaligned lanes. -/
def Wave.spillSkew : List Nat := (w.list on).filter fun l => decide (off l % 4 ≠ 0)

theorem Wave.checkSpill_eq :
    w.checkSpill on off = (refusedOf trapLOCALBOUND ((w.spillFar on off).map fun i => (i, off i))).or
      (refusedOf trapALIGN ((w.spillSkew on off).map fun i => (i, off i))) := by
  have hskew : ((w.list on).filter fun i => off i % 4 != 0) = w.spillSkew on off :=
    List.filter_congr fun l _ => bne_eq_decide_ne _ _
  rw [← hskew]
  change (match refusedOf trapLOCALBOUND ((w.spillFar on off).map fun i => (i, off i)) with | some r => _ | none => _) = _
  cases refusedOf trapLOCALBOUND ((w.spillFar on off).map fun i => (i, off i)) <;> rfl

variable {w on off}

theorem Wave.checkSpill_passes (hfar : w.spillFar on off = []) (hskew : w.spillSkew on off = []) : w.checkSpill on off = none := by
  rw [Wave.checkSpill_eq, hfar, hskew]
  rfl

theorem Wave.checkSpill_far {l : Nat} {rest : List Nat} (hfar : w.spillFar on off = l :: rest) :
    w.checkSpill on off = some ⟨trapLOCALBOUND, off l, Mask.ofLanes (w.spillFar on off)⟩ := by
  rw [Wave.checkSpill_eq, refusedOf_sorted _ hfar ((w.list_sorted on).filter _)]
  rfl

theorem Wave.checkSpill_skew {l : Nat} {rest : List Nat} (hfar : w.spillFar on off = []) (hskew : w.spillSkew on off = l :: rest) :
    w.checkSpill on off = some ⟨trapALIGN, off l, Mask.ofLanes (w.spillSkew on off)⟩ := by
  rw [Wave.checkSpill_eq, refusedOf_sorted _ hskew ((w.list_sorted on).filter _), hfar]
  rfl

end

/-- Settles O18: the check over the lanes decides. -/
theorem spillStackResults : Obligations.SpillStackResults := by
  unfold Obligations.SpillStackResults
  intro d a off far skew differ traps
  have hload (s : State) : exec (.vlds d a) s = execVlds d a s := rfl
  have hstore (s : State) : exec (.vsts d a) s = execVsts d a s := rfl
  refine ⟨leadsTo_of_form hload fun s w p hf hu hok => ?_, leadsTo_afterWord hstore fun s w p hf hu hok => ?_,
    fun l rest => ⟨leadsTo_of_form hload fun s w p hf hu hok => ?_, leadsTo_of_form hload fun s w p hf hu hok => ?_⟩,
    fun l rest => ⟨leadsTo_of_form hstore fun s w p hf hu hok => ?_, leadsTo_of_form hstore fun s w p hf hu hok => ?_⟩,
    leadsTo_of_form hstore fun s w p hf hu hok => ?_⟩
  · obtain ⟨hfar, hskew⟩ := hok
    rw [execVlds, issueWord_runs hf hu]
    simp only [Wave.checkSpill_passes (off := w.spillOff a) hfar hskew]
    rfl
  · obtain ⟨hsame, hfar, hskew⟩ := hok
    rw [execVsts, issueWord_runs hf hu]
    refine (if_neg (not_not_intro hsame)).trans ?_
    simp only [Wave.checkSpill_passes (off := w.spillOff a) hfar hskew]
    rfl
  · obtain ⟨-, hfar⟩ := hok
    rw [execVlds, issueWord_runs hf hu]
    simp only [Wave.checkSpill_far (off := w.spillOff a) hfar]
    rfl
  · obtain ⟨-, hfar, hskew⟩ := hok
    rw [execVlds, issueWord_runs hf hu]
    simp only [Wave.checkSpill_skew (off := w.spillOff a) hfar hskew]
    rfl
  · obtain ⟨hsame, hfar⟩ := hok
    rw [execVsts, issueWord_runs hf hu]
    refine (if_neg (not_not_intro hsame)).trans ?_
    simp only [Wave.checkSpill_far (off := w.spillOff a) hfar]
    rfl
  · obtain ⟨hsame, hfar, hskew⟩ := hok
    rw [execVsts, issueWord_runs hf hu]
    refine (if_neg (not_not_intro hsame)).trans ?_
    simp only [Wave.checkSpill_skew (off := w.spillOff a) hfar hskew]
    rfl
  · rw [execVsts, issueWord_runs hf hu]
    exact if_pos hok

end Sys2Proof.Machine
end

section
/-! What atomics write, and crucible cells (O20). -/

namespace Sys2Proof.Machine

/-! ### Atomic functions (R140, R196) -/

/-- The signed comparisons take the lesser or the greater, as signed numbers. -/
theorem atomicNew_min (n m x c : Nat) :
    ∃ v, atomicNew .min n m x c = some v ∧ signed (8 * n) v = min (signed (8 * n) m) (signed (8 * n) x) := by
  refine ⟨_, rfl, ?_⟩
  split
  next h => rw [min_eq_right h.le]
  next h => rw [min_eq_left (not_lt.mp h)]

theorem atomicNew_max (n m x c : Nat) :
    ∃ v, atomicNew .max n m x c = some v ∧ signed (8 * n) v = max (signed (8 * n) m) (signed (8 * n) x) := by
  refine ⟨_, rfl, ?_⟩
  split
  next h => rw [max_eq_right h.le]
  next h => rw [max_eq_left (not_lt.mp h)]

/-! ### The fields of a cell (R58) -/

/-- The status bits of a cell as a number. -/
def CxCell.status (c : CxCell) : Nat :=
  c.nan.toNat + 2 * c.pinf.toNat + 4 * c.ninf.toNat + 8 * c.ovp.toNat + 16 * c.ovn.toNat

theorem CxCell.toNat_eq (c : CxCell) : c.toNat = 2 ^ 384 * c.status + c.value.toNat := Nat.add_comm _ _

theorem CxCell.status_lt (c : CxCell) : c.status < 32 := by
  have (b : Bool) : b.toNat ≤ 1 := Bool.toNat_le b
  have := this c.nan
  have := Bool.toNat_le c.pinf
  have := Bool.toNat_le c.ninf
  have := Bool.toNat_le c.ovp
  have := Bool.toNat_le c.ovn
  unfold CxCell.status
  omega

/-- The bits of a number of five bits. -/
theorem fiveBits : ∀ a b c d e : Bool,
    let x := a.toNat + 2 * b.toNat + 4 * c.toNat + 8 * d.toNat + 16 * e.toNat
    x.testBit 0 = a ∧ x.testBit 1 = b ∧ x.testBit 2 = c ∧ x.testBit 3 = d ∧ x.testBit 4 = e := by
  decide

theorem CxCell.status_testBit (c : CxCell) :
    c.status.testBit 0 = c.nan ∧ c.status.testBit 1 = c.pinf ∧ c.status.testBit 2 = c.ninf ∧ c.status.testBit 3 = c.ovp ∧
      c.status.testBit 4 = c.ovn :=
  fiveBits c.nan c.pinf c.ninf c.ovp c.ovn

/-- A cell is read back from its own number. -/
theorem CxCell.ofNat_toNat (c : CxCell) : CxCell.ofNat c.toNat = c := by
  have hbit (k : Nat) : c.toNat.testBit (384 + k) = c.status.testBit k := by
    rw [CxCell.toNat_eq, Nat.testBit_two_pow_mul_add _ c.value.isLt, if_neg (by omega), Nat.add_sub_cancel_left]
  have hvalue : BitVec.ofNat 384 c.toNat = c.value := by
    refine BitVec.eq_of_toNat_eq ?_
    rw [BitVec.toNat_ofNat, CxCell.toNat_eq, Nat.mul_add_mod, Nat.mod_eq_of_lt c.value.isLt]
  obtain ⟨h0, h1, h2, h3, h4⟩ := c.status_testBit
  rw [CxCell.ofNat, hvalue, hbit 0, hbit 1, hbit 2, hbit 3, hbit 4, h0, h1, h2, h3, h4]

theorem CxCell.toNat_lt (c : CxCell) : c.toNat < 2 ^ 389 := by
  have hv := c.value.isLt
  have hs := c.status_lt
  rw [CxCell.toNat_eq]
  omega

/-! ### Adds (R59) -/

theorem toFixed_of_le {neg : Bool} {m : Nat} {e : Int} (he : -192 ≤ e) :
    toFixed neg m e = if neg = true then -((m : Int) * 2 ^ (e + 192).toNat) else (m : Int) * 2 ^ (e + 192).toNat := by
  simp [toFixed, he, Nat.shiftLeft_eq]

/-- What an add does to the value and to NAN, PINF and NINF. -/
structure CxSum where
  value : BitVec 384
  nan : Bool
  pinf : Bool
  ninf : Bool

/-- Those parts of a cell. -/
def CxCell.sum (c : CxCell) : CxSum := ⟨c.value, c.nan, c.pinf, c.ninf⟩

/-- An add to them. -/
def CxSum.add (c : CxSum) : Val → CxSum
  | .nan _ => { c with nan := true }
  | .inf false => { c with pinf := true }
  | .inf true => { c with ninf := true }
  | .num neg m e _ => { c with value := c.value + BitVec.ofInt 384 (toFixed neg m e) }

theorem CxCell.sum_add (c : CxCell) (v : Val) : (c.add v).sum = c.sum.add v := by
  cases v with
  | nan => rfl
  | inf neg => cases neg <;> rfl
  | num neg m e st => simp [CxCell.add, CxCell.sum, CxSum.add, BitVec.ofInt_add]

theorem CxCell.sum_foldl (vs : List Val) (c : CxCell) : (vs.foldl CxCell.add c).sum = vs.foldl CxSum.add c.sum := by
  induction vs generalizing c with
  | nil => rfl
  | cons v vs ih => rw [List.foldl_cons, ih, CxCell.sum_add, List.foldl_cons]

/-- Two adds give the same in either order. -/
theorem CxSum.add_comm (c : CxSum) (v w : Val) : (c.add v).add w = (c.add w).add v := by
  cases v with
  | nan => cases w with
    | nan => rfl
    | inf neg => cases neg <;> rfl
    | num => rfl
  | inf neg => cases w with
    | nan => cases neg <;> rfl
    | inf neg' => cases neg <;> cases neg' <;> rfl
    | num => cases neg <;> rfl
  | num => cases w with
    | nan => rfl
    | inf neg => cases neg <;> rfl
    | num => exact congrArg (fun x => { c with value := x }) (add_right_comm _ _ _)

/-- R59: the value and NAN, PINF and NINF do not depend on the order of the adds. -/
theorem CxCell.sum_perm (c : CxCell) {vs ws : List Val} (h : vs.Perm ws) : (vs.foldl CxCell.add c).sum = (ws.foldl CxCell.add c).sum := by
  have : RightCommutative CxSum.add := ⟨CxSum.add_comm⟩
  rw [CxCell.sum_foldl, CxCell.sum_foldl, h.foldl_eq]

/-- A finite value on the cell's scale. -/
def fixedMag (v : Bool × Nat × Int) : Nat := v.2.1 * 2 ^ (v.2.2 + 192).toNat

def fixedInt (v : Bool × Nat × Int) : Int := if v.1 = true then -(fixedMag v : Int) else fixedMag v

theorem toFixed_eq_fixedInt {v : Bool × Nat × Int} (he : -192 ≤ v.2.2) : toFixed v.1 v.2.1 v.2.2 = fixedInt v := by
  rw [toFixed_of_le he, fixedInt, fixedMag]
  push_cast
  rfl

theorem abs_fixedInt (v : Bool × Nat × Int) : |fixedInt v| = fixedMag v := by
  unfold fixedInt
  split <;> simp

/-- R59: while the magnitudes stay small no sum is out of range. -/
theorem CxCell.foldl_add_exact {vs : List (Bool × Nat × Int)} (he : ∀ v ∈ vs, -192 ≤ v.2.2) {c : CxCell} (hovp : c.ovp = false) (hovn : c.ovn = false)
    (hsmall : |c.value.toInt| + ((vs.map fixedMag).sum : Nat) < 2 ^ 383) :
    let x := vs.foldl (fun c v => c.add (.num v.1 v.2.1 v.2.2 false)) c
    x.ovp = false ∧ x.ovn = false ∧ x.value.toInt = c.value.toInt + (vs.map fixedInt).sum := by
  induction vs generalizing c with
  | nil => exact ⟨hovp, hovn, by simp⟩
  | cons v vs ih =>
    have hv := abs_fixedInt v
    rw [List.map_cons, List.sum_cons] at hsmall
    push_cast at hsmall
    have habs : |c.value.toInt + fixedInt v| ≤ |c.value.toInt| + fixedMag v := hv ▸ abs_add_le _ _
    have hnonneg : (0 : Int) ≤ ((vs.map fixedMag).sum : Nat) := Int.natCast_nonneg _
    obtain ⟨hge, hlt⟩ := abs_lt.mp (show |c.value.toInt + fixedInt v| < 2 ^ 383 by push_cast at hnonneg; linarith)
    set c' := c.add (.num v.1 v.2.1 v.2.2 false) with hc'
    have hz : c.value.toInt + toFixed v.1 v.2.1 v.2.2 = c.value.toInt + fixedInt v := by
      rw [toFixed_eq_fixedInt (he v List.mem_cons_self)]
    have hvalue : c'.value.toInt = c.value.toInt + fixedInt v := by
      rw [hc', CxCell.add, hz]
      exact BitVec.toInt_ofInt_eq_self (by decide) hge.le hlt
    have hovp' : c'.ovp = false := by
      rw [hc', CxCell.add, hz]
      simp only [hovp, Bool.false_or, decide_eq_false_iff_not, ge_iff_le, not_le]
      exact hlt
    have hovn' : c'.ovn = false := by
      rw [hc', CxCell.add, hz]
      simp only [hovn, Bool.false_or, decide_eq_false_iff_not, not_lt]
      exact hge.le
    obtain ⟨h1, h2, h3⟩ := ih (fun x hx => he x (List.mem_cons_of_mem _ hx)) hovp' hovn' (by rw [hvalue]; push_cast; linarith)
    refine ⟨h1, h2, ?_⟩
    rw [List.foldl_cons, List.map_cons, List.sum_cons, ← hc', h3, hvalue, add_assoc]

/-! ### Reads (R60) -/

/-- The overflow of a layout with infinities (R52). -/
theorem Float.overflow_ieee {g : Machine.Float} (hieee : g.special = .ieee) (helem : g.saturates false = false) (ctl : RoundCtl) (neg : Bool) :
    (g.overflow false ctl neg true).code =
      (if neg = true then g.signWeight else 0) + if ctl.sat = true ∨ ctl.inward neg then g.encodeMag g.kmax g.qmax else g.infCode := by
  have hzero : towardZero ctl neg = ctl.inward neg := rfl
  rw [Float.overflow, helem, hieee, hzero]
  by_cases h : ctl.sat = true ∨ ctl.inward neg = true
  · rw [if_pos h, if_pos (by rcases h with h | h <;> simp [h])]
  · rw [if_neg h, if_neg (by simpa [not_or] using h)]

/-- A real compute form with infinities: its figures. -/
structure CellForm (f : Fmt) (sign top quiet : Nat) : Prop where
  real : f.kind = .real
  quiet : f.float.canonicalNan = quiet
  inf : f.float.infCode = top + 1
  sign : f.float.signWeight = sign
  ieee : f.float.special = .ieee
  elem : f.float.saturates false = false
  top : f.float.encodeMag f.float.kmax f.float.qmax = top

/-- The three compute forms a cell is read into. -/
theorem cellForm_of_mem {f : Fmt} {sign top quiet : Nat}
    (h : (f, sign, top, quiet) ∈ [(Fmt.fp32, 2 ^ 31, 0x7F7FFFFF, 0x7FC00000), (.bf16, 2 ^ 15, 0x7F7F, 0x7FC0), (.fp16, 2 ^ 15, 0x7BFF, 0x7E00)]) :
    CellForm f sign top quiet := by
  simp only [List.mem_cons, List.not_mem_nil, or_false, Prod.mk.injEq] at h
  rcases h with ⟨rfl, rfl, rfl, rfl⟩ | ⟨rfl, rfl, rfl, rfl⟩ | ⟨rfl, rfl, rfl, rfl⟩ <;>
    exact ⟨rfl, by decide, by decide, by decide, rfl, by decide, by decide⟩

/-- R60, for a real form. -/
theorem CxCell.read_real {f : Fmt} {sign top quiet : Nat} (hf : CellForm f sign top quiet) (c : CxCell) (ctl : RoundCtl) :
    let far (neg : Bool) : Nat := if ctl.sat = true ∨ ctl.inward neg then top else top + 1
    c.read f ctl =
      if c.nan = true then ⟨quiet, false, false, false, false⟩
      else if c.pinf = true ∧ c.ninf = true then ⟨quiet, true, false, false, false⟩
      else if c.pinf = true then ⟨top + 1, false, false, false, false⟩
      else if c.ninf = true then ⟨sign + top + 1, false, false, false, false⟩
      else if c.ovp = true ∧ c.ovn = true then ⟨quiet, false, true, false, false⟩
      else if c.ovp = true then ⟨far false, false, true, false, false⟩
      else if c.ovn = true then ⟨sign + far true, false, true, false, false⟩
      else f.convert ctl (.num (decide (c.value.toInt < 0)) c.value.toInt.natAbs (-192) false) := by
  intro far
  have hover (neg : Bool) := Float.overflow_ieee hf.ieee hf.elem ctl neg
  rw [hf.top, hf.inf, hf.sign] at hover
  rw [CxCell.read, hf.real]
  simp only [Bool.and_eq_true, hover, hf.quiet, hf.inf, hf.sign, Bool.false_eq_true, if_false, if_true, Nat.zero_add, ← Nat.add_assoc]
  rfl

/-- R60, for an integer or index form. -/
theorem CxCell.read_int {f : Fmt} {lo hi : Nat} (hkind : f.kind ≠ .real) (hlo : codeOfInt f.bits f.range.1 = lo)
    (hhi : codeOfInt f.bits f.range.2 = hi) (c : CxCell) (ctl : RoundCtl) :
    c.read f ctl =
      if c.nan = true ∨ c.pinf = true ∧ c.ninf = true then ⟨0, true, false, false, false⟩
      else if c.pinf = true then ⟨hi, false, false, false, true⟩
      else if c.ninf = true then ⟨lo, false, false, false, true⟩
      else if c.ovp = true ∧ c.ovn = true then ⟨0, false, false, false, true⟩
      else if c.ovp = true then ⟨hi, false, false, false, true⟩
      else if c.ovn = true then ⟨lo, false, false, false, true⟩
      else f.convert ctl (.num (decide (c.value.toInt < 0)) c.value.toInt.natAbs (-192) false) := by
  unfold CxCell.read
  split
  · contradiction
  · simp only [Bool.and_eq_true, hlo, hhi]
    by_cases hnan : c.nan = true
    · rw [if_pos hnan, if_pos (.inl hnan)]
    · by_cases hboth : c.pinf = true ∧ c.ninf = true
      · rw [if_neg hnan, if_pos hboth, if_pos (.inr hboth)]
      · rw [if_neg hnan, if_neg hboth, if_neg (not_or.mpr ⟨hnan, hboth⟩)]
        rfl

/-- Settles O20: the functions case by case, and a cell by its fields, its adds and its reads. -/
theorem atomicValues : Obligations.AtomicValues := by
  unfold Obligations.AtomicValues
  refine ⟨fun n m x c hn hm hx hc => ?_, fun n c => ⟨rfl, c.ofNat_toNat, c.toNat_lt⟩, fun c q neg m e => ⟨rfl, ?_, fun he => ?_⟩,
    fun c vs ws h => ?_, ?_, fun f sign top quiet c ctl hmem => CxCell.read_real (cellForm_of_mem hmem) c ctl, fun f lo hi c ctl hmem => ?_⟩
  · refine ⟨?_, rfl, fun h => if_pos h, fun h => if_neg h, atomicNew_min n m x c, atomicNew_max n m x c, rfl, rfl, fun k => Nat.testBit_and m x k,
      fun k => Nat.testBit_or m x k, fun k => Nat.testBit_xor m x k⟩
    rw [BitVec.toNat_add, BitVec.toNat_ofNat, BitVec.toNat_ofNat, Nat.mod_eq_of_lt hm, Nat.mod_eq_of_lt hx]
    rfl
  · cases neg <;> rfl
  · rw [CxCell.add, toFixed_of_le he]
  · have := c.sum_perm h
    exact ⟨congrArg CxSum.value this, congrArg CxSum.nan this, congrArg CxSum.pinf this, congrArg CxSum.ninf this⟩
  · intro vs he big x hsum
    have hzero : (CxCell.ofNat 0).value.toInt = 0 := BitVec.toInt_zero
    have hsmall : |(CxCell.ofNat 0).value.toInt| + ((vs.map fixedMag).sum : Nat) < 2 ^ 383 := by
      rw [hzero, abs_zero, zero_add]
      exact_mod_cast hsum
    obtain ⟨hovp, hovn, hvalue⟩ := CxCell.foldl_add_exact he rfl rfl hsmall
    exact ⟨hovp, hovn, hvalue.trans (by rw [hzero, zero_add]; rfl)⟩
  · simp only [List.mem_cons, List.not_mem_nil, or_false, Prod.mk.injEq] at hmem
    rcases hmem with ⟨rfl, rfl, rfl⟩ | ⟨rfl, rfl, rfl⟩ | ⟨rfl, rfl, rfl⟩ <;>
      exact CxCell.read_int (by decide) (by decide) (by decide) c ctl

end Sys2Proof.Machine
end

section
/-! Crucible words (O21). -/

namespace Sys2Proof.Machine

/-- One cell access as a piece, with its place where the address is local. -/
theorem State.cellPiece_eq (s : State) (w : Wave) (lane e : Nat) (data : List (Option Byte)) (job : Job) :
    s.cellPiece w lane e data job =
      ⟨0, e, none, if homeOf e = 0xFF then some (s.placeOf w (e % 2 ^ 32) 64) else none, data, [0], job, lane⟩ := by
  simp [State.cellPiece, isLocal64_eq]

theorem Wave.counterFull_eq_false {w : Wave} {k : Nat} (h : w.counter k < 255) : w.counterFull k = false := by
  simp [Wave.counterFull, h]

theorem Wave.counterFull_eq_true {w : Wave} {k : Nat} (h : 255 ≤ w.counter k) : w.counterFull k = true := by
  simp [Wave.counterFull, h]

/-- R201: the wave's earlier adds, clears and crucible drains have completed. -/
theorem Wave.cellsQuiet_iff (w : Wave) :
    w.cellsQuiet = true ↔ ∀ o ∈ w.ops, o.kind = .cxadd ∨ o.kind = .cxclr ∨ o.kind = .mdrx → o.complete = true := by
  rw [Wave.cellsQuiet, List.all_eq_true]
  refine forall₂_congr fun o _ => ?_
  cases o.kind <;> simp

/-! ### Issue (R199-R201) -/

/-- A split that waits in no `cxget` issues its word. -/
theorem execCxget_of_status {d a b : Byte} {s : State} {w : Wave} {p : Split} (hf : s.fronts w p) (hstatus : ∀ k, p.status ≠ .onCxget k) :
    execCxget d a b s = issueCxget d a b s := by
  obtain ⟨ws, hws⟩ := List.head?_eq_some_iff.mp hf.1
  obtain ⟨ps, hps⟩ := List.head?_eq_some_iff.mp hf.2
  simp only [execCxget, hws, hps]

/-- So does one that, stamped for its issue, waits in none. -/
theorem execCxget_of_fresh {d a b : Byte} {s : State} {w : Wave} {p : Split} (hf : s.fronts w p)
    (hfresh : ∀ k, (p.stamp (.cxget d a b) s.slots).status ≠ .onCxget k) : execCxget d a b s = issueCxget d a b s := by
  refine execCxget_of_status hf fun k h => hfresh k ?_
  rw [Split.stamp_status, h]
  simp

/-! ### The end of a `cxget` (R201) -/

section
variable (w : Wave) (o : Op) (job : MatJob)

/-- The pieces of an operation whose parts were refused, with their causes. -/
def Op.refusals : List (Nat × Nat × Nat) := o.pieces.filterMap fun x => (o.refusal x).map fun c => (x.lane, c, x.va)

/-- What a lane's cell reads as. -/
def Wave.cellRead (l : Nat) : Converted :=
  (CxCell.ofNat (((o.pieces.find? fun x => x.lane == l).map fun x => leNat (x.data.map fun b => b.getD 0)).getD 0)).read
    (w.class_ (mrClass job.mr)).compute (w.ctlWith job.mr job.mx job.seedlo job.seedhi l)

/-- The lanes whose delivered values are out of class range. -/
def Wave.cellFar : List Nat :=
  w.outsideLanes (w.class_ (mrClass job.mr)) (w.list o.mask) fun l => (w.class_ (mrClass job.mr)).compute.valOf (w.cellRead o job l).code

/-- The lanes whose reads are invalid. -/
def Wave.cellInvalid : List Nat := (w.list o.mask).filter fun l => (w.cellRead o job l).invalid

variable {w o job}

/-- A refused part ends the word: the lowest lane's is reported. -/
theorem Wave.gets_refused {l cause va : Nat} (hmem : (l, cause, va) ∈ o.refusals) (hlow : ∀ y ∈ o.refusals, l ≤ y.1)
    (honly : ∀ y ∈ o.refusals, y.1 = l → y = (l, cause, va)) : w.gets o job = .error (cause, va, Mask.ofLanes (o.refusals.map Prod.fst)) := by
  obtain ⟨x, rest, hrefusals⟩ := List.exists_cons_of_ne_nil (List.ne_nil_of_mem hmem)
  obtain ⟨hin, hle⟩ := lowest_entry x rest
  rw [← hrefusals] at hin hle
  have hfold := honly _ hin (le_antisymm (hle _ hmem) (hlow _ hin))
  unfold Wave.gets
  simp only [show (o.pieces.filterMap fun x => (o.refusal x).map fun c => (x.lane, c, x.va)) = x :: rest from hrefusals]
  rw [hfold, hrefusals]

/-- Without one, the values are tested in their order, and delivered. -/
theorem Wave.gets_delivers (hnone : o.refusals = []) :
    ∃ (value : Nat → Word32) (flags : BitVec 7),
      w.gets o job =
        (if (w.kern.traponrng && !(w.cellFar o job).isEmpty) = true then .error (trapRANGE, 0, Mask.ofLanes (w.cellFar o job))
        else if (w.kern.traponinv && !(w.cellInvalid o job).isEmpty) = true then .error (trapNUMERIC, 0, Mask.ofLanes (w.cellInvalid o job))
        else .ok (value, flags)) ∧
      ∀ l ∈ w.list o.mask, value l = BitVec.ofNat 32 (w.cellRead o job l).code := by
  set outs := (w.list o.mask).map fun l => (l, w.cellRead o job l) with houts
  set code : Nat → Nat := fun l => ((outs.find? fun x => x.1 == l).map fun x => x.2.code).getD 0 with hcode
  have hcodeOf : ∀ l ∈ w.list o.mask, code l = (w.cellRead o job l).code := by
    intro l hl
    simp only [hcode, houts, find?_map_keyed (g := fun l => (l, w.cellRead o job l)) (key := Prod.fst) (fun _ => rfl) hl]
    rfl
  have hfar : (w.outsideLanes (w.class_ (mrClass job.mr)) (w.list o.mask) fun l => (w.class_ (mrClass job.mr)).compute.valOf (code l)) =
      w.cellFar o job := w.outsideLanes_congr _ fun l hl => by rw [hcodeOf l hl]
  have hinvalid : (outs.filter fun x => x.2.invalid).map Prod.fst = w.cellInvalid o job := by
    rw [houts, List.filter_map, List.map_map]
    exact List.map_id _
  refine ⟨fun l => BitVec.ofNat 32 (code l), outs.foldl (fun acc x => acc ||| x.2.flags) (flagIf (!(w.cellFar o job).isEmpty) nsRange), ?_,
    fun l hl => congrArg (BitVec.ofNat 32) (hcodeOf l hl)⟩
  · rw [← hinvalid, ← hfar, List.isEmpty_map]
    unfold Wave.gets
    simp only [show (o.pieces.filterMap fun x => (o.refusal x).map fun c => (x.lane, c, x.va)) = [] from hnone]
    rfl

end

/-- What a `cxget` does whose split waits in it: nothing until its cells have come, and then its end. -/
theorem execCxget_waiting {d a b : Byte} {s : State} {w : Wave} {p : Split} {o : Op} {job : MatJob} {k : Nat} (hf : s.fronts w p)
    (hk : p.status = .onCxget k) (ho : w.op? k = some o) (hjob : o.mat = some job) :
    execCxget d a b s = if o.returned = true then s.finishCxget w p o d.toNat job else .next s := by
  obtain ⟨ws, hws⟩ := List.head?_eq_some_iff.mp hf.1
  obtain ⟨ps, hps⟩ := List.head?_eq_some_iff.mp hf.2
  simp only [execCxget, hws, hps, hk, ho, hjob]

@[simp] theorem Wave.bumpIfSRF_vregs (w : Wave) (mr : Word64) (on : Mask) : (w.bumpIfSRF mr on).a.vregs = w.a.vregs := by
  unfold Wave.bumpIfSRF
  split <;> rfl

@[simp] theorem Wave.bumpIfSRF_splits (w : Wave) (mr : Word64) (on : Mask) : (w.bumpIfSRF mr on).a.splits = w.a.splits := by
  unfold Wave.bumpIfSRF
  split <;> rfl

@[simp] theorem Wave.bumpIfSRF_retired (w : Wave) (mr : Word64) (on : Mask) : (w.bumpIfSRF mr on).a.retired = w.a.retired := by
  unfold Wave.bumpIfSRF
  split <;> rfl

@[simp] theorem Wave.bumpIfSRF_key (w : Wave) (mr : Word64) (on : Mask) : (w.bumpIfSRF mr on).key = w.key := by
  unfold Wave.bumpIfSRF
  split <;> rfl

/-- A lane of a register, by the register file and the width. -/
theorem Wave.V_congr {v w : Wave} (hvregs : v.a.vregs = w.a.vregs) (hkern : v.kern = w.kern) (d l : Nat) : v.V_ d l = w.V_ d l := by
  rw [Wave.V_, Wave.V_, Wave.vreg, Wave.vreg, hvregs, Wave.W, Wave.W, hkern]

/-- R201: the read that ends well retires its word and delivers its values. -/
theorem State.finishCxget_delivers {s : State} {w : Wave} {p : Split} {o : Op} {job : MatJob} {d : Nat} {value : Nat → Word32} {flags : BitVec 7}
    (hf : s.fronts w p) (hgets : w.gets o job = .ok (value, flags)) :
    ∃ t u, s.finishCxget w p o d job = .next t ∧ t.waves.head? = some u ∧ u.key = w.key ∧ u.a.retired = w.a.retired + 1 ∧
      u.a.splits = { p with status := .ready, pc := (p.pc + 4) % 2 ^ 64 } :: w.a.splits.tail ∧
      ∀ l, l < (w.vreg d).lanes.length → d < w.a.vregs.length → u.V_ d l = if o.mask.has l = true then value l else w.V_ d l := by
  obtain ⟨ws, hws⟩ := List.head?_eq_some_iff.mp hf.1
  set q : Split := { p with status := .ready } with hq
  set v := (w.withoutOp o.key).setSplit q with hv
  set u := ((v.gotten d o job (value, flags)).advance q) with hu
  have hkey : u.key = w.key := Wave.bumpIfSRF_key ..
  have hvregs : u.a.vregs = ((v.flags flags).writeV d o.mask value .general).a.vregs := Wave.bumpIfSRF_vregs ..
  have hkern : u.kern = w.kern := Wave.bumpIfSRF_kern ..
  refine ⟨(s.clearWritten w d o.mask).putWave u, u, ?_, ?_, hkey, ?_, ?_, fun l hl hd => ?_⟩
  · simp only [State.finishCxget, hgets]
    rfl
  · rw [State.putWave_waves, State.clearWritten, State.clearErrors_waves, hws, List.map_cons, List.head?_cons,
      if_pos (beq_iff_eq.mpr hkey.symm)]
  · exact congrArg (· + 1) (Wave.bumpIfSRF_retired ..)
  · have hsplits : (v.gotten d o job (value, flags)).a.splits = q :: w.a.splits.tail := Wave.bumpIfSRF_splits ..
    rw [hu, Wave.advance_splits hsplits]
  · rw [Wave.V_congr (w := (v.flags flags).writeV d o.mask value .general) hvregs hkern]
    exact Wave.V_writeV (v.flags flags) o.mask value .general hd hl

/-! ### The obligation -/

section
variable {d a b : Byte}

/-- What `cxadd` compares and checks, in its order. -/
theorem execCxadd_eq {s : State} {w : Wave} {p : Split} (hf : s.fronts w p) (hu : s.unhindered w p (.cxadd d a b) = true) :
    let q := p.stamp (.cxadd d a b) s.slots
    let e := w.eaddr a b
    let bad := w.differing (w.active q) fun l => e l + 2 ^ 64 * (w.src d (.cls w.C) l).toNat
    exec (.cxadd d a b) s =
      if bad ≠ 0 then s.mismatch w q bad false
      else match s.checkCells w (w.list (w.active q)) e with
        | some r => s.trapAt w q r.cause r.addr r.mask
        | none =>
          if w.performers (w.active q) = [] then s.done w.counted (q.opens w)
          else if w.counterFull 4 = true then .next s
          else
            let r := s.addOp w q (some 4) .cxadd (w.active q)
              ((w.performers (w.active q)).map fun l => s.cellPiece w l (e l) [] (.cxAdd (w.srcVal d (.cls w.C) l))) none 0
            r.1.done r.2.1 (q.opens w) := by
  intro q e bad
  change execCxadd d a b s = _
  rw [execCxadd, issueWord_runs hf hu] <;> rfl

/-- What `cxclr` compares and checks, in its order. -/
theorem execCxclr_eq {s : State} {w : Wave} {p : Split} (hf : s.fronts w p) (hu : s.unhindered w p (.cxclr a b) = true) :
    let q := p.stamp (.cxclr a b) s.slots
    let e := w.eaddr a b
    let bad := w.differing (w.active q) e
    let lanes := w.performers (w.active q)
    exec (.cxclr a b) s =
      if bad ≠ 0 then s.mismatch w q bad false
      else match s.checkCells w (w.list (w.active q)) e with
        | some r => s.trapAt w q r.cause r.addr r.mask
        | none =>
          if lanes = [] then s.done w q
          else if w.counterFull 4 = true then .next s
          else
            let r := s.addOp w q (some 4) .cxclr (w.active q)
              ((lanes.filter fun l => lanes.all fun k => e k != e l || decide (l ≤ k)).map fun l => s.cellPiece w l (e l) [] .cxClear) none 0
            r.1.done r.2.1 q := by
  intro q e bad lanes
  change execCxclr a b s = _
  rw [execCxclr, issueWord_runs hf hu] <;> rfl

/-- What a new `cxget` checks and waits for, in its order. -/
theorem execCxget_eq {s : State} {w : Wave} {p : Split} (hf : s.fronts w p) (hu : s.unhindered w p (.cxget d a b) = true)
    (hfresh : ∀ k, (p.stamp (.cxget d a b) s.slots).status ≠ .onCxget k) :
    let q := p.stamp (.cxget d a b) s.slots
    let e := w.eaddr a b
    let lanes := w.list (w.active q)
    exec (.cxget d a b) s =
      match s.checkCells w lanes e with
      | some r => s.trapAt w q r.cause r.addr r.mask
      | none =>
        if w.cellsQuiet = false then .next s
        else if lanes = [] then s.done (w.writeV d.toNat 0 (fun _ => 0) .general) q
        else
          let job : MatJob :=
            ⟨0, w.a.mr, w.a.mx, w.a.seedlo.setWidth 32, w.a.seedhi.setWidth 32, [], [], [], [], 0, 0, false, false, [], false⟩
          let r := s.addOp w.dropReads q none (.cxget d.toNat) (w.active q)
            (lanes.map fun l => s.cellPiece w l (e l) (List.replicate 64 none) .cxRead) (some job) 0
          .next (r.1.putWave (r.2.1.setSplit { q with status := .onCxget r.2.2 })) := by
  intro q e lanes
  change execCxget d a b s = _
  rw [execCxget_of_fresh hf hfresh, issueCxget, issueWord_runs hf hu]
  simp only [Bool.not_eq_true']
  rfl

end

/-- Settles O21: the three words each in the order of their checks, and the end of a `cxget` by what its parts and values are. -/
theorem crucibleIssues : Obligations.CrucibleIssues := by
  unfold Obligations.CrucibleIssues
  intro d a b e piece lanes check sums cells idle fresh
  have hpiece (s : State) (w : Wave) (l : Nat) (data : List (Option Byte)) (job : Nat → Job) :
      s.cellPiece w l (w.eaddr a b l) data (job l) = piece s w data job l := State.cellPiece_eq ..
  refine ⟨fun s w p hf hu hok => ?_, fun s w p hf hu hok => ?_, fun s w p hf hu hok => ?_, fun s w p hf hu hok => ?_, fun s w p hf hu hok => ?_,
    fun s w p hf hu hok => ?_, fun s w p hf hu hok => ?_, fun i differ hi => ?_, fun r s w p hf hu hok => ?_, ?_⟩
  · rw [execCxadd_eq hf hu]
    generalize p.stamp (.cxadd d a b) s.slots = q at hok ⊢
    obtain ⟨hsame, hcheck, hlanes, hroom⟩ := hok
    refine (if_neg (not_not_intro hsame)).trans ?_
    simp only [show s.checkCells w (w.list (w.active q)) (w.eaddr a b) = none from hcheck, if_neg (show ¬w.performers (w.active q) = [] from hlanes),
      Wave.counterFull_eq_false hroom, Bool.false_eq_true, if_false, hpiece s w _ [] fun l => .cxAdd (w.srcVal d (.cls w.C) l)]
    rfl
  · rw [execCxadd_eq hf hu]
    generalize p.stamp (.cxadd d a b) s.slots = q at hok ⊢
    obtain ⟨hsame, hcheck, hlanes⟩ := hok
    refine (if_neg (not_not_intro hsame)).trans ?_
    simp only [show s.checkCells w (w.list (w.active q)) (w.eaddr a b) = none from hcheck]
    exact if_pos hlanes
  · rw [execCxclr_eq hf hu]
    generalize p.stamp (.cxclr a b) s.slots = q at hok ⊢
    obtain ⟨hsame, hcheck, hlanes, hroom⟩ := hok
    refine (if_neg (not_not_intro hsame)).trans ?_
    simp only [show s.checkCells w (w.list (w.active q)) (w.eaddr a b) = none from hcheck, if_neg (show ¬w.performers (w.active q) = [] from hlanes),
      Wave.counterFull_eq_false hroom, Bool.false_eq_true, if_false, hpiece s w _ [] fun _ => .cxClear]
    rfl
  · rw [execCxclr_eq hf hu]
    generalize p.stamp (.cxclr a b) s.slots = q at hok ⊢
    obtain ⟨hsame, hcheck, hlanes⟩ := hok
    refine (if_neg (not_not_intro hsame)).trans ?_
    simp only [show s.checkCells w (w.list (w.active q)) (w.eaddr a b) = none from hcheck]
    exact if_pos hlanes
  · rw [execCxget_eq hf hu hok.1]
    generalize p.stamp (.cxget d a b) s.slots = q at hok ⊢
    obtain ⟨-, hcheck, hidle, hlanes⟩ := hok
    simp only [show s.checkCells w (w.list (w.active q)) (w.eaddr a b) = none from hcheck, if_neg hlanes, (Wave.cellsQuiet_iff w).mpr hidle,
      Bool.true_eq_false, if_false, hpiece s w _ (List.replicate 64 none) fun _ => .cxRead]
  · rw [execCxget_eq hf hu hok.1]
    generalize p.stamp (.cxget d a b) s.slots = q at hok ⊢
    obtain ⟨-, hcheck, hidle, hlanes⟩ := hok
    simp only [show s.checkCells w (w.list (w.active q)) (w.eaddr a b) = none from hcheck, if_pos hlanes, (Wave.cellsQuiet_iff w).mpr hidle]
    rfl
  · rw [execCxget_eq hf hu hok.1]
    generalize p.stamp (.cxget d a b) s.slots = q at hok ⊢
    obtain ⟨-, hcheck, hbusy⟩ := hok
    have hquiet : w.cellsQuiet = false := Bool.eq_false_iff.mpr fun h => hbusy ((Wave.cellsQuiet_iff w).mp h)
    simp only [show s.checkCells w (w.list (w.active q)) (w.eaddr a b) = none from hcheck, hquiet]
    rfl
  · rcases hi with ⟨rfl, rfl⟩ | ⟨rfl, rfl⟩
    · refine ⟨fun s w p hf hu hok => ?_, fun r s w p hf hu hok => ?_, fun s w p hf hu hok => ?_⟩
      all_goals rw [execCxadd_eq hf hu]
      all_goals generalize p.stamp (.cxadd d a b) s.slots = q at hok ⊢
      · obtain ⟨hsame, hcheck, hlanes, hfull⟩ := hok
        refine (if_neg (not_not_intro hsame)).trans ?_
        simp only [show s.checkCells w (w.list (w.active q)) (w.eaddr a b) = none from hcheck]
        exact (if_neg hlanes).trans (if_pos (Wave.counterFull_eq_true hfull))
      · obtain ⟨hsame, hcheck⟩ := hok
        refine (if_neg (not_not_intro hsame)).trans ?_
        simp only [show s.checkCells w (w.list (w.active q)) (w.eaddr a b) = some r from hcheck]
        rfl
      · exact if_pos hok
    · refine ⟨fun s w p hf hu hok => ?_, fun r s w p hf hu hok => ?_, fun s w p hf hu hok => ?_⟩
      all_goals rw [execCxclr_eq hf hu]
      all_goals generalize p.stamp (.cxclr a b) s.slots = q at hok ⊢
      · obtain ⟨hsame, hcheck, hlanes, hfull⟩ := hok
        refine (if_neg (not_not_intro hsame)).trans ?_
        simp only [show s.checkCells w (w.list (w.active q)) (w.eaddr a b) = none from hcheck]
        exact (if_neg hlanes).trans (if_pos (Wave.counterFull_eq_true hfull))
      · obtain ⟨hsame, hcheck⟩ := hok
        refine (if_neg (not_not_intro hsame)).trans ?_
        simp only [show s.checkCells w (w.list (w.active q)) (w.eaddr a b) = some r from hcheck]
        rfl
      · exact if_pos hok
  · rw [execCxget_eq hf hu hok.1]
    generalize p.stamp (.cxget d a b) s.slots = q at hok ⊢
    obtain ⟨-, hcheck⟩ := hok
    simp only [show s.checkCells w (w.list (w.active q)) (w.eaddr a b) = some r from hcheck]
    rfl
  · intro s w p o job k hf hk ho hjob v q refused c read far invalid
    have hexec : exec (.cxget d a b) s = _ := execCxget_waiting (d := d) (a := a) (b := b) hf hk ho hjob
    refine ⟨fun hret => ?_, fun hret l cause va hmem hlow honly => ?_, fun hret hnone => ?_⟩
    · rw [hexec]
      exact if_neg (by rw [hret]; exact Bool.false_ne_true)
    · rw [hexec, if_pos hret, State.finishCxget, Wave.gets_refused hmem hlow honly]
      rfl
    rw [hexec, if_pos hret]
    obtain ⟨value, flags, hgets, hvalue⟩ := Wave.gets_delivers (w := w) (job := job) hnone
    refine ⟨fun hon hfar => ?_, fun hrng hon hinv => ?_, fun hrng hinv => ?_⟩
    · rw [State.finishCxget, hgets.trans (if_pos (trapon_traps hon hfar))]
      rfl
    · rw [State.finishCxget, hgets.trans ((if_neg (trapon_passes hrng)).trans (if_pos (trapon_traps hon hinv)))]
      rfl
    · obtain ⟨t, u, ht, hu, hkey, hretired, hsplits, hV⟩ :=
        State.finishCxget_delivers (d := d.toNat) hf (hgets.trans ((if_neg (trapon_passes hrng)).trans (if_neg (trapon_passes hinv))))
      refine ⟨t, u, ht, hu, hkey, hretired, hsplits, fun l hW hl hd => ?_⟩
      rw [hV l hl hd]
      by_cases hlane : o.mask.has l = true
      · rw [if_pos hlane, if_pos hlane, hvalue l (Wave.mem_list.mpr ⟨hW, hlane⟩)]
        rfl
      · rw [if_neg hlane, if_neg hlane]

end Sys2Proof.Machine
end

section
/-! Taking a trap (O42) and the context fault that a trap without a handler becomes (O43). -/

namespace Sys2Proof.Machine

/-- Settles O42: the state after the trap is the handler's wave put in its place. -/
theorem takingATrap : Obligations.TakingATrap := by
  unfold Obligations.TakingATrap
  intro s w p cause pc addr mask h o hframe hobj
  have huser : (w.fillTrap cause pc addr mask).system = false := by simp [Wave.system, Wave.fillTrap, hframe]
  have htrap : s.takeTrap w p cause pc addr mask = s.putWave ((w.fillTrap cause pc addr mask).enterHandler p s.clock h o false) := by
    simp only [State.takeTrap, huser, Bool.false_eq_true, if_false, show s.handlerObj (w.fillTrap cause pc addr mask).ctx = some (h, o) from hobj]
  refine ⟨_, _, ⟨w.pairUp p.lanes, h, [], p.board, .ready, [], p.lastV, p.lastX⟩, htrap, rfl, rfl, rfl, ?_⟩
  and_intros <;> rfl

/-! ### The context fault (R258, R350, R354) -/

/-- What entering an entry in the integrity log changes: the log and its count of lost entries. -/
theorem State.logIntegrity_eq (s : State) (f : LogFields) :
    s.logIntegrity f = { s with
      integrityLog := if s.integrityLog.length < 256 then s.integrityLog ++ [integrityEntry s.clock f s.integrityLost] else s.integrityLog
      integrityLost := if s.integrityLog.length < 256 then 0 else s.integrityLost + 1 } := by
  unfold State.logIntegrity State.logIntegrityAt
  by_cases h : s.integrityLog.length < 256
  · exact (if_pos h).trans (by simp only [if_pos h])
  · exact (if_neg h).trans (by simp only [if_neg h])

/-- The descendants of launches, to any depth, have these among them. -/
theorem mem_descendants {ls : List Launch} {k : Nat} (n : Nat) {keys : List Nat} (h : k ∈ keys) : k ∈ descendants ls n keys := by
  induction n generalizing keys with
  | zero => exact h
  | succ n ih => exact ih (List.mem_append_left _ h)

/-- The launches that a context fault kills. -/
def State.faultedLaunches (s : State) (ctx : Nat) : List Nat :=
  descendants s.launches 11 ((s.launches.filter fun l => l.ctx == ctx && l.open_).map Launch.key)

/-- Every accepted launch of the context is among them. -/
theorem State.mem_faultedLaunches {s : State} {ctx : Nat} {l : Launch} (hl : l ∈ s.launches) (hctx : l.ctx = ctx) (hopen : l.state ≠ .completed) :
    l.key ∈ s.faultedLaunches ctx :=
  mem_descendants 11 (List.mem_map_of_mem (List.mem_filter.mpr ⟨hl, by simp [Launch.open_, hctx, hopen]⟩))

section
variable (s : State) (ctx : Nat) (f : LogFields)

/-- What a context fault changes, field by field. -/
theorem State.contextFault_eq : s.contextFault ctx f = { s with
    waves := s.waves.map fun w => if (s.faultedLaunches ctx).contains w.launch then w.kill else w
    launches := s.launches.map fun l => if (s.faultedLaunches ctx).contains l.key && l.state != .completed then { l with killed := true } else l
    queues := s.queues.map fun q : Queue => if q.context.toNat == ctx then { q with status := 3, reading := none } else q
    contexts := s.contexts.map fun c => if c.id == ctx then { c with faulted := true, report := f.report } else c
    integrityLog :=
      if s.integrityLog.length < 256 then s.integrityLog ++ [integrityEntry s.clock { f with event := 0x30, context := ctx } s.integrityLost]
      else s.integrityLog
    integrityLost := if s.integrityLog.length < 256 then 0 else s.integrityLost + 1
    interrupts := s.interrupts + 1 } := by
  rw [State.contextFault, State.logIntegrity_eq]
  rfl

/-- Every launch of the context that has not completed is killed. -/
theorem State.contextFault_killed : ∀ l ∈ (s.contextFault ctx f).launches, l.ctx = ctx → l.state ≠ .completed → l.killed = true := by
  rw [State.contextFault_eq]
  intro l hl hctx hstate
  obtain ⟨x, hx, rfl⟩ := List.mem_map.mp hl
  by_cases hkill : ((s.faultedLaunches ctx).contains x.key && x.state != .completed) = true
  · simp only [if_pos hkill]
  · simp only [if_neg hkill] at hctx hstate ⊢
    exact absurd (by simp [State.mem_faultedLaunches hx hctx hstate, hstate]) hkill

/-- Every wave of a launch of the context that had not completed stops. -/
theorem State.contextFault_stops : ∀ v ∈ (s.contextFault ctx f).waves,
    (∃ l ∈ s.launches, l.key = v.launch ∧ l.ctx = ctx ∧ l.state ≠ .completed) →
    v.a.splits = [] ∧ (v.status = .retiring ∨ v.status = .retired) := by
  rw [State.contextFault_eq]
  rintro v hv ⟨l, hl, hkey, hctx, hstate⟩
  obtain ⟨x, -, rfl⟩ := List.mem_map.mp hv
  have hlaunch : (if (s.faultedLaunches ctx).contains x.launch then x.kill else x).launch = x.launch := by split <;> rfl
  have hdead : (s.faultedLaunches ctx).contains x.launch = true := by
    rw [← hlaunch, ← hkey, List.contains_eq_mem, decide_eq_true (State.mem_faultedLaunches hl hctx hstate)]
  simp only [if_pos hdead]
  refine ⟨rfl, ?_⟩
  by_cases h : x.status = .retired
  · exact Or.inr (if_pos h)
  · exact Or.inl (if_neg h)

end

/-- Settles O43: the trap registers are filled, and the rest is what a context fault does. -/
theorem trapBecomesContextFault : Obligations.TrapBecomesContextFault := by
  unfold Obligations.TrapBecomesContextFault
  intro s w p cause pc addr mask hw hfault t record
  set v := w.fillTrap cause pc addr mask with hv
  have ht : t = (s.putWave v).contextFault w.ctx { s.fieldsOf v with addr := pc } := by
    simp only [t, State.takeTrap]
    rcases hfault with hsys | hnone
    · exact if_pos hsys
    · split
      · rfl
      · simp only [show s.handlerObj (w.fillTrap cause pc addr mask).ctx = none from hnone]
        rfl
  have hrecord : v.trapRecord = record := by
    simp only [hv, Wave.trapRecord, Wave.fillTrap, record, BitVec.toNat_ofNat]
  have hmem : v ∈ (s.putWave v).waves := List.mem_map.mpr ⟨w, hw, if_pos (beq_self_eq_true _)⟩
  rw [ht]
  refine ⟨?_, State.contextFault_killed _ _ _, State.contextFault_stops _ _ _, ?_⟩
  · rw [State.contextFault_eq]
    refine ⟨_, List.mem_map.mpr ⟨v, hmem, rfl⟩, ?_⟩
    split <;> exact ⟨rfl, rfl, rfl, rfl, rfl⟩
  rw [State.contextFault_eq]
  refine ⟨fun q hq hctx => ?_, fun c hc hctx => ?_, rfl, fun hroom => ⟨?_, if_pos hroom⟩, fun hfull => ⟨if_neg (not_lt.mpr hfull), if_neg (not_lt.mpr hfull)⟩,
    rfl, rfl, rfl, rfl⟩
  · obtain ⟨x, -, rfl⟩ := List.mem_map.mp hq
    by_cases h : (x.context.toNat == w.ctx) = true
    · simp only [if_pos h]
    · simp only [if_neg h] at hctx
      exact absurd (beq_iff_eq.mpr hctx) h
  · obtain ⟨x, -, rfl⟩ := List.mem_map.mp hc
    by_cases h : (x.id == w.ctx) = true
    · rw [if_pos h]
      exact ⟨rfl, hrecord⟩
    · simp only [if_neg h] at hctx
      exact absurd (beq_iff_eq.mpr hctx) h
  · refine (if_pos hroom).trans ?_
    simp only [State.fieldsOf, hrecord]
    rfl

end Sys2Proof.Machine
end

section
/-! Matrix words at issue (O24, O25). -/

namespace Sys2Proof.Machine

/-! ### Joining the matrix queue -/

section
variable {s : State} {w : Wave} (p : Split) (kind : OpKind) (mask : Mask) (pieces : List Piece) (job : MatJob)

/-- A word of the matrix unit joins its queue while the counter has room. -/
theorem State.enqueueMat_room (h : w.counter 2 < 255) :
    s.enqueueMat w p kind mask pieces job = .next (afterEnqueue (some 2) kind mask pieces (some job) 0 id id s w p) :=
  if_neg (by rw [Wave.counterFull_eq_false h]; exact Bool.false_ne_true)

/-- At a full counter it waits. -/
theorem State.enqueueMat_full (h : 255 ≤ w.counter 2) : s.enqueueMat w p kind mask pieces job = .next s :=
  if_pos (Wave.counterFull_eq_true h)

end

/-! ### The descriptor of a drain (R231) -/

section
variable {i : Instr} {b : Byte} {s : State} {w : Wave} {p : Split} {body : State → Wave → Split → Mask → List Byte → Result}

/-- A descriptor whose address fails traps. -/
theorem withDescriptor_refused {r : Refused} (hf : s.fronts w p) (hu : s.unhindered w p i = true)
    (hr : s.descAt w (w.S b.toNat) 32 (w.active (p.stamp i s.slots)) = .error r) :
    withDescriptor i b s body = s.trapAt w (p.stamp i s.slots) r.cause r.addr r.mask := by
  rw [withDescriptor, issueWord_runs hf hu]
  simp only [hr]

/-- A descriptor that can be read is read, and the word goes on with its bytes. -/
theorem withDescriptor_reads {at_ : LocalAt} (hf : s.fronts w p) (hu : s.unhindered w p i = true)
    (hat : s.descAt w (w.S b.toNat) 32 (w.active (p.stamp i s.slots)) = .ok at_) (hport : w.port = []) (htoken : s.hasToken w = true)
    (hsound : s.softErrors = []) :
    withDescriptor i b s body = body s w (p.stamp i s.slots) (w.active (p.stamp i s.slots)) (s.readLocalBytes at_ 32) := by
  rw [withDescriptor, issueWord_runs hf hu]
  simp only [hat, hport, htoken, State.findLocal_sound hsound, List.isEmpty_nil, Bool.not_true, Bool.or_self, Bool.false_eq_true, if_false]

end

/-! ### The cells of a drain (R233) -/

theorem Wave.primary_strictMono (w : Wave) : StrictMono w.primary := by
  intro u v huv
  unfold Wave.primary
  split <;> omega

theorem Wave.rowsOf_sorted (w : Wave) (on : Mask) : (w.rowsOf on).Pairwise (· < ·) := List.Pairwise.filter _ List.pairwise_lt_range

/-- Of entries whose first has the lowest lane, the first is reported. -/
theorem refusedOf_first (cause : Nat) {x : Nat × Nat} {rest : List (Nat × Nat)} (h : ∀ y ∈ rest, x.1 ≤ y.1) :
    refusedOf cause (x :: rest) = some ⟨cause, x.2, Mask.ofLanes ((x :: rest).map Prod.fst)⟩ := by
  have hfold : rest.foldl (fun best y => if y.1 < best.1 then y else best) x = x := by
    induction rest with
    | nil => rfl
    | cons y rest ih =>
      rw [List.foldl_cons, if_neg (not_lt.mpr (h y List.mem_cons_self))]
      exact ih fun z hz => h z (List.mem_cons_of_mem _ hz)
  simp only [refusedOf, hfold]

/-- Lists with the same lanes have one mask. -/
theorem Mask.ofLanes_congr {l m : List Nat} (h : ∀ i, i ∈ l ↔ i ∈ m) : Mask.ofLanes l = Mask.ofLanes m := by
  refine BitVec.eq_of_getLsbD_eq fun i hi => ?_
  have hl := Mask.ofLanes_has l i
  have hm := Mask.ofLanes_has m i
  rw [Mask.has, h i] at hl
  rw [Mask.has] at hm
  exact Bool.eq_iff_iff.mpr (hl.trans hm.symm)

/-- Entry (v, c) of every listed row, where `t` names one, with the row's primary lane. -/
def Wave.cellEntries (w : Wave) (rows : List Nat) (t : Nat → Nat → Option Nat) : List (Nat × Nat) :=
  rows.flatMap fun v => (List.range 32).filterMap fun c => (t v c).map fun x => (w.primary v, x)

section
variable {w : Wave} {rows : List Nat} {t : Nat → Nat → Option Nat}

/-- The lanes of the entries are those of the rows that have one. -/
theorem Wave.mem_cellEntries_fst (l : Nat) : l ∈ (w.cellEntries rows t).map Prod.fst ↔
    l ∈ (rows.filter fun u => (List.range 32).any fun k => (t u k).isSome).map w.primary := by
  simp only [Wave.cellEntries, List.mem_map, List.mem_flatMap, List.mem_filterMap, List.mem_filter, List.any_eq_true, Option.map_eq_some_iff,
    Option.isSome_iff_exists]
  constructor
  · rintro ⟨_, ⟨v, hv, c, hc, x, hx, rfl⟩, rfl⟩
    exact ⟨v, ⟨hv, c, hc, x, hx⟩, rfl⟩
  · rintro ⟨v, ⟨hv, c, hc, x, hx⟩, rfl⟩
    exact ⟨_, ⟨v, hv, c, hc, x, hx, rfl⟩, rfl⟩

/-- Without an entry nothing is refused. -/
theorem Wave.cellEntries_nil (h : ∀ v ∈ rows, ∀ c, c < 32 → t v c = none) : w.cellEntries rows t = [] := by
  refine List.flatMap_eq_nil_iff.mpr fun v hv => List.filterMap_eq_nil_iff.mpr fun c hc => ?_
  rw [h v hv c (List.mem_range.mp hc), Option.map_none]

/-- The first entry, in the order of rows and then of elements, is the one reported. -/
theorem Wave.refusedOf_cellEntries (cause : Nat) (hsorted : rows.Pairwise (· < ·)) {v c x : Nat} (hv : v ∈ rows) (hc : c < 32) (hx : t v c = some x)
    (hfirst : ∀ u ∈ rows, ∀ k, k < 32 → u < v ∨ u = v ∧ k < c → t u k = none) :
    refusedOf cause (w.cellEntries rows t) =
      some ⟨cause, x, Mask.ofLanes ((rows.filter fun u => (List.range 32).any fun k => (t u k).isSome).map w.primary)⟩ := by
  obtain ⟨before, after, rfl⟩ := List.append_of_mem hv
  obtain ⟨-, hafter, hbefore⟩ := List.pairwise_append.mp hsorted
  have hnone : w.cellEntries before t = [] := Wave.cellEntries_nil fun u hu k hk =>
    hfirst u (List.mem_append_left _ hu) k hk (.inl (hbefore u hu v List.mem_cons_self))
  obtain ⟨more, hmore⟩ : ∃ more, (List.range 32).filterMap (fun c => (t v c).map fun x => (w.primary v, x)) = (w.primary v, x) :: more := by
    have hrange : List.range 32 = List.range c ++ c :: (List.range (31 - c)).map (c + 1 + ·) := by
      rw [show 32 = c + (1 + (31 - c)) by omega, List.range_add, List.range_add]
      simp [Nat.add_assoc, Function.comp_def]
    have hless : (List.range c).filterMap (fun c => (t v c).map fun x => (w.primary v, x)) = [] := by
      refine List.filterMap_eq_nil_iff.mpr fun k hk => ?_
      have hkc := List.mem_range.mp hk
      rw [hfirst v hv k (hkc.trans hc) (.inr ⟨rfl, hkc⟩), Option.map_none]
    rw [hrange, List.filterMap_append, hless, List.nil_append, List.filterMap_cons, hx]
    exact ⟨_, rfl⟩
  have hentries : w.cellEntries (before ++ v :: after) t = (w.primary v, x) :: (more ++ w.cellEntries after t) := by
    rw [Wave.cellEntries, List.flatMap_append, List.flatMap_cons, hmore]
    exact congrArg (· ++ _) hnone
  have hlow : ∀ y ∈ more ++ w.cellEntries after t, w.primary v ≤ y.1 := by
    intro y hy
    rcases List.mem_append.mp hy with hy | hy
    · obtain ⟨k, -, hk⟩ := List.mem_filterMap.mp (hmore ▸ List.mem_cons_of_mem _ hy)
      obtain ⟨z, -, rfl⟩ := Option.map_eq_some_iff.mp hk
      exact le_rfl
    · obtain ⟨u, hu, hy⟩ := List.mem_flatMap.mp hy
      obtain ⟨k, -, hk⟩ := List.mem_filterMap.mp hy
      obtain ⟨z, -, rfl⟩ := Option.map_eq_some_iff.mp hk
      exact (w.primary_strictMono ((List.pairwise_cons.mp hafter).1 u hu)).le
  rw [hentries, refusedOf_first cause hlow, ← hentries, Mask.ofLanes_congr Wave.mem_cellEntries_fst]

end

/-- The cells of a drain that a test `t` refuses, as the entries of its rows. -/
theorem Wave.filterMap_drainCells (w : Wave) (rows : List Nat) (cell : Nat → Nat → Nat) (t : Nat → Option Nat) :
    ((rows.flatMap fun v => (List.range 32).map fun c => (w.primary v, cell v c)).filterMap fun (l, e) => (t e).map fun x => (l, x)) =
      w.cellEntries rows fun v c => t (cell v c) := by
  rw [List.filterMap_flatMap]
  exact List.flatMap_congr fun v _ => List.filterMap_map ..

/-- Misaligned cells are entries too. -/
theorem Wave.filter_drainCells (w : Wave) (rows : List Nat) (cell : Nat → Nat → Nat) :
    ((rows.flatMap fun v => (List.range 32).map fun c => (w.primary v, cell v c)).filter fun (_, e) => e % 64 != 0) =
      w.cellEntries rows fun v c => if cell v c % 64 = 0 then none else some (cell v c) := by
  rw [← w.filterMap_drainCells rows cell fun e => if e % 64 = 0 then none else some e, ← List.filterMap_eq_filter]
  congr 1
  funext ⟨l, e⟩
  by_cases h : e % 64 = 0 <;> simp [Option.guard, h]

section
variable {a b : Byte} {at_ : LocalAt} {s : State} {w : Wave} {p : Split}

/-- What `mdrl` checks once its descriptor is read, in its order (R231). -/
theorem execMdrl_eq (hf : s.fronts w p) (hu : s.unhindered w p (.mdrl a b) = true)
    (hat : s.descAt w (w.S b.toNat) 32 (w.active (p.stamp (.mdrl a b) s.slots)) = .ok at_) (hport : w.port = []) (htoken : s.hasToken w = true)
    (hsound : s.softErrors = []) :
    let q := p.stamp (.mdrl a b) s.slots
    let on := w.active q
    let bytes := s.readLocalBytes at_ 32
    let accs := (w.rowsOf on).flatMap fun v => (DrainDesc.ofBytes bytes).accesses w.C.storage (w.primary v) v
    exec (.mdrl a b) s =
      if (!(DrainDesc.ofBytes bytes).legal w.C.storage) = true then s.trapAt w q trapDESC (w.S b.toNat).toNat on
      else match s.checkLanes w (accs.map Prod.snd) with
        | some r => s.trapAt w q r.cause r.addr (w.pairUp r.mask)
        | none => s.enqueueMat w q .mdrl on (accs.map (s.writePiece w))
            { w.matJob a.toNat with aDesc := bytes, addr := (w.S b.toNat).toNat, addrS := (w.Sh b.toNat).toNat } := by
  intro q on bytes accs
  change execMdrl a b s = _
  rw [execMdrl, withDescriptor_reads hf hu hat hport htoken hsound] <;> rfl

/-- What `mdrx` checks once its descriptor is read, in its order (R233). -/
theorem execMdrx_eq (hf : s.fronts w p) (hu : s.unhindered w p (.mdrx a b) = true)
    (hat : s.descAt w (w.S b.toNat) 32 (w.active (p.stamp (.mdrx a b) s.slots)) = .ok at_) (hport : w.port = []) (htoken : s.hasToken w = true)
    (hsound : s.softErrors = []) :
    let q := p.stamp (.mdrx a b) s.slots
    let on := w.active q
    let bytes := s.readLocalBytes at_ 32
    exec (.mdrx a b) s =
      if field bytes 0x18 8 ≠ 0 ∨ field bytes 8 8 % 64 ≠ 0 ∨ field bytes 0x10 8 % 64 ≠ 0 then s.trapAt w q trapDESC (w.S b.toNat).toNat on
      else match refusedOf trapLOCALBOUND (w.cellEntries (w.rowsOf on) fun v c => s.outsideCell w (cellOf bytes v c)) with
        | some r => s.trapAt w q r.cause r.addr (w.pairUp r.mask)
        | none =>
          match refusedOf trapALIGN (w.cellEntries (w.rowsOf on) fun v c => if cellOf bytes v c % 64 = 0 then none else some (cellOf bytes v c)) with
          | some r => s.trapAt w q r.cause r.addr (w.pairUp r.mask)
          | none => s.enqueueMat w (q.opens w) .mdrx on (w.drainAdds s on bytes fun _ _ => .zero)
              { w.matJob a.toNat with aDesc := bytes, addr := (w.S b.toNat).toNat, addrS := (w.Sh b.toNat).toNat } := by
  intro q on bytes
  change execMdrx a b s = _
  rw [execMdrx, withDescriptor_reads hf hu hat hport htoken hsound, ← w.filterMap_drainCells, ← w.filter_drainCells] <;> rfl

end

/-- Settles O24: the words without a descriptor by their form; the drains by their descriptor and the entries that their checks refuse. -/
theorem matrixWordsAndDrainsIssue : Obligations.MatrixWordsAndDrainsIssue := by
  unfold Obligations.MatrixWordsAndDrainsIssue
  refine ⟨fun d a => ⟨?_, ?_, ?_, ?_, ?_⟩, fun a b at_ => ?_⟩
  · refine leadsTo_of_form (form := execMzero d) (fun _ => rfl) fun s w p hf hu hok => ?_
    rw [execMzero, issueWord_runs hf hu]
    exact State.enqueueMat_room _ _ _ _ _ hok
  · refine leadsTo_of_form (form := execMldv d a) (fun _ => rfl) fun s w p hf hu hok => ?_
    rw [execMldv, issueWord_runs hf hu]
    exact State.enqueueMat_room _ _ _ _ _ hok
  · refine leadsTo_of_form (form := execMdrv d a) (fun _ => rfl) fun s w p hf hu hok => ?_
    rw [execMdrv, issueWord_runs hf hu]
    exact if_pos hok
  · refine leadsTo_of_form (form := execMdrv d a) (fun _ => rfl) fun s w p hf hu hok => ?_
    rw [execMdrv, issueWord_runs hf hu]
    exact if_neg (by rw [hok]; exact Bool.false_ne_true)
  · rintro i (rfl | rfl)
    · refine leadsTo_of_form (form := execMzero d) (fun _ => rfl) fun s w p hf hu hok => ?_
      rw [execMzero, issueWord_runs hf hu]
      exact State.enqueueMat_full _ _ _ _ _ hok
    · refine leadsTo_of_form (form := execMldv d a) (fun _ => rfl) fun s w p hf hu hok => ?_
      rw [execMldv, issueWord_runs hf hu]
      exact State.enqueueMat_full _ _ _ _ _ hok
  intro bytes open_ job accs cell strided
  have hcells (s : State) (w : Wave) (on : Mask) : w.drainAdds s on (bytes s) (fun _ _ => .zero) =
      (w.rowsOf on).flatMap fun v => (List.range 32).map fun c => cell s w v c :=
    List.flatMap_congr fun v _ => List.map_congr_left fun c _ => State.cellPiece_eq ..
  refine ⟨fun s w p hf hu hok => ?_, fun s w p hf hu hok => ?_, fun s w p hf hu hok => ?_, fun r s w p hf hu hok => ?_,
    fun v c x s w p hf hu hok => ?_, fun v c s w p hf hu hok => ?_, fun s w p hf hu hok => ?_, fun s w p hf hu hok => ?_,
    fun s w p hf hu hok => ?_, fun i r hi s w p hf hu hok => ?_⟩
  · obtain ⟨⟨hat, hport, htoken, hsound⟩, hlegal, hcheck, hroom⟩ := hok
    rw [execMdrl_eq hf hu hat hport htoken hsound]
    generalize p.stamp (.mdrl a b) s.slots = q at hcheck ⊢
    refine (if_neg (by rw [hlegal]; exact Bool.false_ne_true)).trans ?_
    simp only [show s.checkLanes w (((w.rowsOf (w.active q)).flatMap fun v =>
      (DrainDesc.ofBytes (s.readLocalBytes at_ 32)).accesses w.C.storage (w.primary v) v).map Prod.snd) = none from hcheck]
    exact State.enqueueMat_room _ _ _ _ _ hroom
  · obtain ⟨⟨hat, hport, htoken, hsound⟩, hlegal⟩ := hok
    rw [execMdrl_eq hf hu hat hport htoken hsound]
    exact if_pos (by rw [hlegal]; rfl)
  · obtain ⟨⟨hat, hport, htoken, hsound⟩, hstrided, hroom, hgood⟩ := hok
    rw [execMdrx_eq hf hu hat hport htoken hsound]
    generalize p.stamp (.mdrx a b) s.slots = q at hgood ⊢
    refine (if_neg (by simpa only [not_or, not_not] using hstrided)).trans ?_
    rw [Wave.cellEntries_nil fun v hv c hc => (hgood v hv c hc).1, Wave.cellEntries_nil fun v hv c hc => if_pos (hgood v hv c hc).2]
    refine (State.enqueueMat_room _ _ _ _ _ hroom).trans ?_
    rw [show (w.drainAdds s (w.active q) (s.readLocalBytes at_ 32) fun _ _ => .zero) = _ from hcells s w (w.active q)]
    rfl
  · obtain ⟨⟨hat, hport, htoken, hsound⟩, hlegal, hcheck⟩ := hok
    rw [execMdrl_eq hf hu hat hport htoken hsound]
    generalize p.stamp (.mdrl a b) s.slots = q at hcheck ⊢
    refine (if_neg (by rw [hlegal]; exact Bool.false_ne_true)).trans ?_
    simp only [show s.checkLanes w (((w.rowsOf (w.active q)).flatMap fun v =>
      (DrainDesc.ofBytes (s.readLocalBytes at_ 32)).accesses w.C.storage (w.primary v) v).map Prod.snd) = some r from hcheck]
    rfl
  · obtain ⟨⟨hat, hport, htoken, hsound⟩, hstrided, hv, hc, hx, hfirst⟩ := hok
    rw [execMdrx_eq hf hu hat hport htoken hsound]
    generalize p.stamp (.mdrx a b) s.slots = q at hv hfirst ⊢
    refine (if_neg (by simpa only [not_or, not_not] using hstrided)).trans ?_
    rw [Wave.refusedOf_cellEntries _ (w.rowsOf_sorted _) hv hc hx hfirst]
    rfl
  · obtain ⟨⟨hat, hport, htoken, hsound⟩, hstrided, hv, hc, hodd, hinside, hfirst⟩ := hok
    rw [execMdrx_eq hf hu hat hport htoken hsound]
    generalize p.stamp (.mdrx a b) s.slots = q at hv hinside hfirst ⊢
    refine (if_neg (by simpa only [not_or, not_not] using hstrided)).trans ?_
    rw [Wave.cellEntries_nil hinside, Wave.refusedOf_cellEntries _
      (t := fun u k => if cellOf (s.readLocalBytes at_ 32) u k % 64 = 0 then none else some (cellOf (s.readLocalBytes at_ 32) u k))
      (w.rowsOf_sorted _) hv hc (if_neg hodd) fun u hu k hk hless => if_pos (hfirst u hu k hk hless)]
    have hodds (e : Nat) : (if e % 64 = 0 then none else some e).isSome = decide (e % 64 ≠ 0) := by by_cases h : e % 64 = 0 <;> simp [h]
    simp only [hodds]
    rfl
  · obtain ⟨⟨hat, hport, htoken, hsound⟩, hstrided⟩ := hok
    rw [execMdrx_eq hf hu hat hport htoken hsound]
    refine if_pos (Classical.by_contradiction fun h => hstrided ?_)
    simpa only [not_or, not_not] using h
  · obtain ⟨⟨hat, hport, htoken, hsound⟩, hlegal, hcheck, hfull⟩ := hok
    rw [execMdrl_eq hf hu hat hport htoken hsound]
    generalize p.stamp (.mdrl a b) s.slots = q at hcheck ⊢
    refine (if_neg (by rw [hlegal]; exact Bool.false_ne_true)).trans ?_
    simp only [show s.checkLanes w (((w.rowsOf (w.active q)).flatMap fun v =>
      (DrainDesc.ofBytes (s.readLocalBytes at_ 32)).accesses w.C.storage (w.primary v) v).map Prod.snd) = none from hcheck]
    exact State.enqueueMat_full _ _ _ _ _ hfull
  · obtain ⟨⟨hat, hport, htoken, hsound⟩, hstrided, hfull, hgood⟩ := hok
    rw [execMdrx_eq hf hu hat hport htoken hsound]
    generalize p.stamp (.mdrx a b) s.slots = q at hgood ⊢
    refine (if_neg (by simpa only [not_or, not_not] using hstrided)).trans ?_
    rw [Wave.cellEntries_nil fun v hv c hc => (hgood v hv c hc).1, Wave.cellEntries_nil fun v hv c hc => if_pos (hgood v hv c hc).2]
    exact State.enqueueMat_full _ _ _ _ _ hfull
  · rcases hi with rfl | rfl
    · exact (show exec (.mdrl a b) s = execMdrl a b s from rfl).trans (withDescriptor_refused hf hu hok)
    · exact (show exec (.mdrx a b) s = execMdrx a b s from rfl).trans (withDescriptor_refused hf hu hok)

end Sys2Proof.Machine
end

section
/-! `mma` and `mmaz` at issue (O25). -/

namespace Sys2Proof.Machine

/-- The places of the four descriptors of a product: A and B of the primary and of the shadow copy. -/
structure MulDescs where
  pa : LocalAt
  pb : LocalAt
  qa : LocalAt
  qb : LocalAt

section
variable (x : MulDescs) (s : State) (w : Wave) (on : Mask) (sh : Bool)

/-- The bytes of a copy's A descriptor. -/
def MulDescs.aBytes : List Byte := s.readLocalBytes (if sh then x.qa else x.pa) 32

/-- A copy's A descriptor. -/
def MulDescs.a : MatDesc := MatDesc.ofBytes (x.aBytes s sh)

/-- A copy's B descriptor. -/
def MulDescs.b : MatDesc := MatDesc.ofBytes (s.readLocalBytes (if sh then x.qb else x.pb) 32)

/-- The format of a copy's operands. -/
def MulDescs.fmt : Fmt := ((x.a s sh).fmt w).getD .i8

/-- Does a copy's A come from its latch? -/
def MulDescs.hit : Bool := latched (if sh then w.latchS else w.latch) (x.aBytes s sh) on

/-- The accesses that read a copy's A. -/
def MulDescs.lineA : List Access :=
  if x.hit s w on sh then []
  else (w.rowsOf on).flatMap fun v => (x.a s sh).lineAccesses (x.fmt s w sh) false (w.primary v + sh.toNat) v

/-- The accesses that read a copy's B. -/
def MulDescs.lineB : List Access :=
  if w.rowsOf on = [] then [] else (List.range 32).flatMap fun c => (x.b s sh).lineAccesses (x.fmt s w sh) true 0 c

/-- The addresses of the illegal descriptors of a copy (R223, R236). -/
def MulDescs.faults (ea eb : Bool → Word64) : List Word64 :=
  (if (x.a s sh).legal w false then [] else [ea sh]) ++ (if (x.b s sh).legal w true && (x.a s sh).fmt w == (x.b s sh).fmt w then [] else [eb sh])

/-- What the instruction brings to its turn. -/
def MulDescs.job (d : Byte) : MatJob :=
  { w.matJob d.toNat with
    aDesc := s.readLocalBytes x.pa 32, bDesc := s.readLocalBytes x.pb 32, aDescS := s.readLocalBytes x.qa 32, bDescS := s.readLocalBytes x.qb 32
    useLatch := x.hit s w on false, useLatchS := x.hit s w on true }

/-- The pieces that read the operands. -/
def MulDescs.pieces : List Piece :=
  w.copies.flatMap fun sh => (x.lineA s w on sh).map (s.readPiece w sh.toNat) ++ (x.lineB s w on sh).map (s.readPiece w (2 + sh.toNat))

/-- The wave whose latches have taken the A descriptors. -/
def MulDescs.relatched : Wave :=
  { w with
    latch := latchAfter w.latch (s.readLocalBytes x.pa 32) on
    latchS := if w.paired then latchAfter w.latchS (s.readLocalBytes x.qa 32) on else none }

end

/-- The four descriptors are in bounds and aligned, and can be read at once. -/
def MulDescs.readable (x : MulDescs) (s : State) (w : Wave) (q : Split) (a b : Byte) : Prop :=
  s.descAt w (w.S a.toNat) 32 (w.active q) = .ok x.pa ∧ s.descAt w (w.S b.toNat) 32 (w.active q) = .ok x.pb ∧
    s.descAt w (w.Sh a.toNat) 32 (w.active q) = .ok x.qa ∧ s.descAt w (w.Sh b.toNat) 32 (w.active q) = .ok x.qb ∧
    w.port = [] ∧ s.hasToken w = true ∧ s.softErrors = []

/-- A scalar operand of a copy. -/
def Wave.copyScalar (w : Wave) (n : Byte) (sh : Bool) : Word64 := if sh then w.Sh n.toNat else w.S n.toNat

section
variable {i : Instr} {d a b : Byte} {zero : Bool} {x : MulDescs} {s : State} {w : Wave} {p : Split} (hf : s.fronts w p)
include hf

/-- What a product checks once its descriptors are read, in its order (R223, R236). -/
theorem multiply_reads (hu : s.unhindered w p i = true) (hopen : x.readable s w (p.stamp i s.slots) a b) :
    let q := p.stamp i s.slots
    let on := w.active q
    multiply i d a b zero s =
      match w.copies.flatMap fun sh => x.faults s w sh (w.copyScalar a) (w.copyScalar b) with
      | e :: _ => s.trapAt w q trapDESC e.toNat on
      | [] =>
        match s.checkOperands w on (w.copies.flatMap (x.lineA s w on)) (w.copies.flatMap (x.lineB s w on)) with
        | some r => s.trapAt w q r.cause r.addr r.mask
        | none =>
          if w.counterFull 2 = true then .next s
          else s.enqueueMat (x.relatched s w on) q (.mma zero) on (x.pieces s w on) (x.job s w on d) := by
  intro q on
  obtain ⟨hpa, hpb, hqa, hqb, hport, htoken, hsound⟩ := hopen
  have hlineA : x.lineA s w on = fun sh => if x.hit s w on sh then [] else (w.rowsOf on).flatMap fun v =>
      (x.a s sh).lineAccesses (if sh then ((x.a s true).fmt w).getD .i8 else ((x.a s false).fmt w).getD .i8) false (w.primary v + sh.toNat) v := by
    funext sh
    cases sh <;> rfl
  have hlineB : x.lineB s w on = fun sh => if w.rowsOf on = [] then [] else (List.range 32).flatMap fun c =>
      (x.b s sh).lineAccesses (if sh then ((x.a s true).fmt w).getD .i8 else ((x.a s false).fmt w).getD .i8) true 0 c := by
    funext sh
    cases sh <;> rfl
  have hgo : (!w.port.isEmpty || !s.hasToken w) = false := by rw [hport, htoken]; rfl
  rw [multiply, issueWord_runs hf hu]
  simp only [Bool.false_eq_true, if_false, if_true, hpa, hpb, hqa, hqb, hgo, State.findLocal_sound hsound, MulDescs.pieces, hlineA, hlineB] <;> rfl

section
variable (hu : s.unhindered w p i = true) (hopen : x.readable s w (p.stamp i s.slots) a b)
include hu hopen

/-- The first illegal descriptor traps. -/
theorem multiply_faulted {e : Word64} {rest : List Word64}
    (h : (w.copies.flatMap fun sh => x.faults s w sh (w.copyScalar a) (w.copyScalar b)) = e :: rest) :
    multiply i d a b zero s = s.trapAt w (p.stamp i s.slots) trapDESC e.toNat (w.active (p.stamp i s.slots)) := by
  rw [multiply_reads hf hu hopen, h]

variable (h : (w.copies.flatMap fun sh => x.faults s w sh (w.copyScalar a) (w.copyScalar b)) = [])
include h

/-- With legal descriptors, operands that fail their check trap. -/
theorem multiply_rejected {r : Refused}
    (hcheck : let on := w.active (p.stamp i s.slots)
      s.checkOperands w on (w.copies.flatMap (x.lineA s w on)) (w.copies.flatMap (x.lineB s w on)) = some r) :
    multiply i d a b zero s = s.trapAt w (p.stamp i s.slots) r.cause r.addr r.mask := by
  rw [multiply_reads hf hu hopen, h]
  simp only [hcheck]

/-- Otherwise the word joins the matrix queue, where it has room. -/
theorem multiply_accepted
    (hcheck : let on := w.active (p.stamp i s.slots)
      s.checkOperands w on (w.copies.flatMap (x.lineA s w on)) (w.copies.flatMap (x.lineB s w on)) = none) :
    let q := p.stamp i s.slots
    let on := w.active q
    multiply i d a b zero s = if w.counterFull 2 = true then .next s
      else s.enqueueMat (x.relatched s w on) q (.mma zero) on (x.pieces s w on) (x.job s w on d) := by
  intro q on
  rw [multiply_reads hf hu hopen, h]
  simp only [hcheck] <;> rfl

end

/-- A descriptor whose address fails traps, the first of them in the order primary A, primary B, shadow A, shadow B. -/
theorem multiply_refused (hu : s.unhindered w p i = true) {r : Refused} {pa pb qa : LocalAt}
    (h : let desc (e : Word64) := s.descAt w e 32 (w.active (p.stamp i s.slots))
      desc (w.S a.toNat) = .error r ∨
      desc (w.S a.toNat) = .ok pa ∧ desc (w.S b.toNat) = .error r ∨
      desc (w.S a.toNat) = .ok pa ∧ desc (w.S b.toNat) = .ok pb ∧ desc (w.Sh a.toNat) = .error r ∨
      desc (w.S a.toNat) = .ok pa ∧ desc (w.S b.toNat) = .ok pb ∧ desc (w.Sh a.toNat) = .ok qa ∧ desc (w.Sh b.toNat) = .error r) :
    multiply i d a b zero s = s.trapAt w (p.stamp i s.slots) r.cause r.addr r.mask := by
  rw [multiply, issueWord_runs hf hu]
  rcases h with hr | ⟨hpa, hr⟩ | ⟨hpa, hpb, hr⟩ | ⟨hpa, hpb, hqa, hr⟩
  · simp only [Bool.false_eq_true, if_false, hr]
  · simp only [Bool.false_eq_true, if_false, hpa, hr]
  · simp only [Bool.false_eq_true, if_false, if_true, hpa, hpb, hr]
  · simp only [Bool.false_eq_true, if_false, if_true, hpa, hpb, hqa, hr]

end

/-- A copy's descriptors are judged A first. -/
theorem MulDescs.faults_eq_nil {x : MulDescs} {s : State} {w : Wave} {sh : Bool} {ea eb : Bool → Word64}
    (h : (x.a s sh).legal w false = true ∧ (x.b s sh).legal w true = true ∧ (x.a s sh).fmt w = (x.b s sh).fmt w) : x.faults s w sh ea eb = [] := by
  obtain ⟨ha, hb, hfmt⟩ := h
  simp [MulDescs.faults, ha, hb, hfmt]

/-- An illegal A is the first fault of its copy. -/
theorem MulDescs.faults_a {x : MulDescs} {s : State} {w : Wave} {sh : Bool} {ea eb : Bool → Word64} (h : (x.a s sh).legal w false = false) :
    ∃ rest, x.faults s w sh ea eb = ea sh :: rest :=
  ⟨_, by rw [MulDescs.faults, if_neg (by rw [h]; exact Bool.false_ne_true)]; rfl⟩

/-- With a legal A it is B's: illegal, or of another format. -/
theorem MulDescs.faults_b {x : MulDescs} {s : State} {w : Wave} {sh : Bool} {ea eb : Bool → Word64} (ha : (x.a s sh).legal w false = true)
    (hb : (x.b s sh).legal w true = false ∨ (x.a s sh).fmt w ≠ (x.b s sh).fmt w) : x.faults s w sh ea eb = [eb sh] := by
  have hbad : ((x.b s sh).legal w true && (x.a s sh).fmt w == (x.b s sh).fmt w) = false := by
    rcases hb with hb | hb
    · rw [hb, Bool.false_and]
    · rw [beq_eq_false_iff_ne.mpr hb, Bool.and_false]
  rw [MulDescs.faults, if_pos ha, hbad]
  rfl

/-- The primary copy is judged first. -/
theorem Wave.copies_cons (w : Wave) : ∃ rest, w.copies = false :: rest := by
  unfold Wave.copies
  split <;> exact ⟨_, rfl⟩

/-- In paired mode the shadow follows. -/
theorem Wave.copies_paired {w : Wave} (h : w.paired = true) : w.copies = [false, true] := if_pos h

/-- Settles O25: both words are one form, by what its descriptors are and its operands are at. -/
theorem matrixMultiplyIssues : Obligations.MatrixMultiplyIssues := by
  unfold Obligations.MatrixMultiplyIssues
  intro d a b pa pb qa qb row
  set x : MulDescs := ⟨pa, pb, qa, qb⟩ with hx
  have hrow (i : Instr) (zero : Bool) (hexec : ∀ s, exec i s = multiply i d a b zero s) : row i zero := by
    unfold row
    intro bytes da db f hit lineA lineB open_ legal
    have hnofault {s : State} {w : Wave} (h : legal s w) :
        (w.copies.flatMap fun sh => x.faults s w sh (w.copyScalar a) (w.copyScalar b)) = [] :=
      List.flatMap_eq_nil_iff.mpr fun sh hsh => MulDescs.faults_eq_nil (h sh hsh)
    refine ⟨fun s w p hf hu hok => ?_, fun s w p hf hu hok => ?_, fun s w p hf hu hok => ?_,
      ⟨fun s w p hf hu hok => ?_, fun s w p hf hu hok => ?_⟩, fun r s w p hf hu hok => ?_, fun r s w p hf hu hok => ?_, ?_,
      fun s w p hf hu hok => ?_, fun r s w p hf hu hok => ?_⟩
    · obtain ⟨hopen, hlegal, hroom, hcheck⟩ := hok
      refine ((hexec s).trans (multiply_accepted (x := x) hf hu hopen (hnofault hlegal) hcheck)).trans ((if_neg (by rw [Wave.counterFull_eq_false hroom]; exact Bool.false_ne_true)).trans ?_)
      exact State.enqueueMat_room _ _ _ _ _ hroom
    · obtain ⟨rest, hrest⟩ := w.copies_cons
      obtain ⟨more, hmore⟩ := MulDescs.faults_a (x := x) (ea := w.copyScalar a) (eb := w.copyScalar b) hok.2
      exact (hexec s).trans (multiply_faulted (x := x) hf hu hok.1 (by rw [hrest, List.flatMap_cons, hmore]; rfl))
    · obtain ⟨rest, hrest⟩ := w.copies_cons
      exact (hexec s).trans (multiply_faulted (x := x) hf hu hok.1 (by rw [hrest, List.flatMap_cons, MulDescs.faults_b (x := x) hok.2.1 hok.2.2]; rfl))
    · obtain ⟨hopen, ⟨ha, hb, hfmt, hpaired⟩, hbad⟩ := hok
      obtain ⟨more, hmore⟩ := MulDescs.faults_a (x := x) (ea := w.copyScalar a) (eb := w.copyScalar b) hbad
      exact (hexec s).trans (multiply_faulted (x := x) hf hu hopen (by
        rw [Wave.copies_paired hpaired, List.flatMap_cons, MulDescs.faults_eq_nil (x := x) ⟨ha, hb, hfmt⟩, List.flatMap_cons, hmore]; rfl))
    · obtain ⟨hopen, ⟨ha, hb, hfmt, hpaired⟩, hgoodA, hbad⟩ := hok
      exact (hexec s).trans (multiply_faulted (x := x) hf hu hopen (by
        rw [Wave.copies_paired hpaired, List.flatMap_cons, MulDescs.faults_eq_nil (x := x) ⟨ha, hb, hfmt⟩, List.flatMap_cons,
          MulDescs.faults_b (x := x) hgoodA hbad]; rfl))
    · exact (hexec s).trans (multiply_refused (pa := pa) (pb := pb) (qa := qa) hf hu (.inl hok))
    · exact (hexec s).trans (multiply_refused (pa := pa) (pb := pb) (qa := qa) hf hu (.inr (.inl hok)))
    · intro both r
      refine ⟨fun s w p hf hu hok => ?_, fun s w p hf hu hok => ?_⟩
      · exact (hexec s).trans (multiply_refused (pa := pa) (pb := pb) (qa := qa) hf hu (.inr (.inr (.inl ⟨hok.1.1, hok.1.2, hok.2⟩))))
      · exact (hexec s).trans (multiply_refused (pa := pa) (pb := pb) (qa := qa) hf hu (.inr (.inr (.inr ⟨hok.1.1, hok.1.2, hok.2⟩))))
    · obtain ⟨hopen, hlegal, hfull, hcheck⟩ := hok
      exact ((hexec s).trans (multiply_accepted (x := x) hf hu hopen (hnofault hlegal) hcheck)).trans (if_pos (Wave.counterFull_eq_true hfull))
    · obtain ⟨hopen, hlegal, hcheck⟩ := hok
      exact (hexec s).trans (multiply_rejected (x := x) hf hu hopen (hnofault hlegal) hcheck)
  exact ⟨hrow (.mma d a b) false fun _ => rfl, hrow (.mmaz d a b) true fun _ => rfl⟩

end Sys2Proof.Machine
end

section
/-! Child launches (O39). -/

namespace Sys2Proof.Machine

/-! ### What a demotion keeps of the token's place (R349, R362) -/

/-- What the token's rules read of a launch. -/
def Launch.turn (l : Launch) : Nat × Desc × Bool × Nat × Nat := (l.key, l.desc, l.visiting, l.tokenCrew, l.tokenWave)

/-- What the token's rules read of the state. -/
def State.turns (s : State) : List (Nat × Desc × Bool × Nat × Nat) × List Crew := (s.launches.map Launch.turn, s.crews)

/-- The launch of a key is found by what the token reads of the launches. -/
theorem State.launch?_turn {s t : State} (h : t.turns = s.turns) (k : Nat) : (t.launch? k).map Launch.turn = (s.launch? k).map Launch.turn := by
  have hfind (ls : List Launch) : (ls.find? fun l => l.key == k).map Launch.turn = (ls.map Launch.turn).find? fun x => x.1 == k := by
    rw [List.find?_map]
    rfl
  have hls : t.launches.map Launch.turn = s.launches.map Launch.turn := congrArg Prod.fst h
  rw [State.launch?, State.launch?, hfind, hfind, hls]

/-- Who has the token follows from that. -/
theorem State.hasToken_congr {s t : State} (h : t.turns = s.turns) (w : Wave) : t.hasToken w = s.hasToken w := by
  have hcrews : t.crews = s.crews := congrArg Prod.snd h
  have hturn := State.launch?_turn h w.launch
  unfold State.hasToken State.visited State.crew?
  rw [hcrews]
  cases hs : s.launch? w.launch with
  | none =>
    rw [hs, Option.map_none, Option.map_eq_none_iff] at hturn
    rw [hturn]
  | some l =>
    rw [hs] at hturn
    obtain ⟨x, hx, hxl⟩ := Option.map_eq_some_iff.mp hturn
    simp only [Launch.turn, Prod.mk.injEq] at hxl
    obtain ⟨-, hdesc, hvisiting, hcrew, hwave⟩ := hxl
    have hquantum : x.quantum = l.quantum := by rw [Launch.quantum, Launch.quantum, hdesc]
    simp only [hx, hdesc, hvisiting, hcrew, hwave, hquantum]

theorem State.mapLaunches_turns (s : State) {f : Launch → Launch} (h : ∀ l, (f l).turn = l.turn) :
    State.turns { s with launches := s.launches.map f } = s.turns := by
  simp [State.turns, Function.comp_def, h]

theorem State.logIntegrity_turns (s : State) (f : LogFields) : (s.logIntegrity f).turns = s.turns := by
  rw [State.logIntegrity_eq]
  rfl

theorem State.writePhys_turns (s : State) (k pa : Nat) (b : Byte) : (s.writePhys k pa b).turns = s.turns := by
  unfold State.writePhys
  split <;> rfl

theorem State.writePhysBytes_turns (s : State) (k pa : Nat) (bs : List Byte) : (s.writePhysBytes k pa bs).turns = s.turns := by
  induction bs generalizing s pa with
  | nil => rfl
  | cons b bs ih => exact (ih _ _).trans (s.writePhys_turns k pa b)

theorem State.clearLine_turns (s : State) (m : MainAt) : (s.clearLine m).turns = s.turns := by
  have hdrop : (s.dropLineError m).turns = s.turns := by
    unfold State.dropLineError
    split <;> rfl
  unfold State.clearLine
  simp only
  split
  · exact (State.logIntegrity_turns _ _).trans hdrop
  · exact hdrop

theorem State.healEntries_turns (s : State) (m : MainAt) (n : Nat) : (s.healEntries m n).turns = s.turns := by
  unfold State.healEntries
  simp only
  split <;> rfl

theorem State.noteOwn_turns (s : State) (l : Option Nat) (m : MainAt) : (s.noteOwn l m).turns = s.turns :=
  s.mapLaunches_turns fun x => by split <;> rfl

theorem State.noteOthers_turns (s : State) (l : Option Nat) (m : MainAt) : (s.noteOthers l m).turns = s.turns :=
  s.mapLaunches_turns fun x => by split <;> rfl

theorem State.commitShadowLine_turns (s : State) (x : Shadow) (line : Nat) : (s.commitShadowLine x line).turns = s.turns := by
  unfold State.commitShadowLine
  simp only
  split
  · rfl
  · refine (foldl_keeps (fun s m => ?_) _ _).trans (foldl_keeps (fun s b => ?_) _ _)
    · rw [State.healEntries_turns, State.writePhysBytes_turns, State.clearLine_turns]
    · have others (t : State) (ms : List MainAt) :
          (ms.foldl (fun s m => s.noteOthers (some x.launch) (m.plus b.2)) t).turns = t.turns :=
        foldl_keeps (fun s m => s.noteOthers_turns ..) ms t
      simp [apply_ite State.turns, others, State.noteOwn_turns, -List.foldl_cons]

theorem State.commitShadows_turns (s : State) (lk : Nat) : (s.commitShadows lk).turns = s.turns :=
  foldl_keeps (g := State.turns) (fun s x => foldl_keeps (fun s k => s.commitShadowLine_turns x k) _ s) _ s

/-- R349: a demotion leaves the token where it is. -/
theorem State.demote_turns (s : State) (lk : Nat) : (s.demote lk).turns = s.turns := by
  unfold State.demote
  split
  · rfl
  · split
    · rfl
    · rw [State.logIntegrity_turns]
      refine (State.mapLaunches_turns _ fun l => ?_).trans (s.commitShadows_turns lk)
      split <;> rfl

theorem State.logIntegrity_launch? (s : State) (f : LogFields) (k : Nat) : (s.logIntegrity f).launch? k = s.launch? k := by
  rw [State.logIntegrity_eq]
  rfl

/-- R349: the launch that was demoted is not replayable. -/
theorem State.demote_replayable {s : State} {k : Nat} {l : Launch} (hl : (s.demote k).launch? k = some l) : l.replayable = false := by
  unfold State.demote at hl
  split at hl
  next h => exact absurd hl (by rw [h]; exact nofun)
  next x hx =>
    split at hl
    next hon =>
      obtain rfl := Option.some.inj (hx.symm.trans hl)
      simpa using hon
    next =>
      rw [State.logIntegrity_launch?] at hl
      have hmem := List.mem_of_find?_eq_some hl
      have hkey : (l.key == k) = true := List.find?_some (p := fun x : Launch => x.key == k) hl
      obtain ⟨y, -, rfl⟩ := List.mem_map.mp hmem
      by_cases hy : (y.key == k) = true
      · rw [if_pos hy]
      · rw [if_neg hy] at hkey
        exact absurd hkey hy

/-! ### Issue and resumption (R250) -/

/-- A split that has not read its descriptor yet issues its word. -/
theorem execLaunch_of_status {a : Byte} {s : State} {w : Wave} {p : Split} (hf : s.fronts w p)
    (hstatus : ∀ at_ bs ids, p.status ≠ .onLaunch at_ bs ids) : execLaunch a s = issueLaunch a s := by
  obtain ⟨ws, hws⟩ := List.head?_eq_some_iff.mp hf.1
  obtain ⟨ps, hps⟩ := List.head?_eq_some_iff.mp hf.2
  simp only [execLaunch, hws, hps]

/-- So does one that, stamped for its issue, has not. -/
theorem execLaunch_of_fresh {a : Byte} {s : State} {w : Wave} {p : Split} (hf : s.fronts w p)
    (hfresh : ∀ at_ bs ids, (p.stamp (.launch a) s.slots).status ≠ .onLaunch at_ bs ids) : execLaunch a s = issueLaunch a s := by
  refine execLaunch_of_status hf fun at_ bs ids h => hfresh at_ bs ids ?_
  rw [Split.stamp_status, h]
  simp

/-- One that has goes on with what it read, where it may issue. -/
theorem execLaunch_waiting {a : Byte} {s : State} {w : Wave} {p : Split} {at_ : Nat} {bs : List Byte} {ids : List Nat} (hf : s.fronts w p)
    (hp : p.status = .onLaunch at_ bs ids) : execLaunch a s = if w.mayIssue p = true then s.resumeChild w p at_ bs ids else .next s := by
  obtain ⟨ws, hws⟩ := List.head?_eq_some_iff.mp hf.1
  obtain ⟨ps, hps⟩ := List.head?_eq_some_iff.mp hf.2
  simp only [execLaunch, hws, hps, hp]

section
variable {s : State} {w : Wave} {p : Split} {at_ : Nat} {desc : List Byte} {succs : List Nat} {l : Launch} {o : Object}
  (hl : s.launch? w.launch = some l) (ho : s.object? l.ctx (Desc.ofBytes desc).handle = some o)
include hl ho

/-- Before its release, or without the token, a child is not appended. -/
theorem State.appendChild_waits (h : s.released w 5 = false ∨ s.hasToken w = false) :
    s.appendChild w p at_ desc succs = .next (s.putWave (w.setSplit { p with status := .onLaunch at_ desc succs })) := by
  have hwait : (!s.released w 5 || !s.hasToken w) = true := by rcases h with h | h <;> simp [h]
  simp only [State.appendChild, hl, ho, hwait, if_true]

/-- With both it is, where the trace log of the queue can be reached. -/
theorem State.appendChild_goes (hreleased : s.released w 5 = true) (htoken : s.hasToken w = true) :
    s.appendChild w p at_ desc succs =
      match s.acceptHolds l.queue l.ctx (Desc.ofBytes desc) with
      | some e => .next ((s.putWave (w.setSplit { p with status := .onLaunch at_ desc succs })).deviceFailed l.ctx 1 e)
      | none => (s.accept l.queue at_ (Desc.ofBytes desc) o (l.depth + 1) (some l.key) succs).done w { p with status := .ready } := by
  simp only [State.appendChild, hl, ho, hreleased, htoken, Bool.not_true, Bool.or_self, Bool.false_eq_true, if_false] <;> rfl

end

section
variable {a : Byte} {s : State} {w : Wave} {p : Split} (hf : s.fronts w p) (hu : s.unhindered w p (.launch a) = true)
  (hfresh : ∀ at_ bs ids, (p.stamp (.launch a) s.slots).status ≠ .onLaunch at_ bs ids)
include hf hu hfresh

/-- What a new `launch` does before it reads: it compares its address and checks it. -/
theorem launch_checks :
    let q := p.stamp (.launch a) s.slots
    exec (.launch a) s = if w.S a.toNat ≠ w.Sh a.toNat then s.mismatch w q 0 true
      else match s.childDesc w q (w.S a.toNat) with
        | .error r => s.trapAt w q r.cause r.addr r.mask
        | .ok places =>
          if (!w.port.isEmpty) = true then .next s
          else match s.findLocal w q.pc q.lanes places with
          | some s' => .next s'
          | none => match s.launch? w.launch with
            | none => .next s
            | some l =>
              let desc := places.map s.readLocal
              let d := Desc.ofBytes desc
              if l.depth = 10 then s.trapAt w q trapDEPTH 10 q.lanes
              else if s.refuses l.queue l.ctx d (some l) = true then s.refuseChild w q (w.S a.toNat).toNat
              else match s.childSuccs w q d with
              | .error r => s.trapAt w q r.cause r.addr r.mask
              | .ok ids =>
                match s.findLocal w q.pc q.lanes (ids.flatMap fun x => (List.range 4).map x.plus) with
                | some s' => .next s'
                | none => (s.demote l.key).appendChild w.counted (q.opens w) (w.S a.toNat).toNat desc
                    (ids.map fun x => leNat (s.readLocalBytes x 4)) := by
  intro q
  change execLaunch a s = _
  rw [execLaunch_of_fresh hf hfresh, issueLaunch, issueWord_runs hf hu] <;> rfl

variable {places : List LocalAt} {l : Launch} (hsame : w.S a.toNat = w.Sh a.toNat)
  (hdesc : s.childDesc w (p.stamp (.launch a) s.slots) (w.S a.toNat) = .ok places)
  (hport : w.port = []) (hsound : s.softErrors = []) (hl : s.launch? w.launch = some l)
include hsame hdesc hport hsound hl

/-- What it checks in the descriptor that it reads. -/
theorem launch_reads :
    let q := p.stamp (.launch a) s.slots
    let desc := places.map s.readLocal
    exec (.launch a) s =
      if l.depth = 10 then s.trapAt w q trapDEPTH 10 q.lanes
      else if s.refuses l.queue l.ctx (Desc.ofBytes desc) (some l) = true then s.refuseChild w q (w.S a.toNat).toNat
      else match s.childSuccs w q (Desc.ofBytes desc) with
      | .error r => s.trapAt w q r.cause r.addr r.mask
      | .ok ids => (s.demote l.key).appendChild w.counted (q.opens w) (w.S a.toNat).toNat desc (ids.map fun x => leNat (s.readLocalBytes x 4)) := by
  intro q desc
  rw [launch_checks hf hu hfresh]
  refine (if_neg (not_not_intro hsame)).trans ?_
  simp only [hdesc, hport, List.isEmpty_nil, Bool.not_true, Bool.false_eq_true, if_false, hl, State.findLocal_sound hsound] <;> rfl

variable {ids : List LocalAt} (hdepth : l.depth ≠ 10) (hfits : s.refuses l.queue l.ctx (Desc.ofBytes (places.map s.readLocal)) (some l) = false)
  (hsuccs : s.childSuccs w (p.stamp (.launch a) s.slots) (Desc.ofBytes (places.map s.readLocal)) = .ok ids)
include hdepth hfits hsuccs

/-- A child that passes every check goes on to be appended, and its caller is demoted. -/
theorem launch_appends :
    exec (.launch a) s = (s.demote l.key).appendChild w.counted ((p.stamp (.launch a) s.slots).opens w) (w.S a.toNat).toNat (places.map s.readLocal)
      (ids.map fun x => leNat (s.readLocalBytes x 4)) := by
  rw [launch_reads hf hu hfresh hsame hdesc hport hsound hl]
  refine (if_neg hdepth).trans ((if_neg (by rw [hfits]; exact Bool.false_ne_true)).trans ?_)
  simp only [hsuccs]

end

/-- A word that needs the token and that nothing hinders has it. -/
theorem State.unhindered_token {i : Instr} {s : State} {w : Wave} {p : Split} (hu : s.unhindered w p i = true) (hneeds : needsToken i = true) :
    s.hasToken w = true := by
  simp only [State.unhindered, Bool.and_eq_true, Bool.or_eq_true, Bool.not_eq_true'] at hu
  exact hu.1.2.resolve_left (by rw [hneeds]; exact Bool.noConfusion)

/-- A demoted caller keeps the token. -/
theorem State.demote_hasToken {a : Byte} {s : State} {w : Wave} {p : Split} (hu : s.unhindered w p (.launch a) = true) (k : Nat) :
    (s.demote k).hasToken w = true :=
  (State.hasToken_congr (s.demote_turns k) w).trans (State.unhindered_token hu rfl)

/-- Settles O39: the issue by the order of its checks, the append by its release and token, and the resumption by what it finds. -/
theorem childLaunchResults : Obligations.ChildLaunchResults := by
  unfold Obligations.ChildLaunchResults
  intro a fresh checked appended waits refused
  refine ⟨fun r s w p hf hu hok => ?_, fun s w p hf hu hok => ?_, fun places s w p hf hu hok => ?_, fun places ids l => ?_, ?_⟩
  · obtain ⟨hfresh, hsame, hdesc⟩ := hok
    rw [launch_checks hf hu hfresh]
    refine (if_neg (not_not_intro hsame)).trans ?_
    simp only [hdesc]
    rfl
  · rw [launch_checks hf hu hok.1]
    exact if_pos hok.2
  · obtain ⟨⟨hfresh, hsame, hdesc⟩, hport⟩ := hok
    rw [launch_checks hf hu hfresh]
    refine (if_neg (not_not_intro hsame)).trans ?_
    simp only [hdesc]
    exact if_pos (by simp [hport])
  · intro desc succs open_ fits
    refine ⟨fun s w p hf hu hok => ?_, fun s w p hf hu hok => ?_, fun r s w p hf hu hok => ?_, fun l' o => ?_⟩
    · obtain ⟨⟨⟨hfresh, hsame, hdesc⟩, hport, hsound, hl⟩, hdepth⟩ := hok
      rw [launch_reads hf hu hfresh hsame hdesc hport hsound hl]
      exact if_pos hdepth
    · obtain ⟨⟨⟨hfresh, hsame, hdesc⟩, hport, hsound, hl⟩, hdepth, hrefuses⟩ := hok
      rw [launch_reads hf hu hfresh hsame hdesc hport hsound hl]
      exact (if_neg hdepth).trans (if_pos hrefuses)
    · obtain ⟨⟨⟨⟨hfresh, hsame, hdesc⟩, hport, hsound, hl⟩, hdepth, hfits⟩, hr⟩ := hok
      rw [launch_reads hf hu hfresh hsame hdesc hport hsound hl]
      refine (if_neg hdepth).trans ((if_neg (by rw [hfits]; exact Bool.false_ne_true)).trans ?_)
      simp only [show s.childSuccs w (p.stamp (.launch a) s.slots) (Desc.ofBytes (places.map s.readLocal)) = .error r from hr]
      rfl
    · intro issued goes logs
      have hexec {s : State} {w : Wave} {p : Split} (hf : s.fronts w p) (hu : s.unhindered w p (.launch a) = true)
          (hgoes : goes s w (p.stamp (.launch a) s.slots)) :
          exec (.launch a) s = (issued s).appendChild w.counted ((p.stamp (.launch a) s.slots).opens w) (w.S a.toNat).toNat (desc s) (succs s) := by
        obtain ⟨⟨⟨⟨hfresh, hsame, hdesc⟩, hport, hsound, hl⟩, hdepth, hfits⟩, hsuccs, -, -⟩ := hgoes
        exact launch_appends hf hu hfresh hsame hdesc hport hsound hl hdepth hfits hsuccs
      refine ⟨fun s w p hf hu hok => ?_, fun s w p hf hu hok => ?_, fun e s w p hf hu hok => ?_, fun s w p hgoes => ?_⟩
      · obtain ⟨hgoes, hreleased, hlogs⟩ := hok
        rw [hexec hf hu hgoes, State.appendChild_goes (w := w.counted) hgoes.2.2.1 hgoes.2.2.2 hreleased (State.demote_hasToken hu l.key)]
        simp only [show (issued s).acceptHolds l'.queue l'.ctx (Desc.ofBytes (desc s)) = none from hlogs]
        rfl
      · obtain ⟨hgoes, hreleased⟩ := hok
        rw [hexec hf hu hgoes]
        exact State.appendChild_waits (w := w.counted) hgoes.2.2.1 hgoes.2.2.2 (.inl hreleased)
      · obtain ⟨hgoes, hreleased, hlogs⟩ := hok
        rw [hexec hf hu hgoes, State.appendChild_goes (w := w.counted) hgoes.2.2.1 hgoes.2.2.2 hreleased (State.demote_hasToken hu l.key)]
        simp only [show (issued s).acceptHolds l'.queue l'.ctx (Desc.ofBytes (desc s)) = some e from hlogs]
        rfl
      · obtain ⟨⟨⟨-, -, -, hl⟩, -⟩, -, hl', -⟩ := hgoes
        have hkey : l.key = w.launch := beq_iff_eq.mp (List.find?_some (p := fun x : Launch => x.key == w.launch) hl)
        exact State.demote_replayable (s := s) (k := w.launch) (hkey ▸ hl')
  · intro s w p l o at_ desc succs hf hp hl ho
    have hexec : exec (.launch a) s = _ := execLaunch_waiting (a := a) hf hp
    refine ⟨fun hmay => ?_, fun hmay hreleased htoken hnow hlogs => ?_, fun hmay hreleased htoken hnow => ?_, fun hmay hwaits => ?_⟩
    · rw [hexec]
      exact if_neg (by rw [hmay]; exact Bool.false_ne_true)
    · rw [hexec, if_pos hmay]
      simp only [State.resumeChild, hl, Option.map_some, Option.getD_some, hreleased, htoken, hnow, Bool.and_false, Bool.false_eq_true, if_false]
      rw [State.appendChild_goes hl ho hreleased htoken]
      simp only [hlogs]
      rfl
    · rw [hexec, if_pos hmay]
      simp only [State.resumeChild, hl, Option.map_some, Option.getD_some, hreleased, htoken, hnow, Bool.and_true, if_true]
      rfl
    · have hnot : (s.released w 5 && s.hasToken w) = false := by rcases hwaits with h | h <;> simp [h]
      rw [hexec, if_pos hmay]
      simp only [State.resumeChild, hnot, Bool.false_and, Bool.false_eq_true, if_false]
      exact State.appendChild_waits hl ho hwaits

end Sys2Proof.Machine
end

section
/-! The checks of every instruction word (O41). -/

namespace Sys2Proof.Machine

/-! ### Every word issues (R126) -/

/-- Every word whose split does not wait in it issues. -/
theorem exec_issues {i : Instr} {s : State} {w : Wave} {p : Split} (henc : (encode i).isSome = true) (hf : s.fronts w p)
    (hget : ∀ k, p.status ≠ .onCxget k) (hlaunch : ∀ at_ bs ids, p.status ≠ .onLaunch at_ bs ids) : ∃ body, exec i s = issueWord i s body := by
  cases i
  case cxget d a b => exact ⟨_, execCxget_of_status hf hget⟩
  case launch a => exact ⟨_, execLaunch_of_status hf hlaunch⟩
  all_goals try exact absurd henc Bool.false_ne_true
  all_goals simp only [exec,
    execSadd, execSsub, execSmul, execSmulh, execSmulhu, execSdiv, execSdivu, execSrem, execSremu, execSand, execSor, execSxor, execSshl,
    execSshr, execSsra, execSmin, execSmax, execSminu, execSmaxu, execScmov, execSpopc, execSclz, execSctz, execSbfx, execSbfi, execSmov,
    execSceq, execScne, execSclt, execScle, execScltu, execScleu, execSread, execSwrite, execSldl, execSldw, execSstl, execSstw, execSgetv,
    execSli, execSlih, execSlix, execSliy, execSaddi, execSandi, execSori, execSxori, execSshli, execSshri, execSsrai, execSmuli, execSldp,
    execSatadd, execSatxchg, execSatcas, execSatmin, execSatmax, execSatand, execSator, execSatxor, execVadd, execVsub, execVmul, execVfma,
    execVfms, execVfnma, execVmin, execVmax, execVabs, execVneg, execVdiv, execVrem, execVsqrt, execVrsqrt, execVrcp, execVexp2, execVlog2,
    execVmulh, execVand, execVor, execVxor, execVshl, execVshr, execVsra, execVpopc, execVclz, execVceq, execVcne, execVclt, execVcle,
    execVcun, execVsel, execVcvt, execVrnd, execVmov, execVfromp, execVtop, execVpand, execVpor, execVpxor, execVpnot, execVshfl, execVshup,
    execVshdn, execVbcast, execVscan, execVscanmax, execVscanmin, execVredsum, execVredmax, execVredmin, execVballot, execVcount, execVrank,
    execVtag, execVgen, execVld, execVst, execVldraw, execVstraw, execVldb, execVstb, execVldh, execVsth, execVlds, execVsts, execVatadd,
    execVatmin, execVatmax, execVatand, execVator, execVatxchg, execVatcas, execCxadd, execCxclr, execCpin, execCpout, execCpgat, execCpsca,
    execCpfill, execCplocal, execWait, execFence, execMma, execMmaz, execMzero, execMdrv, execMdrl, execMdrx, execMldv, execBra, execBrp,
    execBrn, execSplit, execJoin, execBrk, execBrx, execCall, execRet, execLand, execExit, execRefill, execRgn, execBar, execMode, execModx,
    execSeed, execTrap, execBrkpt, execPreoff, execPreon, execYield, execSleep, execBindq, execNsclr, execTret, execInject, execNop,
    scalarBinary, scalarUnary, scalarCompare, scalarLoad, scalarStore, scalarImm, scalarAtomic, vectorBinary, vectorFused, vectorUnary,
    rawBinary, rawUnary, vectorCompare, predWord, crossLane, scanWord, rawLoad, rawStore, laneAtomic, copyWord, multiply, withDescriptor,
    branchOn, issueCxget, issueLaunch]
  all_goals exact ⟨_, rfl⟩

section
variable {i : Instr} {s : State} {w : Wave} {p : Split} (hf : s.fronts w p) (body : State → Wave → Split → Result)
include hf

/-- The checks of a word in their order, for the wave and the split in front. -/
theorem issueWord_eq :
    issueWord i s body =
      if (!(fieldsLegal i && w.legalHere i)) = true then s.trapAt w p trapILLOP 0 (w.active p)
      else if (!s.permitted w i) = true then s.trapAt w p trapPRIV 0 (w.active p)
      else if (!s.accepted i) = true then s.trapAt w p trapFEATURE 0 (w.active p)
      else match w.due (w.delivers p i) with
      | some x => s.deliver w p x
      | none =>
        match w.firstEmpty i with
        | some (pos, code) => if w.emptyTraps pos = true then s.trapAt w p trapEMPTY code (w.active p) else .next s
        | none =>
          if (w.mustWait i || !w.mayIssue p || (needsToken i && !s.hasToken w)) = true then .next s
          else match s.readErrors w p i with
          | some (s', _) => .next s'
          | none => body s w (p.stamp i s.slots) := by
  obtain ⟨ws, hws⟩ := List.head?_eq_some_iff.mp hf.1
  obtain ⟨ps, hps⟩ := List.head?_eq_some_iff.mp hf.2
  simp only [issueWord, hws, hps] <;> rfl

/-- ILLOP comes first. -/
theorem issueWord_illegal (h : ¬(fieldsLegal i = true ∧ w.legalHere i = true)) : issueWord i s body = s.trapAt w p trapILLOP 0 (w.active p) := by
  rw [issueWord_eq hf]
  exact if_pos (by rw [Bool.not_eq_true', ← Bool.not_eq_true, Bool.and_eq_true]; exact h)

variable (hlegal : fieldsLegal i = true ∧ w.legalHere i = true)
include hlegal

/-- Then PRIV. -/
theorem issueWord_private (h : s.permitted w i = false) : issueWord i s body = s.trapAt w p trapPRIV 0 (w.active p) := by
  rw [issueWord_eq hf, hlegal.1, hlegal.2, h]
  rfl

/-- Then FEATURE. -/
theorem issueWord_feature (hpermitted : s.permitted w i = true) (h : s.accepted i = false) :
    issueWord i s body = s.trapAt w p trapFEATURE 0 (w.active p) := by
  rw [issueWord_eq hf, hlegal.1, hlegal.2, hpermitted, h]
  rfl

variable (hpermitted : s.permitted w i = true) (haccepted : s.accepted i = true)
include hpermitted haccepted

/-- Then a pending fault that is due. -/
theorem issueWord_due {x : Bool × Deferred} (h : w.due (w.delivers p i) = some x) : issueWord i s body = s.deliver w p x := by
  rw [issueWord_eq hf, hlegal.1, hlegal.2, hpermitted, haccepted, h]
  rfl

variable (hdue : w.due (w.delivers p i) = none)
include hdue

/-- Then an empty source, which traps or waits. -/
theorem issueWord_empty {pos : Pos} {code : Nat} (h : w.firstEmpty i = some (pos, code)) :
    issueWord i s body = if w.emptyTraps pos = true then s.trapAt w p trapEMPTY code (w.active p) else .next s := by
  rw [issueWord_eq hf, hlegal.1, hlegal.2, hpermitted, haccepted, hdue, h]
  rfl

/-- Then the waits. -/
theorem issueWord_waits (hempty : w.firstEmpty i = none)
    (h : w.mustWait i = true ∨ w.mayIssue p = false ∨ needsToken i = true ∧ s.hasToken w = false) : issueWord i s body = .next s := by
  rw [issueWord_eq hf, hlegal.1, hlegal.2, hpermitted, haccepted, hdue, hempty]
  have hwait : (w.mustWait i || !w.mayIssue p || (needsToken i && !s.hasToken w)) = true := by
    simpa only [Bool.or_eq_true, Bool.and_eq_true, Bool.not_eq_true', or_assoc] using h
  exact if_pos hwait

end

/-! ### Fields and operands, row by row (R114, R115, R122-R125) -/

/-- What holds of the listed words' one value holds of each. -/
theorem rows_iff {α : Type} {l : List α} {f : α → Bool} (x : Bool) {q : Prop} (h : l.map f = List.replicate l.length x) (hx : x = true ↔ q) :
    ∀ op ∈ l, f op = true ↔ q := fun op hop => by
  have hmem : f op ∈ List.replicate l.length x := h ▸ List.mem_map_of_mem hop
  rw [List.eq_of_mem_replicate hmem]
  exact hx

/-- Words that are always legal. -/
theorem rows_true {α : Type} {l : List α} {f : α → Bool} (h : l.map f = List.replicate l.length true) : ∀ op ∈ l, f op = true :=
  fun op hop => (rows_iff true h (iff_of_true rfl trivial) op hop).mpr trivial

theorem two_iff {x y : Bool} {p q : Prop} (hx : x = true ↔ p) (hy : y = true ↔ q) : (x && y) = true ↔ p ∧ q := by
  rw [Bool.and_eq_true, hx, hy]

theorem three_iff {x y z : Bool} {p q r : Prop} (hx : x = true ↔ p) (hy : y = true ↔ q) (hz : z = true ↔ r) :
    (x && y && z) = true ↔ p ∧ q ∧ r := by
  rw [two_iff (two_iff hx hy) hz, and_assoc]

theorem isVr_iff (f : Byte) : isVr f = true ↔ f.toNat ≤ 191 := decide_eq_true_iff
theorem isV_iff (f : Byte) : isV f = true ↔ f.toNat ≤ 250 := decide_eq_true_iff
theorem isP_iff (f : Byte) : isP f = true ↔ f.toNat ≤ 15 := decide_eq_true_iff
theorem isVrRow_iff (f : Byte) : isVrRow f = true ↔ f.toNat ≤ 160 := decide_eq_true_iff

/-- R115: which constants a form has. -/
theorem constLegal_iff (f : Byte) (form : Form) :
    constLegal f form = true ↔ (f = 0xF2 → form.kind ≠ .index) ∧ (f = 0xF3 ∨ f = 0xF4 → form.kind = .real) := by
  by_cases h2 : f = 0xF2
  · rw [constLegal, if_pos h2, bne_iff_ne]
    refine ⟨fun h => ⟨fun _ => h, fun h34 => ?_⟩, fun h => h.1 h2⟩
    rw [h2] at h34
    exact absurd h34 (by decide)
  · rw [constLegal, if_neg h2]
    by_cases h34 : f = 0xF3 ∨ f = 0xF4
    · rw [if_pos (by simpa using h34), beq_iff_eq]
      exact ⟨fun h => ⟨fun h' => absurd h' h2, fun _ => h⟩, fun h => h.2 h34⟩
    · rw [if_neg (by simpa using h34)]
      exact ⟨fun _ => ⟨fun h' => absurd h' h2, fun h' => absurd h' h34⟩, fun _ => rfl⟩

/-- One operand, with no further condition. -/
theorem one_operand {x : Bool} {p : Prop} (hx : x = true ↔ p) : ((x && true) && true) = true ↔ p := by
  rw [Bool.and_true, Bool.and_true, hx]

/-- One operand, with a further condition. -/
theorem one_operand_and {x y : Bool} {p q : Prop} (hx : x = true ↔ p) (hy : y = true ↔ q) : ((x && true) && y) = true ↔ p ∧ q := by
  rw [Bool.and_true, two_iff hx hy]

/-- Two operands. -/
theorem two_operands {x y : Bool} {p q : Prop} (hx : x = true ↔ p) (hy : y = true ↔ q) : ((x && (y && true)) && true) = true ↔ p ∧ q := by
  rw [Bool.and_true, Bool.and_true, two_iff hx hy]

/-- Two operands, with a further condition. -/
theorem two_operands_and {x y z : Bool} {p q r : Prop} (hx : x = true ↔ p) (hy : y = true ↔ q) (hz : z = true ↔ r) :
    ((x && (y && true)) && z) = true ↔ p ∧ q ∧ r := by
  rw [Bool.and_true, three_iff hx hy hz]

/-- Operands A and B and, before them in the words' order, D. -/
theorem three_operands {x y z : Bool} {p q r : Prop} (hx : x = true ↔ p) (hy : y = true ↔ q) (hz : z = true ↔ r) :
    ((x && (y && (z && true))) && true) = true ↔ r ∧ p ∧ q := by
  rw [Bool.and_true, Bool.and_true, two_iff hx (two_iff hy hz)]
  tauto

/-- A class id names an entry of the kernel's record. -/
theorem Object.classRec_isSome (o : Object) (c : Nat) : (o.classRec c).isSome = true ↔ ∃ r ∈ o.classes, r.id = c := by
  rw [Object.classRec, List.find?_isSome]
  simp only [beq_iff_eq]

/-- R118: which values MR takes. -/
theorem Wave.mrLegal_iff (w : Wave) (x : Word64) : w.mrLegal x = true ↔
    x.toNat < 2 ^ 24 ∧ x.toNat % 256 = 0 ∧ x.toNat / 512 % 8 ≠ 7 ∧ ∃ r ∈ w.kern.classes, r.id = x.toNat / 65536 := by
  simp only [Wave.mrLegal, Bool.and_eq_true, beq_iff_eq, bne_iff_ne, Object.classRec_isSome, mrRound, mrClass, and_assoc]
  have hx : x.toNat / 2 ^ 24 = 0 ↔ x.toNat < 2 ^ 24 := Nat.div_eq_zero_iff.trans (by simp)
  rw [hx]
  refine and_congr_right fun hlt => ?_
  rw [Nat.mod_eq_of_lt (a := x.toNat / 65536) (by omega)]

/-- R118: which values MX takes. -/
theorem Wave.mxLegal_iff (w : Wave) (x : Word64) : w.mxLegal x = true ↔
    x.toNat < 2 ^ 24 ∧ x.toNat % 8 = 0 ∧ ∃ r ∈ w.kern.classes, r.id = x.toNat / 65536 := by
  simp only [Wave.mxLegal, Bool.and_eq_true, beq_iff_eq, Object.classRec_isSome, mrClass, and_assoc]
  have hx : x.toNat / 2 ^ 24 = 0 ↔ x.toNat < 2 ^ 24 := Nat.div_eq_zero_iff.trans (by simp)
  rw [hx]
  refine and_congr_right fun hlt => ?_
  rw [Nat.mod_eq_of_lt (a := x.toNat / 65536) (by omega)]

/-- Settles O41: the checks in their order, and what they refuse, row by row. -/
theorem issueChecksInOrder : Obligations.IssueChecksInOrder := by
  unfold Obligations.IssueChecksInOrder
  refine ⟨fun i s w p henc hf hget hlaunch => ?_, fun d a b => rows_iff (isP d) rfl (isP_iff d), fun d a => decide_eq_true_iff, fun d a => decide_eq_true_iff,
    fun d a b => isVr_iff a, fun d a b => rows_iff (isVr d && isV a && isV b) rfl (three_iff (isVr_iff d) (isV_iff a) (isV_iff b)),
    fun d a => rows_iff (isVr d && isV a) rfl (two_iff (isVr_iff d) (isV_iff a)),
    fun d a b => rows_iff (isP d && isV a && isV b) rfl (three_iff (isP_iff d) (isV_iff a) (isV_iff b)),
    fun d a => rows_iff (isVr d && isP a) rfl (two_iff (isVr_iff d) (isP_iff a)), fun d a => two_iff (isP_iff d) (isV_iff a),
    fun d a b => rows_iff (isP d && isP a && isP b) rfl (three_iff (isP_iff d) (isP_iff a) (isP_iff b)),
    fun d a => rows_iff (isP d && isP a) rfl (two_iff (isP_iff d) (isP_iff a)), fun d a b => two_iff (isP_iff a) decide_eq_true_iff,
    fun d a => isP_iff a, fun d a => isVr_iff a, fun d => isVr_iff d,
    fun d a b => rows_iff (isV d && isV a && isV b) rfl (three_iff (isV_iff d) (isV_iff a) (isV_iff b)), fun d a => two_iff (isV_iff d) (isV_iff a),
    fun d a b => rows_iff (isVr d && isV b) rfl (two_iff (isVr_iff d) (isV_iff b)), fun d a b => two_iff decide_eq_true_iff (isV_iff b),
    fun d a b => two_iff (isV_iff d) (isV_iff b), fun d a => rows_iff (isV a) rfl (isV_iff a), fun d a => decide_eq_true_iff,
    fun d a => two_iff decide_eq_true_iff decide_eq_true_iff, fun d => rows_iff (isP d) rfl (isP_iff d), fun d a => two_iff (isVrRow_iff d) (isP_iff a),
    fun d a => rows_iff (isP d) rfl (isP_iff d), fun d a => two_iff (isP_iff d) (isVrRow_iff a), fun d a => bne_iff_ne, fun d => isV_iff d,
    fun d => decide_eq_true_iff, fun d a b => decide_eq_true_iff, fun d a b => isVr_iff d, fun d a b => rows_true rfl, fun d a => rows_true rfl,
    fun d a => rows_true rfl, fun d a => rows_true rfl, fun d a => rfl, fun d => rows_true rfl, fun d => rows_true rfl, fun d a => rows_true rfl,
    rows_true rfl, fun d => rows_true rfl, fun d => rfl, fun d => rfl, fun w => ?_, fun s w i => ?_⟩
  · obtain ⟨body, hexec⟩ := exec_issues henc hf hget hlaunch
    rw [hexec]
    refine ⟨issueWord_illegal hf body, issueWord_private hf body, issueWord_feature hf body, fun ⟨hlegal, hpermitted, haccepted⟩ m d hdue => ?_,
      fun ⟨hlegal, hpermitted, haccepted⟩ hdue pos code hempty => ⟨fun htraps => ?_, fun hwaits => ?_⟩,
      fun ⟨hlegal, hpermitted, haccepted⟩ hdue hempty => issueWord_waits hf body hlegal hpermitted haccepted hdue hempty⟩
    · exact issueWord_due hf body hlegal hpermitted haccepted hdue
    · exact (issueWord_empty hf body hlegal hpermitted haccepted hdue hempty).trans (if_pos htraps)
    · exact (issueWord_empty hf body hlegal hpermitted haccepted hdue hempty).trans (if_neg (by rw [hwaits]; exact Bool.false_ne_true))
  · intro K C X G fits tiles named
    have hC (f : Byte) : constLegal f (.cls w.C) = true ↔ fits C f := constLegal_iff f (.cls w.C)
    have hX (f : Byte) : constLegal f (.cls w.X) = true ↔ fits X f := constLegal_iff f (.cls w.X)
    have hraw (f : Byte) : constLegal f .raw = true ↔ fits .int f := constLegal_iff f .raw
    have hreal : (w.C.kind == .real) = true ↔ K = .real := beq_iff_eq
    have hnotreal : (w.C.kind != .real) = true ↔ K ≠ .real := bne_iff_ne
    have htiles (t : Byte) : w.tilesLegal t = true ↔ tiles t := decide_eq_true_iff
    refine ⟨fun d a b => rows_iff _ rfl (two_operands (hC a) (hC b)), fun d a => rows_iff _ rfl (one_operand (hC a)),
      fun d a b => rows_iff _ rfl (two_operands_and (hC a) (hC b) hnotreal), fun d a => rows_iff _ rfl (one_operand_and (hC a) hreal),
      fun d a b => rows_iff _ rfl (two_operands (hraw a) (hraw b)), fun d a => rows_iff _ rfl (one_operand (hraw a)),
      fun d a => one_operand (hX a), fun d a b => ?_, fun d a b => three_operands (hraw a) (hraw b) (hC d),
      fun d a b => rows_iff _ rfl (three_operands (hraw a) (hraw b) (hraw d)), fun d a => (two_operands (hraw a) (hraw d)).trans and_comm,
      fun d a b => rows_iff _ rfl (one_operand (hraw b)), fun d a b => rows_iff _ rfl (one_operand_and (hraw b) hnotreal),
      fun d a b => one_operand_and (hraw b) decide_eq_true_iff, fun d a b => (two_operands (hraw b) (hC d)).trans and_comm,
      fun d a b => rows_iff _ rfl (htiles d), fun d => htiles d, fun d a => htiles a, fun d a => rows_iff _ rfl (htiles d),
      fun d => one_operand (hraw d), fun d => Iff.rfl, fun d => ?_, fun d => ?_, fun d => ?_, fun d a => htiles d, fun d a b => rows_true rfl,
      fun d a => rows_true rfl, fun d a => rows_true rfl, fun d a => rows_true rfl, fun d a => rfl, fun d => rows_true rfl, fun d a => rfl,
      fun d => rows_true rfl, fun d a => rows_true rfl, rows_true rfl, fun d => rows_true rfl, fun d a => ?_⟩
    · have hP : b.toNat < w.P ↔ 32 * b.toNat < w.W := by
        unfold Wave.P
        omega
      change (b == 0x20 || decide (b.toNat < w.P)) = true ↔ _
      rw [Bool.or_eq_true, beq_iff_eq, decide_eq_true_iff, hP]
    · have hx : ((d ++ 0#8 : BitVec 24).setWidth 64).toNat = d.toNat * 256 := by
        rw [BitVec.toNat_setWidth, toNat_append_zero]
        omega
      have hd := d.isLt
      change w.mrLegal _ = true ↔ _
      rw [Wave.mrLegal_iff, hx, show d.toNat * 256 / 512 = d.toNat / 2 by omega, show d.toNat * 256 / 65536 = d.toNat / 2 ^ 8 by omega]
      exact ⟨fun h => h.2.2, fun h => ⟨by omega, by omega, h⟩⟩
    · have hx : ((d ++ 0#3 : BitVec 24).setWidth 64).toNat = d.toNat * 8 := by
        rw [BitVec.toNat_setWidth, toNat_append_zero]
        omega
      have hd := d.isLt
      change w.mxLegal _ = true ↔ _
      rw [Wave.mxLegal_iff, hx, show d.toNat * 8 / 65536 = d.toNat / 2 ^ 13 by omega]
      exact ⟨fun h => h.2.2, fun h => ⟨by omega, by omega, h⟩⟩
    · change (!w.system || d == 1 || d == 2) = true ↔ _
      rw [Bool.or_eq_true, Bool.or_eq_true, Bool.not_eq_true', beq_iff_eq, beq_iff_eq, or_assoc]
    · change (((0x0A ≤ d.toNat && d.toNat ≤ 0x12) || (0x14 ≤ d.toNat && d.toNat ≤ 0x17)) &&
        (!w.scalarThere a.toNat || ((d != 0x0A || w.mrLegal (w.S a.toNat)) && (d != 0x0B || w.mxLegal (w.S a.toNat))))) = true ↔ _
      simp only [Bool.and_eq_true, Bool.or_eq_true, decide_eq_true_iff, Bool.not_eq_true', bne_iff_ne, Wave.mrLegal_iff, Wave.mxLegal_iff,
        ← imp_iff_not_or, ← Bool.not_eq_true, ne_eq]
      exact Iff.rfl
  · refine ⟨?_, ?_, fun c hc => ?_⟩
    · unfold State.permitted
      split
      next => simp
      next => simp [← Bool.not_eq_true, ← not_and_or]
      next d a =>
        simp only [Bool.or_eq_false_iff, Bool.not_eq_false', Bool.or_eq_true, Bool.and_eq_true, beq_iff_eq, decide_eq_true_iff]
        refine ⟨fun ⟨hs, h⟩ => .inl ⟨hs, .inr ⟨d, a, rfl, h⟩⟩, ?_⟩
        rintro (⟨hs, h | ⟨d, a, h, hd⟩⟩ | ⟨-, d, a, b, h⟩)
        · exact Instr.noConfusion h
        · obtain ⟨rfl, rfl⟩ := Instr.swrite.inj h
          exact ⟨hs, hd⟩
        · exact Instr.noConfusion h
      next hret hinject hswrite =>
        refine iff_of_false Bool.noConfusion ?_
        rintro (⟨-, h | ⟨d, a, h, -⟩⟩ | ⟨-, d, a, b, h⟩)
        · exact hret h
        · exact hswrite d a h
        · exact hinject d a b h
    · unfold State.accepted
      split
      next d => simp
      next hlaunch => exact iff_of_false Bool.noConfusion fun h => h.1.elim hlaunch
    · simp only [State.debugOf, hc, Option.map_some, Option.getD_some]

end Sys2Proof.Machine
end

section
/-! Commands that take effect at once (O54). -/

namespace Sys2Proof.Machine

/-- A command that neither waits for another nor for stage 3. -/
theorem State.command_runs {s : State} (hrun : s.running = none) (hstage : s.stage = 3) (f : State → State) : s.command false f = .next (f s) := by
  have hgo : (!false && s.stage != 3) = false := by simp [hstage]
  have hidle : ¬s.running.isSome = true := by simp [hrun]
  rw [State.command, if_neg hidle, hgo]
  rfl

theorem State.command_ignored {s : State} (hrun : s.running ≠ none) (early : Bool) (f : State → State) : s.command early f = .next s :=
  if_pos (Option.isSome_iff_ne_none.mpr hrun)

theorem State.command_early {s : State} (hrun : s.running = none) (hstage : s.stage ≠ 3) (f : State → State) :
    s.command false f = .next { s with cmdstat := 2 } := by
  exact (if_neg (by simp [hrun])).trans (if_pos (bne_iff_ne.mpr hstage))

/-- The three answers of a command under a condition: ignored while another runs, refused before stage 3 and where the condition fails, done. -/
theorem exec_commandIf {i : Instr} {ok : State → Prop} {f : State → State} (b : State → Bool) (hexec : ∀ s, exec i s = s.commandIf (b s) f)
    (hok : ∀ s, b s = true ↔ ok s) (s : State) :
    (s.running ≠ none → exec i s = .next s) ∧ (s.running = none → s.stage ≠ 3 → exec i s = .next { s with cmdstat := 2 }) ∧
      (s.running = none → s.stage = 3 → (ok s → exec i s = .next { f s with cmdstat := 0 }) ∧ (¬ok s → exec i s = .next { s with cmdstat := 2 })) := by
  rw [hexec, State.commandIf]
  refine ⟨fun hrun => State.command_ignored hrun _ _, fun hrun hstage => State.command_early hrun hstage _, fun hrun hstage => ?_⟩
  rw [State.command_runs hrun hstage]
  exact ⟨fun h => congrArg Host.Outcome.next (if_pos ((hok s).mpr h)), fun h => congrArg Host.Outcome.next (if_neg fun hb => h ((hok s).mp hb))⟩

theorem State.hasContext_iff (s : State) (c : Nat) : s.hasContext c = true ↔ ∃ x ∈ s.contexts, x.id = c := by
  rw [State.hasContext, State.context?, List.find?_isSome]
  simp only [beq_iff_eq]

theorem isOwnHome_iff (home : Nat) : isOwnHome home = true ↔ home < 4 ∨ home = 0x80 := by
  rw [isOwnHome, Bool.or_eq_true, decide_eq_true_iff, beq_iff_eq]
  rfl

/-- The handler addresses of a context: words of the code of its objects (R357). -/
theorem State.handlerAllowed_iff (s : State) (c a : Nat) : s.handlerAllowed c a = true ↔
    ∃ o ∈ s.objects, o.ctx = c ∧ o.codeVa ≤ a ∧ a < o.codeVa + 4 * o.code.length ∧ (a - o.codeVa) % 4 = 0 := by
  simp only [State.handlerAllowed, List.any_eq_true, Bool.and_eq_true, beq_iff_eq, decide_eq_true_iff, and_assoc]

/-- A context is destroyed once its launches are complete. -/
theorem State.noOpenLaunch_iff (s : State) (c : Nat) :
    (!(s.launches.any fun l => l.ctx == c && l.open_)) = true ↔ ∀ l ∈ s.launches, l.ctx = c → l.state = .completed := by
  simp [Launch.open_]

/-- QEVICT goes on while crews of its queue are placed. -/
theorem qevict_eq (q : Nat) (s : State) : exec (.qevict q) s = s.command false fun s =>
    if decide (q ≥ Config.queues) = true then s.commandRefused 0
    else
      let t := (s.onQueue q fun x => { x with evicted := true }).stopCrews (s.crewOfQueue q)
      if t.queuePlaced q = true then t.commandRuns (.qevict q) else t.commandDone := rfl

/-! ### TLOGSET (R372) -/

theorem tlogset_eq (k base size mode : Nat) (s : State) : exec (.tlogset k base size mode) s = s.command false fun t =>
    if (decide (k ≥ Config.queues) || decide (mode > 2)) = true then t.commandRefused 0
    else if mode = 0 then (t.onQueue k fun x => { x with tlog := none }).commandDone
    else if (base % 64 != 0 || decide (size < 64) || (size - 64) % 96 != 0) = true then t.commandRefused 0
    else if (!t.sealedRW (s.queue k).context.toNat base size) = true then t.rangeRefused (s.queue k).context.toNat base size
    else (t.onQueue k fun x => { x with tlog := some (base, size, mode) }).commandDone := rfl

/-- With mode 0 it is a command under a condition. -/
theorem tlogset_none (k : Nat) (s : State) :
    exec (.tlogset k 0 0 0) s = s.commandIf (decide (k < Config.queues)) fun s => s.onQueue k fun x => { x with tlog := none } := by
  rw [tlogset_eq, State.commandIf]
  congr 1
  funext t
  by_cases hk : k < Config.queues
  · simp [hk]
  · simp [hk, not_lt.mp hk]

section
variable {s : State} {k base size mode : Nat} (hrun : s.running = none) (hstage : s.stage = 3) (hmode : 0 < mode)
include hrun hstage hmode

/-- A log that is not of the form is refused. -/
theorem tlogset_malformed (h : ¬(k < 256 ∧ mode ≤ 2 ∧ base % 64 = 0 ∧ 64 ≤ size ∧ (size - 64) % 96 = 0)) :
    exec (.tlogset k base size mode) s = .next { s with cmdstat := 2 } := by
  rw [tlogset_eq, State.command_runs hrun hstage]
  by_cases hk : (decide (k ≥ Config.queues) || decide (mode > 2)) = true
  · rw [if_pos hk]
    rfl
  · have hbad : (base % 64 != 0 || decide (size < 64) || (size - 64) % 96 != 0) = true := by
      simp only [Bool.or_eq_true, decide_eq_true_iff, not_or, not_le, not_lt] at hk
      simp only [Bool.or_eq_true, bne_iff_ne, decide_eq_true_iff]
      have : k < 256 := hk.1
      omega
    rw [if_neg hk, if_neg hmode.ne', if_pos hbad]
    rfl

/-- A well-formed log is set where its range may be used. -/
theorem tlogset_wellFormed (h : k < 256 ∧ mode ≤ 2 ∧ base % 64 = 0 ∧ 64 ≤ size ∧ (size - 64) % 96 = 0) :
    exec (.tlogset k base size mode) s =
      .next (if (!s.sealedRW (s.queue k).context.toNat base size) = true then s.rangeRefused (s.queue k).context.toNat base size
        else (s.onQueue k fun x => { x with tlog := some (base, size, mode) }).commandDone) := by
  obtain ⟨hk, hle, hbase, hsize, hmod⟩ := h
  have hgood : ¬(decide (k ≥ Config.queues) || decide (mode > 2)) = true := by
    simp only [Bool.or_eq_true, decide_eq_true_iff, not_or, not_le, not_lt]
    exact ⟨hk, hle⟩
  have hform : ¬(base % 64 != 0 || decide (size < 64) || (size - 64) % 96 != 0) = true := by
    simp [hbase, hmod, hsize]
  rw [tlogset_eq, State.command_runs hrun hstage, if_neg hgood, if_neg hmode.ne', if_neg hform]

end

/-- Where no walk of the range meets a poisoned entry, the refusal reports none. -/
theorem State.rangeRefused_clean {s : State} {c va n : Nat}
    (h : ∀ x ∈ granules 65536 va n, ∀ t i, s.lookup c (homeOf va) x.1 ≠ .poisoned t i) : s.rangeRefused c va n = { s with cmdstat := 2 } := by
  simp only [State.rangeRefused]
  rw [List.findSome?_eq_none_iff.mpr fun x hx => ?_]
  · rfl
  · split
    next t i ht => exact absurd ht (h x hx t i)
    next => rfl

/-- Settles O54: each command is one under a condition; QEVICT and TLOGSET by their cases. -/
theorem commandsTakeEffect : Obligations.CommandsTakeEffect := by
  unfold Obligations.CommandsTakeEffect
  intro does has stop
  have hqueue (q : Nat) (_ : State) : decide (q < Config.queues) = true ↔ q < 256 := decide_eq_true_iff
  have hhas (c : Nat) (s : State) : s.hasContext c = true ↔ has c s := s.hasContext_iff c
  refine ⟨fun q => ⟨?_, ?_, ?_, ?_, ?_⟩, fun c home root debug x buf => ⟨?_, ?_, ?_, ?_, ?_, ?_⟩, fun home base size bands => ⟨?_, ?_⟩,
    fun n k buf m => ⟨?_, ?_, ?_, ?_, ?_, ?_, ?_, ?_⟩⟩
  · exact exec_commandIf (fun s => decide (q < Config.queues) && (s.queue q).status != 1) (fun _ => rfl) fun s => two_iff (hqueue q s) bne_iff_ne
  · exact exec_commandIf _ (fun _ => rfl) (hqueue q)
  · intro s t
    rw [qevict_eq]
    refine ⟨fun hrun => State.command_ignored hrun _ _, fun hrun hbad => ?_, fun hrun hstage hq => ?_⟩
    · by_cases hstage : s.stage = 3
      · have hq : q ≥ Config.queues := hbad.resolve_left (not_not_intro hstage)
        rw [State.command_runs hrun hstage, if_pos (decide_eq_true hq)]
        rfl
      · exact State.command_early hrun hstage _
    · have hq : ¬decide (q ≥ Config.queues) = true := by rw [decide_eq_true_iff]; exact not_le.mpr hq
      rw [State.command_runs hrun hstage, if_neg hq]
      refine ⟨fun hplaced => congrArg Host.Outcome.next (if_neg ?_), fun hplaced => congrArg Host.Outcome.next (if_pos hplaced)⟩
      rw [show (State.queuePlaced _ q) = false from hplaced]
      exact Bool.false_ne_true
  · exact exec_commandIf _ (fun _ => rfl) (hqueue q)
  · exact exec_commandIf _ (fun _ => rfl) (hqueue q)
  · refine exec_commandIf (fun s => !s.hasContext c && decide (c < 0xFFFF)) (fun _ => rfl) fun s => two_iff ?_ decide_eq_true_iff
    rw [Bool.not_eq_true', ← Bool.not_eq_true, hhas]
  · refine exec_commandIf (fun s => s.hasContext c && isOwnHome home) (fun s => ?_) fun s => two_iff (hhas c s) (isOwnHome_iff home)
    change execCtxroot c home root s = _
    unfold execCtxroot
    by_cases hroot : root = 0
    · simp only [hroot, if_true, List.nil_append]
    · simp only [hroot, if_false, List.cons_append, List.nil_append]
  · refine exec_commandIf (fun s => s.hasContext c && (x == 0 || s.handlerAllowed c x.toNat)) (fun _ => rfl) fun s => two_iff (hhas c s) ?_
    rw [Bool.or_eq_true, beq_iff_eq, State.handlerAllowed_iff]
  · exact exec_commandIf _ (fun _ => rfl) (hhas c)
  · exact exec_commandIf _ (fun _ => rfl) (hhas c)
  · refine exec_commandIf (fun s => s.hasContext c && !(s.launches.any fun l => l.ctx == c && l.open_)) (fun s => ?_) fun s =>
      two_iff (hhas c s) (s.noOpenLaunch_iff c)
    change execCtxdestroy c s = _
    simp only [execCtxdestroy, beq_iff_eq]
  · exact exec_commandIf _ (fun _ => rfl) fun _ => isOwnHome_iff home
  · refine exec_commandIf (fun s => decide (home < Config.dies) && !(s.shadows.any fun x => x.die == home) &&
      bands.all fun b => decide (b < Config.bandsPerDie) && nth (s.home home).tiers b 0 == 2) (fun _ => rfl) fun s =>
      three_iff decide_eq_true_iff ?_ ?_
    · simp
    · simp only [List.all_eq_true, Bool.and_eq_true, decide_eq_true_iff, beq_iff_eq]
      exact Iff.rfl
  · exact exec_commandIf (fun _ => decide (10 ≤ n ∧ n ≤ 3600) && true) (fun _ => rfl) fun s => by rw [Bool.and_true, decide_eq_true_iff]
  · refine exec_commandIf (fun s => decide (10 ≤ n ∧ n ≤ 3600) && decide (k < s.clusters.length)) (fun _ => rfl) fun s => ?_
    rw [two_iff decide_eq_true_iff decide_eq_true_iff, and_assoc]
  · exact exec_commandIf _ (tlogset_none k) (hqueue k)
  · intro s base size mode hmode ctx form run
    refine ⟨fun hrun => (tlogset_eq ..).trans (State.command_ignored hrun _ _),
      fun hrun hstage => (tlogset_eq ..).trans (State.command_early hrun hstage _), fun hrun hstage => ⟨fun hform hsealed => ?_, tlogset_malformed hrun hstage hmode, fun hform hsealed => ⟨?_, rfl, State.rangeRefused_clean⟩⟩⟩
    · refine (tlogset_wellFormed hrun hstage hmode hform).trans (congrArg Host.Outcome.next (if_neg ?_))
      rw [show s.sealedRW (s.queue k).context.toNat base size = true from hsealed]
      exact Bool.false_ne_true
    · refine (tlogset_wellFormed hrun hstage hmode hform).trans (congrArg Host.Outcome.next (if_pos ?_))
      rw [show s.sealedRW (s.queue k).context.toNat base size = false from hsealed]
      rfl
  · exact exec_commandIf _ (fun _ => rfl) fun _ => iff_of_true rfl trivial
  · exact exec_commandIf _ (fun _ => rfl) fun _ => iff_of_true rfl trivial
  · exact exec_commandIf _ (fun _ => rfl) fun _ => decide_eq_true_iff
  · exact exec_commandIf _ (fun _ => rfl) fun _ => decide_eq_true_iff

end Sys2Proof.Machine
end

section
/-! Commands that go on after their start, or read and write at length (O55). -/

namespace Sys2Proof.Machine

/-! ### Home units -/

/-- A change of a home unit that exists is read back. -/
theorem State.home_onHome {s : State} {k : Nat} {f : Home → Home} (h : k < s.homes.length) : (s.onHome k f).home k = f (s.home k) := by
  simp [State.home, State.onHome, nth, modifyAt, h]

@[simp] theorem State.onHome_homes_length (s : State) (k : Nat) (f : Home → Home) : (s.onHome k f).homes.length = s.homes.length := by
  simp [State.onHome, modifyAt]

theorem unitOf_die {home : Nat} (h : home < 4) : unitOf home = home := if_pos h

/-- After a recall the leases of the condition are recalled. -/
theorem State.recallLeases_recalled {s : State} {home : Nat} {hit : Lease → Bool} (hhit : ∀ x, hit { x with recalled := true } = hit x)
    (hlen : unitOf home < s.homes.length) : ∀ x ∈ ((s.recallLeases home hit).home (unitOf home)).leases, hit x = true → x.recalled = true := by
  intro x hx hxhit
  rw [State.recallLeases, State.home_onHome hlen] at hx
  obtain ⟨y, -, rfl⟩ := List.mem_map.mp hx
  by_cases hy : hit y = true
  · rw [if_pos hy]
  · rw [if_neg hy] at hxhit
    exact absurd hxhit hy

/-- A recall changes leases alone. -/
theorem State.recallLeases_cache {s : State} {home : Nat} {hit : Lease → Bool} (hlen : unitOf home < s.homes.length) :
    ((s.recallLeases home hit).home (unitOf home)).cache = (s.home (unitOf home)).cache := by
  rw [State.recallLeases, State.home_onHome hlen]

/-! ### Table entries keep how many home units there are -/

theorem State.writePhysBytes_homes (s : State) (k pa : Nat) (bs : List Byte) : (s.writePhysBytes k pa bs).homes = s.homes := by
  induction bs generalizing s pa with
  | nil => rfl
  | cons b bs ih =>
    refine (ih _ _).trans ?_
    unfold State.writePhys
    split <;> rfl

theorem State.healEntries_homes_length (s : State) (m : MainAt) (n : Nat) : (s.healEntries m n).homes.length = s.homes.length := by
  simp only [State.healEntries]
  split
  · exact State.onHome_homes_length ..
  · rfl

theorem State.hostWritten_homes (s : State) (unit : Nat) : (s.hostWritten unit).homes = s.homes := by
  unfold State.hostWritten
  split <;> rfl

theorem State.rewriteEntries_homes_length (s : State) (unit : Nat) (pas : List Nat) (frame : Option Nat) (migrating : Bool) :
    (s.rewriteEntries unit pas frame migrating).homes.length = s.homes.length :=
  foldl_keeps (g := fun s : State => s.homes.length) (fun s pa => by
    rw [State.hostWritten_homes, State.writeEntry, State.healEntries_homes_length, State.writePhysBytes_homes]) _ s

/-! ### Parts at a home -/

/-- Without operations and side-log entries there are no parts to let in or refuse. -/
theorem State.partsAt_nil {u : State} (h : ∀ w ∈ u.waves, w.ops = []) (home : Nat) (ok : Wave → Part → Bool) : u.partsAt home ok = [] :=
  List.flatMap_eq_nil_iff.mpr fun w hw => by rw [h w hw]; rfl

/-- Nor any to retry. -/
theorem State.retryUnrecorded_nil {u : State} (h : ∀ w ∈ u.waves, w.ops = []) (hlog : u.sideLog = []) (home : Nat) : u.retryUnrecorded home = u := by
  simp only [State.retryUnrecorded, hlog, List.filter_nil, List.foldl_nil, State.partsAt_nil h]

/-! ### What a restore keeps of the contexts -/

/-- The identifiers of the contexts. -/
def State.contextIds (s : State) : List Nat := s.contexts.map Context.id

theorem State.onContext_ids {s : State} {c : Nat} {f : Context → Context} (hf : ∀ x, (f x).id = x.id) : (s.onContext c f).contextIds = s.contextIds := by
  simp only [State.contextIds, State.onContext, List.map_map]
  exact List.map_congr_left fun x _ => by simp only [Function.comp_apply]; split <;> simp [hf]

theorem State.contextFault_ids (s : State) (c : Nat) (f : LogFields) : (s.contextFault c f).contextIds = s.contextIds := by
  rw [State.contextFault_eq]
  exact State.onContext_ids (f := fun x => { x with faulted := true, report := f.report }) fun _ => rfl

theorem State.logIntegrity_ids (s : State) (f : LogFields) : (s.logIntegrity f).contextIds = s.contextIds := by
  rw [State.logIntegrity_eq]
  rfl

theorem State.charge_ids (s : State) (c n : Nat) : (s.charge c n).1.contextIds = s.contextIds :=
  State.onContext_ids fun _ => by rfl

theorem State.corrected_ids (s : State) (c : Nat) : (s.corrected c none).contextIds = s.contextIds := by
  have hcounted : (s.onContext c fun x => { x with corrections := x.corrections + 1 }).contextIds = s.contextIds := State.onContext_ids fun _ => by rfl
  unfold State.corrected
  simp only
  split
  · rw [State.contextFault_ids, State.logIntegrity_ids, State.charge_ids, hcounted]
  · rw [State.charge_ids, hcounted]

theorem State.correctLine_ids (s : State) (c : Nat) (m : MainAt) : (s.correctLine c m).contextIds = s.contextIds := by
  unfold State.correctLine
  split
  · split
    · rfl
    · exact State.corrected_ids _ c
  · rfl

theorem State.answeredBy_ids (s : State) (va : Nat) : (s.answeredBy va).contextIds = s.contextIds := by
  unfold State.answeredBy
  split <;> rfl

theorem State.deviceTook_ids (s : State) (c va n : Nat) : (s.deviceTook c va n).contextIds = s.contextIds := by
  unfold State.deviceTook
  split
  · rfl
  · rw [State.answeredBy_ids]
    exact foldl_keeps (fun s m => s.correctLine_ids c m) _ s

theorem State.tookSuccs_ids (s : State) (c : Nat) (xs : List LaunchImage) : (s.tookSuccs c xs).contextIds = s.contextIds :=
  foldl_keeps (g := State.contextIds) (fun s x => by
    split
    · exact s.deviceTook_ids ..
    · rfl) xs s

/-- Restored launches join the others, and no context goes. -/
theorem State.adopts_ids (s : State) (ys : List (LaunchImage × List Nat)) : (ys.foldl State.adopt s).contextIds = s.contextIds :=
  foldl_keeps (g := State.contextIds) (f := State.adopt) (fun _ _ => rfl) ys s

theorem State.hasContext_congr {s t : State} (h : t.contextIds = s.contextIds) (c : Nat) : t.hasContext c = s.hasContext c := by
  have hids (u : State) : u.hasContext c = true ↔ c ∈ u.contextIds := by
    rw [State.hasContext_iff, State.contextIds, List.mem_map]
  rw [Bool.eq_iff_iff, hids, hids, h]

/-- A change of a context that exists is read back. -/
theorem State.context?_onContext {s : State} {c : Nat} {f : Context → Context} (hf : ∀ x, (f x).id = x.id) (h : s.hasContext c = true) :
    ∃ x, s.context? c = some x ∧ (s.onContext c f).context? c = some (f x) := by
  obtain ⟨x, hx⟩ := Option.isSome_iff_exists.mp h
  refine ⟨x, hx, ?_⟩
  have hkey : (x.id == c) = true := List.find?_some (p := fun y : Context => y.id == c) hx
  have hsame : (fun y : Context => (if (y.id == c) = true then f y else y).id == c) = fun y => y.id == c := by
    funext y
    split <;> simp [hf]
  rw [State.context?] at hx ⊢
  rw [State.onContext, List.find?_map, show ((fun y : Context => y.id == c) ∘ fun y => if (y.id == c) = true then f y else y) = fun y => y.id == c from hsame, hx,
    Option.map_some, if_pos hkey]

/-! ### The queues that a save stops (R390) -/

/-- A queue that CTXSAVE stops and evicts. -/
def Queue.saved (x : Queue) : Queue := { x with status := 0, reading := none, held := [], evicted := true }

/-- CTXSAVE's step for one queue. -/
def State.saveQueue (s : State) (q : Nat) : State := (s.stopQueue q).onQueue q fun x => { x with evicted := true }

theorem State.saveQueue_queues (s : State) (q : Nat) : (s.saveQueue q).queues = s.queues.modify q Queue.saved := by
  simp only [State.saveQueue, State.stopQueue, State.onQueue, modifyAt, List.modify_modify_eq]
  rfl

/-- Over the queues listed: each of them is saved, and every other one stays. -/
theorem State.saveQueues_at (s : State) (ks : List Nat) (k : Nat) :
    ((ks.foldl State.saveQueue s).queues)[k]? = (s.queues[k]?).map fun x => if k ∈ ks then x.saved else x := by
  induction ks generalizing s with
  | nil => simp
  | cons q ks ih =>
    rw [List.foldl_cons, ih, State.saveQueue_queues, List.getElem?_modify, Option.map_eq_map, Option.map_map]
    congr 1
    funext x
    by_cases hq : q = k
    · subst hq
      by_cases hmem : q ∈ ks <;> simp [hmem, Queue.saved]
    · by_cases hmem : k ∈ ks <;> simp [hmem, hq, Ne.symm hq]

/-- CTXSAVE saves the queues of its context. -/
theorem State.saved_of_context {s : State} {c : Nat} {x : Queue}
    (hx : x ∈ (((s.queues.zipIdx.filter fun x => x.1.context.toNat == c).map Prod.snd).foldl State.saveQueue s).queues) (hc : x.context.toNat = c) :
    x.status = 0 ∧ x.evicted = true := by
  obtain ⟨k, hk⟩ := List.getElem?_of_mem hx
  rw [State.saveQueues_at] at hk
  obtain ⟨y, hy, rfl⟩ := Option.map_eq_some_iff.mp hk
  split at hc
  next hmem =>
    rw [if_pos hmem]
    exact ⟨rfl, rfl⟩
  next hmem =>
    refine absurd (List.mem_map.mpr ⟨(y, k), List.mem_filter.mpr ⟨List.mk_mem_zipIdx_iff_getElem?.mpr hy, ?_⟩, rfl⟩) hmem
    exact beq_iff_eq.mpr hc

/-- The queues of a context read their chains from head again (R391). -/
def State.reread (s : State) (c : Nat) : State :=
  { s with queues := s.queues.map fun (q : Queue) =>
    if q.context.toNat == c then { q with status := 1, reading := some (false, q.head.toNat), stopat := 0, evicted := false } else q }

/-! ### XINVAL (R328) -/

section
variable {s : State} (hrun : s.running = none) (hstage : s.stage = 3)
include hrun hstage

theorem xinval_starts {c home va n : Nat} (hctx : s.hasContext c = true) (hhome : home < 4) :
    exec (.xinval c home va n) s = .next
      (((s.onHome home fun h => { h with cache := h.cache.filter fun e => !e.meets c va n }).recallLeases home (Lease.inRange c va n)).commandRuns
        (.xinval home c va n (s.partsInRange home c va n)
          ((s.sideLog.filter fun e => e.ctx == c && e.home == home && (e.leaf.map fun l => l.pageMeets e.va va n).getD false).map LogEntry.key))) := by
  have hown : ¬(!s.hasContext c || !isOwnHome home) = true := by
    rw [hctx, (isOwnHome_iff home).mpr (.inl hhome)]
    exact Bool.false_ne_true
  change execXinval c home va n s = _
  rw [execXinval, State.command_runs hrun hstage, if_neg hown, unitOf_die hhome]

/-! ### MIGRATE (R329) -/

/-- The migration that MIGRATE begins for a leaf. -/
def migrationOf (c va frame : Nat) (l : Leaf) : Migration :=
  ⟨c, va / pageBytes l.size * pageBytes l.size, l.pa, frame, pageBytes l.size, l.entries, 0⟩

/-- MIGRATE of a page that is mapped, in the order of its checks. -/
theorem migrate_leaf {c home va frame : Nat} {l : Leaf} (hl : s.lookup c home va = .leaf l) :
    exec (.migrate c home va frame) s =
      .next (if (!isOwnHome home || homeOf va != home || va / 2 ^ 48 % 256 != 0) = true then s.commandRefused 0
        else
          let g := migrationOf c va frame l
          if (((s.home (unitOf home)).faults.any fun f => f.ctx == c && decide (g.va ≤ f.va ∧ f.va < g.va + g.size)) || !s.frameFits home l frame) = true
          then s.commandRefused 0
          else ((((s.rewriteEntries (unitOf home) l.entries none true).recallLeases home (Lease.ofMigration g)).onHome (unitOf home) fun h =>
            { h with migrations := h.migrations ++ [g] }).commandRuns (.migrate home c g.va))) := by
  change execMigrate c home va frame s = _
  rw [execMigrate, State.command_runs hrun hstage]
  simp only [hl]
  rfl

/-! ### RECLASS (R338) -/

theorem reclass_eq {home band tier : Nat} :
    exec (.reclass home band tier) s =
      .next (if (decide (home ≥ Config.dies) || band == 0 || decide (band ≥ Config.bandsPerDie) || decide (tier > 2) || s.bandTargeted home band) = true
        then s.commandRefused 0 else (s.onHome home fun h => { h with closed := band :: h.closed }).commandRuns (.reclass home band tier)) := by
  change execReclass home band tier s = _
  rw [execReclass, State.command_runs hrun hstage]

/-! ### RESOLVE (R325) -/

/-- RESOLVE of a tag without an open fault is refused. -/
theorem resolve_absent {home tag : Nat} {map : Bool} (hnone : (s.home (unitOf home)).faults.find? (fun f => f.tag == tag) = none) :
    exec (.resolve home tag map) s = .next { s with cmdstat := 2 } := by
  change execResolve home tag map s = _
  rw [execResolve, State.command_runs hrun hstage]
  simp only [hnone]
  rfl

/-- RESOLVE then ends its fault, and that is all. -/
theorem resolve_quiet {home tag : Nat} {map : Bool} {f : OpenFault} (hhome : home < 4)
    (hf : (s.home (unitOf home)).faults.find? (fun f => f.tag == tag) = some f) (hops : ∀ w ∈ s.waves, w.ops = []) (hlog : s.sideLog = []) :
    exec (.resolve home tag map) s =
      .next (s.onHome (unitOf home) fun h => { h with faults := h.faults.filter (· != f) }).commandDone := by
  have hown : ¬(!isOwnHome home) = true := by
    rw [(isOwnHome_iff home).mpr (.inl hhome)]
    exact Bool.false_ne_true
  change execResolve home tag map s = _
  rw [execResolve, State.command_runs hrun hstage]
  simp only [hf, if_neg hown]
  set u := s.onHome (unitOf home) fun h => { h with faults := h.faults.filter (· != f) }
  simp only [State.partsAt_nil (u := u) hops, show u.sideLog = [] from hlog, List.filter_nil, List.foldl_nil, ite_self,
    State.retryUnrecorded_nil (u := u) hops hlog]

/-! ### LOAD, CTXSAVE and CTXRESTORE (R107, R390, R391) -/

theorem load_eq (c q : Nat) (addr handle : Word64) (buf : Nat) (place : List Placement) :
    exec (.load c q addr handle buf place) s =
      .next (if (!s.hasContext c || decide (q ≥ Config.queues) || (s.queue q).context.toNat != c ||
          !(handle == 0 || (s.object? c handle.toNat).isSome)) = true then s.commandRefused 0
        else
          let bs := s.hostMem.readBytes addr.toNat (max 256 (leNat (s.hostMem.readBytes (addr.toNat + 0x0C) 4)))
          let r := s.loadObject bs place c handle.toNat
          (r.2.toHost buf (leBytes 8 r.1.1 ++ leBytes 8 0 ++ leBytes 16 r.1.2)).commandDone) := by
  change execLoad c q addr handle buf place s = _
  rw [execLoad, State.command_runs hrun hstage]

/-- What CTXSAVE checks, and that it saves the context's queues. -/
theorem ctxsave_eq (c : Nat) (addr : Word64) (size buf : Nat) :
    exec (.ctxsave c addr size buf) s =
      .next (if (!s.hasContext c || s.saveRefused c || addr.toNat % 64 != 0) = true then s.commandRefused 0
        else if (!s.sealedRW c addr.toNat size) = true then s.rangeRefused c addr.toNat size
        else
          let u := ((s.queues.zipIdx.filter fun x => x.1.context.toNat == c).map Prod.snd).foldl State.saveQueue s
          (u.stopCrews (u.crewOfContext c)).commandRuns (.ctxsave c addr size buf)) := by
  change execCtxsave c addr size buf s = _
  rw [execCtxsave, State.command_runs hrun hstage]
  rfl

section
variable {c : Nat} {addr : Word64} {buf : Nat} {bs : List Byte} (hctx : s.hasContext c = true) (hbs : s.readImageBytes c addr.toNat = .ok bs)
include hctx hbs

/-- CTXRESTORE reports an image that fails its checks. -/
theorem ctxrestore_unsound {r : Nat} (hr : (s.deviceTook c addr.toNat bs.length).checkImage c bs = .error r) :
    exec (.ctxrestore c addr buf) s = .next ((s.deviceTook c addr.toNat bs.length).toHost buf (leBytes 16 r)).commandDone := by
  have hno : ¬(!s.hasContext c) = true := by rw [hctx]; exact Bool.false_ne_true
  change execCtxrestore c addr buf s = _
  rw [execCtxrestore, State.command_runs hrun hstage]
  simp only [if_neg hno, hbs, hr]

/-- It refuses one of which a successor list cannot be read. -/
theorem ctxrestore_unread {r : List LaunchImage × Nat} {e : DeviceErr} (hr : (s.deviceTook c addr.toNat bs.length).checkImage c bs = .ok r)
    (he : (s.deviceTook c addr.toNat bs.length).readAllSuccs c r.1 = .error e) :
    exec (.ctxrestore c addr buf) s = .next (((s.deviceTook c addr.toNat bs.length).deviceFailed c 0 e).commandRefused 0) := by
  have hno : ¬(!s.hasContext c) = true := by rw [hctx]; exact Bool.false_ne_true
  change execCtxrestore c addr buf s = _
  rw [execCtxrestore, State.command_runs hrun hstage]
  simp only [if_neg hno, hbs, hr, he]

/-- Otherwise the launches join the others, and the context's queues read their chains from head. -/
theorem ctxrestore_restores {r : List LaunchImage × Nat} {ids : List (List Nat)} (hr : (s.deviceTook c addr.toNat bs.length).checkImage c bs = .ok r)
    (hids : (s.deviceTook c addr.toNat bs.length).readAllSuccs c r.1 = .ok ids) :
    ∃ k, exec (.ctxrestore c addr buf) s = .next (((((r.1.zip ids).foldl State.adopt
      { (s.deviceTook c addr.toNat bs.length).tookSuccs c r.1 with nextKey := k }).onContext c fun x =>
        { x with eb := BitVec.ofNat 64 (field bs 0x28 8) }).reread c).toHost buf (leBytes 16 0)).commandDone := by
  have hno : ¬(!s.hasContext c) = true := by rw [hctx]; exact Bool.false_ne_true
  refine ⟨r.1.flatMap (fun x => x.crews.flatMap fun y => y.2.2.flatMap fun w => w.a.entries.map Entry.key)
    |>.foldl (fun n k => max n (k + 1)) r.2, ?_⟩
  change execCtxrestore c addr buf s = _
  rw [execCtxrestore, State.command_runs hrun hstage]
  simp only [if_neg hno, hbs, hr, hids]
  rfl

/-- The context named has the floor of the image, and its queues run and read their chains from head. -/
theorem ctxrestore_done {r : List LaunchImage × Nat} {ids : List (List Nat)} (hr : (s.deviceTook c addr.toNat bs.length).checkImage c bs = .ok r)
    (hids : (s.deviceTook c addr.toNat bs.length).readAllSuccs c r.1 = .ok ids) :
    ∃ t, exec (.ctxrestore c addr buf) s = .next t ∧ t.cmdstat = 0 ∧ ((t.context? c).map Context.eb) = some (BitVec.ofNat 64 (field bs 0x28 8)) ∧
      ∀ q ∈ t.queues, q.context.toNat = c → q.status = 1 ∧ q.evicted = false ∧ q.reading = some (false, q.head.toNat) := by
  obtain ⟨k, hexec⟩ := ctxrestore_restores (buf := buf) hrun hstage hctx hbs hr hids
  have htook : { (s.deviceTook c addr.toNat bs.length).tookSuccs c r.1 with nextKey := k }.contextIds = s.contextIds :=
    (State.tookSuccs_ids (s.deviceTook c addr.toNat bs.length) c r.1).trans (State.deviceTook_ids ..)
  have hkept : ((r.1.zip ids).foldl State.adopt { (s.deviceTook c addr.toNat bs.length).tookSuccs c r.1 with nextKey := k }).hasContext c = true := by
    rw [State.hasContext_congr ((State.adopts_ids ..).trans htook) c, hctx]
  generalize (r.1.zip ids).foldl State.adopt { (s.deviceTook c addr.toNat bs.length).tookSuccs c r.1 with nextKey := k } = u at hexec hkept
  obtain ⟨x, -, hx⟩ := State.context?_onContext (f := fun x => { x with eb := BitVec.ofNat 64 (field bs 0x28 8) }) (fun _ => rfl) hkept
  refine ⟨_, hexec, rfl, congrArg (Option.map Context.eb) hx, fun q hq hc => ?_⟩
  obtain ⟨y, -, rfl⟩ := List.mem_map.mp hq
  by_cases hy : (y.context.toNat == c) = true
  · rw [if_pos hy]
    exact ⟨rfl, rfl, rfl⟩
  · rw [if_neg hy] at hc
    exact absurd (beq_iff_eq.mpr hc) hy

end

end

/-- The report that ATTEST signs. -/
def State.report (s : State) (c nonce : Nat) : List Byte :=
  s.hostMem.readBytes nonce 32 ++ leBytes 4 (nth s.faccept 0 0).toNat ++ leBytes 4 s.fwsvn.toNat ++ leBytes 4 (s.measures c).length ++
    leBytes 2 c ++ leBytes 18 0 ++ s.fwdigest ++ (s.measures c).flatten

theorem State.toHost_done_hostMem (s : State) (buf : Nat) (bs : List Byte) :
    (s.toHost buf bs).commandDone.hostMem = s.hostMem.writeBytes buf bs := rfl

theorem State.toHost_done_cmdstat (s : State) (buf : Nat) (bs : List Byte) : (s.toHost buf bs).commandDone.cmdstat = 0 := rfl

theorem State.draw_hostMem (s : State) : s.draw.2.hostMem = s.hostMem := rfl

theorem signature_length (n : Nat) (bs : List Byte) : (signature n bs).length = 512 := by
  rw [signature, List.length_take, List.length_append, List.length_replicate]
  omega

section
variable {s : State} (hrun : s.running = none)
include hrun

/-- ATTEST and ATTEST_CERT may run at any stage (R403). -/
theorem State.command_anyStage (f : State → State) : s.command true f = .next (f s) := by
  have hidle : ¬s.running.isSome = true := by simp [hrun]
  exact if_neg hidle

theorem attest_short {c nonce buf size : Nat} (hc : c ≠ 0xFFFF) (hsize : size < 128 + 64 * (s.measures c).length + 512) :
    exec (.attest c nonce buf size) s = .next (s.commandRefused (s.measures c).length) := by
  change execAttest c nonce buf size s = _
  rw [execAttest, State.command_anyStage hrun]
  exact congrArg Host.Outcome.next ((if_neg hc).trans (if_pos hsize))

theorem attest_signs {c nonce buf size : Nat} (hc : c ≠ 0xFFFF) (hsize : 128 + 64 * (s.measures c).length + 512 ≤ size) :
    exec (.attest c nonce buf size) s =
      .next (s.draw.2.toHost buf (s.report c nonce ++ signature s.draw.1 (s.report c nonce))).commandDone := by
  change execAttest c nonce buf size s = _
  rw [execAttest, State.command_anyStage hrun]
  exact congrArg Host.Outcome.next ((if_neg hc).trans (if_neg (not_lt.mpr hsize)))

/-- The report: nonce, accepted word, firmware, measurements and the 512 bytes of the signature. -/
theorem attest_done {c nonce buf size : Nat} (hc : c ≠ 0xFFFF) (hsize : 128 + 64 * (s.measures c).length + 512 ≤ size) :
    ∃ t sig, exec (.attest c nonce buf size) s = .next t ∧ t.cmdstat = 0 ∧
      t.hostMem = s.hostMem.writeBytes buf (s.report c nonce ++ sig) ∧ sig.length = 512 := by
  refine ⟨_, signature s.draw.1 (s.report c nonce), attest_signs hrun hc hsize, State.toHost_done_cmdstat .., ?_, signature_length ..⟩
  rw [State.toHost_done_hostMem, State.draw_hostMem]

theorem attestCert_eq (buf size : Nat) : exec (.attestCert buf size) s = .next (s.attestCert buf size) := by
  change execAttestCert buf size s = _
  rw [execAttestCert, State.command_anyStage hrun]

end

/-- Settles O55: each command by its refusals, and by the state that its start or its one step leaves. -/
theorem longCommandsTakeEffect : Obligations.LongCommandsTakeEffect := by
  unfold Obligations.LongCommandsTakeEffect
  refine ⟨fun s c home va n hrun hstage hctx hhome hlen => ?_, fun s c home va frame l hrun hstage hl => ⟨fun hfault => ?_, fun hbad => ?_,
    fun hfaults hhome hlen hva hbits hfits => ?_⟩, fun s home band tier hrun hstage => ⟨fun hbad => ?_, fun hhome hband hlast htier hfree hlen => ?_⟩,
    fun s home tag map hrun hstage hhome => ⟨fun hnone => ?_, fun f hf hops hlog => ?_⟩, fun s c q addr handle buf place hrun hstage => ⟨fun hbad => ?_,
    fun hctx hq hqueue hhandle => ?_⟩, fun s c addr size buf hrun hstage => ⟨fun hctx => ?_, fun hctx hsave halign hsealed => ?_, fun bs r hctx hbs hr => ?_,
    fun bs r e hctx hbs hr he => ?_, fun bs r ids hctx hbs hr hids => ?_⟩, fun s c nonce buf size hrun => ⟨fun hsize hc => ?_, fun hsize hc => ?_, rfl,
    fun hsize => ?_, fun hsize => ?_⟩⟩
  · rw [xinval_starts hrun hstage hctx hhome]
    set u := s.onHome home fun h => { h with cache := h.cache.filter fun e => !e.meets c va n } with hu
    have hulen : unitOf home < u.homes.length := by rw [unitOf_die hhome, hu, State.onHome_homes_length]; exact hlen
    have hrecalled := State.recallLeases_recalled (hit := Lease.inRange c va n) (fun _ => rfl) hulen
    have hcache := State.recallLeases_cache (hit := Lease.inRange c va n) hulen
    rw [unitOf_die hhome] at hrecalled hcache
    refine ⟨_, rfl, rfl, rfl, rfl, fun e he hec => ?_, fun x hx hxc hmeets => hrecalled x hx ?_⟩
    · have hmem : e ∈ (u.home home).cache := hcache ▸ he
      rw [hu, State.home_onHome hlen] at hmem
      simpa [Cached.meets, hec] using (List.mem_filter.mp hmem).2
    · rw [Lease.inRange, hxc, hmeets, beq_self_eq_true]
      rfl
  · rw [migrate_leaf hrun hstage hl]
    split
    · rfl
    · refine congrArg Host.Outcome.next (if_pos ?_)
      obtain ⟨f, hf, hfc, hlo, hhi⟩ := hfault
      exact Bool.or_eq_true_iff.mpr (.inl (List.any_eq_true.mpr ⟨f, hf, by simp [migrationOf, hfc, hlo, hhi]⟩))
  · rw [migrate_leaf hrun hstage hl]
    refine congrArg Host.Outcome.next (if_pos ?_)
    simp only [Bool.or_eq_true, Bool.not_eq_true', bne_iff_ne, ← Bool.not_eq_true, isOwnHome_iff]
    omega
  · have hown : ¬(!isOwnHome home || homeOf va != home || va / 2 ^ 48 % 256 != 0) = true := by
      rw [(isOwnHome_iff home).mpr (.inl hhome), hva, hbits]
      simp
    have hgo : ¬(((s.home (unitOf home)).faults.any fun f => f.ctx == c && decide ((migrationOf c va frame l).va ≤ f.va ∧
        f.va < (migrationOf c va frame l).va + (migrationOf c va frame l).size)) || !s.frameFits home l frame) = true := by
      rw [hfaults, hfits]
      exact Bool.false_ne_true
    have hexec := (migrate_leaf (frame := frame) hrun hstage hl).trans (congrArg Host.Outcome.next ((if_neg hown).trans (if_neg hgo)))
    rw [unitOf_die hhome] at hexec
    rw [hexec]
    set u := s.rewriteEntries home l.entries none true with hu
    have hulen : home < u.homes.length := by rw [hu, State.rewriteEntries_homes_length]; exact hlen
    set v := u.recallLeases home (Lease.ofMigration (migrationOf c va frame l)) with hv
    have hvlen : home < v.homes.length := by rw [hv, State.recallLeases, State.onHome_homes_length]; exact hulen
    have hrecalled := State.recallLeases_recalled (s := u) (hit := Lease.ofMigration (migrationOf c va frame l)) (fun _ => rfl)
      (by rw [unitOf_die hhome]; exact hulen)
    rw [unitOf_die hhome] at hrecalled
    have hhomeOf : (v.onHome home fun h => { h with migrations := h.migrations ++ [migrationOf c va frame l] }).home home =
        { v.home home with migrations := (v.home home).migrations ++ [migrationOf c va frame l] } := State.home_onHome hvlen
    refine ⟨_, rfl, rfl, rfl, rfl, fun x hx hentry => ?_, ?_⟩
    · refine hrecalled x ?_ (by simpa [Lease.ofMigration, migrationOf] using hentry)
      exact (congrArg Home.leases hhomeOf) ▸ hx
    · refine (congrArg Home.migrations hhomeOf) ▸ List.mem_append_right _ ?_
      exact List.mem_singleton.mpr rfl
  · rw [reclass_eq hrun hstage]
    refine congrArg Host.Outcome.next (if_pos ?_)
    simp only [Bool.or_eq_true, decide_eq_true_iff, beq_iff_eq, or_assoc]
    exact hbad
  · have hgo : ¬(decide (home ≥ Config.dies) || band == 0 || decide (band ≥ Config.bandsPerDie) || decide (tier > 2) || s.bandTargeted home band) = true := by
      simp only [Bool.or_eq_true, decide_eq_true_iff, beq_iff_eq, hfree, Bool.false_eq_true, or_false, not_or, not_le, not_lt]
      exact ⟨⟨⟨hhome, hband.ne'⟩, hlast⟩, htier⟩
    rw [reclass_eq hrun hstage, if_neg hgo]
    refine ⟨_, rfl, rfl, rfl, ?_⟩
    have hhomeOf : (s.onHome home fun h => { h with closed := band :: h.closed }).home home = { s.home home with closed := band :: (s.home home).closed } :=
      State.home_onHome hlen
    exact (congrArg Home.closed hhomeOf) ▸ List.mem_cons_self
  · refine resolve_absent hrun hstage ?_
    rw [unitOf_die hhome]
    exact List.find?_eq_none.mpr fun f hf => by simpa using hnone f hf
  · rw [resolve_quiet hrun hstage hhome (by rw [unitOf_die hhome]; exact hf) hops hlog, unitOf_die hhome]
    refine ⟨_, rfl, rfl, fun hlen hmem => ?_, rfl⟩
    have hhomeOf : (s.onHome home fun h => { h with faults := h.faults.filter (· != f) }).home home =
        { s.home home with faults := (s.home home).faults.filter (· != f) } := State.home_onHome hlen
    have hkept := (congrArg Home.faults hhomeOf) ▸ hmem
    simpa using (List.mem_filter.mp hkept).2
  · have hrefuse : (!s.hasContext c || decide (q ≥ Config.queues) || (s.queue q).context.toNat != c ||
        !(handle == 0 || (s.object? c handle.toNat).isSome)) = true := by
      rcases hbad with h | h
      · rw [h]
        rfl
      · rw [show decide (q ≥ Config.queues) = true from decide_eq_true h]
        simp
    rw [load_eq hrun hstage]
    exact congrArg Host.Outcome.next (if_pos hrefuse)
  · intro bs r
    have haccept : ¬(!s.hasContext c || decide (q ≥ Config.queues) || (s.queue q).context.toNat != c ||
        !(handle == 0 || (s.object? c handle.toNat).isSome)) = true := by
      have hle : ¬q ≥ Config.queues := not_le.mpr hq
      simp [hctx, hle, hqueue, hhandle]
    have hzero : handle.toNat = 0 := by rw [hhandle]; rfl
    rw [load_eq hrun hstage, if_neg haccept, hzero]
    rfl
  · have hno : (!s.hasContext c) = true := by rw [hctx]; rfl
    refine ⟨?_, ?_⟩
    · rw [ctxsave_eq hrun hstage, hno]
      rfl
    · change execCtxrestore c addr buf s = _
      rw [execCtxrestore, State.command_runs hrun hstage]
      exact congrArg Host.Outcome.next (if_pos hno)
  · have hgo : ¬(!s.hasContext c || s.saveRefused c || addr.toNat % 64 != 0) = true := by simp [hctx, hsave, halign]
    have hrange : ¬(!s.sealedRW c addr.toNat size) = true := by simp [hsealed]
    refine ⟨_, (ctxsave_eq hrun hstage ..).trans (congrArg Host.Outcome.next ((if_neg hgo).trans (if_neg hrange))), rfl, rfl, fun x hx hc => ?_⟩
    exact State.saved_of_context hx hc
  · exact ctxrestore_unsound hrun hstage hctx hbs hr
  · exact ctxrestore_unread hrun hstage hctx hbs hr he
  · exact ctxrestore_done hrun hstage hctx hbs hr hids
  · exact attest_short hrun hc hsize
  · exact attest_done hrun hc hsize
  · exact (attestCert_eq hrun ..).trans (congrArg Host.Outcome.next (if_neg (not_lt.mpr hsize)))
  · exact (attestCert_eq hrun ..).trans (congrArg Host.Outcome.next (if_pos hsize))

end Sys2Proof.Machine
end

section
/-! A word that retires: of the ways in which an issue can end, only the word's own meaning counts it in `retired` (R112, R378); traps, demands, waits
and errors leave the count as it is. -/

namespace Sys2Proof.Machine

/-! ### The count of a wave that a state's other changes leave (R253, R258, R340, R347) -/

/-- The instructions that the wave of a key has retired. -/
def State.retiredOf (s : State) (k : Nat) : Option Nat := (s.wave? k).map fun w => w.a.retired

theorem State.wave?_map {s t : State} {f : Wave → Wave} (hwaves : t.waves = s.waves.map f) (hkey : ∀ x, (f x).key = x.key) (k : Nat) :
    t.wave? k = (s.wave? k).map f := by
  have hcomp : (fun w : Wave => w.key == k) ∘ f = fun w => w.key == k := funext fun x => by rw [Function.comp_apply, hkey]
  rw [State.wave?, hwaves, List.find?_map, hcomp]
  rfl

/-- A change of the waves that keeps their keys and their counts keeps the count of each key. -/
theorem State.retiredOf_map {s t : State} {f : Wave → Wave} (hwaves : t.waves = s.waves.map f) (hkey : ∀ x, (f x).key = x.key)
    (hretired : ∀ x, (f x).a.retired = x.a.retired) (k : Nat) : t.retiredOf k = s.retiredOf k := by
  rw [State.retiredOf, State.wave?_map hwaves hkey, Option.map_map]
  exact congrArg (fun g => (s.wave? k).map g) (funext hretired)

theorem State.retiredOf_waves {s t : State} (h : t.waves = s.waves) (k : Nat) : t.retiredOf k = s.retiredOf k := by
  rw [State.retiredOf, State.wave?, h]
  rfl

theorem State.retiredOf_putWave {s : State} {w : Wave} (h : (s.wave? w.key).isSome = true) : (s.putWave w).retiredOf w.key = some w.a.retired := by
  rw [State.retiredOf, State.wave?_putWave h]
  rfl

theorem State.retiredOf_contextFault (s : State) (ctx : Nat) (f : LogFields) (k : Nat) : (s.contextFault ctx f).retiredOf k = s.retiredOf k := by
  obtain ⟨dead, hwaves⟩ := s.contextFault_waves ctx f
  refine State.retiredOf_map hwaves (fun x => ?_) (fun x => ?_) k
  · split <;> rfl
  · split <;> rfl

theorem State.retiredOf_onWave {s : State} {f : Wave → Wave} (hkey : ∀ x, (f x).key = x.key) (hretired : ∀ x, (f x).a.retired = x.a.retired)
    (j k : Nat) : (s.onWave j f).retiredOf k = s.retiredOf k := by
  refine State.retiredOf_map (f := fun x => if x.key == j then f x else x) rfl (fun x => ?_) (fun x => ?_) k
  · split
    · exact hkey x
    · rfl
  · split
    · exact hretired x
    · rfl

/-- A charge of the wave's budget, and an entry of the log, count nothing as retired. -/
theorem State.chargeWave_retired (t : State) (j c n k : Nat) : (t.chargeWave j c n).retiredOf k = t.retiredOf k := by
  unfold State.chargeWave
  dsimp only
  split
  · rw [State.retiredOf_waves (State.logIntegrity_waves _ _)]
    refine State.retiredOf_map (s := t) (f := fun x => if x.key == j then { x with waveTrap := some ((t.charge c n).1.ebOf c).toNat } else x) rfl
      (fun x => ?_) (fun x => ?_) _
    · split <;> rfl
    · split <;> rfl
  · exact State.retiredOf_waves rfl _

section
variable {s : State} {w : Wave} (hw : (s.wave? w.key).isSome = true)
include hw

/-- A trap counts nothing as retired. -/
theorem State.takeTrap_retired (p : Split) (cause pc addr : Nat) (mask : Mask) :
    (s.takeTrap w p cause pc addr mask).retiredOf w.key = some w.a.retired := by
  have hfault (f : LogFields) (c : Nat) : ((s.putWave (w.fillTrap cause pc addr mask)).contextFault c f).retiredOf w.key = some w.a.retired := by
    rw [State.retiredOf_contextFault]
    exact State.retiredOf_putWave (w := w.fillTrap cause pc addr mask) hw
  unfold State.takeTrap
  dsimp only
  split
  · exact hfault _ _
  · split
    · exact hfault _ _
    · next h obj _ => exact State.retiredOf_putWave (w := (w.fillTrap cause pc addr mask).enterHandler p s.clock h obj false) hw

omit hw in
theorem State.logDemand_waves (v : Wave) (d : Demand) (event region : Nat) : (s.logDemand v d event region).waves = s.waves := by
  unfold State.logDemand State.logIntegrityAt
  split <;> rfl

/-- Nor does an event that asks for the wave's rollback. -/
theorem State.demandRollback_retired (d : Demand) : (s.demandRollback w d).retiredOf w.key = some w.a.retired := by
  have hput : (s.putWave (w.fillDemand d)).retiredOf w.key = some w.a.retired := State.retiredOf_putWave (w := w.fillDemand d) hw
  unfold State.demandRollback
  dsimp only
  split
  · rw [State.retiredOf_contextFault, State.retiredOf_waves (State.logDemand_waves ..)]
    exact hput
  · exact (State.retiredOf_onWave (f := fun x => { x with demand := some (Demand.joined x.demand d) }) (fun _ => rfl) (fun _ => rfl) _ _).trans hput

/-- Nor do the errors that a word's reads find. -/
theorem State.readErrors_retired {p : Split} {i : Instr} {r : State × Bool} (h : s.readErrors w p i = some r) :
    r.1.retiredOf w.key = s.retiredOf w.key ∨ r.1.retiredOf w.key = some w.a.retired := by
  unfold State.readErrors at h
  split at h
  · cases h
  · dsimp only at h
    split at h
    · obtain rfl := Option.some.inj h
      exact .inl (State.chargeWave_retired ..)
    · split at h
      · obtain rfl := Option.some.inj h
        exact .inr (State.demandRollback_retired hw _)
      · obtain rfl := Option.some.inj h
        exact .inl (State.retiredOf_waves rfl _)

end

/-! ### What a word that retires has done (R126) -/

/-- Does a result leave one more instruction retired by the wave? -/
def Wave.countsIn (w : Wave) (t : State) (r : Result) : Prop := r = .next t ∧ t.retiredOf w.key = some (w.a.retired + 1)

theorem Wave.not_countsIn {w : Wave} {t u : State} {n : Nat} (h : u.retiredOf w.key = some n) (hn : n ≠ w.a.retired + 1) : ¬w.countsIn t (.next u) := by
  rintro ⟨hnext, hcount⟩
  obtain rfl : u = t := by injection hnext
  exact hn (Option.some.inj (h.symm.trans hcount))

/-- A trap of the wave, whatever its other fields, is no retiring. -/
theorem Wave.not_countsIn_trap {s t : State} {w v : Wave} (hkey : v.key = w.key) (hretired : v.a.retired = w.a.retired)
    (hw : (s.wave? w.key).isSome = true) (p : Split) (cause addr : Nat) (mask : Mask) : ¬w.countsIn t (s.trapAt v p cause addr mask) := by
  refine Wave.not_countsIn (n := v.a.retired) ?_ (by omega)
  rw [← hkey]
  exact State.takeTrap_retired (hkey ▸ hw) ..

/-- Nor is a mismatch. -/
theorem Wave.not_countsIn_mismatch {s t : State} {w v : Wave} (hkey : v.key = w.key) (hretired : v.a.retired = w.a.retired)
    (hw : (s.wave? w.key).isSome = true) (p : Split) (bad : Mask) (scalar : Bool) : ¬w.countsIn t (s.mismatch v p bad scalar) := by
  refine Wave.not_countsIn (n := v.a.retired) ?_ (by omega)
  rw [← hkey]
  exact State.demandRollback_retired (hkey ▸ hw) _

section
variable {s t : State} {w : Wave} (hhead : s.waves.head? = some w)
include hhead

theorem State.wave?_of_head : s.wave? w.key = some w := by
  obtain ⟨ws, hws⟩ := List.head?_eq_some_iff.mp hhead
  simp [State.wave?, hws]

/-- Nor is a wait, or a word that leaves the wave where it is. -/
theorem Wave.not_countsIn_wait : ¬w.countsIn t (.next s) := by
  refine Wave.not_countsIn (n := w.a.retired) ?_ (by omega)
  rw [State.retiredOf, State.wave?_of_head hhead]
  rfl

/-- A word that retires passes its checks, and runs its own meaning. -/
theorem issueWord_counts {i : Instr} {body : State → Wave → Split → Result} (h : w.countsIn t (issueWord i s body)) :
    ∃ p, s.fronts w p ∧ w.legalHere i = true ∧ w.countsIn t (body s w (p.stamp i s.slots)) := by
  have hfound : (s.wave? w.key).isSome = true := by rw [State.wave?_of_head hhead]; rfl
  have hself : s.retiredOf w.key = some w.a.retired := by rw [State.retiredOf, State.wave?_of_head hhead]; rfl
  cases hsplits : w.a.splits with
  | nil =>
    obtain ⟨ws, hws⟩ := List.head?_eq_some_iff.mp hhead
    have hfault : issueWord i s body = .fault .noIssuer := by simp only [issueWord, hws, hsplits]
    rw [hfault] at h
    exact absurd h.1 nofun
  | cons p ps =>
    have hf : s.fronts w p := ⟨hhead, by rw [hsplits]; rfl⟩
    rw [issueWord_eq hf] at h
    split at h
    · exact (Wave.not_countsIn_trap rfl rfl hfound _ _ _ _ h).elim
    next hlegal =>
    split at h
    · exact (Wave.not_countsIn_trap rfl rfl hfound _ _ _ _ h).elim
    split at h
    · exact (Wave.not_countsIn_trap rfl rfl hfound _ _ _ _ h).elim
    split at h
    · next x _ =>
      refine (Wave.not_countsIn_trap ?_ ?_ hfound _ _ _ _ h).elim
      · split <;> rfl
      · split <;> rfl
    split at h
    · split at h
      · exact (Wave.not_countsIn_trap rfl rfl hfound _ _ _ _ h).elim
      · exact absurd h (Wave.not_countsIn_wait hhead)
    split at h
    · exact absurd h (Wave.not_countsIn_wait hhead)
    split at h
    · next u _ hread =>
      refine absurd h (Wave.not_countsIn (n := w.a.retired) ?_ (by omega))
      rcases State.readErrors_retired hfound hread with hsame | hsame
      · exact hsame.trans hself
      · exact hsame
    · refine ⟨p, hf, ?_, h⟩
      rw [Bool.not_eq_true', Bool.not_eq_false, Bool.and_eq_true] at hlegal
      exact hlegal.2

end

/-! ### Putting the wave back -/

/-- Only the wave of a key differs, and no memory. -/
def State.onlyWave (s t : State) (k : Nat) : Prop := (∀ j, j ≠ k → t.wave? j = s.wave? j) ∧ s.sameMemory t

theorem State.onlyWave_putWave {s u : State} {v : Wave} (hwaves : u.waves = s.waves) (hmem : s.sameMemory u) : s.onlyWave (u.putWave v) v.key := by
  refine ⟨fun j hj => ?_, hmem⟩
  rw [State.wave?_putWave_other hj, State.wave?, hwaves]
  rfl

/-! ### The control words (R143-R151, R260) -/

/-- A wave's control state without what the control words change. -/
def Arch.uncontrolled (a : Arch) : Arch := { a with splits := [], entries := [], retired := 0, turn := 0 }

/-- A wave without what the control words and `preoff` and `preon` change. -/
def Wave.uncontrolled (w : Wave) : Wave := { w with a := w.a.uncontrolled, preoff := none }

theorem Arch.uncontrolled_closeOne (a : Arch) (e : Entry) : (a.closeOne e).uncontrolled = a.uncontrolled := by
  cases e with
  | region g join pend arr =>
    simp only [Arch.closeOne]
    split <;> rfl
  | frame => rfl

theorem Arch.uncontrolled_closeRegions (a : Arch) : a.closeRegions.uncontrolled = a.uncontrolled :=
  foldl_keeps (g := Arch.uncontrolled) Arch.uncontrolled_closeOne a.entries a

/-- A result that goes on with the wave put back, where only its control state differs. -/
def State.controls (s : State) (w : Wave) (t : State) : Prop :=
  ∃ u v, t = State.putWave u v ∧ u.waves = s.waves ∧ s.sameMemory u ∧ v.uncontrolled = w.uncontrolled

theorem State.sameMemory_refl (s : State) : s.sameMemory s := ⟨rfl, rfl, rfl, rfl, rfl, rfl⟩

/-- The words that only move splits, or open or close a section. -/
def movesSplits (i : Instr) : Prop :=
  (∃ o, i = .bra o ∨ i = .split o ∨ i = .call o) ∨ (∃ p o, i = .brp p o ∨ i = .brn p o ∨ i = .brk p o) ∨ (∃ a b, i = .brx a b) ∨
    i = .join ∨ i = .ret ∨ i = .land ∨ i = .nop ∨ i = .preon ∨ ∃ n, i = .preoff n

section
variable {s t : State} {w : Wave} (hhead : s.waves.head? = some w)
include hhead

/-- The wave and the state that such a word puts together. -/
theorem State.controls_of_put {u : State} {v : Wave} (h : w.countsIn t (.next (u.putWave v))) (hwaves : u.waves = s.waves)
    (hmem : s.sameMemory u) (hv : v.uncontrolled = w.uncontrolled) : s.controls w t := by
  obtain ⟨hnext, -⟩ := h
  obtain rfl : u.putWave v = t := by injection hnext
  exact ⟨u, v, rfl, hwaves, hmem, hv⟩

theorem branchOn_controls {i : Instr} {pr : BitVec 4} {o : BitVec 20} {want : Bool} (h : w.countsIn t (branchOn i pr o want s)) : s.controls w t := by
  have hfound : (s.wave? w.key).isSome = true := by rw [State.wave?_of_head hhead]; rfl
  obtain ⟨p, -, -, h⟩ := issueWord_counts hhead h
  dsimp only at h
  generalize (if want = true then (p.stamp i s.slots).lanes &&& w.pred pr.toNat else (p.stamp i s.slots).lanes.diff (w.pred pr.toNat)) = m at h
  split at h
  · exact (Wave.not_countsIn_mismatch rfl rfl hfound _ _ _ h).elim
  split at h
  · exact State.controls_of_put hhead h rfl s.sameMemory_refl rfl
  split at h
  · exact State.controls_of_put hhead h rfl s.sameMemory_refl rfl
  · exact State.controls_of_put hhead h rfl s.sameMemory_refl rfl

theorem brx_controls {a b : Byte} (h : w.countsIn t (execBrx a b s)) : s.controls w t := by
  have hfound : (s.wave? w.key).isSome = true := by rw [State.wave?_of_head hhead]; rfl
  obtain ⟨p, -, -, h⟩ := issueWord_counts hhead h
  dsimp only at h
  split at h
  · exact (Wave.not_countsIn_mismatch rfl rfl hfound _ _ _ h).elim
  split at h
  · exact (Wave.not_countsIn_trap rfl rfl hfound _ _ _ _ h).elim
  · exact State.controls_of_put hhead h rfl s.sameMemory_refl rfl

theorem split_controls {o : BitVec 20} (h : w.countsIn t (execSplit o s)) : s.controls w t := by
  have hfound : (s.wave? w.key).isSome = true := by rw [State.wave?_of_head hhead]; rfl
  obtain ⟨p, -, -, h⟩ := issueWord_counts hhead h
  dsimp only at h
  split at h
  · exact (Wave.not_countsIn_trap rfl rfl hfound _ _ _ _ h).elim
  · exact State.controls_of_put (u := s.newKey.2) hhead h rfl s.sameMemory_refl rfl

theorem call_controls {o : BitVec 20} (h : w.countsIn t (execCall o s)) : s.controls w t := by
  have hfound : (s.wave? w.key).isSome = true := by rw [State.wave?_of_head hhead]; rfl
  obtain ⟨p, -, -, h⟩ := issueWord_counts hhead h
  dsimp only at h
  split at h
  · exact (Wave.not_countsIn_trap rfl rfl hfound _ _ _ _ h).elim
  · exact State.controls_of_put (u := s.newKey.2) hhead h rfl s.sameMemory_refl rfl

theorem join_controls (h : w.countsIn t (execJoin s)) : s.controls w t := by
  obtain ⟨p, -, -, h⟩ := issueWord_counts hhead h
  dsimp only at h
  split at h
  · exact State.controls_of_put hhead h rfl s.sameMemory_refl rfl
  · refine State.controls_of_put hhead h rfl s.sameMemory_refl ?_
    refine congrArg (fun a => { w with a := a, preoff := none }) ((Arch.uncontrolled_closeRegions _).trans ?_)
    rfl

theorem brk_controls {n : BitVec 4} {o : BitVec 20} (h : w.countsIn t (execBrk n o s)) : s.controls w t := by
  have hfound : (s.wave? w.key).isSome = true := by rw [State.wave?_of_head hhead]; rfl
  obtain ⟨p, -, -, h⟩ := issueWord_counts hhead h
  dsimp only at h
  split at h
  · exact (Wave.not_countsIn_trap rfl rfl hfound _ _ _ _ h).elim
  · refine State.controls_of_put hhead h rfl s.sameMemory_refl ?_
    refine congrArg (fun a => { w with a := a, preoff := none }) ((Arch.uncontrolled_closeRegions _).trans ?_)
    rfl

theorem ret_controls (h : w.countsIn t (execRet s)) : s.controls w t := by
  have hfound : (s.wave? w.key).isSome = true := by rw [State.wave?_of_head hhead]; rfl
  obtain ⟨p, -, -, h⟩ := issueWord_counts hhead h
  dsimp only at h
  split at h
  · exact (Wave.not_countsIn_trap rfl rfl hfound _ _ _ _ h).elim
  split at h
  · exact (Wave.not_countsIn_trap rfl rfl hfound _ _ _ _ h).elim
  · exact State.controls_of_put hhead h rfl s.sameMemory_refl rfl

/-! The words without branches put the wave back. -/

theorem bra_controls {o : BitVec 20} (h : w.countsIn t (execBra o s)) : s.controls w t := by
  obtain ⟨p, -, -, h⟩ := issueWord_counts hhead h
  exact State.controls_of_put hhead h rfl s.sameMemory_refl rfl

theorem land_controls (h : w.countsIn t (execLand s)) : s.controls w t := by
  obtain ⟨p, -, -, h⟩ := issueWord_counts hhead h
  exact State.controls_of_put hhead h rfl s.sameMemory_refl rfl

theorem nop_controls (h : w.countsIn t (execNop s)) : s.controls w t := by
  obtain ⟨p, -, -, h⟩ := issueWord_counts hhead h
  exact State.controls_of_put hhead h rfl s.sameMemory_refl rfl

theorem preon_controls (h : w.countsIn t (execPreon s)) : s.controls w t := by
  obtain ⟨p, -, -, h⟩ := issueWord_counts hhead h
  exact State.controls_of_put hhead h rfl s.sameMemory_refl rfl

theorem preoff_controls {n : BitVec 24} (h : w.countsIn t (execPreoff n s)) : s.controls w t := by
  obtain ⟨p, -, -, h⟩ := issueWord_counts hhead h
  exact State.controls_of_put hhead h rfl s.sameMemory_refl rfl

theorem exec_controls {i : Instr} (hi : movesSplits i) (h : w.countsIn t (exec i s)) : s.controls w t := by
  rcases hi with ⟨o, rfl | rfl | rfl⟩ | ⟨p, o, rfl | rfl | rfl⟩ | ⟨a, b, rfl⟩ | rfl | rfl | rfl | rfl | rfl | ⟨n, rfl⟩
  · exact bra_controls hhead h
  · exact split_controls hhead h
  · exact call_controls hhead h
  · exact branchOn_controls hhead h
  · exact branchOn_controls hhead h
  · exact brk_controls hhead h
  · exact brx_controls hhead h
  · exact join_controls hhead h
  · exact ret_controls hhead h
  · exact land_controls hhead h
  · exact nop_controls hhead h
  · exact preon_controls hhead h
  · exact preoff_controls hhead h

end

/-- What is outside the control state is then as it was. -/
theorem Wave.uncontrolled_frame {w v : Wave} (h : v.uncontrolled = w.uncontrolled) :
    w.sameRegisters v ∧ v.a.mxbase = w.a.mxbase ∧ v.a.mxplane = w.a.mxplane ∧ v.a.live = w.a.live ∧ v.a.lanes = w.a.lanes ∧
      v.trapcause = w.trapcause ∧ v.trappc = w.trappc ∧ v.trapaddr = w.trapaddr ∧ v.trapmask = w.trapmask ∧ v.checkpoint = w.checkpoint := by
  have keeps {α : Type} (f : Wave → α) : f v.uncontrolled = f w.uncontrolled := congrArg f h
  exact ⟨⟨keeps fun x => x.a.sregs, keeps fun x => x.a.sshadow, keeps Wave.hregs, keeps Wave.hshadow, keeps fun x => x.a.preds,
    keeps fun x => x.a.vregs, keeps fun x => x.a.tiles, keeps fun x => x.a.twins, keeps fun x => x.a.mr, keeps fun x => x.a.mx,
    keeps fun x => x.a.ns, keeps fun x => x.a.seedlo, keeps fun x => x.a.seedhi, keeps fun x => x.a.sp, keeps fun x => x.a.spill⟩,
    keeps fun x => x.a.mxbase, keeps fun x => x.a.mxplane, keeps fun x => x.a.live, keeps fun x => x.a.lanes, keeps Wave.trapcause,
    keeps Wave.trappc, keeps Wave.trapaddr, keeps Wave.trapmask, keeps Wave.checkpoint⟩

/-- Settles O47: a control word that retires has put its wave back with another control state, and the rest of the state is as it was. -/
theorem controlFrame : Obligations.ControlFrame := by
  unfold Obligations.ControlFrame
  intro i s t w v hi hhead hexec hv hretired
  have hcounts : w.countsIn t (exec i s) := ⟨hexec, by rw [State.retiredOf, hv]; exact congrArg some hretired⟩
  obtain ⟨u, x, rfl, hwaves, hmem, hx⟩ := exec_controls hhead hi hcounts
  have hkey : x.key = w.key := show x.uncontrolled.key = w.uncontrolled.key from congrArg Wave.key hx
  have hfound : (u.wave? x.key).isSome = true := by
    rw [hkey, State.wave?, hwaves]
    exact congrArg Option.isSome (State.wave?_of_head hhead)
  obtain rfl : x = v := Option.some.inj ((State.wave?_putWave hfound).symm.trans (hkey ▸ hv))
  obtain ⟨hother, hsame⟩ := State.onlyWave_putWave (v := x) hwaves hmem
  obtain ⟨hregs, hbase, hplane, hlive, hlanes, hcause, hpc, haddr, hmask, hcheck⟩ := Wave.uncontrolled_frame hx
  exact ⟨hregs, hbase, hplane, hlive, hlanes, hcause, hpc, haddr, hmask, hcheck, hkey ▸ hother, hsame⟩

end Sys2Proof.Machine
end

section
/-! What the words of classes 00, 01 and 10 leave of a wave (R122-R125): the registers that are no destination, and all that is neither a register nor
the control state of the word's own split. -/

namespace Sys2Proof.Machine

/-! ### Registers beside the one written -/

theorem nth_setAt_ne {α : Type} {l : List α} {j k : Nat} {x d : α} (h : j ≠ k) : nth (setAt l j x) k d = nth l k d := by
  rw [nth, setAt, List.getElem?_set_ne h]
  rfl

theorem nth_modifyAt_ne {α : Type} {l : List α} {j k : Nat} {f : α → α} {d : α} (h : j ≠ k) : nth (modifyAt l j f) k d = nth l k d := by
  simp [nth, modifyAt, List.getElem?_modify, h]

theorem Wave.sidx_inj {w : Wave} {m n : Nat} (h : w.sidx m = w.sidx n) (hm : m < 256) (hn : n < 256) : m = n := by
  unfold Wave.sidx at h
  split at h <;> split at h <;> simp_all <;> omega

theorem Wave.putS_system (w : Wave) (k : Nat) (x xs : Word64) : (w.putS k x xs).system = w.system ∧ (w.putS k x xs).paired = w.paired := by
  unfold Wave.putS
  split
  · exact ⟨rfl, rfl⟩
  · split <;> exact ⟨rfl, rfl⟩

/-- A scalar at another index reads as before a write. -/
theorem Wave.sAt_putS_ne {w : Wave} {j k : Nat} (h : j ≠ k) (x xs : Word64) : (w.putS j x xs).sAt k = w.sAt k := by
  unfold Wave.putS Wave.sAt
  by_cases hj : j = 0
  · rw [if_pos hj]
  by_cases hk : k = 0
  · rw [if_pos hk, if_pos hk]
  rw [if_neg hj, if_neg hk, if_neg hk]
  by_cases hj' : j < 256
  · rw [if_pos hj', nth_setAt_ne h]
  · rw [if_neg hj']
    by_cases hk' : k < 256
    · rw [if_pos hk', if_pos hk']
    · rw [if_neg hk', if_neg hk', nth_setAt_ne (by omega)]

theorem Wave.shAt_putS_ne {w : Wave} {j k : Nat} (h : j ≠ k) (x xs : Word64) : (w.putS j x xs).shAt k = w.shAt k := by
  rw [Wave.shAt, Wave.shAt, (w.putS_system j x xs).2, Wave.sAt_putS_ne h]
  congr 1
  unfold Wave.putS
  by_cases hj : j = 0
  · rw [if_pos hj]
  by_cases hk : k = 0
  · rw [if_pos hk, if_pos hk]
  rw [if_neg hj, if_neg hk, if_neg hk]
  by_cases hj' : j < 256
  · rw [if_pos hj', nth_setAt_ne h]
  · rw [if_neg hj']
    by_cases hk' : k < 256
    · rw [if_pos hk', if_pos hk']
    · rw [if_neg hk', if_neg hk', nth_setAt_ne (by omega)]

/-- Another scalar reads as before a write, in both copies. -/
theorem Wave.S_setS_ne {w : Wave} {m n : Nat} (h : m ≠ n) (hm : m < 256) (hn : n < 256) (x xs : Word64) :
    (w.setS m x xs).S n = w.S n ∧ (w.setS m x xs).Sh n = w.Sh n := by
  have hidx : (w.setS m x xs).sidx n = w.sidx n := by rw [Wave.sidx, Wave.setS, (w.putS_system _ x xs).1]; rfl
  have hne : w.sidx m ≠ w.sidx n := fun heq => h (Wave.sidx_inj heq hm hn)
  rw [Wave.S, Wave.Sh, hidx]
  exact ⟨Wave.sAt_putS_ne hne x xs, Wave.shAt_putS_ne hne x xs⟩

/-! ### What a word keeps -/

/-- A lane's coordinates and item: all but its counter of roundings. -/
def Lane.place (l : Lane) : Lane := { l with c := 0 }

/-- A wave without its registers, its splits, its flags and its work under way: what no word of the three classes changes. -/
def Wave.beside (w : Wave) : Wave :=
  { w with
    a := { w.a with
      splits := [], vregs := [], preds := [], sregs := [], sshadow := [], ns := 0, retired := 0, turn := 0, lanes := w.a.lanes.map Lane.place, spill := [] }
    sempty := 0, hregs := [], hshadow := [], ops := [], port := [], seq := 0, issued := [], latch := none, latchS := none }

/-- What word `i` keeps of a wave: registers that are no destination, flags that are set, the spill stacks unless it is `vsts`, and the rest. -/
structure Wave.Keeps (i : Instr) (w v : Wave) : Prop where
  scalars : ∀ n, n < 256 → (∀ x ∈ sCode (BitVec.ofNat 8 n), x ∉ dests i) → v.S n = w.S n ∧ v.Sh n = w.Sh n
  vregs : ∀ n, n < 192 → n ∉ dests i → nth v.a.vregs n (VReg.zero w.W) = nth w.a.vregs n (VReg.zero w.W)
  preds : ∀ n, n < 16 → 0x200 + n ∉ dests i → nth v.a.preds n 0 = nth w.a.preds n 0
  flagged : w.a.ns &&& v.a.ns = w.a.ns
  spill : (∀ d a, i ≠ .vsts d a) → v.a.spill = w.a.spill
  beside : v.beside = w.beside

namespace Wave.Keeps

theorem refl (i : Instr) (w : Wave) : Wave.Keeps i w w :=
  ⟨fun _ _ _ => ⟨rfl, rfl⟩, fun _ _ _ => rfl, fun _ _ _ => rfl, BitVec.and_self, fun _ => rfl, rfl⟩

section
variable {i : Instr} {w v : Wave} (h : Wave.Keeps i w v)
include h

theorem key : v.key = w.key := show v.beside.key = w.beside.key from congrArg Wave.key h.beside

/-- A change of the rest alone keeps what the word keeps. -/
theorem trans_same {u : Wave} (hS : ∀ n, u.S n = v.S n ∧ u.Sh n = v.Sh n) (hv : u.a.vregs = v.a.vregs) (hp : u.a.preds = v.a.preds)
    (hns : u.a.ns = v.a.ns) (hspill : u.a.spill = v.a.spill) (hbeside : u.beside = v.beside) : Wave.Keeps i w u :=
  ⟨fun n hn hd => ⟨(hS n).1.trans (h.scalars n hn hd).1, (hS n).2.trans (h.scalars n hn hd).2⟩, by rw [hv]; exact h.vregs, by rw [hp]; exact h.preds,
    by rw [hns]; exact h.flagged, by rw [hspill]; exact h.spill, hbeside.trans h.beside⟩

theorem advance (p : Split) : Wave.Keeps i w (v.advance p) := h.trans_same (fun _ => ⟨rfl, rfl⟩) rfl rfl rfl rfl rfl
theorem setSplit (p : Split) : Wave.Keeps i w (v.setSplit p) := h.trans_same (fun _ => ⟨rfl, rfl⟩) rfl rfl rfl rfl rfl
theorem pushPort (p : Split) (job : PortJob) : Wave.Keeps i w (v.pushPort p job) := h.trans_same (fun _ => ⟨rfl, rfl⟩) rfl rfl rfl rfl rfl
theorem counted : Wave.Keeps i w v.counted := h.trans_same (fun _ => ⟨rfl, rfl⟩) rfl rfl rfl rfl rfl
theorem withoutOp (k : Nat) : Wave.Keeps i w (v.withoutOp k) := h.trans_same (fun _ => ⟨rfl, rfl⟩) rfl rfl rfl rfl rfl
theorem addOp (s : State) (p : Split) (ctr : Option Nat) (kind : OpKind) (mask : Mask) (pieces : List Piece) (mat : Option MatJob) (tier : Nat) :
    Wave.Keeps i w (s.addOp v p ctr kind mask pieces mat tier).2.1 := h.trans_same (fun _ => ⟨rfl, rfl⟩) rfl rfl rfl rfl rfl
theorem latch (x y : Option Latch) : Wave.Keeps i w { v with latch := x, latchS := y } := h.trans_same (fun _ => ⟨rfl, rfl⟩) rfl rfl rfl rfl rfl

theorem markS (k : Nat) (empty : Bool) : Wave.Keeps i w (v.markS k empty) := by
  unfold Wave.markS
  split
  · exact h
  · exact h.trans_same (fun _ => ⟨rfl, rfl⟩) rfl rfl rfl rfl rfl

theorem flags (f : BitVec 7) : Wave.Keeps i w (v.flags f) := by
  refine ⟨h.scalars, h.vregs, h.preds, ?_, h.spill, h.beside⟩
  have hle := h.flagged
  change w.a.ns &&& (v.a.ns ||| f) = w.a.ns
  generalize v.a.ns = y at hle ⊢
  generalize w.a.ns = x at hle ⊢
  ext j hj
  have hbit := congrArg (fun z : BitVec 7 => z[j]) hle
  simp only [BitVec.getElem_and, BitVec.getElem_or] at hbit ⊢
  cases hx : x[j]
  · rfl
  · rw [hx, Bool.true_and] at hbit
    rw [hbit]
    rfl

theorem setS {d : Byte} (hd : ∀ x ∈ sCode d, x ∈ dests i) (x xs : Word64) : Wave.Keeps i w (v.setS d.toNat x xs) := by
  have hrest : (v.setS d.toNat x xs).beside = v.beside ∧ (v.setS d.toNat x xs).a.vregs = v.a.vregs ∧ (v.setS d.toNat x xs).a.preds = v.a.preds ∧
      (v.setS d.toNat x xs).a.ns = v.a.ns ∧ (v.setS d.toNat x xs).a.spill = v.a.spill := by
    unfold Wave.setS Wave.putS
    split
    · exact ⟨rfl, rfl, rfl, rfl, rfl⟩
    · split <;> exact ⟨rfl, rfl, rfl, rfl, rfl⟩
  obtain ⟨hbeside, hv, hp, hns, hspill⟩ := hrest
  refine ⟨fun n hn hout => ?_, by rw [hv]; exact h.vregs, by rw [hp]; exact h.preds, by rw [hns]; exact h.flagged, by rw [hspill]; exact h.spill,
    hbeside.trans h.beside⟩
  by_cases hne : d.toNat = n
  · have hzero : d = 0 := by
      by_contra hzero
      have hcode : BitVec.ofNat 8 n = d := by rw [← hne, BitVec.ofNat_toNat, BitVec.setWidth_eq]
      rw [hcode, sCode, if_neg hzero] at hout
      rw [sCode, if_neg hzero] at hd
      exact hout _ (List.mem_singleton.mpr rfl) (hd _ (List.mem_singleton.mpr rfl))
    have hsame : v.setS d.toNat x xs = v := by
      rw [hzero, Wave.setS, Wave.putS, if_pos]
      simp [Wave.sidx]
    rw [hsame]
    exact h.scalars n hn hout
  · obtain ⟨hS, hSh⟩ := Wave.S_setS_ne (w := v) hne d.isLt hn x xs
    exact ⟨hS.trans (h.scalars n hn hout).1, hSh.trans (h.scalars n hn hout).2⟩

theorem setPred {d : Byte} (hd : ∀ x ∈ pCode d, x ∈ dests i) (on value : Mask) : Wave.Keeps i w (v.setPred d.toNat on value) := by
  unfold Wave.setPred
  split
  · exact h
  · next hne =>
    refine ⟨h.scalars, h.vregs, fun n hn hout => ?_, h.flagged, h.spill, h.beside⟩
    have hother : d.toNat ≠ n := by
      rintro rfl
      refine hout (hd _ ?_)
      rw [pCode, if_neg (fun hz => hne (by rw [hz]; rfl))]
      exact List.mem_singleton.mpr rfl
    exact (nth_setAt_ne hother).trans (h.preds n hn hout)

theorem onV {d : Nat} (hd : d ∈ dests i) (f : VReg → VReg) : Wave.Keeps i w (v.onV d f) := by
  refine ⟨h.scalars, fun n hn hout => ?_, h.preds, h.flagged, h.spill, h.beside⟩
  exact (nth_modifyAt_ne (fun heq : d = n => hout (heq ▸ hd))).trans (h.vregs n hn hout)

theorem writeV {d : Nat} (hd : d ∈ dests i) (on : Mask) (value : Nat → Word32) (t : Tag) : Wave.Keeps i w (v.writeV d on value t) := h.onV hd _

theorem markV {d : Nat} (hd : d ∈ dests i) (empty : Bool) : Wave.Keeps i w (v.markV d empty) := h.onV hd _

theorem bumpIfSRF (mr : Word64) (on : Mask) : Wave.Keeps i w (v.bumpIfSRF mr on) := by
  unfold Wave.bumpIfSRF
  split
  · have hlanes : (v.bumpC on).a.lanes.map Lane.place = v.a.lanes.map Lane.place := by
      simp only [Wave.bumpC, List.map_map]
      apply List.ext_getElem
      · simp
      · intro j hj hj'
        simp only [List.getElem_map, List.getElem_zipIdx, Function.comp_apply]
        split <;> rfl
    refine h.trans_same (fun _ => ⟨rfl, rfl⟩) rfl rfl rfl rfl ?_
    exact congrArg (fun l => { v.beside with a := { v.beside.a with lanes := l } }) hlanes
  · exact h

end

end Wave.Keeps

/-! ### The state beside the wave -/

/-- A state in which the waves, the memories, the crews and the launches are those of another. -/
def State.quietly (s u : State) : Prop := u.waves = s.waves ∧ s.sameMemory u

theorem State.quietly_refl (s : State) : s.quietly s := ⟨rfl, s.sameMemory_refl⟩

theorem State.quietly_clearErrors (s : State) (w : Wave) (gone : ErrSite → Bool) : s.quietly (s.clearErrors w gone) := by
  refine ⟨s.clearErrors_waves w gone, ?_⟩
  have hkept := foldl_keeps (g := fun s : State => (s.hbm, s.hostMem, s.peerMem, s.shadows, s.crews, s.launches))
    (f := fun s e => s.logIntegrity { s.fieldsOf w with addr := errCode e.site, event := 0x02, array := arrayOf e.site, lane := errLane e.site })
    (fun s e => by unfold State.logIntegrity State.logIntegrityAt; split <;> rfl)
    ((s.softErrors.filter fun e => gone e.site).filter SoftErr.poison)
    { s with softErrors := s.softErrors.filter fun e => !gone e.site }
  simp only [Prod.mk.injEq] at hkept
  exact hkept

theorem State.quietly_clearScalar (s : State) (w : Wave) (k : Nat) : s.quietly (s.clearScalar w k) := by
  unfold State.clearScalar
  split
  · exact s.quietly_refl
  · exact s.quietly_clearErrors _ _

/-- What a word that retires leaves: its wave with all that the word keeps, every other wave, and the memories. -/
def State.framesWord (i : Instr) (s : State) (w : Wave) (t : State) : Prop :=
  ∃ v, t.wave? w.key = some v ∧ Wave.Keeps i w v ∧ s.onlyWave t w.key

theorem State.framesWord_of_put {i : Instr} {s t u : State} {w v : Wave} (hhead : s.waves.head? = some w) (h : w.countsIn t (.next (u.putWave v)))
    (hquiet : s.quietly u) (hv : Wave.Keeps i w v) : s.framesWord i w t := by
  obtain ⟨hnext, -⟩ := h
  obtain rfl : u.putWave v = t := by injection hnext
  obtain ⟨hwaves, hmem⟩ := hquiet
  have hfound : (u.wave? v.key).isSome = true := by
    rw [hv.key, State.wave?, hwaves]
    exact congrArg Option.isSome (State.wave?_of_head hhead)
  exact ⟨v, hv.key ▸ State.wave?_putWave hfound, hv, hv.key ▸ State.onlyWave_putWave hwaves hmem⟩

end Sys2Proof.Machine
end

section
/-! The frame of the words of classes 00, 01 and 10 (R122-R125): each shared form of a word once, and each word by its form. -/

namespace Sys2Proof.Machine

/-! ### Errors that a command's reads of local bytes find (R342, R345) -/

theorem State.retiredOf_corrected (s : State) (c : Nat) (wave : Option Nat) (k : Nat) : (s.corrected c wave).retiredOf k = s.retiredOf k := by
  unfold State.corrected
  cases wave with
  | some j => exact State.chargeWave_retired ..
  | none =>
    dsimp only
    split
    · rw [State.retiredOf_contextFault]
      exact State.retiredOf_waves (State.logIntegrity_waves _ _) k
    · rfl

theorem State.retiredOf_scanLocal (s : State) (w : Wave) (places : List LocalAt) (k : Nat) : (s.scanLocal w places).1.retiredOf k = s.retiredOf k := by
  refine foldl_keeps (g := fun x : State × Option LocalAt => x.1.retiredOf k) (fun x p => ?_) places (s, none)
  dsimp only
  split
  · rfl
  · next e _ =>
    split
    · unfold State.markLocal
      cases p <;> rfl
    · exact State.retiredOf_corrected ..

theorem State.retiredOf_rung3 (s : State) (lk : Nat) (wave : Option Nat) (d : Demand) (k : Nat) : (s.rung3 lk wave d).retiredOf k = s.retiredOf k := by
  have honWave (u : State) (j : Nat) (x : Option Demand) : (u.onWave j fun w => { w with demand := x }).retiredOf k = u.retiredOf k :=
    State.retiredOf_onWave (f := fun w => { w with demand := x }) (fun _ => rfl) (fun _ => rfl) j k
  unfold State.rung3
  split
  · rfl
  split
  · rfl
  split
  · dsimp only
    split
    · exact honWave _ _ _
    · rfl
  · dsimp only
    split
    · split
      · exact honWave _ _ _
      · exact State.retiredOf_contextFault ..
    · exact State.retiredOf_contextFault ..

theorem State.findLocal_retired {s u : State} {w : Wave} {pc : Nat} {mask : Mask} {places : List LocalAt} (h : s.findLocal w pc mask places = some u) (k : Nat) :
    u.retiredOf k = s.retiredOf k := by
  have hscan := s.retiredOf_scanLocal w places k
  unfold State.findLocal at h
  split at h
  · next v p heq =>
    rw [heq] at hscan
    obtain rfl := Option.some.inj h
    exact (State.retiredOf_rung3 ..).trans hscan
  · next v heq =>
    rw [heq] at hscan
    split at h
    · cases h
    · exact Option.some.inj h ▸ hscan

section
variable {i : Instr} {s t : State} {w : Wave} (hhead : s.waves.head? = some w)
include hhead

theorem State.found_of_head : (s.wave? w.key).isSome = true := by
  rw [State.wave?_of_head hhead]
  rfl

/-- A command that finds such an error does not retire. -/
theorem Wave.not_countsIn_found {u : State} {v : Wave} {pc : Nat} {mask : Mask} {places : List LocalAt} (h : s.findLocal v pc mask places = some u) :
    ¬w.countsIn t (.next u) := by
  refine Wave.not_countsIn (n := w.a.retired) ?_ (by omega)
  rw [State.findLocal_retired h, State.retiredOf, State.wave?_of_head hhead]
  rfl

/-! ### How words end -/

theorem done_frames {u : State} (hu : s.quietly u) {v : Wave} {p : Split} (hv : Wave.Keeps i w v) (h : w.countsIn t (u.done v p)) : s.framesWord i w t :=
  State.framesWord_of_put hhead h hu (hv.advance p)

theorem scalarDone_frames {v : Wave} {p : Split} {d : Byte} {x xs : Word64} (hv : Wave.Keeps i w v) (hd : ∀ x ∈ sCode d, x ∈ dests i)
    (h : w.countsIn t (s.scalarDone v p d x xs)) : s.framesWord i w t :=
  done_frames hhead (s.quietly_clearScalar ..) (hv.setS hd _ _) h

theorem rawDone_frames {v : Wave} {p : Split} {d : Nat} {on : Mask} {value : Nat → Word32} {tag : Tag} (hv : Wave.Keeps i w v) (hd : d ∈ dests i)
    (h : w.countsIn t (s.rawDone v p d on value tag)) : s.framesWord i w t :=
  done_frames hhead (s.quietly_clearErrors ..) (hv.writeV hd _ _ _) h

theorem classC_frames {p : Split} {d : Nat} {on : Mask} {exact : Nat → Exact} {out : Nat → Val → LaneOut} {tag : Tag} {bump : Bool} (hd : d ∈ dests i)
    (h : w.countsIn t (s.classC w p d on exact out tag bump)) : s.framesWord i w t := by
  unfold State.classC at h
  dsimp only at h
  split at h
  · exact (Wave.not_countsIn_trap rfl rfl (State.found_of_head hhead) _ _ _ _ h).elim
  · have hv : Wave.Keeps i w ((w.flags (w.classFlags (w.classRows on exact out))).writeV d on (fun j => (rowOf (w.classRows on exact out) j).bits) tag) :=
      ((Wave.Keeps.refl i w).flags _).writeV hd _ _ _
    unfold State.classNext at h
    refine State.framesWord_of_put hhead h (s.quietly_clearErrors ..) (Wave.Keeps.advance ?_ _)
    split
    · exact hv.bumpIfSRF _ _
    · exact hv

theorem loadDone_frames {v : Wave} {p : Split} {d : Byte} {on : Mask} {remote : Bool} {job : PortJob} (hv : Wave.Keeps i w v) (hd : d.toNat ∈ dests i)
    (h : w.countsIn t (s.loadDone v p d on remote job)) : s.framesWord i w t := by
  unfold State.loadDone at h
  dsimp only at h
  split at h
  · exact done_frames hhead s.quietly_refl (hv.writeV hd _ _ _) h
  split at h
  · exact done_frames hhead s.quietly_refl (((hv.writeV hd _ _ _).pushPort _ _).markV hd _) h
  · exact done_frames hhead s.quietly_refl ((hv.writeV hd _ _ _).pushPort _ _) h

theorem storeDone_frames {v : Wave} {p : Split} {writes : List (LocalAt × Byte × Byte)} (hv : Wave.Keeps i w v)
    (h : w.countsIn t (s.storeDone v p writes)) : s.framesWord i w t := by
  unfold State.storeDone at h
  split at h
  · exact done_frames hhead s.quietly_refl hv h
  · exact done_frames hhead s.quietly_refl (hv.pushPort _ _) h

theorem atomicDone_frames {v : Wave} {p : Split} {kind : OpKind} {mask : Mask} {pieces : List Piece} (hv : Wave.Keeps i w v)
    (h : w.countsIn t (s.atomicDone v p kind mask pieces)) : s.framesWord i w t := by
  unfold State.atomicDone at h
  dsimp only at h
  split at h
  · exact (Wave.not_countsIn_wait hhead h).elim
  · refine done_frames (u := s.newKey.2) hhead s.quietly_refl ?_ h
    split
    · exact (hv.addOp ..).pushPort _ _
    · exact hv.addOp ..

theorem enqueueMat_frames {v : Wave} {p : Split} {kind : OpKind} {mask : Mask} {pieces : List Piece} {job : MatJob} (hv : Wave.Keeps i w v)
    (h : w.countsIn t (s.enqueueMat v p kind mask pieces job)) : s.framesWord i w t := by
  unfold State.enqueueMat at h
  split at h
  · exact (Wave.not_countsIn_wait hhead h).elim
  · exact done_frames (u := s.newKey.2) hhead s.quietly_refl (hv.addOp ..) h

/-! ### Class 00 -/

section
variable {d a b : Byte} (hd : ∀ x ∈ sCode d, x ∈ dests i)
include hd

theorem scalarBinary_frames {f : Word64 → Word64 → Word64} {divides : Bool} (h : w.countsIn t (scalarBinary i d a b f divides s)) : s.framesWord i w t := by
  obtain ⟨p, -, -, h⟩ := issueWord_counts hhead h
  exact scalarDone_frames hhead ((Wave.Keeps.refl i w).flags _) hd h

theorem scalarUnary_frames {f : Word64 → Word64} (h : w.countsIn t (scalarUnary i d a f s)) : s.framesWord i w t := by
  obtain ⟨p, -, -, h⟩ := issueWord_counts hhead h
  exact scalarDone_frames hhead (.refl i w) hd h

theorem scalarImm_frames {f : Word64 → Word64} (h : w.countsIn t (scalarImm i d f s)) : s.framesWord i w t := by
  obtain ⟨p, -, -, h⟩ := issueWord_counts hhead h
  exact scalarDone_frames hhead (.refl i w) hd h

theorem scalarAtomic_frames {f : AtomicFn} (h : w.countsIn t (scalarAtomic i d a b f s)) : s.framesWord i w t := by
  obtain ⟨p, -, -, h⟩ := issueWord_counts hhead h
  dsimp only at h
  split at h
  · exact (Wave.not_countsIn_mismatch rfl rfl (State.found_of_head hhead) _ _ _ h).elim
  split at h
  · exact (Wave.not_countsIn_trap rfl rfl (State.found_of_head hhead) _ _ _ _ h).elim
  split at h
  · exact (Wave.not_countsIn_trap rfl rfl (State.found_of_head hhead) _ _ _ _ h).elim
  · exact atomicDone_frames hhead ((Wave.Keeps.refl i w).markS _ _) h

end

section
variable {d a b : Byte}

theorem scalarCompare_frames {f : Word64 → Word64 → Bool} (hd : ∀ x ∈ pCode d, x ∈ dests i) (h : w.countsIn t (scalarCompare i d a b f s)) :
    s.framesWord i w t := by
  obtain ⟨p, -, -, h⟩ := issueWord_counts hhead h
  exact done_frames hhead s.quietly_refl ((Wave.Keeps.refl i w).setPred hd _ _) h

theorem scalarLoad_frames {size : Nat} (h : w.countsIn t (scalarLoad i d a b size s)) : s.framesWord i w t := by
  obtain ⟨p, -, -, h⟩ := issueWord_counts hhead h
  split at h
  · exact (Wave.not_countsIn_trap rfl rfl (State.found_of_head hhead) _ _ _ _ h).elim
  · exact (Wave.not_countsIn_trap rfl rfl (State.found_of_head hhead) _ _ _ _ h).elim
  · exact done_frames hhead s.quietly_refl ((Wave.Keeps.refl i w).pushPort _ _) h

theorem scalarStore_frames {size : Nat} (h : w.countsIn t (scalarStore i d a b size s)) : s.framesWord i w t := by
  obtain ⟨p, -, -, h⟩ := issueWord_counts hhead h
  dsimp only at h
  split at h
  · exact (Wave.not_countsIn_mismatch rfl rfl (State.found_of_head hhead) _ _ _ h).elim
  split at h
  · exact (Wave.not_countsIn_trap rfl rfl (State.found_of_head hhead) _ _ _ _ h).elim
  · exact storeDone_frames hhead (.refl i w) h

theorem scmov_frames (h : w.countsIn t (execScmov d a b s)) : s.framesWord (.scmov d a b) w t := by
  obtain ⟨p, -, -, h⟩ := issueWord_counts hhead h
  dsimp only at h
  split at h
  · exact done_frames hhead s.quietly_refl (.refl _ w) h
  · exact scalarDone_frames hhead (.refl _ w) (fun _ hx => hx) h

theorem sread_frames (h : w.countsIn t (execSread d a s)) : s.framesWord (.sread d a) w t := by
  obtain ⟨p, -, -, h⟩ := issueWord_counts hhead h
  split at h
  · exact (Wave.not_countsIn_wait hhead h).elim
  · exact scalarDone_frames hhead (.refl _ w) (fun _ hx => hx) h

theorem sgetv_frames (h : w.countsIn t (execSgetv d a b s)) : s.framesWord (.sgetv d a b) w t := by
  obtain ⟨p, -, -, h⟩ := issueWord_counts hhead h
  exact done_frames hhead (s.quietly_clearScalar ..) (((Wave.Keeps.refl (.sgetv d a b) w).setS (fun _ hx => hx) _ _).markS _ _) h

end

/-! ### Class 01 -/

section
variable {d a b : Byte} (hd : d.toNat ∈ dests i)
include hd

theorem vectorBinary_frames {real : Bool → Val → Val → Exact} {int : Int → Int → Exact} {tag : Wave → Tag}
    (h : w.countsIn t (vectorBinary i d a b real int tag s)) : s.framesWord i w t := by
  obtain ⟨p, -, -, h⟩ := issueWord_counts hhead h
  exact classC_frames hhead hd h

theorem vectorUnary_frames {real : Val → Exact} {int : Int → Exact} {tag : Wave → Tag} (h : w.countsIn t (vectorUnary i d a real int tag s)) :
    s.framesWord i w t := by
  obtain ⟨p, -, -, h⟩ := issueWord_counts hhead h
  exact classC_frames hhead hd h

theorem vectorFused_frames {np nd : Bool} (h : w.countsIn t (vectorFused i d a b np nd s)) : s.framesWord i w t := by
  obtain ⟨p, -, -, h⟩ := issueWord_counts hhead h
  exact classC_frames hhead hd h

theorem scanWord_frames {prefix_ : Bool} {f : Wave → List Val → Exact} (h : w.countsIn t (scanWord i d a prefix_ f s)) : s.framesWord i w t := by
  obtain ⟨p, -, -, h⟩ := issueWord_counts hhead h
  exact classC_frames hhead hd h

theorem rawBinary_frames {f : Word32 → Word32 → Word32} {tag : Wave → Tag} (h : w.countsIn t (rawBinary i d a b f tag s)) : s.framesWord i w t := by
  obtain ⟨p, -, -, h⟩ := issueWord_counts hhead h
  exact rawDone_frames hhead (.refl i w) hd h

theorem rawUnary_frames {f : Word32 → Word32} (h : w.countsIn t (rawUnary i d a f s)) : s.framesWord i w t := by
  obtain ⟨p, -, -, h⟩ := issueWord_counts hhead h
  exact rawDone_frames hhead (.refl i w) hd h

theorem crossLane_frames {tag : Tag} (h : w.countsIn t (crossLane i d a tag s)) : s.framesWord i w t := by
  obtain ⟨p, -, -, h⟩ := issueWord_counts hhead h
  exact rawDone_frames hhead (.refl i w) hd h

theorem rawLoad_frames {size : Nat} (h : w.countsIn t (rawLoad i d a b size s)) : s.framesWord i w t := by
  obtain ⟨p, -, -, h⟩ := issueWord_counts hhead h
  dsimp only at h
  split at h
  · exact (Wave.not_countsIn_trap rfl rfl (State.found_of_head hhead) _ _ _ _ h).elim
  · exact loadDone_frames hhead (.refl i w) hd h

/-- A per-lane atomic, whatever it compares and sends. -/
theorem laneAtomic_body_frames {p q : Split} {on bad : Mask} {e : Nat → Nat} {piece : Nat → Piece} {lanes : List Nat}
    (h : w.countsIn t (if bad ≠ 0 then s.mismatch w p bad false
      else match s.check64 w (w.list on) e 4 with
      | some r => s.trapAt w p r.cause r.addr r.mask
      | none =>
        if lanes = [] then s.done (w.writeV d.toNat 0 (fun _ => 0) .general).counted q
        else s.atomicDone (w.markV d.toNat true) p (.vatomic d.toNat) on (lanes.map piece))) : s.framesWord i w t := by
  split at h
  · exact (Wave.not_countsIn_mismatch rfl rfl (State.found_of_head hhead) _ _ _ h).elim
  split at h
  · exact (Wave.not_countsIn_trap rfl rfl (State.found_of_head hhead) _ _ _ _ h).elim
  split at h
  · exact done_frames hhead s.quietly_refl ((Wave.Keeps.refl i w).writeV hd _ _ _).counted h
  · exact atomicDone_frames hhead ((Wave.Keeps.refl i w).markV hd _) h

theorem laneAtomic_frames {f : AtomicFn} (h : w.countsIn t (laneAtomic i d a b f s)) : s.framesWord i w t := by
  obtain ⟨p, -, -, h⟩ := issueWord_counts hhead h
  exact laneAtomic_body_frames hhead hd h

end

section
variable {d a b : Byte}

theorem vectorCompare_frames {test : Ordering → Bool} {nan quiet : Bool} (hd : ∀ x ∈ pCode d, x ∈ dests i)
    (h : w.countsIn t (vectorCompare i d a b test nan quiet s)) : s.framesWord i w t := by
  obtain ⟨p, -, -, h⟩ := issueWord_counts hhead h
  dsimp only at h
  split at h
  · exact (Wave.not_countsIn_trap rfl rfl (State.found_of_head hhead) _ _ _ _ h).elim
  · exact done_frames hhead s.quietly_refl (((Wave.Keeps.refl i w).flags _).setPred hd _ _) h

theorem predWord_frames {value : Wave → Mask → Mask} (hd : ∀ x ∈ pCode d, x ∈ dests i) (h : w.countsIn t (predWord i d value s)) : s.framesWord i w t := by
  obtain ⟨p, -, -, h⟩ := issueWord_counts hhead h
  exact done_frames hhead s.quietly_refl ((Wave.Keeps.refl i w).setPred hd _ _) h

theorem rawStore_frames {size : Nat} (h : w.countsIn t (rawStore i d a b size s)) : s.framesWord i w t := by
  obtain ⟨p, -, -, h⟩ := issueWord_counts hhead h
  dsimp only at h
  split at h
  · exact (Wave.not_countsIn_mismatch rfl rfl (State.found_of_head hhead) _ _ _ h).elim
  split at h
  · exact (Wave.not_countsIn_trap rfl rfl (State.found_of_head hhead) _ _ _ _ h).elim
  · exact storeDone_frames hhead (.refl i w) h

theorem vmulh_frames (h : w.countsIn t (execVmulh d a b s)) : s.framesWord (.vmulh d a b) w t := by
  obtain ⟨p, -, -, h⟩ := issueWord_counts hhead h
  exact classC_frames hhead (List.mem_singleton.mpr rfl) h

theorem vcvt_frames (h : w.countsIn t (execVcvt d a s)) : s.framesWord (.vcvt d a) w t := by
  obtain ⟨p, -, -, h⟩ := issueWord_counts hhead h
  exact classC_frames hhead (List.mem_singleton.mpr rfl) h

theorem vrnd_frames (h : w.countsIn t (execVrnd d a s)) : s.framesWord (.vrnd d a) w t := by
  obtain ⟨p, -, -, h⟩ := issueWord_counts hhead h
  exact classC_frames hhead (List.mem_singleton.mpr rfl) h

theorem vsel_frames (h : w.countsIn t (execVsel d a b s)) : s.framesWord (.vsel d a b) w t := by
  obtain ⟨p, -, -, h⟩ := issueWord_counts hhead h
  exact rawDone_frames hhead (.refl _ w) (List.mem_singleton.mpr rfl) h

theorem vmov_frames (h : w.countsIn t (execVmov d a s)) : s.framesWord (.vmov d a) w t := by
  obtain ⟨p, -, -, h⟩ := issueWord_counts hhead h
  exact rawDone_frames hhead (.refl _ w) (List.mem_singleton.mpr rfl) h

theorem vfromp_frames (h : w.countsIn t (execVfromp d a s)) : s.framesWord (.vfromp d a) w t := by
  obtain ⟨p, -, -, h⟩ := issueWord_counts hhead h
  exact rawDone_frames hhead (.refl _ w) (List.mem_singleton.mpr rfl) h

theorem vrank_frames (h : w.countsIn t (execVrank d a s)) : s.framesWord (.vrank d a) w t := by
  obtain ⟨p, -, -, h⟩ := issueWord_counts hhead h
  exact rawDone_frames hhead (.refl _ w) (List.mem_singleton.mpr rfl) h

theorem vballot_frames (h : w.countsIn t (execVballot d a b s)) : s.framesWord (.vballot d a b) w t := by
  obtain ⟨p, -, -, h⟩ := issueWord_counts hhead h
  exact scalarDone_frames hhead (.refl _ w) (fun _ hx => hx) h

theorem vcount_frames (h : w.countsIn t (execVcount d a s)) : s.framesWord (.vcount d a) w t := by
  obtain ⟨p, -, -, h⟩ := issueWord_counts hhead h
  exact scalarDone_frames hhead (.refl _ w) (fun _ hx => hx) h

theorem vtag_frames (h : w.countsIn t (execVtag d a s)) : s.framesWord (.vtag d a) w t := by
  obtain ⟨p, -, -, h⟩ := issueWord_counts hhead h
  exact scalarDone_frames hhead (.refl _ w) (fun _ hx => hx) h

theorem sbfi_frames (h : w.countsIn t (execSbfi d a b s)) : s.framesWord (.sbfi d a b) w t := by
  obtain ⟨p, -, -, h⟩ := issueWord_counts hhead h
  exact scalarDone_frames hhead (.refl _ w) (fun _ hx => hx) h

theorem sli_frames {i : BitVec 16} (h : w.countsIn t (execSli d i s)) : s.framesWord (.sli d i) w t := by
  obtain ⟨p, -, -, h⟩ := issueWord_counts hhead h
  exact scalarDone_frames hhead (.refl _ w) (fun _ hx => hx) h

theorem sldp_frames {i : BitVec 13} (h : w.countsIn t (execSldp d i s)) : s.framesWord (.sldp d i) w t := by
  obtain ⟨p, -, -, h⟩ := issueWord_counts hhead h
  exact scalarDone_frames hhead (.refl _ w) (fun _ hx => hx) h

theorem vgen_frames (h : w.countsIn t (execVgen d s)) : s.framesWord (.vgen d) w t := by
  obtain ⟨p, -, -, h⟩ := issueWord_counts hhead h
  exact done_frames hhead s.quietly_refl ((Wave.Keeps.refl (.vgen d) w).onV (List.mem_singleton.mpr rfl) _) h

/-! ### Class 10 -/

theorem vld_frames (h : w.countsIn t (execVld d a b s)) : s.framesWord (.vld d a b) w t := by
  obtain ⟨p, -, -, h⟩ := issueWord_counts hhead h
  dsimp only at h
  split at h
  · exact (Wave.not_countsIn_trap rfl rfl (State.found_of_head hhead) _ _ _ _ h).elim
  · refine loadDone_frames hhead ?_ (List.mem_singleton.mpr rfl) h
    split
    · exact (Wave.Keeps.refl _ w).bumpIfSRF _ _
    · exact .refl _ w

theorem vst_frames (h : w.countsIn t (execVst d a b s)) : s.framesWord (.vst d a b) w t := by
  obtain ⟨p, -, -, h⟩ := issueWord_counts hhead h
  dsimp only at h
  generalize (if w.rounds = true then
    (w.list (w.active (p.stamp (.vst d a b) s.slots))).filter fun i => (w.srcVal d (Form.cls w.C) i).isSignalling else []) = inv at h
  split at h
  · exact (Wave.not_countsIn_mismatch rfl rfl (State.found_of_head hhead) _ _ _ h).elim
  split at h
  · exact (Wave.not_countsIn_trap rfl rfl (State.found_of_head hhead) _ _ _ _ h).elim
  split at h
  · exact (Wave.not_countsIn_trap rfl rfl (State.found_of_head hhead) _ _ _ _ h).elim
  split at h
  · exact (Wave.not_countsIn_trap rfl rfl (State.found_of_head hhead) _ _ _ _ h).elim
  · refine storeDone_frames hhead ?_ h
    split
    · exact ((Wave.Keeps.refl _ w).flags _).bumpIfSRF _ _
    · exact (Wave.Keeps.refl _ w).flags _

theorem vlds_frames (h : w.countsIn t (execVlds d a s)) : s.framesWord (.vlds d a) w t := by
  obtain ⟨p, -, -, h⟩ := issueWord_counts hhead h
  dsimp only at h
  split at h
  · exact (Wave.not_countsIn_trap rfl rfl (State.found_of_head hhead) _ _ _ _ h).elim
  · exact rawDone_frames hhead (.refl _ w) (List.mem_singleton.mpr rfl) h

theorem vsts_frames (h : w.countsIn t (execVsts d a s)) : s.framesWord (.vsts d a) w t := by
  obtain ⟨p, -, -, h⟩ := issueWord_counts hhead h
  dsimp only at h
  split at h
  · exact (Wave.not_countsIn_mismatch rfl rfl (State.found_of_head hhead) _ _ _ h).elim
  split at h
  · exact (Wave.not_countsIn_trap rfl rfl (State.found_of_head hhead) _ _ _ _ h).elim
  · refine done_frames hhead s.quietly_refl ?_ h
    have hself := Wave.Keeps.refl (.vsts d a) w
    exact ⟨hself.scalars, hself.vregs, hself.preds, hself.flagged, fun hne => absurd rfl (hne d a), rfl⟩

theorem cxadd_frames (h : w.countsIn t (execCxadd d a b s)) : s.framesWord (.cxadd d a b) w t := by
  obtain ⟨p, -, -, h⟩ := issueWord_counts hhead h
  dsimp only at h
  split at h
  · exact (Wave.not_countsIn_mismatch rfl rfl (State.found_of_head hhead) _ _ _ h).elim
  split at h
  · exact (Wave.not_countsIn_trap rfl rfl (State.found_of_head hhead) _ _ _ _ h).elim
  split at h
  · exact done_frames hhead s.quietly_refl (Wave.Keeps.refl _ w).counted h
  split at h
  · exact (Wave.not_countsIn_wait hhead h).elim
  · exact done_frames (u := s.newKey.2) hhead s.quietly_refl ((Wave.Keeps.refl _ w).addOp ..) h

theorem cxclr_frames (h : w.countsIn t (execCxclr a b s)) : s.framesWord (.cxclr a b) w t := by
  obtain ⟨p, -, -, h⟩ := issueWord_counts hhead h
  dsimp only at h
  split at h
  · exact (Wave.not_countsIn_mismatch rfl rfl (State.found_of_head hhead) _ _ _ h).elim
  split at h
  · exact (Wave.not_countsIn_trap rfl rfl (State.found_of_head hhead) _ _ _ _ h).elim
  split at h
  · exact done_frames hhead s.quietly_refl (.refl _ w) h
  split at h
  · exact (Wave.not_countsIn_wait hhead h).elim
  · exact done_frames (u := s.newKey.2) hhead s.quietly_refl ((Wave.Keeps.refl _ w).addOp ..) h

theorem issueCxget_frames (h : w.countsIn t (issueCxget d a b s)) : s.framesWord (.cxget d a b) w t := by
  obtain ⟨p, -, -, h⟩ := issueWord_counts hhead h
  dsimp only at h
  split at h
  · exact (Wave.not_countsIn_trap rfl rfl (State.found_of_head hhead) _ _ _ _ h).elim
  split at h
  · exact (Wave.not_countsIn_wait hhead h).elim
  split at h
  · exact done_frames hhead s.quietly_refl ((Wave.Keeps.refl _ w).writeV (List.mem_singleton.mpr rfl) _ _ _) h
  · refine (Wave.not_countsIn (n := w.a.retired) ?_ (by omega) h).elim
    have hfound := State.found_of_head hhead
    exact State.retiredOf_putWave (s := s.newKey.2) (w := Wave.setSplit _ _) hfound

theorem finishCxget_frames {p : Split} {o : Op} {job : MatJob} (h : w.countsIn t (s.finishCxget w p o d.toNat job)) :
    s.framesWord (.cxget d a b) w t := by
  unfold State.finishCxget at h
  dsimp only at h
  split at h
  · have hfound := State.found_of_head hhead
    exact (Wave.not_countsIn_trap (v := (w.withoutOp o.key).setSplit { p with status := .ready }) rfl rfl hfound _ _ _ _ h).elim
  · refine done_frames hhead (s.quietly_clearErrors ..) ?_ h
    have hv := ((Wave.Keeps.refl (.cxget d a b) w).withoutOp o.key).setSplit { p with status := .ready }
    exact ((hv.flags _).writeV (List.mem_singleton.mpr rfl) _ _ _).bumpIfSRF _ _

/-- A `cxget` whose operation is gone issues anew, with its split at work again: it keeps what the issue keeps. -/
theorem cxget_reissued_frames {ws : List Wave} {p : Split} (hws : s.waves = w :: ws)
    (h : w.countsIn t (issueCxget d a b (s.putWave (w.setSplit p)))) : s.framesWord (.cxget d a b) w t := by
  have hhead' : (s.putWave (w.setSplit p)).waves.head? = some (w.setSplit p) := by
    have hself : (if w.key == (w.setSplit p).key then w.setSplit p else w) = w.setSplit p := if_pos (beq_self_eq_true w.key)
    rw [State.putWave, hws]
    exact congrArg some hself
  obtain ⟨v, hv, hkeeps, hother, hmem⟩ := issueCxget_frames (w := w.setSplit p) hhead' h
  refine ⟨v, hv, ⟨hkeeps.scalars, hkeeps.vregs, hkeeps.preds, hkeeps.flagged, hkeeps.spill, hkeeps.beside⟩, fun j hj => ?_, hmem⟩
  exact (hother j hj).trans (State.wave?_putWave_other (w := w.setSplit p) hj)

theorem cxget_frames (h : w.countsIn t (execCxget d a b s)) : s.framesWord (.cxget d a b) w t := by
  obtain ⟨ws, hws⟩ := List.head?_eq_some_iff.mp hhead
  unfold execCxget at h
  rw [hws] at h
  dsimp only at h
  split at h
  · exact absurd h.1 nofun
  split at h
  · split at h
    · split at h
      · split at h
        · exact finishCxget_frames hhead h
        · exact (Wave.not_countsIn_wait hhead h).elim
      · exact (Wave.not_countsIn_wait hhead h).elim
    · exact cxget_reissued_frames hhead hws h
  · exact issueCxget_frames hhead h

theorem copyWord_frames {f : CopyFn} (h : w.countsIn t (copyWord i a f s)) : s.framesWord i w t := by
  obtain ⟨p, -, -, h⟩ := issueWord_counts hhead h
  dsimp only at h
  split at h
  · exact (Wave.not_countsIn_trap rfl rfl (State.found_of_head hhead) _ _ _ _ h).elim
  split at h
  · exact (Wave.not_countsIn_mismatch rfl rfl (State.found_of_head hhead) _ _ _ h).elim
  split at h
  · exact (Wave.not_countsIn_trap rfl rfl (State.found_of_head hhead) _ _ _ _ h).elim
  split at h
  · exact (Wave.not_countsIn_wait hhead h).elim
  split at h
  · next hfound => exact (Wave.not_countsIn_found hhead hfound h).elim
  split at h
  · exact (Wave.not_countsIn_trap rfl rfl (State.found_of_head hhead) _ _ _ _ h).elim
  split at h
  · exact (Wave.not_countsIn_trap rfl rfl (State.found_of_head hhead) _ _ _ _ h).elim
  split at h
  · exact (Wave.not_countsIn_trap rfl rfl (State.found_of_head hhead) _ _ _ _ h).elim
  split at h
  · exact (Wave.not_countsIn_wait hhead h).elim
  split at h
  · next hfound => exact (Wave.not_countsIn_found hhead hfound h).elim
  · exact done_frames (u := s.newKey.2) hhead s.quietly_refl ((Wave.Keeps.refl _ w).addOp ..) h

theorem wait_frames {n : Byte} (h : w.countsIn t (execWait a n s)) : s.framesWord (.wait a n) w t := by
  obtain ⟨p, -, -, h⟩ := issueWord_counts hhead h
  split at h
  · exact done_frames hhead s.quietly_refl (.refl _ w) h
  · exact (Wave.not_countsIn_wait hhead h).elim

theorem fence_frames {scope order : BitVec 4} (h : w.countsIn t (execFence scope order s)) : s.framesWord (.fence scope order) w t := by
  obtain ⟨p, -, -, h⟩ := issueWord_counts hhead h
  split at h
  · split at h
    · exact (Wave.not_countsIn_wait hhead h).elim
    · refine (Wave.not_countsIn (n := w.a.retired) ?_ (by omega) h).elim
      have hfound := State.found_of_head hhead
      exact State.retiredOf_putWave (w := Wave.setSplit _ _) hfound
  split at h
  · refine (Wave.not_countsIn_trap ?_ ?_ (State.found_of_head hhead) _ _ _ _ h).elim
    · split <;> rfl
    · split <;> rfl
  · exact done_frames hhead s.quietly_refl (.refl _ w) h

theorem multiply_frames {zero : Bool} (h : w.countsIn t (multiply i d a b zero s)) : s.framesWord i w t := by
  obtain ⟨p, -, -, h⟩ := issueWord_counts hhead h
  dsimp only at h
  split at h
  · exact (Wave.not_countsIn_trap rfl rfl (State.found_of_head hhead) _ _ _ _ h).elim
  · exact (Wave.not_countsIn_trap rfl rfl (State.found_of_head hhead) _ _ _ _ h).elim
  · exact (Wave.not_countsIn_trap rfl rfl (State.found_of_head hhead) _ _ _ _ h).elim
  · exact (Wave.not_countsIn_trap rfl rfl (State.found_of_head hhead) _ _ _ _ h).elim
  split at h
  · exact (Wave.not_countsIn_wait hhead h).elim
  split at h
  · next hfound => exact (Wave.not_countsIn_found hhead hfound h).elim
  split at h
  · exact (Wave.not_countsIn_trap rfl rfl (State.found_of_head hhead) _ _ _ _ h).elim
  split at h
  · exact (Wave.not_countsIn_trap rfl rfl (State.found_of_head hhead) _ _ _ _ h).elim
  split at h
  · exact (Wave.not_countsIn_wait hhead h).elim
  · exact enqueueMat_frames hhead ((Wave.Keeps.refl i w).latch _ _) h

theorem mzero_frames (h : w.countsIn t (execMzero d s)) : s.framesWord (.mzero d) w t := by
  obtain ⟨p, -, -, h⟩ := issueWord_counts hhead h
  exact enqueueMat_frames hhead (.refl _ w) h

theorem mldv_frames (h : w.countsIn t (execMldv d a s)) : s.framesWord (.mldv d a) w t := by
  obtain ⟨p, -, -, h⟩ := issueWord_counts hhead h
  exact enqueueMat_frames hhead (.refl _ w) h

theorem mdrv_frames (h : w.countsIn t (execMdrv d a s)) : s.framesWord (.mdrv d a) w t := by
  obtain ⟨p, -, -, h⟩ := issueWord_counts hhead h
  dsimp only at h
  split at h
  · exact (Wave.not_countsIn_wait hhead h).elim
  · refine done_frames (u := s.newKey.2) hhead s.quietly_refl (Wave.Keeps.addOp ?_ ..) h
    exact List.foldlRecOn (List.range 32) _ (.refl _ w) fun v hv c hc => hv.markV (List.mem_map_of_mem hc) true

/-- A word that reads a descriptor, by what it does with its bytes. -/
theorem withDescriptor_frames {body : State → Wave → Split → Mask → List Byte → Result}
    (hbody : ∀ p on bytes, w.countsIn t (body s w p on bytes) → s.framesWord i w t) (h : w.countsIn t (withDescriptor i b s body)) : s.framesWord i w t := by
  obtain ⟨p, -, -, h⟩ := issueWord_counts hhead h
  dsimp only at h
  split at h
  · exact (Wave.not_countsIn_trap rfl rfl (State.found_of_head hhead) _ _ _ _ h).elim
  split at h
  · exact (Wave.not_countsIn_wait hhead h).elim
  split at h
  · next hfound => exact (Wave.not_countsIn_found hhead hfound h).elim
  · exact hbody _ _ _ h

theorem mdrl_frames (h : w.countsIn t (execMdrl a b s)) : s.framesWord (.mdrl a b) w t := by
  refine withDescriptor_frames hhead (fun p on bytes h => ?_) h
  dsimp only at h
  split at h
  · exact (Wave.not_countsIn_trap rfl rfl (State.found_of_head hhead) _ _ _ _ h).elim
  split at h
  · exact (Wave.not_countsIn_trap rfl rfl (State.found_of_head hhead) _ _ _ _ h).elim
  · exact enqueueMat_frames hhead (.refl _ w) h

theorem mdrx_frames (h : w.countsIn t (execMdrx a b s)) : s.framesWord (.mdrx a b) w t := by
  refine withDescriptor_frames hhead (fun p on bytes h => ?_) h
  dsimp only at h
  split at h
  · exact (Wave.not_countsIn_trap rfl rfl (State.found_of_head hhead) _ _ _ _ h).elim
  split at h
  · exact (Wave.not_countsIn_trap rfl rfl (State.found_of_head hhead) _ _ _ _ h).elim
  split at h
  · exact (Wave.not_countsIn_trap rfl rfl (State.found_of_head hhead) _ _ _ _ h).elim
  · exact enqueueMat_frames hhead (.refl _ w) h

end

/-! ### Every word -/

theorem frames_of_encodeBytes {o x y z : Byte} (henc : encodeBytes i = some (o, x, y, z)) (ho : o.toNat < 0xC0) (hnot : ∀ a b, i ≠ .swrite a b)
    (h : w.countsIn t (exec i s)) : s.framesWord i w t := by
  cases i
  all_goals simp only [exec] at h
  case sadd d a b => exact scalarBinary_frames hhead (fun _ hx => hx) h
  case ssub d a b => exact scalarBinary_frames hhead (fun _ hx => hx) h
  case smul d a b => exact scalarBinary_frames hhead (fun _ hx => hx) h
  case smulh d a b => exact scalarBinary_frames hhead (fun _ hx => hx) h
  case smulhu d a b => exact scalarBinary_frames hhead (fun _ hx => hx) h
  case sdiv d a b => exact scalarBinary_frames hhead (fun _ hx => hx) h
  case sdivu d a b => exact scalarBinary_frames hhead (fun _ hx => hx) h
  case srem d a b => exact scalarBinary_frames hhead (fun _ hx => hx) h
  case sremu d a b => exact scalarBinary_frames hhead (fun _ hx => hx) h
  case sand d a b => exact scalarBinary_frames hhead (fun _ hx => hx) h
  case sor d a b => exact scalarBinary_frames hhead (fun _ hx => hx) h
  case sxor d a b => exact scalarBinary_frames hhead (fun _ hx => hx) h
  case sshl d a b => exact scalarBinary_frames hhead (fun _ hx => hx) h
  case sshr d a b => exact scalarBinary_frames hhead (fun _ hx => hx) h
  case ssra d a b => exact scalarBinary_frames hhead (fun _ hx => hx) h
  case smin d a b => exact scalarBinary_frames hhead (fun _ hx => hx) h
  case smax d a b => exact scalarBinary_frames hhead (fun _ hx => hx) h
  case sminu d a b => exact scalarBinary_frames hhead (fun _ hx => hx) h
  case smaxu d a b => exact scalarBinary_frames hhead (fun _ hx => hx) h
  case scmov d a b => exact scmov_frames hhead h
  case spopc d a => exact scalarUnary_frames hhead (fun _ hx => hx) h
  case sclz d a => exact scalarUnary_frames hhead (fun _ hx => hx) h
  case sctz d a => exact scalarUnary_frames hhead (fun _ hx => hx) h
  case sbfx d a b => exact scalarBinary_frames hhead (fun _ hx => hx) h
  case sbfi d a b => exact sbfi_frames hhead h
  case smov d a => exact scalarUnary_frames hhead (fun _ hx => hx) h
  case sceq d a b => exact scalarCompare_frames hhead (fun _ hx => hx) h
  case scne d a b => exact scalarCompare_frames hhead (fun _ hx => hx) h
  case sclt d a b => exact scalarCompare_frames hhead (fun _ hx => hx) h
  case scle d a b => exact scalarCompare_frames hhead (fun _ hx => hx) h
  case scltu d a b => exact scalarCompare_frames hhead (fun _ hx => hx) h
  case scleu d a b => exact scalarCompare_frames hhead (fun _ hx => hx) h
  case sread d a => exact sread_frames hhead h
  case swrite a b => exact absurd rfl (hnot a b)
  case sldl d a b => exact scalarLoad_frames hhead h
  case sldw d a b => exact scalarLoad_frames hhead h
  case sstl d a b => exact scalarStore_frames hhead h
  case sstw d a b => exact scalarStore_frames hhead h
  case sgetv d a b => exact sgetv_frames hhead h
  case sli d i => exact sli_frames hhead h
  case slih d i => exact scalarImm_frames hhead (fun _ hx => hx) h
  case slix d i => exact scalarImm_frames hhead (fun _ hx => hx) h
  case sliy d i => exact scalarImm_frames hhead (fun _ hx => hx) h
  case saddi d i => exact scalarImm_frames hhead (fun _ hx => hx) h
  case sandi d i => exact scalarImm_frames hhead (fun _ hx => hx) h
  case sori d i => exact scalarImm_frames hhead (fun _ hx => hx) h
  case sxori d i => exact scalarImm_frames hhead (fun _ hx => hx) h
  case sshli d i => exact scalarImm_frames hhead (fun _ hx => hx) h
  case sshri d i => exact scalarImm_frames hhead (fun _ hx => hx) h
  case ssrai d i => exact scalarImm_frames hhead (fun _ hx => hx) h
  case smuli d i => exact scalarImm_frames hhead (fun _ hx => hx) h
  case sldp d i => exact sldp_frames hhead h
  case satadd d a b => exact scalarAtomic_frames hhead (fun _ hx => hx) h
  case satxchg d a b => exact scalarAtomic_frames hhead (fun _ hx => hx) h
  case satcas d a b => exact scalarAtomic_frames hhead (fun _ hx => hx) h
  case satmin d a b => exact scalarAtomic_frames hhead (fun _ hx => hx) h
  case satmax d a b => exact scalarAtomic_frames hhead (fun _ hx => hx) h
  case satand d a b => exact scalarAtomic_frames hhead (fun _ hx => hx) h
  case sator d a b => exact scalarAtomic_frames hhead (fun _ hx => hx) h
  case satxor d a b => exact scalarAtomic_frames hhead (fun _ hx => hx) h
  case vadd d a b => exact vectorBinary_frames hhead (List.mem_singleton.mpr rfl) h
  case vsub d a b => exact vectorBinary_frames hhead (List.mem_singleton.mpr rfl) h
  case vmul d a b => exact vectorBinary_frames hhead (List.mem_singleton.mpr rfl) h
  case vfma d a b => exact vectorFused_frames hhead (List.mem_singleton.mpr rfl) h
  case vfms d a b => exact vectorFused_frames hhead (List.mem_singleton.mpr rfl) h
  case vfnma d a b => exact vectorFused_frames hhead (List.mem_singleton.mpr rfl) h
  case vmin d a b => exact vectorBinary_frames hhead (List.mem_singleton.mpr rfl) h
  case vmax d a b => exact vectorBinary_frames hhead (List.mem_singleton.mpr rfl) h
  case vabs d a => exact vectorUnary_frames hhead (List.mem_singleton.mpr rfl) h
  case vneg d a => exact vectorUnary_frames hhead (List.mem_singleton.mpr rfl) h
  case vdiv d a b => exact vectorBinary_frames hhead (List.mem_singleton.mpr rfl) h
  case vrem d a b => exact vectorBinary_frames hhead (List.mem_singleton.mpr rfl) h
  case vsqrt d a => exact vectorUnary_frames hhead (List.mem_singleton.mpr rfl) h
  case vrsqrt d a => exact vectorUnary_frames hhead (List.mem_singleton.mpr rfl) h
  case vrcp d a => exact vectorUnary_frames hhead (List.mem_singleton.mpr rfl) h
  case vexp2 d a => exact vectorUnary_frames hhead (List.mem_singleton.mpr rfl) h
  case vlog2 d a => exact vectorUnary_frames hhead (List.mem_singleton.mpr rfl) h
  case vmulh d a b => exact vmulh_frames hhead h
  case vand d a b => exact rawBinary_frames hhead (List.mem_singleton.mpr rfl) h
  case vor d a b => exact rawBinary_frames hhead (List.mem_singleton.mpr rfl) h
  case vxor d a b => exact rawBinary_frames hhead (List.mem_singleton.mpr rfl) h
  case vshl d a b => exact rawBinary_frames hhead (List.mem_singleton.mpr rfl) h
  case vshr d a b => exact rawBinary_frames hhead (List.mem_singleton.mpr rfl) h
  case vsra d a b => exact rawBinary_frames hhead (List.mem_singleton.mpr rfl) h
  case vpopc d a => exact rawUnary_frames hhead (List.mem_singleton.mpr rfl) h
  case vclz d a => exact rawUnary_frames hhead (List.mem_singleton.mpr rfl) h
  case vceq d a b => exact vectorCompare_frames hhead (fun _ hx => hx) h
  case vcne d a b => exact vectorCompare_frames hhead (fun _ hx => hx) h
  case vclt d a b => exact vectorCompare_frames hhead (fun _ hx => hx) h
  case vcle d a b => exact vectorCompare_frames hhead (fun _ hx => hx) h
  case vcun d a b => exact vectorCompare_frames hhead (fun _ hx => hx) h
  case vsel d a b => exact vsel_frames hhead h
  case vcvt d a => exact vcvt_frames hhead h
  case vrnd d a => exact vrnd_frames hhead h
  case vmov d a => exact vmov_frames hhead h
  case vfromp d a => exact vfromp_frames hhead h
  case vtop d a => exact predWord_frames hhead (fun _ hx => hx) h
  case vpand d a b => exact predWord_frames hhead (fun _ hx => hx) h
  case vpor d a b => exact predWord_frames hhead (fun _ hx => hx) h
  case vpxor d a b => exact predWord_frames hhead (fun _ hx => hx) h
  case vpnot d a => exact predWord_frames hhead (fun _ hx => hx) h
  case vshfl d a b => exact crossLane_frames hhead (List.mem_singleton.mpr rfl) h
  case vshup d a b => exact crossLane_frames hhead (List.mem_singleton.mpr rfl) h
  case vshdn d a b => exact crossLane_frames hhead (List.mem_singleton.mpr rfl) h
  case vbcast d a b => exact crossLane_frames hhead (List.mem_singleton.mpr rfl) h
  case vscan d a => exact scanWord_frames hhead (List.mem_singleton.mpr rfl) h
  case vscanmax d a => exact scanWord_frames hhead (List.mem_singleton.mpr rfl) h
  case vscanmin d a => exact scanWord_frames hhead (List.mem_singleton.mpr rfl) h
  case vredsum d a => exact scanWord_frames hhead (List.mem_singleton.mpr rfl) h
  case vredmax d a => exact scanWord_frames hhead (List.mem_singleton.mpr rfl) h
  case vredmin d a => exact scanWord_frames hhead (List.mem_singleton.mpr rfl) h
  case vballot d a b => exact vballot_frames hhead h
  case vcount d a => exact vcount_frames hhead h
  case vrank d a => exact vrank_frames hhead h
  case vtag d a => exact vtag_frames hhead h
  case vgen d => exact vgen_frames hhead h
  case vld d a b => exact vld_frames hhead h
  case vst d a b => exact vst_frames hhead h
  case vldraw d a b => exact rawLoad_frames hhead (List.mem_singleton.mpr rfl) h
  case vstraw d a b => exact rawStore_frames hhead h
  case vldb d a b => exact rawLoad_frames hhead (List.mem_singleton.mpr rfl) h
  case vstb d a b => exact rawStore_frames hhead h
  case vldh d a b => exact rawLoad_frames hhead (List.mem_singleton.mpr rfl) h
  case vsth d a b => exact rawStore_frames hhead h
  case vlds d a => exact vlds_frames hhead h
  case vsts d a => exact vsts_frames hhead h
  case vatadd d a b => exact laneAtomic_frames hhead (List.mem_singleton.mpr rfl) h
  case vatmin d a b => exact laneAtomic_frames hhead (List.mem_singleton.mpr rfl) h
  case vatmax d a b => exact laneAtomic_frames hhead (List.mem_singleton.mpr rfl) h
  case vatand d a b => exact laneAtomic_frames hhead (List.mem_singleton.mpr rfl) h
  case vator d a b => exact laneAtomic_frames hhead (List.mem_singleton.mpr rfl) h
  case vatxchg d a b => exact laneAtomic_frames hhead (List.mem_singleton.mpr rfl) h
  case vatcas d a b => exact laneAtomic_frames hhead (List.mem_singleton.mpr rfl) h
  case cxadd d a b => exact cxadd_frames hhead h
  case cxget d a b => exact cxget_frames hhead h
  case cxclr a b => exact cxclr_frames hhead h
  case cpin a => exact copyWord_frames hhead h
  case cpout a => exact copyWord_frames hhead h
  case cpgat a => exact copyWord_frames hhead h
  case cpsca a => exact copyWord_frames hhead h
  case cpfill a => exact copyWord_frames hhead h
  case cplocal a => exact copyWord_frames hhead h
  case wait s n => exact wait_frames hhead h
  case fence s r => exact fence_frames hhead h
  case mma d a b => exact multiply_frames hhead h
  case mmaz d a b => exact multiply_frames hhead h
  case mzero d => exact mzero_frames hhead h
  case mdrv d a => exact mdrv_frames hhead h
  case mdrl a b => exact mdrl_frames hhead h
  case mdrx a b => exact mdrx_frames hhead h
  case mldv d a => exact mldv_frames hhead h
  all_goals simp only [encodeBytes, reduceCtorEq, Option.some.injEq, Prod.mk.injEq] at henc
  all_goals exact absurd ho (by rw [← henc.1]; decide)

end

/-- The first byte of a word is its opcode. -/
theorem opcode_of_encode {i : Instr} {c : Word32} (h : encode i = some c) :
    ∃ o x y z, encodeBytes i = some (o, x, y, z) ∧ c.toNat / 2 ^ 24 = o.toNat := by
  obtain ⟨⟨o, x, y, z⟩, hbytes, rfl⟩ := Option.map_eq_some_iff.mp h
  refine ⟨o, x, y, z, hbytes, ?_⟩
  have hx := x.isLt
  have hy := y.isLt
  have hz := z.isLt
  simp only [BitVec.toNat_append, Nat.shiftLeft_eq]
  rw [← Nat.shiftLeft_eq, ← Nat.shiftLeft_eq, ← Nat.shiftLeft_eq, ← Nat.shiftLeft_add_eq_or_of_lt hx, ← Nat.shiftLeft_add_eq_or_of_lt hy,
    ← Nat.shiftLeft_add_eq_or_of_lt hz, Nat.shiftLeft_eq, Nat.shiftLeft_eq, Nat.shiftLeft_eq]
  omega

/-- What a word keeps beside its registers, field by field. -/
theorem Wave.Keeps.fields {i : Instr} {w v : Wave} (h : Wave.Keeps i w v) :
    v.a.mr = w.a.mr ∧ v.a.mx = w.a.mx ∧ v.a.seedlo = w.a.seedlo ∧ v.a.seedhi = w.a.seedhi ∧ v.a.sp = w.a.sp ∧ v.a.mxbase = w.a.mxbase ∧
      v.a.mxplane = w.a.mxplane ∧ v.a.tiles = w.a.tiles ∧ v.a.twins = w.a.twins ∧
      v.a.lanes.map (fun l => (l.x, l.y, l.z, l.item, l.n)) = w.a.lanes.map (fun l => (l.x, l.y, l.z, l.item, l.n)) ∧
      v.a.entries = w.a.entries ∧ v.a.live = w.a.live ∧ v.checkpoint = w.checkpoint ∧ v.trapcause = w.trapcause ∧ v.trappc = w.trappc ∧
      v.trapaddr = w.trapaddr ∧ v.trapmask = w.trapmask ∧ v.frame = w.frame := by
  have keeps {α : Type} (f : Wave → α) : f v.beside = f w.beside := congrArg f h.beside
  have hlanes := congrArg (List.map fun l : Lane => (l.x, l.y, l.z, l.item, l.n)) (keeps fun x => x.a.lanes)
  simp only [Wave.beside, List.map_map] at hlanes
  exact ⟨keeps fun x => x.a.mr, keeps fun x => x.a.mx, keeps fun x => x.a.seedlo, keeps fun x => x.a.seedhi, keeps fun x => x.a.sp,
    keeps fun x => x.a.mxbase, keeps fun x => x.a.mxplane, keeps fun x => x.a.tiles, keeps fun x => x.a.twins, hlanes, keeps fun x => x.a.entries,
    keeps fun x => x.a.live, keeps Wave.checkpoint, keeps Wave.trapcause, keeps Wave.trappc, keeps Wave.trapaddr, keeps Wave.trapmask, keeps Wave.frame⟩

/-- Settles O46: a word of the three classes that retires ends in one of few ways, each of which keeps what is no destination. -/
theorem wordFrame : Obligations.WordFrame := by
  unfold Obligations.WordFrame
  intro i c s t w v henc hlow hnot hhead hexec hv hretired
  obtain ⟨o, x, y, z, hbytes, hop⟩ := opcode_of_encode henc
  have hcounts : w.countsIn t (exec i s) := ⟨hexec, by rw [State.retiredOf, hv]; exact congrArg some hretired⟩
  obtain ⟨u, hu, hkeeps, hother, hmem⟩ := frames_of_encodeBytes hhead hbytes (by omega) hnot hcounts
  obtain rfl : u = v := Option.some.inj (hu.symm.trans hv)
  obtain ⟨hmr, hmx, hlo, hhi, hsp, hbase, hplane, htiles, htwins, hlanes, hentries, hlive, hcheck, hcause, hpc, haddr, hmask, hframe⟩ := hkeeps.fields
  exact ⟨hkeeps.scalars, hkeeps.vregs, hkeeps.preds, hmr, hmx, hlo, hhi, hsp, hbase, hplane, hkeeps.spill, htiles, htwins, hkeeps.flagged, hlanes,
    hentries, hlive, hcheck, hcause, hpc, haddr, hmask, hframe, hother, hmem⟩

end Sys2Proof.Machine
end

section
/-! What a party outside the launches writes to main memory, where no bit error is about (R273, R339, R344, R398): the bytes named, and no others. -/

namespace Sys2Proof.Machine

/-! ### One byte -/

/-- Is a byte of a home unit's memory one that no byte of another unit shares its place with? -/
def inUnit (u b : Nat) : Prop := u = 4 ∨ u < 4 ∧ b < 2 ^ 52

theorem State.canonical_iff (s : State) : s.mainCanonical = true ↔ s.hbm.wf = true ∧ s.hostMem.wf = true ∧ s.peerMem.wf = true := by
  rw [State.mainCanonical, Bool.and_eq_true, Bool.and_eq_true, and_assoc]

theorem State.canonical_writePhys {s : State} (h : s.mainCanonical = true) (k pa : Nat) (b : Byte) : (s.writePhys k pa b).mainCanonical = true :=
  (State.canonical_iff _).mpr (State.mainCanonical_writePhys k pa b ((State.canonical_iff s).mp h))

theorem State.readPhys_die (s : State) {k : Nat} (hk : k < 4) (x : Nat) : s.readPhys k x = s.hbm.read (hbmKey k x) := if_pos hk

theorem State.readPhys_host (s : State) (x : Nat) : s.readPhys 4 x = s.hostMem.read x := rfl

theorem State.writePhys_die (s : State) {k : Nat} (hk : k < 4) (x : Nat) (b : Byte) :
    s.writePhys k x b = { s with hbm := s.hbm.write (hbmKey k x) b } := if_pos hk

theorem State.writePhys_host (s : State) (x : Nat) (b : Byte) : s.writePhys 4 x b = { s with hostMem := s.hostMem.write x b } := rfl

/-- A byte written reads as written, and every other as before. -/
theorem State.readPhys_writePhys {s : State} (h : s.mainCanonical = true) {k pa v x : Nat} (b : Byte) (hk : inUnit k pa) (hv : inUnit v x) :
    (s.writePhys k pa b).readPhys v x = if v = k ∧ x = pa then b else s.readPhys v x := by
  obtain ⟨hhbm, hhost, -⟩ := (State.canonical_iff s).mp h
  rcases hk with rfl | ⟨hk, hpa⟩
  · rw [State.writePhys_host]
    rcases hv with rfl | ⟨hv, hx⟩
    · rw [State.readPhys_host, Memory.read_write _ _ _ hhost]
      simp only [true_and]
      rfl
    · rw [State.readPhys_die _ hv, if_neg (by omega), State.readPhys_die _ hv]
  · rw [State.writePhys_die _ hk]
    rcases hv with rfl | ⟨hv, hx⟩
    · rw [State.readPhys_host, if_neg (by omega)]
      rfl
    · rw [State.readPhys_die _ hv, Memory.read_write _ _ _ hhbm, State.readPhys_die _ hv]
      have hiff : hbmKey v x = hbmKey k pa ↔ v = k ∧ x = pa := by unfold hbmKey; omega
      rw [if_congr hiff rfl rfl]

/-! ### A run of bytes -/

/-- A state holds bytes at a place of a unit, and reads as another everywhere else. -/
def State.overlays (s t : State) (u pa : Nat) (bs : List Byte) : Prop :=
  ∀ v x, inUnit v x → t.readPhys v x = if v = u ∧ pa ≤ x ∧ x < pa + bs.length then nth bs (x - pa) 0 else s.readPhys v x

theorem State.overlays_nil (s : State) (u pa : Nat) : s.overlays s u pa [] := by
  intro v x _
  rw [if_neg (by simp only [List.length_nil]; omega)]

/-- A run of bytes is its first byte, and then the rest. -/
theorem State.overlays_cons {s t u : State} {k pa : Nat} {b : Byte} {bs : List Byte}
    (hfirst : ∀ v x, inUnit v x → t.readPhys v x = if v = k ∧ x = pa then b else s.readPhys v x) (hrest : t.overlays u k (pa + 1) bs) :
    s.overlays u k pa (b :: bs) := by
  intro v x hx
  rw [hrest v x hx, hfirst v x hx, List.length_cons]
  by_cases hv : v = k
  · by_cases hpa : x = pa
    · rw [if_neg (by omega), if_pos ⟨hv, hpa⟩, if_pos (by omega), hpa, Nat.sub_self]
      rfl
    · rw [if_neg (c := v = k ∧ x = pa) (by omega)]
      by_cases hin : pa + 1 ≤ x ∧ x < pa + 1 + bs.length
      · rw [if_pos ⟨hv, hin⟩, if_pos (by omega), show x - pa = x - (pa + 1) + 1 by omega]
        rfl
      · rw [if_neg (by omega), if_neg (by omega)]
  · rw [if_neg (by omega), if_neg (by omega), if_neg (by omega)]

theorem inUnit_succ {u pa n : Nat} (h : u = 4 ∨ u < 4 ∧ pa + (n + 1) ≤ 2 ^ 52) : inUnit u pa ∧ (u = 4 ∨ u < 4 ∧ pa + 1 + n ≤ 2 ^ 52) :=
  ⟨h.imp_right fun h => ⟨h.1, by omega⟩, h.imp_right fun h => ⟨h.1, by omega⟩⟩

/-- Writing bytes of a unit. -/
theorem State.overlays_writePhysBytes {s : State} (h : s.mainCanonical = true) {u pa : Nat} {bs : List Byte}
    (hu : u = 4 ∨ u < 4 ∧ pa + bs.length ≤ 2 ^ 52) :
    (s.writePhysBytes u pa bs).mainCanonical = true ∧ s.overlays (s.writePhysBytes u pa bs) u pa bs := by
  induction bs generalizing s pa with
  | nil => exact ⟨h, s.overlays_nil u pa⟩
  | cons b bs ih =>
    obtain ⟨hfirst, hrest⟩ := inUnit_succ hu
    obtain ⟨hcanon, hover⟩ := ih (State.canonical_writePhys h u pa b) hrest
    exact ⟨hcanon, State.overlays_cons (fun v x hx => State.readPhys_writePhys h b hfirst hx) hover⟩

/-! ### A party outside the launches (R344, R372) -/

theorem State.shadowOf_none (s : State) (m : MainAt) : s.shadowOf none m = none := List.find?_eq_none.mpr fun _ _ => Bool.false_ne_true

/-- A byte of committed memory, written for no launch. -/
theorem State.writeMain_none (s : State) (m : MainAt) (b : Byte) :
    s.writeMain none m b = ((s.noteOwn none m).noteOthers none m).writeCommitted m b := by
  unfold State.writeMain
  rw [State.shadowed, Option.bind_none]
  simp only [State.shadowOf_none]

/-- The state is one without bit errors and in the canonical form. -/
def State.calm (s : State) : Prop := s.softErrors = [] ∧ s.mainCanonical = true

theorem State.writeMain_none_reads {s : State} (h : s.calm) {u pa : Nat} (b : Byte) (hu : inUnit u pa) :
    (s.writeMain none ⟨u, pa⟩ b).calm ∧
      ∀ v x, inUnit v x → (s.writeMain none ⟨u, pa⟩ b).readPhys v x = if v = u ∧ x = pa then b else s.readPhys v x := by
  have hunit : u ≤ 4 := by unfold inUnit at hu; omega
  have hnoted : ((s.noteOwn none ⟨u, pa⟩).noteOthers none ⟨u, pa⟩).mainCanonical = true := h.2
  rw [State.writeMain_none, State.writeCommitted, if_pos hunit]
  refine ⟨⟨?_, State.canonical_writePhys hnoted u pa b⟩, fun v x hx => ?_⟩
  · rw [State.writePhys]
    split <;> exact h.1
  · rw [State.readPhys_writePhys hnoted b hu hx]
    rfl

theorem State.overlays_writeMainBytes {s : State} (h : s.calm) {u pa : Nat} {bs : List Byte} (hu : u = 4 ∨ u < 4 ∧ pa + bs.length ≤ 2 ^ 52) :
    (s.writeMainBytes none ⟨u, pa⟩ bs).calm ∧ s.overlays (s.writeMainBytes none ⟨u, pa⟩ bs) u pa bs := by
  induction bs generalizing s pa with
  | nil => exact ⟨h, s.overlays_nil u pa⟩
  | cons b bs ih =>
    obtain ⟨hfirst, hrest⟩ := inUnit_succ hu
    obtain ⟨hcalm, hreads⟩ := State.writeMain_none_reads h b hfirst
    obtain ⟨hcalm', hover⟩ := ih hcalm hrest
    exact ⟨hcalm', State.overlays_cons hreads hover⟩

theorem State.lineError_calm {s : State} (h : s.softErrors = []) (m : MainAt) : s.lineError m = none := by rw [State.lineError, h]; rfl

theorem State.lineBad_calm {s : State} (h : s.softErrors = []) (m : MainAt) : s.lineBad m = false := by rw [State.lineBad, State.lineError_calm h]; rfl

theorem State.correctLine_calm {s : State} (h : s.softErrors = []) (ctx : Nat) (m : MainAt) : s.correctLine ctx m = s := by
  rw [State.correctLine, State.lineError_calm h]

theorem State.clearLine_calm {s : State} (h : s.softErrors = []) (m : MainAt) : s.clearLine m = s := by
  rw [State.clearLine, State.dropLineError, State.lineError_calm h]
  rfl

theorem State.storeIn_calm {s : State} (h : s.softErrors = []) (ctx : Nat) (m : MainAt) (bs : List Byte) (whole : Bool) :
    s.storeIn none ctx m bs whole = (s.writeMainBytes none m bs).healEntries m bs.length := by
  have hlost : s.lost none m = false := by simp only [State.lost, State.shadowOf_none, State.lineBad_calm h]
  have hwhole : s.makeWhole none m = s := by
    unfold State.makeWhole
    rw [State.shadowed, Option.bind_none]
    simp only [State.shadowOf_none, State.clearLine_calm h]
  have hread : s.readLine none ctx m = s := by simp only [State.readLine, State.shadowOf_none, State.correctLine_calm h]
  unfold State.storeIn
  rw [hlost, Bool.and_false, if_neg Bool.false_ne_true, hwhole, hread, ite_self]
  dsimp only
  rw [State.shadowOf_none, if_pos Option.isNone_none]

theorem State.healEntries_reads (s : State) (m : MainAt) (n v x : Nat) : (s.healEntries m n).readPhys v x = s.readPhys v x := by
  unfold State.healEntries
  dsimp only
  split <;> rfl

theorem State.healEntries_calm {s : State} (h : s.calm) (m : MainAt) (n : Nat) : (s.healEntries m n).calm := by
  unfold State.healEntries
  dsimp only
  split
  · exact h
  · exact h

theorem State.overlays_storeIn {s : State} (h : s.calm) {u pa : Nat} {bs : List Byte} (hu : u = 4 ∨ u < 4 ∧ pa + bs.length ≤ 2 ^ 52) (ctx : Nat)
    (whole : Bool) : (s.storeIn none ctx ⟨u, pa⟩ bs whole).calm ∧ s.overlays (s.storeIn none ctx ⟨u, pa⟩ bs whole) u pa bs := by
  obtain ⟨hcalm, hover⟩ := State.overlays_writeMainBytes h hu
  rw [State.storeIn_calm h.1]
  exact ⟨State.healEntries_calm hcalm _ _, fun v x hx => (State.healEntries_reads ..).trans (hover v x hx)⟩

/-! ### Bytes across lines (R339) -/

theorem mem_granules {a n : Nat} {x : Nat × Nat} (h : x ∈ granules 64 a n) : a ≤ x.1 ∧ x.1 + x.2 ≤ a + n := by
  obtain ⟨k, hk, rfl⟩ := List.mem_map.mp h
  have hk := List.mem_range.mp hk
  dsimp only
  omega

/-- Each byte of a run lies in one of its granules. -/
theorem granules_cover {a n b : Nat} (h : a ≤ b) (hb : b < a + n) : ∃ x ∈ granules 64 a n, x.1 ≤ b ∧ b < x.1 + x.2 := by
  refine ⟨_, List.mem_map.mpr ⟨b / 64 - a / 64, List.mem_range.mpr ?_, rfl⟩, ?_⟩
  · omega
  · dsimp only
    omega

/-- Writes of parts of one run, in any order: each byte that a part names reads as the run has it. -/
theorem State.overlays_parts {u pa : Nat} {bs : List Byte} {f : State → Nat × Nat → State} (gs : List (Nat × Nat))
    (hparts : ∀ x ∈ gs, pa ≤ x.1 ∧ x.1 + x.2 ≤ pa + bs.length)
    (hf : ∀ t x, x ∈ gs → t.calm → (f t x).calm ∧ t.overlays (f t x) u x.1 ((bs.drop (x.1 - pa)).take x.2)) {s : State} (h : s.calm) :
    (gs.foldl f s).calm ∧ ∀ v x, inUnit v x → (gs.foldl f s).readPhys v x =
      if v = u ∧ ∃ g ∈ gs, g.1 ≤ x ∧ x < g.1 + g.2 then nth bs (x - pa) 0 else s.readPhys v x := by
  induction gs generalizing s with
  | nil => exact ⟨h, fun v x _ => by simp⟩
  | cons g gs ih =>
    obtain ⟨hcalm, hover⟩ := hf s g List.mem_cons_self h
    obtain ⟨hcalm', hreads⟩ := ih (fun x hx => hparts x (List.mem_cons_of_mem _ hx)) (fun t x hx => hf t x (List.mem_cons_of_mem _ hx)) hcalm
    refine ⟨hcalm', fun v x hx => ?_⟩
    have hlen : ((bs.drop (g.1 - pa)).take g.2).length = g.2 := by
      rw [List.length_take, List.length_drop]
      have hg := hparts g List.mem_cons_self
      omega
    rw [List.foldl_cons, hreads v x hx, hover v x hx, hlen]
    by_cases hrest : v = u ∧ ∃ y ∈ gs, y.1 ≤ x ∧ x < y.1 + y.2
    · obtain ⟨hv, y, hy, hyx⟩ := hrest
      rw [if_pos ⟨hv, y, hy, hyx⟩, if_pos ⟨hv, y, List.mem_cons_of_mem _ hy, hyx⟩]
    · rw [if_neg hrest]
      by_cases hhere : v = u ∧ g.1 ≤ x ∧ x < g.1 + g.2
      · obtain ⟨hv, hlo, hhi⟩ := hhere
        rw [if_pos ⟨hv, hlo, hhi⟩, if_pos ⟨hv, g, List.mem_cons_self, hlo, hhi⟩]
        have hg := hparts g List.mem_cons_self
        rw [nth, nth, List.getElem?_take_of_lt (by omega), List.getElem?_drop, show g.1 - pa + (x - g.1) = x - pa by omega]
      · rw [if_neg hhere, if_neg]
        rintro ⟨hv, y, hy, hyx⟩
        rcases List.mem_cons.mp hy with rfl | hy
        · exact hhere ⟨hv, hyx⟩
        · exact hrest ⟨hv, y, hy, hyx⟩

/-- R344, R398: bytes stored from outside the launches stand at their place, and no other byte changes. -/
theorem State.overlays_storePage {s : State} (h : s.calm) {u pa : Nat} {bs : List Byte} (hu : u = 4 ∨ u < 4 ∧ pa + bs.length ≤ 2 ^ 52) (ctx : Nat) :
    (s.storePage none ctx ⟨u, pa⟩ bs).calm ∧ s.overlays (s.storePage none ctx ⟨u, pa⟩ bs) u pa bs := by
  have hlen (x : Nat × Nat) : ((bs.drop (x.1 - pa)).take x.2).length ≤ x.2 := by rw [List.length_take]; omega
  obtain ⟨hcalm, hreads⟩ := State.overlays_parts (u := u) (pa := pa) (bs := bs)
    (f := fun s x => s.storeIn none ctx ⟨u, x.1⟩ ((bs.drop (x.1 - pa)).take x.2) (decide (x.2 = 64))) (granules 64 pa bs.length)
    (fun x hx => mem_granules hx) (fun t x hx ht => State.overlays_storeIn ht (hu.imp_right fun hu => ⟨hu.1, by
      have hle := hlen x
      have hbound := mem_granules hx
      omega⟩) ctx _) h
  refine ⟨hcalm, fun v x hx => (hreads v x hx).trans ?_⟩
  refine if_congr (and_congr_right fun _ => ⟨?_, fun ⟨hlo, hhi⟩ => granules_cover hlo hhi⟩) rfl rfl
  rintro ⟨g, hg, hlo, hhi⟩
  have := mem_granules hg
  omega

/-- A run written holds what was written, and outside it nothing changed. -/
theorem State.overlays_holds {s t : State} {u pa : Nat} {bs : List Byte} (h : s.overlays t u pa bs) (hu : u = 4 ∨ u < 4 ∧ pa + bs.length ≤ 2 ^ 52) :
    t.holdsAt u pa bs ∧ s.sameOutside t [(u, pa, bs.length)] := by
  refine ⟨fun j hj => ?_, fun v x hv hx hout => ?_⟩
  · rw [h u (pa + j) (hu.imp_right fun hu => ⟨hu.1, by omega⟩), if_pos ⟨rfl, by omega, by omega⟩, Nat.add_sub_cancel_left]
  · have hin : inUnit v x := by unfold inUnit; omega
    rw [h v x hin, if_neg]
    rintro ⟨rfl, hlo, hhi⟩
    have := hout _ (List.mem_singleton.mpr rfl) rfl
    dsimp only at this
    omega

end Sys2Proof.Machine
end

section
/-! What the device's own writes keep of a launch that replays (R348, R372): its progress, which waves are its, and the shadows. -/

namespace Sys2Proof.Machine

/-- How far a launch has come, and whether it replays. -/
def Launch.progress (l : Launch) : Nat × Bool × Bool × Nat × Nat := (l.key, l.replayed, l.replaying, l.dealer, l.items)

/-- The progress of the launches, the launch of each wave, and the shadows. -/
def State.life (s : State) : List (Nat × Bool × Bool × Nat × Nat) × List Nat × List Shadow :=
  (s.launches.map Launch.progress, s.waves.map Wave.launch, s.shadows)

theorem State.mapLaunches_life (s : State) {f : Launch → Launch} (h : ∀ l, (f l).progress = l.progress) :
    State.life { s with launches := s.launches.map f } = s.life := by
  simp [State.life, Function.comp_def, h]

@[simp] theorem State.logIntegrityAt_life (s : State) (time : Nat) (f : LogFields) : (s.logIntegrityAt time f).life = s.life := by
  unfold State.logIntegrityAt
  split <;> rfl

@[simp] theorem State.logIntegrity_life (s : State) (f : LogFields) : (s.logIntegrity f).life = s.life := s.logIntegrityAt_life s.clock f

@[simp] theorem State.logError_life (s : State) (va ctx home cause source index : Nat) : (s.logError va ctx home cause source index).life = s.life := by
  unfold State.logError
  split <;> rfl

theorem State.killLaunches_life (s : State) (keys : List Nat) : (s.killLaunches keys).life = s.life := by
  have hwaves (dead : Wave → Bool) : (s.waves.map fun w => if dead w = true then w.kill else w).map Wave.launch = s.waves.map Wave.launch := by
    rw [List.map_map]
    exact List.map_congr_left fun w _ => by simp only [Function.comp_apply]; split <;> rfl
  have hlaunches (f : Launch → Bool) : (s.launches.map fun l => if f l = true then { l with killed := true, replayable := l.replayable } else l).map
      Launch.progress = s.launches.map Launch.progress := by
    rw [List.map_map]
    exact List.map_congr_left fun l _ => by simp only [Function.comp_apply]; split <;> rfl
  exact Prod.ext (hlaunches _) (Prod.ext (hwaves _) rfl)

@[simp] theorem State.contextFault_life (s : State) (ctx : Nat) (f : LogFields) : (s.contextFault ctx f).life = s.life :=
  (State.logIntegrity_life _ _).trans (s.killLaunches_life _)

@[simp] theorem State.corrected_life (s : State) (ctx : Nat) : (s.corrected ctx none).life = s.life := by
  unfold State.corrected
  dsimp only
  split
  · rw [State.contextFault_life, State.logIntegrity_life]
    rfl
  · rfl

@[simp] theorem State.writePhys_life (s : State) (k pa : Nat) (b : Byte) : (s.writePhys k pa b).life = s.life := by
  unfold State.writePhys
  split <;> rfl

@[simp] theorem State.writePhysBytes_life (s : State) (k pa : Nat) (bs : List Byte) : (s.writePhysBytes k pa bs).life = s.life := by
  induction bs generalizing s pa with
  | nil => rfl
  | cons b bs ih => exact (ih _ _).trans (s.writePhys_life k pa b)

@[simp] theorem State.correctLine_life (s : State) (ctx : Nat) (m : MainAt) : (s.correctLine ctx m).life = s.life := by
  unfold State.correctLine
  split
  · split
    · rfl
    · exact State.corrected_life _ ctx
  · rfl

@[simp] theorem State.dropLineError_life (s : State) (m : MainAt) : (s.dropLineError m).life = s.life := by
  unfold State.dropLineError
  split <;> rfl

@[simp] theorem State.clearLine_life (s : State) (m : MainAt) : (s.clearLine m).life = s.life := by
  unfold State.clearLine
  dsimp only
  split
  · rw [State.logIntegrity_life, State.dropLineError_life]
  · exact State.dropLineError_life s m

@[simp] theorem State.markLine_life (s : State) (m : MainAt) : (s.markLine m).life = s.life := by
  unfold State.markLine
  split <;> rfl

@[simp] theorem State.healEntries_life (s : State) (m : MainAt) (n : Nat) : (s.healEntries m n).life = s.life := by
  unfold State.healEntries
  dsimp only
  split <;> rfl

@[simp] theorem State.writeCommitted_life (s : State) (m : MainAt) (b : Byte) : (s.writeCommitted m b).life = s.life := by
  unfold State.writeCommitted
  split
  · exact s.writePhys_life ..
  · rfl

@[simp] theorem State.noteOwn_life (s : State) (l : Option Nat) (m : MainAt) : (s.noteOwn l m).life = s.life :=
  s.mapLaunches_life fun x => by split <;> rfl

@[simp] theorem State.noteOthers_life (s : State) (l : Option Nat) (m : MainAt) : (s.noteOthers l m).life = s.life :=
  s.mapLaunches_life fun x => by split <;> rfl

/-! Stores for no launch. -/

theorem State.writeMainBytes_life (s : State) (m : MainAt) (bs : List Byte) : (s.writeMainBytes none m bs).life = s.life := by
  induction bs generalizing s m with
  | nil => rfl
  | cons b bs ih =>
    refine (ih _ _).trans ?_
    rw [State.writeMain_none]
    simp

theorem State.storeIn_life (s : State) (ctx : Nat) (m : MainAt) (bs : List Byte) (whole : Bool) : (s.storeIn none ctx m bs whole).life = s.life := by
  have hlost : s.markLost none m = s.markLine m := by simp only [State.markLost, State.shadowOf_none]
  have hwhole : s.makeWhole none m = s.clearLine m := by
    unfold State.makeWhole
    rw [State.shadowed, Option.bind_none]
    simp only [State.shadowOf_none]
  have hread : s.readLine none ctx m = s.correctLine ctx m := by simp only [State.readLine, State.shadowOf_none]
  unfold State.storeIn
  rw [hlost, hwhole, hread]
  split
  · exact s.markLine_life m
  · dsimp only
    rw [State.shadowOf_none, if_pos Option.isNone_none, State.healEntries_life, State.writeMainBytes_life]
    split
    · exact s.clearLine_life m
    · exact s.correctLine_life ctx m

/-! Accesses of the device. -/

@[simp] theorem State.hostWritten_life (s : State) (unit : Nat) : (s.hostWritten unit).life = s.life := by
  unfold State.hostWritten
  split <;> rfl

@[simp] theorem State.answeredBy_life (s : State) (va : Nat) : (s.answeredBy va).life = s.life := by
  unfold State.answeredBy
  split <;> rfl

@[simp] theorem State.raiseFault_life (s : State) (unit ctx va level op source : Nat) : (s.raiseFault unit ctx va level op source).1.life = s.life := by
  unfold State.raiseFault
  dsimp only
  split
  · rfl
  · split
    · rfl
    · exact (State.hostWritten_life _ unit).trans (s.writePhysBytes_life ..)

theorem State.onHome_life (s : State) (k : Nat) (f : Home → Home) : (s.onHome k f).life = s.life := rfl

@[simp] theorem State.reportPoison_life (s : State) (ctx home source table index : Nat) : (s.reportPoison ctx home source table index).life = s.life := by
  simp [State.reportPoison, apply_ite State.life, State.onHome_life]

@[simp] theorem State.deviceFailed_life (s : State) (ctx op : Nat) (e : DeviceErr) : (s.deviceFailed ctx op e).life = s.life := by
  cases e with
  | later => rfl
  | again => rfl
  | fault va level => exact s.raiseFault_life ..
  | poisoned va table i => simp [State.deviceFailed]
  | refused va c => simp [State.deviceFailed]
  | uncorrectable m => simp [State.deviceFailed]

theorem State.deviceWriteBy_life {s t : State} {put : State → MainAt → List Byte → Bool → State}
    (hput : ∀ s m bs whole, (put s m bs whole).life = s.life) {ctx va : Nat} {bs : List Byte} (h : s.deviceWriteBy put ctx va bs = .ok t) :
    t.life = s.life := by
  unfold State.deviceWriteBy at h
  split at h
  · cases h
  · cases h
    rw [State.answeredBy_life, State.hostWritten_life]
    refine foldl_keeps (fun s x => ?_) _ s
    split
    · exact hput ..
    · rfl

theorem State.storeUnnoted_life (s : State) (ctx : Nat) (m : MainAt) (bs : List Byte) (whole : Bool) : (s.storeUnnoted ctx m bs whole).life = s.life :=
  ((s.storeIn none ctx m bs whole).mapLaunches_life fun x => by split <;> rfl).trans (s.storeIn_life ctx m bs whole)

theorem State.logWrite_life (s : State) (l : Launch) (va : Nat) (bs : List Byte) : (s.logWrite l va bs).life = s.life := by
  unfold State.logWrite
  split
  next t h => exact State.deviceWriteBy_life (fun s m bs whole => s.storeUnnoted_life l.ctx m bs whole) h
  next e h => exact s.deviceFailed_life l.ctx 1 e

theorem State.writeHeader_life (s : State) (lk : Nat) : (s.writeHeader lk).life = s.life := by
  unfold State.writeHeader
  split
  · rfl
  · split
    · rfl
    · exact s.logWrite_life ..

/-- A launch is found with the same progress where the progress of all is the same. -/
theorem State.launch?_of_life {s t : State} (h : t.life = s.life) {k : Nat} {x : Launch} (hx : s.launch? k = some x) :
    ∃ y, t.launch? k = some y ∧ y.progress = x.progress := by
  have hlist : t.launches.map Launch.progress = s.launches.map Launch.progress := congrArg Prod.fst h
  have hfind (u : State) : (u.launch? k).map Launch.progress = (u.launches.map Launch.progress).find? fun y => y.1 == k := by
    rw [List.find?_map]
    rfl
  have hmap : (t.launch? k).map Launch.progress = some x.progress := by rw [hfind, hlist, ← hfind, hx]; rfl
  obtain ⟨y, hy, hprogress⟩ := Option.map_eq_some_iff.mp hmap
  exact ⟨y, hy, hprogress⟩

end Sys2Proof.Machine
end

section
/-! The host's accesses and registers (R291, R324, R396-R398), the loss of the link, the reset and the firmware (R395, R401, R403). -/

namespace Sys2Proof.Machine

/-! ### The accepted words (R380) -/

theorem offered_zero : offered 0 = 0xFF := by decide

theorem acceptFeature_ignored {s : State} {k : Nat} {v : Word32} (h : s.contexts ≠ [] ∨ 4 ≤ k ∨ k = 0 ∧ v.getLsbD 0 = false) :
    s.acceptFeature k v = s := by
  unfold State.acceptFeature
  refine if_pos ?_
  rcases h with h | h | ⟨rfl, h⟩
  · simp [h]
  · simp [h]
  · have hbit : (v &&& offered 0).getLsbD 0 = false := by rw [BitVec.getLsbD_and, h, Bool.false_and]
    rw [hbit]
    simp

theorem acceptFeature_takes {s : State} {k : Nat} {v : Word32} (hctx : s.contexts = []) (hk : k < 4) (hv : k = 0 → v.getLsbD 0 = true) :
    s.acceptFeature k v = { s with faccept := s.faccept.set k (if k = 0 then v &&& 0xFF else 0) } := by
  have hword : v &&& offered k = if k = 0 then v &&& 0xFF else 0 := by
    by_cases h : k = 0
    · rw [if_pos h, h, offered_zero]
    · rw [if_neg h, offered, if_neg h]
      exact BitVec.and_zero
  unfold State.acceptFeature
  dsimp only
  rw [if_neg, hword]
  · rfl
  · by_cases h : k = 0
    · have hbit : (v &&& offered k).getLsbD 0 = true := by
        rw [BitVec.getLsbD_and, hv h, h, offered_zero]
        decide
      rw [hbit, hctx, h]
      decide
    · simp [hctx, h, hk]

/-! ### Registers (R291, R396) -/

theorem writeField_beside {n x at_ off : Nat} {bs : List Byte} (h : off + bs.length ≤ at_ ∨ at_ + n ≤ off) : writeField n x at_ off bs = none := by
  have hlen : (leBytes n x).length = n := by
    induction n generalizing x with
    | zero => rfl
    | succ n ih => rw [leBytes, List.length_cons, ih]; omega
  rw [writeField, overlay, if_neg (by omega)]
  rfl

theorem writeField_doorbell : writeField 4 0 0x140 0x140 (leBytes 4 1) = some 1 := by decide

/-! ### An access of one line (R398) -/

/-- A run within one line is one granule. -/
theorem granules_line {off n : Nat} (hn : 0 < n) (h : off % 64 + n ≤ 64) : granules 64 off n = [(off, n)] := by
  have hcount : (off % 64 + n + 64 - 1) / 64 = 1 := by omega
  rw [granules, hcount, List.range_one, List.map_singleton]
  congr 1
  refine Prod.ext ?_ ?_
  · dsimp only
    omega
  · dsimp only
    omega

/-- The length of an access: that of what it writes, or what it names. -/
theorem hostMemAccess_eq (range off len : Nat) (wr : Option (List Byte)) (s : State) :
    exec (.hostMemAccess range off len wr) s = .next ((granules 64 off ((wr.map List.length).getD len)).foldl (fun s x =>
      if range = 0 then (if x.1 < 2 ^ 43 then s.hostPhys x.1 x.2 (wr.map fun bs => (bs.drop (x.1 - off)).take x.2) else s)
      else if range = 1 then (if x.1 < 2 ^ 50 then s.hostVirt x.1 x.2 (wr.map fun bs => (bs.drop (x.1 - off)).take x.2) else s)
      else if range = 2 then (if x.1 < 2 ^ 64 then s.hostOwn x.1 (wr.map fun bs => (bs.drop (x.1 - off)).take x.2) else s)
      else s) s) := by
  cases wr <;> rfl

theorem hostMemAccess_line {range off len : Nat} {wr : Option (List Byte)} {s : State} (hn : 0 < (wr.map List.length).getD len)
    (h : off % 64 + (wr.map List.length).getD len ≤ 64) :
    exec (.hostMemAccess range off len wr) s = .next
      (if range = 0 then (if off < 2 ^ 43 then s.hostPhys off ((wr.map List.length).getD len) wr else s)
      else if range = 1 then (if off < 2 ^ 50 then s.hostVirt off ((wr.map List.length).getD len) wr else s)
      else if range = 2 then (if off < 2 ^ 64 then s.hostOwn off wr else s)
      else s) := by
  have hpart : (wr.map fun bs => (bs.drop (off - off)).take ((wr.map List.length).getD len)) = wr := by
    cases wr with
    | none => rfl
    | some bs => simp
  rw [hostMemAccess_eq, granules_line hn h, List.foldl_cons, List.foldl_nil, hpart]

/-- Beyond its range an access changes nothing. -/
theorem hostMemAccess_beyond {range off len : Nat} {wr : Option (List Byte)} {s : State}
    (h : 3 ≤ range ∨ range = 0 ∧ 2 ^ 43 ≤ off ∨ range = 1 ∧ 2 ^ 50 ≤ off ∨ range = 2 ∧ 2 ^ 64 ≤ off) :
    exec (.hostMemAccess range off len wr) s = .next s := by
  have hkeeps (gs : List (Nat × Nat)) (hgs : ∀ x ∈ gs, off ≤ x.1) (f : State → Nat × Nat → State) (hf : ∀ t x, off ≤ x.1 → f t x = t) :
      gs.foldl f s = s := by
    induction gs with
    | nil => rfl
    | cons x gs ih => rw [List.foldl_cons, hf s x (hgs x List.mem_cons_self), ih fun y hy => hgs y (List.mem_cons_of_mem _ hy)]
  rw [hostMemAccess_eq]
  refine congrArg Host.Outcome.next (hkeeps _ (fun x hx => (mem_granules hx).1) _ fun t x hx => ?_)
  rcases h with h | ⟨rfl, h⟩ | ⟨rfl, h⟩ | ⟨rfl, h⟩
  · rw [if_neg (by omega), if_neg (by omega), if_neg (by omega)]
  · rw [if_pos rfl, if_neg (by omega)]
  · rw [if_neg (by omega), if_pos rfl, if_neg (by omega)]
  · rw [if_neg (by omega), if_neg (by omega), if_pos rfl, if_neg (by omega)]

/-! What a line of an access does at its home. -/

section
variable {s : State} {ctx n : Nat} {m : MainAt}

theorem State.hostLine_logged (wr : Option (List Byte)) (h : s.loggedAt m = true) : s.hostLine ctx m n wr = s := if_pos h

variable (h : s.loggedAt m = false)
include h

theorem State.hostLine_read : s.hostLine ctx m n none = if s.lineBad m then s.markLine m else s.correctLine ctx m :=
  if_neg (by rw [h]; exact Bool.false_ne_true)

theorem State.hostLine_write (bs : List Byte) :
    s.hostLine ctx m n (some bs) = if s.lineCopied m = true then s else s.storePage none ctx m (bs.take n) :=
  if_neg (by rw [h]; exact Bool.false_ne_true)

/-- Without errors a read changes nothing. -/
theorem State.hostLine_read_sound (herr : s.softErrors = []) : s.hostLine ctx m n none = s := by
  rw [State.hostLine_read h, State.lineBad_calm herr, State.correctLine_calm herr]
  rfl

/-- Without errors a write stands at its place, and no other byte changes. -/
theorem State.hostLine_write_stands {bs : List Byte} (hcopied : s.lineCopied m = false) (hcalm : s.calm)
    (hm : m.unit = 4 ∨ m.unit < 4 ∧ m.pa + bs.length ≤ 2 ^ 52) :
    (s.hostLine ctx m bs.length (some bs)).holdsAt m.unit m.pa bs ∧
      s.sameOutside (s.hostLine ctx m bs.length (some bs)) [(m.unit, m.pa, bs.length)] := by
  rw [State.hostLine_write h, hcopied, if_neg Bool.false_ne_true, List.take_length]
  exact State.overlays_holds (State.overlays_storePage hcalm hm ctx).2 hm

end

/-- The one error of a state, at a line, is the line's. -/
theorem State.lineError_one {s : State} {e : SoftErr} {d pa : Nat} (h : s.softErrors = [e]) (hsite : e.site = .hbm d (pa / 64)) :
    s.lineError ⟨d, pa⟩ = some e := by
  rw [State.lineError, h]
  simp [hsite]

/-! The three ranges. -/

section
variable {s : State} {d pa n : Nat} (hd : d < 4) (hpa : pa < 2 ^ 41)
include hd hpa

theorem State.hostPhys_refused (wr : Option (List Byte)) (h : s.bandTier d pa = none ∨ s.bandClosed d pa = true) :
    s.hostPhys (d * 2 ^ 41 + pa) n wr = s.logError (d * 2 ^ 56 + pa) 0xFFFF d 0x0D 0xFFFF 0 := by
  have hdie : (d * 2 ^ 41 + pa) / 2 ^ 41 = d := by omega
  have hoff : (d * 2 ^ 41 + pa) % 2 ^ 41 = pa := by omega
  unfold State.hostPhys
  rw [hdie, hoff]
  refine if_pos ?_
  rcases h with h | h <;> simp [h]

theorem State.hostPhys_line (wr : Option (List Byte)) (htier : (s.bandTier d pa).isSome = true) (hopen : s.bandClosed d pa = false) :
    s.hostPhys (d * 2 ^ 41 + pa) n wr = s.hostLine 0xFFFF ⟨d, pa⟩ n wr := by
  have hdie : (d * 2 ^ 41 + pa) / 2 ^ 41 = d := by omega
  have hoff : (d * 2 ^ 41 + pa) % 2 ^ 41 = pa := by omega
  have hle : ¬d ≥ Config.dies := not_le.mpr hd
  obtain ⟨t, ht⟩ := Option.isSome_iff_exists.mp htier
  unfold State.hostPhys
  rw [hdie, hoff]
  exact if_neg (by simp [hle, ht, hopen])

end

/-- A change of a home that leaves it as it is changes nothing. -/
theorem State.onHome_same {s : State} {k : Nat} {f : Home → Home} (h : f (s.home k) = s.home k) : s.onHome k f = s := by
  have hhomes : modifyAt s.homes k f = s.homes := by
    apply List.ext_getElem?
    intro j
    rw [modifyAt, List.getElem?_modify]
    cases hj : s.homes[j]? with
    | none => rfl
    | some x =>
      by_cases hk : k = j
      · have hx : s.home k = x := by
          rw [State.home, nth, hk, hj]
          rfl
        rw [hx] at h
        simp [hk, h]
      · simp [hk]
  rw [State.onHome, hhomes]

theorem State.takeWalked_absent {s : State} {k ctx va : Nat} (h : (ctx, pageOf va) ∉ (s.home k).walked) : s.takeWalked k ctx va = (s, false) := by
  have hfilter : (s.home k).walked.filter (· != (ctx, pageOf va)) = (s.home k).walked := by
    refine List.filter_eq_self.mpr fun x hx => ?_
    rw [bne_iff_ne]
    rintro rfl
    exact h hx
  have hcontains : (s.home k).walked.contains (ctx, pageOf va) = false := by
    rw [← Bool.not_eq_true, List.contains_iff_mem]
    exact h
  unfold State.takeWalked
  dsimp only
  rw [State.onHome_same (congrArg (fun x => { s.home k with walked := x }) hfilter), hcontains]

section
variable {s : State} {home off n : Nat} (hhome : home < 4) (hoff : off < 2 ^ 48)
include hhome hoff

/-- The address of an access through range 1, as its home checks it. -/
theorem State.hostVirt_eq (wr : Option (List Byte)) :
    s.hostVirt (home * 2 ^ 48 + off) n wr =
      match s.outsideCheck home s.hctx.toNat (home * 2 ^ 56 + off) 0xFFFF (if wr.isSome = true then .write else .read) 4 with
      | (t, none) => t
      | (t, some l) => t.hostLine s.hctx.toNat ⟨home, l.place (home * 2 ^ 56 + off)⟩ n wr := by
  have hdiv : (home * 2 ^ 48 + off) / 2 ^ 48 = home := by omega
  have hmod : (home * 2 ^ 48 + off) % 2 ^ 48 = off := by omega
  unfold State.hostVirt
  rw [hdiv, hmod] <;> rfl

theorem State.hostVirt_asks (wr : Option (List Byte)) (hnone : (s.home home).cached s.hctx.toNat (home * 2 ^ 56 + off) = none)
    (hwalked : (s.hctx.toNat, pageOf (home * 2 ^ 56 + off)) ∉ (s.home home).walked) :
    s.hostVirt (home * 2 ^ 48 + off) n wr =
      s.onHome home fun h => h.ask ⟨s.hctx.toNat, pageOf (home * 2 ^ 56 + off), home * 2 ^ 56 + off, 4, 0xFFFF, false⟩ := by
  have htake := State.takeWalked_absent hwalked
  rw [State.hostVirt_eq hhome hoff]
  simp only [State.outsideCheck, State.outsideLeaf, unitOf_die hhome, hnone, htake]

section
variable {l : Leaf} (hl : (s.home home).cached s.hctx.toNat (home * 2 ^ 56 + off) = some l)
include hl

theorem State.hostVirt_refused (wr : Option (List Byte)) {c : Nat}
    (hc : s.checkLeaf home l (home * 2 ^ 56 + off) (if wr.isSome = true then .write else .read) none = some c) :
    s.hostVirt (home * 2 ^ 48 + off) n wr = s.logError (home * 2 ^ 56 + off) s.hctx.toNat home c 0xFFFF 0 := by
  rw [State.hostVirt_eq hhome hoff]
  simp only [State.outsideCheck, State.outsideLeaf, unitOf_die hhome, hl, hc]

theorem State.hostVirt_leaf (wr : Option (List Byte))
    (hc : s.checkLeaf home l (home * 2 ^ 56 + off) (if wr.isSome = true then .write else .read) none = none) :
    s.hostVirt (home * 2 ^ 48 + off) n wr =
      if s.logsFirst s.hctx.toNat home (home * 2 ^ 56 + off) l = true then s
      else s.hostLine s.hctx.toNat ⟨home, l.place (home * 2 ^ 56 + off)⟩ n wr := by
  rw [State.hostVirt_eq hhome hoff]
  simp only [State.outsideCheck, State.outsideLeaf, unitOf_die hhome, hl, hc]
  by_cases hlog : s.logsFirst s.hctx.toNat home (home * 2 ^ 56 + off) l = true
  · rw [if_pos hlog, if_pos hlog]
  · rw [if_neg hlog, if_neg hlog]

end

end

/-! ### Loss of the link (R395, R399) -/

/-- Faults of several contexts: each that is named has faulted for that cause. -/
theorem foldl_contextFault_faulted {f : LogFields} (cs : List Nat) {s : State}
    (h : ∀ x ∈ s.contexts, x.id ∈ cs ∨ x.faulted = true ∧ x.report = f.report) :
    ∀ x ∈ (cs.foldl (fun s c => s.contextFault c f) s).contexts, x.faulted = true ∧ x.report = f.report := by
  induction cs generalizing s with
  | nil => exact fun x hx => (h x hx).resolve_left (List.not_mem_nil)
  | cons c cs ih =>
    refine ih fun x hx => ?_
    change x ∈ (s.contextFault c f).contexts at hx
    rw [State.contextFault_eq] at hx
    obtain ⟨y, hy, rfl⟩ := List.mem_map.mp hx
    by_cases hc : (y.id == c) = true
    · rw [if_pos hc]
      exact .inr ⟨rfl, rfl⟩
    · rw [if_neg hc]
      rcases h y hy with hmem | hdone
      · exact .inl ((List.mem_cons.mp hmem).resolve_left (by simpa using hc))
      · exact .inr hdone

/-- And each accepted launch of such a context is killed. -/
theorem foldl_contextFault_killed {f : LogFields} {cs ids : List Nat} {s : State}
    (h : ∀ l ∈ s.launches, l.state ≠ .completed → l.ctx ∈ ids → l.ctx ∈ cs ∨ l.killed = true) :
    ∀ l ∈ (cs.foldl (fun s c => s.contextFault c f) s).launches, l.state ≠ .completed → l.ctx ∈ ids → l.killed = true := by
  induction cs generalizing s with
  | nil => exact fun l hl hstate hctx => (h l hl hstate hctx).resolve_left (List.not_mem_nil)
  | cons c cs ih =>
    refine ih fun l hl hstate hctx => ?_
    change l ∈ (s.contextFault c f).launches at hl
    by_cases hc : l.ctx = c
    · exact .inr (State.contextFault_killed s c f l hl hc hstate)
    · rw [State.contextFault_eq] at hl
      obtain ⟨y, hy, rfl⟩ := List.mem_map.mp hl
      by_cases hkill : ((s.faultedLaunches c).contains y.key && y.state != .completed) = true
      · rw [if_pos hkill]
        exact .inr rfl
      · rw [if_neg hkill] at hc hstate hctx ⊢
        exact (h y hy hstate hctx).imp_left fun hmem => (List.mem_cons.mp hmem).resolve_left hc

theorem linkLoss_faults (s : State) :
    (∀ w ∈ s.linkLoss.faccept, w = 0) ∧ (∀ m ∈ s.linkLoss.linkMasks, m = 0) ∧
      (∀ c ∈ s.linkLoss.contexts, c.faulted = true ∧ c.report.cause = trapUE) ∧
      ∀ l ∈ s.linkLoss.launches, l.state ≠ .completed → l.ctx ∈ s.contexts.map Context.id → l.killed = true := by
  refine ⟨fun w hw => List.eq_of_mem_replicate hw, fun m hm => List.eq_of_mem_replicate hm, fun c hc => ?_, fun l hl => ?_⟩
  · obtain ⟨hfaulted, hreport⟩ := foldl_contextFault_faulted (f := { LogFields.none with report := .ofCause trapUE }) _
      (fun x hx => .inl (List.mem_map_of_mem hx)) c hc
    exact ⟨hfaulted, by rw [hreport]; rfl⟩
  · exact foldl_contextFault_killed (fun _ _ _ hctx => .inl hctx) l hl

/-! ### Reset and firmware (R401, R403) -/

theorem resetRelease_stage (good : Bool) (header body : List Byte) (s : State) :
    ∃ t, exec (.resetRelease good header body) s = .next t ∧ t.waves = [] ∧ t.contexts = [] ∧ t.faccept = State.reset.faccept ∧
      t.linkMasks = State.reset.linkMasks ∧ t.hostMem = s.hostMem ∧
      (good = true → firmwareGood header body s.minSvn = true → t.stage = 2) ∧
      (good = false ∨ firmwareGood header body s.minSvn = false → t.stage = 0xE ∧ t.minSvn = s.minSvn) := by
  by_cases h : (good && firmwareGood header body s.minSvn) = true
  · obtain ⟨hgood, hfirm⟩ := (Bool.and_eq_true _ _).mp h
    refine ⟨_, if_pos h, rfl, rfl, rfl, rfl, rfl, fun _ _ => rfl, ?_⟩
    rintro (hno | hno)
    · exact absurd hgood (by rw [hno]; exact Bool.false_ne_true)
    · exact absurd hfirm (by rw [hno]; exact Bool.false_ne_true)
  · refine ⟨_, if_neg h, rfl, rfl, rfl, rfl, rfl, fun hgood hfirm => absurd ?_ h, fun _ => ⟨rfl, rfl⟩⟩
    rw [hgood, hfirm]
    rfl

theorem firmwareReady_opens {s : State} (h : s.stage = 2) :
    ∃ t, exec .firmwareReady s = .next t ∧ t.stage = 3 ∧ ∀ x ∈ t.homes, x.tiers = List.replicate 256 2 := by
  refine ⟨_, if_neg (not_not_intro h), rfl, fun x hx => ?_⟩
  obtain ⟨y, -, rfl⟩ := List.mem_map.mp hx
  rfl

end Sys2Proof.Machine
end

section
/-! Errors and the containment ladder (R334-R352): bit errors, the scrubber, the rollback of a region, and the replay of a launch. -/

namespace Sys2Proof.Machine

/-! ### Rollback and replay (R346, R348) -/

section
variable {s : State} {w : Wave} {d : Demand} (hw : s.wave? w.key = some w) (hdemand : w.demand = some d) (hquiet : w.quiet = true)
  (hsystem : w.system = false) (hdebug : d.event ≠ 0x12) (hreplay : d.event ≠ 0x20) (hinterval : w.inInterval = false) (hdue : w.checkpointDue = false)
include hw hdemand hquiet hsystem hdebug hreplay hinterval hdue

/-- What nothing defers is a restart, or escalates after a failure or without a checkpoint. -/
theorem regionRollback_eq : exec (.regionRollback w.key) s =
    if w.failures ≥ 1 ∨ w.checkpoint.isNone = true then .next (s.escalate w d) else .next (s.restartFor w d) := by
  have hwait : ¬((!w.quiet || w.system || decide (d.event = 0x20)) = true) := by simp [hquiet, hsystem, hreplay]
  have hmust : ¬w.mustEscalate d = true := by simp [Wave.mustEscalate, hinterval, hdue]
  have hdefer : ¬(w.inInterval && d.atIssue || w.checkpointDue) = true := by simp [hinterval, hdue]
  change execRegionRollback w.key s = _
  unfold execRegionRollback
  simp only [hw, hdemand]
  exact (if_neg (by simp [hquiet, hsystem, hreplay])).trans ((if_neg hdebug).trans ((if_neg hmust).trans (if_neg hdefer)))

/-- A wave whose checkpoint is sound rolls back. -/
theorem restartFor_sound {c : Checkpoint} (hc : w.checkpoint = some c) (hwrong : c.wrong = 0) : s.restartFor w d = s.rollback w d := by
  have hread : s.readCullet w = (s, false) := by
    unfold State.readCullet
    simp only [hc, hwrong, if_true]
  unfold State.restartFor
  simp only [hread, hw, hdemand, Option.isNone_some, Bool.false_eq_true, if_false, hdebug]

end

section
variable {s : State} {l : Launch} (hl : s.launch? l.key = some l) (hstate : l.state = .started) (hkilled : l.killed = false)
include hl hstate hkilled

/-- What a replay does with a launch that has started and is not killed. -/
theorem launchReplay_eq : exec (.launchReplay l.key) s =
    if (!l.replayable) = true then .next (s.contextFault l.ctx { LogFields.none with launchid := l.desc.launchid, context := l.ctx })
    else if (!l.replaying) = true then
      if (s.charge l.ctx 256).2 = true then
        .next (((s.charge l.ctx 256).1.logIntegrity
          { LogFields.none with launchid := l.desc.launchid, context := l.ctx, event := 0x31 }).contextFault l.ctx
          { LogFields.none with launchid := l.desc.launchid, context := l.ctx, report := .ofCause trapERRBUDGET })
      else .next ((((s.charge l.ctx 256).1.onLaunch l.key fun x => { x with replaying := true }).stopCrews fun c => c.launch == l.key).logIntegrity
        { LogFields.none with launchid := l.desc.launchid, context := l.ctx, event := 0x20 })
    else if (s.crews.any fun c => c.launch == l.key && c.placed) = true then .next s
    else match s.logHolds l with
    | some e => .next (s.deviceFailed l.ctx 1 e)
    | none => .next ((({ s.dropCrews l.key with
        shadows := (s.dropCrews l.key).shadows.filter fun y => y.launch != l.key
        sideLog := (s.dropCrews l.key).sideLog.filter fun e => e.launch != l.key }).onLaunch l.key Launch.again).writeHeader l.key) := by
  change execLaunchReplay l.key s = _
  unfold execLaunchReplay
  simp only [hl, hstate, hkilled]
  rfl

end

theorem State.launch?_onLaunch {s : State} {k : Nat} {l : Launch} {f : Launch → Launch} (hf : ∀ x, (f x).key = x.key) (h : s.launch? k = some l) :
    (s.onLaunch k f).launch? k = some (f l) := by
  have hkey (x : Launch) : (if (x.key == k) = true then f x else x).key = x.key := by
    split
    · exact hf x
    · rfl
  have hcomp : ((fun x : Launch => x.key == k) ∘ fun x => if (x.key == k) = true then f x else x) = fun x => x.key == k :=
    funext fun x => by rw [Function.comp_apply, hkey]
  have hl : (l.key == k) = true := by simpa using List.find?_some h
  rw [State.launch?, State.onLaunch, List.find?_map, hcomp]
  refine (congrArg (Option.map _) h).trans ?_
  rw [Option.map_some, if_pos hl]

/-- A charge that leaves a budget above zero. -/
theorem State.charge_left {s : State} {c n : Nat} (hn : n = 256) (h : ∀ x, s.context? c = some x → 256 < x.eb.toInt) :
    (s.charge c n).2 = false ∧ (s.charge c n).1.ebOf c = if (s.context? c).isSome = true then s.ebOf c - 256 else 0 := by
  subst hn
  have hfind : (s.charge c 256).1.context? c = (s.context? c).map fun x => { x with eb := x.eb - BitVec.ofNat 64 256 } := by
    cases hx : s.context? c with
    | none =>
      rw [Option.map_none, State.context?, List.find?_eq_none]
      intro y hy
      obtain ⟨z, hz, rfl⟩ := List.mem_map.mp hy
      have hne := List.find?_eq_none.mp hx z hz
      rw [if_neg hne]
      exact hne
    | some x =>
      obtain ⟨y, hy, heq⟩ := State.context?_onContext (f := fun x => { x with eb := x.eb - BitVec.ofNat 64 256 }) (fun _ => rfl)
        ((State.hasContext_iff s c).mpr ⟨x, List.mem_of_find?_eq_some hx, by simpa using List.find?_some hx⟩)
      rw [hx] at hy
      exact heq.trans (by rw [Option.some.inj hy]; rfl)
  have hlow : (s.charge c 256).2 = (((s.charge c 256).1.context? c).map fun x => decide (256 ≠ 0 ∧ x.eb.toInt ≤ 0)).getD false := rfl
  rw [hlow, State.ebOf, State.ebOf, hfind]
  cases hx : s.context? c with
  | none => exact ⟨rfl, rfl⟩
  | some x =>
    have hbudget := h x hx
    refine ⟨?_, rfl⟩
    have hpos : ¬(x.eb - BitVec.ofNat 64 256).toInt ≤ 0 := by
      have hlt := x.eb.isLt
      rw [BitVec.toInt_eq_toNat_cond] at hbudget ⊢
      rw [BitVec.toNat_sub, BitVec.toNat_ofNat]
      split at hbudget <;> split <;> omega
    rw [Option.map_some, Option.map_some, Option.getD_some, decide_eq_false_iff_not, not_and]
    exact fun _ => hpos

section
variable {s : State} {l : Launch} (hl : s.launch? l.key = some l) (hstate : l.state = .started) (hkilled : l.killed = false) (hreplayable : l.replayable = true)
include hl hstate hkilled hreplayable

/-- A replay begins: it is charged, and the launch's crews are asked to stop. -/
theorem launchReplay_begins (hreplaying : l.replaying = false) (hbudget : ∀ c, s.context? l.ctx = some c → 256 < c.eb.toInt) :
    ∃ t x, exec (.launchReplay l.key) s = .next t ∧ t.launch? l.key = some x ∧ x.replaying = true ∧
      t.ebOf l.ctx = (if (s.context? l.ctx).isSome = true then s.ebOf l.ctx - 256 else 0) ∧
      ∀ c ∈ t.crews, c.launch = l.key → c.placed = true → c.stopReq = true := by
  obtain ⟨hlow, heb⟩ := State.charge_left rfl hbudget
  have hexec := launchReplay_eq hl hstate hkilled
  rw [hreplayable, hreplaying, if_neg (by simp), if_pos (by simp), hlow, if_neg Bool.false_ne_true, State.logIntegrity_eq] at hexec
  refine ⟨_, _, hexec, State.launch?_onLaunch (f := fun x => { x with replaying := true }) (fun _ => rfl) hl, rfl, heb, fun c hc hlaunch hplaced => ?_⟩
  obtain ⟨y, -, rfl⟩ := List.mem_map.mp hc
  by_cases hstop : (y.placed && y.launch == l.key) = true
  · rw [if_pos hstop]
  · rw [if_neg hstop] at hlaunch hplaced
    exact absurd (by simp [hlaunch, hplaced]) hstop

/-- It goes on once no crew is placed: the launch is as at its start, and nothing of its waves and shadows is left. -/
theorem launchReplay_restarts (hreplaying : l.replaying = true) (hplaced : ∀ c ∈ s.crews, c.launch = l.key → c.placed = false)
    (hlog : s.logHolds l = none) :
    ∃ t x, exec (.launchReplay l.key) s = .next t ∧ t.launch? l.key = some x ∧ x.replayed = true ∧ x.replaying = false ∧ x.dealer = 0 ∧
      x.items = 0 ∧ (∀ w ∈ t.waves, w.launch ≠ l.key) ∧ ∀ y ∈ t.shadows, y.launch ≠ l.key := by
  have hnone : ¬(s.crews.any fun c => c.launch == l.key && c.placed) = true := by
    rw [List.any_eq_true]
    rintro ⟨c, hc, hboth⟩
    rw [Bool.and_eq_true, beq_iff_eq] at hboth
    rw [hplaced c hc hboth.1] at hboth
    exact Bool.false_ne_true hboth.2
  have hexec := launchReplay_eq hl hstate hkilled
  rw [hreplayable, hreplaying, if_neg (by simp), if_neg (by simp), if_neg hnone, hlog] at hexec
  dsimp only at hexec
  set u : State := { s.dropCrews l.key with
    shadows := (s.dropCrews l.key).shadows.filter fun y => y.launch != l.key
    sideLog := (s.dropCrews l.key).sideLog.filter fun e => e.launch != l.key } with hu
  have hlife : ((u.onLaunch l.key Launch.again).writeHeader l.key).life = (u.onLaunch l.key Launch.again).life := State.writeHeader_life ..
  obtain ⟨x, hx, hprogress⟩ := State.launch?_of_life hlife (State.launch?_onLaunch (fun _ => rfl) (show u.launch? l.key = some l from hl))
  have hwaves : ((u.onLaunch l.key Launch.again).writeHeader l.key).waves.map Wave.launch = u.waves.map Wave.launch := congrArg (fun y => y.2.1) hlife
  have hshadows : ((u.onLaunch l.key Launch.again).writeHeader l.key).shadows = u.shadows := congrArg (fun y => y.2.2) hlife
  simp only [Launch.progress, Launch.again, Prod.mk.injEq] at hprogress
  obtain ⟨-, hagain, hstopped, hdealer, hitems⟩ := hprogress
  refine ⟨_, x, hexec, hx, hagain, hstopped, hdealer, hitems, fun w hw => ?_, fun y hy => ?_⟩
  · have hmem : w.launch ∈ u.waves.map Wave.launch := hwaves ▸ List.mem_map_of_mem hw
    obtain ⟨v, hv, hlaunch⟩ := List.mem_map.mp hmem
    rw [← hlaunch]
    simpa using (List.mem_filter.mp hv).2
  · rw [hshadows] at hy
    simpa using (List.mem_filter.mp hy).2

end

/-! ### Bit errors (R334, R336) -/

theorem errorAt_other {s : State} {site : ErrSite} (h : ∀ k, site ≠ .cullet k) : s.errorAt site = s.softErrors.find? fun e => sameWord e.site site := by
  unfold State.errorAt
  split
  · next k => exact absurd rfl (h k)
  · rfl

theorem setError_other {s : State} {site : ErrSite} (h : ∀ k, site ≠ .cullet k) (bits : Nat) (poison : Bool) :
    s.setError site bits poison = { s with softErrors :=
      if bits = 0 then (s.softErrors.filter fun e => !sameWord e.site site)
      else (s.softErrors.filter fun e => !sameWord e.site site) ++ [⟨((s.errorAt site).map SoftErr.site).getD site, bits, poison⟩] } := by
  unfold State.setError
  split
  · next k => exact absurd rfl (h k)
  · rfl

/-- Errors of other words are those that a new error of a sound word leaves. -/
theorem filter_sound {s : State} {site : ErrSite} (h : ∀ k, site ≠ .cullet k) (hnone : s.errorAt site = none) :
    (s.softErrors.filter fun e => !sameWord e.site site) = s.softErrors := by
  rw [errorAt_other h] at hnone
  refine List.filter_eq_self.mpr fun e he => ?_
  simpa using List.find?_eq_none.mp hnone e he

theorem find?_filter_append {l : List SoftErr} {p : SoftErr → Bool} {e : SoftErr} (h : p e = true) : ((l.filter fun x => !p x) ++ [e]).find? p = some e := by
  rw [List.find?_append, List.find?_eq_none.mpr]
  · simp [h]
  · intro x hx
    simpa using (List.mem_filter.mp hx).2

/-- A word where an error is checked for, and which errors are entered for. -/
theorem softError_enters {s : State} {site : ErrSite} {n t : Nat} (htier : s.siteTier site = some t) (ht : t ≠ 0) (hn : n ≠ 0)
    (hold : t ≠ 1 ∨ (s.errorAt site).isSome = true) :
    exec (.softError site n) s = .next (s.setError site (((s.errorAt site).map SoftErr.bits).getD 0 + n) (((s.errorAt site).map SoftErr.poison).getD false)) := by
  change execSoftError site n s = _
  unfold execSoftError
  rw [htier]
  cases t with
  | zero => exact absurd rfl ht
  | succ t =>
    have hcheck : ¬(decide (t + 1 = 1) && (s.errorAt site).isNone) = true := by
      rcases hold with h | h
      · rw [decide_eq_false h]
        exact Bool.false_ne_true
      · simp [Option.isSome_iff_ne_none.mp h]
    refine (if_neg hcheck).trans ?_
    rw [if_neg hn]

theorem State.wave?_onWave {s : State} {k : Nat} {w : Wave} {f : Wave → Wave} (hf : ∀ x, (f x).key = x.key) (h : s.wave? k = some w) :
    (s.onWave k f).wave? k = some (f w) := by
  have hw : (w.key == k) = true := by simpa using List.find?_some h
  rw [State.wave?_map (s := s) (f := fun x => if (x.key == k) = true then f x else x) rfl, h, Option.map_some, if_pos hw]
  intro x
  split
  · exact hf x
  · rfl

/-- An error of a cullet line stands in the wave's checkpoint. -/
theorem softError_cullet {s : State} {k n : Nat} {w : Wave} {c : Checkpoint} (hw : s.wave? k = some w) (hc : w.checkpoint = some c) (hn : n ≠ 0) :
    ∃ t v, exec (.softError (.cullet k) n) s = .next t ∧ t.wave? k = some v ∧
      v.checkpoint = some { c with wrong := (if c.wrong = 0 then 0 else c.wrong) + n, poisoned := if c.wrong = 0 then false else c.poisoned } := by
  have htier : s.siteTier (.cullet k) = some 2 := by simp [State.siteTier, hw, hc]
  have hat : s.errorAt (.cullet k) = if c.wrong = 0 then none else some ⟨.cullet k, c.wrong, c.poisoned⟩ := by simp [State.errorAt, hw, hc]
  have hexec := softError_enters htier (by decide) hn (.inl (by decide))
  refine ⟨_, _, hexec, State.wave?_onWave (fun _ => rfl) hw, ?_⟩
  rw [hat]
  dsimp only
  rw [hc]
  by_cases hzero : c.wrong = 0
  · simp only [hzero, if_true]
    rfl
  · simp only [hzero, if_false]
    rfl

/-- A further error of a word adds to the one that is there. -/
theorem softError_adds {s : State} {site : ErrSite} {n t : Nat} {e : SoftErr} (htier : s.siteTier site = some t) (ht : t ≠ 0) (hn : n ≠ 0)
    (he : s.errorAt site = some e) : ∃ u, exec (.softError site n) s = .next u ∧ u.errorAt site = some ⟨e.site, e.bits + n, e.poison⟩ := by
  by_cases hcullet : ∃ k, site = .cullet k
  · obtain ⟨k, rfl⟩ := hcullet
    simp only [State.errorAt, Option.bind_eq_some_iff] at he
    obtain ⟨c, ⟨w, hw, hc⟩, hwrong⟩ := he
    by_cases hzero : c.wrong = 0
    · rw [if_pos hzero] at hwrong
      cases hwrong
    · rw [if_neg hzero] at hwrong
      obtain rfl := Option.some.inj hwrong
      obtain ⟨u, v, hexec, hv, hcheck⟩ := softError_cullet hw hc hn
      rw [if_neg hzero, if_neg hzero] at hcheck
      refine ⟨u, hexec, ?_⟩
      have hsum : c.wrong + n ≠ 0 := by omega
      simp only [State.errorAt, hv, Option.bind_some, hcheck]
      rw [if_neg hsum]
  · have hother : ∀ k, site ≠ .cullet k := fun k hk => hcullet ⟨k, hk⟩
    have hexec := softError_enters htier ht hn (.inr (by rw [he]; rfl))
    rw [setError_other hother, he] at hexec
    refine ⟨_, hexec, ?_⟩
    have hsum : e.bits + n ≠ 0 := by omega
    have hsame : sameWord e.site site = true := by
      rw [errorAt_other hother] at he
      simpa using List.find?_some he
    rw [errorAt_other hother]
    dsimp only [Option.map_some, Option.getD_some]
    rw [if_neg hsum]
    exact find?_filter_append (p := fun x => sameWord x.site site) hsame

/-! Lines of main memory that nothing corrects. -/

theorem flipAt_length (bs : List Byte) (k : Nat) : (flipAt bs k).length = bs.length := List.length_modify ..

theorem foldl_flipAt_length (flips : List Nat) (bs : List Byte) : (flips.foldl flipAt bs).length = bs.length :=
  foldl_keeps (g := List.length) flipAt_length flips bs

theorem spoilLine_length (bs : List Byte) (flips : List Nat) : (spoilLine bs flips).1.length = bs.length := by
  refine foldl_keeps (g := fun x : List Byte × BitVec 24 => x.1.length) (fun x k => ?_) flips (bs, crc24 bs)
  dsimp only
  split
  · exact flipAt_length x.1 k
  · rfl

theorem State.lineBytes_hbm_length (s : State) (d line : Nat) : (s.lineBytes (.hbm d line)).length = 64 := by
  simp [State.lineBytes, State.readPhysBytes]

/-- A line of a band lies among the bytes of its die. -/
theorem line_inDie {s : State} {d line t : Nat} (h : s.siteTier (.hbm d line) = some t) : d < 4 ∧ 64 * line + 64 ≤ 2 ^ 52 := by
  simp only [State.siteTier] at h
  have hdies : Config.dies = 4 := rfl
  have hspan : Config.bandSpan = 0x24000000 := rfl
  have hbands : Config.bandsPerDie = 256 := rfl
  split at h
  · next hd =>
    unfold State.bandTier at h
    dsimp only at h
    split at h
    · next hk => exact ⟨hdies ▸ hd, by rw [hspan, hbands] at hk; omega⟩
    · cases h
  · cases h

/-- Storing a line changes no byte of another. -/
theorem State.sameOutside_putLine {s : State} {d line : Nat} {bs : List Byte} (hcanon : s.mainCanonical = true) (hd : d < 4)
    (hline : 64 * line + 64 ≤ 2 ^ 52) (hbs : bs.length = 64) : s.sameOutside (s.putLine (.hbm d line) bs) [(d, 64 * line, 64)] := by
  have hu : d = 4 ∨ d < 4 ∧ 64 * line + bs.length ≤ 2 ^ 52 := .inr ⟨hd, hbs ▸ hline⟩
  have hover := (State.overlays_holds (State.overlays_writePhysBytes hcanon hu).2 hu).2
  rw [hbs] at hover
  exact hover

theorem State.writePhysBytes_softErrors (s : State) (k pa : Nat) (bs : List Byte) : (s.writePhysBytes k pa bs).softErrors = s.softErrors := by
  induction bs generalizing s pa with
  | nil => rfl
  | cons b bs ih =>
    refine (ih _ _).trans ?_
    unfold State.writePhys
    split <;> rfl

/-- An error of a bare or a checked line changes that line alone, or is entered. -/
theorem softError_line {s : State} {d line n t : Nat} (htier : s.siteTier (.hbm d line) = some t) (ht : t ≤ 1)
    (hnone : s.errorAt (.hbm d line) = none) (hcanon : s.mainCanonical = true) :
    ∃ u, exec (.softError (.hbm d line) n) s = .next u ∧ s.sameOutside u [(d, 64 * line, 64)] ∧ (t = 0 → u.softErrors = s.softErrors) ∧
      (t = 1 → u.softErrors = s.softErrors ∨ u.softErrors = s.softErrors ++ [⟨.hbm d line, max 2 n, false⟩]) := by
  obtain ⟨hd, hline⟩ := line_inDie htier
  have hother : ∀ k, ErrSite.hbm d line ≠ .cullet k := fun _ => nofun
  have hlen := s.lineBytes_hbm_length d line
  obtain rfl | rfl : t = 0 ∨ t = 1 := by omega
  · have hexec : exec (.softError (.hbm d line) n) s =
        .next ((s.drawBits n 512).2.putLine (.hbm d line) ((s.drawBits n 512).1.foldl flipAt (s.lineBytes (.hbm d line)))) := by
      change execSoftError (.hbm d line) n s = _
      unfold execSoftError
      rw [htier]
      rfl
    refine ⟨_, hexec, ?_, fun _ => State.writePhysBytes_softErrors .., fun h => absurd h (by decide)⟩
    exact State.sameOutside_putLine (s := (s.drawBits n 512).2) hcanon hd hline ((foldl_flipAt_length ..).trans hlen)
  · have hexec : exec (.softError (.hbm d line) n) s = .next
        (if crc24 (spoilLine (s.lineBytes (.hbm d line)) (s.drawBits n 536).1).1 = (spoilLine (s.lineBytes (.hbm d line)) (s.drawBits n 536).1).2
        then (s.drawBits n 536).2.putLine (.hbm d line) (spoilLine (s.lineBytes (.hbm d line)) (s.drawBits n 536).1).1
        else (s.drawBits n 536).2.setError (.hbm d line) (max 2 n) false) := by
      change execSoftError (.hbm d line) n s = _
      unfold execSoftError
      rw [htier, hnone]
      rfl
    rw [hexec]
    split
    · refine ⟨_, rfl, ?_, fun h => absurd h (by decide), fun _ => .inl (State.writePhysBytes_softErrors ..)⟩
      exact State.sameOutside_putLine (s := (s.drawBits n 536).2) hcanon hd hline ((spoilLine_length ..).trans hlen)
    · refine ⟨_, rfl, fun _ _ _ _ _ => rfl, fun h => absurd h (by decide), fun _ => .inr ?_⟩
      have hset := setError_other (s := (s.drawBits n 536).2) hother (max 2 n) false
      rw [hset]
      have hsame : (s.drawBits n 536).2.errorAt (.hbm d line) = none := hnone
      rw [hsame]
      dsimp only
      rw [if_neg (by omega), filter_sound (s := (s.drawBits n 536).2) hother hsame]
      rfl

/-! ### The scrubber (R345, R352) -/

theorem scrubPass_sound {site : ErrSite} {s : State} (h : s.errorAt site = none) : exec (.scrubPass site) s = .next s := by
  change execScrubPass site s = _
  unfold execScrubPass
  rw [h]

theorem scrubPass_pipeline (k : Nat) (s : State) : exec (.scrubPass (.pipeline k)) s = .next s := by
  change execScrubPass (.pipeline k) s = _
  unfold execScrubPass
  split
  · rfl
  · rfl
  · next hne => exact absurd rfl (hne k)

/-- Is a place one whose lines belong to the system? -/
def inBand : ErrSite → Bool
  | .hbm _ _ | .cullet _ => true
  | _ => false

theorem scrubPass_finds {site : ErrSite} {s : State} {e : SoftErr} (he : s.errorAt site = some e) (hpipe : ∀ k, site ≠ .pipeline k) :
    exec (.scrubPass site) s =
      if (!inBand site && (s.ownerOf site).isNone) = true then .next (s.clearUnowned site)
      else if e.poison = true then .next s
      else if e.bits ≤ 1 then
        match s.ownerOf site with
        | some c => .next ((s.setError site 0 false).corrected c none)
        | none => .next (s.setError site 0 false)
      else .next ((s.setError site e.bits true).logIntegrity { s.siteFields site with event := 0x40 }) := by
  have howner : (s.setError site 0 false).ownerOf site = s.ownerOf site := by
    by_cases hcullet : ∃ k, site = .cullet k
    · obtain ⟨k, rfl⟩ := hcullet
      rfl
    · rw [setError_other fun k hk => hcullet ⟨k, hk⟩]
      cases site <;> rfl
  cases site
  case pipeline k => exact absurd rfl (hpipe k)
  all_goals
    change execScrubPass _ s = _
    unfold execScrubPass
    rw [he]
    dsimp only
    rw [howner]
    rfl

/-- A word of a cullet line, by its checkpoint. -/
theorem scrubPass_cullet {k : Nat} {s : State} {w : Wave} {c : Checkpoint} (hw : s.wave? k = some w) (hc : w.checkpoint = some c) :
    (c.wrong = 0 ∨ c.poisoned = true → exec (.scrubPass (.cullet k)) s = .next s) ∧
    (c.wrong = 1 → c.poisoned = false → ∃ t v, exec (.scrubPass (.cullet k)) s = .next t ∧ t.wave? k = some v ∧
      v.checkpoint = some { c with wrong := 0 } ∧ t.integrityLog = s.integrityLog) ∧
    (2 ≤ c.wrong → c.poisoned = false → ∃ t v, exec (.scrubPass (.cullet k)) s = .next t ∧ t.wave? k = some v ∧
      v.checkpoint = some { c with poisoned := true } ∧
      (s.integrityLog.length < 256 →
        t.integrityLog = s.integrityLog ++ [integrityEntry s.clock { s.siteFields (.cullet k) with event := 0x40 } s.integrityLost])) := by
  have hat : s.errorAt (.cullet k) = if c.wrong = 0 then none else some ⟨.cullet k, c.wrong, c.poisoned⟩ := by simp [State.errorAt, hw, hc]
  by_cases hzero : c.wrong = 0
  · rw [if_pos hzero] at hat
    exact ⟨fun _ => scrubPass_sound hat, fun h => by omega, fun h => by omega⟩
  rw [if_neg hzero] at hat
  have hexec := scrubPass_finds hat nofun
  rw [inBand, Bool.not_true, Bool.false_and, if_neg Bool.false_ne_true] at hexec
  refine ⟨fun h => ?_, fun hone hsound => ?_, fun htwo hsound => ?_⟩
  · rw [hexec]
    exact if_pos (h.resolve_left hzero)
  · rw [hsound, if_neg Bool.false_ne_true, if_pos (show c.wrong ≤ 1 by omega)] at hexec
    refine ⟨_, _, hexec, State.wave?_onWave (fun _ => rfl) hw, ?_, rfl⟩
    dsimp only
    rw [hc, Option.map_some, ← hsound]
  · rw [hsound, if_neg Bool.false_ne_true, if_neg (show ¬c.wrong ≤ 1 by omega), State.logIntegrity_eq] at hexec
    refine ⟨_, _, hexec, State.wave?_onWave (s := s) (fun _ => rfl) hw, ?_, fun hroom => if_pos hroom⟩
    dsimp only
    rw [hc]
    rfl

theorem State.writeLocalBytes_softErrors (s : State) (p : LocalAt) (bs : List Byte) : (s.writeLocalBytes p bs).softErrors = s.softErrors := by
  induction bs generalizing s p with
  | nil => rfl
  | cons b bs ih =>
    refine (ih _ _).trans ?_
    cases p <;> rfl

theorem State.zeroSite_softErrors (s : State) (site : ErrSite) : (s.zeroSite site).softErrors = s.softErrors := by
  cases site with
  | sreg k r shadow => cases shadow <;> rfl
  | tile k t n twin => cases twin <;> rfl
  | crewStore k off => exact State.writeLocalBytes_softErrors ..
  | marver l d off => exact State.writeLocalBytes_softErrors ..
  | _ => rfl

/-- A word elsewhere, by its owner and its error. -/
theorem scrubPass_word {e : SoftErr} {s : State} (hsite : ∀ k, e.site ≠ .cullet k ∧ e.site ≠ .pipeline k) (he : s.errorAt e.site = some e) :
    (s.ownerOf e.site = none → ¬(∃ d line, e.site = .hbm d line) → exec (.scrubPass e.site) s =
      .next ({ s.zeroSite e.site with softErrors := s.softErrors.filter fun x : SoftErr => !sameWord x.site e.site }.logIntegrity
        { s.siteFields e.site with event := 0x41 })) ∧
    ((s.ownerOf e.site).isSome = true ∨ (∃ d line, e.site = .hbm d line) → e.poison = true → exec (.scrubPass e.site) s = .next s) ∧
    (∀ c, s.ownerOf e.site = some c → e.poison = false → e.bits ≤ 1 →
      exec (.scrubPass e.site) s = .next ({ s with softErrors := s.softErrors.filter fun x : SoftErr => !sameWord x.site e.site }.corrected c none)) ∧
    ((∃ d line, e.site = .hbm d line) → e.poison = false → e.bits ≤ 1 →
      exec (.scrubPass e.site) s = .next { s with softErrors := s.softErrors.filter fun x : SoftErr => !sameWord x.site e.site }) ∧
    ((s.ownerOf e.site).isSome = true ∨ (∃ d line, e.site = .hbm d line) → e.poison = false → 2 ≤ e.bits →
      exec (.scrubPass e.site) s = .next ({ s with softErrors :=
        (s.softErrors.filter fun x : SoftErr => !sameWord x.site e.site) ++ [{ e with poison := true }] }.logIntegrity { s.siteFields e.site with event := 0x40 })) := by
  have hother : ∀ k, e.site ≠ .cullet k := fun k => (hsite k).1
  have hexec := scrubPass_finds he fun k => (hsite k).2
  have hband : (∃ d line, e.site = .hbm d line) ↔ inBand e.site = true := by
    refine ⟨fun ⟨d, line, h⟩ => by rw [h]; rfl, fun h => ?_⟩
    cases hs : e.site <;> rw [hs] at h
    case hbm d line => exact ⟨d, line, rfl⟩
    case cullet k => exact absurd hs (hother k)
    all_goals cases h
  have howned (h : (s.ownerOf e.site).isSome = true ∨ ∃ d line, e.site = .hbm d line) :
      ¬(!inBand e.site && (s.ownerOf e.site).isNone) = true := by
    rw [hband] at h
    rcases h with h | h
    · simp [Option.isSome_iff_ne_none.mp h]
    · rw [h]
      exact Bool.false_ne_true
  rw [hexec]
  refine ⟨fun hnone hno => ?_, fun h hpoison => ?_, fun c hc hsound hone => ?_, fun h hsound hone => ?_, fun h hsound htwo => ?_⟩
  · rw [hband, Bool.not_eq_true] at hno
    rw [hno, hnone]
    refine (if_pos rfl).trans ?_
    rw [State.clearUnowned, setError_other hother, State.zeroSite_softErrors]
    rfl
  · exact (if_neg (howned h)).trans (if_pos hpoison)
  · rw [if_neg (howned (.inl (by rw [hc]; rfl))), hsound, if_neg Bool.false_ne_true, if_pos hone, hc, setError_other hother]
    rfl
  · have hnone : s.ownerOf e.site = none := by
      obtain ⟨d, line, hs⟩ := h
      rw [hs]
      rfl
    rw [if_neg (howned (.inr h)), hsound, if_neg Bool.false_ne_true, if_pos hone, hnone, setError_other hother]
    rfl
  · rw [if_neg (howned h), hsound, if_neg Bool.false_ne_true, if_neg (by omega), setError_other hother, he]
    dsimp only [Option.map_some, Option.getD_some]
    rw [if_neg (by omega)]

theorem registerWrite_eq (off : Nat) (bs : List Byte) (s : State) : exec (.registerWrite off bs) s =
    if writeField 4 0 0x140 off bs = some 1 then (s.writeRegisters off bs).doorbell else .next (s.writeRegisters off bs) := rfl

/-! ### An access of the host, by its range (R398) -/

/-- Through range 0, in usable bytes of an open band. -/
theorem hostAccess_physical {d pa n : Nat} {wr : Option (List Byte)} {s : State} (hd : d < 4) (hpa : pa < 2 ^ 41) (hlen : ∀ bs, wr = some bs → bs.length = n)
    (hline : pa % 64 + n ≤ 64) :
    (s.loggedAt ⟨d, pa⟩ = true → s.hostLine 0xFFFF ⟨d, pa⟩ n wr = s) ∧
    (s.loggedAt ⟨d, pa⟩ = false → wr = none →
      (s.softErrors = [] → s.hostLine 0xFFFF ⟨d, pa⟩ n wr = s) ∧
      ∀ e, s.softErrors = [e] → e.site = .hbm d (pa / 64) →
        (e.bits = 1 → e.poison = false → s.hostLine 0xFFFF ⟨d, pa⟩ n wr = { s with softErrors := [] }.corrected 0xFFFF none) ∧
        (2 ≤ e.bits ∨ e.poison = true → s.hostLine 0xFFFF ⟨d, pa⟩ n wr = { s with softErrors := [⟨e.site, e.bits, true⟩] })) ∧
    (s.loggedAt ⟨d, pa⟩ = false → ∀ bs, wr = some bs →
      (s.lineCopied ⟨d, pa⟩ = true → s.hostLine 0xFFFF ⟨d, pa⟩ n wr = s) ∧
      (s.lineCopied ⟨d, pa⟩ = false → s.softErrors = [] → s.mainCanonical = true →
        (s.hostLine 0xFFFF ⟨d, pa⟩ n wr).holdsAt d pa bs ∧ s.sameOutside (s.hostLine 0xFFFF ⟨d, pa⟩ n wr) [(d, pa, n)])) := by
  refine ⟨fun h => State.hostLine_logged wr h, fun h hwr => ?_, fun h bs hwr => ?_⟩
  · subst hwr
    refine ⟨fun herr => State.hostLine_read_sound h herr, fun e herr hsite => ?_⟩
    have hat := State.lineError_one (pa := pa) herr hsite
    have hbad : s.lineBad ⟨d, pa⟩ = e.lost := by rw [State.lineBad, hat]; rfl
    rw [State.hostLine_read h, hbad]
    refine ⟨fun hone hsound => ?_, fun hlost => ?_⟩
    · have hlost : e.lost = false := by simp [SoftErr.lost, hone, hsound]
      rw [hlost, if_neg Bool.false_ne_true, State.correctLine, hat]
      dsimp only
      rw [hlost, herr, if_neg Bool.false_ne_true, List.erase_cons_head]
    · have hlost : e.lost = true := by
        rcases hlost with h | h <;> simp [SoftErr.lost, h]
      rw [hlost, if_pos rfl, State.markLine, hat]
      dsimp only
      rw [herr, List.map_singleton, if_pos (beq_self_eq_true e)]
  · subst hwr
    obtain rfl := hlen bs rfl
    refine ⟨fun hcopied => (State.hostLine_write h bs).trans (if_pos hcopied), fun hcopied herr hcanon => ?_⟩
    exact State.hostLine_write_stands h hcopied ⟨herr, hcanon⟩ (.inr ⟨hd, by dsimp only; omega⟩)

/-- Settles O53: each event by what it does to the state, case by case. -/
theorem hostAndErrorEventsTakePlace : Obligations.HostAndErrorEventsTakePlace := by
  unfold Obligations.HostAndErrorEventsTakePlace
  refine ⟨?accept, ?registers, ?physical, ?virtual_, ?own, fun range off len wr s h => hostMemAccess_beyond h, fun s => rfl, ?loss,
    fun s => ⟨⟨_, rfl⟩, _, rfl⟩, fun good header body s => resetRelease_stage good header body s, fun s => ⟨fun h => if_pos h, firmwareReady_opens⟩,
    ?rollback, ?replay, ?soft, fun k s => scrubPass_pipeline k s,
    fun site s h => scrubPass_sound h, fun k s w c hw hc => scrubPass_cullet hw hc, fun e s hsite he => scrubPass_word hsite he, ?clock⟩
  case accept =>
    exact fun k v s => ⟨fun h => congrArg Host.Outcome.next (acceptFeature_ignored h),
      fun hctx hk hv => congrArg Host.Outcome.next (acceptFeature_takes hctx hk hv)⟩
  case registers =>
    refine fun off bs s => ⟨fun _ h => ?_, fun hoff hbs => ?_⟩
    · rw [registerWrite_eq, writeField_beside h, if_neg nofun]
    · rw [registerWrite_eq, hoff, hbs, if_pos writeField_doorbell]
  case physical =>
    intro d pa len wr s n act hd hpa hn hline
    have hact : act = .next (s.hostPhys (d * 2 ^ 41 + pa) n wr) := by
      refine (hostMemAccess_line hn (by change _ + n ≤ 64; omega)).trans ?_
      rw [if_pos rfl, if_pos (by omega)]
    have hlen : ∀ bs, wr = some bs → bs.length = n := by
      rintro bs rfl
      rfl
    rw [hact]
    refine ⟨fun h => congrArg Host.Outcome.next (State.hostPhys_refused hd hpa wr h), fun htier hopen => ?_⟩
    rw [State.hostPhys_line hd hpa wr htier hopen]
    obtain ⟨hlogged, hread, hwrite⟩ := hostAccess_physical (s := s) (wr := wr) hd hpa hlen hline
    refine ⟨fun h => congrArg Host.Outcome.next (hlogged h), fun h hwr => ?_, fun h bs hwr => ?_⟩
    · obtain ⟨hsound, herr⟩ := hread h hwr
      exact ⟨fun hnone => congrArg Host.Outcome.next (hsound hnone), fun e he hsite => ⟨fun hone hp => congrArg Host.Outcome.next ((herr e he hsite).1 hone hp),
        fun hlost => congrArg Host.Outcome.next ((herr e he hsite).2 hlost)⟩⟩
    · obtain ⟨hcopied, hstands⟩ := hwrite h bs hwr
      exact ⟨fun hc => congrArg Host.Outcome.next (hcopied hc), fun hc herr hcanon => ⟨_, rfl, hstands hc herr hcanon⟩⟩
  case virtual_ =>
    intro home off len wr s n va ctx act hhome hoff hn hline
    have hact : act = .next (s.hostVirt (home * 2 ^ 48 + off) n wr) := by
      refine (hostMemAccess_line hn (by change _ + n ≤ 64; omega)).trans ?_
      rw [if_neg (by decide), if_pos rfl, if_pos (by omega)]
    rw [hact]
    refine ⟨fun hnone hwalked => congrArg Host.Outcome.next (State.hostVirt_asks hhome hoff wr hnone hwalked), fun l hl => ?_⟩
    intro need pa
    refine ⟨fun c hc => congrArg Host.Outcome.next (State.hostVirt_refused hhome hoff hl wr hc), fun hc => ?_⟩
    rw [State.hostVirt_leaf hhome hoff hl wr hc]
    refine ⟨fun h => ?_, fun hfirst hlogged herr => ⟨fun hwr => ?_, fun bs hwr hcanon hmig hbound => ?_⟩⟩
    · by_cases hfirst : s.logsFirst ctx home va l = true
      · rw [if_pos hfirst]
      · rw [if_neg hfirst, State.hostLine_logged wr (h.resolve_left hfirst)]
    · subst hwr
      rw [if_neg (by rw [hfirst]; exact Bool.false_ne_true), State.hostLine_read_sound hlogged herr]
    · subst hwr
      rw [if_neg (by rw [hfirst]; exact Bool.false_ne_true)]
      have hcopied : s.lineCopied ⟨home, pa⟩ = false := by
        rw [State.lineCopied, State.copiesOf, hmig]
        rfl
      exact ⟨_, rfl, State.hostLine_write_stands hlogged hcopied ⟨herr, hcanon⟩ (.inr ⟨hhome, hbound⟩)⟩
  case own =>
    intro pa len wr s n act hn hline hbound
    have hact : act = .next (s.hostOwn pa wr) := by
      refine (hostMemAccess_line hn hline).trans ?_
      rw [if_neg (by decide), if_neg (by decide), if_pos rfl, if_pos (by omega)]
    rw [hact]
    refine ⟨fun hwr => by rw [hwr]; rfl, fun bs hwr herr hcanon => ⟨_, rfl, ?_⟩⟩
    subst hwr
    exact State.overlays_holds (State.overlays_storePage ⟨herr, hcanon⟩ (.inl rfl) 0xFFFF).2 (.inl rfl)
  case loss =>
    rintro s t (h | h)
    · obtain rfl : s.linkLoss = t := by injection h
      exact linkLoss_faults s
    · obtain rfl : s.linkLoss = t := by injection h
      exact linkLoss_faults s
  case rollback =>
    intro s w d hw hdemand hquiet hsystem hdebug hreplay hinterval hdue
    have hexec := regionRollback_eq hw hdemand hquiet hsystem hdebug hreplay hinterval hdue
    refine ⟨fun c hfresh hc hwrong => ?_, fun h => ?_⟩
    · rw [hexec, if_neg (by simp [hfresh, hc])]
      exact congrArg Host.Outcome.next (restartFor_sound hw hdemand hquiet hsystem hdebug hreplay hinterval hdue hc hwrong)
    · rw [hexec, if_pos]
      exact h.imp_right fun h => by rw [h]; rfl
  case replay =>
    intro s l hl hstate hkilled
    refine ⟨fun hno => ?_, fun hyes hfirst hbudget => launchReplay_begins hl hstate hkilled hyes hfirst hbudget, fun hyes hagain hplaced => ?_,
      fun hyes hagain hplaced hlog => launchReplay_restarts hl hstate hkilled hyes hagain hplaced hlog⟩
    · rw [launchReplay_eq hl hstate hkilled, hno]
      rfl
    · rw [launchReplay_eq hl hstate hkilled, hyes, hagain, if_neg (by simp), if_neg (by simp), if_pos]
      obtain ⟨c, hc, hlaunch, hp⟩ := hplaced
      exact List.any_eq_true.mpr ⟨c, hc, by simp [hlaunch, hp]⟩
  case soft =>
    intro site n s
    refine ⟨fun hnone => ?_, fun htier hn hnone hsite => ?_, fun k w c hsite hw hc hwrong hn => ?_, fun t e htier ht hn he => softError_adds htier ht (by omega) he,
      fun t d line htier ht hsite hnone hcanon => ?_⟩
    · change execSoftError site n s = _
      unfold execSoftError
      rw [hnone]
    · rw [softError_enters htier (by decide) (by omega) (.inl (by decide)), setError_other hsite, hnone, if_neg, filter_sound hsite hnone]
      · dsimp only [Option.map_none, Option.getD_none]
        rw [Nat.zero_add]
      · dsimp only [Option.map_none, Option.getD_none]
        omega
    · subst hsite
      obtain ⟨t, v, hexec, hv, hcheck⟩ := softError_cullet (n := n) hw hc (by omega)
      rw [if_pos hwrong, if_pos hwrong, Nat.zero_add] at hcheck
      exact ⟨t, v, hexec, hv, hcheck⟩
    · subst hsite
      exact softError_line htier ht hnone hcanon
  case clock =>
    intro up s
    cases up <;> rfl

end Sys2Proof.Machine
end

section
/-! The homes (R315, R321-R329, R338, R399): requests and walks, leases, migrations, a band's end of RECLASS, peers and links. -/

namespace Sys2Proof.Machine

/-! ### Requests of this device (R322) -/

theorem isPeerHome_die {h : Nat} (hh : h < 4) : isPeerHome h = false := by
  simp only [isPeerHome, decide_eq_false_iff_not]
  omega

theorem ownDie_iff {core h : Nat} (hh : h < 4) : ownDie core h = true ↔ core / 40 = h := by
  simp only [ownDie, Bool.or_eq_true, Bool.and_eq_true, beq_iff_eq]
  omega

section
variable {k n : Nat} {s : State} {w : Wave} {o : Op} {q : Part} (hw : s.wave? k = some w) (ho : w.op? o.key = some o) (hq : o.parts[n]? = some q)
include hw ho hq

/-- The walk that a request for the part asks for. -/
abbrev askFor (w : Wave) (o : Op) (q : Part) (n : Nat) (own : Bool) : Walk :=
  ⟨w.ctx, q.page, (o.firstVa n).getD q.page, o.kind.faultOp, w.core, own⟩

section
variable (hhome : q.home < 4) (hbits : q.page / 2 ^ 48 % 256 = 0) (hpending : q.status = .pending)
  (hturn : o.kind = .mdrx → o.finishedAtTurn = true)
include hhome hbits hpending hturn

/-- A pending part at a home of this device. -/
theorem homeRequest_eq : exec (.homeRequest k o.key n) s =
    match (s.home q.home).cached w.ctx q.page with
    | some l => .next (s.answer w o n q (.leaf l))
    | none =>
      match s.takeWalked q.home w.ctx q.page with
      | (s, true) =>
        let (s, r) := s.freshWalk w.ctx q.home q.page
        .next (s.answer w o n q r)
      | (s, false) =>
        let s := s.onHome q.home fun x => x.ask (askFor w o q n (ownDie w.core q.home))
        if ownDie w.core q.home then .next (s.setPart k o.key n .walking none)
        else
          let (t, s) := s.retryClocks
          .next (s.setPart k o.key n (.retryAfter (s.clock + t)) none) := by
  have hgo : ¬(q.status != .pending || (o.kind == .mdrx && !o.finishedAtTurn)) = true := by
    simpa [hpending] using hturn
  have hcode : ¬(!(decide (q.home < Config.dies) || q.home == 0x80 || isPeerHome q.home) || q.page / 2 ^ 48 % 256 != 0) = true := by
    have : q.home < Config.dies := hhome
    rw [hbits]
    simp [this]
  have hpeer : ¬isPeerHome q.home = true := by simp [isPeerHome_die hhome]
  change execHomeRequest k o.key n s = _
  unfold execHomeRequest
  simp only [hw, ho, Option.bind_some, hq, Option.map_some, unitOf_die hhome]
  exact (if_neg hgo).trans ((if_neg hcode).trans (if_neg hpeer)) <;> rfl

theorem homeRequest_cached {l : Leaf} (hl : (s.home q.home).cached w.ctx q.page = some l) :
    exec (.homeRequest k o.key n) s = .next (s.answer w o n q (.leaf l)) := by
  rw [homeRequest_eq hw ho hq hhome hbits hpending hturn, hl]

section
variable (hnone : (s.home q.home).cached w.ctx q.page = none) (hwalked : (w.ctx, pageOf q.page) ∉ (s.home q.home).walked)
include hnone hwalked

theorem homeRequest_waits (hown : w.core / 40 = q.home) : exec (.homeRequest k o.key n) s =
    .next ((s.onHome q.home fun h => h.ask (askFor w o q n true)).setPart k o.key n .walking none) := by
  rw [homeRequest_eq hw ho hq hhome hbits hpending hturn, hnone, State.takeWalked_absent hwalked, (ownDie_iff hhome).mpr hown]
  rfl

theorem homeRequest_refused (hlen : q.home < s.homes.length) (hown : w.core / 40 ≠ q.home) :
    ∃ (t : State) (till : Nat), exec (.homeRequest k o.key n) s = .next (t.setPart k o.key n (.retryAfter till) none) ∧
      s.clock + 128 ≤ till ∧ till ≤ s.clock + 32640 ∧ t.waves = s.waves ∧
      (t.home q.home).walks = ((s.home q.home).ask (askFor w o q n false)).walks := by
  have hother : ownDie w.core q.home = false := by rw [← Bool.not_eq_true, ownDie_iff hhome]; exact hown
  set u := s.onHome q.home fun h => h.ask (askFor w o q n false) with hu
  have hwalks : (u.home q.home).walks = ((s.home q.home).ask (askFor w o q n false)).walks := by
    rw [hu, State.home_onHome hlen]
  have hhint : Config.retryHint s.fresh % 255 < 255 := Nat.mod_lt _ (by decide)
  refine ⟨u.draw.2, s.clock + (1 + Config.retryHint s.fresh % 255) * 128, ?_, by omega, by omega, rfl, hwalks⟩
  rw [homeRequest_eq hw ho hq hhome hbits hpending hturn, hnone, State.takeWalked_absent hwalked, hother]
  rfl

end

end

/-- R322: after its hint a part is sent again. -/
theorem retryAfterResend_eq {till : Nat} (hstatus : q.status = .retryAfter till) :
    exec (.retryAfterResend k o.key n) s = .next (if s.clock < till then s else s.setPart k o.key n .pending none) := by
  change execRetryAfterResend k o.key n s = _
  unfold execRetryAfterResend
  simp only [hw, ho, Option.bind_some, hq, hstatus]
  split <;> rfl

end

/-! ### Walks (R321) -/

/-- What a change of a home leaves as it is reads the same at every home. -/
theorem State.home_onHome_field {γ : Type} {g : Home → γ} {s : State} {k j : Nat} {f : Home → Home} (h : ∀ x, g (f x) = g x) :
    g ((s.onHome k f).home j) = g (s.home j) := by
  simp only [State.home, State.onHome, nth, modifyAt, List.getElem?_modify]
  cases s.homes[j]? with
  | none => simp
  | some x => by_cases hk : k = j <;> simp [hk, h]

/-- A walk reads of a home which lines are poisoned and the tiers of its bands. -/
theorem State.walkFrom_onHome {s : State} {k : Nat} {f : Home → Home} (hp : ∀ h, (f h).poisoned = h.poisoned) (ht : ∀ h, (f h).tiers = h.tiers)
    (unit va fuel level table : Nat) : (s.onHome k f).walkFrom unit va fuel level table = s.walkFrom unit va fuel level table := by
  have hpoison (j : Nat) : ((s.onHome k f).home j).poisoned = (s.home j).poisoned := State.home_onHome_field hp
  have htier (j pa : Nat) : (s.onHome k f).bandTier j pa = s.bandTier j pa := by
    have h : ((s.onHome k f).home j).tiers = (s.home j).tiers := State.home_onHome_field ht
    simp only [State.bandTier, h]
  have hbad (m : MainAt) : (s.onHome k f).lineBad m = s.lineBad m := rfl
  have hread (j pa n : Nat) : (s.onHome k f).readPhysBytes j pa n = s.readPhysBytes j pa n := rfl
  induction fuel generalizing level table with
  | zero => rfl
  | succ fuel ih =>
    unfold State.walkFrom
    simp only [hpoison, htier, hbad, hread, ih]

theorem State.walk_onHome {s : State} {k : Nat} {f : Home → Home} (hp : ∀ h, (f h).poisoned = h.poisoned) (ht : ∀ h, (f h).tiers = h.tiers)
    (ctx home va : Nat) : (s.onHome k f).walk ctx home va = s.walk ctx home va := by
  simp only [State.walk, State.walkFrom_onHome hp ht]
  rfl

theorem State.freshWalk_leaf {s : State} {ctx home va : Nat} {l : Leaf} (h : s.walk ctx home va = .leaf l) :
    s.freshWalk ctx home va = (s.cacheLeaf (unitOf home) ctx va l, .leaf l) := by
  simp only [State.freshWalk, h]

/-- The first of a list that a condition picks, with its place. -/
theorem zipIdx_find? {α : Type} {l : List α} {n : Nat} {x : α} {p : α → Bool} (hx : l[n]? = some x) (hp : p x = true)
    (hbefore : ∀ y ∈ l.take n, p y = false) : l.zipIdx.find? (fun y => p y.1) = some (x, n) := by
  have hlt : n < l.length := (List.getElem?_eq_some_iff.mp hx).1
  refine List.find?_eq_some_iff_getElem.mpr ⟨hp, n, by simpa using hlt, by simpa using (List.getElem?_eq_some_iff.mp hx).2, fun j hj => ?_⟩
  have hmem : l[j]'(hj.trans hlt) ∈ l.take n := List.mem_take_iff_getElem.mpr ⟨j, by omega, rfl⟩
  simpa using hbefore _ hmem

/-- R321, R322: the walk at the head of a home ends, and the leaf that it finds is cached. -/
theorem walkComplete_caches {u n : Nat} {s : State} {x : Walk} {l : Leaf} (hu : u < 4) (hlen : u < s.homes.length)
    (hx : (s.home u).walks[n]? = some x) (hn : n < Config.walksPerHome)
    (hfirst : ∀ y ∈ (s.home u).walks.take n, ¬(y.ctx = x.ctx ∧ y.va = x.va) ∧ (x.own = true → y.own = false))
    (hwalk : s.walk x.ctx u x.va = .leaf l) (hops : ∀ w ∈ s.waves, w.ops = []) :
    ∃ t, exec (.walkComplete u x.ctx x.va) s = .next t ∧ ⟨x.ctx, pageOf x.va, l⟩ ∈ (t.home u).cache ∧ x ∉ (t.home u).walks ∧
      t.waves = s.waves ∧ t.hbm = s.hbm := by
  have hfind : (s.home u).walks.zipIdx.find? (fun y => y.1.ctx == x.ctx && y.1.va == x.va) = some (x, n) :=
    zipIdx_find? (p := fun y : Walk => y.ctx == x.ctx && y.va == x.va) hx (by simp) fun y hy => by
      have := (hfirst y hy).1
      simpa using this
  have hfree : ¬(decide (n ≥ Config.walksPerHome) || (x.own && ((s.home u).walks.take n).any Walk.own)) = true := by
    simp only [Bool.or_eq_true, Bool.and_eq_true, decide_eq_true_iff, List.any_eq_true, not_or, not_and, not_le, not_exists]
    exact ⟨hn, fun hown y hy => by simp [(hfirst y hy).2 hown]⟩
  set v := s.onHome u (fun h => { h with walks := h.walks.filter (· != x) }) with hv
  have hfresh : v.freshWalk x.ctx u x.va = (v.cacheLeaf u x.ctx x.va l, .leaf l) := by
    have hwalk' : v.walk x.ctx u x.va = .leaf l :=
      (State.walk_onHome (f := fun h => { h with walks := h.walks.filter (· != x) }) (fun _ => rfl) (fun _ => rfl) ..).trans hwalk
    rw [State.freshWalk_leaf hwalk', unitOf_die hu]
  have hvlen : u < v.homes.length := by rw [hv, State.onHome_homes_length]; exact hlen
  have hhome : (v.cacheLeaf u x.ctx x.va l).home u =
      { v.home u with cache := ⟨x.ctx, pageOf x.va, l⟩ :: (v.home u).cache.filter fun c => !(c.ctx == x.ctx && c.va == pageOf x.va) } :=
    State.home_onHome hvlen
  refine ⟨v.cacheLeaf u x.ctx x.va l, ?_, ?_, ?_, rfl, rfl⟩
  · change execWalkComplete u x.ctx x.va s = _
    unfold execWalkComplete
    simp only [unitOf_die hu, hfind, ← hv, hfresh]
    refine (if_neg hfree).trans (congrArg Host.Outcome.next ?_)
    rw [List.flatMap_eq_nil_iff.mpr fun w hw => by
      rw [hops w hw]
      rfl]
    rfl
  · rw [hhome]
    exact List.mem_cons_self
  · rw [hhome, hv, State.home_onHome hlen]
    simp

/-! ### Leases (R327) -/

theorem State.leaseAllowed_iff {s : State} {home chip va clocks : Nat} :
    s.leaseAllowed home chip va clocks = true ↔ s.feature 4 = true ∧ isOwnHome home = true ∧ homeOf va = home ∧ chip < 28 ∧ s.peerUp chip = true ∧
      clocks ≠ 0 ∧ clocks ≤ 1500000 ∧ s.leasesHeldBy chip < 1024 := by
  unfold State.leaseAllowed leaseClocks Config.leasesPerChip
  simp only [Bool.and_eq_true, beq_iff_eq, decide_eq_true_iff, bne_iff_ne, and_assoc, ne_eq]

section
variable {home chip ctx va clocks : Nat} {s : State}

theorem leaseGrant_refused (h : s.leaseAllowed home chip va clocks = false) : exec (.leaseGrant home chip ctx va clocks) s = .next s :=
  congrArg Host.Outcome.next (if_pos (by rw [h]; rfl))

section
variable (hallowed : s.leaseAllowed home chip va clocks = true)
include hallowed

theorem leaseGrant_reserved (hbits : va / 2 ^ 48 % 256 ≠ 0) :
    exec (.leaseGrant home chip ctx va clocks) s = .next (s.logError va ctx home 0x0D (0x100 + chip) 0) :=
  congrArg Host.Outcome.next ((if_neg (by rw [hallowed]; simp)).trans (if_pos (bne_iff_ne.mpr hbits)))

variable (hbits : va / 2 ^ 48 % 256 = 0) (hhome : home < 4)
include hbits hhome

theorem leaseGrant_eq : exec (.leaseGrant home chip ctx va clocks) s =
    .next (match s.outsideLeaf home ctx va 5 (0x100 + chip) with
      | (s, .again) => s
      | (s, .error c i) => s.logError va ctx home c (0x100 + chip) i
      | (s, .leaf l) =>
        if s.withdrawing home ctx va l || (decide (home < Config.dies) && s.bandClosed home l.pa) then s
        else s.onHome (unitOf home) fun h =>
          { h with leases := h.leases ++ [⟨h.nextLease, chip, ctx, pageOf va, l, s.clock + clocks, false⟩], nextLease := h.nextLease + 1 }) :=
  congrArg Host.Outcome.next ((if_neg (by rw [hallowed]; simp)).trans (if_neg (by rw [hbits]; simp)))

theorem leaseGrant_asks (hnone : (s.home home).cached ctx va = none) (hwalked : (ctx, pageOf va) ∉ (s.home home).walked) :
    exec (.leaseGrant home chip ctx va clocks) s =
      .next (s.onHome home fun h => h.ask ⟨ctx, pageOf va, va, 5, 0x100 + chip, false⟩) := by
  rw [leaseGrant_eq hallowed hbits hhome]
  simp only [State.outsideLeaf, unitOf_die hhome, hnone, State.takeWalked_absent hwalked]

/-- A page that is cached, and not being withdrawn, is leased. -/
theorem leaseGrant_grants {l : Leaf} (hlen : home < s.homes.length) (hl : (s.home home).cached ctx va = some l)
    (hstays : s.withdrawing home ctx va l = false) (hopen : s.bandClosed home l.pa = false) :
    ∃ t, exec (.leaseGrant home chip ctx va clocks) s = .next t ∧
      ⟨(s.home home).nextLease, chip, ctx, pageOf va, l, s.clock + clocks, false⟩ ∈ (t.home home).leases := by
  rw [leaseGrant_eq hallowed hbits hhome]
  simp only [State.outsideLeaf, unitOf_die hhome, hl, hstays, hopen, Bool.and_false, Bool.or_false, Bool.false_eq_true, if_false]
  refine ⟨_, rfl, ?_⟩
  rw [State.home_onHome hlen]
  exact List.mem_append_right _ (List.mem_singleton.mpr rfl)

end

/-- A recall ends this device's leases of the page. -/
theorem leaseRecall_ends (hup : s.peerUp chip = true) :
    ∃ t, exec (.leaseRecall chip va) s = .next t ∧ (∀ x ∈ t.heldLeases, x.chip ≠ chip ∨ pageOf x.va ≠ pageOf va) ∧ t.hbm = s.hbm := by
  change ∃ t, execLeaseRecall chip va s = .next t ∧ _
  unfold execLeaseRecall
  dsimp only
  by_cases hheld : (s.heldLeases.filter fun x => x.chip == chip && pageOf x.va == pageOf va).isEmpty = true
  · rw [hheld, hup]
    refine ⟨s, rfl, fun x hx => ?_, rfl⟩
    have hnot := List.filter_eq_nil_iff.mp (List.isEmpty_iff.mp hheld) x hx
    exact not_and_or.mp (by simpa using hnot)
  · rw [if_neg (by simpa [hup] using hheld)]
    refine ⟨_, rfl, fun x hx => ?_, foldl_keeps (g := State.hbm) (fun s x => by split <;> rfl) _ s⟩
    simpa using (List.mem_filter.mp hx).2

theorem leaseRecall_down (hdown : s.peerUp chip = false) : exec (.leaseRecall chip va) s = .next s :=
  if_pos (by rw [hdown]; simp)

end

/-! ### The end of a migration (R329) -/

section
variable {u ctx va : Nat} {s : State} {g : Migration}

theorem State.writePhysBytes_running (s : State) (k pa : Nat) (bs : List Byte) : (s.writePhysBytes k pa bs).running = s.running := by
  induction bs generalizing s pa with
  | nil => rfl
  | cons b bs ih =>
    refine (ih ..).trans ?_
    unfold State.writePhys
    split <;> rfl

theorem State.healEntries_running (s : State) (m : MainAt) (n : Nat) : (s.healEntries m n).running = s.running := by
  unfold State.healEntries
  split <;> rfl

theorem State.hostWritten_running (s : State) (unit : Nat) : (s.hostWritten unit).running = s.running := by
  unfold State.hostWritten
  split <;> rfl

theorem State.rewriteEntries_running (s : State) (unit : Nat) (pas : List Nat) (frame : Option Nat) (migrating : Bool) :
    (s.rewriteEntries unit pas frame migrating).running = s.running :=
  foldl_keeps (g := State.running) (fun s pa => by
    rw [State.hostWritten_running, State.writeEntry, State.healEntries_running, State.writePhysBytes_running]) _ s

/-- The state in which the migration's page has its new frame. -/
def State.migrated (s : State) (u : Nat) (g : Migration) : State :=
  ((s.rewriteEntries u g.entries (some g.new) false).onHome u fun h =>
    { h with migrations := h.migrations.filter (· != g), cache := h.cache.filter fun x => !g.entries.contains x.leaf.entry }).moveParts u g

theorem State.migrated_homes (s : State) (u : Nat) (g : Migration) :
    (s.migrated u g).homes = ((s.rewriteEntries u g.entries (some g.new) false).onHome u fun h =>
      { h with migrations := h.migrations.filter (· != g), cache := h.cache.filter fun x => !g.entries.contains x.leaf.entry }).homes := rfl

theorem State.migrated_hbm (s : State) (u : Nat) (g : Migration) :
    (s.migrated u g).hbm = (s.rewriteEntries u g.entries (some g.new) false).hbm := rfl

theorem State.migrated_running (s : State) (u : Nat) (g : Migration) : (s.migrated u g).running = s.running :=
  s.rewriteEntries_running u g.entries (some g.new) false

theorem State.migrated_home (hlen : u < s.homes.length) : (s.migrated u g).home u =
    { (s.rewriteEntries u g.entries (some g.new) false).home u with
      migrations := ((s.rewriteEntries u g.entries (some g.new) false).home u).migrations.filter (· != g)
      cache := ((s.rewriteEntries u g.entries (some g.new) false).home u).cache.filter fun x => !g.entries.contains x.leaf.entry } := by
  rw [State.home, State.migrated_homes]
  exact State.home_onHome (by rw [State.rewriteEntries_homes_length]; exact hlen)

section
variable (hu : u < 4) (hg : (s.home u).migrations.find? (fun g => g.ctx == ctx && decide (g.va ≤ va ∧ va < g.va + g.size)) = some g)
include hu hg

theorem migrateCommit_eq (hcopied : g.size ≤ 64 * g.copied) (hleases : ∀ x ∈ (s.home u).leases, x.leaf.entry ∉ g.entries) :
    exec (.migrateCommit u ctx va) s =
      match (s.migrated u g).running with
      | some (.migrate _ _ _) => .next (s.migrated u g).finishCommand
      | _ => .next (s.migrated u g) := by
  have hgone : s.leasesGone u (Lease.ofMigration g) = true := by
    simpa [State.leasesGone, unitOf_die hu, Lease.ofMigration] using hleases
  have hgo : ¬(decide (64 * g.copied < g.size) || !s.leasesGone u (Lease.ofMigration g)) = true := by simpa [hgone] using hcopied
  change execMigrateCommit u ctx va s = _
  unfold execMigrateCommit
  rw [unitOf_die hu]
  simp only [hg]
  rw [if_neg hgo] <;> rfl

theorem migrateCommit_commits (hcopied : g.size ≤ 64 * g.copied) (hleases : ∀ x ∈ (s.home u).leases, x.leaf.entry ∉ g.entries) :
    ∃ t, exec (.migrateCommit u ctx va) s = .next t ∧ g ∉ (t.home u).migrations ∧ (∀ c ∈ (t.home u).cache, c.leaf.entry ∉ g.entries) ∧
      t.hbm = (s.rewriteEntries u g.entries (some g.new) false).hbm ∧
      ((∃ c a b, s.running = some (.migrate c a b)) → t.running = none ∧ t.cmdstat = 0) := by
  have hlen : u < s.homes.length := by
    by_contra h
    have hreset : s.home u = Home.reset := by rw [State.home, nth, List.getElem?_eq_none (not_lt.mp h)]; rfl
    rw [hreset] at hg
    exact absurd hg (by simp [Home.reset])
  have hhome := State.migrated_home (g := g) hlen
  have hmig : g ∉ ((s.migrated u g).home u).migrations := by rw [hhome]; simp
  have hcache : ∀ c ∈ ((s.migrated u g).home u).cache, c.leaf.entry ∉ g.entries := by
    intro c hc
    rw [hhome] at hc
    simpa using (List.mem_filter.mp hc).2
  rw [migrateCommit_eq hu hg hcopied hleases, s.migrated_running]
  have hhbm := s.migrated_hbm u g
  generalize s.migrated u g = v at hmig hcache hhbm
  split
  · exact ⟨_, rfl, hmig, hcache, hhbm, fun _ => ⟨rfl, rfl⟩⟩
  · next hother => exact ⟨_, rfl, hmig, hcache, hhbm, fun ⟨c, a, b, h⟩ => (hother _ _ _ h).elim⟩

end

end

/-! ### The end of RECLASS (R338) -/

/-- An address that a memory does not list reads zero. -/
theorem Memory.read_absent {m : Memory} {k : Nat} (h : ∀ c ∈ m, c.1 ≠ k) : m.read k = 0 := by
  induction m with
  | nil => rfl
  | cons c m ih =>
    obtain ⟨a, b⟩ := c
    have hne := h (a, b) List.mem_cons_self
    have hrest := ih fun c hc => h c (List.mem_cons_of_mem _ hc)
    rw [Memory.read, if_neg (Ne.symm hne), hrest, ite_self]

/-- A byte erased reads zero. -/
theorem Memory.read_erase {m : Memory} {lo n k : Nat} (hlo : lo ≤ k) (hhi : k < lo + n) : (m.erase lo n).read k = 0 :=
  Memory.read_absent fun c hc => by
    have hout := (List.mem_filter.mp hc).2
    rintro rfl
    simp [hlo, hhi] at hout

/-- The state in which a band has its new tier. -/
def State.reopened (s : State) (home band tier : Nat) : State :=
  { s with
    hbm := s.hbm.erase (hbmKey home (band * Config.bandSpan)) Config.bandSpan
    softErrors := s.softErrors.filter fun e => match e.site with
      | .hbm d line => !(d == home && decide (band * Config.bandSpan ≤ 64 * line ∧ 64 * line < band * Config.bandSpan + Config.bandSpan))
      | _ => true }.onHome home fun h =>
    { h with
      tiers := setAt h.tiers band tier
      closed := h.closed.filter (· != band)
      poisoned := h.poisoned.filter fun x => !decide (band * Config.bandSpan ≤ x ∧ x < band * Config.bandSpan + Config.bandSpan)
      reported := h.reported.filter fun x => !decide (band * Config.bandSpan ≤ x ∧ x < band * Config.bandSpan + Config.bandSpan) }

theorem bandReopen_eq {home band tier : Nat} {s : State} (hrun : s.running = some (.reclass home band tier)) :
    exec (.bandReopen home) s = .next (s.reopened home band tier).finishCommand := by
  change execBandReopen home s = _
  unfold execBandReopen
  simp only [hrun]
  exact if_neg (by simp)

/-- R338: the band reads zero, has its new tier, and takes parts again. -/
theorem bandReopen_reopens {home band tier : Nat} {s : State} (hrun : s.running = some (.reclass home band tier)) (hhome : home < 4)
    (hlen : home < s.homes.length) (hband : band < (s.home home).tiers.length) :
    ∃ t, exec (.bandReopen home) s = .next t ∧ t.running = none ∧ t.cmdstat = 0 ∧ nth (t.home home).tiers band 3 = tier ∧
      band ∉ (t.home home).closed ∧
      (s.mainCanonical = true → ∀ pa, band * 0x24000000 ≤ pa → pa < (band + 1) * 0x24000000 → t.readPhys home pa = 0) := by
  have htiers : ((s.reopened home band tier).home home).tiers = setAt (s.home home).tiers band tier := congrArg Home.tiers (State.home_onHome hlen)
  have hclosed : ((s.reopened home band tier).home home).closed = (s.home home).closed.filter (· != band) :=
    congrArg Home.closed (State.home_onHome hlen)
  refine ⟨_, bandReopen_eq hrun, rfl, rfl, ?_, ?_, fun _ pa hlo hhi => ?_⟩
  · refine (congrArg (nth · band 3) htiers).trans ?_
    simp [nth, setAt, hband]
  · refine fun h => absurd (hclosed ▸ h) ?_
    simp
  · rw [State.readPhys_die _ hhome]
    refine Memory.read_erase (m := s.hbm) (lo := hbmKey home (band * Config.bandSpan)) (n := Config.bandSpan) ?_ ?_
    · exact Nat.add_le_add_left hlo _
    · have hspan : (band + 1) * 0x24000000 = band * Config.bandSpan + Config.bandSpan := Nat.succ_mul ..
      rw [hbmKey, hbmKey, add_assoc]
      exact Nat.add_lt_add_left (hspan ▸ hhi) _

/-! ### Requests of peers (R399) -/

section
variable {chip ctx va : Nat} {lease : Option Nat} {op : PeerOp} {s : State}

/-- Does a request lie in one page? -/
def onePage (va : Nat) : PeerOp → Prop
  | .read n => 0 < n ∧ va % 65536 + n ≤ 65536
  | .write bs => 0 < bs.length ∧ va % 65536 + bs.length ≤ 65536
  | _ => True

/-- The condition as the statement on the events writes it. -/
theorem onePage_of {va : Nat} {op : PeerOp} (h : match op with
    | .read n => 0 < n ∧ va % 65536 + n ≤ 65536
    | .write bs => 0 < bs.length ∧ va % 65536 + bs.length ≤ 65536
    | _ => True) : onePage va op := by
  cases op <;> exact h

/-- A run within one page is one granule. -/
theorem granules_page {off n : Nat} (hn : 0 < n) (h : off % 65536 + n ≤ 65536) : granules 65536 off n = [(off, n)] := by
  have hcount : (off % 65536 + n + 65536 - 1) / 65536 = 1 := by omega
  rw [granules, hcount, List.range_one, List.map_singleton]
  congr 1
  refine Prod.ext ?_ ?_
  · dsimp only
    omega
  · dsimp only
    omega

theorem peerPages_one (h : onePage va op) : peerPages va op = [(va, op)] := by
  cases op with
  | read n => simp only [peerPages, granules_page h.1 h.2, List.map_cons, List.map_nil]
  | write bs =>
    simp only [peerPages, granules_page h.1 h.2, List.map_cons, List.map_nil, Nat.sub_self, List.drop_zero, List.take_length]
  | _ => rfl

theorem peerRequest_unlinked (h : 28 ≤ chip ∨ s.peerUp chip = false) : exec (.peerRequest chip ctx va lease op) s = .next s :=
  if_pos (by rcases h with h | h <;> simp [h])

section
variable (hchip : chip < 28) (hup : s.peerUp chip = true) (hone : onePage va op)
include hchip hup hone

theorem peerRequest_eq : exec (.peerRequest chip ctx va lease op) s = .next (s.peerPage chip ctx va lease op) := by
  refine (if_neg (by simp [hup, hchip])).trans ?_
  rw [peerPages_one hone]
  rfl

theorem peerRequest_refused (h : s.feature 4 = false ∨ 4 ≤ homeOf va ∨ va / 2 ^ 48 % 256 ≠ 0) :
    exec (.peerRequest chip ctx va lease op) s = .next (s.logError va ctx (homeOf va) 0x0D (0x100 + chip) 0) := by
  rw [peerRequest_eq hchip hup hone]
  refine congrArg Host.Outcome.next (if_pos ?_)
  simp only [Bool.or_eq_true, Bool.not_eq_true', decide_eq_true_iff, bne_iff_ne, or_assoc]
  exact h

variable (hfeature : s.feature 4 = true) (hhome : homeOf va < 4) (hbits : va / 2 ^ 48 % 256 = 0) {l : Leaf}
  (hl : (s.home (homeOf va)).cached ctx va = some l) (hop : ∀ n, op ≠ .leaseRequest n)
include hfeature hhome hbits hl hop

theorem peerRequest_leaf : exec (.peerRequest chip ctx va none op) s =
    .next (match s.checkLeaf (homeOf va) l va (needOf op) none with
      | some c => s.logError va ctx (homeOf va) c (0x100 + chip) 0
      | none => if s.logsFirst ctx (homeOf va) va l then s else s.servePeer (homeOf va) ctx va chip op l) := by
  have hgo : ¬(!s.feature 4 || decide (homeOf va ≥ Config.dies) || va / 2 ^ 48 % 256 != 0) = true := by
    have : ¬homeOf va ≥ Config.dies := not_le.mpr hhome
    rw [hbits]
    simp [hfeature, this]
  have hpage : s.peerPage chip ctx va none op =
      match s.outsideCheck (homeOf va) ctx va (0x100 + chip) (needOf op) 5 with
      | (s, none) => s
      | (s, some l) => s.servePeer (homeOf va) ctx va chip op l := by
    unfold State.peerPage
    dsimp only
    rw [if_neg hgo]
    cases op with
    | leaseRequest n => exact (hop n rfl).elim
    | _ => rfl
  rw [peerRequest_eq hchip hup hone, hpage]
  simp only [State.outsideCheck, State.outsideLeaf, unitOf_die hhome, hl]
  cases s.checkLeaf (homeOf va) l va (needOf op) none with
  | some c => rfl
  | none => by_cases hlog : s.logsFirst ctx (homeOf va) va l = true <;> simp [hlog]

end

end

/-! ### What a peer's request does at a sound place -/

theorem State.writePhys_crews (s : State) (k pa : Nat) (b : Byte) : (s.writePhys k pa b).crews = s.crews := by
  unfold State.writePhys
  split <;> rfl

theorem State.writeMainBytes_crews (s : State) (m : MainAt) (bs : List Byte) : (s.writeMainBytes none m bs).crews = s.crews := by
  induction bs generalizing s m with
  | nil => rfl
  | cons b bs ih =>
    refine (ih _ _).trans ?_
    rw [State.writeMain_none]
    unfold State.writeCommitted
    split
    · exact State.writePhys_crews ..
    · rfl

theorem State.storeIn_crews {s : State} (h : s.softErrors = []) (ctx : Nat) (m : MainAt) (bs : List Byte) (whole : Bool) :
    (s.storeIn none ctx m bs whole).crews = s.crews := by
  rw [State.storeIn_calm h]
  unfold State.healEntries
  dsimp only
  split <;> exact State.writeMainBytes_crews ..

theorem State.storePage_crews {s : State} (h : s.calm) {u pa : Nat} {bs : List Byte} (hu : u = 4 ∨ u < 4 ∧ pa + bs.length ≤ 2 ^ 52) (ctx : Nat) :
    (s.storePage none ctx ⟨u, pa⟩ bs).crews = s.crews := by
  have hkept : (s.storePage none ctx ⟨u, pa⟩ bs).calm ∧ (s.storePage none ctx ⟨u, pa⟩ bs).crews = s.crews := by
    refine List.foldlRecOn (motive := fun t : State => t.calm ∧ t.crews = s.crews) _ _ ⟨h, rfl⟩ fun t ⟨ht, hcrews⟩ x hx => ?_
    have hin := mem_granules hx
    have hplace : u = 4 ∨ u < 4 ∧ x.1 + ((bs.drop (x.1 - pa)).take x.2).length ≤ 2 ^ 52 :=
      hu.imp_right fun hu => ⟨hu.1, by rw [List.length_take]; dsimp only at hin; omega⟩
    exact ⟨(State.overlays_storeIn ht hplace ctx _).1, (State.storeIn_crews ht.1 ..).trans hcrews⟩
  exact hkept.2

theorem linesOf_unit {m x : MainAt} {n : Nat} (h : x ∈ linesOf m n) : x.unit = m.unit := by
  obtain ⟨g, -, rfl⟩ := List.mem_map.mp h
  rfl

section
variable {s : State} {home ctx va chip : Nat} {l : Leaf} (herr : s.softErrors = []) (hmig : (s.home home).migrations = []) (hhome : home < 4)

section
include herr

theorem State.scanLines_calm (m : MainAt) (n : Nat) : (linesOf m n).foldl (fun s x => s.scanLine ctx x) s = s := by
  have hsame (ms : List MainAt) : ms.foldl (fun s x => s.scanLine ctx x) s = s := by
    induction ms with
    | nil => rfl
    | cons m ms ih => rw [List.foldl_cons, State.scanLine_sound ctx (State.lineError_calm herr m), ih]
  exact hsame _

theorem State.linesBad_calm (m : MainAt) (n : Nat) : (linesOf m n).any s.lineBad = false :=
  List.any_eq_false.mpr fun x _ => by simp [State.lineBad_calm herr]

end

include hmig in
theorem State.linesCopied_none (pa n : Nat) : (linesOf ⟨home, pa⟩ n).any s.lineCopied = false :=
  List.any_eq_false.mpr fun x hx => by
    rw [State.lineCopied, State.copiesOf, linesOf_unit hx, hmig]
    simp

theorem State.readMainBytes_none (s : State) {u : Nat} (hu : u ≤ 4) (pa n : Nat) : s.readMainBytes none ⟨u, pa⟩ n = s.readPhysBytes u pa n :=
  List.map_congr_left fun k _ => by
    simp only [State.readMain, State.shadowOf_none]
    exact if_pos hu

section
include herr

theorem servePeer_read (n : Nat) : s.servePeer home ctx va chip (.read n) l = s := by
  simp only [State.servePeer, State.scanLines_calm herr, State.linesBad_calm herr, Bool.false_eq_true, if_false, id]

theorem servePeer_cellRead : s.servePeer home ctx va chip .cellRead l = s := by
  simp only [State.servePeer, State.scanLines_calm herr, State.linesBad_calm herr, Bool.false_eq_true, if_false, id, ite_self]

include hmig hhome

omit herr in
theorem servePeer_write (bs : List Byte) : s.servePeer home ctx va chip (.write bs) l = s.storePage none ctx ⟨home, l.place va⟩ bs := by
  have hunit := unitOf_die hhome
  simp only [State.servePeer, State.linesCopied_none hmig, Bool.false_eq_true, if_false, hunit]

theorem servePeer_atomic {kind n : Nat} {f : AtomicFn} {x y : Word64} (hf : peerAtomic kind = some f) (hn : n = 4 ∨ n = 8) (hva : va % n = 0) :
    s.servePeer home ctx va chip (.atomic kind n x y) l =
      match atomicNew f n (leNat (s.readPhysBytes home (l.place va) n)) (x.toNat % 2 ^ (8 * n)) (y.toNat % 2 ^ (8 * n)) with
      | some z => s.storeIn none ctx ⟨home, l.place va⟩ (leBytes n z) false
      | none => s := by
  have hunit := unitOf_die hhome
  have hgo : ¬((n != 4 && n != 8) || va % n != 0) = true := by rcases hn with rfl | rfl <;> simp [hva]
  simp only [State.servePeer, hf, State.linesCopied_none hmig, State.scanLines_calm herr,
    State.linesBad_calm herr, Bool.false_eq_true, if_false, hunit, State.readMainBytes_none s (show home ≤ 4 by omega)]
  exact if_neg hgo

theorem servePeer_cellAdd {int : Bool} {word : Word32} (hva : va % 64 = 0) :
    s.servePeer home ctx va chip (.cellAdd int word) l = s.storeIn none ctx ⟨home, l.place va⟩ (leBytes 64
      ((CxCell.ofNat (leNat (s.readPhysBytes home (l.place va) 64))).add
        (if int = true then Val.ofInt word.toInt else Float.fp32.decode word.toNat)).toNat) true := by
  have hunit := unitOf_die hhome
  simp only [State.servePeer, State.linesCopied_none hmig, State.scanLines_calm herr,
    State.linesBad_calm herr, Bool.false_eq_true, if_false, hunit, State.mainCell, State.readMainBytes_none s (show home ≤ 4 by omega)]
  exact if_neg (by simp [hva])

omit herr in
theorem servePeer_cellClear (hva : va % 64 = 0) :
    s.servePeer home ctx va chip .cellClear l = s.storeIn none ctx ⟨home, l.place va⟩ (leBytes 64 0) true := by
  have hunit := unitOf_die hhome
  simp only [State.servePeer, State.linesCopied_none hmig, Bool.false_eq_true, if_false, hunit]
  exact if_neg (by simp [hva])

end

end

section
variable {chip ctx va : Nat} {op : PeerOp} {s : State} {l : Leaf}

/-- The bytes a peer's request leaves at its place. -/
def peerPuts (s : State) (home pa : Nat) (r : Result) (bs : List Byte) : Prop :=
  pa + bs.length ≤ 2 ^ 52 → ∃ t, r = .next t ∧ t.holdsAt home pa bs ∧ s.sameOutside t [(home, pa, bs.length)] ∧ t.crews = s.crews

theorem peerPuts_storeIn {home pa : Nat} (hcalm : s.calm) (hhome : home < 4) (bs : List Byte) (whole : Bool) :
    peerPuts s home pa (.next (s.storeIn none ctx ⟨home, pa⟩ bs whole)) bs := fun hle => by
  obtain ⟨hholds, hsame⟩ := State.overlays_holds (State.overlays_storeIn hcalm (.inr ⟨hhome, hle⟩) ctx whole).2 (.inr ⟨hhome, hle⟩)
  exact ⟨_, rfl, hholds, hsame, State.storeIn_crews hcalm.1 ..⟩

theorem peerPuts_storePage {home pa : Nat} (hcalm : s.calm) (hhome : home < 4) (bs : List Byte) :
    peerPuts s home pa (.next (s.storePage none ctx ⟨home, pa⟩ bs)) bs := fun hle => by
  obtain ⟨hholds, hsame⟩ := State.overlays_holds (State.overlays_storePage hcalm (.inr ⟨hhome, hle⟩) ctx).2 (.inr ⟨hhome, hle⟩)
  exact ⟨_, rfl, hholds, hsame, State.storePage_crews hcalm (.inr ⟨hhome, hle⟩) ctx⟩

end

/-! ### Links (R399) -/

section
variable {link : Nat} {s : State} (hlink : link < 12) (hdown : s.linksDown.getLsbD link = false)
include hlink hdown

theorem linkFlitRetry_eq (ok : Bool) : exec (.linkFlitRetry link ok) s =
    if ok then .next { s with linkRetries := setAt s.linkRetries link 0 }
    else if nth s.linkRetries link 0 + 1 ≥ 16 then .next (s.dropLink link)
    else .next { s with linkRetries := setAt s.linkRetries link (nth s.linkRetries link 0 + 1) } :=
  if_neg (by rw [hdown, Bool.or_false, decide_eq_true_iff]; omega)

omit hdown in
theorem dropLink_down : (s.dropLink link).linksDown.getLsbD link = true := by
  have hkept : (s.dropLink link).linksDown = s.linksDown ||| BitVec.ofNat 12 (2 ^ link) :=
    foldl_keeps (g := State.linksDown) (fun s c => foldl_keeps (g := State.linksDown) (fun s x => by
      dsimp only
      split <;> rfl) _ s) _ _
  rw [hkept, BitVec.getLsbD_or, BitVec.getLsbD_ofNat, Nat.testBit_two_pow_self]
  simp [hlink]

end

/-! ### The events of the homes -/

/-- Settles O52, event by event: requests and walks of this device, leases, the end of a migration and of RECLASS, peers' requests, and links. -/
theorem homeEventsTakePlace : Obligations.HomeEventsTakePlace := by
  unfold Obligations.HomeEventsTakePlace
  refine ⟨fun k n s w o q hw ho hq => ⟨fun hhome hlen hbits hpending hturn => ⟨fun l hl => homeRequest_cached hw ho hq hhome hbits hpending hturn hl,
      fun hnone hwalked => ⟨homeRequest_waits hw ho hq hhome hbits hpending hturn hnone hwalked,
        homeRequest_refused hw ho hq hhome hbits hpending hturn hnone hwalked hlen⟩⟩,
      fun till hstatus => retryAfterResend_eq hw ho hq hstatus⟩,
    fun u n s x l hu hlen hx hn hfirst hwalk hops => walkComplete_caches hu hlen hx hn hfirst hwalk hops,
    fun home chip ctx va clocks lease s => ⟨rfl, rfl, leaseRecall_down, leaseRecall_ends, ?_, ?_, ?_, ?_⟩,
    fun u ctx va s g hu hg => migrateCommit_commits hu hg,
    fun home s band tier => bandReopen_reopens,
    fun chip ctx va lease op s => ?_,
    fun link s hlink hdown hlen => ⟨linkFlitRetry_eq hlink hdown true, fun hfew => ?_, fun hmany => ?_⟩⟩
  case refine_1 =>
    intro l hf hhome hof hbits hchip hup hpos hmax hheld hlen hl hstays hopen
    have hown : isOwnHome home = true := (isOwnHome_iff home).mpr (.inl hhome)
    exact leaseGrant_grants (State.leaseAllowed_iff.mpr ⟨hf, hown, hof, hchip, hup, hpos.ne', hmax, hheld⟩) hbits hhome hlen hl hstays hopen
  case refine_2 =>
    intro hf hhome hof hbits hchip hup hpos hmax hheld
    have hown : isOwnHome home = true := (isOwnHome_iff home).mpr (.inl hhome)
    exact leaseGrant_reserved (State.leaseAllowed_iff.mpr ⟨hf, hown, hof, hchip, hup, hpos.ne', hmax, hheld⟩) hbits
  case refine_3 =>
    intro hf hhome hof hbits hchip hup hpos hmax hheld hnone hwalked
    have hown : isOwnHome home = true := (isOwnHome_iff home).mpr (.inl hhome)
    exact leaseGrant_asks (State.leaseAllowed_iff.mpr ⟨hf, hown, hof, hchip, hup, hpos.ne', hmax, hheld⟩) hbits hhome hnone hwalked
  case refine_4 =>
    intro h
    refine leaseGrant_refused ?_
    rw [← Bool.not_eq_true, State.leaseAllowed_iff]
    rintro ⟨hf, -, hof, -, hup, hpos, hmax, hheld⟩
    rcases h with h | h | h | h | h | h
    · simp [hf] at h
    · exact h hof
    · simp [hup] at h
    · exact hpos h
    · omega
    · omega
  case refine_5 =>
    refine ⟨peerRequest_unlinked, fun hchip hup hone h => peerRequest_refused hchip hup (onePage_of hone) h,
      fun l hchip hup hone hf hhome hbits hlease hl hop => ?_⟩
    subst hlease
    have hexec := peerRequest_leaf hchip hup (onePage_of hone) hf hhome hbits hl hop
    refine ⟨fun c hc => ?_, fun hc hlog => ?_, fun hc hlog herr hcanon hmig => ?_⟩
    · rw [hexec, hc]
    · rw [hexec, hc]
      exact congrArg Host.Outcome.next (if_pos hlog)
    · replace hexec : exec (.peerRequest chip ctx va none op) s = .next (s.servePeer (homeOf va) ctx va chip op l) := by
        rw [hexec, hc]
        exact congrArg Host.Outcome.next (if_neg (by simp [hlog]))
      refine ⟨fun n h => ?_, fun bs h => ?_, fun kind f n x y h hf hn hva => ⟨fun z hz => ?_, fun hz => ?_⟩, fun int word h hva => ?_,
        fun h hva => ?_⟩
      · rcases h with rfl | rfl
        · rw [hexec, servePeer_read herr]
        · rw [hexec, servePeer_cellRead herr]
      · subst h
        rw [hexec, servePeer_write hmig hhome]
        exact peerPuts_storePage ⟨herr, hcanon⟩ hhome bs
      · subst h
        rw [hexec, servePeer_atomic herr hmig hhome hf hn hva, hz]
        exact peerPuts_storeIn ⟨herr, hcanon⟩ hhome _ _
      · subst h
        rw [hexec, servePeer_atomic herr hmig hhome hf hn hva, hz]
      · subst h
        rw [hexec, servePeer_cellAdd herr hmig hhome hva]
        exact peerPuts_storeIn ⟨herr, hcanon⟩ hhome _ _
      · subst h
        rw [hexec, servePeer_cellClear hmig hhome hva]
        exact peerPuts_storeIn ⟨herr, hcanon⟩ hhome _ _
  case refine_6 =>
    rw [linkFlitRetry_eq hlink hdown]
    exact (if_neg Bool.false_ne_true).trans (if_neg (by omega))
  case refine_7 =>
    refine ⟨_, ((linkFlitRetry_eq hlink hdown false).trans (if_neg Bool.false_ne_true)).trans (if_pos (by omega)), dropLink_down hlink⟩

end Sys2Proof.Machine
end

section
/-! The local port and the local side of the engines (R185-R188, R271-R274): what a local byte reads after writes, what the access at the head of the port
does, a matrix instruction's turn, and the local side of an operation. -/

namespace Sys2Proof.Machine

/-! ### A local byte after a write -/

theorem State.crew?_onCrew_map {s : State} {k : Nat} {f : Crew → Crew} (hf : ∀ x, (f x).key = x.key) (c : Nat) :
    (s.onCrew k f).crew? c = (s.crew? c).map fun x => if x.key == k then f x else x := by
  rw [State.crew?, State.onCrew, List.find?_map]
  refine congrArg (Option.map _) (congrArg (List.find? · s.crews) (funext fun x => ?_))
  simp only [Function.comp_apply]
  split <;> simp [hf]

theorem State.launch?_onLaunch_map {s : State} {k : Nat} {f : Launch → Launch} (hf : ∀ x, (f x).key = x.key) (c : Nat) :
    (s.onLaunch k f).launch? c = (s.launch? c).map fun x => if x.key == k then f x else x := by
  rw [State.launch?, State.onLaunch, List.find?_map]
  refine congrArg (Option.map _) (congrArg (List.find? · s.launches) (funext fun x => ?_))
  simp only [Function.comp_apply]
  split <;> simp [hf]

/-- The allotments of a launch after a write to that of one die. -/
def Launch.putMarver (x : Launch) (d off : Nat) (b : Byte) : Launch :=
  { x with marver := x.marver.map fun y => if y.1 == d then (y.1, y.2.write off b) else y }

theorem Launch.marverOn_putMarver (x : Launch) (d off : Nat) (b : Byte) (die : Nat) :
    (x.putMarver d off b).marverOn die =
      if die = d ∧ (x.marver.find? fun y => y.1 == die).isSome = true then (x.marverOn die).write off b else x.marverOn die := by
  have hfind : ((x.putMarver d off b).marver.find? fun y => y.1 == die) =
      (x.marver.find? fun y => y.1 == die).map fun y => if y.1 == d then (y.1, y.2.write off b) else y := by
    rw [Launch.putMarver, List.find?_map]
    refine congrArg (Option.map _) (congrArg (List.find? · x.marver) (funext fun y => ?_))
    simp only [Function.comp_apply]
    split <;> rfl
  rw [Launch.marverOn, hfind, Launch.marverOn]
  cases hx : x.marver.find? fun y => y.1 == die with
  | none => simp
  | some y =>
    have hy : y.1 = die := by simpa using List.find?_some hx
    by_cases hd : die = d <;> simp [hy, hd]

theorem State.crew?_writeLocal (s : State) (k off : Nat) (b : Byte) (c : Nat) :
    (s.writeLocal (.crew k off) b).crew? c = (s.crew? c).map fun x => if x.key == k then { x with store := x.store.write off b } else x :=
  State.crew?_onCrew_map (f := fun x => { x with store := x.store.write off b }) (fun _ => rfl) c

theorem State.launch?_writeLocal (s : State) (l d off : Nat) (b : Byte) (c : Nat) :
    (s.writeLocal (.marver l d off) b).launch? c = (s.launch? c).map fun x => if x.key == l then x.putMarver d off b else x :=
  State.launch?_onLaunch_map (f := fun x => x.putMarver d off b) (fun _ => rfl) c

theorem State.localCanonical_iff {s : State} :
    s.localCanonical = true ↔ (∀ c ∈ s.crews, c.store.wf = true) ∧ ∀ l ∈ s.launches, ∀ x ∈ l.marver, x.2.wf = true := by
  simp only [State.localCanonical, Bool.and_eq_true, List.all_eq_true]

section
variable {s : State} (h : s.localCanonical = true)
include h

theorem State.store_wf {k : Nat} {c : Crew} (hc : s.crew? k = some c) : c.store.wf = true :=
  (State.localCanonical_iff.mp h).1 c (List.mem_of_find?_eq_some hc)

theorem State.marverOn_wf {k : Nat} {l : Launch} (hl : s.launch? k = some l) (d : Nat) : (l.marverOn d).wf = true := by
  unfold Launch.marverOn
  cases hx : l.marver.find? fun x => x.1 == d with
  | none => rfl
  | some x => exact (State.localCanonical_iff.mp h).2 l (List.mem_of_find?_eq_some hl) x (List.mem_of_find?_eq_some hx)

theorem State.localCanonical_writeLocal (p : LocalAt) (b : Byte) : (s.writeLocal p b).localCanonical = true := by
  obtain ⟨hcrews, hlaunches⟩ := State.localCanonical_iff.mp h
  rw [State.localCanonical_iff]
  cases p with
  | crew k off =>
    refine ⟨fun c hc => ?_, hlaunches⟩
    obtain ⟨x, hx, rfl⟩ := List.mem_map.mp hc
    split
    · exact Memory.wf_write _ _ (hcrews x hx)
    · exact hcrews x hx
  | marver l d off =>
    refine ⟨hcrews, fun c hc y hy => ?_⟩
    obtain ⟨x, hx, rfl⟩ := List.mem_map.mp hc
    split at hy
    · obtain ⟨z, hz, rfl⟩ := List.mem_map.mp hy
      split
      · exact Memory.wf_write _ _ (hlaunches x hx z hz)
      · exact hlaunches x hx z hz
    · exact hlaunches x hx y hy

/-- Another place reads as before. -/
theorem State.readLocal_writeLocal_other {p q : LocalAt} (b : Byte) (hpq : p ≠ q) : (s.writeLocal p b).readLocal q = s.readLocal q := by
  cases p with
  | crew k off =>
    cases q with
    | marver l d off' => rfl
    | crew c off' =>
      rw [State.readLocal, State.readLocal, State.crew?_writeLocal]
      cases hc : s.crew? c with
      | none => rfl
      | some x =>
        have hkey : x.key = c := by simpa using List.find?_some hc
        simp only [Option.map_some, Option.getD_some, hkey]
        by_cases hk : c = k
        · have hoff : off' ≠ off := fun hoff => hpq (by rw [hk, hoff])
          simp only [hk, beq_self_eq_true, if_true]
          rw [Memory.read_write _ _ _ (State.store_wf h hc), if_neg hoff]
        · simp [hk]
  | marver l d off =>
    cases q with
    | crew c off' => rfl
    | marver l' d' off' =>
      rw [State.readLocal, State.readLocal, State.launch?_writeLocal]
      cases hl : s.launch? l' with
      | none => rfl
      | some x =>
        have hkey : x.key = l' := by simpa using List.find?_some hl
        have hread : ((x.putMarver d off b).marverOn d').read off' = (x.marverOn d').read off' ∨ l' ≠ l := by
          by_cases hne : l' = l
          · left
            rw [Launch.marverOn_putMarver]
            split
            · next hd =>
              rw [Memory.read_write _ _ _ (State.marverOn_wf h hl d'), if_neg]
              exact fun hoff => hpq (by rw [hne, hd.1, hoff])
            · rfl
          · exact .inr hne
        simp only [Option.map_some, Option.getD_some, hkey]
        rcases hread with hread | hne
        · split
          · exact hread
          · rfl
        · simp [hne]

/-- The byte written of a crew that is there reads back. -/
theorem State.readLocal_writeLocal_same {c : Nat} (off : Nat) (b : Byte) (hc : (s.crew? c).isSome = true) :
    (s.writeLocal (.crew c off) b).readLocal (.crew c off) = b := by
  obtain ⟨x, hx⟩ := Option.isSome_iff_exists.mp hc
  have hkey : x.key = c := by simpa using List.find?_some hx
  rw [State.readLocal, State.crew?_writeLocal, hx]
  simp only [Option.map_some, Option.getD_some, hkey, beq_self_eq_true, if_true]
  rw [Memory.read_write _ _ _ (State.store_wf h hx), if_pos rfl]

end

theorem State.isSome_crew?_writeLocal (s : State) (p : LocalAt) (b : Byte) (c : Nat) : ((s.writeLocal p b).crew? c).isSome = (s.crew? c).isSome := by
  cases p with
  | crew k off =>
    rw [State.crew?_writeLocal, Option.isSome_map]
  | marver l d off => rfl

/-! ### The writes of a store -/

/-- A store's writes, in order. -/
def State.writeAll (s : State) (writes : List (LocalAt × Byte × Byte)) : State := writes.foldl (fun s y => s.writeLocalBits y.1 y.2.1 y.2.2) s

theorem State.writeAll_spec {s : State} (h : s.localCanonical = true) (writes : List (LocalAt × Byte × Byte)) :
    (s.writeAll writes).localCanonical = true ∧
      (∀ at_, (∀ y ∈ writes, y.1 ≠ at_) → (s.writeAll writes).readLocal at_ = s.readLocal at_) ∧
      ∀ c, ((s.writeAll writes).crew? c).isSome = (s.crew? c).isSome := by
  induction writes generalizing s with
  | nil => exact ⟨h, fun _ _ => rfl, fun _ => rfl⟩
  | cons y ys ih =>
    obtain ⟨hcanon, hread, hcrew⟩ := ih (s := s.writeLocalBits y.1 y.2.1 y.2.2) (State.localCanonical_writeLocal h _ _)
    refine ⟨hcanon, fun at_ hout => ?_, fun c => (hcrew c).trans (State.isSome_crew?_writeLocal ..)⟩
    exact (hread at_ fun z hz => hout z (List.mem_cons_of_mem _ hz)).trans
      (State.readLocal_writeLocal_other h _ (hout y List.mem_cons_self))

theorem State.writeAll_last {s : State} (h : s.localCanonical = true) (front : List (LocalAt × Byte × Byte)) {c : Nat} (off : Nat) (b : Byte)
    (hc : (s.crew? c).isSome = true) : (s.writeAll (front ++ [(.crew c off, b, 0xFF)])).readLocal (.crew c off) = b := by
  obtain ⟨hcanon, -, hcrew⟩ := State.writeAll_spec h front
  have hfull : ∀ x : Byte, (x &&& ~~~0xFF#8) ||| (b &&& 0xFF#8) = b := fun x => by
    have hnot : ~~~0xFF#8 = 0#8 := by decide
    have hones : 0xFF#8 = BitVec.allOnes 8 := by decide
    rw [hnot, BitVec.and_zero, BitVec.zero_or, hones, BitVec.and_allOnes]
  rw [State.writeAll, List.foldl_append, List.foldl_cons, List.foldl_nil, ← State.writeAll]
  refine (State.readLocal_writeLocal_same hcanon off _ ((hcrew c).trans hc)).trans (hfull _)

/-! ### The access at the head of the port (R269, R271) -/

section
variable {s : State} (herr : s.softErrors = [])
include herr

theorem localError_calm (p : LocalAt) : localError s p = none := by rw [localError, herr]; rfl

theorem State.scanLocal_calm (w : Wave) (places : List LocalAt) : s.scanLocal w places = (s, none) := by
  unfold State.scanLocal
  induction places with
  | nil => rfl
  | cons p ps ih => simpa only [List.foldl_cons, localError_calm herr] using ih

theorem State.storeLocal_calm (w : Wave) (p : LocalAt) (b mask : Byte) (whole : Bool) : s.storeLocal w p b mask whole = s.writeLocalBits p b mask := by
  simp only [State.storeLocal, State.readyLocal, localError_calm herr]

theorem State.clearErrors_calm (w : Wave) (gone : ErrSite → Bool) : s.clearErrors w gone = s := by
  simp only [State.clearErrors, herr, List.filter_nil, List.foldl_nil]
  rw [← herr]

theorem State.clearScalar_calm (w : Wave) (k : Nat) : s.clearScalar w k = s := by
  unfold State.clearScalar
  rw [State.clearErrors_calm herr, ite_self]

end

theorem State.writeLocal_softErrors (s : State) (p : LocalAt) (b : Byte) : (s.writeLocal p b).softErrors = s.softErrors := by
  cases p <;> rfl

theorem State.storeAll_calm {s : State} (herr : s.softErrors = []) (w : Wave) (writes : List (LocalAt × Byte × Byte)) :
    s.storeAll w writes = s.writeAll writes := by
  have hsame (full : List LocalAt) : writes.foldl (fun s y => s.storeLocal w y.1 y.2.1 y.2.2 (coversWord full y.1)) s = s.writeAll writes := by
    induction writes generalizing s with
    | nil => rfl
    | cons y ys ih =>
      rw [List.foldl_cons, State.storeLocal_calm herr]
      exact ih ((State.writeLocal_softErrors ..).trans herr)
  exact hsame _

section
variable {k : Nat} {s : State} {w : Wave} {x : PortAcc} {rest : List PortAcc} (hw : s.wave? k = some w) (hport : w.port = x :: rest)
  (htoken : s.hasToken w = true) (herr : s.softErrors = [])
include hw hport htoken herr

theorem portAccess_store {writes : List (LocalAt × Byte × Byte)} (hjob : x.job = .store writes) :
    exec (.portAccess k) s = .next ((s.writeAll writes).onWave k Wave.popPort) := by
  change execPortAccess k s = _
  unfold execPortAccess
  simp only [hw, hport, htoken, hjob, Bool.not_true, Bool.false_eq_true, if_false, State.storeAll_calm herr]

theorem portAccess_vload {d : Nat} {raw : Option Nat} {storage compute : Fmt} {accs : List LaneAcc} (hjob : x.job = .vload d raw storage compute accs) :
    exec (.portAccess k) s = .next (s.onWave k fun w =>
      (((w.popPort.writeV d (Mask.ofLanes (accs.map LaneAcc.lane))
        (fun l => (((accs.map fun a => (a.lane, s.loadLane raw storage compute a)).find? fun y => y.1 == l).map fun y => y.2.1).getD 0) .general).flags
          ((accs.map fun a => (a.lane, s.loadLane raw storage compute a)).foldl (fun acc y => acc ||| y.2.2) 0)).markV d false).unboard (0x400 + d)) := by
  change execPortAccess k s = _
  unfold execPortAccess
  simp only [hw, hport, htoken, hjob, Bool.not_true, Bool.false_eq_true, if_false, State.scanLocal_calm herr, State.clearWritten,
    State.clearErrors_calm herr]

theorem portAccess_sload {d n : Nat} {at_ shadowAt : LocalAt} (hjob : x.job = .sload d n at_ shadowAt) :
    exec (.portAccess k) s = .next (s.onWave k fun w =>
      (w.popPort.putS d (BitVec.ofNat 64 (leNat (s.readLocalBytes at_ n))) (BitVec.ofNat 64 (leNat (s.readLocalBytes shadowAt n)))).wake x.lane) := by
  change execPortAccess k s = _
  unfold execPortAccess
  simp only [hw, hport, htoken, hjob, Bool.not_true, Bool.false_eq_true, if_false, State.scanLocal_calm herr, State.clearScalar_calm herr]

theorem portAccess_atomic {op : Nat} {o : Op} (hjob : x.job = .atomic op) (ho : w.op? op = some o) :
    exec (.portAccess k) s =
      .next ((s.atomicLocal o.atomicSize (o.pieces.filter fun y => y.part == o.parts.length)).1.onWave k fun w => w.popPort.onOp op fun o' =>
        { o' with pieces := (o.pieces.filter fun y => y.part != o.parts.length) ++
          (s.atomicLocal o.atomicSize (o.pieces.filter fun y => y.part == o.parts.length)).2 }) := by
  change execPortAccess k s = _
  unfold execPortAccess
  simp only [hw, hport, htoken, hjob, ho, Bool.not_true, Bool.false_eq_true, if_false, State.scanLocal_calm herr]

end

/-! ### A matrix instruction's turn (R235) -/

/-- Every byte of main and local memory reads the same. -/
def State.sameBytes (s t : State) : Prop :=
  t.hbm = s.hbm ∧ t.hostMem = s.hostMem ∧ t.peerMem = s.peerMem ∧ ∀ at_, t.readLocal at_ = s.readLocal at_

theorem State.readLocal_congr {s t : State} (hcrews : t.crews = s.crews)
    (hmarver : ∀ l, (t.launch? l).map Launch.marver = (s.launch? l).map Launch.marver) (at_ : LocalAt) : t.readLocal at_ = s.readLocal at_ := by
  cases at_ with
  | crew k off => rw [State.readLocal, State.readLocal, State.crew?, State.crew?, hcrews]
  | marver l d off =>
    have hread (u : State) : u.readLocal (.marver l d off) =
        (((u.launch? l).map Launch.marver).map fun m => (((m.find? fun x => x.1 == d).map Prod.snd).getD []).read off).getD 0 := by
      rw [Option.map_map]
      rfl
    rw [hread, hread, hmarver]

theorem State.sameBytes_of_sameMemory {s t : State} (h : s.sameMemory t) : s.sameBytes t := by
  obtain ⟨hhbm, hhost, hpeer, -, hcrews, hlaunches⟩ := h
  exact ⟨hhbm, hhost, hpeer, State.readLocal_congr hcrews fun l => by rw [State.launch?, State.launch?, hlaunches]⟩

theorem State.sameBytes_trans {s t u : State} (h : s.sameBytes t) (h' : t.sameBytes u) : s.sameBytes u := by
  obtain ⟨hhbm, hhost, hpeer, hread⟩ := h
  obtain ⟨hhbm', hhost', hpeer', hread'⟩ := h'
  exact ⟨hhbm'.trans hhbm, hhost'.trans hhost, hpeer'.trans hpeer, fun at_ => (hread' at_).trans (hread at_)⟩

theorem State.sameBytes_contextFault (s : State) (ctx : Nat) (f : LogFields) : s.sameBytes (s.contextFault ctx f) := by
  rw [State.contextFault_eq]
  refine ⟨rfl, rfl, rfl, State.readLocal_congr rfl fun l => ?_⟩
  have hkey : ((fun x : Launch => x.key == l) ∘ fun x : Launch => if (s.faultedLaunches ctx).contains x.key && x.state != .completed then
      { x with killed := true } else x) = fun x : Launch => x.key == l := funext fun x => by
    simp only [Function.comp_apply]
    split <;> rfl
  simp only [State.launch?, List.find?_map, hkey, Option.map_map]
  refine congrArg (Option.map · _) (funext fun x => ?_)
  simp only [Function.comp_apply]
  split <;> rfl

theorem State.sameBytes_logIntegrityAt (s : State) (time : Nat) (f : LogFields) : s.sameBytes (s.logIntegrityAt time f) := by
  unfold State.logIntegrityAt
  split
  · exact State.sameBytes_of_sameMemory s.sameMemory_refl
  · exact State.sameBytes_of_sameMemory s.sameMemory_refl

theorem State.sameBytes_demandRollback (s : State) (w : Wave) (d : Demand) : s.sameBytes (s.demandRollback w d) := by
  unfold State.demandRollback
  dsimp only
  split
  · exact State.sameBytes_trans (State.sameBytes_logIntegrityAt (s.putWave (w.fillDemand d)) ..) (State.sameBytes_contextFault ..)
  · exact State.sameBytes_of_sameMemory s.sameMemory_refl

theorem State.quietly_trans {s t u : State} (h : s.quietly t) (h' : t.quietly u) : s.quietly u := by
  obtain ⟨hwaves, h1, h2, h3, h4, h5, h6⟩ := h
  obtain ⟨hwaves', h1', h2', h3', h4', h5', h6'⟩ := h'
  exact ⟨hwaves'.trans hwaves, h1'.trans h1, h2'.trans h2, h3'.trans h3, h4'.trans h4, h5'.trans h5, h6'.trans h6⟩

theorem State.quietly_clearDrained (s : State) (w : Wave) (o : Op) : s.quietly (s.clearDrained w o) := by
  unfold State.clearDrained
  split
  · next d =>
    exact List.foldlRecOn (motive := fun t => s.quietly t) _ _ s.quietly_refl fun t ht c _ => State.quietly_trans ht (State.quietly_clearErrors ..)
  · exact s.quietly_refl

theorem State.sameBytes_turn (s : State) (w : Wave) (o : Op) (job : MatJob) : s.sameBytes (s.turn w o job) := by
  unfold State.turn
  dsimp only
  refine iteInduction (motive := s.sameBytes) (fun _ => State.sameBytes_demandRollback ..) fun _ => ?_
  refine State.sameBytes_of_sameMemory ?_
  by_cases hrows : w.writesTile o job = true
  · rw [if_pos hrows]
    exact (State.quietly_trans (State.quietly_clearErrors ..) (State.quietly_clearDrained ..)).2
  · rw [if_neg hrows]
    exact (State.quietly_clearDrained ..).2

/-- An `mma` or `mmaz` that would set invalid under the trap writes no row. -/
theorem State.turn_fails {s : State} {w : Wave} {o : Op} {job : MatJob} {zero : Bool} (hkind : o.kind = .mma zero)
    (hbad : (w.relatch o job).invalidRows o job zero ≠ []) :
    s.turn w o job = s.putWave ((w.relatch o job).failAtTurn o 0x10 ((w.relatch o job).invalidRows o job zero)) := by
  have hfails : ((w.relatch o job).invalidRows o job zero).isEmpty = false := by simpa using hbad
  have hturn : w.turnMma o job zero = (w.relatch o job).failAtTurn o 0x10 ((w.relatch o job).invalidRows o job zero) := by
    unfold Wave.turnMma
    dsimp only
    rw [hfails]
    rfl
  have hwrites : w.writesTile o job = false := by simp only [Wave.writesTile, hkind, hfails]
  unfold State.turn
  simp only [hkind, OpKind.isDrain, Bool.and_false, Bool.false_eq_true, if_false, List.isEmpty_nil, Bool.not_true, Bool.or_self, hturn, hwrites,
    State.clearDrained, Bool.false_and]

/-! ### The local side of an operation (R274) -/

/-- What the local side leaves of a piece: its places, its job, how many bytes it carries, and those that it reads from no local source. -/
structure Shape where
  dst : Option LocalAt
  src : Option LocalAt
  len : Nat
  data : List (Option Byte)

def Piece.shape (x : Piece) : Shape := ⟨x.dst, x.src, x.data.length, if x.src.isNone then x.data else []⟩

/-- The wave K has the operation k with pieces of these shapes, and no bit error is about. -/
def State.carrying (s : State) (K k : Nat) (sh : List Shape) : Prop :=
  s.softErrors = [] ∧ s.localCanonical = true ∧ ∃ v o, s.wave? K = some v ∧ v.op? k = some o ∧ o.pieces.map Piece.shape = sh

theorem Wave.op?_onOp {w : Wave} {k : Nat} {o : Op} {f : Op → Op} (hf : ∀ x, (f x).key = x.key) (h : w.op? k = some o) :
    (w.onOp k f).op? k = some (f o) := by
  have hkey : o.key = k := by simpa using List.find?_some h
  rw [Wave.op?] at h
  rw [Wave.op?, Wave.onOp, List.find?_map]
  have hsame : ((fun x : Op => x.key == k) ∘ fun x : Op => if x.key == k then f x else x) = fun x : Op => x.key == k := funext fun x => by
    simp only [Function.comp_apply]
    split <;> simp [hf]
  rw [hsame, h, Option.map_some, if_pos (by simpa using hkey)]

theorem map_shape_modifyAt {ps : List Piece} {i : Nat} {x : Piece} {f : Piece → Piece} (hx : ps[i]? = some x) (hf : (f x).shape = x.shape) :
    (modifyAt ps i f).map Piece.shape = ps.map Piece.shape := by
  apply List.ext_getElem?
  intro j
  rw [modifyAt, List.getElem?_map, List.getElem?_map, List.getElem?_modify]
  by_cases hij : i = j
  · subst hij
    simp [hx, hf]
  · simp [hij]

/-- Changing a piece without changing its shape keeps what the wave carries. -/
theorem State.carrying_put {s : State} {K k i : Nat} {sh : List Shape} {v : Wave} {o : Op} {x : Piece} {f : Piece → Piece}
    (h : s.carrying K k sh) (hv : s.wave? K = some v) (ho : v.op? k = some o) (hx : o.pieces[i]? = some x) (hf : (f x).shape = x.shape) :
    (s.onWave K fun w => w.onOp k fun o => { o with pieces := modifyAt o.pieces i f }).carrying K k sh := by
  obtain ⟨herr, hcanon, v', o', hv', ho', hsh⟩ := h
  obtain rfl : v = v' := Option.some.inj (hv.symm.trans hv')
  obtain rfl : o = o' := Option.some.inj (ho.symm.trans ho')
  refine ⟨herr, hcanon, v.onOp k fun o => { o with pieces := modifyAt o.pieces i f }, { o with pieces := modifyAt o.pieces i f },
    State.wave?_onWave (fun _ => rfl) hv, Wave.op?_onOp (fun _ => rfl) ho, ?_⟩
  exact (map_shape_modifyAt hx hf).trans hsh

/-- Writes of pieces of these shapes: each of a byte that the piece carries, to its place. -/
def writesOf (sh : List Shape) (ws : List (LocalAt × Byte × Byte)) : Prop :=
  ∀ y ∈ ws, ∃ q ∈ sh, ∃ p n b, q.dst = some p ∧ n < q.len ∧ y = (p.plus n, b, 0xFF) ∧ (q.src = none → q.data[n]? = some (some b))

/-- A state holds what the writes leave in local memory, and main memory is as before. -/
def State.wrote (s t : State) (ws : List (LocalAt × Byte × Byte)) : Prop :=
  t.crews = (s.writeAll ws).crews ∧ t.launches = (s.writeAll ws).launches ∧ t.hbm = s.hbm ∧ t.hostMem = s.hostMem ∧ t.peerMem = s.peerMem

theorem State.writeAll_congr {s t : State} (hc : t.crews = s.crews) (hl : t.launches = s.launches) (ws : List (LocalAt × Byte × Byte)) :
    (t.writeAll ws).crews = (s.writeAll ws).crews ∧ (t.writeAll ws).launches = (s.writeAll ws).launches := by
  induction ws generalizing s t with
  | nil => exact ⟨hc, hl⟩
  | cons y ys ih =>
    have hread : t.readLocal y.1 = s.readLocal y.1 := State.readLocal_congr hc (fun l => by rw [State.launch?, State.launch?, hl]) _
    refine ih (s := s.writeLocalBits y.1 y.2.1 y.2.2) (t := t.writeLocalBits y.1 y.2.1 y.2.2) ?_ ?_
    · rw [State.writeLocalBits, State.writeLocalBits, hread]
      cases y.1 with
      | crew k off => exact congrArg (List.map _) hc
      | marver l d off => exact hc
    · rw [State.writeLocalBits, State.writeLocalBits, hread]
      cases y.1 with
      | crew k off => exact hl
      | marver l d off => exact congrArg (List.map _) hl

theorem State.wrote_trans {s t u : State} {ws vs : List (LocalAt × Byte × Byte)} (h : s.wrote t ws) (h' : t.wrote u vs) : s.wrote u (ws ++ vs) := by
  obtain ⟨hc, hl, h1, h2, h3⟩ := h
  obtain ⟨hc', hl', h1', h2', h3'⟩ := h'
  obtain ⟨hcrews, hlaunches⟩ := State.writeAll_congr hc hl vs
  have happend : s.writeAll (ws ++ vs) = (s.writeAll ws).writeAll vs := List.foldl_append
  rw [State.wrote, happend]
  exact ⟨hc'.trans hcrews, hl'.trans hlaunches, h1'.trans h1, h2'.trans h2, h3'.trans h3⟩

theorem State.wave?_writeLocal (s : State) (p : LocalAt) (b : Byte) (K : Nat) : (s.writeLocal p b).wave? K = s.wave? K := by
  cases p <;> rfl

theorem State.carrying_writeLocal {s : State} {K k : Nat} {sh : List Shape} (h : s.carrying K k sh) (p : LocalAt) (b : Byte) :
    (s.writeLocal p b).carrying K k sh := by
  obtain ⟨herr, hcanon, v, o, hv, ho, hsh⟩ := h
  exact ⟨(State.writeLocal_softErrors ..).trans herr, State.localCanonical_writeLocal hcanon p b, v, o, (State.wave?_writeLocal ..).trans hv, ho, hsh⟩

/-- One act reads a byte, or writes one that its piece carries. -/
theorem State.localAct_writes {s : State} {w : Wave} {k : Nat} {sh : List Shape} (h : s.carrying w.key k sh) (act : LocalAct) :
    ∃ ws, s.wrote (s.localAct w k act) ws ∧ (s.localAct w k act).carrying w.key k sh ∧ writesOf sh ws ∧
      (act.read = false → ∀ q, sh[act.piece]? = some q → ∀ p b, q.dst = some p → q.src = none → q.data[act.byte]? = some (some b) →
        (p.plus act.byte, b, 0xFF) ∈ ws) := by
  have hsame (hnone : act.read = false → ∀ q, sh[act.piece]? = some q → ∀ p b, q.dst = some p → q.src = none →
      q.data[act.byte]? = some (some b) → False) : ∃ ws, s.wrote s ws ∧ s.carrying w.key k sh ∧ writesOf sh ws ∧
      (act.read = false → ∀ q, sh[act.piece]? = some q → ∀ p b, q.dst = some p → q.src = none → q.data[act.byte]? = some (some b) →
        (p.plus act.byte, b, 0xFF) ∈ ws) :=
    ⟨[], ⟨rfl, rfl, rfl, rfl, rfl⟩, h, fun y hy => (List.not_mem_nil hy).elim, fun hread q hq p b hd hs hb => (hnone hread q hq p b hd hs hb).elim⟩
  have hcarry := h
  obtain ⟨herr, hcanon, v, o, hv, ho, hsh⟩ := h
  have hshape : sh[act.piece]? = (o.pieces[act.piece]?).map Piece.shape := by rw [← hsh, List.getElem?_map]
  unfold State.localAct
  simp only [hv, ho, Option.bind_some]
  cases hx : o.pieces[act.piece]? with
  | none =>
    refine hsame fun _ q hq => ?_
    rw [hshape, hx] at hq
    exact absurd hq (by simp)
  | some x =>
    rw [hx, Option.map_some] at hshape
    have hmem : x.shape ∈ sh := List.mem_of_getElem? hshape
    simp only [Option.map_some, State.scanLocal_calm herr, State.storeLocal_calm herr]
    by_cases hread : act.read = true
    · rw [if_pos hread]
      cases hsrc : x.src with
      | none => exact hsame fun hnot => absurd (hread.symm.trans hnot) (by decide)
      | some p =>
        have hkept : ({ x with data := setAt x.data act.byte (some (s.readLocal (p.plus act.byte))) } : Piece).shape = x.shape := by
          simp [Piece.shape, hsrc, setAt]
        exact ⟨[], ⟨rfl, rfl, rfl, rfl, rfl⟩, State.carrying_put hcarry hv ho hx hkept, fun y hy => (List.not_mem_nil hy).elim,
          fun hnot => absurd (hread.symm.trans hnot) (by decide)⟩
    · rw [if_neg hread]
      have hbyte (b : Byte) : nth x.data act.byte none = some b ↔ x.data[act.byte]? = some (some b) := by
        rw [nth]
        cases x.data[act.byte]? <;> simp
      have hstays (hnone : x.dst = none ∨ nth x.data act.byte none = none) : ∀ q, sh[act.piece]? = some q → ∀ p b, q.dst = some p → q.src = none →
          q.data[act.byte]? = some (some b) → False := by
        intro q hq p b hd hs hb
        obtain rfl : x.shape = q := Option.some.inj (hshape.symm.trans hq)
        rcases hnone with hnone | hnone
        · exact absurd (hnone.symm.trans hd) (by simp)
        · rw [Piece.shape, if_pos (by rw [Option.isNone_iff_eq_none]; exact hs), ← hbyte] at hb
          exact absurd (hnone.symm.trans hb) (by simp)
      cases hdst : x.dst with
      | none => exact hsame fun _ => hstays (.inl hdst)
      | some p =>
        cases hb : nth x.data act.byte none with
        | none => exact hsame fun _ => hstays (.inr hb)
        | some b =>
          refine ⟨[(p.plus act.byte, b, 0xFF)], ?_, ?_, ?_, ?_⟩
          · cases p <;> exact ⟨rfl, rfl, rfl, rfl, rfl⟩
          · exact State.carrying_put (State.carrying_writeLocal hcarry _ _) ((State.wave?_writeLocal ..).trans hv) ho hx rfl
          · intro y hy
            obtain rfl := List.mem_singleton.mp hy
            have hlen : act.byte < x.data.length := (List.getElem?_eq_some_iff.mp ((hbyte b).mp hb)).1
            refine ⟨_, hmem, p, act.byte, b, hdst, hlen, rfl, fun hs => ?_⟩
            rw [Piece.shape, if_pos (by rw [Option.isNone_iff_eq_none]; exact hs)]
            exact (hbyte b).mp hb
          · intro _ q hq p' b' hd hs hb'
            obtain rfl : x.shape = q := Option.some.inj (hshape.symm.trans hq)
            obtain rfl : p = p' := Option.some.inj (hdst.symm.trans hd)
            rw [Piece.shape, if_pos (by rw [Option.isNone_iff_eq_none]; exact hs), ← hbyte, hb] at hb'
            obtain rfl : b = b' := Option.some.inj hb'
            exact List.mem_singleton.mpr rfl

/-- Acts, one after another. -/
def State.localActs (s : State) (w : Wave) (k : Nat) (acts : List LocalAct) : State := acts.foldl (fun s a => s.localAct w k a) s

theorem State.localActs_write {s : State} {w : Wave} {k : Nat} {sh : List Shape} (h : s.carrying w.key k sh) (acts : List LocalAct) :
    ∃ ws, s.wrote (s.localActs w k acts) ws ∧ (s.localActs w k acts).carrying w.key k sh ∧ writesOf sh ws ∧
      (∀ act ∈ acts, act.read = false → ∀ q, sh[act.piece]? = some q → ∀ p b, q.dst = some p → q.src = none →
        q.data[act.byte]? = some (some b) → (p.plus act.byte, b, 0xFF) ∈ ws) := by
  induction acts generalizing s with
  | nil => exact ⟨[], ⟨rfl, rfl, rfl, rfl, rfl⟩, h, fun y hy => (List.not_mem_nil hy).elim, fun a ha => (List.not_mem_nil ha).elim⟩
  | cons act acts ih =>
    obtain ⟨ws, hwrote, hcarry, hof, hact⟩ := State.localAct_writes h act
    obtain ⟨vs, hwrote', hcarry', hof', hacts⟩ := ih hcarry
    refine ⟨ws ++ vs, State.wrote_trans hwrote hwrote', hcarry', fun y hy => (List.mem_append.mp hy).elim (hof y) (hof' y), fun a ha => ?_⟩
    rcases List.mem_cons.mp ha with rfl | ha
    · exact fun hr q hq p b hd hs hb => List.mem_append_left _ (hact hr q hq p b hd hs hb)
    · exact fun hr q hq p b hd hs hb => List.mem_append_right _ (hacts a ha hr q hq p b hd hs hb)

/-- The local side of an operation writes bytes of its pieces; all of it, each byte left of a piece that reads no local source. -/
theorem State.performLocal_writes {s : State} {w : Wave} {o : Op} (hw : s.wave? w.key = some w) (ho : w.op? o.key = some o) (herr : s.softErrors = [])
    (hcanon : s.localCanonical = true) (pick : Option Nat) :
    ∃ ws, s.wrote (s.performLocal w o pick) ws ∧ writesOf (o.pieces.map Piece.shape) ws ∧
      (pick = none → ∀ act ∈ o.localActs, act.read = false → ∀ q, (o.pieces.map Piece.shape)[act.piece]? = some q → ∀ p b, q.dst = some p →
        q.src = none → q.data[act.byte]? = some (some b) → (p.plus act.byte, b, 0xFF) ∈ ws) := by
  have hcarry : s.carrying w.key o.key (o.pieces.map Piece.shape) := ⟨herr, hcanon, w, o, hw, ho, rfl⟩
  cases pick with
  | some n =>
    have hrun : ∃ acts, s.performLocal w o (some n) = s.localActs w o.key acts := by
      unfold State.performLocal
      dsimp only
      split
      · exact ⟨[], rfl⟩
      · exact ⟨_, rfl⟩
    obtain ⟨acts, hacts⟩ := hrun
    obtain ⟨ws, hwrote, -, hof, -⟩ := State.localActs_write hcarry acts
    exact ⟨ws, hacts ▸ hwrote, hof, fun h => absurd h (by simp)⟩
  | none =>
    obtain ⟨ws, hwrote, hcarry', hof, hact⟩ := State.localActs_write hcarry o.localActs
    have hrun : ∃ acts, s.performLocal w o none = (s.localActs w o.key o.localActs).localActs w o.key acts := by
      unfold State.performLocal
      dsimp only
      split
      · exact ⟨_, rfl⟩
      · exact ⟨[], rfl⟩
    obtain ⟨acts, hacts⟩ := hrun
    obtain ⟨vs, hwrote', -, hof', -⟩ := State.localActs_write hcarry' acts
    exact ⟨ws ++ vs, hacts ▸ State.wrote_trans hwrote hwrote', fun y hy => (List.mem_append.mp hy).elim (hof y) (hof' y),
      fun _ a ha hr q hq p b hd hs hb => List.mem_append_left _ (hact a ha hr q hq p b hd hs hb)⟩

/-- Bytes all written alike at a place, one of them at least, read so. -/
theorem State.writeAll_value {s : State} (h : s.localCanonical = true) {c off : Nat} {b : Byte} (hc : (s.crew? c).isSome = true)
    {ws : List (LocalAt × Byte × Byte)} (hall : ∀ y ∈ ws, y.1 = .crew c off → y.2 = (b, 0xFF)) (hone : ∃ y ∈ ws, y.1 = .crew c off) :
    (s.writeAll ws).readLocal (.crew c off) = b := by
  induction ws using List.reverseRecOn with
  | nil => obtain ⟨y, hy, -⟩ := hone; exact (List.not_mem_nil hy).elim
  | append_singleton ys y ih =>
    by_cases hy : y.1 = .crew c off
    · have hval := hall y (List.mem_append_right _ (List.mem_singleton.mpr rfl)) hy
      obtain rfl : y = (.crew c off, b, 0xFF) := Prod.ext hy hval
      exact State.writeAll_last h ys off b hc
    · have hrest : ∃ z ∈ ys, z.1 = .crew c off := by
        obtain ⟨z, hz, hat⟩ := hone
        rcases List.mem_append.mp hz with hz | hz
        · exact ⟨z, hz, hat⟩
        · exact absurd hat (List.mem_singleton.mp hz ▸ hy)
      have hlast : s.writeAll (ys ++ [y]) = (s.writeAll ys).writeLocalBits y.1 y.2.1 y.2.2 := by
        rw [State.writeAll, List.foldl_append]
        rfl
      rw [hlast]
      exact (State.readLocal_writeLocal_other (State.writeAll_spec h ys).1 _ hy).trans
        (ih (fun z hz => hall z (List.mem_append_left _ hz)) hrest)

section
variable {s : State} {w : Wave} {o : Op} (hw : s.wave? w.key = some w) (ho : w.op? o.key = some o) (herr : s.softErrors = [])
  (hcanon : s.localCanonical = true)
include hw ho herr hcanon

/-- R274: the local side changes no byte that its pieces do not name. -/
theorem performLocal_outside (pick : Option Nat) : (s.performLocal w o pick).hbm = s.hbm ∧ (s.performLocal w o pick).hostMem = s.hostMem ∧
    (s.performLocal w o pick).peerMem = s.peerMem ∧
    ∀ at_, (∀ x ∈ o.pieces, ∀ p, x.dst = some p → ∀ j, j < x.data.length → p.plus j ≠ at_) → (s.performLocal w o pick).readLocal at_ = s.readLocal at_ := by
  obtain ⟨ws, ⟨hc, hl, hhbm, hhost, hpeer⟩, hof, -⟩ := State.performLocal_writes hw ho herr hcanon pick
  refine ⟨hhbm, hhost, hpeer, fun at_ hout => ?_⟩
  refine (State.readLocal_congr hc (fun l => by rw [State.launch?, State.launch?, hl]) at_).trans ((State.writeAll_spec hcanon ws).2.1 at_ fun y hy => ?_)
  obtain ⟨q, hq, p, n, b, hd, hn, rfl, -⟩ := hof y hy
  obtain ⟨x, hx, rfl⟩ := List.mem_map.mp hq
  exact hout x hx p hd n hn

/-- A byte that a piece carries stands at its place when all has performed, where no other byte goes there. -/
theorem performLocal_carried {x : Piece} {c off j : Nat} {b : Byte} (hx : x ∈ o.pieces) (hdst : x.dst = some (.crew c off)) (hsrc : x.src = none)
    (hjob : x.job = .local_) (hj : j ∈ x.left) (hb : x.data[j]? = some (some b)) (hc : (s.crew? c).isSome = true)
    (hother : ∀ y ∈ o.pieces, ∀ r n, y.dst = some r → n < y.data.length → r.plus n = .crew c (off + j) → y = x ∧ n = j) :
    (s.performLocal w o none).readLocal (.crew c (off + j)) = b := by
  obtain ⟨ws, ⟨hcrews, hl, -⟩, hof, hacts⟩ := State.performLocal_writes hw ho herr hcanon none
  have hdata : x.shape.data = x.data := if_pos (by rw [hsrc]; rfl)
  obtain ⟨i, hi⟩ := List.mem_iff_getElem?.mp hx
  have hshape : (o.pieces.map Piece.shape)[i]? = some x.shape := by rw [List.getElem?_map, hi, Option.map_some]
  have hact : (⟨i, j, false⟩ : LocalAct) ∈ o.localActs := by
    refine List.mem_flatMap.mpr ⟨(x, i), List.mem_iff_getElem?.mpr ⟨i, by simp [hi]⟩, ?_⟩
    simp [hdst, hjob, hsrc, hj, nth, hb]
  refine (State.readLocal_congr hcrews (fun l => by rw [State.launch?, State.launch?, hl]) _).trans (State.writeAll_value hcanon hc ?_ ?_)
  · intro y hy hat
    obtain ⟨q, hq, p, n, b', hd, hn, rfl, hcarried⟩ := hof y hy
    obtain ⟨z, hz, rfl⟩ := List.mem_map.mp hq
    obtain ⟨rfl, rfl⟩ := hother z hz p n hd hn hat
    have hsame := hcarried hsrc
    rw [hdata, hb] at hsame
    rw [Option.some.inj (Option.some.inj hsame)]
  · exact ⟨_, hacts rfl _ hact rfl _ hshape _ _ hdst hsrc (hdata ▸ hb), rfl⟩

end

end Sys2Proof.Machine
end

section
/-! Main memory and the engines (R271-R276, R283, R331): what a part of an operation, and a logged write, store at their home, for a launch without shadows and
without a trace log. -/

namespace Sys2Proof.Machine

theorem length_leBytes (n x : Nat) : (leBytes n x).length = n := by
  induction n generalizing x with
  | zero => rfl
  | succ n ih => rw [leBytes, List.length_cons, ih]

/-! ### Stores of a launch without shadows -/

section
variable {s : State} {k : Nat} (h : s.plainFor k)
include h

theorem State.shadowOf_plain (l : Option Nat) (m : MainAt) : s.shadowOf l m = none := by
  obtain ⟨-, hshadows, -⟩ := h
  rw [State.shadowOf, hshadows]
  rfl

theorem State.shadowed_plain (m : MainAt) : s.shadowed (some k) m = s := by
  obtain ⟨-, -, -, -, hlaunch⟩ := h
  unfold State.shadowed
  rw [Option.bind_some]
  cases hl : s.launch? k with
  | none => rfl
  | some x => exact if_pos (by rw [(hlaunch x hl).1]; rfl)

theorem State.writeMain_plain (m : MainAt) (b : Byte) :
    s.writeMain (some k) m b = ((s.noteOwn (some k) m).noteOthers (some k) m).writeCommitted m b := by
  unfold State.writeMain
  rw [State.shadowed_plain h]
  simp only [State.shadowOf_plain h]

/-- Changes of launches that keep their keys, shadows and logs keep the launch plain. -/
theorem State.plainFor_mapLaunches {f : Launch → Launch} (hf : ∀ x, (f x).key = x.key ∧ (f x).replayable = x.replayable ∧ (f x).log = x.log) :
    State.plainFor { s with launches := s.launches.map f } k := by
  obtain ⟨herr, hshadows, hhbm, hhost, hlaunch⟩ := h
  refine ⟨herr, hshadows, hhbm, hhost, fun l hl => ?_⟩
  have hkeys : ((fun x : Launch => x.key == k) ∘ f) = fun x : Launch => x.key == k := funext fun x => by simp [(hf x).1]
  rw [State.launch?, List.find?_map, hkeys] at hl
  obtain ⟨x, hx, rfl⟩ := Option.map_eq_some_iff.mp hl
  rw [(hf x).2.1, (hf x).2.2]
  exact hlaunch x hx

theorem State.plainFor_noted (m : MainAt) : ((s.noteOwn (some k) m).noteOthers (some k) m).plainFor k :=
  State.plainFor_mapLaunches (State.plainFor_mapLaunches h fun x => by split <;> exact ⟨rfl, rfl, rfl⟩) fun x => by split <;> exact ⟨rfl, rfl, rfl⟩

theorem State.plainFor_writePhys (u pa : Nat) (b : Byte) : (s.writePhys u pa b).plainFor k := by
  obtain ⟨herr, hshadows, hhbm, hhost, hlaunch⟩ := h
  unfold State.writePhys
  split
  · exact ⟨herr, hshadows, Memory.wf_write _ _ hhbm, hhost, hlaunch⟩
  · exact ⟨herr, hshadows, hhbm, Memory.wf_write _ _ hhost, hlaunch⟩

theorem State.readPhys_writePhys_plain {u pa v x : Nat} (b : Byte) (hk : inUnit u pa) (hv : inUnit v x) :
    (s.writePhys u pa b).readPhys v x = if v = u ∧ x = pa then b else s.readPhys v x := by
  obtain ⟨-, -, hhbm, hhost, -⟩ := h
  have hcanon : State.mainCanonical { s with peerMem := [] } = true := (State.canonical_iff _).mpr ⟨hhbm, hhost, rfl⟩
  have hread := State.readPhys_writePhys hcanon b hk hv
  have hsame : (State.writePhys { s with peerMem := [] } u pa b).readPhys v x = (s.writePhys u pa b).readPhys v x := by
    unfold State.writePhys
    split <;> rfl
  exact hsame.symm.trans hread

/-- A byte of committed memory written, of a peer's too. -/
theorem State.writeCommitted_plain {u pa : Nat} (b : Byte) (hpa : u < 4 → pa < 2 ^ 52) :
    (s.writeCommitted ⟨u, pa⟩ b).plainFor k ∧
      ∀ v x, inUnit v x → (s.writeCommitted ⟨u, pa⟩ b).readPhys v x = if v = u ∧ x = pa then b else s.readPhys v x := by
  unfold State.writeCommitted
  dsimp only
  split
  · next hu =>
    have hin : inUnit u pa := by unfold inUnit; omega
    exact ⟨State.plainFor_writePhys h u pa b, fun v x hx => State.readPhys_writePhys_plain h b hin hx⟩
  · next hu =>
    refine ⟨h, fun v x hx => ?_⟩
    rw [if_neg (by unfold inUnit at hx; omega)]
    rfl

end

/-- A launch's store leaves the launch plain and the crews as they are, and the bytes at their place. -/
def State.puts (s t : State) (k u pa : Nat) (bs : List Byte) : Prop := t.plainFor k ∧ t.crews = s.crews ∧ s.overlays t u pa bs

theorem State.puts_nil {s : State} {k : Nat} (h : s.plainFor k) (u pa : Nat) : s.puts s k u pa [] := ⟨h, rfl, s.overlays_nil u pa⟩

theorem State.writeCommitted_crews (s : State) (m : MainAt) (b : Byte) : (s.writeCommitted m b).crews = s.crews := by
  unfold State.writeCommitted
  split
  · exact State.writePhys_crews ..
  · rfl

theorem State.puts_writeMainBytes {s : State} {k : Nat} (h : s.plainFor k) {u pa : Nat} {bs : List Byte}
    (hpa : u < 4 → bs ≠ [] → pa + bs.length ≤ 2 ^ 52) : s.puts (s.writeMainBytes (some k) ⟨u, pa⟩ bs) k u pa bs := by
  induction bs generalizing s pa with
  | nil => exact State.puts_nil h u pa
  | cons b bs ih =>
    have hbound (hu : u < 4) : pa + (bs.length + 1) ≤ 2 ^ 52 := hpa hu (List.cons_ne_nil _ _)
    obtain ⟨hplain, hreads⟩ := State.writeCommitted_plain (pa := pa) (State.plainFor_noted h ⟨u, pa⟩) b fun hu => by have := hbound hu; omega
    rw [← State.writeMain_plain h] at hplain hreads
    have hcrews : (s.writeMain (some k) ⟨u, pa⟩ b).crews = s.crews := by
      rw [State.writeMain_plain h]
      exact State.writeCommitted_crews ..
    obtain ⟨hplain', hcrews', hrest⟩ := ih (pa := pa + 1) hplain fun hu _ => by have := hbound hu; omega
    exact ⟨hplain', hcrews'.trans hcrews, State.overlays_cons hreads hrest⟩

theorem State.puts_healEntries {s t : State} {k u pa : Nat} {bs : List Byte} (h : s.puts t k u pa bs) (m : MainAt) (n : Nat) :
    s.puts (t.healEntries m n) k u pa bs := by
  obtain ⟨hplain, hcrews, hover⟩ := h
  refine ⟨?_, ?_, fun v x hx => (State.healEntries_reads ..).trans (hover v x hx)⟩
  · unfold State.healEntries
    dsimp only
    split <;> exact hplain
  · unfold State.healEntries
    dsimp only
    split <;> exact hcrews

theorem State.puts_healWord {s t : State} {k u pa : Nat} {bs : List Byte} (h : s.puts t k u pa bs) (l : Option Nat) (m : MainAt) :
    s.puts (t.healWord l m) k u pa bs := by
  unfold State.healWord
  split
  · exact State.puts_healEntries h _ _
  · exact h

theorem State.puts_storeIn {s : State} {k : Nat} (h : s.plainFor k) {u pa : Nat} {bs : List Byte} (hpa : u < 4 → bs ≠ [] → pa + bs.length ≤ 2 ^ 52)
    (ctx : Nat) (whole : Bool) : s.puts (s.storeIn (some k) ctx ⟨u, pa⟩ bs whole) k u pa bs := by
  have herr : s.softErrors = [] := h.1
  have hlost : s.lost (some k) ⟨u, pa⟩ = false := by simp only [State.lost, State.shadowOf_plain h, State.lineBad_calm herr]
  have hwhole : s.makeWhole (some k) ⟨u, pa⟩ = s := by
    unfold State.makeWhole
    rw [State.shadowed_plain h]
    simp only [State.shadowOf_plain h, State.clearLine_calm herr]
  have hread : s.readLine (some k) ctx ⟨u, pa⟩ = s := by simp only [State.readLine, State.shadowOf_plain h, State.correctLine_calm herr]
  have hputs := State.puts_writeMainBytes h hpa
  unfold State.storeIn
  rw [hlost, Bool.and_false, if_neg Bool.false_ne_true, hwhole, hread, ite_self]
  dsimp only
  rw [State.shadowOf_plain hputs.1, if_pos Option.isNone_none]
  exact State.puts_healEntries hputs _ _

theorem State.readMainBytes_plain {s : State} {k : Nat} (h : s.plainFor k) {u : Nat} (hu : u ≤ 4) (pa n : Nat) :
    s.readMainBytes (some k) ⟨u, pa⟩ n = s.readPhysBytes u pa n :=
  List.map_congr_left fun j _ => by
    simp only [State.readMain, State.shadowOf_plain h]
    exact if_pos hu

/-! ### A part of an operation (R271) -/

theorem State.replayByte_plain {s : State} {w : Wave} (h : s.plainFor w.launch) (retired va : Nat) (b : Byte) : s.replayByte w retired va b = b := by
  obtain ⟨-, -, -, -, hlaunch⟩ := h
  unfold State.replayByte
  cases hl : s.launch? w.launch with
  | none => rfl
  | some l => simp only [(hlaunch l hl).2]

theorem State.replayed_plain {s : State} {w : Wave} (h : s.plainFor w.launch) (retired va : Nat) (bs : List Byte) :
    (bs.zipIdx.map fun y => s.replayByte w retired (va + y.2) y.1) = bs := by
  simp only [State.replayByte_plain h]
  exact List.zipIdx_map_fst 0 bs

section
variable {s : State} {w : Wave} {o : Op} {u pa : Nat} {x : Piece} (h : s.plainFor w.launch) (hcell : x.marverCell = none)
  (hpa : u < 4 → o.extent x ≠ 0 → pa + o.extent x ≤ 2 ^ 52)
include h hcell hpa

/-- A piece stores nothing, or as many bytes as it writes; where no earlier lane has left anything at its place, what it has to store there. -/
theorem State.performMain_puts (prev : Option Nat) :
    ∃ bs, (bs = [] ∨ bs.length = o.extent x) ∧ s.puts (s.performMain w o ⟨u, pa⟩ x prev).1 w.launch u pa bs ∧
      (prev = none → u ≤ 4 → ∀ z, o.stored s u pa x = some z → bs = z) := by
  have hreplayed (a : Nat) (bs : List Byte) := State.replayed_plain (w := w) h o.retired a bs
  have hput {bs : List Byte} (hlen : bs.length = o.extent x) (whole : Bool) :
      s.puts (s.storeIn (some w.launch) w.ctx ⟨u, pa⟩ bs whole) w.launch u pa bs :=
    State.puts_storeIn h (fun hu hne => hlen ▸ hpa hu (hlen ▸ (List.length_pos_iff.mpr hne).ne')) _ _
  have hnil : s.puts s w.launch u pa [] := State.puts_nil h u pa
  cases hjob : x.job with
  | read => exact ⟨[], .inl rfl, by simpa only [State.performMain, hjob] using hnil, fun _ _ z hz => by simp [Op.stored, hjob] at hz⟩
  | local_ => exact ⟨[], .inl rfl, by simpa only [State.performMain, hjob] using hnil, fun _ _ z hz => by simp [Op.stored, hjob] at hz⟩
  | cxRead => exact ⟨[], .inl rfl, by simpa only [State.performMain, hjob] using hnil, fun _ _ z hz => by simp [Op.stored, hjob] at hz⟩
  | write =>
    have hlen : (x.data.map fun b => b.getD 0).length = o.extent x := by simp [Op.extent, hjob]
    refine ⟨_, .inr hlen, ?_, fun _ _ z hz => by simpa [Op.stored, hjob] using hz⟩
    simp only [State.performMain, hjob]
    split
    · exact State.puts_healWord (hput hlen _) _ _
    · exact hput hlen _
  | cxAdd v =>
    refine ⟨leBytes 64 ((CxCell.ofNat (leNat (s.readCell (some w.launch) x ⟨u, pa⟩))).add v).toNat, .inr ?_, ?_, fun _ hu z hz => ?_⟩
    · rw [length_leBytes, Op.extent, hjob]
    · simp only [State.performMain, hjob, State.writeCell, hcell]
      exact hput (by rw [length_leBytes, Op.extent, hjob]) _
    · simp only [Op.stored, hjob, Option.some.injEq] at hz
      rw [← hz, State.readCell, hcell]
      simp only [State.readMainBytes_plain h hu]
  | cxClear =>
    refine ⟨leBytes 64 0, .inr ?_, ?_, fun _ _ z hz => by simpa [Op.stored, hjob] using hz⟩
    · rw [length_leBytes, Op.extent, hjob]
    · simp only [State.performMain, hjob, State.writeCell, hcell]
      exact hput (by rw [length_leBytes, Op.extent, hjob]) _
  | atomic f operand compare =>
    simp only [State.performMain, hjob, hreplayed]
    cases hnew : atomicNew f o.atomicSize (prev.getD (leNat (s.readMainBytes (some w.launch) ⟨u, pa⟩ o.atomicSize))) operand compare with
    | none =>
      refine ⟨[], .inl rfl, hnil, fun hprev hu z hz => ?_⟩
      rw [hprev, Option.getD_none, State.readMainBytes_plain h hu] at hnew
      simp [Op.stored, hjob, hnew] at hz
    | some n =>
      have hlen : (leBytes o.atomicSize n).length = o.extent x := by rw [length_leBytes, Op.extent, hjob]
      refine ⟨_, .inr hlen, hput hlen _, fun hprev hu z hz => ?_⟩
      rw [hprev, Option.getD_none, State.readMainBytes_plain h hu] at hnew
      simpa [Op.stored, hjob, hnew] using hz

end

/-- A piece that has performed keeps its address and its job. -/
theorem State.performMain_keeps (s : State) (w : Wave) (o : Op) (m : MainAt) (x : Piece) (prev : Option Nat) :
    (s.performMain w o m x prev).2.va = x.va ∧ (s.performMain w o m x prev).2.job = x.job := by
  cases hjob : x.job <;> simp [State.performMain, hjob]

/-- One that writes nothing leaves nothing for a later lane. -/
theorem Piece.after_none {o : Op} {x y : Piece} {n : Nat} (hjob : x.job = y.job) (h : o.extent y = 0) : x.after n = none := by
  cases hx : x.job with
  | atomic f a b =>
    have hpos : 0 < o.atomicSize := by
      unfold Op.atomicSize
      split <;> decide
    rw [Op.extent, ← hjob, hx] at h
    exact absurd h hpos.ne'
  | _ => simp [Piece.after, hx]

/-- The pieces of a part, one after another, with those that have performed. -/
def State.partStep (w : Wave) (o : Op) (place : Piece → MainAt) (a : State × List (Piece × Nat)) (y : Piece × Nat) : State × List (Piece × Nat) :=
  let prev := (a.2.find? fun z => z.1.va == y.1.va).bind fun z => z.1.after o.atomicSize
  let r := a.1.performMain w (o.performed (y.2 :: a.2.map Prod.snd)) (place y.1) y.1 prev
  (r.1, (r.2, y.2) :: a.2)

section
variable {w : Wave} {o : Op} {u : Nat} {at_ : Piece → Nat}

/-- Do the bytes that a piece writes hold a byte of a unit? -/
def Op.reaches (o : Op) (u : Nat) (at_ : Piece → Nat) (x : Piece) (v b : Nat) : Prop := v = u ∧ at_ x ≤ b ∧ b < at_ x + o.extent x

/-- A piece that performs changes the bytes that it reaches. -/
theorem State.partStep_outside {a : State × List (Piece × Nat)} {y : Piece × Nat} (h : a.1.plainFor w.launch) (hcell : y.1.marverCell = none)
    (hpa : u < 4 → o.extent y.1 ≠ 0 → at_ y.1 + o.extent y.1 ≤ 2 ^ 52) :
    (State.partStep w o (fun x => ⟨u, at_ x⟩) a y).1.plainFor w.launch ∧ (State.partStep w o (fun x => ⟨u, at_ x⟩) a y).1.crews = a.1.crews ∧
      ∀ v b, inUnit v b → ¬o.reaches u at_ y.1 v b → (State.partStep w o (fun x => ⟨u, at_ x⟩) a y).1.readPhys v b = a.1.readPhys v b := by
  obtain ⟨bs, hlen, ⟨hplain, hcrews, hover⟩, -⟩ := State.performMain_puts (o := o.performed (y.2 :: a.2.map Prod.snd)) (pa := at_ y.1) h hcell hpa
    ((a.2.find? fun z => z.1.va == y.1.va).bind fun z => z.1.after o.atomicSize)
  refine ⟨hplain, hcrews, fun v b hin hout => (hover v b hin).trans (if_neg fun ⟨hv, hlo, hhi⟩ => hout ⟨hv, hlo, ?_⟩)⟩
  rcases hlen with rfl | hlen
  · exact absurd hhi (by simp only [List.length_nil]; omega)
  · exact hhi.trans_eq (congrArg (at_ y.1 + ·) hlen)

/-- Pieces that perform change the bytes that they reach. -/
theorem State.parts_outside {ys : List (Piece × Nat)} {a : State × List (Piece × Nat)} (h : a.1.plainFor w.launch)
    (hcell : ∀ y ∈ ys, y.1.marverCell = none) (hpa : ∀ y ∈ ys, u < 4 → o.extent y.1 ≠ 0 → at_ y.1 + o.extent y.1 ≤ 2 ^ 52) :
    (ys.foldl (State.partStep w o fun x => ⟨u, at_ x⟩) a).1.plainFor w.launch ∧
      (ys.foldl (State.partStep w o fun x => ⟨u, at_ x⟩) a).1.crews = a.1.crews ∧
      (∀ v b, inUnit v b → (∀ y ∈ ys, ¬o.reaches u at_ y.1 v b) →
        (ys.foldl (State.partStep w o fun x => ⟨u, at_ x⟩) a).1.readPhys v b = a.1.readPhys v b) ∧
      ∀ z ∈ (ys.foldl (State.partStep w o fun x => ⟨u, at_ x⟩) a).2, z ∈ a.2 ∨ ∃ y ∈ ys, z.1.va = y.1.va ∧ z.1.job = y.1.job := by
  induction ys generalizing a with
  | nil => exact ⟨h, rfl, fun _ _ _ _ => rfl, fun z hz => .inl hz⟩
  | cons y ys ih =>
    obtain ⟨hplain, hcrews, hreads⟩ := State.partStep_outside (at_ := at_) (u := u) h (hcell y List.mem_cons_self) (hpa y List.mem_cons_self)
    obtain ⟨hplain', hcrews', hreads', hdone⟩ := ih hplain (fun z hz => hcell z (List.mem_cons_of_mem _ hz)) fun z hz => hpa z (List.mem_cons_of_mem _ hz)
    refine ⟨hplain', hcrews'.trans hcrews, fun v b hin hout => (hreads' v b hin fun z hz => hout z (List.mem_cons_of_mem _ hz)).trans
      (hreads v b hin (hout y List.mem_cons_self)), fun z hz => ?_⟩
    rcases hdone z hz with hz | ⟨x, hx, hsame⟩
    · rcases List.mem_cons.mp hz with rfl | hz
      · exact .inr ⟨y, List.mem_cons_self, State.performMain_keeps ..⟩
      · exact .inl hz
    · exact .inr ⟨x, List.mem_cons_of_mem _ hx, hsame⟩

theorem Op.length_stored {s : State} {o : Op} {u pa : Nat} {x : Piece} {bs : List Byte} (h : o.stored s u pa x = some bs) :
    bs.length = o.extent x := by
  cases hjob : x.job with
  | write =>
    simp only [Op.stored, hjob, Option.some.injEq] at h
    simp [← h, Op.extent, hjob]
  | atomic f a b =>
    simp only [Op.stored, hjob, Option.map_eq_some_iff] at h
    obtain ⟨z, -, rfl⟩ := h
    rw [length_leBytes, Op.extent, hjob]
  | cxAdd v =>
    simp only [Op.stored, hjob, Option.some.injEq] at h
    rw [← h, length_leBytes, Op.extent, hjob]
  | cxClear =>
    simp only [Op.stored, hjob, Option.some.injEq] at h
    rw [← h, length_leBytes, Op.extent, hjob]
  | _ => simp [Op.stored, hjob] at h

/-- What stands at a place decides what a piece stores there. -/
theorem Op.stored_congr {s t : State} {o : Op} {u pa : Nat} {x : Piece} (h : ∀ j, j < o.extent x → t.readPhys u (pa + j) = s.readPhys u (pa + j)) :
    o.stored t u pa x = o.stored s u pa x := by
  have hbytes : t.readPhysBytes u pa (o.extent x) = s.readPhysBytes u pa (o.extent x) :=
    List.map_congr_left fun j hj => h j (List.mem_range.mp hj)
  cases hjob : x.job with
  | atomic f a b =>
    have hsize : o.extent x = o.atomicSize := by rw [Op.extent, hjob]
    rw [hsize] at hbytes
    simp only [Op.stored, hjob, hbytes]
  | cxAdd v =>
    have hsize : o.extent x = 64 := by rw [Op.extent, hjob]
    rw [hsize] at hbytes
    simp only [Op.stored, hjob, hbytes]
  | _ => simp only [Op.stored, hjob]

/-- Of pieces that perform, one that no other meets stores what it has to. -/
theorem State.parts_stored {s : State} {before after : List (Piece × Nat)} {x : Piece × Nat} (h : s.plainFor w.launch) (hu : u ≤ 4)
    (hcell : ∀ y ∈ before ++ x :: after, y.1.marverCell = none)
    (hpa : ∀ y ∈ before ++ x :: after, u < 4 → o.extent y.1 ≠ 0 → at_ y.1 + o.extent y.1 ≤ 2 ^ 52)
    (hva : ∀ y ∈ before, y.1.va = x.1.va → at_ y.1 = at_ x.1)
    (hapart : ∀ y ∈ before ++ after, o.extent y.1 = 0 ∨ at_ y.1 + o.extent y.1 ≤ at_ x.1 ∨ at_ x.1 + o.extent x.1 ≤ at_ y.1)
    {bs : List Byte} (hbs : o.stored s u (at_ x.1) x.1 = some bs) :
    ((before ++ x :: after).foldl (State.partStep w o fun x => ⟨u, at_ x⟩) (s, [])).1.holdsAt u (at_ x.1) bs := by
  have hlen := Op.length_stored hbs
  have hmem : x ∈ before ++ x :: after := List.mem_append_right _ List.mem_cons_self
  intro j hj
  have hext : o.extent x.1 ≠ 0 := by omega
  have hx (i : Nat) (hi : i < o.extent x.1) : inUnit u (at_ x.1 + i) := by
    have := hpa x hmem
    unfold inUnit
    omega
  have hclear (y : Piece × Nat) (hy : y ∈ before ++ after) (i : Nat) (hi : i < o.extent x.1) : ¬o.reaches u at_ y.1 u (at_ x.1 + i) := by
    rintro ⟨-, hlo, hhi⟩
    have := hapart y hy
    omega
  obtain ⟨hplain, -, hreads, hdone⟩ := State.parts_outside (w := w) (o := o) (u := u) (at_ := at_) (ys := before) (a := (s, [])) h
    (fun y hy => hcell y (List.mem_append_left _ hy)) fun y hy => hpa y (List.mem_append_left _ hy)
  rw [List.foldl_append, List.foldl_cons]
  set a := before.foldl (State.partStep w o fun x => ⟨u, at_ x⟩) (s, []) with ha
  have hprev : ((a.2.find? fun z => z.1.va == x.1.va).bind fun z => z.1.after o.atomicSize) = none := by
    cases hfind : a.2.find? fun z => z.1.va == x.1.va with
    | none => rfl
    | some z =>
      rcases hdone z (List.mem_of_find?_eq_some hfind) with hz | ⟨y, hy, hsame, hjob⟩
      · exact (List.not_mem_nil hz).elim
      · have hzx : z.1.va = x.1.va := by simpa using List.find?_some hfind
        have hat := hva y hy (hsame.symm.trans hzx)
        have hy0 : o.extent y.1 = 0 := by
          have := hapart y (List.mem_append_left _ hy)
          omega
        exact Piece.after_none hjob hy0
  have hstored : o.stored a.1 u (at_ x.1) x.1 = some bs :=
    (Op.stored_congr fun i hi => hreads u _ (hx i hi) fun y hy => hclear y (List.mem_append_left _ hy) i hi).trans hbs
  obtain ⟨zs, -, ⟨hplain', -, hover⟩, hzs⟩ := State.performMain_puts (o := o.performed (x.2 :: a.2.map Prod.snd)) (pa := at_ x.1) hplain (hcell x hmem)
    (hpa x hmem) ((a.2.find? fun z => z.1.va == x.1.va).bind fun z => z.1.after o.atomicSize)
  obtain rfl : zs = bs := hzs hprev hu bs hstored
  obtain ⟨-, -, hreads', -⟩ := State.parts_outside (w := w) (o := o) (u := u) (at_ := at_) (ys := after)
    (a := State.partStep w o (fun x => ⟨u, at_ x⟩) a x) hplain'
    (fun y hy => hcell y (List.mem_append_right _ (List.mem_cons_of_mem _ hy))) fun y hy => hpa y (List.mem_append_right _ (List.mem_cons_of_mem _ hy))
  have hj' : j < o.extent x.1 := hlen ▸ hj
  refine (hreads' u _ (hx j hj') fun y hy => hclear y (List.mem_append_right _ hy) j hj').trans ((hover u _ (hx j hj')).trans ?_)
  rw [if_pos ⟨rfl, by omega, by omega⟩, Nat.add_sub_cancel_left]

end

/-! ### A part performs -/

/-- The pieces of a part that have still to perform, with their numbers. -/
def Op.due (o : Op) (k : Nat) : List (Piece × Nat) := o.pieces.zipIdx.filter fun y => y.1.part == k && y.1.mainDue

theorem Op.map_due (o : Op) (k : Nat) : (o.due k).map Prod.fst = o.pieces.filter fun x => x.part == k && x.mainDue := by
  have hfst : o.pieces = o.pieces.zipIdx.map Prod.fst := (List.zipIdx_map_fst 0 o.pieces).symm
  conv_rhs => rw [hfst, List.filter_map]
  rfl

/-- The pieces of a part that a free choice takes. -/
def Op.taken (o : Op) (k : Nat) (pick : Option Nat) : List (Piece × Nat) :=
  if pick.isNone then o.due k else chosenPieces pick (firstOfEach (o.due k))

theorem Op.taken_subset (o : Op) (k : Nat) (pick : Option Nat) : ∀ y ∈ o.taken k pick, y ∈ o.due k := by
  intro y hy
  cases pick with
  | none => exact hy
  | some n =>
    simp only [Op.taken, Option.isNone_some, Bool.false_eq_true, if_false, chosenPieces] at hy
    split at hy
    · exact (List.not_mem_nil hy).elim
    · exact (List.mem_filter.mp (List.mem_of_getElem? (Option.mem_toList.mp hy))).1

/-- Where a leaf puts what a piece writes: a peer's memory is named by its own addresses. -/
def Leaf.spot (l : Leaf) (u : Nat) (x : Piece) : Nat := if u = 5 then x.va else l.place x.va

/-- A write of the host window's pages is counted. -/
def State.noteHost (s : State) (u : Nat) (ys : List (Piece × Nat)) : State :=
  if u = 4 && ys.any fun y => y.1.job != .read && y.1.job != .cxRead then { s with hostWrites := s.hostWrites + 1 } else s

/-- What `performPart` does once its pieces are chosen and their data are sound. -/
def State.partRun (s : State) (w : Wave) (o : Op) (k : Nat) (q : Part) (l : Leaf) (ys : List (Piece × Nat)) : State :=
  let u := unitOf q.home
  let s := if s.deterministic w && decide (q.home ≠ 0xFF) then s.recordPart w o u l (ys.map Prod.fst) else s
  let r := ys.foldl (State.partStep w o fun x => ⟨u, l.spot u x⟩) (s.noteHost u ys, [])
  r.1.onWave w.key fun w => w.onOp o.key fun o =>
    let pieces := o.pieces.zipIdx.map fun y => ((r.2.find? fun z => z.2 == y.2).map Prod.fst).getD y.1
    let o := { o with pieces := pieces }
    if pieces.any fun x => x.part == k && x.mainOpen then o else o.onPart k fun q => { q with status := .performed }

section
variable {s : State} {w : Wave} {o : Op} {k : Nat} {q : Part} {l : Leaf} {pick : Option Nat} (h : s.plainFor w.launch)
  (hdet : s.deterministic w = false)
include h hdet

theorem State.performPart_eq (hcell : ∀ y ∈ o.due k, y.1.marverCell = none) :
    s.performPart w o k q l pick = s.partRun w o k q l (o.taken k pick) := by
  have herr : s.softErrors = [] := h.1
  have hsound (x : Piece) (m : MainAt) (hx : x.marverCell = none) : s.pieceLost w m x = false ∧ s.soundPiece w m x = s := by
    have hlost : s.lost (some w.launch) m = false := by simp only [State.lost, State.shadowOf_plain h, State.lineBad_calm herr]
    have hread : s.readLine (some w.launch) w.ctx m = s := by simp only [State.readLine, State.shadowOf_plain h, State.correctLine_calm herr]
    refine ⟨by simp only [State.pieceLost, hx, hlost, Bool.and_false], ?_⟩
    simp only [State.soundPiece, hx, hread, ite_self]
  have hcells : ∀ y ∈ o.taken k pick, y.1.marverCell = none := fun y hy => hcell y (o.taken_subset k pick y hy)
  have hnone : (o.taken k pick).find? (fun y => s.pieceLost w ⟨unitOf q.home, l.spot (unitOf q.home) y.1⟩ y.1) = none :=
    List.find?_eq_none.mpr fun y hy => by simp [(hsound y.1 _ (hcells y hy)).1]
  have hfold : (o.taken k pick).foldl (fun s y => s.soundPiece w ⟨unitOf q.home, l.spot (unitOf q.home) y.1⟩ y.1) s = s := by
    refine List.foldlRecOn (motive := fun t => t = s) _ _ rfl fun t ht y hy => ?_
    rw [ht]
    exact (hsound y.1 _ (hcells y hy)).2
  have htaken : (if s.deterministic w || pick.isNone then o.due k else chosenPieces pick (firstOfEach (o.due k))) = o.taken k pick := by
    rw [hdet, Bool.false_or]
    rfl
  have hperform (ys : List (Piece × Nat)) (hys : (if s.deterministic w || pick.isNone then o.due k else chosenPieces pick (firstOfEach (o.due k))) = ys)
      (hnone : ys.find? (fun y => s.pieceLost w ⟨unitOf q.home, l.spot (unitOf q.home) y.1⟩ y.1) = none)  :
      s.performPart w o k q l pick = (ys.foldl (fun s y => s.soundPiece w ⟨unitOf q.home, l.spot (unitOf q.home) y.1⟩ y.1) s).partRun w o k q l ys := by
    subst hys
    unfold State.performPart
    extract_lets u due take place
    have hfind : take.find? (fun y => s.pieceLost w (place y.1) y.1) = none := hnone
    exact (congrArg (fun r : Option (Piece × Nat) => match r with
      | some (x, _) => s.partLost w o k (place x) x
      | none => (take.foldl (fun (s : State) (y : Piece × Nat) => s.soundPiece w (place y.1) y.1) s).partRun w o k q l take) hfind)
  rw [hperform _ htaken hnone, hfold]

omit hdet in
theorem State.plainFor_noteHost (u : Nat) (ys : List (Piece × Nat)) :
    (s.noteHost u ys).plainFor w.launch ∧ (s.noteHost u ys).crews = s.crews ∧ ∀ v b, (s.noteHost u ys).readPhys v b = s.readPhys v b := by
  unfold State.noteHost
  split
  · exact ⟨h, rfl, fun _ _ => rfl⟩
  · exact ⟨h, rfl, fun _ _ => rfl⟩

omit h in
/-- The run of pieces reads as their performing one after another does. -/
theorem State.partRun_reads (ys : List (Piece × Nat)) :
    (s.partRun w o k q l ys).crews = (ys.foldl (State.partStep w o fun x => ⟨unitOf q.home, l.spot (unitOf q.home) x⟩)
      (s.noteHost (unitOf q.home) ys, [])).1.crews ∧
    ∀ v b, (s.partRun w o k q l ys).readPhys v b = (ys.foldl (State.partStep w o fun x => ⟨unitOf q.home, l.spot (unitOf q.home) x⟩)
      (s.noteHost (unitOf q.home) ys, [])).1.readPhys v b := by
  unfold State.partRun
  rw [hdet, Bool.false_and]
  exact ⟨rfl, fun _ _ => rfl⟩

section
variable (hcell : ∀ x ∈ o.pieces.filter fun x => x.part == k && x.mainDue, x.marverCell = none)
  (hpa : ∀ x ∈ (o.pieces.filter fun x => x.part == k && x.mainDue).filter fun x => o.extent x != 0, l.place x.va + o.extent x ≤ 2 ^ 52)
include hcell hpa

omit h hdet hpa in
theorem Op.due_cells : ∀ y ∈ o.due k, y.1.marverCell = none := fun y hy => hcell y.1 (o.map_due k ▸ List.mem_map_of_mem hy)

omit h hdet hcell in
theorem Op.due_bounds : ∀ y ∈ o.due k, unitOf q.home < 4 → o.extent y.1 ≠ 0 → l.spot (unitOf q.home) y.1 + o.extent y.1 ≤ 2 ^ 52 := by
  intro y hy hu hext
  rw [Leaf.spot, if_neg (by omega)]
  exact hpa y.1 (List.mem_filter.mpr ⟨o.map_due k ▸ List.mem_map_of_mem hy, by simpa using hext⟩)

/-- R271: a part changes the bytes of main memory that its pieces write, and no others. -/
theorem performPart_outside :
    s.sameOutside (s.performPart w o k q l pick) (((o.pieces.filter fun x => x.part == k && x.mainDue).filter fun x => o.extent x != 0).map
      fun x => (unitOf q.home, l.place x.va, o.extent x)) ∧ (s.performPart w o k q l pick).crews = s.crews := by
  have hdue := Op.due_cells hcell
  obtain ⟨hplain, hcrews, hreads⟩ := State.plainFor_noteHost h (unitOf q.home) (o.taken k pick)
  obtain ⟨hrun, hrunreads⟩ := State.partRun_reads (o := o) (k := k) (q := q) (l := l) hdet (o.taken k pick)
  obtain ⟨-, hcrews', hreads', -⟩ := State.parts_outside (w := w) (o := o) (u := unitOf q.home) (at_ := l.spot (unitOf q.home)) (ys := o.taken k pick)
    (a := (s.noteHost (unitOf q.home) (o.taken k pick), [])) hplain (fun y hy => hdue y (o.taken_subset k pick y hy))
    fun y hy => Op.due_bounds hpa y (o.taken_subset k pick y hy)
  rw [State.performPart_eq h hdet hdue]
  refine ⟨fun v b hv hb hout => (hrunreads v b).trans ((hreads' v b ?_ fun y hy => ?_).trans (hreads v b)), hrun.trans (hcrews'.trans hcrews)⟩
  · unfold inUnit
    omega
  · rintro ⟨rfl, hlo, hhi⟩
    have hmem : y.1 ∈ o.pieces.filter fun x => x.part == k && x.mainDue := o.map_due k ▸ List.mem_map_of_mem (o.taken_subset k pick y hy)
    rw [Leaf.spot, if_neg (by omega)] at hlo hhi
    have := hout _ (List.mem_map_of_mem (List.mem_filter.mpr ⟨hmem, by simp only [bne_iff_ne]; omega⟩)) rfl
    dsimp only at this
    omega

/-- R271, R275: of a part all of whose pieces perform, one that no other meets stores what it has to. -/
theorem performPart_stores (hu : unitOf q.home ≤ 4) {before after : List Piece} {x : Piece} {bs : List Byte}
    (hsplit : (o.pieces.filter fun x => x.part == k && x.mainDue) = before ++ x :: after)
    (hapart : ∀ y ∈ before ++ after, o.extent y = 0 ∨ l.place y.va + o.extent y ≤ l.place x.va ∨ l.place x.va + o.extent x ≤ l.place y.va)
    (hbs : o.stored s (unitOf q.home) (l.place x.va) x = some bs) :
    (s.performPart w o k q l none).holdsAt (unitOf q.home) (l.place x.va) bs := by
  have hdue := Op.due_cells hcell
  have hbounds := Op.due_bounds (q := q) hpa
  obtain ⟨hplain, hcrews, hreads⟩ := State.plainFor_noteHost h (unitOf q.home) (o.taken k none)
  obtain ⟨-, hrunreads⟩ := State.partRun_reads (o := o) (k := k) (q := q) (l := l) hdet (o.taken k none)
  have hspot (y : Piece) : l.spot (unitOf q.home) y = l.place y.va := if_neg (by omega)
  obtain ⟨dbefore, drest, hd, rfl, hrest⟩ := List.map_eq_append_iff.mp ((o.map_due k).trans hsplit)
  obtain ⟨dx, dafter, rfl, rfl, rfl⟩ := List.map_eq_cons_iff.mp hrest
  have htaken : o.taken k none = dbefore ++ dx :: dafter := hd
  rw [hd] at hdue hbounds
  have hstores := State.parts_stored (w := w) (o := o) (u := unitOf q.home) (at_ := l.spot (unitOf q.home)) (x := dx) (bs := bs) hplain hu hdue hbounds
    (fun y _ hva => by rw [hspot, hspot, hva])
    (fun y hy => by
      rw [hspot, hspot]
      exact hapart y.1 (List.map_append ▸ List.mem_map_of_mem hy))
    (by
      rw [hspot]
      exact (Op.stored_congr fun j _ => hreads _ _).trans hbs)
  rw [State.performPart_eq h hdet (hd ▸ hdue)]
  intro j hj
  rw [hrunreads, htaken, ← hspot]
  rw [htaken] at hstores
  exact hstores j hj

end

end

/-! ### A logged write (R283, R331) -/

/-- What a list of writes leaves at a place, over what stood there: the last to it. -/
def lastAt (ws : List (Nat × Byte)) (x : Nat) (d : Byte) : Byte := ws.foldl (fun a y => if y.1 = x then y.2 else a) d

theorem lastAt_append (ws vs : List (Nat × Byte)) (x : Nat) (d : Byte) : lastAt (ws ++ vs) x d = lastAt vs x (lastAt ws x d) := List.foldl_append

theorem lastAt_outside {ws : List (Nat × Byte)} {x : Nat} (h : ∀ y ∈ ws, y.1 ≠ x) (d : Byte) : lastAt ws x d = d := by
  refine List.foldlRecOn (motive := fun a => a = d) _ _ rfl fun a ha y hy => ?_
  rw [if_neg (h y hy), ha]

theorem lastAt_inside {ws : List (Nat × Byte)} {x : Nat} {b : Byte} (hall : ∀ y ∈ ws, y.1 = x → y.2 = b) (hone : ∃ y ∈ ws, y.1 = x) (d : Byte) :
    lastAt ws x d = b := by
  induction ws using List.reverseRecOn with
  | nil => obtain ⟨y, hy, -⟩ := hone; exact (List.not_mem_nil hy).elim
  | append_singleton ys y ih =>
    have hlast : lastAt (ys ++ [y]) x d = if y.1 = x then y.2 else lastAt ys x d := lastAt_append ..
    rw [hlast]
    by_cases hy : y.1 = x
    · rw [if_pos hy]
      exact hall y (List.mem_append_right _ (List.mem_singleton.mpr rfl)) hy
    · rw [if_neg hy]
      refine ih (fun z hz => hall z (List.mem_append_left _ hz)) ?_
      obtain ⟨z, hz, hzx⟩ := hone
      rcases List.mem_append.mp hz with hz | hz
      · exact ⟨z, hz, hzx⟩
      · exact absurd hzx (List.mem_singleton.mp hz ▸ hy)

/-- A run of bytes, as writes. -/
theorem lastAt_run (pa : Nat) (bs : List Byte) (x : Nat) (d : Byte) :
    lastAt (bs.zipIdx.map fun y => (pa + y.2, y.1)) x d = if pa ≤ x ∧ x < pa + bs.length then nth bs (x - pa) 0 else d := by
  induction bs using List.reverseRecOn with
  | nil => rw [if_neg (by simp only [List.length_nil]; omega)]; rfl
  | append_singleton bs b ih =>
    have hlast : lastAt ((bs ++ [b]).zipIdx.map fun y => (pa + y.2, y.1)) x d =
        if pa + bs.length = x then b else lastAt (bs.zipIdx.map fun y => (pa + y.2, y.1)) x d := by
      rw [List.zipIdx_append, List.map_append, lastAt_append, Nat.zero_add]
      rfl
    rw [hlast, ih, List.length_append, List.length_singleton]
    by_cases hx : pa + bs.length = x
    · rw [if_pos hx, if_pos (by omega), ← hx, Nat.add_sub_cancel_left]
      simp [nth]
    · rw [if_neg hx]
      by_cases hin : pa ≤ x ∧ x < pa + bs.length
      · rw [if_pos hin, if_pos (by omega), nth, nth, List.getElem?_append_left (by omega)]
      · rw [if_neg hin, if_neg (by omega)]

/-- A launch's writes to a unit: the launch stays plain, and the bytes stand as the writes leave them. -/
def State.patches (s t : State) (k u : Nat) (ws : List (Nat × Byte)) : Prop :=
  t.plainFor k ∧ ∀ v x, inUnit v x → t.readPhys v x = if v = u then lastAt ws x (s.readPhys v x) else s.readPhys v x

theorem State.patches_nil {s : State} {k : Nat} (h : s.plainFor k) (u : Nat) : s.patches s k u [] := ⟨h, fun v x _ => (ite_self _).symm⟩

theorem State.patches_trans {s t r : State} {k u : Nat} {ws vs : List (Nat × Byte)} (h : s.patches t k u ws) (h' : t.patches r k u vs) :
    s.patches r k u (ws ++ vs) := by
  refine ⟨h'.1, fun v x hx => ?_⟩
  rw [h'.2 v x hx, h.2 v x hx]
  by_cases hv : v = u
  · simp only [if_pos hv, lastAt_append]
  · simp only [if_neg hv]

theorem State.patches_of_puts {s t : State} {k u pa : Nat} {bs : List Byte} (h : s.puts t k u pa bs) :
    s.patches t k u (bs.zipIdx.map fun y => (pa + y.2, y.1)) := by
  obtain ⟨hplain, -, hover⟩ := h
  refine ⟨hplain, fun v x hx => ?_⟩
  rw [hover v x hx, lastAt_run]
  by_cases hv : v = u
  · rw [if_pos hv]
    exact if_congr (and_iff_right hv) rfl rfl
  · rw [if_neg (fun hin => hv hin.1), if_neg hv]

/-- In a rising list of numbers, places apart are numbers apart. -/
theorem rising_apart {l : List (Nat × Byte)} (h : l.Pairwise fun x y => x.1 < y.1) {i j : Nat} (hij : i ≤ j) (hj : j < l.length) :
    l[i].1 + (j - i) ≤ l[j].1 := by
  induction j with
  | zero =>
    obtain rfl : i = 0 := by omega
    omega
  | succ j ih =>
    rcases Nat.lt_or_ge j i with hlt | hge
    · obtain rfl : i = j + 1 := by omega
      omega
    · have hnext : l[j].1 < l[j + 1].1 := List.pairwise_iff_getElem.mp h j (j + 1) (by omega) hj (by omega)
      have := ih hge (by omega)
      omega

/-- Sixty-four bytes of one line, rising, are the line. -/
theorem line_full {l : List (Nat × Byte)} {line : Nat} (h : l.Pairwise fun x y => x.1 < y.1) (hline : ∀ y ∈ l, y.1 / 64 * 64 = line) (hfull : 64 ≤ l.length)
    {i : Nat} (hi : i < l.length) : l[i].1 = line + i ∧ l.length = 64 := by
  have hfirst := hline l[0] (List.getElem_mem (by omega))
  have hlast := hline l[l.length - 1] (List.getElem_mem (by omega))
  have hlow := rising_apart h (Nat.zero_le i) hi
  have hhigh := rising_apart h (show i ≤ l.length - 1 by omega) (show l.length - 1 < l.length by omega)
  omega

theorem Leaf.place_line (l : Leaf) {line i : Nat} (hline : line % 64 = 0) (hi : i < 64) : l.place (line + i) = l.place line + i := by
  have hdvd : 64 ∣ pageBytes l.size := by
    unfold pageBytes
    split
    · decide
    · split <;> decide
  obtain ⟨m, hm⟩ := hdvd
  have hmod : line % pageBytes l.size % 64 = 0 := by rw [Nat.mod_mod_of_dvd _ ⟨m, hm⟩, hline]
  have hpos : 0 < pageBytes l.size := by
    unfold pageBytes
    split
    · decide
    · split <;> decide
  have hlt : line % pageBytes l.size + i < pageBytes l.size := by
    have := Nat.mod_lt line hpos
    omega
  rw [Leaf.place, Leaf.place, Nat.add_assoc, ← Nat.mod_add_mod, Nat.mod_eq_of_lt hlt]

/-- The bytes of an entry on one line. -/
def LogEntry.onLine (e : LogEntry) (line : Nat) : List (Nat × Byte) := e.data.filter fun x => x.1 / 64 * 64 == line

/-- One byte of an entry, stored, with its word made whole. -/
def State.storeByte (s : State) (e : LogEntry) (l : Leaf) (line : Nat) (x : Nat × Byte) : State :=
  let s := s.storeIn (some e.launch) e.ctx ⟨unitOf e.home, l.place x.1⟩ [x.2] false
  if ((e.onLine line).filter fun y => y.1 / 8 == x.1 / 8).length = 8 then s.healWord (some e.launch) ⟨unitOf e.home, l.place x.1⟩ else s

/-- The bytes of an entry on one line, stored. -/
def State.storeLine (s : State) (e : LogEntry) (l : Leaf) (line : Nat) : State :=
  if decide ((e.onLine line).length ≥ 64) then
    s.storeIn (some e.launch) e.ctx ⟨unitOf e.home, l.place line⟩ ((e.onLine line).map Prod.snd) true
  else (e.onLine line).foldl (fun s x => s.storeByte e l line x) s

theorem State.storeLogged_bytes {s : State} {e : LogEntry} {l : Leaf} (h : e.cell = none) :
    s.storeLogged e l = ((e.data.map fun x => x.1 / 64 * 64).eraseDups).foldl (fun s line => s.storeLine e l line) s := by
  unfold State.storeLogged
  rw [h]
  rfl

section
variable {s : State} {e : LogEntry} {l : Leaf}

theorem State.puts_storeByte (h : s.plainFor e.launch) {x : Nat × Byte} (hx : l.place x.1 < 2 ^ 52) (line : Nat) :
    s.puts (s.storeByte e l line x) e.launch (unitOf e.home) (l.place x.1) [x.2] := by
  have hput : s.puts (s.storeIn (some e.launch) e.ctx ⟨unitOf e.home, l.place x.1⟩ [x.2] false) e.launch (unitOf e.home) (l.place x.1) [x.2] :=
    State.puts_storeIn h (fun _ _ => hx) _ _
  unfold State.storeByte
  dsimp only
  split
  · exact State.puts_healWord hput _ _
  · exact hput

section
variable (hrise : e.data.Pairwise fun x y => x.1 < y.1) (hpa : ∀ x ∈ e.data, l.place x.1 < 2 ^ 52)
include hrise hpa

theorem State.patches_storeLine (h : s.plainFor e.launch) (line : Nat) :
    s.patches (s.storeLine e l line) e.launch (unitOf e.home) ((e.onLine line).map fun x => (l.place x.1, x.2)) := by
  have hmine : (e.onLine line).Pairwise fun x y => x.1 < y.1 := hrise.filter _
  have hline : ∀ y ∈ e.onLine line, y.1 / 64 * 64 = line := fun y hy => by simpa using (List.mem_filter.mp hy).2
  have hdata : ∀ y ∈ e.onLine line, y ∈ e.data := fun y hy => (List.mem_filter.mp hy).1
  unfold State.storeLine
  by_cases hfull : 64 ≤ (e.onLine line).length
  · rw [if_pos (by simpa using hfull)]
    have hlen : (e.onLine line).length = 64 := (line_full hmine hline hfull (i := 0) (by omega)).2
    have hmod : line % 64 = 0 := by
      have := hline _ (List.getElem_mem (show 0 < (e.onLine line).length by omega))
      omega
    have hat (i : Nat) (hi : i < (e.onLine line).length) : l.place (e.onLine line)[i].1 = l.place line + i := by
      rw [(line_full hmine hline hfull hi).1, Leaf.place_line l hmod (by omega)]
    have hwrites : (((e.onLine line).map Prod.snd).zipIdx.map fun y => (l.place line + y.2, y.1)) =
        (e.onLine line).map fun x => (l.place x.1, x.2) := by
      refine List.ext_getElem (by simp) fun i hi hi' => ?_
      simp only [List.getElem_map, List.getElem_zipIdx, Nat.zero_add, hat i (by simpa using hi')]
    rw [← hwrites]
    refine State.patches_of_puts (State.puts_storeIn h (fun _ _ => ?_) _ _)
    have hlast := hpa _ (hdata _ (List.getElem_mem (show 63 < (e.onLine line).length by omega)))
    rw [hat 63 (by omega)] at hlast
    rw [List.length_map, hlen]
    omega
  · rw [if_neg (by simpa using hfull)]
    have hrun (ys : List (Nat × Byte)) (hys : ∀ y ∈ ys, y ∈ e.data) (t : State) (ht : t.plainFor e.launch) :
        t.patches (ys.foldl (fun s x => s.storeByte e l line x) t) e.launch (unitOf e.home) (ys.map fun x => (l.place x.1, x.2)) := by
      induction ys generalizing t with
      | nil => exact State.patches_nil ht _
      | cons y ys ih =>
        have hfirst : t.patches (t.storeByte e l line y) e.launch (unitOf e.home) [(l.place y.1, y.2)] :=
          State.patches_of_puts (State.puts_storeByte ht (hpa y (hys y List.mem_cons_self)) line)
        exact State.patches_trans hfirst (ih (fun z hz => hys z (List.mem_cons_of_mem _ hz)) _ hfirst.1)
    exact hrun _ hdata s h

theorem State.patches_storeLogged (h : s.plainFor e.launch) (hcell : e.cell = none) :
    ∃ ws, s.patches (s.storeLogged e l) e.launch (unitOf e.home) ws ∧ ∀ y, y ∈ ws ↔ ∃ x ∈ e.data, y = (l.place x.1, x.2) := by
  rw [State.storeLogged_bytes hcell]
  have hrun (lines : List Nat) (t : State) (ht : t.plainFor e.launch) : t.patches (lines.foldl (fun s line => s.storeLine e l line) t) e.launch
      (unitOf e.home) (lines.flatMap fun line => (e.onLine line).map fun x => (l.place x.1, x.2)) := by
    induction lines generalizing t with
    | nil => exact State.patches_nil ht _
    | cons line lines ih =>
      have hfirst := State.patches_storeLine hrise hpa ht line
      exact State.patches_trans hfirst (ih _ hfirst.1)
  refine ⟨_, hrun _ s h, fun y => ?_⟩
  simp only [List.mem_flatMap, List.mem_eraseDups, List.mem_map, LogEntry.onLine, List.mem_filter, beq_iff_eq]
  constructor
  · rintro ⟨line, -, x, ⟨hx, -⟩, rfl⟩
    exact ⟨x, hx, rfl⟩
  · rintro ⟨x, hx, rfl⟩
    exact ⟨_, ⟨x, hx, rfl⟩, x, ⟨hx, rfl⟩, rfl⟩

/-- R283: a logged write changes the bytes of its entry, and where they lie apart each stands as entered. -/
theorem storeLogged_bytes (h : s.plainFor e.launch) (hu : unitOf e.home ≤ 4) (hcell : e.cell = none) :
    s.sameOutside (s.storeLogged e l) (e.data.map fun x => (unitOf e.home, l.place x.1, 1)) ∧
      ((∀ x ∈ e.data, ∀ y ∈ e.data, l.place x.1 = l.place y.1 → x.1 = y.1) →
        ∀ x ∈ e.data, (s.storeLogged e l).readPhys (unitOf e.home) (l.place x.1) = x.2) := by
  obtain ⟨ws, ⟨-, hreads⟩, hmem⟩ := State.patches_storeLogged hrise hpa h hcell
  refine ⟨fun v b hv hb hout => ?_, fun hapart x hx => ?_⟩
  · rw [hreads v b (by unfold inUnit; omega)]
    split
    · next hvu =>
      refine lastAt_outside (fun y hy => ?_) _
      obtain ⟨x, hx, rfl⟩ := (hmem y).mp hy
      have := hout _ (List.mem_map_of_mem hx) hvu.symm
      dsimp only at this ⊢
      omega
    · rfl
  · have hbound := hpa x hx
    rw [hreads _ _ (by unfold inUnit; omega), if_pos rfl]
    refine lastAt_inside (fun y hy hat => ?_) ⟨_, (hmem _).mpr ⟨x, hx, rfl⟩, rfl⟩ _
    obtain ⟨z, hz, rfl⟩ := (hmem y).mp hy
    have hsame := hapart z hz x hx hat
    obtain ⟨i, hi, rfl⟩ := List.mem_iff_getElem.mp hz
    obtain ⟨j, hj, rfl⟩ := List.mem_iff_getElem.mp hx
    rcases Nat.lt_trichotomy i j with hij | rfl | hij
    · have := rising_apart hrise hij.le hj
      omega
    · rfl
    · have := rising_apart hrise hij.le hi
      omega

end

theorem State.sameOutside_of_puts {t : State} {k u pa n : Nat} {bs : List Byte} (h : s.puts t k u pa bs) (hlen : bs.length = n) :
    s.sameOutside t [(u, pa, n)] := fun v b hv hb hout => by
  rw [h.2.2 v b (by unfold inUnit; omega), if_neg]
  rintro ⟨rfl, hlo, hhi⟩
  have := hout _ (List.mem_singleton.mpr rfl) rfl
  dsimp only at this
  omega

theorem State.holdsAt_of_puts {t : State} {k u pa : Nat} {bs : List Byte} (h : s.puts t k u pa bs) (hu : u ≤ 4) (hpa : pa + bs.length ≤ 2 ^ 52) :
    t.holdsAt u pa bs := fun j hj => by
  rw [h.2.2 u (pa + j) (by unfold inUnit; omega), if_pos ⟨rfl, by omega, by omega⟩, Nat.add_sub_cancel_left]

/-- R283: so does a logged crucible word, whose cell is what its add or clear makes of it. -/
theorem storeLogged_cell (h : s.plainFor e.launch) (hu : unitOf e.home ≤ 4) {job : Job} (hcell : e.cell = some job) (hpa : l.place e.va + 64 ≤ 2 ^ 52) :
    s.sameOutside (s.storeLogged e l) [(unitOf e.home, l.place e.va, 64)] ∧
      (∀ v, job = .cxAdd v → (s.storeLogged e l).holdsAt (unitOf e.home) (l.place e.va)
        (leBytes 64 ((CxCell.ofNat (leNat (s.readPhysBytes (unitOf e.home) (l.place e.va) 64))).add v).toNat)) ∧
      (job = .cxClear → (s.storeLogged e l).holdsAt (unitOf e.home) (l.place e.va) (leBytes 64 0)) := by
  have hput (z : Nat) : s.puts (s.storeIn (some e.launch) e.ctx ⟨unitOf e.home, l.place e.va⟩ (leBytes 64 z) true) e.launch (unitOf e.home)
      (l.place e.va) (leBytes 64 z) := State.puts_storeIn h (fun _ _ => by rw [length_leBytes]; exact hpa) _ _
  have hholds (z : Nat) : (s.storeIn (some e.launch) e.ctx ⟨unitOf e.home, l.place e.va⟩ (leBytes 64 z) true).holdsAt (unitOf e.home) (l.place e.va)
      (leBytes 64 z) := State.holdsAt_of_puts (hput z) hu (by rw [length_leBytes]; exact hpa)
  by_cases hadd : ∃ v, job = .cxAdd v
  · obtain ⟨v, rfl⟩ := hadd
    have hlost : s.lost (some e.launch) ⟨unitOf e.home, l.place e.va⟩ = false := by
      simp only [State.lost, State.shadowOf_plain h, State.lineBad_calm h.1]
    have hread : s.readLine (some e.launch) e.ctx ⟨unitOf e.home, l.place e.va⟩ = s := by
      simp only [State.readLine, State.shadowOf_plain h, State.correctLine_calm h.1]
    have hstore : s.storeLogged e l = s.storeIn (some e.launch) e.ctx ⟨unitOf e.home, l.place e.va⟩
        (leBytes 64 ((CxCell.ofNat (leNat (s.readPhysBytes (unitOf e.home) (l.place e.va) 64))).add v).toNat) true := by
      simp only [State.storeLogged, hcell, hlost, Bool.false_eq_true, if_false, hread, State.readMainBytes_plain h hu]
    rw [hstore]
    refine ⟨State.sameOutside_of_puts (hput _) (length_leBytes ..), fun v' hv' => ?_, fun hclear => by cases hclear⟩
    obtain rfl : v = v' := by injection hv'
    exact hholds _
  · have hstore : s.storeLogged e l = s.storeIn (some e.launch) e.ctx ⟨unitOf e.home, l.place e.va⟩ (leBytes 64 0) true := by
      unfold State.storeLogged
      rw [hcell]
      cases job with
      | cxAdd v => exact (hadd ⟨v, rfl⟩).elim
      | _ => rfl
    rw [hstore]
    exact ⟨State.sameOutside_of_puts (hput _) (length_leBytes ..), fun v hv => (hadd ⟨v, hv⟩).elim, fun _ => hholds _⟩

end

/-- Settles O48: what the head of the port does, what a store leaves in local memory, and what parts, logged writes, a matrix instruction's turn and the
local side of an operation leave in the memories. -/
theorem localPortPerforms : Obligations.LocalPortPerforms := by
  unfold Obligations.LocalPortPerforms
  refine ⟨fun k s w x rest hw hport htoken herr => ⟨fun writes => portAccess_store hw hport htoken herr,
      fun d raw storage compute accs => portAccess_vload hw hport htoken herr, fun d n at_ shadowAt => portAccess_sload hw hport htoken herr,
      fun op o => portAccess_atomic hw hport htoken herr⟩,
    fun s writes hcanon => ⟨(State.writeAll_spec hcanon writes).1, (State.writeAll_spec hcanon writes).2.1, ?_⟩,
    fun s w o k q l pick h hdet hcell hpa => ⟨(performPart_outside h hdet hcell hpa).1, (performPart_outside h hdet hcell hpa).2, ?_⟩,
    fun s e l h hu => ⟨fun hcell hrise hpa => storeLogged_bytes hrise hpa h hu hcell, fun job hcell hpa => storeLogged_cell h hu hcell hpa⟩,
    fun s w o job => ?_, fun s w o pick hw ho herr hcanon => ?_⟩
  · rintro front c off b rfl hc
    exact State.writeAll_last hcanon front off b hc
  · rintro rfl hu before x after bs hsplit hapart hbs
    exact performPart_stores h hdet hcell hpa hu hsplit hapart hbs
  · obtain ⟨hhbm, hhost, hpeer, hlocal⟩ := State.sameBytes_turn s w o job
    exact ⟨hhbm, hhost, hpeer, hlocal, fun zero hkind hbad => State.turn_fails hkind hbad⟩
  · obtain ⟨hhbm, hhost, hpeer, hlocal⟩ := performLocal_outside hw ho herr hcanon pick
    refine ⟨hhbm, hhost, hpeer, hlocal, ?_⟩
    rintro rfl x hx c off j b hdst hsrc hjob hj hb hc hother
    exact performLocal_carried hw ho herr hcanon hx hdst hsrc hjob hj hb hc hother

end Sys2Proof.Machine
end

section
/-! The events of the engines (R200, R209, R216, R271-R283, R324, R325): a matrix instruction's turn, a part's performing and what it waits for, the side log,
the counters, an atomic's return, and error responses. O49 fails in the clause on a per-lane atomic's return alone, as the last part shows; the theorems
before it are its other clauses, which hold. -/

namespace Sys2Proof.Machine

/-! ### Turns and parts (R216, R271) -/

section
variable {k : Nat} {s : State} {w : Wave} {o : Op} (hw : s.wave? k = some w)
include hw

theorem matrixTurn_eq {job : MatJob} (ho : w.ops.find? (fun o => o.kind.isMatrix && !o.finishedAtTurn) = some o) (hmat : o.mat = some job)
    (herr : s.softErrors = []) :
    exec (.matrixTurn k) s =
      if job.done || w.portBefore o.seq || ((match o.kind with | .mma _ | .mdrl | .mdrx => true | _ => false) && !s.hasToken w) || s.unitTaken w then
        .next s
      else if !o.localActs.isEmpty then .next (s.performLocal w o none)
      else .next (s.turn w o job) := by
  change execMatrixTurn k s = _
  unfold execMatrixTurn
  simp only [hw, ho, hmat, herr, List.find?_nil] <;> rfl

/-- While the wave has an earlier access at the port, or the unit serves another wave, no turn is taken. -/
theorem matrixTurn_waits {job : MatJob} (ho : w.ops.find? (fun o => o.kind.isMatrix && !o.finishedAtTurn) = some o) (hmat : o.mat = some job)
    (herr : s.softErrors = []) (h : w.portBefore o.seq = true ∨ s.unitTaken w = true) : exec (.matrixTurn k) s = .next s := by
  rw [matrixTurn_eq hw ho hmat herr]
  exact if_pos (by rcases h with h | h <;> simp [h])

theorem matrixTurn_takes {job : MatJob} (ho : w.ops.find? (fun o => o.kind.isMatrix && !o.finishedAtTurn) = some o) (hmat : o.mat = some job)
    (hdone : job.done = false) (herr : s.softErrors = []) (hport : w.portBefore o.seq = false) (hfree : s.unitTaken w = false)
    (htoken : s.hasToken w = true) :
    exec (.matrixTurn k) s = .next (if o.localActs.isEmpty then s.turn w o job else s.performLocal w o none) := by
  rw [matrixTurn_eq hw ho hmat herr, if_neg (by simp [hdone, hport, hfree, htoken])]
  cases o.localActs.isEmpty <;> rfl

section
variable (ho : w.op? o.key = some o) (hport : w.portBefore o.seq = false) (hdet : s.deterministic w = false)
  (hmatrix : o.kind.isMatrix = true → o.kind = .mdrx ∧ o.finishedAtTurn = true)
include ho hport hdet hmatrix

omit hw ho hport hmatrix in
theorem State.hasToken_outside : s.hasToken w = true := by
  unfold State.deterministic at hdet
  unfold State.hasToken
  cases hl : s.launch? w.launch with
  | none => rfl
  | some l =>
    rw [hl] at hdet
    have hplain : l.desc.deterministic = false := hdet
    simp [hplain]

/-- Nothing of the operation's order holds its parts. -/
theorem partPerform_ready : ¬(w.portBefore o.seq || !s.hasToken w || s.awaitsUnit w o) = true := by
  have hunit : s.awaitsUnit w o = false := by
    unfold State.awaitsUnit
    cases hkind : o.kind.isMatrix with
    | false => rfl
    | true =>
      obtain ⟨hmdrx, hturn⟩ := hmatrix hkind
      simp [hmdrx, hturn]
  simp [hport, hunit, State.hasToken_outside hdet]

theorem partPerform_local (pick : Option Nat) : exec (.enginePartPerform k o.key o.parts.length pick) s = .next (s.performLocal w o pick) := by
  change execEnginePartPerform k o.key o.parts.length pick s = _
  unfold execEnginePartPerform
  simp only [hw, ho, hdet, Bool.false_eq_true, if_false]
  exact (if_neg (partPerform_ready hw ho hport hdet hmatrix)).trans (if_pos trivial)

section
variable {n : Nat} {q : Part} {leaf : Leaf} (hq : o.parts[n]? = some q) (hready : q.status = .ready) (hleaf : q.leaf = some leaf) (hmain : q.home ≠ 0xFF)
include hq hready hleaf hmain

/-- A translated part in main memory, outside deterministic mode. -/
theorem partPerform_eq (pick : Option Nat) : exec (.enginePartPerform k o.key n pick) s =
    if !s.orderMet w o n leaf || s.logsFirst w.ctx q.home ((o.partVa n).getD q.page) leaf then .next s
    else if (match o.kind with | .cxadd | .cxclr | .mdrx => !s.cellsMet w o (o.pieces.filter fun x => x.part == n) | _ => false) then .next s
    else if isPeerHome q.home && !s.peerUp ((q.home - 0x10) / 4) then .next (s.setPart k o.key n (.replied trapACCESS 0) none)
    else if (o.pieces.filter fun x => x.part == n).any fun x => s.migratingLine q leaf x then
      if ownDie w.core (unitOf q.home) then .next s
      else
        let (t, s) := s.retryClocks
        .next (s.onWave k fun w => w.onOp o.key fun o => o.recut n (.retryAfter (s.clock + t)))
    else match if (o.pieces.filter fun x => x.part == n).any (fun x => x.job.reads) then (s.launch? w.launch).bind s.logHolds else none with
      | some e => .next (s.deviceFailed w.ctx 1 e)
      | none =>
        .next ((if (o.pieces.filter fun x => x.part == n).any (fun x => x.job.reads) then s.tookLog w.launch else s).performPart w o n q leaf pick) := by
  have hlt : n < o.parts.length := (List.getElem?_eq_some_iff.mp hq).1
  have hgo : ¬(q.status != .ready || (o.kind == .mdrx && !o.finishedAtTurn)) = true := by
    by_cases hk : o.kind = .mdrx
    · have hturn := (hmatrix (by rw [hk]; rfl)).2
      simp [hready, hturn]
    · simp [hready, hk]
  change execEnginePartPerform k o.key n pick s = _
  unfold execEnginePartPerform
  simp only [hw, ho]
  refine (if_neg (partPerform_ready hw ho hport hdet hmatrix)).trans ((if_neg hlt.ne).trans ?_)
  simp only [hq]
  refine (if_neg hgo).trans ?_
  simp only [hleaf, Option.getD_some, hmain, ne_eq, not_false_eq_true, decide_true, Bool.true_and, hdet, Bool.false_and, Bool.false_eq_true,
    if_false] <;> rfl

/-- A part waits for those before it in the order of its page's kind, and for the page's logged writes. -/
theorem partPerform_waits (pick : Option Nat)
    (h : s.orderMet w o n leaf = false ∨ s.logsFirst w.ctx q.home ((o.partVa n).getD q.page) leaf = true) :
    exec (.enginePartPerform k o.key n pick) s = .next s := by
  rw [partPerform_eq hw ho hport hdet hmatrix hq hready hleaf hmain]
  exact if_pos (by rcases h with h | h <;> simp [h])

theorem partPerform_performs (pick : Option Nat) (horder : s.orderMet w o n leaf = true)
    (hlog : s.logsFirst w.ctx q.home ((o.partVa n).getD q.page) leaf = false)
    (hcells : o.kind = .cxadd ∨ o.kind = .cxclr ∨ o.kind = .mdrx → s.cellsMet w o (o.pieces.filter fun x => x.part == n) = true)
    (hpeer : isPeerHome q.home = true → s.peerUp ((q.home - 0x10) / 4) = true)
    (hmoves : ∀ x ∈ o.pieces.filter fun x => x.part == n, s.migratingLine q leaf x = false)
    (hnolog : ∀ l, s.launch? w.launch = some l → l.log = none) :
    exec (.enginePartPerform k o.key n pick) s = .next (s.performPart w o n q leaf pick) := by
  have hcross : (match o.kind with | .cxadd | .cxclr | .mdrx => !s.cellsMet w o (o.pieces.filter fun x => x.part == n) | _ => false) = false := by
    split
    · next hk => simp [hcells (.inl hk)]
    · next hk => simp [hcells (.inr (.inl hk))]
    · next hk => simp [hcells (.inr (.inr hk))]
    · rfl
  have hup : ¬(isPeerHome q.home && !s.peerUp ((q.home - 0x10) / 4)) = true := by
    simp only [Bool.and_eq_true, Bool.not_eq_true', not_and, Bool.not_eq_false]
    exact hpeer
  have hstill : ¬((o.pieces.filter fun x => x.part == n).any fun x => s.migratingLine q leaf x) = true := by
    rw [List.any_eq_true]
    rintro ⟨x, hx, hmove⟩
    exact Bool.false_ne_true ((hmoves x hx).symm.trans hmove)
  have hholds : (s.launch? w.launch).bind s.logHolds = none := by
    cases hl : s.launch? w.launch with
    | none => rfl
    | some l => simp [State.logHolds, hnolog l hl]
  have htook : s.tookLog w.launch = s := by
    unfold State.tookLog
    cases hl : s.launch? w.launch with
    | none => rfl
    | some l => simp [State.replayUnread, hnolog l hl]
  rw [partPerform_eq hw ho hport hdet hmatrix hq hready hleaf hmain]
  refine (if_neg (by simp [horder, hlog])).trans ((if_neg (by rw [hcross]; decide)).trans ((if_neg hup).trans ((if_neg hstill).trans ?_)))
  simp only [hholds, htook, ite_self]

end

end

/-! ### Counters, returns and responses (R141, R197, R208, R209) -/

theorem counterRetire_eq {ctr : Nat} (ho : w.ops.find? (fun o => o.ctr == some ctr) = some o) : exec (.counterRetire k ctr) s =
    if o.complete then .next (s.onWave k fun w => { w with ops := w.ops.filter fun e => e.key != o.key }) else .next s := by
  change execCounterRetire k ctr s = _
  unfold execCounterRetire
  simp only [hw, ho]

section
variable (ho : w.op? o.key = some o)
include ho

theorem atomicReturn_nothing (h : o.answered = false ∨ o.returned = true ∨ o.kind.returns = false) : exec (.atomicReturn k o.key) s = .next s := by
  refine congrArg Host.Outcome.next ?_
  unfold State.returnAtomic
  simp only [hw, ho]
  by_cases hskip : (!o.answered || o.returned) = true
  · exact if_pos hskip
  · have hkind : o.kind.returns = false := by
      rcases h with h | h | h
      · simp [h] at hskip
      · simp [h] at hskip
      · exact h
    rw [if_neg hskip]
    cases hk : o.kind with
    | satomic d => rw [hk] at hkind; cases hkind
    | vatomic d => rw [hk] at hkind; cases hkind
    | cxget d => rw [hk] at hkind; cases hkind
    | _ => rfl

section
variable (hanswered : o.answered = true) (hreturned : o.returned = false) (hctr : o.ctr ≠ none)
include hanswered hreturned hctr

/-- The pieces whose values have come. -/
abbrev got (o : Op) : List Piece := o.pieces.filter fun x => x.done && !o.refusedAt x

/-- The value a piece brings back. -/
abbrev brought (x : Piece) : Nat := leNat (x.data.map fun b => b.getD 0)

theorem atomicReturn_scalar {d : Nat} {x : Piece} {rest : List Piece} (hkind : o.kind = .satomic d) (hgot : got o = x :: rest) :
    exec (.atomicReturn k o.key) s = .next ((s.clearScalar w d).onWave k fun w =>
      ((w.putS d (BitVec.ofNat 64 (brought x)) (BitVec.ofNat 64 (brought x))).markS d false).onOp o.key fun o => { o with returned := true }) := by
  have hnone : ¬o.ctr.isNone = true := by simpa using hctr
  refine congrArg Host.Outcome.next ?_
  unfold State.returnAtomic
  simp only [hw, ho, hanswered, hreturned, hkind, hgot]
  simp only [Bool.not_true, Bool.or_self, Bool.false_eq_true, if_false, List.isEmpty_cons, if_neg hnone]

theorem atomicReturn_vector {d : Nat} (hkind : o.kind = .vatomic d) :
    exec (.atomicReturn k o.key) s = .next ((s.clearWritten w d (w.pairUp (Mask.ofLanes ((got o).map Piece.lane)))).onWave k fun v =>
      ((v.writeV d (w.pairUp (Mask.ofLanes ((got o).map Piece.lane))) (fun l =>
        BitVec.ofNat 32 ((((got o).find? fun x => x.lane == w.primary (w.visible l)).map brought).getD 0)) .general).markV d false).onOp o.key
          fun o => { o with returned := true }) := by
  have hnone : ¬o.ctr.isNone = true := by simpa using hctr
  refine congrArg Host.Outcome.next ?_
  unfold State.returnAtomic
  simp only [hw, ho, hanswered, hreturned, hkind]
  simp only [Bool.not_true, Bool.or_self, Bool.false_eq_true, if_false, if_neg hnone]

end

theorem errorResponse_eq {n c i : Nat} {q : Part} {lanes : Mask} {deferred : Bool} (hq : o.parts[n]? = some q) (hstatus : q.status = .replied c i)
    (hbyLane : (∃ d, o.kind = .vatomic d) ∨ o.kind = .cxadd ∨ o.kind = .cxclr ∨ o.kind = .mdrx →
      lanes = w.pairUp (Mask.ofLanes ((o.pieces.filter fun x => x.part == n && x.mainOpen).map Piece.lane)))
    (hother : ¬((∃ d, o.kind = .vatomic d) ∨ o.kind = .cxadd ∨ o.kind = .cxclr ∨ o.kind = .mdrx) → lanes = o.mask)
    (hdeferred : deferred = true ↔ ∀ d, o.kind ≠ .cxget d) :
    exec (.errorResponse k o.key n) s = exec (.atomicReturn k o.key) ((s.setPart k o.key n (.refused c) none).respond k w.launch w.ctx w.core o.seq
      o.rank (o.ctr.getD 2) lanes c i (((o.pieces.filter fun x => x.part == n && x.mainOpen).head?.map Piece.va).getD q.page) deferred) := by
  have hlanes : (match o.kind with
      | .vatomic _ | .cxadd | .cxclr | .mdrx => w.pairUp (Mask.ofLanes ((o.pieces.filter fun x => x.part == n && x.mainOpen).map Piece.lane))
      | _ => o.mask) = lanes := by
    split
    · next d hk => exact (hbyLane (.inl ⟨d, hk⟩)).symm
    · next hk => exact (hbyLane (.inr (.inl hk))).symm
    · next hk => exact (hbyLane (.inr (.inr (.inl hk)))).symm
    · next hk => exact (hbyLane (.inr (.inr (.inr hk)))).symm
    · next h1 h2 h3 h4 =>
      refine (hother ?_).symm
      rintro (⟨d, hk⟩ | hk | hk | hk)
      · exact h1 d hk
      · exact h2 hk
      · exact h3 hk
      · exact h4 hk
  have hlater : (match o.kind with | .cxget _ => false | _ => true) = deferred := by
    split
    · next d hk =>
      symm
      rw [← Bool.not_eq_true, hdeferred]
      exact fun h => h d hk
    · next hk => exact (hdeferred.mpr hk).symm
  have hva : o.firstVa n = (o.pieces.filter fun x => x.part == n && x.mainOpen).head?.map Piece.va := by
    rw [Op.firstVa, List.head?_filter]
  change execErrorResponse k o.key n s = _
  unfold execErrorResponse
  simp only [hw, ho, Option.bind_some, hq, Option.map_some, hstatus]
  rw [← hlanes, ← hlater, hva]
  rfl

end

end

/-! ### What holds a part (R200, R216, R275, R283) -/

theorem State.unitTaken_iff (s : State) (w : Wave) : s.unitTaken w = true ↔
    ∃ v ∈ s.waves, v.key ≠ w.key ∧ v.core = w.core ∧ v.partition = w.partition ∧ ∃ o ∈ v.ops, o.begun = true := by
  simp only [State.unitTaken, List.any_eq_true, Bool.and_eq_true, bne_iff_ne, beq_iff_eq, and_assoc, ne_eq]

theorem State.logsFirst_iff (s : State) (ctx home va : Nat) (l : Leaf) :
    s.logsFirst ctx home va l = true ↔ ∃ e ∈ s.sideLog, e.home = home ∧
      (e.ctx = ctx ∧ e.va / pageBytes l.size = va / pageBytes l.size ∨ ∃ x, e.leaf = some x ∧ x.pa = l.pa ∧ x.size = l.size) := by
  simp only [State.logsFirst, List.any_eq_true, Bool.and_eq_true, Bool.or_eq_true, beq_iff_eq, samePage]
  refine exists_congr fun e => and_congr_right fun _ => and_congr_right fun _ => or_congr_right ?_
  cases e.leaf <;> simp

/-- A part that is not finished: it has not performed, and is neither logged nor refused. -/
def Part.unfinished (y : Part) : Prop := y.status ≠ .performed ∧ y.status ≠ .logged ∧ ∀ c, y.status ≠ .refused c

theorem Part.open_iff (y : Part) : y.open_ = true ↔ y.unfinished := by
  unfold Part.open_ Part.unfinished
  cases y.status <;> simp

theorem mayBe_iff (kind : Nat) (l : Option Leaf) : mayBe kind l = true ↔ ∀ x, l = some x → x.kind = kind := by
  cases l <;> simp [mayBe]

theorem Op.mem_openParts {e : Op} {kind j : Nat} :
    j ∈ e.openParts kind ↔ ∃ y, e.parts[j]? = some y ∧ y.home ≠ 0xFF ∧ y.unfinished ∧ ∀ x, y.leaf = some x → x.kind = kind := by
  simp only [Op.openParts, List.mem_map, List.mem_filter, Bool.and_eq_true, bne_iff_ne, Part.open_iff, mayBe_iff, and_assoc]
  constructor
  · rintro ⟨⟨y, i⟩, hy, hhome, hopen, hmay, rfl⟩
    exact ⟨y, List.mem_zipIdx_iff_getElem?.mp hy, hhome, hopen, hmay⟩
  · rintro ⟨y, hy, hhome, hopen, hmay⟩
    exact ⟨(y, j), List.mem_zipIdx_iff_getElem?.mpr hy, hhome, hopen, hmay, rfl⟩

theorem LogEntry.meets_iff {e : LogEntry} {x : Piece} (hlen : 0 < x.len) : e.meets x = true ↔ ∃ a ∈ e.bytes, x.va ≤ a ∧ a < x.va + x.len := by
  unfold LogEntry.meets LogEntry.bytes Piece.meets
  by_cases hcell : e.cell.isSome = true
  · rw [if_pos hcell, if_pos hcell, decide_eq_true_iff]
    simp only [List.mem_map, List.mem_range]
    constructor
    · intro h
      exact ⟨max x.va e.va, ⟨max x.va e.va - e.va, by omega, by omega⟩, by omega, by omega⟩
    · rintro ⟨-, ⟨i, hi, rfl⟩, hlo, hhi⟩
      omega
  · rw [if_neg hcell, if_neg hcell]
    simp only [List.any_eq_true, decide_eq_true_iff, List.mem_map, exists_exists_and_eq_and]
    exact exists_congr fun y => and_congr_right fun _ => by omega

section
variable {s : State} {w : Wave} {o : Op} {n : Nat} {leaf : Leaf}

/-- A part of an earlier operation, in main memory, that may be of a kind and is not finished. -/
def Wave.earlierPart (w : Wave) (o : Op) (kind j : Nat) (e : Op) : Prop :=
  e ∈ w.ops ∧ e.seq < o.seq ∧ ∃ y, e.parts[j]? = some y ∧ y.home ≠ 0xFF ∧ y.unfinished ∧ ∀ x, y.leaf = some x → x.kind = kind

/-- A write of an earlier operation in the side log that may be of a kind. -/
def State.earlierLogged (s : State) (w : Wave) (o : Op) (kind : Nat) (e : LogEntry) : Prop :=
  e ∈ s.sideLog ∧ e.wave = w.key ∧ e.seq < o.seq ∧ ∀ x, e.leaf = some x → x.kind = kind

/-- R275: a part on an S page waits for every earlier part that may be on one. -/
theorem orderMet_strong (hkind : leaf.kind = 0) :
    s.orderMet w o n leaf = false ↔ (∃ j e, w.earlierPart o 0 j e) ∨ ∃ e, s.earlierLogged w o 0 e := by
  have hnone (l : List Nat) : l.isEmpty = false ↔ ∃ j, j ∈ l := by cases l <;> simp
  simp only [State.orderMet, hkind, Bool.and_eq_false_iff, List.all_eq_false, List.mem_filter, decide_eq_true_iff, Bool.not_eq_true, hnone, Op.mem_openParts,
    Bool.and_eq_true, beq_iff_eq, Bool.not_eq_false', mayBe_iff]
  refine or_congr ⟨?_, ?_⟩ ⟨?_, ?_⟩
  · rintro ⟨e, ⟨he, hseq⟩, j, hj⟩
    exact ⟨j, e, he, hseq, hj⟩
  · rintro ⟨j, e, he, hseq, hj⟩
    exact ⟨e, ⟨he, hseq⟩, j, hj⟩
  · rintro ⟨e, ⟨he, hwave, hseq⟩, hmay⟩
    exact ⟨e, he, hwave, hseq, hmay⟩
  · rintro ⟨e, he, hwave, hseq, hmay⟩
    exact ⟨e, ⟨he, hwave, hseq⟩, hmay⟩

/-- R275: on a C page, what holds a byte of the part. -/
theorem orderMet_coherent (hkind : leaf.kind = 1) : s.orderMet w o n leaf = true ↔
    (∀ j e, w.earlierPart o 1 j e → ∀ z ∈ e.pieces, z.part = j → ∀ x ∈ o.pieces, x.part = n → x.meets z.va z.len = false) ∧
    ∀ e, s.earlierLogged w o 1 e → ∀ x ∈ o.pieces, x.part = n → e.meets x = false := by
  simp only [State.orderMet, hkind, Bool.and_eq_true, List.all_eq_true, List.mem_filter, decide_eq_true_iff, Op.mem_openParts, beq_iff_eq, and_imp,
    Bool.not_eq_true', Bool.or_eq_true]
  refine and_congr ⟨?_, ?_⟩ ⟨?_, ?_⟩
  · rintro h j e ⟨he, hseq, hj⟩ z hz hzj x hx hxn
    exact h e he hseq j hj z hz hzj x hx hxn
  · intro h e he hseq j hj z hz hzj x hx hxn
    exact h j e ⟨he, hseq, hj⟩ z hz hzj x hx hxn
  · rintro h e ⟨he, hwave, hseq, hmay⟩ x hx hxn
    rcases h e he hwave hseq with hnot | hall
    · exact absurd ((mayBe_iff 1 e.leaf).mpr hmay) (by simp [hnot])
    · exact hall x hx hxn
  · intro h e he hwave hseq
    by_cases hmay : mayBe 1 e.leaf = true
    · exact .inr fun x hx hxn => h e ⟨he, hwave, hseq, (mayBe_iff 1 e.leaf).mp hmay⟩ x hx hxn
    · exact .inl (Bool.not_eq_true _ ▸ hmay)

theorem orderMet_weak (hkind : 2 ≤ leaf.kind) : s.orderMet w o n leaf = true := by
  unfold State.orderMet
  dsimp only
  split
  · omega
  · omega
  · rfl

/-- A byte that an earlier part or logged write may still change holds a part of a C page. -/
theorem orderMet_coherent_waits (hkind : leaf.kind = 1)
    (h : ∃ x a, (x ∈ o.pieces ∧ x.part = n) ∧ (x.va ≤ a ∧ a < x.va + x.len) ∧
      ((∃ j e z, w.earlierPart o 1 j e ∧ z ∈ e.pieces ∧ z.part = j ∧ z.va ≤ a ∧ a < z.va + z.len) ∨ ∃ e, s.earlierLogged w o 1 e ∧ a ∈ e.bytes)) :
    s.orderMet w o n leaf = false := by
  obtain ⟨x, a, ⟨hx, hxn⟩, ha, hmet⟩ := h
  rw [← Bool.not_eq_true, orderMet_coherent hkind]
  rintro ⟨hparts, hlog⟩
  rcases hmet with ⟨j, e, z, he, hz, hzj, hza⟩ | ⟨e, he, hea⟩
  · have hapart := hparts j e he z hz hzj x hx hxn
    simp only [Piece.meets, decide_eq_false_iff_not] at hapart
    omega
  · have hmeets := (LogEntry.meets_iff (e := e) (x := x) (by omega)).mpr ⟨a, hea, ha⟩
    exact Bool.false_ne_true ((hlog e he x hx hxn).symm.trans hmeets)

theorem orderMet_coherent_goes (hkind : leaf.kind = 1)
    (h : ∀ x, x ∈ o.pieces ∧ x.part = n → 0 < x.len ∧
      (∀ j e z, w.earlierPart o 1 j e → z ∈ e.pieces → z.part = j → x.va + x.len ≤ z.va ∨ z.va + z.len ≤ x.va) ∧
      ∀ e, s.earlierLogged w o 1 e → ∀ a ∈ e.bytes, ¬(x.va ≤ a ∧ a < x.va + x.len)) : s.orderMet w o n leaf = true := by
  refine (orderMet_coherent hkind).mpr ⟨fun j e he z hz hzj x hx hxn => ?_, fun e he x hx hxn => ?_⟩
  · have := (h x ⟨hx, hxn⟩).2.1 j e z he hz hzj
    simp only [Piece.meets, decide_eq_false_iff_not]
    omega
  · obtain ⟨hlen, -, hout⟩ := h x ⟨hx, hxn⟩
    rw [← Bool.not_eq_true, LogEntry.meets_iff hlen]
    rintro ⟨a, ha, hin⟩
    exact hout e he a ha hin

end

/-- Does a job add to a cell, or clear it? -/
def Job.addsCell : Job → Bool
  | .cxAdd _ | .cxClear => true
  | _ => false

/-- Has the part of a piece been logged or refused? -/
def Op.endedAt (e : Op) (y : Piece) : Prop := ∃ q, e.parts[y.part]? = some q ∧ (q.status = .logged ∨ ∃ c, q.status = .refused c)

theorem Op.endedAt_iff (e : Op) (y : Piece) : e.endedAt y ↔ e.refusedAt y = true ∨ e.loggedAt y = true := by
  unfold Op.endedAt Op.refusedAt Op.loggedAt
  cases e.parts[y.part]? with
  | none => simp
  | some q => cases hq : q.status <;> simp [hq]

theorem Job.addsCell_iff (j : Job) : j.addsCell = true ↔ j = .cxClear ∨ ∃ v, j = .cxAdd v := by
  cases j <;> simp [Job.addsCell]

theorem Piece.addsCell_open {y : Piece} : (y.job.addsCell && y.mainOpen) = true ↔ (y.job = .cxClear ∨ ∃ v, y.job = .cxAdd v) ∧ y.left ≠ [] := by
  rw [Bool.and_eq_true, ← Job.addsCell_iff]
  unfold Job.addsCell Piece.mainOpen
  cases y.job <;> simp

theorem State.cellsMet_eq (s : State) (w : Wave) (o : Op) (cells : List Piece) : s.cellsMet w o cells =
    (((w.ops.filter fun e => decide (e.seq < o.seq)).all fun e => e.pieces.all fun y =>
      !(y.job.addsCell && y.mainOpen && !e.refusedAt y && !e.loggedAt y) || cells.all fun x => x.va != y.va) &&
    s.sideLog.all fun e => !(e.wave == w.key && decide (e.seq < o.seq) && e.cell.isSome) || cells.all fun x => x.va != e.va) := rfl

/-- R200, R233: at a cell, an earlier add or clear of it is open, or logged. -/
theorem State.cellsMet_iff (s : State) (w : Wave) (o : Op) (cells : List Piece) : s.cellsMet w o cells = false ↔ ∃ x ∈ cells,
    (∃ e ∈ w.ops, e.seq < o.seq ∧ ∃ y ∈ e.pieces, y.va = x.va ∧ (y.job = .cxClear ∨ ∃ v, y.job = .cxAdd v) ∧ y.left ≠ [] ∧ ¬e.endedAt y) ∨
    ∃ e ∈ s.sideLog, e.wave = w.key ∧ e.seq < o.seq ∧ e.cell.isSome = true ∧ e.va = x.va := by
  have hop (e : Op) (y : Piece) : (y.job.addsCell && y.mainOpen && !e.refusedAt y && !e.loggedAt y) = true ↔
      (y.job = .cxClear ∨ ∃ v, y.job = .cxAdd v) ∧ y.left ≠ [] ∧ ¬e.endedAt y := by
    rw [Op.endedAt_iff, ← and_assoc, ← Piece.addsCell_open]
    simp only [Bool.and_eq_true, Bool.not_eq_true', and_assoc, not_or, Bool.not_eq_true]
  simp only [State.cellsMet_eq, Bool.and_eq_false_iff, List.all_eq_false, Bool.not_eq_true, Bool.or_eq_false_iff, Bool.not_eq_false', hop, bne_eq_false_iff_eq,
    List.mem_filter, decide_eq_true_iff, Bool.and_eq_true, beq_iff_eq]
  constructor
  · rintro (⟨e, ⟨he, hseq⟩, y, hy, ⟨hjob, hleft, hended⟩, x, hx, hva⟩ | ⟨e, he, ⟨⟨hwave, hseq⟩, hcell⟩, x, hx, hva⟩)
    · exact ⟨x, hx, .inl ⟨e, he, hseq, y, hy, hva.symm, hjob, hleft, hended⟩⟩
    · exact ⟨x, hx, .inr ⟨e, he, hwave, hseq, hcell, hva.symm⟩⟩
  · rintro ⟨x, hx, ⟨e, he, hseq, y, hy, hva, hjob, hleft, hended⟩ | ⟨e, he, hwave, hseq, hcell, hva⟩⟩
    · exact .inl ⟨e, ⟨he, hseq⟩, y, hy, ⟨hjob, hleft, hended⟩, x, hx, hva.symm⟩
    · exact .inr ⟨e, he, ⟨⟨hwave, hseq⟩, hcell⟩, x, hx, hva.symm⟩

/-! ### The side log (R283, R324, R325) -/

section
variable {s : State} {e : LogEntry} (he : s.sideLog.find? (fun y => y.core == e.core && y.key == e.key) = some e)
include he

theorem sideLogReplay_unmapped (h : e.leaf = none) : exec (.sideLogReplay e.core e.key) s = .next s := by
  change execSideLogReplay e.core e.key s = _
  unfold execSideLogReplay
  simp only [he, h]

section
variable {l : Leaf} (hl : e.leaf = some l)
include hl

theorem sideLogReplay_waits (h : s.replayWaits e l = true) : exec (.sideLogReplay e.core e.key) s = .next s := by
  change execSideLogReplay e.core e.key s = _
  unfold execSideLogReplay
  simp only [he, hl]
  exact if_pos h

/-- The side log without an entry. -/
def State.withoutEntry (s : State) (e : LogEntry) : State := { s with sideLog := s.sideLog.filter fun y => y.key != e.key }

/-- A sound entry whose turn has come is judged under the leaf in force, and performs. -/
theorem sideLogReplay_eq (hgo : s.replayWaits e l = false) (hsound : s.entryError e = none) : exec (.sideLogReplay e.core e.key) s =
    match s.checkLeaf e.home l e.va (if e.cell.isSome then .atomic else .write) e.tier with
    | some c => .next ((s.withoutEntry e).respond e.wave e.launch e.ctx e.core e.seq e.rank e.ctr e.mask c 0 e.va true)
    | none => .next ((if unitOf e.home = 4 then { s.withoutEntry e with hostWrites := s.hostWrites + 1 } else s.withoutEntry e).storeLogged e l) := by
  have hfilter : s.softErrors.filter (fun x => x.site != ErrSite.sideLog e.core e.key) = s.softErrors :=
    List.filter_eq_self.mpr fun x hx => by
      have := List.find?_eq_none.mp hsound x hx
      simpa using this
  change execSideLogReplay e.core e.key s = _
  unfold execSideLogReplay
  simp only [he, hl]
  rw [if_neg (by simp [hgo]), hsound, hfilter] <;> rfl

theorem sideLogReplay_refused (hgo : s.replayWaits e l = false) (hsound : s.entryError e = none) {c : Nat}
    (hc : s.checkLeaf e.home l e.va (if e.cell.isSome then .atomic else .write) e.tier = some c) : exec (.sideLogReplay e.core e.key) s =
    .next ((s.withoutEntry e).respond e.wave e.launch e.ctx e.core e.seq e.rank e.ctr e.mask c 0 e.va true) := by
  rw [sideLogReplay_eq he hl hgo hsound, hc]

theorem sideLogReplay_performs (hgo : s.replayWaits e l = false) (hsound : s.entryError e = none)
    (hc : s.checkLeaf e.home l e.va (if e.cell.isSome then .atomic else .write) e.tier = none) : exec (.sideLogReplay e.core e.key) s =
    .next (State.storeLogged { s.withoutEntry e with hostWrites := s.hostWrites + if unitOf e.home = 4 then 1 else 0 } e l) := by
  rw [sideLogReplay_eq he hl hgo hsound, hc]
  by_cases hu : unitOf e.home = 4
  · rw [if_pos hu, if_pos hu]
  · rw [if_neg hu, if_neg hu]
    rfl

end

end

/-! Bytes in rising order, and the windows of four lines that they are cut into. -/

theorem insertByte_addresses (l : List (Nat × Byte)) (x : Nat × Byte) (a : Nat) :
    a ∈ (insertByte l x).map Prod.fst ↔ a = x.1 ∨ a ∈ l.map Prod.fst := by
  induction l with
  | nil => simp [insertByte]
  | cons y ys ih =>
    rw [insertByte]
    split
    · simp
    · split
      · next heq => simp [heq]
      · rw [List.map_cons, List.mem_cons, ih, List.map_cons, List.mem_cons]
        tauto

theorem insertByte_rising {l : List (Nat × Byte)} (h : l.Pairwise fun x y => x.1 < y.1) (x : Nat × Byte) :
    (insertByte l x).Pairwise fun x y => x.1 < y.1 := by
  induction l with
  | nil => exact List.pairwise_singleton ..
  | cons y ys ih =>
    obtain ⟨hy, hys⟩ := List.pairwise_cons.mp h
    rw [insertByte]
    split
    · next hlt =>
      refine List.pairwise_cons.mpr ⟨fun z hz => ?_, h⟩
      rcases List.mem_cons.mp hz with rfl | hz
      · exact hlt
      · exact hlt.trans (hy z hz)
    · split
      · next heq => exact List.pairwise_cons.mpr ⟨fun z hz => heq ▸ hy z hz, hys⟩
      · refine List.pairwise_cons.mpr ⟨fun z hz => ?_, ih hys⟩
        rcases (insertByte_addresses ys x z.1).mp (List.mem_map_of_mem hz) with hz | hz
        · omega
        · obtain ⟨v, hv, hvz⟩ := List.mem_map.mp hz
          exact hvz ▸ hy v hv

theorem insertBytes_spec (ws : List (Nat × Byte)) : ((ws.foldl insertByte []).Pairwise fun x y => x.1 < y.1) ∧
    ∀ a, a ∈ (ws.foldl insertByte []).map Prod.fst ↔ a ∈ ws.map Prod.fst := by
  induction ws using List.reverseRecOn with
  | nil => exact ⟨List.Pairwise.nil, fun a => Iff.rfl⟩
  | append_singleton ws x ih =>
    rw [List.foldl_append]
    refine ⟨insertByte_rising ih.1 x, fun a => ?_⟩
    rw [List.foldl_cons, List.foldl_nil, insertByte_addresses, ih.2, List.map_append, List.mem_append]
    simp [or_comm]

/-- Enters a byte in the newest window, or in one of its own. -/
def windowStep (acc : List (List (Nat × Byte))) (x : Nat × Byte) : List (List (Nat × Byte)) :=
  match acc with
  | (y :: ys) :: more => if x.1 < y.1 / 64 * 64 + 256 then (y :: ys ++ [x]) :: more else [x] :: acc
  | _ => [x] :: acc

theorem logWindows_eq (bytes : List (Nat × Byte)) : logWindows bytes = (bytes.foldl windowStep []).reverse := rfl

/-- A window begins at its first byte and ends with the fourth line from that byte's. -/
def isWindow (W : List (Nat × Byte)) : Prop := ∃ y ys, W = y :: ys ∧ ∀ z ∈ W, y.1 ≤ z.1 ∧ z.1 < y.1 / 64 * 64 + 256

theorem isWindow_singleton (x : Nat × Byte) : isWindow [x] :=
  ⟨x, [], rfl, fun z hz => by rw [List.mem_singleton.mp hz]; omega⟩

theorem windowStep_spec {acc : List (List (Nat × Byte))} {x : Nat × Byte} (h : ∀ W ∈ acc, isWindow W) (hx : ∀ W ∈ acc, ∀ z ∈ W, z.1 < x.1) :
    (∀ W ∈ windowStep acc x, isWindow W) ∧ ∀ z, (∃ W ∈ windowStep acc x, z ∈ W) ↔ z = x ∨ ∃ W ∈ acc, z ∈ W := by
  have hfresh : (∀ W ∈ [x] :: acc, isWindow W) ∧ ∀ z, (∃ W ∈ [x] :: acc, z ∈ W) ↔ z = x ∨ ∃ W ∈ acc, z ∈ W :=
    ⟨fun W hW => (List.mem_cons.mp hW).elim (fun hW => hW ▸ isWindow_singleton x) (h W), fun z => by simp⟩
  unfold windowStep
  split
  · next y ys more =>
    split
    · next hin =>
      refine ⟨fun W hW => ?_, fun z => ?_⟩
      · rcases List.mem_cons.mp hW with rfl | hW
        · obtain ⟨y', ys', heq, hall⟩ := h _ List.mem_cons_self
          obtain ⟨rfl, rfl⟩ := List.cons.inj heq
          refine ⟨y, ys ++ [x], rfl, fun z hz => ?_⟩
          rcases List.mem_append.mp hz with hz | hz
          · exact hall z hz
          · obtain rfl := List.mem_singleton.mp hz
            exact ⟨(hx _ List.mem_cons_self y List.mem_cons_self).le, hin⟩
        · exact h W (List.mem_cons_of_mem _ hW)
      · simp only [List.mem_cons, exists_eq_or_imp, List.cons_append, List.mem_append, List.not_mem_nil, or_false]
        tauto
    · exact hfresh
  · exact hfresh

theorem logWindows_spec {bytes : List (Nat × Byte)} (h : bytes.Pairwise fun x y => x.1 < y.1) :
    (∀ W ∈ logWindows bytes, isWindow W) ∧ ∀ z, (∃ W ∈ logWindows bytes, z ∈ W) ↔ z ∈ bytes := by
  have hspec : (∀ W ∈ bytes.foldl windowStep [], isWindow W) ∧ ∀ z, (∃ W ∈ bytes.foldl windowStep [], z ∈ W) ↔ z ∈ bytes := by
    induction bytes using List.reverseRecOn with
    | nil => exact ⟨fun W hW => (List.not_mem_nil hW).elim, fun z => by simp⟩
    | append_singleton bs x ih =>
      obtain ⟨hbs, -, hlast⟩ := List.pairwise_append.mp h
      obtain ⟨hwin, hmem⟩ := ih hbs
      obtain ⟨hwin', hmem'⟩ := windowStep_spec hwin fun W hW z hz => hlast z ((hmem z).mp ⟨W, hW, hz⟩) x (List.mem_singleton.mpr rfl)
      rw [List.foldl_append]
      refine ⟨hwin', fun z => (hmem' z).trans ?_⟩
      rw [hmem, List.mem_append, List.mem_singleton, or_comm]
  simp only [logWindows_eq, List.mem_reverse]
  exact hspec

section
variable {k : Nat} {s : State} {w : Wave} {o : Op} {n tag : Nat} {q : Part} (hw : s.wave? k = some w) (ho : w.op? o.key = some o)
  (hq : o.parts[n]? = some q) (hheld : q.status = .held (some tag)) (hlogs : o.kind.logs = true) (hport : w.portBefore o.seq = false)

/-- The pieces of a part that are still to perform. -/
abbrev leftOf (o : Op) (n : Nat) : List Piece := o.pieces.filter fun x => x.part == n && !x.left.isEmpty

/-- The writes among them. -/
abbrev writesLeft (o : Op) (n : Nat) : List Piece := (leftOf o n).filter fun x => x.job == .write

/-- The bytes that they write, by rising address. -/
abbrev bytesLeft (o : Op) (n : Nat) : List (Nat × Byte) :=
  ((writesLeft o n).flatMap fun x => x.data.zipIdx.map fun (b, k) => (x.va + k, b.getD 0)).foldl insertByte []

/-- The adds and clears among them. -/
abbrev cellsLeft (o : Op) (n : Nat) : List Piece := (leftOf o n).filter fun x => x.job != .write

/-- An entry of the side log for a held part. -/
def sideEntry (s : State) (w : Wave) (o : Op) (q : Part) (tag n va : Nat) (data : List (Nat × Byte)) (cell : Option Job) (mask : Mask) : LogEntry :=
  ⟨s.nextKey + n, w.core, w.key, w.launch, w.ctx, q.home, tag, va, data, cell, o.seq, o.rank, o.ctr.getD 2, mask, o.expectedTier, none⟩

/-- The entries of a held part: its windows, and then its cells. -/
def sideEntries (s : State) (w : Wave) (o : Op) (q : Part) (tag n : Nat) : List LogEntry :=
  ((logWindows (bytesLeft o n)).zipIdx.map fun y => sideEntry s w o q tag y.2 ((y.1.head?.map Prod.fst).getD q.page) y.1 none o.mask) ++
    (cellsLeft o n).zipIdx.map fun y => sideEntry s w o q tag ((logWindows (bytesLeft o n)).length + y.2) y.1.va [] (some y.1.job)
      (w.pairUp (Mask.single y.1.lane))

theorem sideEntries_spec {e : LogEntry} (he : e ∈ sideEntries s w o q tag n) : e.core = w.core ∧ e.wave = w.key ∧ e.ctx = w.ctx ∧ e.home = q.home ∧
    e.tag = tag ∧ e.leaf = none ∧ e.tier = o.expectedTier ∧ ∀ y ∈ e.data, e.va ≤ y.1 ∧ y.1 < e.va / 64 * 64 + 256 := by
  rcases List.mem_append.mp he with he | he
  · obtain ⟨⟨W, i⟩, hW, rfl⟩ := List.mem_map.mp he
    refine ⟨rfl, rfl, rfl, rfl, rfl, rfl, rfl, ?_⟩
    obtain ⟨y, ys, rfl, hall⟩ := (logWindows_spec (insertBytes_spec _).1).1 W (List.mem_of_getElem? (List.mem_zipIdx_iff_getElem?.mp hW))
    exact hall
  · obtain ⟨⟨x, i⟩, -, rfl⟩ := List.mem_map.mp he
    exact ⟨rfl, rfl, rfl, rfl, rfl, rfl, rfl, fun y hy => (List.not_mem_nil hy).elim⟩

/-- Every byte of the part's writes is in an entry. -/
theorem sideEntries_cover {x : Piece} (hx : x ∈ writesLeft o n) {j : Nat} (hj : j < x.data.length) :
    ∃ e ∈ sideEntries s w o q tag n, x.va + j ∈ e.data.map Prod.fst := by
  have hbyte : x.va + j ∈ (bytesLeft o n).map Prod.fst := by
    refine ((insertBytes_spec _).2 _).mpr (List.mem_map.mpr ⟨(x.va + j, (x.data[j]).getD 0), List.mem_flatMap.mpr ⟨x, hx, ?_⟩, rfl⟩)
    exact List.mem_map.mpr ⟨(x.data[j], j), List.mem_zipIdx_iff_getElem?.mpr (List.getElem?_eq_getElem hj), rfl⟩
  obtain ⟨z, hz, hza⟩ := List.mem_map.mp hbyte
  obtain ⟨W, hW, hzW⟩ := ((logWindows_spec (insertBytes_spec _).1).2 z).mpr hz
  obtain ⟨i, hi⟩ := List.mem_iff_getElem?.mp hW
  refine ⟨sideEntry s w o q tag i ((W.head?.map Prod.fst).getD q.page) W none o.mask, List.mem_append_left _ ?_, List.mem_map.mpr ⟨z, hzW, hza⟩⟩
  exact List.mem_map.mpr ⟨(W, i), List.mem_zipIdx_iff_getElem?.mpr hi, rfl⟩

include hw ho hq hheld hlogs hport

theorem sideLog_enters (hbefore : w.writesBefore o (leftOf o n) = false) (hread : ∀ x ∈ writesLeft o n, ∀ b ∈ x.data, b ≠ none)
    (hroom : (s.sideLog.filter fun e => e.core == w.core).length + (logWindows (bytesLeft o n)).length + (cellsLeft o n).length ≤ 128) :
    exec (.sideLog k o.key n) s = .next (State.setPart { s with
      sideLog := s.sideLog ++ sideEntries s w o q tag n
      nextKey := s.nextKey + (logWindows (bytesLeft o n)).length + (cellsLeft o n).length } k o.key n .logged none) := by
  have hunread : ((writesLeft o n).any fun x => x.data.any Option.isNone) = false := by
    refine List.any_eq_false.mpr fun x hx => ?_
    rw [List.any_eq_true]
    rintro ⟨b, hb, hnone⟩
    exact hread x hx b hb (Option.isNone_iff_eq_none.mp hnone)
  have hgo : ¬(!o.kind.logs || w.portBefore o.seq || ((writesLeft o n).any fun x => x.data.any Option.isNone) || w.writesBefore o (leftOf o n) ||
      decide ((s.sideLog.filter fun e => e.core == w.core).length + (logWindows (bytesLeft o n)).length + (cellsLeft o n).length >
        Config.sideLogEntries)) = true := by
    rw [hlogs, hport, hunread, hbefore]
    simpa [Config.sideLogEntries] using hroom
  change execSideLog k o.key n s = _
  unfold execSideLog
  simp only [hw, ho, Option.bind_some, hq, Option.map_some, hheld]
  refine (if_neg hgo).trans ?_
  rw [sideEntries, ← List.append_assoc]
  rfl

end

/-! ### Two waves of one key -/

/-- The value of lane 1 has come, and no other. -/
def laneOnePiece : Piece := ⟨0, 0, none, none, [some 1], [], .atomic .add 0 0, 1⟩

/-- A per-lane atomic into v0, whose values have all come. -/
def answeredAtomic : Op := ⟨7, 0, some 0, 0, .vatomic 0, 0, 3, 0, [], [laneOnePiece], none, 0, false⟩

/-- A wave of two lanes with that atomic under way, of a kernel of a tier. -/
def atomicWave (tier : Nat) : Wave :=
  let w := placedWave 0xDC000000
  { w with kern := { w.kern with tier := tier, width := 2 }, a := { w.a with vregs := [⟨[0, 0], .general, false⟩] }, ops := [answeredAtomic] }

/-- A wave whose lanes are single, and behind it one of the same key whose lanes are pairs. -/
def twinKeyState : State := { State.reset with waves := [atomicWave 0, atomicWave 2] }

/-- What v0 of each wave holds. -/
def firstRegisters (s : State) : List (List Word32) := s.waves.map fun v => (nth v.a.vregs 0 ⟨[], .general, false⟩).lanes

/-- The atomic's return writes the value to lane 1 of both: which lane it reads, the first wave decides. -/
theorem twinKeyState_returns : exec (.atomicReturn 3 7) twinKeyState = .next (twinKeyState.returnAtomic 3 7) ∧
    firstRegisters (twinKeyState.returnAtomic 3 7) = [[0, 1], [0, 1]] :=
  ⟨rfl, by decide +kernel⟩

/-- Refutes O49: its clause about the return of a per-lane atomic has every wave of the key decide by its own pairing which lane's value it takes; the model
decides by the wave that it found. They differ where a state has two waves of one key, of which one has its lanes in pairs. No run comes to such a state:
the keys of waves are drawn anew; the clause does not ask for that. The lemmas above give what each event does; that return is `atomicReturn_vector`. -/
theorem not_engineEventsTakePlace : ¬Obligations.EngineEventsTakePlace := by
  unfold Obligations.EngineEventsTakePlace
  intro ⟨events, _⟩
  obtain ⟨-, -, -, -, returns, -⟩ := events 3 twinKeyState (atomicWave 0) answeredAtomic rfl
  obtain ⟨-, vector⟩ := returns rfl rfl rfl (by decide)
  have hsame := Host.Outcome.next.inj (twinKeyState_returns.1.symm.trans (vector 0 rfl))
  have hregs := twinKeyState_returns.2.symm.trans (congrArg firstRegisters hsame)
  exact absurd hregs (by decide +kernel)

end Sys2Proof.Machine
end

section
/-! The canonical form of main memory (log 5): the rules for updates of the state, for traps and for a word's checks. -/

namespace Sys2Proof.Machine

/-- Main memory in canonical form, as a proposition. -/
def State.canon (s : State) : Prop := s.hbm.wf = true ∧ s.hostMem.wf = true ∧ s.peerMem.wf = true

/-- An answer leaves main memory in canonical form. -/
def Result.canon : Result → Prop
  | .next t => State.canon t
  | _ => True

theorem Result.canon.ite {c : Prop} [Decidable c] {r q : Result} (hr : r.canon) (hq : q.canon) : (if c then r else q).canon := by
  split <;> assumption

namespace State.canon
variable {s : State} (h : s.canon)
include h

/-- Of a state its three main memories count alone. -/
theorem same
    {agenda inputs fresh nextKey clock slots passed waves crews launches queues contexts objects nextHandle acceptances homes shadows
    softErrors sideLog hostWrites heldLeases errorLog errorLost integrityLog integrityLost interrupts assayPeriod clusters stage fwsvn
    minSvn fwdigest faccept hctx cmd cmdstat running linkMasks linksDown linkRetries powerCap clockStep} :
    State.canon
      ⟨agenda, inputs, fresh, nextKey, clock, slots, passed, waves, crews, launches, queues, contexts, objects, nextHandle, acceptances,
      homes, s.hbm, s.hostMem, s.peerMem, shadows, softErrors, sideLog, hostWrites, heldLeases, errorLog, errorLost, integrityLog,
      integrityLost, interrupts, assayPeriod, clusters, stage, fwsvn, minSvn, fwdigest, faccept, hctx, cmd, cmdstat, running, linkMasks,
      linksDown, linkRetries, powerCap, clockStep⟩ :=
  h

theorem foldl {α : Type} {f : State → α → State} (hf : ∀ t a, t.canon → (f t a).canon) {l : List α} : (l.foldl f s).canon := by
  induction l generalizing s with
  | nil => exact h
  | cons a l ih => exact ih (hf s a h)

omit h in
theorem ite {c : Prop} [Decidable c] {t u : State} (ht : t.canon) (hu : u.canon) : (if c then t else u).canon := by
  split <;> assumption

omit h in
/-- The state of a pair that an operation answers. -/
theorem fst {α : Type} {x : State × α} {t : State} {a : α} (hx : x.1.canon) (he : x = (t, a)) : t.canon := by
  subst he
  exact hx

theorem mapGetD {α : Type} {o : Option α} {f : α → State} (hf : ∀ a, (f a).canon) : ((o.map f).getD s).canon := by
  cases o with
  | none => exact h
  | some a => exact hf a

theorem foldlFst {α β : Type} {f : State × β → α → State × β} (hf : ∀ x a, State.canon x.1 → (f x a).1.canon) {l : List α} {b : β} :
    (l.foldl f (s, b)).1.canon := by
  suffices ∀ x : State × β, State.canon x.1 → (l.foldl f x).1.canon from this (s, b) h
  induction l with
  | nil => exact fun x hx => hx
  | cons a l ih => exact fun x hx => ih _ (hf x a hx)

end State.canon

section
variable {s : State} (h : s.canon)
include h

theorem State.canon.putWave {w : Wave} : (s.putWave w).canon :=
  h.same

theorem State.canon.onWave {k : Nat} {f : Wave → Wave} : (s.onWave k f).canon :=
  h.same

theorem State.canon.onCrew {k : Nat} {f : Crew → Crew} : (s.onCrew k f).canon :=
  h.same

theorem State.canon.onLaunch {k : Nat} {f : Launch → Launch} : (s.onLaunch k f).canon :=
  h.same

theorem State.canon.onContext {c : Nat} {f : Context → Context} : (s.onContext c f).canon :=
  h.same

theorem State.canon.onQueue {q : Nat} {f : Queue → Queue} : (s.onQueue q f).canon :=
  h.same

theorem State.canon.onHome {k : Nat} {f : Home → Home} : (s.onHome k f).canon :=
  h.same

theorem State.canon.newKey : (s.newKey).2.canon :=
  h.same

theorem State.canon.draw : (s.draw).2.canon :=
  h.same

theorem State.canon.writePhys {k pa : Nat} {b : Byte} : (s.writePhys k pa b).canon :=
  State.mainCanonical_writePhys k pa b h

theorem State.canon.writePhysBytes {k pa : Nat} {bs : List Byte} : (s.writePhysBytes k pa bs).canon := by
  induction bs generalizing s pa with
  | nil => exact h
  | cons b bs ih => exact ih h.writePhys

theorem State.canon.writeLocal {p : LocalAt} {b : Byte} : (s.writeLocal p b).canon := by
  unfold Machine.State.writeLocal
  split
  · exact h.onCrew
  · exact h.onLaunch

theorem State.canon.writeLocalBytes {p : LocalAt} {bs : List Byte} : (s.writeLocalBytes p bs).canon := by
  induction bs generalizing s p with
  | nil => exact h
  | cons b bs ih => exact ih h.writeLocal

theorem State.canon.writeLocalBits {p : LocalAt} {b mask : Byte} : (s.writeLocalBits p b mask).canon :=
  h.writeLocal

theorem State.canon.done {w : Wave} {p : Split} : Result.canon (s.done w p) :=
  h.putWave

theorem State.canon.logError {va ctx home cause source index : Nat} : (s.logError va ctx home cause source index).canon :=
  State.canon.ite h.same h.same

theorem State.canon.logIntegrityAt {time : Nat} {f : LogFields} : (s.logIntegrityAt time f).canon :=
  State.canon.ite h.same h.same

theorem State.canon.logIntegrity {f : LogFields} : (s.logIntegrity f).canon :=
  h.logIntegrityAt

theorem State.canon.killLaunches {keys : List Nat} : (s.killLaunches keys).canon :=
  h.same

theorem State.canon.contextFault {ctx : Nat} {f : LogFields} : (s.contextFault ctx f).canon :=
  h.killLaunches.same.onContext.logIntegrity.same

theorem State.canon.takeTrap {w : Wave} {p : Split} {cause pc addr : Nat} {mask : Mask} : (s.takeTrap w p cause pc addr mask).canon := by
  unfold Machine.State.takeTrap
  dsimp only
  refine State.canon.ite h.putWave.contextFault ?_
  split
  · exact h.putWave.contextFault
  · exact h.putWave

theorem State.canon.trapAt {w : Wave} {p : Split} {cause addr : Nat} {mask : Mask} : Result.canon (s.trapAt w p cause addr mask) :=
  h.takeTrap

theorem State.canon.charge {ctx n : Nat} : (s.charge ctx n).1.canon :=
  h.onContext

theorem State.canon.logDemand {w : Wave} {d : Demand} {event region : Nat} : (s.logDemand w d event region).canon :=
  h.logIntegrityAt

theorem State.canon.demandRollback {w : Wave} {d : Demand} : (s.demandRollback w d).canon :=
  State.canon.ite h.putWave.logDemand.contextFault h.putWave.onWave

theorem State.canon.mismatch {w : Wave} {p : Split} {bad : Mask} {scalar : Bool} : Result.canon (s.mismatch w p bad scalar) :=
  h.demandRollback

theorem State.canon.deliver {w : Wave} {p : Split} {x : Bool × Deferred} : Result.canon (s.deliver w p x) :=
  h.trapAt

theorem State.canon.chargeWave {k ctx n : Nat} : (s.chargeWave k ctx n).canon :=
  State.canon.ite h.charge.same.logIntegrity h.charge

theorem State.canon.readErrors {w : Wave} {p : Split} {i : Instr} {t : State} {x : Bool} (he : s.readErrors w p i = some (t, x)) :
    t.canon := by
  unfold Machine.State.readErrors at he
  split at he
  · nomatch he
  · dsimp only at he
    split at he
    · cases he
      exact h.same.onContext.chargeWave
    · split at he <;> cases he
      · exact h.demandRollback
      · exact h.same

theorem State.canon.clearErrors {w : Wave} {gone : ErrSite → Bool} : (s.clearErrors w gone).canon :=
  h.same.foldl (fun _ _ ht1 => ht1.logIntegrity)

theorem State.canon.clearScalar {w : Wave} {k : Nat} : (s.clearScalar w k).canon :=
  State.canon.ite h h.clearErrors

theorem State.canon.clearWritten {w : Wave} {d : Nat} {on : Mask} : (s.clearWritten w d on).canon :=
  h.clearErrors

/-- A word keeps the form where what follows its checks keeps it (R126). -/
theorem State.canon.issueWord {i : Instr} {body : State → Wave → Split → Result}
    (hb : ∀ t w p, State.canon t → (body t w p).canon) : (Machine.issueWord i s body).canon := by
  unfold Machine.issueWord
  split
  · exact trivial
  · split
    · exact trivial
    · split
      · exact h.trapAt
      · split
        · exact h.trapAt
        · split
          · exact h.trapAt
          · split
            · exact h.deliver
            · split
              · split
                · exact h.trapAt
                · exact h
              · split
                · exact h
                · split
                  · next he => exact h.readErrors he
                  · exact hb _ _ _ h

end

end Sys2Proof.Machine
end

section
/-! The canonical form of main memory (log 5): the scalar and vector words. -/

namespace Sys2Proof.Machine

section
variable {s : State} (h : s.canon)
include h

theorem State.canon.scalarDone {w : Wave} {p : Split} {d : Byte} {x xs : Word64} : Result.canon (s.scalarDone w p d x xs) :=
  h.clearScalar.done

theorem State.canon.scalarBinary {i : Instr} {d a b : Byte} {f : Word64 → Word64 → Word64} {divides : Bool} :
    Result.canon (scalarBinary i d a b f divides s) :=
  h.issueWord (fun _ _ _ hu => hu.scalarDone)

theorem State.canon.scalarUnary {i : Instr} {d a : Byte} {f : Word64 → Word64} : Result.canon (scalarUnary i d a f s) :=
  h.issueWord (fun _ _ _ hu => hu.scalarDone)

theorem State.canon.scalarImm {i : Instr} {d : Byte} {f : Word64 → Word64} : Result.canon (scalarImm i d f s) :=
  h.issueWord (fun _ _ _ hu => hu.scalarDone)

theorem State.canon.scalarCompare {i : Instr} {d a b : Byte} {f : Word64 → Word64 → Bool} : Result.canon (scalarCompare i d a b f s) :=
  h.issueWord (fun _ _ _ hu => hu.done)

theorem State.canon.setSpecial {w v : Wave} {n : Nat} {x : Word64} {t : State} (he : s.setSpecial w n x = some (t, v)) : t.canon := by
  unfold Machine.State.setSpecial at he
  split at he <;> (try split at he) <;> cases he <;> exact h.same

theorem State.canon.execSwrite {a b : Byte} : (Machine.execSwrite a b s).canon := by
  unfold Machine.execSwrite
  refine h.issueWord fun _ _ _ hu => ?_
  split
  · exact hu.mismatch
  · split
    · exact hu
    · split
      · exact hu.trapAt
      · next he => exact (hu.setSpecial he).done

theorem State.canon.classNext {w : Wave} {p : Split} {d : Nat} {on : Mask} {rows : List LaneRow} {t : Tag} {bump : Bool} :
    (s.classNext w p d on rows t bump).canon :=
  h.clearWritten.putWave

theorem State.canon.classC {w : Wave} {p : Split} {d : Nat} {on : Mask} {exact : Nat → Exact} {out : Nat → Val → LaneOut} {t : Tag} {bump
    : Bool} : Result.canon (s.classC w p d on exact out t bump) := by
  unfold Machine.State.classC
  dsimp only
  split
  · exact h.trapAt
  · exact h.classNext

theorem State.canon.vectorBinary {i : Instr} {d a b : Byte} {real : Bool → Val → Val → Exact} {int : ℤ → ℤ → Exact} {tag : Wave → Tag} :
    Result.canon (vectorBinary i d a b real int tag s) :=
  h.issueWord (fun _ _ _ hu => hu.classC)

theorem State.canon.vectorUnary {i : Instr} {d a : Byte} {real : Val → Exact} {int : ℤ → Exact} {tag : Wave → Tag} :
    Result.canon (vectorUnary i d a real int tag s) :=
  h.issueWord (fun _ _ _ hu => hu.classC)

theorem State.canon.vectorFused {i : Instr} {d a b : Byte} {np nd : Bool} : Result.canon (vectorFused i d a b np nd s) :=
  h.issueWord (fun _ _ _ hu => hu.classC)

theorem State.canon.rawDone {w : Wave} {p : Split} {d : Nat} {on : Mask} {value : Nat → Word32} {t : Tag} :
    Result.canon (s.rawDone w p d on value t) :=
  h.clearWritten.done

theorem State.canon.rawBinary {i : Instr} {d a b : Byte} {f : Word32 → Word32 → Word32} {tag : Wave → Tag} :
    Result.canon (rawBinary i d a b f tag s) :=
  h.issueWord (fun _ _ _ hu => hu.rawDone)

theorem State.canon.rawUnary {i : Instr} {d a : Byte} {f : Word32 → Word32} : Result.canon (rawUnary i d a f s) :=
  h.issueWord (fun _ _ _ hu => hu.rawDone)

theorem State.canon.vectorCompare {i : Instr} {d a b : Byte} {test : Ordering → Bool} {nan quiet : Bool} :
    Result.canon (vectorCompare i d a b test nan quiet s) :=
  h.issueWord (fun _ _ _ hu => Result.canon.ite hu.trapAt hu.done)

theorem State.canon.predWord {i : Instr} {d : Byte} {value : Wave → Mask → Mask} : Result.canon (predWord i d value s) :=
  h.issueWord (fun _ _ _ hu => hu.done)

theorem State.canon.crossLane {i : Instr} {d a : Byte} {t : Tag} : Result.canon (crossLane i d a t s) :=
  h.issueWord (fun _ _ _ hu => hu.rawDone)

theorem State.canon.scanWord {i : Instr} {d a : Byte} {prefix_ : Bool} {f : Wave → List Val → Exact} :
    Result.canon (scanWord i d a prefix_ f s) :=
  h.issueWord (fun _ _ _ hu => hu.classC)

theorem State.canon.loadDone {w : Wave} {p : Split} {d : Byte} {on : Mask} {remote : Bool} {job : PortJob} :
    Result.canon (s.loadDone w p d on remote job) :=
  Result.canon.ite h.done (Result.canon.ite h.done h.done)

theorem State.canon.execVld {d a b : Byte} : Result.canon (execVld d a b s) := by
  unfold Machine.execVld
  dsimp only
  refine h.issueWord fun _ _ _ hu => ?_
  split
  · exact hu.trapAt
  · exact hu.loadDone

theorem State.canon.rawLoad {i : Instr} {d a b : Byte} {size : Nat} : Result.canon (rawLoad i d a b size s) := by
  unfold Machine.rawLoad
  dsimp only
  refine h.issueWord fun _ _ _ hu => ?_
  split
  · exact hu.trapAt
  · exact hu.loadDone

theorem State.canon.storeDone {w : Wave} {p : Split} {writes : List (LocalAt × Byte × Byte)} : Result.canon (s.storeDone w p writes) :=
  Result.canon.ite h.done h.done

theorem State.canon.rawStore {i : Instr} {d a b : Byte} {size : Nat} : Result.canon (rawStore i d a b size s) := by
  unfold Machine.rawStore
  dsimp only
  refine h.issueWord fun _ _ _ hu => ?_
  refine Result.canon.ite hu.mismatch ?_
  split
  · exact hu.trapAt
  · exact hu.storeDone

theorem State.canon.execVst {d a b : Byte} : Result.canon (execVst d a b s) := by
  unfold Machine.execVst
  dsimp only
  refine h.issueWord fun _ _ _ hu => ?_
  refine Result.canon.ite hu.mismatch ?_
  split
  · exact hu.trapAt
  · exact Result.canon.ite hu.trapAt (Result.canon.ite hu.trapAt hu.storeDone)

theorem State.canon.execVlds {d a : Byte} : Result.canon (execVlds d a s) := by
  unfold Machine.execVlds
  dsimp only
  refine h.issueWord fun _ _ _ hu => ?_
  split
  · exact hu.trapAt
  · exact hu.rawDone

theorem State.canon.execVsts {d a : Byte} : Result.canon (execVsts d a s) := by
  unfold Machine.execVsts
  dsimp only
  refine h.issueWord fun _ _ _ hu => ?_
  refine Result.canon.ite hu.mismatch ?_
  split
  · exact hu.trapAt
  · exact hu.done

theorem State.canon.scalarLoad {i : Instr} {d a b : Byte} {size : Nat} : Result.canon (scalarLoad i d a b size s) := by
  unfold Machine.scalarLoad
  refine h.issueWord fun _ _ _ hu => ?_
  split
  · exact hu.trapAt
  · exact hu.trapAt
  · exact hu.done

theorem State.canon.scalarStore {i : Instr} {d a b : Byte} {size : Nat} : Result.canon (scalarStore i d a b size s) := by
  unfold Machine.scalarStore
  dsimp only
  refine h.issueWord fun _ _ _ hu => ?_
  refine Result.canon.ite hu.mismatch ?_
  split
  · exact hu.trapAt
  · exact hu.storeDone

end

end Sys2Proof.Machine
end

section
/-! The canonical form of main memory (log 5): rollbacks, and reading and writing main memory. -/

namespace Sys2Proof.Machine

section
variable {s : State} (h : s.canon)
include h

theorem State.canon.takeWaveTrap {w : Wave} {cause addr : Nat} : (s.takeWaveTrap w cause addr).canon := by
  unfold Machine.State.takeWaveTrap
  dsimp only
  split
  · exact h
  · exact h.onCrew.takeTrap

theorem State.canon.corrected {ctx : Nat} {wave : Option Nat} : (s.corrected ctx wave).canon := by
  unfold Machine.State.corrected
  dsimp only
  split
  · exact h.onContext.chargeWave
  · exact State.canon.ite h.onContext.charge.logIntegrity.contextFault h.onContext.charge

theorem State.canon.rung3 {lk : Nat} {wave : Option Nat} {d : Demand} : (s.rung3 lk wave d).canon := by
  unfold Machine.State.rung3
  dsimp only
  split
  · exact h
  · refine State.canon.ite h ?_
    refine State.canon.ite ?_ ?_
    · split
      · exact h.same.onWave
      · exact h.same
    · split
      · exact State.canon.ite h.onWave h.contextFault
      · exact h.contextFault

theorem State.canon.withdraw {w : Wave} : (s.withdraw w).canon :=
  State.canon.ite h h.onCrew

theorem State.canon.clearWaveErrors {w : Wave} : (s.clearWaveErrors w).canon :=
  h.clearErrors

theorem State.canon.rollback {w : Wave} {d : Demand} : (s.rollback w d).canon :=
  h.logDemand.withdraw.putWave.clearWaveErrors.chargeWave

theorem State.canon.deliverDebug {w : Wave} {d : Demand} : (s.deliverDebug w d).canon := by
  unfold Machine.State.deliverDebug
  dsimp only
  split
  · exact h.withdraw.putWave.clearWaveErrors
  · exact h.withdraw.contextFault

theorem State.canon.escalate {w : Wave} {d : Demand} : (s.escalate w d).canon :=
  h.logDemand.logDemand.onWave.rung3

theorem State.canon.readCullet {w : Wave} : (s.readCullet w).1.canon := by
  unfold Machine.State.readCullet
  split
  · exact h
  · split
    · exact h
    · split
      · exact h
      · exact h.onWave.corrected

theorem State.canon.restartFor {w : Wave} {d : Demand} : (s.restartFor w d).canon := by
  unfold Machine.State.restartFor
  split
  · next he =>
    have ht := State.canon.fst h.readCullet he
    exact State.canon.ite ht.onWave.rung3 ht.escalate
  · next he =>
    have ht := State.canon.fst h.readCullet he
    split
    · exact State.canon.ite ht (State.canon.ite ht.deliverDebug ht.rollback)
    · exact ht

theorem State.canon.execRegionRollback {wave : Nat} : Result.canon (execRegionRollback wave s) := by
  unfold Machine.execRegionRollback
  split
  · exact h
  · split
    · exact h
    · exact Result.canon.ite h (Result.canon.ite h.restartFor (Result.canon.ite h.escalate (Result.canon.ite h (Result.canon.ite
        h.escalate h.restartFor))))

theorem State.canon.correctLine {ctx : Nat} {m : MainAt} : (s.correctLine ctx m).canon := by
  unfold Machine.State.correctLine
  split
  · exact State.canon.ite h h.same.corrected
  · exact h

theorem State.canon.dropLineError {m : MainAt} : (s.dropLineError m).canon := by
  unfold Machine.State.dropLineError
  split
  · exact h.same
  · exact h

theorem State.canon.clearLine {m : MainAt} : (s.clearLine m).canon :=
  State.canon.ite h.dropLineError.logIntegrity h.dropLineError

theorem State.canon.markLine {m : MainAt} : (s.markLine m).canon := by
  unfold Machine.State.markLine
  split
  · exact h.same
  · exact h

theorem State.canon.scanLine {ctx : Nat} {m : MainAt} : (s.scanLine ctx m).canon :=
  State.canon.ite h.markLine h.correctLine

theorem State.canon.healEntries {m : MainAt} {n : Nat} : (s.healEntries m n).canon :=
  State.canon.ite h.onHome h

theorem State.canon.writeEntry {unit pa e : Nat} : (s.writeEntry unit pa e).canon :=
  h.writePhysBytes.healEntries

theorem State.canon.writeCommitted {m : MainAt} {b : Byte} : (s.writeCommitted m b).canon := by
  unfold Machine.State.writeCommitted
  split
  · exact h.writePhys
  · obtain ⟨hhbm, hhost, hpeer⟩ := h
    exact ⟨hhbm, hhost, Memory.wf_write _ _ hpeer⟩

theorem State.canon.noteOwn {l : Option Nat} {m : MainAt} : (s.noteOwn l m).canon :=
  h.same

theorem State.canon.noteOthers {l : Option Nat} {m : MainAt} : (s.noteOthers l m).canon :=
  h.same

theorem State.canon.commitShadowLine {x : Shadow} {line : Nat} : (s.commitShadowLine x line).canon :=
  State.canon.ite h ((h.foldl (fun _ _ ht1 => State.canon.ite ((State.canon.ite ht1.noteOwn ht1).foldl (fun _ _ ht2 =>
      ht2.noteOthers)) (State.canon.ite ht1.noteOwn ht1))).foldl (fun _ _ ht1 => ht1.clearLine.writePhysBytes.healEntries))

theorem State.canon.commitShadows {lk : Nat} : (s.commitShadows lk).canon :=
  (h.foldl (fun _ _ ht1 => ht1.foldl (fun _ _ ht2 => ht2.commitShadowLine))).same

theorem State.canon.demote {lk : Nat} : (s.demote lk).canon := by
  unfold Machine.State.demote
  dsimp only
  split
  · exact h
  · exact State.canon.ite h h.commitShadows.onLaunch.logIntegrity

theorem State.canon.readLine {l : Option Nat} {ctx : Nat} {m : MainAt} : (s.readLine l ctx m).canon := by
  unfold Machine.State.readLine
  split
  · exact h
  · exact h.correctLine

theorem State.canon.markLost {l : Option Nat} {m : MainAt} : (s.markLost l m).canon := by
  unfold Machine.State.markLost
  split
  · exact h
  · exact h.markLine

theorem State.canon.onShadow {x : Shadow} {f : Shadow → Shadow} : (s.onShadow x f).canon :=
  h.same

theorem State.canon.shadowed {l : Option Nat} {m : MainAt} : (s.shadowed l m).canon := by
  unfold Machine.State.shadowed
  dsimp only
  split
  · exact h
  · exact State.canon.ite h (State.canon.ite h.demote h.same)

theorem State.canon.writeMain {l : Option Nat} {m : MainAt} {b : Byte} : (s.writeMain l m b).canon := by
  unfold Machine.State.writeMain
  dsimp only
  split
  · exact h.shadowed.onShadow
  · exact h.shadowed.noteOwn.noteOthers.writeCommitted

theorem State.canon.writeMainBytes {l : Option Nat} {m : MainAt} {bs : List Byte} : (s.writeMainBytes l m bs).canon := by
  induction bs generalizing s m with
  | nil => exact h
  | cons b bs ih => exact ih h.writeMain

theorem State.canon.makeWhole {l : Option Nat} {m : MainAt} : (s.makeWhole l m).canon := by
  unfold Machine.State.makeWhole
  dsimp only
  split
  · exact h.shadowed.onShadow
  · exact h.shadowed.clearLine

theorem State.canon.storeIn {l : Option Nat} {ctx : Nat} {m : MainAt} {bs : List Byte} {whole : Bool} :
    (s.storeIn l ctx m bs whole).canon :=
  State.canon.ite h.markLost (State.canon.ite (((State.canon.ite h.makeWhole h.readLine).writeMainBytes).healEntries)
      ((State.canon.ite h.makeWhole h.readLine).writeMainBytes))

theorem State.canon.storePage {l : Option Nat} {ctx : Nat} {m : MainAt} {bs : List Byte} : (s.storePage l ctx m bs).canon :=
  h.foldl (fun _ _ ht1 => ht1.storeIn)

theorem State.canon.healWord {l : Option Nat} {m : MainAt} : (s.healWord l m).canon :=
  State.canon.ite h.healEntries h

theorem State.canon.hostWritten {unit : Nat} : (s.hostWritten unit).canon :=
  State.canon.ite h.same h

theorem State.canon.raiseFault {unit ctx va level op source : Nat} : (s.raiseFault unit ctx va level op source).1.canon := by
  unfold Machine.State.raiseFault
  dsimp only
  split
  · exact h
  · split
    · exact h
    · exact h.writePhysBytes.hostWritten.onHome.same

theorem State.canon.respond {wave launch ctx core seq rank ctr : Nat} {mask : Mask} {cause index va : Nat} {deferred : Bool} :
    (s.respond wave launch ctx core seq rank ctr mask cause index va deferred).canon := by
  unfold Machine.State.respond
  dsimp only
  refine State.canon.ite h.logError ?_
  split
  · exact State.canon.ite (State.canon.ite h.logError h.logError.contextFault) h.logError.onWave
  · exact State.canon.ite h.logError h.logError.contextFault

theorem State.canon.reportPoison {ctx home source table index : Nat} : (s.reportPoison ctx home source table index).canon :=
  State.canon.ite ((State.canon.ite h.dropLineError.onHome h).onHome) ((((State.canon.ite h.dropLineError.onHome
      h).onHome).logError).onHome)

theorem State.canon.retryClocks : (s.retryClocks).2.canon :=
  h.draw

theorem State.canon.answeredBy {va : Nat} : (s.answeredBy va).canon :=
  State.canon.ite h.same h

theorem State.canon.deviceTook {ctx va n : Nat} : (s.deviceTook ctx va n).canon := by
  unfold Machine.State.deviceTook
  split
  · exact h
  · exact (h.foldl (fun _ _ ht1 => ht1.correctLine)).answeredBy

theorem State.canon.deviceWriteBy {put : State → MainAt → List Byte → Bool → State} {ctx va : Nat} {bs : List Byte} {t : State}
    (hput : ∀ u m l x, State.canon u → (put u m l x).canon) (he : s.deviceWriteBy put ctx va bs = .ok t) : t.canon := by
  unfold Machine.State.deviceWriteBy at he
  split at he
  · nomatch he
  · cases he
    refine (State.canon.foldl h fun u x hu => ?_).hostWritten.answeredBy
    split
    · exact hput _ _ _ _ hu
    · exact hu

theorem State.canon.deviceWrite {ctx va : Nat} {bs : List Byte} {t : State} (he : s.deviceWrite ctx va bs = .ok t) : t.canon :=
  h.deviceWriteBy (fun _ _ _ _ hu => hu.storeIn) he

theorem State.canon.deviceFailed {ctx op : Nat} {e : DeviceErr} : (s.deviceFailed ctx op e).canon := by
  unfold Machine.State.deviceFailed
  dsimp only
  split
  · exact h
  · exact h.same
  · exact h.raiseFault
  · exact h.reportPoison.logError
  · exact h.logError.answeredBy
  · exact h.markLine.contextFault

theorem State.canon.deviceStore {ctx va : Nat} {bs : List Byte} : (s.deviceStore ctx va bs).canon := by
  unfold Machine.State.deviceStore
  split
  · next he => exact h.deviceWrite he
  · exact h.deviceFailed

theorem State.canon.storeUnnoted {ctx : Nat} {m : MainAt} {bs : List Byte} {whole : Bool} : (s.storeUnnoted ctx m bs whole).canon :=
  h.storeIn.same

theorem State.canon.logWrite {l : Launch} {va : Nat} {bs : List Byte} : (s.logWrite l va bs).canon := by
  unfold Machine.State.logWrite
  split
  · next he => exact h.deviceWriteBy (fun _ _ _ _ hu => hu.storeUnnoted) he
  · exact h.deviceFailed

theorem State.canon.tookLog {lk : Nat} : (s.tookLog lk).canon := by
  unfold Machine.State.tookLog
  split
  · exact h
  · split
    · exact h.deviceFailed
    · exact h

end

end Sys2Proof.Machine
end

section
/-! The canonical form of main memory (log 5): the local port, the engines and the answers of the homes. -/

namespace Sys2Proof.Machine

section
variable {s : State} (h : s.canon)
include h

theorem State.canon.addOp {w : Wave} {p : Split} {ctr : Option Nat} {kind : OpKind} {mask : Mask} {pieces : List Piece} {mat : Option
    MatJob} {tier : Nat} : (s.addOp w p ctr kind mask pieces mat tier).1.canon :=
  h.newKey

theorem State.canon.writeHeader {lk : Nat} : (s.writeHeader lk).canon := by
  unfold Machine.State.writeHeader
  split
  · exact h
  · split
    · exact h
    · exact h.logWrite

theorem State.canon.onLog {lk : Nat} {f : TraceLog → TraceLog} : (s.onLog lk f).canon :=
  h.onLaunch

theorem State.canon.dropRedone {lk : Nat} {l : Launch} {t : TraceLog} {w : Wave} {retired va : Nat} :
    (s.dropRedone lk l t w retired va).1.canon := by
  unfold Machine.State.dropRedone
  dsimp only
  split
  · exact h
  · exact h.onLog.writeHeader

theorem State.canon.recordLine {lk : Nat} {w : Wave} {retired opcode va mask : Nat} {line : List Byte} :
    (s.recordLine lk w retired opcode va mask line).canon := by
  unfold Machine.State.recordLine
  dsimp only
  split
  · exact h
  · split
    · exact h
    · refine State.canon.ite ?_ ?_
      · split
        · exact h.onLog.writeHeader
        · exact h
      · exact State.canon.ite h (State.canon.ite h.dropRedone (State.canon.ite h.dropRedone.logWrite.onLog.writeHeader
          h.dropRedone.onLog.onLaunch.writeHeader.logError.same))

theorem State.canon.noteRead {w : Wave} {line retired : Nat} : (s.noteRead w line retired).canon :=
  State.canon.ite h.onWave h

theorem State.canon.correctLocal {w : Wave} {p : LocalAt} {e : SoftErr} : (s.correctLocal w p e).canon :=
  h.same.corrected

theorem State.canon.markLocal {p : LocalAt} {e : SoftErr} : (s.markLocal p e).canon := by
  unfold Machine.State.markLocal
  split
  · exact h
  · exact h.same

theorem State.canon.scanLocal {w : Wave} {places : List LocalAt} : (s.scanLocal w places).1.canon := by
  refine h.foldlFst fun x p hx => ?_
  dsimp only
  split
  · exact hx
  · split
    · exact hx.markLocal
    · exact hx.correctLocal

theorem State.canon.consumeLocal {w : Wave} {pc : Nat} {mask : Mask} {p : LocalAt} : (s.consumeLocal w pc mask p).canon :=
  h.rung3

theorem State.canon.findLocal {w : Wave} {pc : Nat} {mask : Mask} {places : List LocalAt} {t : State}
    (he : s.findLocal w pc mask places = some t) : t.canon := by
  unfold Machine.State.findLocal at he
  split at he
  · next hs =>
    cases he
    exact (State.canon.fst h.scanLocal hs).consumeLocal
  · next hs =>
    split at he <;> cases he
    exact State.canon.fst h.scanLocal hs

theorem State.canon.readyLocal {w : Wave} {p : LocalAt} {whole : Bool} : (s.readyLocal w p whole).1.canon := by
  unfold Machine.State.readyLocal
  dsimp only
  split
  · exact h
  · split
    · exact State.canon.ite h.same.logIntegrity h.same
    · split
      · exact h.markLocal
      · exact h.correctLocal

theorem State.canon.storeLocal {w : Wave} {p : LocalAt} {b mask : Byte} {whole : Bool} : (s.storeLocal w p b mask whole).canon := by
  unfold Machine.State.storeLocal
  split
  · next he => exact (State.canon.fst h.readyLocal he).writeLocalBits
  · next he => exact State.canon.fst h.readyLocal he

theorem State.canon.storeAll {w : Wave} {writes : List (LocalAt × Byte × Byte)} : (s.storeAll w writes).canon :=
  h.foldl (fun _ _ ht1 => ht1.storeLocal)

theorem State.canon.atomicLocal {size : Nat} {pieces : List Piece} : (s.atomicLocal size pieces).1.canon := by
  refine h.foldlFst fun x y hx => ?_
  dsimp only
  split
  · dsimp only
    split
    · exact hx.writeLocalBytes
    · exact hx
  · exact hx

theorem State.canon.execPortAccess {wave : Nat} : (Machine.execPortAccess wave s).canon := by
  unfold Machine.execPortAccess
  dsimp only
  split
  · exact h
  · split
    · exact h
    · split
      · exact h
      · split
        · exact h.storeAll.onWave
        · split
          · next he => exact (State.canon.fst h.scanLocal he).onWave.consumeLocal
          · next he => exact (State.canon.fst h.scanLocal he).clearWritten.onWave
        · split
          · next he => exact (State.canon.fst h.scanLocal he).onWave.consumeLocal
          · next he => exact (State.canon.fst h.scanLocal he).clearScalar.onWave
        · split
          · exact h.onWave
          · split
            · next he => exact (State.canon.fst h.scanLocal he).onWave.consumeLocal
            · next he => exact (State.canon.fst h.scanLocal he).atomicLocal.onWave

theorem State.canon.writeCell {w : Wave} {x : Piece} {m : MainAt} {bytes : List Byte} : (s.writeCell w x m bytes).canon := by
  unfold Machine.State.writeCell
  split
  · exact h.readyLocal.writeLocalBytes
  · exact h.storeIn

theorem State.canon.performMain {w : Wave} {o : Op} {m : MainAt} {x : Piece} {prev : Option Nat} :
    (s.performMain w o m x prev).1.canon := by
  unfold Machine.State.performMain
  dsimp only
  split
  · exact h
  · exact State.canon.ite h.storeIn.healWord h.storeIn
  · split
    · exact h.storeIn
    · exact h
  · exact h.writeCell
  · exact h.writeCell
  · exact h
  · exact h

theorem State.canon.recordPart {w : Wave} {o : Op} {unit : Nat} {leaf : Leaf} {pieces : List Piece} :
    (s.recordPart w o unit leaf pieces).canon :=
  h.foldl (fun _ _ ht1 => ht1.recordLine.noteRead)

theorem State.canon.soundPiece {w : Wave} {m : MainAt} {x : Piece} : (s.soundPiece w m x).canon := by
  unfold Machine.State.soundPiece
  refine State.canon.ite h ?_
  split
  · exact h.scanLocal
  · exact h.readLine

theorem State.canon.partLost {w : Wave} {o : Op} {k : Nat} {m : MainAt} {x : Piece} : (s.partLost w o k m x).canon := by
  unfold Machine.State.partLost
  dsimp only
  refine State.canon.rung3 ?_
  split
  · exact State.canon.mapGetD h.onWave fun _ => h.onWave.markLocal
  · exact h.onWave.markLost

theorem State.canon.performPart {w : Wave} {o : Op} {k : Nat} {q : Part} {leaf : Leaf} {pick : Option Nat} :
    (s.performPart w o k q leaf pick).canon := by
  unfold Machine.State.performPart
  dsimp only
  split
  · exact h.partLost
  · refine State.canon.onWave (State.canon.foldlFst (State.canon.ite ?_ ?_) ?_)
    · refine State.canon.same (State.canon.ite ?_ ?_)
      · exact (h.foldl fun _ _ ht => ht.soundPiece).recordPart
      · exact h.foldl fun _ _ ht => ht.soundPiece
    · refine State.canon.ite ?_ ?_
      · exact (h.foldl fun _ _ ht => ht.soundPiece).recordPart
      · exact h.foldl fun _ _ ht => ht.soundPiece
    · exact fun x y hx => hx.performMain

theorem State.canon.localAct {w : Wave} {k : Nat} {act : LocalAct} : (s.localAct w k act).canon := by
  unfold Machine.State.localAct
  dsimp only
  split
  · exact h
  · refine State.canon.ite ?_ ?_
    · split
      · split
        · exact h.scanLocal.onWave.consumeLocal
        · exact h.scanLocal.onWave
      · exact h
    · split
      · exact h.storeLocal.onWave
      · exact h

theorem State.canon.performLocal {w : Wave} {o : Op} {pick : Option Nat} : (s.performLocal w o pick).canon := by
  unfold Machine.State.performLocal
  dsimp only
  split
  · exact State.canon.ite h (h.foldl (fun _ _ ht1 => ht1.localAct))
  · split
    · exact (h.foldl (fun _ _ ht1 => ht1.localAct)).foldl (fun _ _ ht1 => ht1.localAct)
    · exact h.foldl (fun _ _ ht1 => ht1.localAct)

theorem State.canon.setPart {wave op part : Nat} {st : PartStatus} {leaf : Option Leaf} : (s.setPart wave op part st leaf).canon :=
  h.onWave

theorem State.canon.execEnginePartPerform {wave op part : Nat} {pick : Option Nat} :
    Result.canon (execEnginePartPerform wave op part pick s) := by
  unfold Machine.execEnginePartPerform
  dsimp only
  split
  · exact h
  · split
    · exact h
    · refine Result.canon.ite h ?_
      refine Result.canon.ite h.performLocal ?_
      split
      · exact h
      · refine Result.canon.ite h ?_
        refine Result.canon.ite h ?_
        refine Result.canon.ite h ?_
        refine Result.canon.ite h ?_
        refine Result.canon.ite h.setPart ?_
        refine Result.canon.ite (Result.canon.ite h h.retryClocks.onWave) ?_
        split
        · exact h.deviceFailed
        · exact (State.canon.ite h.tookLog h).performPart

theorem State.canon.answer {w : Wave} {o : Op} {part : Nat} {q : Part} {r : WalkResult} : (s.answer w o part q r).canon := by
  unfold Machine.State.answer
  dsimp only
  split
  · split
    · exact h.onWave.setPart
    · exact h.onWave.setPart
  · exact h.setPart
  · exact h.reportPoison.setPart
  · exact h.raiseFault.setPart

theorem State.canon.answerPeer {w : Wave} {o : Op} {part : Nat} {q : Part} : (s.answerPeer w o part q).canon := by
  unfold Machine.State.answerPeer
  dsimp only
  split
  · exact h.draw.setPart
  · exact h.draw.retryClocks.setPart
  · exact (State.canon.ite h.draw.same h.draw).setPart

theorem State.canon.takeWalked {unit ctx va : Nat} : (s.takeWalked unit ctx va).1.canon :=
  h.onHome

theorem State.canon.cacheLeaf {unit ctx va : Nat} {l : Leaf} : (s.cacheLeaf unit ctx va l).canon :=
  h.onHome

theorem State.canon.freshWalk {ctx home va : Nat} : (s.freshWalk ctx home va).1.canon := by
  unfold Machine.State.freshWalk
  dsimp only
  split
  · exact h.cacheLeaf
  · exact h

theorem State.canon.execHomeRequest {wave op part : Nat} : (Machine.execHomeRequest wave op part s).canon := by
  unfold Machine.execHomeRequest
  dsimp only
  split
  · exact h
  · split
    · exact h
    · split
      · exact h
      · split
        · exact h.setPart
        · split
          · split
            · exact h.setPart
            · exact h.answerPeer
          · split
            · exact h.answer
            · split
              · next he => exact (State.canon.fst h.takeWalked he).freshWalk.answer
              · next he =>
                have ht := State.canon.fst h.takeWalked he
                split
                · exact ht.onHome.setPart
                · exact ht.onHome.retryClocks.setPart

theorem State.canon.execRetryAfterResend {wave op part : Nat} : Result.canon (execRetryAfterResend wave op part s) := by
  unfold Machine.execRetryAfterResend
  split
  · exact h
  · split
    · exact h
    · split
      · exact Result.canon.ite h h.setPart
      · exact h

theorem State.canon.walkFailed {home : Nat} {x : Walk} {r : WalkResult} : (s.walkFailed home x r).canon := by
  unfold Machine.State.walkFailed
  dsimp only
  split
  · exact h.onHome.raiseFault
  · exact h.onHome.reportPoison
  · exact h.onHome

theorem State.canon.execWalkComplete {home ctx va : Nat} : Result.canon (execWalkComplete home ctx va s) := by
  unfold Machine.execWalkComplete
  dsimp only
  split
  · exact h
  · refine Result.canon.ite h ?_
    split
    · exact h.onHome.freshWalk.foldl (fun _ _ ht1 => ht1.answer)
    · exact State.canon.ite ((h.onHome.freshWalk.foldl (fun _ _ ht1 => ht1.answer)).walkFailed) (h.onHome.freshWalk.foldl (fun _ _ ht1
        => ht1.answer))

theorem State.canon.execSideLog {wave op part : Nat} : Result.canon (execSideLog wave op part s) := by
  unfold Machine.execSideLog
  dsimp only
  split
  · exact h
  · split
    · exact h
    · split
      · exact Result.canon.ite h h.same.setPart
      · exact h

theorem State.canon.logLost {e : LogEntry} {addr array : Nat} : (s.logLost e addr array).canon :=
  h.rung3

theorem State.canon.storeLogged {e : LogEntry} {l : Leaf} : (s.storeLogged e l).canon := by
  unfold Machine.State.storeLogged
  dsimp only
  split
  · exact h.foldl (fun _ _ ht1 => State.canon.ite ht1.storeIn (ht1.foldl (fun _ _ ht2 => State.canon.ite ht2.storeIn.healWord ht2.storeIn)))
  · exact State.canon.ite h.markLost.logLost h.readLine.storeIn
  · exact h.storeIn

theorem State.canon.execSideLogReplay {core entry : Nat} : Result.canon (execSideLogReplay core entry s) := by
  unfold Machine.execSideLogReplay
  dsimp only
  split
  · exact h
  · split
    · exact h
    · refine Result.canon.ite h ?_
      refine Result.canon.ite ((State.canon.ite h.same h.same.corrected).logLost) ?_
      split
      · exact (State.canon.ite h.same h.same.corrected).respond
      · exact (State.canon.ite ((State.canon.ite h.same h.same.corrected).same) (State.canon.ite h.same h.same.corrected)).storeLogged

theorem State.canon.execCounterRetire {wave ctr : Nat} : Result.canon (execCounterRetire wave ctr s) := by
  unfold Machine.execCounterRetire
  split
  · exact h
  · split
    · exact h
    · exact Result.canon.ite h.onWave h

theorem State.canon.returnAtomic {wave op : Nat} : (s.returnAtomic wave op).canon := by
  unfold Machine.State.returnAtomic
  dsimp only
  split
  · exact h
  · split
    · exact h
    · refine State.canon.ite h ?_
      split
      · exact (State.canon.ite h h.clearScalar).onWave
      · exact h.clearWritten.onWave
      · exact h.onWave
      · exact h

theorem State.canon.execErrorResponse {wave op part : Nat} : Result.canon (execErrorResponse wave op part s) := by
  unfold Machine.execErrorResponse
  dsimp only
  split
  · exact h
  · split
    · exact h
    · split
      · exact h.setPart.respond.returnAtomic
      · exact h

theorem State.canon.atomicDone {w : Wave} {p : Split} {kind : OpKind} {mask : Mask} {pieces : List Piece} :
    Result.canon (s.atomicDone w p kind mask pieces) := by
  unfold Machine.State.atomicDone
  dsimp only
  exact Result.canon.ite h h.addOp.done

theorem State.canon.scalarAtomic {i : Instr} {d a b : Byte} {f : AtomicFn} : Result.canon (scalarAtomic i d a b f s) := by
  unfold Machine.scalarAtomic
  dsimp only
  refine h.issueWord fun _ _ _ hu => ?_
  refine Result.canon.ite hu.mismatch ?_
  split
  · exact hu.trapAt
  · exact Result.canon.ite hu.trapAt hu.atomicDone

theorem State.canon.laneAtomic {i : Instr} {d a b : Byte} {f : AtomicFn} : Result.canon (laneAtomic i d a b f s) := by
  unfold Machine.laneAtomic
  dsimp only
  refine h.issueWord fun _ _ _ hu => ?_
  refine Result.canon.ite hu.mismatch ?_
  split
  · exact hu.trapAt
  · exact Result.canon.ite hu.done hu.atomicDone

end

end Sys2Proof.Machine
end

section
/-! The canonical form of main memory (log 5): waves and crews, crucible, copies, matrix unit and control words. -/

namespace Sys2Proof.Machine

section
variable {s : State} (h : s.canon)
include h

theorem State.canon.dropNative : (s.dropNative).canon :=
  h.same

theorem State.canon.advanceDealer {lk n : Nat} : (s.advanceDealer lk n).canon :=
  h.onLaunch

theorem State.canon.clearLanes {w : Wave} {on : Mask} : (s.clearLanes w on).canon :=
  h.clearErrors

theorem State.canon.dealStart {w : Wave} {l : Launch} {items : List Nat} : (s.dealStart w l items).canon :=
  h.advanceDealer.putWave.clearLanes

theorem State.canon.tryBarrier {crew id : Nat} : (s.tryBarrier crew id).canon := by
  unfold Machine.State.tryBarrier
  dsimp only
  split
  · exact h
  · exact State.canon.ite h h.same.onCrew

theorem State.canon.tryBarriers {crew : Nat} : (s.tryBarriers crew).canon :=
  h.foldl (fun _ _ ht1 => ht1.tryBarrier)

theorem State.canon.holdCluster {k : Nat} : (s.holdCluster k).canon :=
  h.same

theorem State.canon.retireWave {w : Wave} : (s.retireWave w).canon := by
  unfold Machine.State.retireWave
  dsimp only
  split
  · exact h.contextFault
  · exact State.canon.ite h.onWave.onCrew.tryBarriers h.onWave.onCrew.tryBarriers.onCrew.onLaunch.holdCluster

theorem State.canon.tryDrain {w : Wave} : (s.tryDrain w).canon := by
  unfold Machine.State.tryDrain
  dsimp only
  split
  · exact State.canon.ite h h.clearLanes.putWave
  · exact h

theorem State.canon.wholeVacant {w : Wave} : (s.wholeVacant w).canon := by
  unfold Machine.State.wholeVacant
  dsimp only
  split
  · exact h.putWave
  · refine State.canon.ite h.putWave ?_
    split
    · exact State.canon.ite h.putWave h.putWave.tryDrain
    · exact h.putWave

theorem State.canon.passToken {lk : Nat} : (s.passToken lk).canon := by
  unfold Machine.State.passToken
  dsimp only
  split
  · exact h
  · split
    · exact h.onLaunch
    · exact h.onLaunch.onWave

theorem State.canon.endVisit {wave lk endCount : Nat} : (s.endVisit wave lk endCount).canon :=
  h.onWave.passToken

theorem State.canon.visitWord {wave : Nat} : (s.visitWord wave).canon := by
  unfold Machine.State.visitWord
  split
  · exact h
  · exact State.canon.ite h.endVisit h

theorem State.canon.execTokenPass {l : Nat} : Result.canon (execTokenPass l s) := by
  unfold Machine.execTokenPass
  split
  · exact h
  · refine Result.canon.ite h ?_
    split
    · exact h.onWave
    · refine Result.canon.ite h.passToken ?_
      split
      · exact h.passToken
      · split
        · exact State.canon.ite h.passToken h.endVisit
        · exact h

theorem State.canon.execCxadd {d a b : Byte} : Result.canon (execCxadd d a b s) := by
  unfold Machine.execCxadd
  dsimp only
  refine h.issueWord fun _ _ _ hu => ?_
  refine Result.canon.ite hu.mismatch ?_
  split
  · exact hu.trapAt
  · exact Result.canon.ite hu.done (Result.canon.ite hu hu.addOp.done)

theorem State.canon.execCxclr {a b : Byte} : Result.canon (execCxclr a b s) := by
  unfold Machine.execCxclr
  dsimp only
  refine h.issueWord fun _ _ _ hu => ?_
  refine Result.canon.ite hu.mismatch ?_
  split
  · exact hu.trapAt
  · exact Result.canon.ite hu.done (Result.canon.ite hu hu.addOp.done)

theorem State.canon.issueCxget {d a b : Byte} : Result.canon (issueCxget d a b s) := by
  unfold Machine.issueCxget
  dsimp only
  refine h.issueWord fun _ _ _ hu => ?_
  split
  · exact hu.trapAt
  · exact Result.canon.ite hu (Result.canon.ite hu.done hu.addOp.putWave)

theorem State.canon.finishCxget {w : Wave} {p : Split} {o : Op} {d : Nat} {job : MatJob} : Result.canon (s.finishCxget w p o d job) := by
  unfold Machine.State.finishCxget
  dsimp only
  split
  · exact h.trapAt
  · exact h.clearWritten.done

theorem State.canon.landGet {w : Wave} {o : Op} {d : Nat} {job : MatJob} {x : (Nat → Word32) × BitVec 7} : (s.landGet w o d job x).canon :=
  h.clearWritten.putWave

theorem State.canon.execCxget {d a b : Byte} : Result.canon (execCxget d a b s) := by
  unfold Machine.execCxget
  split
  · exact trivial
  · split
    · exact trivial
    · split
      · split
        · split
          · exact Result.canon.ite h.finishCxget h
          · exact h
        · exact h.putWave.issueCxget
      · exact h.issueCxget

theorem State.canon.copyWord {i : Instr} {a : Byte} {f : CopyFn} : (Machine.copyWord i a f s).canon := by
  unfold Machine.copyWord
  dsimp only
  refine h.issueWord fun _ _ _ hu => ?_
  split
  · exact hu.trapAt
  · split
    · exact hu.mismatch
    · split
      · exact hu.trapAt
      · split
        · exact hu
        · split
          · next he => exact hu.findLocal he
          · split
            · exact hu.trapAt
            · split
              · exact hu.trapAt
              · split
                · exact hu.trapAt
                · split
                  · exact hu
                  · split
                    · next he => exact hu.findLocal he
                    · exact hu.addOp.done

theorem State.canon.execFence {scope order : BitVec 4} : Result.canon (execFence scope order s) := by
  unfold Machine.execFence
  refine h.issueWord fun _ _ _ hu => ?_
  refine Result.canon.ite (State.canon.ite hu hu.putWave) ?_
  split
  · exact hu.deliver
  · exact hu.done

theorem State.canon.enqueueMat {w : Wave} {p : Split} {kind : OpKind} {mask : Mask} {pieces : List Piece} {job : MatJob} :
    Result.canon (s.enqueueMat w p kind mask pieces job) := by
  unfold Machine.State.enqueueMat
  dsimp only
  exact Result.canon.ite h h.addOp.done

theorem State.canon.multiply {i : Instr} {d a b : Byte} {zero : Bool} : (Machine.multiply i d a b zero s).canon := by
  unfold Machine.multiply
  dsimp only
  refine h.issueWord fun _ _ _ hu => ?_
  split
  · exact hu.trapAt
  · exact hu.trapAt
  · exact hu.trapAt
  · exact hu.trapAt
  · split
    · exact hu
    · split
      · next he => exact hu.findLocal he
      · split
        · exact hu.trapAt
        · split
          · exact hu.trapAt
          · split
            · exact hu
            · exact hu.enqueueMat

theorem State.canon.execMdrv {d a : Byte} : Result.canon (execMdrv d a s) := by
  unfold Machine.execMdrv
  dsimp only
  exact h.issueWord (fun _ _ _ hu => Result.canon.ite hu hu.addOp.done)

theorem State.canon.withDescriptor {i : Instr} {b : Byte} {body : State → Wave → Split → Mask → List Byte → Result}
    (hb : ∀ t w p on bytes, State.canon t → (body t w p on bytes).canon) : (Machine.withDescriptor i b s body).canon := by
  unfold Machine.withDescriptor
  dsimp only
  refine h.issueWord fun _ _ _ hu => ?_
  split
  · exact hu.trapAt
  · split
    · exact hu
    · split
      · next he => exact hu.findLocal he
      · exact hb _ _ _ _ _ hu

theorem State.canon.execMdrl {a b : Byte} : Result.canon (execMdrl a b s) := by
  unfold Machine.execMdrl
  dsimp only
  refine h.withDescriptor fun _ _ _ _ _ hu => ?_
  refine Result.canon.ite hu.trapAt ?_
  split
  · exact hu.trapAt
  · exact hu.enqueueMat

theorem State.canon.execMdrx {a b : Byte} : Result.canon (execMdrx a b s) := by
  unfold Machine.execMdrx
  dsimp only
  refine h.withDescriptor fun _ _ _ _ _ hu => ?_
  refine Result.canon.ite hu.trapAt ?_
  split
  · exact hu.trapAt
  · split
    · exact hu.trapAt
    · exact hu.enqueueMat

theorem State.canon.clearTile {w : Wave} {o : Op} {job : MatJob} : (s.clearTile w o job).canon :=
  h.clearErrors

theorem State.canon.clearDrained {w : Wave} {o : Op} : (s.clearDrained w o).canon := by
  unfold Machine.State.clearDrained
  split
  · exact h.foldl (fun _ _ ht1 => ht1.clearWritten)
  · exact h

theorem State.canon.turn {w : Wave} {o : Op} {job : MatJob} : (s.turn w o job).canon :=
  State.canon.ite h.demandRollback (((State.canon.ite h.clearTile h).clearDrained).putWave)

theorem State.canon.execMatrixTurn {wave : Nat} : Result.canon (execMatrixTurn wave s) := by
  unfold Machine.execMatrixTurn
  dsimp only
  split
  · exact h
  · split
    · exact h
    · split
      · exact h
      · refine Result.canon.ite h ?_
        refine Result.canon.ite h.performLocal ?_
        split
        · exact Result.canon.ite h.same.corrected h.demandRollback
        · exact h.turn

theorem State.canon.jump {w : Wave} {p : Split} {pc : Nat} : Result.canon (s.jump w p pc) :=
  h.putWave

theorem State.canon.branchOn {i : Instr} {pr : BitVec 4} {o : BitVec 20} {want : Bool} : Result.canon (branchOn i pr o want s) :=
  h.issueWord (fun _ _ _ hu => Result.canon.ite hu.mismatch (Result.canon.ite hu.jump (Result.canon.ite hu.jump hu.putWave)))

theorem State.canon.execJoin : Result.canon (execJoin s) := by
  unfold Machine.execJoin
  dsimp only
  refine h.issueWord fun _ _ _ hu => ?_
  split
  · exact hu.done
  · exact hu.putWave

theorem State.canon.execBrx {a b : Byte} : Result.canon (execBrx a b s) := by
  unfold Machine.execBrx
  dsimp only
  refine h.issueWord fun _ _ _ hu => ?_
  refine Result.canon.ite hu.mismatch ?_
  split
  · exact hu.trapAt
  · exact hu.putWave

theorem State.canon.execRet : Result.canon (execRet s) := by
  unfold Machine.execRet
  dsimp only
  refine h.issueWord fun _ _ _ hu => ?_
  split
  · exact hu.trapAt
  · exact Result.canon.ite hu.trapAt hu.putWave

theorem State.canon.countExits {w : Wave} {lanes : List Nat} {st : Nat → Word32} : (s.countExits w lanes st).canon :=
  h.onLaunch

theorem State.canon.execExit {a : Byte} : Result.canon (execExit a s) := by
  unfold Machine.execExit
  dsimp only
  refine h.issueWord fun _ _ _ hu => ?_
  refine Result.canon.ite hu.mismatch ?_
  refine Result.canon.ite hu.putWave.visitWord ?_
  refine State.canon.visitWord ?_
  split
  · exact State.canon.ite ((State.canon.ite hu.countExits.putWave.wholeVacant hu.countExits.putWave).retireWave) (State.canon.ite
      hu.countExits.putWave.wholeVacant hu.countExits.putWave)
  · exact State.canon.ite hu.countExits.putWave.wholeVacant hu.countExits.putWave

theorem State.canon.execRefill {d : Byte} : Result.canon (execRefill d s) := by
  unfold Machine.execRefill
  dsimp only
  refine h.issueWord fun _ _ _ hu => ?_
  refine Result.canon.ite hu.trapAt ?_
  refine Result.canon.ite hu ?_
  split
  · exact hu
  · exact Result.canon.ite hu hu.advanceDealer.putWave.clearLanes

end

end Sys2Proof.Machine
end

section
/-! The canonical form of main memory (log 5): queues, launches and the events of waves. -/

namespace Sys2Proof.Machine

section
variable {s : State} (h : s.canon)
include h

theorem State.canon.accept {q va : Nat} {d : Desc} {o : Object} {depth : Nat} {parent : Option Nat} {succs : List Nat} :
    (s.accept q va d o depth parent succs).canon :=
  h.newKey.onQueue.same.tookLog.writeHeader

theorem State.canon.refuseDescriptor {q va : Nat} : (s.refuseDescriptor q va).canon :=
  h.onQueue.logError

theorem State.canon.chainFailed {q va : Nat} {e : DeviceErr} : (s.chainFailed q va e).canon :=
  State.canon.ite h.deviceFailed h.deviceFailed.refuseDescriptor

theorem State.canon.execDescriptorAccept {q : Nat} : Result.canon (execDescriptorAccept q s) := by
  unfold Machine.execDescriptorAccept
  dsimp only
  refine Result.canon.ite h ?_
  split
  · exact h
  · refine Result.canon.ite h ?_
    split
    · exact h.chainFailed
    · exact h.deviceTook.onQueue
  · split
    · exact h.chainFailed
    · refine Result.canon.ite h.refuseDescriptor ?_
      split
      · exact h.chainFailed
      · exact h.refuseDescriptor
      · split
        · exact h.deviceFailed
        · exact h.deviceTook.deviceTook.accept.onQueue

theorem State.canon.freeBytes {n : Nat} : (s.freeBytes n).2.canon :=
  h.same

theorem State.canon.execLaunchStart {l : Nat} : Result.canon (execLaunchStart l s) := by
  unfold Machine.execLaunchStart
  dsimp only
  split
  · exact h
  · refine Result.canon.ite h ?_
    refine Result.canon.ite h.onLaunch ?_
    split
    · exact State.canon.ite h.deviceTook.onLaunch.onLaunch.logError h.deviceTook.onLaunch
    · exact Result.canon.ite h.deviceFailed (State.canon.ite h.deviceFailed.freeBytes.onLaunch.onLaunch.logError
        h.deviceFailed.freeBytes.onLaunch)

theorem State.canon.noteServed {q : Nat} : (s.noteServed q).canon :=
  h.onQueue

theorem State.canon.creationDeal {k : Nat} : (s.creationDeal k).canon := by
  unfold Machine.State.creationDeal
  dsimp only
  split
  · exact h
  · split
    · exact h
    · exact State.canon.ite h.dealStart (State.canon.ite h h.wholeVacant)

theorem State.canon.execCrewPlace {l : Nat} : Result.canon (execCrewPlace l s) := by
  unfold Machine.execCrewPlace
  dsimp only
  split
  · exact h
  · refine Result.canon.ite h ?_
    split
    · exact h
    · exact h.newKey.same.onLaunch.noteServed.foldl (fun _ _ ht1 => ht1.creationDeal)

theorem State.canon.readBack {w : Wave} : (s.readBack w).canon := by
  unfold Machine.State.readBack
  split
  · next he => exact State.canon.fst h.readCullet he
  · next he => exact (State.canon.fst h.readCullet he).escalate

theorem State.canon.execCrewReplace {crew : Nat} : Result.canon (execCrewReplace crew s) := by
  unfold Machine.execCrewReplace
  dsimp only
  split
  · exact h
  · split
    · exact h
    · refine Result.canon.ite h ?_
      split
      · exact h
      · exact (h.same.onCrew.onLaunch.foldl (fun _ _ ht1 => ht1.readBack)).noteServed

theorem State.canon.stopCrews {which : Crew → Bool} : (s.stopCrews which).canon :=
  h.same

theorem State.canon.execCrewPreempt {crew : Nat} : Result.canon (execCrewPreempt crew s) := by
  unfold Machine.execCrewPreempt
  dsimp only
  split
  · exact h
  · exact Result.canon.ite h (((h.same.foldl (fun _ _ ht1 => ht1.clearWaveErrors)).onCrew).holdCluster)

theorem State.canon.decrement {q : Nat} {killed : Bool} {id : Nat} : (s.decrement q killed id).canon := by
  unfold Machine.State.decrement
  split
  · exact h.onLaunch
  · exact h.onQueue

theorem State.canon.endLog {lk : Nat} : (s.endLog lk).canon :=
  h.onLog.writeHeader

theorem State.canon.dropCrews {lk : Nat} : (s.dropCrews lk).canon :=
  h.same

theorem State.canon.execLaunchComplete {l : Nat} : Result.canon (execLaunchComplete l s) := by
  unfold Machine.execLaunchComplete
  dsimp only
  split
  · exact h
  · refine Result.canon.ite h ?_
    split
    · exact h.deviceFailed
    · split
      · exact State.canon.ite (State.canon.ite ((h.endLog.commitShadows.deviceStore.dropCrews.onLaunch.dropNative.foldl (fun _ _ ht1 =>
          ht1.decrement)).same) (h.endLog.commitShadows.deviceStore.dropCrews.onLaunch.dropNative.foldl (fun _ _ ht1 => ht1.decrement)))
          ((State.canon.ite ((h.endLog.commitShadows.deviceStore.dropCrews.onLaunch.dropNative.foldl (fun _ _ ht1 => ht1.decrement)).same)
          (h.endLog.commitShadows.deviceStore.dropCrews.onLaunch.dropNative.foldl (fun _ _ ht1 => ht1.decrement))).deviceStore)
      · exact State.canon.ite ((h.endLog.commitShadows.deviceStore.dropCrews.onLaunch.dropNative.foldl (fun _ _ ht1 =>
          ht1.decrement)).same) (h.endLog.commitShadows.deviceStore.dropCrews.onLaunch.dropNative.foldl (fun _ _ ht1 => ht1.decrement))

theorem State.canon.execBitmapBitSet {l p : Nat} : Result.canon (execBitmapBitSet l p s) := by
  unfold Machine.execBitmapBitSet
  split
  · exact h
  · exact Result.canon.ite h h.onLaunch

theorem State.canon.execLaunchReplay {l : Nat} : Result.canon (execLaunchReplay l s) := by
  unfold Machine.execLaunchReplay
  dsimp only
  split
  · exact h
  · refine Result.canon.ite h ?_
    refine Result.canon.ite h.contextFault ?_
    refine Result.canon.ite (Result.canon.ite h.charge.logIntegrity.contextFault h.charge.onLaunch.stopCrews.logIntegrity) ?_
    refine Result.canon.ite h ?_
    split
    · exact h.deviceFailed
    · exact h.dropCrews.same.onLaunch.writeHeader

theorem State.canon.execAssayDelayed {cluster : Nat} : Result.canon (execAssayDelayed cluster s) := by
  unfold Machine.execAssayDelayed
  dsimp only
  refine Result.canon.ite h ?_
  refine h.foldl (fun _ _ ht1 => ?_)
  split
  · exact ht1.logIntegrity
  · exact ht1

theorem State.canon.execDiverge {wave : Nat} : Result.canon (execDiverge wave s) := by
  unfold Machine.execDiverge
  dsimp only
  split
  · exact h
  · split
    · exact h
    · split
      · exact h
      · exact h.deviceFailed
      · exact h.onLog.writeHeader.takeTrap

theorem State.canon.execRgn {i : BitVec 24} : Result.canon (execRgn i s) := by
  unfold Machine.execRgn
  dsimp only
  refine h.issueWord fun _ _ _ hu => ?_
  refine Result.canon.ite hu ?_
  split
  · exact hu.deliver
  · exact Result.canon.ite hu.done hu.putWave

theorem State.canon.execBar {d a : Byte} : Result.canon (execBar d a s) :=
  h.issueWord (fun _ _ _ hu => Result.canon.ite hu.trapAt (Result.canon.ite hu hu.putWave.onCrew.tryBarrier.visitWord))

theorem State.canon.refuseChild {w : Wave} {p : Split} {at_ : Nat} : Result.canon (s.refuseChild w p at_) :=
  h.logError.trapAt

theorem State.canon.appendChild {w : Wave} {p : Split} {at_ : Nat} {desc : List Byte} {succs : List Nat} :
    Result.canon (s.appendChild w p at_ desc succs) := by
  unfold Machine.State.appendChild
  dsimp only
  split
  · exact h
  · split
    · exact h.refuseChild
    · refine Result.canon.ite h.putWave ?_
      split
      · exact h.putWave.deviceFailed
      · exact h.accept.done

theorem State.canon.resumeChild {w : Wave} {p : Split} {at_ : Nat} {desc : List Byte} {succs : List Nat} :
    Result.canon (s.resumeChild w p at_ desc succs) :=
  Result.canon.ite h.refuseChild h.appendChild

theorem State.canon.issueLaunch {a : Byte} : (Machine.issueLaunch a s).canon := by
  unfold Machine.issueLaunch
  dsimp only
  refine h.issueWord fun _ _ _ hu => ?_
  split
  · exact hu.mismatch
  · split
    · exact hu.trapAt
    · split
      · exact hu
      · split
        · next he => exact hu.findLocal he
        · split
          · exact hu
          · split
            · exact hu.trapAt
            · split
              · exact hu.refuseChild
              · split
                · exact hu.trapAt
                · split
                  · next he => exact hu.findLocal he
                  · exact hu.demote.appendChild

theorem State.canon.execLaunch {a : Byte} : Result.canon (execLaunch a s) := by
  unfold Machine.execLaunch
  split
  · exact trivial
  · split
    · exact trivial
    · split
      · exact Result.canon.ite h.resumeChild h
      · exact h.issueLaunch

theorem State.canon.execTrap {i : BitVec 24} : Result.canon (execTrap i s) :=
  h.issueWord (fun _ _ _ hu => Result.canon.ite hu.done (Result.canon.ite hu.trapAt (Result.canon.ite hu.putWave.killLaunches
      hu.putWave.contextFault)))

theorem State.canon.execTret : Result.canon (execTret s) := by
  unfold Machine.execTret
  dsimp only
  refine h.issueWord fun _ _ _ hu => ?_
  split
  · exact hu.done
  · exact State.canon.ite hu.putWave.chargeWave hu.putWave

theorem State.canon.execSleep {i : BitVec 24} : Result.canon (execSleep i s) :=
  h.issueWord (fun _ _ _ hu => Result.canon.ite hu.putWave.visitWord (Result.canon.ite hu.putWave.visitWord hu.putWave))

theorem State.canon.execWaveDeal {wave : Nat} : Result.canon (execWaveDeal wave s) := by
  unfold Machine.execWaveDeal
  dsimp only
  split
  · exact h
  · split
    · exact h
    · split
      · exact Result.canon.ite h (Result.canon.ite h.dealStart (Result.canon.ite h h.wholeVacant))
      · exact Result.canon.ite h (Result.canon.ite h.wholeVacant (Result.canon.ite h h.dealStart))
      · exact h.tryDrain
      · exact h

theorem State.canon.execWaveRetire {wave : Nat} : Result.canon (execWaveRetire wave s) := by
  unfold Machine.execWaveRetire
  dsimp only
  split
  · exact h
  · exact Result.canon.ite h h.retireWave

theorem State.canon.execPrelimit {wave : Nat} : Result.canon (execPrelimit wave s) := by
  unfold Machine.execPrelimit
  dsimp only
  split
  · exact h
  · split
    · exact h
    · exact Result.canon.ite h h.onWave.takeWaveTrap

theorem State.canon.execSleepEnd {wave lane : Nat} : Result.canon (execSleepEnd wave lane s) := by
  unfold Machine.execSleepEnd
  dsimp only
  split
  · exact h
  · exact Result.canon.ite h h.putWave

theorem State.canon.execSystemModeTimeout {wave : Nat} : Result.canon (execSystemModeTimeout wave s) := by
  unfold Machine.execSystemModeTimeout
  split
  · exact h
  · split
    · exact h
    · exact Result.canon.ite h h.contextFault

theorem State.canon.execRegisterWriteback {wave lane : Nat} : Result.canon (execRegisterWriteback wave lane s) := by
  unfold Machine.execRegisterWriteback
  dsimp only
  split
  · exact h
  · split
    · split
      · exact h.landGet
      · exact h
    · exact h.putWave

end

end Sys2Proof.Machine
end

section
/-! The canonical form of main memory (log 5): homes, peers and the loading of objects. -/

namespace Sys2Proof.Machine

section
variable {s : State} (h : s.canon)
include h

theorem State.canon.outsideLeaf {home ctx va op source : Nat} : (s.outsideLeaf home ctx va op source).1.canon := by
  unfold Machine.State.outsideLeaf
  dsimp only
  split
  · exact h
  · split
    · next he => exact (State.canon.fst h.takeWalked he).onHome
    · next he =>
      have ht := State.canon.fst h.takeWalked he
      split
      · next hw => exact State.canon.fst ht.freshWalk hw
      · next hw => exact State.canon.fst ht.freshWalk hw
      · next hw => exact (State.canon.fst ht.freshWalk hw).reportPoison
      · next hw => exact (State.canon.fst ht.freshWalk hw).raiseFault

theorem State.canon.rewriteEntries {unit : Nat} {pas : List Nat} {frame : Option Nat} {migrating : Bool} :
    (s.rewriteEntries unit pas frame migrating).canon :=
  h.foldl (fun _ _ ht1 => ht1.writeEntry.hostWritten)

theorem State.canon.grantLease {home chip ctx va clocks : Nat} : (s.grantLease home chip ctx va clocks).canon := by
  unfold Machine.State.grantLease
  split
  · exact h
  · split
    · exact h.logError
    · split
      · next he => exact State.canon.fst h.outsideLeaf he
      · next he => exact (State.canon.fst h.outsideLeaf he).logError
      · next he =>
        have ht := State.canon.fst h.outsideLeaf he
        exact State.canon.ite ht ht.onHome

theorem State.canon.recallLeases {home : Nat} {hit : Lease → Bool} : (s.recallLeases home hit).canon :=
  h.onHome

theorem State.canon.copyLine {k : Nat} {g : Migration} : (s.copyLine k g).canon :=
  ((State.canon.ite h.correctLine.clearLine.writePhysBytes.healEntries.hostWritten.same
      h.correctLine.clearLine.writePhysBytes.healEntries.hostWritten).same).onHome

theorem State.canon.finishCommand : (s.finishCommand).canon :=
  h.same

theorem State.canon.moveParts {home : Nat} {g : Migration} : (s.moveParts home g).canon :=
  h.same

theorem State.canon.execMigrateCommit {home ctx va : Nat} : Result.canon (execMigrateCommit home ctx va s) := by
  unfold Machine.execMigrateCommit
  dsimp only
  split
  · exact h
  · refine Result.canon.ite h ?_
    split
    · exact h.rewriteEntries.onHome.moveParts.finishCommand
    · exact h.rewriteEntries.onHome.moveParts

theorem State.canon.execBandReopen {home : Nat} : (Machine.execBandReopen home s).canon := by
  unfold Machine.execBandReopen
  dsimp only
  split
  · split
    · exact h
    · obtain ⟨hhbm, hhost, hpeer⟩ := h
      refine State.canon.finishCommand (State.canon.onHome ?_)
      exact ⟨Memory.wf_erase _ _ hhbm, hhost, hpeer⟩
  · exact h

theorem State.canon.outsideCheck {home ctx va source : Nat} {need : Need} {op : Nat} :
    (s.outsideCheck home ctx va source need op).1.canon := by
  unfold Machine.State.outsideCheck
  split
  · next he => exact State.canon.fst h.outsideLeaf he
  · next he => exact (State.canon.fst h.outsideLeaf he).logError
  · next he =>
    have ht := State.canon.fst h.outsideLeaf he
    split
    · exact ht.logError
    · exact ht

theorem State.canon.servePeer {home ctx va chip : Nat} {op : PeerOp} {l : Leaf} : (s.servePeer home ctx va chip op l).canon := by
  unfold Machine.State.servePeer
  dsimp only
  split
  · exact State.canon.ite ((h.foldl (fun _ _ ht1 => ht1.scanLine)).logError) (h.foldl (fun _ _ ht1 => ht1.scanLine))
  · exact State.canon.ite h h.storePage
  · split
    · exact h
    · refine State.canon.ite h ?_
      refine State.canon.ite h ?_
      refine State.canon.ite ((h.foldl (fun _ _ ht1 => ht1.scanLine)).logError) ?_
      split
      · exact (h.foldl (fun _ _ ht1 => ht1.scanLine)).storeIn
      · exact h.foldl (fun _ _ ht1 => ht1.scanLine)
  · exact State.canon.ite h (State.canon.ite h (State.canon.ite ((h.foldl (fun _ _ ht1 => ht1.scanLine)).logError) ((h.foldl (fun _
      _ ht1 => ht1.scanLine)).storeIn)))
  · exact State.canon.ite h (State.canon.ite h h.storeIn)
  · exact State.canon.ite h (State.canon.ite ((h.foldl (fun _ _ ht1 => ht1.scanLine)).logError) (h.foldl (fun _ _ ht1 => ht1.scanLine)))
  · exact h

theorem State.canon.peerPage {chip ctx va : Nat} {lease : Option Nat} {op : PeerOp} : (s.peerPage chip ctx va lease op).canon := by
  unfold Machine.State.peerPage
  dsimp only
  split
  · exact h.logError
  · split
    · split
      · exact h
      · split
        · exact h
        · split
          · exact h.logError
          · exact State.canon.ite h h.servePeer
    · split
      · exact h.grantLease
      · split
        · next he => exact State.canon.fst h.outsideCheck he
        · next he => exact (State.canon.fst h.outsideCheck he).servePeer

theorem State.canon.dropLink {link : Nat} : (s.dropLink link).canon :=
  h.same.foldl (fun _ _ ht1 => ht1.foldl (fun _ _ ht2 => State.canon.ite ht2.draw ht2.draw.setPart))

theorem State.canon.emptyFrame {die pa : Nat} : (s.emptyFrame die pa).canon := by
  obtain ⟨-, hhost, hpeer⟩ := h.healEntries (m := ⟨die, pa⟩) (n := 65536)
  obtain ⟨hhbm, -, -⟩ := h
  exact ⟨Memory.wf_erase _ _ hhbm, hhost, hpeer⟩

theorem State.canon.takeFrames {ctx die va : Nat} {frames : List Nat} : (s.takeFrames ctx die va frames).canon :=
  (h.foldl (fun _ _ ht1 => ht1.emptyFrame)).onContext

theorem State.canon.newTable {ctx die pa : Nat} {t : State} (he : s.newTable ctx die = some (t, pa)) : t.canon := by
  unfold Machine.State.newTable at he
  split at he <;> cases he
  exact h.takeFrames

theorem State.canon.needRoot {ctx die r : Nat} {t : State} (he : s.needRoot ctx die = some (t, r)) : t.canon := by
  unfold Machine.State.needRoot at he
  split at he
  · cases he
    exact h
  · obtain ⟨x, hx, he⟩ := Option.map_eq_some_iff.mp he
    cases he
    exact (h.newTable hx).onContext

theorem State.canon.needTable {ctx die va fuel level table pa : Nat} {t : State}
    (he : s.needTable ctx die va fuel level table = some (t, pa)) : t.canon := by
  induction fuel generalizing s level table with
  | zero => nomatch he
  | succ fuel ih =>
    unfold Machine.State.needTable at he
    split at he
    · cases he
      exact h
    · dsimp only at he
      split at he
      · split at he
        · next hn => exact ih (h.newTable hn).writeEntry he
        · nomatch he
      · exact ih h he
      · nomatch he

theorem State.canon.mapPage {ctx die va : Nat} {l : Leaf} {t : State} (he : s.mapPage ctx die va l = some t) : t.canon := by
  unfold Machine.State.mapPage at he
  split at he
  · nomatch he
  · next hr =>
    obtain ⟨x, hx, rfl⟩ := Option.map_eq_some_iff.mp he
    exact ((h.needRoot hr).needTable hx).writeEntry

theorem State.canon.mapPages {ctx die va : Nat} {ls : List Leaf} {t : State} (he : s.mapPages ctx die va ls = some t) : t.canon := by
  induction ls generalizing s va with
  | nil =>
    cases he
    exact h
  | cons l ls ih =>
    unfold Machine.State.mapPages at he
    split at he
    · next hm => exact ih (h.mapPage hm) he
    · nomatch he

theorem State.canon.placeSection {ctx : Nat} {x : Section} {p : Placement} {t : State} {q : Placed}
    (he : s.placeSection ctx x p = some (t, q)) : t.canon := by
  unfold Machine.State.placeSection at he
  dsimp only at he
  split at he
  · obtain ⟨u, hu, he⟩ := Option.map_eq_some_iff.mp he
    cases he
    exact h.takeFrames.mapPages hu
  · nomatch he

theorem State.canon.placeAll {ctx : Nat} {place : List Placement} {xs : List Section} {k : Nat} {done placed : List Placed} {t : State}
    (he : s.placeAll ctx place xs k done = .ok (t, placed)) : t.canon := by
  induction xs generalizing s k done with
  | nil =>
    cases he
    exact h
  | cons x xs ih =>
    unfold Machine.State.placeAll at he
    split at he
    · next hp => exact ih (h.placeSection hp) he
    · nomatch he

theorem State.canon.storeSection {ctx : Nat} {p : Placed} {bs : List Byte} : (s.storeSection ctx p bs).canon :=
  h.foldl (fun _ _ ht1 => ht1.storePage)

theorem State.canon.install {bs : List Byte} {place : List Placed} {ctx handle : Nat} {classes : List ClassRec} :
    (s.install bs place ctx handle classes).2.canon := by
  unfold Machine.State.install
  dsimp only
  refine State.canon.dropNative ?_
  refine State.canon.same ?_
  refine State.canon.foldl ?_ (fun _ _ ht1 => ht1.storeSection)
  split
  · exact h
  · exact h.same

theorem State.canon.loadObject {bs : List Byte} {place : List Placement} {ctx handle : Nat} :
    (s.loadObject bs place ctx handle).2.canon := by
  unfold Machine.State.loadObject
  dsimp only
  split
  · exact h
  · split
    · exact h
    · split
      · exact h
      · next he => exact (h.placeAll he).install

end

end Sys2Proof.Machine
end

section
/-! The canonical form of main memory (log 5): the commands. -/

namespace Sys2Proof.Machine

section
variable {s : State} (h : s.canon)
include h

theorem State.canon.commandDone : (s.commandDone).canon :=
  h.same

theorem State.canon.commandRefused {detail : Nat} : (s.commandRefused detail).canon :=
  h.same

theorem State.canon.commandRuns {r : Running} : (s.commandRuns r).canon :=
  h.same

theorem State.canon.command {early : Bool} {f : State → State} (hf : ∀ t, State.canon t → (f t).canon) : (s.command early f).canon := by
  unfold Machine.State.command
  split
  · exact h
  · split
    · exact h.commandRefused
    · exact hf s h

theorem State.canon.commandIf {ok : Bool} {f : State → State} (hf : ∀ t, State.canon t → (f t).canon) : (s.commandIf ok f).canon :=
  h.command fun t ht => State.canon.ite (hf t ht).commandDone ht.commandRefused

theorem State.canon.toHost {addr : Nat} {bs : List Byte} : (s.toHost addr bs).canon := by
  obtain ⟨hhbm, hhost, hpeer⟩ := h
  exact ⟨hhbm, Memory.wf_writeBytes _ _ hhost, hpeer⟩

theorem State.canon.execQstart {q : Nat} : Result.canon (execQstart q s) :=
  h.commandIf (fun _ hv => hv.onQueue)

theorem State.canon.stopQueue {q : Nat} : (s.stopQueue q).canon :=
  h.onQueue

theorem State.canon.execQstop {q : Nat} : Result.canon (execQstop q s) :=
  h.commandIf (fun _ hv => hv.stopQueue)

theorem State.canon.execQevict {q : Nat} : Result.canon (execQevict q s) :=
  h.command (fun _ hv => State.canon.ite hv.commandRefused (State.canon.ite hv.onQueue.stopCrews.commandRuns
      hv.onQueue.stopCrews.commandDone))

theorem State.canon.execQresume {q : Nat} : Result.canon (execQresume q s) :=
  h.commandIf (fun _ hv => hv.onQueue)

theorem State.canon.execQkill {q : Nat} : Result.canon (execQkill q s) :=
  h.commandIf (fun _ hv => hv.killLaunches.stopQueue)

theorem State.canon.execCtxcreate {ctx : Nat} {debug : Bool} {handler : Word64} : Result.canon (execCtxcreate ctx debug handler s) :=
  h.commandIf (fun _ hv => hv.same)

theorem State.canon.execCtxroot {ctx home root : Nat} : Result.canon (execCtxroot ctx home root s) :=
  h.commandIf (fun _ hv => hv.onContext)

theorem State.canon.execTrapset {ctx : Nat} {addr : Word64} : Result.canon (execTrapset ctx addr s) :=
  h.commandIf (fun _ hv => hv.onContext)

theorem State.canon.execEbset {ctx : Nat} {value : Word64} : Result.canon (execEbset ctx value s) :=
  h.commandIf (fun _ hv => hv.onContext)

theorem State.canon.execCorrread {ctx buf : Nat} : Result.canon (execCorrread ctx buf s) :=
  h.commandIf (fun _ hv => hv.onContext.toHost)

theorem State.canon.execCtxdestroy {ctx : Nat} : Result.canon (execCtxdestroy ctx s) :=
  h.commandIf (fun _ hv => hv.same)

theorem State.canon.execXinval {ctx home va len : Nat} : Result.canon (execXinval ctx home va len s) :=
  h.command (fun _ hv => State.canon.ite hv.commandRefused hv.onHome.recallLeases.commandRuns)

theorem State.canon.raiseLogged {e : LogEntry} {level : Nat} : (s.raiseLogged e level).canon :=
  h.raiseFault.same

theorem State.canon.translate {ctx home va : Nat} : (s.translate ctx home va).1.canon := by
  unfold Machine.State.translate
  split
  · exact h
  · exact h.freshWalk

theorem State.canon.refuseLogged {e : LogEntry} {cause index : Nat} : (s.refuseLogged e cause index).canon :=
  h.same.respond

theorem State.canon.mapLogged {e : LogEntry} : (s.mapLogged e).canon := by
  unfold Machine.State.mapLogged
  split
  · next he => exact (State.canon.fst h.translate he).same
  · next he => exact (State.canon.fst h.translate he).refuseLogged
  · next he => exact (State.canon.fst h.translate he).reportPoison.refuseLogged
  · next he => exact (State.canon.fst h.translate he).raiseLogged

theorem State.canon.retryUnrecorded {home : Nat} : (s.retryUnrecorded home).canon :=
  (h.foldl (fun _ _ ht1 => ht1.mapLogged)).foldl (fun _ _ ht1 => ht1.setPart)

theorem State.canon.mapHeld {x : Wave × Op × Nat × Part} : (s.mapHeld x).canon :=
  h.translate.answer

theorem State.canon.execResolve {home tag : Nat} {map : Bool} : Result.canon (execResolve home tag map s) := by
  unfold Machine.execResolve
  dsimp only
  refine h.command fun _ hv => ?_
  split
  · exact hv.commandRefused
  · exact State.canon.ite hv.commandRefused (((State.canon.ite ((hv.onHome.foldl (fun _ _ ht2 => ht2.mapLogged)).foldl (fun _ _ ht2
      => ht2.mapHeld)) ((hv.onHome.foldl (fun _ _ ht2 => ht2.setPart)).foldl (fun _ _ ht2 =>
      ht2.refuseLogged))).retryUnrecorded).commandDone)

theorem State.canon.execMigrate {ctx home va frame : Nat} : Result.canon (execMigrate ctx home va frame s) := by
  unfold Machine.execMigrate
  dsimp only
  refine h.command fun _ hv => ?_
  refine State.canon.ite hv.commandRefused ?_
  split
  · exact State.canon.ite hv.commandRefused hv.rewriteEntries.recallLeases.onHome.commandRuns
  · exact hv.reportPoison.commandRefused
  · exact hv.commandRefused

theorem State.canon.execFringset {home base size : Nat} : Result.canon (execFringset home base size s) :=
  h.commandIf (fun _ hv => hv.onHome.retryUnrecorded)

theorem State.canon.execReclass {home band tier : Nat} : Result.canon (execReclass home band tier s) :=
  h.command (fun _ hv => State.canon.ite hv.commandRefused hv.onHome.commandRuns)

theorem State.canon.execLehrset {home : Nat} {bands : List Nat} : Result.canon (execLehrset home bands s) :=
  h.commandIf (fun _ hv => hv.onHome)

theorem State.canon.execAssayset {period : Nat} {returned : Option Nat} : Result.canon (execAssayset period returned s) := by
  unfold Machine.execAssayset
  dsimp only
  refine h.commandIf fun _ hv => ?_
  split
  · exact hv.same
  · exact hv.same

theorem State.canon.rangeRefused {ctx va n : Nat} : (s.rangeRefused ctx va n).canon :=
  (h.mapGetD fun _ => h.reportPoison).commandRefused

theorem State.canon.execTlogset {q base size mode : Nat} : Result.canon (execTlogset q base size mode s) :=
  h.command (fun _ hv => State.canon.ite hv.commandRefused (State.canon.ite hv.onQueue.commandDone (State.canon.ite
      hv.commandRefused (State.canon.ite hv.rangeRefused hv.onQueue.commandDone))))

theorem State.canon.execLogread {buf : Nat} : Result.canon (execLogread buf s) :=
  h.commandIf (fun _ hv => hv.toHost.same)

theorem State.canon.execIlogread {buf : Nat} : Result.canon (execIlogread buf s) :=
  h.commandIf (fun _ hv => hv.toHost.same)

theorem State.canon.execPeerset {chip : Nat} {linkmask : BitVec 12} : Result.canon (execPeerset chip linkmask s) :=
  h.commandIf (fun _ hv => State.canon.ite hv.same (hv.same.foldl (fun _ _ ht2 => ht2.setPart)))

theorem State.canon.execPwrcap {watts : Nat} : Result.canon (execPwrcap watts s) :=
  h.commandIf (fun _ hv => hv.same)

theorem State.canon.attestCert {buf size : Nat} : (s.attestCert buf size).canon :=
  State.canon.ite h.commandRefused h.toHost.commandDone

theorem State.canon.execAttest {ctx nonceAddr buf size : Nat} : Result.canon (execAttest ctx nonceAddr buf size s) :=
  h.command (fun _ hv => State.canon.ite hv.attestCert (State.canon.ite hv.commandRefused hv.draw.toHost.commandDone))

theorem State.canon.execLoad {ctx q : Nat} {objAddr handle : Word64} {buf : Nat} {place : List Placement} :
    Result.canon (execLoad ctx q objAddr handle buf place s) := by
  unfold Machine.execLoad
  dsimp only
  exact h.command (fun _ hv => State.canon.ite hv.commandRefused hv.loadObject.toHost.commandDone)

theorem State.canon.drawBits {n width : Nat} : (s.drawBits n width).2.canon :=
  h.same

theorem State.canon.setError {site : ErrSite} {bits : Nat} {poison : Bool} : (s.setError site bits poison).canon := by
  unfold Machine.State.setError
  dsimp only
  split
  · exact h.onWave
  · exact h.same

theorem State.canon.putLine {site : ErrSite} {bs : List Byte} : (s.putLine site bs).canon := by
  unfold Machine.State.putLine
  split
  · exact h.writePhysBytes
  · exact h.writeLocalBytes
  · exact h

theorem State.canon.execSoftError {site : ErrSite} {bits : Nat} : Result.canon (execSoftError site bits s) := by
  unfold Machine.execSoftError
  dsimp only
  split
  · exact h
  · exact h.drawBits.putLine
  · exact Result.canon.ite (State.canon.ite h.drawBits.putLine h.drawBits.setError) (State.canon.ite h h.setError)

theorem State.canon.zeroSite {site : ErrSite} : (s.zeroSite site).canon := by
  unfold Machine.State.zeroSite
  dsimp only
  split
  · exact h.onWave
  · exact State.canon.ite h.onWave h.onWave
  · exact State.canon.ite h.onWave h.onWave
  · exact h.writeLocalBytes
  · exact h.putLine
  · exact h

theorem State.canon.clearUnowned {site : ErrSite} : (s.clearUnowned site).canon :=
  h.zeroSite.setError.logIntegrity

theorem State.canon.execScrubPass {site : ErrSite} : Result.canon (execScrubPass site s) := by
  unfold Machine.execScrubPass
  dsimp only
  split
  · exact h
  · exact h
  · refine Result.canon.ite h.clearUnowned ?_
    refine Result.canon.ite h ?_
    refine Result.canon.ite ?_ ?_
    · split
      · exact h.setError.corrected
      · exact h.setError
    · exact h.setError.logIntegrity

theorem State.canon.execCtxsave {ctx : Nat} {addr : Word64} {size buf : Nat} : Result.canon (execCtxsave ctx addr size buf s) :=
  h.command (fun _ hv => State.canon.ite hv.commandRefused (State.canon.ite hv.rangeRefused (((hv.foldl (fun _ _ ht2 =>
      ht2.stopQueue.onQueue)).stopCrews).commandRuns)))

theorem State.canon.finishSave {ctx : Nat} {addr : Word64} {size buf : Nat} : (s.finishSave ctx addr size buf).canon := by
  have hs : State.canon (((s.savedLaunches ctx).map Launch.key).foldl Machine.State.demote s) := h.foldl fun _ _ ht => ht.demote
  unfold Machine.State.finishSave
  dsimp only
  split
  · exact hs.toHost.same.commandRefused
  · split
    · next he => exact (hs.toHost.deviceWrite he).finishCommand
    · exact hs.toHost
    · exact hs.toHost.deviceFailed.same.commandRefused

theorem State.canon.finishRunning : (s.finishRunning).canon := by
  unfold Machine.State.finishRunning
  split
  · exact State.canon.ite h h.finishCommand
  · exact State.canon.ite h.finishCommand h
  · exact State.canon.ite h.finishSave h
  · exact h

theorem State.canon.tookSuccs {ctx : Nat} {xs : List LaunchImage} : (s.tookSuccs ctx xs).canon :=
  h.foldl (fun _ _ ht1 => State.canon.ite ht1.deviceTook ht1)

theorem State.canon.adopt {y : LaunchImage × List Nat} : (s.adopt y).canon :=
  h.draw.same

theorem State.canon.execCtxrestore {ctx : Nat} {addr : Word64} {buf : Nat} : Result.canon (execCtxrestore ctx addr buf s) := by
  unfold Machine.execCtxrestore
  dsimp only
  refine h.command fun _ hv => ?_
  refine State.canon.ite hv.commandRefused ?_
  split
  · exact hv.deviceFailed.commandRefused
  · split
    · exact hv.deviceTook.toHost.commandDone
    · split
      · exact hv.deviceTook.deviceFailed.commandRefused
      · exact ((((hv.deviceTook.tookSuccs.same.foldl (fun _ _ ht2 => ht2.adopt)).onContext).same).toHost).commandDone

end

end Sys2Proof.Machine
end

section
/-! The canonical form of main memory (log 5): the host, the reset, and a step. -/

namespace Sys2Proof.Machine

section
variable {s : State} (h : s.canon)
include h

theorem State.canon.hostLine {ctx : Nat} {m : MainAt} {n : Nat} {wr : Option (List Byte)} : (s.hostLine ctx m n wr).canon := by
  unfold Machine.State.hostLine
  refine State.canon.ite h ?_
  split
  · exact State.canon.ite h h.storePage
  · exact State.canon.ite h.markLine h.correctLine

theorem State.canon.hostPhys {off n : Nat} {wr : Option (List Byte)} : (s.hostPhys off n wr).canon :=
  State.canon.ite h.logError h.hostLine

theorem State.canon.hostVirt {off n : Nat} {wr : Option (List Byte)} : (s.hostVirt off n wr).canon := by
  unfold Machine.State.hostVirt
  dsimp only
  split
  · next he => exact State.canon.fst h.outsideCheck he
  · next he => exact (State.canon.fst h.outsideCheck he).hostLine

theorem State.canon.hostOwn {pa : Nat} {wr : Option (List Byte)} : (s.hostOwn pa wr).canon := by
  unfold Machine.State.hostOwn
  split
  · exact h.storePage
  · exact h

theorem State.canon.execHostMemAccess {range off len : Nat} {wr : Option (List Byte)} :
    Result.canon (execHostMemAccess range off len wr s) :=
  h.foldl (fun _ _ ht1 => State.canon.ite (State.canon.ite ht1.hostPhys ht1) (State.canon.ite (State.canon.ite ht1.hostVirt ht1)
      (State.canon.ite (State.canon.ite ht1.hostOwn ht1) ht1)))

theorem State.canon.linkLoss : (s.linkLoss).canon :=
  (h.foldl (fun _ _ ht1 => ht1.contextFault)).same

theorem State.canon.execResetRelease {linksGood : Bool} {header body : List Byte} :
    (Machine.execResetRelease linksGood header body s).canon := by
  obtain ⟨-, hhost, hpeer⟩ := h
  unfold Machine.execResetRelease
  dsimp only
  split <;> exact ⟨rfl, hhost, hpeer⟩

theorem State.canon.execFirmwareReady : (Machine.execFirmwareReady s).canon := by
  unfold Machine.execFirmwareReady
  split
  · exact h
  · obtain ⟨-, hhost, hpeer⟩ := h
    exact ⟨rfl, hhost, hpeer⟩

theorem State.canon.acceptFeature {word : Nat} {value : Word32} : (s.acceptFeature word value).canon :=
  State.canon.ite h h.same

theorem State.canon.writeRegisters {off : Nat} {data : List Byte} : (s.writeRegisters off data).canon := by
  unfold Machine.State.writeRegisters
  dsimp only
  refine State.canon.same ?_
  refine h.foldl (fun _ _ ht1 => ?_)
  split
  · exact ht1.acceptFeature
  · exact ht1

theorem State.canon.commandMalformed : Result.canon (s.commandMalformed) :=
  h.same

theorem State.canon.doorbell : Result.canon (s.doorbell) := by
  unfold Machine.State.doorbell
  dsimp only
  refine Result.canon.ite h ?_
  refine Result.canon.ite h.commandMalformed ?_
  split
  · exact h.execQstart
  · exact h.execQstop
  · exact h.execQevict
  · exact h.execQresume
  · exact h.execQkill
  · exact h.same.execLoad
  · exact Result.canon.ite h.commandMalformed h.execCtxcreate
  · exact h.execCtxroot
  · exact h.execXinval
  · exact Result.canon.ite h.commandMalformed h.execResolve
  · exact h.execMigrate
  · exact h.execFringset
  · exact h.execTrapset
  · exact h.execEbset
  · exact h.execCtxsave
  · exact h.execCtxrestore
  · exact h.execCtxdestroy
  · exact h.execReclass
  · exact h.execLehrset
  · exact h.execCorrread
  · exact h.execAssayset
  · exact h.execTlogset
  · exact h.execLogread
  · exact h.execIlogread
  · exact Result.canon.ite h.commandMalformed h.execPeerset
  · exact h.execAttest
  · exact h.execPwrcap
  · exact h.commandMalformed

theorem State.canon.exec {i : Instr} : Result.canon (Machine.exec i s) := by
  unfold Machine.exec
  split
  -- sadd to smaxu
  iterate 19 exact h.scalarBinary
  · exact h.issueWord (fun _ _ _ hu => Result.canon.ite hu.done hu.scalarDone)
  -- spopc to sctz
  iterate 3 exact h.scalarUnary
  · exact h.scalarBinary
  · exact h.issueWord (fun _ _ _ hu => hu.scalarDone)
  · exact h.scalarUnary
  -- sceq to scleu
  iterate 6 exact h.scalarCompare
  · exact h.issueWord (fun _ _ _ hu => Result.canon.ite hu hu.scalarDone)
  · exact h.execSwrite
  -- sldl to sldw
  iterate 2 exact h.scalarLoad
  -- sstl to sstw
  iterate 2 exact h.scalarStore
  · exact h.issueWord (fun _ _ _ hu => hu.clearScalar.done)
  · exact h.issueWord (fun _ _ _ hu => hu.scalarDone)
  -- slih to smuli
  iterate 11 exact h.scalarImm
  · exact h.issueWord (fun _ _ _ hu => hu.scalarDone)
  -- satadd to satxor
  iterate 8 exact h.scalarAtomic
  -- vadd to vmul
  iterate 3 exact h.vectorBinary
  -- vfma to vfnma
  iterate 3 exact h.vectorFused
  -- vmin to vmax
  iterate 2 exact h.vectorBinary
  -- vabs to vneg
  iterate 2 exact h.vectorUnary
  -- vdiv to vrem
  iterate 2 exact h.vectorBinary
  -- vsqrt to vlog2
  iterate 5 exact h.vectorUnary
  · exact h.issueWord (fun _ _ _ hu => hu.classC)
  -- vand to vsra
  iterate 6 exact h.rawBinary
  -- vpopc to vclz
  iterate 2 exact h.rawUnary
  -- vceq to vcun
  iterate 5 exact h.vectorCompare
  · exact h.issueWord (fun _ _ _ hu => hu.rawDone)
  -- vcvt to vrnd
  iterate 2 exact h.issueWord (fun _ _ _ hu => hu.classC)
  -- vmov to vfromp
  iterate 2 exact h.issueWord (fun _ _ _ hu => hu.rawDone)
  -- vtop to vpnot
  iterate 5 exact h.predWord
  -- vshfl to vbcast
  iterate 4 exact h.crossLane
  -- vscan to vredmin
  iterate 6 exact h.scanWord
  -- vballot to vcount
  iterate 2 exact h.issueWord (fun _ _ _ hu => hu.scalarDone)
  · exact h.issueWord (fun _ _ _ hu => hu.rawDone)
  · exact h.issueWord (fun _ _ _ hu => hu.scalarDone)
  · exact h.issueWord (fun _ _ _ hu => hu.done)
  · exact h.execVld
  · exact h.execVst
  · exact h.rawLoad
  · exact h.rawStore
  · exact h.rawLoad
  · exact h.rawStore
  · exact h.rawLoad
  · exact h.rawStore
  · exact h.execVlds
  · exact h.execVsts
  -- vatadd to vatcas
  iterate 7 exact h.laneAtomic
  · exact h.execCxadd
  · exact h.execCxget
  · exact h.execCxclr
  -- cpin to cplocal
  iterate 6 exact h.copyWord
  · exact h.issueWord (fun _ _ _ hu => Result.canon.ite hu.done hu)
  · exact h.execFence
  -- mma to mmaz
  iterate 2 exact h.multiply
  · exact h.issueWord (fun _ _ _ hu => hu.enqueueMat)
  · exact h.execMdrv
  · exact h.execMdrl
  · exact h.execMdrx
  · exact h.issueWord (fun _ _ _ hu => hu.enqueueMat)
  · exact h.issueWord (fun _ _ _ hu => hu.jump)
  -- brp to brn
  iterate 2 exact h.branchOn
  · exact h.issueWord (fun _ _ _ hu => Result.canon.ite hu.trapAt hu.newKey.jump)
  · exact h.execJoin
  · exact h.issueWord (fun _ _ _ hu => Result.canon.ite hu.trapAt hu.putWave)
  · exact h.execBrx
  · exact h.issueWord (fun _ _ _ hu => Result.canon.ite hu.trapAt hu.newKey.jump)
  · exact h.execRet
  · exact h.issueWord (fun _ _ _ hu => hu.done)
  · exact h.execExit
  · exact h.execRefill
  · exact h.execRgn
  · exact h.execBar
  -- mode to modx
  iterate 2 exact h.issueWord (fun _ _ _ hu => hu.done)
  · exact h.issueWord (fun _ _ _ hu => Result.canon.ite hu.mismatch hu.done)
  · exact h.execLaunch
  · exact h.execTrap
  · exact h.issueWord (fun _ _ _ hu => hu.trapAt)
  -- preoff to preon
  iterate 2 exact h.issueWord (fun _ _ _ hu => hu.done)
  · exact h.issueWord (fun _ _ _ hu => hu.putWave.visitWord)
  · exact h.execSleep
  · exact h.issueWord (fun _ _ _ hu => hu.scalarDone)
  · exact h.issueWord (fun _ _ _ hu => Result.canon.ite hu hu.done)
  · exact h.execTret
  · exact h.issueWord (fun _ _ _ hu => Result.canon.ite hu.trapAt hu.done)
  · exact h.issueWord (fun _ _ _ hu => hu.done)
  · exact h.execPortAccess
  · exact h.execEnginePartPerform
  · exact h.execSideLog
  · exact h.execSideLogReplay
  · exact h.execCounterRetire
  · exact h.returnAtomic
  · exact h.execErrorResponse
  · exact h.execMatrixTurn
  · exact h.execWaveDeal
  · exact h.execWaveRetire
  · exact h.execPrelimit
  · exact h.execSleepEnd
  · exact h.execSystemModeTimeout
  · exact h.onQueue
  · exact h.execDescriptorAccept
  · exact h.execLaunchStart
  · exact h.execCrewPlace
  · exact h.execLaunchComplete
  · exact h.execBitmapBitSet
  · exact h.execCrewPreempt
  · exact h.execCrewReplace
  · exact Result.canon.ite h h.same.stopCrews.holdCluster
  · exact h.execAssayDelayed
  · exact Result.canon.ite h (Result.canon.ite h.same.logIntegrity.same h.same)
  · exact h.execHomeRequest
  · exact h.execWalkComplete
  · exact h.execRetryAfterResend
  · exact h.grantLease
  -- leaseExpire to leaseRecallAck
  iterate 2 exact h.onHome
  · exact h.execMigrateCommit
  · exact h.execHostMemAccess
  · exact h.same
  · exact Result.canon.ite h (h.foldl (fun _ _ ht1 => ht1.peerPage))
  · exact Result.canon.ite h (Result.canon.ite h.same (Result.canon.ite h.dropLink h.same))
  -- cxlLinkLoss to thermalTrip
  iterate 2 exact h.linkLoss
  · exact h.execResetRelease
  · exact h.execFirmwareReady
  · exact h.acceptFeature
  · exact Result.canon.ite h.writeRegisters.doorbell h.writeRegisters
  · exact h.execRegionRollback
  · exact h.execLaunchReplay
  · exact h.execScrubPass
  · exact h.execTokenPass
  · exact h.execDiverge
  · exact h.same
  · exact h.execSoftError
  · exact h.execRegisterWriteback
  · exact h.execBandReopen
  · exact Result.canon.ite h ((h.foldl (fun _ _ ht1 => State.canon.ite ht1.draw.setPart ht1.draw)).same)
  · exact Result.canon.ite h.same h.same
  · exact h.execQstart
  · exact h.execQstop
  · exact h.execQevict
  · exact h.execQresume
  · exact h.execQkill
  · exact h.execLoad
  · exact h.execCtxcreate
  · exact h.execCtxroot
  · exact h.execXinval
  · exact h.execResolve
  · exact h.execMigrate
  · exact h.execFringset
  · exact h.execTrapset
  · exact h.execEbset
  · exact h.execCtxsave
  · exact h.execCtxrestore
  · exact h.execCtxdestroy
  · exact h.execReclass
  · exact h.execLehrset
  · exact h.execCorrread
  · exact h.execAssayset
  · exact h.execTlogset
  · exact h.execLogread
  · exact h.execIlogread
  · exact h.execPeerset
  · exact h.execAttest
  · exact h.command (fun _ hv => hv.attestCert)
  · exact h.execPwrcap

theorem State.canon.front {k lane : Nat} : (s.front k lane).canon :=
  h.same

theorem State.canon.tick : (s.tick).canon :=
  h.same

theorem State.canon.illegal : Result.canon (s.illegal) := by
  unfold Machine.State.illegal
  split
  · exact trivial
  · split
    · exact trivial
    · exact h.trapAt

theorem State.canon.issue : s.issue.canon := by
  unfold Machine.State.issue
  split
  · exact h.illegal
  · split
    · split
      · exact h.exec
      · split
        · exact h.deviceFailed
        · exact h.deviceFailed.exec
    · split
      · split <;> exact h.exec
      · exact h.exec

theorem State.canon.trapWave {k : Nat} : (s.trapWave k).canon := by
  unfold Machine.State.trapWave
  split
  · exact h
  · split
    · exact h
    · exact h.takeWaveTrap

theorem State.canon.copyNext {k : Nat} : (s.copyNext k).canon := by
  unfold Machine.State.copyNext
  split
  · exact h
  · exact h.copyLine

theorem State.canon.take {a : Candidate} : (s.take a).canon := by
  unfold Machine.State.take
  split
  · exact h.exec
  · exact h.front.issue
  · exact h.trapWave
  · exact h.finishRunning
  · exact h.copyNext

theorem State.canon.notePassed {rs : List Ready} {a : Ready} : (s.notePassed rs a).canon :=
  h.same

theorem State.canon.pick {cs : List Candidate} {c : Candidate} {t : State} (he : s.pick cs = some (c, t)) : t.canon := by
  unfold Machine.State.pick at he
  split at he
  · nomatch he
  · cases he
    exact h.same
  · obtain ⟨a, -, he⟩ := Option.map_eq_some_iff.mp he
    split at he <;> cases he
    · exact h.mapGetD fun _ => h.notePassed
    · exact h

theorem State.canon.proceed : s.proceed.canon := by
  unfold Machine.State.proceed
  split
  · exact h.tick
  · next he => exact (h.pick he).tick.take

theorem State.canon.step : Result.canon (Machine.step s) := by
  unfold Machine.step
  split
  · exact h.tick.same.exec
  · split
    · exact h.tick.same.exec
    · exact h.proceed

end

/-- Settles O60: every operation that a step runs writes main memory by operations that keep its form. -/
theorem stepKeepsMainMemory : Obligations.StepKeepsMainMemory := by
  unfold Obligations.StepKeepsMainMemory
  intro s t hs ht
  have h := State.canon.step ((State.canonical_iff s).mp hs)
  rw [ht] at h
  exact (State.canonical_iff t).mpr h

end Sys2Proof.Machine
end

section
/-! Rounding: a magnitude on a grid, and the neighbour that a rounding code takes. -/

namespace Sys2Proof.Machine

/-- The magnitude m · 2^e with its sticky tail, as a natural number on the scale 2^e0. -/
def scaledMag (m : Nat) (e : Int) (st : Bool) (e0 : Int) : Nat := (2 * m + st.toNat) * 2 ^ (e - 1 - e0).toNat

/-- The magnitude V on a grid of spacing G, in whole numbers. -/
def gridOf (V G : Nat) : OnGrid := ⟨V / G, decide (V % G ≠ 0), compare (2 * (V % G)) G, 65536 * (V % G) / G⟩

theorem compare_congr {a b c d : Nat} (hlt : a < b ↔ c < d) (heq : a = b ↔ c = d) : compare a b = compare c d := by
  simp only [compare, compareOfLessAndEq, hlt, heq]

theorem compare_mul_left {a b c : Nat} (hc : 0 < c) : compare (c * a) (c * b) = compare a b :=
  compare_congr (Nat.mul_lt_mul_left hc) (Nat.mul_right_inj hc.ne')

/-- A sticky tail moves no comparison with an even number but a tie. -/
theorem compare_sticky {a b : Nat} (st : Bool) : compare (2 * a + st.toNat) (2 * b) =
    if compare (2 * a) (2 * b) == .eq && st then .gt else compare (2 * a) (2 * b) := by
  simp only [compare, compareOfLessAndEq]
  cases st <;> grind

/-- A sticky tail does not reach D16 where at least seventeen bits are cut off. -/
theorem d16_sticky {r n : Nat} {st : Bool} (hst : st = true → 17 ≤ n) : 65536 * (2 * r + st.toNat) / (2 * 2 ^ n) = r * 65536 / 2 ^ n := by
  cases st with
  | false =>
    rw [Bool.toNat_false, Nat.add_zero, show 65536 * (2 * r) = 2 * (r * 65536) by ring, Nat.mul_div_mul_left _ _ (by decide)]
  | true =>
    obtain ⟨k, rfl⟩ := Nat.exists_eq_add_of_le (hst rfl)
    rw [Bool.toNat_true, show 2 * 2 ^ (17 + k) = 65536 * (2 * (2 * 2 ^ k)) by ring, Nat.mul_div_mul_left _ _ (by decide),
      show 2 ^ (17 + k) = 65536 * (2 * 2 ^ k) by ring, Nat.mul_comm r, Nat.mul_div_mul_left _ _ (by decide), ← Nat.div_div_eq_div_mul]
    congr 1
    omega

theorem onGrid_eq {m : Nat} {e q e0 : Int} {st : Bool} (h1 : e0 ≤ e - 1) (hq : e0 ≤ q) (hst : st = true → e + 17 ≤ q) :
    onGrid m e st q = gridOf (scaledMag m e st e0) (2 ^ (q - e0).toNat) := by
  have hpos : 0 < 2 ^ (e - 1 - e0).toNat := Nat.two_pow_pos _
  unfold onGrid gridOf scaledMag
  split
  · next hge =>
    obtain rfl : st = false := by cases st <;> simp_all; omega
    have hV : (2 * m + false.toNat) * 2 ^ (e - 1 - e0).toNat = m * 2 ^ (e - q).toNat * 2 ^ (q - e0).toNat := by
      rw [mul_assoc, ← pow_add, show (e - q).toNat + (q - e0).toNat = (e - 1 - e0).toNat + 1 by omega, pow_succ]
      simp
      ring
    rw [hV]
    simp [Nat.shiftLeft_eq, compare, compareOfLessAndEq]
  · next hlt =>
    obtain ⟨n, hn⟩ : ∃ n : Nat, q = e + n := ⟨(q - e).toNat, by omega⟩
    have hG : (2 : Nat) ^ (q - e0).toNat = 2 * 2 ^ n * 2 ^ (e - 1 - e0).toNat := by
      rw [← pow_succ', ← pow_add]; congr 1; omega
    have hdiv : (2 * m + st.toNat) / (2 * 2 ^ n) = m / 2 ^ n := by
      rw [← Nat.div_div_eq_div_mul]; cases st <;> simp <;> congr 1 <;> omega
    have hmod : (2 * m + st.toNat) % (2 * 2 ^ n) = 2 * (m % 2 ^ n) + st.toNat := by
      rw [Nat.mod_mul]
      have : (2 * m + st.toNat) / 2 = m ∧ (2 * m + st.toNat) % 2 = st.toNat := by cases st <;> simp <;> omega
      rw [this.1, this.2]
      ring
    have hrest : m - m / 2 ^ n * 2 ^ n = m % 2 ^ n := by
      have := Nat.div_add_mod' m (2 ^ n); omega
    obtain ⟨b, hb⟩ : ∃ b : Nat, 2 ^ n = 2 * b := ⟨2 ^ (n - 1), by rw [← pow_succ']; congr 1; omega⟩
    have hhalf : compare (2 * ((2 * (m % 2 ^ n) + st.toNat) * 2 ^ (e - 1 - e0).toNat)) (2 * 2 ^ n * 2 ^ (e - 1 - e0).toNat) =
        compare (2 * (m % 2 ^ n) + st.toNat) (2 * b) := by
      rw [hb]
      exact Eq.trans (by congr 1 <;> ring) (compare_mul_left (c := 2 * 2 ^ (e - 1 - e0).toNat) (by positivity))
    have hinexact : decide ((2 * (m % 2 ^ n) + st.toNat) * 2 ^ (e - 1 - e0).toNat ≠ 0) = (m % 2 ^ n != 0 || st) := by
      rw [Bool.eq_iff_iff]; cases st <;> simp
    rw [hG, Nat.mul_div_mul_right _ _ hpos, Nat.mul_mod_mul_right, hdiv, hmod, show (q - e).toNat = n by omega, hhalf, hinexact, ← mul_assoc,
      Nat.mul_div_mul_right _ _ hpos, d16_sticky fun h => by have := hst h; omega, compare_sticky, ← hb]
    simp only [Nat.shiftRight_eq_div_pow, Nat.shiftLeft_eq, hrest]
/-- The rule looks at no more than the place between the neighbours. -/
theorem takesUpper_grid {c : RoundCtl} {neg : Bool} {lo hi V G k : Nat} (hk : V / G = k) :
    takesUpper c neg lo hi (k * G) (k * G + G) V = takesUpper c neg lo hi 0 G (V % G) := by
  have hV : V = k * G + V % G := by rw [← hk, Nat.div_add_mod']
  have hsub : V - k * G = V % G := by omega
  have h1 : 2 * V < k * G + (k * G + G) ↔ 2 * (V % G) < G := by omega
  have h2 : k * G + (k * G + G) < 2 * V ↔ G < 2 * (V % G) := by omega
  have h3 : k * G + (k * G + G) ≤ 2 * V ↔ G ≤ 2 * (V % G) := by omega
  simp only [takesUpper, h1, h2, h3, hsub, Nat.add_sub_cancel_left, Nat.zero_add, Nat.sub_zero]

theorem half_gridOf {V G : Nat} : (gridOf V G).half = if 2 * (V % G) < G then .lt else if 2 * (V % G) = G then .eq else .gt := by
  simp only [gridOf, compare, compareOfLessAndEq]

/-- The neighbour that the specification's rule takes is the one that the model takes (R51, R53). -/
theorem roundsUp_gridOf {c : RoundCtl} {neg up : Bool} {lo hi V G k : Nat} (hk : V / G = k)
    (h : takesUpper c neg lo hi (k * G) (k * G + G) V = some up) : roundsUp c neg (lo % 2 == 1) (gridOf V G) = up := by
  rw [takesUpper_grid hk] at h
  unfold takesUpper at h
  unfold roundsUp
  rw [half_gridOf]
  split at h
  case h_1 =>
    rcases Nat.lt_trichotomy (2 * (V % G)) G with hr | hr | hr
    · simp_all
    · rcases Nat.mod_two_eq_zero_or_one lo with hlo | hlo <;> rcases Nat.mod_two_eq_zero_or_one hi with hhi | hhi <;> simp_all
    · simp_all [Nat.lt_asymm hr, hr.ne']
  case h_5 =>
    rcases Nat.lt_trichotomy (2 * (V % G)) G with hr | hr | hr
    · have := Nat.not_le.mpr hr
      simp_all
    · simp_all
    · simp_all [Nat.lt_asymm hr, hr.ne', hr.le]
  all_goals simp_all [gridOf]

end Sys2Proof.Machine
end

section
/-! Rounding into the floating layouts (R39, R52). -/

namespace Sys2Proof.Machine

/-! ### The codes of a layout -/

/-- The significand of a magnitude's code, with f fraction bits. -/
def codeSig (f k : Nat) : Nat := if k / 2 ^ f = 0 then k else 2 ^ f + k % 2 ^ f

/-- The exponent of the last bit of a magnitude's code. -/
def codeExp (f : Nat) (bias : Int) (k : Nat) : Int := (max (k / 2 ^ f) 1 : Nat) - bias - f

/-- The magnitude of a code, on the scale 2^e0. -/
def codeMag (f : Nat) (bias e0 : Int) (k : Nat) : Nat := codeSig f k * 2 ^ (codeExp f bias k - e0).toNat

theorem codeSig_lt (f k : Nat) : codeSig f k < 2 ^ (f + 1) := by
  have := Nat.mod_lt k (Nat.two_pow_pos f)
  have := Nat.div_add_mod' k (2 ^ f)
  unfold codeSig
  rw [pow_succ]
  split <;> simp_all <;> omega

theorem codeSig_small {f k : Nat} (h : k < 2 ^ f) : codeSig f k = k := by
  rw [codeSig, if_pos (Nat.div_eq_of_lt h)]

theorem codeSig_normal {f k : Nat} (h : 2 ^ f ≤ k) : codeSig f k = 2 ^ f + k % 2 ^ f := by
  rw [codeSig, if_neg (Nat.div_pos h (Nat.two_pow_pos f)).ne']

theorem codeSig_mod_two {f k : Nat} (hf : 1 ≤ f) : codeSig f k % 2 = k % 2 := by
  have h2 : 2 ∣ 2 ^ f := dvd_pow_self 2 (by omega)
  unfold codeSig
  split
  · rfl
  · rw [Nat.add_mod, Nat.mod_mod_of_dvd _ h2, Nat.mod_eq_zero_of_dvd h2]
    omega

/-- The distance of two neighbouring codes is that of the lower one's grid. -/
theorem codeMag_succ {f : Nat} {bias e0 : Int} (h0 : e0 ≤ 1 - bias - f) (k : Nat) :
    codeMag f bias e0 (k + 1) = codeMag f bias e0 k + 2 ^ (codeExp f bias k - e0).toNat := by
  have hpos : 0 < 2 ^ f := Nat.two_pow_pos f
  have hdiv := Nat.div_add_mod' k (2 ^ f)
  have hmod := Nat.mod_lt k hpos
  unfold codeMag
  by_cases hb : k % 2 ^ f + 1 = 2 ^ f
  · have hnext : k + 1 = (k / 2 ^ f + 1) * 2 ^ f := by rw [Nat.add_mul]; omega
    have hexp : codeExp f bias (k + 1) = (k / 2 ^ f + 1 : Nat) - bias - f := by
      rw [codeExp, hnext, Nat.mul_div_cancel _ hpos, Nat.max_eq_left (Nat.le_add_left _ _)]
    have hsig : codeSig f (k + 1) = 2 ^ f := by
      rw [codeSig_normal (by rw [hnext, Nat.add_mul]; omega), hnext, Nat.mul_mod_left, Nat.add_zero]
    rw [hexp, hsig]
    by_cases ha : k / 2 ^ f = 0
    · have hk : codeSig f k + 1 = 2 ^ f := by rw [codeSig, if_pos ha, ← hb]; simp_all
      rw [codeExp, ha, ← hk, Nat.add_mul, Nat.one_mul]
      rfl
    · have hk : codeSig f k + 1 = 2 * 2 ^ f := by rw [codeSig, if_neg ha]; omega
      have hstep : ((k / 2 ^ f + 1 : Nat) - bias - f - e0).toNat = (codeExp f bias k - e0).toNat + 1 := by
        rw [codeExp]
        generalize k / 2 ^ f = a at ha
        omega
      rw [hstep, pow_succ', ← mul_assoc, Nat.mul_comm (2 ^ f), ← hk, Nat.add_mul, Nat.one_mul]
  · have hk1 : (k + 1) / 2 ^ f = k / 2 ^ f ∧ (k + 1) % 2 ^ f = k % 2 ^ f + 1 := by
      have : k + 1 = k % 2 ^ f + 1 + 2 ^ f * (k / 2 ^ f) := by rw [Nat.mul_comm]; omega
      constructor
      · rw [this, Nat.add_mul_div_left _ _ hpos, Nat.div_eq_of_lt (by omega), Nat.zero_add]
      · rw [this, Nat.add_mul_mod_self_left, Nat.mod_eq_of_lt (by omega)]
    have hsig : codeSig f (k + 1) = codeSig f k + 1 := by
      unfold codeSig
      rw [hk1.1, hk1.2]
      split <;> rfl
    rw [hsig, codeExp, hk1.1, ← codeExp, Nat.add_mul, Nat.one_mul]

theorem codeMag_strictMono {f : Nat} {bias e0 : Int} (h0 : e0 ≤ 1 - bias - f) : StrictMono (codeMag f bias e0) :=
  strictMono_nat_of_lt_succ fun k => by rw [codeMag_succ h0]; exact Nat.lt_add_of_pos_right (Nat.two_pow_pos _)

theorem codeExp_ge (f : Nat) (bias : Int) (k : Nat) : 1 - bias - f ≤ codeExp f bias k := by
  unfold codeExp
  omega

/-! ### A magnitude in the cell of a code -/

theorem log2_scaledMag {m : Nat} {e e0 : Int} {st : Bool} (hm : 0 < m) (h1 : e0 ≤ e - 1) :
    ilog2 m e = (scaledMag m e st e0).log2 + e0 := by
  have hlog : (scaledMag m e st e0).log2 = m.log2 + 1 + (e - 1 - e0).toNat := by
    have hlo := Nat.log2_self_le hm.ne'
    have hhi := @Nat.lt_log2_self m
    have hst : st.toNat ≤ 1 := Bool.toNat_le st
    unfold scaledMag
    rw [Nat.log2_eq_iff (Nat.mul_ne_zero (by omega) (Nat.two_pow_pos _).ne'), show m.log2 + 1 + (e - 1 - e0).toNat + 1 = m.log2 + 1 + 1 + (e - 1 - e0).toNat by ring,
      pow_add, pow_add _ (m.log2 + 1 + 1)]
    exact ⟨Nat.mul_le_mul_right _ (by rw [pow_succ]; omega), Nat.mul_lt_mul_of_pos_right (by rw [pow_succ]; omega) (Nat.two_pow_pos _)⟩
  rw [ilog2, hlog]
  omega

/-- In the cell of a code the grid is the code's. -/
theorem grid_of_cell {f k V : Nat} {bias e0 : Int} (h0 : e0 ≤ 1 - bias - f) (hV : V ≠ 0) (hlo : codeMag f bias e0 k ≤ V)
    (hhi : V < codeMag f bias e0 k + 2 ^ (codeExp f bias k - e0).toNat) :
    max (V.log2 + e0 - f) (1 - bias - f) = codeExp f bias k ∧ V / 2 ^ (codeExp f bias k - e0).toNat = codeSig f k ∧
      V % 2 ^ (codeExp f bias k - e0).toNat = V - codeMag f bias e0 k := by
  obtain ⟨d, hd⟩ : ∃ d : Nat, codeExp f bias k = e0 + d := ⟨(codeExp f bias k - e0).toNat, by have := codeExp_ge f bias k; omega⟩
  rw [codeMag, show (codeExp f bias k - e0).toNat = d by omega] at *
  have hpos := Nat.two_pow_pos d
  have hdiv : V / 2 ^ d = codeSig f k := by
    rw [Nat.div_eq_iff hpos]
    exact ⟨hlo, by omega⟩
  refine ⟨?_, hdiv, by have := Nat.div_add_mod' V (2 ^ d); rw [hdiv] at this; omega⟩
  have hup : V.log2 < f + 1 + d := by
    rw [Nat.log2_lt hV, pow_add]
    calc V < (codeSig f k + 1) * 2 ^ d := by rw [Nat.add_mul]; omega
      _ ≤ 2 ^ (f + 1) * 2 ^ d := Nat.mul_le_mul_right _ (codeSig_lt f k)
  by_cases hk : k < 2 ^ f
  · have hlow : V.log2 < f + d := by
      rw [Nat.log2_lt hV, pow_add]
      calc V < (codeSig f k + 1) * 2 ^ d := by rw [Nat.add_mul]; omega
        _ ≤ 2 ^ f * 2 ^ d := Nat.mul_le_mul_right _ (by rw [codeSig_small hk]; exact hk)
    have : codeExp f bias k = 1 - bias - f := by rw [codeExp, Nat.div_eq_of_lt hk]; rfl
    omega
  · have hlow : f + d ≤ V.log2 := by
      rw [Nat.le_log2 hV, pow_add]
      calc 2 ^ f * 2 ^ d ≤ codeSig f k * 2 ^ d := Nat.mul_le_mul_right _ (by rw [codeSig_normal (by omega)]; omega)
        _ ≤ V := hlo
    have := codeExp_ge f bias k
    omega

/-- What the layouts of the statement have in common: the width w of a magnitude's code, the fraction bits f, the bias, and Max's code. -/
structure Float.Fits (s : Float) (w f : Nat) (bias : Int) (top : Nat) : Prop where
  fbits : s.fbits = f
  width : s.ebits + f = w
  bias_eq : (s.bias : Int) = bias
  pos : 1 ≤ f
  kmax : s.kmax = codeSig f top
  qmax : s.qmax = codeExp f bias top
  big : 2 ^ f < s.kmax
  top_lt : top < 2 ^ w
  normal : 2 ^ f < top
  none : s.special = .none ↔ w < 7
  e4m3 : s.special = .e4m3 ↔ s = .e4m3
  inf : s.special = .ieee → s.infCode = top + 1
  nan : 7 ≤ w → s.canonicalNan = top + 1 + if s = .e4m3 then 0 else 2 ^ (f - 1)

theorem Float.fits_of_mem {s : Float} {w f top : Nat} {bias : Int} (h : (s, w, f, bias, top) ∈
    [(Float.fp32, 31, 23, 127, 0x7F7FFFFF), (.bf16, 15, 7, 127, 0x7F7F), (.fp16, 15, 10, 15, 0x7BFF), (.e4m3, 7, 3, 7, 0x7E),
      (.e5m2, 7, 2, 15, 0x7B), (.e3m2, 5, 2, 3, 0x1F), (.e2m3, 5, 3, 1, 0x1F), (.e2m1, 3, 1, 1, 0x7)]) : s.Fits w f bias top := by
  simp only [List.mem_cons, Prod.mk.injEq, List.not_mem_nil, or_false] at h
  rcases h with ⟨rfl, rfl, rfl, rfl, rfl⟩ | ⟨rfl, rfl, rfl, rfl, rfl⟩ | ⟨rfl, rfl, rfl, rfl, rfl⟩ | ⟨rfl, rfl, rfl, rfl, rfl⟩ |
    ⟨rfl, rfl, rfl, rfl, rfl⟩ | ⟨rfl, rfl, rfl, rfl, rfl⟩ | ⟨rfl, rfl, rfl, rfl, rfl⟩ | ⟨rfl, rfl, rfl, rfl, rfl⟩ <;>
  constructor <;> decide

section
variable {s : Float} {w f top : Nat} {bias : Int} (hs : s.Fits w f bias top)
include hs

theorem Float.Fits.signWeight : s.signWeight = 2 ^ w := by
  rw [Float.signWeight, hs.fbits, hs.width]

theorem Float.Fits.qmin : s.qmin = 1 - bias - f := by
  rw [Float.qmin, hs.fbits, hs.bias_eq]

theorem Float.Fits.encodeMag_eq {j : Nat} {q : Int} (hq : 0 ≤ q + bias + f) (hj : j ≤ 2 ^ (f + 1)) :
    s.encodeMag j q = if j < 2 ^ f then j else (q + bias + f).toNat * 2 ^ f + (j - 2 ^ f) := by
  unfold Float.encodeMag
  rw [hs.fbits, hs.bias_eq]
  split
  · rfl
  · by_cases h : j = 2 ^ (f + 1)
    · rw [if_pos h]
      dsimp only
      obtain ⟨E, hE⟩ := Int.eq_ofNat_of_zero_le hq
      subst h
      rw [show q + 1 + bias + f = (E + 1 : Nat) by omega, hE, Int.toNat_natCast, Int.toNat_natCast, pow_succ, Nat.mul_div_cancel _ (by decide)]
      rw [Nat.add_mul]
      omega
    · rw [if_neg h]

theorem Float.Fits.encodeMag_code (k : Nat) : s.encodeMag (codeSig f k) (codeExp f bias k) = k := by
  have hlt := codeSig_lt f k
  rw [hs.encodeMag_eq (by unfold codeExp; omega) hlt.le]
  by_cases hk : k < 2 ^ f
  · rw [codeSig_small hk, if_pos hk]
  · have h1 : 1 ≤ k / 2 ^ f := Nat.div_pos (by omega) (Nat.two_pow_pos f)
    rw [codeSig_normal (by omega), if_neg (by omega), codeExp, Nat.max_eq_left h1, show ((k / 2 ^ f : Nat) - bias - f + bias + f).toNat = k / 2 ^ f by omega,
      Nat.add_sub_cancel_left, Nat.div_add_mod']

/-- One grid step above a code stands the next one. -/
theorem Float.Fits.encodeMag_succ (k : Nat) : s.encodeMag (codeSig f k + 1) (codeExp f bias k) = k + 1 := by
  have hlt := codeSig_lt f k
  have hcode := hs.encodeMag_code k
  rw [hs.encodeMag_eq (by unfold codeExp; omega) hlt.le] at hcode
  rw [hs.encodeMag_eq (by unfold codeExp; omega) hlt]
  by_cases hk : codeSig f k + 1 < 2 ^ f
  · rw [if_pos (by omega)] at hcode
    rw [if_pos hk, hcode]
  · by_cases hk' : codeSig f k < 2 ^ f
    · rw [if_pos hk'] at hcode
      rw [if_neg hk, hcode, codeExp, Nat.div_eq_of_lt (by omega), show ((max 0 1 : Nat) - bias - f + bias + f).toNat = 1 by omega]
      omega
    · rw [if_neg hk'] at hcode
      rw [if_neg hk]
      omega

theorem Float.Fits.encodeMag_max : s.encodeMag s.kmax s.qmax = top := by
  rw [hs.kmax, hs.qmax, hs.encodeMag_code]

end

/-! ### Rounding on a grid -/

/-- The result of a magnitude laid on a grid of spacing 2^q (R52); `tiny`: it is below the least normal magnitude. -/
def Float.roundGrid (s : Float) (el : Bool) (c : RoundCtl) (neg : Bool) (q : Int) (g : OnGrid) (tiny : Bool) : Rounded :=
  let sgn := if neg then s.signWeight else 0
  let k := if g.inexact && roundsUp c neg (g.k % 2 == 1) g then g.k + 1 else g.k
  if q = s.qmax ∧ k > s.kmax then
    if decide (g.k = s.kmax + 1) && !g.inexact && towardZero c neg then ⟨sgn + s.encodeMag s.kmax s.qmax, false, false⟩
    else s.overflow el c neg true
  else ⟨sgn + s.encodeMag k q, false, g.inexact && tiny⟩

/-- The grid of a magnitude V on the scale 2^e0. -/
def Float.gridExp (s : Float) (V : Nat) (e0 : Int) : Int := min (max (V.log2 + e0 - s.fbits) s.qmin) s.qmax

theorem Float.round_num {s : Float} {el neg st : Bool} {c : RoundCtl} {m : Nat} {e e0 : Int} (hm : 0 < m) (h1 : e0 ≤ e - 1) :
    s.round el c (.num neg m e st) = s.roundGrid el c neg (s.gridExp (scaledMag m e st e0) e0) (onGrid m e st (s.gridExp (scaledMag m e st e0) e0))
      (decide (((scaledMag m e st e0).log2 : Int) + e0 < s.qmin + s.fbits)) := by
  have hlog := log2_scaledMag (st := st) hm h1
  unfold Float.round Float.roundGrid Float.gridExp
  simp only [hm.ne', false_and, if_false, false_or, hlog]

section
variable {s : Float} {w f top : Nat} {bias : Int} (hs : s.Fits w f bias top)
include hs

theorem Float.Fits.codeExp_le {k : Nat} (hk : k ≤ top) : codeExp f bias k ≤ s.qmax := by
  have := Nat.div_le_div_right (c := 2 ^ f) hk
  rw [hs.qmax]
  unfold codeExp
  omega

theorem Float.Fits.codeSig_lt_kmax {k : Nat} (hk : k < top) (hq : codeExp f bias k = s.qmax) : codeSig f k < s.kmax := by
  have h := codeMag_strictMono (f := f) (bias := bias) le_rfl hk
  rw [codeMag, codeMag, ← hs.qmax, hq, ← hs.kmax] at h
  exact Nat.lt_of_mul_lt_mul_right h

theorem Float.Fits.codeSig_le_kmax {k : Nat} (hk : k ≤ top) (hq : codeExp f bias k = s.qmax) : codeSig f k ≤ s.kmax := by
  rcases hk.lt_or_eq with h | rfl
  · exact (hs.codeSig_lt_kmax h hq).le
  · exact hs.kmax.ge

section
variable {el neg tiny : Bool} {c : RoundCtl} {k : Nat} {g : OnGrid} (hg : g.k = codeSig f k)
include hg

theorem Float.Fits.roundGrid_down (hk : k ≤ top) (hup : (g.inexact && roundsUp c neg (g.k % 2 == 1) g) = false) :
    s.roundGrid el c neg (codeExp f bias k) g tiny = ⟨(if neg then s.signWeight else 0) + k, false, g.inexact && tiny⟩ := by
  have hle : ¬(codeExp f bias k = s.qmax ∧ codeSig f k > s.kmax) := fun h => absurd (hs.codeSig_le_kmax hk h.1) (by omega)
  unfold Float.roundGrid
  rw [hg] at hup
  simp only [hup, hg, hs.encodeMag_code, hle, if_false, Bool.false_eq_true]

theorem Float.Fits.roundGrid_up (hk : k < top) (hup : (g.inexact && roundsUp c neg (g.k % 2 == 1) g) = true) :
    s.roundGrid el c neg (codeExp f bias k) g tiny = ⟨(if neg then s.signWeight else 0) + (k + 1), false, g.inexact && tiny⟩ := by
  have hle : ¬(codeExp f bias k = s.qmax ∧ codeSig f k + 1 > s.kmax) := fun h => absurd (hs.codeSig_lt_kmax hk h.1) (by omega)
  unfold Float.roundGrid
  rw [hg] at hup
  simp only [hg, hup, hs.encodeMag_succ, hle, if_false, if_true]

end

omit hs in
theorem Float.roundGrid_over {el neg tiny : Bool} {c : RoundCtl} {g : OnGrid} 
    (hk : s.kmax < if g.inexact && roundsUp c neg (g.k % 2 == 1) g then g.k + 1 else g.k)
    (hat : ¬(g.k = s.kmax + 1 ∧ g.inexact = false)) : s.roundGrid el c neg s.qmax g tiny = s.overflow el c neg true := by
  have hbound : (decide (g.k = s.kmax + 1) && !g.inexact && towardZero c neg) = false := by
    rw [Bool.and_eq_false_iff, Bool.and_eq_false_iff]
    by_cases h : g.k = s.kmax + 1 <;> simp_all
  unfold Float.roundGrid
  simp only [gt_iff_lt, hk, hbound, and_self, if_true, Bool.false_eq_true, if_false]

omit hs in
theorem Float.roundGrid_beyond {el neg tiny : Bool} {c : RoundCtl} {g : OnGrid} (hg : s.kmax < g.k)
    (hat : ¬(g.k = s.kmax + 1 ∧ g.inexact = false)) : s.roundGrid el c neg s.qmax g tiny = s.overflow el c neg true :=
  Float.roundGrid_over (by split <;> omega) hat

omit hs in
/-- The magnitude one step above Max, exactly. -/
theorem Float.roundGrid_next {el neg tiny : Bool} {c : RoundCtl} {g : OnGrid} (hg : g.k = s.kmax + 1) (hin : g.inexact = false) :
    s.roundGrid el c neg s.qmax g tiny =
      if c.inward neg then ⟨(if neg then s.signWeight else 0) + s.encodeMag s.kmax s.qmax, false, false⟩ else s.overflow el c neg true := by
  unfold Float.roundGrid
  simp only [hg, hin, Bool.false_and, Bool.false_eq_true, if_false, gt_iff_lt, Nat.lt_succ_self, and_self, if_true, decide_true, Bool.not_false,
    Bool.true_and]
  rfl

/-- A magnitude in the cell of a code is laid on the code's grid. -/
theorem Float.Fits.round_cell {el neg st : Bool} {c : RoundCtl} {m k : Nat} {e e0 : Int} (hm : 0 < m) (h1 : e0 ≤ e - 1) (h0 : e0 ≤ 1 - bias - f)
    (hst : st = true → 2 ^ (f + 20) ≤ m) (hk : k ≤ top) (hlo : codeMag f bias e0 k ≤ scaledMag m e st e0)
    (hhi : scaledMag m e st e0 < codeMag f bias e0 k + 2 ^ (codeExp f bias k - e0).toNat) :
    s.round el c (.num neg m e st) = s.roundGrid el c neg (codeExp f bias k) (gridOf (scaledMag m e st e0) (2 ^ (codeExp f bias k - e0).toNat))
      (decide (scaledMag m e st e0 < codeMag f bias e0 (2 ^ f))) := by
  have hV : scaledMag m e st e0 ≠ 0 := Nat.mul_ne_zero (by omega) (Nat.two_pow_pos _).ne'
  obtain ⟨hq, -, -⟩ := grid_of_cell h0 hV hlo hhi
  have hlog := log2_scaledMag (st := st) hm h1
  have hgrid : s.gridExp (scaledMag m e st e0) e0 = codeExp f bias k := by
    rw [Float.gridExp, hs.fbits, hs.qmin, hq]
    exact min_eq_left (hs.codeExp_le hk)
  have hsticky : st = true → e + 17 ≤ codeExp f bias k := by
    intro h
    have := (Nat.le_log2 hm.ne').mpr (hst h)
    rw [ilog2] at hlog
    omega
  rw [Float.round_num hm h1, hgrid, onGrid_eq h1 (by have := codeExp_ge f bias k; omega) hsticky]
  congr 2
  have hnormal : codeMag f bias e0 (2 ^ f) = 2 ^ (1 - bias - e0).toNat := by
    rw [codeMag, codeSig_normal le_rfl, Nat.mod_self, Nat.add_zero, codeExp, Nat.div_self (Nat.two_pow_pos f), ← pow_add]
    congr 1
    omega
  rw [hnormal, ← Nat.log2_lt hV, hs.qmin, hs.fbits]
  apply propext
  omega

end

end Sys2Proof.Machine
end

section
/-! The results of rounding into a floating layout, by the place of the magnitude among the codes (R52). -/

namespace Sys2Proof.Machine

theorem onGrid_sticky_inexact {m : Nat} {e q : Int} : (onGrid m e true q).inexact = true := by
  unfold onGrid
  split
  · rfl
  · exact Bool.or_true _

theorem onGrid_ge {m n : Nat} {e q : Int} {st : Bool} (hq : q ≤ e + 16) (hm : 2 ^ (n + 16) ≤ m) : 2 ^ n ≤ (onGrid m e st q).k := by
  have hn : 2 ^ n ≤ m := le_trans (Nat.pow_le_pow_right (by decide) (by omega)) hm
  unfold onGrid
  split
  · exact le_trans hn (Nat.le_shiftLeft ..)
  · dsimp only
    rw [Nat.shiftRight_eq_div_pow, Nat.le_div_iff_mul_le (Nat.two_pow_pos _), ← pow_add]
    exact le_trans (Nat.pow_le_pow_right (by decide) (by omega)) hm

section
variable {s : Float} {w f top : Nat} {bias : Int} (hs : s.Fits w f bias top)
include hs

theorem Float.Fits.kmax_lt : s.kmax < 2 ^ (f + 1) := by
  rw [hs.kmax]
  exact codeSig_lt f top

/-- The magnitude one grid step above Max. -/
theorem Float.Fits.next_eq {e0 : Int} (h0 : e0 ≤ 1 - bias - f) :
    2 * codeMag f bias e0 top - codeMag f bias e0 (top - 1) = (s.kmax + 1) * 2 ^ (s.qmax - e0).toNat := by
  have hbig := hs.big
  have hnormal := hs.normal
  have hdiv : (top - 1) / 2 ^ f = top / 2 ^ f := by
    have hmod : 0 < top % 2 ^ f := by
      rw [hs.kmax, codeSig_normal hnormal.le] at hbig
      omega
    have h := Nat.div_add_mod' top (2 ^ f)
    have := Nat.mod_lt top (Nat.two_pow_pos f)
    rw [Nat.div_eq_iff (Nat.two_pow_pos f)]
    omega
  have hexp : codeExp f bias (top - 1) = s.qmax := by rw [hs.qmax, codeExp, hdiv, ← codeExp]
  have hsucc := codeMag_succ h0 (top - 1)
  have := Nat.two_pow_pos f
  rw [show top - 1 + 1 = top by omega, hexp] at hsucc
  have htop : codeMag f bias e0 top = s.kmax * 2 ^ (s.qmax - e0).toNat := by rw [codeMag, hs.kmax, hs.qmax]
  rw [Nat.add_mul, ← htop]
  omega

variable {el neg st : Bool} {c : RoundCtl} {m : Nat} {e e0 : Int} (hm : 0 < m) (h1 : e0 ≤ e - 1) (h0 : e0 ≤ 1 - bias - f)
  (hst : st = true → 2 ^ (f + 20) ≤ m)
include hm h1 h0 hst

/-- A magnitude that a code has is that code. -/
theorem Float.Fits.round_exact {k : Nat} (hk : k ≤ top) (hV : codeMag f bias e0 k = scaledMag m e st e0) :
    s.round el c (.num neg m e st) = ⟨(if neg then 2 ^ w else 0) + k, false, false⟩ := by
  have hpos : scaledMag m e st e0 ≠ 0 := Nat.mul_ne_zero (by omega) (Nat.two_pow_pos _).ne'
  have hhi : scaledMag m e st e0 < codeMag f bias e0 k + 2 ^ (codeExp f bias k - e0).toNat := by
    have := Nat.two_pow_pos (codeExp f bias k - e0).toNat
    omega
  obtain ⟨-, hdiv, hmod⟩ := grid_of_cell h0 hpos hV.le hhi
  have hin : (gridOf (scaledMag m e st e0) (2 ^ (codeExp f bias k - e0).toNat)).inexact = false := by
    simp [gridOf, hmod, hV]
  rw [hs.round_cell hm h1 h0 hst hk hV.le hhi, hs.roundGrid_down hdiv hk (by rw [hin]; rfl), hin, hs.signWeight]
  rfl

/-- Strictly inside a code's cell a magnitude is inexact, and goes to the neighbour that the rounding code takes. -/
theorem Float.Fits.cell_up {k : Nat} {up : Bool} (hlo : codeMag f bias e0 k < scaledMag m e st e0)
    (hhi : scaledMag m e st e0 < codeMag f bias e0 k + 2 ^ (codeExp f bias k - e0).toNat)
    (hup : takesUpper c neg k (k + 1) (codeMag f bias e0 k) (codeMag f bias e0 k + 2 ^ (codeExp f bias k - e0).toNat) (scaledMag m e st e0) = some up) :
    let g := gridOf (scaledMag m e st e0) (2 ^ (codeExp f bias k - e0).toNat)
    g.k = codeSig f k ∧ g.inexact = true ∧ (g.inexact && roundsUp c neg (g.k % 2 == 1) g) = up := by
  have hpos : scaledMag m e st e0 ≠ 0 := by omega
  obtain ⟨-, hdiv, hmod⟩ := grid_of_cell h0 hpos hlo.le hhi
  have hin : (gridOf (scaledMag m e st e0) (2 ^ (codeExp f bias k - e0).toNat)).inexact = true := by
    simp only [gridOf, hmod, decide_eq_true_eq]
    omega
  refine ⟨hdiv, hin, ?_⟩
  have hround := roundsUp_gridOf hdiv hup
  rw [hin, Bool.true_and, show (gridOf (scaledMag m e st e0) (2 ^ (codeExp f bias k - e0).toNat)).k = codeSig f k from hdiv,
    codeSig_mod_two hs.pos, hround]

theorem Float.Fits.round_between {k : Nat} {up : Bool} (hk : k < top) (hlo : codeMag f bias e0 k < scaledMag m e st e0)
    (hhi : scaledMag m e st e0 < codeMag f bias e0 (k + 1))
    (hup : takesUpper c neg k (k + 1) (codeMag f bias e0 k) (codeMag f bias e0 (k + 1)) (scaledMag m e st e0) = some up) :
    s.round el c (.num neg m e st) =
      ⟨(if neg then 2 ^ w else 0) + if up then k + 1 else k, false, decide (scaledMag m e st e0 < codeMag f bias e0 (2 ^ f))⟩ := by
  rw [codeMag_succ h0] at hhi hup
  obtain ⟨hgk, hin, hr⟩ := hs.cell_up hm h1 h0 hst hlo hhi hup
  rw [hs.round_cell hm h1 h0 hst hk.le hlo.le hhi, ← hs.signWeight]
  cases up with
  | false => rw [hs.roundGrid_down hgk hk.le hr, hin]; rfl
  | true => rw [hs.roundGrid_up hgk hk hr, hin]; rfl

/-- Between Max and the next magnitude. -/
theorem Float.Fits.round_above {up : Bool} (hlo : codeMag f bias e0 top < scaledMag m e st e0)
    (hhi : scaledMag m e st e0 < (s.kmax + 1) * 2 ^ (s.qmax - e0).toNat)
    (hup : takesUpper c neg top (top + 1) (codeMag f bias e0 top) ((s.kmax + 1) * 2 ^ (s.qmax - e0).toNat) (scaledMag m e st e0) = some up) :
    s.round el c (.num neg m e st) = if up then s.overflow el c neg true else ⟨(if neg then 2 ^ w else 0) + top, false, false⟩ := by
  have hnext : (s.kmax + 1) * 2 ^ (s.qmax - e0).toNat = codeMag f bias e0 top + 2 ^ (codeExp f bias top - e0).toNat := by
    rw [hs.kmax, hs.qmax, codeMag, Nat.add_mul, Nat.one_mul]
  rw [hnext] at hhi hup
  obtain ⟨hgk, hin, hr⟩ := hs.cell_up hm h1 h0 hst hlo hhi hup
  have hnot : ¬scaledMag m e st e0 < codeMag f bias e0 (2 ^ f) := by
    have := (codeMag_strictMono h0) hs.normal
    omega
  rw [hs.round_cell hm h1 h0 hst le_rfl hlo.le hhi, ← hs.signWeight]
  cases up with
  | false => rw [hs.roundGrid_down hgk le_rfl hr, decide_eq_false hnot, Bool.and_false]; rfl
  | true =>
    rw [← hs.qmax, Float.roundGrid_over]
    · rfl
    · rw [hs.qmax, if_pos hr, hgk, hs.kmax]
      exact Nat.lt_succ_self _
    · rw [hs.qmax, hin]
      simp

/-- From the next magnitude on the grid is that of Max. -/
theorem Float.Fits.gridExp_next (hV : (s.kmax + 1) * 2 ^ (s.qmax - e0).toNat ≤ scaledMag m e st e0) :
    s.gridExp (scaledMag m e st e0) e0 = s.qmax := by
  have hpos : scaledMag m e st e0 ≠ 0 := Nat.mul_ne_zero (by omega) (Nat.two_pow_pos _).ne'
  have hge := codeExp_ge f bias top
  have hlog : f + (s.qmax - e0).toNat ≤ (scaledMag m e st e0).log2 := by
    rw [Nat.le_log2 hpos, pow_add]
    exact le_trans (Nat.mul_le_mul_right _ (by have := hs.big; omega)) hV
  rw [Float.gridExp, hs.fbits]
  rw [← hs.qmax] at hge
  exact min_eq_right (le_trans (by omega) (le_max_left _ _))

/-- The next magnitude itself is no overflow where it rounds toward zero (log 48). -/
theorem Float.Fits.round_next (hV : scaledMag m e st e0 = (s.kmax + 1) * 2 ^ (s.qmax - e0).toNat) :
    s.round el c (.num neg m e st) = if c.inward neg then ⟨(if neg then 2 ^ w else 0) + top, false, false⟩ else s.overflow el c neg true := by
  have hpos := Nat.two_pow_pos (s.qmax - e0).toNat
  have hge : e0 ≤ s.qmax := by
    have := codeExp_ge f bias top
    rw [hs.qmax]
    omega
  have hsticky : st = true → e + 17 ≤ s.qmax := by
    intro h
    have hlog := log2_scaledMag (st := st) hm h1
    have hm' := (Nat.le_log2 hm.ne').mpr (hst h)
    have hV' : (scaledMag m e st e0).log2 < f + 2 + (s.qmax - e0).toNat := by
      rw [Nat.log2_lt (by rw [hV]; positivity), hV, pow_add]
      exact Nat.mul_lt_mul_of_pos_right (lt_of_le_of_lt hs.kmax_lt (Nat.pow_lt_pow_right (by decide) (by omega))) hpos
    rw [ilog2] at hlog
    omega
  rw [Float.round_num hm h1, hs.gridExp_next hm h1 h0 hst hV.ge, onGrid_eq h1 hge hsticky, hV, ← hs.signWeight]
  rw [Float.roundGrid_next (by simp [gridOf]) (by simp [gridOf]), hs.encodeMag_max]

/-- Beyond the next magnitude every result is an overflow. -/
theorem Float.Fits.round_beyond (hV : (s.kmax + 1) * 2 ^ (s.qmax - e0).toNat < scaledMag m e st e0) :
    s.round el c (.num neg m e st) = s.overflow el c neg true := by
  have hq := hs.gridExp_next hm h1 h0 hst hV.le
  have hge : e0 ≤ s.qmax := by
    have := codeExp_ge f bias top
    rw [hs.qmax]
    omega
  rw [Float.round_num hm h1, hq]
  by_cases hsticky : st = true → e + 17 ≤ s.qmax
  · rw [onGrid_eq h1 hge hsticky]
    have hpos := Nat.two_pow_pos (s.qmax - e0).toNat
    have hk : s.kmax + 1 ≤ scaledMag m e st e0 / 2 ^ (s.qmax - e0).toNat := (Nat.le_div_iff_mul_le hpos).mpr hV.le
    refine Float.roundGrid_beyond hk fun ⟨hat, hin⟩ => ?_
    simp only [gridOf, decide_eq_false_iff_not, not_not] at hat hin
    have := Nat.div_add_mod' (scaledMag m e st e0) (2 ^ (s.qmax - e0).toNat)
    rw [hat, hin] at this
    omega
  · obtain ⟨rfl, he⟩ : st = true ∧ ¬e + 17 ≤ s.qmax := by simpa using hsticky
    have hk : 2 ^ (f + 4) ≤ (onGrid m e true s.qmax).k := onGrid_ge (by omega) (hst rfl)
    have hmax : s.kmax < 2 ^ (f + 4) := lt_trans hs.kmax_lt (Nat.pow_lt_pow_right (by decide) (by omega))
    refine Float.roundGrid_beyond (by omega) fun ⟨_, hin⟩ => ?_
    rw [onGrid_sticky_inexact] at hin
    nomatch hin

end

end Sys2Proof.Machine
end

section
/-! What the codes of a floating layout stand for, and its special values and overflows (R39, R40, R52). -/

namespace Sys2Proof.Machine

section
variable {s : Float} {w f top : Nat} {bias : Int} (hs : s.Fits w f bias top)
include hs

/-- An overflow: Max, or what the layout has above it (R40, R52). -/
theorem Float.Fits.overflow_eq {el neg dir : Bool} {c : RoundCtl} :
    (el = true ∨ w < 7 ∨ c.sat = true ∨ dir = true ∧ c.inward neg → s.overflow el c neg dir = ⟨(if neg then 2 ^ w else 0) + top, true, false⟩) ∧
    (¬(el = true ∨ w < 7 ∨ c.sat = true ∨ dir = true ∧ c.inward neg) →
      s.overflow el c neg dir = ⟨(if s = .e4m3 then 0 else if neg then 2 ^ w else 0) + top + 1, true, false⟩) := by
  have hcond : (s.saturates el || c.sat || dir && towardZero c neg) = true ↔ el = true ∨ w < 7 ∨ c.sat = true ∨ dir = true ∧ c.inward neg := by
    rw [show c.inward neg = towardZero c neg from rfl, ← hs.none]
    simp [Float.saturates, or_assoc]
  unfold Float.overflow
  rw [hs.encodeMag_max, hs.signWeight]
  constructor
  · intro h
    rw [if_pos (hcond.mpr h)]
  · intro h
    have hw : ¬w < 7 := fun hw => h (.inr (.inl hw))
    rw [if_neg (mt hcond.mp h)]
    split
    · next hieee =>
      have hne : s ≠ .e4m3 := fun he => by simp [hs.e4m3.mpr he] at hieee
      rw [hs.inf hieee, if_neg hne]
      rfl
    · next hieee =>
      have he : s = .e4m3 := by
        cases hsp : s.special with
        | ieee => exact absurd hsp hieee
        | e4m3 => exact hs.e4m3.mp hsp
        | none => exact absurd (hs.none.mp hsp) hw
      rw [hs.nan (by omega), if_pos he, if_pos he, Nat.zero_add, Nat.add_zero]

/-- The fields of a signed code. -/
theorem Float.Fits.decode_signed {neg : Bool} {k : Nat} (hk : k < 2 ^ w) : s.decode ((if neg then 2 ^ w else 0) + k) =
    if s.special = .ieee ∧ k / 2 ^ f = 2 ^ s.ebits - 1 then (if k % 2 ^ f = 0 then .inf neg else .nan (decide (k % 2 ^ f < 2 ^ (f - 1))))
    else if s.special = .e4m3 ∧ k / 2 ^ f = 2 ^ s.ebits - 1 ∧ k % 2 ^ f = 2 ^ f - 1 then .nan false
    else .num neg (codeSig f k) (codeExp f bias k) false := by
  have hw : (2 : Nat) ^ w = 2 ^ f * 2 ^ s.ebits := by rw [← hs.width, Nat.add_comm, pow_add]
  have hsign : (((if neg then 2 ^ w else 0) + k) / 2 ^ w % 2 == 1) = neg := by
    cases neg <;> simp [Nat.div_eq_of_lt hk, Nat.two_pow_pos]
  have hex : ((if neg then 2 ^ w else 0) + k) / 2 ^ f % 2 ^ s.ebits = k / 2 ^ f := by
    have hlt : k / 2 ^ f < 2 ^ s.ebits := Nat.div_lt_of_lt_mul (hw ▸ hk)
    cases neg
    · simpa using Nat.mod_eq_of_lt hlt
    · rw [if_pos rfl, hw, Nat.mul_add_div (Nat.two_pow_pos f), Nat.add_mod_left, Nat.mod_eq_of_lt hlt]
  have hfr : ((if neg then 2 ^ w else 0) + k) % 2 ^ f = k % 2 ^ f := by
    cases neg
    · simp
    · rw [if_pos rfl, hw, Nat.mul_add_mod]
  unfold Float.decode
  rw [hs.fbits, hs.signWeight, hsign, hex, hfr, hs.qmin, hs.bias_eq]
  dsimp only
  split
  · rfl
  · split
    · rfl
    · split
      · next h =>
        rw [codeSig, if_pos h, codeExp, h, Nat.mod_eq_of_lt ((Nat.div_eq_zero_iff_lt (Nat.two_pow_pos f)).mp h)]
        rfl
      · next h => rw [codeSig, if_neg h, codeExp, Nat.max_eq_left (by omega)]

theorem Float.Fits.wide_special (hw : 7 ≤ w) : s.special = .ieee ∨ s = .e4m3 := by
  cases hsp : s.special with
  | ieee => exact .inl rfl
  | e4m3 => exact .inr (hs.e4m3.mp hsp)
  | none => exact absurd (hs.none.mp hsp) (by omega)

/-- A code up to Max's stands for its magnitude. -/
theorem Float.Fits.decode_code {neg : Bool} {k : Nat} (hk : k ≤ top) :
    s.decode ((if neg then 2 ^ w else 0) + k) = .num neg (codeSig f k) (codeExp f bias k) false := by
  have hq := hs.codeExp_le hk
  have hebits := Nat.two_pow_pos s.ebits
  rw [hs.decode_signed (lt_of_le_of_lt hk hs.top_lt), if_neg, if_neg]
  · rintro ⟨hsp, hex, hfr⟩
    have hqmax : codeExp f bias k = s.qmax := by
      rw [Float.qmax, hsp, hs.fbits, hs.bias_eq] at hq ⊢
      unfold codeExp at hq ⊢
      dsimp only at hq ⊢
      omega
    have hsig := hs.codeSig_le_kmax hk hqmax
    have hnormal : 2 ^ f ≤ 2 ^ w := (lt_trans hs.normal hs.top_lt).le
    rw [Float.kmax, hsp, hs.fbits, codeSig, hfr, pow_succ] at hsig
    have := Nat.two_pow_pos f
    dsimp only at hsig
    split at hsig
    · next h =>
      have he : 2 ^ s.ebits = 1 := by omega
      have := hs.normal
      have := hs.top_lt
      rw [← hs.width, pow_add, he, Nat.one_mul] at this
      omega
    · omega
  · rintro ⟨hsp, hex⟩
    rw [Float.qmax, hsp, hs.fbits, hs.bias_eq] at hq
    unfold codeExp at hq
    dsimp only at hq
    omega

/-- Above Max's code stands the infinity, but in E4M3. -/
theorem Float.Fits.decode_inf {neg : Bool} (hw : 7 ≤ w) (hne : s ≠ .e4m3) : s.decode ((if neg then 2 ^ w else 0) + (top + 1)) = .inf neg := by
  have hsp := (hs.wide_special hw).resolve_right hne
  have hcode := hs.inf hsp
  rw [Float.infCode, hs.fbits] at hcode
  have hlt : top + 1 < 2 ^ w := by
    rw [← hcode, ← hs.width, pow_add]
    exact Nat.mul_lt_mul_of_pos_right (Nat.sub_lt (Nat.two_pow_pos _) (by decide)) (Nat.two_pow_pos f)
  rw [hs.decode_signed hlt, if_pos ⟨hsp, by rw [← hcode, Nat.mul_div_cancel _ (Nat.two_pow_pos f)]⟩, if_pos (by rw [← hcode, Nat.mul_mod_left])]

/-- Every other code is a NaN. -/
theorem Float.Fits.decode_nan {neg : Bool} {k : Nat} (hw : 7 ≤ w) (hk : top + 1 < k ∨ s = .e4m3 ∧ k = top + 1) (hlt : k < 2 ^ w) :
    (s.decode ((if neg then 2 ^ w else 0) + k)).isNan = true := by
  have hpos := Nat.two_pow_pos f
  have hpow : (2 : Nat) ^ w = 2 ^ s.ebits * 2 ^ f := by rw [← hs.width, pow_add]
  rw [hs.decode_signed hlt]
  rcases hs.wide_special hw with hsp | he
  · have hne : s ≠ .e4m3 := fun he => by simp [hs.e4m3.mpr he] at hsp
    have hcode := hs.inf hsp
    rw [Float.infCode, hs.fbits] at hcode
    have hk' : top + 1 < k := hk.resolve_right fun h => hne h.1
    have hex : k / 2 ^ f = 2 ^ s.ebits - 1 := by
      rw [Nat.div_eq_iff hpos, hcode]
      have := Nat.sub_mul (2 ^ s.ebits) 1 (2 ^ f)
      omega
    have hfr : k % 2 ^ f ≠ 0 := by
      have := Nat.div_add_mod' k (2 ^ f)
      rw [hex] at this
      omega
    rw [if_pos ⟨hsp, hex⟩, if_neg hfr]
    rfl
  · have hsp := hs.e4m3.mpr he
    have hcode := hs.nan hw
    rw [if_pos he, Float.canonicalNan, hsp, hs.fbits, hs.width] at hcode
    dsimp only at hcode
    have hk' : k = 2 ^ w - 1 := by omega
    have hex : k / 2 ^ f = 2 ^ s.ebits - 1 := by
      rw [Nat.div_eq_iff hpos, hk', hpow, Nat.sub_mul]
      omega
    have hfr : k % 2 ^ f = 2 ^ f - 1 := by
      have := Nat.div_add_mod' k (2 ^ f)
      rw [hex, Nat.sub_mul, Nat.one_mul] at this
      have : 2 ^ f ≤ 2 ^ s.ebits * 2 ^ f := Nat.le_mul_of_pos_left _ (Nat.two_pow_pos _)
      omega
    rw [if_neg (by simp [hsp]), if_pos ⟨hsp, hex, hfr⟩]
    rfl

theorem Float.Fits.round_zero {el neg : Bool} {c : RoundCtl} {e : Int} : s.round el c (.num neg 0 e false) = ⟨if neg then 2 ^ w else 0, false, false⟩ := by
  unfold Float.round
  simp only [and_self, if_true, hs.signWeight]

theorem Float.Fits.round_nan {el q : Bool} {c : RoundCtl} (hw : 7 ≤ w) :
    s.round el c (.nan q) = ⟨top + 1 + if s = .e4m3 then 0 else 2 ^ (f - 1), false, false⟩ := by
  rw [Float.round, hs.nan hw]

theorem Float.Fits.round_inf {neg : Bool} {c : RoundCtl} (hw : 7 ≤ w) (hne : s ≠ .e4m3) :
    s.round false c (.inf neg) = ⟨(if neg then 2 ^ w else 0) + top + 1, false, false⟩ := by
  have hsp := (hs.wide_special hw).resolve_right hne
  rw [Float.round, hsp]
  simp [hs.inf hsp, hs.signWeight, Nat.add_assoc]

theorem Float.Fits.round_inf_e4m3 {neg : Bool} {c : RoundCtl} (he : s = .e4m3) : s.round false c (.inf neg) = s.overflow false c neg false := by
  rw [Float.round, hs.e4m3.mpr he]

end

end Sys2Proof.Machine
end

section
/-! Conversions to integers, their flags, and the draws of a lane (R48, R49, R54 to R56). -/

namespace Sys2Proof.Machine

/-! ### Integers -/

theorem roundToInt_eq {c : RoundCtl} {neg st : Bool} {m a : Nat} {e : Int} (hst : st = true → e ≤ -20) :
    let e0 : Int := min (e - 1) 0
    let V := scaledMag m e st e0
    let U := 2 ^ (-e0).toNat
    (a * U = V ∨ V / U * U < V ∧
      ∃ up, takesUpper c neg (V / U) (V / U + 1) (V / U * U) ((V / U + 1) * U) V = some up ∧ a = if up then V / U + 1 else V / U) →
    roundToInt c neg m e st = if neg then -(a : Int) else a := by
  intro e0 V U h
  have hU : 0 < U := Nat.two_pow_pos _
  have hgrid : onGrid m e st 0 = gridOf V U := by
    rw [onGrid_eq (e0 := e0) (min_le_left _ _) (min_le_right _ _) fun h => by have := hst h; omega, zero_sub]
  have hdm := Nat.div_add_mod' V U
  have hk : (if (gridOf V U).inexact && roundsUp c neg ((gridOf V U).k % 2 == 1) (gridOf V U) then (gridOf V U).k + 1 else (gridOf V U).k) = a := by
    rcases h with h | ⟨hlt, up, hup, rfl⟩
    · have hV : V / U = a ∧ V % U = 0 := by
        rw [← h, Nat.mul_div_cancel _ hU, Nat.mul_mod_left]
        exact ⟨rfl, rfl⟩
      simp [gridOf, hV]
    · rw [Nat.add_mul, Nat.one_mul] at hup
      have hround := roundsUp_gridOf rfl hup
      have hin : (gridOf V U).inexact = true := by
        simp only [gridOf, decide_eq_true_eq]
        omega
      rw [hin, Bool.true_and, show (gridOf V U).k = V / U from rfl, hround]
  unfold roundToInt
  rw [hgrid]
  simp only [hk]

theorem Fmt.saturate_outside {f : Fmt} {lo hi : Int} (hrange : f.range = (lo, hi)) (z : Int) : (f.saturate z).2 = decide (z < lo ∨ hi < z) := by
  simp only [Fmt.saturate, hrange]
  split
  · next h => simp only [h, true_or, decide_true]
  · next h =>
    split
    · next h' => simp only [gt_iff_lt.mp h', or_true, decide_true]
    · next h' => exact (decide_eq_false (by omega)).symm

section
variable {f : Fmt} {n : Nat} {lo hi : Int} (hmem : (f, n, lo, hi) ∈ [(Fmt.i32, 32, -(2 ^ 31), 2 ^ 31 - 1), (.i16, 16, -(2 ^ 15), 2 ^ 15 - 1),
  (.i8, 8, -128, 127), (.i4, 4, -8, 7), (.n32, 32, 0, 2 ^ 32 - 1), (.n8, 8, 0, 255)])
include hmem

/-- The integer and index formats of the statement. -/
theorem Fmt.integer_of_mem : f.kind ≠ .real ∧ f.bits = n ∧ f.range = (lo, hi) ∧ lo ≤ hi := by
  simp only [List.mem_cons, Prod.mk.injEq, List.not_mem_nil, or_false] at hmem
  rcases hmem with ⟨rfl, rfl, rfl, rfl⟩ | ⟨rfl, rfl, rfl, rfl⟩ | ⟨rfl, rfl, rfl, rfl⟩ | ⟨rfl, rfl, rfl, rfl⟩ | ⟨rfl, rfl, rfl, rfl⟩ | ⟨rfl, rfl, rfl, rfl⟩ <;>
    decide

theorem Fmt.convert_integer {c : RoundCtl} : 
    (∀ q, f.convert c (.nan q) = ⟨0, true, false, false, false⟩) ∧
    (∀ neg, f.convert c (.inf neg) = ⟨((if neg then lo else hi) % 2 ^ n).toNat, false, false, false, true⟩) ∧
    ∀ neg m e st, f.convert c (.num neg m e st) = ⟨(max lo (min hi (roundToInt c neg m e st)) % 2 ^ n).toNat, false, false, false,
      decide (roundToInt c neg m e st < lo ∨ hi < roundToInt c neg m e st)⟩ := by
  obtain ⟨hkind, hbits, hrange, hle⟩ := Fmt.integer_of_mem hmem
  unfold Fmt.convert
  cases hk : f.kind with
  | real => exact absurd hk hkind
  | int | index => simp only [hbits, hrange, Fmt.saturate_eq hrange hle, Fmt.saturate_outside hrange, codeOfInt, implies_true, and_self]

end

/-! ### Flags and draws -/

theorem Converted.flags_bits (x : Converted) : x.flags.getLsbD 0 = x.invalid ∧ x.flags.getLsbD 1 = false ∧ x.flags.getLsbD 2 = x.ovf ∧ x.flags.getLsbD 3 = x.unf ∧
    x.flags.getLsbD 4 = false ∧ x.flags.getLsbD 5 = x.sat ∧ x.flags.getLsbD 6 = false := by
  have h : ∀ invalid ovf unf sat : Bool,
      let flags := flagIf invalid nsInvalid ||| flagIf ovf nsOverflow ||| flagIf unf nsUnderflow ||| flagIf sat nsSat
      flags.getLsbD 0 = invalid ∧ flags.getLsbD 1 = false ∧ flags.getLsbD 2 = ovf ∧ flags.getLsbD 3 = unf ∧ flags.getLsbD 4 = false ∧
        flags.getLsbD 5 = sat ∧ flags.getLsbD 6 = false := by decide
  exact h x.invalid x.ovf x.unf x.sat

theorem mrRound_eq (mr : Word64) : mrRound mr = (mr.extractLsb' 9 3).toNat := by
  simp [mrRound, Nat.shiftRight_eq_div_pow]

theorem mxPhase_eq (mx : Word64) : mxPhase mx = (mx.extractLsb' 3 5).toNat := by
  simp [mxPhase, Nat.shiftRight_eq_div_pow]

theorem mrSat_eq (mr : Word64) : mrSat mr = mr.getLsbD 8 := by
  rw [mrSat, BitVec.getLsbD, Nat.testBit_eq_decide_div_mod_eq]
  rfl

/-- The stream and c side by side (R54). -/
theorem stream_append (mx : Word64) (c : BitVec 16) :
    BitVec.ofNat 32 (mxStream mx * 65536 + c.toNat) = (mx.extractLsb' 8 5 ++ c).setWidth 32 := by
  apply BitVec.eq_of_toNat_eq
  have hc := c.isLt
  rw [BitVec.toNat_setWidth, BitVec.toNat_append, ← Nat.shiftLeft_add_eq_or_of_lt hc, Nat.shiftLeft_eq]
  simp [mxStream, Nat.shiftRight_eq_div_pow]

/-- The rounding control of a lane; a shadow lane's draw is its primary's (R55). -/
theorem Wave.ctlWith_eq (w : Wave) (mr mx : Word64) (lo hi : Word32) (i : Nat) :
    let v := if w.paired = true then i / 2 else i
    let l := w.lane (if w.paired = true then 2 * v else v)
    let c := w.ctlWith mr mx lo hi i
    c.code = (mr.extractLsb' 9 3).toNat ∧ c.sat = mr.getLsbD 8 ∧
    (c.code = 5 → c.r = frit lo hi ((mx.extractLsb' 8 5 ++ l.c).setWidth 32) l.n) ∧
    (c.code = 6 → c.r = dither (v % 32) (mx.extractLsb' 3 5).toNat) := by
  refine ⟨mrRound_eq mr, mrSat_eq mr, fun h => ?_, fun h => ?_⟩
  · have h' : mrRound mr = 5 := h
    rw [← stream_append]
    simp only [Wave.ctlWith, laneDraw, h', if_true, Wave.primary, Wave.visible]
  · have h' : mrRound mr = 6 := h
    rw [← mxPhase_eq]
    simp only [Wave.ctlWith, laneDraw, h', if_true, Wave.visible, show ¬(6 : Nat) = 5 by decide, if_false]

/-- The dither rule takes the five bits of the position in reverse (R56). -/
theorem dither_bits (i phase k : Nat) : dither i phase < 2 ^ 16 ∧ dither i phase % 2 ^ 11 = 0 ∧
    (k < 5 → (dither i phase).testBit (11 + k) = ((i + phase) % 32).testBit (4 - k)) := by
  have h : ∀ n < 32, bitrev5 n * 2048 < 2 ^ 16 ∧ bitrev5 n * 2048 % 2 ^ 11 = 0 ∧ ∀ k < 5, (bitrev5 n * 2048).testBit (11 + k) = n.testBit (4 - k) := by
    decide
  obtain ⟨h1, h2, h3⟩ := h ((i + phase) % 32) (Nat.mod_lt _ (by decide))
  exact ⟨h1, h2, h3 k⟩

end Sys2Proof.Machine
end

section
/-! Rounding into GR8 (R41, R42, R52). -/

namespace Sys2Proof.Machine

/-! ### The codes and their neighbours -/

/-- The magnitude of a code, in units of the least one, 2^-15. -/
def gr8Units (k : Nat) : Nat := if k = 0 then 0 else (gr8Mag k).1 * 2 ^ ((gr8Mag k).2 + 15).toNat

/-- The distance of a code to the next one above, in the same units. -/
def gr8Step (k : Nat) : Nat := if k = 0 then 1 else 2 ^ ((gr8Mag k).2 + 15).toNat

/-- The exponent of a code other than zero's. -/
def gr8Exp (k : Nat) : Int := (gr8Mag k).2 + (gr8Mag k).1.log2

/-- The next code above. -/
def gr8Next (k : Nat) : Nat :=
  if k = 0 then 1
  else if (gr8Mag k).1 + 1 = 2 ^ (gr8F (gr8Exp k) + 1) then gr8Code (gr8Exp k + 1) 0
  else gr8Code (gr8Exp k) ((gr8Mag k).1 + 1 - 2 ^ gr8F (gr8Exp k))

/-- The fields of a code: its exponent is in the table, its significand has the bits of its band, and it is the code of its magnitude. -/
theorem gr8_fields : ∀ k < 128, k ≠ 0 → 0 < (gr8Mag k).1 ∧ gr8F (gr8Exp k) = (gr8Mag k).1.log2 ∧ -15 ≤ (gr8Mag k).2 ∧ gr8Exp k ≤ 13 ∧
    gr8Code (gr8Exp k) ((gr8Mag k).1 - 2 ^ gr8F (gr8Exp k)) = k ∧ (gr8Exp k = 13 → k = 3) := by
  decide +kernel

theorem gr8_next : ∀ k < 128, k ≠ 3 → gr8Next k < 128 ∧ gr8Units (gr8Next k) = gr8Units k + gr8Step k := by
  decide +kernel

theorem gr8Decode_code : ∀ k < 128, gr8Decode k = .num false (if k = 0 then 0 else (gr8Mag k).1) (if k = 0 then 0 else (gr8Mag k).2) false := by
  decide +kernel

/-- The code of a magnitude in units of the least one. -/
def gr8OfUnits (u : Nat) : Nat :=
  if u = 0 then 0
  else gr8Code ((u.log2 : Int) - 15) (u / 2 ^ ((u.log2 : Int) - gr8F ((u.log2 : Int) - 15)).toNat - 2 ^ gr8F ((u.log2 : Int) - 15))

theorem gr8OfUnits_units : ∀ k < 128, gr8OfUnits (gr8Units k) = k := by
  decide +kernel

theorem gr8Units_inj {j k : Nat} (hj : j < 128) (hk : k < 128) (h : gr8Units j = gr8Units k) : j = k := by
  rw [← gr8OfUnits_units j hj, h, gr8OfUnits_units k hk]

/-- A code's magnitude and step in powers of two. -/
theorem gr8_binade {k : Nat} (hk : k < 128) (h0 : k ≠ 0) : ∃ F d : Nat, gr8F (gr8Exp k) = F ∧ (gr8Mag k).2 = (d : Int) - 15 ∧ gr8Exp k = (F + d : Nat) - 15 ∧
    2 ^ F ≤ (gr8Mag k).1 ∧ (gr8Mag k).1 < 2 ^ (F + 1) ∧ gr8Units k = (gr8Mag k).1 * 2 ^ d ∧ gr8Step k = 2 ^ d := by
  obtain ⟨hM, hF, hq, -, -, -⟩ := gr8_fields k hk h0
  refine ⟨(gr8Mag k).1.log2, ((gr8Mag k).2 + 15).toNat, hF, by omega, by rw [gr8Exp]; omega, Nat.log2_self_le hM.ne', Nat.lt_log2_self, ?_, ?_⟩
  · rw [gr8Units, if_neg h0]
  · rw [gr8Step, if_neg h0]

/-- Larger magnitudes lie at least a step above. -/
theorem gr8_above {lo hi : Nat} (hlo : lo < 128) (hhi : hi < 128) (h : gr8Units lo < gr8Units hi) : gr8Units lo + gr8Step lo ≤ gr8Units hi := by
  by_cases h0 : lo = 0
  · subst h0
    rw [show gr8Units 0 = 0 from rfl] at h ⊢
    rw [show gr8Step 0 = 1 from rfl]
    omega
  have h0' : hi ≠ 0 := fun he => by simp [he, gr8Units] at h
  obtain ⟨F, d, hF, hq, hx, hge, hlt, hU, hS⟩ := gr8_binade hlo h0
  obtain ⟨F', d', hF', hq', hx', hge', hlt', hU', hS'⟩ := gr8_binade hhi h0'
  have hlow : 2 ^ (F + d) ≤ gr8Units lo := by rw [hU, pow_add]; exact Nat.mul_le_mul_right _ hge
  have hup : gr8Units lo + gr8Step lo ≤ 2 ^ (F + d + 1) := by
    rw [hU, hS, show F + d + 1 = F + 1 + d by omega, pow_add, ← Nat.succ_mul]
    exact Nat.mul_le_mul_right _ hlt
  have hlow' : 2 ^ (F' + d') ≤ gr8Units hi := by rw [hU', pow_add]; exact Nat.mul_le_mul_right _ hge'
  have hup' : gr8Units hi < 2 ^ (F' + d' + 1) := by
    rw [hU', show F' + d' + 1 = F' + 1 + d' by omega, pow_add]
    exact Nat.mul_lt_mul_of_pos_right hlt' (Nat.two_pow_pos _)
  rcases Nat.lt_trichotomy (F + d) (F' + d') with hlt | heq | hgt
  · exact le_trans hup (le_trans (Nat.pow_le_pow_right (by decide) hlt) hlow')
  · have hsame : F = F' := by rw [← hF, ← hF', hx, hx', heq]
    obtain rfl : d = d' := by omega
    rw [hU, hU'] at h
    rw [hU, hS, hU', ← Nat.succ_mul]
    exact Nat.mul_le_mul_right _ (Nat.lt_of_mul_lt_mul_right h)
  · have : 2 ^ (F' + d' + 1) ≤ 2 ^ (F + d) := Nat.pow_le_pow_right (by decide) hgt
    omega

/-- The next code above is the least one above. -/
theorem eq_gr8Next {lo hi : Nat} (hlo : lo < 128) (hne : lo ≠ 3) (hhi : hi < 128) (h : gr8Units lo < gr8Units hi)
    (hleast : gr8Units hi ≤ gr8Units (gr8Next lo)) : hi = gr8Next lo := by
  obtain ⟨hn, hu⟩ := gr8_next lo hlo hne
  have := gr8_above hlo hhi h
  exact gr8Units_inj hhi hn (by omega)

/-- No code lies above 2^13. -/
theorem gr8Units_le : ∀ k < 128, gr8Units k ≤ gr8Units 3 := by
  decide +kernel

/-- The bands of GR8 (R41): the first code of each, its exponent and its fraction bits. -/
theorem gr8Decode_bands : ∀ b ∈ [((1 : Nat), (-15 : Int), (0 : Nat)), (2, -14, 0), (3, 13, 0), (4, -13, 0), (5, -12, 0), (6, 11, 0), (7, 12, 0),
    (8, -11, 0), (9, -10, 0), (10, -9, 0), (11, -8, 0), (12, 7, 0), (13, 8, 0), (14, 9, 0), (15, 10, 0), (16, -7, 1), (18, -6, 1), (20, -5, 1),
    (22, -4, 1), (24, 3, 1), (26, 4, 1), (28, 5, 1), (30, 6, 1), (32, -3, 3), (40, -2, 3), (48, 1, 3), (56, 2, 3), (64, -1, 5), (96, 0, 5)],
    ∀ neg, ∀ j < 2 ^ b.2.2, gr8Decode ((if neg then 0x80 else 0) + b.1 + j) = .num neg (2 ^ b.2.2 + j) (b.2.1 - b.2.2) false := by
  decide +kernel

/-! ### The model's cases -/

/-- Does an inexact magnitude between two codes go to the upper one? -/
def gr8Up (c : RoundCtl) (neg : Bool) (lo hi : Nat) (g : OnGrid) : Bool :=
  g.inexact && (if c.code == 0 && g.half == .eq then
    (if lo % 2 = 0 ∧ hi % 2 = 1 then false else if lo % 2 = 1 ∧ hi % 2 = 0 then true else Config.gr8TieUp lo) else roundsUp c neg true g)

/-- A code with its sign; zero has none. -/
def gr8Signed (neg : Bool) (k : Nat) : Nat := if k = 0 then 0 else (if neg then 0x80 else 0) + k

section
variable {c : RoundCtl} {neg st : Bool} {m : Nat} {e : Int} (hm : 0 < m)
include hm

theorem gr8Round_below (hx : ilog2 m e < -15) : gr8Round c (.num neg m e st) =
    ⟨gr8Signed neg (if gr8Up c neg 0 1 (onGrid m e st (-15)) then 1 else 0), false, (onGrid m e st (-15)).inexact⟩ := by
  unfold gr8Round
  simp only [hm.ne', false_and, if_false, hx, if_true, decide_true, Bool.and_true, show ¬(ilog2 m e ≥ 13) by omega]
  rfl

theorem gr8Round_band {k : Nat} (hk : k < 128) (h0 : k ≠ 0) (h3 : k ≠ 3) (hx : ilog2 m e = gr8Exp k)
    (hg : (onGrid m e st (gr8Mag k).2).k = (gr8Mag k).1) : gr8Round c (.num neg m e st) =
    ⟨gr8Signed neg (if gr8Up c neg k (gr8Next k) (onGrid m e st (gr8Mag k).2) then gr8Next k else k), false, false⟩ := by
  obtain ⟨hM, hF, hq, hx13, hcode, htop⟩ := gr8_fields k hk h0
  have hlow : ¬gr8Exp k < -15 := by rw [gr8Exp]; omega
  have hhigh : ¬gr8Exp k ≥ 13 := fun h => h3 (htop (by omega))
  have hgrid : gr8Exp k - gr8F (gr8Exp k) = (gr8Mag k).2 := by rw [hF, gr8Exp]; omega
  unfold gr8Round
  simp only [hm.ne', false_and, if_false, hx, hlow, hhigh, hgrid, hg, hcode, decide_false, Bool.and_false]
  rw [gr8Next, if_neg h0]
  rfl

theorem gr8Round_top (hx : 13 ≤ ilog2 m e) : gr8Round c (.num neg m e st) =
    ⟨(if neg then 0x80 else 0) + 3,
      if (onGrid m e st 12).k = 3 ∧ (onGrid m e st 12).inexact = false then !c.inward neg
      else decide ((onGrid m e st 12).k ≥ 3) || ((onGrid m e st 12).inexact && roundsUp c neg true (onGrid m e st 12)), false⟩ := by
  unfold gr8Round
  simp only [hm.ne', false_and, if_false, hx, if_true, show ¬(ilog2 m e < -15) by omega, ge_iff_le]
  rfl

end

/-! ### A magnitude among the codes -/

/-- The grid of a code, on the scale 2^e0. -/
def gr8Cell (e0 : Int) (k : Nat) : Nat := gr8Step k * 2 ^ (-15 - e0).toNat

/-- The magnitude of a code, on the scale 2^e0. -/
def gr8MagAt (e0 : Int) (k : Nat) : Nat := gr8Units k * 2 ^ (-15 - e0).toNat

/-- A code's magnitude is a multiple of its grid. -/
theorem gr8MagAt_eq {e0 : Int} {k : Nat} : gr8MagAt e0 k = (if k = 0 then 0 else (gr8Mag k).1) * gr8Cell e0 k := by
  unfold gr8MagAt gr8Cell gr8Units gr8Step
  split
  · simp
  · ring

/-- The magnitude that a code stands for. -/
theorem gr8_place {e0 : Int} (h0 : e0 ≤ -15) {k : Nat} (hk : k < 128) :
    (match gr8Decode k with
      | .num _ j q _ => j * 2 ^ (q - e0).toNat
      | _ => 0) = gr8MagAt e0 k := by
  rw [gr8Decode_code k hk]
  dsimp only
  unfold gr8MagAt gr8Units
  split
  · simp
  · next hz =>
    obtain ⟨-, -, hq, -⟩ := gr8_fields k hk hz
    rw [mul_assoc, ← pow_add]
    congr 2
    omega

theorem gr8Cell_pos {e0 : Int} {k : Nat} : 0 < gr8Cell e0 k := by
  refine Nat.mul_pos ?_ (Nat.two_pow_pos _)
  unfold gr8Step
  split
  · decide
  · exact Nat.two_pow_pos _

section
variable {c : RoundCtl} {neg st : Bool} {m : Nat} {e e0 : Int} (hm : 0 < m) (h1 : e0 ≤ e - 1) (h0 : e0 ≤ -15) (hst : st = true → 2 ^ 25 ≤ m)
include hm h1 h0 hst

/-- In the cell of a code the model looks at the code and the next one. -/
theorem gr8Round_cell {k : Nat} (hk : k < 128) (h3 : k ≠ 3) (hlo : gr8MagAt e0 k ≤ scaledMag m e st e0)
    (hhi : scaledMag m e st e0 < gr8MagAt e0 k + gr8Cell e0 k) :
    let g := gridOf (scaledMag m e st e0) (gr8Cell e0 k)
    g.k = (if k = 0 then 0 else (gr8Mag k).1) ∧
      gr8Round c (.num neg m e st) = ⟨gr8Signed neg (if gr8Up c neg k (gr8Next k) g then gr8Next k else k), false, g.inexact && decide (k = 0)⟩ := by
  have hV : scaledMag m e st e0 ≠ 0 := Nat.mul_ne_zero (by omega) (Nat.two_pow_pos _).ne'
  have hlog := log2_scaledMag (st := st) hm h1
  have hm25 (h : st = true) : 25 ≤ m.log2 := (Nat.le_log2 hm.ne').mpr (hst h)
  have hgk : scaledMag m e st e0 / gr8Cell e0 k = if k = 0 then 0 else (gr8Mag k).1 := by
    rw [gr8MagAt_eq] at hlo hhi
    rw [Nat.div_eq_iff gr8Cell_pos]
    exact ⟨hlo, by omega⟩
  refine ⟨hgk, ?_⟩
  by_cases hz : k = 0
  · subst hz
    have hcell : gr8Cell e0 0 = 2 ^ (-15 - e0).toNat := Nat.one_mul _
    rw [show gr8MagAt e0 0 = 0 from Nat.zero_mul _, Nat.zero_add, hcell, ← Nat.log2_lt hV] at hhi
    have hx : ilog2 m e < -15 := by omega
    have hsticky : st = true → e + 17 ≤ -15 := fun h => by have := hm25 h; rw [ilog2] at hx; omega
    rw [gr8Round_below hm hx, onGrid_eq h1 h0 hsticky, hcell, decide_eq_true rfl, Bool.and_true]
    rfl
  · obtain ⟨F, d, hF, hq, hx, hge, hlt, hU, hS⟩ := gr8_binade hk hz
    have hcell : gr8Cell e0 k = 2 ^ ((gr8Mag k).2 - e0).toNat := by
      rw [gr8Cell, hS, ← pow_add]
      congr 1
      omega
    have hlogV : (scaledMag m e st e0).log2 = F + ((gr8Mag k).2 - e0).toNat := by
      rw [Nat.log2_eq_iff hV, pow_add, show F + ((gr8Mag k).2 - e0).toNat + 1 = F + 1 + ((gr8Mag k).2 - e0).toNat by omega, pow_add, ← hcell]
      rw [gr8MagAt_eq, if_neg hz] at hlo hhi
      refine ⟨le_trans (Nat.mul_le_mul_right _ hge) hlo, lt_of_lt_of_le hhi ?_⟩
      rw [← Nat.succ_mul]
      exact Nat.mul_le_mul_right _ hlt
    have hexp : ilog2 m e = gr8Exp k := by omega
    have hsticky : st = true → e + 17 ≤ (gr8Mag k).2 := fun h => by
      have := hm25 h
      have : F ≤ 5 := by
        rw [← hF]
        unfold gr8F
        split <;> (try split) <;> (try split) <;> decide
      rw [ilog2] at hexp
      omega
    have hgrid := onGrid_eq (m := m) h1 (show e0 ≤ (gr8Mag k).2 by omega) hsticky
    rw [← hcell] at hgrid
    have hgk' : (onGrid m e st (gr8Mag k).2).k = (gr8Mag k).1 := by
      rw [hgrid]
      exact hgk.trans (if_neg hz)
    rw [gr8Round_band hm hk hz h3 hexp hgk', hgrid, decide_eq_false hz, Bool.and_false]

/-- A magnitude that a code has, but the largest. -/
theorem gr8Round_exact {k : Nat} (hk : k < 128) (h3 : k ≠ 3) (hV : gr8MagAt e0 k = scaledMag m e st e0) :
    gr8Round c (.num neg m e st) = ⟨gr8Signed neg k, false, false⟩ := by
  obtain ⟨-, h⟩ := gr8Round_cell (c := c) (neg := neg) hm h1 h0 hst hk h3 hV.le (by have := @gr8Cell_pos e0 k; omega)
  have hin : (gridOf (scaledMag m e st e0) (gr8Cell e0 k)).inexact = false := by
    rw [← hV, gr8MagAt_eq]
    exact decide_eq_false (not_not.mpr (Nat.mul_mod_left _ _))
  rw [h, gr8Up, hin]
  rfl

end

/-- The upper one of two codes is taken as the rule says. -/
theorem gr8Up_eq {c : RoundCtl} {neg up : Bool} {lo hi V G j : Nat} (hj : V / G = j) (hin : V % G ≠ 0) (hG : 0 < G)
    (h : takesUpper c neg lo hi (j * G) (j * G + G) V = some up) : gr8Up c neg lo hi (gridOf V G) = up := by
  have hround := roundsUp_gridOf hj h
  have hi' : (gridOf V G).inexact = true := decide_eq_true hin
  rw [gr8Up, hi', Bool.true_and]
  split
  · next htie =>
    rw [takesUpper_grid hj] at h
    simp only [Bool.and_eq_true, beq_iff_eq] at htie
    obtain ⟨hc, heq⟩ := htie
    have h2 : 2 * (V % G) = G := by
      rw [half_gridOf] at heq
      split at heq
      · nomatch heq
      · split at heq
        · assumption
        · nomatch heq
    rw [takesUpper, hc] at h
    simp only [h2, Nat.zero_add, Nat.lt_irrefl, if_false] at h
    rcases Nat.mod_two_eq_zero_or_one lo with hl | hl <;> rcases Nat.mod_two_eq_zero_or_one hi with hh | hh <;> simp_all
  · next htie =>
    rw [← hround]
    unfold roundsUp
    split
    · next hc =>
      have hne : (gridOf V G).half ≠ .eq := by simpa [hc] using htie
      cases hh : (gridOf V G).half <;> simp_all
    all_goals rfl

section
variable {c : RoundCtl} {neg st : Bool} {m : Nat} {e e0 : Int} (hm : 0 < m) (h1 : e0 ≤ e - 1) (h0 : e0 ≤ -15) (hst : st = true → 2 ^ 25 ≤ m)
include hm h1 h0 hst

theorem gr8Round_between {lo hi : Nat} {up : Bool} (hlo : lo < 128) (hhi : hi < 128) (hVlo : gr8MagAt e0 lo < scaledMag m e st e0)
    (hVhi : scaledMag m e st e0 < gr8MagAt e0 hi) (hnone : ∀ k < 128, gr8MagAt e0 k ≤ gr8MagAt e0 lo ∨ gr8MagAt e0 hi ≤ gr8MagAt e0 k)
    (hup : takesUpper c neg lo hi (gr8MagAt e0 lo) (gr8MagAt e0 hi) (scaledMag m e st e0) = some up) :
    gr8Round c (.num neg m e st) = ⟨gr8Signed neg (if up then hi else lo), false, decide (scaledMag m e st e0 < gr8MagAt e0 1)⟩ := by
  have hT : 0 < 2 ^ (-15 - e0).toNat := Nat.two_pow_pos _
  have hunits {j k : Nat} : gr8MagAt e0 j ≤ gr8MagAt e0 k ↔ gr8Units j ≤ gr8Units k := Nat.mul_le_mul_right_iff hT
  have h3 : lo ≠ 3 := by
    rintro rfl
    have := hunits.mpr (gr8Units_le hi hhi)
    omega
  have hlt : gr8Units lo < gr8Units hi := by
    have := (@hunits hi lo).not.mp (by omega)
    omega
  obtain ⟨hn, hsum⟩ := gr8_next lo hlo h3
  have hsum' : gr8MagAt e0 (gr8Next lo) = gr8MagAt e0 lo + gr8Cell e0 lo := by
    rw [gr8MagAt, hsum, Nat.add_mul]
    rfl
  have hcell := @gr8Cell_pos e0 lo
  have hleast : gr8MagAt e0 hi ≤ gr8MagAt e0 (gr8Next lo) := (hnone _ hn).resolve_left (by omega)
  obtain rfl := eq_gr8Next hlo h3 hhi hlt (hunits.mp hleast)
  rw [hsum'] at hVhi hup
  obtain ⟨hgk, hround⟩ := gr8Round_cell (c := c) (neg := neg) hm h1 h0 hst hlo h3 hVlo.le hVhi
  have hmod : scaledMag m e st e0 % gr8Cell e0 lo ≠ 0 := by
    have hdm := Nat.div_add_mod' (scaledMag m e st e0) (gr8Cell e0 lo)
    rw [show scaledMag m e st e0 / gr8Cell e0 lo = _ from hgk, ← gr8MagAt_eq] at hdm
    omega
  rw [gr8MagAt_eq] at hup
  have hin : (gridOf (scaledMag m e st e0) (gr8Cell e0 lo)).inexact = true := decide_eq_true hmod
  rw [hround, gr8Up_eq hgk hmod hcell hup, hin, Bool.true_and]
  congr 1
  rw [decide_eq_decide]
  constructor
  · rintro rfl
    rw [show gr8MagAt e0 0 + gr8Cell e0 0 = gr8MagAt e0 1 from hsum'.symm] at hVhi
    exact hVhi
  · intro hsmall
    by_contra hz
    have : gr8MagAt e0 1 ≤ gr8MagAt e0 lo := (hunits.mpr (by
      have := gr8_above (lo := 0) (by decide) hlo (by
        obtain ⟨F, d, -, -, -, hge, -, hU, -⟩ := gr8_binade hlo hz
        rw [hU]
        exact Nat.mul_pos (lt_of_lt_of_le (Nat.two_pow_pos F) hge) (Nat.two_pow_pos d))
      exact this))
    omega

/-- From the largest code's magnitude, 2^13, on the grid has the spacing 2^12. -/
theorem gr8Round_large (hV : gr8MagAt e0 3 ≤ scaledMag m e st e0) : 13 ≤ ilog2 m e := by
  have hpos : scaledMag m e st e0 ≠ 0 := Nat.mul_ne_zero (by omega) (Nat.two_pow_pos _).ne'
  have hlog := log2_scaledMag (st := st) hm h1
  have h : 28 + (-15 - e0).toNat ≤ (scaledMag m e st e0).log2 := by
    rw [Nat.le_log2 hpos, pow_add]
    exact hV
  omega

omit hm h1 hst in
theorem gr8MagAt_three : gr8MagAt e0 3 = 2 * 2 ^ (12 - e0).toNat := by
  rw [gr8MagAt, show (12 - e0).toNat = 27 + (-15 - e0).toNat by omega, pow_add, ← mul_assoc]
  rfl

omit hm h1 hst in
theorem gr8MagAt_seven : gr8MagAt e0 7 = 2 ^ (12 - e0).toNat := by
  rw [gr8MagAt, show (12 - e0).toNat = 27 + (-15 - e0).toNat by omega, pow_add]
  rfl

/-- Up to the next point above the largest magnitude a sticky tail lies far below the grid. -/
theorem gr8_top_sticky (hhi : scaledMag m e st e0 ≤ 3 * 2 ^ (12 - e0).toNat) : st = true → e + 17 ≤ 12 := by
  intro h
  have hpos : scaledMag m e st e0 ≠ 0 := Nat.mul_ne_zero (by omega) (Nat.two_pow_pos _).ne'
  have hlog := log2_scaledMag (st := st) hm h1
  have hm25 := (Nat.le_log2 hm.ne').mpr (hst h)
  have hV : (scaledMag m e st e0).log2 < 2 + (12 - e0).toNat := by
    rw [Nat.log2_lt hpos, pow_add]
    have := Nat.two_pow_pos (12 - e0).toNat
    omega
  rw [ilog2] at hlog
  omega

/-- Between the largest magnitude and the next point of its grid. -/
theorem gr8Round_above {up : Bool} (hlo : gr8MagAt e0 3 < scaledMag m e st e0) (hhi : scaledMag m e st e0 < 3 * 2 ^ (12 - e0).toNat)
    (hup : takesUpper c neg 3 4 (gr8MagAt e0 3) (3 * 2 ^ (12 - e0).toNat) (scaledMag m e st e0) = some up) :
    gr8Round c (.num neg m e st) = ⟨(if neg then 0x80 else 0) + 3, up, false⟩ := by
  have hG := Nat.two_pow_pos (12 - e0).toNat
  have hgrid := onGrid_eq (m := m) h1 (show e0 ≤ 12 by omega) (gr8_top_sticky hm h1 h0 hst hhi.le)
  rw [gr8Round_top hm (gr8Round_large hm h1 h0 hst hlo.le), hgrid]
  rw [gr8MagAt_three h0] at hlo hup
  have hdiv : scaledMag m e st e0 / 2 ^ (12 - e0).toNat = 2 := by
    rw [Nat.div_eq_iff hG]
    omega
  have hmod : scaledMag m e st e0 % 2 ^ (12 - e0).toNat ≠ 0 := by
    have := Nat.div_add_mod' (scaledMag m e st e0) (2 ^ (12 - e0).toNat)
    rw [hdiv] at this
    omega
  rw [show 3 * 2 ^ (12 - e0).toNat = 2 * 2 ^ (12 - e0).toNat + 2 ^ (12 - e0).toNat by omega] at hup
  have hround := roundsUp_gridOf hdiv hup
  have hgk : (gridOf (scaledMag m e st e0) (2 ^ (12 - e0).toNat)).k = 2 := hdiv
  have hin : (gridOf (scaledMag m e st e0) (2 ^ (12 - e0).toNat)).inexact = true := decide_eq_true hmod
  rw [hgk, hin, show roundsUp c neg true _ = up from hround]
  simp

/-- The largest magnitude itself. -/
theorem gr8Round_largest (hV : gr8MagAt e0 3 = scaledMag m e st e0) : gr8Round c (.num neg m e st) = ⟨(if neg then 0x80 else 0) + 3, false, false⟩ := by
  have hG := Nat.two_pow_pos (12 - e0).toNat
  have hV' := hV
  rw [gr8MagAt_three h0] at hV'
  have hgrid := onGrid_eq (m := m) h1 (show e0 ≤ 12 by omega) (gr8_top_sticky hm h1 h0 hst (by omega))
  have hg : gridOf (scaledMag m e st e0) (2 ^ (12 - e0).toNat) = ⟨2, false, .lt, 0⟩ := by
    rw [← hV', gridOf, Nat.mul_div_cancel _ hG, Nat.mul_mod_left, Nat.mul_zero, Nat.zero_div]
    congr 1
    exact Nat.compare_eq_lt.mpr hG
  rw [gr8Round_top hm (gr8Round_large hm h1 h0 hst hV.le), hgrid, hg]
  rfl

/-- The next point of the grid: no overflow where it rounds toward zero (log 48). -/
theorem gr8Round_next (hV : scaledMag m e st e0 = 3 * 2 ^ (12 - e0).toNat) :
    gr8Round c (.num neg m e st) = ⟨(if neg then 0x80 else 0) + 3, !c.inward neg, false⟩ := by
  have hG := Nat.two_pow_pos (12 - e0).toNat
  have hgrid := onGrid_eq (m := m) h1 (show e0 ≤ 12 by omega) (gr8_top_sticky hm h1 h0 hst hV.le)
  have hgk : (gridOf (scaledMag m e st e0) (2 ^ (12 - e0).toNat)).k = 3 := by
    rw [hV]
    exact Nat.mul_div_cancel _ hG
  have hin : (gridOf (scaledMag m e st e0) (2 ^ (12 - e0).toNat)).inexact = false := by
    rw [hV]
    exact decide_eq_false (not_not.mpr (Nat.mul_mod_left _ _))
  have hlarge : 13 ≤ ilog2 m e := gr8Round_large hm h1 h0 hst (by rw [gr8MagAt_three h0]; omega)
  rw [gr8Round_top hm hlarge, hgrid]
  simp only [hgk, hin, and_self, if_true]

/-- Beyond it every result is an overflow. -/
theorem gr8Round_beyond (hV : 3 * 2 ^ (12 - e0).toNat < scaledMag m e st e0) :
    gr8Round c (.num neg m e st) = ⟨(if neg then 0x80 else 0) + 3, true, false⟩ := by
  have hG := Nat.two_pow_pos (12 - e0).toNat
  have hlarge : 13 ≤ ilog2 m e := gr8Round_large hm h1 h0 hst (by rw [gr8MagAt_three h0]; omega)
  have hover : 3 ≤ (onGrid m e st 12).k ∧ ¬((onGrid m e st 12).k = 3 ∧ (onGrid m e st 12).inexact = false) := by
    by_cases hsticky : st = true → e + 17 ≤ 12
    · rw [onGrid_eq h1 (show e0 ≤ 12 by omega) hsticky]
      refine ⟨(Nat.le_div_iff_mul_le hG).mpr hV.le, fun ⟨hk, hin⟩ => ?_⟩
      simp only [gridOf, decide_eq_false_iff_not, not_not] at hk hin
      have := Nat.div_add_mod' (scaledMag m e st e0) (2 ^ (12 - e0).toNat)
      rw [hk, hin] at this
      omega
    · obtain ⟨rfl, he⟩ : st = true ∧ ¬e + 17 ≤ 12 := by simpa using hsticky
      refine ⟨le_trans (by decide) (onGrid_ge (n := 9) (by omega) (hst rfl)), fun ⟨_, hin⟩ => ?_⟩
      rw [onGrid_sticky_inexact] at hin
      nomatch hin
  rw [gr8Round_top hm hlarge]
  simp only [hover.2, if_false, ge_iff_le, hover.1, decide_true, Bool.true_or]

end

end Sys2Proof.Machine
end

section
/-! Microscaling blocks: magnitudes, the shared scale and the elements (R43 to R47). -/

namespace Sys2Proof.Machine

/-! ### Magnitudes as rationals -/

/-- m · 2^e as a rational number. -/
def magRat (m : Nat) (e : Int) : ℚ := m * (2 : ℚ) ^ e

theorem magRat_scale {m : Nat} {e e0 : Int} (h : e0 ≤ e) : magRat m e = ((m <<< (e - e0).toNat : Nat) : ℚ) * (2 : ℚ) ^ e0 := by
  rw [magRat, Nat.shiftLeft_eq, Nat.cast_mul, Nat.cast_pow, mul_assoc, Nat.cast_ofNat, ← zpow_natCast, ← zpow_add₀ (by norm_num)]
  congr 2
  omega

theorem magRat_pos {m : Nat} {e : Int} : 0 < magRat m e ↔ 0 < m := by
  rw [magRat, mul_pos_iff_of_pos_right (by positivity), Nat.cast_pos]

theorem magRat_add (m : Nat) (e k : Int) : magRat m (e + k) = magRat m e * (2 : ℚ) ^ k := by
  rw [magRat, magRat, zpow_add₀ (by norm_num), mul_assoc]

theorem scale_lt {a b : Nat} {e0 : Int} : (a : ℚ) * (2 : ℚ) ^ e0 < (b : ℚ) * (2 : ℚ) ^ e0 ↔ a < b := by
  rw [mul_lt_mul_iff_left₀ (by positivity), Nat.cast_lt]

theorem cmpNum_lt {ma mb : Nat} {ea eb : Int} : cmpNum false ma ea false mb eb = .lt ↔ magRat ma ea < magRat mb eb := by
  rw [magRat_scale (min_le_left ea eb), magRat_scale (min_le_right ea eb), scale_lt, cmpNum]
  simp only [scaleTo, Bool.false_eq_true, if_false, compare_lt_iff_lt, Nat.cast_lt]

theorem cmpNum_gt {ma mb : Nat} {ea eb : Int} : cmpNum false ma ea false mb eb = .gt ↔ magRat mb eb < magRat ma ea := by
  rw [magRat_scale (min_le_left ea eb), magRat_scale (min_le_right ea eb), scale_lt, cmpNum]
  simp only [scaleTo, Bool.false_eq_true, if_false, compare_gt_iff_gt, gt_iff_lt, Nat.cast_lt]

theorem ilog2_eq_log {m : Nat} {e : Int} (hm : 0 < m) : ilog2 m e = Int.log 2 (magRat m e) := by
  have hpos := (magRat_pos (e := e)).mpr hm
  have hcast (n : Nat) (k : Int) : ((2 ^ n : Nat) : ℚ) * (2 : ℚ) ^ k = (2 : ℚ) ^ ((n : Int) + k) := by
    rw [zpow_add₀ (by norm_num), zpow_natCast, Nat.cast_pow, Nat.cast_ofNat]
  have hlo : ((2 : Nat) : ℚ) ^ ilog2 m e ≤ magRat m e := by
    rw [Nat.cast_ofNat, ilog2, ← hcast, magRat]
    exact mul_le_mul_of_nonneg_right (Nat.cast_le.mpr (Nat.log2_self_le hm.ne')) (by positivity)
  have hhi : magRat m e < ((2 : Nat) : ℚ) ^ (ilog2 m e + 1) := by
    rw [Nat.cast_ofNat, ilog2, show (m.log2 : Int) + e + 1 = ((m.log2 + 1 : Nat) : Int) + e by omega, ← hcast, magRat]
    exact mul_lt_mul_of_pos_right (Nat.cast_lt.mpr Nat.lt_log2_self) (by positivity)
  have := (Int.zpow_le_iff_le_log (by decide) hpos).mp hlo
  have := (Int.lt_zpow_iff_log_lt (by decide) hpos).mp hhi
  omega

/-! ### The largest magnitude -/

theorem maxMag_snoc_nan (vs : List Val) (q : Bool) : maxMag (vs ++ [.nan q]) = maxMag vs := by
  rw [maxMag, List.foldl_append]
  rfl

theorem maxMag_snoc_inf (vs : List Val) (n : Bool) : maxMag (vs ++ [.inf n]) = maxMag vs := by
  rw [maxMag, List.foldl_append]
  rfl

theorem maxMag_snoc_num (vs : List Val) (n st : Bool) (m : Nat) (e : Int) : maxMag (vs ++ [.num n m e st]) =
    if magRat (maxMag vs).1 (maxMag vs).2 < magRat m e then (m, e) else maxMag vs := by
  have h : maxMag (vs ++ [.num n m e st]) = if magLt (maxMag vs).1 (maxMag vs).2 m e then (m, e) else maxMag vs := by
    rw [maxMag, List.foldl_append]
    rfl
  simp only [h, magLt, beq_iff_eq, cmpNum_lt]

/-- The largest magnitude is that of a value of the list, or zero. -/
theorem maxMag_mem (vs : List Val) : maxMag vs = (0, 0) ∨ ∃ n st, .num n (maxMag vs).1 (maxMag vs).2 st ∈ vs := by
  induction vs using List.reverseRecOn with
  | nil => exact .inl rfl
  | append_singleton vs v ih =>
    have hkeep (h : maxMag (vs ++ [v]) = maxMag vs) :
        maxMag (vs ++ [v]) = (0, 0) ∨ ∃ n st, .num n (maxMag (vs ++ [v])).1 (maxMag (vs ++ [v])).2 st ∈ vs ++ [v] := by
      rw [h]
      exact ih.imp_right fun ⟨n, st, hmem⟩ => ⟨n, st, List.mem_append_left _ hmem⟩
    cases v with
    | nan q => exact hkeep (maxMag_snoc_nan vs q)
    | inf n => exact hkeep (maxMag_snoc_inf vs n)
    | num n m e st =>
      have h := maxMag_snoc_num vs n st m e
      split at h
      · rw [h]
        exact .inr ⟨n, st, List.mem_append_right _ (List.mem_singleton.mpr rfl)⟩
      · exact hkeep h

/-- No value of the list is larger. -/
theorem maxMag_ge {vs : List Val} {n st : Bool} {m : Nat} {e : Int} (h : Val.num n m e st ∈ vs) :
    magRat m e ≤ magRat (maxMag vs).1 (maxMag vs).2 := by
  induction vs using List.reverseRecOn with
  | nil => nomatch h
  | append_singleton vs v ih =>
    have hgrow : magRat (maxMag vs).1 (maxMag vs).2 ≤ magRat (maxMag (vs ++ [v])).1 (maxMag (vs ++ [v])).2 := by
      cases v with
      | nan q => rw [maxMag_snoc_nan]
      | inf n => rw [maxMag_snoc_inf]
      | num n m e st =>
        rw [maxMag_snoc_num]
        split
        · next hlt => exact hlt.le
        · exact le_rfl
    rcases List.mem_append.mp h with hmem | hmem
    · exact le_trans (ih hmem) hgrow
    · obtain rfl := List.mem_singleton.mp hmem
      rw [maxMag_snoc_num]
      split
      · exact le_rfl
      · next hlt => exact not_lt.mp hlt

/-- Where a magnitude of the list bounds all, the largest one is its equal. -/
theorem maxMag_eq {vs : List Val} {n st : Bool} {mx : Nat} {ex : Int} (hmx : 0 < mx) (hmem : .num n mx ex st ∈ vs)
    (hall : ∀ v ∈ vs, ∃ n m e, v = .num n m e false ∧ cmpNum false m e false mx ex ≠ .gt) :
    magRat (maxMag vs).1 (maxMag vs).2 = magRat mx ex := by
  have hge := maxMag_ge hmem
  rcases maxMag_mem vs with h | ⟨n', st', h⟩
  · have := (magRat_pos (e := ex)).mpr hmx
    rw [h, show magRat 0 0 = 0 by simp [magRat]] at hge
    exact absurd hge (not_le.mpr this)
  · obtain ⟨n'', m, e, hv, hle⟩ := hall _ h
    injection hv with _ hm he _
    rw [← hm, ← he, Ne, cmpNum_gt, not_lt] at hle
    exact le_antisymm hle hge

/-! ### The shared scale -/

/-- The floor rule (R47). -/
theorem floorScale_eq {m mx : Nat} {e ex s : Int} (hm : 0 < m) (hx : magRat m e = magRat mx ex) (hlo : cmpNum false 1 s false mx ex ≠ .gt)
    (hhi : cmpNum false mx ex false 1 (s + 1) = .lt) : ilog2 m e = s := by
  have hpos := (magRat_pos (e := e)).mpr hm
  have hone (k : Int) : magRat 1 k = ((2 : Nat) : ℚ) ^ k := by simp [magRat]
  rw [Ne, cmpNum_gt, not_lt, hone, ← hx, Int.zpow_le_iff_le_log (by decide) hpos] at hlo
  rw [cmpNum_lt, hone, ← hx, Int.lt_zpow_iff_log_lt (by decide) hpos] at hhi
  rw [ilog2_eq_log hm]
  omega

theorem zpow_scale_lt {l : ℚ} (hl : 0 < l) {a b : Int} (h : l * (2 : ℚ) ^ a < l * (2 : ℚ) ^ b) : a < b :=
  (zpow_lt_zpow_iff_right₀ (by norm_num)).mp (lt_of_mul_lt_mul_left h hl.le)

/-- The ceil rule's scale is the least under which the magnitude is no larger than the largest element. -/
theorem ceilLog2Ratio_eq {m ml : Nat} {e el s : Int} (hm : 0 < m) (hml : 0 < ml) (hlo : magRat m e ≤ magRat ml el * (2 : ℚ) ^ s)
    (hhi : magRat ml el * (2 : ℚ) ^ (s - 1) < magRat m e) : ceilLog2Ratio m e ml el = s := by
  have hpos := (magRat_pos (e := e)).mpr hm
  have hposl := (magRat_pos (e := el)).mpr hml
  obtain ⟨x, hx⟩ : ∃ x, ilog2 m e = x := ⟨_, rfl⟩
  obtain ⟨y, hy⟩ : ∃ y, ilog2 ml el = y := ⟨_, rfl⟩
  have hxlog := ilog2_eq_log (e := e) hm
  have hylog := ilog2_eq_log (e := el) hml
  rw [hx] at hxlog
  rw [hy] at hylog
  have hx1 : (2 : ℚ) ^ x ≤ magRat m e := by exact_mod_cast (Int.zpow_le_iff_le_log (b := 2) (by decide) hpos).mpr hxlog.le
  have hx2 : magRat m e < (2 : ℚ) ^ (x + 1) := by exact_mod_cast (Int.lt_zpow_iff_log_lt (b := 2) (by decide) hpos).mpr (by omega)
  have hy1 : (2 : ℚ) ^ y ≤ magRat ml el := by exact_mod_cast (Int.zpow_le_iff_le_log (b := 2) (by decide) hposl).mpr hylog.le
  have hy2 : magRat ml el < (2 : ℚ) ^ (y + 1) := by exact_mod_cast (Int.lt_zpow_iff_log_lt (b := 2) (by decide) hposl).mpr (by omega)
  have hbelow : magRat ml el * (2 : ℚ) ^ (x - y - 1) < magRat m e := by
    calc magRat ml el * (2 : ℚ) ^ (x - y - 1) < (2 : ℚ) ^ (y + 1) * (2 : ℚ) ^ (x - y - 1) := mul_lt_mul_of_pos_right hy2 (by positivity)
      _ = (2 : ℚ) ^ x := by rw [← zpow_add₀ (by norm_num)]; congr 1; ring
      _ ≤ magRat m e := hx1
  have habove : magRat m e < magRat ml el * (2 : ℚ) ^ (x - y + 1) := by
    calc magRat m e < (2 : ℚ) ^ (x + 1) := hx2
      _ = (2 : ℚ) ^ y * (2 : ℚ) ^ (x - y + 1) := by rw [← zpow_add₀ (by norm_num)]; congr 1; ring
      _ ≤ magRat ml el * (2 : ℚ) ^ (x - y + 1) := mul_le_mul_of_nonneg_right hy1 (by positivity)
  have h1 := zpow_scale_lt hposl (lt_of_lt_of_le hbelow hlo)
  have h2 := zpow_scale_lt hposl (lt_trans hhi habove)
  unfold ceilLog2Ratio
  simp only [hx, hy, bne_iff_ne, Ne, cmpNum_gt, not_lt, magRat_add]
  rw [if_neg (not_le.mpr hbelow)]
  split
  · next h =>
    have := zpow_scale_lt hposl (lt_of_lt_of_le hhi h)
    omega
  · next h =>
    have := zpow_scale_lt hposl (lt_of_lt_of_le (not_le.mp h) hlo)
    omega

/-! ### The elements of a block -/

/-- Element bytes put side by side. -/
theorem sum_shifted {b : Nat} (cs : List Nat) (n : Nat) :
    ((cs.zipIdx n).map fun x => x.1 <<< (b * x.2)).sum = 2 ^ (b * n) * Nat.ofDigits (2 ^ b) cs := by
  induction cs generalizing n with
  | nil => simp
  | cons c cs ih =>
    rw [List.zipIdx_cons, List.map_cons, List.sum_cons, ih, Nat.ofDigits_cons, Nat.shiftLeft_eq, Nat.mul_add b, Nat.mul_one, pow_add]
    push_cast
    ring

/-- Each element of a block reads as it was put. -/
theorem blockElem_shifted {f : Fmt} {cs : List Nat} (hlt : ∀ c ∈ cs, c < 2 ^ f.bits) {i c : Nat} (hc : cs[i]? = some c) :
    blockElem f ((cs.zipIdx.map fun (c, i) => c <<< (f.bits * i)).foldl (· + ·) 0) i = c := by
  have hsum : (cs.zipIdx.map fun (c, i) => c <<< (f.bits * i)).foldl (· + ·) 0 = Nat.ofDigits (2 ^ f.bits) cs := by
    rw [← List.sum_eq_foldl]
    exact (sum_shifted cs 0).trans (by simp)
  obtain ⟨hi, rfl⟩ := List.getElem?_eq_some_iff.mp hc
  rw [hsum, blockElem, Nat.shiftRight_eq_div_pow, pow_mul, Nat.ofDigits_div_pow_eq_ofDigits_drop i (Nat.two_pow_pos _) cs hlt,
    List.drop_eq_getElem_cons hi, Nat.ofDigits_cons]
  simp [Nat.mod_eq_of_lt (hlt _ (List.getElem_mem hi))]

end Sys2Proof.Machine
end

section
/-! Converting a block: the codes of its elements, its scale, and what each element reads (R44 to R47). -/

namespace Sys2Proof.Machine

section
variable {s : Float} {w f top : Nat} {bias : Int} (hs : s.Fits w f bias top)
include hs

/-- An overflow of a block's element is Max. -/
theorem Float.Fits.overflow_element {neg dir : Bool} {c : RoundCtl} : (s.overflow true c neg dir).code = (if neg then 2 ^ w else 0) + top := by
  rw [hs.overflow_eq.1 (.inl rfl)]

/-- On the grid of a code a block's element gets a code up to Max's. -/
theorem Float.Fits.roundGrid_code_le {neg tiny : Bool} {c : RoundCtl} {k : Nat} {g : OnGrid} (hg : g.k = codeSig f k) (hk : k ≤ top) :
    (s.roundGrid true c neg (codeExp f bias k) g tiny).code ≤ (if neg then 2 ^ w else 0) + top := by
  rw [← hs.signWeight]
  cases hup : g.inexact && roundsUp c neg (g.k % 2 == 1) g with
  | false =>
    rw [hs.roundGrid_down hg hk hup]
    exact Nat.add_le_add_left hk _
  | true =>
    rcases hk.lt_or_eq with hlt | rfl
    · rw [hs.roundGrid_up hg hlt hup]
      exact Nat.add_le_add_left hlt _
    · rw [← hs.qmax, Float.roundGrid_over, hs.overflow_element, hs.signWeight]
      · rw [if_pos hup, hg, hs.kmax]
        exact Nat.lt_succ_self _
      · rw [(Bool.and_eq_true_iff.mp hup).1]
        simp

theorem Float.Fits.round_element_lt {neg : Bool} {c : RoundCtl} {m : Nat} {e : Int} : (s.round true c (.num neg m e false)).code < 2 ^ (w + 1) := by
  have htop := hs.top_lt
  have hle : (s.round true c (.num neg m e false)).code ≤ (if neg then 2 ^ w else 0) + top := by
    rcases Nat.eq_zero_or_pos m with rfl | hm
    · rw [hs.round_zero]
      exact Nat.le_add_right _ _
    · obtain ⟨e0, h1, h0⟩ : ∃ e0 : Int, e0 ≤ e - 1 ∧ e0 ≤ 1 - bias - f := ⟨min (e - 1) (1 - bias - f), min_le_left _ _, min_le_right _ _⟩
      have hst : false = true → 2 ^ (f + 20) ≤ m := nofun
      have hV : scaledMag m e false e0 ≠ 0 := Nat.mul_ne_zero (by omega) (Nat.two_pow_pos _).ne'
      rcases Nat.lt_trichotomy (scaledMag m e false e0) ((s.kmax + 1) * 2 ^ (s.qmax - e0).toNat) with hlt | heq | hgt
      · obtain ⟨k, hk, hlo, hhi⟩ : ∃ k ≤ top, codeMag f bias e0 k ≤ scaledMag m e false e0 ∧
            scaledMag m e false e0 < codeMag f bias e0 k + 2 ^ (codeExp f bias k - e0).toNat := by
          have hzero : codeMag f bias e0 0 ≤ scaledMag m e false e0 := by simp [codeMag, codeSig]
          refine ⟨Nat.findGreatest (fun k => codeMag f bias e0 k ≤ scaledMag m e false e0) top, Nat.findGreatest_le top,
            Nat.findGreatest_spec (P := fun k => codeMag f bias e0 k ≤ scaledMag m e false e0) (Nat.zero_le top) hzero, ?_⟩
          rcases (Nat.findGreatest_le (P := fun k => codeMag f bias e0 k ≤ scaledMag m e false e0) top).lt_or_eq with hk | hk
          · rw [← codeMag_succ h0]
            exact not_le.mp (Nat.findGreatest_is_greatest (P := fun k => codeMag f bias e0 k ≤ scaledMag m e false e0) (Nat.lt_succ_self _) hk)
          · rw [hk]
            rw [hs.kmax, hs.qmax, Nat.add_mul, Nat.one_mul] at hlt
            exact hlt
        rw [hs.round_cell hm h1 h0 hst hk hlo hhi]
        exact hs.roundGrid_code_le (grid_of_cell h0 hV hlo hhi).2.1 hk
      · rw [hs.round_next hm h1 h0 hst heq]
        split
        · exact le_rfl
        · exact hs.overflow_element.le
      · rw [hs.round_beyond hm h1 h0 hst hgt]
        exact hs.overflow_element.le
  rw [pow_succ]
  refine lt_of_le_of_lt hle ?_
  split <;> omega

end

/-! ### Conversion of a block -/

/-- The bits of a block's element hold its sign and its magnitude's code. -/
theorem Fmt.float_fits {f : Fmt} (h : f ∈ [Fmt.mxfp8e4, .mxfp8e5, .mxfp6e2, .mxfp6e3, .mxfp4]) :
    ∃ w b top : Nat, ∃ bias : Int, f.float.Fits w b bias top ∧ f.bits = w + 1 := by
  simp only [List.mem_cons, List.not_mem_nil, or_false] at h
  rcases h with rfl | rfl | rfl | rfl | rfl
  · exact ⟨7, 3, 0x7E, 7, Float.fits_of_mem (s := .e4m3) (by simp), rfl⟩
  · exact ⟨7, 2, 0x7B, 15, Float.fits_of_mem (s := .e5m2) (by simp), rfl⟩
  · exact ⟨5, 3, 0x1F, 1, Float.fits_of_mem (s := .e2m3) (by simp), rfl⟩
  · exact ⟨5, 2, 0x1F, 3, Float.fits_of_mem (s := .e3m2) (by simp), rfl⟩
  · exact ⟨3, 1, 0x7, 1, Float.fits_of_mem (s := .e2m1) (by simp), rfl⟩

theorem mxElem_float {f : Fmt} (h : f ∈ [Fmt.mxfp8e4, .mxfp8e5, .mxfp6e2, .mxfp6e3, .mxfp4]) (c : RoundCtl) (s : Int) (n : Bool) (m : Nat) (e : Int) :
    mxElem f c s (.num n m e false) =
      if (f.float.round true c (.num n m (e - s) false)).code = f.float.signWeight then 0 else (f.float.round true c (.num n m (e - s) false)).code := by
  simp only [List.mem_cons, List.not_mem_nil, or_false] at h
  rcases h with rfl | rfl | rfl | rfl | rfl <;> rfl

theorem mxElem_int8 (c : RoundCtl) (s : Int) (n : Bool) (m : Nat) (e : Int) :
    mxElem .mxint8 c s (.num n m e false) = (Fmt.i8.convert c (.num n m (e - s + 6) false)).code := by
  rw [(Fmt.convert_integer (f := .i8) (n := 8) (lo := -128) (hi := 127) (by simp)).2.2]
  unfold mxElem codeOfInt
  dsimp only
  congr 2
  split
  · omega
  · split <;> omega

theorem mxElem_lt {f : Fmt} (h : f ∈ [Fmt.mxfp8e4, .mxfp8e5, .mxfp6e2, .mxfp6e3, .mxfp4, .mxint8]) (c : RoundCtl) (s : Int) (n : Bool) (m : Nat)
    (e : Int) : mxElem f c s (.num n m e false) < 2 ^ f.bits := by
  by_cases hf : f = .mxint8
  · subst hf
    rw [mxElem_int8, (Fmt.convert_integer (f := .i8) (n := 8) (lo := -128) (hi := 127) (by simp)).2.2]
    dsimp only
    rw [show Fmt.mxint8.bits = 8 from rfl]
    omega
  · have hmem : f ∈ [Fmt.mxfp8e4, .mxfp8e5, .mxfp6e2, .mxfp6e3, .mxfp4] := by simpa [hf] using h
    obtain ⟨w, b, top, bias, hs, hbits⟩ := Fmt.float_fits hmem
    rw [mxElem_float hmem, hbits]
    split
    · exact Nat.two_pow_pos _
    · exact hs.round_element_lt

section
variable {f : Fmt} {ceil : Bool} {cs : List RoundCtl} {vs : List Val}

theorem mxConvert_nan (h : ∃ v ∈ vs, v.isNan = true) : mxConvert f ceil cs vs = ⟨0, 0xFF, false, false⟩ := by
  rw [mxConvert, if_pos (List.any_eq_true.mpr h)]

theorem mxConvert_inf (hnan : ∀ v ∈ vs, v.isNan = false) (h : ∃ v ∈ vs, v.isInf = true) : mxConvert f ceil cs vs = ⟨0, 0xFF, true, false⟩ := by
  rw [mxConvert, if_neg (by simpa using hnan), if_pos (List.any_eq_true.mpr h)]

/-- The values are all finite. -/
def finiteAll (vs : List Val) : Prop := ∀ v ∈ vs, ∃ n m e, v = .num n m e false

theorem mxConvert_zero (hfin : finiteAll vs) (hx : (maxMag vs).1 = 0) : mxConvert f ceil cs vs = ⟨0, 0, false, false⟩ := by
  rw [mxConvert, if_neg, if_neg, if_pos hx]
  · simp only [List.any_eq_true, not_exists, not_and]
    intro v hv
    obtain ⟨n, m, e, rfl⟩ := hfin v hv
    simp [Val.isInf]
  · simp only [List.any_eq_true, not_exists, not_and]
    intro v hv
    obtain ⟨n, m, e, rfl⟩ := hfin v hv
    simp [Val.isNan]

theorem mxConvert_num (hfin : finiteAll vs) (hx : (maxMag vs).1 ≠ 0) {s0 : Int}
    (hs0 : (if ceil then ceilLog2Ratio (maxMag vs).1 (maxMag vs).2 f.largest.1 f.largest.2 else ilog2 (maxMag vs).1 (maxMag vs).2 - f.emax) = s0) :
    mxConvert f ceil cs vs =
      ⟨((List.zipWith (fun c v => mxElem f c (max (-127) (min 127 s0)) v) cs vs).zipIdx.map fun (c, i) => c <<< (f.bits * i)).foldl (· + ·) 0,
        (max (-127) (min 127 s0) + 127).toNat, false, max (-127) (min 127 s0) != s0⟩ := by
  rw [mxConvert, if_neg, if_neg, if_neg hx]
  · simp only [hs0]
  · simp only [List.any_eq_true, not_exists, not_and]
    intro v hv
    obtain ⟨n, m, e, rfl⟩ := hfin v hv
    simp [Val.isInf]
  · simp only [List.any_eq_true, not_exists, not_and]
    intro v hv
    obtain ⟨n, m, e, rfl⟩ := hfin v hv
    simp [Val.isNan]

/-- Every element of a converted block is that of its value. -/
theorem mxConvert_elem (hf : f ∈ [Fmt.mxfp8e4, .mxfp8e5, .mxfp6e2, .mxfp6e3, .mxfp4, .mxint8]) (hfin : finiteAll vs) {s : Int} {i : Nat} {c : RoundCtl}
    {v : Val} (hc : cs[i]? = some c) (hv : vs[i]? = some v) :
    blockElem f (((List.zipWith (fun c v => mxElem f c s v) cs vs).zipIdx.map fun (c, i) => c <<< (f.bits * i)).foldl (· + ·) 0) i = mxElem f c s v := by
  refine blockElem_shifted (fun x hx => ?_) (by rw [List.getElem?_zipWith, hc, hv])
  obtain ⟨c', v', hmem, rfl⟩ : ∃ c' v', v' ∈ vs ∧ x = mxElem f c' s v' := by
    obtain ⟨j, hj⟩ := List.mem_iff_getElem?.mp hx
    rw [List.getElem?_zipWith] at hj
    split at hj
    · next hvj => exact ⟨_, _, List.mem_of_getElem? hvj, (Option.some.inj hj).symm⟩
    · nomatch hj
  obtain ⟨n, m, e, rfl⟩ := hfin v' hmem
  exact mxElem_lt hf c' s n m e

end

/-- The formats of the statement: the exponent of their largest element, and its magnitude. -/
theorem Fmt.mx_of_mem {f : Fmt} {emax : Int} {L : Nat × Int} (h : (f, emax, L) ∈ [(Fmt.mxfp8e4, 8, (7, 6)), (.mxfp8e5, 15, (7, 13)),
    (.mxfp6e2, 2, (15, -1)), (.mxfp6e3, 4, (7, 2)), (.mxfp4, 2, (3, 1)), (.mxint8, 0, (127, -6))]) :
    f ∈ [Fmt.mxfp8e4, .mxfp8e5, .mxfp6e2, .mxfp6e3, .mxfp4, .mxint8] ∧ f.emax = emax ∧ 0 < f.largest.1 ∧
      magRat f.largest.1 f.largest.2 = magRat L.1 L.2 := by
  simp only [List.mem_cons, Prod.mk.injEq, List.not_mem_nil, or_false] at h
  rcases h with ⟨rfl, rfl, rfl⟩ | ⟨rfl, rfl, rfl⟩ | ⟨rfl, rfl, rfl⟩ | ⟨rfl, rfl, rfl⟩ | ⟨rfl, rfl, rfl⟩ | ⟨rfl, rfl, rfl⟩
  · exact ⟨by simp, rfl, by decide, by norm_num [magRat, show Fmt.mxfp8e4.largest = (14, 5) from rfl]⟩
  all_goals exact ⟨by simp, rfl, by decide, rfl⟩

/-- The scale that the rule of the block names (R47). -/
theorem mxScale_eq {f : Fmt} {ceil : Bool} {L : Nat × Int} {m mx : Nat} {e ex s0 : Int} (hl : 0 < f.largest.1)
    (hL : magRat f.largest.1 f.largest.2 = magRat L.1 L.2) (hm : 0 < m) (hx : magRat m e = magRat mx ex)
    (hfloor : ceil = false → cmpNum false 1 (s0 + f.emax) false mx ex ≠ .gt ∧ cmpNum false mx ex false 1 (s0 + f.emax + 1) = .lt)
    (hceil : ceil = true → cmpNum false mx ex false L.1 (L.2 + s0) ≠ .gt ∧ cmpNum false L.1 (L.2 + s0 - 1) false mx ex = .lt) :
    (if ceil then ceilLog2Ratio m e f.largest.1 f.largest.2 else ilog2 m e - f.emax) = s0 := by
  cases ceil with
  | false =>
    obtain ⟨hlo, hhi⟩ := hfloor rfl
    rw [if_neg Bool.false_ne_true, floorScale_eq hm hx hlo hhi]
    omega
  | true =>
    obtain ⟨hlo, hhi⟩ := hceil rfl
    rw [Ne, cmpNum_gt, not_lt, magRat_add, ← hL, ← hx] at hlo
    rw [cmpNum_lt, show L.2 + s0 - 1 = L.2 + (s0 - 1) by omega, magRat_add, ← hL, ← hx] at hhi
    exact ceilLog2Ratio_eq hm hl hlo hhi

end Sys2Proof.Machine
end

section
/-! Rounding, conversion and draws (O35). -/

namespace Sys2Proof.Machine

/-- Settles O35: a magnitude lies in the cell of a code or beyond the largest, and there the grid and the rule decide. -/
theorem roundingResults : Obligations.RoundingResults := by
  unfold Obligations.RoundingResults
  refine ⟨?_, ?_, ?_, ?_, ?_, ?_, ?_, ?_⟩
  · intro s w f bias top hmem
    have hs := Float.fits_of_mem hmem
    refine ⟨fun neg k hk => hs.decode_code hk, fun hw neg => ⟨fun hne => hs.decode_inf hw hne, fun k hk hlt => hs.decode_nan hw hk hlt⟩,
      fun el c neg e => hs.round_zero, fun hw el c q => hs.round_nan hw,
      fun hw c neg => ⟨fun hne => hs.round_inf hw hne, fun he => ?_⟩, ?_⟩
    · rw [hs.round_inf_e4m3 he]
      exact hs.overflow_eq
    intro el c neg m e st _ hm hst e0 V P next r
    have h1 : e0 ≤ e - 1 := min_le_left _ _
    have h0 : e0 ≤ 1 - bias - f := min_le_right _ _
    have hnext : next = (s.kmax + 1) * 2 ^ (s.qmax - e0).toNat := hs.next_eq h0
    refine ⟨fun k hk hV => hs.round_exact hm h1 h0 hst hk hV, fun k up hk hlo hhi hup => hs.round_between hm h1 h0 hst hk hlo hhi hup,
      fun up hlo hhi hup => ?_, fun hV => ?_, fun hV => ?_⟩
    · have h := hs.round_above (el := el) hm h1 h0 hst hlo (hnext ▸ hhi) (hnext ▸ hup)
      exact ⟨fun hd => by subst hd; exact h, fun hu => by subst hu; rw [show r = _ from h]; exact hs.overflow_eq⟩
    · have h := hs.round_next (el := el) (c := c) (neg := neg) hm h1 h0 hst (hV.trans hnext)
      exact ⟨fun hi => by rw [show r = _ from h, if_pos hi], fun hi => by rw [show r = _ from h, if_neg hi]; exact hs.overflow_eq⟩
    · rw [show r = _ from hs.round_beyond hm h1 h0 hst (hnext ▸ hV)]
      exact hs.overflow_eq
  · refine ⟨fun k x F hb neg j hj => gr8Decode_bands _ hb neg j hj, rfl, rfl, fun c q neg e => ⟨rfl, rfl, rfl⟩, ?_⟩
    intro c neg m e st _ hm hst e0 V P next r
    have h1 : e0 ≤ e - 1 := min_le_left _ _
    have h0 : e0 ≤ -15 := min_le_right _ _
    have hP (k : Nat) (hk : k ≤ 127) : P k = gr8MagAt e0 k := gr8_place h0 (by omega)
    have hnext : next = 3 * 2 ^ (12 - e0).toNat := by
      have h3 := gr8MagAt_three h0
      have h7 := gr8MagAt_seven h0
      rw [← hP 3 (by decide)] at h3
      rw [← hP 7 (by decide)] at h7
      omega
    refine ⟨fun k hk hV => ?_, fun lo hi up hlo hhi hVlo hVhi hnone hup => ?_, fun up hlo hhi hup => ?_, fun hV => ?_, fun hV => ?_⟩
    · rw [hP k hk] at hV
      by_cases h3 : k = 3
      · subst h3
        exact gr8Round_largest hm h1 h0 hst hV
      · exact gr8Round_exact hm h1 h0 hst (by omega) h3 hV
    · rw [hP lo hlo] at hVlo hup
      rw [hP hi hhi] at hVhi hup
      rw [hP 1 (by decide)]
      refine gr8Round_between hm h1 h0 hst (by omega) (by omega) hVlo hVhi (fun k hk => ?_) hup
      have := hnone k (by omega)
      rwa [hP lo hlo, hP hi hhi, hP k (by omega)] at this
    · rw [hP 3 (by decide)] at hlo hup
      exact gr8Round_above hm h1 h0 hst hlo (hnext ▸ hhi) (hnext ▸ hup)
    · have h : r = _ := gr8Round_next (c := c) hm h1 h0 hst (hV.trans hnext)
      exact ⟨fun hi => by rw [h, hi]; rfl, fun hi => by rw [h, Bool.eq_false_iff.mpr hi]; rfl⟩
    · exact gr8Round_beyond hm h1 h0 hst (hnext ▸ hV)
  · intro f n lo hi hmem word c _
    obtain ⟨hnan, hinf, hnum⟩ := Fmt.convert_integer hmem (c := c)
    refine ⟨hnan, hinf, ?_⟩
    intro neg m e st a hst e0 V U k z h
    have hz : roundToInt c neg m e st = z := roundToInt_eq hst h
    rw [hnum, hz]
  · exact fun c v => ⟨rfl, rfl, rfl, rfl, rfl, rfl⟩
  · exact Converted.flags_bits
  · intro f emax L ceil cs vs hmem _ _ _ b element
    obtain ⟨hf, hemax, hl, hL⟩ := Fmt.mx_of_mem hmem
    subst hemax
    refine ⟨fun h => mxConvert_nan h, fun hn hi => mxConvert_inf hn hi, fun hz => ?_, ?_⟩
    · refine mxConvert_zero (fun v hv => ?_) ?_
      · obtain ⟨n, e, rfl⟩ := hz v hv
        exact ⟨n, 0, e, rfl⟩
      · rcases maxMag_mem vs with h | ⟨n, st, h⟩
        · rw [h]
        · obtain ⟨n', e', hv⟩ := hz _ h
          injection hv
    · intro mx ex s0 hmx ⟨n, hmem⟩ hall hfloor hceil s
      have hfin : finiteAll vs := fun v hv => by
        obtain ⟨n, m, e, rfl, -⟩ := hall v hv
        exact ⟨n, m, e, rfl⟩
      have hx := maxMag_eq hmx hmem hall
      have hpos : 0 < (maxMag vs).1 := magRat_pos.mp (by rw [hx]; exact magRat_pos.mpr hmx)
      have hb : b = _ := mxConvert_num hfin hpos.ne' (mxScale_eq hl hL hpos hx hfloor hceil)
      refine ⟨by rw [hb], by rw [hb], by rw [hb]; exact Bool.eq_iff_iff.mpr (by simp [s]), fun i c n m e hc hv => ?_⟩
      rw [hb]
      refine (mxConvert_elem hf hfin hc hv).trans ?_
      simp only [List.mem_cons, List.not_mem_nil, or_false] at hf
      rcases hf with rfl | rfl | rfl | rfl | rfl | rfl
      case inr.inr.inr.inr.inr => exact mxElem_int8 c _ n m e
      all_goals rfl
  · exact dither_bits
  · exact Wave.ctlWith_eq
end Sys2Proof.Machine
end
